-- ==== Sys2Proof/Word.lean ====
section
/-! DEFINITION. The word types of the Goryar G4 and the plainest arithmetic on them (00_scope R3). -/
namespace Sys2Proof

/-- A byte, the unit of memory (R3). -/
abbrev Byte := BitVec 8
/-- A 32-bit instruction word (R84). -/
abbrev Word32 := BitVec 32
/-- A 64-bit memory word (R157) or control register (R286). -/
abbrev Word64 := BitVec 64
/-- The pattern of one copy of a name: 1 to 528 bits, zero above the name's width (R63). -/
abbrev Pat := BitVec 528

/-- `wrap(w, x)` of R68: the integer congruent to `x` modulo 2^w that lies in 0 to 2^w - 1. -/
def wrapNat (w : Nat) (x : Int) : Nat := (x % (2 ^ w : Int)).toNat

/-- A w-bit pattern read as a two's-complement integer (R63). -/
def signedOf (w : Nat) (x : Nat) : Int := if w = 0 ∨ x < 2 ^ (w - 1) then (x : Int) else (x : Int) - 2 ^ w

/-- Bits [lo + n - 1 : lo] of `x`. -/
def fieldOf (x lo n : Nat) : Nat := x / 2 ^ lo % 2 ^ n

end Sys2Proof
end

