-- ==== Sys2Proof/Config.lean ====
section
/-! DEFINITION. What one implementation fixes, and the free values: values the manual leaves open. A free value has no
body, so nothing can be proved about which value it is. -/
namespace Sys2Proof.Config

/-- Free value: an ECDSA P-384 quote's signature (R386), by the digest signed and byte; the identity secret is fused. -/
opaque quoteSignature : BitVec 384 → Nat → BitVec 8
/-- Free value: whether an image's ECDSA P-384 signature verifies under the vendor key in ROM (R385), by its digest. -/
opaque signatureValid : List (BitVec 8) → Bool
/-- Free value: the identity point and certificate bytes that IDENT returns (R386), by offset from 0x040. -/
opaque identityByte : Nat → BitVec 8
/-- Free value: the length in bytes of the identity certificate, of which at most 3,920 count (R386). -/
opaque certLength : Nat
/-- Free value: the version a firmware image carries; where it stands in the image the manual does not say (R385). -/
opaque firmwareVersion : List (BitVec 8) → BitVec 32
/-- Free values: whether a firmware image brings a configuration table, whether that table verifies, and its fields `svc`, `fmax`,
`pmax`, `vmax`, version, numbered 0 to 4 (R385, R387). -/
opaque bringsTable : List (BitVec 8) → Bool
opaque tableValid : List (BitVec 8) → Bool
opaque tableField : List (BitVec 8) → Nat → Nat
/-- Free value: the role a configuration table gives the tile in a row of the service column: the cluster whose translation service core it is,
or 20 and more for other firmware (R385). -/
opaque tableRole : List (BitVec 8) → Nat → Nat
/-- Free values: the measurement of the ROM, and of the configuration table a firmware image brought, as shipped for none (R386). -/
opaque romMeasurement : BitVec 384
opaque tableMeasurement : List (BitVec 8) → BitVec 384
/-- Free values: the bank and the row of a line of an HBM stack, and whether an access, by place in the order of issue, opens the
row (R376 gives no map and no rule). -/
opaque hbmBank : Nat → Nat
opaque hbmRow : Nat → Nat
opaque opensRow : Nat → Nat → Bool
/-- Free value: whether another module answers an access as a refusal, its export table holding no entry for it (R384), by cycle, physical
address and whether it is a write. -/
opaque peerRefuses : Nat → Nat → Bool → Bool
/-- Free value: whether another module leaves an access unanswered so far (R384), by cycle and physical address. -/
opaque peerSilent : Nat → Nat → Bool
/-- Free value: launch identifiers are the command processor's own choice (R225), by count of identifiers given. -/
opaque lidChoice : Nat → BitVec 32
/-- Free value: image handles are the command processor's own choice (R60), by count. -/
opaque handleChoice : Nat → BitVec 32
/-- Free value: the limit that the command processor sets in TPREMAX of a gang's threads as it asks for a cooperative save, if it sets one (R236), by
cycle and gang. -/
opaque preLimit : Nat → Nat → Option (BitVec 32)
/-- Free value: the device-virtual base that the host stage of LOAD gives an image's DHBM or DCAP (R60), by count of images and section. -/
opaque dataBase : Nat → Bool → Nat
/-- Free value: what stands under a key index that no KEYLOAD has given a key (R361). -/
opaque unloadedKey : Nat → BitVec 512

/-- Free value: TVAL of the POISON of a repack that read a bad copy (R81), by place in the order of issue. -/
opaque repackPoison : Nat → BitVec 64
/-- Free value: the FP32 pattern of a partial sum beyond FP32's largest finite value, by sign (R149). -/
opaque beyondPartial : Bool → BitVec 32

end Sys2Proof.Config
end

