-- ==== Sys2Proof/Syntax.lean ====
section
/-! DEFINITION. The instructions and steps of the Goryar G4: one constructor per row of the opcode table. Instructions
carry decoded operands (names, modifiers), never raw fields (05 R84 to R94). The steps of the machine and the host
commands (95_what_each_step_holds) carry what the row's rule leaves to the moment: which thread, entry or page. -/
namespace Sys2Proof

/-- The length field (R84): base, base with literal, extended, extended with literal. -/
inductive Form | base | baseLit | ext | extLit
  deriving DecidableEq, Repr
/-- The wait field (R14, R85). -/
inductive Wait | none | near | far | both
  deriving DecidableEq, Repr
/-- The eight fixed names (R65). -/
inductive FixedName | zero | portN | portE | portS | portW | portEng | tid | lit
  deriving DecidableEq, Repr
/-- A name field: a catalogue number or a fixed name (R65, R66). -/
inductive NameRef
  | cat (n : BitVec 9)
  | fixed (f : FixedName)
  deriving DecidableEq, Repr
/-- Memory scopes, innermost first (R6, R90). -/
inductive Scope | thr | core | tile | clu | die | dev | sys | recov
  deriving DecidableEq, Repr
/-- Rounding field (R90); `attr` takes the destination's attribute (R64). -/
inductive Rnd | attr | rne | rtz | rdn | rup | rst
  deriving DecidableEq, Repr
/-- Integer lane widths (R180). -/
inductive LaneW | l8 | l16 | l32 | l64
  deriving DecidableEq, Repr
/-- Floating lane formats (R180): FP32, BF16, E4M3, E5M2. -/
inductive LaneF | f32 | b16 | e4 | e5
  deriving DecidableEq, Repr
/-- Atomic sizes (R267): 8, 4 and 2 bytes. -/
inductive AmoSize | d | w | h
  deriving DecidableEq, Repr
/-- Barrier levels (R276). -/
inductive BarLevel | crew | gang | launch | node
  deriving DecidableEq, Repr
/-- `wid.resize` modes (R76). -/
inductive ResizeMode | wrap | sat | trap
  deriving DecidableEq, Repr
/-- Mesh directions, in the order of R65. -/
inductive Dir | n | e | s | w
  deriving DecidableEq, Repr

/-- What every instruction word carries: its length form, its wait field and its trailing literal (zero without one). -/
structure Hdr where
  form : Form
  wait : Wait
  lit : BitVec 64
  deriving DecidableEq, Repr

/-- A core: tile number (2048 x die + 64 x row + column) and core index (R156). -/
structure CoreRef where
  tile : Nat
  core : Fin 3
  deriving DecidableEq, Repr
/-- A hardware thread (R217). -/
structure ThreadRef where
  tile : Nat
  core : Fin 3
  h : Fin 8
  deriving DecidableEq, Repr
/-- Where the command processor binds a gang (R224, R225): slot-table entry, die, cluster, western column, northern row, and the
device-virtual base of its save area. -/
structure Place where
  slot : Nat
  die : Nat
  clu : Nat
  col0 : Nat
  row0 : Nat
  save : Nat
  deriving DecidableEq, Repr
/-- The host's answer to a page request (R394): failure, or success, the host having mapped (or not) the page; or its word to the translation
service core that a range is mapped no more, for which that core requests an invalidation (R370, log 130). -/
inductive PageAnswer
  | failure
  | success (psz : Nat) (w : Bool) (pfn : Nat) (key : Nat)
  | invalidate (ctx base len : Nat)
  deriving DecidableEq, Repr
/-- A CXL.mem access of the host (R377), whole 64-bit words with the full/empty bits the host leaves alone. -/
structure HostAccess where
  write : Bool
  pa : Nat
  bytes : List (BitVec 8)
  deriving DecidableEq, Repr

/-- What training ends with (R387): the capacity links that are up and the stacks of HBM that have trained. -/
structure Trained where
  links : BitVec 16
  hbm : BitVec 8
  deriving DecidableEq, Repr
/-- What an atomic of another module does with a word (R268): the operand of `fadd` is an FP32 pattern, `cas` brings the value compared. -/
inductive PeerAmo
  | swap | cas (c : Nat) | add | and | or | xor | min | max | fadd
  deriving DecidableEq, Repr
/-- A full/empty operation of another module (R269), with the word that it stores. -/
inductive PeerFe
  | ldf | ldk | stf (v : BitVec 64) | sto (v : BitVec 64) | clr | tst
  deriving DecidableEq, Repr
/-- A request of another module (R384) at an offset of this module: a read, a write, an 8-byte atomic add, any atomic of `n` bytes with its
operand (and whether that is signed), a full/empty operation. -/
inductive PeerReq
  | read (off : Nat) (len : Nat)
  | write (off : Nat) (bytes : List (BitVec 8))
  | add (off : Nat) (v : BitVec 64)
  | amo (off : Nat) (f : PeerAmo) (n : Nat) (signed : Bool) (v : Nat)
  | fe (off : Nat) (f : PeerFe)
  deriving DecidableEq, Repr
/-- The phases of a weight-store region write (R161). -/
inductive WsPhase
  | start
  | data (off : Nat) (bytes : List (BitVec 8))
  | finish
  deriving DecidableEq, Repr
/-- A ROM command taken from queue pair `q`: the eight words of its submission entry (R378, R380). -/
structure Command where
  q : Nat
  words : List (BitVec 64)
  deriving DecidableEq, Repr

/-- One constructor per row of the opcode table. -/
inductive Instr
  /-- `sys.halt` (R284). -/
  | sysHalt (h : Hdr)
  /-- `sys.nop` (R284). -/
  | sysNop (h : Hdr)
  /-- `sys.ifence` (R123). -/
  | sysIfence (h : Hdr)
  /-- `sys.tret` (R284). -/
  | sysTret (h : Hdr)
  /-- `sys.svc` (R284). -/
  | sysSvc (h : Hdr) (n : BitVec 18)
  /-- `sys.getc` (R285). -/
  | sysGetc (h : Hdr) (k : BitVec 12) (d : NameRef)
  /-- `sys.setc` (R287). -/
  | sysSetc (h : Hdr) (k : BitVec 12) (d : NameRef)
  /-- `sys.rdevt` (R284). -/
  | sysRdevt (h : Hdr) (k : BitVec 12) (d : NameRef)
  /-- `sys.clrevt` (R287). -/
  | sysClrevt (h : Hdr) (k : BitVec 12)
  /-- `sys.cycle` (R284). -/
  | sysCycle (h : Hdr) (d : NameRef)
  /-- `alu.add` (R105). -/
  | aluAdd (h : Hdr) (d : NameRef) (a : NameRef) (b : NameRef)
  /-- `alu.sub` (R105). -/
  | aluSub (h : Hdr) (d : NameRef) (a : NameRef) (b : NameRef)
  /-- `alu.and` (R105). -/
  | aluAnd (h : Hdr) (d : NameRef) (a : NameRef) (b : NameRef)
  /-- `alu.or` (R105). -/
  | aluOr (h : Hdr) (d : NameRef) (a : NameRef) (b : NameRef)
  /-- `alu.xor` (R105). -/
  | aluXor (h : Hdr) (d : NameRef) (a : NameRef) (b : NameRef)
  /-- `alu.andn` (R105). -/
  | aluAndn (h : Hdr) (d : NameRef) (a : NameRef) (b : NameRef)
  /-- `alu.min` (R105). -/
  | aluMin (h : Hdr) (d : NameRef) (a : NameRef) (b : NameRef)
  /-- `alu.max` (R105). -/
  | aluMax (h : Hdr) (d : NameRef) (a : NameRef) (b : NameRef)
  /-- `alu.mov` (R105). -/
  | aluMov (h : Hdr) (d : NameRef) (a : NameRef)
  /-- `alu.neg` (R105). -/
  | aluNeg (h : Hdr) (d : NameRef) (a : NameRef)
  /-- `alu.abs` (R105). -/
  | aluAbs (h : Hdr) (d : NameRef) (a : NameRef)
  /-- `alu.popc` (R105). -/
  | aluPopc (h : Hdr) (d : NameRef) (a : NameRef)
  /-- `alu.clz` (R105). -/
  | aluClz (h : Hdr) (d : NameRef) (a : NameRef)
  /-- `alu.ctz` (R105). -/
  | aluCtz (h : Hdr) (d : NameRef) (a : NameRef)
  /-- `alui.add` (R106). -/
  | aluiAdd (h : Hdr) (d : NameRef) (a : NameRef) (imm : BitVec 32)
  /-- `alui.sub` (R106). -/
  | aluiSub (h : Hdr) (d : NameRef) (a : NameRef) (imm : BitVec 32)
  /-- `alui.and` (R106). -/
  | aluiAnd (h : Hdr) (d : NameRef) (a : NameRef) (imm : BitVec 32)
  /-- `alui.or` (R106). -/
  | aluiOr (h : Hdr) (d : NameRef) (a : NameRef) (imm : BitVec 32)
  /-- `alui.xor` (R106). -/
  | aluiXor (h : Hdr) (d : NameRef) (a : NameRef) (imm : BitVec 32)
  /-- `alui.min` (R106). -/
  | aluiMin (h : Hdr) (d : NameRef) (a : NameRef) (imm : BitVec 32)
  /-- `alui.max` (R106). -/
  | aluiMax (h : Hdr) (d : NameRef) (a : NameRef) (imm : BitVec 32)
  /-- `alui.set` (R106). -/
  | aluiSet (h : Hdr) (d : NameRef) (imm : BitVec 32)
  /-- `shf.shl` (R107). -/
  | shfShl (h : Hdr) (d : NameRef) (a : NameRef) (b : NameRef)
  /-- `shf.shr` (R107). -/
  | shfShr (h : Hdr) (d : NameRef) (a : NameRef) (b : NameRef)
  /-- `shf.rol` (R107). -/
  | shfRol (h : Hdr) (d : NameRef) (a : NameRef) (b : NameRef)
  /-- `shf.ror` (R107). -/
  | shfRor (h : Hdr) (d : NameRef) (a : NameRef) (b : NameRef)
  /-- `shf.shli` (R107). -/
  | shfShli (h : Hdr) (d : NameRef) (a : NameRef) (imm : BitVec 32)
  /-- `shf.shri` (R107). -/
  | shfShri (h : Hdr) (d : NameRef) (a : NameRef) (imm : BitVec 32)
  /-- `shf.roli` (R107). -/
  | shfRoli (h : Hdr) (d : NameRef) (a : NameRef) (imm : BitVec 32)
  /-- `shf.rori` (R107). -/
  | shfRori (h : Hdr) (d : NameRef) (a : NameRef) (imm : BitVec 32)
  /-- `shf.ext` (R108). -/
  | shfExt (h : Hdr) (d : NameRef) (a : NameRef) (pos : BitVec 10) (flen : BitVec 10) (sx : Bool)
  /-- `shf.ins` (R108). -/
  | shfIns (h : Hdr) (d : NameRef) (a : NameRef) (pos : BitVec 10) (flen : BitVec 10)
  /-- `mul.mul` (R109). -/
  | mulMul (h : Hdr) (d : NameRef) (a : NameRef) (b : NameRef)
  /-- `mul.mac` (R109). -/
  | mulMac (h : Hdr) (d : NameRef) (a : NameRef) (b : NameRef)
  /-- `mul.msub` (R109). -/
  | mulMsub (h : Hdr) (d : NameRef) (a : NameRef) (b : NameRef)
  /-- `mul.mulsh` (R109). -/
  | mulMulsh (h : Hdr) (d : NameRef) (a : NameRef) (b : NameRef) (sh : BitVec 32) (rq : Bool)
  /-- `div.div` (R110). -/
  | divDiv (h : Hdr) (d : NameRef) (a : NameRef) (b : NameRef)
  /-- `div.rem` (R110). -/
  | divRem (h : Hdr) (d : NameRef) (a : NameRef) (b : NameRef)
  /-- `div.divf` (R110). -/
  | divDivf (h : Hdr) (d : NameRef) (a : NameRef) (b : NameRef)
  /-- `div.modf` (R110). -/
  | divModf (h : Hdr) (d : NameRef) (a : NameRef) (b : NameRef)
  /-- `cmp.eq` (R111). -/
  | cmpEq (h : Hdr) (d : NameRef) (a : NameRef) (b : NameRef)
  /-- `cmp.ne` (R111). -/
  | cmpNe (h : Hdr) (d : NameRef) (a : NameRef) (b : NameRef)
  /-- `cmp.lt` (R111). -/
  | cmpLt (h : Hdr) (d : NameRef) (a : NameRef) (b : NameRef)
  /-- `cmp.le` (R111). -/
  | cmpLe (h : Hdr) (d : NameRef) (a : NameRef) (b : NameRef)
  /-- `cmp.gt` (R111). -/
  | cmpGt (h : Hdr) (d : NameRef) (a : NameRef) (b : NameRef)
  /-- `cmp.ge` (R111). -/
  | cmpGe (h : Hdr) (d : NameRef) (a : NameRef) (b : NameRef)
  /-- `cmp.tst` (R111). -/
  | cmpTst (h : Hdr) (d : NameRef) (a : NameRef) (b : NameRef)
  /-- `cmp.sel` (R111). -/
  | cmpSel (h : Hdr) (d : NameRef) (a : NameRef) (b : NameRef) (c : NameRef)
  /-- `wid.resize` (R77). -/
  | widResize (h : Hdr) (n : NameRef) (mode : ResizeMode) (width : BitVec 10)
  /-- `wid.width` (R112). -/
  | widWidth (h : Hdr) (d : NameRef) (a : NameRef)
  /-- `wid.fits` (R112). -/
  | widFits (h : Hdr) (d : NameRef) (a : NameRef) (b : NameRef)
  /-- `br.z` (R115). -/
  | brZ (h : Hdr) (a : NameRef) (off : BitVec 32)
  /-- `br.nz` (R115). -/
  | brNz (h : Hdr) (a : NameRef) (off : BitVec 32)
  /-- `br.lz` (R115). -/
  | brLz (h : Hdr) (a : NameRef) (off : BitVec 32)
  /-- `br.gez` (R115). -/
  | brGez (h : Hdr) (a : NameRef) (off : BitVec 32)
  /-- `br.gz` (R115). -/
  | brGz (h : Hdr) (a : NameRef) (off : BitVec 32)
  /-- `br.lez` (R115). -/
  | brLez (h : Hdr) (a : NameRef) (off : BitVec 32)
  /-- `br.al` (R115). -/
  | brAl (h : Hdr) (off : BitVec 32)
  /-- `jmp.rel` (R116). -/
  | jmpRel (h : Hdr) (off : BitVec 32)
  /-- `jmp.ind` (R116). -/
  | jmpInd (h : Hdr) (a : NameRef) (off : BitVec 32)
  /-- `call.rel` (R120). -/
  | callRel (h : Hdr) (off : BitVec 32)
  /-- `call.ind` (R120). -/
  | callInd (h : Hdr) (a : NameRef) (off : BitVec 32)
  /-- `call.ret` (R120). -/
  | callRet (h : Hdr)
  /-- `addr.glob` (R125). -/
  | addrGlob (h : Hdr) (d : NameRef) (a : NameRef)
  /-- `addr.gen` (R125). -/
  | addrGen (h : Hdr) (d : NameRef) (a : NameRef)
  /-- `addr.lea` (R125). -/
  | addrLea (h : Hdr) (d : NameRef) (a : NameRef) (imm : BitVec 32)
  /-- `ld.b` (R265). -/
  | ldB (h : Hdr) (d : NameRef) (a : NameRef) (off : BitVec 32)
  /-- `ld.h` (R265). -/
  | ldH (h : Hdr) (d : NameRef) (a : NameRef) (off : BitVec 32)
  /-- `ld.w` (R265). -/
  | ldW (h : Hdr) (d : NameRef) (a : NameRef) (off : BitVec 32)
  /-- `ld.d` (R265). -/
  | ldD (h : Hdr) (d : NameRef) (a : NameRef) (off : BitVec 32)
  /-- `ld.v` (R265). -/
  | ldV (h : Hdr) (d : NameRef) (a : NameRef) (off : BitVec 32)
  /-- `ld.g` (R266). -/
  | ldG (h : Hdr) (d : NameRef) (a : NameRef) (off : BitVec 32)
  /-- `st.b` (R265). -/
  | stB (h : Hdr) (d : NameRef) (a : NameRef) (off : BitVec 32)
  /-- `st.h` (R265). -/
  | stH (h : Hdr) (d : NameRef) (a : NameRef) (off : BitVec 32)
  /-- `st.w` (R265). -/
  | stW (h : Hdr) (d : NameRef) (a : NameRef) (off : BitVec 32)
  /-- `st.d` (R265). -/
  | stD (h : Hdr) (d : NameRef) (a : NameRef) (off : BitVec 32)
  /-- `st.v` (R265). -/
  | stV (h : Hdr) (d : NameRef) (a : NameRef) (off : BitVec 32)
  /-- `st.g` (R266). -/
  | stG (h : Hdr) (d : NameRef) (a : NameRef) (off : BitVec 32)
  /-- `amo.swap` (R268). -/
  | amoSwap (h : Hdr) (d : NameRef) (a : NameRef) (b : NameRef) (sz : AmoSize) (sc : Scope)
  /-- `amo.cas` (R268). -/
  | amoCas (h : Hdr) (d : NameRef) (a : NameRef) (b : NameRef) (c : NameRef) (sz : AmoSize) (sc : Scope)
  /-- `amo.add` (R268). -/
  | amoAdd (h : Hdr) (d : NameRef) (a : NameRef) (b : NameRef) (sz : AmoSize) (sc : Scope)
  /-- `amo.and` (R268). -/
  | amoAnd (h : Hdr) (d : NameRef) (a : NameRef) (b : NameRef) (sz : AmoSize) (sc : Scope)
  /-- `amo.or` (R268). -/
  | amoOr (h : Hdr) (d : NameRef) (a : NameRef) (b : NameRef) (sz : AmoSize) (sc : Scope)
  /-- `amo.xor` (R268). -/
  | amoXor (h : Hdr) (d : NameRef) (a : NameRef) (b : NameRef) (sz : AmoSize) (sc : Scope)
  /-- `amo.min` (R268). -/
  | amoMin (h : Hdr) (d : NameRef) (a : NameRef) (b : NameRef) (sz : AmoSize) (sc : Scope)
  /-- `amo.max` (R268). -/
  | amoMax (h : Hdr) (d : NameRef) (a : NameRef) (b : NameRef) (sz : AmoSize) (sc : Scope)
  /-- `amo.fadd` (R268). -/
  | amoFadd (h : Hdr) (d : NameRef) (a : NameRef) (b : NameRef) (sz : AmoSize) (sc : Scope)
  /-- `fe.ldf` (R213). -/
  | feLdf (h : Hdr) (d : NameRef) (a : NameRef) (off : BitVec 32) (sc : Scope)
  /-- `fe.ldk` (R269). -/
  | feLdk (h : Hdr) (d : NameRef) (a : NameRef) (off : BitVec 32) (sc : Scope)
  /-- `fe.stf` (R213). -/
  | feStf (h : Hdr) (d : NameRef) (a : NameRef) (off : BitVec 32) (sc : Scope)
  /-- `fe.sto` (R269). -/
  | feSto (h : Hdr) (d : NameRef) (a : NameRef) (off : BitVec 32) (sc : Scope)
  /-- `fe.clr` (R269). -/
  | feClr (h : Hdr) (a : NameRef) (off : BitVec 32) (sc : Scope)
  /-- `fe.tst` (R269). -/
  | feTst (h : Hdr) (d : NameRef) (a : NameRef) (off : BitVec 32) (sc : Scope)
  /-- `sync.bind` (R271). -/
  | syncBind (h : Hdr) (d : NameRef) (a : NameRef)
  /-- `sync.unbind` (R271). -/
  | syncUnbind (h : Hdr) (d : NameRef) (a : NameRef)
  /-- `sync.acq` (R257). -/
  | syncAcq (h : Hdr) (d : NameRef) (a : NameRef) (sc : Scope)
  /-- `sync.rel` (R256). -/
  | syncRel (h : Hdr) (d : NameRef) (a : NameRef) (sc : Scope)
  /-- `sync.fence` (R255). -/
  | syncFence (h : Hdr) (sc : Scope)
  /-- `task.spawn` (R229). -/
  | taskSpawn (h : Hdr) (a : NameRef) (b : NameRef)
  /-- `task.pop` (R275). -/
  | taskPop (h : Hdr) (d : NameRef)
  /-- `task.steal` (R230). -/
  | taskSteal (h : Hdr) (d : NameRef)
  /-- `task.park` (R275). -/
  | taskPark (h : Hdr) (d : NameRef)
  /-- `task.tour` (R234). -/
  | taskTour (h : Hdr)
  /-- `task.done` (R274). -/
  | taskDone (h : Hdr) (d : NameRef)
  /-- `bar.arrive` (R277). -/
  | barArrive (h : Hdr) (d : NameRef) (lv : BarLevel)
  /-- `bar.wait` (R277). -/
  | barWait (h : Hdr) (a : NameRef) (lv : BarLevel)
  /-- `bar.sync` (R277). -/
  | barSync (h : Hdr) (d : NameRef) (lv : BarLevel)
  /-- `bar.done` (R277). -/
  | barDone (h : Hdr) (a : NameRef)
  /-- `bar.stat` (R278). -/
  | barStat (h : Hdr) (a : NameRef) (lv : BarLevel)
  /-- `vec.add` (R182). -/
  | vecAdd (h : Hdr) (d : NameRef) (a : NameRef) (b : NameRef) (lw : LaneW)
  /-- `vec.sub` (R182). -/
  | vecSub (h : Hdr) (d : NameRef) (a : NameRef) (b : NameRef) (lw : LaneW)
  /-- `vec.mul` (R182). -/
  | vecMul (h : Hdr) (d : NameRef) (a : NameRef) (b : NameRef) (lw : LaneW)
  /-- `vec.mac` (R182). -/
  | vecMac (h : Hdr) (d : NameRef) (a : NameRef) (b : NameRef) (lw : LaneW)
  /-- `vec.min` (R182). -/
  | vecMin (h : Hdr) (d : NameRef) (a : NameRef) (b : NameRef) (lw : LaneW)
  /-- `vec.max` (R182). -/
  | vecMax (h : Hdr) (d : NameRef) (a : NameRef) (b : NameRef) (lw : LaneW)
  /-- `vec.and` (R182). -/
  | vecAnd (h : Hdr) (d : NameRef) (a : NameRef) (b : NameRef) (lw : LaneW)
  /-- `vec.or` (R182). -/
  | vecOr (h : Hdr) (d : NameRef) (a : NameRef) (b : NameRef) (lw : LaneW)
  /-- `vec.xor` (R182). -/
  | vecXor (h : Hdr) (d : NameRef) (a : NameRef) (b : NameRef) (lw : LaneW)
  /-- `vec.shl` (R182). -/
  | vecShl (h : Hdr) (d : NameRef) (a : NameRef) (b : NameRef) (lw : LaneW)
  /-- `vec.shr` (R182). -/
  | vecShr (h : Hdr) (d : NameRef) (a : NameRef) (b : NameRef) (lw : LaneW)
  /-- `vec.abs` (R182). -/
  | vecAbs (h : Hdr) (d : NameRef) (a : NameRef) (lw : LaneW)
  /-- `vec.sel` (R182). -/
  | vecSel (h : Hdr) (d : NameRef) (a : NameRef) (b : NameRef) (c : NameRef) (lw : LaneW)
  /-- `vecf.add` (R183). -/
  | vecfAdd (h : Hdr) (d : NameRef) (a : NameRef) (b : NameRef) (lf : LaneF) (rnd : Rnd)
  /-- `vecf.sub` (R183). -/
  | vecfSub (h : Hdr) (d : NameRef) (a : NameRef) (b : NameRef) (lf : LaneF) (rnd : Rnd)
  /-- `vecf.mul` (R183). -/
  | vecfMul (h : Hdr) (d : NameRef) (a : NameRef) (b : NameRef) (lf : LaneF) (rnd : Rnd)
  /-- `vecf.fma` (R183). -/
  | vecfFma (h : Hdr) (d : NameRef) (a : NameRef) (b : NameRef) (c : NameRef) (lf : LaneF) (rnd : Rnd)
  /-- `vecf.min` (R183). -/
  | vecfMin (h : Hdr) (d : NameRef) (a : NameRef) (b : NameRef) (lf : LaneF) (rnd : Rnd)
  /-- `vecf.max` (R183). -/
  | vecfMax (h : Hdr) (d : NameRef) (a : NameRef) (b : NameRef) (lf : LaneF) (rnd : Rnd)
  /-- `vecf.exp2` (R183). -/
  | vecfExp2 (h : Hdr) (d : NameRef) (a : NameRef) (lf : LaneF) (rnd : Rnd)
  /-- `vecf.rcp` (R183). -/
  | vecfRcp (h : Hdr) (d : NameRef) (a : NameRef) (lf : LaneF) (rnd : Rnd)
  /-- `vecf.rsqrt` (R183). -/
  | vecfRsqrt (h : Hdr) (d : NameRef) (a : NameRef) (lf : LaneF) (rnd : Rnd)
  /-- `vecf.scale` (R183). -/
  | vecfScale (h : Hdr) (d : NameRef) (a : NameRef) (b : NameRef) (lf : LaneF) (rnd : Rnd)
  /-- `vred.sum` (R184). -/
  | vredSum (h : Hdr) (d : NameRef) (a : NameRef) (lw : LaneW) (lf : LaneF) (fl : Bool) (rnd : Rnd)
  /-- `vred.max` (R184). -/
  | vredMax (h : Hdr) (d : NameRef) (a : NameRef) (lw : LaneW) (lf : LaneF) (fl : Bool) (rnd : Rnd)
  /-- `vred.min` (R184). -/
  | vredMin (h : Hdr) (d : NameRef) (a : NameRef) (lw : LaneW) (lf : LaneF) (fl : Bool) (rnd : Rnd)
  /-- `vred.argmax` (R184). -/
  | vredArgmax (h : Hdr) (d : NameRef) (a : NameRef) (lw : LaneW) (lf : LaneF) (fl : Bool) (rnd : Rnd)
  /-- `vred.sumsq` (R184). -/
  | vredSumsq (h : Hdr) (d : NameRef) (a : NameRef) (lw : LaneW) (lf : LaneF) (fl : Bool) (rnd : Rnd)
  /-- `vred.scan` (R184). -/
  | vredScan (h : Hdr) (d : NameRef) (a : NameRef) (lw : LaneW) (lf : LaneF) (fl : Bool) (rnd : Rnd)
  /-- `vmov.mov` (R185). -/
  | vmovMov (h : Hdr) (d : NameRef) (a : NameRef)
  /-- `vmov.bcast` (R185). -/
  | vmovBcast (h : Hdr) (d : NameRef) (a : NameRef) (b : NameRef) (lw : LaneW)
  /-- `vmov.perm` (R185). -/
  | vmovPerm (h : Hdr) (d : NameRef) (a : NameRef) (b : NameRef) (lw : LaneW)
  /-- `vmov.pack` (R185). -/
  | vmovPack (h : Hdr) (d : NameRef) (a : NameRef) (b : NameRef) (lw : LaneW)
  /-- `vmov.unpack` (R185). -/
  | vmovUnpack (h : Hdr) (d : NameRef) (a : NameRef) (b : NameRef) (lw : LaneW)
  /-- `vmov.send` (R186). -/
  | vmovSend (h : Hdr) (d : NameRef) (a : NameRef)
  /-- `vmov.recv` (R186). -/
  | vmovRecv (h : Hdr) (d : NameRef) (a : NameRef)
  /-- `vmov.join` (R204). -/
  | vmovJoin (h : Hdr) (a : NameRef)
  /-- `vmov.leave` (R206). -/
  | vmovLeave (h : Hdr)
  /-- `cvt.quant` (R188). -/
  | cvtQuant (h : Hdr) (d : NameRef) (a : NameRef) (b : NameRef) (c : NameRef) (sf : LaneF) (sup : Bool) (rnd : Rnd)
  /-- `cvt.dequant` (R189). -/
  | cvtDequant (h : Hdr) (d : NameRef) (a : NameRef) (c : NameRef) (lf : LaneF) (part : BitVec 2) (rnd : Rnd)
  /-- `cvt.ftoi` (R190). -/
  | cvtFtoi (h : Hdr) (d : NameRef) (a : NameRef) (sf : LaneF) (lw : LaneW) (rnd : Rnd)
  /-- `cvt.itof` (R190). -/
  | cvtItof (h : Hdr) (d : NameRef) (a : NameRef) (lw : LaneW) (lf : LaneF) (rnd : Rnd)
  /-- `cvt.fconv` (R190). -/
  | cvtFconv (h : Hdr) (d : NameRef) (a : NameRef) (sf : LaneF) (lf : LaneF) (rnd : Rnd)
  /-- `cvt.scale` (R191). -/
  | cvtScale (h : Hdr) (d : NameRef) (a : NameRef) (b : NameRef) (rnd : Rnd)
  /-- `cvt.round` (R190). -/
  | cvtRound (h : Hdr) (d : NameRef) (a : NameRef) (lf : LaneF) (rnd : Rnd)
  /-- `mx.cfg` (R194). -/
  | mxCfg (h : Hdr) (a : NameRef)
  /-- `mx.ldstat` (R196). -/
  | mxLdstat (h : Hdr) (a : NameRef)
  /-- `mx.swap` (R197). -/
  | mxSwap (h : Hdr)
  /-- `mx.stream` (R198). -/
  | mxStream (h : Hdr) (a : NameRef) (b : NameRef)
  /-- `mx.drain` (R199). -/
  | mxDrain (h : Hdr) (a : NameRef) (b : NameRef)
  /-- `mx.clear` (R200). -/
  | mxClear (h : Hdr) (a : NameRef)
  /-- `eng.copy` (R281). -/
  | engCopy (h : Hdr) (a : NameRef)
  /-- `eng.guard` (R282). -/
  | engGuard (h : Hdr) (a : NameRef) (b : NameRef)
  /-- `eng.unveil` (R175). -/
  | engUnveil (h : Hdr) (d : NameRef) (a : NameRef)
  /-- `eng.discard` (R282). -/
  | engDiscard (h : Hdr) (d : NameRef) (a : NameRef)
  /-- `eng.status` (R283). -/
  | engStatus (h : Hdr) (d : NameRef)
  /-- `grp.open` (R291). -/
  | grpOpen (h : Hdr) (a : NameRef)
  /-- `grp.fork` (R294). -/
  | grpFork (h : Hdr) (d : NameRef) (a : NameRef)
  /-- `grp.wait` (R297). -/
  | grpWait (h : Hdr) (d : NameRef) (a : NameRef)
  /-- `grp.wait.ff` (R304). -/
  | grpWaitFf (h : Hdr) (d : NameRef) (a : NameRef)
  /-- `grp.cancel` (R321). -/
  | grpCancel (h : Hdr) (a : NameRef)
  /-- `grp.reward` (R295). -/
  | grpReward (h : Hdr) (a : NameRef)
  /-- `grp.stat` (R298). -/
  | grpStat (h : Hdr) (d : NameRef) (a : NameRef)
  /-- `grp.close` (R298). -/
  | grpClose (h : Hdr) (a : NameRef)
  /-- `smp.seed` (R326). -/
  | smpSeed (h : Hdr) (a : NameRef) (b : NameRef)
  /-- `smp.rand` (R327). -/
  | smpRand (h : Hdr) (d : NameRef) (a : NameRef)
  /-- `smp.stop` (R329). -/
  | smpStop (h : Hdr) (a : NameRef) (b : NameRef)
  /-- `smp.draw` (R328). -/
  | smpDraw (h : Hdr) (d : NameRef) (a : NameRef) (b : NameRef)
  /-- `smp.pos` (R326). -/
  | smpPos (h : Hdr) (d : NameRef)
  /-- `chk.acc` (R208). -/
  | chkAcc (h : Hdr) (d : NameRef) (a : NameRef) (lw : LaneW) (ng : Bool)
  /-- `chk.test` (R209). -/
  | chkTest (h : Hdr) (a : NameRef) (b : NameRef)
  /-- `chk.clr` (R209). -/
  | chkClr (h : Hdr) (d : NameRef)
  /-- `cap.pool` (R334). -/
  | capPool (h : Hdr) (d : NameRef) (a : NameRef)
  /-- `cap.get` (R344). -/
  | capGet (h : Hdr) (d : NameRef) (a : NameRef)
  /-- `cap.put` (R345). -/
  | capPut (h : Hdr) (d : NameRef) (a : NameRef)
  /-- `cap.stat` (R348). -/
  | capStat (h : Hdr) (d : NameRef) (a : NameRef)
  /-- `dur.begin` (R355). -/
  | durBegin (h : Hdr) (d : NameRef) (a : NameRef) (b : NameRef)
  /-- `dur.commit` (R339). -/
  | durCommit (h : Hdr) (d : NameRef) (a : NameRef)
  /-- `dur.point` (R338). -/
  | durPoint (h : Hdr) (d : NameRef) (a : NameRef)
  /-- `dur.scan` (R356). -/
  | durScan (h : Hdr) (d : NameRef) (a : NameRef)
  /-- UNASSIGNED_ENCODING (R97). An unassigned encoding raises ILL or enters its emulation routine with FEATURE. -/
  | unassignedEncoding (w0 : BitVec 32)
  /-- IDENT (R386). Returns the feature mask and identity to a host buffer. -/
  | ident (cmd : Command)
  /-- LOAD (R60). Loads and places an image, returning a handle. -/
  | load (cmd : Command)
  /-- UNLOAD (R380). Unloads an image handle. -/
  | unload (cmd : Command)
  /-- LAUNCH (R223). Launches a bundle of kernels, writing its bind records. -/
  | launch (cmd : Command)
  /-- PREEMPT (R236). Requests cooperative or forced pre-emption of a launch. -/
  | preempt (cmd : Command)
  /-- RESUME (R240). Resumes a saved gang from its save area. -/
  | resume (cmd : Command)
  /-- FRSET (R155). Writes a format-range entry after flushing its ranges. -/
  | frset (cmd : Command)
  /-- INVAL (R370). Invalidates a range of a context's translations. -/
  | inval (cmd : Command)
  /-- KEYLOAD (R361). Loads an encryption key. -/
  | keyload (cmd : Command)
  /-- VAULTSET (R350). Sets the vault's base and size. -/
  | vaultset (cmd : Command)
  /-- REPLAY (R358). Scans vault records per buffer and reports recovery points. -/
  | replay (cmd : Command)
  /-- ROUTE (R384). Sets the module identifier and route words. -/
  | route (cmd : Command)
  /-- EXPORT (R384). Writes an export table entry. -/
  | exportCmd (cmd : Command)
  /-- FWLOAD (R385). Checks and writes a firmware image into the inactive slot. -/
  | fwload (cmd : Command)
  /-- FWACT (R385). Resets the module into the trial firmware slot. -/
  | fwact (cmd : Command)
  /-- ATTEST (R386). Returns a signed quote of the measurements. -/
  | attest (cmd : Command)
  /-- CTXNEW (R381). Creates a context with seal words, shadow pool and private memory. -/
  | ctxnew (cmd : Command)
  /-- CTXEND (R380). Ends a context and frees its pool. -/
  | ctxend (cmd : Command)
  /-- PWRSET (R388). Sets PWRLIM. -/
  | pwrset (cmd : Command)
  /-- FAULTS (R368). Moves fault records to a host buffer. -/
  | faults (cmd : Command)
  /-- FETCH_END_ACCESS (R114). A thread whose next address is 0x8_0000 takes ACCESS at its next slot. -/
  | fetchEndAccess (t : ThreadRef)
  /-- ASYNC_WRITE (R70). A load reply, port delivery or engine write completes into a named copy. -/
  | asyncWrite (k : CoreRef)
  /-- ASYNC_TRAP_ENTRY (R290). A pending asynchronous trap is taken at the thread's first READY slot. -/
  | asyncTrapEntry (t : ThreadRef)
  /-- LONG_OP_COMPLETE (R87). A multiply, divide, spill or refill that outlasts eight cycles completes and the thread rejoins the rotation. -/
  | longOpComplete (t : ThreadRef)
  /-- WAITLIM_EXPIRE (R215). A bounded wait reaches its TWAITLIM count and the instruction traps WAITLIM. -/
  | waitlimExpire (t : ThreadRef)
  /-- FE_WAIT_SATISFIED (R258). A waiting full/empty operation is re-tested at the home after the word changes and performs. -/
  | feWaitSatisfied (t : ThreadRef)
  /-- REPACK_UNFREEZE (R78). A repack ends, held writes are applied and the kernel is unfrozen. -/
  | repackUnfreeze (k : CoreRef)
  /-- MESH_WORD_ARRIVE (R160). A word from a neighbour's outbound queue arrives in a port buffer. -/
  | meshWordArrive (k : CoreRef) (dir : Dir)
  /-- STORE_ENTRY_PERFORM (R252). The machine performs a store-buffer entry at its home. -/
  | storeEntryPerform (k : CoreRef) (idx : Nat)
  /-- REFLECTION_EVICT (R253). The machine discards a reflection at will. -/
  | reflectionEvict (die : Nat) (line : Nat)
  /-- VAULT_WRITE_DURABLE (R352). A vault write moves into the buffer's write queue and is acknowledged durable. -/
  | vaultWriteDurable (buf : Nat) (idx : Nat)
  /-- ENG_RESERVATION_GRANT (R164). A waiting engine header write is granted room in the command buffer. -/
  | engReservationGrant (k : CoreRef)
  /-- ENGINE_COMMAND_ACCEPT (R170). A completed command passes to its engine, takes scoreboard entries or is refused. -/
  | engineCommandAccept (k : CoreRef)
  /-- ENGINE_BURST (R167). An engine moves a 64-byte burst of a head command in round-robin order. -/
  | engineBurst (tile : Nat) (eng : Nat) (queue : Nat)
  /-- ENGINE_FOLLOWON (R166). The copy engine issues a follow-on matrix command to the array. -/
  | engineFollowon (tile : Nat)
  /-- ENGINE_COMMAND_END (R168). A command ends: entries released, semaphore and status word written. -/
  | engineCommandEnd (tile : Nat) (eng : Nat) (queue : Nat)
  /-- ENGINE_STATUS_POST (R168). A status word waiting for room is posted to the port.eng buffer. -/
  | engineStatusPost (k : CoreRef)
  /-- UNVEIL_FLIP (R175). Once the set's commands have ended, translation is blocked, pages flipped and old frames returned. -/
  | unveilFlip (t : ThreadRef)
  /-- SHADOW_DISCARD (R282). Once the set's commands have ended, its shadows return to the pool. -/
  | shadowDiscard (t : ThreadRef)
  /-- MX_COMMAND_COMPLETE (R202). The array finishes a matrix command and the issuer rejoins the rotation. -/
  | mxCommandComplete (tile : Nat)
  /-- ARRAY_CHANNEL_MESSAGE (R176). An activation row or partial sum arrives on an array channel of a rectangle. -/
  | arrayChannelMessage (tile : Nat) (dir : Dir)
  /-- ARRAY_CONFIG_MESSAGE (R177). A neighbour's configuration message arrives and the tile checks it. -/
  | arrayConfigMessage (tile : Nat) (dir : Dir)
  /-- DOORBELL_NOTICE (R311). A drain finding the doorbell empty writes a logits notice. -/
  | doorbellNotice (tile : Nat)
  /-- VG_FORM (R204). All claimed followers wait in join and the group forms in one cycle. -/
  | vgForm (t : ThreadRef)
  /-- VG_FORWARD (R205). A forwarded instruction arrives in a follower's forward buffer. -/
  | vgForward (t : ThreadRef)
  /-- BIND_RECORD_WRITE (R225). The command processor writes a gang's bind record into a free slot-table entry. -/
  | bindRecordWrite (lid : BitVec 64) (place : Place)
  /-- LEASE_ROW_RELEASE (R226). A kernel's register row goes free and a pending entry's row is written. -/
  | leaseRowRelease (k : CoreRef)
  /-- IMAGE_RELEASE (R226). A tile's local image goes free and the pending bundle's image is written. -/
  | imageRelease (tile : Nat)
  /-- GANG_START (R221). All threads of a gang pass from LOADING to READY in one cycle. -/
  | gangStart (die : Nat) (slot : Nat)
  /-- STEAL_REQUEST (R230). A steal request reaches a victim's deque unit. -/
  | stealRequest (k : CoreRef)
  /-- STEAL_REPLY (R230). A steal reply with a record or empty reaches the thief. -/
  | stealReply (t : ThreadRef)
  /-- PARK_STEAL_RETRY (R230). Every 64 cycles a steal attempt is made for a parked thread. -/
  | parkStealRetry (t : ThreadRef)
  /-- STATUS_WORD_ARRIVE (R231). A child tile's status word reaches its parent in the completion tree. -/
  | statusWordArrive (tile : Nat) (kern : Nat)
  /-- LAUNCH_COMPLETE (R232). The root's word reaches the command processor and the launch's status is combined. -/
  | launchComplete (lid : BitVec 64)
  /-- TOUR_TOKEN (R234). The tour token arrives at a core of the ring. -/
  | tourToken (k : CoreRef)
  /-- TOUR_ROUND_START (R234). A passive armed root with no token out starts a round. -/
  | tourRoundStart (k : CoreRef)
  /-- TOUR_FINISH (R235). The finish message reaches a core and wakes its parked threads. -/
  | tourFinish (k : CoreRef)
  /-- BARRIER_COMPLETE (R222). A barrier phase completes in the cycle after the last arrival. -/
  | barrierComplete (tile : Nat) (lv : BarLevel)
  /-- PREEMPT_TIMEOUT (R236). A cooperative request exceeds TPREMAX and becomes a forced save. -/
  | preemptTimeout (gang : Nat)
  /-- COOP_SAVE (R237). All threads stopped at checkpoints and the gang is saved cooperatively. -/
  | coopSave (gang : Nat)
  /-- FORCED_SAVE (R238). The dispatch hardware freezes and saves a whole gang. -/
  | forcedSave (gang : Nat)
  /-- GROUP_TIMEOUT (R295). The group timeout falls due after the quorum. -/
  | groupTimeout (gang : Nat) (g : Nat)
  /-- FORK_REMOTE_COPY (R301). The opener's names arrive on a remote core and are written into a sibling. -/
  | forkRemoteCopy (t : ThreadRef)
  /-- MISS_RECORD (R362). A TLB or cache miss writes a record into the miss ring. -/
  | missRecord (tile : Nat) (idx : Nat)
  /-- FILL_DELIVER (R363). The hardware sees a full reply word and installs, refuses or fails the answer. -/
  | fillDeliver (cluster : Nat)
  /-- HOST_PAGE_ANSWER (R394). The host answers a page request and the firmware walks again or answers HOSTFAIL. -/
  | hostPageAnswer (cluster : Nat) (answer : PageAnswer)
  /-- SIDELOG_REPLAY (R366). A fill for a granule replays its side-log entries oldest first. -/
  | sidelogReplay (tile : Nat)
  /-- TILE_INVAL_ACK (R370). A tile drops entries, drains accesses and acknowledges an invalidation. -/
  | tileInvalAck (tile : Nat)
  /-- PATROL_SCRUB (R371). Controller patrol scrubbing marks words poisoned. -/
  | patrolScrub (word : Nat)
  /-- CONTAIN_NODE (R372). A poison or fault in a containable node discards and rebinds the attempt. -/
  | containNode (lid : BitVec 64)
  /-- CP_LOCKSTEP_RESET (R373). A command-processor mismatch resets and restarts the pair from its journal. -/
  | cpLockstepReset (die : Nat)
  /-- WS_REFRESH (R162). A weight-store bank enters or leaves refresh by the cycle count. -/
  | wsRefresh (die : Nat) (bank : Nat)
  /-- HBM_ALERT (R376). A row's activation count reaches the threshold and refresh management runs. -/
  | hbmAlert (stack : Nat) (bank : Nat) (row : Nat)
  /-- HBM_BACKOFF_END (R376). A bank's 192-cycle back-off ends. -/
  | hbmBackoffEnd (stack : Nat) (bank : Nat)
  /-- QSTAIL_DOORBELL (R378). The host writes a submission tail doorbell. -/
  | qstailDoorbell (q : Nat) (v : BitVec 64)
  /-- QCHEAD_WRITE (R379). The host advances the completion head and the pair may resume taking commands. -/
  | qcheadWrite (q : Nat) (v : BitVec 64)
  /-- QUEUE_COMMAND_TAKE (R383). At its round-robin turn a pair takes one submission entry. -/
  | queueCommandTake (q : Nat)
  /-- HOST_REGISTER_WRITE (R378). A host write to a BAR register with no row of its own. -/
  | hostRegisterWrite (off : Nat) (v : BitVec 64)
  /-- FWCOMMIT_WRITE (R385). A commit write before expiry makes the trial firmware active. -/
  | fwcommitWrite (v : BitVec 64)
  /-- FW_WATCHDOG_EXPIRE (R385). The 30 s watchdog expires and the module reverts to the old slot. -/
  | fwWatchdogExpire
  /-- PEER_REQUEST (R384). A request from another module is resolved through the export table. -/
  | peerRequest (req : PeerReq)
  /-- PEER_TIMEOUT (R384). A peer request unanswered for 2^24 cycles fails as HOSTFAIL with reason 0x02. -/
  | peerTimeout (t : ThreadRef)
  /-- PORT_DOWN (R384). Every port of a route word goes down and that module's frames fail. -/
  | portDown (port : Nat)
  /-- HOST_MEM_ACCESS (R377). A host CXL.mem read or write reaches device memory. -/
  | hostMemAccess (acc : HostAccess)
  /-- TRAINING_DONE (R387). Training finishes, red clears and rdy sets. -/
  | trainingDone (t : Trained)
  /-- CLOCK_STEP_ADJUST (R388). Every 1 ms the clock step is raised or lowered for power and heat. -/
  | clockStepAdjust (power : BitVec 16) (temp : BitVec 8)
  /-- THERMAL_RESET (R389). A tile at 110 degrees resets the compute dies. -/
  | thermalReset
  /-- MODULE_POWER_ON (R352). Module power-on resets every domain, the vault included. -/
  | modulePowerOn
  /-- WEIGHT_STORE_WRITE (R161). The ROM command set writes a weight-store region between kernels, and launches listing that region bind when the write ends. -/
  | weightStoreWrite (die : Nat) (region : Nat) (phase : WsPhase)
  /-- HBM_REFRESH (R376). An HBM row is refreshed of itself and its activation count is cleared. -/
  | hbmRefresh (stack : Nat) (bank : Nat) (row : Nat)
  /-- SOFT_ERROR (R371). A soft error strikes a stored word or line, to be found later as a corrected or uncorrectable error. -/
  | softError (word : Nat) (bits : Nat)
  /-- PORT_UP (R384). An Ewefer port of a route word returns to service, so that module's frames are reached again. -/
  | portUp (port : Nat)
  /-- REQUEST_WITHDRAWN (R218). A pending cooperative pre-emption request is withdrawn and STOPPED threads become READY again. -/
  | requestWithdrawn (gang : Nat)
  deriving DecidableEq, Repr

end Sys2Proof
end

