-- ==== Sys2Proof/Decode.lean ====
section
/-! DEFINITION. The decoder and the encoder (05 R84 to R97). A word is first cut into fields under its layout (R88, R89),
then a candidate instruction is formed from the fields, and the candidate stands only when it gives back exactly those
fields: so every bit an instruction does not use must be zero, and a reserved value is refused (R92). -/
namespace Sys2Proof

/-- Base layouts (R88). -/
inductive Layout | n3 | ni | nm | nb | nj | nc | nz | nw
  deriving DecidableEq, Repr
/-- The lengths a function admits (R93). -/
inductive Lengths | all | noLit | baseOnly | baseLit | extOnly
  deriving DecidableEq, Repr
/-- Why a word is refused: a length the function does not admit (R96 step 4), a field that breaks R92 (step 5), or too few
words to hold what the length field asks for (R114). -/
inductive DecodeError | badLength | badField | truncated
  deriving DecidableEq, Repr

/-- The fields of an instruction, names in the extended numbering, immediates and offsets as read (R88, R89). -/
structure Fields where
  d : BitVec 9 := 0
  a : BitVec 9 := 0
  b : BitVec 9 := 0
  c : BitVec 9 := 0
  rnd : BitVec 3 := 0
  sc : BitVec 3 := 0
  xmod : BitVec 8 := 0
  imm : BitVec 32 := 0
  deriving DecidableEq, Repr

/-! ### Names and modifiers -/

def fixedOf (k : BitVec 3) : FixedName :=
  match k.toNat with
  | 0 => .zero | 1 => .portN | 2 => .portE | 3 => .portS | 4 => .portW | 5 => .portEng | 6 => .tid | _ => .lit
def fixedNum : FixedName → BitVec 3
  | .zero => 0 | .portN => 1 | .portE => 2 | .portS => 3 | .portW => 4 | .portEng => 5 | .tid => 6 | .lit => 7
/-- Extended name numbers: 504 to 511 are the fixed names (R65). -/
def nameOf (n : BitVec 9) : NameRef := if 504 ≤ n.toNat then .fixed (fixedOf (n.setWidth 3)) else .cat n
def numOf : NameRef → BitVec 9
  | .cat n => n
  | .fixed f => 0b111111#6 ++ fixedNum f
/-- A base name field: 56 to 63 are the fixed names (R65). -/
def widenName (n : BitVec 6) : BitVec 9 := if 56 ≤ n.toNat then 0b111#3 ++ n else 0b000#3 ++ n

def scopeOf (k : BitVec 3) : Scope :=
  match k.toNat with
  | 0 => .thr | 1 => .core | 2 => .tile | 3 => .clu | 4 => .die | 5 => .dev | 6 => .sys | _ => .recov
def scopeNum : Scope → BitVec 3
  | .thr => 0 | .core => 1 | .tile => 2 | .clu => 3 | .die => 4 | .dev => 5 | .sys => 6 | .recov => 7
def rndOf (k : BitVec 3) : Rnd :=
  match k.toNat with
  | 0 => .attr | 1 => .rne | 2 => .rtz | 3 => .rdn | 4 => .rup | _ => .rst
def rndNum : Rnd → BitVec 3
  | .attr => 0 | .rne => 1 | .rtz => 2 | .rdn => 3 | .rup => 4 | .rst => 5
def laneWOf (k : BitVec 2) : LaneW := match k.toNat with | 0 => .l8 | 1 => .l16 | 2 => .l32 | _ => .l64
def laneWNum : LaneW → BitVec 8 | .l8 => 0 | .l16 => 1 | .l32 => 2 | .l64 => 3
def laneFOf (k : BitVec 2) : LaneF := match k.toNat with | 0 => .f32 | 1 => .b16 | 2 => .e4 | _ => .e5
def laneFNum : LaneF → BitVec 8 | .f32 => 0 | .b16 => 1 | .e4 => 2 | .e5 => 3
def amoSizeOf (x : BitVec 8) : AmoSize := match (x.setWidth 2).toNat with | 0 => .d | 1 => .w | _ => .h
def amoSizeNum : AmoSize → BitVec 8 | .d => 0 | .w => 1 | .h => 2
def barLevelOf (x : BitVec 8) : BarLevel := match (x.setWidth 2).toNat with | 0 => .crew | 1 => .gang | 2 => .launch | _ => .node
def barLevelNum : BarLevel → BitVec 8 | .crew => 0 | .gang => 1 | .launch => 2 | .node => 3
def resizeModeOf (x : BitVec 8) : ResizeMode := match (x.setWidth 2).toNat with | 0 => .wrap | 1 => .sat | _ => .trap
def resizeModeNum : ResizeMode → BitVec 8 | .wrap => 0 | .sat => 1 | .trap => 2
def waitOf (k : BitVec 2) : Wait := match k.toNat with | 0 => .none | 1 => .near | 2 => .far | _ => .both
def waitNum : Wait → BitVec 2 | .none => 0 | .near => 1 | .far => 2 | .both => 3
def formOf (k : BitVec 2) : Form := match k.toNat with | 0 => .base | 1 => .baseLit | 2 => .ext | _ => .extLit
def formNum : Form → BitVec 2 | .base => 0 | .baseLit => 1 | .ext => 2 | .extLit => 3
def Form.isExt : Form → Bool | .base | .baseLit => false | .ext | .extLit => true
def Form.hasLit : Form → Bool | .base | .ext => false | .baseLit | .extLit => true
/-- Words an instruction of this form takes (R84). -/
def Form.words : Form → Nat | .base => 1 | .baseLit => 3 | .ext => 3 | .extLit => 5
def bitAt (x : Bool) (i : Nat) : BitVec 8 := if x then 1#8 <<< i else 0
/-- Field `c` of `cvt.quant` and `cvt.dequant`: in the base form it reads as `zero` (R187). -/
def cNameOf (h : Hdr) (f : Fields) : NameRef := if h.form.isExt then nameOf f.c else .fixed .zero
def cNumOf (h : Hdr) (c : NameRef) : BitVec 9 := if h.form.isExt then numOf c else 0

/-! ### The function map (R94) -/

/-- Layout and admitted lengths of an assigned function (R93, R94). -/
def functionOf (maj fn : Nat) : Option (Layout × Lengths) :=
  match maj with
  | 0 => match fn with
    | 0 | 1 | 2 | 3 | 4 => some (.nz, .baseOnly)
    | 5 | 7 | 8 | 9 => some (.nc, .baseOnly)
    | 6 => some (.nc, .baseLit)
    | _ => none
  | 1 => match fn with
    | 0 | 1 | 2 | 3 | 4 | 5 | 6 | 7 | 8 | 9 | 10 | 11 | 12 | 13 => some (.n3, .all)
    | _ => none
  | 2 => match fn with
    | 0 | 1 | 2 | 3 | 4 | 5 | 6 | 7 => some (.ni, .all)
    | _ => none
  | 3 => match fn with
    | 0 | 1 | 2 | 3 => some (.n3, .all)
    | 4 | 5 | 6 | 7 => some (.ni, .all)
    | 8 | 9 => some (.n3, .extOnly)
    | _ => none
  | 4 => match fn with
    | 0 | 1 | 2 => some (.n3, .all)
    | 3 => some (.n3, .extOnly)
    | _ => none
  | 5 => match fn with
    | 0 | 1 | 2 | 3 => some (.n3, .all)
    | _ => none
  | 6 => match fn with
    | 0 | 1 | 2 | 3 | 4 | 5 | 6 => some (.n3, .all)
    | 7 => some (.n3, .extOnly)
    | _ => none
  | 7 => match fn with
    | 0 => some (.nw, .noLit)
    | 1 | 2 => some (.n3, .all)
    | _ => none
  | 8 => match fn with
    | 0 | 1 | 2 | 3 | 4 | 5 | 6 => some (.nb, .all)
    | _ => none
  | 9 => match fn with
    | 0 => some (.nj, .noLit)
    | 1 => some (.nb, .all)
    | _ => none
  | 10 => match fn with
    | 0 => some (.nj, .noLit)
    | 1 => some (.nb, .all)
    | 2 => some (.nz, .baseOnly)
    | _ => none
  | 11 => match fn with
    | 0 | 1 => some (.n3, .all)
    | 2 => some (.ni, .all)
    | _ => none
  | 12 => match fn with
    | 0 | 1 | 2 | 3 | 4 | 5 => some (.nm, .all)
    | _ => none
  | 13 => match fn with
    | 0 | 1 | 2 | 3 | 4 | 5 => some (.nm, .all)
    | _ => none
  | 14 => match fn with
    | 0 | 2 | 3 | 4 | 5 | 6 | 7 | 8 => some (.n3, .all)
    | 1 => some (.n3, .extOnly)
    | _ => none
  | 15 => match fn with
    | 0 | 1 | 2 | 3 | 4 | 5 => some (.nm, .all)
    | _ => none
  | 16 => match fn with
    | 0 | 1 | 2 | 3 | 4 => some (.nm, .all)
    | _ => none
  | 17 => match fn with
    | 0 | 1 | 2 | 3 | 4 | 5 => some (.n3, .all)
    | _ => none
  | 18 => match fn with
    | 0 | 1 | 2 | 3 | 4 => some (.n3, .all)
    | _ => none
  | 19 => match fn with
    | 0 | 1 | 2 | 3 | 4 | 5 | 6 | 7 | 8 | 9 | 10 | 11 => some (.n3, .all)
    | 12 => some (.n3, .extOnly)
    | _ => none
  | 20 => match fn with
    | 0 | 1 | 2 | 4 | 5 | 6 | 7 | 8 | 9 => some (.n3, .all)
    | 3 => some (.n3, .extOnly)
    | _ => none
  | 21 => match fn with
    | 0 | 1 | 2 | 3 | 4 | 5 => some (.n3, .all)
    | _ => none
  | 22 => match fn with
    | 0 | 1 | 2 | 3 | 4 | 5 | 6 | 7 | 8 => some (.n3, .all)
    | _ => none
  | 23 => match fn with
    | 0 | 1 | 2 | 3 | 4 | 5 | 6 => some (.n3, .all)
    | _ => none
  | 24 => match fn with
    | 0 | 1 | 2 | 3 | 4 | 5 => some (.n3, .all)
    | _ => none
  | 25 => match fn with
    | 0 | 1 | 2 | 3 | 4 => some (.n3, .all)
    | _ => none
  | 26 => match fn with
    | 0 | 1 | 2 | 3 | 4 | 5 | 6 => some (.n3, .all)
    | _ => none
  | 27 => match fn with
    | 0 | 1 | 2 | 3 | 4 => some (.n3, .all)
    | _ => none
  | 28 => match fn with
    | 0 | 1 | 2 => some (.n3, .all)
    | _ => none
  | 29 => match fn with
    | 0 | 1 | 2 | 3 => some (.n3, .all)
    | _ => none
  | 30 => match fn with
    | 0 | 1 | 2 | 3 => some (.n3, .all)
    | _ => none
  | _ => none

/-- Candidate instructions of major 0. -/
def candidate0 (fn : Nat) (h : Hdr) (f : Fields) : Option Instr :=
  match fn with
  | 0 => some (.sysHalt h)
  | 1 => some (.sysNop h)
  | 2 => some (.sysIfence h)
  | 3 => some (.sysTret h)
  | 4 => some (.sysSvc h (f.imm.setWidth 18))
  | 5 => some (.sysGetc h (f.imm.setWidth 12) (nameOf f.d))
  | 6 => some (.sysSetc h (f.imm.setWidth 12) (nameOf f.d))
  | 7 => some (.sysRdevt h (f.imm.setWidth 12) (nameOf f.d))
  | 8 => some (.sysClrevt h (f.imm.setWidth 12))
  | 9 => some (.sysCycle h (nameOf f.d))
  | _ => none

/-- Candidate instructions of major 1. -/
def candidate1 (fn : Nat) (h : Hdr) (f : Fields) : Option Instr :=
  match fn with
  | 0 => some (.aluAdd h (nameOf f.d) (nameOf f.a) (nameOf f.b))
  | 1 => some (.aluSub h (nameOf f.d) (nameOf f.a) (nameOf f.b))
  | 2 => some (.aluAnd h (nameOf f.d) (nameOf f.a) (nameOf f.b))
  | 3 => some (.aluOr h (nameOf f.d) (nameOf f.a) (nameOf f.b))
  | 4 => some (.aluXor h (nameOf f.d) (nameOf f.a) (nameOf f.b))
  | 5 => some (.aluAndn h (nameOf f.d) (nameOf f.a) (nameOf f.b))
  | 6 => some (.aluMin h (nameOf f.d) (nameOf f.a) (nameOf f.b))
  | 7 => some (.aluMax h (nameOf f.d) (nameOf f.a) (nameOf f.b))
  | 8 => some (.aluMov h (nameOf f.d) (nameOf f.a))
  | 9 => some (.aluNeg h (nameOf f.d) (nameOf f.a))
  | 10 => some (.aluAbs h (nameOf f.d) (nameOf f.a))
  | 11 => some (.aluPopc h (nameOf f.d) (nameOf f.a))
  | 12 => some (.aluClz h (nameOf f.d) (nameOf f.a))
  | 13 => some (.aluCtz h (nameOf f.d) (nameOf f.a))
  | _ => none

/-- Candidate instructions of major 2. -/
def candidate2 (fn : Nat) (h : Hdr) (f : Fields) : Option Instr :=
  match fn with
  | 0 => some (.aluiAdd h (nameOf f.d) (nameOf f.a) f.imm)
  | 1 => some (.aluiSub h (nameOf f.d) (nameOf f.a) f.imm)
  | 2 => some (.aluiAnd h (nameOf f.d) (nameOf f.a) f.imm)
  | 3 => some (.aluiOr h (nameOf f.d) (nameOf f.a) f.imm)
  | 4 => some (.aluiXor h (nameOf f.d) (nameOf f.a) f.imm)
  | 5 => some (.aluiMin h (nameOf f.d) (nameOf f.a) f.imm)
  | 6 => some (.aluiMax h (nameOf f.d) (nameOf f.a) f.imm)
  | 7 => some (.aluiSet h (nameOf f.d) f.imm)
  | _ => none

/-- Candidate instructions of major 3. -/
def candidate3 (fn : Nat) (h : Hdr) (f : Fields) : Option Instr :=
  match fn with
  | 0 => some (.shfShl h (nameOf f.d) (nameOf f.a) (nameOf f.b))
  | 1 => some (.shfShr h (nameOf f.d) (nameOf f.a) (nameOf f.b))
  | 2 => some (.shfRol h (nameOf f.d) (nameOf f.a) (nameOf f.b))
  | 3 => some (.shfRor h (nameOf f.d) (nameOf f.a) (nameOf f.b))
  | 4 => some (.shfShli h (nameOf f.d) (nameOf f.a) f.imm)
  | 5 => some (.shfShri h (nameOf f.d) (nameOf f.a) f.imm)
  | 6 => some (.shfRoli h (nameOf f.d) (nameOf f.a) f.imm)
  | 7 => some (.shfRori h (nameOf f.d) (nameOf f.a) f.imm)
  | 8 => some (.shfExt h (nameOf f.d) (nameOf f.a) (f.imm.extractLsb' 0 10) (f.imm.extractLsb' 10 10) (f.xmod.getLsbD 0))
  | 9 => some (.shfIns h (nameOf f.d) (nameOf f.a) (f.imm.extractLsb' 0 10) (f.imm.extractLsb' 10 10))
  | _ => none

/-- Candidate instructions of major 4. -/
def candidate4 (fn : Nat) (h : Hdr) (f : Fields) : Option Instr :=
  match fn with
  | 0 => some (.mulMul h (nameOf f.d) (nameOf f.a) (nameOf f.b))
  | 1 => some (.mulMac h (nameOf f.d) (nameOf f.a) (nameOf f.b))
  | 2 => some (.mulMsub h (nameOf f.d) (nameOf f.a) (nameOf f.b))
  | 3 => some (.mulMulsh h (nameOf f.d) (nameOf f.a) (nameOf f.b) f.imm (f.xmod.getLsbD 0))
  | _ => none

/-- Candidate instructions of major 5. -/
def candidate5 (fn : Nat) (h : Hdr) (f : Fields) : Option Instr :=
  match fn with
  | 0 => some (.divDiv h (nameOf f.d) (nameOf f.a) (nameOf f.b))
  | 1 => some (.divRem h (nameOf f.d) (nameOf f.a) (nameOf f.b))
  | 2 => some (.divDivf h (nameOf f.d) (nameOf f.a) (nameOf f.b))
  | 3 => some (.divModf h (nameOf f.d) (nameOf f.a) (nameOf f.b))
  | _ => none

/-- Candidate instructions of major 6. -/
def candidate6 (fn : Nat) (h : Hdr) (f : Fields) : Option Instr :=
  match fn with
  | 0 => some (.cmpEq h (nameOf f.d) (nameOf f.a) (nameOf f.b))
  | 1 => some (.cmpNe h (nameOf f.d) (nameOf f.a) (nameOf f.b))
  | 2 => some (.cmpLt h (nameOf f.d) (nameOf f.a) (nameOf f.b))
  | 3 => some (.cmpLe h (nameOf f.d) (nameOf f.a) (nameOf f.b))
  | 4 => some (.cmpGt h (nameOf f.d) (nameOf f.a) (nameOf f.b))
  | 5 => some (.cmpGe h (nameOf f.d) (nameOf f.a) (nameOf f.b))
  | 6 => some (.cmpTst h (nameOf f.d) (nameOf f.a) (nameOf f.b))
  | 7 => some (.cmpSel h (nameOf f.d) (nameOf f.a) (nameOf f.b) (nameOf f.c))
  | _ => none

/-- Candidate instructions of major 7. -/
def candidate7 (fn : Nat) (h : Hdr) (f : Fields) : Option Instr :=
  match fn with
  | 0 => some (.widResize h (nameOf f.d) (resizeModeOf f.xmod) (f.imm.setWidth 10))
  | 1 => some (.widWidth h (nameOf f.d) (nameOf f.a))
  | 2 => some (.widFits h (nameOf f.d) (nameOf f.a) (nameOf f.b))
  | _ => none

/-- Candidate instructions of major 8. -/
def candidate8 (fn : Nat) (h : Hdr) (f : Fields) : Option Instr :=
  match fn with
  | 0 => some (.brZ h (nameOf f.a) f.imm)
  | 1 => some (.brNz h (nameOf f.a) f.imm)
  | 2 => some (.brLz h (nameOf f.a) f.imm)
  | 3 => some (.brGez h (nameOf f.a) f.imm)
  | 4 => some (.brGz h (nameOf f.a) f.imm)
  | 5 => some (.brLez h (nameOf f.a) f.imm)
  | 6 => some (.brAl h f.imm)
  | _ => none

/-- Candidate instructions of major 9. -/
def candidate9 (fn : Nat) (h : Hdr) (f : Fields) : Option Instr :=
  match fn with
  | 0 => some (.jmpRel h f.imm)
  | 1 => some (.jmpInd h (nameOf f.a) f.imm)
  | _ => none

/-- Candidate instructions of major 10. -/
def candidate10 (fn : Nat) (h : Hdr) (f : Fields) : Option Instr :=
  match fn with
  | 0 => some (.callRel h f.imm)
  | 1 => some (.callInd h (nameOf f.a) f.imm)
  | 2 => some (.callRet h)
  | _ => none

/-- Candidate instructions of major 11. -/
def candidate11 (fn : Nat) (h : Hdr) (f : Fields) : Option Instr :=
  match fn with
  | 0 => some (.addrGlob h (nameOf f.d) (nameOf f.a))
  | 1 => some (.addrGen h (nameOf f.d) (nameOf f.a))
  | 2 => some (.addrLea h (nameOf f.d) (nameOf f.a) f.imm)
  | _ => none

/-- Candidate instructions of major 12. -/
def candidate12 (fn : Nat) (h : Hdr) (f : Fields) : Option Instr :=
  match fn with
  | 0 => some (.ldB h (nameOf f.d) (nameOf f.a) f.imm)
  | 1 => some (.ldH h (nameOf f.d) (nameOf f.a) f.imm)
  | 2 => some (.ldW h (nameOf f.d) (nameOf f.a) f.imm)
  | 3 => some (.ldD h (nameOf f.d) (nameOf f.a) f.imm)
  | 4 => some (.ldV h (nameOf f.d) (nameOf f.a) f.imm)
  | 5 => some (.ldG h (nameOf f.d) (nameOf f.a) f.imm)
  | _ => none

/-- Candidate instructions of major 13. -/
def candidate13 (fn : Nat) (h : Hdr) (f : Fields) : Option Instr :=
  match fn with
  | 0 => some (.stB h (nameOf f.d) (nameOf f.a) f.imm)
  | 1 => some (.stH h (nameOf f.d) (nameOf f.a) f.imm)
  | 2 => some (.stW h (nameOf f.d) (nameOf f.a) f.imm)
  | 3 => some (.stD h (nameOf f.d) (nameOf f.a) f.imm)
  | 4 => some (.stV h (nameOf f.d) (nameOf f.a) f.imm)
  | 5 => some (.stG h (nameOf f.d) (nameOf f.a) f.imm)
  | _ => none

/-- Candidate instructions of major 14. -/
def candidate14 (fn : Nat) (h : Hdr) (f : Fields) : Option Instr :=
  match fn with
  | 0 => some (.amoSwap h (nameOf f.d) (nameOf f.a) (nameOf f.b) (amoSizeOf f.xmod) (scopeOf f.sc))
  | 1 => some (.amoCas h (nameOf f.d) (nameOf f.a) (nameOf f.b) (nameOf f.c) (amoSizeOf f.xmod) (scopeOf f.sc))
  | 2 => some (.amoAdd h (nameOf f.d) (nameOf f.a) (nameOf f.b) (amoSizeOf f.xmod) (scopeOf f.sc))
  | 3 => some (.amoAnd h (nameOf f.d) (nameOf f.a) (nameOf f.b) (amoSizeOf f.xmod) (scopeOf f.sc))
  | 4 => some (.amoOr h (nameOf f.d) (nameOf f.a) (nameOf f.b) (amoSizeOf f.xmod) (scopeOf f.sc))
  | 5 => some (.amoXor h (nameOf f.d) (nameOf f.a) (nameOf f.b) (amoSizeOf f.xmod) (scopeOf f.sc))
  | 6 => some (.amoMin h (nameOf f.d) (nameOf f.a) (nameOf f.b) (amoSizeOf f.xmod) (scopeOf f.sc))
  | 7 => some (.amoMax h (nameOf f.d) (nameOf f.a) (nameOf f.b) (amoSizeOf f.xmod) (scopeOf f.sc))
  | 8 => some (.amoFadd h (nameOf f.d) (nameOf f.a) (nameOf f.b) (amoSizeOf f.xmod) (scopeOf f.sc))
  | _ => none

/-- Candidate instructions of major 15. -/
def candidate15 (fn : Nat) (h : Hdr) (f : Fields) : Option Instr :=
  match fn with
  | 0 => some (.feLdf h (nameOf f.d) (nameOf f.a) f.imm (scopeOf f.sc))
  | 1 => some (.feLdk h (nameOf f.d) (nameOf f.a) f.imm (scopeOf f.sc))
  | 2 => some (.feStf h (nameOf f.d) (nameOf f.a) f.imm (scopeOf f.sc))
  | 3 => some (.feSto h (nameOf f.d) (nameOf f.a) f.imm (scopeOf f.sc))
  | 4 => some (.feClr h (nameOf f.a) f.imm (scopeOf f.sc))
  | 5 => some (.feTst h (nameOf f.d) (nameOf f.a) f.imm (scopeOf f.sc))
  | _ => none

/-- Candidate instructions of major 16. -/
def candidate16 (fn : Nat) (h : Hdr) (f : Fields) : Option Instr :=
  match fn with
  | 0 => some (.syncBind h (nameOf f.d) (nameOf f.a))
  | 1 => some (.syncUnbind h (nameOf f.d) (nameOf f.a))
  | 2 => some (.syncAcq h (nameOf f.d) (nameOf f.a) (scopeOf f.sc))
  | 3 => some (.syncRel h (nameOf f.d) (nameOf f.a) (scopeOf f.sc))
  | 4 => some (.syncFence h (scopeOf f.sc))
  | _ => none

/-- Candidate instructions of major 17. -/
def candidate17 (fn : Nat) (h : Hdr) (f : Fields) : Option Instr :=
  match fn with
  | 0 => some (.taskSpawn h (nameOf f.a) (nameOf f.b))
  | 1 => some (.taskPop h (nameOf f.d))
  | 2 => some (.taskSteal h (nameOf f.d))
  | 3 => some (.taskPark h (nameOf f.d))
  | 4 => some (.taskTour h)
  | 5 => some (.taskDone h (nameOf f.d))
  | _ => none

/-- Candidate instructions of major 18. -/
def candidate18 (fn : Nat) (h : Hdr) (f : Fields) : Option Instr :=
  match fn with
  | 0 => some (.barArrive h (nameOf f.d) (barLevelOf f.xmod))
  | 1 => some (.barWait h (nameOf f.a) (barLevelOf f.xmod))
  | 2 => some (.barSync h (nameOf f.d) (barLevelOf f.xmod))
  | 3 => some (.barDone h (nameOf f.a))
  | 4 => some (.barStat h (nameOf f.a) (barLevelOf f.xmod))
  | _ => none

/-- Candidate instructions of major 19. -/
def candidate19 (fn : Nat) (h : Hdr) (f : Fields) : Option Instr :=
  match fn with
  | 0 => some (.vecAdd h (nameOf f.d) (nameOf f.a) (nameOf f.b) (laneWOf (f.xmod.extractLsb' 0 2)))
  | 1 => some (.vecSub h (nameOf f.d) (nameOf f.a) (nameOf f.b) (laneWOf (f.xmod.extractLsb' 0 2)))
  | 2 => some (.vecMul h (nameOf f.d) (nameOf f.a) (nameOf f.b) (laneWOf (f.xmod.extractLsb' 0 2)))
  | 3 => some (.vecMac h (nameOf f.d) (nameOf f.a) (nameOf f.b) (laneWOf (f.xmod.extractLsb' 0 2)))
  | 4 => some (.vecMin h (nameOf f.d) (nameOf f.a) (nameOf f.b) (laneWOf (f.xmod.extractLsb' 0 2)))
  | 5 => some (.vecMax h (nameOf f.d) (nameOf f.a) (nameOf f.b) (laneWOf (f.xmod.extractLsb' 0 2)))
  | 6 => some (.vecAnd h (nameOf f.d) (nameOf f.a) (nameOf f.b) (laneWOf (f.xmod.extractLsb' 0 2)))
  | 7 => some (.vecOr h (nameOf f.d) (nameOf f.a) (nameOf f.b) (laneWOf (f.xmod.extractLsb' 0 2)))
  | 8 => some (.vecXor h (nameOf f.d) (nameOf f.a) (nameOf f.b) (laneWOf (f.xmod.extractLsb' 0 2)))
  | 9 => some (.vecShl h (nameOf f.d) (nameOf f.a) (nameOf f.b) (laneWOf (f.xmod.extractLsb' 0 2)))
  | 10 => some (.vecShr h (nameOf f.d) (nameOf f.a) (nameOf f.b) (laneWOf (f.xmod.extractLsb' 0 2)))
  | 11 => some (.vecAbs h (nameOf f.d) (nameOf f.a) (laneWOf (f.xmod.extractLsb' 0 2)))
  | 12 => some (.vecSel h (nameOf f.d) (nameOf f.a) (nameOf f.b) (nameOf f.c) (laneWOf (f.xmod.extractLsb' 0 2)))
  | _ => none

/-- Candidate instructions of major 20. -/
def candidate20 (fn : Nat) (h : Hdr) (f : Fields) : Option Instr :=
  match fn with
  | 0 => some (.vecfAdd h (nameOf f.d) (nameOf f.a) (nameOf f.b) (laneFOf (f.xmod.extractLsb' 2 2)) (rndOf f.rnd))
  | 1 => some (.vecfSub h (nameOf f.d) (nameOf f.a) (nameOf f.b) (laneFOf (f.xmod.extractLsb' 2 2)) (rndOf f.rnd))
  | 2 => some (.vecfMul h (nameOf f.d) (nameOf f.a) (nameOf f.b) (laneFOf (f.xmod.extractLsb' 2 2)) (rndOf f.rnd))
  | 3 => some (.vecfFma h (nameOf f.d) (nameOf f.a) (nameOf f.b) (nameOf f.c) (laneFOf (f.xmod.extractLsb' 2 2)) (rndOf f.rnd))
  | 4 => some (.vecfMin h (nameOf f.d) (nameOf f.a) (nameOf f.b) (laneFOf (f.xmod.extractLsb' 2 2)) (rndOf f.rnd))
  | 5 => some (.vecfMax h (nameOf f.d) (nameOf f.a) (nameOf f.b) (laneFOf (f.xmod.extractLsb' 2 2)) (rndOf f.rnd))
  | 6 => some (.vecfExp2 h (nameOf f.d) (nameOf f.a) (laneFOf (f.xmod.extractLsb' 2 2)) (rndOf f.rnd))
  | 7 => some (.vecfRcp h (nameOf f.d) (nameOf f.a) (laneFOf (f.xmod.extractLsb' 2 2)) (rndOf f.rnd))
  | 8 => some (.vecfRsqrt h (nameOf f.d) (nameOf f.a) (laneFOf (f.xmod.extractLsb' 2 2)) (rndOf f.rnd))
  | 9 => some (.vecfScale h (nameOf f.d) (nameOf f.a) (nameOf f.b) (laneFOf (f.xmod.extractLsb' 2 2)) (rndOf f.rnd))
  | _ => none

/-- Candidate instructions of major 21. -/
def candidate21 (fn : Nat) (h : Hdr) (f : Fields) : Option Instr :=
  match fn with
  | 0 => some (.vredSum h (nameOf f.d) (nameOf f.a) (laneWOf (f.xmod.extractLsb' 0 2)) (laneFOf (f.xmod.extractLsb' 2 2)) (f.xmod.getLsbD 4) (rndOf f.rnd))
  | 1 => some (.vredMax h (nameOf f.d) (nameOf f.a) (laneWOf (f.xmod.extractLsb' 0 2)) (laneFOf (f.xmod.extractLsb' 2 2)) (f.xmod.getLsbD 4) (rndOf f.rnd))
  | 2 => some (.vredMin h (nameOf f.d) (nameOf f.a) (laneWOf (f.xmod.extractLsb' 0 2)) (laneFOf (f.xmod.extractLsb' 2 2)) (f.xmod.getLsbD 4) (rndOf f.rnd))
  | 3 => some (.vredArgmax h (nameOf f.d) (nameOf f.a) (laneWOf (f.xmod.extractLsb' 0 2)) (laneFOf (f.xmod.extractLsb' 2 2)) (f.xmod.getLsbD 4) (rndOf f.rnd))
  | 4 => some (.vredSumsq h (nameOf f.d) (nameOf f.a) (laneWOf (f.xmod.extractLsb' 0 2)) (laneFOf (f.xmod.extractLsb' 2 2)) (f.xmod.getLsbD 4) (rndOf f.rnd))
  | 5 => some (.vredScan h (nameOf f.d) (nameOf f.a) (laneWOf (f.xmod.extractLsb' 0 2)) (laneFOf (f.xmod.extractLsb' 2 2)) (f.xmod.getLsbD 4) (rndOf f.rnd))
  | _ => none

/-- Candidate instructions of major 22. -/
def candidate22 (fn : Nat) (h : Hdr) (f : Fields) : Option Instr :=
  match fn with
  | 0 => some (.vmovMov h (nameOf f.d) (nameOf f.a))
  | 1 => some (.vmovBcast h (nameOf f.d) (nameOf f.a) (nameOf f.b) (laneWOf (f.xmod.extractLsb' 0 2)))
  | 2 => some (.vmovPerm h (nameOf f.d) (nameOf f.a) (nameOf f.b) (laneWOf (f.xmod.extractLsb' 0 2)))
  | 3 => some (.vmovPack h (nameOf f.d) (nameOf f.a) (nameOf f.b) (laneWOf (f.xmod.extractLsb' 0 2)))
  | 4 => some (.vmovUnpack h (nameOf f.d) (nameOf f.a) (nameOf f.b) (laneWOf (f.xmod.extractLsb' 0 2)))
  | 5 => some (.vmovSend h (nameOf f.d) (nameOf f.a))
  | 6 => some (.vmovRecv h (nameOf f.d) (nameOf f.a))
  | 7 => some (.vmovJoin h (nameOf f.a))
  | 8 => some (.vmovLeave h)
  | _ => none

/-- Candidate instructions of major 23. -/
def candidate23 (fn : Nat) (h : Hdr) (f : Fields) : Option Instr :=
  match fn with
  | 0 => some (.cvtQuant h (nameOf f.d) (nameOf f.a) (nameOf f.b) (cNameOf h f) (laneFOf (f.xmod.extractLsb' 5 2)) (f.xmod.getLsbD 7) (rndOf f.rnd))
  | 1 => some (.cvtDequant h (nameOf f.d) (nameOf f.a) (cNameOf h f) (laneFOf (f.xmod.extractLsb' 2 2)) (f.xmod.extractLsb' 5 2) (rndOf f.rnd))
  | 2 => some (.cvtFtoi h (nameOf f.d) (nameOf f.a) (laneFOf (f.xmod.extractLsb' 5 2)) (laneWOf (f.xmod.extractLsb' 0 2)) (rndOf f.rnd))
  | 3 => some (.cvtItof h (nameOf f.d) (nameOf f.a) (laneWOf (f.xmod.extractLsb' 0 2)) (laneFOf (f.xmod.extractLsb' 2 2)) (rndOf f.rnd))
  | 4 => some (.cvtFconv h (nameOf f.d) (nameOf f.a) (laneFOf (f.xmod.extractLsb' 5 2)) (laneFOf (f.xmod.extractLsb' 2 2)) (rndOf f.rnd))
  | 5 => some (.cvtScale h (nameOf f.d) (nameOf f.a) (nameOf f.b) (rndOf f.rnd))
  | 6 => some (.cvtRound h (nameOf f.d) (nameOf f.a) (laneFOf (f.xmod.extractLsb' 2 2)) (rndOf f.rnd))
  | _ => none

/-- Candidate instructions of major 24. -/
def candidate24 (fn : Nat) (h : Hdr) (f : Fields) : Option Instr :=
  match fn with
  | 0 => some (.mxCfg h (nameOf f.a))
  | 1 => some (.mxLdstat h (nameOf f.a))
  | 2 => some (.mxSwap h)
  | 3 => some (.mxStream h (nameOf f.a) (nameOf f.b))
  | 4 => some (.mxDrain h (nameOf f.a) (nameOf f.b))
  | 5 => some (.mxClear h (nameOf f.a))
  | _ => none

/-- Candidate instructions of major 25. -/
def candidate25 (fn : Nat) (h : Hdr) (f : Fields) : Option Instr :=
  match fn with
  | 0 => some (.engCopy h (nameOf f.a))
  | 1 => some (.engGuard h (nameOf f.a) (nameOf f.b))
  | 2 => some (.engUnveil h (nameOf f.d) (nameOf f.a))
  | 3 => some (.engDiscard h (nameOf f.d) (nameOf f.a))
  | 4 => some (.engStatus h (nameOf f.d))
  | _ => none

/-- Candidate instructions of major 26. -/
def candidate26 (fn : Nat) (h : Hdr) (f : Fields) : Option Instr :=
  match fn with
  | 0 => some (.grpOpen h (nameOf f.a))
  | 1 => some (.grpFork h (nameOf f.d) (nameOf f.a))
  | 2 => if f.xmod.getLsbD 0 then some (.grpWaitFf h (nameOf f.d) (nameOf f.a)) else some (.grpWait h (nameOf f.d) (nameOf f.a))
  | 3 => some (.grpCancel h (nameOf f.a))
  | 4 => some (.grpReward h (nameOf f.a))
  | 5 => some (.grpStat h (nameOf f.d) (nameOf f.a))
  | 6 => some (.grpClose h (nameOf f.a))
  | _ => none

/-- Candidate instructions of major 27. -/
def candidate27 (fn : Nat) (h : Hdr) (f : Fields) : Option Instr :=
  match fn with
  | 0 => some (.smpSeed h (nameOf f.a) (nameOf f.b))
  | 1 => some (.smpRand h (nameOf f.d) (nameOf f.a))
  | 2 => some (.smpStop h (nameOf f.a) (nameOf f.b))
  | 3 => some (.smpDraw h (nameOf f.d) (nameOf f.a) (nameOf f.b))
  | 4 => some (.smpPos h (nameOf f.d))
  | _ => none

/-- Candidate instructions of major 28. -/
def candidate28 (fn : Nat) (h : Hdr) (f : Fields) : Option Instr :=
  match fn with
  | 0 => some (.chkAcc h (nameOf f.d) (nameOf f.a) (laneWOf (f.xmod.extractLsb' 0 2)) (f.xmod.getLsbD 4))
  | 1 => some (.chkTest h (nameOf f.a) (nameOf f.b))
  | 2 => some (.chkClr h (nameOf f.d))
  | _ => none

/-- Candidate instructions of major 29. -/
def candidate29 (fn : Nat) (h : Hdr) (f : Fields) : Option Instr :=
  match fn with
  | 0 => some (.capPool h (nameOf f.d) (nameOf f.a))
  | 1 => some (.capGet h (nameOf f.d) (nameOf f.a))
  | 2 => some (.capPut h (nameOf f.d) (nameOf f.a))
  | 3 => some (.capStat h (nameOf f.d) (nameOf f.a))
  | _ => none

/-- Candidate instructions of major 30. -/
def candidate30 (fn : Nat) (h : Hdr) (f : Fields) : Option Instr :=
  match fn with
  | 0 => some (.durBegin h (nameOf f.d) (nameOf f.a) (nameOf f.b))
  | 1 => some (.durCommit h (nameOf f.d) (nameOf f.a))
  | 2 => some (.durPoint h (nameOf f.d) (nameOf f.a))
  | 3 => some (.durScan h (nameOf f.d) (nameOf f.a))
  | _ => none

/-- The candidate instruction of a major and function, from its fields. -/
def candidate (maj fn : Nat) (h : Hdr) (f : Fields) : Option Instr :=
  match maj with
  | 0 => candidate0 fn h f
  | 1 => candidate1 fn h f
  | 2 => candidate2 fn h f
  | 3 => candidate3 fn h f
  | 4 => candidate4 fn h f
  | 5 => candidate5 fn h f
  | 6 => candidate6 fn h f
  | 7 => candidate7 fn h f
  | 8 => candidate8 fn h f
  | 9 => candidate9 fn h f
  | 10 => candidate10 fn h f
  | 11 => candidate11 fn h f
  | 12 => candidate12 fn h f
  | 13 => candidate13 fn h f
  | 14 => candidate14 fn h f
  | 15 => candidate15 fn h f
  | 16 => candidate16 fn h f
  | 17 => candidate17 fn h f
  | 18 => candidate18 fn h f
  | 19 => candidate19 fn h f
  | 20 => candidate20 fn h f
  | 21 => candidate21 fn h f
  | 22 => candidate22 fn h f
  | 23 => candidate23 fn h f
  | 24 => candidate24 fn h f
  | 25 => candidate25 fn h f
  | 26 => candidate26 fn h f
  | 27 => candidate27 fn h f
  | 28 => candidate28 fn h f
  | 29 => candidate29 fn h f
  | 30 => candidate30 fn h f
  | _ => none

/-- Major, function, header and fields of an instruction; nothing for a step that has no word. -/
def toFields : Instr → Option (Nat × Nat × Hdr × Fields)
  | .sysHalt h => some (0, 0, h, {})
  | .sysNop h => some (0, 1, h, {})
  | .sysIfence h => some (0, 2, h, {})
  | .sysTret h => some (0, 3, h, {})
  | .sysSvc h n => some (0, 4, h, { imm := n.setWidth 32 })
  | .sysGetc h k d => some (0, 5, h, { imm := k.setWidth 32, d := numOf d })
  | .sysSetc h k d => some (0, 6, h, { imm := k.setWidth 32, d := numOf d })
  | .sysRdevt h k d => some (0, 7, h, { imm := k.setWidth 32, d := numOf d })
  | .sysClrevt h k => some (0, 8, h, { imm := k.setWidth 32 })
  | .sysCycle h d => some (0, 9, h, { d := numOf d })
  | .aluAdd h d a b => some (1, 0, h, { d := numOf d, a := numOf a, b := numOf b })
  | .aluSub h d a b => some (1, 1, h, { d := numOf d, a := numOf a, b := numOf b })
  | .aluAnd h d a b => some (1, 2, h, { d := numOf d, a := numOf a, b := numOf b })
  | .aluOr h d a b => some (1, 3, h, { d := numOf d, a := numOf a, b := numOf b })
  | .aluXor h d a b => some (1, 4, h, { d := numOf d, a := numOf a, b := numOf b })
  | .aluAndn h d a b => some (1, 5, h, { d := numOf d, a := numOf a, b := numOf b })
  | .aluMin h d a b => some (1, 6, h, { d := numOf d, a := numOf a, b := numOf b })
  | .aluMax h d a b => some (1, 7, h, { d := numOf d, a := numOf a, b := numOf b })
  | .aluMov h d a => some (1, 8, h, { d := numOf d, a := numOf a })
  | .aluNeg h d a => some (1, 9, h, { d := numOf d, a := numOf a })
  | .aluAbs h d a => some (1, 10, h, { d := numOf d, a := numOf a })
  | .aluPopc h d a => some (1, 11, h, { d := numOf d, a := numOf a })
  | .aluClz h d a => some (1, 12, h, { d := numOf d, a := numOf a })
  | .aluCtz h d a => some (1, 13, h, { d := numOf d, a := numOf a })
  | .aluiAdd h d a imm => some (2, 0, h, { d := numOf d, a := numOf a, imm := imm })
  | .aluiSub h d a imm => some (2, 1, h, { d := numOf d, a := numOf a, imm := imm })
  | .aluiAnd h d a imm => some (2, 2, h, { d := numOf d, a := numOf a, imm := imm })
  | .aluiOr h d a imm => some (2, 3, h, { d := numOf d, a := numOf a, imm := imm })
  | .aluiXor h d a imm => some (2, 4, h, { d := numOf d, a := numOf a, imm := imm })
  | .aluiMin h d a imm => some (2, 5, h, { d := numOf d, a := numOf a, imm := imm })
  | .aluiMax h d a imm => some (2, 6, h, { d := numOf d, a := numOf a, imm := imm })
  | .aluiSet h d imm => some (2, 7, h, { d := numOf d, imm := imm })
  | .shfShl h d a b => some (3, 0, h, { d := numOf d, a := numOf a, b := numOf b })
  | .shfShr h d a b => some (3, 1, h, { d := numOf d, a := numOf a, b := numOf b })
  | .shfRol h d a b => some (3, 2, h, { d := numOf d, a := numOf a, b := numOf b })
  | .shfRor h d a b => some (3, 3, h, { d := numOf d, a := numOf a, b := numOf b })
  | .shfShli h d a imm => some (3, 4, h, { d := numOf d, a := numOf a, imm := imm })
  | .shfShri h d a imm => some (3, 5, h, { d := numOf d, a := numOf a, imm := imm })
  | .shfRoli h d a imm => some (3, 6, h, { d := numOf d, a := numOf a, imm := imm })
  | .shfRori h d a imm => some (3, 7, h, { d := numOf d, a := numOf a, imm := imm })
  | .shfExt h d a pos flen sx => some (3, 8, h, { d := numOf d, a := numOf a, imm := (0#12 ++ flen ++ pos), xmod := bitAt sx 0 })
  | .shfIns h d a pos flen => some (3, 9, h, { d := numOf d, a := numOf a, imm := (0#12 ++ flen ++ pos) })
  | .mulMul h d a b => some (4, 0, h, { d := numOf d, a := numOf a, b := numOf b })
  | .mulMac h d a b => some (4, 1, h, { d := numOf d, a := numOf a, b := numOf b })
  | .mulMsub h d a b => some (4, 2, h, { d := numOf d, a := numOf a, b := numOf b })
  | .mulMulsh h d a b sh rq => some (4, 3, h, { d := numOf d, a := numOf a, b := numOf b, imm := sh, xmod := bitAt rq 0 })
  | .divDiv h d a b => some (5, 0, h, { d := numOf d, a := numOf a, b := numOf b })
  | .divRem h d a b => some (5, 1, h, { d := numOf d, a := numOf a, b := numOf b })
  | .divDivf h d a b => some (5, 2, h, { d := numOf d, a := numOf a, b := numOf b })
  | .divModf h d a b => some (5, 3, h, { d := numOf d, a := numOf a, b := numOf b })
  | .cmpEq h d a b => some (6, 0, h, { d := numOf d, a := numOf a, b := numOf b })
  | .cmpNe h d a b => some (6, 1, h, { d := numOf d, a := numOf a, b := numOf b })
  | .cmpLt h d a b => some (6, 2, h, { d := numOf d, a := numOf a, b := numOf b })
  | .cmpLe h d a b => some (6, 3, h, { d := numOf d, a := numOf a, b := numOf b })
  | .cmpGt h d a b => some (6, 4, h, { d := numOf d, a := numOf a, b := numOf b })
  | .cmpGe h d a b => some (6, 5, h, { d := numOf d, a := numOf a, b := numOf b })
  | .cmpTst h d a b => some (6, 6, h, { d := numOf d, a := numOf a, b := numOf b })
  | .cmpSel h d a b c => some (6, 7, h, { d := numOf d, a := numOf a, b := numOf b, c := numOf c })
  | .widResize h n mode width => some (7, 0, h, { d := numOf n, imm := width.setWidth 32, xmod := resizeModeNum mode })
  | .widWidth h d a => some (7, 1, h, { d := numOf d, a := numOf a })
  | .widFits h d a b => some (7, 2, h, { d := numOf d, a := numOf a, b := numOf b })
  | .brZ h a off => some (8, 0, h, { a := numOf a, imm := off })
  | .brNz h a off => some (8, 1, h, { a := numOf a, imm := off })
  | .brLz h a off => some (8, 2, h, { a := numOf a, imm := off })
  | .brGez h a off => some (8, 3, h, { a := numOf a, imm := off })
  | .brGz h a off => some (8, 4, h, { a := numOf a, imm := off })
  | .brLez h a off => some (8, 5, h, { a := numOf a, imm := off })
  | .brAl h off => some (8, 6, h, { imm := off })
  | .jmpRel h off => some (9, 0, h, { imm := off })
  | .jmpInd h a off => some (9, 1, h, { a := numOf a, imm := off })
  | .callRel h off => some (10, 0, h, { imm := off })
  | .callInd h a off => some (10, 1, h, { a := numOf a, imm := off })
  | .callRet h => some (10, 2, h, {})
  | .addrGlob h d a => some (11, 0, h, { d := numOf d, a := numOf a })
  | .addrGen h d a => some (11, 1, h, { d := numOf d, a := numOf a })
  | .addrLea h d a imm => some (11, 2, h, { d := numOf d, a := numOf a, imm := imm })
  | .ldB h d a off => some (12, 0, h, { d := numOf d, a := numOf a, imm := off })
  | .ldH h d a off => some (12, 1, h, { d := numOf d, a := numOf a, imm := off })
  | .ldW h d a off => some (12, 2, h, { d := numOf d, a := numOf a, imm := off })
  | .ldD h d a off => some (12, 3, h, { d := numOf d, a := numOf a, imm := off })
  | .ldV h d a off => some (12, 4, h, { d := numOf d, a := numOf a, imm := off })
  | .ldG h d a off => some (12, 5, h, { d := numOf d, a := numOf a, imm := off })
  | .stB h d a off => some (13, 0, h, { d := numOf d, a := numOf a, imm := off })
  | .stH h d a off => some (13, 1, h, { d := numOf d, a := numOf a, imm := off })
  | .stW h d a off => some (13, 2, h, { d := numOf d, a := numOf a, imm := off })
  | .stD h d a off => some (13, 3, h, { d := numOf d, a := numOf a, imm := off })
  | .stV h d a off => some (13, 4, h, { d := numOf d, a := numOf a, imm := off })
  | .stG h d a off => some (13, 5, h, { d := numOf d, a := numOf a, imm := off })
  | .amoSwap h d a b sz sc => some (14, 0, h, { d := numOf d, a := numOf a, b := numOf b, sc := scopeNum sc, xmod := amoSizeNum sz })
  | .amoCas h d a b c sz sc => some (14, 1, h, { d := numOf d, a := numOf a, b := numOf b, c := numOf c, sc := scopeNum sc, xmod := amoSizeNum sz })
  | .amoAdd h d a b sz sc => some (14, 2, h, { d := numOf d, a := numOf a, b := numOf b, sc := scopeNum sc, xmod := amoSizeNum sz })
  | .amoAnd h d a b sz sc => some (14, 3, h, { d := numOf d, a := numOf a, b := numOf b, sc := scopeNum sc, xmod := amoSizeNum sz })
  | .amoOr h d a b sz sc => some (14, 4, h, { d := numOf d, a := numOf a, b := numOf b, sc := scopeNum sc, xmod := amoSizeNum sz })
  | .amoXor h d a b sz sc => some (14, 5, h, { d := numOf d, a := numOf a, b := numOf b, sc := scopeNum sc, xmod := amoSizeNum sz })
  | .amoMin h d a b sz sc => some (14, 6, h, { d := numOf d, a := numOf a, b := numOf b, sc := scopeNum sc, xmod := amoSizeNum sz })
  | .amoMax h d a b sz sc => some (14, 7, h, { d := numOf d, a := numOf a, b := numOf b, sc := scopeNum sc, xmod := amoSizeNum sz })
  | .amoFadd h d a b sz sc => some (14, 8, h, { d := numOf d, a := numOf a, b := numOf b, sc := scopeNum sc, xmod := amoSizeNum sz })
  | .feLdf h d a off sc => some (15, 0, h, { d := numOf d, a := numOf a, imm := off, sc := scopeNum sc })
  | .feLdk h d a off sc => some (15, 1, h, { d := numOf d, a := numOf a, imm := off, sc := scopeNum sc })
  | .feStf h d a off sc => some (15, 2, h, { d := numOf d, a := numOf a, imm := off, sc := scopeNum sc })
  | .feSto h d a off sc => some (15, 3, h, { d := numOf d, a := numOf a, imm := off, sc := scopeNum sc })
  | .feClr h a off sc => some (15, 4, h, { a := numOf a, imm := off, sc := scopeNum sc })
  | .feTst h d a off sc => some (15, 5, h, { d := numOf d, a := numOf a, imm := off, sc := scopeNum sc })
  | .syncBind h d a => some (16, 0, h, { d := numOf d, a := numOf a })
  | .syncUnbind h d a => some (16, 1, h, { d := numOf d, a := numOf a })
  | .syncAcq h d a sc => some (16, 2, h, { d := numOf d, a := numOf a, sc := scopeNum sc })
  | .syncRel h d a sc => some (16, 3, h, { d := numOf d, a := numOf a, sc := scopeNum sc })
  | .syncFence h sc => some (16, 4, h, { sc := scopeNum sc })
  | .taskSpawn h a b => some (17, 0, h, { a := numOf a, b := numOf b })
  | .taskPop h d => some (17, 1, h, { d := numOf d })
  | .taskSteal h d => some (17, 2, h, { d := numOf d })
  | .taskPark h d => some (17, 3, h, { d := numOf d })
  | .taskTour h => some (17, 4, h, {})
  | .taskDone h d => some (17, 5, h, { d := numOf d })
  | .barArrive h d lv => some (18, 0, h, { d := numOf d, xmod := barLevelNum lv })
  | .barWait h a lv => some (18, 1, h, { a := numOf a, xmod := barLevelNum lv })
  | .barSync h d lv => some (18, 2, h, { d := numOf d, xmod := barLevelNum lv })
  | .barDone h a => some (18, 3, h, { a := numOf a })
  | .barStat h a lv => some (18, 4, h, { a := numOf a, xmod := barLevelNum lv })
  | .vecAdd h d a b lw => some (19, 0, h, { d := numOf d, a := numOf a, b := numOf b, xmod := laneWNum lw })
  | .vecSub h d a b lw => some (19, 1, h, { d := numOf d, a := numOf a, b := numOf b, xmod := laneWNum lw })
  | .vecMul h d a b lw => some (19, 2, h, { d := numOf d, a := numOf a, b := numOf b, xmod := laneWNum lw })
  | .vecMac h d a b lw => some (19, 3, h, { d := numOf d, a := numOf a, b := numOf b, xmod := laneWNum lw })
  | .vecMin h d a b lw => some (19, 4, h, { d := numOf d, a := numOf a, b := numOf b, xmod := laneWNum lw })
  | .vecMax h d a b lw => some (19, 5, h, { d := numOf d, a := numOf a, b := numOf b, xmod := laneWNum lw })
  | .vecAnd h d a b lw => some (19, 6, h, { d := numOf d, a := numOf a, b := numOf b, xmod := laneWNum lw })
  | .vecOr h d a b lw => some (19, 7, h, { d := numOf d, a := numOf a, b := numOf b, xmod := laneWNum lw })
  | .vecXor h d a b lw => some (19, 8, h, { d := numOf d, a := numOf a, b := numOf b, xmod := laneWNum lw })
  | .vecShl h d a b lw => some (19, 9, h, { d := numOf d, a := numOf a, b := numOf b, xmod := laneWNum lw })
  | .vecShr h d a b lw => some (19, 10, h, { d := numOf d, a := numOf a, b := numOf b, xmod := laneWNum lw })
  | .vecAbs h d a lw => some (19, 11, h, { d := numOf d, a := numOf a, xmod := laneWNum lw })
  | .vecSel h d a b c lw => some (19, 12, h, { d := numOf d, a := numOf a, b := numOf b, c := numOf c, xmod := laneWNum lw })
  | .vecfAdd h d a b lf rnd => some (20, 0, h, { d := numOf d, a := numOf a, b := numOf b, rnd := rndNum rnd, xmod := laneFNum lf <<< 2 })
  | .vecfSub h d a b lf rnd => some (20, 1, h, { d := numOf d, a := numOf a, b := numOf b, rnd := rndNum rnd, xmod := laneFNum lf <<< 2 })
  | .vecfMul h d a b lf rnd => some (20, 2, h, { d := numOf d, a := numOf a, b := numOf b, rnd := rndNum rnd, xmod := laneFNum lf <<< 2 })
  | .vecfFma h d a b c lf rnd => some (20, 3, h, { d := numOf d, a := numOf a, b := numOf b, c := numOf c, rnd := rndNum rnd, xmod := laneFNum lf <<< 2 })
  | .vecfMin h d a b lf rnd => some (20, 4, h, { d := numOf d, a := numOf a, b := numOf b, rnd := rndNum rnd, xmod := laneFNum lf <<< 2 })
  | .vecfMax h d a b lf rnd => some (20, 5, h, { d := numOf d, a := numOf a, b := numOf b, rnd := rndNum rnd, xmod := laneFNum lf <<< 2 })
  | .vecfExp2 h d a lf rnd => some (20, 6, h, { d := numOf d, a := numOf a, rnd := rndNum rnd, xmod := laneFNum lf <<< 2 })
  | .vecfRcp h d a lf rnd => some (20, 7, h, { d := numOf d, a := numOf a, rnd := rndNum rnd, xmod := laneFNum lf <<< 2 })
  | .vecfRsqrt h d a lf rnd => some (20, 8, h, { d := numOf d, a := numOf a, rnd := rndNum rnd, xmod := laneFNum lf <<< 2 })
  | .vecfScale h d a b lf rnd => some (20, 9, h, { d := numOf d, a := numOf a, b := numOf b, rnd := rndNum rnd, xmod := laneFNum lf <<< 2 })
  | .vredSum h d a lw lf fl rnd => some (21, 0, h, { d := numOf d, a := numOf a, rnd := rndNum rnd, xmod := laneWNum lw ||| laneFNum lf <<< 2 ||| bitAt fl 4 })
  | .vredMax h d a lw lf fl rnd => some (21, 1, h, { d := numOf d, a := numOf a, rnd := rndNum rnd, xmod := laneWNum lw ||| laneFNum lf <<< 2 ||| bitAt fl 4 })
  | .vredMin h d a lw lf fl rnd => some (21, 2, h, { d := numOf d, a := numOf a, rnd := rndNum rnd, xmod := laneWNum lw ||| laneFNum lf <<< 2 ||| bitAt fl 4 })
  | .vredArgmax h d a lw lf fl rnd => some (21, 3, h, { d := numOf d, a := numOf a, rnd := rndNum rnd, xmod := laneWNum lw ||| laneFNum lf <<< 2 ||| bitAt fl 4 })
  | .vredSumsq h d a lw lf fl rnd => some (21, 4, h, { d := numOf d, a := numOf a, rnd := rndNum rnd, xmod := laneWNum lw ||| laneFNum lf <<< 2 ||| bitAt fl 4 })
  | .vredScan h d a lw lf fl rnd => some (21, 5, h, { d := numOf d, a := numOf a, rnd := rndNum rnd, xmod := laneWNum lw ||| laneFNum lf <<< 2 ||| bitAt fl 4 })
  | .vmovMov h d a => some (22, 0, h, { d := numOf d, a := numOf a })
  | .vmovBcast h d a b lw => some (22, 1, h, { d := numOf d, a := numOf a, b := numOf b, xmod := laneWNum lw })
  | .vmovPerm h d a b lw => some (22, 2, h, { d := numOf d, a := numOf a, b := numOf b, xmod := laneWNum lw })
  | .vmovPack h d a b lw => some (22, 3, h, { d := numOf d, a := numOf a, b := numOf b, xmod := laneWNum lw })
  | .vmovUnpack h d a b lw => some (22, 4, h, { d := numOf d, a := numOf a, b := numOf b, xmod := laneWNum lw })
  | .vmovSend h d a => some (22, 5, h, { d := numOf d, a := numOf a })
  | .vmovRecv h d a => some (22, 6, h, { d := numOf d, a := numOf a })
  | .vmovJoin h a => some (22, 7, h, { a := numOf a })
  | .vmovLeave h => some (22, 8, h, {})
  | .cvtQuant h d a b c sf sup rnd => some (23, 0, h, { d := numOf d, a := numOf a, b := numOf b, c := cNumOf h c, rnd := rndNum rnd, xmod := laneFNum sf <<< 5 ||| bitAt sup 7 })
  | .cvtDequant h d a c lf part rnd => some (23, 1, h, { d := numOf d, a := numOf a, c := cNumOf h c, rnd := rndNum rnd, xmod := laneFNum lf <<< 2 ||| part.setWidth 8 <<< 5 })
  | .cvtFtoi h d a sf lw rnd => some (23, 2, h, { d := numOf d, a := numOf a, rnd := rndNum rnd, xmod := laneFNum sf <<< 5 ||| laneWNum lw })
  | .cvtItof h d a lw lf rnd => some (23, 3, h, { d := numOf d, a := numOf a, rnd := rndNum rnd, xmod := laneWNum lw ||| laneFNum lf <<< 2 })
  | .cvtFconv h d a sf lf rnd => some (23, 4, h, { d := numOf d, a := numOf a, rnd := rndNum rnd, xmod := laneFNum sf <<< 5 ||| laneFNum lf <<< 2 })
  | .cvtScale h d a b rnd => some (23, 5, h, { d := numOf d, a := numOf a, b := numOf b, rnd := rndNum rnd })
  | .cvtRound h d a lf rnd => some (23, 6, h, { d := numOf d, a := numOf a, rnd := rndNum rnd, xmod := laneFNum lf <<< 2 })
  | .mxCfg h a => some (24, 0, h, { a := numOf a })
  | .mxLdstat h a => some (24, 1, h, { a := numOf a })
  | .mxSwap h => some (24, 2, h, {})
  | .mxStream h a b => some (24, 3, h, { a := numOf a, b := numOf b })
  | .mxDrain h a b => some (24, 4, h, { a := numOf a, b := numOf b })
  | .mxClear h a => some (24, 5, h, { a := numOf a })
  | .engCopy h a => some (25, 0, h, { a := numOf a })
  | .engGuard h a b => some (25, 1, h, { a := numOf a, b := numOf b })
  | .engUnveil h d a => some (25, 2, h, { d := numOf d, a := numOf a })
  | .engDiscard h d a => some (25, 3, h, { d := numOf d, a := numOf a })
  | .engStatus h d => some (25, 4, h, { d := numOf d })
  | .grpOpen h a => some (26, 0, h, { a := numOf a })
  | .grpFork h d a => some (26, 1, h, { d := numOf d, a := numOf a })
  | .grpWait h d a => some (26, 2, h, { d := numOf d, a := numOf a })
  | .grpWaitFf h d a => some (26, 2, h, { d := numOf d, a := numOf a, xmod := 1 })
  | .grpCancel h a => some (26, 3, h, { a := numOf a })
  | .grpReward h a => some (26, 4, h, { a := numOf a })
  | .grpStat h d a => some (26, 5, h, { d := numOf d, a := numOf a })
  | .grpClose h a => some (26, 6, h, { a := numOf a })
  | .smpSeed h a b => some (27, 0, h, { a := numOf a, b := numOf b })
  | .smpRand h d a => some (27, 1, h, { d := numOf d, a := numOf a })
  | .smpStop h a b => some (27, 2, h, { a := numOf a, b := numOf b })
  | .smpDraw h d a b => some (27, 3, h, { d := numOf d, a := numOf a, b := numOf b })
  | .smpPos h d => some (27, 4, h, { d := numOf d })
  | .chkAcc h d a lw ng => some (28, 0, h, { d := numOf d, a := numOf a, xmod := laneWNum lw ||| bitAt ng 4 })
  | .chkTest h a b => some (28, 1, h, { a := numOf a, b := numOf b })
  | .chkClr h d => some (28, 2, h, { d := numOf d })
  | .capPool h d a => some (29, 0, h, { d := numOf d, a := numOf a })
  | .capGet h d a => some (29, 1, h, { d := numOf d, a := numOf a })
  | .capPut h d a => some (29, 2, h, { d := numOf d, a := numOf a })
  | .capStat h d a => some (29, 3, h, { d := numOf d, a := numOf a })
  | .durBegin h d a b => some (30, 0, h, { d := numOf d, a := numOf a, b := numOf b })
  | .durCommit h d a => some (30, 1, h, { d := numOf d, a := numOf a })
  | .durPoint h d a => some (30, 2, h, { d := numOf d, a := numOf a })
  | .durScan h d a => some (30, 3, h, { d := numOf d, a := numOf a })
  | .unassignedEncoding _ => none
  | .ident _ => none
  | .load _ => none
  | .unload _ => none
  | .launch _ => none
  | .preempt _ => none
  | .resume _ => none
  | .frset _ => none
  | .inval _ => none
  | .keyload _ => none
  | .vaultset _ => none
  | .replay _ => none
  | .route _ => none
  | .exportCmd _ => none
  | .fwload _ => none
  | .fwact _ => none
  | .attest _ => none
  | .ctxnew _ => none
  | .ctxend _ => none
  | .pwrset _ => none
  | .faults _ => none
  | .fetchEndAccess _ => none
  | .asyncWrite _ => none
  | .asyncTrapEntry _ => none
  | .longOpComplete _ => none
  | .waitlimExpire _ => none
  | .feWaitSatisfied _ => none
  | .repackUnfreeze _ => none
  | .meshWordArrive _ _ => none
  | .storeEntryPerform _ _ => none
  | .reflectionEvict _ _ => none
  | .vaultWriteDurable _ _ => none
  | .engReservationGrant _ => none
  | .engineCommandAccept _ => none
  | .engineBurst _ _ _ => none
  | .engineFollowon _ => none
  | .engineCommandEnd _ _ _ => none
  | .engineStatusPost _ => none
  | .unveilFlip _ => none
  | .shadowDiscard _ => none
  | .mxCommandComplete _ => none
  | .arrayChannelMessage _ _ => none
  | .arrayConfigMessage _ _ => none
  | .doorbellNotice _ => none
  | .vgForm _ => none
  | .vgForward _ => none
  | .bindRecordWrite _ _ => none
  | .leaseRowRelease _ => none
  | .imageRelease _ => none
  | .gangStart _ _ => none
  | .stealRequest _ => none
  | .stealReply _ => none
  | .parkStealRetry _ => none
  | .statusWordArrive _ _ => none
  | .launchComplete _ => none
  | .tourToken _ => none
  | .tourRoundStart _ => none
  | .tourFinish _ => none
  | .barrierComplete _ _ => none
  | .preemptTimeout _ => none
  | .coopSave _ => none
  | .forcedSave _ => none
  | .groupTimeout _ _ => none
  | .forkRemoteCopy _ => none
  | .missRecord _ _ => none
  | .fillDeliver _ => none
  | .hostPageAnswer _ _ => none
  | .sidelogReplay _ => none
  | .tileInvalAck _ => none
  | .patrolScrub _ => none
  | .containNode _ => none
  | .cpLockstepReset _ => none
  | .wsRefresh _ _ => none
  | .hbmAlert _ _ _ => none
  | .hbmBackoffEnd _ _ => none
  | .qstailDoorbell _ _ => none
  | .qcheadWrite _ _ => none
  | .queueCommandTake _ => none
  | .hostRegisterWrite _ _ => none
  | .fwcommitWrite _ => none
  | .fwWatchdogExpire => none
  | .peerRequest _ => none
  | .peerTimeout _ => none
  | .portDown _ => none
  | .hostMemAccess _ => none
  | .trainingDone _ => none
  | .clockStepAdjust _ _ => none
  | .thermalReset => none
  | .modulePowerOn => none
  | .weightStoreWrite _ _ _ => none
  | .hbmRefresh _ _ _ => none
  | .softError _ _ => none
  | .portUp _ => none
  | .requestWithdrawn _ => none

/-! ### Cutting words into fields, and back -/

/-- Sizes a function admits do not include these forms (R93). -/
def Lengths.admits (l : Lengths) (f : Form) : Bool :=
  match l, f with
  | .all, _ => true
  | .noLit, .base | .noLit, .ext => true
  | .baseOnly, .base => true
  | .baseLit, .base | .baseLit, .baseLit => true
  | .extOnly, .ext | .extOnly, .extLit => true
  | _, _ => false

/-- Fields of a base word (R88). -/
def baseFields (l : Layout) (w : Word32) : Fields :=
  let n14 := widenName (w.extractLsb' 14 6)
  let n20 := widenName (w.extractLsb' 20 6)
  let n26 := widenName (w.extractLsb' 26 6)
  match l with
  | .n3 => { d := n14, a := n20, b := n26 }
  | .ni => { d := n14, a := n20, imm := (w.extractLsb' 26 6).signExtend 32 }
  | .nm => { d := n14, a := n20, imm := (w.extractLsb' 26 3).setWidth 32 <<< 3, sc := w.extractLsb' 29 3 }
  | .nb => { a := n14, imm := (w.extractLsb' 20 12).signExtend 32 }
  | .nj => { imm := (w.extractLsb' 14 18).signExtend 32 }
  | .nc => { d := n14, imm := (w.extractLsb' 20 12).setWidth 32 }
  | .nz => { imm := (w.extractLsb' 14 18).setWidth 32 }
  | .nw => { d := n14, imm := (w.extractLsb' 20 10).setWidth 32, xmod := (w.extractLsb' 30 2).setWidth 8 }

/-- A name in a base field (R65). -/
def narrowName (n : BitVec 9) : BitVec 6 := n.setWidth 6

/-- Bits [31:14] of the base word that holds the fields (R88). -/
def baseBits (l : Layout) (f : Fields) : BitVec 18 :=
  match l with
  | .n3 => narrowName f.b ++ narrowName f.a ++ narrowName f.d
  | .ni => f.imm.setWidth 6 ++ narrowName f.a ++ narrowName f.d
  | .nm => f.sc ++ (f.imm >>> 3).setWidth 3 ++ narrowName f.a ++ narrowName f.d
  | .nb => f.imm.setWidth 12 ++ narrowName f.a
  | .nj => f.imm.setWidth 18
  | .nc => f.imm.setWidth 12 ++ narrowName f.d
  | .nz => f.imm.setWidth 18
  | .nw => f.xmod.setWidth 2 ++ f.imm.setWidth 10 ++ narrowName f.d

/-- Fields of an extended form (R89; R76 for `wid.resize`); nothing when a bit the layout fixes to zero is set. -/
def extFields (l : Layout) (w0 w1 w2 : Word32) : Option Fields :=
  match l with
  | .nw =>
    if w0.extractLsb' 23 9 = 0 ∧ w1.extractLsb' 12 20 = 0 ∧ w2 = 0 then
      some { d := w0.extractLsb' 14 9, imm := (w1.extractLsb' 0 10).setWidth 32, xmod := (w1.extractLsb' 10 2).setWidth 8 }
    else none
  | _ => some {
      d := w0.extractLsb' 14 9, a := w0.extractLsb' 23 9, b := w1.extractLsb' 0 9, c := w1.extractLsb' 9 9,
      xmod := w1.extractLsb' 18 8, sc := w1.extractLsb' 26 3, rnd := w1.extractLsb' 29 3, imm := w2 }

/-- Words 0 (upper 18 bits), 1 and 2 of an extended form. -/
def extBits (l : Layout) (f : Fields) : BitVec 18 × Word32 × Word32 :=
  match l with
  | .nw => (0#9 ++ f.d, 0#20 ++ f.xmod.setWidth 2 ++ f.imm.setWidth 10, 0)
  | _ => (f.a ++ f.d, f.rnd ++ f.sc ++ f.xmod ++ f.c ++ f.b, f.imm)

/-- The low 14 bits of the first word (R85). -/
def lowBits (maj fn : Nat) (h : Hdr) : BitVec 14 :=
  BitVec.ofNat 4 fn ++ waitNum h.wait ++ BitVec.ofNat 6 maj ++ formNum h.form

def litWords (h : Hdr) : List Word32 :=
  if h.form.hasLit then [h.lit.extractLsb' 0 32, h.lit.extractLsb' 32 32] else []

/-- The words of an instruction, in address order (R84). A step with no word has none; an unassigned encoding is its first
word, followed by zero words up to the length its length field gives. -/
def encode (i : Instr) : List Word32 :=
  match i with
  | .unassignedEncoding w0 => w0 :: List.replicate ((formOf (w0.setWidth 2)).words - 1) 0
  | _ =>
    match toFields i with
    | none => []
    | some (maj, fn, h, f) =>
      match functionOf maj fn with
      | none => []
      | some (l, _) =>
        if h.form.isExt then
          let (u, w1, w2) := extBits l f
          (u ++ lowBits maj fn h) :: w1 :: w2 :: litWords h
        else (baseBits l f ++ lowBits maj fn h) :: litWords h

/-- The first instruction word (TVAL of R96 steps 4 and 5, and of every ILL). -/
def firstWord (i : Instr) : Word32 := (encode i).headD 0

/-- The literal of the last two words of an instruction (R84). -/
def literalOf : List Word32 → Word64
  | lo :: hi :: _ => hi ++ lo
  | _ => 0

/-- Operand values an encoding refuses though its fields can hold them: a bit-field length of 0 (R108), and atomic sizes other
than R267 allows (`h` only for `fadd`, `d` never for it). The manual names no step of R96 for the latter; they are refused with the operand
fields, before a name is looked at (log 106). -/
def operandsAdmitted : Instr → Bool
  | .shfExt _ _ _ _ flen _ => flen ≠ 0
  | .shfIns _ _ _ _ flen => flen ≠ 0
  | .amoFadd _ _ _ _ sz _ => sz ≠ .d
  | .amoSwap _ _ _ _ sz _ | .amoAdd _ _ _ _ sz _ | .amoAnd _ _ _ _ sz _ | .amoOr _ _ _ _ sz _ | .amoXor _ _ _ _ sz _
  | .amoMin _ _ _ _ sz _ | .amoMax _ _ _ _ sz _ => sz ≠ .h
  | .amoCas _ _ _ _ _ sz _ => sz ≠ .h
  | _ => true

/-- Decode one instruction from the words its length field implies, the first at the head (R96 steps 2 to 5). -/
def decodeWords (ws : List Word32) : Except DecodeError Instr :=
  match ws with
  | [] => .error .truncated
  | w0 :: rest =>
    let maj := (w0.extractLsb' 2 6).toNat
    let fn := (w0.extractLsb' 10 4).toNat
    let form := formOf (w0.setWidth 2)
    match functionOf maj fn with
    | none => .ok (.unassignedEncoding w0)
    | some (l, lens) =>
      if lens.admits form then
        if form.words ≤ ws.length then
          let h : Hdr :=
            { form := form, wait := waitOf (w0.extractLsb' 8 2),
              lit := if form.hasLit then literalOf (rest.drop (form.words - 3)) else 0 }
          let fs := if form.isExt then extFields l w0 (rest.getD 0 0) (rest.getD 1 0) else some (baseFields l w0)
          match fs with
          | none => .error .badField
          | some f =>
            match candidate maj fn h f with
            | none => .error .badField
            | some i => if toFields i = some (maj, fn, h, f) ∧ operandsAdmitted i then .ok i else .error .badField
        else .error .truncated
      else .error .badLength

/-! ### Bytes -/

/-- A little-endian 32-bit word from four bytes (R3). -/
def word32Of (b0 b1 b2 b3 : Byte) : Word32 := b3 ++ b2 ++ b1 ++ b0
def bytesOfWord32 (w : Word32) : List Byte :=
  [w.extractLsb' 0 8, w.extractLsb' 8 8, w.extractLsb' 16 8, w.extractLsb' 24 8]
def bytesOfWords (ws : List Word32) : List Byte := ws.flatMap bytesOfWord32

/-- The 32-bit words of a byte list; bytes that fill no word are dropped. -/
def wordsOfBytes : List Byte → List Word32
  | b0 :: b1 :: b2 :: b3 :: rest => word32Of b0 b1 b2 b3 :: wordsOfBytes rest
  | _ => []

/-- Decode the instruction at the head of a byte list; the rest of the list follows it. -/
def decode (bs : List Byte) : Except DecodeError (Instr × List Byte) :=
  match wordsOfBytes (bs.take 20) with
  | [] => .error .truncated
  | w0 :: rest =>
    let n := (formOf (w0.setWidth 2)).words
    match decodeWords ((w0 :: rest).take n) with
    | .ok i => if 4 * n ≤ bs.length then .ok (i, bs.drop (4 * n)) else .error .truncated
    | .error e => .error e

/-- The bytes of an opcode-table word and the zero words above it, up to the longest instruction. -/
def tableBytes (nbits w : Nat) : List Byte :=
  (List.range 20).map fun k => if 8 * k < nbits then BitVec.ofNat 8 (w / 2 ^ (8 * k)) else 0

/-- What the decoder reads from an opcode-table word whose bits above `nbits` are zero. -/
def decodeTableWord (nbits w : Nat) : Option Instr :=
  match decode (tableBytes nbits w) with
  | .ok (i, _) => some i
  | .error _ => none

end Sys2Proof
end

