-- ==== Sys2Proof/Machine/Sources.lean ====
section
/-! DEFINITION. The fields that an instruction reads, in the order in which it reads them (06 R99). -/
namespace Sys2Proof

/-- The source fields of an instruction in the order of R99; `vmov.recv` takes the words of the port it names (10 R178). -/
def Instr.sources : Instr → List NameRef
  | .sysSetc _ _ d => [d]
  | .aluAdd _ _ a b | .aluSub _ _ a b | .aluAnd _ _ a b | .aluOr _ _ a b | .aluXor _ _ a b | .aluAndn _ _ a b | .aluMin _ _ a b
    | .aluMax _ _ a b | .shfShl _ _ a b | .shfShr _ _ a b | .shfRol _ _ a b | .shfRor _ _ a b | .mulMul _ _ a b | .mulMulsh _ _ a b _ _
    | .divDiv _ _ a b | .divRem _ _ a b | .divDivf _ _ a b | .divModf _ _ a b | .cmpEq _ _ a b | .cmpNe _ _ a b | .cmpLt _ _ a b
    | .cmpLe _ _ a b | .cmpGt _ _ a b | .cmpGe _ _ a b | .cmpTst _ _ a b | .widFits _ _ a b | .amoSwap _ _ a b _ _ | .amoAdd _ _ a b _ _
    | .amoAnd _ _ a b _ _ | .amoOr _ _ a b _ _ | .amoXor _ _ a b _ _ | .amoMin _ _ a b _ _ | .amoMax _ _ a b _ _ | .amoFadd _ _ a b _ _
    | .taskSpawn _ a b | .vecAdd _ _ a b _ | .vecSub _ _ a b _ | .vecMul _ _ a b _ | .vecMin _ _ a b _ | .vecMax _ _ a b _
    | .vecAnd _ _ a b _ | .vecOr _ _ a b _ | .vecXor _ _ a b _ | .vecShl _ _ a b _ | .vecShr _ _ a b _ | .vecfAdd _ _ a b _ _
    | .vecfSub _ _ a b _ _ | .vecfMul _ _ a b _ _ | .vecfMin _ _ a b _ _ | .vecfMax _ _ a b _ _ | .vecfScale _ _ a b _ _
    | .vmovBcast _ _ a b _ | .vmovPerm _ _ a b _ | .vmovPack _ _ a b _ | .vmovUnpack _ _ a b _ | .cvtScale _ _ a b _ | .mxStream _ a b
    | .mxDrain _ a b | .engGuard _ a b | .smpSeed _ a b | .smpStop _ a b | .smpDraw _ _ a b | .chkTest _ a b | .durBegin _ _ a b => [a, b]
  | .aluMov _ _ a | .aluNeg _ _ a | .aluAbs _ _ a | .aluPopc _ _ a | .aluClz _ _ a | .aluCtz _ _ a | .aluiAdd _ _ a _ | .aluiSub _ _ a _
    | .aluiAnd _ _ a _ | .aluiOr _ _ a _ | .aluiXor _ _ a _ | .aluiMin _ _ a _ | .aluiMax _ _ a _ | .shfShli _ _ a _ | .shfShri _ _ a _
    | .shfRoli _ _ a _ | .shfRori _ _ a _ | .shfExt _ _ a _ _ _ | .brZ _ a _ | .brNz _ a _ | .brLz _ a _ | .brGez _ a _ | .brGz _ a _
    | .brLez _ a _ | .jmpInd _ a _ | .callInd _ a _ | .addrGlob _ _ a | .addrGen _ _ a | .addrLea _ _ a _ | .ldB _ _ a _ | .ldH _ _ a _
    | .ldW _ _ a _ | .ldD _ _ a _ | .ldV _ _ a _ | .ldG _ _ a _ | .feLdf _ _ a _ _ | .feLdk _ _ a _ _ | .feClr _ a _ _ | .feTst _ _ a _ _
    | .syncAcq _ _ a _ | .syncRel _ _ a _ | .barWait _ a _ | .barDone _ a | .barStat _ a _ | .vecAbs _ _ a _ | .vecfExp2 _ _ a _ _
    | .vecfRcp _ _ a _ _ | .vecfRsqrt _ _ a _ _ | .vredSum _ _ a _ _ _ _ | .vredMax _ _ a _ _ _ _ | .vredMin _ _ a _ _ _ _
    | .vredArgmax _ _ a _ _ _ _ | .vredSumsq _ _ a _ _ _ _ | .vredScan _ _ a _ _ _ _ | .vmovMov _ _ a | .vmovSend _ _ a | .vmovRecv _ _ a
    | .vmovJoin _ a | .cvtFtoi _ _ a _ _ _ | .cvtItof _ _ a _ _ _ | .cvtFconv _ _ a _ _ _ | .cvtRound _ _ a _ _ | .mxCfg _ a
    | .mxLdstat _ a | .mxClear _ a | .engCopy _ a | .engUnveil _ _ a | .engDiscard _ _ a | .grpOpen _ a | .grpFork _ _ a | .grpWait _ _ a
    | .grpWaitFf _ _ a | .grpCancel _ a | .grpReward _ a | .grpStat _ _ a | .grpClose _ a | .smpRand _ _ a | .capPool _ _ a
    | .capGet _ _ a | .capPut _ _ a | .capStat _ _ a | .durCommit _ _ a | .durPoint _ _ a | .durScan _ _ a => [a]
  | .shfIns _ d a _ _ | .stB _ d a _ | .stH _ d a _ | .stW _ d a _ | .stD _ d a _ | .stV _ d a _ | .stG _ d a _ | .feStf _ d a _ _
    | .feSto _ d a _ _ | .syncBind _ d a | .syncUnbind _ d a | .chkAcc _ d a _ _ => [a, d]
  | .mulMac _ d a b | .mulMsub _ d a b | .vecMac _ d a b _ => [a, b, d]
  | .cmpSel _ _ a b c | .amoCas _ _ a b c _ _ | .vecSel _ _ a b c _ | .vecfFma _ _ a b c _ _ | .cvtQuant _ _ a b c _ _ _ => [a, b, c]
  | .cvtDequant _ _ a c _ _ _ => [a, c]
  | .sysHalt _ | .sysNop _ | .sysIfence _ | .sysTret _ | .sysSvc _ _ | .sysGetc _ _ _ | .sysRdevt _ _ _ | .sysClrevt _ _ | .sysCycle _ _
    | .aluiSet _ _ _ | .widResize _ _ _ _ | .widWidth _ _ _ | .brAl _ _ | .jmpRel _ _ | .callRel _ _ | .callRet _ | .syncFence _ _
    | .taskPop _ _ | .taskSteal _ _ | .taskPark _ _ | .taskTour _ | .taskDone _ _ | .barArrive _ _ _ | .barSync _ _ _ | .vmovLeave _
    | .mxSwap _ | .engStatus _ _ | .smpPos _ _ | .chkClr _ _ | .unassignedEncoding _ | .ident _ | .load _ | .unload _ | .launch _
    | .preempt _ | .resume _ | .frset _ | .inval _ | .keyload _ | .vaultset _ | .replay _ | .route _ | .exportCmd _ | .fwload _ | .fwact _
    | .attest _ | .ctxnew _ | .ctxend _ | .pwrset _ | .faults _ | .fetchEndAccess _ | .asyncWrite _ | .asyncTrapEntry _
    | .longOpComplete _ | .waitlimExpire _ | .feWaitSatisfied _ | .repackUnfreeze _ | .meshWordArrive _ _ | .storeEntryPerform _ _
    | .reflectionEvict _ _ | .vaultWriteDurable _ _ | .engReservationGrant _ | .engineCommandAccept _ | .engineBurst _ _ _
    | .engineFollowon _ | .engineCommandEnd _ _ _ | .engineStatusPost _ | .unveilFlip _ | .shadowDiscard _ | .mxCommandComplete _
    | .arrayChannelMessage _ _ | .arrayConfigMessage _ _ | .doorbellNotice _ | .vgForm _ | .vgForward _ | .bindRecordWrite _ _
    | .leaseRowRelease _ | .imageRelease _ | .gangStart _ _ | .stealRequest _ | .stealReply _ | .parkStealRetry _ | .statusWordArrive _ _
    | .launchComplete _ | .tourToken _ | .tourRoundStart _ | .tourFinish _ | .barrierComplete _ _ | .preemptTimeout _ | .coopSave _
    | .forcedSave _ | .groupTimeout _ _ | .forkRemoteCopy _ | .missRecord _ _ | .fillDeliver _ | .hostPageAnswer _ _ | .sidelogReplay _
    | .tileInvalAck _ | .patrolScrub _ | .containNode _ | .cpLockstepReset _ | .wsRefresh _ _ | .hbmAlert _ _ _ | .hbmBackoffEnd _ _
    | .qstailDoorbell _ _ | .qcheadWrite _ _ | .queueCommandTake _ | .hostRegisterWrite _ _ | .fwcommitWrite _ | .fwWatchdogExpire
    | .peerRequest _ | .peerTimeout _ | .portDown _ | .hostMemAccess _ | .trainingDone _ | .clockStepAdjust _ _ | .thermalReset
    | .modulePowerOn | .weightStoreWrite _ _ _ | .hbmRefresh _ _ _ | .softError _ _ | .portUp _ | .requestWithdrawn _ => []

end Sys2Proof
end

