-- ==== Sys2Proof/Machine/Sha.lean ====
section
/-! DEFINITION. SHA-384 (22 R385, R386), by the standard the manual names (PRESUMED, log 92). Words are numbers below 2^64. -/
namespace Sys2Proof.Machine

/-- The 80 round constants, constant i at bits [64i+63:64i]: the fractions of the cube roots of the first 80 primes. -/
def shaK : Nat := 0x6c44198c4a4758175fcb6fab3ad6faec597f299cfc657e2a4cc5d4becb3e42b6431d67c49c100d4c3c9ebe0a15c9bebc32caab7b40c7249328db77f523047d841b710b35131c471b113f9804bef90dae0a637dc5a2c898a606f067aa72176fbaf57d4f7fee6ed178eada7dd6cde0eb1ed186b8c721c0c207ca273eceea26619cc67178f2e372532bbef9a3f7b2c67915a4506cebde82bde990befffa23631e288cc702081a6439ec84c87814a1f0ab7278a5636f43172f60748f82ee5defb2fc682e6ff3d6b2b8a35b9cca4f7763e3734ed8aa4ae3418acb391c0cb3c5c95a6334b0bcb5e19b48a82748774cdf8eeb991e376c085141ab5319a4c116b8d2d0c8106aa07032bbd1b8f40e35855771202ad69906245565a910d192e819d6ef5218c76c51a30654be30c24b8b70d0f89791a81a664bbc423001a2bfe8a14cf1036492722c851482353b81c2c92e47edaee6766a0abb3c77b2a8650a73548baf63de53380d139d95b3df4d2c6dfc5ac42aed2e1b21385c26c92627b70a8546d22ffc142929670a0e6e7006ca6351e003826fd5a79147930aa725c6e00bf33da88fc2bf597fc7beef0ee4b00327c898fb213fa831c66d2db43210983e5152ee66dfab76f988da831153b55cb0a9dcbd41fbd44a7484aa6ea6e4832de92c6f592b0275240ca1cc77ac9c650fc19dc68b8cd5b5efbe4786384f25e3e49b69c19ef14ad2c19bf174cf6926949bdc06a725c7123580deb1fe3b1696b172be5d74f27b896f550c7dc3d5ffb4e2243185be4ee4b28c12835b0145706fbed807aa98a3030242ab1c5ed5da6d8118923f82a4af194f9b59f111f1b605d0193956c25bf348b538e9b5dba58189dbbcb5c0fbcfec4d3b2f7137449123ef65cd428a2f98d728ae22
/-- The initial hash value of SHA-384: the fractions of the square roots of the ninth to the sixteenth prime. -/
def shaInit : List Nat := [0xcbbb9d5dc1059ed8, 0x629a292a367cd507, 0x9159015a3070dd17, 0x152fecd8f70e5939, 0x67332667ffc00b31, 0x8eb44a8768581511, 0xdb0c2e0d64f98fa7, 0x47b5481dbefa4fa4]
/-- A word rotated right by `n`, 0 < n < 64. -/
def rotWord (n w : Nat) : Nat := w >>> n ||| (w % 2 ^ n) <<< (64 - n)
/-- A sum of words. -/
def addWords (l : List Nat) : Nat := l.sum % 2 ^ 64
/-- A big-endian number of bytes. -/
def bigEndian (l : List (BitVec 8)) : Nat := l.foldl (fun n b => n * 256 + b.toNat) 0
/-- A message padded to whole blocks of 128 bytes: a bit 1, zeros, and its length in bits as 16 bytes. -/
def shaPad (l : List (BitVec 8)) : List (BitVec 8) :=
  l ++ 0x80#8 :: List.replicate ((239 - l.length % 128) % 128) 0 ++
    (List.range 16).map fun i => BitVec.ofNat 8 ((8 * l.length) >>> (8 * (15 - i)))
/-- The schedule of a block, newest word first, with `n` more words. -/
def shaSchedule : Nat → List Nat → List Nat
  | 0, ws => ws
  | n + 1, ws =>
      let a := ws.getD 1 0
      let b := ws.getD 14 0
      shaSchedule n (addWords [rotWord 19 a ^^^ rotWord 61 a ^^^ a >>> 6, ws.getD 6 0,
        rotWord 1 b ^^^ rotWord 8 b ^^^ b >>> 7, ws.getD 15 0] :: ws)
/-- A round on the eight working words with a schedule word and its round constant. -/
def shaRound (v : List Nat) (w k : Nat) : List Nat :=
  match v with
  | [a, b, c, d, e, f, g, h] =>
      let t := addWords [h, rotWord 14 e ^^^ rotWord 18 e ^^^ rotWord 41 e, e &&& f ^^^ (2 ^ 64 - 1 - e) &&& g, k, w]
      let u := addWords [rotWord 28 a ^^^ rotWord 34 a ^^^ rotWord 39 a, a &&& b ^^^ a &&& c ^^^ b &&& c]
      [addWords [t, u], a, b, c, addWords [d, t], e, f, g]
  | l => l
/-- A block of 128 bytes taken into the hash value. -/
def shaBlock (hv : List Nat) (l : List (BitVec 8)) : List Nat :=
  let first := (List.range 16).map fun i => bigEndian ((l.drop (8 * i)).take 8)
  let ws := (shaSchedule 64 first.reverse).reverse
  let out := (ws.zip (List.range 80)).foldl (fun v x => shaRound v x.1 (shaK >>> (64 * x.2) % 2 ^ 64)) hv
  List.zipWith (fun a b => addWords [a, b]) hv out
/-- `n` blocks of a message. -/
def shaBlocks : Nat → List Nat → List (BitVec 8) → List Nat
  | 0, hv, _ => hv
  | n + 1, hv, l => shaBlocks n (shaBlock hv (l.take 128)) (l.drop 128)
/-- SHA-384 of a byte string as a value whose byte i, bits [8i+7:8i], is byte i of the digest. -/
def sha384 (m : List (BitVec 8)) : BitVec 384 :=
  let l := shaPad m
  let hv := (shaBlocks (l.length / 128) shaInit l).take 6
  let bytes := hv.flatMap fun w => (List.range 8).map fun i => w >>> (8 * (7 - i)) % 256
  BitVec.ofNat 384 (bytes.foldr (fun b n => n * 256 + b) 0)

end Sys2Proof.Machine
end

