-- ==== Sys2Proof/Machine/State.lean ====
section
/-! DEFINITION. The state of the whole SXG-4160 as plain data (04, 06, 08, 09, 12 to 17, 19 to 22), and the state after
module power-on. Tiles, gangs, launches and contexts are held sparsely: a tile that is not listed is a fresh tile. -/
namespace Sys2Proof.Machine

/-! ## Why a step stops -/

/-- The machine's own faults. The manual turns every fault of a thread into a trap, which is a next state (R289), so no
fault ends a run and the type has no constructor (safe). -/
inductive Fault
  deriving DecidableEq, Repr

/-- Why a step has no meaning here. -/
inductive Refusal
  /-- Raised by Dispatch for an instruction the model does not give a meaning (safe). -/
  | notModelled (mnemonic : String)
  /-- Raised by a step of the machine or a host command whose own precondition in the manual does not hold in this
  state, so that the step does not occur (safe: nothing is claimed about it). -/
  | notEnabled (what : String)
  deriving DecidableEq, Repr

/-! ## Names (04) -/

/-- Kinds of names (R63). -/
inductive Kind | uint | sint | raw | bf16 | fp32 | e4m3 | e5m2 | g8 | g4
  deriving DecidableEq, Repr
/-- Overflow modes (R64). -/
inductive Ovf | wrap | sat | trap
  deriving DecidableEq, Repr
/-- Rounding modes (R45, R64). -/
inductive RMode | rne | rtz | rdn | rup | rst
  deriving DecidableEq, Repr
/-- The element format of a `g8` name (R45). -/
inductive Elem | none | e4m3 | e5m2 | int8 | uint8
  deriving DecidableEq, Repr

/-- A catalogue entry: its current width and its declared attributes (R45, R75). -/
structure NameEnt where
  width : Nat
  kind : Kind
  mode : Ovf
  rnd : RMode
  elem : Elem
  deriving DecidableEq, Repr

/-- A live-range table (R47): its identifier, the marked local address, names, and ranges of local memory. -/
structure LiveRange where
  id : Nat
  loc : Nat
  names : List Nat
  ranges : List (Nat × Nat)
  deriving DecidableEq, Repr

/-- A kernel bound on a core: the core's own copy of the catalogue and what its bind record gives (R75, R224). -/
structure Kernel where
  /-- slot base s -/
  sb : Nat
  /-- threads n -/
  n : Nat
  /-- current catalogue -/
  cat : List NameEnt
  /-- widths the catalogue declares -/
  decl : List NameEnt
  /-- rows and reserve (R74) -/
  rows : Nat
  reserve : Nat
  /-- physical rows held, in increasing order (R72) -/
  phys : List Nat
  /-- rows already released, and one more than the cycle of the last release (R226) -/
  freed : Nat
  relCyc : Nat
  /-- entry address and trap vector -/
  entry : Nat
  tvec : Nat
  /-- position of the kernel in its launch's bundle, index in KERNEL -/
  pos : Nat
  kern : Nat
  /-- the gang it belongs to: 64 x die + slot-table entry -/
  gang : Nat
  lid : Word64
  ctx : Nat
  /-- the first 64 live-range tables (R236) -/
  live : List LiveRange
  deriving DecidableEq, Repr

/-! ## Threads (12, 14) -/

/-- Thread states (R218). -/
inductive TState | empty | loading | ready | waiting | frozen | parked | stopped | halted
  deriving DecidableEq, Repr

/-- A code word in a fetch buffer: its address, the word as read and its poison mark (R122). -/
structure FetchWord where
  addr : Nat
  word : Word32
  poison : Bool
  deriving DecidableEq, Repr

/-- What a WAITING thread waits for. -/
inductive WaitFor
  /-- The waiting instruction is tried again each cycle, in order of issue; `tag` and `aux` say which of its waits. -/
  | retry (tag : Nat) (aux : Nat)
  /-- A reply in flight (R70). -/
  | reply
  /-- A fixed latency of an instruction that has had its effect, until the given cycle (R87, R294). -/
  | until (c : Nat)
  /-- A fixed latency of an instruction that has read its operands and writes once the given cycle has come (R87, R102). -/
  | run (c : Nat)
  /-- A miss: the access is tried again once an answer is in (R364). -/
  | miss
  /-- Steal exchanges (R230): directions still to try, whether the thread is parked, and the reply in flight. -/
  | steal (left : List Dir)
  deriving DecidableEq, Repr

/-- What an instruction that has issued read or has changed before it completes: the catalogue it issued under, its thread's copies and the
place in the random stream then (R78, R295). -/
structure Latch where
  cat : List NameEnt
  names : List Pat
  ridx : BitVec 24
  rlast : Word64
  deriving DecidableEq, Repr

/-- The access of a thread that makes a write: its core and place in that core's order, and the bytes written by context, address and
length (R261). -/
structure Writer where
  core : CoreRef
  seq : Nat
  ctx : Nat
  va : Nat
  len : Nat
  deriving DecidableEq, Repr

/-- What a vault write that is not yet durable replaced (R352), or any change of memory that may have to be taken back (R295): its buffer, its writer
where a thread's access made it, the bytes from an address on, the poison mark and full/empty bit of words, the errors not found yet that lay
there. -/
structure VaultWrite where
  buf : Nat
  who : Option Writer
  addr : Nat
  old : List Byte
  words : List (Nat × Bool × Bool)
  errs : List (Nat × Bool)
  deriving DecidableEq, Repr

/-- What a waiting instruction has already done and its wait's end takes back (R295): a change of memory, with the bytes and the empty words it left;
a buffer's recovery point; the array's configuration; a swap of its planes. -/
inductive Undo
  | mem (was : VaultWrite) (now : List Byte) (empty : List Nat)
  | point (k : Fin 16) (p : Word64)
  | cfg (c : Word64)
  | swap
  deriving DecidableEq, Repr

/-- A wait in progress (R215): the instruction and its address, its place in the order of issue, the cycle in which its
condition was first found unmet, the limit then read and the TVAL of its WAITLIM trap (none: not bounded). -/
structure WaitRec where
  instr : Instr
  pc : Nat
  seq : Nat
  since : Nat
  lim : Nat
  tval : Option Word64
  why : WaitFor
  /-- the bounded wait that `since` and `lim` belong to -/
  bound : Option WaitFor
  /-- words that its operands have taken from ports, in order (R99): a retry finds them here, a trap gives them back -/
  took : List (NameRef × Word64)
  /-- the names as they were when it issued, where they may have changed since -/
  src : Option Latch
  /-- its latency has run out: it writes now (R102) -/
  ran : Bool
  /-- a value that it goes on with: the summary of its issue cycle (R283), the request slot it changes (R329) -/
  kept : Option Word64
  /-- what its end without effect takes back, newest first (R295) -/
  undo : List Undo
  deriving DecidableEq, Repr

/-- Vector-group states (R204). -/
inductive Vg | solo | leader | attached | detached
  deriving DecidableEq, Repr

/-- A forwarded instruction (R205): the instruction (or, where its leader's decoder refused it, that word), its address, the
leader's next address, and the cycle from which it has arrived. -/
structure Forward where
  instr : Instr
  ill : Option Word32
  pc : Nat
  nl : Nat
  due : Nat
  deriving DecidableEq, Repr

/-- A value on its way to a name: an integer written by R69, the old value of an atomic, which a WIDTH trap of that write keeps in TVAL (R268),
or a pattern copied as it is. -/
inductive ReplyVal
  | int (x : Int)
  | old (x : Int)
  | pat (p : Pat)
  deriving DecidableEq, Repr

/-- What a fork brings a sibling (R294, R301): the opener's names, return entries and next address, the destination and the
member index, and the cycle from which the sibling's core may take the copy. -/
structure ForkCopy where
  names : List Pat
  rstack : List Nat
  pc : Nat
  d : NameRef
  /-- its member index as it is written to `d` -/
  idx : ReplyVal
  arrive : Nat
  /-- the fork's place in the order of issue -/
  seq : Nat
  deriving DecidableEq, Repr

/-- A hardware thread: its registers and what the hardware keeps for it. -/
structure Thread where
  st : TState
  /-- next instruction address, 0 to 0x8_0000 -/
  pc : Nat
  /-- address of word 0 of the last instruction completed (R114) -/
  lastPc : Nat
  /-- the thread's copy of each catalogue name (R63) -/
  names : List Pat
  fbuf : List FetchWord
  wait : Option WaitRec
  /-- pending asynchronous trap: cause and TVAL (R290) -/
  pend : Option (BitVec 8 × Word64)
  tcause : BitVec 8
  tepc : BitVec 19
  tval : Word64
  tvec : BitVec 19
  tscratch : Word64
  rsBase : BitVec 16
  rsLim : BitVec 16
  rsCnt : BitVec 16
  /-- hardware return entries, newest first (R120) -/
  rstack : List Nat
  privG : BitVec 40
  privSz : BitVec 17
  /-- private slot held (R381) -/
  privSlot : Option Nat
  rkey : Word64
  rpos : BitVec 40
  ridx : BitVec 24
  rlast : Word64
  smpb : BitVec 13
  gmV : Bool
  gmRes : Bool
  gmGid : BitVec 6
  gmIdx : BitVec 6
  waitlim : BitVec 32
  premax : BitVec 32
  sealb : BitVec 43
  priv : Bool
  vg : Vg
  vgLeader : Option ThreadRef
  vgDir : Dir
  vgSize : Nat
  /-- forwarded instructions on their way along the chain, and the forward buffer of eight -/
  vgIn : List Forward
  vgBuf : List Forward
  /-- the instruction under way of a leader or an attached follower: itself, its address, the leader's next address (R205) -/
  vgRun : Option (Instr × Nat × Nat)
  /-- value of the last `bar.done` (R277) -/
  flags : BitVec 32
  /-- open phases this thread has arrived at, with the cycle of the arrival (R222, R277) -/
  crewArr : Option (BitVec 32 × Nat)
  gangArr : Option (BitVec 32 × Nat)
  /-- cycle in which the thread halted -/
  haltCyc : Nat
  /-- posted reward, advantage and first failure (R305) -/
  posted : Option (BitVec 32)
  adv : BitVec 32
  ff : BitVec 7
  /-- the copy of a fork that has taken the thread and is not yet written -/
  forkIn : Option ForkCopy
  /-- status contribution given at `sys.halt` (R232) -/
  contrib : Word64
  /-- names whose copy holds an uncorrectable error that no repack has read (R81) -/
  bad : List Nat
  deriving DecidableEq, Repr

/-- A thread as reset leaves it. Registers the manual sets only at bind are 0 (DESIGN CHOICE, log 3). -/
def Thread.fresh : Thread where
  st := .empty; pc := 0; lastPc := 0; names := []; fbuf := []; wait := none; pend := none
  tcause := 0; tepc := 0; tval := 0; tvec := 0; tscratch := 0
  rsBase := 0; rsLim := 0; rsCnt := 0; rstack := []
  privG := 0; privSz := 0; privSlot := none
  rkey := 0; rpos := 0; ridx := 0; rlast := 0; smpb := 0
  gmV := false; gmRes := false; gmGid := 0; gmIdx := 0
  waitlim := 0; premax := 0x0010_0000; sealb := 0; priv := false
  vg := .solo; vgLeader := none; vgDir := .e; vgSize := 0; vgIn := []; vgBuf := []; vgRun := none
  flags := 0; crewArr := none; gangArr := none; haltCyc := 0; posted := none; adv := 0; ff := 0; forkIn := none; contrib := 0; bad := []

/-! ## Cores (04, 08, 09, 12, 13) -/

/-- A home's class (R244). -/
inductive HClass | near | far
  deriving DecidableEq, Repr
/-- Where a home copy lies (R244): the HBM of a die, the capacity tier, host memory, another module. -/
inductive Home | hbm (die : Nat) | cap | host | peer
  deriving DecidableEq, Repr

/-- A format-range entry (R151). -/
structure FmtRange where
  base : Nat
  last : Nat
  sbase : Nat
  fmt : Nat
  ovl : Bool
  en : Bool
  deriving DecidableEq, Repr

/-- What a posted store writes at its home (R154, R155, R265, R266). -/
inductive StoreForm
  /-- its bytes -/
  | plain
  /-- the pattern of an `st.g` that its translation at issue put into a format range: the kind of its source, and the format ranges as they
  stood then, under which it completes (R155) -/
  | gran (k : Kind) (fr : Vector (Vector FmtRange 32) 2)
  /-- the pattern of an `st.g` that found no translation at issue: its form is decided when it is performed; `past`: its 40 bytes would pass the
  end of its window, so that it is a granule or a fault (R266) -/
  | late (k : Kind) (fr : Vector (Vector FmtRange 32) 2) (past : Bool)
  /-- what such an `st.g` writes into the next line if it is no granule -/
  | tail
  deriving DecidableEq, Repr

/-- An entry of a shared store buffer (R249): a posted store within one 64-byte line. -/
structure StoreEntry where
  seq : Nat
  h : Fin 8
  ctx : Nat
  addr : Nat
  bytes : List Byte
  /-- its class, kept once taken, and where the home lies; none: no class yet (R249) -/
  home : Option (HClass × Home)
  form : StoreForm
  /-- the launch of its thread, and the cycle in which it was posted -/
  lid : Word64
  since : Nat
  deriving DecidableEq, Repr

/-- An asynchronous write on its way to a named copy (R70); `wake`: the thread's wait ends with it. -/
structure Reply where
  h : Fin 8
  dest : NameRef
  val : ReplyVal
  wake : Bool
  /-- the address of an access to another module (R384) -/
  peer : Option Nat
  /-- the global bytes of the access it answers, from an address on, in number (R370) -/
  glob : Option (Nat × Nat)
  deriving DecidableEq, Repr

/-- What the repack unit is doing (R77, R78, R294). -/
inductive RepackOp
  /-- a resize: name, new width, mode; abandoned with the given offending thread -/
  | resize (n : Nat) (w : Nat) (m : ResizeMode)
  | abandon (t : Nat)
  /-- a fork, by its place in the order of issue: the copies it brought are written at the end -/
  | fork (seq : Nat)
  deriving DecidableEq, Repr

/-- A repack in progress (R77 to R80): the issuing thread and the address of its instruction, the kernel's slot base, the
cycle of the unfreeze, the threads frozen with the state each returns to, and the held asynchronous writes in order. -/
structure Repack where
  op : RepackOp
  /-- whether rows move already; before, it waits for instructions issued earlier to complete (R78) -/
  begun : Bool
  h : Fin 8
  pc : Nat
  sb : Nat
  done : Nat
  frozen : List (Fin 8 × TState)
  held : List Reply
  deriving DecidableEq, Repr

/-- A task record (R227). -/
structure Task where
  entry : Nat
  arg : Word64
  deriving DecidableEq, Repr

/-- A steal request or reply on its way (R230). -/
structure StealMsg where
  thief : ThreadRef
  dir : Dir
  arrive : Nat
  /-- for a reply: the record served, or empty -/
  rec? : Option Task
  reply : Bool
  deriving DecidableEq, Repr

/-- A command in the engine command buffer (R163, R164): its thread, its length and the words received; and, once its last
word is there, the thresholds and the stream it was issued under (R137, R143): CQTHRESH, key, position, index. -/
structure CmdBuf where
  h : Fin 8
  need : Nat
  words : List Word64
  thresh : Word64
  rkey : Word64
  rpos : Nat
  ridx : Nat
  /-- its number among the commands the core has submitted -/
  id : Nat
  deriving DecidableEq, Repr

/-- A shadow (R172): its set, context, the page's address bits [55:16], the old and the new frame. -/
structure Shadow where
  set : Nat
  ctx : Nat
  vpn : Nat
  old : Nat
  new : Nat
  key : Nat
  /-- the launch whose command made it (R372) -/
  lid : Word64
  deriving DecidableEq, Repr

/-- Rows that the loader has written for a kernel of a slot-table entry whose other rows are still held (R62, R226): the gang (64 x die +
slot), the kernel's position, the rows. -/
structure RowClaim where
  gang : Nat
  pos : Nat
  rows : List Nat
  deriving DecidableEq, Repr

/-- One core of a tile. -/
structure Core where
  threads : Vector Thread 8
  kernels : List Kernel
  /-- rows of the lease table held for kernels not yet loaded -/
  claims : List RowClaim
  repack : Option Repack
  mulFree : Nat
  divFree : Nat
  evu : Bool
  smp : Bool
  cqthresh : Word64
  cqstat : Word64
  crect : BitVec 5
  cmxst : Word64
  cevt : Vector (BitVec 32) 64
  /-- hardware deque records, oldest first -/
  dq : List Task
  shead : BitVec 6
  scnt : Nat
  /-- slot base of the deque's owner, and that of its last owner (R228, R229) -/
  dqOwner : Option Nat
  dqLast : Nat
  stealDir : Dir
  /-- one more than the cycle of the deque unit's last operation (R230) -/
  dqUsed : Nat
  stealMsgs : List StealMsg
  /-- inbound mesh buffers and outbound queues in the order n, e, s, w; an outbound word that has left its
  queue carries the cycle from which it may arrive, one still in the queue carries 0 (R160) -/
  portIn : Vector (List Word64) 4
  portOut : Vector (List (Nat × Word64)) 4
  portEng : List Word64
  cbuf : List CmdBuf
  /-- commands submitted and not ended (R283) -/
  submitted : Nat
  /-- commands submitted so far -/
  subs : Nat
  sbuf : List StoreEntry
  replies : List Reply
  shadows : List Shadow
  tourFlag : Bool
  /-- one more than the cycle whose slot the core has used (the model's own) -/
  issued : Nat
  /-- one more than the cycle in whose order of R303 and R320 the instruction of its slot acts (the model's own) -/
  due : Nat
  deriving DecidableEq, Repr

/-- A core as reset leaves it (R143, R286). -/
def Core.fresh : Core where
  threads := Vector.replicate 8 Thread.fresh; kernels := []; claims := []; repack := none; mulFree := 0; divFree := 0
  evu := false; smp := false; cqthresh := 0x0000_0000_FFFF_FFFF; cqstat := 0; crect := 0; cmxst := 0
  cevt := Vector.replicate 64 0; dq := []; shead := 0; scnt := 0; dqOwner := none; dqLast := 0; stealDir := .w; dqUsed := 0; stealMsgs := []
  portIn := Vector.replicate 4 []; portOut := Vector.replicate 4 []; portEng := []; cbuf := []; submitted := 0; subs := 0
  sbuf := []; replies := []; shadows := []; tourFlag := false; issued := 0; due := 0

/-! ## Tiles (09, 10, 13, 20, 21) -/

/-- A plane of the matrix array (R195, R196, R203). -/
structure Plane where
  loaded : Bool
  fmt : Nat
  n : Nat
  k : Nat
  bw : BitVec 16
  /-- codes by row then column -/
  codes : List (List (BitVec 16))
  /-- scale codes by column, lowest part first -/
  scales : List (List Byte)
  /-- column sums of the integer format -/
  sums : List Int
  deriving DecidableEq, Repr

/-- An empty plane. -/
def Plane.fresh : Plane := ⟨false, 0, 0, 0, 0, [], [], []⟩

/-- A message of an array channel (R176, R177). -/
inductive ArrMsg
  /-- a configuration message: m, n, k, fmt and the abort flag -/
  | cfg (m : Nat) (n : Nat) (k : Nat) (fmt : Nat) (abort : Bool)
  /-- an activation row (its bytes, in words) or a row of partial sums -/
  | row (vals : List Word64)
  deriving DecidableEq, Repr

/-- A command of the matrix array: an instruction of a thread, or a follow-on of a queue of the copy engine (R166). -/
structure MxCmd where
  /-- function (R193): 0 `cfg`, 1 `ldstat`, 2 `swap`, 3 `stream`, 4 `drain`, 5 `clear` -/
  fn : Nat
  a : Int
  b : Int
  core : Fin 3
  h : Fin 8
  /-- queue of the copy engine for a follow-on -/
  fo : Option Nat
  /-- CRECT as the command issued (R176) -/
  rect : BitVec 5
  /-- whether the array has begun it, and the cycle in which it ends -/
  begun : Bool
  done : Option Nat
  /-- rows streamed so far in a rectangle -/
  row : Nat
  /-- a bounded wait of a rectangle: the cycle it began and its limit (R176) -/
  since : Option (Nat × Nat)
  /-- configuration messages received from the west and from the north, and whether the tile has sent its own (R177) -/
  cfgW : Option ArrMsg
  cfgN : Option ArrMsg
  sent : Bool
  /-- the activation row in hand, already passed on east -/
  held : Option (List Word64)
  /-- row messages still to discard from the west and from the north -/
  dropW : Nat
  dropN : Nat
  /-- whether a drain has its entry for the output block (R170) -/
  entry : Bool
  /-- what it has changed for good before its end (R295) -/
  undo : List Undo
  deriving DecidableEq, Repr

/-- The matrix array of a tile (R194 to R203). -/
structure MxArray where
  cfg : Word64
  stat : Plane
  shad : Plane
  /-- the command under way and those that have arrived, in order -/
  queue : List MxCmd
  /-- messages in the west and the north channel, with the cycle each may be received -/
  west : List (Nat × ArrMsg)
  north : List (Nat × ArrMsg)
  /-- messages waiting to leave east and south -/
  east : List (Nat × ArrMsg)
  south : List (Nat × ArrMsg)
  /-- a drain that waits for an empty doorbell: its address and the notice (R311) -/
  notice : Option (Nat × Word64)
  deriving DecidableEq, Repr

/-- The array at launch (R196). -/
def MxArray.fresh : MxArray := ⟨0, Plane.fresh, Plane.fresh, [], [], [], [], [], none⟩

/-- A guard slot (R169). -/
inductive Guard | pend | tru | fls
  deriving DecidableEq, Repr

/-- A guard slot with the state engines see until the end of the cycle of its last change (R282): its state, the state before that
cycle, and one more than that cycle. -/
structure GuardSlot where
  now : Guard
  was : Guard
  cyc : Nat
  deriving DecidableEq, Repr

/-- Where an engine command has got to. -/
inductive EngStage
  /-- moving elements -/
  | run
  /-- held by a miss at the element of an offset (R369) -/
  | miss (off : Nat)
  /-- the follow-on has been given to the array (R166) -/
  | follow
  /-- finished with a code and an offset -/
  | fin (code : Nat) (off : Nat)
  /-- finished, its status word waiting for room (R168) -/
  | ended (code : Nat) (off : Nat)
  deriving DecidableEq, Repr

/-- A command accepted by an engine (R167): its words, its submitting core, thread and context, elements moved and stage. -/
structure EngCmd where
  words : List Word64
  core : Fin 3
  h : Fin 8
  ctx : Nat
  gang : Nat
  elem : Nat
  stage : EngStage
  thresh : Word64
  /-- what a convert command has counted so far (R142, R145): clips, flushes, zero ranges, NaNs, factors replaced -/
  clips : Nat
  flushes : Nat
  zrs : Nat
  nans : Nat
  bads : Nat
  /-- random draws reserved when it issued: key, position, index (R137, R308) -/
  rkey : Word64
  rpos : Nat
  ridx : Nat
  id : Nat
  /-- the cycle in which it was accepted -/
  cyc : Nat
  /-- the cycle in which it last moved an element, or was accepted -/
  moved : Nat
  /-- what its guard has decided once it was at the head of its queue (R169) -/
  pass : Option Bool
  deriving DecidableEq, Repr

/-- A translation entry (R359). -/
structure TEntry where
  psz : Nat
  w : Bool
  vpn : Nat
  ctx : Nat
  key : Nat
  pfn : Nat
  deriving DecidableEq, Repr

/-- An engine: its four queues, its round-robin pointer and its translation cache, oldest fill first (R167, R360). -/
structure Engine where
  queues : Vector (List EngCmd) 4
  rr : Fin 4
  tc : List TEntry
  deriving DecidableEq, Repr

/-- An idle engine. -/
def Engine.fresh : Engine := ⟨Vector.replicate 4 [], 0, []⟩

/-- Who owns a scoreboard entry (R170): an engine command by engine and identifier, or a command of the array. -/
inductive SbOwner
  | eng (e : Nat) (id : Nat)
  | mx (core : Fin 3) (h : Fin 8)
  deriving DecidableEq, Repr

/-- An entry of the range scoreboard (R170): first and last local byte, kind, owner and the cycle it was recorded. -/
structure SbEntry where
  lo : Nat
  hi : Nat
  write : Bool
  owner : SbOwner
  cyc : Nat
  deriving DecidableEq, Repr

/-- Reduction functions (R365). -/
inductive RedFn | add | and | or | xor | min | max | fadd
  deriving DecidableEq, Repr

/-- An exact value of a number format (R131, R132): NaN, an infinity, or (-1)^neg x m x 2^e. -/
inductive FVal
  | nan
  | inf (neg : Bool)
  | fin (neg : Bool) (m : Nat) (e : Int)
  deriving DecidableEq, Repr

/-- What a side-log entry holds (R366): a store, or a reduction with its operand as an integer and as an exact value. -/
inductive SideWork
  | store (bytes : List Byte) (form : StoreForm)
  | red (f : RedFn) (size : Nat) (sx : Bool) (v : Int) (x : FVal)
  deriving DecidableEq, Repr

/-- An entry of the side log (R366). -/
structure SideEntry where
  seq : Nat
  core : Fin 3
  h : Fin 8
  ctx : Nat
  addr : Nat
  /-- its class, kept once taken, and where the home lies; none: no class yet (R249) -/
  home : Option (HClass × Home)
  work : SideWork
  /-- the launch of its thread, and the cycle in which it was posted -/
  lid : Word64
  since : Nat
  deriving DecidableEq, Repr

/-- An outstanding miss (R362): its record, the structure that missed, and whether the record has been written. -/
structure Miss where
  kind : Nat
  va : Nat
  ctx : Nat
  req : Nat
  tag : Nat
  /-- thread held, for a precise requester -/
  thr : Option (Fin 3 × Fin 8)
  /-- the engine queue held -/
  queue : Option (Nat × Nat)
  core : Fin 3
  written : Bool
  /-- its requester no longer waits: the answer will be discarded (R363) -/
  dead : Bool
  deriving DecidableEq, Repr

/-- One tile. -/
structure Tile where
  cores : Vector Core 3
  mx : MxArray
  /-- 0 copy engine, 1 conversion engine -/
  eng : Vector Engine 2
  guards : Vector GuardSlot 32
  board : List SbEntry
  tlb : List TEntry
  side : List SideEntry
  misses : List Miss
  /-- the thread the capacity unit runs for (R342), and the translations it has been given for that instruction (R334) -/
  capBusy : Option (Fin 3 × Fin 8)
  capHas : List TEntry
  /-- crew barrier: completed phases, and `bar.stat` addresses of the open phase (R277, R278) -/
  crewP : BitVec 32
  crewStat : List Nat
  /-- the sums of the event counts taken in the cycle of the last arrival (R278) -/
  crewSum : List Nat
  /-- the gang that holds the tile (64 x die + slot), and the slot that holds its local image (R226) -/
  gang : Option Nat
  image : Option Nat
  /-- status words of children received, by kernel position (R231) -/
  child : List (Nat × Word64)
  /-- kernels whose word the tile has sent -/
  sent : List Nat
  deriving DecidableEq, Repr

/-- A tile as reset leaves it. -/
def Tile.fresh : Tile where
  cores := Vector.replicate 3 Core.fresh; mx := MxArray.fresh; eng := Vector.replicate 2 Engine.fresh
  guards := Vector.replicate 32 ⟨.pend, .pend, 0⟩; board := []; tlb := []; side := []; misses := []; capBusy := none; capHas := []
  crewP := 0; crewStat := []; crewSum := []; gang := none; image := none; child := []; sent := []

/-! ## Gangs and launches (03, 12, 15 to 17) -/

/-- States of a group object (R291). -/
inductive GState | free | opened | forked | done
  deriving DecidableEq, Repr

/-- A group object (R291 to R305). -/
structure Group where
  gid : Nat
  st : GState
  opener : ThreadRef
  k : Nat
  q : Nat
  tmo : Nat
  eps : BitVec 32
  /-- rewards posted: member, FP32 -/
  posts : List (Nat × BitVec 32)
  /-- members cancelled -/
  cancels : List Nat
  /-- cycle at which a running timeout falls due -/
  due : Option Nat
  /-- pending members that have halted (R302) -/
  halts : Nat
  tmoBit : Bool
  zvar : Bool
  /-- cycle of the combine (DONE from the cycle after) -/
  combined : Nat
  deriving DecidableEq, Repr

/-- The tour of one kernel in a gang (R233 to R235): armed, the token (ring position, mark, arrival cycle), finish message
(ring position, arrival cycle), finished. -/
structure Tour where
  pos : Nat
  armed : Bool
  token : Option (Nat × Bool × Nat)
  finish : Option (Nat × Nat)
  finished : Bool
  deriving DecidableEq, Repr

/-- States of a slot-table entry (R225). -/
inductive SlotState | pending | loading | live | draining
  deriving DecidableEq, Repr

/-- A kernel word of a bind record (R224). -/
structure BindKern where
  kern : Nat
  role : Nat
  sb : Nat
  nt : Nat
  l : Nat
  deriving DecidableEq, Repr

/-- A pre-emption request (R236): forced, the cycle of the request; once a forced save has frozen the gang, the cycle of the freeze
and the states its threads had. -/
structure PreReq where
  forced : Bool
  since : Nat
  froze : Nat
  frozen : List (ThreadRef × TState)
  deriving DecidableEq, Repr

/-- A gang that holds an entry of a die's slot table: its bind record (R224) and what it keeps while bound. -/
structure Gang where
  die : Nat
  slot : Nat
  st : SlotState
  lid : Word64
  num : Nat
  clu : Nat
  col0 : Nat
  row0 : Nat
  gw : Nat
  gh : Nat
  fold : Nat
  lvl : Nat
  img : BitVec 32
  save : Nat
  kerns : List BindKern
  ctx : Nat
  smp : Bool
  /-- bound during the reduced service, which it keeps (R387) -/
  red : Bool
  start : Nat
  /-- rows and images still to write -/
  imagesLeft : List Nat
  rowsLeft : List (Nat × Nat)
  /-- the cycle in which the last of them so far is written (R226) -/
  written : Nat
  /-- private slots given to its threads, tile by tile, by kernel position and thread (R381) -/
  slots : List Nat
  /-- those that its released kernels have given back -/
  back : List Nat
  barP : BitVec 32
  barStat : List (Nat × Nat)
  barSum : List Nat
  groups : List Group
  geps : BitVec 32
  tours : List Tour
  preempt : Option PreReq
  /-- set when the gang is bound from a save area (R240) -/
  resume : Option Nat
  deriving DecidableEq, Repr

/-- A kernel named by a launch command (R380). -/
structure LaunchKern where
  sb : Nat
  kern : Nat
  deriving DecidableEq, Repr

/-- What a die's completion queue of 64 entries holds while its command processor restarts (R373): a gang's completion word, with its launch, gang
number and kernel position; a fault record, which stands in its ring. -/
inductive CpMsg
  | word (lid : Word64) (num kern : Nat) (w : Word64)
  | record
  deriving DecidableEq, Repr

/-- A launch (R223, R232, R372). -/
structure Launch where
  lid : Word64
  /-- identifiers of earlier attempts -/
  old : List Word64
  q : Nat
  tag : BitVec 32
  img : BitVec 32
  ctx : Nat
  kerns : List LaunchKern
  fold : Nat
  lvl : Nat
  smp : Bool
  contain : Bool
  retry : Nat
  attempts : Nat
  anyway : Bool
  arg : Word64
  ws : Word64 × Word64
  deps : List Word64
  /-- gangs: number, column, row, width, height, in order -/
  grid : Nat × Nat
  /-- next gang number to bind, number of gangs -/
  nextGang : Nat
  gangs : Nat
  /-- status words received: gang, kernel position, word -/
  words : List (Nat × Nat × Word64)
  /-- its first gang was bound during the reduced service (R387) -/
  red : Bool
  /-- its queue pair waits until its bind records are written (R383) -/
  held : Bool
  /-- a fault asked for containment that has not been done yet (R372) -/
  contained : Bool
  /-- completions owed to PREEMPTs and to a RESUME: queue and tag -/
  preCmd : List (Nat × BitVec 32)
  resCmd : Option (Nat × BitVec 32)
  /-- completed, with the combined status word and status code -/
  done : Option (Word64 × Nat)
  /-- the gang number that goes with the status: that of the reported thread (R232) -/
  rgang : Nat
  deriving DecidableEq, Repr

/-- A status word on its way (R231): the gang by launch and number, the sending tile's position in it, the kernel's position, the word,
and the cycle of its arrival. -/
structure StatusMsg where
  lid : Word64
  num : Nat
  pos : Nat × Nat
  kern : Nat
  word : Word64
  due : Nat
  deriving DecidableEq, Repr

/-- A gang that has been saved (R237 to R240): the base of its save area, its context, whether the save was cooperative, and what the
layout of R239 has no place for: its slot-table entry, the tiles it left with all they held of it, the states of its threads and the
cycle at which its timeouts stopped; `back` once a RESUME has named it. -/
structure Saved where
  base : Nat
  ctx : Nat
  coop : Bool
  gang : Gang
  old : List Nat
  tiles : List Tile
  states : List (ThreadRef × TState)
  froze : Nat
  back : Bool
  deriving DecidableEq, Repr

/-- A kernel record of a loaded image (R46, R47, R48, R392). -/
structure ImgKern where
  cat : List NameEnt
  reserve : Nat
  threads : Nat
  role : Nat
  entry : Nat
  tvec : Nat
  gridw : Nat
  gridh : Nat
  folds : Nat
  rows : Nat
  ffirst : Nat
  fcount : Nat
  live : List LiveRange
  binds : List (Nat × Nat × Nat)
  /-- name, thread, pattern -/
  init : List (Nat × Nat × Pat)
  deriving DecidableEq, Repr

/-- A function record (R51): local addresses of its bodies (0xFFFF_FFFF_FFFF_FFFF: none) and its call sites (R53). -/
structure ImgFun where
  tile : Nat
  loop : Nat
  scalar : Nat
  sites : List (Nat × Nat × Nat × Nat × Nat)
  deriving DecidableEq, Repr

/-- A loaded image (R60). -/
structure Image where
  handle : BitVec 32
  /-- CODE bytes, from local address 0x2000 -/
  code : List Byte
  /-- start of DLOCAL, its bytes and its empty words by offset -/
  dlocal : Nat
  data : List Byte
  empties : List Nat
  kerns : List ImgKern
  funs : List ImgFun
  emul : List (Nat × Nat)
  fmask : BitVec 512
  /-- the pages of its DHBM and DCAP copies, as every context maps them (R60) -/
  pages : List TEntry
  deriving DecidableEq, Repr

/-- An entry of a seal binding table (R247). -/
structure SBind where
  sl : Nat
  start : Nat
  len : Nat
  deriving DecidableEq, Repr

/-- A context (R246, R247, R381, R394). -/
structure Context where
  id : Nat
  sealb : BitVec 43
  pasid : BitVec 20
  root : Word64
  /-- free shadow frames (pfn) of HBM die 0, of HBM die 1, of the capacity tier -/
  pool0 : List Nat
  pool1 : List Nat
  poolc : List Nat
  psize : Nat
  pbase : Nat
  pslots : Nat
  /-- private slots in use -/
  pused : List Nat
  /-- the seal binding table, valid entries in table order; at most 1,024 -/
  sbind : List SBind
  /-- the mappings the host's tables hold, newest first -/
  maps : List TEntry
  deriving DecidableEq, Repr

/-! ## The device (08, 20 to 22) -/

/-- A reflection (R249, R253): its die, the context and global address of its line, the line's physical address and key, its 64 bytes as a
load returns them, the offsets of its poisoned words (R265), and the scale bytes of its granules where it lies in a format range (R154). -/
structure Reflection where
  die : Nat
  ctx : Nat
  va : Nat
  pa : Nat
  key : Nat
  bytes : List Byte
  bad : List Nat
  scales : List Byte
  deriving DecidableEq, Repr

/-- Status of a pooling buffer (R348). -/
structure Buffer where
  up : Bool
  rk : BitVec 4
  ce : BitVec 16
  ue : BitVec 16
  point : Word64
  /-- the thread whose record write it serves until it is durable (R339, R355) -/
  serving : Option ThreadRef
  deriving DecidableEq, Repr

/-- What a bank of HBM owes once a back-off has ended (R376): it serves the requests that waited, the entries issued before `seq` and the elements of
engine commands (tile, engine, queue, command, position), before its next back-off. -/
structure BankDebt where
  stack : Nat
  bank : Nat
  seq : Nat
  engs : List (Nat × Fin 2 × Fin 4 × Nat × Nat)
  deriving DecidableEq, Repr

/-- A queue pair (R378, R379). -/
structure QueuePair where
  qsbase : Word64
  qcbase : Word64
  qsize : Word64
  qstail : Word64
  qchead : Word64
  qvec : Word64
  /-- index of the next submission entry to take and of the next completion entry to write; the phase -/
  shead : Nat
  ctail : Nat
  ph : Bool
  /-- completion entries reserved -/
  reserved : Nat
  /-- a command has begun and has not completed (R383) -/
  busy : Bool
  deriving DecidableEq, Repr

/-- An export-table entry (R384). -/
structure Export where
  v : Bool
  obase : Nat
  size : Nat
  key : Nat
  w : Bool
  pbase : Nat
  deriving DecidableEq, Repr

/-- A command the journal has recorded and whose completion has not been posted (R373). -/
structure Taken where
  q : Nat
  tag : BitVec 32
  op : Nat
  /-- the launch identifier of a LAUNCH -/
  lid : Word64
  deriving DecidableEq, Repr

/-- An invalidation in progress (R370): the context and range, and what ends with it (a completion for a queue's tag, or an
unveil of a thread). -/
structure Inval where
  ctx : Nat
  base : Nat
  len : Nat
  cmd : Option (Nat × BitVec 32)
  /-- tiles that have not acknowledged it -/
  left : List Nat
  deriving DecidableEq, Repr

/-- The configuration table in force (R385); `roles` gives each tile of the service column, by row, the cluster whose translation service
core it is, if it is one. -/
structure CfgTable where
  valid : Bool
  svc : Nat
  fmax : Nat
  pmax : Nat
  vmax : Nat
  version : Nat
  roles : Vector (Option Nat) 32
  deriving DecidableEq, Repr

/-- A firmware slot: its version and its image (R385). -/
structure FwSlot where
  version : BitVec 32
  image : List Byte
  deriving DecidableEq, Repr

/-- Where a cycle has got to: what issues, by class of R320 and next place in it (class 0, which no order of that kind binds, comes before all
that follows here, the other classes behind the waits tried again), what falls due, background work, the waits tried again (last place in
the order), the steals served, the waits that have reached their limit. -/
inductive Phase
  | issue (cls : Nat) (key : Nat)
  | timed
  | work
  | retry (seq : Nat)
  | late
  | expire
  deriving DecidableEq, Repr

/-- The state of the machine. -/
structure State where
  /-- die cycle count since reset (R284); both dies leave reset together (R389) -/
  cycle : Nat
  tiles : List (Nat × Tile)
  /-- memory: physical addresses, local memories and weight stores in one key space (see `localKey`, `wsKey`) -/
  mem : List Host.Cell
  /-- words (keys divided by 8) that are empty, and that are poisoned, in rising order -/
  empties : List Nat
  poison : List Nat
  /-- soft errors not found yet: a word (its key divided by 8), and whether it is uncorrectable (R371) -/
  latent : List (Nat × Bool)
  /-- words of local memory written in this cycle: the word, its value and its poison mark before (R122) -/
  fresh : List (Nat × Nat × Bool)
  gangs : List Gang
  launches : List Launch
  /-- status words on their way to their parents (R231) -/
  flying : List StatusMsg
  saved : List Saved
  images : List Image
  contexts : List Context
  reflections : List Reflection
  /-- format ranges of die 0 and die 1 -/
  fr : Vector (Vector FmtRange 32) 2
  /-- keys loaded (R361) -/
  keys : List (Nat × BitVec 512)
  vltbase : BitVec 21
  vltsize : BitVec 20
  buffers : Vector Buffer 16
  vwrites : List VaultWrite
  /-- weight-store regions being written: die, region -/
  wsWriting : List (Nat × Nat)
  ath : BitVec 14
  alerts : Vector (BitVec 32) 8
  boff : Vector (BitVec 32) 8
  /-- cycles of back-off not yet counted in `boff`, by stack -/
  boffRest : Vector Nat 8
  /-- activation counts: stack, bank, row, count -/
  acts : List (Nat × Nat × Nat × Nat)
  /-- banks in back-off: stack, bank, cycle of its end -/
  backoff : List (Nat × Nat × Nat)
  debts : List BankDebt
  queues : Vector QueuePair 16
  /-- next queue pair to serve (R383) -/
  qrr : Fin 16
  journal : List Taken
  /-- MSI-X vectors raised, oldest first -/
  msix : List Nat
  cprst : BitVec 16
  step : BitVec 8
  trst : BitVec 8
  pwr : BitVec 16
  temp : BitVec 8
  thr : Bool
  red : Bool
  rdy : Bool
  pwrlim : BitVec 16
  cfg : CfgTable
  fwArb : BitVec 32
  fwTrial : BitVec 2
  fwAct : Bool
  fwSlots : Vector FwSlot 2
  fwCommit : Word64
  modId : BitVec 9
  routes : Vector (BitVec 18) 128
  portsUp : BitVec 18
  expt : Vector Export 64
  measure : Vector (BitVec 384) 4
  quotes : BitVec 64
  /-- records written so far into the miss ring and the fault ring of each cluster (32 x die + cluster); a position never written
  is free -/
  missPos : List (Nat × Nat)
  faultPos : List (Nat × Nat)
  /-- answers of the host still to come for page requests whose granule has been answered, by cluster (R367) -/
  late : List (Nat × Nat)
  /-- for each die, whether its command processor restarts, and what waits in its completion queue (R373) -/
  cpDown : Vector Bool 2
  cpq : Vector (List CpMsg) 2
  /-- an HBM stack has failed to train (R387) -/
  stackBad : Bool
  /-- fault records already taken by FAULTS, by cluster -/
  faultRead : List (Nat × Nat)
  invals : List (Nat × Inval)
  nextInval : Nat
  /-- launch identifiers given: how many, and which; image handles given -/
  lids : Nat
  usedLids : List Word64
  handles : Nat
  /-- fields of the model, not of the manual (logs 1, 2) -/
  cur : ThreadRef
  phase : Phase
  agenda : List Instr
  seq : Nat
  deriving DecidableEq, Repr

/-- A format range that is not in force. -/
def FmtRange.fresh : FmtRange := ⟨0, 0, 0, 0, false, false⟩
/-- A queue pair after reset (R378): disabled, phase 1. -/
def QueuePair.fresh : QueuePair := ⟨0, 0, 0, 0, 0, 0, 0, 0, true, 0, false⟩
/-- A buffer after module power-on; its link is not yet trained (R348, R387). -/
def Buffer.fresh : Buffer := ⟨false, 0, 0, 0, 0, none⟩
/-- An export entry that is not valid. -/
def Export.fresh : Export := ⟨false, 0, 0, 0, false, 0⟩
/-- The configuration table as shipped (R385). -/
def CfgTable.shipped : CfgTable where
  valid := true; svc := 40; fmax := 940; pmax := 3200; vmax := 512; version := 0
  roles := #v[some 0, some 1, some 2, some 3, some 4, none, none, none, some 5, some 6, some 7, some 8, some 9, none, none, none,
    some 10, some 11, some 12, some 13, some 14, none, none, none, some 15, some 16, some 17, some 18, some 19, none, none, none]
/-- The row of the translation service core of a cluster; where the table names none, that of the table as shipped (log 117). -/
def CfgTable.serviceRow (t : CfgTable) (c : Nat) : Nat := (t.roles.toList.findIdx? fun r => r == some c).getD (8 * (c / 5) + c % 5)

/-- The words that are empty after module power-on, under a configuration table: the reply word of the fill mailbox of each translation
service core (R363, R385). -/
def mailboxEmptiesAt (t : CfgTable) : List Nat :=
  (List.range 64).filterMap fun k =>
    if (t.roles[k % 32]?.join).isSome then some ((2 ^ 52 + 2 ^ 19 * (2048 * (k / 32) + 64 * (k % 32) + t.svc) + 0x6_4010) / 8) else none
/-- The same for the table as shipped. -/
def mailboxEmpties : List Nat := mailboxEmptiesAt CfgTable.shipped

/-- The machine right after module power-on (R286, R350, R376 to R389). -/
def State.reset : State where
  cycle := 0; tiles := []; mem := []; empties := mailboxEmpties; poison := []; latent := []; fresh := []
  gangs := []; launches := []; flying := []; saved := []; images := []; contexts := []; reflections := []
  fr := Vector.replicate 2 (Vector.replicate 32 FmtRange.fresh); keys := []
  vltbase := 0; vltsize := 0; buffers := Vector.replicate 16 Buffer.fresh; vwrites := []; wsWriting := []
  ath := 1024; alerts := Vector.replicate 8 0; boff := Vector.replicate 8 0; boffRest := Vector.replicate 8 0
  acts := []; backoff := []; debts := []
  queues := Vector.replicate 16 QueuePair.fresh; qrr := 0; journal := []; msix := []
  cprst := 0; step := 8; trst := 0; pwr := 0; temp := 0; thr := false; red := true; rdy := false
  pwrlim := 3200; cfg := CfgTable.shipped
  fwArb := 0; fwTrial := 0; fwAct := false; fwSlots := Vector.replicate 2 ⟨0, []⟩; fwCommit := 0
  modId := 0; routes := Vector.replicate 128 0; portsUp := 0; expt := Vector.replicate 64 Export.fresh
  measure := #v[Config.romMeasurement, sha384 [], Config.tableMeasurement [], 0]; quotes := 0; missPos := []; faultPos := []; late := []; faultRead := []
  cpDown := Vector.replicate 2 false; cpq := Vector.replicate 2 []; stackBad := false
  invals := []; nextInval := 0; lids := 0; usedLids := []; handles := 0
  cur := ⟨0, 0, 0⟩; phase := .issue 0 0; agenda := []; seq := 0

end Sys2Proof.Machine
end

