-- ==== Sys2Proof/Machine/Ops.lean ====
section
/-! DEFINITION. The named operations over the state that every meaning shares: tiles, cores and threads, memory in one key
space, counters, trap entry and the return from it (14 R289, R284), waits (11 R215), redirects and the issue prologue (05 R96). -/
namespace Sys2Proof

/-- The core of a thread. -/
def ThreadRef.coreRef (t : ThreadRef) : CoreRef := ⟨t.tile, t.core⟩

end Sys2Proof

namespace Sys2Proof.Machine

/-! ## Sparse tables -/

/-- The entry of key `k`. -/
def getA {α : Type} : List (Nat × α) → Nat → Option α
  | [], _ => none
  | (j, v) :: l, k => if k = j then some v else getA l k

/-- The table with `k` set to `v`, keys rising. -/
def putA {α : Type} : List (Nat × α) → Nat → α → List (Nat × α)
  | [], k, v => [(k, v)]
  | (j, w) :: l, k, v => if k < j then (k, v) :: (j, w) :: l else if k = j then (k, v) :: l else (j, w) :: putA l k v

/-- The table without key `k`. -/
def delA {α : Type} (l : List (Nat × α)) (k : Nat) : List (Nat × α) := l.filter fun e => e.1 != k

/-- A rising list of keys with `k` in it. -/
def addKey : List Nat → Nat → List Nat
  | [], k => [k]
  | j :: l, k => if k < j then k :: j :: l else if k = j then j :: l else j :: addKey l k

/-- A list of keys without `k`. -/
def dropKey (l : List Nat) (k : Nat) : List Nat := l.filter (· != k)

/-! ## Tiles, cores, threads -/

/-- The tile of number `k`; one not listed is as reset left it. -/
def State.tile (s : State) (k : Nat) : Tile := (getA s.tiles k).getD Tile.fresh
/-- The state with tile `k` set. -/
def State.setTile (s : State) (k : Nat) (t : Tile) : State := { s with tiles := putA s.tiles k t }
/-- A core. -/
def State.core (s : State) (r : CoreRef) : Core := (s.tile r.tile).cores[r.core]
/-- The state with a core set. -/
def State.setCore (s : State) (r : CoreRef) (c : Core) : State :=
  s.setTile r.tile { s.tile r.tile with cores := (s.tile r.tile).cores.set r.core c }
/-- A hardware thread. -/
def State.thread (s : State) (t : ThreadRef) : Thread := (s.core t.coreRef).threads[t.h]
/-- The state with a hardware thread set. -/
def State.setThread (s : State) (t : ThreadRef) (x : Thread) : State :=
  s.setCore t.coreRef { s.core t.coreRef with threads := (s.core t.coreRef).threads.set t.h x }
/-- The thread an instruction acts on. -/
def State.me (s : State) : Thread := s.thread s.cur
/-- The state with that thread set. -/
def State.setMe (s : State) (x : Thread) : State := s.setThread s.cur x
/-- Its core. -/
def State.myCore (s : State) : Core := s.core s.cur.coreRef
/-- The state with its core set. -/
def State.setMyCore (s : State) (c : Core) : State := s.setCore s.cur.coreRef c
/-- Its tile. -/
def State.myTile (s : State) : Tile := s.tile s.cur.tile
/-- The state with its tile set. -/
def State.setMyTile (s : State) (t : Tile) : State := s.setTile s.cur.tile t

/-- The kernel bound on hardware thread `h` of a core (R217). -/
def Core.kernelOf (c : Core) (h : Fin 8) : Option Kernel := c.kernels.find? fun k => k.sb ≤ h.val && h.val < k.sb + k.n
/-- A kernel with nothing in it, for a thread to which none is bound. -/
def Kernel.none : Kernel where
  sb := 0; n := 1; cat := []; decl := []; rows := 0; reserve := 0; phys := []; freed := 0; relCyc := 0; entry := 0; tvec := 0
  pos := 0; kern := 0; gang := 0; lid := 0; ctx := 0; live := []
/-- The kernel of a thread. -/
def State.kernel (s : State) (t : ThreadRef) : Kernel := ((s.core t.coreRef).kernelOf t.h).getD Kernel.none
/-- The kernel of the current thread. -/
def State.myKernel (s : State) : Kernel := s.kernel s.cur
/-- The core with the kernel of slot base `sb` changed. -/
def Core.modKernel (c : Core) (sb : Nat) (f : Kernel → Kernel) : Core :=
  { c with kernels := c.kernels.map fun k => if k.sb = sb then f k else k }

/-- The thread number t within its kernel (R217). -/
def State.tnum (s : State) (t : ThreadRef) : Nat := t.h.val - (s.kernel t).sb

/-- Where a tile lies: die, row, column (R156). -/
def tileDie (k : Nat) : Nat := k / 2048
/-- Its row. -/
def tileRow (k : Nat) : Nat := k / 64 % 32
/-- Its column. -/
def tileCol (k : Nat) : Nat := k % 64
/-- The tile of a die, row and column. -/
def tileAt (die row col : Nat) : Nat := 2048 * die + 64 * row + col
/-- The service column (R385). -/
def State.svc (s : State) : Nat := s.cfg.svc
/-- Compute column number, counted from the west without the service column. -/
def State.ccol (s : State) (col : Nat) : Nat := if col < s.svc then col else col - 1
/-- The cluster of a compute tile (R385): 5v + u; 31 in the service column (R286). -/
def State.cluster (s : State) (k : Nat) : Nat :=
  if tileCol k = s.svc then 31 else 5 * (tileRow k / 8) + s.ccol (tileCol k) / 8
/-- The tile within its cluster, 8y + x (R362). -/
def State.inCluster (s : State) (k : Nat) : Nat := 8 * (tileRow k % 8) + s.ccol (tileCol k) % 8
/-- The translation service tile of cluster `c` of a die (R385): as shipped, row 8v + u of the service column. -/
def State.serviceTile (s : State) (die c : Nat) : Nat := tileAt die (s.cfg.serviceRow c) s.svc
/-- The neighbour of a tile in a direction, if the die has one. -/
def tileNext (k : Nat) : Dir → Option Nat
  | .n => if tileRow k = 0 then none else some (k - 64)
  | .s => if tileRow k = 31 then none else some (k + 64)
  | .e => if tileCol k = 40 then none else some (k + 1)
  | .w => if tileCol k = 0 then none else some (k - 1)

/-- The opposite direction. -/
def dirBack : Dir → Dir | .n => .s | .s => .n | .e => .w | .w => .e
/-- The place of a direction in the order n, e, s, w. -/
def dirIx : Dir → Fin 4 | .n => 0 | .e => 1 | .s => 2 | .w => 3
/-- The base name number of a port (R65). -/
def dirName : Dir → Nat | .n => 57 | .e => 58 | .s => 59 | .w => 60

/-- The identifier of a gang: 64 x die + slot. -/
def Gang.id (g : Gang) : Nat := 64 * g.die + g.slot
/-- The gang of identifier 64 x die + slot. -/
def State.gang? (s : State) (g : Nat) : Option Gang := s.gangs.find? fun x => 64 * x.die + x.slot == g
/-- The state with a gang changed. -/
def State.modGang (s : State) (g : Nat) (f : Gang → Gang) : State :=
  { s with gangs := s.gangs.map fun x => if 64 * x.die + x.slot = g then f x else x }
/-- The launch of an identifier. -/
def State.launch? (s : State) (lid : Word64) : Option Launch := s.launches.find? fun l => l.lid == lid
/-- The state with a launch changed. -/
def State.modLaunch (s : State) (lid : Word64) (f : Launch → Launch) : State :=
  { s with launches := s.launches.map fun l => if l.lid = lid then f l else l }
/-- The context of an identifier. -/
def State.context? (s : State) (c : Nat) : Option Context := s.contexts.find? fun x => x.id == c
/-- The state with a context changed. -/
def State.modContext (s : State) (c : Nat) (f : Context → Context) : State :=
  { s with contexts := s.contexts.map fun x => if x.id = c then f x else x }

/-- The tile of position (x, y) of a gang (R224, R385). -/
def State.gangTile (s : State) (g : Gang) (x y : Nat) : Nat :=
  let cc := 8 * (g.clu % 5) + g.col0 + x
  tileAt g.die (8 * (g.clu / 5) + g.row0 + y) (if cc < s.svc then cc else cc + 1)
/-- The tiles of a gang, row by row. -/
def State.gangTiles (s : State) (g : Gang) : List Nat :=
  (List.range (g.gh + 1)).flatMap fun y => (List.range (g.gw + 1)).map fun x => s.gangTile g x y
/-- The position (x, y) of a tile within its gang. -/
def State.gangPos (s : State) (g : Gang) (k : Nat) : Nat × Nat :=
  (s.ccol (tileCol k) - (8 * (g.clu % 5) + g.col0), tileRow k - (8 * (g.clu / 5) + g.row0))
/-- The tile index 8y + x of a tile within its gang (R232). -/
def State.gangIndex (s : State) (g : Gang) (k : Nat) : Nat := 8 * (s.gangPos g k).2 + (s.gangPos g k).1
/-- The core of a role (R46, R156): role 0 arithmetic is core 2, 1 conversion core 1, 2 transfer core 0. -/
def roleCore : Nat → Fin 3 | 0 => 2 | 1 => 1 | _ => 0

/-! ## Memory -/

/-- The byte of key `k`; an unlisted one reads 0 (DESIGN CHOICE, log 4). -/
def memByte : List Host.Cell → Nat → Byte
  | [], _ => 0
  | (j, b) :: m, k => if k = j then b else memByte m k

/-- Memory with one byte written, in the canonical form. -/
def memPut : List Host.Cell → Nat → Byte → List Host.Cell
  | [], k, b => if b = 0 then [] else [(k, b)]
  | (j, c) :: m, k, b =>
    if k < j then (if b = 0 then (j, c) :: m else (k, b) :: (j, c) :: m)
    else if k = j then (if b = 0 then m else (k, b) :: m)
    else (j, c) :: memPut m k b

/-- The canonical form: keys strictly rising, no entry equal to what an unlisted key reads as. -/
def Memory.wf : List Host.Cell → Bool
  | [] => true
  | [(_, b)] => b != 0
  | (j, b) :: (k, c) :: m => b != 0 && decide (j < k) && Memory.wf ((k, c) :: m)

/-- Memory with consecutive bytes written. -/
def memPutList : List Host.Cell → Nat → List Byte → List Host.Cell
  | m, _, [] => m
  | m, k, b :: bs => memPutList (memPut m k b) (k + 1) bs

/-- `n` bytes from key `k`. -/
def memBytes (m : List Host.Cell) (k : Nat) : Nat → List Byte
  | 0 => []
  | n + 1 => memByte m k :: memBytes m (k + 1) n

/-- Little-endian value of bytes (R3). -/
def natOfBytes : List Byte → Nat
  | [] => 0
  | b :: bs => b.toNat + 256 * natOfBytes bs

/-- The low `n` bytes of a number, little-endian (R3). -/
def bytesOfNat : Nat → Nat → List Byte
  | 0, _ => []
  | n + 1, v => BitVec.ofNat 8 v :: bytesOfNat n (v / 256)

/-- The key of a byte of a tile's local memory (R157). -/
def localKey (tile a : Nat) : Nat := 2 ^ 52 + 2 ^ 19 * tile + a
/-- The key of a byte of a die's weight store (R161). -/
def wsKey (die off : Nat) : Nat := 2 ^ 53 + 2 ^ 30 * die + off

/-- The words (keys divided by 8) that `n` bytes from key `k` touch. -/
def wordsOf (k n : Nat) : List Nat := if n = 0 then [] else (List.range ((k + n - 1) / 8 - k / 8 + 1)).map (k / 8 + ·)

/-- Stored bytes as they lie in memory. -/
def State.bytesAt (s : State) (k n : Nat) : List Byte := memBytes s.mem k n
/-- Their little-endian value. -/
def State.natAt (s : State) (k n : Nat) : Nat := natOfBytes (s.bytesAt k n)
/-- Whether any word touched is poisoned (R371). -/
def State.poisoned (s : State) (k n : Nat) : Bool := (wordsOf k n).any fun w => s.poison.contains w
/-- The first poisoned byte address of `n` bytes from `k`: the start of the first poisoned word touched, or `k`. -/
def State.poisonAt (s : State) (k n : Nat) : Nat := match (wordsOf k n).find? fun w => s.poison.contains w with
  | some w => max (8 * w) k
  | none => k
/-- Whether the word of key `k` is full. -/
def State.full (s : State) (k : Nat) : Bool := !(s.empties.contains (k / 8))
/-- Sets the word of key `k` full or empty. -/
def State.setFull (s : State) (k : Nat) (f : Bool) : State :=
  { s with empties := if f then dropKey s.empties (k / 8) else addKey s.empties (k / 8) }
/-- Sets every word touched full. -/
def State.setFullList (s : State) : List Nat → State
  | [] => s
  | w :: ws => State.setFullList (s.setFull (8 * w) true) ws
/-- Marks or clears the poison of the word of key `k`. -/
def State.setPoison (s : State) (k : Nat) (p : Bool) : State :=
  { s with poison := if p then addKey s.poison (k / 8) else dropKey s.poison (k / 8) }

/-- The words that `n` bytes from key `k` cover wholly. -/
def wholeWords (k n : Nat) : List Nat := (wordsOf k n).filter fun w => k ≤ 8 * w && 8 * w + 8 ≤ k + n

/-- The words over which one read finds errors (R157, R371): every word of the lines touched, in local memory the words touched. -/
def errorWords (k n : Nat) : List Nat :=
  if 2 ^ 52 ≤ k ∧ k < 2 ^ 53 then wordsOf k n else wordsOf (64 * (k / 64)) ((k + n + 63) / 64 * 64 - 64 * (k / 64))
/-- The first word of the code word that protects a word: its line, in local memory itself. -/
def codeUnit (w : Nat) : Nat := if 2 ^ 52 ≤ 8 * w ∧ 8 * w < 2 ^ 53 then w else 8 * (w / 8)
/-- Whether `n` bytes from key `k` cover the whole code word of a word, so that writing them leaves no error in it. -/
def coversUnit (k n w : Nat) : Bool := (errorWords (8 * w) 8).all (wholeWords k n).contains
/-- Whether a key lies in a local memory. -/
def isLocal (k : Nat) : Bool := decide (2 ^ 52 ≤ k) && decide (k < 2 ^ 53)
/-- What is kept of words of local memory that a write of this cycle is the first to change: their values before it (R122). -/
def State.before (s : State) (k n : Nat) : List (Nat × Nat × Bool) :=
  if isLocal k then
    ((wordsOf k n).filter fun w => !s.fresh.any (·.1 == w)).map fun w => (w, s.natAt (8 * w) 8, s.poison.contains w)
  else []
/-- Writes bytes: words wholly written lose their poison, words written in part keep it (R265, R371). -/
def State.putBytes (s : State) (k : Nat) (bs : List Byte) : State :=
  { s with fresh := s.fresh ++ s.before k bs.length, mem := memPutList s.mem k bs, poison := s.poison.filter fun w => !(wholeWords k bs.length).contains w,
           latent := s.latent.filter fun e => !coversUnit k bs.length e.1 }
/-- Whether writing `n` bytes at `k` merges into a poisoned word (event POISMERGE). -/
def State.merges (s : State) (k n : Nat) : Bool :=
  (wordsOf k n).any fun w => s.poison.contains w && !(wholeWords k n).contains w

/-- A word of a tile's local memory, its full/empty bit ignored. -/
def State.localWord (s : State) (tile a : Nat) : Nat := s.natAt (localKey tile a) 8
/-- What stands in `n` bytes from a key, to be put back. -/
def State.replaced (s : State) (buf : Nat) (who : Option Writer) (k n : Nat) : VaultWrite :=
  let ws := wordsOf k n
  ⟨buf, who, k, s.bytesAt k n, ws.map fun w => (w, s.poison.contains w, s.empties.contains w), s.latent.filter fun e => ws.contains e.1⟩
/-- One write undone: what it replaced is there again, with the marks, the bits and the errors of its words. -/
def State.undoWrite (s : State) (v : VaultWrite) : State :=
  let ws := v.words.map (·.1)
  { s with fresh := s.fresh ++ s.before v.addr v.old.length
           mem := memPutList s.mem v.addr v.old
           poison := v.words.foldl (fun l w => if w.2.1 then addKey l w.1 else dropKey l w.1) s.poison
           empties := v.words.foldl (fun l w => if w.2.2 then addKey l w.1 else dropKey l w.1) s.empties
           latent := (s.latent.filter fun e => !ws.contains e.1) ++ v.errs }
/-- What an operation that made `s` of the receiver has changed in `n` bytes from a key (R295). -/
def State.changed (s0 : State) (k n : Nat) (s : State) : Undo :=
  .mem (s0.replaced 0 none k n) (s.bytesAt k n) ((wordsOf k n).filter s.empties.contains)
/-- The bytes at the home that an access under a key changes: with encryption, its whole blocks. -/
def keyedSpan (key pa n : Nat) : Nat × Nat := if key = 0 then (pa, n) else (16 * (pa / 16), 16 * ((pa + n + 15) / 16) - 16 * (pa / 16))
/-- Writes a whole word of local memory and sets it full. -/
def State.putLocalWord (s : State) (tile a v : Nat) : State :=
  (s.putBytes (localKey tile a) (bytesOfNat 8 v)).setFull (localKey tile a) true

/-! ## Counters -/

/-- An event counter one up, saturating (R286). -/
def satInc (c : BitVec 32) (n : Nat) : BitVec 32 := if c.toNat + n ≥ 2 ^ 32 then 0xFFFF_FFFF else c + BitVec.ofNat 32 n
/-- Counts event `e` `n` times in a core (R374). -/
def State.countN (s : State) (r : CoreRef) (e : Fin 64) (n : Nat) : State :=
  if n = 0 then s else s.setCore r { s.core r with cevt := (s.core r).cevt.set e (satInc (s.core r).cevt[e] n) }
/-- Counts event `e` once. -/
def State.count (s : State) (r : CoreRef) (e : Fin 64) : State := s.countN r e 1

/-! ## Fault records and errors found (21 R368, R371) -/

/-- The cluster whose service tile keeps the fault records of a tile: its own; for a tile of the service column the cluster it serves, or the first
of its eight rows (DESIGN CHOICE, log 126). -/
def State.recordCluster (s : State) (tile : Nat) : Nat :=
  if tileCol tile = s.svc then (s.cfg.roles[tileRow tile]?.join).getD (5 * (tileRow tile / 8)) else s.cluster tile
/-- Clusters of both dies: die x 32 + cluster. -/
def clusterIds : List Nat := (List.range 20).map (fun c => c) ++ (List.range 20).map fun c => 32 + c
/-- Writes a fault record into the fault ring of the cluster's service tile (R368); `faultPos` counts the records written, and a
position never written is free. While the die's command processor restarts, it takes a place in the completion queue there, if one is free (R373). -/
def State.faultRecord (s : State) (tile : Nat) (kind cause va ctx : Nat) (core h : Nat) : State :=
  let die := tileDie tile
  let cl := s.recordCluster tile
  let svc := s.serviceTile die cl
  let id := 32 * die + cl
  let n := (getA s.faultPos id).getD 0
  let a := 0x6_8000 + 16 * (n % 1024)
  if decide (n ≥ 1024) && s.full (localKey svc a) then
    s.putLocalWord svc 0x6_C000 ((s.localWord svc 0x6_C000 + 1) % 2 ^ 64)
  else
    let w0 := kind * 2 ^ 61 + cause * 2 ^ 56 + va % 2 ^ 56
    let w1 := ctx * 2 ^ 48 + s.inCluster tile * 2 ^ 42 + core * 2 ^ 40 + h * 2 ^ 37
    { (s.putLocalWord svc a w0).putLocalWord svc (a + 8) w1 with
      faultPos := putA s.faultPos id (n + 1)
      cpq := if s.cpDown[die]?.getD false ∧ (s.cpq[die]?.getD []).length < 64 then s.cpq.mapIdx fun k l => if k = die then l ++ [.record] else l else s.cpq }

/-- The address a fault record of cause 4 names: the physical address, or that of its window (log 20). -/
def errorAddr (w : Nat) : Nat :=
  if 8 * w < 2 ^ 52 then 8 * w else if 8 * w < 2 ^ 53 then 8 * w % 2 ^ 19 else 0xE0_0000_0000_0000 + (8 * w - 2 ^ 53)
/-- The pooling buffer that holds a word of the capacity tier (R340). -/
def wordBuf (w : Nat) : Option (Fin 16) :=
  if 2 ^ 50 ≤ 8 * w ∧ 8 * w < 2 ^ 50 + 2 ^ 41 then some ⟨8 * w / 2 ^ 16 % 16, Nat.mod_lt _ (by decide)⟩ else none
/-- A count of 16 bits one up, saturating. -/
def satUp (c : BitVec 16) : BitVec 16 := if c = 0xFFFF then c else c + 1
/-- An error found at a word of the capacity tier is counted in its buffer (R348). -/
def State.bufError (s : State) (e : Nat × Bool) : State :=
  match wordBuf e.1 with
  | some k =>
    let b := s.buffers[k]
    { s with buffers := s.buffers.set k (if e.2 then { b with ue := satUp b.ue } else { b with ce := satUp b.ce }) }
  | none => s
/-- The activation counts with `n` more for a row: stack, bank, row; a row not listed has none (R376). -/
def bumpRow (l : List (Nat × Nat × Nat × Nat)) (st b r n : Nat) : List (Nat × Nat × Nat × Nat) :=
  if n = 0 then l
  else if l.any fun x => x.1 == st && x.2.1 == b && x.2.2.1 == r then
    l.map fun x => if x.1 = st ∧ x.2.1 = b ∧ x.2.2.1 = r then (st, b, r, x.2.2.2 + n) else x
  else l ++ [(st, b, r, n)]
/-- An access at a key may open a row of HBM, which counts as its activation (R376). -/
def State.activate (s : State) (k : Nat) : State :=
  { s with acts := if k < 2 ^ 40 then
      bumpRow s.acts (k / 2 ^ 37) (Config.hbmBank (k / 64)) (Config.hbmRow (k / 64)) (if Config.opensRow s.seq (k / 64) = true then 1 else 0)
    else s.acts }
/-- The errors under a range that a read finds: each corrected one, and each code word with uncorrectable ones once (R371). -/
def State.errorsAt (s : State) (k n : Nat) : List (Nat × Bool) :=
  (s.latent.filter fun e => (errorWords k n).contains e.1).foldl (fun acc e =>
    if e.2 && acc.any fun o => o.2 && codeUnit o.1 == codeUnit e.1 then acc else acc ++ [e]) []
/-- A read finds the soft errors under it (R371): a corrected one counts CECC, a line with uncorrectable ones counts UECC and leaves a
fault record of cause 4; its words are poisoned already. -/
def State.found (s : State) (t : ThreadRef) (kind ctx k n : Nat) : State :=
  if s.latent.isEmpty then s.activate k
  else
    let ws := errorWords k n
    let hit := s.errorsAt k n
    let s1 := hit.foldl State.bufError { s with latent := s.latent.filter fun e => !ws.contains e.1 }
    let s2 := (s1.countN t.coreRef 6 (hit.filter fun e => !e.2).length).countN t.coreRef 7 (hit.filter (·.2)).length
    (hit.filter (·.2)).foldl (fun (z : State) e => z.faultRecord t.tile kind 4 (errorAddr e.1) ctx t.core.val t.h.val) (s2.activate k)

/-! ## Code and redirects -/

/-- An aligned word of a tile's local memory as it was when the cycle began, and its poison mark (R97, R122): a read of code does not see what is
written in its own cycle. -/
def State.wordBefore (s : State) (tile a : Nat) : Nat × Bool :=
  let k := localKey tile a
  match getA s.fresh (k / 8) with
  | some p => p
  | none => (s.natAt (8 * (k / 8)) 8, s.poison.contains (k / 8))
/-- The code word at a local address of a tile as a read of this cycle finds it (R122). -/
def State.codeWord (s : State) (tile a : Nat) : FetchWord :=
  let p := s.wordBefore tile a
  ⟨a, BitVec.ofNat 32 (p.1 / 2 ^ (8 * (a % 8))), p.2⟩
/-- Whether a W entry of the scoreboard recorded in an earlier cycle covers a byte of the range (R171). -/
def State.boardW (s : State) (tile lo n : Nat) : Bool :=
  (s.tile tile).board.any fun e => e.write && decide (e.cyc < s.cycle) && decide (e.lo < lo + n) && decide (lo ≤ e.hi)
/-- The same for an entry of either kind. -/
def State.boardAny (s : State) (tile lo n : Nat) : Bool :=
  (s.tile tile).board.any fun e => decide (e.cyc < s.cycle) && decide (e.lo < lo + n) && decide (lo ≤ e.hi)
/-- The words a thread's buffer takes in now: those of `as` it does not hold, inside local memory and not under a W entry. -/
def State.prefetch (s : State) (tile : Nat) (buf : List FetchWord) (as : List Nat) : List FetchWord :=
  buf ++ ((as.filter fun a => a < 0x8_0000 && !buf.any (·.addr == a) && !s.boardW tile a 4).map (s.codeWord tile))
/-- Counts CODEPOIS for the poisoned words that `new` holds and `old` does not (R371). -/
def State.countCode (s : State) (r : CoreRef) (old new : List FetchWord) : State :=
  s.countN r 8 ((new.filter fun w => w.poison && !old.any (·.addr == w.addr)).length)
/-- A redirect of a thread to address `a`: its buffer is discarded and the four words from the target are read (R122, R123). -/
def State.redirect (s : State) (t : ThreadRef) (a : Nat) : State :=
  let buf := s.prefetch t.tile [] [a, a + 4, a + 8, a + 12]
  ((s.setThread t { s.thread t with pc := a, fbuf := buf }).countCode t.coreRef [] buf).found t 0 0 (localKey t.tile a) 16

/-! ## Taking a trap and returning from one -/

/-- Trap causes (R288). -/
inductive Cause
  | ill | priv | align | divz | width | resizeroom | rstack | waitlim | pfault | access | poison | qscale | rng | check
  | group | seal_ | feature | svc | matrix | deque
  deriving DecidableEq, Repr
/-- Their codes (R288). -/
def Cause.code : Cause → BitVec 8
  | .ill => 0x01 | .priv => 0x02 | .align => 0x03 | .divz => 0x04 | .width => 0x05 | .resizeroom => 0x06 | .rstack => 0x07
  | .waitlim => 0x08 | .pfault => 0x09 | .access => 0x0A | .poison => 0x0B | .qscale => 0x0C | .rng => 0x0D | .check => 0x0E
  | .group => 0x0F | .seal_ => 0x10 | .feature => 0x11 | .svc => 0x12 | .matrix => 0x15 | .deque => 0x16

/-- The registers a trap writes (R289): TCAUSE, TEPC, TVAL; the thread is READY and waits for nothing. -/
def Thread.trapped (x : Thread) (cause : BitVec 8) (epc : Nat) (tval : Word64) : Thread :=
  { x with tcause := cause, tepc := BitVec.ofNat 19 epc, tval := tval, wait := none, st := .ready }

/-- The place of a port's buffer: 0 to 3 for n, e, s, w, 4 for the engines. -/
def portPlace : NameRef → Option Nat
  | .fixed .portN => some 0 | .fixed .portE => some 1 | .fixed .portS => some 2 | .fixed .portW => some 3 | .fixed .portEng => some 4
  | _ => none
/-- A port's buffer in a core. -/
def Core.buffer (c : Core) (p : Nat) : List Word64 := if h : p < 4 then c.portIn[p] else c.portEng
/-- The core with it set. -/
def Core.setBuffer (c : Core) (p : Nat) (l : List Word64) : Core :=
  if h : p < 4 then { c with portIn := c.portIn.set p l } else { c with portEng := l }
/-- The core with words back at the head of their ports, in their order (R99). -/
def Core.returnWords (c : Core) (l : List (NameRef × Word64)) : Core :=
  l.foldr (fun e z => match portPlace e.1 with | some p => z.setBuffer p (e.2 :: z.buffer p) | none => z) c
/-- Gives back the words that a waiting thread's operands took (R99). -/
def State.giveBack (s : State) (t : ThreadRef) : State :=
  match (s.thread t).wait with
  | some w => if w.took.isEmpty then s else
      let s1 := s.setCore t.coreRef ((s.core t.coreRef).returnWords w.took)
      s1.setThread t { s1.thread t with wait := some { w with took := [] } }
  | none => s

/-- Trap entry (R289): one step that sets TCAUSE, TEPC and TVAL and redirects the thread to TVEC; a wait of its instruction ends, and the words
its operands took are back in their ports (R99). -/
def State.enterTrap (s : State) (t : ThreadRef) (cause : BitVec 8) (epc : Nat) (tval : Word64) : State :=
  let z := s.giveBack t
  (z.setThread t ((z.thread t).trapped cause epc tval)).redirect t (z.thread t).tvec.toNat

/-- Whether a POISON trap of the thread asks for containment instead (R372). -/
def State.containable (s : State) (t : ThreadRef) : Bool :=
  match s.launch? (s.kernel t).lid with
  | some l => l.contain && decide (l.attempts < l.retry)
  | none => false

/-- A fault of a launch calls for containment: the attempt is to be contained (R372), or, where a pre-emption is pending, the save is forced at
once and the fault comes about again after it (R236, log 102). -/
def State.askContain (s : State) (lid : Word64) : State :=
  if s.gangs.any fun g => g.lid == lid && g.preempt.isSome then
    { s with gangs := s.gangs.map fun g => if g.lid = lid then { g with preempt := g.preempt.map fun p => { p with forced := true } } else g }
  else s.modLaunch lid fun l => { l with contained := true }
/-- Whether a thread issues no more because its attempt is to be contained (R372). -/
def State.stopping (s : State) (t : ThreadRef) : Bool :=
  match s.launch? (s.kernel t).lid with
  | some l => l.contained
  | none => false
/-- A thread takes a trap of a code: trap entry, or the request for containment that stands in its place for POISON (R372): the thread stays at
its instruction, which has had no effect. -/
def State.takeCode (s : State) (t : ThreadRef) (c : BitVec 8) (epc : Nat) (tval : Word64) : State :=
  if c = Cause.poison.code ∧ s.containable t = true then s.askContain (s.kernel t).lid
  else s.enterTrap t c epc tval
/-- A thread takes a trap (R289). -/
def State.takeTrap (s : State) (t : ThreadRef) (c : Cause) (epc : Nat) (tval : Word64) : State := s.takeCode t c.code epc tval

/-- Whether a target passes the checks of R113, and if not the cause. -/
def targetCause (a : Int) : Option Cause :=
  if a % 4 ≠ 0 then some .align else if a < 0 ∨ a > 0x7_FFFC then some .access else none

/-- Gives a thread an asynchronous trap for its next slot; one already pending makes this one dropped and counted (R290). -/
def State.asyncTrap (s : State) (t : ThreadRef) (c : Cause) (tval : Word64) : State :=
  match (s.thread t).pend with
  | some _ => s.count t.coreRef 0x28
  | none => s.setThread t { s.thread t with pend := some (c.code, tval) }

/-! ## The shape of a meaning -/

/-- A computation of a meaning: it goes on with a value, or stops in a final state (a trap taken, a wait begun). -/
abbrev M (α : Type) : Type := Except State α

/-- The outcome of a meaning: every path ends in a next state. -/
def finish (m : M State) : Host.Outcome State Fault Refusal :=
  match m with
  | .ok s => .next s
  | .error s => .next s

/-- A 64-bit value of an integer: wrap(64, x). -/
def w64 (x : Int) : Word64 := BitVec.ofInt 64 x
/-- A 64-bit value of a natural number. -/
def n64 (x : Nat) : Word64 := BitVec.ofNat 64 x
/-- A TVAL that carries a reason: reason x 2^56 + wrap(56, value) (R216, R273, R323). -/
def reasonVal (r : Nat) (v : Int) : Word64 := BitVec.ofNat 64 (r * 2 ^ 56 + wrapNat 56 v)

/-- The trap of the current instruction, taken from the state before it: names, ports and everything else as they were. -/
def trapM {α : Type} (s0 : State) (c : Cause) (tval : Word64) : M α := .error (s0.takeTrap s0.cur c s0.me.pc tval)

/-- POISON of the current instruction, whose read of `n` bytes at a key found the error (R371). -/
def poisonM {α : Type} (s0 : State) (kind ctx k n : Nat) (tval : Word64) : M α :=
  trapM (s0.found s0.cur kind ctx k n) .poison tval

/-- The first instruction word of an instruction, for TVAL (R66, R96). -/
def instrVal (i : Instr) : Word64 := (firstWord i).setWidth 64

/-- Completes an instruction of `len` bytes: the thread goes on at the next address and is READY (R87). -/
def Thread.advance (x : Thread) (len : Nat) : Thread :=
  { x with pc := x.pc + len, lastPc := x.pc, wait := none, st := .ready }
/-- The length of an instruction in bytes (R84). -/
def Hdr.len (h : Hdr) : Nat := 4 * h.form.words
/-- A thread whose wait ends: READY, or FROZEN as long as a save freezes it. -/
def Thread.goes (x : Thread) : Thread := { x with wait := none, st := if x.st = .frozen then .frozen else .ready }
/-- Completion of the current instruction. -/
def State.done (s : State) (h : Hdr) : State := s.setMe (s.me.advance (Hdr.len h))
/-- The current instruction's place in the order of issue. -/
def State.mySeq (s : State) : Nat := match s.me.wait with | some w => w.seq | none => s.seq
/-- The names of a thread with its catalogue and its place in the random stream, as they stand. -/
def State.latch (s : State) (t : ThreadRef) : Latch := ⟨(s.kernel t).cat, (s.thread t).names, (s.thread t).ridx, (s.thread t).rlast⟩
/-- Completion with a redirect to `a`. -/
def State.goTo (s : State) (a : Nat) : State := (s.setMe { s.me with lastPc := s.me.pc, wait := none, st := .ready }).redirect s.cur a

/-- The wait of an instruction whose latency has run out: it is tried again at once, and writes (R102). -/
abbrev tagRan : Nat := 30
/-- The wait of an instruction whose command a forced save has given back: it is saved as not issued (R238). -/
abbrev tagBack : Nat := 31
/-- The deque unit has done its operation of the cycle (R230). -/
abbrev tagDeque : Nat := 32
/-- Whether two reasons to wait are the same wait. -/
def WaitFor.same : WaitFor → WaitFor → Bool
  | .retry a _, .retry b _ => a == b
  | .miss, .miss => true
  | _, _ => false

/-- Whether a wait is one that is tried again each cycle. -/
def WaitRec.retries (w : WaitRec) : Bool := match w.why with | .retry _ _ => true | .miss => true | _ => false

/-- Whether an instruction that waits so completes before its kernel's rows move, and before a forced save (R78, R103, R238): a latency runs
out, or it waits for its wait field, for a unit, for a range of local memory, for older accesses, for a bank, a refresh, room for a store,
durability, the commands of a set of shadows, or the deque unit. -/
def WaitRec.completes (w : WaitRec) : Bool :=
  match w.why with
  | .until _ => true
  | .run _ => true
  | .retry t _ => ([0, 4, 5, 7, 8, 9, 11, 12, 24, 25, 26, 27, 28, tagRan, tagDeque] : List Nat).contains t
  | _ => false

/-- Whether a wait reached its limit with this cycle (R215): the count is one in the cycle it began. -/
def State.expired (s : State) (t : ThreadRef) : Bool :=
  match (s.thread t).wait with
  | some w => w.tval.isSome && decide (w.lim ≠ 0) && decide (s.cycle + 1 ≥ w.since + w.lim)
  | none => false

/-- The tag of a wait that is tried again. -/
def WaitFor.tag : WaitFor → Option Nat
  | .retry a _ => some a
  | _ => none
/-- Whether an instruction that waits so has read its operands: all but one that waits for its wait field or for a port's word (R86, R99). -/
def WaitFor.hasRead : WaitFor → Bool
  | .retry 0 _ => false
  | .retry 1 _ => false
  | _ => true
/-- Whether an instruction that waits so is tried again from its beginning with operands it has read: not one that has had its effect (12: a
durable write, 19: an arrival), nor a `join` or `leave` of a group's member, which reads none (21 to 23). -/
def WaitFor.keeps (w : WaitFor) : Bool :=
  w.hasRead && match w with
    | .retry t _ => !([12, 19, 21, 22, 23] : List Nat).contains t
    | _ => true
/-- The port words that the sources of an instruction take from a core, in their order. -/
def Core.takes (c : Core) : List NameRef → List (NameRef × Word64)
  | [] => []
  | n :: l => match portPlace n with
    | some p => (match c.buffer p with
      | w :: b => (n, w) :: (c.setBuffer p b).takes l
      | [] => c.takes l)
    | none => c.takes l
/-- The words that the operands of the current instruction take, or have taken while it waited. -/
def State.tookOf (s : State) (i : Instr) : List (NameRef × Word64) :=
  match s.me.wait with
  | some w => if w.why.hasRead then w.took else s.myCore.takes i.sources
  | none => s.myCore.takes i.sources
/-- The core without them. -/
def Core.lessWords (c : Core) (l : List (NameRef × Word64)) : Core :=
  l.foldl (fun z e => match portPlace e.1 with | some p => z.setBuffer p (z.buffer p).tail | none => z) c
/-- A thread out of the rotation at an instruction of `len` bytes that has had its effect, until a cycle (R87). `w`: what its wait keeps. -/
def Thread.behind (x : Thread) (len : Nat) (w : WaitRec) : Thread := { x.advance len with st := .waiting, wait := some w }
/-- What the current instruction has done that its wait's end would take back (R295). -/
def State.undoList (s : State) : List Undo := (s.me.wait.map (·.undo)).getD []
/-- A new wait record of the current thread's instruction. -/
def State.newWait (s : State) (i : Instr) (why : WaitFor) : WaitRec := ⟨i, s.me.pc, s.mySeq, s.cycle, 0, none, why, none, [], none, false, none, s.undoList⟩
/-- Completion with a fixed latency of an instruction that has had its effect: beyond eight cycles the thread is out of the rotation until cycle
`now + lat` (R87); so it is where the instruction had waited, since its slot is no measure then. `s0`: the state before it. -/
def State.doneLat (s0 : State) (h : Hdr) (i : Instr) (lat : Nat) (s : State) : State :=
  if lat ≤ 8 ∧ s0.me.wait.isNone = true then s.done h
  else s.setMe (s.me.behind (Hdr.len h)
    { s0.newWait i (.until (s.cycle + lat)) with pc := s.me.pc, took := s0.tookOf i, src := some (s0.latch s0.cur) })
/-- The wait of the current thread keeps what its end would take back (R295). -/
def State.undoing (s : State) (l : List Undo) : State := s.setMe { s.me with wait := s.me.wait.map fun w => { w with undo := l ++ w.undo } }
/-- The wait record of the current thread for `why`: a bounded wait already begun keeps its start and its limit, whatever else the
instruction has met since (R215); every wait keeps its place. -/
def State.waitRec (s : State) (i : Instr) (why : WaitFor) (tval : Option Word64) : WaitRec :=
  let w := s.me.wait.getD (s.newWait i why)
  if tval.isSome = true ∧ w.bound ≠ some why then
    { w with instr := i, why := why, tval := tval, since := s.cycle, lim := s.me.waitlim.toNat, bound := some why }
  else { w with instr := i, why := why, tval := tval }
/-- Takes the current thread out of the rotation at instruction `i`; `tval` bounds the wait by TWAITLIM (R87, R215). -/
def State.hold (s : State) (i : Instr) (why : WaitFor) (tval : Option Word64) : State :=
  let w := s.waitRec i why tval
  let new := if why.keeps = true ∧ w.took.isEmpty = true then s.myCore.takes i.sources else []
  let s1 := if new.isEmpty then s else s.setMyCore (s.myCore.lessWords new)
  s1.setMe { s1.me with st := .waiting, wait := some (if new.isEmpty then w else { w with took := new }) }
/-- Whether the latency of the current instruction has run out. -/
def State.ranOut (s : State) : Bool := match s.me.wait with | some w => w.ran | none => false
/-- Whether the current instruction writes now: its latency does not pass its thread's next slot, or has run out (R87, R102). -/
def State.writesNow (s0 : State) (lat : Nat) : Bool := s0.ranOut || (decide (lat ≤ 8) && s0.me.wait.isNone)
/-- The current instruction has read its operands and runs for `lat` cycles before it writes (R87, R102); it keeps the names it read. -/
def State.running (s0 : State) (i : Instr) (lat : Nat) : State :=
  let z := s0.hold i (.run (s0.cycle + lat)) none
  z.setMe { z.me with wait := z.me.wait.map fun w => { w with src := w.src.or (some (s0.latch s0.cur)) } }
/-- A latency as a part of a meaning: what follows it comes about when it has run out. -/
def State.runFor (s0 : State) (i : Instr) (lat : Nat) (s : State) : M State :=
  if s0.writesNow lat then .ok s else .error (s0.running i lat)
/-- A write that must still wait, behind a latency that has run out. -/
def afterRun (m : M State) : M State :=
  match m with
  | .ok z => .ok z
  | .error z => .error (z.setMe { z.me with wait := z.me.wait.map fun w => { w with ran := true } })
/-- The value that a waiting instruction has kept. -/
def State.keptVal (s : State) : Option Word64 := s.me.wait.bind (·.kept)
/-- The waiting instruction of the current thread keeps a value. -/
def State.keepVal (s : State) (v : Word64) : State := s.setMe { s.me with wait := s.me.wait.map fun w => { w with kept := some v } }
/-- A part of a meaning whose waits keep a value. -/
def keeping {α : Type} (v : Word64) (m : M α) : M α :=
  match m with
  | .ok z => .ok z
  | .error z => .error (z.keepVal v)
/-- Whether an older instruction of another thread of the core waits with a tag (R79, R102, R164, R342). -/
def Core.waitsAhead (c : Core) (h : Fin 8) (seq tag : Nat) : Bool :=
  (List.finRange 8).any fun k => k != h && match c.threads[k].wait with
    | some w => w.why.tag == some tag && decide (w.seq < seq)
    | none => false
/-- Whether an instruction goes through the core's memory port (R250). -/
def usesPort : Instr → Bool
  | .ldB .. | .ldH .. | .ldW .. | .ldD .. | .ldV .. | .ldG .. | .stB .. | .stH .. | .stW .. | .stD .. | .stV .. | .stG ..
  | .amoSwap .. | .amoCas .. | .amoAdd .. | .amoAnd .. | .amoOr .. | .amoXor .. | .amoMin .. | .amoMax .. | .amoFadd ..
  | .feLdf .. | .feLdk .. | .feStf .. | .feSto .. | .feClr .. | .feTst ..
  | .syncFence .. | .syncAcq .. | .syncRel .. | .syncBind .. | .syncUnbind .. => true
  | _ => false
/-- Whether an older instruction of another thread of the core is still to pass the memory port, which passes operations in the order of issue
(R250): a store that waits for its entry, or an access that its wait field holds (log 122). -/
def Core.portAt (c : Core) (h : Fin 8) (seq : Nat) : Bool :=
  c.waitsAhead h seq 11 || (List.finRange 8).any fun k => k != h && match c.threads[k].wait with
    | some w => w.why.tag == some 0 && usesPort w.instr && decide (w.seq < seq)
    | none => false
/-- The same as a stop of the meaning. -/
def holdM {α : Type} (s0 : State) (i : Instr) (tag : Nat) (tval : Option Word64) : M α := .error (s0.hold i (.retry tag 0) tval)

/-! ## Remote-store counts and the issue prologue -/

/-- The class of a home as seen from a die (R244). -/
def Home.cls (die : Nat) : Home → HClass
  | .hbm d => if d = die then .near else .far
  | _ => .far
/-- Whether an entry counts in a class: its own, or both while it has none (R249). -/
def counts (c : HClass) (e : Option (HClass × Home)) : Bool := match e with | none => true | some m => m.1 == c
/-- A thread's near or far count (R249): its store-buffer entries and its side-log entries. -/
def State.storeCount (s : State) (t : ThreadRef) (c : HClass) : Nat :=
  ((s.core t.coreRef).sbuf.filter fun e => e.h == t.h && counts c e.home).length +
  ((s.tile t.tile).side.filter fun e => e.core == t.core && e.h == t.h && counts c e.home).length

/-- Whether the wait field lets the instruction go on (R86, R254). -/
def State.waitOk (s : State) : Wait → Bool
  | .none => true
  | .near => s.storeCount s.cur .near == 0
  | .far => s.storeCount s.cur .far == 0
  | .both => s.storeCount s.cur .near == 0 && s.storeCount s.cur .far == 0

end Sys2Proof.Machine
end

