-- ==== Sys2Proof/Machine/Aes.lean ====
section
/-! DEFINITION. Encryption at the controllers of HBM and of the capacity links (21 R361): AES-XTS-256 of a 64-byte line (PRESUMED, log 92), the
line number as the tweak. Blocks are lists of 16 bytes as numbers, in memory order. -/
namespace Sys2Proof.Machine

/-- The substitution of AES, entry i at bits [8i+7:8i]. -/
def aesSub : Nat := 0x16bb54b00f2d99416842e6bf0d89a18cdf2855cee9871e9b948ed9691198f8e19e1dc186b95735610ef6034866b53e708a8bbd4b1f74dde8c6b4a61c2e2578ba08ae7a65eaf4566ca94ed58d6d37c8e779e4959162acd3c25c2406490a3a32e0db0b5ede14b8ee4688902a22dc4f816073195d643d7ea7c41744975fec130ccdd2f3ff1021dab6bcf5389d928f40a351a89f3c507f02f94585334d43fbaaefd0cf584c4a39becb6a5bb1fc20ed00d153842fe329b3d63b52a05a6e1b1a2c830975b227ebe28012079a059618c323c7041531d871f1e5a534ccf73f362693fdb7c072a49cafa2d4adf04759fa7dc982ca76abd7fe2b670130c56f6bf27b777c63
/-- Its inverse. -/
def aesSubInv : Nat := 0x7d0c2155631469e126d677ba7e042b17619953833cbbebc8b0f52aae4d3be0a0ef9cc9939f7ae52d0d4ab519a97f51605fec8027591012b131c7078833a8dd1ff45acd78fec0db9a2079d2c64b3e56fc1bbe18aa0e62b76f89c5291d711af1476edf751ce837f9e28535ade72274ac9673e6b4f0cecff297eadc674f4111913a6b8a130103bdafc1020f3fca8f1e2cd00645b3b80558e4f70ad3bc8c00abd890849d8da75746155edab9edfd5048706c92b6655dcc5ca4d41698688664f6f87225d18b6d49a25b76b224d92866a12e084ec3fa420b954cee3d23c2a632947b54cbe9dec444438e3487ff2f9b8239e37cfbd7f3819ea340bf38a53630d56a0952
/-- An entry of a table of 256 bytes. -/
def tableByte (t i : Nat) : Nat := t / 2 ^ (8 * i) % 256
/-- Multiplication by x in the field of AES. -/
def xtime (b : Nat) : Nat := if b < 128 then 2 * b else (2 * b - 256) ^^^ 27
/-- Multiplication by a constant below 16. -/
def gfMul (c b : Nat) : Nat :=
  let b2 := xtime b
  let b4 := xtime b2
  (if c % 2 = 1 then b else 0) ^^^ (if c / 2 % 2 = 1 then b2 else 0) ^^^ (if c / 4 % 2 = 1 then b4 else 0) ^^^
    (if c / 8 % 2 = 1 then xtime b4 else 0)
/-- Two blocks added. -/
def xorBlock (a b : List Nat) : List Nat := List.zipWith (· ^^^ ·) a b
/-- The rows of the 4 x 4 state rotated left by `k` times their number. -/
def shiftRows (k : Nat) (b : List Nat) : List Nat := (List.range 16).map fun i => b.getD ((i + 4 * (k * (i % 4))) % 16) 0
/-- The columns mixed by the circulant of (a, b, c, d). -/
def mixCols (m : List Nat) (x : List Nat) : List Nat :=
  (List.range 16).map fun i => (List.range 4).foldl (fun acc j => acc ^^^ gfMul (m.getD ((j + 4 - i % 4) % 4) 0) (x.getD (i / 4 * 4 + j) 0)) 0

/-- The round constant of round `r`, from 1. -/
def aesRcon (r : Nat) : Nat := (List.range (r - 1)).foldl (fun c _ => xtime c) 1
/-- The next word of the schedule of a 256-bit key, from the words so far, newest first. -/
def nextKeyWord (i : Nat) (ws : List (List Nat)) : List Nat :=
  let p := ws.headD []
  let q := ws.getD 7 []
  let t := if i % 8 = 0 then
      (match (p.drop 1 ++ p.take 1).map (tableByte aesSub) with | a :: l => (a ^^^ aesRcon (i / 8)) :: l | [] => [])
    else if i % 8 = 4 then p.map (tableByte aesSub) else p
  xorBlock q t
/-- The words of the schedule, newest first, `n` more after `i`. -/
def keyWords : Nat → Nat → List (List Nat) → List (List Nat)
  | 0, _, ws => ws
  | n + 1, i, ws => keyWords n (i + 1) (nextKeyWord i ws :: ws)
/-- The fifteen round keys of a 256-bit key of 32 bytes. -/
def roundKeys (key : List Nat) : List (List Nat) :=
  let w0 := (List.range 8).foldl (fun ws i => ((key.drop (4 * i)).take 4) :: ws) []
  let ws := (keyWords 52 8 w0).reverse
  (List.range 15).map fun r => (ws.drop (4 * r)).take 4 |>.flatten

/-- AES-256 of one block. -/
def aesEnc (rk : List (List Nat)) (b : List Nat) : List Nat :=
  let b0 := xorBlock b (rk.headD [])
  let b1 := (List.range 13).foldl (fun x r =>
    xorBlock (mixCols [2, 3, 1, 1] (shiftRows 1 (x.map (tableByte aesSub)))) (rk.getD (r + 1) [])) b0
  xorBlock (shiftRows 1 (b1.map (tableByte aesSub))) (rk.getD 14 [])
/-- Its inverse. -/
def aesDec (rk : List (List Nat)) (b : List Nat) : List Nat :=
  let b0 := (shiftRows 3 (xorBlock b (rk.getD 14 []))).map (tableByte aesSubInv)
  let b1 := (List.range 13).foldl (fun x r =>
    (shiftRows 3 (mixCols [14, 11, 13, 9] (xorBlock x (rk.getD (13 - r) [])))).map (tableByte aesSubInv)) b0
  xorBlock b1 (rk.headD [])

/-- A number as bytes, least significant first. -/
def natBytes (n v : Nat) : List Nat := (List.range n).map fun i => v / 2 ^ (8 * i) % 256
/-- Bytes as a number. -/
def bytesNat (l : List Nat) : Nat := l.foldr (fun b a => b + 256 * a) 0
/-- A tweak times x in the field of XTS. -/
def tweakNext (t : Nat) : Nat := if t < 2 ^ 127 then 2 * t else (2 * t - 2 ^ 128) ^^^ 135

/-- XTS over the blocks of a line, with the block function `f` and the tweak `t`. -/
def xtsBlocks (f : List Nat → List Nat) : Nat → Nat → List Nat → List Nat
  | 0, _, _ => []
  | n + 1, t, l =>
    let tb := natBytes 16 t
    xorBlock (f (xorBlock (l.take 16) tb)) tb ++ xtsBlocks f n (tweakNext t) (l.drop 16)

/-- A line under a key (R361): the first 32 bytes of the key encrypt the data, the last 32 the tweak, which is the physical
address bits [51:6]. -/
def xtsLine (dec : Bool) (key : BitVec 512) (line : Nat) (bs : List Byte) : List Byte :=
  let k1 := roundKeys (natBytes 32 key.toNat)
  let k2 := roundKeys (natBytes 32 (key.toNat / 2 ^ 256))
  let t := bytesNat (aesEnc k2 (natBytes 16 line))
  (xtsBlocks (if dec then aesDec k1 else aesEnc k1) 4 t (bs.map (·.toNat))).map (BitVec.ofNat 8)

/-- The key of an index: the one loaded, or one the manual does not give where none has been (R361). -/
def State.keyOf (s : State) (k : Nat) : BitVec 512 := (getA s.keys k).getD (Config.unloadedKey k)

end Sys2Proof.Machine
end

