-- ==== Sys2Proof/Machine/Floats.lean ====
section
/-! DEFINITION. Number formats, exact values, rounding and sums (08 R130 to R141, R150), and the draw of a stream (16 R308).
A result is kept exact until it is rounded once: a finite magnitude answers, for every power of two, how many whole units of
it lie below the magnitude and whether they make it up exactly. -/
namespace Sys2Proof.Machine

/-- Floating formats (R131). -/
inductive FF | f32 | b16 | e4 | e5 | e2m1 | e3m5
  deriving DecidableEq, Repr

/-- Fraction bits. -/
def FF.mb : FF → Nat | .f32 => 23 | .b16 => 7 | .e4 => 3 | .e5 => 2 | .e2m1 => 1 | .e3m5 => 5
/-- Exponent bits. -/
def FF.eb : FF → Nat | .f32 => 8 | .b16 => 8 | .e4 => 4 | .e5 => 5 | .e2m1 => 2 | .e3m5 => 3
/-- Bias. -/
def FF.bias : FF → Nat | .f32 => 127 | .b16 => 127 | .e4 => 7 | .e5 => 15 | .e2m1 => 1 | .e3m5 => 4
/-- Width in bits. -/
def FF.bits : FF → Nat | .f32 => 32 | .b16 => 16 | .e4 => 8 | .e5 => 8 | .e2m1 => 4 | .e3m5 => 8
/-- The largest finite magnitude as m x 2^e. -/
def FF.top : FF → Nat × Int
  | .f32 => (2 ^ 24 - 1, 104) | .b16 => (2 ^ 8 - 1, 120) | .e4 => (14, 5) | .e5 => (7, 13) | .e2m1 => (3, 1) | .e3m5 => (63, -2)
/-- The NaN the device produces (R132); E2M1 and E3M5 have none and read 0. -/
def FF.nanCode : FF → Nat | .f32 => 0x7FC0_0000 | .b16 => 0x7FC0 | .e4 => 0x7F | .e5 => 0x7E | .e2m1 => 0 | .e3m5 => 0
/-- Whether the format has infinities (R132). -/
def FF.hasInf : FF → Bool | .f32 | .b16 | .e5 => true | _ => false

/-- The value of a code (R131, R132). -/
def FF.value (f : FF) (c : Nat) : FVal :=
  let fr := c % 2 ^ f.mb
  let ex := c / 2 ^ f.mb % 2 ^ f.eb
  let neg := f ≠ .e3m5 && c / 2 ^ (f.bits - 1) % 2 = 1
  if f.hasInf && ex = 2 ^ f.eb - 1 then (if fr = 0 then .inf neg else .nan)
  else if f = .e4 && ex = 15 && fr = 7 then .nan
  else if ex = 0 then .fin neg fr (1 - (f.bias : Int) - f.mb)
  else .fin neg (2 ^ f.mb + fr) ((ex : Int) - f.bias - f.mb)

/-- The value of an E8M0 code other than 255 (R133), as an exponent of two. -/
def e8m0 (c : Nat) : Int := (c : Int) - 127

/-! ## Exact magnitudes -/

/-- A positive real: 2^lg is its leading power of two; `fl k` is how many whole units of 2^k it holds, and whether exactly. -/
structure Mag where
  lg : Int
  fl : Int → Nat × Bool

/-- n x 2^k rounded down to a natural number, for any sign of k, and whether exact. -/
def shiftNat (n : Nat) (k : Int) : Nat × Bool :=
  if 0 ≤ k then (n * 2 ^ k.toNat, true) else (n / 2 ^ (-k).toNat, n % 2 ^ (-k).toNat = 0)

/-- m x 2^e, for m > 0. -/
def Mag.dyadic (m : Nat) (e : Int) : Mag := ⟨Nat.log2 m + e, fun k => shiftNat m (e - k)⟩

/-- (a / b) x 2^e, for a, b > 0. -/
def Mag.quot (a b : Nat) (e : Int) : Mag :=
  let fl : Int → Nat × Bool := fun k => if 0 ≤ e - k then (a * 2 ^ (e - k).toNat / b, a * 2 ^ (e - k).toNat % b = 0)
    else (a / (b * 2 ^ (k - e).toNat), a % (b * 2 ^ (k - e).toNat) = 0)
  let k0 : Int := (Nat.log2 a : Int) - Nat.log2 b + e - 2
  ⟨k0 + Nat.log2 (fl k0).1, fl⟩

/-- Integer square root, bit by bit. -/
def isqrtAux (n : Nat) : Nat → Nat → Nat
  | 0, r => if (r + 1) * (r + 1) ≤ n then r + 1 else r
  | b + 1, r => isqrtAux n b (if (r + 2 ^ (b + 1)) * (r + 2 ^ (b + 1)) ≤ n then r + 2 ^ (b + 1) else r)
/-- The largest r with r^2 ≤ n. -/
def isqrt (n : Nat) : Nat := isqrtAux n (Nat.log2 n / 2) 0

/-- 1 / sqrt(m x 2^e), for m > 0. -/
def Mag.rsqrt (m : Nat) (e : Int) : Mag :=
  let fl : Int → Nat × Bool := fun k =>
    let x := -e - 2 * k
    if x < 0 then (0, false) else
      let q := isqrt (2 ^ x.toNat / m)
      (q, q * q * m = 2 ^ x.toNat)
  let k0 : Int := -(((Nat.log2 m : Int) + e) / 2) - 3
  ⟨k0 + Nat.log2 (fl k0).1, fl⟩

/-- p / (sqrt(a / b) + c x 2^d) as a magnitude, by 256-bit bounds of the root; exact when the root is rational (R296). -/
def Mag.overRoot (p pd a b c : Nat) (d : Int) : Mag :=
  -- p / pd over sqrt(a / b) + c 2^d
  let ra := isqrt (a * b)
  if ra * ra = a * b then
    -- sqrt(a / b) = ra / b
    if 0 ≤ d then Mag.quot (p * b) (pd * (ra + c * b * 2 ^ d.toNat)) 0
    else Mag.quot (p * b * 2 ^ (-d).toNat) (pd * (ra * 2 ^ (-d).toNat + c * b)) 0
  else
    -- root x 2^512 from below
    let r := isqrt (a * 2 ^ 1024 / b)
    let den := r + (shiftNat c (d + 512)).1
    let mq := Mag.quot (p * 2 ^ 512) (pd * den) 0
    ⟨mq.lg, fun k => ((mq.fl k).1, false)⟩

/-- 2^(2^-i) x 2^P from below, by repeated roots of 2. -/
def rootTwo (P : Nat) : Nat → Nat
  | 0 => 2 * 2 ^ P
  | i + 1 => isqrt (rootTwo P i * 2 ^ P)

/-- The product of the roots that the bits of a fraction select: bit i of `f` (of `n` bits, the top one worth 1/2). -/
def expFrac (P f : Nat) : Nat → Nat → Nat → Nat
  | 0, _, acc => acc
  | n + 1, r, acc =>
    let r' := isqrt (r * 2 ^ P)
    expFrac P f n r' (if f / 2 ^ n % 2 = 1 then acc * r' / 2 ^ P else acc)

/-- 2^x for x = (-1)^neg x m x 2^e, m > 0 (R183): exact for an integer x, and otherwise irrational, from its first 320 bits.
An exponent beyond 2,000 in size is cut there, past every format's range. -/
def Mag.exp2 (neg : Bool) (m : Nat) (e : Int) : Mag :=
  let v : Int := (if neg then -1 else 1) * (m : Int)
  if 0 ≤ e then
    let x : Int := if e > 20 then (if neg then -2000 else 2000) else v * 2 ^ e.toNat
    Mag.dyadic 1 (max (-2000) (min 2000 x))
  else
    let n := (-e).toNat
    let x := v / 2 ^ n
    let f := (v % 2 ^ n).toNat
    if f = 0 then Mag.dyadic 1 (max (-2000) (min 2000 x))
    else if x < -2000 then Mag.dyadic 1 (-2000)
    else if x > 2000 then Mag.dyadic 1 2000
    else
      let P := 320
      let a := expFrac P f n (rootTwo P 0) (2 ^ P)
      ⟨x, fun k => ((shiftNat a (x - P - k)).1, false)⟩

/-- An exact result before rounding. -/
inductive XVal
  | nan
  | inf (neg : Bool)
  | zero (neg : Bool)
  | mag (neg : Bool) (m : Mag)

/-- A value as an exact result. -/
def FVal.x : FVal → XVal
  | .nan => .nan
  | .inf n => .inf n
  | .fin n m e => if m = 0 then .zero n else .mag n (Mag.dyadic m e)

/-! ## Rounding -/

/-- Rounds a magnitude to whole units of 2^k (R136, R137): `r` is the low 24 bits of a draw. -/
def Mag.roundAt (x : Mag) (k : Int) (md : RMode) (neg : Bool) (r : Nat) : Nat :=
  let q := x.fl k
  if q.2 then q.1 else
    match md with
    | .rtz => q.1
    | .rdn => if neg then q.1 + 1 else q.1
    | .rup => if neg then q.1 else q.1 + 1
    | .rst => if (x.fl (k - 24)).1 - q.1 * 2 ^ 24 + r ≥ 2 ^ 24 then q.1 + 1 else q.1
    | .rne =>
      let h := x.fl (k - 1)
      if h.1 % 2 = 0 then q.1 else if h.2 then (if q.1 % 2 = 1 then q.1 + 1 else q.1) else q.1 + 1

/-- The unit in the last place of a format for a magnitude. -/
def FF.ulp (f : FF) (lg : Int) : Int := max (lg - f.mb) (1 - (f.bias : Int) - f.mb)

/-- Rounds an exact result to a format with an unbounded exponent range above (R68, R136). -/
def FF.round (f : FF) (md : RMode) (r : Nat) : XVal → FVal
  | .nan => .nan
  | .inf n => .inf n
  | .zero n => .fin n 0 0
  | .mag n m => .fin n (m.roundAt (f.ulp m.lg) md n r) (f.ulp m.lg)

/-- Rounds an exact result to an integer; none for a NaN or an infinity. -/
def XVal.toInt (md : RMode) (r : Nat) : XVal → Option Int
  | .nan => none
  | .inf _ => none
  | .zero _ => some 0
  | .mag n m => let q := m.roundAt 0 md n r; some (if n then -(q : Int) else q)

/-- a x 2^i ≤ b x 2^j. -/
def leDyadic (a : Nat) (i : Int) (b : Nat) (j : Int) : Bool :=
  let k := min i j
  decide (a * 2 ^ (i - k).toNat ≤ b * 2 ^ (j - k).toNat)

/-- Whether a finite value lies beyond the largest finite one of a format (R69). -/
def FF.beyond (f : FF) : FVal → Bool
  | .fin _ m e => !leDyadic m e f.top.1 f.top.2
  | _ => false

/-- The code of a value that lies in the format (R131, R132). -/
def FF.code (f : FF) : FVal → Nat
  | .nan => f.nanCode
  | .inf n => (2 ^ f.eb - 1) * 2 ^ f.mb + (if n then 2 ^ (f.bits - 1) else 0)
  | .fin n m e =>
    let s := if n then 2 ^ (f.bits - 1) else 0
    if m = 0 then s
    else
      let lg : Int := Nat.log2 m + e
      if lg < 1 - (f.bias : Int) then s + (shiftNat m (e - (1 - (f.bias : Int) - f.mb))).1
      else s + (lg + f.bias).toNat * 2 ^ f.mb + ((shiftNat m (e - (lg - f.mb))).1 - 2 ^ f.mb)

/-- The largest finite value of a format with a sign. -/
def FF.topVal (f : FF) (neg : Bool) : FVal := .fin neg f.top.1 f.top.2

/-- The FP32 pattern that TVAL carries for a rounded value (R69, R139). -/
def fp32Pattern (v : FVal) : Nat :=
  match v with
  | .fin n _ _ => if FF.f32.beyond v then FF.f32.code (.inf n) else FF.f32.code v
  | _ => FF.f32.code v

/-! ## Exact operations -/

/-- The sign. -/
def FVal.neg? : FVal → Bool | .nan => false | .inf n => n | .fin n _ _ => n
/-- Negation. -/
def FVal.negate : FVal → FVal | .nan => .nan | .inf n => .inf !n | .fin n m e => .fin (!n) m e
/-- Whether NaN. -/
def FVal.isNan : FVal → Bool | .nan => true | _ => false
/-- Whether infinite. -/
def FVal.isInf : FVal → Bool | .inf _ => true | _ => false
/-- Whether zero. -/
def FVal.isZero : FVal → Bool | .fin _ 0 _ => true | _ => false
/-- Whether finite. -/
def FVal.isFin : FVal → Bool | .fin _ _ _ => true | _ => false

/-- A signed integer times 2^k as a value; zero with the given sign. -/
def FVal.ofInt (z : Bool) (x : Int) (k : Int) : FVal := if x = 0 then .fin z 0 0 else .fin (x < 0) x.natAbs k
/-- A finite value as an integer number of units 2^k, k no greater than its exponent. -/
def FVal.units (k : Int) : FVal → Int
  | .fin n m e => (if n then -1 else 1) * ((m * 2 ^ (e - k).toNat : Nat) : Int)
  | _ => 0
/-- Its exponent. -/
def FVal.exp : FVal → Int | .fin _ _ e => e | _ => 0

/-- The exact product (R138, R139). -/
def FVal.mul (a b : FVal) : FVal :=
  if a.isNan || b.isNan then .nan
  else if a.isInf || b.isInf then (if a.isZero || b.isZero then .nan else .inf (a.neg? != b.neg?))
  else match a, b with
    | .fin n m e, .fin n' m' e' => .fin (n != n') (m * m') (e + e')
    | _, _ => .nan

/-- The exact sum of addends (R138, R139). -/
def FVal.sum (md : RMode) (l : List FVal) : FVal :=
  if l.any FVal.isNan then .nan
  else if l.any FVal.isInf then
    (if l.any (fun v => v.isInf && v.neg?) && l.any (fun v => v.isInf && !v.neg?) then .nan
     else .inf (l.any fun v => v.isInf && v.neg?))
  else
    let k := l.foldl (fun k v => min k v.exp) 0
    let t := l.foldl (fun t v => t + v.units k) (0 : Int)
    let z := !l.isEmpty && (l.all (fun v => v.isZero && v.neg?) || (md = .rdn && !l.all (fun v => v.isZero && !v.neg?)))
    FVal.ofInt z t k

/-- a < b for values that are not NaN; -0 counts as less than +0 (R183). -/
def FVal.lt (a b : FVal) : Bool :=
  match a, b with
  | .inf n, .inf n' => n && !n'
  | .inf n, _ => n
  | _, .inf n' => !n'
  | .fin n m e, .fin n' m' e' =>
    let k := min e e'
    let x := (FVal.fin n m e).units k
    let y := (FVal.fin n' m' e').units k
    if x = 0 ∧ y = 0 then n && !n' else decide (x < y)
  | _, _ => false

/-- A value times 2^k. -/
def FVal.scaleBy (k : Int) : FVal → FVal | .fin n m e => .fin n m (e + k) | v => v

/-- 1 / v as an exact result (R183). -/
def FVal.rcp : FVal → XVal
  | .nan => .nan
  | .inf n => .zero n
  | .fin n m e => if m = 0 then .inf n else .mag n (Mag.quot 1 m (-e))

/-- 1 / sqrt(v) as an exact result (R183). -/
def FVal.rsqrt : FVal → XVal
  | .nan => .nan
  | .inf n => if n then .nan else .zero false
  | .fin n m e => if m = 0 then .inf n else if n then .nan else .mag false (Mag.rsqrt m e)

/-- 2^v as an exact result (R183). -/
def FVal.exp2 : FVal → XVal
  | .nan => .nan
  | .inf n => if n then .zero false else .inf false
  | .fin n m e => if m = 0 then .mag false (Mag.dyadic 1 0) else .mag false (Mag.exp2 n m e)

/-- Truncation towards zero. -/
def FVal.trunc : FVal → Int | .fin n m e => (if n then -1 else 1) * ((shiftNat m e).1 : Int) | _ => 0

/-- a x 2^(b truncated) (R183). -/
def FVal.scale (a b : FVal) : FVal :=
  if a.isNan || b.isNan then .nan
  else match b with
    | .inf false => if a.isZero then .nan else .inf a.neg?
    | .inf true => .fin a.neg? 0 0
    | _ => a.scaleBy (max (-100000) (min 100000 b.trunc))

/-- a / b for finite values as an exact result: quotient signs by R138, a non-zero value over zero infinite (R139). -/
def FVal.div (a b : FVal) : XVal :=
  match a, b with
  | .fin n m e, .fin n' m' e' =>
    if m' = 0 then (if m = 0 then .nan else .inf (n != n'))
    else if m = 0 then .zero (n != n') else .mag (n != n') (Mag.quot m m' (e - e'))
  | .inf n, .fin n' _ _ => .inf (n != n')
  | .fin n _ _, .inf n' => .zero (n != n')
  | _, _ => .nan

/-- An integer as an exact value. -/
def FVal.int (x : Int) : FVal := .ofInt false x 0

/-! ## Random draws -/

/-- Draw j at position p under key K (R308). -/
def drawOf (K p j : Nat) : Nat :=
  let z := (K + (p * 2 ^ 24 + j) * 0x9E37_79B9_7F4A_7C15) % 2 ^ 64
  let z := ((z ^^^ (z / 2 ^ 30)) * 0xBF58_476D_1CE4_E5B9) % 2 ^ 64
  let z := ((z ^^^ (z / 2 ^ 27)) * 0x94D0_49BB_1331_11EB) % 2 ^ 64
  z ^^^ (z / 2 ^ 31)

end Sys2Proof.Machine
end

