-- ==== Sys2Proof/Machine/Flags.lean ====
section
/-! DEFINITION. The flags and event counters that instructions set: CQSTAT and the quantisation events (08 R142 to R145),
the saturation flags of the array's register (10 R201) are beside the array's own operations. -/
namespace Sys2Proof.Machine

/-- What one quantising instruction counts (R142). -/
structure QCount where
  clip : Nat
  flush : Nat
  zr : Nat
  nan : Nat
  smbad : Nat
  deriving DecidableEq, Repr

/-- Nothing counted. -/
def QCount.zero : QCount := ⟨0, 0, 0, 0, 0⟩
/-- Two counts together. -/
def QCount.plus (a b : QCount) : QCount := ⟨a.clip + b.clip, a.flush + b.flush, a.zr + b.zr, a.nan + b.nan, a.smbad + b.smbad⟩

/-- Thresholds of a CQTHRESH value (R143): clip. -/
def threshClip (t : Word64) : Nat := t.toNat % 2 ^ 16
/-- Flush. -/
def threshFlush (t : Word64) : Nat := t.toNat / 2 ^ 16 % 2 ^ 16
/-- Whether QSCALE is enabled. -/
def threshEn (t : Word64) : Bool := t.toNat / 2 ^ 32 % 2 = 1

/-- The sticky flags an instruction's counts set (R144): cl, fl, zr, nan. -/
def QCount.flags (q : QCount) (t : Word64) : Nat :=
  (if q.clip > threshClip t then 1 else 0) + (if q.flush > threshFlush t then 2 else 0) +
  (if q.zr > 0 then 4 else 0) + (if q.nan > 0 then 8 else 0)

/-- Whether the counts exceed a threshold under `qen` (R145). -/
def QCount.trips (q : QCount) (t : Word64) : Bool :=
  threshEn t && (decide (q.clip > threshClip t) || decide (q.flush > threshFlush t))
/-- The TVAL of QSCALE (R145). -/
def QCount.tval (q : QCount) : Word64 := BitVec.ofNat 64 (q.flush % 2 ^ 16 * 2 ^ 16 + q.clip % 2 ^ 16)

/-- Sets flags of CQSTAT (R144). -/
def State.setCq (s : State) (r : CoreRef) (f : Nat) : State :=
  if f = 0 then s else s.setCore r { s.core r with cqstat := (s.core r).cqstat ||| BitVec.ofNat 64 f }

/-- Adds an instruction's counts to the event counters and sets the flags (R142, R144, R145). -/
def State.countQ (s : State) (r : CoreRef) (q : QCount) (t : Word64) : State :=
  (((((s.countN r 0x20 q.clip).countN r 0x21 q.flush).countN r 0x22 q.zr).countN r 0x23 q.nan).countN r 0x24 q.smbad).setCq r (q.flags t)

end Sys2Proof.Machine
end

