-- ==== Sys2Proof/Machine/Operands.lean ====
section
/-! DEFINITION. Operand forms: the issue prologue's checks (05 R96), reading a source exactly (04 R65 to R67, 06 R99, R101),
writing a result once (04 R69, 08 R139), lanes (10 R178, R179), quantised granules (08 R140) and the random stream (16 R308). -/
namespace Sys2Proof.Machine

/-! ## Names -/

/-- Whether a kind is floating. -/
def Kind.isFloat : Kind → Bool | .bf16 | .fp32 | .e4m3 | .e5m2 => true | _ => false
/-- Whether a kind is a granule. -/
def Kind.isGran : Kind → Bool | .g8 | .g4 => true | _ => false
/-- Whether a kind is `uint`, `sint` or `raw`. -/
def Kind.isInt : Kind → Bool | .uint | .sint | .raw => true | _ => false
/-- The format of a floating kind. -/
def Kind.ff : Kind → FF | .bf16 => .b16 | .e4m3 => .e4 | .e5m2 => .e5 | _ => .f32

/-- The entry of a name (R63, R101): every fixed name has width 64; `lit` counts as `sint`, the others as `uint`. -/
def entOf (k : Kernel) : NameRef → NameEnt
  | .cat n => k.cat.getD n.toNat ⟨1, .uint, .wrap, .rne, .none⟩
  | .fixed .lit => ⟨64, .sint, .wrap, .rne, .none⟩
  | .fixed _ => ⟨64, .uint, .wrap, .rne, .none⟩
/-- The same for the current thread. -/
def State.ent (s : State) (n : NameRef) : NameEnt := entOf s.myKernel n

/-- A value of a kind and width from its pattern (R63). -/
def valueOf (e : NameEnt) (p : Nat) : Int := if e.kind = .sint then signedOf e.width p else (p : Int)

/-- A source as read: its entry and its pattern. -/
structure Src where
  ent : NameEnt
  pat : Nat
  deriving DecidableEq, Repr
/-- The exact value an integer instruction reads (R63, R67). -/
def Src.val (x : Src) : Int := valueOf x.ent x.pat
/-- The value a floating instruction reads from a single value: a floating name's own, an integer otherwise. -/
def Src.real (x : Src) : FVal := if x.ent.kind.isFloat then x.ent.kind.ff.value x.pat else .int x.val

/-- A copy of a name of a thread (R63). -/
def Thread.name (x : Thread) (n : Nat) : Pat := x.names.getD n 0
/-- The thread with a copy set. -/
def Thread.setName (x : Thread) (n : Nat) (p : Pat) : Thread := { x with names := x.names.set n p, bad := x.bad.filter (· != n) }

/-! ## The issue prologue -/

/-- The breach of step 6 of R96 by a source field: a number at or above the name count (R66), or `lit` read without a
literal (R65); the TVAL of its ILL. -/
def srcBreach (k : Kernel) (h : Hdr) (i : Instr) : NameRef → Option Word64
  | .cat n => if n.toNat < k.cat.length then none else some (n64 n.toNat)
  | .fixed .lit => if h.form.hasLit then none else some (instrVal i)
  | .fixed _ => none
/-- The breach by a field that is only written, or not read (R66). -/
def dstBreach (k : Kernel) : NameRef → Option Word64
  | .cat n => if n.toNat < k.cat.length then none else some (n64 n.toNat)
  | .fixed _ => none

/-- The first breach of step 6 among the fields: sources in the order of R99, and then destinations (DESIGN CHOICE, log 123). -/
def nameBreach (k : Kernel) (h : Hdr) (i : Instr) (srcs dsts : List NameRef) : Option Word64 :=
  match srcs.findSome? (srcBreach k h i) with
  | some v => some v
  | none => dsts.findSome? (dstBreach k)

/-- The checks at issue: names (step 6 of R96), then what the description itself checks there (kinds by R100, R264, R390 and their like, and
privilege; that they all come here is a DESIGN CHOICE but for R77 and R390, log 124), then the wait field (R86, step 8 of R96). -/
def State.issue (s : State) (i : Instr) (h : Hdr) (srcs dsts : List NameRef) (pre : Option (Cause × Word64)) : M State :=
  match nameBreach s.myKernel h i srcs dsts with
  | some v => trapM s .ill v
  | none =>
    match pre with
    | some (c, v) => trapM s c v
    | none => if s.waitOk h.wait then .ok s else holdM s i 0 none

/-- ILL with the first instruction word unless the condition holds. -/
def illUnless (i : Instr) (c : Bool) : Option (Cause × Word64) := if c then none else some (.ill, instrVal i)

/-- Whether a destination takes a single integer, by R100: `uint`, `sint`, `raw` or a fixed name. -/
def State.intDst (s : State) (d : NameRef) : Bool := (s.ent d).kind.isInt
/-- Whether a destination takes a single value through R69, by R390: not a granule. -/
def State.oneDst (s : State) (d : NameRef) : Bool := !(s.ent d).kind.isGran

/-- Whether a field is a catalogue name. -/
def isCat : NameRef → Bool | .cat _ => true | .fixed _ => false

/-! ## Ports -/

/-- Waits of a meaning that are tried again, by tag: 0 the wait field. -/
abbrev tagPort : Nat := 1
/-- A full outbound queue. -/
abbrev tagOut : Nat := 2
/-- An engine header's reservation. -/
abbrev tagEng : Nat := 3

/-- The port direction of a fixed name. -/
def portDir : NameRef → Option Dir
  | .fixed .portN => some .n | .fixed .portE => some .e | .fixed .portS => some .s | .fixed .portW => some .w | _ => none

/-- The inbound buffer of a port of the current core. -/
def State.inbound (s : State) (d : Dir) : List Word64 := s.myCore.portIn[dirIx d]
/-- The state with that buffer set. -/
def State.setInbound (s : State) (d : Dir) (l : List Word64) : State :=
  s.setMyCore { s.myCore with portIn := s.myCore.portIn.set (dirIx d) l }
/-- The outbound queue: the words that have not left it. -/
def State.outbound (s : State) (d : Dir) : List (Nat × Word64) := s.myCore.portOut[dirIx d].filter (·.1 == 0)
/-- The state with words appended to the outbound queue (R160). -/
def State.pushOut (s : State) (d : Dir) (ws : List Word64) : State :=
  s.setMyCore { s.myCore with portOut := s.myCore.portOut.set (dirIx d) (s.myCore.portOut[dirIx d] ++ ws.map fun w => (0, w)) }

/-- Whether the neighbour tile in a direction belongs to the writer's gang (R65, R221). -/
def State.neighbourIn (s : State) (d : Dir) : Bool :=
  match tileNext s.cur.tile d with
  | some t => s.myTile.gang.isSome && (s.tile t).gang == s.myTile.gang && tileCol t != s.svc
  | none => false

/-- The fields that the instruction of a waiting thread is still to read: a `join` of a group's member reads none (R99, R206). -/
def Thread.toRead (x : Thread) : List NameRef :=
  match x.wait with
  | some w => if w.why.hasRead then [] else match w.instr with
    | .vmovJoin _ _ => if x.vg = .solo then w.instr.sources else []
    | j => j.sources
  | none => []
/-- Whether an older instruction of another thread of the core is to read a port: threads are served in the order of issue (R99). -/
def Core.portAhead (c : Core) (h : Fin 8) (seq : Nat) (n : NameRef) : Bool :=
  (List.finRange 8).any fun k => k != h && (c.threads[k]).toRead.contains n && match (c.threads[k]).wait with
    | some w => decide (w.seq < seq)
    | none => false
/-- The catalogue name `k` of the current thread as its instruction reads it: as it stands, or as it stood when the instruction issued (R78). -/
def State.nameSrc (s0 s : State) (k : BitVec 9) : Src :=
  match s0.me.wait.bind (·.src) with
  | some l => ⟨l.cat.getD k.toNat ⟨1, .uint, .wrap, .rne, .none⟩, (l.names.getD k.toNat 0).toNat⟩
  | none => ⟨s.ent (.cat k), (s.me.name k.toNat).toNat⟩
/-- The word that a waiting instruction has already taken from a port, and the state without it. -/
def State.taken (n : NameRef) (s : State) : Option (Word64 × State) :=
  match s.me.wait with
  | some w => (match w.took with
    | (m, x) :: l => if m = n then some (x, s.setMe { s.me with wait := some { w with took := l } }) else none
    | [] => none)
  | none => none

/-- How many words the current instruction has taken from ports so far; a wait for the next is a wait of its own (R215). -/
def State.wordsTaken (s0 s : State) : Nat := ((List.range 5).map fun p => (s0.myCore.buffer p).length - (s.myCore.buffer p).length).sum
/-- Holds the current thread for a port's word (R216). -/
def portM {α : Type} (s0 : State) (i : Instr) (port : Nat) (s : State) : M α :=
  .error (s0.hold i (.retry tagPort (s0.wordsTaken s)) (some (reasonVal 1 port)))
/-- Reads a source field (R65, R67, R99): a port gives up its oldest word; an empty one, or one that an older instruction is to read, holds the
thread, bounded by TWAITLIM with reason 1 (R216). Stops are built from the state before the instruction, so that ports keep their words. -/
def State.read (s0 : State) (i : Instr) (h : Hdr) (n : NameRef) (s : State) : M (Src × State) :=
  match n with
  | .cat k => .ok (s0.nameSrc s k, s)
  | .fixed .zero => .ok (⟨s.ent n, 0⟩, s)
  | .fixed .tid => .ok (⟨s.ent n, s.tnum s.cur⟩, s)
  | .fixed .lit => .ok (⟨s.ent n, h.lit.toNat⟩, s)
  | .fixed .portEng =>
    match State.taken n s with
    | some (w, s1) => .ok (⟨s.ent n, w.toNat⟩, s1)
    | none =>
      if s.myCore.portAhead s.cur.h s0.mySeq n then portM s0 i 61 s
      else match s.myCore.portEng with
        | w :: ws => .ok (⟨s.ent n, w.toNat⟩, s.setMyCore { s.myCore with portEng := ws })
        | [] => portM s0 i 61 s
  | .fixed .portN => readPort s .n
  | .fixed .portE => readPort s .e
  | .fixed .portS => readPort s .s
  | .fixed .portW => readPort s .w
where
  readPort (s : State) (d : Dir) : M (Src × State) :=
    match State.taken n s with
    | some (w, s1) => .ok (⟨s.ent n, w.toNat⟩, s1)
    | none =>
      if s.myCore.portAhead s.cur.h s0.mySeq n then portM s0 i (dirName d) s
      else match s.inbound d with
        | w :: ws => .ok (⟨s.ent n, w.toNat⟩, s.setInbound d ws)
        | [] => portM s0 i (dirName d) s

/-! ## The engine command buffer (09 R163, R164, 14 R280) -/

/-- Length of a command from its header, in words (R280). -/
def cmdLen (hd : Word64) : Nat :=
  let v := hd.toNat
  let op := fieldOf v 56 8
  let nd := fieldOf v 52 4
  if (op ≠ 1 ∧ op ≠ 2) ∨ nd = 0 ∨ nd > 12 then 1
  else 4 + nd + 2 * fieldOf v 42 1 + (if op = 2 then 1 else 0)
/-- Words of the buffer in use or reserved. -/
def Core.cbufUsed (c : Core) : Nat := (c.cbuf.map (·.need)).sum

/-- The elements a command moves: the product of its counts. -/
def cmdElems (ws : List Word64) : Nat :=
  ((List.range (fieldOf (ws.headD 0).toNat 52 4)).map fun j => fieldOf (ws.getD (4 + j) 0).toNat 44 20).foldl (· * ·) 1
/-- The draws a command reserves when it issues: one per element that it will round under `rst` (R137). -/
def cmdDraws (ws : List Word64) : Nat :=
  let v := (ws.headD 0).toNat
  if fieldOf v 56 8 = 2 ∧ ws.length = cmdLen (ws.headD 0) ∧ fieldOf v 23 3 = 5 then cmdElems ws else 0

/-- The thread's partly written command, if it has one. -/
def Core.partialOf (c : Core) (h : Fin 8) : Option CmdBuf := c.cbuf.find? fun b => b.h == h && decide (b.words.length < b.need)

/-- Takes `n` draws of the current thread's stream (R308); RNG when the index would reach 2^24. -/
def State.draws (s0 : State) (n : Nat) (s : State) : M (List Nat × State) :=
  if n = 0 then .ok ([], s)
  else
    let x := s.me
    let j := x.ridx.toNat
    if j + n ≥ 2 ^ 24 then trapM s0 .rng (reasonVal 1 j)
    else
      let ds := (List.range n).map fun k => drawOf x.rkey.toNat x.rpos.toNat (j + k)
      .ok (ds, s.setMe { x with ridx := BitVec.ofNat 24 (j + n), rlast := n64 (ds.getLastD 0) })

/-- Draws laid out over elements: one for each that is rounded, in order, 0 for the others (R137). -/
def spread : List Bool → List Nat → List Nat
  | [], _ => []
  | false :: l, ds => 0 :: spread l ds
  | true :: l, ds => ds.headD 0 :: spread l ds.tail
/-- The draws of a rounding for elements of which `mask` says which are rounded: one each under `rst`, in order (R137, R308). -/
def State.drawsFor (s0 : State) (md : RMode) (mask : List Bool) (s : State) : M (List Nat × State) :=
  match s0.draws (if md = .rst then (mask.filter id).length else 0) s with
  | .error t => .error t
  | .ok (ds, z) => .ok (spread mask ds, z)

/-- A complete command: it takes its draws, its thresholds and its place behind the commands completed before it, and counts as
submitted (R163, R137, R143, R283). `rest`: the rest of the buffer. -/
def State.submitTo (s0 : State) (rest : List CmdBuf) (b : CmdBuf) (s : State) : M State :=
  let x := s.me
  let b' := { b with thresh := s.myCore.cqthresh, rkey := x.rkey, rpos := x.rpos.toNat, ridx := x.ridx.toNat, id := s.myCore.subs }
  match s0.draws (cmdDraws b.words) s with
  | .error e => .error e
  | .ok (_, s') =>
    let c := s'.myCore
    .ok (s'.setMyCore { c with cbuf := rest ++ [b'], submitted := c.submitted + 1, subs := c.subs + 1 })
/-- The same for a thread's command whose last word has come. -/
def State.submit (s0 : State) (b : CmdBuf) (s : State) : M State :=
  s0.submitTo (s.myCore.cbuf.filter fun y => !(y.h == b.h && decide (y.words.length < y.need))) b s

/-- Appends a word to the core's engine command buffer (R163, R164). -/
def State.writeEng (s0 : State) (i : Instr) (w : Word64) (s : State) : M State :=
  let c := s.myCore
  match c.partialOf s.cur.h with
  | some b =>
    let b' := { b with words := b.words ++ [w], need := if b.words.isEmpty then cmdLen w else b.need }
    if b'.words.length = b'.need then s0.submit b' s
    else .ok (s.setMyCore { c with cbuf := c.cbuf.map fun y => if y == b then b' else y })
  | none =>
    let need := cmdLen w
    if c.cbufUsed + need > 32 || c.waitsAhead s.cur.h s0.mySeq tagEng then .error (s0.hold i (.retry tagEng need) (some (reasonVal 2 61)))
    else
      let b : CmdBuf := ⟨s.cur.h, need, [w], 0, 0, 0, 0, 0⟩
      if need = 1 then s0.submit b s else .ok (s.setMyCore { c with cbuf := c.cbuf ++ [b] })

/-- Sends words to a mesh port (R65): ACCESS beyond the gang, a wait while the outbound queue lacks room. -/
def State.send (s0 : State) (i : Instr) (d : Dir) (ws : List Word64) (tval : Option Word64) (s : State) : M State :=
  if !s.neighbourIn d then trapM s0 .access (n64 (dirName d))
  else if (s.outbound d).length + ws.length > 16 then holdM s0 i tagOut tval
  else .ok (s.pushOut d ws)

/-! ## Writing a single value -/

/-- The bounds of an integer kind's value set at a width (R63). -/
def kindLo (k : Kind) (w : Nat) : Int := if k = .sint then -(2 ^ (w - 1) : Int) else 0
/-- The upper bound. -/
def kindHi (k : Kind) (w : Nat) : Int := if k = .sint then (2 ^ (w - 1) : Int) - 1 else (2 ^ w : Int) - 1
/-- sat(kind, w, x) of R68. -/
def satInt (k : Kind) (w : Nat) (x : Int) : Int := max (kindLo k w) (min (kindHi k w) x)
/-- Whether an integer lies in a value set. -/
def inRange (k : Kind) (w : Nat) (x : Int) : Bool := decide (kindLo k w ≤ x) && decide (x ≤ kindHi k w)
/-- The integer part of R69 on a copy: the value to store, or none where the mode traps. -/
def r69 (k : Kind) (w : Nat) (m : Ovf) (x : Int) : Option Int :=
  if inRange k w x then some x
  else match m with
    | .wrap => some (wrapNat w x)
    | .sat => some (satInt k w x)
    | .trap => none
/-- The low `w` bits of an integer, as a pattern. -/
def patOf (w : Nat) (x : Int) : Pat := BitVec.ofNat 528 (wrapNat w x)

/-- Writes the current thread's copy of a name. -/
def State.putName (s : State) (n : BitVec 9) (p : Pat) : State := s.setMe (s.me.setName n.toNat p)

/-- Writes an exact integer to a destination by R69. A floating destination rounds it (R69's last branch) by `rnd`. -/
def State.writeInt (s0 : State) (i : Instr) (d : NameRef) (x : Int) (s : State) : M State :=
  match d with
  | .fixed .portEng => s0.writeEng i (w64 x) s
  | .fixed .portN => s0.send i .n [w64 x] none s
  | .fixed .portE => s0.send i .e [w64 x] none s
  | .fixed .portS => s0.send i .s [w64 x] none s
  | .fixed .portW => s0.send i .w [w64 x] none s
  | .fixed _ => .ok s
  | .cat n =>
    let e := s.ent d
    match r69 e.kind e.width e.mode x with
    | some v => .ok (s.putName n (patOf e.width v))
    | none => trapM s0 .width (w64 x)

/-- The rounding in force: the instruction's, or the destination's attribute, or `rne` where it names none (R64, R90, R179). -/
def rmodeOf (r : Rnd) (e : NameEnt) : RMode :=
  match r with
  | .rne => .rne | .rtz => .rtz | .rdn => .rdn | .rup => .rup | .rst => .rst
  | .attr => if e.kind.isInt then .rne else e.rnd

/-- What writing an exact result in a format gives (R69, R139): the code, or the TVAL of WIDTH. -/
def fpWrite (f : FF) (m : Ovf) (md : RMode) (r : Nat) (x : XVal) : Nat ⊕ Word64 :=
  let y := f.round md r x
  match y with
  | .nan => .inl f.nanCode
  | .inf n =>
    if f.hasInf then .inl (f.code y)
    else if m = .trap then .inr (n64 (fp32Pattern y)) else .inl (f.code (f.topVal n))
  | .fin n _ _ =>
    if !f.beyond y then .inl (f.code y)
    else if m = .sat then .inl (f.code (f.topVal n)) else .inr (n64 (fp32Pattern y))

/-- Writes an exact floating result to a destination by R69: a port sends an FP32 pattern, an integer name is not a
destination of a single floating value here; `rst` takes one draw. `tv`: the TVAL of a WIDTH trap, by the one that R69 gives. -/
def State.writeRealTv (s0 : State) (i : Instr) (d : NameRef) (rnd : Rnd) (x : XVal) (tv : Word64 → Word64) (s : State) : M State :=
  let e := s.ent d
  match d with
  | .fixed f =>
    let md := rmodeOf rnd e
    match f with
    | .zero | .tid | .lit => .ok s
    | _ =>
      match s0.draws (if md = .rst then 1 else 0) s with
      | .error t => .error t
      | .ok (ds, s1) =>
        let y := FF.f32.round md (ds.headD 0 % 2 ^ 24) x
        s0.writeInt i d (fp32Pattern y) s1
  | .cat n =>
    let md := rmodeOf rnd e
    match s0.draws (if md = .rst then 1 else 0) s with
    | .error t => .error t
    | .ok (ds, s1) =>
      match fpWrite e.kind.ff e.mode md (ds.headD 0 % 2 ^ 24) x with
      | .inl c => .ok (s1.putName n (BitVec.ofNat 528 c))
      | .inr v => trapM s0 .width (tv v)
/-- The same with the TVAL of R69. -/
def State.writeReal (s0 : State) (i : Instr) (d : NameRef) (rnd : Rnd) (x : XVal) (s : State) : M State := s0.writeRealTv i d rnd x id s

/-- Writes a single integer result where the destination may be a floating name: rounded by the instruction's rounding, else by the name's
attribute (R69). -/
def State.writeRnd (s0 : State) (i : Instr) (d : NameRef) (rnd : Rnd) (x : Int) (s : State) : M State :=
  if (s.ent d).kind.isFloat then s0.writeReal i d rnd (FVal.int x).x s else s0.writeInt i d x s
/-- The same for an instruction without a rounding of its own. -/
def State.writeOne (s0 : State) (i : Instr) (d : NameRef) (x : Int) (s : State) : M State := s0.writeRnd i d .attr x s
/-- The same where a WIDTH trap keeps the integer itself in TVAL (R277). -/
def State.writeKeep (s0 : State) (i : Instr) (d : NameRef) (x : Int) (s : State) : M State :=
  if (s.ent d).kind.isFloat then s0.writeRealTv i d .attr (FVal.int x).x (fun _ => w64 x) s else s0.writeInt i d x s

/-! ## Lanes (10 R178 to R180) -/

/-- The format of a floating lane. -/
def laneFF : LaneF → FF | .f32 => .f32 | .b16 => .b16 | .e4 => .e4 | .e5 => .e5
/-- Bits of a lane width. -/
def laneBits : LaneW → Nat | .l8 => 8 | .l16 => 16 | .l32 => 32 | .l64 => 64

/-- Lanes of an integer-like name at a width (R178). -/
def laneCount (e : NameEnt) (lam : Nat) : Nat := min (e.width / lam) (512 / lam)
/-- Lane `i` of a pattern at a width. -/
def laneAt (p lam i : Nat) : Nat := p / 2 ^ (lam * i) % 2 ^ lam
/-- The integer lanes of a source (R178). -/
def Src.lanes (x : Src) (lam : Nat) : List Int :=
  (List.range (laneCount x.ent lam)).map fun i =>
    if x.ent.kind = .sint then signedOf lam (laneAt x.pat lam i) else (laneAt x.pat lam i : Int)

/-- The element format of a `g8` granule as a value (R134): floating, or an integer. -/
def elemVal (el : Elem) (c : Nat) : FVal :=
  match el with
  | .e4m3 => FF.e4.value c
  | .e5m2 => FF.e5.value c
  | .int8 => .int (signedOf 8 c)
  | _ => .int c
/-- The values of a `g8` granule (R134). -/
def g8Vals (el : Elem) (p : Nat) : List FVal :=
  let X := p / 2 ^ 256 % 256
  (List.range 32).map fun i => if X = 255 then .nan else (elemVal el (p / 2 ^ (8 * i) % 256)).scaleBy (e8m0 X)
/-- The value of a `g4` element (R135): e x b x B. -/
def g4Val (e b : Nat) (B : FVal) : FVal :=
  match B with
  | .fin _ m _ =>
    let ev := FF.e2m1.value e
    let bv := FF.e3m5.value b
    if m = 0 || bv.isZero then .fin ev.neg? 0 0 else (ev.mul bv).mul B
  | _ => .nan
/-- The values of a `g4` granule (R135). -/
def g4Vals (B : FVal) (p : Nat) : List FVal :=
  (List.range 64).map fun i =>
    let j := i / 8
    g4Val (p / 2 ^ (40 * j + 4 * (i % 8)) % 16) (p / 2 ^ (40 * j + 32) % 256) B

/-- Floating lanes of a source (R178). -/
def Src.flanes (x : Src) (f : FF) : List FVal :=
  match x.ent.kind with
  | .g8 => g8Vals x.ent.elem x.pat
  | .g4 => g4Vals (.fin false 1 0) x.pat
  | .uint | .sint | .raw => (List.range (laneCount x.ent f.bits)).map fun i => f.value (laneAt x.pat f.bits i)
  | k => [k.ff.value x.pat]

/-- The floating lane count of an operand (R178). -/
def flaneCount (e : NameEnt) (f : FF) : Nat :=
  match e.kind with
  | .g8 => 32 | .g4 => 64
  | .uint | .sint | .raw => laneCount e f.bits
  | _ => 1
/-- The integer lane count; 0 for kinds that integer lanes refuse. -/
def ilaneCount (e : NameEnt) (lam : Nat) : Nat := if e.kind.isInt then laneCount e lam else 0

/-- Whether a source's lane count serves a destination of `L` lanes (R179). -/
def lanesFit (n L : Nat) : Bool := L != 0 && (n == L || n == 1)
/-- The lane at position `i` of a source with as many lanes as needed, or one. -/
def pick {α : Type} (z : α) (l : List α) (i : Nat) : α := if l.length = 1 then l.headD z else l.getD i z

/-- Assembles lane codes into a pattern. -/
def packLanes (lam : Nat) (cs : List Nat) : Nat := cs.foldr (fun c acc => c % 2 ^ lam + 2 ^ lam * acc) 0

/-- A pattern to a destination without mode: a name takes it, a port sends its low word, other fixed names discard it. -/
def State.putPat (s0 : State) (i : Instr) (d : NameRef) (p : Nat) (s : State) : M State :=
  match d with
  | .cat n => .ok (s.putName n (BitVec.ofNat 528 (p % 2 ^ (s.ent d).width)))
  | _ => s0.writeInt i d p s

/-- The first lane that would trap, with its TVAL: i x 2^56 + wrap(56, x_i) (R179). -/
def laneTrap : Nat → List (Option Int) → List Int → Option Word64
  | _, [], _ => none
  | i, none :: _, xs => some (reasonVal i (xs.headD 0))
  | i, some _ :: l, xs => laneTrap (i + 1) l xs.tail

/-- Writes exact integer lanes (R179): each through R69 at the lane width with d's kind and mode. -/
def State.writeLanes (s0 : State) (i : Instr) (d : NameRef) (lam : Nat) (xs : List Int) (s : State) : M State :=
  let e := s.ent d
  let rs := xs.map (r69 e.kind lam e.mode)
  match d with
  | .fixed .zero | .fixed .tid | .fixed .lit => .ok s
  | _ =>
    match laneTrap 0 rs xs with
    | some v => trapM s0 .width v
    | none => s0.putPat i d (packLanes lam (rs.map fun r => wrapNat lam (r.getD 0))) s

/-! ## Quantised granules (08 R140) -/

/-- A magnitude times 2^k. -/
def Mag.scaleBy (m : Mag) (k : Int) : Mag := ⟨m.lg + k, fun j => m.fl (j - k)⟩
/-- A magnitude over n x 2^k, n > 0. -/
def Mag.over (x : Mag) (n : Nat) (k : Int) : Mag :=
  let fl : Int → Nat × Bool := fun j => let q := x.fl (j + k); (q.1 / n, q.2 && decide (q.1 % n = 0))
  let k0 := x.lg - k - Nat.log2 n - 2
  ⟨k0 + Nat.log2 (fl k0).1, fl⟩
/-- Whether a magnitude is at most m x 2^e. -/
def Mag.le (x : Mag) (m : Nat) (e : Int) : Bool := let q := x.fl e; decide (q.1 < m) || (q.1 == m && q.2)

/-- NaN, infinite, zero. -/
def XVal.isNan : XVal → Bool | .nan => true | _ => false
/-- Sign. -/
def XVal.neg? : XVal → Bool | .nan => false | .inf n => n | .zero n => n | .mag n _ => n
/-- The leading power of two of a non-zero finite value. -/
def XVal.lg? : XVal → Option Int | .mag _ m => some m.lg | _ => none
/-- The largest of the leading powers. -/
def maxLg (l : List XVal) : Option Int := l.foldl (fun a v => match a, v.lg? with
  | none, b => b | some a, none => some a | some a, some b => some (max a b)) none

/-- emax of R140. -/
def elemEmax : Elem → Int | .e4m3 => 8 | .e5m2 => 15 | .int8 => 6 | _ => 7

/-- An element quantised by R140: its code, and whether it clips or flushes; one that would do both, a negative value under UINT8 that rounds to
zero, clips alone (log 112). `q` is v over the scale. -/
def quantElem (el : Elem) (md : RMode) (r : Nat) (v q : XVal) : Nat × Bool × Bool :=
  match el with
  | .e4m3 => qf .e4
  | .e5m2 => qf .e5
  | .int8 => qi (-128) 127
  | _ => if (match v with | .mag true _ => true | .inf true => true | _ => false) then (0, true, false) else qi 0 255
where
  qf (f : FF) : Nat × Bool × Bool :=
    match v with
    | .inf n => (f.code (f.topVal n), true, false)
    | .mag n _ =>
      let y := f.round md r q
      if f.beyond y then (f.code (f.topVal n), true, false)
      else (f.code y, false, y.isZero)
    | .zero n => (f.code (.fin n 0 0), false, false)
    | .nan => (f.nanCode, false, false)
  qi (lo hi : Int) : Nat × Bool × Bool :=
    match v with
    | .inf n => (wrapNat 8 (if n then lo else hi), true, false)
    | .mag _ _ =>
      let y := (q.toInt md r).getD 0
      if y < lo then (wrapNat 8 lo, true, false) else if y > hi then (wrapNat 8 hi, true, false)
      else (wrapNat 8 y, false, decide (y = 0))
    | _ => (0, false, false)

/-- A value over 2^k. -/
def XVal.overPow (k : Int) : XVal → XVal | .mag n m => .mag n (m.scaleBy (-k)) | v => v

/-- Counts of clips and flushes of quantised elements. -/
def countElems (l : List (Nat × Bool × Bool)) : QCount :=
  { QCount.zero with clip := (l.filter (·.2.1)).length, flush := (l.filter (·.2.2)).length }

/-- Which elements of a `g8` granule are rounded (R137, R140): all, or none of a NaN granule. -/
def maskG8 (sup : Option Nat) (vs : List XVal) : List Bool := vs.map fun _ => !(vs.any XVal.isNan || sup == some 255)
/-- Block quantisation into a `g8` granule (R140): the pattern and what it counts. `sup`: a supplied scale. -/
def quantG8 (el : Elem) (md : RMode) (rs : List Nat) (sup : Option Nat) (vs : List XVal) : Nat × QCount :=
  if vs.any XVal.isNan then (2 ^ 256 * 255, { QCount.zero with nan := 1 })
  else if sup = some 255 then (2 ^ 256 * 255, { QCount.zero with nan := 1 })
  else
    let top := maxLg vs
    let X : Nat := match sup, top with
      | some x, _ => x
      | none, none => 127
      | none, some lg => (max 0 (min 254 (lg - elemEmax el + 127))).toNat
    let es := (List.range vs.length).map fun i =>
      let v := vs.getD i .nan
      quantElem el md (rs.getD i 0 % 2 ^ 24) v (v.overPow (e8m0 X))
    (packLanes 8 (es.map (·.1)) + 2 ^ 256 * X, { countElems es with zr := if top.isNone then 1 else 0 })

/-- The least E3M5 code whose value times 6 |B| is not below a magnitude; 255 when there is none (R140). -/
def e3m5Above (x : Mag) (bm : Nat) (be : Int) : Nat :=
  ((List.range 256).find? fun c => match FF.e3m5.value c with
    | .fin _ m e => x.le (6 * m * bm) (e + be)
    | _ => false).getD 255

/-- The scale code of a block that holds no NaN, under a finite band scale bm x 2^be other than zero: the supplied one, else the derived one (R140). -/
def blockCode (bm : Nat) (be : Int) (sup : Option Nat) (vs : List XVal) : Nat :=
  match sup with
  | some c => c
  | none => if (maxLg vs).isNone then 0 else (vs.map fun v => match v with | .mag _ m => e3m5Above m bm be | _ => 0).foldl max 0
/-- Which elements of a block are rounded: all, or none where the band scale, a NaN or a zero scale code decides them (R137, R140). -/
def maskBlock (B : FVal) (sup : Option Nat) (vs : List XVal) : List Bool :=
  let r := match B with
    | .fin _ bm be => bm != 0 && !vs.any XVal.isNan && !(FF.e3m5.value (blockCode bm be sup vs)).isZero
    | _ => false
  vs.map fun _ => r
/-- One block of a `g4` granule (R140): its 40 bits and what it counts. -/
def quantBlock (md : RMode) (rs : List Nat) (B : FVal) (sup : Option Nat) (vs : List XVal) : Nat × QCount :=
  match B with
  | .fin bn bm be =>
    if bm = 0 then (2 ^ 32 * sup.getD 0, { QCount.zero with zr := 1 })
    else if vs.any XVal.isNan then (0, { QCount.zero with nan := 1 })
    else
      let zero := (maxLg vs).isNone
      let b : Nat := blockCode bm be sup vs
      let zr := if zero then 1 else 0
      match FF.e3m5.value b with
      | .fin _ m e =>
        if m = 0 then
          let es := vs.map fun v => match v with
            | .mag n _ => ((FF.e2m1.code (.fin n 0 0)), false, true)
            | .inf n => (FF.e2m1.code (.fin n 0 0), true, false)
            | v => (FF.e2m1.code (.fin v.neg? 0 0), false, false)
          (packLanes 4 (es.map (·.1)), { countElems es with zr := zr })
        else
          let es := (List.range vs.length).map fun i =>
            match vs.getD i .nan with
            | .inf n => (FF.e2m1.code (FF.e2m1.topVal n), true, false)
            | .mag n x =>
              let y := FF.e2m1.round md (rs.getD i 0 % 2 ^ 24) (.mag (n != bn) (x.over (m * bm) (e + be)))
              if FF.e2m1.beyond y then (FF.e2m1.code (FF.e2m1.topVal n), true, false)
              else (FF.e2m1.code y, false, y.isZero)
            | v => (FF.e2m1.code (.fin (v.neg? != bn) 0 0), false, false)
          (packLanes 4 (es.map (·.1)) + 2 ^ 32 * b, { countElems es with zr := zr })
      | _ => (0, QCount.zero)
  | _ => (2 ^ 32 * sup.getD 0, { QCount.zero with nan := 1 })

/-- A `g4` granule of 64 values (R140); supplied block scales packed from block 0 upwards. -/
def quantG4 (md : RMode) (rs : List Nat) (B : FVal) (sup : Option Nat) (vs : List XVal) : Nat × QCount :=
  (List.range 8).foldr (fun j acc =>
    let r := quantBlock md (rs.drop (8 * j)) B (sup.map fun x => x / 2 ^ (8 * j) % 256) ((vs.drop (8 * j)).take 8)
    (r.1 + 2 ^ 40 * acc.1, r.2.plus acc.2)) (0, QCount.zero)

/-- Which elements of a `g4` granule are rounded. -/
def maskG4 (B : FVal) (sup : Option Nat) (vs : List XVal) : List Bool :=
  (List.range 8).flatMap fun j => maskBlock B (sup.map fun x => x / 2 ^ (8 * j) % 256) ((vs.drop (8 * j)).take 8)
/-- Which elements of a granule name are rounded. -/
def maskGran (e : NameEnt) (B : FVal) (sup : Option Nat) (vs : List XVal) : List Bool := if e.kind = .g8 then maskG8 sup vs else maskG4 B sup vs
/-- A granule name's pattern from its exact elements with a derived or supplied scale (R140). -/
def quantGran (e : NameEnt) (md : RMode) (rs : List Nat) (B : FVal) (sup : Option Nat) (vs : List XVal) : Nat × QCount :=
  if e.kind = .g8 then quantG8 e.elem md rs sup vs else quantG4 md rs B sup vs

/-- Counts, flags and the QSCALE test of a quantising instruction (R145): the trap keeps the counters' and flags' updates.
The threshold is the one of the cycle in which the instruction executes, after its waits (R143; DESIGN CHOICE, log 132). -/
def State.quantDone (s0 : State) (q : QCount) (s : State) : M State :=
  let t := s0.myCore.cqthresh
  if q.trips t then trapM (s0.countQ s0.cur.coreRef q t) .qscale q.tval else .ok (s.countQ s.cur.coreRef q t)

/-- The first floating lane that would trap, with its TVAL (R179). -/
def flaneTrap : Nat → List (Nat ⊕ Word64) → Option Word64
  | _, [] => none
  | i, .inr v :: _ => some (BitVec.ofNat 64 (i * 2 ^ 56) + v)
  | i, .inl _ :: l => flaneTrap (i + 1) l

/-- Whose floating lanes are written: those of `vecf`, each of which draws once under `rst` (R183); those of a plain conversion, which counts no
clip, flush or zero range and is not subject to QSCALE (R190); any other's. -/
inductive LaneRule | each | plain | usual
  deriving DecidableEq, Repr
/-- Which lanes take a draw under `rst` (R137, R183). -/
def LaneRule.mask (l : LaneRule) (e : NameEnt) (xs : List XVal) : List Bool :=
  if e.kind.isGran = true ∧ l ≠ .each then maskGran e (.fin false 1 0) none xs else xs.map fun _ => true
/-- What the quantisation of a granule counts: of a plain conversion its NaN granules alone (R142, R190, log 125). -/
def LaneRule.counts (l : LaneRule) (q : QCount) : QCount := if l = .plain then { QCount.zero with nan := q.nan } else q
/-- Whether a destination discards what is written to it (R65). -/
def discards : NameRef → Bool
  | .fixed .zero => true
  | .fixed .tid => true
  | .fixed .lit => true
  | _ => false
/-- Writes exact floating lanes (R179). -/
def State.writeFlanes (s0 : State) (i : Instr) (d : NameRef) (f : FF) (rnd : Rnd) (l : LaneRule) (xs : List XVal) (s : State) : M State :=
  let e := s.ent d
  let md := rmodeOf rnd e
  if discards d then .ok s
  else
    match s0.drawsFor md (l.mask e xs) s with
    | .error t => .error t
    | .ok (ds, s1) =>
      if e.kind.isGran then
        let r := quantGran e md ds (.fin false 1 0) none xs
        match s0.putPat i d r.1 s1 with
        | .error t => .error t
        | .ok s2 => s0.quantDone (l.counts r.2) s2
      else
        let g := if e.kind.isFloat then e.kind.ff else f
        let m : Ovf := if e.kind.isInt && e.mode == .wrap then .sat else e.mode
        let rs := (List.range xs.length).map fun j => fpWrite g m md (ds.getD j 0 % 2 ^ 24) (xs.getD j .nan)
        match flaneTrap 0 rs with
        | some v => trapM s0 .width v
        | none => s0.putPat i d (packLanes g.bits (rs.map fun r => match r with | .inl c => c | .inr _ => 0)) s1

end Sys2Proof.Machine
end

