-- ==== Sys2Proof/Machine/Scalar.lean ====
section
/-! DEFINITION. The scalar majors `alu`, `alui`, `shf`, `mul`, `div` and `cmp` (06 R99 to R111). Each computes exactly and writes
once through R69. -/
namespace Sys2Proof.Machine

/-! ## Shapes -/

/-- Two sources and a destination of an integer kind (R99, R100), written by R69, complete within eight cycles. -/
def alu2 (s : State) (i : Instr) (h : Hdr) (d a b : NameRef) (f : Src → Src → Int) : M State := do
  let s1 ← s.issue i h [a, b] [d] (illUnless i (s.intDst d))
  let (x, s2) ← s.read i h a s1
  let (y, s3) ← s.read i h b s2
  let s4 ← s.writeInt i d (f x y) s3
  pure (s4.done h)

/-- One source. -/
def alu1 (s : State) (i : Instr) (h : Hdr) (d a : NameRef) (f : Src → Int) : M State := do
  let s1 ← s.issue i h [a] [d] (illUnless i (s.intDst d))
  let (x, s2) ← s.read i h a s1
  let s3 ← s.writeInt i d (f x) s2
  pure (s3.done h)

/-- A bitwise function on unbounded two's complement (R105): every operand fits 600 bits. -/
def bitwise (f : BitVec 600 → BitVec 600 → BitVec 600) (a b : Int) : Int := (f (BitVec.ofInt 600 a) (BitVec.ofInt 600 b)).toInt
/-- A and B. -/
def intAnd (a b : Int) : Int := bitwise (· &&& ·) a b
/-- A or B. -/
def intOr (a b : Int) : Int := bitwise (· ||| ·) a b
/-- A xor B. -/
def intXor (a b : Int) : Int := bitwise (· ^^^ ·) a b
/-- A and not B. -/
def intAndn (a b : Int) : Int := bitwise (fun x y => x &&& ~~~y) a b

/-- Ones in the low `w` bits (R105). -/
def popc (w p : Nat) : Nat := ((List.range w).filter fun j => p.testBit j).length
/-- Zero bits above the highest one; w for a zero pattern. -/
def clz (w p : Nat) : Nat := if p = 0 then w else w - 1 - Nat.log2 p
/-- Zero bits below the lowest one; w for a zero pattern. -/
def ctz (w p : Nat) : Nat := ((List.range w).find? fun j => p.testBit j).getD w

/-- A rotation left within `w` bits (R107). -/
def rotl (w p n : Nat) : Nat := if w = 0 then 0 else
  let n := n % w
  (p * 2 ^ n) % 2 ^ w + p / 2 ^ (w - n)
/-- A rotation right. -/
def rotr (w p n : Nat) : Nat := if w = 0 then 0 else rotl w p (w - n % w)

/-! ## alu (R105) -/

/-- `alu.add` (R105). -/
def execAluAdd (h : Hdr) (d a b : NameRef) (s : State) : Host.Outcome State Fault Refusal :=
  finish (alu2 s (.aluAdd h d a b) h d a b fun x y => x.val + y.val)
/-- `alu.sub` (R105). -/
def execAluSub (h : Hdr) (d a b : NameRef) (s : State) : Host.Outcome State Fault Refusal :=
  finish (alu2 s (.aluSub h d a b) h d a b fun x y => x.val - y.val)
/-- `alu.and` (R105). -/
def execAluAnd (h : Hdr) (d a b : NameRef) (s : State) : Host.Outcome State Fault Refusal :=
  finish (alu2 s (.aluAnd h d a b) h d a b fun x y => intAnd x.val y.val)
/-- `alu.or` (R105). -/
def execAluOr (h : Hdr) (d a b : NameRef) (s : State) : Host.Outcome State Fault Refusal :=
  finish (alu2 s (.aluOr h d a b) h d a b fun x y => intOr x.val y.val)
/-- `alu.xor` (R105). -/
def execAluXor (h : Hdr) (d a b : NameRef) (s : State) : Host.Outcome State Fault Refusal :=
  finish (alu2 s (.aluXor h d a b) h d a b fun x y => intXor x.val y.val)
/-- `alu.andn` (R105). -/
def execAluAndn (h : Hdr) (d a b : NameRef) (s : State) : Host.Outcome State Fault Refusal :=
  finish (alu2 s (.aluAndn h d a b) h d a b fun x y => intAndn x.val y.val)
/-- `alu.min` (R105). -/
def execAluMin (h : Hdr) (d a b : NameRef) (s : State) : Host.Outcome State Fault Refusal :=
  finish (alu2 s (.aluMin h d a b) h d a b fun x y => min x.val y.val)
/-- `alu.max` (R105). -/
def execAluMax (h : Hdr) (d a b : NameRef) (s : State) : Host.Outcome State Fault Refusal :=
  finish (alu2 s (.aluMax h d a b) h d a b fun x y => max x.val y.val)

/-- Whether `alu.mov` copies the pattern (R100): destination and source of the same kind and current width. -/
def State.samePat (s : State) (d a : NameRef) : Bool := (s.ent d).kind == (s.ent a).kind && (s.ent d).width == (s.ent a).width
/-- `alu.mov`: A written by R69, or into a destination that R100 would refuse, the pattern of a name of the same kind and
width. -/
def movM (s : State) (i : Instr) (h : Hdr) (d a : NameRef) : M State := do
  let s1 ← s.issue i h [a] [d] (illUnless i (s.intDst d || s.samePat d a))
  let (x, s2) ← s.read i h a s1
  let s3 ← if s.intDst d then s.writeInt i d x.val s2 else s.putPat i d x.pat s2
  pure (s3.done h)
/-- `alu.mov` (R100, R105). -/
def execAluMov (h : Hdr) (d a : NameRef) (s : State) : Host.Outcome State Fault Refusal := finish (movM s (.aluMov h d a) h d a)
/-- `alu.neg` (R105). -/
def execAluNeg (h : Hdr) (d a : NameRef) (s : State) : Host.Outcome State Fault Refusal :=
  finish (alu1 s (.aluNeg h d a) h d a fun x => -x.val)
/-- `alu.abs` (R105). -/
def execAluAbs (h : Hdr) (d a : NameRef) (s : State) : Host.Outcome State Fault Refusal :=
  finish (alu1 s (.aluAbs h d a) h d a fun x => (x.val.natAbs : Int))
/-- `alu.popc` (R105). -/
def execAluPopc (h : Hdr) (d a : NameRef) (s : State) : Host.Outcome State Fault Refusal :=
  finish (alu1 s (.aluPopc h d a) h d a fun x => (popc x.ent.width x.pat : Int))
/-- `alu.clz` (R105). -/
def execAluClz (h : Hdr) (d a : NameRef) (s : State) : Host.Outcome State Fault Refusal :=
  finish (alu1 s (.aluClz h d a) h d a fun x => (clz x.ent.width x.pat : Int))
/-- `alu.ctz` (R105). -/
def execAluCtz (h : Hdr) (d a : NameRef) (s : State) : Host.Outcome State Fault Refusal :=
  finish (alu1 s (.aluCtz h d a) h d a fun x => (ctz x.ent.width x.pat : Int))

/-! ## alui (R106) -/

/-- `alui.add` (R106). -/
def execAluiAdd (h : Hdr) (d a : NameRef) (imm : BitVec 32) (s : State) : Host.Outcome State Fault Refusal :=
  finish (alu1 s (.aluiAdd h d a imm) h d a fun x => x.val + imm.toInt)
/-- `alui.sub` (R106). -/
def execAluiSub (h : Hdr) (d a : NameRef) (imm : BitVec 32) (s : State) : Host.Outcome State Fault Refusal :=
  finish (alu1 s (.aluiSub h d a imm) h d a fun x => x.val - imm.toInt)
/-- `alui.and` (R106). -/
def execAluiAnd (h : Hdr) (d a : NameRef) (imm : BitVec 32) (s : State) : Host.Outcome State Fault Refusal :=
  finish (alu1 s (.aluiAnd h d a imm) h d a fun x => intAnd x.val imm.toInt)
/-- `alui.or` (R106). -/
def execAluiOr (h : Hdr) (d a : NameRef) (imm : BitVec 32) (s : State) : Host.Outcome State Fault Refusal :=
  finish (alu1 s (.aluiOr h d a imm) h d a fun x => intOr x.val imm.toInt)
/-- `alui.xor` (R106). -/
def execAluiXor (h : Hdr) (d a : NameRef) (imm : BitVec 32) (s : State) : Host.Outcome State Fault Refusal :=
  finish (alu1 s (.aluiXor h d a imm) h d a fun x => intXor x.val imm.toInt)
/-- `alui.min` (R106). -/
def execAluiMin (h : Hdr) (d a : NameRef) (imm : BitVec 32) (s : State) : Host.Outcome State Fault Refusal :=
  finish (alu1 s (.aluiMin h d a imm) h d a fun x => min x.val imm.toInt)
/-- `alui.max` (R106). -/
def execAluiMax (h : Hdr) (d a : NameRef) (imm : BitVec 32) (s : State) : Host.Outcome State Fault Refusal :=
  finish (alu1 s (.aluiMax h d a imm) h d a fun x => max x.val imm.toInt)
/-- The course of `alui.set`: no source. -/
def setM (s : State) (i : Instr) (h : Hdr) (d : NameRef) (x : Int) : M State := do
  let s1 ← s.issue i h [] [d] (illUnless i (s.intDst d))
  let s2 ← s.writeInt i d x s1
  pure (s2.done h)
/-- `alui.set` (R106). -/
def execAluiSet (h : Hdr) (d : NameRef) (imm : BitVec 32) (s : State) : Host.Outcome State Fault Refusal :=
  finish (setM s (.aluiSet h d imm) h d imm.toInt)

/-! ## shf (R107, R108) -/

/-- The count of an N3 shift: wrap(10, value(b)) (R107). -/
def shiftCount (y : Src) : Nat := wrapNat 10 y.val
/-- A rotation read as kind(a) (R107). -/
def rotVal (f : Nat → Nat → Nat → Nat) (x : Src) (n : Nat) : Int := valueOf x.ent (f x.ent.width x.pat n)

/-- `shf.shl` (R107). -/
def execShfShl (h : Hdr) (d a b : NameRef) (s : State) : Host.Outcome State Fault Refusal :=
  finish (alu2 s (.shfShl h d a b) h d a b fun x y => x.val * 2 ^ shiftCount y)
/-- `shf.shr` (R107). -/
def execShfShr (h : Hdr) (d a b : NameRef) (s : State) : Host.Outcome State Fault Refusal :=
  finish (alu2 s (.shfShr h d a b) h d a b fun x y => x.val / 2 ^ shiftCount y)
/-- `shf.rol` (R107). -/
def execShfRol (h : Hdr) (d a b : NameRef) (s : State) : Host.Outcome State Fault Refusal :=
  finish (alu2 s (.shfRol h d a b) h d a b fun x y => rotVal rotl x (shiftCount y))
/-- `shf.ror` (R107). -/
def execShfRor (h : Hdr) (d a b : NameRef) (s : State) : Host.Outcome State Fault Refusal :=
  finish (alu2 s (.shfRor h d a b) h d a b fun x y => rotVal rotr x (shiftCount y))

/-- An immediate shift (R107): a count outside 0 to 1,023 raises ILL. -/
def shiftI (s : State) (i : Instr) (h : Hdr) (d a : NameRef) (imm : BitVec 32) (f : Src → Nat → Int) : M State := do
  let s1 ← s.issue i h [a] [d] (illUnless i (s.intDst d && decide (0 ≤ imm.toInt) && decide (imm.toInt ≤ 1023)))
  let (x, s2) ← s.read i h a s1
  let s3 ← s.writeInt i d (f x imm.toNat) s2
  pure (s3.done h)
/-- `shf.shli` (R107). -/
def execShfShli (h : Hdr) (d a : NameRef) (imm : BitVec 32) (s : State) : Host.Outcome State Fault Refusal :=
  finish (shiftI s (.shfShli h d a imm) h d a imm fun x n => x.val * 2 ^ n)
/-- `shf.shri` (R107). -/
def execShfShri (h : Hdr) (d a : NameRef) (imm : BitVec 32) (s : State) : Host.Outcome State Fault Refusal :=
  finish (shiftI s (.shfShri h d a imm) h d a imm fun x n => x.val / 2 ^ n)
/-- `shf.roli` (R107). -/
def execShfRoli (h : Hdr) (d a : NameRef) (imm : BitVec 32) (s : State) : Host.Outcome State Fault Refusal :=
  finish (shiftI s (.shfRoli h d a imm) h d a imm fun x n => rotVal rotl x n)
/-- `shf.rori` (R107). -/
def execShfRori (h : Hdr) (d a : NameRef) (imm : BitVec 32) (s : State) : Host.Outcome State Fault Refusal :=
  finish (shiftI s (.shfRori h d a imm) h d a imm fun x n => rotVal rotr x n)

/-- The field of an unbounded two's-complement integer (R108). -/
def extField (x : Int) (pos len : Nat) (sx : Bool) : Int :=
  let f := x / 2 ^ pos % 2 ^ len
  if sx && decide (f ≥ 2 ^ (len - 1)) then f - 2 ^ len else f
/-- `shf.ext` (R108). -/
def execShfExt (h : Hdr) (d a : NameRef) (pos flen : BitVec 10) (sx : Bool) (s : State) : Host.Outcome State Fault Refusal :=
  finish (alu1 s (.shfExt h d a pos flen sx) h d a fun x => extField x.val pos.toNat flen.toNat sx)

/-- What `shf.ins` writes (R108): d's pattern with the field replaced, read as d's kind. -/
def insVal (D : Src) (x : Int) (pos len : Nat) : Int :=
  let P := D.pat
  let Q := P - P / 2 ^ pos % 2 ^ len * 2 ^ pos + wrapNat len x * 2 ^ pos
  valueOf D.ent Q
/-- The course of `shf.ins`: d is read after a (R108). -/
def insM (s : State) (i : Instr) (h : Hdr) (d a : NameRef) (pos len : Nat) : M State := do
  let fixed := match d with | .fixed _ => true | .cat _ => false
  let s1 ← s.issue i h [a] [d] (illUnless i (s.intDst d && !fixed && decide (pos + len ≤ (s.ent d).width)))
  let (x, s2) ← s.read i h a s1
  let (y, s3) ← s.read i h d s2
  let s4 ← s.writeInt i d (insVal y x.val pos len) s3
  pure (s4.done h)
/-- `shf.ins` (R108). -/
def execShfIns (h : Hdr) (d a : NameRef) (pos flen : BitVec 10) (s : State) : Host.Outcome State Fault Refusal :=
  finish (insM s (.shfIns h d a pos flen) h d a pos.toNat flen.toNat)

/-! ## mul (R109, R102) -/

/-- Waiting for the core's multiplier. -/
abbrev tagUnit : Nat := 4
/-- Waiting for its divider. -/
abbrev tagDiv : Nat := 28

/-- A multiply's k (R102). -/
def mulK (x y : Src) : Nat := (x.ent.width + 63) / 64 * ((y.ent.width + 63) / 64)
/-- The core's multiplier is taken for `k` cycles. -/
def State.takeMul (k : Nat) (s : State) : State := s.setMyCore { s.myCore with mulFree := s.cycle + k }
/-- Its divider is taken for `k` cycles. -/
def State.takeDiv (k : Nat) (s : State) : State := s.setMyCore { s.myCore with divFree := s.cycle + k }
/-- The current instruction takes a unit and runs for `lat` cycles (R102); it waits with `tag` while the unit is held, or an older instruction waits
for it. The answer is what taking the unit changes for what follows, the write of the result, whatever that brings. -/
def State.useUnit (s0 : State) (i : Instr) (tag free lat : Nat) (take : State → State) : M (State → State) :=
  if s0.ranOut then .ok id
  else if decide (s0.cycle < free) || s0.myCore.waitsAhead s0.cur.h s0.mySeq tag then holdM s0 i tag none
  else if s0.writesNow lat then .ok take else .error (take (s0.running i lat))
/-- The course of a multiply (R102, R109): the core's multiplier is held for k cycles, the latency is 4 + k; threads that find it held take it
in the order in which they issued. -/
def mulM (s : State) (i : Instr) (h : Hdr) (d a b : NameRef) (readD : Bool) (ok : Bool) (f : Src → Src → Int → Int) : M State := do
  let s1 ← s.issue i h (if readD then [a, b, d] else [a, b]) [d] (illUnless i (s.intDst d && ok))
  let (x, s2) ← s.read i h a s1
  let (y, s3) ← s.read i h b s2
  let (z, s4) ← if readD then (s.read i h d s3).map fun r => (r.1.val, r.2) else pure (0, s3)
  let u ← s.useUnit i tagUnit s.myCore.mulFree (4 + mulK x y) (State.takeMul (mulK x y))
  let s5 ← afterRun ((u s).writeInt i d (f x y z) (u s4))
  pure (s5.done h)
/-- `mul.mul` (R109). -/
def execMulMul (h : Hdr) (d a b : NameRef) (s : State) : Host.Outcome State Fault Refusal :=
  finish (mulM s (.mulMul h d a b) h d a b false true fun x y _ => x.val * y.val)
/-- `mul.mac` (R109). -/
def execMulMac (h : Hdr) (d a b : NameRef) (s : State) : Host.Outcome State Fault Refusal :=
  finish (mulM s (.mulMac h d a b) h d a b true true fun x y z => z + x.val * y.val)
/-- `mul.msub` (R109). -/
def execMulMsub (h : Hdr) (d a b : NameRef) (s : State) : Host.Outcome State Fault Refusal :=
  finish (mulM s (.mulMsub h d a b) h d a b true true fun x y z => z - x.val * y.val)
/-- v / 2^n rounded down, or to nearest with ties to even (R109). -/
def shiftRound (v : Int) (n : Nat) (near : Bool) : Int :=
  let q := v / 2 ^ n
  let r := v % 2 ^ n
  if !near then q
  else if 2 * r > 2 ^ n then q + 1 else if 2 * r = 2 ^ n then (if q % 2 = 0 then q else q + 1) else q
/-- `mul.mulsh` (R109). -/
def execMulMulsh (h : Hdr) (d a b : NameRef) (sh : BitVec 32) (rq : Bool) (s : State) : Host.Outcome State Fault Refusal :=
  finish (mulM s (.mulMulsh h d a b sh rq) h d a b false (decide (0 ≤ sh.toInt) && decide (sh.toInt ≤ 1023))
    fun x y _ => shiftRound (x.val * y.val) sh.toNat rq)

/-! ## div (R110, R102) -/

/-- The course of a divide (R102, R110): DIVZ at issue, without taking the divider; the latency is 6 + w(a)/2 rounded up. -/
def divM (s : State) (i : Instr) (h : Hdr) (d a b : NameRef) (f : Int → Int → Int) : M State := do
  let s1 ← s.issue i h [a, b] [d] (illUnless i (s.intDst d))
  let (x, s2) ← s.read i h a s1
  let (y, s3) ← s.read i h b s2
  if y.val = 0 then trapM s .divz (w64 x.val)
  let lat := 6 + (x.ent.width + 1) / 2
  let u ← s.useUnit i tagDiv s.myCore.divFree lat (State.takeDiv lat)
  let s4 ← afterRun ((u s).writeInt i d (f x.val y.val) (u s3))
  pure (s4.done h)
/-- `div.div` (R110): truncated towards zero. -/
def execDivDiv (h : Hdr) (d a b : NameRef) (s : State) : Host.Outcome State Fault Refusal :=
  finish (divM s (.divDiv h d a b) h d a b Int.tdiv)
/-- `div.rem` (R110): sign of the dividend. -/
def execDivRem (h : Hdr) (d a b : NameRef) (s : State) : Host.Outcome State Fault Refusal :=
  finish (divM s (.divRem h d a b) h d a b Int.tmod)
/-- `div.divf` (R110): rounded down. -/
def execDivDivf (h : Hdr) (d a b : NameRef) (s : State) : Host.Outcome State Fault Refusal :=
  finish (divM s (.divDivf h d a b) h d a b Int.fdiv)
/-- `div.modf` (R110): sign of the divisor. -/
def execDivModf (h : Hdr) (d a b : NameRef) (s : State) : Host.Outcome State Fault Refusal :=
  finish (divM s (.divModf h d a b) h d a b Int.fmod)

/-! ## cmp (R111) -/

/-- 1 or 0. -/
def flag (c : Bool) : Int := if c then 1 else 0
/-- `cmp.eq` (R111). -/
def execCmpEq (h : Hdr) (d a b : NameRef) (s : State) : Host.Outcome State Fault Refusal :=
  finish (alu2 s (.cmpEq h d a b) h d a b fun x y => flag (decide (x.val = y.val)))
/-- `cmp.ne` (R111). -/
def execCmpNe (h : Hdr) (d a b : NameRef) (s : State) : Host.Outcome State Fault Refusal :=
  finish (alu2 s (.cmpNe h d a b) h d a b fun x y => flag (decide (x.val ≠ y.val)))
/-- `cmp.lt` (R111). -/
def execCmpLt (h : Hdr) (d a b : NameRef) (s : State) : Host.Outcome State Fault Refusal :=
  finish (alu2 s (.cmpLt h d a b) h d a b fun x y => flag (decide (x.val < y.val)))
/-- `cmp.le` (R111). -/
def execCmpLe (h : Hdr) (d a b : NameRef) (s : State) : Host.Outcome State Fault Refusal :=
  finish (alu2 s (.cmpLe h d a b) h d a b fun x y => flag (decide (x.val ≤ y.val)))
/-- `cmp.gt` (R111). -/
def execCmpGt (h : Hdr) (d a b : NameRef) (s : State) : Host.Outcome State Fault Refusal :=
  finish (alu2 s (.cmpGt h d a b) h d a b fun x y => flag (decide (x.val > y.val)))
/-- `cmp.ge` (R111). -/
def execCmpGe (h : Hdr) (d a b : NameRef) (s : State) : Host.Outcome State Fault Refusal :=
  finish (alu2 s (.cmpGe h d a b) h d a b fun x y => flag (decide (x.val ≥ y.val)))
/-- `cmp.tst` (R111). -/
def execCmpTst (h : Hdr) (d a b : NameRef) (s : State) : Host.Outcome State Fault Refusal :=
  finish (alu2 s (.cmpTst h d a b) h d a b fun x y => flag (decide (intAnd x.val y.val ≠ 0)))
/-- The course of `cmp.sel`: `a`, `b` and `c` are all read (R111). -/
def selM (s : State) (i : Instr) (h : Hdr) (d a b c : NameRef) : M State := do
  let s1 ← s.issue i h [a, b, c] [d] (illUnless i (s.intDst d))
  let (x, s2) ← s.read i h a s1
  let (y, s3) ← s.read i h b s2
  let (z, s4) ← s.read i h c s3
  let s5 ← s.writeInt i d (if z.val ≠ 0 then x.val else y.val) s4
  pure (s5.done h)
/-- `cmp.sel` (R111). -/
def execCmpSel (h : Hdr) (d a b c : NameRef) (s : State) : Host.Outcome State Fault Refusal :=
  finish (selM s (.cmpSel h d a b c) h d a b c)

end Sys2Proof.Machine
end

