-- ==== Sys2Proof/Machine/Control.lean ====
section
/-! DEFINITION. Control transfer, the return stack and addresses: `br`, `jmp`, `call`, `addr` (06 R113 to R125). -/
namespace Sys2Proof.Machine

/-- A transfer to an exact target (R113): checked before any state changes, then a redirect. `s0` is the state before. -/
def State.transfer (s0 : State) (t : Int) (s : State) : M State :=
  match targetCause t with
  | some c => trapM s0 c (w64 t)
  | none => .ok (s.goTo t.toNat)

/-- The relative target P + 4 x off (R113). -/
def State.relTarget (s : State) (off : BitVec 32) : Int := (s.me.pc : Int) + 4 * off.toInt

/-- A conditional branch (R115): not taken, it checks no target. -/
def branchM (s : State) (i : Instr) (h : Hdr) (a : NameRef) (off : BitVec 32) (c : Int → Bool) : M State := do
  let s1 ← s.issue i h [a] [] none
  let (x, s2) ← s.read i h a s1
  if c x.val then s.transfer (s.relTarget off) s2 else pure (s2.done h)
/-- `br.z` (R115). -/
def execBrZ (h : Hdr) (a : NameRef) (off : BitVec 32) (s : State) : Host.Outcome State Fault Refusal :=
  finish (branchM s (.brZ h a off) h a off fun x => decide (x = 0))
/-- `br.nz` (R115). -/
def execBrNz (h : Hdr) (a : NameRef) (off : BitVec 32) (s : State) : Host.Outcome State Fault Refusal :=
  finish (branchM s (.brNz h a off) h a off fun x => decide (x ≠ 0))
/-- `br.lz` (R115). -/
def execBrLz (h : Hdr) (a : NameRef) (off : BitVec 32) (s : State) : Host.Outcome State Fault Refusal :=
  finish (branchM s (.brLz h a off) h a off fun x => decide (x < 0))
/-- `br.gez` (R115). -/
def execBrGez (h : Hdr) (a : NameRef) (off : BitVec 32) (s : State) : Host.Outcome State Fault Refusal :=
  finish (branchM s (.brGez h a off) h a off fun x => decide (x ≥ 0))
/-- `br.gz` (R115). -/
def execBrGz (h : Hdr) (a : NameRef) (off : BitVec 32) (s : State) : Host.Outcome State Fault Refusal :=
  finish (branchM s (.brGz h a off) h a off fun x => decide (x > 0))
/-- `br.lez` (R115). -/
def execBrLez (h : Hdr) (a : NameRef) (off : BitVec 32) (s : State) : Host.Outcome State Fault Refusal :=
  finish (branchM s (.brLez h a off) h a off fun x => decide (x ≤ 0))

/-- The course of an unconditional relative transfer (R115, R116). -/
def relM (s : State) (i : Instr) (h : Hdr) (off : BitVec 32) : M State := do
  let s1 ← s.issue i h [] [] none
  s.transfer (s.relTarget off) s1
/-- `br.al` (R115). -/
def execBrAl (h : Hdr) (off : BitVec 32) (s : State) : Host.Outcome State Fault Refusal := finish (relM s (.brAl h off) h off)
/-- `jmp.rel` (R116). -/
def execJmpRel (h : Hdr) (off : BitVec 32) (s : State) : Host.Outcome State Fault Refusal := finish (relM s (.jmpRel h off) h off)

/-- The course of `jmp.ind`: T := value(a) + 4 x off (R116). -/
def indM (s : State) (i : Instr) (h : Hdr) (a : NameRef) (off : BitVec 32) : M State := do
  let s1 ← s.issue i h [a] [] none
  let (x, s2) ← s.read i h a s1
  s.transfer (x.val + 4 * off.toInt) s2
/-- `jmp.ind` (R116, R117). -/
def execJmpInd (h : Hdr) (a : NameRef) (off : BitVec 32) (s : State) : Host.Outcome State Fault Refusal :=
  finish (indM s (.jmpInd h a off) h a off)

/-- Waiting for entries of the range scoreboard (R171). -/
abbrev tagBoard : Nat := 5

/-- The local address of spill entry `k` (R120). -/
def Thread.spillAddr (x : Thread) (k : Nat) : Nat := 8 * (x.rsBase.toNat + k)

/-- A call's effect on the return stack, after R113, and the transfer (R118, R120). -/
def State.callTo (s0 : State) (i : Instr) (h : Hdr) (t : Int) (s : State) : M State :=
  match targetCause t with
  | some c => trapM s0 c (w64 t)
  | none =>
    let x := s.me
    let e := x.pc + Hdr.len h
    if x.rstack.length < 8 then .ok ((s.setMe { x with rstack := e :: x.rstack }).goTo t.toNat)
    else if x.rsLim.toNat ≤ x.rsCnt.toNat then trapM s0 .rstack 1
    else
      let a := x.spillAddr x.rsCnt.toNat
      if a > 0x7_FFF8 then trapM s0 .access (n64 a)
      else if s.boardAny s.cur.tile a 8 then holdM s0 i tagBoard none
      else
        let s1 := s.putLocalWord s.cur.tile a (x.rstack.getLastD 0)
        .ok ((s1.setMe { x with rstack := e :: x.rstack.dropLast, rsCnt := x.rsCnt + 1 }).goTo t.toNat)

/-- The course of `call.rel` (R118). -/
def callRelM (s : State) (i : Instr) (h : Hdr) (off : BitVec 32) : M State := do
  let s1 ← s.issue i h [] [] none
  s.callTo i h (s.relTarget off) s1
/-- `call.rel` (R118, R120). -/
def execCallRel (h : Hdr) (off : BitVec 32) (s : State) : Host.Outcome State Fault Refusal :=
  finish (callRelM s (.callRel h off) h off)
/-- The course of `call.ind` (R118). -/
def callIndM (s : State) (i : Instr) (h : Hdr) (a : NameRef) (off : BitVec 32) : M State := do
  let s1 ← s.issue i h [a] [] none
  let (x, s2) ← s.read i h a s1
  s.callTo i h (x.val + 4 * off.toInt) s2
/-- `call.ind` (R117, R118, R120). -/
def execCallInd (h : Hdr) (a : NameRef) (off : BitVec 32) (s : State) : Host.Outcome State Fault Refusal :=
  finish (callIndM s (.callInd h a off) h a off)

/-- The course of `call.ret` (R120): from the hardware stack, else refilled from the spill area, else RSTACK. -/
def retM (s : State) (i : Instr) (h : Hdr) : M State := do
  let s1 ← s.issue i h [] [] none
  let x := s1.me
  match x.rstack with
  | t :: l => s.transfer t (s1.setMe { x with rstack := l })
  | [] =>
    if x.rsCnt.toNat = 0 then trapM s .rstack 0
    else
      let a := x.spillAddr (x.rsCnt.toNat - 1)
      if a > 0x7_FFF8 then trapM s .access (n64 a)
      else if s1.boardW s1.cur.tile a 8 then holdM s i tagBoard none
      else if s1.poisoned (localKey s1.cur.tile a) 8 then poisonM s 0 s1.myKernel.ctx (localKey s1.cur.tile a) 8 (n64 a)
      else
        let s2 := s1.setMe { x with rsCnt := x.rsCnt - 1 }
        s.transfer (s1.localWord s1.cur.tile a) (s2.found s1.cur 0 s1.myKernel.ctx (localKey s1.cur.tile a) 8)
/-- `call.ret` (R118, R120). -/
def execCallRet (h : Hdr) (s : State) : Host.Outcome State Fault Refusal := finish (retM s (.callRet h) h)

/-! ## addr (R124, R125) -/

/-- The base of the private window (R124). -/
def privBase : Nat := 0xFF_FFFF_0000_0000
/-- TPRIVG as an address and TPRIVSZ in bytes (R124). -/
def Thread.privG' (x : Thread) : Nat := x.privG.toNat * 2 ^ 16
/-- TPRIVSZ in bytes. -/
def Thread.privZ (x : Thread) : Nat := x.privSz.toNat * 2 ^ 16

/-- `addr.glob` on a value in 0 to 2^56 - 1: the private window converted (R125); none when past TPRIVSZ. -/
def globOf (x : Thread) (v : Nat) : Option Nat :=
  if privBase ≤ v ∧ v < privBase + 2 ^ 32 then
    (if v - privBase ≥ x.privZ then none else some (x.privG' + (v - privBase)))
  else some v
/-- `addr.gen`: the thread's own alias converted (R125). -/
def genOf (x : Thread) (v : Nat) : Nat := if x.privG' ≤ v ∧ v < x.privG' + x.privZ then privBase + (v - x.privG') else v

/-- The course of `addr.glob` and `addr.gen` (R125). -/
def addrM (s : State) (i : Instr) (h : Hdr) (d a : NameRef) (f : Thread → Nat → Option Nat) : M State := do
  let s1 ← s.issue i h [a] [d] (illUnless i (s.intDst d))
  let (x, s2) ← s.read i h a s1
  if x.val < 0 ∨ x.val > 2 ^ 56 - 1 then trapM s .access (w64 x.val)
  else match f s.me x.val.toNat with
    | none => trapM s .access (w64 x.val)
    | some v =>
      let s3 ← s.writeInt i d v s2
      pure (s3.done h)
/-- `addr.glob` (R125). -/
def execAddrGlob (h : Hdr) (d a : NameRef) (s : State) : Host.Outcome State Fault Refusal :=
  finish (addrM s (.addrGlob h d a) h d a globOf)
/-- `addr.gen` (R125). -/
def execAddrGen (h : Hdr) (d a : NameRef) (s : State) : Host.Outcome State Fault Refusal :=
  finish (addrM s (.addrGen h d a) h d a fun x v => some (genOf x v))
/-- `addr.lea` (R125): P + V + imm. -/
def execAddrLea (h : Hdr) (d a : NameRef) (imm : BitVec 32) (s : State) : Host.Outcome State Fault Refusal :=
  finish (alu1 s (.addrLea h d a imm) h d a fun x => (s.me.pc : Int) + x.val + imm.toInt)

end Sys2Proof.Machine
end

