-- ==== Sys2Proof/Machine/Memory.lean ====
section
/-! DEFINITION. The memory system a thread or an engine reaches: homes and their classes (13 R244, 22 R375), address windows
(13 R242, R243), translation and misses (21 R359 to R364), home reads and writes with encryption, vault and reflections
(13 R249 to R258, 20 R350 to R352), fences and the replies of R70. -/
namespace Sys2Proof.Machine

/-! ## Homes -/

/-- The first physical address of the capacity tier (R340, R375). -/
def capBase : Nat := 0x4_0000_0000_0000
/-- Of host memory. -/
def hostBase : Nat := 0x6_0000_0000_0000
/-- Of the other modules. -/
def peerBase : Nat := 0x8_0000_0000_0000
/-- Where the home of a physical address lies; none where no memory is populated (R375). -/
def homeOf (pa : Nat) : Option Home :=
  if pa < 2 ^ 40 then (if pa % 2 ^ 37 < 0x1D_CD65_0000 then some (.hbm (pa / 2 ^ 39)) else none)
  else if capBase ≤ pa ∧ pa < capBase + 2 ^ 41 then some .cap
  else if hostBase ≤ pa ∧ pa < peerBase then some .host
  else if peerBase ≤ pa ∧ pa < 2 * peerBase then some .peer
  else none

/-- The offset C in the capacity tier of a byte of the vault (R350). -/
def State.vaultC (s : State) (pa : Nat) : Option Nat :=
  let c := pa - capBase
  if capBase ≤ pa ∧ pa < capBase + 2 ^ 41 ∧ s.vltbase.toNat * 2 ^ 20 ≤ c ∧ c < (s.vltbase.toNat + s.vltsize.toNat) * 2 ^ 20
  then some c else none
/-- The pooling buffer of an offset C (R340). -/
def bufOf (c : Nat) : Fin 16 := ⟨c / 2 ^ 16 % 16, Nat.mod_lt _ (by decide)⟩
/-- The offset within the buffer's part of the vault (R351). -/
def State.vaultOff (s : State) (c : Nat) : Nat := (c - s.vltbase.toNat * 2 ^ 20) / 2 ^ 16 / 16 * 2 ^ 16 + c % 2 ^ 16

/-- The 64 bytes of a physical line as an access under a key finds them (R361). -/
def State.lineAt (s : State) (key line : Nat) : List Byte :=
  if key = 0 then s.bytesAt (64 * line) 64 else xtsLine true (s.keyOf key) line (s.bytesAt (64 * line) 64)
/-- Bytes of one line as an access under a key finds them. -/
def State.homeBytes (s : State) (key pa n : Nat) : List Byte :=
  if key = 0 then s.bytesAt pa n else ((s.lineAt key (pa / 64)).drop (pa % 64)).take n
/-- Bytes of one line written under a key: words wholly written lose their poison (R265, R371). -/
def State.homePut (s : State) (key pa : Nat) (bs : List Byte) : State :=
  if key = 0 then s.putBytes pa bs
  else
    let l := s.lineAt key (pa / 64)
    let l' := l.take (pa % 64) ++ bs ++ l.drop (pa % 64 + bs.length)
    { s with mem := memPutList s.mem (64 * (pa / 64)) (xtsLine false (s.keyOf key) (pa / 64) l'),
             poison := s.poison.filter fun w => !(wholeWords pa bs.length).contains w,
             latent := s.latent.filter fun e => !coversUnit pa bs.length e.1 }
/-- The pieces of a byte range within aligned 64-byte lines (R250): first byte and length. -/
def linePieces (a n : Nat) : List (Nat × Nat) :=
  if a % 64 + n ≤ 64 then [(a, n)] else [(a, 64 - a % 64), (a + (64 - a % 64), n - (64 - a % 64))]

/-! ## Format ranges (08 R151 to R154) -/

/-- The element format number of an E2M1 entry. -/
abbrev fmtE2m1 : Nat := 4
/-- The first byte of an entry's element range. -/
def FmtRange.lo (r : FmtRange) : Nat := 2 ^ 12 * r.base
/-- One past its last byte. -/
def FmtRange.hi (r : FmtRange) : Nat := 2 ^ 12 * (r.last + 1)
/-- The entry in force of a table whose element range holds a physical address (R153). -/
def frIn (fr : Vector (Vector FmtRange 32) 2) (pa : Nat) : Option FmtRange :=
  let die : Fin 2 := match homeOf pa with | some (.hbm 1) => 1 | _ => 0
  (fr[die]).toList.find? fun r => r.en && decide (r.lo ≤ pa) && decide (pa < r.hi)
/-- The same in the table as it stands. -/
def State.frFind (s : State) (pa : Nat) : Option FmtRange := frIn s.fr pa
/-- The scale bytes of the granule at a physical address: their first address and their number (R153). -/
def FmtRange.scale (r : FmtRange) (pa : Nat) : Nat × Nat :=
  let g := (pa - r.lo) / 32
  if r.fmt = fmtE2m1 then (8 * r.sbase + 8 * g, 8) else (8 * r.sbase + g, 1)
/-- Whether a name's kind goes with the entry (R266): a `g8` not with E2M1, a `g4` with nothing else. -/
def FmtRange.takes (r : FmtRange) (k : Kind) : Bool := !((k == .g8 && r.fmt == fmtE2m1) || (k == .g4 && r.fmt != fmtE2m1))
/-- A granule pattern's 32 element bytes (R134, R135, R153). -/
def granElems (g4 : Bool) (p : Nat) : List Byte :=
  if g4 then (List.range 8).flatMap fun j => bytesOfNat 4 (p / 2 ^ (40 * j)) else bytesOfNat 32 p
/-- Its scale bytes. -/
def granScales (g4 : Bool) (p : Nat) : List Byte :=
  if g4 then (List.range 8).map fun j => BitVec.ofNat 8 (p / 2 ^ (40 * j + 32)) else bytesOfNat 1 (p / 2 ^ 256)
/-- The granule pattern of element and scale bytes. -/
def granPat (g4 : Bool) (es ss : List Byte) : Nat :=
  if g4 then (List.range 8).foldr (fun j acc => natOfBytes ((es.drop (4 * j)).take 4) + 2 ^ 32 * (ss.getD j 0).toNat + 2 ^ 40 * acc) 0
  else natOfBytes es + 2 ^ 256 * natOfBytes ss

/-- Bytes of an entry's page (R359). -/
def TEntry.page (e : TEntry) : Nat := if e.psz = 0 then 2 ^ 16 else if e.psz = 1 then 2 ^ 21 else 2 ^ 30
/-- Whether a frame of the page holds a physical address. -/
def TEntry.framed (e : TEntry) (pa : Nat) : Bool := decide (e.pfn * 2 ^ 16 ≤ pa) && decide (pa < e.pfn * 2 ^ 16 + e.page)
/-- Whether a page contains another of its context wholly. -/
def TEntry.within (o e : TEntry) : Bool := decide (e.vpn * 2 ^ 16 ≤ o.vpn * 2 ^ 16) && decide (o.vpn * 2 ^ 16 + o.page ≤ e.vpn * 2 ^ 16 + e.page)
/-- The part of a larger page that is the 64 KiB granule of an address. -/
def TEntry.granule (e : TEntry) (a : Nat) : TEntry := { e with psz := 0, vpn := a / 2 ^ 16, pfn := e.pfn + (a / 2 ^ 16 - e.vpn) }
/-- What a context's tables give for an address: the smallest page there, of several the newest; of a larger page that a smaller one cuts, only the
64 KiB around the address (R175, R359). -/
def Context.entryAt (c : Context) (a : Nat) : Option TEntry :=
  let hits := c.maps.filter fun e => e.ctx == c.id && a / e.page == e.vpn * 2 ^ 16 / e.page
  match (hits.find? (·.psz == 0)).or ((hits.find? (·.psz == 1)).or hits.head?) with
  | some e => some (if c.maps.any fun o => decide (o.psz < e.psz) && o.within e then e.granule a else e)
  | none => none
/-- A context whose tables map one more page, in place of those within it. -/
def Context.mapPage (c : Context) (e : TEntry) : Context := { c with maps := e :: c.maps.filter fun o => !o.within e }
/-- The key of the page of a context that holds a physical address, under which the scale bytes there are encrypted (R153); `dflt` where the context
maps no such page (log 109). -/
def State.frameKey (s : State) (ctx pa dflt : Nat) : Nat :=
  match (s.context? ctx).bind fun c => c.maps.find? (·.framed pa) with
  | some e => e.key
  | none => dflt

/-! ## Reflections and writes (R253, R258, R352) -/

/-- The scale bytes of the two granules of a line in a format range, with whether each is poisoned (R153, R154). -/
def State.lineScales (s : State) (ctx key pa : Nat) : List (Byte × Bool) :=
  match s.frFind pa with
  | some f =>
    let q := f.scale (64 * (pa / 64))
    (List.range (2 * q.2)).map fun j => ((s.homeBytes (s.frameKey ctx (q.1 + j) key) (q.1 + j) 1).headD 0, s.poisoned (q.1 + j) 1)
  | none => []
/-- A reflection with its home's content at this moment: bytes, scales, and the poison of its words and of its scales (behind the words). -/
def State.refresh (s : State) (r : Reflection) : Reflection :=
  let q := s.lineScales r.ctx r.key r.pa
  { r with bytes := s.homeBytes r.key r.pa 64, scales := q.map (·.1)
           bad := (List.range (8 + q.length)).filter fun j => if j < 8 then s.poisoned (r.pa + 8 * j) 8 else (q.getD (j - 8) (0, false)).2 }
/-- Whether bytes of a line, or of the scales of its granules, are among those written. -/
def State.reflects (s : State) (r : Reflection) (pa n : Nat) : Bool :=
  r.pa / 64 == pa / 64 || (match s.frFind r.pa with
    | some f => let q := f.scale (64 * (r.pa / 64)); decide (q.1 < pa + n) && decide (pa < q.1 + 2 * q.2)
    | none => false)
/-- The reflections of a die that hold what has been written at the home take the home's content at this moment (R253). -/
def State.reflect (s : State) (die pa n : Nat) : State :=
  { s with reflections := s.reflections.map fun r => if r.die = die ∧ s.reflects r pa n = true then s.refresh r else r }
/-- What is remembered of what a vault write replaces, until it is durable (R352): the stored bytes, and the marks and bits of their words. -/
def State.vaultUndo (s : State) (who : Option Writer) (key pa n : Nat) : List VaultWrite :=
  match s.vaultC pa with
  | none => []
  | some c =>
    let a := if key = 0 then pa else 64 * (pa / 64)
    let m := if key = 0 then n else 64
    [s.replaced (bufOf c).val who a m]
/-- A change of a word's full/empty bit alone counts as a write where the word lies in the vault (R261). -/
def State.vaultMark (s : State) (who : Option Writer) (pa : Nat) : State := { s with vwrites := s.vwrites ++ s.vaultUndo who 0 pa 8 }
/-- A write of bytes of one line is performed at its home by an agent of a die (R252, R258, R352). `who`: the thread's access that makes it, for
the durability that `rec` scope waits on. -/
def State.homeWrite (s : State) (die : Nat) (who : Option Writer) (key pa : Nat) (bs : List Byte) : State :=
  (({ s.homePut key pa bs with vwrites := s.vwrites ++ s.vaultUndo who key pa bs.length }).reflect die pa bs.length).activate pa
/-- A write that is durable at once: of an engine, of the host, of `cap.put` (R347, R353); older writes of its line are durable before it (R261). -/
def State.durableWrite (s : State) (die key pa : Nat) (bs : List Byte) : State :=
  ((({ s with vwrites := s.vwrites.filter fun v => v.addr / 64 != pa / 64 }).homePut key pa bs).reflect die pa bs.length).activate pa

/-! ## Windows (13 R242, R243) -/

/-- What an effective address names. -/
inductive Win
  | loc (a : Nat)
  | glob (a : Nat)
  | ws (die region : Nat) (off : Nat)
  | none
  deriving DecidableEq, Repr

/-- The window of a global address; a peer address that names this module has none (R242). -/
def State.globWin (s : State) (g : Nat) : Win :=
  if g < 0x8_0000 then .none
  else if g < 0xC0_0000_0000_0000 then .glob g
  else if g < 0xE0_0000_0000_0000 then (if fieldOf g 44 9 = s.modId.toNat then .none else .glob g)
  else if g < 0xE0_0000_8000_0000 then .ws (fieldOf g 30 1) (fieldOf g 24 6) (g % 2 ^ 30)
  else .none
/-- The window of an effective address of a thread (R211, R242, R243). -/
def State.window (s : State) (x : Thread) (ea : Int) : Win :=
  if ea < 0 ∨ ea ≥ 2 ^ 56 then .none
  else if ea < 0x8_0000 then .loc ea.toNat
  else match globOf x ea.toNat with
    | some g => s.globWin g
    | none => .none

/-! ## Translation (21 R359, R360) and misses (R362) -/

/-- Whether an entry matches an access of a context (R359). -/
def TEntry.hit (e : TEntry) (ctx a : Nat) : Bool := e.ctx == ctx && a / e.page == e.vpn * 2 ^ 16 / e.page
/-- The physical address under a matching entry (R359). -/
def TEntry.pa (e : TEntry) (a : Nat) : Nat := e.pfn * 2 ^ 16 + a % e.page
/-- Whether the hardware accepts an entry of the tables (R359, R363): alignment, a key of 0 for frames of the host and of other
modules, and frames in memory. -/
def TEntry.ok (e : TEntry) : Bool :=
  let far := match homeOf (e.pfn * 2 ^ 16) with | some .host => true | some .peer => true | _ => false
  decide (e.psz < 3) && decide (e.vpn < 2 ^ 40) && decide (e.ctx < 2 ^ 16) && decide (e.key < 2 ^ 11) && decide (e.pfn < 2 ^ 36) &&
  decide (e.vpn * 2 ^ 16 % e.page = 0) && decide (e.pfn * 2 ^ 16 % e.page = 0) && (!far || decide (e.key = 0)) &&
  (homeOf (e.pfn * 2 ^ 16)).isSome && (homeOf (e.pfn * 2 ^ 16 + e.page - 1)).isSome
/-- Whether the reduced service has the memory at a physical address: only HBM stacks 0 and 4 and host memory are there (R387). -/
def inReduced (pa : Nat) : Bool := match homeOf pa with | some .host => true | some (.hbm _) => pa / 2 ^ 37 % 4 == 0 | _ => false
/-- The same for the device's service. -/
def State.present (s : State) (pa : Nat) : Bool := !s.red || inReduced pa
/-- Whether a tile's gang was bound during the reduced service, which it keeps until its launch completes (R387). -/
def State.tileReduced (s : State) (tile : Nat) : Bool :=
  (s.tile tile).cores.toList.any fun c => c.kernels.any fun k => ((s.gang? k.gang).map (·.red)).getD false
/-- The same for what a tile can reach. -/
def State.presentAt (s : State) (tile pa : Nat) : Bool := s.present pa && (!s.tileReduced tile || inReduced pa)
/-- Whether a fill with the entry is accepted (R363). -/
def State.entryOk (s : State) (e : TEntry) : Bool := e.ok && s.present (e.pfn * 2 ^ 16)
/-- The 64 KiB granule of an address. -/
def granuleOf (a : Nat) : Nat := a / 2 ^ 16

/-- Whether an invalidation not yet reported complete blocks a translation (R370). -/
def State.blocked (s : State) (ctx a : Nat) : Bool :=
  s.invals.any fun v => v.2.ctx == ctx && decide (v.2.base ≤ a) && decide (a < v.2.base + v.2.len)
/-- The entry of a tile's TLB for an access. -/
def State.tlb? (s : State) (tile ctx a : Nat) : Option TEntry :=
  if s.blocked ctx a then none else (s.tile tile).tlb.find? fun e => e.hit ctx a

/-- The least requester tag that no outstanding miss of the tile uses. -/
def freeTag (ms : List Miss) : Nat := ((List.range 256).find? fun k => !ms.any (·.tag == k)).getD 255
/-- A tile sends a miss: one to a granule already outstanding shares that record (R362); a new one counts TLBMISS. -/
def State.sendMiss (s : State) (tile : Nat) (m : Miss) : State :=
  let t := s.tile tile
  match t.misses.find? fun o => o.ctx == m.ctx && granuleOf o.va == granuleOf m.va with
  | some o => s.setTile tile { t with misses := t.misses ++ [{ m with tag := o.tag, written := true }] }
  | none => (s.setTile tile { t with misses := t.misses ++ [{ m with tag := freeTag t.misses, written := false }] }).count ⟨tile, m.core⟩ 1
/-- The current thread's miss of an access, sent once while it waits. -/
def State.threadMiss (s : State) (kind a req : Nat) : State :=
  if s.myTile.misses.any fun m => m.thr == some (s.cur.core, s.cur.h) && !m.dead then s
  else s.sendMiss s.cur.tile ⟨kind, a, s.myKernel.ctx, req, 0, some (s.cur.core, s.cur.h), none, s.cur.core, false, false⟩
/-- Holds the current thread by a miss (R364), or by a blocked translation (R370). -/
def missM {α : Type} (s0 : State) (i : Instr) (kind a : Nat) : M α :=
  .error ((if s0.blocked s0.myKernel.ctx a then s0 else s0.threadMiss kind a (if kind ≥ 5 then 3 else 0)).hold i .miss none)

/-- Whether every port of the route of the module that a physical address names is down (R384). -/
def State.routeDown (s : State) (pa : Nat) : Bool :=
  match homeOf pa with
  | some .peer => (s.routes[fieldOf pa 44 7]?.getD 0) &&& s.portsUp == 0
  | _ => false
/-- Whether another module refuses an access of its memory (R384): its export table is its own, a free value here (log 120). -/
def State.peerRefused (s : State) (pa : Nat) (w : Bool) : Bool :=
  match homeOf pa with
  | some .peer => Config.peerRefuses s.cycle pa w
  | _ => false

/-- An HBM bank in back-off. -/
abbrev tagBank : Nat := 27
/-- Another module that has not answered. -/
abbrev tagPeer : Nat := 33
/-- The bank of an HBM address: 8 x bank + stack. -/
def State.bankId (_ : State) (pa : Nat) : Nat := 8 * Config.hbmBank (pa / 64) + pa / 2 ^ 37 % 8
/-- Whether a place of another module leaves an access unanswered so far (R384). -/
def State.silent (s : State) (pa : Nat) : Bool := homeOf pa == some .peer && Config.peerSilent s.cycle pa
/-- Whether a request to an address waits: the bank of the address is in back-off (R376), or the other module has not answered (R384). -/
def State.bankOff (s : State) (pa : Nat) : Bool :=
  (decide (pa < 2 ^ 40) && s.backoff.any fun b => b.1 == pa / 2 ^ 37 && b.2.1 == Config.hbmBank (pa / 64) && decide (s.cycle < b.2.2)) || s.silent pa

/-! ## Order (13 R249 to R258) -/

/-- Side-log entries of one's own tile that cover a byte. -/
abbrev tagSide : Nat := 6
/-- Older entries of the line of an atomic. -/
abbrev tagOrder : Nat := 7
/-- A fence. -/
abbrev tagFence : Nat := 8
/-- A weight-store bank in refresh. -/
abbrev tagRefresh : Nat := 9
/-- A full/empty bit. -/
abbrev tagFull : Nat := 10
/-- A full shared store buffer or side log. -/
abbrev tagStore : Nat := 11
/-- Durability of a write already made. -/
abbrev tagDurable : Nat := 12

/-- The tag and the saved value of the wait that the current instruction goes on with. -/
def State.stage (s : State) : Option (Nat × Nat) := match s.me.wait with
  | some w => (match w.why with | .retry t a => some (t, a) | _ => none)
  | none => none

/-- Whether an older access of the core is still to pass its memory port (R250). -/
def State.portHeld (s : State) : Bool := s.myCore.portAt s.cur.h s.mySeq
/-- The current instruction waits for the answer of another module to its access of an address, from this cycle on (R384). -/
def State.holdPeer (s0 : State) (i : Instr) (a : Nat) : State :=
  let z := s0.hold i (.retry tagPeer a) none
  if s0.stage = some (tagPeer, a) then z else z.setMe { z.me with wait := z.me.wait.map fun w => { w with since := s0.cycle } }
/-- Translates an access of the current thread (R359, R362, R364): ACCESS for a write under `w` 0, PFAULT reason 2 towards a
module no port reaches, ACCESS where the module refuses (R384); a request to an HBM bank in back-off, or not answered, waits (R376, R384), and so does one behind an older store of the core (R250). -/
def State.translate (s0 : State) (i : Instr) (kind : Nat) (w : Bool) (ea : Int) (a : Nat) (s : State) : M TEntry :=
  if s.portHeld then holdM s0 i tagOrder none
  else match s.tlb? s.cur.tile s.myKernel.ctx a with
  | none => missM s0 i kind a
  | some e =>
    if w && !e.w then trapM s0 .access (w64 ea)
    else if s.routeDown (e.pa a) then trapM s0 .pfault (reasonVal 2 a)
    else if s.peerRefused (e.pa a) w then trapM s0 .access (w64 ea)
    else if s.bankOff (e.pa a) then
      .error (if s.silent (e.pa a) then s0.holdPeer i a else s0.hold i (.retry tagBank (s.bankId (e.pa a))) none)
    else .ok e


/-- The kind and the format ranges of an `st.g`'s entry that its translation decides. -/
def StoreForm.ranges : StoreForm → Option (Kind × Vector (Vector FmtRange 32) 2)
  | .gran k fr => some (k, fr)
  | .late k fr _ => some (k, fr)
  | _ => none
/-- The range that holds the granule of such an entry under a translation. -/
def StoreForm.range (f : StoreForm) (te : TEntry) (a : Nat) : Option FmtRange := f.ranges.bind fun r => frIn r.2 (te.pa a)
/-- The rule of R266 that such an entry breaks under a translation: a granule's alignment or kind, or 40 bytes that pass the end of its window. -/
def StoreForm.breach (f : StoreForm) (te : TEntry) (a : Nat) : Option Cause :=
  match f.ranges, f.range te a, f with
  | some (k, _), some r, _ => if a % 32 ≠ 0 then some .align else if r.takes k = false then some .access else none
  | some _, none, .late _ _ true => some .access
  | _, _, _ => none
/-- Bytes of its address range that a form of so many bytes covers: a granule's elements; of a form not yet decided, what lies in its line. -/
def StoreForm.span (f : StoreForm) (a n : Nat) : Nat := match f with | .gran _ _ => 32 | .late _ _ _ => min n (64 - a % 64) | _ => n
/-- Bytes an entry covers. -/
def StoreEntry.span (e : StoreEntry) : Nat := e.form.span e.addr e.bytes.length
/-- Whether an entry covers a byte of a context's address range. -/
def StoreEntry.covers (e : StoreEntry) (ctx a n : Nat) : Bool :=
  e.ctx == ctx && decide (e.addr < a + n) && decide (a < e.addr + e.span)
/-- Bytes a side-log entry covers. -/
def SideEntry.span (e : SideEntry) : Nat := match e.work with
  | .store bs f => f.span e.addr bs.length
  | .red _ n _ _ _ => n
/-- Whether a side-log entry covers a byte of the range. -/
def SideEntry.covers (e : SideEntry) (ctx a n : Nat) : Bool :=
  e.ctx == ctx && decide (e.addr < a + n) && decide (a < e.addr + e.span)

/-- Whether a scope orders an entry by its class and home; one without a class is ordered by every scope of `tile` or wider (R245, R249). -/
def inScope (sc : Scope) (h : Option (HClass × Home)) : Bool :=
  match sc with
  | .thr | .core => false
  | .tile | .clu | .die => (match h with | none => true | some m => m.1 == .near)
  | .dev => (match h with | some (_, .host) => false | some (_, .peer) => false | _ => true)
  | .sys | .recov => true
/-- Whether a vault write was made by an access of a core before a place in its order, to bytes that `p` picks. -/
def VaultWrite.before (v : VaultWrite) (r : CoreRef) (n : Nat) (p : Nat → Nat → Nat → Bool) : Bool :=
  match v.who with | some w => w.core == r && decide (w.seq < n) && p w.ctx w.va w.len | none => false
/-- Whether nothing is left that a fence of the current thread at a scope waits for, among the bytes that `p` picks (R255,
R256, R261). -/
def State.fenceClear (s : State) (sc : Scope) (p : Nat → Nat → Nat → Bool) : Bool :=
  let n := s.mySeq
  !(s.myCore.sbuf.any fun e => decide (e.seq < n) && inScope sc e.home && p e.ctx e.addr e.span) &&
  !(s.myTile.side.any fun e => e.core == s.cur.core && decide (e.seq < n) && inScope sc e.home && p e.ctx e.addr e.span) &&
  (sc != .recov || !(s.vwrites.any fun v => v.before s.cur.coreRef n p))
/-- Every byte. -/
def allBytes : Nat → Nat → Nat → Bool := fun _ _ _ => true
/-- The fence that precedes an operation of a scope (R255, R258): none for `thr` and `core`. -/
def State.fenceOf (s0 : State) (i : Instr) (sc : Scope) (s : State) : M Unit :=
  match sc with
  | .thr | .core => .ok ()
  | _ => if s.portHeld then holdM s0 i tagOrder none else if s.fenceClear sc allBytes then .ok () else holdM s0 i tagFence none

/-! ## What a posted store writes (R153 to R155, R251) -/

/-- The parts of a posted store under a translation: physical address, key and bytes of each; those of a granule are its elements and its scales. -/
def State.storeParts (s : State) (ctx : Nat) (te : TEntry) (a : Nat) (bs : List Byte) (f : StoreForm) : List (Nat × Nat × List Byte) :=
  match f.ranges, f.range te a with
  | some _, some r =>
    let q := (r.scale (te.pa a)).1
    [(te.pa a, te.key, granElems (r.fmt == fmtE2m1) (natOfBytes bs)), (q, s.frameKey ctx q te.key, granScales (r.fmt == fmtE2m1) (natOfBytes bs))]
  | some _, none => [(te.pa a, te.key, bs.take (64 - a % 64))]
  | none, _ => [(te.pa a, te.key, bs)]
/-- A part of an entry: its address (none: a granule's scales, which the entry's address does not reach), its place in memory once it has a
translation, its bytes. -/
structure StorePart where
  va : Option Nat
  pa : Option Nat
  bytes : List Byte
/-- Where an address of an entry lies: by the tile's TLB, else by the context's tables. -/
def State.placed (s : State) (tile ctx a : Nat) : Option TEntry := (s.tlb? tile ctx a).or ((s.context? ctx).bind fun c => c.entryAt a)
/-- The first part of an undecided `st.g` of a tile whose second is an entry: its address and form. -/
def State.headOf (s : State) (tile : Nat) (e : StoreEntry) : Option (Nat × StoreForm) :=
  let is : Fin 8 → Nat → Nat → Nat → Bool := fun h seq ctx a => h == e.h && seq == e.seq && ctx == e.ctx && a / 64 + 1 == e.addr / 64
  let late : StoreForm → Bool := fun f => match f with | .late _ _ _ => true | _ => false
  (((s.tile tile).cores.toList.flatMap (·.sbuf)).findSome? fun o => if is o.h o.seq o.ctx o.addr && late o.form then some (o.addr, o.form) else none).or
    ((s.tile tile).side.findSome? fun o => match o.work with
      | .store _ f => if is o.h o.seq o.ctx o.addr && late f then some (o.addr, f) else none
      | .red .. => none)
/-- Whether the second part of an `st.g` is not known yet to be written: the place of the first is open. -/
def State.tailOpen (s : State) (tile : Nat) (e : StoreEntry) : Bool :=
  e.form == .tail && match s.headOf tile e with
    | some (a, _) => (s.placed tile e.ctx a).isNone
    | none => false
/-- Whether the first part of such an `st.g` is a granule, so that the second writes nothing (R266). -/
def State.tailVoid (s : State) (tile : Nat) (e : StoreEntry) : Bool :=
  e.form == .tail && match s.headOf tile e with
    | some (a, f) => (s.placed tile e.ctx a).any fun te => (f.range te a).isSome
    | none => false
/-- The parts of an entry of a tile's core, as far as translations stand. -/
def State.entryParts (s : State) (tile : Nat) (e : StoreEntry) : List StorePart :=
  match e.form.ranges, s.placed tile e.ctx e.addr with
  | none, te => if s.tailVoid tile e then [] else [⟨some e.addr, te.map (·.pa e.addr), e.bytes⟩]
  | some _, none => []
  | some _, some te => (s.storeParts e.ctx te e.addr e.bytes e.form).mapIdx fun j p => ⟨if j = 0 then some e.addr else none, some p.1, p.2.2⟩
/-- The byte that a part gives an access, found by its address in the entry's context, or by its place where one of the two is a scale. -/
def StorePart.byte (p : StorePart) (same : Bool) (va : Option Nat) (pa : Nat) : Option Byte :=
  match p.va, va with
  | some b, some a => if same = true ∧ b ≤ a then p.bytes[a - b]? else none
  | _, _ => match p.pa with
    | some b => if b ≤ pa then p.bytes[pa - b]? else none
    | none => none
/-- The byte of the youngest entry of a core's store buffer that covers it (R154, R251). -/
def State.bufferByte (s : State) (r : CoreRef) (ctx : Nat) (va : Option Nat) (pa : Nat) : Option Byte :=
  (s.core r).sbuf.reverse.findSome? fun e => (s.entryParts r.tile e).findSome? fun p => p.byte (e.ctx == ctx) va pa
/-- Whether an entry's scales lie among some bytes of memory. -/
def State.scalesIn (s : State) (tile : Nat) (e : StoreEntry) (pa n : Nat) : Bool :=
  (s.entryParts tile e).any fun p => p.va.isNone && (match p.pa with | some b => decide (b < pa + n) && decide (pa < b + p.bytes.length) | none => false)

/-- What precedes an atomic, a full/empty operation or a `dur` write at the home (R258): the core's older entries of its line, and
the fence of its scope. -/
def State.atHome (s0 : State) (i : Instr) (sc : Scope) (a pa : Nat) (s : State) : M State :=
  let l := 64 * (a / 64)
  let ctx := s.myKernel.ctx
  if s.myCore.sbuf.any (fun e => decide (e.seq < s.mySeq) && (e.covers ctx l 64 || s.scalesIn s.cur.tile e (64 * (pa / 64)) 64)) ||
     s.myTile.side.any (fun e => e.core == s.cur.core && decide (e.seq < s.mySeq) && e.covers ctx l 64) then holdM s0 i tagOrder none
  else do
    s0.fenceOf i sc s
    pure s

/-! ## Reading global memory (13 R251) -/

/-- Whether an address lies among the seal words of a context, which are read at their home and never through a reflection (R246, R253). -/
def Context.sealWord (c : Context) (a : Nat) : Bool := a / 2 ^ 13 == c.sealb.toNat
/-- Whether a line of a context lies in a bound range and may have a reflection (R246, R247, R253). -/
def State.boundLine (s : State) (ctx l : Nat) : Bool :=
  match s.context? ctx with
  | some c => !c.sealWord l && c.sbind.any fun b => decide (b.start ≤ l) && decide (l + 64 ≤ b.start + b.len)
  | none => false
/-- The reflection on a die of the line of an address under a translation. -/
def State.reflection? (s : State) (die ctx : Nat) (e : TEntry) (a : Nat) : Option Reflection :=
  let l := 64 * (a / 64)
  s.reflections.find? fun r => r.die == die && r.ctx == ctx && r.va == l && r.pa == e.pa l && r.key == e.key
/-- A byte as a load of a core finds it: store buffer, reflection, home (R251); with whether it came from the home, and whether its word is
poisoned where it was found. -/
def State.loadByte (s : State) (r : CoreRef) (ctx : Nat) (e : TEntry) (a : Nat) : Byte × Bool × Bool :=
  match s.bufferByte r ctx (some a) (e.pa a) with
  | some b => (b, false, false)
  | none =>
    match s.reflection? (tileDie r.tile) ctx e a with
    | some f => (f.bytes.getD (a % 64) 0, false, f.bad.contains (a % 64 / 8))
    | none => ((s.homeBytes e.key (e.pa a) 1).headD 0, true, s.poisoned (e.pa a) 1)
/-- The scale byte `j` of the granule at an address as a load finds it, in the same way (R154, R266). -/
def State.scaleByte (s : State) (r : CoreRef) (ctx : Nat) (e : TEntry) (a : Nat) (f : FmtRange) (j : Nat) : Byte × Bool × Bool :=
  let q := f.scale (e.pa a)
  match s.bufferByte r ctx none (q.1 + j) with
  | some b => (b, false, false)
  | none =>
    match s.reflection? (tileDie r.tile) ctx e a with
    | some x => let k := q.2 * (a % 64 / 32) + j; (x.scales.getD k 0, false, x.bad.contains (8 + k))
    | none => ((s.homeBytes (s.frameKey ctx (q.1 + j) e.key) (q.1 + j) 1).headD 0, true, s.poisoned (q.1 + j) 1)
/-- Leaves a reflection of a line that a load read at its home, where R253 permits one. -/
def State.leave (s : State) (die ctx : Nat) (e : TEntry) (a : Nat) : State :=
  let l := 64 * (a / 64)
  match homeOf (e.pa l) with
  | some m =>
    if m.cls die = .far ∧ s.boundLine ctx l = true ∧ (s.reflection? die ctx e a).isNone = true then
      { s with reflections := (s.reflections.filter fun r => !(r.die == die && r.ctx == ctx && r.va == l)) ++
                [s.refresh ⟨die, ctx, l, e.pa l, e.key, [], [], []⟩] }
    else s
  | none => s
/-- Whether a store of the side log would write some bytes of memory (R366); `sc`: as scales of a granule (R154). -/
def State.sideScale (s : State) (tile pa n : Nat) (sc : Bool) : Bool :=
  (s.tile tile).side.any fun e => match e.work with
    | .store bs f => (s.entryParts tile ⟨e.seq, e.h, e.ctx, e.addr, bs, e.home, f, e.lid, e.since⟩).any fun p =>
        (p.va.isNone || !sc) && match p.pa with | some b => decide (b < pa + n) && decide (pa < b + p.bytes.length) | none => false
    | .red .. => false
/-- Reads bytes of one line of global memory for a load of the current thread (R251, R265, R366): a byte that an entry of the side log covers, as an
element or as a scale of a granule, is waited for, and so is one that an undecided `st.g` may write. -/
def State.loadPiece (s0 : State) (i : Instr) (kind : Nat) (ea : Int) (a n : Nat) (s : State) : M (List Byte × State) :=
  let ctx := s.myKernel.ctx
  if s.myTile.side.any (fun e => e.covers ctx a n) || s.myCore.sbuf.any (fun e => e.covers ctx a n && s.tailOpen s.cur.tile e) then
    holdM s0 i tagSide none
  else do
    let e ← s0.translate i kind false ea a s
    if s.sideScale s.cur.tile (e.pa a) n true then holdM s0 i tagSide none
    let bs := (List.range n).map fun k => s.loadByte s.cur.coreRef ctx e (a + k)
    if bs.any (·.2.2) then poisonM s0 kind ctx (e.pa a) n (w64 ea)
    else .ok (bs.map (·.1), if bs.any (·.2.1) then (s.found s.cur kind ctx (e.pa a) n).leave (tileDie s.cur.tile) ctx e a else s)

/-- Reads the bytes of a region of a die's weight store (R161, R162). -/
def State.loadWs (s0 : State) (i : Instr) (ea : Int) (die region off n : Nat) (s : State) : M (List Byte × State) :=
  let listed := match s.launch? s.myKernel.lid with
    | some l => ((if die = 0 then l.ws.1 else l.ws.2).getLsbD region)
    | none => false
  if !listed then trapM s0 .access (w64 ea)
  else if (s.cycle + 2 ^ 26 - 1024 * region) % 65536 < 256 then holdM s0 i tagRefresh none
  else if s.poisoned (wsKey die off) n then poisonM s0 0 s.myKernel.ctx (wsKey die off) n (w64 ea)
  else .ok (s.bytesAt (wsKey die off) n, s.found s.cur 0 s.myKernel.ctx (wsKey die off) n)

/-! ## Performing stores -/

/-- The memory unit's own request for a granule of the side log (R362, R366). -/
def State.storeMiss (s : State) (kind tile : Nat) (core : Fin 3) (ctx a : Nat) : State :=
  s.sendMiss tile ⟨kind, a, ctx, 0, 0, none, none, core, false, false⟩

/-- A write of part of a word reads it first, and finds the soft errors there (R157, R158, R371). -/
def State.rewrite (s : State) (t : ThreadRef) (kind ctx k n : Nat) : State :=
  if s.latent.isEmpty then s
  else ((wordsOf k n).filter fun w => !(wholeWords k n).contains w).foldl (fun (z : State) w => z.found t kind ctx (8 * w) 8) s
/-- Performs a posted store at its home under a translation entry (R154, R252): the parts of a granule in one step. -/
def State.performStore (s : State) (t : ThreadRef) (seq ctx : Nat) (te : TEntry) (a : Nat) (bs : List Byte) (f : StoreForm) : State :=
  (s.storeParts ctx te a bs f).foldl (fun (z : State) p =>
    let n := p.2.2.length
    ((if z.merges p.1 n then z.count t.coreRef 9 else z).rewrite t 1 ctx p.1 n).homeWrite (tileDie t.tile)
      (some ⟨t.coreRef, seq, ctx, a, f.span a bs.length⟩) p.2.1 p.1 p.2.2) s

/-- The class and home that a TLB gives an entry when it is taken (R249). -/
def State.homeFor (s : State) (tile ctx a : Nat) : Option (HClass × Home) :=
  (s.tlb? tile ctx a).bind fun e => (homeOf (e.pa a)).map fun m => (m.cls (tileDie tile), m)
/-- The current thread's access that writes `n` bytes at an address, as what it writes remembers it. -/
def State.writer (s : State) (va n : Nat) : Writer := ⟨s.cur.coreRef, s.mySeq, s.myKernel.ctx, va, n⟩

/-! ## Replies (04 R70) -/

/-- A thread's held wait for a reply ends (R219). -/
def State.wakeReply (s : State) (t : ThreadRef) (wake : Bool) : State :=
  let x := s.thread t
  match x.wait with
  | some w => if wake ∧ w.why = .reply then s.setThread t { x with wait := none, st := if x.st = .waiting then .ready else x.st } else s
  | none => s

/-- Writes an exact integer that arrives for a copy through R69: the name takes it, or the thread is given WIDTH (or RNG, where the
rounding takes a draw) for its next slot (R70). `old`: WIDTH keeps the integer in TVAL (R268). -/
def State.landAs (s : State) (t : ThreadRef) (n : BitVec 9) (x : Int) (old : Bool) : State :=
  let e := entOf (s.kernel t) (.cat n)
  let y := s.thread t
  if e.kind.isFloat then
    let md := rmodeOf .attr e
    let j := y.ridx.toNat
    if md = .rst ∧ j + 1 ≥ 2 ^ 24 then s.asyncTrap t .rng (reasonVal 1 j)
    else
      let dr := if md = .rst then drawOf y.rkey.toNat y.rpos.toNat j else 0
      let y1 := if md = .rst then { y with ridx := BitVec.ofNat 24 (j + 1), rlast := n64 dr } else y
      match fpWrite e.kind.ff e.mode md (dr % 2 ^ 24) (FVal.int x).x with
      | .inl c => s.setThread t (y1.setName n.toNat (BitVec.ofNat 528 c))
      | .inr v => s.asyncTrap t .width (if old then w64 x else v)
  else match r69 e.kind e.width e.mode x with
    | some v => s.setThread t (y.setName n.toNat (patOf e.width v))
    | none => s.asyncTrap t .width (w64 x)

/-- The same with the TVAL of R69. -/
def State.landInt (s : State) (t : ThreadRef) (n : BitVec 9) (x : Int) : State := s.landAs t n x false
/-- The word that a reply sends to a port. -/
def ReplyVal.word : ReplyVal → Word64
  | .int x => w64 x
  | .old x => w64 x
  | .pat q => q.setWidth 64
/-- Delivers a reply to its destination; none while a port has no room for its word. -/
def State.deliver (s : State) (r : CoreRef) (p : Reply) : Option State :=
  let t : ThreadRef := ⟨r.tile, r.core, p.h⟩
  let word : Word64 := p.val.word
  let s0 := { s with cur := t }
  let back : State → State := fun z => ({ z with cur := s.cur }).wakeReply t p.wake
  match p.dest with
  | .cat n =>
    (match p.val with
    | .int x => some (back (s0.landInt t n x))
    | .old x => some (back (s0.landAs t n x true))
    | .pat q => some (back (s0.putName n (BitVec.ofNat 528 (q.toNat % 2 ^ (entOf (s.kernel t) p.dest).width)))))
  | .fixed .portEng =>
    (match s0.writeEng (.sysNop ⟨.base, .none, 0⟩) word s0 with
    | .ok z => some (back z)
    | .error _ => none)
  | .fixed f =>
    (match portDir (.fixed f) with
    | some d => if (s0.outbound d).length ≥ 16 then none else some (back (s0.pushOut d [word]))
    | none => some (back s0))

/-- The current instruction completes but for its reply, which holds the thread (R70, R250). `s0`: the state before it. -/
def State.await (s0 : State) (h : Hdr) (i : Instr) (d : NameRef) (v : ReplyVal) (s : State) : State :=
  let x := s.me
  let s1 := s.setMe (x.behind (Hdr.len h) { s0.newWait i .reply with pc := x.pc, since := s.cycle, took := s0.tookOf i })
  s1.setMyCore { s1.myCore with replies := s1.myCore.replies ++ [⟨s.cur.h, d, v, true, none, none⟩] }
/-- The reply just sent for, changed. -/
def State.modLastReply (s : State) (f : Reply → Reply) : State :=
  s.setMyCore { s.myCore with replies := s.myCore.replies.mapIdx fun k p => if k + 1 = s.myCore.replies.length ∧ p.h = s.cur.h ∧ s.me.st = .waiting then f p else p }
/-- The reply just sent for answers an access of global bytes: what has translated under an entry has not returned its data before it (R370). -/
def State.readsAt (s : State) (a n : Nat) : State := s.modLastReply fun p => { p with glob := some (a, n) }
/-- The reply just sent for answers an access at an address of the global space; it comes from another module where the access went to a place
there (R384). -/
def State.viaHome (s : State) (pa a : Nat) : State :=
  s.modLastReply fun p => { p with glob := some (a, 64), peer := if homeOf pa = some .peer then some a else p.peer }
/-- The same by the translation of the address. -/
def State.viaPeer (s : State) (a : Nat) : State :=
  match s.tlb? s.cur.tile s.myKernel.ctx a with
  | some e => s.viaHome (e.pa a) a
  | none => s

/-- A destination of a reply that is a mesh port must lie inside the gang (R65). -/
def State.portCheck (s0 : State) (d : NameRef) (s : State) : M Unit :=
  match portDir d with
  | some dir => if s.neighbourIn dir then .ok () else trapM s0 .access (n64 (dirName dir))
  | none => .ok ()

/-- The index of the first reply of a core that can be delivered now, counted from `k`. -/
def State.firstReply (s : State) (r : CoreRef) : Nat → List Reply → Option (Nat × State)
  | _, [] => none
  | k, p :: l => match s.deliver r p with
    | some z => some (k, z)
    | none => s.firstReply r (k + 1) l

/-- ASYNC_WRITE: an asynchronous write to a named copy completes (R70); while a repack holds its kernel it joins the held writes
(R78). -/
def execAsyncWrite (r : CoreRef) (s : State) : Host.Outcome State Fault Refusal :=
  let c := s.core r
  let frozen : Reply → Bool := fun p => match c.repack, c.kernelOf p.h with
    | some q, some k => q.sb == k.sb
    | _, _ => false
  match c.replies.find? frozen, c.repack with
  | some p, some q => .next (s.setCore r { c with replies := c.replies.erase p, repack := some { q with held := q.held ++ [p] } })
  | _, _ =>
    match s.firstReply r 0 c.replies with
    | some (k, z) => .next (z.setCore r { z.core r with replies := (z.core r).replies.eraseIdx k })
    | none => .refused (.notEnabled "ASYNC_WRITE: no reply can be delivered")

end Sys2Proof.Machine
end

