-- ==== Sys2Proof/Machine/Access.lean ====
section
/-! DEFINITION. Loads and stores, atomics, full/empty operations and seals: `ld`, `st`, `amo`, `fe`, `sync` (11 R211 to R213, 14 R263
to R273). -/
namespace Sys2Proof.Machine

/-! ## Loads and stores (R263 to R266) -/

/-- A source as the bits a store takes: an integer by its value, any other kind by its pattern (R63, R265). -/
def Src.bitsOf (x : Src) (w : Nat) : Nat := if x.ent.kind.isInt then wrapNat w x.val else x.pat % 2 ^ w

/-- Whether `d` fits a plain access of N bytes, N at most 8 (R264). -/
def State.plainKind (s : State) (d : NameRef) (n : Nat) : Bool :=
  let e := s.ent d
  !e.kind.isGran && (!e.kind.isFloat || e.width == 8 * n)
/-- Whether `d` fits a granule access (R264). -/
def State.granKind (s : State) (d : NameRef) : Bool :=
  match d with
  | .cat _ => (s.ent d).kind.isGran || (s.ent d).kind == .raw
  | .fixed _ => false

/-- The effective address: one in no window traps as it is formed (R211), then comes the check for alignment (R265, log 90). -/
def State.effective (s0 : State) (v : Int) (n : Nat) : M Int :=
  if s0.window s0.me v = .none then trapM s0 .access (w64 v)
  else if v % n ≠ 0 then trapM s0 .align (w64 v) else .ok v

/-- The value a load of N bytes gives `d` (R265). -/
def State.loadVal (s : State) (d : NameRef) (n x : Nat) : ReplyVal :=
  let e := s.ent d
  if n = 64 ∨ e.kind.isFloat = true then .pat (BitVec.ofNat 528 x)
  else if e.kind = .sint then .int (signedOf (8 * n) x)
  else .int x

/-- Completes a load from local memory: the value is written before the thread issues again (R158). -/
def State.landNow (s0 : State) (i : Instr) (h : Hdr) (d : NameRef) (v : ReplyVal) (s : State) : M State := do
  let s1 ← (match v with
    | .int x => s0.writeOne i d x s
    | .old x => s0.writeKeep i d x s
    | .pat p => s0.putPat i d p.toNat s)
  pure (s1.done h)

/-- The bytes of an address range outside local memory, piece by piece (R250, R251). -/
def State.loadPieces (s0 : State) (i : Instr) (ea : Int) : List (Nat × Nat) → State → M (List Byte × State)
  | [], s => .ok ([], s)
  | (a, n) :: l, s =>
    match s.globWin a with
    | .glob g => do
      let (bs, s1) ← s0.loadPiece i 0 ea g n s
      let (cs, s2) ← s0.loadPieces i ea l s1
      pure (bs ++ cs, s2)
    | .ws die region off => do
      let (bs, s1) ← s0.loadWs i ea die region off n s
      let (cs, s2) ← s0.loadPieces i ea l s1
      pure (bs ++ cs, s2)
    | _ => trapM s0 .access (w64 ea)

/-- A global address as a number. -/
def Win.addr : Win → Nat | .loc a => a | .glob g => g | .ws d r o => 0xE0_0000_0000_0000 + (2 ^ 30 * d + o) + 0 * r | .none => 0

/-- Reads local bytes for a load of the current thread (R171, R371). -/
def State.loadLocal (s0 : State) (i : Instr) (ea : Int) (a n : Nat) (s : State) : M (List Byte × State) :=
  if a + n > 0x8_0000 then trapM s0 .access (w64 ea)
  else if s.boardW s.cur.tile a n then holdM s0 i tagBoard none
  else if s.poisoned (localKey s.cur.tile a) n then poisonM s0 0 s.myKernel.ctx (localKey s.cur.tile a) n (w64 ea)
  else .ok (s.bytesAt (localKey s.cur.tile a) n, s.found s.cur 0 s.myKernel.ctx (localKey s.cur.tile a) n)

/-- The course of `ld.b` to `ld.v` (R265). -/
def loadM (s : State) (i : Instr) (h : Hdr) (d a : NameRef) (off : BitVec 32) (n : Nat) : M State := do
  let s1 ← s.issue i h [a] [d] (illUnless i (if n = 64 then isCat d else s.plainKind d n))
  let (x, s2) ← s.read i h a s1
  let ea ← s.effective (x.val + off.toInt) n
  s.portCheck d s2
  match s2.window s2.me ea with
  | .loc l => do
    let (bs, s3) ← s.loadLocal i ea l n s2
    s.landNow i h d (s2.loadVal d n (natOfBytes bs)) s3
  | .none => trapM s .access (w64 ea)
  | w => do
    let (bs, s3) ← s.loadPieces i ea [(w.addr, n)] s2
    pure ((s.await h i d (s3.loadVal d n (natOfBytes bs)) s3).viaPeer w.addr)

/-- `ld.b` (R263 to R265). -/
def execLdB (h : Hdr) (d a : NameRef) (off : BitVec 32) (s : State) : Host.Outcome State Fault Refusal :=
  finish (loadM s (.ldB h d a off) h d a off 1)
/-- `ld.h` (R263 to R265). -/
def execLdH (h : Hdr) (d a : NameRef) (off : BitVec 32) (s : State) : Host.Outcome State Fault Refusal :=
  finish (loadM s (.ldH h d a off) h d a off 2)
/-- `ld.w` (R263 to R265). -/
def execLdW (h : Hdr) (d a : NameRef) (off : BitVec 32) (s : State) : Host.Outcome State Fault Refusal :=
  finish (loadM s (.ldW h d a off) h d a off 4)
/-- `ld.d` (R263 to R265). -/
def execLdD (h : Hdr) (d a : NameRef) (off : BitVec 32) (s : State) : Host.Outcome State Fault Refusal :=
  finish (loadM s (.ldD h d a off) h d a off 8)
/-- `ld.v` (R263 to R265). -/
def execLdV (h : Hdr) (d a : NameRef) (off : BitVec 32) (s : State) : Host.Outcome State Fault Refusal :=
  finish (loadM s (.ldV h d a off) h d a off 64)

/-- The entry of a format range for a granule at an address, with the checks of R266. -/
def State.granRange (s0 : State) (ea : Int) (pa : Nat) (d : NameRef) (s : State) : M (Option FmtRange) :=
  match s.frFind pa with
  | none => pure none
  | some f =>
    if ea % 32 ≠ 0 then trapM s0 .align (w64 ea)
    else if f.takes (s.ent d).kind then pure (some f) else trapM s0 .access (w64 ea)

/-- Reads the granule at an address of a format range (R153, R154, R266): its elements, then its scales, at one moment. -/
def State.loadGran (s0 : State) (i : Instr) (ea : Int) (g : Nat) (f : FmtRange) (e : TEntry) (s : State) : M (Nat × State) := do
  let q := f.scale (e.pa g)
  let ctx := s.myKernel.ctx
  if s.sideScale s.cur.tile q.1 q.2 false then holdM s0 i tagSide none
  let ss := (List.range q.2).map fun j => s.scaleByte s.cur.coreRef ctx e g f j
  let (es, s1) ← s0.loadPiece i 0 ea g 32 s
  if ss.any (·.2.2) then poisonM s0 0 ctx q.1 q.2 (w64 ea)
  pure (granPat (f.fmt == fmtE2m1) es (ss.map (·.1)), if ss.any (·.2.1) then s1.found s1.cur 0 ctx q.1 q.2 else s1)

/-- The course of `ld.g` (R266). -/
def loadGM (s : State) (i : Instr) (h : Hdr) (d a : NameRef) (off : BitVec 32) : M State := do
  let s1 ← s.issue i h [a] [d] (illUnless i (s.granKind d))
  let (x, s2) ← s.read i h a s1
  let ea ← s.effective (x.val + off.toInt) 8
  match s2.window s2.me ea with
  | .loc l => do
    let (bs, s3) ← s.loadLocal i ea l 40 s2
    s.landNow i h d (.pat (BitVec.ofNat 528 (natOfBytes bs))) s3
  | .none => trapM s .access (w64 ea)
  | .ws die r o => do
    let (bs, s3) ← s.loadPieces i ea (linePieces (Win.addr (.ws die r o)) 40) s2
    pure (s.await h i d (.pat (BitVec.ofNat 528 (natOfBytes bs))) s3)
  | .glob g => do
    let e ← s.translate i 0 false ea g s2
    match ← s.granRange ea (e.pa g) d s2 with
    | none => do
      if s2.window s2.me (ea + 39) = .none then trapM s .access (w64 ea)
      let (bs, s3) ← s.loadPieces i ea (linePieces g 40) s2
      pure ((s.await h i d (.pat (BitVec.ofNat 528 (natOfBytes bs))) s3).viaPeer g)
    | some f => do
      let (p, s3) ← s.loadGran i ea g f e s2
      pure ((s.await h i d (.pat (BitVec.ofNat 528 p)) s3).viaPeer g)
/-- `ld.g` (R266). -/
def execLdG (h : Hdr) (d a : NameRef) (off : BitVec 32) (s : State) : Host.Outcome State Fault Refusal :=
  finish (loadGM s (.ldG h d a off) h d a off)

/-- A store to local memory: it waits on any entry of the scoreboard, merges into poisoned words and completes (R158, R171). -/
def State.storeLocal (s0 : State) (i : Instr) (ea : Int) (a : Nat) (bs : List Byte) (s : State) : M State :=
  let n := bs.length
  let k := localKey s.cur.tile a
  if a + n > 0x8_0000 then trapM s0 .access (w64 ea)
  else if s.boardAny s.cur.tile a n then holdM s0 i tagBoard none
  else .ok (((if s.merges k n then s.count s.cur.coreRef 9 else s).rewrite s.cur 1 s.myKernel.ctx k n).putBytes k bs)

/-- Appends posted entries to the shared store buffer of the current core, in the order in which the port passes them (R249, R250). -/
def State.post (s0 : State) (i : Instr) (ps : List (Nat × List Byte × StoreForm)) (s : State) : M State :=
  let c := s.myCore
  if c.sbuf.length + ps.length > 64 || s.portHeld then holdM s0 i tagStore none
  else
    let ctx := s.myKernel.ctx
    let seq := max s.mySeq ((c.sbuf.getLast?.map (·.seq)).getD 0)
    .ok (s.setMyCore { c with sbuf := c.sbuf ++ ps.map fun p =>
      ⟨seq, s.cur.h, ctx, p.1, p.2.1, s.homeFor s.cur.tile ctx p.1, p.2.2, s.myKernel.lid, s.cycle⟩ })

/-- The bytes of a store cut at its line (R249). -/
def cutLines (a : Nat) (bs : List Byte) : List (Nat × List Byte × StoreForm) :=
  (linePieces a bs.length).map fun p => (p.1, (bs.drop (p.1 - a)).take p.2, .plain)

/-- The course of `st.b` to `st.v` (R265). -/
def storeM (s : State) (i : Instr) (h : Hdr) (d a : NameRef) (off : BitVec 32) (n : Nat) : M State := do
  let s1 ← s.issue i h [a, d] [] (illUnless i (if n = 64 then isCat d else s.plainKind d n))
  let (x, s2) ← s.read i h a s1
  let (y, s3) ← s.read i h d s2
  let ea ← s.effective (x.val + off.toInt) n
  let bs := bytesOfNat n (y.bitsOf (8 * n))
  match s3.window s3.me ea with
  | .loc l => do
    let s4 ← s.storeLocal i ea l bs s3
    pure (s4.done h)
  | .glob g => do
    let s4 ← s.post i (cutLines g bs) s3
    pure (s4.done h)
  | _ => trapM s .access (w64 ea)

/-- `st.b` (R263 to R265). -/
def execStB (h : Hdr) (d a : NameRef) (off : BitVec 32) (s : State) : Host.Outcome State Fault Refusal :=
  finish (storeM s (.stB h d a off) h d a off 1)
/-- `st.h` (R263 to R265). -/
def execStH (h : Hdr) (d a : NameRef) (off : BitVec 32) (s : State) : Host.Outcome State Fault Refusal :=
  finish (storeM s (.stH h d a off) h d a off 2)
/-- `st.w` (R263 to R265). -/
def execStW (h : Hdr) (d a : NameRef) (off : BitVec 32) (s : State) : Host.Outcome State Fault Refusal :=
  finish (storeM s (.stW h d a off) h d a off 4)
/-- `st.d` (R263 to R265). -/
def execStD (h : Hdr) (d a : NameRef) (off : BitVec 32) (s : State) : Host.Outcome State Fault Refusal :=
  finish (storeM s (.stD h d a off) h d a off 8)
/-- `st.v` (R263 to R265). -/
def execStV (h : Hdr) (d a : NameRef) (off : BitVec 32) (s : State) : Host.Outcome State Fault Refusal :=
  finish (storeM s (.stV h d a off) h d a off 64)

/-- The entries of an `st.g` that finds no translation: its form is decided as it is performed (R364, R366); what it would write into the next line
is an entry of its own. -/
def lateEntries (k : Kind) (fr : Vector (Vector FmtRange 32) 2) (past : Bool) (g : Nat) (bs : List Byte) : List (Nat × List Byte × StoreForm) :=
  (g, bs, .late k fr past) :: (if past then [] else if g % 64 + bs.length ≤ 64 then [] else [(g + (64 - g % 64), bs.drop (64 - g % 64), .tail)])
/-- The course of `st.g` (R266). A global one that finds its translation has its form, and its checks, at issue (log 23). -/
def storeGM (s : State) (i : Instr) (h : Hdr) (d a : NameRef) (off : BitVec 32) : M State := do
  let s1 ← s.issue i h [a, d] [] (illUnless i (s.granKind d))
  let (x, s2) ← s.read i h a s1
  let (y, s3) ← s.read i h d s2
  let ea ← s.effective (x.val + off.toInt) 8
  let bs := bytesOfNat 40 y.pat
  match s3.window s3.me ea with
  | .loc l => do
    let s4 ← s.storeLocal i ea l bs s3
    pure (s4.done h)
  | .glob g => do
    let past := s3.window s3.me (ea + 39) == .none
    let k := (s3.ent d).kind
    let es ← (match s3.tlb? s3.cur.tile s3.myKernel.ctx g with
      | none => pure (lateEntries k s3.fr past g bs)
      | some e => do
        let f ← s.granRange ea (e.pa g) d s3
        if f.isNone && past then trapM s .access (w64 ea)
        pure (if f.isSome then [(g, bs, .gran k s3.fr)] else cutLines g bs))
    let s4 ← s.post i es s3
    pure (s4.done h)
  | _ => trapM s .access (w64 ea)
/-- `st.g` (R266). -/
def execStG (h : Hdr) (d a : NameRef) (off : BitVec 32) (s : State) : Host.Outcome State Fault Refusal :=
  finish (storeGM s (.stG h d a off) h d a off)

/-! ## The queue of a word's full/empty operations (R213, R258, R269) -/

/-- The functions of `fe`. -/
inductive FeFn | ldf | ldk | stf | sto | clr | tst
  deriving DecidableEq, Repr
/-- Whether the translation is a write (R359). -/
def FeFn.isWrite : FeFn → Bool | .ldf | .tst => false | _ => true
/-- Whether the function may wait (R269). -/
def FeFn.waits : FeFn → Bool | .ldf | .ldk | .stf => true | _ => false
/-- Whether the bit lets the function go on. -/
def FeFn.goes (f : FeFn) (full : Bool) : Bool := match f with | .ldf | .ldk => full | .stf => !full | _ => true
/-- Whether the function reads its word or its check bits and so meets poison (R269). -/
def FeFn.reads : FeFn → Bool | .stf | .sto => false | _ => true

/-- The function of a full/empty instruction that may wait. -/
def feWaiter : Instr → Option FeFn
  | .feLdf .. => some .ldf
  | .feLdk .. => some .ldk
  | .feStf .. => some .stf
  | _ => none
/-- Whether a full/empty operation that has arrived before waits at the home of a word whose bit now lets it go on: it is served first (R258). -/
def State.feAhead (s : State) (key : Nat) : Bool :=
  let mine : Option (Nat × Nat) := match s.me.wait with
    | some w => if w.why.tag = some tagFull then some (w.since, w.seq) else none
    | none => none
  s.tiles.any fun p => p.2.cores.toList.any fun c => c.threads.toList.any fun x => match x.wait with
    | some w => x.st == .waiting && w.why == .retry tagFull (8 * (key / 8)) &&
        (match mine with | some m => decide (w.since < m.1) || (w.since == m.1 && decide (w.seq < m.2)) | none => true) &&
        (match feWaiter w.instr with | some f => f.goes (s.full key) | none => false)
    | none => false

/-! ## Atomics (R267, R268) -/

/-- Bytes of a size. -/
def amoBytes : AmoSize → Nat | .d => 8 | .w => 4 | .h => 2
/-- The format `fadd` adds in. -/
def amoFF : AmoSize → FF | .h => .b16 | _ => .f32

/-- What an atomic makes of the old bytes: the new bits, or none (R268). -/
abbrev AmoFn := Nat → Nat → Src → Option Nat

/-- An integer function of the old value (signed when `b` is) and B. -/
def amoInt (f : Int → Int → Int) : AmoFn := fun w m b =>
  some (wrapNat w (f (if b.ent.kind = .sint then signedOf w m else m) b.val))
/-- A bitwise function of the old bits and wrap(8N, B). -/
def amoBits (f : Nat → Nat → Nat) : AmoFn := fun w m b => some (f m (wrapNat w b.val))
/-- `fadd` (R268). -/
def amoAdd (f : FF) : AmoFn := fun _ m b =>
  let y := f.round .rne 0 ((FVal.sum .rne [f.value m, b.real]).x)
  some (if f.beyond y then f.code (.inf y.neg?) else f.code y)

/-- The old value an atomic returns (R268). -/
def State.amoOld (s : State) (d : NameRef) (fadd : Bool) (w m : Nat) (sx : Bool) : ReplyVal :=
  let e := s.ent d
  if fadd then (if e.kind.isFloat ∧ e.width = w then .pat (BitVec.ofNat 528 m) else .old m)
  else .old (if sx then signedOf w m else m)

/-- The reduction function of an atomic whose `d` is `zero` (R365). -/
def redFn : Instr → Option RedFn
  | .amoAdd .. => some .add | .amoAnd .. => some .and | .amoOr .. => some .or | .amoXor .. => some .xor
  | .amoMin .. => some .min | .amoMax .. => some .max | .amoFadd .. => some .fadd
  | _ => none

/-- Whether a side log holds an entry for the 64 KiB granule of an address of a context (R366). -/
def State.sideHas (s : State) (tile ctx a : Nat) : Bool :=
  (s.tile tile).side.any fun e => e.ctx == ctx && granuleOf e.addr == granuleOf a

/-- Whether an access has a translation and no port reaches its module (R384). -/
def State.noRoute (s : State) (tile ctx a : Nat) : Bool :=
  match s.tlb? tile ctx a with
  | some e => s.routeDown (e.pa a)
  | none => false
/-- A reduction whose page misses, or whose module no port reaches, becomes a side-log entry, and the thread goes on (R365, R366, R384). -/
def State.sideReduction (s0 : State) (i : Instr) (h : Hdr) (f : RedFn) (a n : Nat) (b : Src) (s : State) : M State :=
  let t := s.myTile
  if t.side.length ≥ 64 then holdM s0 i tagStore none
  else
    let ctx := s.myKernel.ctx
    let e : SideEntry := ⟨s.mySeq, s.cur.core, s.cur.h, ctx, a, s.homeFor s.cur.tile ctx a, .red f n (b.ent.kind == .sint) b.val b.real, s.myKernel.lid, s.cycle⟩
    let miss := s.sideHas s.cur.tile ctx a || (s.tlb? s.cur.tile ctx a).isSome
    let s1 := (s.setMyTile { t with side := t.side ++ [e] }).count s.cur.coreRef 3
    .ok ((if miss || s.blocked ctx a then s1 else s1.storeMiss 2 s.cur.tile s.cur.core ctx a).done h)

/-- Performs an atomic's step on the bits found at a key, writing through `put`; gives the old bits. -/
def amoStep (f : AmoFn) (n m : Nat) (b : Src) (put : List Byte → State) (s : State) : State :=
  match f (8 * n) m b with
  | some v => put (bytesOfNat n v)
  | none => s

/-- The course of an atomic (R268): `c` is the comparand field of `cas`; `f` is given value(c). -/
def amoM (s : State) (i : Instr) (h : Hdr) (d a b : NameRef) (c : Option NameRef) (sz : AmoSize) (sc : Scope) (fadd : Bool)
    (f : Option Src → AmoFn) : M State := do
  let n := amoBytes sz
  let s1 ← s.issue i h (a :: b :: c.toList) [d] (illUnless i (s.oneDst d && (if fadd then sz != .d else sz != .h)))
  let (x, s2) ← s.read i h a s1
  let (y, s3) ← s.read i h b s2
  let (z, s4) ← (match c with
    | none => pure (none, s3)
    | some cn => do
      let (v, t) ← s.read i h cn s3
      pure (some v, t))
  let ea ← s.effective x.val n
  s.portCheck d s4
  let sx := y.ent.kind == .sint
  match s4.window s4.me ea with
  | .loc l => do
    s.fenceOf i sc s4
    if s4.boardAny s4.cur.tile l n then holdM s i tagBoard none
    else if s4.poisoned (localKey s4.cur.tile l) n then poisonM s 2 s4.myKernel.ctx (localKey s4.cur.tile l) n (w64 ea)
    else
      let m := s4.natAt (localKey s4.cur.tile l) n
      let s4 := s4.found s4.cur 2 s4.myKernel.ctx (localKey s4.cur.tile l) n
      let s5 := amoStep (f z) n m y (fun bs => s4.putBytes (localKey s4.cur.tile l) bs) s4
      pure ((s.await h i d (s5.amoOld d fadd (8 * n) m sx) s5).undoing [s4.changed (localKey s4.cur.tile l) n s5])
  | .glob g => do
    let ctx := s4.myKernel.ctx
    let red := if d = .fixed .zero then redFn i else none
    match red, (s4.tlb? s4.cur.tile ctx g).isNone || s4.sideHas s4.cur.tile ctx g || s4.noRoute s4.cur.tile ctx g with
    | some rf, true => do
      if s4.portHeld || s4.myCore.sbuf.any fun e => decide (e.seq < s4.mySeq) && e.covers ctx (64 * (g / 64)) 64 then holdM s i tagOrder none
      s.fenceOf i sc s4
      s.sideReduction i h rf g n y s4
    | _, _ => do
      let e ← s.translate i 2 true ea g s4
      let pa := e.pa g
      let s5 ← s.atHome i sc g pa s4
      if s5.feAhead pa then holdM s i tagOrder none
      if s5.poisoned pa n then poisonM s 2 ctx pa n (w64 ea)
      let m := natOfBytes (s5.homeBytes e.key pa n)
      let s5 := s5.found s5.cur 2 ctx pa n
      let s6 := amoStep (f z) n m y (fun bs => s5.homeWrite (tileDie s5.cur.tile) (some (s5.writer g n)) e.key pa bs) s5
      let sp := keyedSpan e.key pa n
      pure (((s.await h i d (s6.amoOld d fadd (8 * n) m sx) s6).viaPeer g).undoing [s5.changed sp.1 sp.2 s6])
  | _ => trapM s .access (w64 ea)

/-- `amo.swap` (R268). -/
def execAmoSwap (h : Hdr) (d a b : NameRef) (sz : AmoSize) (sc : Scope) (s : State) : Host.Outcome State Fault Refusal :=
  finish (amoM s (.amoSwap h d a b sz sc) h d a b none sz sc false fun _ => amoInt fun _ y => y)
/-- `amo.cas` (R268). -/
def execAmoCas (h : Hdr) (d a b c : NameRef) (sz : AmoSize) (sc : Scope) (s : State) : Host.Outcome State Fault Refusal :=
  finish (amoM s (.amoCas h d a b c sz sc) h d a b (some c) sz sc false fun z w m y =>
    if m = wrapNat w ((z.map Src.val).getD 0) then some (wrapNat w y.val) else none)
/-- `amo.add` (R268). -/
def execAmoAdd (h : Hdr) (d a b : NameRef) (sz : AmoSize) (sc : Scope) (s : State) : Host.Outcome State Fault Refusal :=
  finish (amoM s (.amoAdd h d a b sz sc) h d a b none sz sc false fun _ => amoInt (· + ·))
/-- `amo.and` (R268). -/
def execAmoAnd (h : Hdr) (d a b : NameRef) (sz : AmoSize) (sc : Scope) (s : State) : Host.Outcome State Fault Refusal :=
  finish (amoM s (.amoAnd h d a b sz sc) h d a b none sz sc false fun _ => amoBits (· &&& ·))
/-- `amo.or` (R268). -/
def execAmoOr (h : Hdr) (d a b : NameRef) (sz : AmoSize) (sc : Scope) (s : State) : Host.Outcome State Fault Refusal :=
  finish (amoM s (.amoOr h d a b sz sc) h d a b none sz sc false fun _ => amoBits (· ||| ·))
/-- `amo.xor` (R268). -/
def execAmoXor (h : Hdr) (d a b : NameRef) (sz : AmoSize) (sc : Scope) (s : State) : Host.Outcome State Fault Refusal :=
  finish (amoM s (.amoXor h d a b sz sc) h d a b none sz sc false fun _ => amoBits (· ^^^ ·))
/-- `amo.min` (R268). -/
def execAmoMin (h : Hdr) (d a b : NameRef) (sz : AmoSize) (sc : Scope) (s : State) : Host.Outcome State Fault Refusal :=
  finish (amoM s (.amoMin h d a b sz sc) h d a b none sz sc false fun _ => amoInt min)
/-- `amo.max` (R268). -/
def execAmoMax (h : Hdr) (d a b : NameRef) (sz : AmoSize) (sc : Scope) (s : State) : Host.Outcome State Fault Refusal :=
  finish (amoM s (.amoMax h d a b sz sc) h d a b none sz sc false fun _ => amoInt max)
/-- `amo.fadd` (R268). -/
def execAmoFadd (h : Hdr) (d a b : NameRef) (sz : AmoSize) (sc : Scope) (s : State) : Host.Outcome State Fault Refusal :=
  finish (amoM s (.amoFadd h d a b sz sc) h d a b none sz sc true fun _ => amoAdd (amoFF sz))

/-- The step of a reduction replayed from the side log (R365, R366). -/
def redStep (f : RedFn) (n : Nat) (sx : Bool) (v : Int) (x : FVal) (m : Nat) : Nat :=
  let old : Int := if sx then signedOf (8 * n) m else m
  match f with
  | .add => wrapNat (8 * n) (old + v)
  | .and => m &&& wrapNat (8 * n) v
  | .or => m ||| wrapNat (8 * n) v
  | .xor => m ^^^ wrapNat (8 * n) v
  | .min => wrapNat (8 * n) (min old v)
  | .max => wrapNat (8 * n) (max old v)
  | .fadd =>
    let ff : FF := if n = 2 then .b16 else .f32
    let y := ff.round .rne 0 ((FVal.sum .rne [ff.value m, x]).x)
    if ff.beyond y then ff.code (.inf y.neg?) else ff.code y

/-! ## Full/empty operations (R213, R269) -/

/-- The step at the word of key `k` (R269): `put` writes the word; `bit` is the state in which its bit alone is about to change. -/
def State.feStep (s0 : State) (i : Instr) (h : Hdr) (f : FeFn) (d : NameRef) (ea : Int) (k : Nat) (word : Nat) (put bit : State) (s : State) :
    M State :=
  if f.waits && (s.feAhead k || !f.goes (s.full k)) then .error (s0.hold i (.retry tagFull k) (some (w64 ea)))
  else if s.feAhead k then holdM s0 i tagOrder none
  else if f.reads && s.poisoned k 8 then poisonM s0 2 s.myKernel.ctx k 8 (w64 ea)
  else
    let s := if f.reads then s.found s.cur 2 s.myKernel.ctx k 8 else s
    let bit := if f.reads then bit.found s.cur 2 s.myKernel.ctx k 8 else bit
    match f with
    | .ldf => .ok (s0.await h i d (.int word) s)
    | .ldk =>
      let z := bit.setFull k false
      .ok ((s0.await h i d (.int word) z).undoing [s.changed k 8 z])
    | .stf => .ok ((put.setFull k true).done h)
    | .sto => .ok ((put.setFull k true).done h)
    | .clr => .ok ((bit.setFull k false).done h)
    | .tst => .ok (s0.await h i d (.int (if s.full k then 1 else 0)) s)

/-- Whether the current operation has arrived at the home of the word at a key and waits there (R258). -/
def State.arrivedAt (s : State) (k : Nat) : Bool := s.stage == some (tagFull, k)
/-- The translation under which the current full/empty operation waits at its home, as long as it stands (R258, R370). -/
def State.homeEntry (s : State) (f : FeFn) (g : Nat) : Option TEntry :=
  (s.placed s.cur.tile s.myKernel.ctx g).filter fun e => s.arrivedAt (e.pa g) && (e.w || !f.isWrite)
/-- The course of a full/empty operation (R213, R269). One that has arrived at its home stays there, in its place and with its count, whatever its
core, its tile's TLB or the scoreboard come to meanwhile (R215, R258). -/
def feM (s : State) (i : Instr) (h : Hdr) (f : FeFn) (d a : NameRef) (off : BitVec 32) (sc : Scope) : M State := do
  let stores := f == .stf || f == .sto
  let s1 ← s.issue i h (if stores then [a, d] else [a]) (if stores || f == .clr then [] else [d])
    (illUnless i (stores || f == .clr || s.oneDst d))
  let (x, s2) ← s.read i h a s1
  let (v, s3) ← (if stores then do
      let (y, t) ← s.read i h d s2
      pure (y.bitsOf 64, t)
    else pure (0, s2))
  let ea ← s.effective (x.val + off.toInt) 8
  if !stores && f != .clr then s.portCheck d s3
  match s3.window s3.me ea with
  | .loc l => do
    let k := localKey s3.cur.tile l
    (if s.arrivedAt k then pure () else s.fenceOf i sc s3)
    if (if f.isWrite then s3.boardAny s3.cur.tile l 8 else s3.boardW s3.cur.tile l 8) then
      .error (if s.arrivedAt k then s.hold i (.retry tagFull k) (some (w64 ea)) else s.hold i (.retry tagBoard 0) none)
    else s.feStep i h f d ea k (s3.natAt k 8) (s3.putBytes k (bytesOfNat 8 v)) s3 s3
  | .glob g => do
    let (e, s4) ← (match s.homeEntry f g with
      | some e => if s.blocked s.myKernel.ctx g then .error (s.hold i (.retry tagFull (e.pa g)) (some (w64 ea))) else pure (e, s3)
      | none => do
        let e ← s.translate i 2 f.isWrite ea g s3
        let s4 ← s.atHome i sc g (e.pa g) s3
        pure (e, s4))
    let pa := e.pa g
    let who := some (s4.writer g 8)
    let s5 ← s.feStep i h f d ea pa (natOfBytes (s4.homeBytes e.key pa 8))
      (s4.homeWrite (tileDie s4.cur.tile) who e.key pa (bytesOfNat 8 v)) (s4.vaultMark who pa) s4
    pure (s5.viaHome pa g)
  | _ => trapM s .access (w64 ea)

/-- `fe.ldf` (R213). -/
def execFeLdf (h : Hdr) (d a : NameRef) (off : BitVec 32) (sc : Scope) (s : State) : Host.Outcome State Fault Refusal :=
  finish (feM s (.feLdf h d a off sc) h .ldf d a off sc)
/-- `fe.ldk` (R269). -/
def execFeLdk (h : Hdr) (d a : NameRef) (off : BitVec 32) (sc : Scope) (s : State) : Host.Outcome State Fault Refusal :=
  finish (feM s (.feLdk h d a off sc) h .ldk d a off sc)
/-- `fe.stf` (R213). -/
def execFeStf (h : Hdr) (d a : NameRef) (off : BitVec 32) (sc : Scope) (s : State) : Host.Outcome State Fault Refusal :=
  finish (feM s (.feStf h d a off sc) h .stf d a off sc)
/-- `fe.sto` (R269). -/
def execFeSto (h : Hdr) (d a : NameRef) (off : BitVec 32) (sc : Scope) (s : State) : Host.Outcome State Fault Refusal :=
  finish (feM s (.feSto h d a off sc) h .sto d a off sc)
/-- `fe.clr` (R269). -/
def execFeClr (h : Hdr) (a : NameRef) (off : BitVec 32) (sc : Scope) (s : State) : Host.Outcome State Fault Refusal :=
  finish (feM s (.feClr h a off sc) h .clr (.fixed .zero) a off sc)
/-- `fe.tst` (R269). -/
def execFeTst (h : Hdr) (d a : NameRef) (off : BitVec 32) (sc : Scope) (s : State) : Host.Outcome State Fault Refusal :=
  finish (feM s (.feTst h d a off sc) h .tst d a off sc)

/-! ## Seals (R246 to R248, R270 to R273) -/

/-- Whether a range lies in the mapped and peer windows, in words (R248). -/
def boundable (start : Int) (len : Nat) : Bool :=
  decide (start % 8 = 0) && decide (len % 8 = 0) && decide (8 ≤ len) && decide (0x8_0000 ≤ start) &&
  decide (start + len ≤ 0xE0_0000_0000_0000)
/-- Whether two ranges share a byte. -/
def SBind.overlaps (b : SBind) (start len : Nat) : Bool := decide (b.start < start + len) && decide (start < b.start + b.len)
/-- Adds a binding (R248): the table, or the reason for a refusal (R273). -/
def addBind (t : List SBind) (b : SBind) : List SBind ⊕ Nat :=
  if t.contains b then .inl t
  else if t.any fun c => c.sl != b.sl && c.overlaps b.start b.len then .inr 1
  else if t.length ≥ 1024 then .inr 3
  else .inl (t ++ [b])
/-- Discards the reflections of a context's byte range on every die that `p` picks. -/
def State.dropReflections (s : State) (p : Nat → Bool) (ctx start len : Nat) : State :=
  { s with reflections := s.reflections.filter fun r => !(p r.die && r.ctx == ctx && decide (r.va < start + len) && decide (start < r.va + 64)) }

/-- The course of `sync.bind` and `sync.unbind` (R248, R271). -/
def bindM (s : State) (i : Instr) (h : Hdr) (d a : NameRef) (add : Bool) : M State := do
  let s1 ← s.issue i h [a, d] [] none
  let (x, s2) ← s.read i h a s1
  let (y, s3) ← s.read i h d s2
  if s3.portHeld then holdM s i tagOrder none
  let w := y.pat % 2 ^ 64
  let len := fieldOf w 0 48
  let start := x.val
  if fieldOf w 58 6 ≠ 0 ∨ boundable start len = false then trapM s .seal_ (reasonVal 2 start)
  let b : SBind := ⟨fieldOf w 48 10, start.toNat, len⟩
  let ctx := s3.myKernel.ctx
  let t := ((s3.context? ctx).map (·.sbind)).getD []
  if add then
    match addBind t b with
    | .inl t' => pure ((s3.modContext ctx fun c => { c with sbind := t' }).done h)
    | .inr r => trapM s .seal_ (reasonVal r start)
  else if t.contains b then
    pure (((s3.modContext ctx fun c => { c with sbind := t.erase b }).dropReflections (fun _ => true) ctx b.start b.len).done h)
  else trapM s .seal_ (reasonVal 4 start)
/-- `sync.bind` (R248, R271). -/
def execSyncBind (h : Hdr) (d a : NameRef) (s : State) : Host.Outcome State Fault Refusal :=
  finish (bindM s (.syncBind h d a) h d a true)
/-- `sync.unbind` (R248, R271). -/
def execSyncUnbind (h : Hdr) (d a : NameRef) (s : State) : Host.Outcome State Fault Refusal :=
  finish (bindM s (.syncUnbind h d a) h d a false)

/-- The address of seal word `k` for the current thread (R246). -/
def State.sealAddr (s : State) (k : Nat) : Nat := s.me.sealb.toNat * 8192 + 8 * k
/-- The ranges bound to a seal of a context. -/
def State.sealRanges (s : State) (ctx k : Nat) : List SBind := (((s.context? ctx).map (·.sbind)).getD []).filter fun b => b.sl == k
/-- Whether a write of the current instruction is not yet durable. -/
def State.undurable (s : State) : Bool :=
  s.vwrites.any fun v => match v.who with | some w => w.core == s.cur.coreRef && w.seq == s.mySeq | none => false

/-- The course of `sync.acq` (R257). -/
def acqM (s : State) (i : Instr) (h : Hdr) (d a : NameRef) (sc : Scope) : M State := do
  let s1 ← s.issue i h [a] [d] (illUnless i (s.oneDst d))
  let (x, s2) ← s.read i h a s1
  if x.val < 0 ∨ x.val > 1023 then trapM s .seal_ (reasonVal 5 x.val)
  s.portCheck d s2
  let k := x.val.toNat
  let va := s2.sealAddr k
  match s2.globWin va with
  | .glob g => do
    let e ← s.translate i 0 false g g s2
    let ctx := s2.myKernel.ctx
    if s2.poisoned (e.pa g) 8 then poisonM s 0 ctx (e.pa g) 8 (n64 g)
    let v := natOfBytes (s2.homeBytes e.key (e.pa g) 8)
    let s2 := s2.found s2.cur 0 ctx (e.pa g) 8
    let die := tileDie s2.cur.tile
    let s3 := if sc = .dev ∨ sc = .sys ∨ sc = .recov then
        (s2.sealRanges ctx k).foldl (fun t b => t.dropReflections (· == die) ctx b.start b.len) s2 else s2
    pure ((s.await h i d (.int v) s3).readsAt g 8)
  | _ => trapM s .access (n64 va)
/-- `sync.acq` (R257, R272). -/
def execSyncAcq (h : Hdr) (d a : NameRef) (sc : Scope) (s : State) : Host.Outcome State Fault Refusal :=
  finish (acqM s (.syncAcq h d a sc) h d a sc)

/-- The course of `sync.rel` (R256, R261). -/
def relSealM (s : State) (i : Instr) (h : Hdr) (d a : NameRef) (sc : Scope) : M State :=
  match s.stage with
  | some (12, v) => if s.undurable then .error (s.hold i (.retry tagDurable v) none) else .ok (s.await h i d (.int v) s)
  | _ => do
    let s1 ← s.issue i h [a] [d] (illUnless i (s.oneDst d))
    let (x, s2) ← s.read i h a s1
    if x.val < 0 ∨ x.val > 1023 then trapM s .seal_ (reasonVal 5 x.val)
    s.portCheck d s2
    let k := x.val.toNat
    let va := s2.sealAddr k
    match s2.globWin va with
    | .glob g => do
      let e ← s.translate i 2 true g g s2
      let ctx := s2.myKernel.ctx
      let bs := s2.sealRanges ctx k
      if !s2.fenceClear sc (fun c a n => c == ctx && bs.any fun b => b.overlaps a n) then holdM s i tagFence none
      if s2.poisoned (e.pa g) 8 then poisonM s 2 ctx (e.pa g) 8 (n64 g)
      let s2 := s2.found s2.cur 2 ctx (e.pa g) 8
      let v := (natOfBytes (s2.homeBytes e.key (e.pa g) 8) + 1) % 2 ^ 64
      let s3 := s2.homeWrite (tileDie s2.cur.tile) (some (s2.writer g 8)) e.key (e.pa g) (bytesOfNat 8 v)
      let sp := keyedSpan e.key (e.pa g) 8
      let u := [s2.changed sp.1 sp.2 s3]
      if sc = .recov ∧ s3.undurable = true then .error ((s3.hold i (.retry tagDurable v) none).undoing u)
      else pure (((s.await h i d (.int v) s3).readsAt g 8).undoing u)
    | _ => trapM s .access (n64 va)
/-- `sync.rel` (R256, R272). -/
def execSyncRel (h : Hdr) (d a : NameRef) (sc : Scope) (s : State) : Host.Outcome State Fault Refusal :=
  finish (relSealM s (.syncRel h d a sc) h d a sc)

/-- The course of `sync.fence` (R255). -/
def fenceM (s : State) (i : Instr) (h : Hdr) (sc : Scope) : M State := do
  let s1 ← s.issue i h [] [] none
  s.fenceOf i sc s1
  pure (s1.done h)
/-- `sync.fence` (R255, R272). -/
def execSyncFence (h : Hdr) (sc : Scope) (s : State) : Host.Outcome State Fault Refusal := finish (fenceM s (.syncFence h sc) h sc)

/-! ## Steps of the memory system -/

/-- Whether two entries of a core cover a common byte, or might: a granule's scales count once its translation stands (R252). -/
def State.entriesMeet (s : State) (tile : Nat) (o e : StoreEntry) : Bool :=
  o.covers e.ctx e.addr e.span ||
  (s.entryParts tile o).any fun p => (s.entryParts tile e).any fun q => (p.va.isNone || q.va.isNone) &&
    (match p.pa, q.pa with | some x, some y => decide (x < y + q.bytes.length) && decide (y < x + p.bytes.length) | _, _ => false)
/-- Whether an entry of a core's store buffer may be performed before those in `l`, which precede it (R252): not before one of its thread and class
in its line, nor before one it shares a byte with; nor what an undecided `st.g` writes into the next line before the rest of it. -/
def State.sbufMay (s : State) (tile : Nat) (l : List StoreEntry) (e : StoreEntry) : Bool :=
  !(l.any fun o => (o.ctx == e.ctx && o.h == e.h && o.addr / 64 == e.addr / 64 &&
      (o.home.map (·.1) == e.home.map (·.1) || o.home.isNone || e.home.isNone)) || s.entriesMeet tile o e ||
      (e.form == .tail && o.h == e.h && o.seq == e.seq))

/-- A store entry or reduction is discarded: its fault record, and for a failure or refusal the trap its thread is given (R367). -/
def State.discardEntry (s : State) (tile : Nat) (core : Fin 3) (h : Fin 8) (ctx kind a cause : Nat) (trap : Option (Cause × Word64)) : State :=
  let s1 := s.faultRecord tile kind cause a ctx core.val h.val
  match trap with
  | some (c, v) => s1.asyncTrap ⟨tile, core, h⟩ c v
  | none => s1

/-- What is known of an undecided `st.g` once its first part has been performed or discarded: the part in the next line stands for itself, or goes
with a granule. -/
def State.settleTail (s : State) (t : ThreadRef) (seq : Nat) (gone : Bool) : State :=
  let c := s.core t.coreRef
  let z := s.setCore t.coreRef { c with sbuf := c.sbuf.filterMap fun e =>
    if e.form = .tail ∧ e.h = t.h ∧ e.seq = seq then (if gone then none else some { e with form := .plain }) else some e }
  let x := z.tile t.tile
  z.setTile t.tile { x with side := x.side.filterMap fun e => match e.work with
    | .store bs .tail => if e.core = t.core ∧ e.h = t.h ∧ e.seq = seq then (if gone then none else some { e with work := .store bs .plain }) else some e
    | _ => some e }
/-- A store whose translation stands is performed, or discarded where it breaks a rule of R266 (log 23). -/
def State.landStore (s : State) (t : ThreadRef) (seq ctx : Nat) (te : TEntry) (a : Nat) (bs : List Byte) (f : StoreForm) : State :=
  let s1 := match f with | .late _ _ _ => s.settleTail t seq (f.range te a).isSome | _ => s
  match f.breach te a with
  | some c => s1.discardEntry t.tile t.core t.h ctx 1 a 2 (some (c, n64 a))
  | none => s1.performStore t seq ctx te a bs f

/-- STORE_ENTRY_PERFORM: the machine performs an entry of a shared store buffer, or moves it to the side log: one whose page misses, one behind
others of its granule, one towards a module that no port reaches (R252, R366, R384). -/
def execStoreEntryPerform (k : CoreRef) (idx : Nat) (s : State) : Host.Outcome State Fault Refusal :=
  let c := s.core k
  match c.sbuf[idx]? with
  | none => .refused (.notEnabled "STORE_ENTRY_PERFORM: no such entry")
  | some e =>
    if !s.sbufMay k.tile (c.sbuf.take idx) e then .refused (.notEnabled "STORE_ENTRY_PERFORM: an older entry comes first")
    else
      let s1 := s.setCore k { c with sbuf := c.sbuf.eraseIdx idx }
      let toSide := (s.tlb? k.tile e.ctx e.addr).isNone || s.sideHas k.tile e.ctx e.addr || s.noRoute k.tile e.ctx e.addr
      let t := s1.tile k.tile
      let side (z : State) : State :=
        ((z.setTile k.tile { z.tile k.tile with side := (z.tile k.tile).side ++ [⟨e.seq, k.core, e.h, e.ctx, e.addr, e.home, .store e.bytes e.form, e.lid, e.since⟩] })).count k 3
      let undone : State := match e.form with | .late _ _ _ => s1.settleTail ⟨k.tile, k.core, e.h⟩ e.seq false | _ => s1
      if toSide then
        (if s.blocked e.ctx e.addr || t.side.length ≥ 64 then .refused (.notEnabled "STORE_ENTRY_PERFORM: the entry stays in its buffer")
        else .next (if s.sideHas k.tile e.ctx e.addr || (s.tlb? k.tile e.ctx e.addr).isSome then side s1 else (side s1).storeMiss 1 k.tile k.core e.ctx e.addr))
      else if e.form = .tail ∧ t.side.any (fun o => o.core == k.core && o.h == e.h && o.seq == e.seq) = true then
        .refused (.notEnabled "STORE_ENTRY_PERFORM: the first part of its store comes first")
      else match s.tlb? k.tile e.ctx e.addr with
        | some te =>
          if !te.w then .next (undone.discardEntry k.tile k.core e.h e.ctx 1 e.addr 2 (some (.access, n64 e.addr)))
          else if s.peerRefused (te.pa e.addr) true then .next (undone.discardEntry k.tile k.core e.h e.ctx 1 e.addr 2 (some (.access, n64 e.addr)))
          else if s.bankOff (te.pa e.addr) then .refused (.notEnabled "STORE_ENTRY_PERFORM: the bank is in back-off")
          else .next (s1.landStore ⟨k.tile, k.core, e.h⟩ e.seq e.ctx te e.addr e.bytes e.form)
        | none => .refused (.notEnabled "STORE_ENTRY_PERFORM: no translation")

/-- REFLECTION_EVICT: the machine discards reflections of a line at any moment (R253). -/
def execReflectionEvict (die line : Nat) (s : State) : Host.Outcome State Fault Refusal :=
  if s.reflections.any fun r => r.die == die && r.va == 64 * line then
    .next { s with reflections := s.reflections.filter fun r => !(r.die == die && r.va == 64 * line) }
  else .refused (.notEnabled "REFLECTION_EVICT: no such reflection")

/-- Whether an instruction fences at scope `rec`. -/
def fencesRec : Instr → Bool
  | .syncFence _ .recov => true
  | .syncRel _ _ _ .recov => true
  | .durCommit .. => true
  | .amoSwap _ _ _ _ _ .recov => true
  | .amoCas _ _ _ _ _ _ .recov => true
  | .amoAdd _ _ _ _ _ .recov => true
  | .amoAnd _ _ _ _ _ .recov => true
  | .amoOr _ _ _ _ _ .recov => true
  | .amoXor _ _ _ _ _ .recov => true
  | .amoMin _ _ _ _ _ .recov => true
  | .amoMax _ _ _ _ _ .recov => true
  | .amoFadd _ _ _ _ _ .recov => true
  | .feLdf _ _ _ _ .recov => true
  | .feLdk _ _ _ _ .recov => true
  | .feStf _ _ _ _ .recov => true
  | .feSto _ _ _ _ .recov => true
  | .feClr _ _ _ .recov => true
  | .feTst _ _ _ _ .recov => true
  | _ => false
/-- Whether an instruction that fences at scope `rec` waits that its core has issued before a write, and its fence is not behind it: what that fence
covers becomes durable first (R261). -/
def State.fencedOff (s : State) (v : VaultWrite) : Bool :=
  match v.who with
  | some w => (List.finRange 8).any fun h => match ((s.core w.core).threads[h]).wait with
    | some x => x.retries && x.why.tag != some tagFull && x.why.tag != some tagDurable && fencesRec x.instr && decide (x.seq < w.seq)
    | none => false
  | none => false
/-- VAULT_WRITE_DURABLE: a write held by a buffer reaches its write queue; writes to one byte in their order (R261, R352). -/
def execVaultWriteDurable (buf idx : Nat) (s : State) : Host.Outcome State Fault Refusal :=
  let l := s.vwrites.filter fun v => v.buf == buf
  match l[idx]? with
  | none => .refused (.notEnabled "VAULT_WRITE_DURABLE: no such write")
  | some v =>
    if (l.take idx).any fun o => decide (o.addr < v.addr + v.old.length) && decide (v.addr < o.addr + o.old.length) then
      .refused (.notEnabled "VAULT_WRITE_DURABLE: an older write of the byte comes first")
    else if s.fencedOff v then .refused (.notEnabled "VAULT_WRITE_DURABLE: a fence of its core comes first")
    else .next { s with vwrites := s.vwrites.erase v }

/-- FE_WAIT_SATISFIED: a waiting full/empty operation finds its bit and is performed (R213, R258). -/
def execFeWaitSatisfied (t : ThreadRef) (s : State) : Host.Outcome State Fault Refusal :=
  let x := s.thread t
  let s1 := { s with cur := t }
  let out : Host.Outcome State Fault Refusal := match x.wait with
    | some w =>
      (match w.why, w.instr with
      | .retry 10 _, .feLdf h d a off sc => execFeLdf h d a off sc s1
      | .retry 10 _, .feLdk h d a off sc => execFeLdk h d a off sc s1
      | .retry 10 _, .feStf h d a off sc => execFeStf h d a off sc s1
      | _, _ => .refused (.notEnabled "FE_WAIT_SATISFIED: the thread waits for no word"))
    | none => .refused (.notEnabled "FE_WAIT_SATISFIED: the thread does not wait")
  match out with
  | .next z =>
    (match (z.thread t).wait with
    | some w => if w.why.same (.retry tagFull 0) then .refused (.notEnabled "FE_WAIT_SATISFIED: the bit still holds the thread")
        else .next { z with cur := s.cur }
    | none => .next { z with cur := s.cur })
  | o => o

end Sys2Proof.Machine
end

