-- ==== Sys2Proof/Machine/Repack.lean ====
section
/-! DEFINITION. Packing and repacking names: `wid.width`, `wid.fits`, `wid.resize` and the end of a repack (04 R71 to R80, 06 R112). -/
namespace Sys2Proof.Machine

/-! ## The packing (R71) -/

/-- Puts a name (number, width) behind every name that is at least as wide. -/
def insByWidth (e : Nat × Nat) : List (Nat × Nat) → List (Nat × Nat)
  | [] => [e]
  | x :: l => if x.2 ≥ e.2 then x :: insByWidth e l else e :: x :: l
/-- Names by decreasing width, ties by increasing number. -/
def packOrder (ws : List Nat) : List (Nat × Nat) := (ws.zipIdx.map fun p => (p.2, p.1)).foldl (fun l e => insByWidth e l) []
/-- A copy placed in the lowest row with room: the row, the bit, and the rows' new fill. -/
def placeCopy (w : Nat) : List Nat → Nat → Nat × Nat × List Nat
  | [], r => (r, 0, [w])
  | f :: l, r => if f + w ≤ 528 then (r, f, (f + w) :: l) else let p := placeCopy w l (r + 1); (p.1, p.2.1, f :: p.2.2)
/-- The places of every copy, (name, thread, row, bit), and the rows' fill, for names in order. -/
def placeAll (n : Nat) (order : List (Nat × Nat)) : List (Nat × Nat × Nat × Nat) × List Nat :=
  order.foldl (fun acc e => (List.range n).foldl (fun a t =>
    let p := placeCopy e.2 a.2 0
    ((e.1, t, p.1, p.2.1) :: a.1, p.2.2)) acc) ([], [])
/-- The rows a kernel needs (R71). -/
def rowsNeeded (ws : List Nat) (n : Nat) : Nat := (placeAll n (packOrder ws)).2.length
/-- The rows' contents for the copies `val name thread` (R71, R73): bits outside every copy are 0. -/
def packRows (ws : List Nat) (n : Nat) (val : Nat → Nat → Nat) (l : Nat) : List Nat :=
  let ps := (placeAll n (packOrder ws)).1
  (List.range l).map fun r => (ps.filter fun p => p.2.2.1 == r).foldl (fun acc p => acc + val p.1 p.2.1 * 2 ^ p.2.2.2) 0

/-- The current widths of a kernel's names. -/
def Kernel.widths (k : Kernel) : List Nat := k.cat.map (·.width)
/-- The kernel's copies on a core, by name and thread. -/
def Core.copyOf (c : Core) (k : Kernel) (m t : Nat) : Nat :=
  if h : k.sb + t < 8 then (c.threads[k.sb + t].name m).toNat else 0
/-- The rows of a kernel on a core as they stand. -/
def Core.rowsOf (c : Core) (k : Kernel) : List Nat := packRows k.widths k.n (c.copyOf k) (k.rows + k.reserve)

/-! ## wid.width and wid.fits (R112) -/

/-- The course of `wid.width`: the width of `a`, which is not read. -/
def widthM (s : State) (i : Instr) (h : Hdr) (d a : NameRef) : M State := do
  let s1 ← s.issue i h [] [a, d] (illUnless i (s.intDst d))
  let s2 ← s.writeInt i d (s.ent a).width s1
  pure (s2.done h)
/-- `wid.width` (R112). -/
def execWidWidth (h : Hdr) (d a : NameRef) (s : State) : Host.Outcome State Fault Refusal :=
  finish (widthM s (.widWidth h d a) h d a)

/-- Whether a value lies in the value set of a kind at width n; any kind but `sint` counts as `uint` (R112). -/
def fitsAt (k : Kind) (n : Int) (x : Int) : Bool :=
  decide (1 ≤ n) && (if k = .sint then (let m := (n - 1).toNat; if m ≥ 1200 then true else decide (-(2 ^ m : Int) ≤ x) && decide (x < 2 ^ m))
    else decide (0 ≤ x) && (if n ≥ 1200 then true else decide (x < 2 ^ n.toNat)))
/-- `wid.fits` (R112). -/
def execWidFits (h : Hdr) (d a b : NameRef) (s : State) : Host.Outcome State Fault Refusal :=
  finish (alu2 s (.widFits h d a b) h d a b fun x y => if fitsAt x.ent.kind y.val x.val then 1 else 0)

/-! ## wid.resize (R76 to R80) -/

/-- The repack unit is taken. -/
abbrev tagRepack : Nat := 13

/-- Whether a core's repack unit cannot take the resize or fork of place `seq`: it runs, or an older fork's copy is on its way to it, or an older
resize or fork of the core waits (R79, R301). -/
def Core.unitBusy (c : Core) (h : Fin 8) (seq : Nat) : Bool :=
  c.repack.isSome || c.waitsAhead h seq tagRepack || c.threads.toList.any fun x => match x.forkIn with | some f => decide (f.seq < seq) | none => false

/-- The hardware threads of a kernel. -/
def Kernel.hthreads (k : Kernel) : List (Fin 8) := (List.finRange 8).filter fun h => decide (k.sb ≤ h.val) && decide (h.val < k.sb + k.n)

/-- The core with some of its threads changed. -/
def Core.modThreads (c : Core) (hs : List (Fin 8)) (f : Fin 8 → Thread → Thread) : Core :=
  { c with threads := hs.foldl (fun (v : Vector Thread 8) (h : Fin 8) => v.set h (f h v[h])) c.threads }

/-- Whether a repack holds a thread (R78). -/
def Core.repacking (c : Core) (h : Fin 8) : Bool :=
  match c.repack, c.kernelOf h with
  | some r, some k => r.sb == k.sb
  | _, _ => false

/-- Freezes a kernel on a core for the repack unit (R78): its READY threads are FROZEN. `begun`: rows move at once. -/
def Core.freeze (c : Core) (k : Kernel) (op : RepackOp) (begun : Bool) (h : Fin 8) (pc done : Nat) : Core :=
  let fr := k.hthreads.filter fun t => c.threads[t].st == .ready
  { c.modThreads fr (fun _ x => { x with st := .frozen }) with
           repack := some ⟨op, begun, h, pc, k.sb, done, fr.map fun t => (t, .ready), []⟩ }

/-- The value a resize gives a copy (R77). -/
def resizeVal (k : Kind) (w w' : Nat) (m : ResizeMode) (x : Int) : Int :=
  if w' > w ∨ inRange k w' x = true then x
  else match m with
    | .wrap => wrapNat w' x
    | _ => satInt k w' x

/-- The kernel with the width of a name changed. -/
def Kernel.setWidth (k : Kernel) (n w : Nat) : Kernel :=
  { k with cat := k.cat.modify n fun e => { e with width := w } }

/-- A thread's copy of a name as a resize leaves it, `f` giving the new pattern. An instruction of the thread that has read its names keeps what
it read (R78, R213); what a wait would put back (R295) is resized with the copy. -/
def Thread.resized (x : Thread) (cat : List NameEnt) (n : Nat) (f : Pat → Pat) : Thread :=
  let keep : WaitRec → WaitRec := fun w =>
    if w.why.keeps then { w with src := some (w.src.getD ⟨cat, x.names, x.ridx, x.rlast⟩) }
    else { w with src := w.src.map fun l => { l with names := l.names.set n (f (l.names.getD n 0)) } }
  { x with wait := x.wait.map keep }.setName n (f (x.name n))
/-- The core with a name resized for every thread of a kernel (R77). -/
def Core.resize (c : Core) (k : Kernel) (n w : Nat) (m : ResizeMode) : Core :=
  let e := k.cat.getD n ⟨1, .uint, .wrap, .rne, .none⟩
  { c.modThreads k.hthreads (fun _ x => x.resized k.cat n fun p => patOf w (resizeVal e.kind e.width w m (valueOf e p.toNat))) with
           kernels := c.kernels.map fun x => if x.sb = k.sb then x.setWidth n w else x }

/-- Logical rows in which any bit differs (R80). -/
def rowsDiffer (a b : List Nat) : Nat := ((a.zip b).filter fun p => p.1 != p.2).length

/-- What a resize comes to, from the copies as they stand (R77, R80): the operation, and the cycles beyond eight that it takes; abandoned at the
lowest thread whose value does not fit. -/
def Core.planResize (c : Core) (k : Kernel) (n w : Nat) (m : ResizeMode) : RepackOp × Nat :=
  let e := k.cat.getD n ⟨1, .uint, .wrap, .rne, .none⟩
  let bad := if w < e.width ∧ m = .trap then (List.range k.n).find? fun t => !inRange e.kind w (valueOf e (c.copyOf k n t)) else none
  match bad with
  | some t => (.abandon t, 0)
  | none => (.resize n w m, 2 * rowsDiffer (c.rowsOf k) ((c.resize k n w m).rowsOf (k.setWidth n w)))
/-- Whether an instruction of a kernel's threads that has issued is still to complete before rows move (R78). -/
def Core.settling (c : Core) (k : Kernel) : Bool :=
  k.hthreads.any fun h => match (c.threads[h]).wait with | some w => w.completes | none => false
/-- A core whose repack begins once nothing is left that comes first (R78, R80). -/
def Core.beginRepack (c : Core) (cycle : Nat) : Core :=
  match c.repack with
  | some p =>
    (match p.op, c.kernels.find? fun k => k.sb == p.sb with
    | .resize n w m, some k =>
      if p.begun = true ∨ c.settling k = true then c
      else
        let q := c.planResize k n w m
        { c with repack := some { p with op := q.1, begun := true, done := max p.done (cycle + 1) + q.2 } }
    | _, _ => c)
  | none => c

/-- The course of `wid.resize` up to the freeze (R77, R79, R80). -/
def resizeM (s : State) (i : Instr) (h : Hdr) (n : NameRef) (m : ResizeMode) (width : BitVec 10) : M State := do
  let s1 ← s.issue i h [] [n] none
  let w' := width.toNat
  let e := s.ent n
  match n with
  | .fixed _ => trapM s .ill (instrVal i)
  | .cat nn =>
    if w' < 1 ∨ w' > 528 ∨ e.kind.isInt = false then trapM s .ill (instrVal i)
    else if s1.myCore.unitBusy s1.cur.h s.mySeq then holdM s i tagRepack none
    else if w' = e.width then pure (s1.done h)
    else
      let k := s1.myKernel
      let c := s1.myCore
      let l := k.rows + k.reserve
      let q := rowsNeeded (k.setWidth nn.toNat w').widths k.n
      if q > l then trapM s .resizeroom (n64 q)
      else
        let s2 := s1.done h
        if s2.myCore.settling k then
          pure (s2.setMyCore (s2.myCore.freeze k (.resize nn.toNat w' m) false s1.cur.h s1.me.pc (s1.cycle + 8)))
        else
          let p := c.planResize k nn.toNat w' m
          pure (s2.setMyCore (s2.myCore.freeze k p.1 true s1.cur.h s1.me.pc (s1.cycle + 8 + p.2)))
/-- `wid.resize` (R76 to R80). -/
def execWidResize (h : Hdr) (n : NameRef) (mode : ResizeMode) (width : BitVec 10) (s : State) : Host.Outcome State Fault Refusal :=
  finish (resizeM s (.widResize h n mode width) h n mode width)

/-- A write arrives for a copy; one that finds a port full stays a reply of the core. -/
def State.sendReply (s : State) (r : CoreRef) (p : Reply) : State :=
  (s.deliver r p).getD (s.setCore r { s.core r with replies := (s.core r).replies ++ [p] })

/-- A sibling takes the copy a fork brought (R294): names, return stack, next address, TRSCNT 0, and its index in `d`. -/
def State.landFork (s : State) (t : ThreadRef) (f : ForkCopy) : State :=
  let x := s.thread t
  let cat := (s.kernel t).cat
  let ns := f.names.zipIdx.map fun p => BitVec.ofNat 528 (p.1.toNat % 2 ^ (cat.getD p.2 ⟨528, .uint, .wrap, .rne, .none⟩).width)
  let s1 := s.setThread t { x with names := ns, bad := [], rstack := f.rstack, rsCnt := 0, forkIn := none, wait := none, st := .ready, lastPc := x.pc }
  (s1.sendReply t.coreRef ⟨t.h, f.d, f.idx, false, none, none⟩).redirect t f.pc

/-- Applies held writes in arrival order (R78). -/
def State.landHeld (s : State) (r : CoreRef) : List Reply → State
  | [] => s
  | p :: l => (s.sendReply r p).landHeld r l

/-- REPACK_UNFREEZE: the unit has written its last row, applies the held writes and unfreezes the kernel (R78, R80); a resize
that read a copy with an uncorrectable error writes no row, and its thread takes POISON (R81; its TVAL is a free value, log 91). -/
def execRepackUnfreeze (r : CoreRef) (s : State) : Host.Outcome State Fault Refusal :=
  let c := s.core r
  match c.repack with
  | none => .refused (.notEnabled "REPACK_UNFREEZE: no repack")
  | some p =>
    if p.begun = false ∨ s.cycle < p.done then .refused (.notEnabled "REPACK_UNFREEZE: the repack is not done")
    else
      let k := (c.kernelOf p.h).getD Kernel.none
      let k1 := (c.kernels.find? fun x => x.sb == p.sb).getD k
      let fork := match p.op with | .fork _ => true | _ => false
      let err := !fork && k1.hthreads.any fun h => !(c.threads[h]).bad.isEmpty
      let c1 := match p.op with | .resize n w m => if err then c else c.resize k1 n w m | _ => c
      let c2 := { c1.modThreads (p.frozen.map (·.1)) (fun h x =>
        if x.st = .frozen then { x with st := ((p.frozen.find? (·.1 == h)).map (·.2)).getD .ready } else x) with repack := none }
      let s1 := s.setCore r c2
      let s2 := match p.op with
        | .fork q => k1.hthreads.foldl (fun (z : State) h => match (z.thread ⟨r.tile, r.core, h⟩).forkIn with
            | some f => if f.seq = q then z.landFork ⟨r.tile, r.core, h⟩ f else z
            | none => z) s1
        | _ => s1
      let s3 := s2.landHeld r p.held
      if err then .next (s3.takeTrap ⟨r.tile, r.core, p.h⟩ .poison p.pc (Config.repackPoison s.seq))
      else match p.op with
      | .abandon t => .next (s3.takeTrap ⟨r.tile, r.core, p.h⟩ .width p.pc (n64 t))
      | _ => .next s3

/-- FORK_REMOTE_COPY: the opener's names have arrived on a sibling's core, whose repack unit takes them up in their turn (R79, R301). -/
def execForkRemoteCopy (t : ThreadRef) (s : State) : Host.Outcome State Fault Refusal :=
  let c := s.core t.coreRef
  match (s.thread t).forkIn, c.repack with
  | some f, none =>
    if f.arrive ≤ s.cycle ∧ c.unitBusy t.h f.seq = false then
      let k := s.kernel t
      .next (s.setCore t.coreRef (c.freeze k (.fork f.seq) true t.h 0 (s.cycle + 8 + 2 * (k.rows + k.reserve))))
    else .refused (.notEnabled "FORK_REMOTE_COPY: the names are on their way, or it is not their turn")
  | _, _ => .refused (.notEnabled "FORK_REMOTE_COPY: no copy, or the repack unit is taken")

end Sys2Proof.Machine
end

