-- ==== Sys2Proof/Machine/Groups.lean ====
section
/-! DEFINITION. Sample groups: the `grp` major, halts of members, the combine and its timeout (15 R291 to R299, 16 R300 to R304,
17 R318 to R324). -/
namespace Sys2Proof.Machine

/-! ## CRECT (R176) -/

/-- Whether a tile streams in a rectangle. -/
def inRect (r : BitVec 5) : Bool := r.getLsbD 0 && r != 0x1F
/-- Reads activations from local memory. -/
def rectW (r : BitVec 5) : Bool := !inRect r || r.getLsbD 4
/-- Forwards no activations. -/
def rectE (r : BitVec 5) : Bool := !inRect r || r.getLsbD 3
/-- Receives no partial sums. -/
def rectN (r : BitVec 5) : Bool := !inRect r || r.getLsbD 2
/-- Owns the accumulators. -/
def rectS (r : BitVec 5) : Bool := !inRect r || r.getLsbD 1

/-! ## The array's register (R201) -/

/-- CXMST: the breach code (R201). -/
def cmxBrk (v : Word64) (b : Nat) : Word64 := (v &&& 0xFFFF_FFFF_FFFF_00FF) ||| BitVec.ofNat 64 (b % 256 * 256)
/-- The rows written by the last `mx.stream`. -/
def cmxRows (v : Word64) (n : Nat) : Word64 := (v &&& 0xFFFF_FFFF_FFFF_FF80) ||| BitVec.ofNat 64 (n % 128)
/-- The state with CMXST of a tile changed. -/
def State.setCmx (s : State) (tile : Nat) (f : Word64 → Word64) : State :=
  s.setCore ⟨tile, 2⟩ { s.core ⟨tile, 2⟩ with cmxst := f (s.core ⟨tile, 2⟩).cmxst }
/-- The state with the array of a tile changed. -/
def State.modMx (s : State) (tile : Nat) (f : MxArray → MxArray) : State := s.setTile tile { s.tile tile with mx := f (s.tile tile).mx }

/-! ## The threads of a gang -/

/-- Every hardware thread whose kernel belongs to a gang, by tile, core and thread. -/
def State.gangThreads (s : State) (g : Nat) : List ThreadRef :=
  s.tiles.flatMap fun p => (List.finRange 3).flatMap fun c => (List.finRange 8).filterMap fun h =>
    match p.2.cores[c].kernelOf h with
    | some k => if k.gang = g ∧ p.2.cores[c].threads[h].st ≠ .empty then some ⟨p.1, c, h⟩ else none
    | none => none

/-- A thread's core without the replies that are on their way to it. -/
def State.dropReplies (s : State) (t : ThreadRef) : State :=
  let c := s.core t.coreRef
  s.setCore t.coreRef { c with replies := c.replies.filter (fun p => p.h != t.h),
                               repack := c.repack.map fun q => { q with held := q.held.filter fun p => p.h != t.h } }
/-- A thread with the names and the place in its stream that it had when its waiting instruction issued (R295). -/
def Thread.unwritten (x : Thread) : Thread :=
  match x.wait.bind fun w => (match w.why with | .until _ => w.src | .retry 19 _ => w.src | _ => none) with
  | some l => { x with names := l.names, ridx := l.ridx, rlast := l.rlast }
  | none => x
/-- A thread without the arrival at a barrier whose phase it waits for (R277). -/
def Thread.unarrived (x : Thread) : Thread :=
  match x.wait with
  | some w => (match w.why, w.instr with
    | .retry 19 _, .barSync _ _ .crew => { x with crewArr := none }
    | .retry 19 _, .barStat _ _ .crew => { x with crewArr := none }
    | .retry 19 _, _ => { x with gangArr := none }
    | _, _ => x)
  | none => x
/-- The matrix command of a thread that waits for it. -/
def MxCmd.isOf (m : MxCmd) (core : Fin 3) (h : Fin 8) : Bool := m.core == core && m.h == h && m.fo.isNone
/-- A tile without what a thread waits for in it: its misses have no requester (R363), the capacity unit is free, and its matrix command is gone. -/
def Tile.forget (z : Tile) (core : Fin 3) (h : Fin 8) : Tile :=
  let own : MxCmd → Bool := fun m => m.isOf core h
  { z with misses := z.misses.map fun m => if m.thr = some (core, h) then { m with dead := true } else m,
           capBusy := if z.capBusy = some (core, h) then none else z.capBusy,
           mx := { z.mx with queue := z.mx.queue.filter fun m => !own m, notice := if z.mx.queue.head?.any own then none else z.mx.notice },
           board := if z.mx.queue.any own then z.board.filter fun b => b.owner != .mx core h else z.board }
/-- One effect of a thread's instruction is taken back (R295): a change of memory only where nothing has changed it since (log 31); no reflection of
it stays. -/
def State.undo1 (t : ThreadRef) (s : State) : Undo → State
  | .mem v now es =>
    if s.bytesAt v.addr now.length = now ∧ (v.words.map (·.1)).filter s.empties.contains = es then
      { s.undoWrite v with reflections := s.reflections.filter fun r => !s.reflects r v.addr now.length }
    else s
  | .point k p => { s with buffers := s.buffers.set k { s.buffers[k] with point := p } }
  | .cfg c => s.modMx t.tile fun m => { m with cfg := c }
  | .swap => s.modMx t.tile fun m => { m with stat := m.shad, shad := m.stat }
/-- What the waiting instruction of a thread has done is taken back: its own effects, and those of its matrix command (R295); a stream in a rectangle
leaves the rows it has written, and CMX says how many (R176). -/
def State.takenBack (s : State) (t : ThreadRef) : State :=
  let own := (s.tile t.tile).mx.queue.filter fun m => m.isOf t.core t.h
  let s1 := own.foldl (fun (z : State) m =>
    let y := m.undo.foldl (State.undo1 t) z
    if m.fn = 3 ∧ m.begun = true then y.setCmx t.tile (cmxRows · (if rectS m.rect then m.row else 0)) else y) s
  (((s.thread t).wait.map (·.undo)).getD []).foldl (State.undo1 t) s1
/-- A wait of a thread ends without effect (R215, R295): the thread stands READY at its instruction, its operands' words are back in their ports,
a reply for it is discarded, and nothing is left of what it waited for, nor of what it did. -/
def State.endWait (s0 : State) (t : ThreadRef) : State :=
  let s := s0.takenBack t
  let s1 := s.setTile t.tile ((s.tile t.tile).forget t.core t.h)
  let free : Buffer → Buffer := fun b => if b.serving = some t then { b with serving := none } else b
  let s2 := ({ s1 with buffers := s1.buffers.map free }.giveBack t).dropReplies t
  let x := (s2.thread t).unwritten.unarrived
  s2.setThread t { x with pc := (x.wait.map fun (w : WaitRec) => w.pc).getD x.pc, wait := none, st := .ready }

/-! ## Group objects (R291, R302) -/

/-- Reservations for a group. -/
abbrev tagResv : Nat := 14
/-- Reservations a fork waits for. -/
abbrev tagFork : Nat := 15
/-- A member's wait for the combine. -/
abbrev tagGWait : Nat := 16
/-- Members an opener's close waits for. -/
abbrev tagClose : Nat := 17

/-- The group object of a gang that is not FREE. -/
def State.group? (s : State) (g gid : Nat) : Option Group := (s.gang? g).bind fun x => x.groups.find? fun o => o.gid == gid
/-- The state with a group object of a gang set. -/
def State.putGroup (s : State) (g : Nat) (o : Group) : State :=
  s.modGang g fun x => { x with groups := x.groups.filter (fun p => p.gid != o.gid) ++ [o] }
/-- The object becomes FREE. -/
def State.freeGroup (s : State) (g gid : Nat) : State :=
  s.modGang g fun x => { x with groups := x.groups.filter fun p => p.gid != gid }
/-- The state of a group as an instruction of this cycle finds it: DONE from the cycle after the combine (R295). -/
def Group.stNow (o : Group) (cycle : Nat) : GState := if o.st = .done ∧ cycle ≤ o.combined then .forked else o.st
/-- The same for a gang's group. -/
def State.groupSt (s : State) (g gid : Nat) : GState := match s.group? g gid with | some o => o.stNow s.cycle | none => .free
/-- GSTAT (R298, R322). -/
def State.gstat (s : State) (g gid : Nat) : Nat :=
  match s.group? g gid with
  | none => 0
  | some o =>
    match o.stNow s.cycle with
    | .free => 0
    | .opened => o.k * 2 ^ 8 + 1
    | .forked => min o.halts 255 * 2 ^ 16 + o.k * 2 ^ 8 + 2
    | .done => o.posts.length * 2 ^ 24 + o.cancels.length * 2 ^ 16 + o.k * 2 ^ 8 + (if o.tmoBit then 8 else 0) + (if o.zvar then 4 else 0) + 3

/-- Clears a thread's TGMEM. -/
def Thread.leaveGroup (x : Thread) : Thread := { x with gmV := false, gmRes := false, gmGid := 0, gmIdx := 0 }

/-- The member threads of a group. -/
def State.members (s : State) (g gid : Nat) : List ThreadRef :=
  (s.gangThreads g).filter fun t => let x := s.thread t; x.gmV && x.gmGid.toNat == gid

/-! ## The combine (R296, R304) -/

/-- The advantages of rewards, in their order, and whether the variance is zero (R296). -/
def advantages (rs : List (BitVec 32)) (epsPat : BitVec 32) : List (BitVec 32) × Bool :=
  let vs := rs.map fun r => FF.f32.value r.toNat
  let n := rs.length
  let e0 := vs.foldl (fun k v => min k v.exp) 0
  let us := vs.map (FVal.units e0)
  let t := us.sum
  let ts := us.map fun u => (n : Int) * u - t
  let d := (ts.map fun x => x.natAbs * x.natAbs).sum
  if n ≤ 1 ∨ d = 0 then (rs.map fun _ => 0, true)
  else
    let eps : Nat × Int := match FF.f32.value epsPat.toNat with
      | .fin false m e => (m, e)
      | _ => (0, 0)
    (ts.map fun x =>
      if x = 0 then 0
      else BitVec.ofNat 32 (FF.f32.code (FF.f32.round .rne 0 (.mag (decide (x < 0)) (Mag.overRoot x.natAbs 1 d (n - 1) (eps.1 * n) (eps.2 - e0))))), false)

/-- The first failure F (R304). -/
def firstFailure (o : Group) : Nat :=
  let bad := o.cancels ++ (o.posts.filter fun p => let v := FF.f32.value p.2.toNat; v.isZero || v.neg?).map (·.1)
  bad.foldl min o.k

/-- A member is cancelled at a combine (R295): TGMEM becomes 0, and it takes GROUP reason 0x01: where it waits, its wait ends with no effect and it
takes the trap at its instruction, else in its next slot. -/
def State.cancelMember (s : State) (gid : Nat) (t : ThreadRef) : State :=
  let s1 := s.setThread t (s.thread t).leaveGroup
  let x := s1.thread t
  if x.st = .halted then s1
  else
    match x.wait with
    | some w =>
      match x.pend with
      | some _ => (s1.endWait t).count t.coreRef 0x28
      | none => (s1.endWait t).takeTrap t .group w.pc (reasonVal 1 gid)
    | none => s1.asyncTrap t .group (reasonVal 1 gid)

/-- The group combines (R295, R296, R302): `tmo`: by its timeout; `spare`: a pending issuer of `grp.cancel`, who is cancelled without a
trap. -/
def State.combine (s : State) (g : Nat) (o : Group) (tmo : Bool) (spare : Option ThreadRef) : State :=
  let left := (List.range o.k).filter fun i => !(o.posts.any (·.1 == i)) && !(o.cancels.contains i)
  let av := advantages (o.posts.map (·.2)) o.eps
  let o1 : Group := { o with st := .done, cancels := o.cancels ++ left, due := none, tmoBit := tmo, zvar := av.2, combined := s.cycle }
  let f := BitVec.ofNat 7 (firstFailure o1)
  let s1 := (s.members g o.gid).foldl (fun (z : State) t =>
    let x := z.thread t
    let i := x.gmIdx.toNat
    if left.contains i then
      (if spare = some t then z.setThread t x.leaveGroup else z.cancelMember o.gid t)
    else z.setThread t { x with ff := f, adv := (((o.posts.zip av.1).find? fun p => p.1.1 == i).map (·.2)).getD 0 }) s
  s1.putGroup g o1

/-- A combine as soon as every member has posted or been cancelled (R302). -/
def State.combineIfAll (s : State) (g : Nat) (o : Group) : State :=
  if o.st = .forked ∧ (List.range o.k).all (fun i => o.posts.any (·.1 == i) || o.cancels.contains i) = true
  then s.combine g o false none else s.putGroup g o

/-- What a halt does to a group (R302): a pending member is cancelled without a trap, a posted one leaves, and the opener of an OPEN
group frees it. -/
def State.haltGroups (s : State) (t : ThreadRef) : State :=
  let g := (s.kernel t).gang
  let x := s.thread t
  let s1 := s.setThread t x.leaveGroup
  let s2 := if x.gmV then
      (match s.group? g x.gmGid.toNat with
      | some o =>
        if o.st = .forked ∧ x.posted.isNone = true then
          s1.combineIfAll g { o with cancels := o.cancels ++ [x.gmIdx.toNat], halts := o.halts + 1 }
        else s1
      | none => s1)
    else s1
  s2.modGang g fun y => { y with groups := y.groups.filter fun o => !(o.opener == t && o.st == .opened) }

/-- Whether a forced save has frozen a gang (R238, R306). -/
def State.frozenGang (s : State) (g : Nat) : Bool :=
  match s.gang? g with
  | some x => (match x.preempt with | some p => !p.frozen.isEmpty | none => false)
  | none => false
/-- GROUP_TIMEOUT: a group's timeout falls due after its quorum (R295); none does while a save has frozen its gang (R306). -/
def execGroupTimeout (gang g : Nat) (s : State) : Host.Outcome State Fault Refusal :=
  match s.group? gang g with
  | some o =>
    (match o.st, o.due with
    | .forked, some d => if d ≤ s.cycle ∧ s.frozenGang gang = false then .next (s.combine gang o true none) else .refused (.notEnabled "GROUP_TIMEOUT: not due")
    | _, _ => .refused (.notEnabled "GROUP_TIMEOUT: no timeout runs"))
  | none => .refused (.notEnabled "GROUP_TIMEOUT: the group is free")

/-! ## The instructions -/

/-- The trap GROUP of the current instruction (R323). -/
def groupTrap {α : Type} (s0 : State) (r : Nat) (g : Int) : M α := trapM s0 .group (reasonVal r g)

/-- What every function begins with (R319, R320): its checks at issue, its operand, and GROUP reason 0x09 in a vector group. `gr`: the
operand is a group number. -/
def grpStart (s : State) (i : Instr) (h : Hdr) (a : NameRef) (dsts : List NameRef) (pre : Option (Cause × Word64)) (gr : Bool) :
    M (Src × State) := do
  let s1 ← s.issue i h [a] dsts pre
  let (x, s2) ← s.read i h a s1
  if s.me.vg ≠ .solo then groupTrap s 9 (if gr then x.val else if i = .grpOpen h a then (x.val % 64) else s.me.gmGid.toNat)
  else if gr ∧ (x.val < 0 ∨ x.val > 63) then groupTrap s 2 x.val
  else pure (x, s2)

/-- The course of `grp.open` (R291). -/
def openM (s : State) (h : Hdr) (a : NameRef) : M State := do
  let (x, s2) ← grpStart s (.grpOpen h a) h a [] none false
  let g := s2.myKernel.gang
  let v := wrapNat 64 x.val
  let gid := v % 64
  let k := fieldOf v 8 7
  let q := fieldOf v 16 7
  if x.val < 0 ∨ x.val ≥ 2 ^ 40 ∨ fieldOf v 6 2 ≠ 0 ∨ fieldOf v 15 1 ≠ 0 ∨ fieldOf v 23 1 ≠ 0 ∨ k < 1 ∨ k > 64 ∨ q < 1 ∨ q > k ∨
      s2.groupSt g gid ≠ .free then groupTrap s 2 gid
  else
    let eps := ((s2.gang? g).map (·.geps)).getD 0
    pure ((s2.putGroup g ⟨gid, .opened, s2.cur, k, q, fieldOf v 24 16, eps, [], [], none, 0, false, false, 0⟩).done h)
/-- `grp.open` (R291, R319). -/
def execGrpOpen (h : Hdr) (a : NameRef) (s : State) : Host.Outcome State Fault Refusal := finish (openM s h a)

/-- Reservations for a group that a fork of the current thread can take in this cycle, in the order of R300: those made before it (R320), and
those that a resumption has restored (R324). -/
def State.reservations (s : State) (g gid : Nat) : List ThreadRef :=
  let k := s.myKernel
  let c := (s.gangThreads g).filter fun t =>
    let x := s.thread t
    t != s.cur && (s.kernel t).pos == k.pos && t.core == s.cur.core && x.gmRes && x.gmGid.toNat == gid &&
      match x.wait with | some w => decide (w.since < s.cycle) | none => true
  (c.filter fun t => t.tile == s.cur.tile) ++ (c.filter fun t => t.tile != s.cur.tile)

/-- Hops between two tiles. -/
def hops (a b : Nat) : Nat := (max (tileRow a) (tileRow b) - min (tileRow a) (tileRow b)) + (max (tileCol a) (tileCol b) - min (tileCol a) (tileCol b))

/-- A sibling is taken by a fork (R294, R324): its TGMEM, and the copy it will be given; a pending trap is dropped. -/
def State.takeSibling (s : State) (gid i : Nat) (f : ForkCopy) (t : ThreadRef) : State :=
  let x := s.thread t
  let s1 := s.setThread t { x with gmV := true, gmRes := false, gmGid := BitVec.ofNat 6 gid, gmIdx := BitVec.ofNat 6 i, posted := none,
                                   st := .waiting, wait := none, pend := none, forkIn := some f }
  if x.pend.isSome then s1.count t.coreRef 0x28 else s1

/-- Whether a member index lies in the value set of a name at its current width (R319): an integer in its range, a value its format has. -/
def NameEnt.holds (e : NameEnt) (j : Nat) : Bool :=
  if e.kind.isFloat then
    let v := e.kind.ff.value (e.kind.ff.code (e.kind.ff.round .rtz 0 (FVal.int j).x))
    !(v.lt (.int j)) && !((FVal.int j).lt v)
  else inRange e.kind e.width j
/-- A member index as R69 writes it: exact to an integer or a port, a pattern to a floating name, whose `rst` uses the opener's draw (R64). -/
def indexVal (d : NameRef) (e : NameEnt) (r j : Nat) : ReplyVal :=
  if isCat d && e.kind.isFloat then
    (match fpWrite e.kind.ff e.mode (rmodeOf .attr e) (r % 2 ^ 24) (FVal.int j).x with
    | .inl c => .pat (BitVec.ofNat 528 c)
    | .inr _ => .pat 0)
  else .int j
/-- The opener's own index. -/
def State.writeIndex (s0 : State) (i : Instr) (d : NameRef) (v : ReplyVal) (s : State) : M State :=
  match v, d with
  | .int x, _ => s0.writeInt i d x s
  | .old x, _ => s0.writeInt i d x s
  | .pat p, .cat n => .ok (s.putName n p)
  | .pat _, .fixed _ => .ok s

/-- The course of `grp.fork` (R294, R300, R301, R319, R324): the draws of its index writes are the opener's. -/
def forkM (s : State) (h : Hdr) (d a : NameRef) : M State := do
  let i : Instr := .grpFork h d a
  let (x, s2) ← grpStart s i h a [d] (illUnless i (s.oneDst d)) true
  let g := s2.myKernel.gang
  let gid := x.val.toNat
  let y := s2.me
  match s2.group? g gid with
  | none => groupTrap s 3 gid
  | some o =>
    if o.opener ≠ s2.cur ∨ o.st ≠ .opened ∨ y.rsCnt ≠ 0 ∨ y.gmV = true then groupTrap s 3 gid
    else
      let e := s2.ent d
      if isCat d && e.mode == .trap && !e.holds (o.k - 1) then trapM s .width (n64 (o.k - 1))
      else
        let rs := s2.reservations g gid
        if rs.length < o.k - 1 then holdM s i tagFork (some (reasonVal 6 gid))
        else
          let sel := rs.take (o.k - 1)
          if s2.myCore.unitBusy s2.cur.h s.mySeq || sel.any fun t => (s2.core t.coreRef).unitBusy t.h s.mySeq then holdM s i tagRepack none
          else if sel.any fun t => (s2.kernel t).widths != s2.myKernel.widths then groupTrap s 7 gid
          else if !y.bad.isEmpty then trapM s .poison (Config.repackPoison s.seq)
          else
            let k := s2.myKernel
            let l := k.rows + k.reserve
            let far := (sel.map fun t => hops s2.cur.tile t.tile).foldl max 0
            let next := y.pc + Hdr.len h
            let (ds, s3) ← s.draws (if isCat d && e.kind.isFloat && rmodeOf .attr e == .rst then o.k else 0) s2
            let s4 ← s.writeIndex i d (indexVal d e (ds.getD 0 0) 0) s3
            let s5 := s4.setMe { s4.me with gmV := true, gmRes := false, gmGid := BitVec.ofNat 6 gid, gmIdx := 0, posted := none }
            let s6 := (sel.zipIdx).foldl (fun (z : State) p =>
              z.takeSibling gid (p.2 + 1) ⟨y.names, y.rstack, next, d, indexVal d e (ds.getD (p.2 + 1) 0) (p.2 + 1),
                s2.cycle + 4 * hops s2.cur.tile p.1.tile, s.mySeq⟩ p.1) s5
            let s7 := s.doneLat h i (8 + 2 * l + 4 * far) (s6.putGroup g { o with st := .forked })
            pure (s7.setMyCore (s7.myCore.freeze k (.fork s.mySeq) true s2.cur.h y.pc (s2.cycle + 8 + 2 * l)))
/-- `grp.fork` (R294, R301). -/
def execGrpFork (h : Hdr) (d a : NameRef) (s : State) : Host.Outcome State Fault Refusal := finish (forkM s h d a)

/-- Whether `d` fits the result of `grp.wait` (R319). -/
def State.waitKind (s : State) (d : NameRef) (ff : Bool) : Bool :=
  d == .fixed .zero || (if ff then (s.ent d).kind.isInt else (s.ent d).kind.isFloat)

/-- The course of `grp.wait` (R293, R297, R304). -/
def grpWaitM (s : State) (i : Instr) (h : Hdr) (d a : NameRef) (ff : Bool) : M State := do
  let y := s.me
  let (x, s2) ← grpStart s i h a [d] (illUnless i (!y.gmV || s.waitKind d ff)) true
  let gid := x.val.toNat
  if !y.gmV then
    .error ((s.setMe { y with gmRes := true, gmGid := BitVec.ofNat 6 gid, gmIdx := 0 }).hold i (.retry tagResv gid) (some (reasonVal 5 gid)))
  else if y.gmGid.toNat ≠ gid ∨ y.posted.isNone = true then groupTrap s 4 gid
  else if s2.groupSt s2.myKernel.gang gid ≠ .done then holdM s i tagGWait (some (reasonVal 7 gid))
  else
    let s3 ← (if ff then s.writeInt i d y.ff.toNat s2 else s.writeReal i d .attr (FF.f32.value y.adv.toNat).x s2)
    pure ((s3.setMe { s3.me.leaveGroup with posted := none }).done h)
/-- `grp.wait` (R293, R297). -/
def execGrpWait (h : Hdr) (d a : NameRef) (s : State) : Host.Outcome State Fault Refusal :=
  finish (grpWaitM s (.grpWait h d a) h d a false)
/-- `grp.wait.ff` (R304). -/
def execGrpWaitFf (h : Hdr) (d a : NameRef) (s : State) : Host.Outcome State Fault Refusal :=
  finish (grpWaitM s (.grpWaitFf h d a) h d a true)

/-- The course of `grp.cancel` (R302, R321): a timeout that falls due in this cycle combines first (R303). -/
def cancelM (s : State) (h : Hdr) (a : NameRef) : M State := do
  let (x, s2) ← grpStart s (.grpCancel h a) h a [] none true
  let g := s2.myKernel.gang
  let gid := x.val.toNat
  match s2.group? g gid with
  | none => groupTrap s 8 gid
  | some o =>
    if o.opener ≠ s2.cur ∨ o.stNow s2.cycle = .done then groupTrap s 8 gid
    else if o.st = .opened then pure ((s2.freeGroup g gid).done h)
    else
      let due := match o.due with | some c => decide (c ≤ s2.cycle) | none => false
      let s3 := if o.st = .done then s2 else if due then s2.combine g o true none else s2.combine g o false (some s2.cur)
      let y := s3.me
      pure ((s3.setMe (if y.gmV ∧ y.gmGid.toNat = gid then { y.leaveGroup with posted := none } else y)).done h)
/-- `grp.cancel` (R302, R321). -/
def execGrpCancel (h : Hdr) (a : NameRef) (s : State) : Host.Outcome State Fault Refusal := finish (cancelM s h a)

/-- The course of `grp.reward` (R295). -/
def rewardM (s : State) (h : Hdr) (a : NameRef) : M State := do
  let i : Instr := .grpReward h a
  let e := s.ent a
  let (x, s2) ← grpStart s i h a [] (illUnless i (match a with | .cat _ => !(e.kind.isGran || e.kind == .raw) | .fixed _ => true)) false
  let y := s2.me
  let g := s2.myKernel.gang
  let gid := y.gmGid.toNat
  let r := FF.f32.round .rne 0 x.real.x
  match s2.group? g gid with
  | none => groupTrap s 4 gid
  | some o =>
    if y.gmV = false ∨ y.posted.isSome = true then groupTrap s 4 gid
    else if !r.isFin || FF.f32.beyond r then groupTrap s 5 gid
    else
      let p := BitVec.ofNat 32 (FF.f32.code r)
      let o1 := { o with posts := o.posts ++ [(y.gmIdx.toNat, p)] }
      let o2 := if o1.posts.length = o.q ∧ o.tmo ≠ 0 then { o1 with due := some (s2.cycle + o.tmo) } else o1
      pure (((s2.setMe { y with posted := some p }).combineIfAll g o2).done h)
/-- `grp.reward` (R295). -/
def execGrpReward (h : Hdr) (a : NameRef) (s : State) : Host.Outcome State Fault Refusal := finish (rewardM s h a)

/-- The course of `grp.stat` (R298). -/
def statM (s : State) (h : Hdr) (d a : NameRef) : M State := do
  let i : Instr := .grpStat h d a
  let (x, s2) ← grpStart s i h a [d] (illUnless i (s.oneDst d)) true
  let s3 ← s.writeOne i d (s2.gstat s2.myKernel.gang x.val.toNat) s2
  pure (s3.done h)
/-- `grp.stat` (R298, R322). -/
def execGrpStat (h : Hdr) (d a : NameRef) (s : State) : Host.Outcome State Fault Refusal := finish (statM s h d a)

/-- The course of `grp.close` (R298). -/
def closeM (s : State) (h : Hdr) (a : NameRef) : M State := do
  let i : Instr := .grpClose h a
  let (x, s2) ← grpStart s i h a [] none true
  let g := s2.myKernel.gang
  let gid := x.val.toNat
  match s2.group? g gid with
  | none => groupTrap s 6 gid
  | some o =>
    if o.opener ≠ s2.cur ∨ o.stNow s2.cycle ≠ .done then groupTrap s 6 gid
    else if (s2.members g gid).isEmpty then pure ((s2.freeGroup g gid).done h)
    else holdM s i tagClose (some (reasonVal 8 gid))
/-- `grp.close` (R298). -/
def execGrpClose (h : Hdr) (a : NameRef) (s : State) : Host.Outcome State Fault Refusal := finish (closeM s h a)

end Sys2Proof.Machine
end

