-- ==== Sys2Proof/Machine/System.lean ====
section
/-! DEFINITION. The `sys` major and the control registers (14 R284 to R290, 17 R330), unassigned encodings (05 R97, R98), and the steps
that a thread's slot or wait brings about: traps pending, the end of memory, long operations, wait limits, mesh words. -/
namespace Sys2Proof.Machine

/-! ## Control registers (R285, R286, R330) -/

/-- Whether a thread is its core's sampling thread (R309). -/
def State.sampling (s : State) (t : ThreadRef) : Bool := t.core == 2 && t.h == 7 && (s.core t.coreRef).smp

/-- CDQSTAT (R228). -/
def Core.cdqstat (c : Core) : Nat :=
  c.shead.toNat * 2 ^ 24 + c.scnt * 2 ^ 16 + c.dq.length * 2 ^ 8 + (if c.dqOwner.isSome then 8 else 0) + c.dqLast

/-- CID (R286). -/
def State.cid (s : State) (r : CoreRef) : Nat :=
  s.modId.toNat * 2 ^ 55 + tileDie r.tile * 2 ^ 31 + s.cluster r.tile * 2 ^ 26 + tileCol r.tile * 2 ^ 20 + tileRow r.tile * 2 ^ 15 +
    r.core.val * 2 ^ 13

/-- TSTAT (R286). -/
def State.tstat (s : State) (t : ThreadRef) : Nat :=
  let x := s.thread t
  let vg := match x.vg with | .solo => 0 | .leader => 1 | .attached => 2 | .detached => 3
  vg * 2 ^ 10 + (if s.sampling t then 2 ^ 9 else 0) + (if x.priv then 2 ^ 8 else 0) + s.tnum t * 8 + t.h.val

/-- TGMEM (R292). -/
def Thread.tgmem (x : Thread) : Nat :=
  (if x.gmV then 2 ^ 15 else 0) + (if x.gmRes then 2 ^ 14 else 0) + x.gmGid.toNat * 2 ^ 8 + x.gmIdx.toNat

/-- CCFG (R286). -/
def Core.ccfg (c : Core) : Nat := (if c.evu then 2 else 0) + (if c.smp then 1 else 0)

/-- CWSREF (R162): fixed. -/
def cwsref : Nat := 0x0100 * 2 ^ 16 + 0x0400

/-- GEPS of a thread's gang (R296). -/
def State.geps (s : State) (t : ThreadRef) : BitVec 32 := ((s.gang? (s.kernel t).gang).map (·.geps)).getD 0

/-- Control register `k` of a thread, where the table of R285 has it. -/
def State.reg (s : State) (t : ThreadRef) (k : Nat) : Option Word64 :=
  let x := s.thread t
  let c := s.core t.coreRef
  let arith : Word64 → Word64 := fun v => if t.core = 2 then v else 0
  match k with
  | 0x000 => some (n64 (s.tstat t))
  | 0x001 => some (x.tcause.setWidth 64)
  | 0x002 => some (x.tepc.setWidth 64)
  | 0x003 => some x.tval
  | 0x004 => some (x.tvec.setWidth 64)
  | 0x005 => some x.tscratch
  | 0x006 => some (n64 (8 * x.rsBase.toNat))
  | 0x007 => some (x.rsLim.setWidth 64)
  | 0x008 => some (x.rsCnt.setWidth 64)
  | 0x009 => some (n64 x.rstack.length)
  | 0x00A => some (n64 (x.privG.toNat * 2 ^ 16))
  | 0x00B => some (n64 (x.privSz.toNat * 2 ^ 16))
  | 0x00C => some x.rkey
  | 0x00D => some (x.rpos.setWidth 64)
  | 0x00E => some (x.ridx.setWidth 64)
  | 0x00F => some x.rlast
  | 0x010 => some (if s.sampling t then n64 (64 * x.smpb.toNat) else 0)
  | 0x011 => some (n64 x.tgmem)
  | 0x012 => some (x.waitlim.setWidth 64)
  | 0x013 => some (x.premax.setWidth 64)
  | 0x014 => some (n64 (x.sealb.toNat * 2 ^ 13))
  | 0x100 => some (n64 c.ccfg)
  | 0x101 => some c.cqthresh
  | 0x102 => some c.cqstat
  | 0x103 => some (n64 cwsref)
  | 0x104 => some (arith (c.crect.setWidth 64))
  | 0x105 => some (arith c.cmxst)
  | 0x106 => some (n64 c.cdqstat)
  | 0x107 => some (n64 (s.cid t.coreRef))
  | 0x200 => some ((s.geps t).setWidth 64)
  | _ => none

/-- Whether a register has a bit that a thread of the given privilege may write (R287). -/
def regWritable (priv : Bool) (k : Nat) : Bool :=
  match k with
  | 0x001 | 0x002 | 0x003 | 0x004 | 0x005 | 0x006 | 0x007 | 0x00C | 0x00D | 0x00E | 0x010 | 0x012 => true
  | 0x100 => priv
  | 0x101 | 0x102 | 0x104 | 0x200 => true
  | _ => false

/-- Whether `sys.setc` of the current thread may name a register: it can write a bit of it, or it is CMXST off the arithmetic core, which ignores
writes there (R285, R287). -/
def State.settable (s : State) (k : Nat) : Bool := regWritable s.me.priv k || (k == 0x105 && s.cur.core != 2)
/-- The current thread writes `v` to register `k`: every bit it may write, no other (R287). -/
def State.setReg (s : State) (k : Nat) (v : Word64) : State :=
  let x := s.me
  let c := s.myCore
  match k with
  | 0x001 => s.setMe { x with tcause := v.setWidth 8 }
  | 0x002 => s.setMe { x with tepc := v.setWidth 19 }
  | 0x003 => s.setMe { x with tval := v }
  | 0x004 => s.setMe { x with tvec := v.setWidth 19 &&& 0x7FFFC }
  | 0x005 => s.setMe { x with tscratch := v }
  | 0x006 => s.setMe { x with rsBase := (v >>> 3).setWidth 16 }
  | 0x007 => s.setMe { x with rsLim := v.setWidth 16 }
  | 0x00C => s.setMe { x with rkey := v }
  | 0x00D => s.setMe { x with rpos := v.setWidth 40 }
  | 0x00E => s.setMe { x with ridx := v.setWidth 24 }
  | 0x010 => if s.sampling s.cur then s.setMe { x with smpb := (v >>> 6).setWidth 13 } else s
  | 0x012 => s.setMe { x with waitlim := v.setWidth 32 }
  | 0x100 => if x.priv then s.setMyCore { c with evu := v.getLsbD 1, smp := v.getLsbD 0 } else s
  | 0x101 => s.setMyCore { c with cqthresh := v &&& 0x1_FFFF_FFFF }
  | 0x102 => s.setMyCore { c with cqstat := c.cqstat &&& ~~~v }
  | 0x104 => if s.cur.core = 2 then s.setMyCore { c with crect := v.setWidth 5 } else s
  | 0x200 => s.modGang s.myKernel.gang fun g => { g with geps := v.setWidth 32 }
  | _ => s

/-! ## The instructions (R284) -/

/-- A thread's status contribution (R232). -/
def State.contribution (s : State) (t : ThreadRef) : Word64 :=
  let x := s.thread t
  let i := match s.gang? (s.kernel t).gang with | some g => s.gangIndex g t.tile | none => 0
  n64 ((if x.tcause = 0 then 0 else x.tcause.toNat * 2 ^ 56 + i % 64 * 2 ^ 50 + s.tnum t * 2 ^ 47 + 2 ^ 32) + x.flags.toNat)

/-- The core without the partly written command of a thread (R164). -/
def Core.dropPartial (c : Core) (h : Fin 8) : Core :=
  { c with cbuf := c.cbuf.filter fun b => !(b.h == h && decide (b.words.length < b.need)) }

/-- The course of an instruction that only completes. -/
def nopM (s : State) (i : Instr) (h : Hdr) : M State := do
  let s1 ← s.issue i h [] [] none
  pure (s1.done h)
/-- `sys.nop` (R284). -/
def execSysNop (h : Hdr) (s : State) : Host.Outcome State Fault Refusal := finish (nopM s (.sysNop h) h)

/-- The course of `sys.ifence`: a redirect to the next instruction (R123). -/
def ifenceM (s : State) (h : Hdr) : M State := do
  let s1 ← s.issue (.sysIfence h) h [] [] none
  pure (s1.goTo (s1.me.pc + Hdr.len h))
/-- `sys.ifence` (R123, R284). -/
def execSysIfence (h : Hdr) (s : State) : Host.Outcome State Fault Refusal := finish (ifenceM s h)

/-- The course of `sys.tret`: T := TEPC, checked by R113. -/
def tretM (s : State) (h : Hdr) : M State := do
  let s1 ← s.issue (.sysTret h) h [] [] none
  s.transfer s1.me.tepc.toNat s1
/-- `sys.tret` (R284). -/
def execSysTret (h : Hdr) (s : State) : Host.Outcome State Fault Refusal := finish (tretM s h)

/-- The course of `sys.svc`. -/
def svcM (s : State) (h : Hdr) (n : BitVec 18) : M State := do
  let _ ← s.issue (.sysSvc h n) h [] [] none
  trapM s .svc (n.setWidth 64)
/-- `sys.svc` (R284): the trap SVC with TVAL n. -/
def execSysSvc (h : Hdr) (n : BitVec 18) (s : State) : Host.Outcome State Fault Refusal := finish (svcM s h n)

/-- The course of an instruction that writes one value it finds in the state. -/
def produceM (s : State) (i : Instr) (h : Hdr) (d : NameRef) (ok : Bool) (v : State → Nat) : M State := do
  let s1 ← s.issue i h [] [d] (illUnless i (s.oneDst d && ok))
  let s2 ← s.writeOne i d (v s1) s1
  pure (s2.done h)

/-- `sys.getc` (R284, R285). -/
def execSysGetc (h : Hdr) (k : BitVec 12) (d : NameRef) (s : State) : Host.Outcome State Fault Refusal :=
  finish (produceM s (.sysGetc h k d) h d (s.reg s.cur k.toNat).isSome fun z => ((z.reg z.cur k.toNat).getD 0).toNat)

/-- The course of `sys.setc` (R287). -/
def setcM (s : State) (h : Hdr) (k : BitVec 12) (d : NameRef) : M State := do
  let i : Instr := .sysSetc h k d
  let pre := if (s.reg s.cur k.toNat).isNone then some (.ill, instrVal i)
    else if s.settable k.toNat then none else some (.priv, k.setWidth 64)
  let s1 ← s.issue i h [d] [] pre
  let (x, s2) ← s.read i h d s1
  pure ((s2.setReg k.toNat (if x.ent.kind.isInt then w64 x.val else n64 x.pat)).done h)
/-- `sys.setc` (R284, R287). -/
def execSysSetc (h : Hdr) (k : BitVec 12) (d : NameRef) (s : State) : Host.Outcome State Fault Refusal := finish (setcM s h k d)

/-- A core's event counter (R286). -/
def Core.event (c : Core) (k : Nat) : BitVec 32 := if h : k < 64 then c.cevt[k] else 0

/-- `sys.rdevt` (R284). -/
def execSysRdevt (h : Hdr) (k : BitVec 12) (d : NameRef) (s : State) : Host.Outcome State Fault Refusal :=
  finish (produceM s (.sysRdevt h k d) h d (decide (k.toNat < 64)) fun z => (z.myCore.event k.toNat).toNat)

/-- The course of `sys.clrevt` (R284, R287). -/
def clrevtM (s : State) (h : Hdr) (k : BitVec 12) : M State := do
  let i : Instr := .sysClrevt h k
  let pre := if k.toNat ≥ 64 then some (.ill, instrVal i)
    else if s.me.priv || s.myCore.evu then none else some (.priv, k.setWidth 64)
  let s1 ← s.issue i h [] [] pre
  let c := s1.myCore
  pure ((s1.setMyCore (if hk : k.toNat < 64 then { c with cevt := c.cevt.set k.toNat 0 } else c)).done h)
/-- `sys.clrevt` (R284, R287). -/
def execSysClrevt (h : Hdr) (k : BitVec 12) (s : State) : Host.Outcome State Fault Refusal := finish (clrevtM s h k)

/-- `sys.cycle` (R284): the die cycle count, a 64-bit count. -/
def execSysCycle (h : Hdr) (d : NameRef) (s : State) : Host.Outcome State Fault Refusal :=
  finish (produceM s (.sysCycle h d) h d true fun z => z.cycle % 2 ^ 64)

/-! ## Unassigned encodings (R97, R98) -/

/-- The feature bit that governs an unassigned encoding (R98). -/
def featureBit (w0 : Word32) : Nat :=
  let m := fieldOf w0.toNat 2 6
  if m ≤ 30 then 64 + m else m

/-- UNASSIGNED_ENCODING: ILL, or FEATURE with entry to the emulation routine that the image head names (R97), as the word stood when the cycle
began. -/
def execUnassignedEncoding (w0 : BitVec 32) (s : State) : Host.Outcome State Fault Refusal :=
  let t := s.cur
  let pc := s.me.pc
  let a := 0x1000 + 8 * featureBit w0
  let e := s.wordBefore t.tile a
  let z := s.found t 0 s.myKernel.ctx (localKey t.tile a) 8
  .next (
    if e.2 then z.takeTrap t .poison pc (n64 a)
    else if e.1 = 0 then z.takeTrap t .ill pc (w0.setWidth 64)
    else if e.1 % 4 ≠ 0 then z.takeTrap t .align pc (n64 e.1)
    else if e.1 > 0x7_FFFC then z.takeTrap t .access pc (n64 e.1)
    else (z.setThread t (z.me.trapped Cause.feature.code pc (w0.setWidth 64))).redirect t e.1)

/-! ## Steps of a slot and of a wait -/

/-- FETCH_END_ACCESS: the next address of a thread is the end of local memory (R114). -/
def execFetchEndAccess (t : ThreadRef) (s : State) : Host.Outcome State Fault Refusal :=
  let x := s.thread t
  if x.st = .ready ∧ x.pc = 0x8_0000 then .next (s.takeTrap t .access x.lastPc 0x8_0000)
  else .refused (.notEnabled "FETCH_END_ACCESS: the thread's next address is not the end of local memory")

/-- ASYNC_TRAP_ENTRY: a pending asynchronous trap is taken before anything issues, with TEPC the address of the instruction that would
have issued (R290); an attached follower that takes one detaches (R205). -/
def execAsyncTrapEntry (t : ThreadRef) (s : State) : Host.Outcome State Fault Refusal :=
  let x := s.thread t
  match x.pend with
  | some (c, v) =>
    if x.st = .ready then
      let s1 := (s.setThread t { x with pend := none }).takeCode t c x.pc v
      .next (if x.vg = .attached then
        (s1.setThread t { s1.thread t with vg := .detached, vgIn := [], vgBuf := [] }).count t.coreRef 0x27 else s1)
    else .refused (.notEnabled "ASYNC_TRAP_ENTRY: the thread is not READY")
  | none => .refused (.notEnabled "ASYNC_TRAP_ENTRY: no trap is pending")

/-- LONG_OP_COMPLETE: an operation that outlasts eight cycles ends (R87): one that has had its effect lets its thread rejoin the rotation; one that
has still to write its result does so in the same cycle (R102). -/
def execLongOpComplete (t : ThreadRef) (s : State) : Host.Outcome State Fault Refusal :=
  let x := s.thread t
  match x.wait with
  | some w =>
    (match w.why with
    | .until c => if c ≤ s.cycle ∧ (x.st = .waiting ∨ x.st = .frozen) then .next (s.setThread t x.goes)
        else .refused (.notEnabled "LONG_OP_COMPLETE: the operation has not ended")
    | .run c => if c ≤ s.cycle ∧ (x.st = .waiting ∨ x.st = .frozen) then
          .next (s.setThread t { x with wait := some { w with why := .retry tagRan 0, ran := true } })
        else .refused (.notEnabled "LONG_OP_COMPLETE: the operation has not ended")
    | _ => .refused (.notEnabled "LONG_OP_COMPLETE: the thread waits for something else"))
  | none => .refused (.notEnabled "LONG_OP_COMPLETE: no operation under way")

/-- WAITLIM_EXPIRE: a bounded wait has reached its limit, and its instruction traps WAITLIM with no effect (R215, R216). -/
def execWaitlimExpire (t : ThreadRef) (s : State) : Host.Outcome State Fault Refusal :=
  let x := s.thread t
  match x.wait with
  | some w =>
    (match w.tval with
    | some v =>
      if s.expired t then
        let s1 := s.endWait t
        let s2 := if w.why.same (.retry tagResv 0) then s1.setThread t (s1.thread t).leaveGroup else s1
        .next (s2.takeTrap t .waitlim w.pc v)
      else .refused (.notEnabled "WAITLIM_EXPIRE: the limit is not reached")
    | none => .refused (.notEnabled "WAITLIM_EXPIRE: the wait is not bounded"))
  | none => .refused (.notEnabled "WAITLIM_EXPIRE: the thread does not wait")

/-- Marks the first `n` words still in an outbound queue as having left it: they may arrive from cycle `c` on. -/
def leaveQueue (c : Nat) : Nat → List (Nat × Word64) → List (Nat × Word64)
  | _, [] => []
  | 0, l => l
  | n + 1, (k, w) :: l => if k = 0 then (c, w) :: leaveQueue c n l else (k, w) :: leaveQueue c (n + 1) l
/-- Words leave a core's outbound queue of a direction while the neighbour's buffer has room for them and for those on their way; each arrives
four cycles later at the earliest (R160). -/
def State.portLeave (s : State) (r : CoreRef) (d : Dir) : State :=
  match tileNext r.tile d with
  | none => s
  | some n =>
    let q := (s.core r).portOut[dirIx d]
    let room := 16 - ((s.core ⟨n, r.core⟩).portIn[dirIx (dirBack d)].length + (q.filter (·.1 != 0)).length)
    if room = 0 ∨ q.all (·.1 != 0) = true then s
    else s.setCore r { s.core r with portOut := (s.core r).portOut.set (dirIx d) (leaveQueue (s.cycle + 4) room q) }
/-- MESH_WORD_ARRIVE: the oldest word of a neighbour's outbound queue, once it has left it and its four cycles are over, arrives in the port
buffer of direction `dir` (R160). -/
def execMeshWordArrive (k : CoreRef) (dir : Dir) (s : State) : Host.Outcome State Fault Refusal :=
  match tileNext k.tile dir with
  | none => .refused (.notEnabled "MESH_WORD_ARRIVE: no neighbour")
  | some n =>
    let from_ : CoreRef := ⟨n, k.core⟩
    let q := (s.core from_).portOut[dirIx (dirBack dir)]
    let b := (s.core k).portIn[dirIx dir]
    match q with
    | [] => .refused (.notEnabled "MESH_WORD_ARRIVE: nothing was sent")
    | (c, w) :: l =>
      if c = 0 ∨ s.cycle < c then .refused (.notEnabled "MESH_WORD_ARRIVE: the word is on its way")
      else if b.length ≥ 16 then .refused (.notEnabled "MESH_WORD_ARRIVE: the buffer is full")
      else
        let s1 := s.setCore from_ { s.core from_ with portOut := (s.core from_).portOut.set (dirIx (dirBack dir)) l }
        .next (s1.setCore k { s1.core k with portIn := (s1.core k).portIn.set (dirIx dir) (b ++ [w]) })

end Sys2Proof.Machine
end

