-- ==== Sys2Proof/Machine/Tasks.lean ====
section
/-! DEFINITION. Tasks, the hardware deque, steals and the tour (12 R227 to R230, R233 to R235; 14 R274, R275), and barriers (12 R222,
14 R276 to R278). -/
namespace Sys2Proof.Machine

/-! ## The deque (R227 to R229) -/

/-- The local address of spill position `p` of core `c` (R229). -/
def spillPos (c : Fin 3) (p : Nat) : Nat := 0x7_C000 + 0x400 * c.val + 16 * p

/-- A spilled record as its two words give it (R227): the entry address lies in bits [18:0]. -/
def State.spilled (s : State) (r : CoreRef) (p : Nat) : Task :=
  ⟨s.localWord r.tile (spillPos r.core p) % 2 ^ 19, n64 (s.localWord r.tile (spillPos r.core p + 8))⟩

/-- Marks the deque unit's operation of this cycle, and clears the owner of an emptied deque (R229, R230). -/
def Core.tookOne (c : Core) (cycle : Nat) : Core :=
  { c with dqUsed := cycle + 1, dqOwner := if c.dq.isEmpty ∧ c.scnt = 0 then none else c.dqOwner }

/-- Whether the deque unit has done its operation of this cycle (R230). -/
def Core.dqBusy (c : Core) (cycle : Nat) : Bool := c.dqUsed == cycle + 1

/-- Whether a core's deque holds a record. -/
def Core.dqHas (c : Core) : Bool := !c.dq.isEmpty || decide (c.scnt ≠ 0)

/-- What a take finds (R229). -/
inductive Taking
  | empty
  | record (t : Task)
  | poisoned (addr : Nat)
  deriving DecidableEq, Repr

/-- Takes a spilled record at position `p`, reading its two words (R157); one with an uncorrectable error is removed and counted. -/
def State.takeSpill (s : State) (r : CoreRef) (p : Nat) (head : BitVec 6) : Taking × State :=
  let c := s.core r
  let k := localKey r.tile (spillPos r.core p)
  let s1 := (s.setCore r ({ c with scnt := c.scnt - 1, shead := head }.tookOne s.cycle)).found ⟨r.tile, r.core, 0⟩ 0 (s.kernel ⟨r.tile, r.core, 0⟩).ctx k 16
  if s.poisoned k 16 then
    (.poisoned (s.poisonAt k 16 % 2 ^ 19), if (s.errorsAt k 16).any (·.2) then s1 else s1.count r 7)
  else (.record (s.spilled r p), s1)

/-- Takes the youngest record of a core's deque (R229). -/
def State.takeYoung (s : State) (r : CoreRef) : Taking × State :=
  let c := s.core r
  match c.dq.getLast? with
  | some t => (.record t, s.setCore r ({ c with dq := c.dq.dropLast }.tookOne s.cycle))
  | none =>
    if c.scnt = 0 then (.empty, s)
    else s.takeSpill r ((c.shead.toNat + c.scnt - 1) % 64) c.shead

/-- Takes the oldest record of a core's deque (R229). -/
def State.takeOld (s : State) (r : CoreRef) : Taking × State :=
  let c := s.core r
  if c.scnt ≠ 0 then s.takeSpill r c.shead.toNat (c.shead + 1)
  else match c.dq with
    | t :: l => (.record t, s.setCore r ({ c with dq := l }.tookOne s.cycle))
    | [] => (.empty, s)

/-- The core with a record pushed, for a deque with room (R229); the oldest hardware record to spill, if the hardware is full. -/
def Core.push (c : Core) (t : Task) (sb cycle : Nat) : Core :=
  { c with dq := c.dq ++ [t], dqOwner := some sb, dqLast := sb, dqUsed := cycle + 1 }

/-- Whether `d` may receive a record's argument (R274): `zero`, or a name of kind `uint` or `raw` and width 64. -/
def State.argDst (s : State) (d : NameRef) : Bool :=
  match d with
  | .fixed f => f == .zero
  | .cat _ => ((s.ent d).kind == .uint || (s.ent d).kind == .raw) && (s.ent d).width == 64

/-- A thread receives a record: its argument, written as an asynchronous write is (R70), and the record's entry as a redirect (R275). -/
def State.giveRecord (s : State) (t : ThreadRef) (d : NameRef) (pc : Nat) (k : Task) : State :=
  let s1 := match d with | .cat n => s.landInt t n k.arg.toNat | .fixed _ => s
  (s1.setThread t { (s1.thread t).goes with lastPc := pc }).redirect t k.entry

/-- A thread goes on behind its waiting instruction with nothing taken (R275). -/
def State.goOn (s : State) (t : ThreadRef) (pc len : Nat) : State :=
  s.setThread t { (s.thread t).goes with pc := pc + len, lastPc := pc }

/-- The course of `task.spawn` (R229, R275); the deque unit does one operation in a cycle (R230). -/
def spawnM (s : State) (h : Hdr) (a b : NameRef) : M State := do
  let i : Instr := .taskSpawn h a b
  let s1 ← s.issue i h [a, b] [] none
  let (x, s2) ← s.read i h a s1
  let (y, s3) ← s.read i h b s2
  match targetCause x.val with
  | some c => trapM s c (w64 x.val)
  | none =>
    let c := s3.myCore
    let sb := s3.myKernel.sb
    if c.dqBusy s3.cycle then holdM s i tagDeque none
    else if c.dqHas = true ∧ c.dqOwner ≠ some sb then trapM s .access 0
    else
      let k : Task := ⟨x.val.toNat, w64 y.val⟩
      if c.dq.length < 32 then pure ((s3.setMyCore (c.push k sb s3.cycle)).done h)
      else if c.scnt ≥ 64 then trapM s .deque 0
      else
        let o := c.dq.headD ⟨0, 0⟩
        let p := spillPos s3.cur.core ((c.shead.toNat + c.scnt) % 64)
        let s4 := (s3.putLocalWord s3.cur.tile p o.entry).putLocalWord s3.cur.tile (p + 8) o.arg.toNat
        pure ((s4.setMyCore ({ c with dq := c.dq.tail, scnt := c.scnt + 1 }.push k sb s3.cycle)).done h)
/-- `task.spawn` (R229, R275). -/
def execTaskSpawn (h : Hdr) (a b : NameRef) (s : State) : Host.Outcome State Fault Refusal := finish (spawnM s h a b)

/-- The course of `task.pop` (R229, R275): a kernel that does not own the deque finds it empty. -/
def popM (s : State) (h : Hdr) (d : NameRef) : M State := do
  let i : Instr := .taskPop h d
  let s1 ← s.issue i h [] [d] (illUnless i (s.argDst d))
  let r := s1.cur.coreRef
  if s1.myCore.dqOwner ≠ some s1.myKernel.sb then pure (s1.done h)
  else if s1.myCore.dqBusy s1.cycle then holdM s i tagDeque none
  else match s1.takeYoung r with
    | (.empty, s2) => pure (s2.done h)
    | (.record k, s2) => pure (s2.giveRecord s2.cur d s1.me.pc k)
    | (.poisoned a, s2) => .error (s2.takeTrap s2.cur .poison s1.me.pc (n64 a))
/-- `task.pop` (R229, R275). -/
def execTaskPop (h : Hdr) (d : NameRef) (s : State) : Host.Outcome State Fault Refusal := finish (popM s h d)

/-! ## Steals (R230) -/

/-- The direction after one, in the order n, e, s, w. -/
def dirAfter : Dir → Dir | .n => .e | .e => .s | .s => .w | .w => .n
/-- The four directions that a round tries, beginning after the one its core tried last. -/
def stealOrder (d : Dir) : List Dir :=
  [dirAfter d, dirAfter (dirAfter d), dirAfter (dirAfter (dirAfter d)), d]
/-- The neighbour tile of a thread's gang in a direction. -/
def State.victim (s : State) (t : ThreadRef) (d : Dir) : Option Nat :=
  match tileNext t.tile d with
  | some n => if (s.tile t.tile).gang.isSome ∧ (s.tile n).gang = (s.tile t.tile).gang ∧ tileCol n ≠ s.svc then some n else none
  | none => none
/-- The directions of a list in which a thread has a victim. -/
def State.victims (s : State) (t : ThreadRef) (l : List Dir) : List Dir := l.filter fun d => (s.victim t d).isSome

/-- Sends the next request of a thread's round: the state with it, or none when no direction is left. -/
def State.sendSteal (s : State) (t : ThreadRef) (l : List Dir) (w : WaitRec) : Option State :=
  match s.victims t l with
  | [] => none
  | d :: rest =>
    match s.victim t d with
    | none => none
    | some n =>
      let v : CoreRef := ⟨n, t.core⟩
      let s1 := s.setThread t { s.thread t with wait := some { w with why := .steal rest } }
      let s2 := s1.setCore t.coreRef { s1.core t.coreRef with stealDir := d }
      some (s2.setCore v { s2.core v with stealMsgs := (s2.core v).stealMsgs ++ [⟨t, d, s.cycle + 4, none, false⟩] })

/-- Whether a thread's request or its reply is on its way. -/
def State.stealing (s : State) (t : ThreadRef) : Bool :=
  s.tiles.any fun p => p.2.cores.toList.any fun c => c.stealMsgs.any fun m => m.thief == t

/-- The course of `task.steal`: a round over the neighbours; with none it obtains nothing (R230, R275). -/
def stealM (s : State) (h : Hdr) (d : NameRef) : M State := do
  let i : Instr := .taskSteal h d
  let s1 ← s.issue i h [] [d] (illUnless i (s.argDst d))
  let s2 := s1.setMe { s1.me with st := .waiting }
  match s2.sendSteal s2.cur (stealOrder s2.myCore.stealDir) (s1.newWait i (.steal [])) with
  | some s3 => pure s3
  | none => pure (s1.done h)
/-- `task.steal` (R230). -/
def execTaskSteal (h : Hdr) (d : NameRef) (s : State) : Host.Outcome State Fault Refusal := finish (stealM s h d)

/-- The course of `task.park`: the thread is PARKED (R218, R275). -/
def parkM (s : State) (h : Hdr) (d : NameRef) : M State := do
  let i : Instr := .taskPark h d
  let s1 ← s.issue i h [] [d] (illUnless i (s.argDst d))
  pure (s1.setMe { s1.me with st := .parked, wait := some (s1.newWait i (.steal [])) })
/-- `task.park` (R275). -/
def execTaskPark (h : Hdr) (d : NameRef) (s : State) : Host.Outcome State Fault Refusal := finish (parkM s h d)

/-- The destination of a task instruction that waits, its address and its length. -/
def WaitRec.taskWait (w : WaitRec) : Option (NameRef × Nat × Nat) :=
  match w.instr with
  | .taskSteal h d => some (d, w.pc, Hdr.len h)
  | .taskPark h d => some (d, w.pc, Hdr.len h)
  | _ => none

/-- The order of a steal request at its victim: arrival, then the port it came in on, n, e, s, w (R230). -/
def StealMsg.before (a b : StealMsg) : Bool :=
  decide (a.arrive < b.arrive) || (a.arrive == b.arrive && decide ((dirIx (dirBack a.dir)).val < (dirIx (dirBack b.dir)).val))

/-- Whether the deque of a victim core is owned by the thief's kernel of the same launch (R230). -/
def State.mayServe (s : State) (v : CoreRef) (t : ThreadRef) : Bool :=
  let k := s.kernel t
  match (s.core v).dqOwner with
  | some sb => (s.core v).kernels.any fun o => o.sb == sb && o.pos == k.pos && o.lid == k.lid && o.gang == k.gang
  | none => false

/-- STEAL_REQUEST: the deque unit of a core answers the oldest request that has arrived (R229, R230). -/
def execStealRequest (k : CoreRef) (s : State) : Host.Outcome State Fault Refusal :=
  let c := s.core k
  let ready := c.stealMsgs.filter fun m => !m.reply && decide (m.arrive ≤ s.cycle)
  match ready with
  | [] => .refused (.notEnabled "STEAL_REQUEST: no request has arrived")
  | m0 :: l =>
    let m := l.foldl (fun b x => if x.before b then x else b) m0
    if c.dqBusy s.cycle then .refused (.notEnabled "STEAL_REQUEST: the deque unit has done its operation of the cycle")
    else
      let s1 := s.setCore k { c with stealMsgs := c.stealMsgs.erase m, dqUsed := s.cycle + 1 }
      let p := if s.mayServe k m.thief then s1.takeOld k else (.empty, s1)
      let s2 := match p.1 with | .record _ => p.2.setCore k { p.2.core k with tourFlag := true } | _ => p.2
      let rec? := match p.1 with | .record t => some t | _ => none
      let h := m.thief.coreRef
      .next (s2.setCore h { s2.core h with stealMsgs := (s2.core h).stealMsgs ++ [⟨m.thief, m.dir, s.cycle + 4, rec?, true⟩] })

/-- A record comes back for a thread that waits for it no longer (R295): it goes to the thief's core, once its deque has room for it (log 31). -/
def State.keepRecord (s : State) (t : ThreadRef) (m : StealMsg) : Host.Outcome State Fault Refusal :=
  let c := s.core t.coreRef
  let c1 := { c with stealMsgs := c.stealMsgs.erase m }
  let sb := (s.kernel t).sb
  match m.rec? with
  | none => .next (s.setCore t.coreRef c1)
  | some k =>
    if c.dq.length < 32 ∧ (c.dqHas = false ∨ c.dqOwner = some sb) then .next (s.setCore t.coreRef (c1.push k sb s.cycle))
    else .refused (.notEnabled "STEAL_REPLY: the deque has no room")
/-- STEAL_REPLY: a reply reaches its thief, who takes the record or tries the next neighbour (R230, R275); a parked thread that a save has frozen
tries no other (R238). -/
def execStealReply (t : ThreadRef) (s : State) : Host.Outcome State Fault Refusal :=
  let c := s.core t.coreRef
  match c.stealMsgs.find? fun m => m.reply && m.thief == t && decide (m.arrive ≤ s.cycle) with
  | none => .refused (.notEnabled "STEAL_REPLY: no reply has arrived")
  | some m =>
    if c.repacking t.h then .refused (.notEnabled "STEAL_REPLY: a repack holds the kernel")
    else
      let s1 := s.setCore t.coreRef { c with stealMsgs := c.stealMsgs.erase m }
      match (s.thread t).wait with
      | none => s.keepRecord t m
      | some w =>
        match w.why, w.taskWait, m.rec? with
        | .steal _, some (d, pc, _), some k => .next (s1.giveRecord t d pc k)
        | .steal l, some (_, pc, len), none =>
          let parks := match w.instr with | .taskPark _ _ => true | _ => false
          (match (if parks && (s.thread t).st == .frozen then none else s1.sendSteal t l w) with
          | some s2 => .next s2
          | none => if parks then .next (s1.setThread t { s1.thread t with wait := some { w with why := .steal [] } })
              else .next (s1.goOn t pc len))
        | _, _, _ => s.keepRecord t m

/-- Whether a thread is parked with no exchange under way. -/
def State.idleParked (s : State) (t : ThreadRef) : Bool := (s.thread t).st == .parked && !s.stealing t

/-- PARK_STEAL_RETRY: the lowest parked thread of a kernel is woken with a record of its own core's deque, or, every 64 cycles, a parked thread has
a steal attempt made for it (R230); a thread whose attempt is under way is served once that has ended (log 104). -/
def execParkStealRetry (t : ThreadRef) (s : State) : Host.Outcome State Fault Refusal :=
  let c := s.core t.coreRef
  match (s.thread t).wait with
  | none => .refused (.notEnabled "PARK_STEAL_RETRY: the thread is not parked")
  | some w =>
    if !s.idleParked t || c.repacking t.h then .refused (.notEnabled "PARK_STEAL_RETRY: the thread is not parked, or an attempt is under way")
    else
      let k := s.kernel t
      let first := !((List.finRange 8).any fun h => decide (h.val < t.h.val) && (c.kernelOf h).map (·.sb) == some k.sb &&
        (c.threads[h]).st == .parked)
      if c.dqOwner = some k.sb ∧ c.dqHas = true ∧ c.dqBusy s.cycle = false ∧ first = true then
        match s.takeYoung t.coreRef, w.taskWait with
        | (.record r, s1), some (d, pc, _) => .next (s1.giveRecord t d pc r)
        | (.poisoned a, s1), some (_, pc, _) => .next (s1.takeTrap t .poison pc (n64 a))
        | _, _ => .refused (.notEnabled "PARK_STEAL_RETRY: nothing to take")
      else if w.since < s.cycle ∧ (s.cycle - w.since) % 64 = 0 then
        match s.sendSteal t (stealOrder c.stealDir) w with
        | some s1 => .next s1
        | none => .refused (.notEnabled "PARK_STEAL_RETRY: no neighbour")
      else .refused (.notEnabled "PARK_STEAL_RETRY: not due")

/-! ## The tour (R233 to R235) -/

/-- The ring of a gang's tiles (R233). -/
def State.ring (s : State) (g : Gang) : List Nat :=
  (List.range (g.gh + 1)).flatMap fun y =>
    let row := (List.range (g.gw + 1)).map fun x => s.gangTile g x y
    if y % 2 = 0 then row else row.reverse
/-- The cycles a message takes from ring position `p` to the next (R234). -/
def ringTime (ring : List Nat) (p : Nat) : Nat :=
  4 * hops (ring.getD p 0) (ring.getD ((p + 1) % ring.length) 0)

/-- The kernel of a bundle position on a core. -/
def Core.kernelAt (c : Core) (pos gang : Nat) : Option Kernel := c.kernels.find? fun k => k.pos == pos && k.gang == gang

/-- Whether a core is passive for a kernel (R233). -/
def State.passive (s : State) (r : CoreRef) (k : Kernel) : Bool :=
  let c := s.core r
  k.hthreads.all (fun h => c.threads[h].st == .halted || c.threads[h].st == .parked) && !c.dqHas && !c.stealMsgs.any (·.reply)

/-- The state with a tour of a gang changed. -/
def State.modTour (s : State) (g pos : Nat) (f : Tour → Tour) : State :=
  s.modGang g fun x => { x with tours := x.tours.map fun t => if t.pos = pos then f t else t }
/-- The tour of a bundle position. -/
def State.tour? (s : State) (g pos : Nat) : Option Tour := (s.gang? g).bind fun x => x.tours.find? (·.pos == pos)

/-- The course of `task.tour`: it arms the tour of the kernel's gang (R234, R274). -/
def tourM (s : State) (h : Hdr) : M State := do
  let s1 ← s.issue (.taskTour h) h [] [] none
  let k := s1.myKernel
  let s2 := match s1.tour? k.gang k.pos with
    | some _ => s1.modTour k.gang k.pos fun t => { t with armed := true }
    | none => s1.modGang k.gang fun x => { x with tours := x.tours ++ [(⟨k.pos, true, none, none, false⟩ : Tour)] }
  pure (s2.done h)
/-- `task.tour` (R234). -/
def execTaskTour (h : Hdr) (s : State) : Host.Outcome State Fault Refusal := finish (tourM s h)

/-- Whether the tour of a thread's kernel and gang has finished. -/
def State.tourDone (s : State) (t : ThreadRef) : Bool :=
  let k := s.kernel t
  match s.tour? k.gang k.pos with | some x => x.finished | none => false
/-- The course of `task.done`. -/
def taskDoneM (s : State) (h : Hdr) (d : NameRef) : M State := do
  let i : Instr := .taskDone h d
  let s1 ← s.issue i h [] [d] (illUnless i (s.argDst d))
  let s2 ← s.writeInt i d (if s1.tourDone s1.cur then 1 else 0) s1
  pure (s2.done h)
/-- `task.done` (R274). -/
def execTaskDone (h : Hdr) (d : NameRef) (s : State) : Host.Outcome State Fault Refusal := finish (taskDoneM s h d)

/-- The tours of the gang that holds a tile, with their kernels on a core, in order. -/
def State.toursAt (s : State) (r : CoreRef) : List (Nat × Gang × Tour × Kernel) :=
  match (s.tile r.tile).gang.bind fun g => (s.gang? g).map fun x => (g, x) with
  | some (g, x) => x.tours.filterMap fun t => ((s.core r).kernelAt t.pos g).map fun k => (g, x, t, k)
  | none => []

/-- TOUR_ROUND_START: an armed tour with no token out and a passive root sends one (R234). -/
def execTourRoundStart (k : CoreRef) (s : State) : Host.Outcome State Fault Refusal :=
  match (s.toursAt k).find? fun p => p.2.2.1.armed && !p.2.2.1.finished && p.2.2.1.token.isNone && p.2.2.1.finish.isNone &&
      (s.ring p.2.1).head? == some k.tile && s.passive k p.2.2.2 with
  | some (g, x, t, _) =>
    let s1 := s.setCore k { s.core k with tourFlag := false }
    .next (s1.modTour g t.pos fun t => { t with token := some (1, false, s.cycle + ringTime (s.ring x) 0) })
  | none => .refused (.notEnabled "TOUR_ROUND_START: no armed root is passive with its token at home")

/-- TOUR_TOKEN: the token is at a core; a core that is not passive holds it, the root ends the round (R234). -/
def execTourToken (k : CoreRef) (s : State) : Host.Outcome State Fault Refusal :=
  match (s.toursAt k).findSome? fun p => match p.2.2.1.token with
      | some (n, m, c) =>
        let ring := s.ring p.2.1
        if c ≤ s.cycle ∧ ring.getD (n % ring.length) 0 = k.tile ∧ (n = ring.length ∨ s.passive k p.2.2.2 = true) then some (p, n, m) else none
      | none => none with
  | some ((g, x, t, kn), n, m) =>
    let ring := s.ring x
    if n = ring.length then
      if !m ∧ (s.core k).tourFlag = false ∧ s.passive k kn = true then
        .next (s.modTour g t.pos fun t => { t with token := none, finished := true, finish := some (0, s.cycle) })
      else .next (s.modTour g t.pos fun t => { t with token := none })
    else
      let f := (s.core k).tourFlag
      let s1 := s.setCore k { s.core k with tourFlag := false }
      .next (s1.modTour g t.pos fun t => { t with token := some (n + 1, m || f, s.cycle + ringTime ring n) })
  | none => .refused (.notEnabled "TOUR_TOKEN: no token at a passive core")

/-- TOUR_FINISH: the finish message reaches a core and wakes the parked threads of the kernel (R235); a core whose threads a save has frozen, or
which have still to issue their `task.park` again after one, is passive once they have (R238, R241). -/
def execTourFinish (k : CoreRef) (s : State) : Host.Outcome State Fault Refusal :=
  match (s.toursAt k).findSome? fun p => match p.2.2.1.finish with
      | some (n, c) => if c ≤ s.cycle ∧ (s.ring p.2.1).getD n 0 = k.tile ∧ (s.core k).repack.isNone = true ∧ s.passive k p.2.2.2 = true then some (p, n) else none
      | none => none with
  | some ((g, x, t, kn), n) =>
    let ring := s.ring x
    let s1 := kn.hthreads.foldl (fun (z : State) h =>
      let r : ThreadRef := ⟨k.tile, k.core, h⟩
      match (z.thread r).wait with
      | some w => (match w.taskWait with
        | some (_, pc, len) => if (z.thread r).st = .parked then z.goOn r pc len else z
        | none => z)
      | none => z) s
    .next (s1.modTour g t.pos fun t => { t with finish := if n + 1 < ring.length then some (n + 1, s.cycle + ringTime ring n) else none })
  | none => .refused (.notEnabled "TOUR_FINISH: no finish message")

/-! ## Barriers (R222, R276 to R278) -/

/-- A full barrier phase. -/
abbrev tagBarFirst : Nat := 18
/-- The wait behind an arrival. -/
abbrev tagBar : Nat := 19

/-- The tiles of a barrier that a tile takes part in. -/
def State.barTiles (s : State) (tile : Nat) (lv : BarLevel) : List Nat :=
  match lv with
  | .crew => [tile]
  | _ => match (s.tile tile).gang.bind s.gang? with | some g => s.gangTiles g | none => [tile]
/-- Its completed phases (R277). -/
def State.barP (s : State) (tile : Nat) (lv : BarLevel) : BitVec 32 :=
  match lv with
  | .crew => (s.tile tile).crewP
  | _ => (((s.tile tile).gang.bind s.gang?).map (·.barP)).getD 0
/-- A thread's arrival at a barrier. -/
def Thread.arrival (x : Thread) (lv : BarLevel) : Option (BitVec 32 × Nat) := match lv with | .crew => x.crewArr | _ => x.gangArr
/-- Whether a thread has arrived for phase `p`. -/
def Thread.arrived (x : Thread) (lv : BarLevel) (p : BitVec 32) : Bool := match x.arrival lv with | some (q, _) => q == p | none => false
/-- The expected threads of a barrier (R222): every bound thread but the sampling threads (R309). -/
def State.expected (s : State) (tile : Nat) (lv : BarLevel) : List ThreadRef :=
  (s.barTiles tile lv).flatMap fun k => (List.finRange 3).flatMap fun c => (List.finRange 8).filterMap fun h =>
    let t : ThreadRef := ⟨k, c, h⟩
    if ((s.core t.coreRef).kernelOf h).map (·.gang) = (s.tile k).gang ∧ (s.thread t).st ≠ .empty ∧ s.sampling t = false then some t else none
/-- Whether every expected thread has arrived for the open phase and one of them by an instruction; the last cycle of it. -/
def State.allArrived (s : State) (tile : Nat) (lv : BarLevel) : Option Nat :=
  let p := s.barP tile lv
  let ts := (s.expected tile lv).map s.thread
  if ts.all (fun x => x.st == .halted || x.arrived lv p) && ts.any (fun x => x.arrived lv p) then
    some ((ts.map fun x => match x.arrival lv with
      | some (q, c) => if q = p then c else x.haltCyc
      | none => x.haltCyc).foldl max 0)
  else none

/-- The sums of the event counts over the cores of some tiles (R278). -/
def State.eventSums (s : State) (tiles : List Nat) : List Nat :=
  (List.range 64).map fun i => ((tiles.flatMap fun k => (s.tile k).cores.toList.map fun c => (c.event i).toNat)).sum
/-- Takes the sums for a `bar.stat` record when the last expected thread has just arrived (R278). -/
def State.takeSums (s : State) (tile : Nat) (lv : BarLevel) : State :=
  match s.allArrived tile lv with
  | none => s
  | some _ =>
    match lv with
    | .crew =>
      if (s.tile tile).crewStat.isEmpty then s
      else s.setTile tile { s.tile tile with crewSum := s.eventSums [tile] }
    | _ =>
      match (s.tile tile).gang with
      | some g => s.modGang g fun x => if x.barStat.isEmpty then x else { x with barSum := s.eventSums (s.barTiles tile lv) }
      | none => s

/-- The trap or refusal of levels 2 and 3, and of a sampling thread (R220, R309). -/
def State.barOk (s : State) (lv : BarLevel) : Bool := (lv == .crew || lv == .gang) && !s.sampling s.cur

/-- Records the current thread's arrival for phase `q` (R277). -/
def State.arrive (s : State) (lv : BarLevel) (q : BitVec 32) : State :=
  (s.setMe (match lv with
    | .crew => { s.me with crewArr := some (q, s.cycle) }
    | _ => { s.me with gangArr := some (q, s.cycle) })).takeSums s.cur.tile lv

/-- Whether phase `q` of a barrier has completed (R277). -/
def phaseDone (p q : BitVec 32) : Bool := decide ((p - q - 1).toNat < 2 ^ 31)

/-- The wait behind an arrival for phase `q`: not bounded. The names as they were before the instruction are kept (R295). -/
def State.waitPhase (s0 : State) (i : Instr) (h : Hdr) (lv : BarLevel) (q : BitVec 32) (s : State) : M State :=
  if phaseDone (s.barP s.cur.tile lv) q then .ok (s.done h)
  else
    let z := s.hold i (.retry tagBar q.toNat) none
    .error (z.setMe { z.me with wait := z.me.wait.map fun w => { w with src := (if (s0.stage.map (·.1)) = some tagBar then w.src else none).or (some (s0.latch s0.cur)) } })

/-- The course of `bar.arrive` and `bar.sync` (R277). -/
def arriveM (s : State) (i : Instr) (h : Hdr) (d : NameRef) (lv : BarLevel) (sync : Bool) : M State :=
  match s.stage with
  | some (19, q) => s.waitPhase i h lv (BitVec.ofNat 32 q) s
  | _ => do
    let s1 ← s.issue i h [] [d] (illUnless i (s.barOk lv && s.oneDst d))
    let q := s1.barP s1.cur.tile lv
    if s1.me.arrived lv q then holdM s i tagBarFirst (some (reasonVal 3 q.toNat))
    else
      let s2 ← s.writeKeep i d q.toNat s1
      let s3 := s2.arrive lv q
      if sync then s.waitPhase i h lv q s3 else pure (s3.done h)
/-- `bar.arrive` (R277). -/
def execBarArrive (h : Hdr) (d : NameRef) (lv : BarLevel) (s : State) : Host.Outcome State Fault Refusal :=
  finish (arriveM s (.barArrive h d lv) h d lv false)
/-- `bar.sync` (R277). -/
def execBarSync (h : Hdr) (d : NameRef) (lv : BarLevel) (s : State) : Host.Outcome State Fault Refusal :=
  finish (arriveM s (.barSync h d lv) h d lv true)

/-- The course of `bar.wait` (R277): bounded. -/
def barWaitM (s : State) (h : Hdr) (a : NameRef) (lv : BarLevel) : M State := do
  let i : Instr := .barWait h a lv
  let s1 ← s.issue i h [a] [] (illUnless i (s.barOk lv))
  let (x, s2) ← s.read i h a s1
  let q := BitVec.ofInt 32 x.val
  if phaseDone (s2.barP s2.cur.tile lv) q then pure (s2.done h) else holdM s i tagBarFirst (some (reasonVal 3 q.toNat))
/-- `bar.wait` (R277). -/
def execBarWait (h : Hdr) (a : NameRef) (lv : BarLevel) (s : State) : Host.Outcome State Fault Refusal := finish (barWaitM s h a lv)

/-- The course of `bar.done` (R277): the thread's flags contribution. -/
def barDoneM (s : State) (h : Hdr) (a : NameRef) : M State := do
  let i : Instr := .barDone h a
  let s1 ← s.issue i h [a] [] (illUnless i (!s.sampling s.cur))
  let (x, s2) ← s.read i h a s1
  pure ((s2.setMe { s2.me with flags := BitVec.ofInt 32 x.val }).done h)
/-- `bar.done` (R277). -/
def execBarDone (h : Hdr) (a : NameRef) (s : State) : Host.Outcome State Fault Refusal := finish (barDoneM s h a)

/-- Names the address of a record that the open phase's combining tree writes (R278). -/
def State.askSums (s : State) (lv : BarLevel) (a : Nat) : State :=
  match lv with
  | .crew => s.setMyTile { s.myTile with crewStat := if s.myTile.crewStat.contains a then s.myTile.crewStat else s.myTile.crewStat ++ [a] }
  | _ => match s.myTile.gang with
    | some g => s.modGang g fun x => { x with barStat := if x.barStat.contains (s.cur.tile, a) then x.barStat else x.barStat ++ [(s.cur.tile, a)] }
    | none => s

/-- The course of `bar.stat` (R277, R278). -/
def barStatM (s : State) (h : Hdr) (a : NameRef) (lv : BarLevel) : M State := do
  let i : Instr := .barStat h a lv
  match s.stage with
  | some (19, q) => s.waitPhase i h lv (BitVec.ofNat 32 q) s
  | _ => do
    let s1 ← s.issue i h [a] [] (illUnless i (s.barOk lv))
    let (x, s2) ← s.read i h a s1
    if x.val % 8 ≠ 0 ∨ x.val < 0 ∨ x.val > 0x7_FE00 then trapM s .access (w64 x.val)
    let q := s2.barP s2.cur.tile lv
    if s2.me.arrived lv q then holdM s i tagBarFirst (some (reasonVal 3 q.toNat))
    else s.waitPhase i h lv q ((s2.askSums lv x.val.toNat).arrive lv q)
/-- `bar.stat` (R277, R278). -/
def execBarStat (h : Hdr) (a : NameRef) (lv : BarLevel) (s : State) : Host.Outcome State Fault Refusal := finish (barStatM s h a lv)

/-- Writes a record of sums at an address of a tile's local memory, every word full (R278). -/
def State.putSums (s : State) (tile a : Nat) : List Nat → State
  | [] => s
  | v :: l => (s.putLocalWord tile a v).putSums tile (a + 8) l

/-- BARRIER_COMPLETE: a phase completes in the cycle after the last arrival; a phase asked for a record completes with it written (R222,
R277, R278). -/
def execBarrierComplete (tile : Nat) (lv : BarLevel) (s : State) : Host.Outcome State Fault Refusal :=
  match s.allArrived tile lv with
  | none => .refused (.notEnabled "BARRIER_COMPLETE: not every expected thread has arrived")
  | some c =>
    if s.cycle ≤ c then .refused (.notEnabled "BARRIER_COMPLETE: the last arrival is of this cycle")
    else match lv with
      | .crew =>
        let z := s.tile tile
        let s1 := z.crewStat.foldl (fun (y : State) a => y.putSums tile a z.crewSum) s
        .next (s1.setTile tile { s1.tile tile with crewP := z.crewP + 1, crewStat := [], crewSum := [] })
      | .gang =>
        (match (s.tile tile).gang.bind fun g => (s.gang? g).map fun x => (g, x) with
        | some (g, x) =>
          let s1 := x.barStat.foldl (fun (y : State) p => y.putSums p.1 p.2 x.barSum) s
          .next (s1.modGang g fun x => { x with barP := x.barP + 1, barStat := [], barSum := [] })
        | none => .refused (.notEnabled "BARRIER_COMPLETE: no gang holds the tile"))
      | _ => .refused (.notEnabled "BARRIER_COMPLETE: the level has no barrier")

/-! ## Status words (R231, R232) -/

/-- Combines two status words: the one named first wins a tie. `key` orders the reported threads (R232). -/
def joinWords (key : Nat → Nat) (a b : Nat) : Nat :=
  let ca := fieldOf a 56 8
  let cb := fieldOf b 56 8
  let pick := if cb = 0 then a else if ca = 0 then b else if key b < key a then b else a
  fieldOf pick 47 17 * 2 ^ 47 + min (fieldOf a 32 12 + fieldOf b 32 12) 0xFFF * 2 ^ 32 + (fieldOf a 0 32 ||| fieldOf b 0 32)
/-- The order within a gang: tile, then thread. -/
def wordKey (w : Nat) : Nat := fieldOf w 47 9

/-- The positions whose words a tile waits for: the east neighbour, and from column 0 the southern one (R231). -/
def childCount (g : Gang) (p : Nat × Nat) : Nat := (if p.1 < g.gw then 1 else 0) + (if p.1 = 0 ∧ p.2 < g.gh then 1 else 0)

/-- The status word of a tile for the kernel at a position, once it is formed: the kernel's threads there are HALTED and every child's word has
arrived (R231). -/
def State.wordOf (s : State) (g : Gang) (tile kern : Nat) : Option Word64 :=
  let t := s.tile tile
  (g.kerns[kern]?).bind fun b =>
    let c := t.cores[roleCore b.role]
    let kids := t.child.filter fun w => w.1 == kern
    (c.kernelAt kern g.id).bind fun k =>
      if t.sent.contains kern || !(k.hthreads.all fun h => c.threads[h].st == .halted) || decide (kids.length < childCount g (s.gangPos g tile)) then none
      else some (n64 (((k.hthreads.map fun h => (c.threads[h].contrib).toNat) ++ kids.map fun w => w.2.toNat).foldl (joinWords wordKey) 0))
/-- A tile sends the status words it has formed: over the mesh, 4 cycles to its parent (R231). -/
def State.sendWords (s : State) (tile : Nat) : State :=
  match (s.tile tile).gang.bind s.gang? with
  | none => s
  | some g =>
    if g.st ≠ .live then s
    else (List.range g.kerns.length).foldl (fun (z : State) j => match z.wordOf g tile j with
      | none => z
      | some w =>
        let p := z.gangPos g tile
        let z1 := z.setTile tile { z.tile tile with sent := (z.tile tile).sent ++ [j] }
        let z2 := { z1 with flying := z1.flying ++ [⟨g.lid, g.num, p, j, w, z.cycle + if p = (0, 0) then 0 else 4⟩] }
        if p = (0, 0) ∧ ((z.tile tile).sent ++ [j]).length = g.kerns.length then z2.modGang g.id fun x => { x with st := .draining } else z2) s
/-! ## sys.halt -/

/-- The course of `sys.halt` (R218, R222, R232, R302, R164). -/
def haltM (s : State) (h : Hdr) : M State := do
  let s1 ← s.issue (.sysHalt h) h [] [] none
  let s2 := s1.done h
  let s3 := s2.setMe { s2.me with st := .halted, contrib := s1.contribution s1.cur, haltCyc := s1.cycle }
  let s4 := s3.setMyCore (s3.myCore.dropPartial s3.cur.h)
  let s5 := s4.haltGroups s4.cur
  pure (((s5.takeSums s5.cur.tile .crew).takeSums s5.cur.tile .gang).sendWords s5.cur.tile)
/-- `sys.halt` (R284). -/
def execSysHalt (h : Hdr) (s : State) : Host.Outcome State Fault Refusal := finish (haltM s h)


end Sys2Proof.Machine
end

