-- ==== Sys2Proof/Machine/Vector.lean ====
section
/-! DEFINITION. Lane instructions: `vec`, `vecf`, `vred`, `vmov` 0x0 to 0x6, and `chk` (10 R178 to R186, R208 to R210). -/
namespace Sys2Proof.Machine

/-- Reads several source fields in order (R99). -/
def State.readAll (s0 : State) (i : Instr) (h : Hdr) : List NameRef → State → M (List Src × State)
  | [], s => .ok ([], s)
  | n :: l, s => do
    let (x, s1) ← s0.read i h n s
    let (xs, s2) ← s0.readAll i h l s1
    pure (x :: xs, s2)

/-! ## vec (R182) -/

/-- The course of an integer lane instruction: `f` gives lane j's result from lane j of each source (R178, R179, R182). -/
def vecM (s : State) (i : Instr) (h : Hdr) (d : NameRef) (fs : List NameRef) (lw : LaneW) (f : (Nat → Int) → Int) : M State := do
  let lam := laneBits lw
  let L := ilaneCount (s.ent d) lam
  let s1 ← s.issue i h fs [d] (illUnless i (L != 0 && fs.all fun n => lanesFit (ilaneCount (s.ent n) lam) L))
  let (xs, s2) ← s.readAll i h fs s1
  let ls := xs.map fun x => x.lanes lam
  let s3 ← s.writeLanes i d lam ((List.range L).map fun j => f fun k => pick 0 (ls.getD k []) j) s2
  pure (s3.done h)

/-- The shift count of a lane (R182). -/
def laneShift (b : Int) : Nat := wrapNat 10 b

/-- `vec.add` (R182). -/
def execVecAdd (h : Hdr) (d a b : NameRef) (lw : LaneW) (s : State) : Host.Outcome State Fault Refusal :=
  finish (vecM s (.vecAdd h d a b lw) h d [a, b] lw fun v => v 0 + v 1)
/-- `vec.sub` (R182). -/
def execVecSub (h : Hdr) (d a b : NameRef) (lw : LaneW) (s : State) : Host.Outcome State Fault Refusal :=
  finish (vecM s (.vecSub h d a b lw) h d [a, b] lw fun v => v 0 - v 1)
/-- `vec.mul` (R182). -/
def execVecMul (h : Hdr) (d a b : NameRef) (lw : LaneW) (s : State) : Host.Outcome State Fault Refusal :=
  finish (vecM s (.vecMul h d a b lw) h d [a, b] lw fun v => v 0 * v 1)
/-- `vec.mac` (R182): lane i of d is read last. -/
def execVecMac (h : Hdr) (d a b : NameRef) (lw : LaneW) (s : State) : Host.Outcome State Fault Refusal :=
  finish (vecM s (.vecMac h d a b lw) h d [a, b, d] lw fun v => v 2 + v 0 * v 1)
/-- `vec.min` (R182). -/
def execVecMin (h : Hdr) (d a b : NameRef) (lw : LaneW) (s : State) : Host.Outcome State Fault Refusal :=
  finish (vecM s (.vecMin h d a b lw) h d [a, b] lw fun v => min (v 0) (v 1))
/-- `vec.max` (R182). -/
def execVecMax (h : Hdr) (d a b : NameRef) (lw : LaneW) (s : State) : Host.Outcome State Fault Refusal :=
  finish (vecM s (.vecMax h d a b lw) h d [a, b] lw fun v => max (v 0) (v 1))
/-- `vec.and` (R182). -/
def execVecAnd (h : Hdr) (d a b : NameRef) (lw : LaneW) (s : State) : Host.Outcome State Fault Refusal :=
  finish (vecM s (.vecAnd h d a b lw) h d [a, b] lw fun v => intAnd (v 0) (v 1))
/-- `vec.or` (R182). -/
def execVecOr (h : Hdr) (d a b : NameRef) (lw : LaneW) (s : State) : Host.Outcome State Fault Refusal :=
  finish (vecM s (.vecOr h d a b lw) h d [a, b] lw fun v => intOr (v 0) (v 1))
/-- `vec.xor` (R182). -/
def execVecXor (h : Hdr) (d a b : NameRef) (lw : LaneW) (s : State) : Host.Outcome State Fault Refusal :=
  finish (vecM s (.vecXor h d a b lw) h d [a, b] lw fun v => intXor (v 0) (v 1))
/-- `vec.shl` (R182). -/
def execVecShl (h : Hdr) (d a b : NameRef) (lw : LaneW) (s : State) : Host.Outcome State Fault Refusal :=
  finish (vecM s (.vecShl h d a b lw) h d [a, b] lw fun v => v 0 * 2 ^ laneShift (v 1))
/-- `vec.shr` (R182). -/
def execVecShr (h : Hdr) (d a b : NameRef) (lw : LaneW) (s : State) : Host.Outcome State Fault Refusal :=
  finish (vecM s (.vecShr h d a b lw) h d [a, b] lw fun v => v 0 / 2 ^ laneShift (v 1))
/-- `vec.abs` (R182). -/
def execVecAbs (h : Hdr) (d a : NameRef) (lw : LaneW) (s : State) : Host.Outcome State Fault Refusal :=
  finish (vecM s (.vecAbs h d a lw) h d [a] lw fun v => ((v 0).natAbs : Int))
/-- `vec.sel` (R182). -/
def execVecSel (h : Hdr) (d a b c : NameRef) (lw : LaneW) (s : State) : Host.Outcome State Fault Refusal :=
  finish (vecM s (.vecSel h d a b c lw) h d [a, b, c] lw fun v => if v 2 ≠ 0 then v 0 else v 1)

/-! ## vecf (R183) -/

/-- The course of a floating lane instruction (R178, R179, R183): each lane's exact result is rounded once. -/
def vecfM (s : State) (i : Instr) (h : Hdr) (d : NameRef) (fs : List NameRef) (lf : LaneF) (rnd : Rnd) (lat : Nat)
    (f : RMode → (Nat → FVal) → XVal) : M State := do
  let g := laneFF lf
  let L := flaneCount (s.ent d) g
  let s1 ← s.issue i h fs [d] (illUnless i (L != 0 && fs.all fun n => lanesFit (flaneCount (s.ent n) g) L))
  let (xs, s2) ← s.readAll i h fs s1
  let ls := xs.map fun x => x.flanes g
  let md := rmodeOf rnd (s.ent d)
  let s3 ← s.runFor i lat s2
  let s4 ← afterRun (s.writeFlanes i d g rnd .each ((List.range L).map fun j => f md fun k => pick .nan (ls.getD k []) j) s3)
  pure (s4.done h)

/-- The smaller of two values; NaN if either is (R183). -/
def FVal.minOf (a b : FVal) : FVal := if a.isNan || b.isNan then .nan else if b.lt a then b else a
/-- The larger of two values; NaN if either is (R183). -/
def FVal.maxOf (a b : FVal) : FVal := if a.isNan || b.isNan then .nan else if a.lt b then b else a

/-- `vecf.add` (R183). -/
def execVecfAdd (h : Hdr) (d a b : NameRef) (lf : LaneF) (rnd : Rnd) (s : State) : Host.Outcome State Fault Refusal :=
  finish (vecfM s (.vecfAdd h d a b lf rnd) h d [a, b] lf rnd 8 fun md v => (FVal.sum md [v 0, v 1]).x)
/-- `vecf.sub` (R183). -/
def execVecfSub (h : Hdr) (d a b : NameRef) (lf : LaneF) (rnd : Rnd) (s : State) : Host.Outcome State Fault Refusal :=
  finish (vecfM s (.vecfSub h d a b lf rnd) h d [a, b] lf rnd 8 fun md v => (FVal.sum md [v 0, (v 1).negate]).x)
/-- `vecf.mul` (R183). -/
def execVecfMul (h : Hdr) (d a b : NameRef) (lf : LaneF) (rnd : Rnd) (s : State) : Host.Outcome State Fault Refusal :=
  finish (vecfM s (.vecfMul h d a b lf rnd) h d [a, b] lf rnd 8 fun _ v => ((v 0).mul (v 1)).x)
/-- `vecf.fma` (R183): one rounding. -/
def execVecfFma (h : Hdr) (d a b c : NameRef) (lf : LaneF) (rnd : Rnd) (s : State) : Host.Outcome State Fault Refusal :=
  finish (vecfM s (.vecfFma h d a b c lf rnd) h d [a, b, c] lf rnd 8 fun md v => (FVal.sum md [(v 0).mul (v 1), v 2]).x)
/-- `vecf.min` (R183). -/
def execVecfMin (h : Hdr) (d a b : NameRef) (lf : LaneF) (rnd : Rnd) (s : State) : Host.Outcome State Fault Refusal :=
  finish (vecfM s (.vecfMin h d a b lf rnd) h d [a, b] lf rnd 8 fun _ v => ((v 0).minOf (v 1)).x)
/-- `vecf.max` (R183). -/
def execVecfMax (h : Hdr) (d a b : NameRef) (lf : LaneF) (rnd : Rnd) (s : State) : Host.Outcome State Fault Refusal :=
  finish (vecfM s (.vecfMax h d a b lf rnd) h d [a, b] lf rnd 8 fun _ v => ((v 0).maxOf (v 1)).x)
/-- `vecf.exp2` (R183). -/
def execVecfExp2 (h : Hdr) (d a : NameRef) (lf : LaneF) (rnd : Rnd) (s : State) : Host.Outcome State Fault Refusal :=
  finish (vecfM s (.vecfExp2 h d a lf rnd) h d [a] lf rnd 16 fun _ v => (v 0).exp2)
/-- `vecf.rcp` (R183). -/
def execVecfRcp (h : Hdr) (d a : NameRef) (lf : LaneF) (rnd : Rnd) (s : State) : Host.Outcome State Fault Refusal :=
  finish (vecfM s (.vecfRcp h d a lf rnd) h d [a] lf rnd 16 fun _ v => (v 0).rcp)
/-- `vecf.rsqrt` (R183). -/
def execVecfRsqrt (h : Hdr) (d a : NameRef) (lf : LaneF) (rnd : Rnd) (s : State) : Host.Outcome State Fault Refusal :=
  finish (vecfM s (.vecfRsqrt h d a lf rnd) h d [a] lf rnd 16 fun _ v => (v 0).rsqrt)
/-- `vecf.scale` (R183). -/
def execVecfScale (h : Hdr) (d a b : NameRef) (lf : LaneF) (rnd : Rnd) (s : State) : Host.Outcome State Fault Refusal :=
  finish (vecfM s (.vecfScale h d a b lf rnd) h d [a, b] lf rnd 8 fun _ v => ((v 0).scale (v 1)).x)

/-! ## vred (R184) -/

/-- The course of a reduction of integer lanes to one value, written through R69 under the instruction's rounding. -/
def vredIntM (s : State) (i : Instr) (h : Hdr) (d a : NameRef) (lw : LaneW) (rnd : Rnd) (f : List Int → Int) : M State := do
  let lam := laneBits lw
  let s1 ← s.issue i h [a] [d] (illUnless i (ilaneCount (s.ent a) lam != 0 && s.oneDst d))
  let (x, s2) ← s.read i h a s1
  let s3 ← s.writeRnd i d rnd (f (x.lanes lam)) s2
  pure (s3.done h)
/-- The course of a reduction of floating lanes to one floating value, written as one lane (R179). -/
def vredFltM (s : State) (i : Instr) (h : Hdr) (d a : NameRef) (lf : LaneF) (rnd : Rnd) (f : RMode → List FVal → FVal) : M State := do
  let g := laneFF lf
  let s1 ← s.issue i h [a] [d] (illUnless i (flaneCount (s.ent a) g != 0 && flaneCount (s.ent d) g != 0 && s.oneDst d))
  let (x, s2) ← s.read i h a s1
  let s3 ← s.writeFlanes i d g rnd .usual [(f (rmodeOf rnd (s.ent d)) (x.flanes g)).x] s2
  pure (s3.done h)
/-- A reduction in either form. -/
def vredM (s : State) (i : Instr) (h : Hdr) (d a : NameRef) (lw : LaneW) (lf : LaneF) (fl : Bool) (rnd : Rnd) (f : List Int → Int)
    (g : RMode → List FVal → FVal) : M State :=
  if fl then vredFltM s i h d a lf rnd g else vredIntM s i h d a lw rnd f

/-- The largest of lanes. -/
def intMax (l : List Int) : Int := l.tail.foldl max (l.headD 0)
/-- The smallest of lanes. -/
def intMin (l : List Int) : Int := l.tail.foldl min (l.headD 0)
/-- The index of the first lane equal to one. -/
def indexOf {α : Type} [BEq α] (l : List α) (x : α) : Nat := l.findIdx (· == x)
/-- The index of the largest floating lane; with NaNs, of the lowest NaN lane (R184). -/
def fArgmax (l : List FVal) : Nat :=
  if l.any FVal.isNan then l.findIdx FVal.isNan
  else (l.zipIdx.foldl (fun (b : Nat × FVal) p => if b.2.lt p.1 then (p.2, p.1) else b) (0, l.headD .nan)).1

/-- `vred.sum` (R184). -/
def execVredSum (h : Hdr) (d a : NameRef) (lw : LaneW) (lf : LaneF) (fl : Bool) (rnd : Rnd) (s : State) : Host.Outcome State Fault Refusal :=
  finish (vredM s (.vredSum h d a lw lf fl rnd) h d a lw lf fl rnd List.sum FVal.sum)
/-- `vred.max` (R184). -/
def execVredMax (h : Hdr) (d a : NameRef) (lw : LaneW) (lf : LaneF) (fl : Bool) (rnd : Rnd) (s : State) : Host.Outcome State Fault Refusal :=
  finish (vredM s (.vredMax h d a lw lf fl rnd) h d a lw lf fl rnd intMax fun _ l => l.tail.foldl FVal.maxOf (l.headD .nan))
/-- `vred.min` (R184). -/
def execVredMin (h : Hdr) (d a : NameRef) (lw : LaneW) (lf : LaneF) (fl : Bool) (rnd : Rnd) (s : State) : Host.Outcome State Fault Refusal :=
  finish (vredM s (.vredMin h d a lw lf fl rnd) h d a lw lf fl rnd intMin fun _ l => l.tail.foldl FVal.minOf (l.headD .nan))
/-- `vred.sumsq` (R184). -/
def execVredSumsq (h : Hdr) (d a : NameRef) (lw : LaneW) (lf : LaneF) (fl : Bool) (rnd : Rnd) (s : State) : Host.Outcome State Fault Refusal :=
  finish (vredM s (.vredSumsq h d a lw lf fl rnd) h d a lw lf fl rnd (fun l => (l.map fun x => x * x).sum)
    fun md l => FVal.sum md (l.map fun x => x.mul x))

/-- The course of `vred.argmax` over floating lanes: an index, written through R69 under the instruction's rounding. -/
def argmaxFM (s : State) (i : Instr) (h : Hdr) (d a : NameRef) (lf : LaneF) (rnd : Rnd) : M State := do
  let g := laneFF lf
  let s1 ← s.issue i h [a] [d] (illUnless i (flaneCount (s.ent a) g != 0 && s.oneDst d))
  let (x, s2) ← s.read i h a s1
  let s3 ← s.writeRnd i d rnd (fArgmax (x.flanes g)) s2
  pure (s3.done h)
/-- `vred.argmax` (R184). -/
def execVredArgmax (h : Hdr) (d a : NameRef) (lw : LaneW) (lf : LaneF) (fl : Bool) (rnd : Rnd) (s : State) : Host.Outcome State Fault Refusal :=
  let i : Instr := .vredArgmax h d a lw lf fl rnd
  finish (if fl then argmaxFM s i h d a lf rnd else vredIntM s i h d a lw rnd fun l => (indexOf l (intMax l) : Int))

/-- The course of `vred.scan` (R184): prefix sums, each rounded from its exact value; twelve cycles (R181). -/
def scanM (s : State) (i : Instr) (h : Hdr) (d a : NameRef) (lw : LaneW) (lf : LaneF) (fl : Bool) (rnd : Rnd) : M State := do
  let lam := laneBits lw
  let g := laneFF lf
  let na := if fl then flaneCount (s.ent a) g else ilaneCount (s.ent a) lam
  let nd := if fl then flaneCount (s.ent d) g else ilaneCount (s.ent d) lam
  let s1 ← s.issue i h [a] [d] (illUnless i (na != 0 && nd == na))
  let (x, s2) ← s.read i h a s1
  let s3 ← s.runFor i 12 s2
  let s4 ← afterRun (if fl then
      let l := x.flanes g
      s.writeFlanes i d g rnd .usual ((List.range na).map fun j => (FVal.sum (rmodeOf rnd (s.ent d)) (l.take (j + 1))).x) s3
    else
      let l := x.lanes lam
      s.writeLanes i d lam ((List.range na).map fun j => (l.take (j + 1)).sum) s3)
  pure (s4.done h)
/-- `vred.scan` (R184). -/
def execVredScan (h : Hdr) (d a : NameRef) (lw : LaneW) (lf : LaneF) (fl : Bool) (rnd : Rnd) (s : State) : Host.Outcome State Fault Refusal :=
  finish (scanM s (.vredScan h d a lw lf fl rnd) h d a lw lf fl rnd)

/-! ## vmov 0x0 to 0x6 (R185, R186) -/

/-- The course of `vmov.mov`. -/
def vmovM (s : State) (h : Hdr) (d a : NameRef) : M State := do
  let i : Instr := .vmovMov h d a
  let s1 ← s.issue i h [a] [d] (illUnless i (isCat d && isCat a))
  let (x, s2) ← s.read i h a s1
  let s3 ← s.putPat i d x.pat s2
  pure (s3.done h)
/-- `vmov.mov` (R185). -/
def execVmovMov (h : Hdr) (d a : NameRef) (s : State) : Host.Outcome State Fault Refusal := finish (vmovM s h d a)

/-- The lane at an index, 0 outside (R185). -/
def laneOr0 (l : List Int) (j : Int) : Int := if 0 ≤ j ∧ j < l.length then l.getD j.toNat 0 else 0

/-- The course of `vmov.bcast`, `vmov.perm` and `vmov.unpack`: a's lanes at `la` are indexed for d's lanes at `lam`; `ix` gives the
index for a position from `b`; `nb`: whether `b` is read as lanes. -/
def indexM (s : State) (i : Instr) (h : Hdr) (d a b : NameRef) (la lam : Nat) (ok : Bool) (nb : Bool) (ix : Src → Nat → Int) : M State := do
  let L := ilaneCount (s.ent d) lam
  let s1 ← s.issue i h [a, b] [d] (illUnless i (ok && L != 0 && ilaneCount (s.ent a) la != 0 &&
    (!nb || lanesFit (ilaneCount (s.ent b) lam) L)))
  let (x, s2) ← s.read i h a s1
  let (y, s3) ← s.read i h b s2
  let l := x.lanes la
  let s4 ← s.writeLanes i d lam ((List.range L).map fun j => laneOr0 l (ix y j)) s3
  pure (s4.done h)
/-- `vmov.bcast` (R185). -/
def execVmovBcast (h : Hdr) (d a b : NameRef) (lw : LaneW) (s : State) : Host.Outcome State Fault Refusal :=
  finish (indexM s (.vmovBcast h d a b lw) h d a b (laneBits lw) (laneBits lw) true false fun y _ => y.val)
/-- `vmov.perm` (R185). -/
def execVmovPerm (h : Hdr) (d a b : NameRef) (lw : LaneW) (s : State) : Host.Outcome State Fault Refusal :=
  finish (indexM s (.vmovPerm h d a b lw) h d a b (laneBits lw) (laneBits lw) true true fun y j => pick 0 (y.lanes (laneBits lw)) j)
/-- `vmov.unpack` (R185). -/
def execVmovUnpack (h : Hdr) (d a b : NameRef) (lw : LaneW) (s : State) : Host.Outcome State Fault Refusal :=
  finish (indexM s (.vmovUnpack h d a b lw) h d a b (laneBits lw / 2) (laneBits lw) (lw != .l8) false fun y j => y.val + j)

/-- The course of `vmov.pack` (R185). -/
def packM (s : State) (h : Hdr) (d a b : NameRef) (lw : LaneW) : M State := do
  let i : Instr := .vmovPack h d a b lw
  let lam := laneBits lw
  let zb := b == .fixed .zero
  let L := ilaneCount (s.ent d) (lam / 2)
  let na := ilaneCount (s.ent a) lam
  let nb := if zb then 0 else ilaneCount (s.ent b) lam
  let s1 ← s.issue i h [a, b] [d] (illUnless i (lw != .l8 && L != 0 && na != 0 && (zb || nb != 0) && decide (na + nb ≤ L)))
  let (x, s2) ← s.read i h a s1
  let (y, s3) ← s.read i h b s2
  let l := x.lanes lam ++ if zb then [] else y.lanes lam
  let s4 ← s.writeLanes i d (lam / 2) ((List.range L).map fun j => l.getD j 0) s3
  pure (s4.done h)
/-- `vmov.pack` (R185). -/
def execVmovPack (h : Hdr) (d a b : NameRef) (lw : LaneW) (s : State) : Host.Outcome State Fault Refusal := finish (packM s h d a b lw)

/-- Words that a name of width w takes in a message (R186). -/
def msgWords (w : Nat) : Nat := (w + 63) / 64
/-- The course of `vmov.send` (R186). -/
def sendM (s : State) (h : Hdr) (d a : NameRef) : M State := do
  let i : Instr := .vmovSend h d a
  let s1 ← s.issue i h [a] [d] (illUnless i ((portDir d).isSome && isCat a))
  let (x, s2) ← s.read i h a s1
  let dir := (portDir d).getD .n
  let s3 ← s.send i dir ((List.range (msgWords x.ent.width)).map fun j => n64 (x.pat / 2 ^ (64 * j))) (some (reasonVal 2 (dirName dir))) s2
  pure (s3.done h)
/-- `vmov.send` (R186). -/
def execVmovSend (h : Hdr) (d a : NameRef) (s : State) : Host.Outcome State Fault Refusal := finish (sendM s h d a)

/-- The pattern of words, low word first. -/
def ofWords (l : List Word64) : Nat := l.foldr (fun w acc => w.toNat + 2 ^ 64 * acc) 0
/-- The course of `vmov.recv` (R186). -/
def recvM (s : State) (h : Hdr) (d a : NameRef) : M State := do
  let i : Instr := .vmovRecv h d a
  let s1 ← s.issue i h [] [a, d] (illUnless i ((portDir a).isSome && isCat d))
  let dir := (portDir a).getD .n
  let k := msgWords (s.ent d).width
  let q := s1.inbound dir
  if decide (q.length < k) || s1.myCore.portAhead s1.cur.h s.mySeq a then holdM s i tagPort (some (reasonVal 1 (dirName dir)))
  let s2 ← s.putPat i d (ofWords (q.take k)) (s1.setInbound dir (q.drop k))
  pure (s2.done h)
/-- `vmov.recv` (R186). -/
def execVmovRecv (h : Hdr) (d a : NameRef) (s : State) : Host.Outcome State Fault Refusal := finish (recvM s h d a)

/-! ## chk (R208, R209) -/

/-- The sum that `chk.acc` folds: the lanes that cover every bit of a pattern, sign-extended for `sint`. -/
def foldSum (x : Src) (lam : Nat) : Int :=
  let L := (x.ent.width + lam - 1) / lam
  if x.ent.kind = .sint then
    let p := wrapNat (lam * L) x.val
    ((List.range L).map fun i => signedOf lam (laneAt p lam i)).sum
  else ((List.range L).map fun i => (laneAt x.pat lam i : Int)).sum

/-- Whether `d` is `uint` or `raw`. -/
def State.chkDst (s : State) (d : NameRef) : Bool := (s.ent d).kind == .uint || (s.ent d).kind == .raw

/-- The course of `chk.acc` (R208). -/
def chkAccM (s : State) (h : Hdr) (d a : NameRef) (lw : LaneW) (ng : Bool) : M State := do
  let i : Instr := .chkAcc h d a lw ng
  let s1 ← s.issue i h [a, d] [] (illUnless i (s.chkDst d))
  let (x, s2) ← s.read i h a s1
  let (y, s3) ← s.read i h d s2
  let f := foldSum x (laneBits lw)
  let r := if ng then y.val - f else y.val + f
  let s4 ← s.putPat i d (wrapNat y.ent.width r) s3
  pure (s4.done h)
/-- `chk.acc` (R208). -/
def execChkAcc (h : Hdr) (d a : NameRef) (lw : LaneW) (ng : Bool) (s : State) : Host.Outcome State Fault Refusal :=
  finish (chkAccM s h d a lw ng)

/-- The number of a name: a fixed name's is its extended one (R65, R209). -/
def nameNumber : NameRef → Nat
  | .cat n => n.toNat
  | .fixed f => match f with | .zero => 504 | .portN => 505 | .portE => 506 | .portS => 507 | .portW => 508 | .portEng => 509 | .tid => 510 | .lit => 511

/-- The course of `chk.test` (R209): a trap keeps its event. -/
def chkTestM (s : State) (h : Hdr) (a b : NameRef) : M State := do
  let i : Instr := .chkTest h a b
  let s1 ← s.issue i h [a, b] [] none
  let (x, s2) ← s.read i h a s1
  let (y, s3) ← s.read i h b s2
  if x.val ≠ y.val then trapM (s.count s.cur.coreRef 0x26) .check (n64 (nameNumber a * 2 ^ 16 + nameNumber b))
  else pure (s3.done h)
/-- `chk.test` (R209). -/
def execChkTest (h : Hdr) (a b : NameRef) (s : State) : Host.Outcome State Fault Refusal := finish (chkTestM s h a b)

/-- The course of `chk.clr` (R209). -/
def chkClrM (s : State) (h : Hdr) (d : NameRef) : M State := do
  let i : Instr := .chkClr h d
  let s1 ← s.issue i h [] [d] (illUnless i (s.chkDst d))
  let s2 ← s.putPat i d 0 s1
  pure (s2.done h)
/-- `chk.clr` (R209). -/
def execChkClr (h : Hdr) (d : NameRef) (s : State) : Host.Outcome State Fault Refusal := finish (chkClrM s h d)

end Sys2Proof.Machine
end

