-- ==== Sys2Proof/Machine/Convert.lean ====
section
/-! DEFINITION. Conversions: the `cvt` major (10 R187 to R191) and channel quantisation (08 R141). -/
namespace Sys2Proof.Machine

/-! ## Channels (R141) -/

/-- The smallest k with span x 2^e <= 255 x 2^k, for span > 0. -/
def spanScale (span : Nat) (e : Int) : Int :=
  let k0 : Int := (Nat.log2 span : Int) + e - 9
  (((List.range 5).map fun (j : Nat) => k0 + (j : Int)).find? fun k => leDyadic span e 255 k).getD (k0 + 5)

/-- A clamped integer. -/
def clampInt (lo hi x : Int) : Int := max lo (min hi x)

/-- A quantised channel (R141): codes, X, z as an 8-bit code, and the counts. `sup`: supplied X and z codes. -/
def quantChan (sgn : Bool) (md : RMode) (rs : List Nat) (sup : Option (Nat × Nat)) (vs : List FVal) : List Nat × Nat × Nat × QCount :=
  let qmin : Int := if sgn then -128 else 0
  let qmax : Int := if sgn then 127 else 255
  let z0 : Int := match sup with | some p => (if sgn then signedOf 8 p.2 else p.2) | none => 0
  if vs.any FVal.isNan then (vs.map fun _ => wrapNat 8 z0, 127, wrapNat 8 z0, { QCount.zero with nan := 1 })
  else if sup.map (·.1) = some 255 then (vs.map fun _ => wrapNat 8 z0, 255, wrapNat 8 z0, { QCount.zero with nan := 1 })
  else
    let fin := vs.filter FVal.isFin
    let e0 := fin.foldl (fun k v => min k v.exp) 0
    let us := fin.map (FVal.units e0)
    let lo := us.tail.foldl min (us.headD 0)
    let hi := us.tail.foldl max (us.headD 0)
    let span := (hi - lo).toNat
    let inf (n : Bool) : Nat × Bool × Bool := (wrapNat 8 (if n then qmin else qmax), true, false)
    if span = 0 then
      let es := vs.map fun v => match v with | .inf n => inf n | _ => (wrapNat 8 z0, false, false)
      (es.map (·.1), ((sup.map (·.1)).getD 127), wrapNat 8 z0, { countElems es with zr := 1 })
    else
      let X : Nat := match sup with | some p => p.1 | none => (clampInt 0 254 (spanScale span e0 + 127)).toNat
      let z : Int := match sup with
        | some _ => z0
        | none => clampInt qmin qmax (qmin - ((((FVal.ofInt false lo e0).scaleBy (127 - (X : Int))).x.toInt .rne 0).getD 0))
      let es := (List.range vs.length).map fun i =>
        match vs.getD i .nan with
        | .inf n => inf n
        | v =>
          let q := (((v.scaleBy (127 - (X : Int))).x.toInt md (rs.getD i 0 % 2 ^ 24)).getD 0) + z
          let y := clampInt qmin qmax q
          (wrapNat 8 y, decide (y ≠ q), !v.isZero && decide (y = z))
      (es.map (·.1), X, wrapNat 8 z, countElems es)

/-- Which values of a channel are rounded (R137, R141): the finite ones, where the channel has neither a NaN, nor zero range, nor a supplied X of
255. -/
def maskChan (sup : Option (Nat × Nat)) (vs : List FVal) : List Bool :=
  let fin := vs.filter FVal.isFin
  let e0 := fin.foldl (fun k v => min k v.exp) 0
  let us := fin.map (FVal.units e0)
  let flat := us.all fun u => u == us.headD 0
  vs.map fun v => v.isFin && !vs.any FVal.isNan && sup.map (·.1) != some 255 && !flat

/-! ## cvt.quant and cvt.dequant (R188, R189) -/

/-- The band scale that `c` gives (R188): BF16 in bits [15:0], 1.0 for `zero`. -/
def bandOf (c : NameRef) (cv : Nat) : FVal := if c = .fixed .zero then .fin false 1 0 else FF.b16.value (cv % 2 ^ 16)

/-- Whether a name is a channel: `uint`, `sint` or `raw` of width 528. -/
def NameEnt.isChan (e : NameEnt) : Bool := e.kind.isInt && e.width == 528

/-- Whether `cvt.quant` takes N values into a destination (R188). -/
def quantFits (e : NameEnt) (n : Nat) : Bool :=
  match e.kind with
  | .g8 => n == 32
  | .g4 => n == 64
  | _ => e.isChan && decide (1 ≤ n) && decide (n ≤ 64)

/-- The pattern a channel's codes make (R188). -/
def chanPat (codes : List Nat) (X z : Nat) : Nat := packLanes 8 codes + 2 ^ 512 * X + 2 ^ 520 * z

/-- The course of `cvt.quant` (R188). -/
def quantM (s : State) (h : Hdr) (d a b c : NameRef) (sf : LaneF) (sup : Bool) (rnd : Rnd) : M State := do
  let i : Instr := .cvtQuant h d a b c sf sup rnd
  let g := laneFF sf
  let zb := b == .fixed .zero
  let na := flaneCount (s.ent a) g
  let nb := if zb then 0 else flaneCount (s.ent b) g
  let e := s.ent d
  let s1 ← s.issue i h [a, b, c] [d] (illUnless i (isCat d && na != 0 && (zb || nb != 0) && quantFits e (na + nb)))
  let (x, s2) ← s.read i h a s1
  let (y, s3) ← s.read i h b s2
  let (w, s4) ← s.read i h c s3
  let vs := x.flanes g ++ if zb then [] else y.flanes g
  let md := rmodeOf rnd e
  let cv := wrapNat 528 w.val
  let mask := match e.kind with
    | .g8 => maskG8 (if sup then some (cv % 256) else none) (vs.map FVal.x)
    | .g4 => maskG4 (bandOf c cv) (if sup then some (cv / 2 ^ 16) else none) (vs.map FVal.x)
    | _ => maskChan (if sup then some (cv % 256, cv / 256 % 256) else none) vs
  let (ds, s5) ← s.drawsFor md mask s4
  let r : Nat × QCount := match e.kind with
    | .g8 => quantG8 e.elem md ds (if sup then some (cv % 256) else none) (vs.map FVal.x)
    | .g4 => quantG4 md ds (bandOf c cv) (if sup then some (cv / 2 ^ 16) else none) (vs.map FVal.x)
    | k => let q := quantChan (k == Kind.sint) md ds (if sup then some (cv % 256, cv / 256 % 256) else none) vs
           (chanPat q.1 q.2.1 q.2.2.1, q.2.2.2)
  let s6 ← s.quantDone r.2 s5
  let s7 ← s.putPat i d r.1 s6
  pure (s7.done h)
/-- `cvt.quant` (R188). -/
def execCvtQuant (h : Hdr) (d a b c : NameRef) (sf : LaneF) (sup : Bool) (rnd : Rnd) (s : State) : Host.Outcome State Fault Refusal :=
  finish (quantM s h d a b c sf sup rnd)

/-- The values of a channel (R189). -/
def chanVals (sgn : Bool) (p : Nat) : List FVal :=
  let X := p / 2 ^ 512 % 256
  let z := p / 2 ^ 520 % 256
  (List.range 64).map fun i =>
    if X = 255 then .nan
    else
      let q := p / 2 ^ (8 * i) % 256
      (FVal.int (if sgn then signedOf 8 q - signedOf 8 z else (q : Int) - z)).scaleBy (e8m0 X)

/-- Values a source of `cvt.dequant` holds; 0 for a source it refuses. -/
def dequantCount (n : NameRef) (e : NameEnt) : Nat :=
  match n, e.kind with
  | .fixed _, _ => 0
  | _, .g8 => 32
  | _, .g4 => 64
  | _, _ => if e.isChan then 64 else 0

/-- The course of `cvt.dequant` (R189). -/
def dequantM (s : State) (h : Hdr) (d a c : NameRef) (lf : LaneF) (part : BitVec 2) (rnd : Rnd) : M State := do
  let i : Instr := .cvtDequant h d a c lf part rnd
  let g := laneFF lf
  let L := flaneCount (s.ent d) g
  let p := part.toNat
  let s1 ← s.issue i h [a, c] [d] (illUnless i (L != 0 && decide ((p + 1) * L ≤ dequantCount a (s.ent a))))
  let (x, s2) ← s.read i h a s1
  let (w, s3) ← s.read i h c s2
  let us := match x.ent.kind with
    | .g8 => g8Vals x.ent.elem x.pat
    | .g4 => g4Vals (bandOf c (wrapNat 528 w.val)) x.pat
    | k => chanVals (k == Kind.sint) x.pat
  let s4 ← s.writeFlanes i d g rnd .usual ((List.range L).map fun j => (us.getD (p * L + j) .nan).x) s3
  pure (s4.done h)
/-- `cvt.dequant` (R189). -/
def execCvtDequant (h : Hdr) (d a c : NameRef) (lf : LaneF) (part : BitVec 2) (rnd : Rnd) (s : State) : Host.Outcome State Fault Refusal :=
  finish (dequantM s h d a c lf part rnd)

/-! ## Plain conversions (R190) -/

/-- What a lane of `cvt.ftoi` writes (R139, R190): the integer, or the TVAL of WIDTH; and whether it is a NaN written as +0. -/
def ftoiLane (k : Kind) (lam : Nat) (m : Ovf) (md : RMode) (r : Nat) (v : FVal) : (Int ⊕ Word64) × Bool :=
  match v with
  | .nan => if m = .trap then (.inr (n64 (fp32Pattern v)), false) else (.inl 0, true)
  | .inf n => if m = .trap then (.inr (n64 (fp32Pattern v)), false) else (.inl (if n then kindLo k lam else kindHi k lam), false)
  | v =>
    let x := (v.x.toInt md r).getD 0
    match r69 k lam m x with
    | some y => (.inl y, false)
    | none => (.inr (reasonVal 0 x), false)

/-- The lowest lane that traps, with its TVAL. -/
def firstTrap : Nat → List ((Int ⊕ Word64) × Bool) → Option Word64
  | _, [] => none
  | i, (.inr v, _) :: _ => some (BitVec.ofNat 64 (i * 2 ^ 56) + v)
  | i, (.inl _, _) :: l => firstTrap (i + 1) l

/-- The course of `cvt.ftoi` (R190). -/
def ftoiM (s : State) (h : Hdr) (d a : NameRef) (sf : LaneF) (lw : LaneW) (rnd : Rnd) : M State := do
  let i : Instr := .cvtFtoi h d a sf lw rnd
  let g := laneFF sf
  let lam := laneBits lw
  let e := s.ent d
  let L := ilaneCount e lam
  let s1 ← s.issue i h [a] [d] (illUnless i (lanesFit (flaneCount (s.ent a) g) L))
  let (x, s2) ← s.read i h a s1
  match d with
  | .fixed .zero | .fixed .tid | .fixed .lit => pure (s2.done h)
  | _ => do
    let md := rmodeOf rnd e
    let (ds, s3) ← s.draws (if md = .rst then L else 0) s2
    let vs := x.flanes g
    let rs := (List.range L).map fun j => ftoiLane e.kind lam e.mode md (ds.getD j 0 % 2 ^ 24) (pick .nan vs j)
    match firstTrap 0 rs with
    | some v => trapM s .width v
    | none => do
      let s4 ← s.putPat i d (packLanes lam (rs.map fun r => match r.1 with | .inl y => wrapNat lam y | .inr _ => 0)) s3
      let n := (rs.filter (·.2)).length
      pure ((s4.countQ s4.cur.coreRef { QCount.zero with nan := n } 0xFFFF_FFFF).done h)
/-- `cvt.ftoi` (R190). -/
def execCvtFtoi (h : Hdr) (d a : NameRef) (sf : LaneF) (lw : LaneW) (rnd : Rnd) (s : State) : Host.Outcome State Fault Refusal :=
  finish (ftoiM s h d a sf lw rnd)

/-- The course of `cvt.itof` (R190). -/
def itofM (s : State) (h : Hdr) (d a : NameRef) (lw : LaneW) (lf : LaneF) (rnd : Rnd) : M State := do
  let i : Instr := .cvtItof h d a lw lf rnd
  let g := laneFF lf
  let L := flaneCount (s.ent d) g
  let s1 ← s.issue i h [a] [d] (illUnless i (lanesFit (ilaneCount (s.ent a) (laneBits lw)) L))
  let (x, s2) ← s.read i h a s1
  let l := x.lanes (laneBits lw)
  let s3 ← s.writeFlanes i d g rnd .plain ((List.range L).map fun j => (FVal.int (pick 0 l j)).x) s2
  pure (s3.done h)
/-- `cvt.itof` (R190). -/
def execCvtItof (h : Hdr) (d a : NameRef) (lw : LaneW) (lf : LaneF) (rnd : Rnd) (s : State) : Host.Outcome State Fault Refusal :=
  finish (itofM s h d a lw lf rnd)

/-- The course of `cvt.fconv` (R190). -/
def fconvM (s : State) (h : Hdr) (d a : NameRef) (sf lf : LaneF) (rnd : Rnd) : M State := do
  let i : Instr := .cvtFconv h d a sf lf rnd
  let L := flaneCount (s.ent d) (laneFF lf)
  let s1 ← s.issue i h [a] [d] (illUnless i (lanesFit (flaneCount (s.ent a) (laneFF sf)) L))
  let (x, s2) ← s.read i h a s1
  let l := x.flanes (laneFF sf)
  let s3 ← s.writeFlanes i d (laneFF lf) rnd .plain ((List.range L).map fun j => (pick .nan l j).x) s2
  pure (s3.done h)
/-- `cvt.fconv` (R190). -/
def execCvtFconv (h : Hdr) (d a : NameRef) (sf lf : LaneF) (rnd : Rnd) (s : State) : Host.Outcome State Fault Refusal :=
  finish (fconvM s h d a sf lf rnd)

/-- A value rounded to an integral one, its sign kept (R190). -/
def FVal.integral (md : RMode) (r : Nat) (v : FVal) : FVal :=
  match v with
  | .fin n _ _ => .fin n ((v.x.toInt md r).getD 0).natAbs 0
  | v => v
/-- The course of `cvt.round` (R190): lanes that the destination discards take no draws (log 8). -/
def roundM (s : State) (h : Hdr) (d a : NameRef) (lf : LaneF) (rnd : Rnd) : M State := do
  let i : Instr := .cvtRound h d a lf rnd
  let g := laneFF lf
  let e := s.ent d
  let L := flaneCount e g
  let s1 ← s.issue i h [a] [d] (illUnless i (lanesFit (flaneCount (s.ent a) g) L))
  let (x, s2) ← s.read i h a s1
  let l := x.flanes g
  let md := rmodeOf rnd e
  let (ds, s3) ← s.draws (if md = .rst ∧ discards d = false then L else 0) s2
  let s4 ← s.writeFlanes i d g (if md = .rst then .rne else rnd) .plain
    ((List.range L).map fun j => ((pick .nan l j).integral md (ds.getD j 0 % 2 ^ 24)).x) s3
  pure (s4.done h)
/-- `cvt.round` (R190). -/
def execCvtRound (h : Hdr) (d a : NameRef) (lf : LaneF) (rnd : Rnd) (s : State) : Host.Outcome State Fault Refusal :=
  finish (roundM s h d a lf rnd)

/-! ## cvt.scale (R191) -/

/-- A `g8` granule requantised under a new scale code (R191). -/
def rescaleG8 (el : Elem) (md : RMode) (rs : List Nat) (X p : Nat) : Nat × QCount :=
  if X = 255 then (2 ^ 256 * 255, { QCount.zero with nan := 1 })
  else
    let vs := g8Vals el p
    let es := (List.range 32).map fun i =>
      match vs.getD i .nan with
      | .nan => (match el with | .e4m3 => FF.e4.nanCode | .e5m2 => FF.e5.nanCode | _ => 0, false, false)
      | v => quantElem el md (rs.getD i 0 % 2 ^ 24) v.x (v.x.overPow (e8m0 X))
    let nan := match el with | .e4m3 | .e5m2 => 0 | _ => (vs.filter FVal.isNan).length
    (packLanes 8 (es.map (·.1)) + 2 ^ 256 * X, { countElems es with nan := nan })

/-- The course of `cvt.scale` (R191). -/
def scaleM (s : State) (h : Hdr) (d a b : NameRef) (rnd : Rnd) : M State := do
  let i : Instr := .cvtScale h d a b rnd
  let e := s.ent d
  let s1 ← s.issue i h [a, b] [d] (illUnless i (isCat d && isCat a && e.kind.isGran && e.kind == (s.ent a).kind && e.elem == (s.ent a).elem))
  let (x, s2) ← s.read i h a s1
  let (y, s3) ← s.read i h b s2
  let md := rmodeOf rnd e
  let bv := wrapNat 528 y.val
  let mask := if e.kind = .g8 then (g8Vals e.elem x.pat).map fun v => bv % 256 != 255 && !v.isNan
    else maskG4 (.fin false 1 0) (some bv) ((g4Vals (.fin false 1 0) x.pat).map FVal.x)
  let (ds, s4) ← s.drawsFor md mask s3
  let r := if e.kind = .g8 then rescaleG8 e.elem md ds (bv % 256) x.pat
    else quantG4 md ds (.fin false 1 0) (some bv) ((g4Vals (.fin false 1 0) x.pat).map FVal.x)
  let s5 ← s.quantDone { r.2 with zr := 0 } s4
  let s6 ← s.putPat i d r.1 s5
  pure (s6.done h)
/-- `cvt.scale` (R191). -/
def execCvtScale (h : Hdr) (d a b : NameRef) (rnd : Rnd) (s : State) : Host.Outcome State Fault Refusal := finish (scaleM s h d a b rnd)

end Sys2Proof.Machine
end

