-- ==== Sys2Proof/Machine/Sampling.lean ====
section
/-! DEFINITION. The random stream's instructions and the sampler block: the `smp` major (16 R307 to R313, 17 R325 to R330). -/
namespace Sys2Proof.Machine

/-- The course of `smp.seed` (R326). -/
def seedM (s : State) (h : Hdr) (a b : NameRef) : M State := do
  let i : Instr := .smpSeed h a b
  let s1 ← s.issue i h [a, b] [] none
  let (x, s2) ← s.read i h a s1
  let (y, s3) ← s.read i h b s2
  if y.val < 0 ∨ y.val ≥ 2 ^ 40 then trapM s .rng (reasonVal 3 y.val)
  pure ((s3.setMe { s3.me with rkey := w64 x.val, rpos := BitVec.ofInt 40 y.val, ridx := 0 }).done h)
/-- `smp.seed` (R326). -/
def execSmpSeed (h : Hdr) (a b : NameRef) (s : State) : Host.Outcome State Fault Refusal := finish (seedM s h a b)

/-- The course of `smp.rand` (R308, R327). -/
def randM (s : State) (h : Hdr) (d a : NameRef) : M State := do
  let i : Instr := .smpRand h d a
  let s1 ← s.issue i h [a] [d] (illUnless i (s.intDst d))
  let (x, s2) ← s.read i h a s1
  let (ds, s3) ← s.draws 1 s2
  let D := ds.headD 0
  if a = .fixed .zero then
    let s4 ← s.putPat i d D s3
    pure (s4.done h)
  else if x.val < 1 ∨ x.val ≥ 2 ^ 64 then trapM s .rng (reasonVal 3 x.val)
  else
    let s4 ← s.writeInt i d (D * x.val.toNat / 2 ^ 64 : Nat) s3
    pure (s4.done h)
/-- `smp.rand` (R327). -/
def execSmpRand (h : Hdr) (d a : NameRef) (s : State) : Host.Outcome State Fault Refusal := finish (randM s h d a)

/-- The course of `smp.pos` (R308, R326). -/
def posM (s : State) (h : Hdr) (d : NameRef) : M State := do
  let i : Instr := .smpPos h d
  let s1 ← s.issue i h [] [d] (illUnless i (s.oneDst d))
  let p := s1.me.rpos.toNat
  if p = 2 ^ 40 - 1 then trapM s .rng (reasonVal 2 p)
  let s2 ← s.writeOne i d (p + 1 : Nat) s1
  pure ((s2.setMe { s2.me with rpos := BitVec.ofNat 40 (p + 1), ridx := 0 }).done h)
/-- `smp.pos` (R326). -/
def execSmpPos (h : Hdr) (d : NameRef) (s : State) : Host.Outcome State Fault Refusal := finish (posM s h d)

/-! ## The sampler block (R310, R312, R313, R329) -/

/-- The sampler block of a tile (R310, R329): its address, where it is present. -/
def State.samplerBlock (s : State) (tile : Nat) : Option Nat :=
  let c := s.core ⟨tile, 2⟩
  let b := 64 * (c.threads[(7 : Fin 8)]).smpb.toNat
  if c.smp ∧ b ≠ 0 ∧ b + 0x83F ≤ 0x7_FFFF then some b else none
/-- The block for the current thread: present only for issuers on the arithmetic core. -/
def State.myBlock (s : State) : Option Nat := if s.cur.core = 2 then s.samplerBlock s.cur.tile else none
/-- The address of a request slot (R310). -/
def slotAt (b k : Nat) : Nat := b + 0x40 + 0x80 * k

/-- Writes a word of local memory, its full/empty bit as it stands. -/
def State.putWord (s : State) (tile a v : Nat) : State := s.putBytes (localKey tile a) (bytesOfNat 8 v)

/-- Writes the stop set of a slot (R329): identifiers, zero beyond them, and their number. -/
def State.putStops (s : State) (tile a : Nat) (ids : List Nat) : State :=
  let w2 := s.localWord tile (a + 16)
  let s1 := s.putWord tile (a + 16) (w2 - w2 % 32 + ids.length)
  (List.range 8).foldl (fun (z : State) j => z.putWord tile (a + 24 + 8 * j) (ids.getD (2 * j) 0 + 2 ^ 32 * ids.getD (2 * j + 1) 0)) s1

/-- The slot that an instruction changes, as its wait keeps it: one more than its number, 0 for none. -/
def slotCode (p : Bool) (k : Int) : Word64 := if p = true ∧ 0 ≤ k ∧ k ≤ 15 then w64 (k + 1) else 0
/-- Whether an older `smp.stop` or committing `smp.draw` of the core for the same slot is still to be applied: they are applied in the order of issue
(R329). One that waits before it has read its slot number counts for every slot (log 129). -/
def Core.slotAhead (c : Core) (h : Fin 8) (seq : Nat) (k : Word64) : Bool :=
  k != 0 && (List.finRange 8).any fun j => j != h && match c.threads[j].wait with
    | some w => decide (w.seq < seq) && w.kept.all (· == k) && (match w.instr with | .smpStop .. => true | .smpDraw .. => true | _ => false)
    | none => false

/-- `smp.stop` once it has read its slot number. -/
def stopAt (s : State) (i : Instr) (h : Hdr) (x : Src) (b : NameRef) (s2 : State) : M State := do
  let (y, s3) ← s.read i h b s2
  match s3.myBlock with
  | none => trapM s .access (w64 x.val)
  | some blk =>
    if x.val < 0 ∨ x.val > 15 then trapM s .access (w64 x.val)
    else
      let t := s3.cur.tile
      let p := slotAt blk x.val.toNat
      let L := min (y.ent.width / 32) 16
      let ids := ((List.range L).map fun j => laneAt y.pat 32 j).takeWhile (· != 0xFFFF_FFFF)
      if s3.myCore.slotAhead s3.cur.h s.mySeq (slotCode true x.val) || s3.boardAny t p 128 then holdM s i tagBoard none
      else if s3.poisoned (localKey t p) 128 then
        poisonM s 0 s3.myKernel.ctx (localKey t p) 128 (n64 (s3.poisonAt (localKey t p) 128 - localKey t 0))
      else pure ((s3.putStops t p ids).done h)
/-- The course of `smp.stop` (R329). -/
def stopM (s : State) (h : Hdr) (a b : NameRef) : M State := do
  let i : Instr := .smpStop h a b
  let s1 ← s.issue i h [a, b] [] (illUnless i (decide (32 ≤ (s.ent b).width)))
  let (x, s2) ← s.read i h a s1
  keeping (slotCode true x.val) (stopAt s i h x b s2)
/-- `smp.stop` (R329). -/
def execSmpStop (h : Hdr) (a b : NameRef) (s : State) : Host.Outcome State Fault Refusal := finish (stopM s h a b)

/-- Commits a token to a slot at an address (R313): the code and the state. -/
def State.commitToken (s : State) (tile a tau pos : Nat) : Nat × State :=
  let w0 := s.localWord tile a
  let w1 := s.localWord tile (a + 8)
  let w2 := s.localWord tile (a + 16)
  if w0 / 2 ^ 62 ≠ 1 then (3, s)
  else
    let past := w1 / 2 ^ 32 = 2 ^ 32 - 1
    let cnt := if past then w1 / 2 ^ 32 else w1 / 2 ^ 32 + 1
    let lim := w1 % 2 ^ 32
    let n := min (w2 % 32) 16
    let hit := (List.range n).any fun j => s.localWord tile (a + 24 + 8 * (j / 2)) / 2 ^ (32 * (j % 2)) % 2 ^ 32 == tau
    let code := if hit then 1 else if past ∨ (lim ≠ 0 ∧ cnt = lim) then 2 else 0
    let st := if code = 1 then 2 else if code = 2 then 3 else 1
    let s1 := s.putWord tile a (w0 % 2 ^ 62 + 2 ^ 62 * st)
    let s2 := s1.putWord tile (a + 8) (cnt * 2 ^ 32 + lim)
    let s3 := s2.putWord tile (a + 16) (tau * 2 ^ 32 + w2 % 2 ^ 32)
    (code, s3.putWord tile (a + 88) (s.localWord tile (a + 88) / 2 ^ 40 * 2 ^ 40 + pos))

/-- Writes what a draw gives to `d`: a wait for room in a port leaves the state before (`s`), with nothing counted yet; a trap stands on the state
that has counted (`s0`, R328). -/
def State.writeDrawn (s s0 : State) (i : Instr) (d : NameRef) (x : Int) (z : State) : M State :=
  match s.writeInt i d x z with
  | .error w => if w.me.st = .waiting then .error w else s0.writeInt i d x z
  | .ok w => .ok w
/-- The index that a draw picks of weights in common units (R328): the first with 2^32 times the sum up to it above r times the whole. -/
def pickIndex (us : List Nat) (r : Nat) : Nat :=
  (us.foldl (fun (acc : Nat × Nat × Option Nat) u =>
    let p := acc.1 + u
    (p, acc.2.1 + 1, match acc.2.2 with | some j => some j | none => if 2 ^ 32 * p > r * us.sum then some acc.2.1 else none)) (0, 0, none)).2.2.getD 0
/-- Cycles of a draw over `n` bytes of weights. -/
def drawCycles (n : Nat) : Nat := 8 + (n + 63) / 64
/-- `smp.draw` once it has read its descriptor: it runs for its cycles, and then reads the weights, draws, commits and writes in one step
(R103, R328). -/
def drawAt (s : State) (i : Instr) (h : Hdr) (d b : NameRef) (x : Src) (s2 : State) : M State := do
  let (y, s3) ← s.read i h b s2
  let Q := x.val.toNat
  let n := fieldOf Q 35 18
  let addr := fieldOf Q 0 19
  let bf := fieldOf Q 53 1 = 1
  let el := if bf then 2 else 4
  let cm := fieldOf Q 63 1 = 1
  let slot := fieldOf Q 54 4
  let T := y.val
  let t := s3.cur.tile
  if x.val < 0 ∨ x.val ≥ 2 ^ 64 ∨ fieldOf Q 58 5 ≠ 0 ∨ fieldOf Q 19 16 ≠ 0 ∨ n = 0 then trapM s .rng (reasonVal 3 x.val)
  if addr % 8 ≠ 0 then trapM s .align (n64 Q)
  if addr + el * n - 1 > 0x7_FFFF then trapM s .access (n64 Q)
  if T < 0 ∨ T + n - 1 > 2 ^ 32 - 1 then trapM s .rng (reasonVal 3 T)
  if cm ∧ s3.myBlock.isNone = true then trapM s .access (n64 slot)
  let sl := slotAt (s3.myBlock.getD 0) slot
  if s3.myCore.slotAhead s3.cur.h s.mySeq (slotCode (decide cm) slot) || s3.boardW t addr (el * n) || (decide cm && s3.boardAny t sl 128) then
    holdM s i tagBoard none
  let s3 ← s.runFor i (drawCycles (el * n)) s3
  let k := localKey t addr
  if s3.poisoned k (el * n) then poisonM s 0 s3.myKernel.ctx k (el * n) (n64 (s3.poisonAt k (el * n) - localKey t 0))
  let vs := (List.range n).map fun j => (if bf then FF.b16 else FF.f32).value (s3.natAt (k + el * j) el)
  let bad : FVal → Bool := fun v => !v.isFin || (v.neg? && !v.isZero)
  let nbad := (vs.filter bad).length
  let s0 := s.countN s.cur.coreRef 0x29 nbad
  let s4 := (s3.countN s3.cur.coreRef 0x29 nbad).found s3.cur 0 s3.myKernel.ctx k (el * n)
  let ws := vs.map fun v => if bad v then FVal.fin false 0 0 else v
  let e0 := ws.foldl (fun m v => min m v.exp) 0
  let us := ws.map fun v => (v.units e0).toNat
  let (ds, s5) ← s0.draws 1 s4
  let r := ds.headD 0 / 2 ^ 32
  if us.sum = 0 then
    let s6 ← afterRun (s.writeDrawn s0 i d (4 * 2 ^ 32 + 0xFFFF_FFFF) s5)
    pure (s6.done h)
  else
    let tau := (T + pickIndex us r).toNat
    if cm then
      if s5.poisoned (localKey t sl) 128 then
        poisonM s0 0 s5.myKernel.ctx (localKey t sl) 128 (n64 (s5.poisonAt (localKey t sl) 128 - localKey t 0))
      else
        let (code, s6) := s5.commitToken t sl tau s5.me.rpos.toNat
        let s7 ← afterRun (s.writeDrawn s0 i d (code * 2 ^ 32 + tau : Nat) s6)
        pure (s7.done h)
    else
      let s6 ← afterRun (s.writeDrawn s0 i d (tau : Int) s5)
      pure (s6.done h)
/-- The course of `smp.draw` (R328). -/
def drawM (s : State) (h : Hdr) (d a b : NameRef) : M State := do
  let i : Instr := .smpDraw h d a b
  let e := s.ent d
  let s1 ← s.issue i h [a, b] [d] (illUnless i ((e.kind == .uint || e.kind == .raw) && decide (35 ≤ e.width)))
  let (x, s2) ← s.read i h a s1
  keeping (slotCode (decide (x.val.toNat.testBit 63 = true ∧ x.val < 2 ^ 64)) (fieldOf x.val.toNat 54 4)) (drawAt s i h d b x s2)
/-- `smp.draw` (R328). -/
def execSmpDraw (h : Hdr) (d a b : NameRef) (s : State) : Host.Outcome State Fault Refusal := finish (drawM s h d a b)

end Sys2Proof.Machine
end

