-- ==== Sys2Proof/Machine/Matrix.lean ====
section
/-! DEFINITION. The matrix array: `mx` (10 R193 to R203), the 8-bit integer product (07 R126 to R129), the order of sums (08 R146 to
R149), rectangles of tiles (09 R176, R177), the scoreboard as the array meets it (09 R170, R171) and the doorbell (16 R311). -/
namespace Sys2Proof.Machine

/-! ## The range scoreboard (R170, R171) -/

/-- Whether a command's own entries, recorded before cycle `bound`, meet no older entry that they must wait for (R171). -/
def boardClear (board : List SbEntry) (own : SbOwner) (bound : Nat) : Bool :=
  go [] board
where
  go (older : List SbEntry) : List SbEntry → Bool
    | [] => true
    | e :: l =>
      if e.owner = own then
        decide (e.cyc < bound) &&
        !(older.any fun o => decide (o.lo ≤ e.hi) && decide (e.lo ≤ o.hi) && (e.write || o.write)) && go older l
      else go (older ++ [e]) l
/-- A range as an entry: cut at the end of local memory; none for an address outside it. -/
def boardEntry (a : Int) (n : Nat) (w : Bool) (own : SbOwner) (cycle : Nat) : List SbEntry :=
  if 0 ≤ a ∧ a < 0x8_0000 ∧ 0 < n then [⟨a.toNat, min (a.toNat + n - 1) 0x7_FFFF, w, own, cycle⟩] else []
/-- The tile with the entries of an owner released. -/
def Tile.release (z : Tile) (own : SbOwner) : Tile := { z with board := z.board.filter fun e => e.owner != own }

/-! ## Configuration words (R126, R194) -/

/-- Activation rows. -/
def cfgM (c : Word64) : Nat := fieldOf c.toNat 40 8
/-- Columns in use. -/
def cfgN (c : Word64) : Nat := fieldOf c.toNat 32 8
/-- Array rows in use. -/
def cfgK (c : Word64) : Nat := fieldOf c.toNat 24 8
/-- The format: 1 INT8, 2 FP8, 3 FP4, 4 BF16. -/
def cfgFmt (c : Word64) : Nat := fieldOf c.toNat 0 4
/-- Whether weights are signed, or E5M2. -/
def cfgWs (c : Word64) : Bool := c.getLsbD 5
/-- The same for activations. -/
def cfgXs (c : Word64) : Bool := c.getLsbD 4
/-- Whether a count lies in 1 to 64. -/
def in64 (x : Nat) : Bool := decide (1 ≤ x) && decide (x ≤ 64)
/-- Whether a configuration word is taken (R194). -/
def cfgValid (c : Word64) : Bool :=
  in64 (cfgM c) && in64 (cfgN c) && in64 (cfgK c) && decide (1 ≤ cfgFmt c) && decide (cfgFmt c ≤ 4) &&
  fieldOf c.toNat 48 16 == 0 && fieldOf c.toNat 6 2 == 0 && (decide (cfgFmt c ≤ 2) || fieldOf c.toNat 4 2 == 0)
/-- The auxiliary block's address under a floating format; none where there is no block (R194). -/
def cfgAux (c : Word64) : Option Nat :=
  if cfgFmt c = 1 then none else let a := fieldOf c.toNat 8 16; if a = 0 then none else some (8 * a)

/-- Bytes of a row of `n` elements, `per` to a word (R127). -/
def rowBytes (n per : Nat) : Nat := 8 * ((n + per - 1) / per)
/-- Parts of 32 rows (R195). -/
def partsOf (k : Nat) : Nat := (k + 31) / 32
/-- Bytes of the weight block (R127, R195). -/
def weightSize (c : Word64) : Nat :=
  match cfgFmt c with
  | 1 => rowBytes (cfgN c) 8 * cfgK c
  | 2 => 40 * cfgN c * partsOf (cfgK c)
  | 3 => 40 * cfgN c
  | _ => rowBytes (cfgN c) 4 * cfgK c
/-- Bytes of the activation block. -/
def actSize (c : Word64) : Nat :=
  match cfgFmt c with
  | 1 => rowBytes (cfgK c) 8 * cfgM c
  | 2 => 40 * cfgM c * partsOf (cfgK c)
  | 3 => 40 * cfgM c
  | _ => rowBytes (cfgK c) 4 * cfgM c
/-- Bytes of an accumulator row and of the block. -/
def accRow (c : Word64) : Nat := rowBytes (cfgN c) 2
/-- The block. -/
def accSize (c : Word64) : Nat := accRow c * cfgM c
/-- Bytes of the drain block (R129, R199). -/
def drainSize (c : Word64) : Nat := 8 * (cfgN c + 2)
/-- Bits of a drain output element. -/
def outBits (c : Word64) (w1 : Nat) : Nat := if cfgFmt c = 1 then 8 else if w1 / 2 ^ 8 % 2 = 1 then 32 else 16
/-- Bytes of an output row. -/
def outRow (c : Word64) (w1 : Nat) : Nat := rowBytes (cfgN c) (64 / outBits c w1)

/-- Cycles a command takes from its start (R202). -/
def mxCycles (fn : Nat) (c : Word64) : Nat :=
  match fn with
  | 1 => 12 + (if cfgFmt c = 4 then 2 * cfgK c else cfgK c)
  | 3 => 12 + (match cfgFmt c with | 3 => (cfgM c + 1) / 2 | 4 => 4 * cfgM c | _ => cfgM c)
  | 4 => 8 + cfgM c
  | 5 => 4 + cfgM c
  | _ => 4

/-! ## Checks (R193) -/

/-- A breach: its code and detail. -/
structure Breach where
  code : Nat
  detail : Int
  deriving DecidableEq, Repr

/-- Code 0x05 of a block. -/
def blockBreach (a : Int) (n : Nat) : Option Breach :=
  if a % 8 = 0 ∧ 0 ≤ a ∧ a + n ≤ 0x8_0000 then none else some ⟨5, a⟩
/-- Whether two ranges share a byte. -/
def overlaps (a : Int) (n : Nat) (b : Int) (m : Nat) : Bool := decide (a < b + m) && decide (b < a + n)
/-- The first breach of a list. -/
def firstBreach (l : List (Option Breach)) : Option Breach := l.findSome? id

/-- The words of a drain block. -/
def State.drainWords (s : State) (tile : Nat) (c : Word64) (b : Nat) : List Nat :=
  (List.range (cfgN c + 2)).map fun j => s.localWord tile (b + 8 * j)
/-- Whether a bit marked zero in a drain block is set (R129, R199). -/
def drainBad (c : Word64) (ws : List Nat) : Bool :=
  let w1 := ws.getD 1 0
  if cfgFmt c = 1 then decide (w1 ≥ 2 ^ 9) || (ws.drop 2).any fun w => decide (w ≥ 2 ^ 38)
  else decide (w1 ≥ 2 ^ 9) || decide (w1 % 2 ^ 8 ≠ 0) || (ws.drop 2).any fun w => decide (w ≥ 2 ^ 32)

/-- Whether a thread's launch was bound during the reduced service (R387). -/
def State.boundReduced (s : State) (t : ThreadRef) : Bool := ((s.gang? (s.kernel t).gang).map (·.red)).getD false
/-- The breach of a command as the array begins it, in code order (R193). A configuration word is the 64-bit pattern of its name (R126): of a wider
name the low 64 bits (DESIGN CHOICE, log 128). -/
def State.mxBreach (s : State) (tile : Nat) (q : MxCmd) : Option Breach :=
  let m := (s.tile tile).mx
  let c := m.cfg
  let aux := match cfgAux c with | some a => blockBreach a 136 | none => none
  match q.fn with
  | 0 =>
    let w := BitVec.ofInt 64 q.a
    if cfgValid w ∧ ¬ ((cfgFmt w = 3 ∨ cfgFmt w = 4) ∧ s.boundReduced ⟨tile, q.core, q.h⟩ = true) then none else some ⟨1, 0⟩
  | 1 => if !cfgValid c then some ⟨2, 0⟩ else firstBreach [blockBreach q.a (weightSize c), aux]
  | 2 => if !cfgValid c then some ⟨2, 0⟩ else if m.shad.loaded then none else some ⟨3, 0⟩
  | 3 =>
    if !cfgValid c then some ⟨2, 0⟩
    else if !m.stat.loaded then some ⟨3, 0⟩
    else if m.stat.fmt ≠ cfgFmt c ∨ m.stat.n ≠ cfgN c ∨ m.stat.k ≠ cfgK c then some ⟨4, 0⟩
    else firstBreach [if rectW q.rect then blockBreach q.a (actSize c) else none,
                      if rectS q.rect then blockBreach q.b (accSize c) else none, aux,
                      if rectW q.rect && rectS q.rect && overlaps q.a (actSize c) q.b (accSize c) then some ⟨6, q.b⟩ else none]
  | 4 =>
    if !cfgValid c then some ⟨2, 0⟩
    else match blockBreach q.b (drainSize c) with
      | some x => firstBreach [blockBreach q.a (accSize c), some x]
      | none =>
        let ws := s.drainWords tile c q.b.toNat
        let out : Int := (ws.getD 0 0 : Nat)
        let n := outRow c (ws.getD 1 0) * cfgM c
        if drainBad c ws then some ⟨1, 0⟩
        else firstBreach [blockBreach q.a (accSize c), blockBreach out n,
                          if overlaps out n q.a (accSize c) || overlaps out n q.b (drainSize c) then some ⟨6, out⟩ else none]
  | _ => if !cfgValid c then some ⟨2, 0⟩ else blockBreach q.a (accSize c)

/-! ## How a command ends -/

/-- How a command of the array ends: done, a breach, or a trap with its TVAL. -/
inductive MxEnd
  | ok
  | breach (b : Breach)
  | trap (c : Cause) (v : Word64)
  deriving DecidableEq, Repr

/-- The state with the head command changed. -/
def State.setHead (s : State) (tile : Nat) (q : MxCmd) : State :=
  s.modMx tile fun m => { m with queue := q :: m.queue.tail }
/-- The header of an array instruction. -/
def mxHdr : Instr → Hdr
  | .mxCfg h _ => h | .mxLdstat h _ => h | .mxSwap h => h | .mxStream h _ _ => h | .mxDrain h _ _ => h | .mxClear h _ => h
  | _ => ⟨.base, .none, 0⟩
/-- The status code and offset with which a follow-on ends its engine command (R166, R167, R193); those of one that
ends by a trap are the model's choice where the spec names none (DESIGN CHOICE, log 39). -/
def followStatus (total : Nat) : MxEnd → Nat × Nat
  | .ok => (0, total)
  | .breach b => (0x0A, b.code)
  | .trap .poison _ => (0x05, total)
  | .trap .access _ => (0x04, total)
  | .trap _ _ => (0x0A, total)

/-- The command at the head of the array's queue ends (R166, R193, R202): an instruction completes or traps as if it had no effect; a
follow-on gives its engine command a code, and a trap of it reaches its thread at a later slot (R290). -/
def State.mxEnd (s : State) (tile : Nat) (q : MxCmd) (e : MxEnd) : State :=
  let s0 := s.modMx tile fun m => { m with queue := m.queue.tail }
  let s1 := match e with | .breach b => s0.setCmx tile (cmxBrk · b.code) | _ => s0
  let s2 := if q.fn = 3 then s1.setCmx tile (cmxRows · (if rectS q.rect then q.row else 0)) else s1
  match q.fo with
  | some k =>
    let t : ThreadRef := ⟨tile, q.core, q.h⟩
    let z := s2.tile tile
    let upd : EngCmd → EngCmd := fun x =>
      let st := followStatus (cmdElems x.words * 2 ^ fieldOf (x.words.headD 0).toNat 48 2) e
      { x with stage := .fin st.1 st.2 }
    let qs := z.eng[(0 : Fin 2)].queues
    let kq : Fin 4 := ⟨k % 4, Nat.mod_lt _ (by decide)⟩
    let qs' := match qs[kq] with | [] => qs | x :: l => qs.set kq (upd x :: l)
    let s3 := s2.setTile tile { z with eng := z.eng.set 0 { z.eng[(0 : Fin 2)] with queues := qs' } }
    (match e with | .trap c v => s3.asyncTrap t c v | _ => s3)
  | none =>
    let t : ThreadRef := ⟨tile, q.core, q.h⟩
    let s3 := s2.setTile tile ((s2.tile tile).release (.mx q.core q.h))
    let x := s3.thread t
    let i := match x.wait with | some w => w.instr | none => .sysNop ⟨.base, .none, 0⟩
    match e with
    | .ok => s3.setThread t { x.advance (Hdr.len (mxHdr i)) with st := if x.st = .waiting then .ready else x.st }
    | .breach b => s3.takeTrap t .matrix x.pc (reasonVal b.code b.detail)
    | .trap c v => s3.takeTrap t c x.pc v

/-! ## Reading blocks -/

/-- The first poisoned byte among rows of a block, as a local address. -/
def State.blockPoison (s : State) (tile a rows stride used : Nat) : Option Nat :=
  ((List.range rows).find? fun r => s.poisoned (localKey tile (a + stride * r)) used).map fun r =>
    s.poisonAt (localKey tile (a + stride * r)) used % 2 ^ 19
/-- A block's soft errors are found as the array reads it (R157, R371). -/
def State.blockFound (s : State) (tile : Nat) (q : MxCmd) (a n : Nat) : State :=
  let t : ThreadRef := ⟨tile, q.core, q.h⟩
  s.found t 3 (s.kernel t).ctx (localKey tile a) n
/-- The bytes of row `r` of a block. -/
def State.rowAt (s : State) (tile a stride used r : Nat) : List Byte := s.bytesAt (localKey tile (a + stride * r)) used
/-- An element of a row of bytes, of 1, 2 or 4 bytes. -/
def elemAt (row : List Byte) (sz j : Nat) : Nat := natOfBytes ((row.drop (sz * j)).take sz)

/-- A BF16 band scale; code 0 means 1.0 (R194). -/
def bandScale (c : Nat) : FVal := if c = 0 then .fin false 1 0 else FF.b16.value c
/-- Word 0 of the auxiliary block: Bw, Bx and `sm`. -/
def State.auxWord (s : State) (tile : Nat) (c : Word64) : Nat := match cfgAux c with | some a => s.localWord tile a | none => 0
/-- Whether the auxiliary words that a command reads are poisoned, and where. -/
def State.auxPoison (s : State) (tile : Nat) (c : Word64) (sm : Bool) : Option Nat :=
  match cfgAux c with
  | none => none
  | some a =>
    match s.blockPoison tile a 1 0 8 with
    | some p => some p
    | none => if sm && (s.auxWord tile c).testBit 32 then s.blockPoison tile (a + 8) 1 0 128 else none
/-- A value of a side under its band scale: every element NaN where the scale is infinite or NaN (R194). -/
def FVal.band (v B : FVal) : FVal := if B.isFin then v.mul B else .nan

/-- The soft errors under the auxiliary words that a command reads are found (R157, R194). -/
def State.auxFound (s : State) (tile : Nat) (q : MxCmd) (c : Word64) (sm : Bool) : State :=
  match cfgAux c with
  | none => s
  | some a =>
    let z := s.blockFound tile q a 8
    if sm && (s.auxWord tile c).testBit 32 then z.blockFound tile q (a + 8) 128 else z

/-- A granule of a block, as a pattern without its padding. -/
def granule (row : List Byte) : Nat := natOfBytes (row.take 40)

/-! ## mx.ldstat (R127, R146, R195, R196) -/

/-- The floating format of an element of a plane. -/
def planeFF (fmt : Nat) (e5 : Bool) : FF := match fmt with | 2 => if e5 then .e5 else .e4 | 3 => .e2m1 | _ => .b16
/-- The codes of a weight block, by row then column, and the scale codes by column. -/
def State.weights (s : State) (tile : Nat) (c : Word64) (a : Nat) : List (List (BitVec 16)) × List (List Byte) :=
  let n := cfgN c
  let k := cfgK c
  match cfgFmt c with
  | 1 => ((List.range k).map fun r => let row := s.rowAt tile a (rowBytes n 8) n r
          (List.range n).map fun j => BitVec.ofNat 16 (elemAt row 1 j), [])
  | 2 =>
    let gs := (List.range (partsOf k)).map fun p => (List.range n).map fun j => granule (s.bytesAt (localKey tile (a + 40 * (partsOf k * j + p))) 40)
    ((List.range k).map fun r => (List.range n).map fun j => BitVec.ofNat 16 (((gs.getD (r / 32) []).getD j 0) / 2 ^ (8 * (r % 32)) % 256),
     (List.range n).map fun j => (List.range (partsOf k)).map fun p => BitVec.ofNat 8 (((gs.getD p []).getD j 0) / 2 ^ 256))
  | 3 =>
    let gs := (List.range n).map fun j => granule (s.bytesAt (localKey tile (a + 40 * j)) 40)
    ((List.range k).map fun r => gs.map fun g => BitVec.ofNat 16 (g / 2 ^ (40 * (r / 8) + 4 * (r % 8)) % 16),
     gs.map fun g => (List.range 8).map fun j => BitVec.ofNat 8 (g / 2 ^ (40 * j + 32)))
  | _ => ((List.range k).map fun r => let row := s.rowAt tile a (rowBytes n 4) (2 * n) r
          (List.range n).map fun j => BitVec.ofNat 16 (elemAt row 2 j), [])

/-- Whether a smoothing factor is used as it stands (R146). -/
def factorOk (c : Nat) : Bool := decide (0x0080 ≤ c) && decide (c < 0x7F80)
/-- A weight code smoothed by a factor under its granule's scale (R146): the code, and whether it clips, which counts
also where its block or band scale makes the weight zero or a NaN (DESIGN CHOICE, log 112). -/
def smoothed (f : FF) (scaleNan : Bool) (c : Nat) (fac : FVal) : Nat × Bool :=
  if scaleNan then (c, false)
  else match (f.value c).mul fac with
    | .nan => (f.nanCode, false)
    | .inf n => (f.code (.inf n), false)
    | v =>
      let y := f.round .rne 0 v.x
      if f.beyond y then (f.code (f.topVal v.neg?), true) else (f.code y, false)

/-- Smooths the rows of a weight block (R146): the codes, clips and factors replaced. -/
def smoothRows (c : Word64) (fs : List Nat) (scales : List (List Byte)) (codes : List (List (BitVec 16))) :
    List (List (BitVec 16)) × Nat × Nat :=
  let f := planeFF (cfgFmt c) (cfgWs c)
  let rows := codes.zipIdx.map fun p =>
    let fc := fs.getD p.2 0
    let fac := if factorOk fc then FF.b16.value fc else .fin false 1 0
    p.1.zipIdx.map fun e => smoothed f (cfgFmt c == 2 && ((scales.getD e.2 []).getD (p.2 / 32) 0) == 0xFF) e.1.toNat fac
  (rows.map fun r => r.map fun e => BitVec.ofNat 16 e.1, (rows.map fun r => (r.filter (·.2)).length).sum,
   ((List.range codes.length).filter fun k => !factorOk (fs.getD k 0)).length)

/-- A code of an 8-bit integer format. -/
def int8 (sgn : Bool) (c : Nat) : Int := if sgn then signedOf 8 (c % 256) else ((c % 256 : Nat) : Int)
/-- The exact column sums of an integer plane (R127). -/
def columnSums (sgn : Bool) (n : Nat) (codes : List (List (BitVec 16))) : List Int :=
  (List.range n).map fun j => (codes.map fun row => int8 sgn (row.getD j 0).toNat).sum

/-- Poison among the blocks `mx.ldstat` reads. -/
def State.ldstatPoison (s : State) (tile : Nat) (c : Word64) (a : Nat) : Option Nat :=
  match s.auxPoison tile c true with
  | some p => some p
  | none => match cfgFmt c with
    | 1 => s.blockPoison tile a (cfgK c) (rowBytes (cfgN c) 8) (cfgN c)
    | 4 => s.blockPoison tile a (cfgK c) (rowBytes (cfgN c) 4) (2 * cfgN c)
    | _ => s.blockPoison tile a 1 0 (weightSize c)

/-- `mx.ldstat` takes effect (R196). A bad factor counts SMBAD once for its row, and clips count QCLIP alone: they are held against no threshold and
set no flag of CQSTAT (log 112). -/
def State.mxLdstat (s : State) (tile : Nat) (q : MxCmd) : State :=
  let c := (s.tile tile).mx.cfg
  let a := q.a.toNat
  match s.ldstatPoison tile c a with
  | some p => ((s.auxFound tile q c true).blockFound tile q a (weightSize c)).mxEnd tile q (.trap .poison (n64 p))
  | none =>
    let w0 := s.auxWord tile c
    let (codes, scales) := s.weights tile c a
    let fs := match cfgAux c with
      | some x => (List.range 64).map fun k => elemAt (s.bytesAt (localKey tile (x + 8)) 128) 2 k
      | none => []
    let sm := if w0.testBit 32 then smoothRows c fs scales codes else (codes, 0, 0)
    let bw : BitVec 16 := BitVec.ofNat 16 w0
    let sums := if cfgFmt c = 1 then columnSums (cfgWs c) (cfgN c) codes else []
    let pl : Plane := ⟨true, cfgFmt c, cfgN c, cfgK c, bw, sm.1, scales, sums⟩
    let s1 := ((s.auxFound tile q c true).blockFound tile q a (weightSize c)).modMx tile fun m => { m with shad := pl }
    let s2 := (s1.countN ⟨tile, q.core⟩ 0x20 sm.2.1).countN ⟨tile, q.core⟩ 0x24 sm.2.2
    s2.mxEnd tile q .ok

/-! ## mx.stream (R128, R148, R149, R198) -/

/-- The weight's value at row k and column n, with its scales and Bw (R148, R195). -/
def Plane.value (p : Plane) (e5 : Bool) (k n : Nat) : FVal :=
  let c := ((p.codes.getD k []).getD n 0).toNat
  let B := bandScale p.bw.toNat
  let sc := p.scales.getD n []
  match p.fmt with
  | 2 =>
    let X := (sc.getD (k / 32) 0).toNat
    if X = 255 then .nan else (((planeFF 2 e5).value (c % 256)).scaleBy (e8m0 X)).band B
  | 3 => g4Val (c % 16) (sc.getD (k / 8) 0).toNat B
  | _ => (FF.b16.value c).band B
/-- The values of an activation row, from its bytes, with Bx (R148, R195). -/
def rowValues (c : Word64) (B : FVal) (row : List Byte) : List FVal :=
  (List.range (cfgK c)).map fun k =>
    match cfgFmt c with
    | 2 =>
      let g := granule (row.drop (40 * (k / 32)))
      let X := g / 2 ^ 256 % 256
      if X = 255 then .nan else (((planeFF 2 (cfgXs c)).value (g / 2 ^ (8 * (k % 32)) % 256)).scaleBy (e8m0 X)).band B
    | 3 =>
      let g := granule row
      g4Val (g / 2 ^ (40 * (k / 8) + 4 * (k % 8)) % 16) (g / 2 ^ (40 * (k / 8) + 32) % 256) B
    | _ => (FF.b16.value (elemAt row 2 k)).band B
/-- The exact contribution of a row at column n under a floating format (R148). -/
def contribF (c : Word64) (p : Plane) (xs : List FVal) (n : Nat) : FVal :=
  FVal.sum .rne ((List.range (cfgK c)).map fun k => (xs.getD k .nan).mul (p.value (cfgWs c) k n))
/-- The exact contribution of a row at column n under the integer format, corrected (R128): the weights P and their sums as CMXCFG's `ws` had them
read; where that has changed since the `ldstat`, P goes by `ws` as it is now and the sums stay as they were formed (log 93). -/
def contribI (c : Word64) (p : Plane) (row : List Byte) (n : Nat) : Int :=
  let xs := (List.range (cfgK c)).map fun k => int8 (cfgXs c) (elemAt row 1 k)
  let zx := int8 (cfgXs c) (fieldOf c.toNat 8 8)
  let zw := int8 (cfgWs c) (fieldOf c.toNat 16 8)
  let P := ((List.range (cfgK c)).map fun k => xs.getD k 0 * int8 (cfgWs c) ((p.codes.getD k []).getD n 0).toNat).sum
  P - zw * xs.sum - zx * (p.sums.getD n 0) + cfgK c * zx * zw
/-- An accumulator written in FP32 (R148): its pattern, and whether the write saturates. -/
def accF (v : FVal) : Nat × Bool :=
  match v with
  | .nan => (FF.f32.nanCode, false)
  | .inf n => (FF.f32.code (FF.f32.topVal n), true)
  | v =>
    let y := FF.f32.round .rne 0 v.x
    if FF.f32.beyond y then (FF.f32.code (FF.f32.topVal v.neg?), true) else (FF.f32.code y, false)
/-- The same for INT32 (R128). -/
def accI (x : Int) : Nat × Bool := (wrapNat 32 (satInt .sint 32 x), !inRange .sint 32 x)
/-- A partial sum rounded to FP32 for its message (R149); one beyond FP32 has no pattern the manual states (log 45). -/
def partF (v : FVal) : Word64 :=
  let y := FF.f32.round .rne 0 v.x
  if FF.f32.beyond y then (Config.beyondPartial v.neg?).setWidth 64 else n64 (FF.f32.code y)

/-- What a row's contribution becomes with the partial sums from the north (R149): the row to send south. -/
def southRow (c : Word64) (p : Plane) (B : FVal) (row : List Byte) (north : Option (List Word64)) : List Word64 :=
  let xs := rowValues c B row
  (List.range (cfgN c)).map fun n =>
    if cfgFmt c = 1 then
      w64 (contribI c p row n + (match north with | some l => (l.getD n 0).toInt | none => 0))
    else
      let d := contribF c p xs n
      partF (match north with | some l => FVal.sum .rne [FF.f32.value (l.getD n 0).toNat, d] | none => d)
/-- The new accumulators of a row: patterns and saturated writes (R128, R148, R149). -/
def newAccs (c : Word64) (p : Plane) (B : FVal) (row acc : List Byte) (north : Option (List Word64)) : List (Nat × Bool) :=
  let xs := rowValues c B row
  (List.range (cfgN c)).map fun n =>
    let a := elemAt acc 4 n
    if cfgFmt c = 1 then
      accI (signedOf 32 a + (match north with | some l => (l.getD n 0).toInt | none => 0) + contribI c p row n)
    else
      let d := contribF c p xs n
      accF (FVal.sum .rne (match north with
        | some l => [FF.f32.value a, FF.f32.value (l.getD n 0).toNat, d]
        | none => [FF.f32.value a, d]))

/-- Bytes read of an activation row, and its stride. -/
def actUsed (c : Word64) : Nat := match cfgFmt c with | 1 => cfgK c | 4 => 2 * cfgK c | 2 => 40 * partsOf (cfgK c) | _ => 40
/-- The stride; a granule block of two parts is laid out part by part within a row. -/
def actStride (c : Word64) : Nat := match cfgFmt c with | 1 => rowBytes (cfgK c) 8 | 4 => rowBytes (cfgK c) 4 | 2 => 40 * partsOf (cfgK c) | _ => 40
/-- The activation row m at the local address of the stream. -/
def State.actRow (s : State) (tile : Nat) (c : Word64) (a m : Nat) : List Byte := s.rowAt tile a (actStride c) (actUsed c) m
/-- Poison among the blocks a stream reads. -/
def State.streamPoison (s : State) (tile : Nat) (c : Word64) (q : MxCmd) : Option Nat :=
  (s.auxPoison tile c false) <|>
  (if rectW q.rect then s.blockPoison tile q.a.toNat (cfgM c) (actStride c) (actUsed c) else none) <|>
  (if rectS q.rect then s.blockPoison tile q.b.toNat (cfgM c) (accRow c) (4 * cfgN c) else none)
/-- The stream's blocks have been read (R371). -/
def State.streamFound (s : State) (tile : Nat) (c : Word64) (q : MxCmd) : State :=
  let s0 := s.auxFound tile q c false
  let s1 := if rectW q.rect then s0.blockFound tile q q.a.toNat (actSize c) else s0
  if rectS q.rect then s1.blockFound tile q q.b.toNat (accSize c) else s1
/-- Writes one accumulator row: its words set full, saturated writes counted (R128, R198). -/
def State.putAccs (s : State) (tile : Nat) (q : MxCmd) (a : Nat) (vs : List (Nat × Bool)) : State :=
  let s1 := s.putBytes (localKey tile a) (vs.flatMap fun v => bytesOfNat 4 v.1)
  (s1.setFullList (wordsOf (localKey tile a) (4 * vs.length))).countN ⟨tile, q.core⟩ 0x25 (vs.filter (·.2)).length
/-- Writes the accumulator row m of a stream; `aux`: word 0 of the auxiliary block as the stream has read it. -/
def State.streamRow (s : State) (tile : Nat) (c : Word64) (q : MxCmd) (aux m : Nat) (row : List Byte) (north : Option (List Word64)) : State :=
  let p := (s.tile tile).mx.stat
  let B := bandScale (aux / 2 ^ 16 % 2 ^ 16)
  let a := q.b.toNat + accRow c * m
  s.putAccs tile q a (newAccs c p B row (s.bytesAt (localKey tile a) (4 * cfgN c)) north)
/-- `mx.stream` on one tile takes effect (R198). -/
def State.mxStream (s : State) (tile : Nat) (q : MxCmd) : State :=
  let c := (s.tile tile).mx.cfg
  match s.streamPoison tile c q with
  | some p => (s.streamFound tile c q).mxEnd tile q (.trap .poison (n64 p))
  | none =>
    let s1 := (List.range (cfgM c)).foldl (fun (z : State) m => z.streamRow tile c q (s.auxWord tile c) m (z.actRow tile c q.a.toNat m) none) (s.streamFound tile c q)
    s1.mxEnd tile { q with row := cfgM c } .ok

/-! ## mx.drain and mx.clear (R129, R199, R200) -/

/-- A drain element: its code, and whether it saturates. -/
def drainElem (c : Word64) (w1 acc w : Nat) : Nat × Bool :=
  if cfgFmt c = 1 then
    let os := w1 / 2 ^ 8 % 2 = 1
    let y := (((FVal.int (signedOf 32 acc * signedOf 32 (w % 2 ^ 32))).scaleBy (-(fieldOf w 32 6 : Int))).x.toInt .rne 0).getD 0
    let z := y + int8 os (w1 % 256)
    let k : Kind := if os then .sint else .uint
    (wrapNat 8 (satInt k 8 z), !inRange k 8 z)
  else
    let f : FF := if w1 / 2 ^ 8 % 2 = 1 then .f32 else .b16
    match (FF.f32.value acc).mul (FF.f32.value (w % 2 ^ 32)) with
    | .nan => (f.nanCode, false)
    | .inf n => (f.code (.inf n), false)
    | v =>
      let y := f.round .rne 0 v.x
      if f.beyond y then (f.code (f.topVal v.neg?), true) else (f.code y, false)

/-- Writes a row of whole words, each set full, padding zero. -/
def State.putRow (s : State) (tile a n : Nat) (bs : List Byte) : State :=
  (s.putBytes (localKey tile a) (bs ++ List.replicate (n - bs.length) 0)).setFullList (wordsOf (localKey tile a) n)

/-- The notice of a drain (R311). -/
def noticeOf (c : Word64) (w1 out : Nat) : Word64 := n64 (w1 / 2 ^ 8 % 2 * 2 ^ 48 + cfgM c * 2 ^ 40 + cfgN c * 2 ^ 32 + out)

/-- `mx.drain` takes effect (R129, R199); under a floating format in sampler mode it ends once its notice is written (R311). -/
def State.mxDrain (s : State) (tile : Nat) (q : MxCmd) : State :=
  let c := (s.tile tile).mx.cfg
  match (s.blockPoison tile q.a.toNat (cfgM c) (accRow c) (4 * cfgN c)) with
  | some p => (s.blockFound tile q q.a.toNat (accSize c)).mxEnd tile q (.trap .poison (n64 p))
  | none =>
    let ws := s.drainWords tile c q.b.toNat
    let w1 := ws.getD 1 0
    let out := ws.getD 0 0
    let s1 := (List.range (cfgM c)).foldl (fun (z : State) m =>
      let acc := s.rowAt tile q.a.toNat (accRow c) (4 * cfgN c) m
      let es := (List.range (cfgN c)).map fun n => drainElem c w1 (elemAt acc 4 n) (ws.getD (2 + n) 0)
      (z.putRow tile (out + outRow c w1 * m) (outRow c w1) (es.flatMap fun e => bytesOfNat (outBits c w1 / 8) e.1)).countN
        ⟨tile, q.core⟩ 0x25 (es.filter (·.2)).length) (s.blockFound tile q q.a.toNat (accSize c))
    match (if cfgFmt c = 1 then none else s1.samplerBlock tile) with
    | some b =>
      let n := outRow c w1 * cfgM c
      (s1.setHead tile { q with undo := [s.changed (localKey tile out) n s1] }).modMx tile fun m => { m with notice := some (b, noticeOf c w1 out) }
    | none => s1.mxEnd tile q .ok
/-- `mx.clear` takes effect (R200). -/
def State.mxClear (s : State) (tile : Nat) (q : MxCmd) : State :=
  let c := (s.tile tile).mx.cfg
  ((List.range (cfgM c)).foldl (fun (z : State) m => z.putRow tile (q.a.toNat + accRow c * m) (accRow c) []) s).mxEnd tile q .ok

/-! ## Beginning a command -/

/-- Whether the neighbour of a tile in a direction lies in its gang. -/
def State.gangBeside (s : State) (tile : Nat) (d : Dir) : Bool :=
  match tileNext tile d with
  | some t => (s.tile tile).gang.isSome && (s.tile t).gang == (s.tile tile).gang && tileCol t != s.svc
  | none => false
/-- Whether a stream needs a neighbour outside the gang (R176). -/
def State.rectOut (s : State) (tile : Nat) (r : BitVec 5) : Bool :=
  (!rectW r && !s.gangBeside tile .w) || (!rectE r && !s.gangBeside tile .e) ||
  (!rectN r && !s.gangBeside tile .n) || (!rectS r && !s.gangBeside tile .s)

/-- Who owns a command's scoreboard entries. -/
def State.mxOwner (s : State) (tile : Nat) (q : MxCmd) : SbOwner :=
  match q.fo with
  | some k => (match (((s.tile tile).eng[(0 : Fin 2)]).queues[k]?.getD []).head? with | some x => .eng 0 x.id | none => .mx q.core q.h)
  | none => .mx q.core q.h
/-- A drain's further entry for its output block, recorded as it begins, as soon as the scoreboard has room (R170): it stands while the drain
waits for what is older, as a command's entries do (R171). -/
def State.drainEntry (s : State) (tile : Nat) (q : MxCmd) (own : SbOwner) : State :=
  let z := s.tile tile
  let c := z.mx.cfg
  let out := s.localWord tile q.b.toNat
  let es := boardEntry out (outRow c (s.localWord tile (q.b.toNat + 8)) * cfgM c) true own s.cycle
  if q.entry = true ∨ z.board.length + es.length > 16 then s
  else (s.setTile tile { z with board := z.board ++ es }).setHead tile { q with entry := true }

/-- The array begins the command at the head of its queue, once its entries let it (R170, R171, R193, R202); `cfg` and `swap` take
effect as they begin. -/
def State.mxBegin (s : State) (tile : Nat) : State :=
  let z := s.tile tile
  match z.mx.queue with
  | [] => s
  | q :: _ =>
    if q.begun then s
    else
      let own := s.mxOwner tile q
      if !boardClear z.board own (s.cycle + 1) then s
      else
        let c := z.mx.cfg
        let go : List Undo → State → State := fun u x => x.setHead tile { q with begun := true, done := some (x.cycle + mxCycles q.fn c), undo := u }
        let unread := q.fn = 4 ∧ cfgValid c = true ∧ blockBreach q.b (drainSize c) = none
        match (if unread then s.blockPoison tile q.b.toNat 1 0 (drainSize c) else none) with
        | some p => (s.blockFound tile q q.b.toNat (drainSize c)).mxEnd tile q (.trap .poison (n64 p))
        | none =>
          match s.mxBreach tile q with
          | some b => s.mxEnd tile q (.breach b)
          | none =>
            match q.fn with
            | 0 => go [.cfg c] (s.modMx tile fun m => { m with cfg := BitVec.ofInt 64 q.a })
            | 2 => go [.swap] (s.modMx tile fun m => { m with stat := m.shad, shad := m.stat })
            | 3 =>
              if !inRect q.rect then go [] s
              else if s.rectOut tile q.rect then s.mxEnd tile q (.trap .access 0)
              else s.setHead tile { q with begun := true }
            | 4 =>
              let x := s.drainEntry tile q own
              (match (x.tile tile).mx.queue with
              | y :: _ => if y.entry = true ∧ boardClear (x.tile tile).board own (s.cycle + 1) = true then
                  (x.blockFound tile y y.b.toNat (drainSize c)).setHead tile { y with begun := true, done := some (x.cycle + mxCycles 4 c) } else x
              | [] => x)
            | _ => go [] s

/-! ## Rectangles (R176, R177) -/

/-- Whether a channel takes a message: none that has crossed it waits for one of the four places at its end (log 105). -/
def State.roomFor (s : State) (tile : Nat) (d : Dir) : Bool :=
  match d with
  | .e => !((s.tile tile).mx.east.any fun e => decide (e.1 ≤ s.cycle))
  | _ => !((s.tile tile).mx.south.any fun e => decide (e.1 ≤ s.cycle))
/-- Sends a message east or south; it takes four cycles to the neighbour. -/
def State.sendArr (s : State) (tile : Nat) (d : Dir) (m : ArrMsg) : State :=
  s.modMx tile fun x => match d with
    | .e => { x with east := x.east ++ [(s.cycle + 4, m)] }
    | _ => { x with south := x.south ++ [(s.cycle + 4, m)] }

/-- Whether a configuration message has the abort flag, and its `m` where it has not. -/
def ArrMsg.rowsSent : ArrMsg → Nat | .cfg m _ _ _ a => if a then 0 else m | .row _ => 0
/-- Whether a received configuration message has fields equal to the tile's own configuration. -/
def ArrMsg.same (c : Word64) : ArrMsg → Bool
  | .cfg m n k f _ => m == cfgM c && n == cfgN c && k == cfgK c && f == cfgFmt c
  | .row _ => false
/-- Whether it is an abort. -/
def ArrMsg.isAbort : ArrMsg → Bool | .cfg _ _ _ _ a => a | .row _ => false
/-- Whether it lets the tile be clear (R177). -/
def ArrMsg.agrees (c : Word64) (m : ArrMsg) : Bool := !m.isAbort && m.same c
/-- The detail of breach 0x07: west mismatch, north mismatch, abort received; a message may be both. -/
def rectDetail (c : Word64) (w n : Option ArrMsg) : Nat :=
  let bad : Option ArrMsg → Bool := fun m => match m with | some x => !x.same c | none => false
  let ab : Option ArrMsg → Bool := fun m => match m with | some x => x.isAbort | none => false
  (if bad w then 1 else 0) + (if bad n then 2 else 0) + (if ab w || ab n then 4 else 0)

/-- The words of a row's bytes, and back. -/
def toWords (bs : List Byte) : List Word64 := (List.range ((bs.length + 7) / 8)).map fun j => n64 (natOfBytes ((bs.drop (8 * j)).take 8))
/-- Bytes of words. -/
def bytesOfWords (ws : List Word64) : List Byte := ws.flatMap fun w => bytesOfNat 8 w.toNat

/-- A bounded wait of the stream goes on: WAITLIM at its limit (R176, R215, R216). -/
def State.rectWait (s : State) (tile : Nat) (q : MxCmd) : State :=
  let lim := (s.thread ⟨tile, q.core, q.h⟩).waitlim.toNat
  let w := q.since.getD (s.cycle, lim)
  if w.2 ≠ 0 ∧ s.cycle + 1 ≥ w.1 + w.2 then s.mxEnd tile q (.trap .waitlim (reasonVal 9 (if rectS q.rect then q.row else 0)))
  else s.setHead tile { q with since := some w }

/-- How a stream in a rectangle goes on: it waits for a message, or for nothing but its own time or room in a channel, or it makes a step. -/
inductive RectMove
  | wait
  | rest
  | go (s : State)

/-- One step of a stream in a rectangle (R176, R177). -/
def State.rectStep (s : State) (tile : Nat) (q : MxCmd) : RectMove :=
  let m := (s.tile tile).mx
  let c := m.cfg
  let r := q.rect
  if !rectW r && q.cfgW.isNone then
    (match m.west with
    | (_, .cfg a b k f ab) :: l => .go ((s.modMx tile fun x => { x with west := l }).setHead tile { q with cfgW := some (.cfg a b k f ab), since := none })
    | _ => .wait)
  else if !rectN r && q.cfgN.isNone then
    (match m.north with
    | (_, .cfg a b k f ab) :: l => .go ((s.modMx tile fun x => { x with north := l }).setHead tile { q with cfgN := some (.cfg a b k f ab), since := none })
    | _ => .wait)
  else
    let ok := q.cfgW.all (ArrMsg.agrees c) && q.cfgN.all (ArrMsg.agrees c)
    if !q.sent then
      if (!rectE r && !s.roomFor tile .e) || (!rectS r && !s.roomFor tile .s) then .rest
      else
        let msg : ArrMsg := .cfg (cfgM c) (cfgN c) (cfgK c) (cfgFmt c) (!ok)
        let s1 := if rectE r then s else s.sendArr tile .e msg
        let s2 := if rectS r then s1 else s1.sendArr tile .s msg
        .go (s2.setHead tile { q with sent := true, dropW := (q.cfgW.map ArrMsg.rowsSent).getD 0, dropN := (q.cfgN.map ArrMsg.rowsSent).getD 0,
                                       done := if ok then some (s.cycle + mxCycles 3 c) else none })
    else if !ok then
      match (if 0 < q.dropW then m.west else []), (if 0 < q.dropN then m.north else []) with
      | (_, .row _) :: l, _ => .go ((s.modMx tile fun x => { x with west := l }).setHead tile { q with dropW := q.dropW - 1, since := none })
      | _, (_, .row _) :: l => .go ((s.modMx tile fun x => { x with north := l }).setHead tile { q with dropN := q.dropN - 1, since := none })
      | _, _ => if q.dropW = 0 ∧ q.dropN = 0 then .go (s.mxEnd tile q (.breach ⟨7, rectDetail c q.cfgW q.cfgN⟩)) else .wait
    else if q.row ≥ cfgM c then .rest
    else if q.row = 0 ∧ q.held.isNone = true ∧ (s.streamPoison tile c q).isSome = true then
      .go ((s.streamFound tile c q).mxEnd tile q (.trap .poison (n64 ((s.streamPoison tile c q).getD 0))))
    else match q.held with
      | none =>
        if !rectE r && !s.roomFor tile .e then .rest
        else
          let z := if q.row = 0 then s.streamFound tile c q else s
          let take : Option (List Word64 × State) :=
            if rectW r then some (toWords (s.actRow tile c q.a.toNat q.row), z)
            else match m.west with
              | (_, .row ws) :: l => some (ws, z.modMx tile fun x => { x with west := l })
              | _ => none
          (match take with
          | some (ws, s1) => .go ((if rectE r then s1 else s1.sendArr tile .e (.row ws)).setHead tile { q with held := some ws, since := none })
          | none => .wait)
      | some ws =>
        if !rectS r && !s.roomFor tile .s then .rest
        else
          let north : Option (Option (List Word64) × State) :=
            if rectN r then some (none, s)
            else match m.north with
              | (_, .row ps) :: l => some (some ps, s.modMx tile fun x => { x with north := l })
              | _ => none
          (match north with
          | none => .wait
          | some (ps, s1) =>
            let B := bandScale (s.auxWord tile c / 2 ^ 16 % 2 ^ 16)
            let s2 := if rectS r then s1.streamRow tile c q (s.auxWord tile c) q.row (bytesOfWords ws) ps
              else s1.sendArr tile .s (.row (southRow c m.stat B (bytesOfWords ws) ps))
            .go (s2.setHead tile { q with held := none, row := q.row + 1, since := none }))

/-- Rows that the array takes in a cycle (R202). -/
def rowsPerCycle (c : Word64) : Nat := if cfgFmt c = 3 then 2 else 1
/-- A stream in a rectangle goes on within a cycle, up to a row: it checks its neighbours and takes what rows it can (R177, R202). -/
def State.rectRun (s : State) (tile upTo : Nat) : Nat → State
  | 0 => s
  | n + 1 =>
    match (s.tile tile).mx.queue with
    | [] => s
    | q :: _ =>
      if q.begun = false ∨ q.fn ≠ 3 ∨ inRect q.rect = false ∨ (q.row ≥ upTo ∧ q.held.isNone = true ∧ q.sent = true) then s
      else match s.rectStep tile q with
        | .wait => s.rectWait tile q
        | .rest => s
        | .go z => z.rectRun tile upTo n
/-- The array of a tile at the end of a cycle: it begins its next command, and a stream in a rectangle goes on. -/
def State.mxAdvance (s : State) (tile : Nat) : State :=
  let z := s.mxBegin tile
  match (z.tile tile).mx.queue with
  | [] => z
  | q :: _ => z.rectRun tile (q.row + rowsPerCycle (z.tile tile).mx.cfg) 8
/-- Every array at the end of a cycle. -/
def State.mxAdvanceAll (s : State) : State := s.tiles.foldl (fun (z : State) p => z.mxAdvance p.1) s

/-! ## Events of the array -/

/-- MX_COMMAND_COMPLETE: the array's command ends in its last cycle, its results written, and its issuer rejoins the rotation (R202). -/
def execMxCommandComplete (tile : Nat) (s : State) : Host.Outcome State Fault Refusal :=
  let m := (s.tile tile).mx
  match m.queue with
  | [] => .refused (.notEnabled "MX_COMMAND_COMPLETE: the array is idle")
  | q :: _ =>
    match q.done with
    | none => .refused (.notEnabled "MX_COMMAND_COMPLETE: the command has not begun")
    | some c =>
      if s.cycle < c ∨ m.notice.isSome = true then .refused (.notEnabled "MX_COMMAND_COMPLETE: the command has not ended")
      else match q.fn with
        | 1 => .next (s.mxLdstat tile q)
        | 3 =>
          if !inRect q.rect then .next (s.mxStream tile q)
          else if q.row ≥ cfgM m.cfg then .next (s.mxEnd tile q .ok)
          else .refused (.notEnabled "MX_COMMAND_COMPLETE: the stream has rows left")
        | 4 => .next (s.mxDrain tile q)
        | 5 => .next (s.mxClear tile q)
        | _ => .next (s.mxEnd tile q .ok)

/-- DOORBELL_NOTICE: a drain finds the doorbell empty, writes its notice and is complete (R311). -/
def execDoorbellNotice (tile : Nat) (s : State) : Host.Outcome State Fault Refusal :=
  let m := (s.tile tile).mx
  match m.notice, m.queue with
  | some (b, w), q :: _ =>
    if s.full (localKey tile b) then .refused (.notEnabled "DOORBELL_NOTICE: the doorbell is full")
    else .next (((s.putLocalWord tile b w.toNat).modMx tile fun x => { x with notice := none }).mxEnd tile q .ok)
  | _, _ => .refused (.notEnabled "DOORBELL_NOTICE: no drain waits")

/-- The oldest message of the channel that ends at a tile, if it has crossed it and finds one of the four places there (R176). -/
def State.arrHead (s : State) (tile : Nat) (d : Dir) : Option (Nat × ArrMsg × List (Nat × ArrMsg)) :=
  match tileNext tile d with
  | none => none
  | some n =>
    match (match d with | .w => (s.tile n).mx.east | .n => (s.tile n).mx.south | _ => []) with
    | (c, m) :: l =>
      let here := match d with | .w => (s.tile tile).mx.west | _ => (s.tile tile).mx.north
      if c ≤ s.cycle ∧ here.length < 4 then some (n, m, l) else none
    | [] => none
/-- The message moves into the tile's channel. -/
def State.arrTake (s : State) (tile : Nat) (d : Dir) (n : Nat) (m : ArrMsg) (l : List (Nat × ArrMsg)) : State :=
  match d with
  | .w => (s.modMx n fun x => { x with east := l }).modMx tile fun x => { x with west := x.west ++ [(s.cycle, m)] }
  | _ => (s.modMx n fun x => { x with south := l }).modMx tile fun x => { x with north := x.north ++ [(s.cycle, m)] }

/-- ARRAY_CHANNEL_MESSAGE: an activation row or a row of partial sums arrives on an array channel (R176). -/
def execArrayChannelMessage (tile : Nat) (dir : Dir) (s : State) : Host.Outcome State Fault Refusal :=
  match s.arrHead tile dir with
  | some (n, .row v, l) => .next (s.arrTake tile dir n (.row v) l)
  | _ => .refused (.notEnabled "ARRAY_CHANNEL_MESSAGE: no row has arrived")

/-- ARRAY_CONFIG_MESSAGE: a neighbour's configuration message arrives, and a stream that waits for it checks it (R177). -/
def execArrayConfigMessage (tile : Nat) (dir : Dir) (s : State) : Host.Outcome State Fault Refusal :=
  match s.arrHead tile dir with
  | some (n, .cfg a b k f x, l) =>
    let s1 := s.arrTake tile dir n (.cfg a b k f x) l
    .next (match (s1.tile tile).mx.queue with
      | q :: _ => if q.fn = 3 ∧ inRect q.rect = true ∧ q.begun = true ∧ q.sent = false then (match s1.rectStep tile q with | .go z => z | _ => s1) else s1
      | [] => s1)
  | _ => .refused (.notEnabled "ARRAY_CONFIG_MESSAGE: no configuration message has arrived")

/-! ## Instructions (R193, R202) -/

/-- The scoreboard entries of an instruction as it issues, under the configuration in force (R170). -/
def mxEntries (c : Word64) (fn : Nat) (a b : Int) (r : BitVec 5) (own : SbOwner) (cycle : Nat) : List SbEntry :=
  if !cfgValid c then []
  else
    let aux := match cfgAux c with | some x => boardEntry x 136 false own cycle | none => []
    match fn with
    | 1 => boardEntry a (weightSize c) false own cycle ++ aux
    | 3 => (if rectW r then boardEntry a (actSize c) false own cycle else []) ++ (if rectS r then boardEntry b (accSize c) true own cycle else []) ++ aux
    | 4 => boardEntry a (accSize c) false own cycle ++ boardEntry b (drainSize c) false own cycle
    | 5 => boardEntry a (accSize c) true own cycle
    | _ => []

/-- An array instruction arrives at the array with its operands (R202): its entries are recorded and its thread leaves the rotation; an
idle array begins it at once where it has no operands in memory. -/
def mxArrive (s0 : State) (i : Instr) (fn : Nat) (a b : Int) (s : State) : M State :=
  let z := s.myTile
  let rect := s.myCore.crect
  let own : SbOwner := .mx s.cur.core s.cur.h
  let es := mxEntries z.mx.cfg fn a b rect own s.cycle
  if z.board.length + es.length > 16 then holdM s0 i 5 none
  else
    let q : MxCmd := ⟨fn, a, b, s.cur.core, s.cur.h, none, rect, false, none, 0, none, none, none, false, none, 0, 0, false, []⟩
    let s1 := s.setMyTile { z with board := z.board ++ es, mx := { z.mx with queue := z.mx.queue ++ [q] } }
    let s2 := s1.setMe { s1.me with st := .waiting, wait := some { s0.newWait i .reply with took := s0.tookOf i } }
    .ok (if (fn = 0 ∨ fn = 2) ∧ z.mx.queue.isEmpty = true then s2.mxBegin s2.cur.tile else s2)

/-- ACCESS with the first instruction word on any core but the arithmetic one (R156). -/
def State.mxRole (s : State) (i : Instr) : Option (Cause × Word64) := if s.cur.core = 2 then none else some (.access, instrVal i)

/-- The course of an `mx` instruction of one operand. -/
def mxOneM (s : State) (i : Instr) (h : Hdr) (fn : Nat) (a : NameRef) : M State := do
  let s1 ← s.issue i h [a] [] (s.mxRole i)
  let (x, s2) ← s.read i h a s1
  mxArrive s i fn (if fn = 0 ∧ x.ent.kind.isInt = false then (x.pat : Int) else x.val) 0 s2
/-- The course of one of two operands. -/
def mxTwoM (s : State) (i : Instr) (h : Hdr) (fn : Nat) (a b : NameRef) : M State := do
  let s1 ← s.issue i h [a, b] [] (s.mxRole i)
  let (x, s2) ← s.read i h a s1
  let (y, s3) ← s.read i h b s2
  mxArrive s i fn x.val y.val s3
/-- The course of `mx.swap`. -/
def mxSwapM (s : State) (i : Instr) (h : Hdr) : M State := do
  let s1 ← s.issue i h [] [] (s.mxRole i)
  mxArrive s i 2 0 0 s1

/-- `mx.cfg` (R126, R194). -/
def execMxCfg (h : Hdr) (a : NameRef) (s : State) : Host.Outcome State Fault Refusal := finish (mxOneM s (.mxCfg h a) h 0 a)
/-- `mx.ldstat` (R196). -/
def execMxLdstat (h : Hdr) (a : NameRef) (s : State) : Host.Outcome State Fault Refusal := finish (mxOneM s (.mxLdstat h a) h 1 a)
/-- `mx.swap` (R197). -/
def execMxSwap (h : Hdr) (s : State) : Host.Outcome State Fault Refusal := finish (mxSwapM s (.mxSwap h) h)
/-- `mx.stream` (R198). -/
def execMxStream (h : Hdr) (a b : NameRef) (s : State) : Host.Outcome State Fault Refusal := finish (mxTwoM s (.mxStream h a b) h 3 a b)
/-- `mx.drain` (R199). -/
def execMxDrain (h : Hdr) (a b : NameRef) (s : State) : Host.Outcome State Fault Refusal := finish (mxTwoM s (.mxDrain h a b) h 4 a b)
/-- `mx.clear` (R200). -/
def execMxClear (h : Hdr) (a : NameRef) (s : State) : Host.Outcome State Fault Refusal := finish (mxOneM s (.mxClear h a) h 5 a)

end Sys2Proof.Machine
end

