-- ==== Sys2Proof/Machine/Engine.lean ====
section
/-! DEFINITION. The engines: `eng` (14 R279 to R283), engine commands from acceptance to completion (09 R156, R163 to R175), the
convert command (10 R192) and shadows (09 R172 to R175, 21 R369). -/
namespace Sys2Proof.Machine

/-! ## Commands as words (R163, R192) -/

/-- A dimension: count, source stride, destination stride. -/
structure Dim where
  count : Nat
  sstr : Int
  dstr : Int
  deriving DecidableEq, Repr

/-- The header. -/
def cmdHd (ws : List Word64) : Nat := (ws.headD 0).toNat
/-- `op`. -/
def cmdOp (ws : List Word64) : Nat := fieldOf (cmdHd ws) 56 8
/-- `ndim`. -/
def cmdNdim (ws : List Word64) : Nat := fieldOf (cmdHd ws) 52 4
/-- `queue`. -/
def cmdQueue (ws : List Word64) : Fin 4 := ⟨fieldOf (cmdHd ws) 50 2, Nat.mod_lt _ (by decide)⟩
/-- Bytes of an element by `esz`. -/
def cmdE (ws : List Word64) : Nat := 2 ^ fieldOf (cmdHd ws) 48 2
/-- `shadow`. -/
def cmdShadow (ws : List Word64) : Bool := (cmdHd ws).testBit 47
/-- `sset`. -/
def cmdSset (ws : List Word64) : Nat := fieldOf (cmdHd ws) 43 4
/-- `fo`. -/
def cmdFo (ws : List Word64) : Bool := (cmdHd ws).testBit 42
/-- `gen`. -/
def cmdGen (ws : List Word64) : Bool := (cmdHd ws).testBit 41
/-- `gslot`. -/
def cmdGslot (ws : List Word64) : Fin 32 := ⟨fieldOf (cmdHd ws) 36 5, Nat.mod_lt _ (by decide)⟩
/-- Whether `notify` asks for a status word. -/
def cmdPosts (ws : List Word64) : Bool := (cmdHd ws).testBit 34
/-- Whether `notify` asks for a semaphore. -/
def cmdSems (ws : List Word64) : Bool := (cmdHd ws).testBit 35
/-- A word of the command. -/
def cmdW (ws : List Word64) (k : Nat) : Nat := (ws.getD k 0).toNat
/-- Whether the source, or the destination, lies in local memory. -/
def cmdLocal (ws : List Word64) (k : Nat) : Bool := fieldOf (cmdW ws k) 60 4 == 0
/-- Its address. -/
def cmdAddr (ws : List Word64) (k : Nat) : Nat := fieldOf (cmdW ws k) 0 56
/-- The dimensions. -/
def cmdDims (ws : List Word64) : List Dim :=
  (List.range (cmdNdim ws)).map fun j =>
    let v := cmdW ws (4 + j)
    ⟨fieldOf v 44 20, signedOf 22 (fieldOf v 22 22), signedOf 22 (fieldOf v 0 22)⟩
/-- The word after the dimensions: F0, or the parameter word of a convert command. -/
def cmdTail (ws : List Word64) (k : Nat) : Nat := cmdW ws (4 + cmdNdim ws + k)
/-- The semaphore's local address, where the command names one. -/
def cmdSem (ws : List Word64) : Option Nat :=
  if cmdSems ws ∧ 4 ≤ ws.length ∧ cmdW ws 3 < 2 ^ 19 ∧ cmdW ws 3 % 8 = 0 then some (cmdW ws 3) else none

/-- Formats of a convert command (R192). -/
inductive CFmt
  | flt (f : FF)
  | int (sgn : Bool) (bytes : Nat)
  | g8 (e : Elem)
  | g4
  deriving DecidableEq, Repr
/-- The format of a code. -/
def cfmtOf : Nat → Option CFmt
  | 0 => some (.flt .f32) | 1 => some (.flt .b16) | 2 => some (.flt .e4) | 3 => some (.flt .e5)
  | 4 => some (.int true 1) | 5 => some (.int false 1) | 6 => some (.int true 4)
  | 7 => some (.g8 .e4m3) | 8 => some (.g8 .e5m2) | 9 => some (.g8 .int8) | 10 => some (.g8 .uint8) | 11 => some .g4
  | _ => none
/-- Elements of a granule of a format; 0 for a plain one. -/
def CFmt.gran : CFmt → Nat | .g8 _ => 32 | .g4 => 64 | _ => 0
/-- Bytes of a plain element. -/
def CFmt.bytes : CFmt → Nat | .flt f => f.bits / 8 | .int _ n => n | _ => 8
/-- The source format. -/
def cmdSfmt (ws : List Word64) : Option CFmt := cfmtOf (fieldOf (cmdHd ws) 30 4)
/-- The destination format. -/
def cmdDfmt (ws : List Word64) : Option CFmt := cfmtOf (fieldOf (cmdHd ws) 26 4)
/-- The rounding: 0 is `rne`; none for a refused code. -/
def cmdRnd (ws : List Word64) : Option RMode :=
  match fieldOf (cmdHd ws) 23 3 with
  | 0 => some .rne | 1 => some .rne | 2 => some .rtz | 3 => some .rdn | 4 => some .rup | 5 => some .rst | _ => none

/-- The bounding byte range of a side of strided elements (R165): first and last. -/
def sideRange (a E : Nat) (l : List (Nat × Int)) : Int × Int :=
  let xs := l.map fun d => (((d.1 : Int) - 1) * d.2 * E)
  ((a : Int) + (xs.map fun x => min x 0).sum, (a : Int) + (xs.map fun x => max x 0).sum + E - 1)
/-- The range of a dense side of granules. -/
def denseRange (a n G : Nat) : Int × Int := ((a : Int), (a : Int) + 40 * (n / G : Nat) - 1)
/-- Bytes of the source's, or the destination's, element. -/
def sideE (ws : List Word64) (src : Bool) : Nat :=
  if cmdOp ws = 2 then ((if src then cmdSfmt ws else cmdDfmt ws).map CFmt.bytes).getD 1 else cmdE ws
/-- Elements of a granule of a side; 0 for a plain side. -/
def sideG (ws : List Word64) (src : Bool) : Nat :=
  if cmdOp ws = 2 then ((if src then cmdSfmt ws else cmdDfmt ws).map CFmt.gran).getD 0 else 0
/-- The bounding byte range of the source or the destination. -/
def cmdRange (ws : List Word64) (src : Bool) : Int × Int :=
  let a := cmdAddr ws (if src then 1 else 2)
  let G := sideG ws src
  if G = 0 then sideRange a (sideE ws src) ((cmdDims ws).map fun d => (d.count, if src then d.sstr else d.dstr))
  else denseRange a (cmdElems ws) G
/-- Bytes by which offsets count an element's place (R165): the plain side's element, the source's where both are plain. -/
def cmdOffE (ws : List Word64) : Nat := if sideG ws true = 0 then sideE ws true else sideE ws false

/-- Whether a convert command's own fields are refused (R192). -/
def convertBad (ws : List Word64) : Bool :=
  match cmdSfmt ws, cmdDfmt ws, cmdRnd ws with
  | some f, some g, some _ =>
    let p := cmdTail ws 0
    let G := max f.gran g.gran
    decide (f.gran ≠ 0 ∧ g.gran ≠ 0) || cmdFo ws || decide (fieldOf (cmdHd ws) 16 5 ≠ 0) ||
    decide (G ≠ 0 ∧ cmdElems ws % G ≠ 0) ||
    ((cmdHd ws).testBit 21 && (match g with | .g8 _ => false | _ => true)) ||
    decide (f.gran = 0 ∧ cmdE ws ≠ f.bytes) || decide (fieldOf p 19 21 ≠ 0) || decide (p % 8 ≠ 0)
  | _, _, _ => true
/-- Whether a command is refused at acceptance (R156, R165, R168, R192). -/
def cmdRefused (core : Fin 3) (ws : List Word64) : Bool :=
  let hd := cmdHd ws
  let bad3 := decide (cmdW ws 3 ≥ 2 ^ 19) || decide (cmdW ws 3 % 8 ≠ 0) || (!cmdSems ws && decide (cmdW ws 3 ≠ 0))
  let side : Nat → Bool := fun k => decide (fieldOf (cmdW ws k) 60 4 > 1) || decide (fieldOf (cmdW ws k) 56 4 ≠ 0)
  let f0 := cmdTail ws 0
  let f1 := cmdTail ws 1
  let fn := fieldOf f0 60 4
  let r := cmdRange ws true
  let w := cmdRange ws false
  (cmdOp ws ≠ 1 && cmdOp ws ≠ 2) || cmdNdim ws == 0 || decide (cmdNdim ws > 12) || decide (ws.length ≠ cmdLen (ws.headD 0)) ||
  (!cmdShadow ws && cmdSset ws ≠ 0) || (!cmdGen ws && fieldOf hd 36 5 ≠ 0) || (cmdOp ws == 1 && fieldOf hd 16 18 ≠ 0) ||
  side 1 || side 2 || bad3 || (cmdDims ws).any (fun d => d.count == 0) ||
  (cmdShadow ws && cmdLocal ws 2) ||
  (cmdFo ws && (core == 1 || fn == 0 || decide (fn > 5) || fieldOf f0 19 41 ≠ 0 || fieldOf f1 19 45 ≠ 0)) ||
  (cmdOp ws == 2 && convertBad ws) ||
  decide (cmdAddr ws 1 % sideE ws true ≠ 0) || decide (cmdAddr ws 2 % sideE ws false ≠ 0) ||
  (cmdLocal ws 1 == cmdLocal ws 2 && decide (r.1 ≤ w.2) && decide (w.1 ≤ r.2)) ||
  (cmdSem ws == some 0x7_FFF8 && decide (cmdElems ws * cmdOffE ws ≥ 2 ^ 32))
/-- Whether a command ends ROLE, by the header alone (R156). -/
def cmdRole (core : Fin 3) (ws : List Word64) : Bool := core == 2 || (core == 0 && cmdOp ws == 2)
/-- The engine a core's commands go to: 0 the copy engine, 1 the conversion engine. -/
def engOf (core : Fin 3) : Fin 2 := if core = 1 then 1 else 0

/-! ## Status (R167, R168) -/

/-- A status word. -/
def statusWord (hd code eng : Nat) (off : Nat) : Word64 :=
  let ext := if off ≥ 2 ^ 32 then 1 else 0
  n64 (fieldOf hd 0 16 * 2 ^ 48 + code * 2 ^ 40 + eng * 2 ^ 38 + fieldOf hd 50 2 * 2 ^ 36 + ext * 2 ^ 35 +
    (if ext = 1 then 0xFFFF_FFFF else off))
/-- The words that a status posts. -/
def statusWords (hd code eng off : Nat) : List Word64 :=
  statusWord hd code eng off :: (if off ≥ 2 ^ 32 then [n64 off] else [])
/-- Whether a status word is posted. -/
def mustPost (ws : List Word64) (code : Nat) : Bool := cmdPosts ws || decide (code ≥ 2)
/-- Whether the submitting core's `port.eng` buffer has room for what a command must post. -/
def State.statusRoom (s : State) (r : CoreRef) (ws : List Word64) (code off : Nat) : Bool :=
  !mustPost ws code || decide ((s.core r).portEng.length + (statusWords (cmdHd ws) code 0 off).length ≤ 16)
/-- The semaphore and the status word of a command that ends, in this order (R168). -/
def State.report (s : State) (r : CoreRef) (ws : List Word64) (code eng off : Nat) : State :=
  let l := statusWords (cmdHd ws) code eng off
  let s1 := match cmdSem ws with
    | some a =>
      let s0 := if off ≥ 2 ^ 32 then s.putLocalWord r.tile (a + 8) (off % 2 ^ 64) else s
      s0.putLocalWord r.tile a (statusWord (cmdHd ws) code eng off).toNat
    | none => s
  let c := s1.core r
  s1.setCore r { c with portEng := if mustPost ws code then c.portEng ++ l else c.portEng, submitted := c.submitted - 1 }

/-! ## Acceptance (R156, R165, R170) -/

/-- The fixed range of a follow-on operand (R170). -/
def followEntries (ws : List Word64) (own : SbOwner) (cycle : Nat) : List SbEntry :=
  if !cmdFo ws then []
  else
    let a := (fieldOf (cmdTail ws 0) 0 19 : Nat)
    let b := (fieldOf (cmdTail ws 1) 0 19 : Nat)
    match fieldOf (cmdTail ws 0) 60 4 with
    | 1 => boardEntry a 0x2000 false own cycle
    | 3 => boardEntry a 0x2000 false own cycle ++ boardEntry b 0x4000 true own cycle
    | 4 => boardEntry a 0x4000 false own cycle ++ boardEntry b 528 false own cycle
    | 5 => boardEntry a 0x4000 true own cycle
    | _ => []
/-- The part of a bounding range that lies in local memory, as an entry. -/
def rangeEntry (r : Int × Int) (w : Bool) (own : SbOwner) (cycle : Nat) : List SbEntry :=
  let lo := max 0 r.1
  let hi := min 0x7_FFFF r.2
  if lo ≤ hi then [⟨lo.toNat, hi.toNat, w, own, cycle⟩] else []
/-- The entries a command takes as it is accepted. -/
def cmdEntries (ws : List Word64) (own : SbOwner) (cycle : Nat) : List SbEntry :=
  (if cmdLocal ws 1 then rangeEntry (cmdRange ws true) false own cycle else []) ++
  (if cmdLocal ws 2 then rangeEntry (cmdRange ws false) true own cycle else []) ++ followEntries ws own cycle

/-- ENGINE_COMMAND_ACCEPT: the oldest complete command of a core's buffer passes to its engine with its scoreboard entries, or ends
ROLE or REFUSED (R156, R163, R165, R170). -/
def execEngineCommandAccept (k : CoreRef) (s : State) : Host.Outcome State Fault Refusal :=
  let c := s.core k
  match c.cbuf.find? fun b => b.words.length == b.need with
  | none => .refused (.notEnabled "ENGINE_COMMAND_ACCEPT: no complete command")
  | some b =>
    let ws := b.words
    let drop := s.setCore k { c with cbuf := c.cbuf.erase b }
    let code := if cmdRole k.core ws then 3 else if cmdRefused k.core ws then 2 else 0
    if code ≠ 0 then
      let e := if code = 3 then (if cmdOp ws = 2 then 1 else 0) else (engOf k.core).val
      if s.statusRoom k ws code 0 then .next (drop.report k ws code e 0)
      else .refused (.notEnabled "ENGINE_COMMAND_ACCEPT: no room for the status word")
    else
      let z := drop.tile k.tile
      let e := engOf k.core
      let own : SbOwner := .eng e.val b.id
      let es := cmdEntries ws own s.cycle
      if z.board.length + es.length > 16 then .refused (.notEnabled "ENGINE_COMMAND_ACCEPT: the scoreboard is full")
      else
        let kn := s.kernel ⟨k.tile, k.core, b.h⟩
        let q : EngCmd := { words := ws, core := k.core, h := b.h, ctx := kn.ctx, gang := kn.gang, elem := 0, stage := .run, thresh := b.thresh,
                            clips := 0, flushes := 0, zrs := 0, nans := 0, bads := 0, rkey := b.rkey, rpos := b.rpos, ridx := b.ridx,
                            id := b.id, cyc := s.cycle, moved := s.cycle, pass := none }
        let g := z.eng[e]
        let j := cmdQueue ws
        .next (drop.setTile k.tile { z with board := z.board ++ es, eng := z.eng.set e { g with queues := g.queues.set j (g.queues[j] ++ [q]) } })

/-- ENG_RESERVATION_GRANT: the oldest waiting header write of a core is granted its room in the command buffer (R164). -/
def execEngReservationGrant (k : CoreRef) (s : State) : Host.Outcome State Fault Refusal :=
  let c := s.core k
  let ws := (List.finRange 8).filterMap fun h => match c.threads[h].wait with
    | some w => (match w.why with
      | .retry 3 n => if c.threads[h].st = .waiting ∧ (c.partialOf h).isNone = true then some (w.seq, h, n) else none
      | _ => none)
    | none => none
  match ws.foldl (fun (b : Option (Nat × Fin 8 × Nat)) w => match b with
      | some x => if w.1 < x.1 then some w else b
      | none => some w) none with
  | some (_, h, n) =>
    if c.cbufUsed + n ≤ 32 then .next (s.setCore k { c with cbuf := c.cbuf ++ [⟨h, n, [], 0, 0, 0, 0, 0⟩] })
    else .refused (.notEnabled "ENG_RESERVATION_GRANT: no room yet")
  | none => .refused (.notEnabled "ENG_RESERVATION_GRANT: no header write waits")

/-! ## Moving elements (R165, R167, R169, R369) -/

/-- A guard slot as the engines see it in a cycle (R169, R282). -/
def GuardSlot.seen (g : GuardSlot) (cycle : Nat) : Guard := if cycle < g.cyc then g.was else g.now

/-- How an element goes: it is moved, it misses, it must wait, it fails with a status code, or its source is poisoned, in bytes from a key. -/
inductive Move
  | miss (kind va : Nat)
  | wait
  | fail (code : Nat)
  | poison (k n : Nat)
  deriving DecidableEq, Repr

/-- What the moves of one command share: tile, engine and the command. -/
structure EngAt where
  tile : Nat
  eng : Fin 2
  cmd : EngCmd
  deriving DecidableEq, Repr

/-- The thread of a command. -/
def EngAt.thr (x : EngAt) : ThreadRef := ⟨x.tile, x.cmd.core, x.cmd.h⟩
/-- The entry of an engine's translation cache for an access; `blocked` waits (R370). -/
def State.engEntry (s : State) (x : EngAt) (kind a : Nat) : Except Move TEntry :=
  if s.blocked x.cmd.ctx a then .error .wait
  else match ((s.tile x.tile).eng[x.eng]).tc.find? fun e => e.hit x.cmd.ctx a with
    | none => .error (.miss kind a)
    | some e =>
      if kind ≥ 4 && !e.w then .error (.fail 4)
      else if s.routeDown (e.pa a) then .error (.fail 6)
      else if s.peerRefused (e.pa a) (decide (kind ≥ 4)) then .error (.fail 4)
      else if s.bankOff (e.pa a) then .error .wait
      else .ok e

/-- Reads up to eight bytes of a source within one word (R165, R260, R371). -/
def State.engRead (s : State) (x : EngAt) (isLocal : Bool) (a : Int) (n : Nat) : Except Move (List Byte × State) :=
  let t := x.thr
  if isLocal then
    if a < 0 ∨ a + n > 0x8_0000 then .error (.fail 4)
    else
      let k := localKey x.tile a.toNat
      if s.poisoned k n then .error (.poison k n) else .ok (s.bytesAt k n, s.found t 3 x.cmd.ctx k n)
  else if a < 0 ∨ a ≥ 2 ^ 56 then .error (.fail 4)
  else match s.globWin a.toNat with
    | .glob g =>
      match s.engEntry x 3 g with
      | .error m => .error m
      | .ok e =>
        let pa := e.pa g
        if s.poisoned pa n then .error (.poison pa n) else .ok (s.homeBytes e.key pa n, s.found t 3 x.cmd.ctx pa n)
    | .ws die region off =>
      let listed := match s.launch? (s.kernel t).lid with
        | some l => ((if die = 0 then l.ws.1 else l.ws.2).getLsbD region)
        | none => false
      if !listed then .error (.fail 4)
      else if (s.cycle + 2 ^ 26 - 1024 * region) % 65536 < 256 then .error .wait
      else if s.poisoned (wsKey die off) n then .error (.poison (wsKey die off) n)
      else .ok (s.bytesAt (wsKey die off) n, s.found t 3 x.cmd.ctx (wsKey die off) n)
    | _ => .error (.fail 4)

/-- The shadow of a page that a core's set holds. -/
def Core.shadowOf (c : Core) (set ctx vpn : Nat) : Option Shadow := c.shadows.find? fun h => h.set == set && h.ctx == ctx && h.vpn == vpn
/-- Whether a shadow of another set, of any core or of a gang that has been saved, holds a page of a context (R173, R331). -/
def State.shadowElsewhere (s : State) (r : CoreRef) (set ctx vpn : Nat) : Bool :=
  (s.tiles.any fun p => (List.finRange 3).any fun k => ((p.2.cores[k]).shadows).any fun h =>
    h.ctx == ctx && h.vpn == vpn && !(p.1 == r.tile && k == r.core && h.set == set)) ||
  s.saved.any fun v => v.tiles.any fun t => (List.finRange 3).any fun k => ((t.cores[k]).shadows).any fun h => h.ctx == ctx && h.vpn == vpn

/-- Writes up to eight bytes of a destination within one word (R165, R172, R353, R371). -/
def State.engWrite (s : State) (x : EngAt) (a : Int) (bs : List Byte) : Except Move State :=
  let r := x.thr.coreRef
  let n := bs.length
  let ws := x.cmd.words
  if cmdLocal ws 2 then
    if a < 0 ∨ a + n > 0x8_0000 then .error (.fail 4)
    else
      let k := localKey x.tile a.toNat
      let s1 := (if s.merges k n then s.count r 9 else s).rewrite x.thr 4 x.cmd.ctx k n
      .ok ((s1.putBytes k bs).setFullList (wordsOf k n))
  else if a < 0 ∨ a ≥ 2 ^ 56 then .error (.fail 4)
  else match s.globWin a.toNat with
    | .glob g =>
      let put : Nat → Nat → State := fun key pa =>
        ((if s.merges pa n then s.count r 9 else s).rewrite x.thr 4 x.cmd.ctx pa n).durableWrite (tileDie x.tile) key pa bs
      if cmdShadow ws then
        let set := cmdSset ws
        let vpn := granuleOf g
        (match (s.core r).shadowOf set x.cmd.ctx vpn with
        | some h =>
          if s.bankOff (h.new * 2 ^ 16 + g % 2 ^ 16) then .error .wait else .ok (put h.key (h.new * 2 ^ 16 + g % 2 ^ 16))
        | none =>
          if s.shadowElsewhere r set x.cmd.ctx vpn then .error (.fail 7)
          else if ((s.core r).shadows.filter fun h => h.set == set).length ≥ 1024 then .error (.fail 8)
          else if s.blocked x.cmd.ctx g then .error .wait
          else .error (.miss 7 g))
      else
        (match s.engEntry x 4 g with
        | .error m => .error m
        | .ok e => .ok (put e.key (e.pa g)))
    | _ => .error (.fail 4)

/-- Writes bytes word by word. -/
def State.engWrites (s : State) (x : EngAt) (a : Int) : List Byte → Nat → Except Move State
  | _, 0 => .ok s
  | bs, n + 1 =>
    match s.engWrite x a (bs.take 8) with
    | .error m => .error m
    | .ok z => z.engWrites x (a + 8) (bs.drop 8) n
/-- Reads words. -/
def State.engReads (s : State) (x : EngAt) (isLocal : Bool) (a : Int) : Nat → Except Move (List Byte × State)
  | 0 => .ok ([], s)
  | n + 1 =>
    match s.engRead x isLocal a 8 with
    | .error m => .error m
    | .ok (bs, z) => match z.engReads x isLocal (a + 8) n with
      | .error m => .error m
      | .ok (cs, y) => .ok (bs ++ cs, y)

/-- The index vector of position `p`, i0 first (R165). -/
def dimIndex : List Dim → Nat → List Nat
  | [], _ => []
  | d :: l, p => p % d.count :: dimIndex l (p / d.count)
/-- The offset in elements of a position on a side. -/
def strideSum (ds : List Dim) (p : Nat) (src : Bool) : Int :=
  ((ds.zip (dimIndex ds p)).map fun e => (e.2 : Int) * (if src then e.1.sstr else e.1.dstr)).sum
/-- The address of the element at a position of a plain side. -/
def elemAddr (ws : List Word64) (src : Bool) (p : Nat) : Int :=
  (cmdAddr ws (if src then 1 else 2) : Int) + (sideE ws src : Int) * strideSum (cmdDims ws) p src

/-- Copies the element at a position (R165). -/
def State.copyElem (s : State) (x : EngAt) (p : Nat) : Except Move State :=
  let ws := x.cmd.words
  match s.engRead x (cmdLocal ws 1) (elemAddr ws true p) (cmdE ws) with
  | .error m => .error m
  | .ok (bs, z) => z.engWrite x (elemAddr ws false p) bs

/-! ## The convert command (R192) -/

/-- The value of a plain source element. -/
def CFmt.value (f : CFmt) (c : Nat) : FVal :=
  match f with
  | .flt f => f.value c
  | .int sgn n => .int (if sgn then signedOf (8 * n) c else (c : Int))
  | _ => .nan
/-- A value written to a plain element: its code and what it counts (R139, R192). -/
def CFmt.write (f : CFmt) (md : RMode) (r : Nat) (v : XVal) : Nat × QCount :=
  match f with
  | .flt f =>
    let y := f.round md r v
    (match y with
    | .nan => (f.nanCode, QCount.zero)
    | .inf n => if f.hasInf then (f.code y, QCount.zero) else (f.code (f.topVal n), { QCount.zero with clip := 1 })
    | .fin n _ _ => if f.beyond y then (f.code (f.topVal n), { QCount.zero with clip := 1 }) else (f.code y, QCount.zero))
  | .int sgn n =>
    let k : Kind := if sgn then .sint else .uint
    (match v with
    | .nan => (0, { QCount.zero with nan := 1 })
    | .inf neg => (wrapNat (8 * n) (if neg then kindLo k (8 * n) else kindHi k (8 * n)), { QCount.zero with clip := 1 })
    | v =>
      let y := (v.toInt md r).getD 0
      if inRange k (8 * n) y then (wrapNat (8 * n) y, QCount.zero)
      else (wrapNat (8 * n) (satInt k (8 * n) y), { QCount.zero with clip := 1 }))
  | _ => (0, QCount.zero)

/-- The value of the element at a position, smoothed under `sm` (R146, R192), and whether its factor was replaced. -/
def smoothVal (f : Option Nat) (v : FVal) : XVal × Nat :=
  match f with
  | none => (v.x, 0)
  | some c =>
    if factorOk c then
      (match FF.b16.value c with
      | .fin _ m e => (match v with
        | .fin n a b => if a = 0 then v.x else .mag n (Mag.quot a m (b - e))
        | v => v.x)
      | _ => v.x, 0)
    else (v.x, 1)
/-- Whether a format is a floating operand format, to which smoothing applies (R146): not an integer, nor a granule of integers. -/
def CFmt.floating : CFmt → Bool
  | .int _ _ => false
  | .g8 .int8 => false
  | .g8 .uint8 => false
  | _ => true
/-- The smoothing factor's code for a position: read from the table at `stab`; none where no smoothing is asked for, or the destination is an
integer format (R146). -/
def State.factor (s : State) (x : EngAt) (p : Nat) : Except Move (Option Nat × State) :=
  let ws := x.cmd.words
  if !(cmdHd ws).testBit 22 || !((cmdDfmt ws).map CFmt.floating).getD false then .ok (none, s)
  else
    let k := (dimIndex (cmdDims ws) p).headD 0 % 64
    match s.engRead x true ((fieldOf (cmdTail ws 0) 0 19 : Nat) + 2 * k : Nat) 2 with
    | .error m => .error m
    | .ok (bs, z) => .ok (some (natOfBytes bs), z)
/-- The values of `n` plain source elements from a position. -/
def State.sourceVals (s : State) (x : EngAt) (f : CFmt) (p : Nat) : Nat → Except Move (List (XVal × Nat) × State)
  | 0 => .ok ([], s)
  | n + 1 =>
    match s.engRead x (cmdLocal x.cmd.words 1) (elemAddr x.cmd.words true p) f.bytes with
    | .error m => .error m
    | .ok (bs, z) => match z.factor x p with
      | .error m => .error m
      | .ok (c, y) => match y.sourceVals x f (p + 1) n with
        | .error m => .error m
        | .ok (l, u) => .ok (smoothVal c (f.value (natOfBytes bs)) :: l, u)
/-- The draw reserved for a position (R137). -/
def EngCmd.draw (c : EngCmd) (p : Nat) : Nat := drawOf c.rkey.toNat c.rpos (c.ridx + p)
/-- The band scale of a parameter word: BF16, code 0 means 1.0. -/
def paramBand (p : Nat) : FVal := bandScale (fieldOf p 48 16)

/-- Converts from a position (R192): the elements moved, the counts and the state. A granule destination takes a whole granule. A bad factor counts
SMBAD for each element it is used for (log 112). -/
def State.convertElem (s : State) (x : EngAt) (p : Nat) : Except Move (Nat × QCount × State) :=
  let ws := x.cmd.words
  let prm := cmdTail ws 0
  match cmdSfmt ws, cmdDfmt ws, cmdRnd ws with
  | some f, some g, some md =>
    if g.gran ≠ 0 then
      match s.sourceVals x f p g.gran with
      | .error m => .error m
      | .ok (vs, z) =>
        let rs := if md = .rst then (List.range g.gran).map fun j => x.cmd.draw (p + j) else []
        let sup := if (cmdHd ws).testBit 21 then some (fieldOf prm 40 8) else none
        let r := match g with
          | .g8 e => quantG8 e md rs sup (vs.map Prod.fst)
          | _ => quantG4 md rs (paramBand prm) none (vs.map Prod.fst)
        match z.engWrites x ((cmdAddr ws 2 : Int) + 40 * (p / g.gran : Nat)) (bytesOfNat 40 r.1) 5 with
        | .error m => .error m
        | .ok y => .ok (g.gran, { r.2 with smbad := (vs.map Prod.snd).sum }, y)
    else
      let src : Except Move (XVal × Nat × State) :=
        if f.gran = 0 then
          (match s.sourceVals x f p 1 with
          | .error m => .error m
          | .ok (l, z) => .ok ((l.headD (.nan, 0)).1, (l.headD (.nan, 0)).2, z))
        else
          (match s.engReads x (cmdLocal ws 1) ((cmdAddr ws 1 : Int) + 40 * (p / f.gran : Nat)) 5 with
          | .error m => .error m
          | .ok (bs, z) => match z.factor x p with
            | .error m => .error m
            | .ok (c, y) =>
              let pat := natOfBytes bs
              let vs := match f with | .g8 e => g8Vals e pat | _ => g4Vals (paramBand prm) pat
              let v := smoothVal c (vs.getD (p % f.gran) .nan)
              .ok (v.1, v.2, y))
      match src with
      | .error m => .error m
      | .ok (v, bad, z) =>
        let w := g.write md (x.cmd.draw p % 2 ^ 24) v
        match z.engWrite x (elemAddr ws false p) (bytesOfNat g.bytes w.1) with
        | .error m => .error m
        | .ok y => .ok (1, { w.2 with smbad := bad }, y)
  | _, _, _ => .error (.fail 2)

/-! ## Bursts (R167) -/

/-- The command with counts added. -/
def EngCmd.addCounts (c : EngCmd) (n : Nat) (q : QCount) : EngCmd :=
  { c with elem := c.elem + n, clips := c.clips + q.clip, flushes := c.flushes + q.flush, zrs := c.zrs + q.zr, nans := c.nans + q.nan,
           bads := c.bads + q.smbad }
/-- Its counts. -/
def EngCmd.counts (c : EngCmd) : QCount := ⟨c.clips, c.flushes, c.zrs, c.nans, c.bads⟩
/-- Moves at most `n` elements, or granules, until the command is done or an element does not go. -/
def State.moveElems (s : State) (x : EngAt) : Nat → State × EngCmd × Option Move
  | 0 => (s, x.cmd, none)
  | n + 1 =>
    let c := x.cmd
    if c.elem ≥ cmdElems c.words then (s, c, none)
    else if cmdOp c.words = 2 then
      match s.convertElem x c.elem with
      | .ok (k, q, z) => z.moveElems { x with cmd := c.addCounts k q } n
      | .error m => (s, c, some m)
    else
      match s.copyElem x c.elem with
      | .ok z => z.moveElems { x with cmd := c.addCounts 1 QCount.zero } n
      | .error m => (s, c, some m)
/-- Whether an element's read went through. -/
def isOk {ε α : Type} : Except ε α → Bool | .ok _ => true | .error _ => false
/-- The place of the element that does not go: within a granule, the first source element that cannot be read. -/
def State.stopAt (s : State) (x : EngAt) : Nat :=
  let c := x.cmd
  let G := sideG c.words false
  match cmdSfmt c.words with
  | some f => if cmdOp c.words = 2 ∧ G ≠ 0 then
      c.elem + ((List.range G).find? fun j => !isOk (s.sourceVals x f c.elem (j + 1))).getD 0 else c.elem
  | none => c.elem
/-- Elements, or granules, of one 64-byte burst. -/
def burstLen (ws : List Word64) : Nat :=
  if cmdOp ws = 2 ∧ sideG ws false ≠ 0 then 1 else max 1 (64 / max 1 (max (sideE ws true) (sideE ws false)))
/-- The head command of a queue. -/
def State.engHead (s : State) (tile : Nat) (e : Fin 2) (q : Fin 4) : Option EngCmd := (((s.tile tile).eng[e]).queues[q]).head?
/-- The state with the head command changed. -/
def State.setEngHead (s : State) (tile : Nat) (e : Fin 2) (q : Fin 4) (c : EngCmd) : State :=
  let z := s.tile tile
  let g := z.eng[e]
  s.setTile tile { z with eng := z.eng.set e { g with queues := g.queues.set q (c :: (g.queues[q]).tail) } }
/-- Whether the guard of a command has decided so: it runs (`true`), or it ends DISCARDED; a command without a guard runs (R169). -/
def EngCmd.decided (c : EngCmd) (v : Bool) : Bool := if cmdGen c.words then c.pass == some v else v
/-- The guard of a command at the head of its queue decides, once and for all, as the slot is when the command comes there, or as a later cycle finds
it resolved (R169). -/
def Tile.decide (t : Tile) (cycle : Nat) (c : EngCmd) : EngCmd :=
  let g := t.guards[cmdGslot c.words]
  let v := if g.seen cycle = .pend then g.seen (cycle + 1) else g.seen cycle
  if cmdGen c.words = true ∧ c.pass = none ∧ v ≠ .pend then { c with pass := some (v == .tru) } else c
/-- The guards of the commands at the heads of a tile's queues decide, at the end of a cycle. -/
def Tile.decideAll (t : Tile) (cycle : Nat) : Tile :=
  { t with eng := t.eng.map fun (e : Engine) => { e with queues := e.queues.map fun l => match l with | c :: r => t.decide cycle c :: r | [] => [] } }
/-- The first element of a command with `shadow` 1 that would go into the vault, as the context's tables stand: the command ends ACCESS before it
writes anything (R353). -/
def State.shadowsVault (s : State) (c : EngCmd) : Option Nat :=
  if !cmdShadow c.words then none
  else match s.context? c.ctx with
    | some x =>
      let r := cmdRange c.words false
      let near := x.maps.any fun e => decide ((e.vpn * 2 ^ 16 : Nat) ≤ r.2) && decide (r.1 < (e.vpn * 2 ^ 16 + e.page : Nat)) &&
        (List.range (e.page / 2 ^ 16)).any fun j => (s.vaultC ((e.pfn + j) * 2 ^ 16)).isSome
      let G := sideG c.words false
      if !near then none
      else (List.range (cmdElems c.words)).find? fun p =>
        let a := if G = 0 then (elemAddr c.words false p).toNat else cmdAddr c.words 2 + 40 * (p / G)
        match x.entryAt a with | some e => (s.vaultC (e.pa a)).isSome | none => false
    | none => none
/-- A burst of a queue's head command; none where the command is held or finished (R167, R169, R171, R369). -/
def State.burst (s : State) (tile : Nat) (e : Fin 2) (q : Fin 4) : Option State :=
  match s.engHead tile e q with
  | none => none
  | some c =>
    if c.stage ≠ .run ∨ c.elem ≥ cmdElems c.words ∨ c.cyc ≥ s.cycle ∨ c.decided true = false ∨
       boardClear (s.tile tile).board (.eng e.val c.id) s.cycle = false then none
    else match if c.elem = 0 then s.shadowsVault c else none with
    | some p => some (s.setEngHead tile e q { c with stage := .fin 4 (p * cmdOffE c.words) })
    | none =>
      let r := s.moveElems ⟨tile, e, c⟩ (burstLen c.words)
      let z := r.1
      let c1 := { r.2.1 with moved := s.cycle }
      let off := z.stopAt ⟨tile, e, c1⟩ * cmdOffE c.words
      match r.2.2 with
      | none => some (z.setEngHead tile e q c1)
      | some .wait => if c1.elem = c.elem then none else some (z.setEngHead tile e q c1)
      | some (.fail k) => some (z.setEngHead tile e q { c1 with stage := .fin k off })
      | some (.poison k n) => some ((z.setEngHead tile e q { c1 with stage := .fin 5 off }).found ⟨tile, c.core, c.h⟩ 3 c.ctx k n)
      | some (.miss kind va) =>
        let z1 := (z.setEngHead tile e q { c1 with stage := .miss off }).count ⟨tile, c.core⟩ 5
        some (z1.sendMiss tile ⟨kind, va, c.ctx, 1 + e.val, 0, none, some (e.val, q.val), c.core, false, false⟩)

/-- ENGINE_BURST: an engine moves a burst of a head command, in round-robin order over its queues (R167). -/
def execEngineBurst (tile eng queue : Nat) (s : State) : Host.Outcome State Fault Refusal :=
  let e : Fin 2 := ⟨eng % 2, Nat.mod_lt _ (by decide)⟩
  let q : Fin 4 := ⟨queue % 4, Nat.mod_lt _ (by decide)⟩
  let rr := ((s.tile tile).eng[e]).rr
  let ahead := (List.range ((q.val + 4 - rr.val) % 4)).any fun j => (s.burst tile e ⟨(rr.val + j) % 4, Nat.mod_lt _ (by decide)⟩).isSome
  if ahead then .refused (.notEnabled "ENGINE_BURST: another queue's turn comes first")
  else match s.burst tile e q with
    | none => .refused (.notEnabled "ENGINE_BURST: the head command moves nothing now")
    | some z =>
      let t := z.tile tile
      .next (z.setTile tile { t with eng := t.eng.set e { t.eng[e] with rr := q + 1 } })

/-! ## Completion (R166, R168, R145) -/

/-- The follow-on of a finished copy goes to the array (R166). -/
def State.followOn (s : State) (tile : Nat) (q : Fin 4) : Option State :=
  match s.engHead tile 0 q with
  | none => none
  | some c =>
    if c.stage = .run ∧ c.elem ≥ cmdElems c.words ∧ cmdFo c.words = true then
      let f0 := cmdTail c.words 0
      let f1 := cmdTail c.words 1
      let m : MxCmd := ⟨fieldOf f0 60 4, (fieldOf f0 0 19 : Nat), (fieldOf f1 0 19 : Nat), c.core, c.h, some q.val, (s.core ⟨tile, 2⟩).crect,
                        false, none, 0, none, none, none, false, none, 0, 0, false, []⟩
      some ((s.setEngHead tile 0 q { c with stage := .follow }).modMx tile fun a => { a with queue := a.queue ++ [m] })
    else none
/-- ENGINE_FOLLOWON: the copy engine issues the follow-on of a command whose last element has been written (R166). -/
def execEngineFollowon (tile : Nat) (s : State) : Host.Outcome State Fault Refusal :=
  match (List.finRange 4).findSome? fun q => s.followOn tile q with
  | some z => .next z
  | none => .refused (.notEnabled "ENGINE_FOLLOWON: no command is ready for its follow-on")

/-- Returns shadows that a core holds to the context's pool (R174): the new frame of each. -/
def State.poolAdd (s : State) (ctx pfn : Nat) : State :=
  s.modContext ctx fun c => match homeOf (pfn * 2 ^ 16) with
    | some (.hbm 0) => { c with pool0 := c.pool0 ++ [pfn] }
    | some (.hbm _) => { c with pool1 := c.pool1 ++ [pfn] }
    | _ => { c with poolc := c.poolc ++ [pfn] }
/-- Discards the shadows of a core that `p` picks. -/
def State.dropShadows (s : State) (r : CoreRef) (p : Shadow → Bool) : State :=
  let c := s.core r
  let s1 := s.setCore r { c with shadows := c.shadows.filter fun h => !p h }
  (c.shadows.filter p).foldl (fun (z : State) h => z.poolAdd h.ctx h.new) s1
/-- Whether a shadow is one of a command's destination. -/
def EngCmd.shadowed (c : EngCmd) (h : Shadow) : Bool :=
  let r := cmdRange c.words false
  cmdShadow c.words && h.set == cmdSset c.words && h.ctx == c.ctx && decide (r.1 < (h.vpn + 1) * 2 ^ 16) && decide ((h.vpn : Int) * 2 ^ 16 ≤ r.2)

/-- The code and offset with which a head command ends, where it has finished (R167, R169). -/
def EngCmd.ends (c : EngCmd) : Option (Nat × Nat) :=
  match c.stage with
  | .run =>
    if c.decided false = true then some (1, 0)
    else if c.elem ≥ cmdElems c.words ∧ cmdFo c.words = false then
      some (if c.counts.trips c.thresh then 9 else 0, c.elem * cmdOffE c.words)
    else none
  | .fin k off => some (k, off)
  | _ => none
/-- A command ends (R168): its counts and flags (R145), the release of its entries, the semaphore, the status word; a POISON or PFAULT of a
containable node asks for containment instead (R372); where that forces a pending save, the command stays, its counts counted (R142, R236). -/
def State.engFinish (s : State) (tile : Nat) (e : Fin 2) (q : Fin 4) (c : EngCmd) (code off : Nat) : State :=
  let r : CoreRef := ⟨tile, c.core⟩
  let t : ThreadRef := ⟨tile, c.core, c.h⟩
  let z := s.tile tile
  let g := z.eng[e]
  let s1 := s.setTile tile { z.release (.eng e.val c.id) with eng := z.eng.set e { g with queues := g.queues.set q (g.queues[q]).tail } }
  if (code = 5 ∨ code = 6) ∧ s.containable t = true then
    (if s.gangs.any fun g => g.lid == (s.kernel t).lid && g.preempt.isSome then (s.setEngHead tile e q c).askContain (s.kernel t).lid
    else (s1.setCore r { s1.core r with submitted := (s1.core r).submitted - 1 }).askContain (s.kernel t).lid)
  else
    let s2 := if code = 9 then (s1.dropShadows r c.shadowed).asyncTrap t .qscale c.counts.tval else s1
    s2.report r c.words code e.val off

/-- ENGINE_COMMAND_END: a head command ends; while its status word has no room it waits, finished, with its entries (R167, R168). -/
def execEngineCommandEnd (tile eng queue : Nat) (s : State) : Host.Outcome State Fault Refusal :=
  let e : Fin 2 := ⟨eng % 2, Nat.mod_lt _ (by decide)⟩
  let q : Fin 4 := ⟨queue % 4, Nat.mod_lt _ (by decide)⟩
  match s.engHead tile e q with
  | none => .refused (.notEnabled "ENGINE_COMMAND_END: the queue is empty")
  | some c =>
    match c.ends with
    | none => .refused (.notEnabled "ENGINE_COMMAND_END: the command has not finished")
    | some (code, off) =>
      let s1 := s.countQ ⟨tile, c.core⟩ c.counts c.thresh
      let c1 := { c with clips := if code = 9 then c.clips else 0, flushes := if code = 9 then c.flushes else 0, zrs := 0, nans := 0, bads := 0 }
      if s.statusRoom ⟨tile, c.core⟩ c.words code off then .next (s1.engFinish tile e q c1 code off)
      else .next (s1.setEngHead tile e q { c1 with stage := .ended code off })

/-- ENGINE_STATUS_POST: a finished command whose status word has found room completes (R168). -/
def execEngineStatusPost (k : CoreRef) (s : State) : Host.Outcome State Fault Refusal :=
  let e := engOf k.core
  match (List.finRange 4).findSome? fun q => match s.engHead k.tile e q with
      | some c => (match c.stage with
        | .ended code off => if c.core = k.core ∧ s.statusRoom k c.words code off = true then some (q, c, code, off) else none
        | _ => none)
      | none => none with
  | some (q, c, code, off) => .next (s.engFinish k.tile e q c code off)
  | none => .refused (.notEnabled "ENGINE_STATUS_POST: no status word waits, or there is no room")

/-! ## Instructions (R279 to R283) -/

/-- Words packed into a number, and back. -/
def packWords (ws : List Word64) : Nat := ws.foldr (fun w acc => w.toNat + 2 ^ 64 * acc) 0
/-- The `n` words of a packed number. -/
def unpackWords (x : Nat) : Nat → List Word64
  | 0 => []
  | n + 1 => BitVec.ofNat 64 x :: unpackWords (x / 2 ^ 64) n

/-- A word of a command in local memory (R281): read as a load reads it, its full/empty bit ignored. -/
def State.cmdWordAt (s0 : State) (i : Instr) (a : Nat) (s : State) : M (Word64 × State) :=
  if s.boardW s.cur.tile a 8 then holdM s0 i tagBoard none
  else if s.poisoned (localKey s.cur.tile a) 8 then poisonM s0 0 s.myKernel.ctx (localKey s.cur.tile a) 8 (n64 a)
  else .ok (n64 (s.localWord s.cur.tile a), s.found s.cur 0 s.myKernel.ctx (localKey s.cur.tile a) 8)
/-- Consecutive words of it. -/
def State.cmdWordsAt (s0 : State) (i : Instr) (a : Nat) (s : State) : Nat → M (List Word64 × State)
  | 0 => .ok ([], s)
  | n + 1 => do
    let (w, s1) ← s0.cmdWordAt i a s
    let (ws, s2) ← s0.cmdWordsAt i (a + 8) s1 n
    pure (w :: ws, s2)
/-- Room for a whole command in the engine command buffer. -/
abbrev tagCmd : Nat := 29
/-- A whole command passes to the buffer in one cycle, or waits for its room with the words it has read (R281). -/
def State.passCommand (s0 : State) (i : Instr) (h : Hdr) (ws : List Word64) (s : State) : M State := do
  if s.myCore.cbufUsed + ws.length > 32 then .error (s0.hold i (.retry tagCmd (packWords ws)) none)
  let s1 ← s0.submitTo s.myCore.cbuf ⟨s.cur.h, ws.length, ws, 0, 0, 0, 0, 0⟩ s
  pure (s1.done h)
/-- The course of `eng.copy` (R281). -/
def engCopyM (s : State) (h : Hdr) (a : NameRef) : M State := do
  let i : Instr := .engCopy h a
  let s1 ← s.issue i h [a] [] none
  let (x, s2) ← s.read i h a s1
  let v := x.val
  match s.stage with
  | some (29, aux) =>
    let n := cmdLen (BitVec.ofNat 64 aux)
    s.passCommand i h (unpackWords aux n) s2
  | _ =>
    if v % 8 ≠ 0 then trapM s .align (w64 v)
    else if v < 0 ∨ v > 0x7_FFF8 then trapM s .access (w64 v)
    else do
      let (w, s3) ← s.cmdWordAt i v.toNat s2
      let n := cmdLen w
      if v.toNat + 8 * (n - 1) > 0x7_FFF8 then trapM s .access (w64 v)
      let (ws, s4) ← s.cmdWordsAt i (v.toNat + 8) s3 (n - 1)
      s.passCommand i h (w :: ws) s4
/-- `eng.copy` (R281). -/
def execEngCopy (h : Hdr) (a : NameRef) (s : State) : Host.Outcome State Fault Refusal := finish (engCopyM s h a)

/-- The guard state of a number. -/
def guardOf : Int → Guard | 0 => .pend | 1 => .tru | _ => .fls
/-- A guard slot set in a cycle (R282). -/
def GuardSlot.set (g : GuardSlot) (v : Guard) (cycle : Nat) : GuardSlot := ⟨v, if g.cyc = cycle + 1 then g.was else g.now, cycle + 1⟩
/-- The course of `eng.guard` (R282). -/
def engGuardM (s : State) (h : Hdr) (a b : NameRef) : M State := do
  let i : Instr := .engGuard h a b
  let s1 ← s.issue i h [a, b] [] none
  let (x, s2) ← s.read i h a s1
  let (y, s3) ← s.read i h b s2
  if x.val < 0 ∨ x.val > 31 then trapM s .access (w64 x.val)
  if y.val < 0 ∨ y.val > 2 then trapM s .access (w64 y.val)
  let z := s3.myTile
  let k : Fin 32 := ⟨x.val.toNat % 32, Nat.mod_lt _ (by decide)⟩
  pure ((s3.setMyTile { z with guards := z.guards.set k ((z.guards[k]).set (guardOf y.val) s3.cycle) }).done h)
/-- `eng.guard` (R282). -/
def execEngGuard (h : Hdr) (a b : NameRef) (s : State) : Host.Outcome State Fault Refusal := finish (engGuardM s h a b)

/-- The course of `eng.unveil` and `eng.discard` up to their wait (R175, R282): the set and the commands submitted before are kept. -/
def engSetM (s : State) (i : Instr) (h : Hdr) (d a : NameRef) : M State := do
  match s.stage with
  | some (24, _) => .ok (s.setMe { s.me with st := .waiting })
  | _ => do
    let s1 ← s.issue i h [a] [d] (illUnless i (s.oneDst d))
    let (x, s2) ← s.read i h a s1
    if x.val < 0 ∨ x.val > 15 then trapM s .access (w64 x.val)
    s.portCheck d s2
    .error (s.hold i (.retry 24 (x.val.toNat + 16 * s2.myCore.subs)) none)
/-- `eng.unveil` (R175). -/
def execEngUnveil (h : Hdr) (d a : NameRef) (s : State) : Host.Outcome State Fault Refusal := finish (engSetM s (.engUnveil h d a) h d a)
/-- `eng.discard` (R282). -/
def execEngDiscard (h : Hdr) (d a : NameRef) (s : State) : Host.Outcome State Fault Refusal := finish (engSetM s (.engDiscard h d a) h d a)

/-- The course of `eng.status` (R283): the summary is that of the cycle in which it issues, also where a full port holds it. -/
def engStatusM (s : State) (h : Hdr) (d : NameRef) : M State := do
  let i : Instr := .engStatus h d
  let s1 ← s.issue i h [] [d] (illUnless i (s.oneDst d))
  let c := s1.myCore
  let sets := ((List.range 16).map fun k => if c.shadows.any (fun x => x.set == k) then 2 ^ k else 0).sum
  let now := sets * 2 ^ 24 + (c.cbuf.map (·.words.length)).sum % 256 * 2 ^ 16 + c.portEng.length % 256 * 2 ^ 8 + min c.submitted 255
  let v := s.keptVal.getD (n64 now)
  match s.writeOne i d v.toNat s1 with
  | .ok s2 => .ok (s2.done h)
  | .error w => .error (w.keepVal v)
/-- `eng.status` (R283). -/
def execEngStatus (h : Hdr) (d : NameRef) (s : State) : Host.Outcome State Fault Refusal := finish (engStatusM s h d)

/-! ## Unveil and discard (R175, R282) -/

/-- A wait of `eng.unveil` or `eng.discard`: its destination, its set, the commands submitted before it, its place in the order. -/
structure SetWait where
  unveil : Bool
  h : Hdr
  d : NameRef
  a : NameRef
  set : Nat
  subs : Nat
  seq : Nat
  deriving DecidableEq, Repr
/-- What a thread waits for, if it is that. -/
def Thread.setWait (x : Thread) : Option SetWait :=
  match x.wait with
  | some w => (match w.why, w.instr with
    | .retry 24 n, .engUnveil h d a => some ⟨true, h, d, a, n % 16, n / 16, w.seq⟩
    | .retry 24 n, .engDiscard h d a => some ⟨false, h, d, a, n % 16, n / 16, w.seq⟩
    | _, _ => none)
  | none => none
/-- Whether a command of a set that a core submitted before has not ended. -/
def State.setBusy (s : State) (r : CoreRef) (set subs : Nat) : Bool :=
  ((s.core r).cbuf.any fun b => decide (b.words.length = b.need) && decide (b.id < subs) && cmdShadow b.words && cmdSset b.words == set) ||
  (List.finRange 2).any fun e => (List.finRange 4).any fun q => ((((s.tile r.tile).eng[e]).queues[q]).any fun c =>
    c.core == r.core && decide (c.id < subs) && cmdShadow c.words && cmdSset c.words == set)
/-- Whether a thread's access of global bytes that has translated has still to return its data, where it touches a range of a context (R370). -/
def Tile.returning (t : Tile) (ctx a n : Nat) : Bool :=
  t.cores.toList.any fun c => c.replies.any fun p => (match p.glob with | some g => Decidable.decide (g.1 < a + n) && Decidable.decide (a < g.1 + g.2) | none => false) &&
    (match c.kernelOf p.h with | some k => k.ctx == ctx | none => false)
/-- Whether an access in flight anywhere has translated on a page of a core's set (R175, R370). -/
def State.setInFlight (s : State) (r : CoreRef) (set : Nat) : Bool :=
  (s.core r).shadows.any fun h => h.set == set && s.tiles.any fun p => p.2.returning h.ctx (h.vpn * 2 ^ 16) (2 ^ 16)
/-- Whether the wait's turn has come: its set is quiet, no access in flight uses a frame that a flip would take, and no older wait of the core
names it. -/
def State.setTurn (s : State) (t : ThreadRef) (w : SetWait) : Bool :=
  !s.setBusy t.coreRef w.set w.subs && !(w.unveil && s.setInFlight t.coreRef w.set) &&
  !((List.finRange 8).any fun h => match ((s.core t.coreRef).threads[h]).setWait with
    | some o => o.set == w.set && decide (o.seq < w.seq)
    | none => false)
/-- Completes such an instruction: `n` pages to d by R69, then `act`; none while a port has no room for the count. -/
def State.setDone (s : State) (t : ThreadRef) (w : SetWait) (i : Instr) (n : Nat) (act : State → State) : Option State :=
  let s0 := { s with cur := t }
  match s0.writeOne i w.d (n : Nat) s0 with
  | .ok z => some { (act z).done w.h with cur := s.cur }
  | .error z => if (z.thread t).st = .waiting then none else some { z with cur := s.cur }

/-- The flip of one page (R175): every entry for it goes, with every reflection of it or of its old frame (R253), the tables name its shadow's frame,
and its old frame returns to the pool. -/
def State.flip (s : State) (h : Shadow) : State :=
  let a := h.vpn * 2 ^ 16
  let keep : List TEntry → List TEntry := fun l => l.filter fun (e : TEntry) => !e.hit h.ctx a
  let wr := match s.context? h.ctx with
    | some c => (match c.entryAt a with | some e => e.w | none => true)
    | none => true
  let s1 := { s with tiles := s.tiles.map fun (p : Nat × Tile) => (p.1, { p.2 with tlb := keep p.2.tlb, capHas := keep p.2.capHas, eng := p.2.eng.map fun (g : Engine) => { g with tc := keep g.tc } }),
                     reflections := s.reflections.filter fun r => !(r.ctx == h.ctx && decide (r.va / 2 ^ 16 = h.vpn)) && r.pa / 2 ^ 16 != h.old }
  let s2 := s1.modContext h.ctx fun c => c.mapPage ⟨0, wr, h.vpn, h.ctx, h.key, h.new⟩
  s2.poolAdd h.ctx h.old

/-- UNVEIL_FLIP: once the set's commands have ended, its pages are flipped in one step and the thread goes on (R175). -/
def execUnveilFlip (t : ThreadRef) (s : State) : Host.Outcome State Fault Refusal :=
  match (s.thread t).setWait with
  | some w =>
    if w.unveil = true ∧ s.setTurn t w = true then
      let c := s.core t.coreRef
      let hs := c.shadows.filter fun h => h.set == w.set
      let act : State → State := fun z =>
        let y := z.setCore t.coreRef { z.core t.coreRef with shadows := (z.core t.coreRef).shadows.filter fun h => h.set != w.set }
        hs.foldl State.flip y
      match s.setDone t w (.engUnveil w.h w.d w.a) hs.length act with
      | some z => .next z
      | none => .refused (.notEnabled "UNVEIL_FLIP: no room for the count")
    else .refused (.notEnabled "UNVEIL_FLIP: a command of the set has not ended")
  | none => .refused (.notEnabled "UNVEIL_FLIP: the thread unveils nothing")

/-- SHADOW_DISCARD: once the set's commands have ended, its shadows return to the pool and the thread goes on (R282). -/
def execShadowDiscard (t : ThreadRef) (s : State) : Host.Outcome State Fault Refusal :=
  match (s.thread t).setWait with
  | some w =>
    if w.unveil = false ∧ s.setTurn t w = true then
      let n := ((s.core t.coreRef).shadows.filter fun h => h.set == w.set).length
      match s.setDone t w (.engDiscard w.h w.d w.a) n fun z => z.dropShadows t.coreRef fun h => h.set == w.set with
      | some z => .next z
      | none => .refused (.notEnabled "SHADOW_DISCARD: no room for the count")
    else .refused (.notEnabled "SHADOW_DISCARD: a command of the set has not ended")
  | none => .refused (.notEnabled "SHADOW_DISCARD: the thread discards nothing")

end Sys2Proof.Machine
end

