-- ==== Sys2Proof/Machine/Capacity.lean ====
section
/-! DEFINITION. The `cap` and `dur` majors (19 R332 to R339, 20 R340 to R356): pooling, gathering and scattering of table rows by a
tile's capacity unit, the status of a pooling buffer, and vault records. -/
namespace Sys2Proof.Machine

/-! ## The block and the lists (R333, R334, R344) -/

/-- The fields of a pool block (R333). -/
structure PoolBlock where
  tab : Nat
  dim : Nat
  /-- BF16 rows -/
  bf : Bool
  nb : Nat
  nrows : Nat
  list : Nat
  out : Nat
  deriving DecidableEq, Repr

/-- The format of a table's lanes. -/
def PoolBlock.ff (b : PoolBlock) : FF := if b.bf then .b16 else .f32
/-- Bytes of a lane. -/
def PoolBlock.e (b : PoolBlock) : Nat := if b.bf then 2 else 4
/-- S: bytes from one row to the next (R333). -/
def PoolBlock.stride (b : PoolBlock) : Nat := (b.dim * b.e + 7) / 8 * 8
/-- Words of one output vector. -/
def PoolBlock.outWords (b : PoolBlock) : Nat := (b.dim + 1) / 2
/-- Bytes of the output block. -/
def PoolBlock.outLen (b : PoolBlock) : Nat := 8 * b.outWords * b.nb
/-- The address of row `r`. -/
def PoolBlock.row (b : PoolBlock) (r : Nat) : Nat := b.tab + b.stride * r

/-- The tile's capacity unit is at another thread's instruction (R342). -/
abbrev tagCap : Nat := 25
/-- A pooling buffer serves another thread's `dur` instruction (R339, R355). -/
abbrev tagBuf : Nat := 26

/-- Whether a thread of a tile still holds the capacity unit: it waits inside a `cap` instruction. -/
def isCapUse : Instr → Bool
  | .capPool .. => true
  | .capGet .. => true
  | .capPut .. => true
  | _ => false
/-- Whether an older instruction of the tile waits with a tag (R342). -/
def Tile.waitsAhead (t : Tile) (c : Fin 3) (h : Fin 8) (seq tag : Nat) : Bool :=
  (List.finRange 3).any fun k => (List.finRange 8).any fun j => (k != c || j != h) && match ((t.cores[k]).threads[j]).wait with
    | some w => w.why.tag == some tag && Decidable.decide (w.seq < seq)
    | none => false
/-- Takes the capacity unit for the current thread, or waits for it (R342): one instruction at a time, in the order of issue. -/
def State.takeUnit (s0 : State) (i : Instr) (s : State) : M State :=
  let t := s.myTile
  let mine := (s.cur.core, s.cur.h)
  let busy := match t.capBusy with
    | some (c, h) => decide ((c, h) ≠ mine) && (match (s.thread ⟨s.cur.tile, c, h⟩).wait with | some w => isCapUse w.instr | none => false)
    | none => false
  if busy || (t.capBusy != some mine && t.waitsAhead s.cur.core s.cur.h s.mySeq tagCap) then holdM s0 i tagCap none
  else .ok (s.setMyTile { t with capBusy := some mine, capHas := if t.capBusy = some mine ∧ s.me.wait.isSome = true then t.capHas else [] })
/-- The state before an instruction, with the unit as the instruction has taken it: what a trap or a wait of the instruction goes back to (R289, R342). -/
def State.withUnit (s0 s : State) : State := s0.setMyTile { s0.myTile with capBusy := s.myTile.capBusy, capHas := s.myTile.capHas }
/-- Gives the unit back. -/
def State.leaveUnit (s : State) : State := s.setMyTile { s.myTile with capBusy := none, capHas := [] }

/-- Reads one local word as a load does (R171, R334). -/
def State.capLocal (s0 : State) (i : Instr) (a : Nat) (s : State) : M (Nat × State) := do
  let (bs, s1) ← s0.loadLocal i a a 8 s
  pure (natOfBytes bs, s1)
/-- Reads `n` local words from `a`. -/
def State.capLocals (s0 : State) (i : Instr) : Nat → Nat → State → M (List Nat × State)
  | _, 0, s => .ok ([], s)
  | a, n + 1, s => do
    let (w, s1) ← s0.capLocal i a s
    let (ws, s2) ← s0.capLocals i (a + 8) n s1
    pure (w :: ws, s2)

/-- The block that its words make, and the local address of the first word that breaks R333 where it lies at `a` (R334). -/
def blockOf (a : Nat) (ws : List Nat) : PoolBlock × Option Nat :=
  let w0 := ws.getD 0 0
  let w1 := ws.getD 1 0
  let b : PoolBlock := { tab := w0, dim := fieldOf w1 48 16, bf := fieldOf w1 46 2 = 1, nb := fieldOf w1 32 14, nrows := w1 % 2 ^ 32,
                         list := ws.getD 2 0, out := ws.getD 3 0 }
  (b, if b.dim < 1 ∨ b.dim > 4096 ∨ fieldOf w1 46 2 > 1 ∨ b.nb < 1 ∨ b.nrows < 1 then some (a + 8)
      else if b.tab % 8 ≠ 0 then some a
      else if b.list ≥ 2 ^ 19 ∨ b.list % 8 ≠ 0 then some (a + 16)
      else if b.out ≥ 2 ^ 19 ∨ b.out % 8 ≠ 0 then some (a + 24) else none)
/-- Whether the list has an address at which it can be read. -/
def PoolBlock.listed (b : PoolBlock) : Bool := decide (b.list < 2 ^ 19) && b.list % 8 == 0
/-- Reads the block (R334). -/
def State.capBlock (s0 : State) (i : Instr) (v : Int) (s : State) : M ((PoolBlock × Option Nat) × State) := do
  if v % 8 ≠ 0 then trapM s0 .align (w64 v)
  if v < 0 ∨ v + 31 > 0x7_FFFF then trapM s0 .access (w64 v)
  let (ws, s1) ← s0.capLocals i v.toNat 4 s
  pure (blockOf v.toNat ws, s1)

/-- Reads the bags of a list from local address `p` (R333, R334): the entry words of each, the address behind the last, and the header at which
reading ends early. -/
def State.capBags (s0 : State) (i : Instr) : Nat → Nat → State → M (List (List Nat) × Nat × Option Nat × State)
  | p, 0, s => .ok ([], p, none, s)
  | p, n + 1, s =>
    if p + 8 > 0x8_0000 then .ok ([], p, some p, s)
    else do
      let (hd, s1) ← s0.capLocal i p s
      if hd ≥ 2 ^ 16 ∨ p + 8 * (hd + 1) > 0x8_0000 then pure ([], p, some p, s1)
      else
        let (es, s2) ← s0.capLocals i (p + 8) hd s1
        let (l, q, bad, s3) ← s0.capBags i (p + 8 * (hd + 1)) n s2
        pure (es :: l, q, bad, s3)
/-- ACCESS at the first local address that offends (R334). -/
def State.capCheck (s0 : State) (bad : Option Nat) : M Unit :=
  match bad with
  | some a => trapM s0 .access (n64 a)
  | none => .ok ()

/-- The checks of the output block against local memory, the block at `a` and the list up to `q` (R334). -/
def State.capOut (s0 : State) (i : Instr) (a q : Nat) (b : PoolBlock) (wr : Bool) (s : State) : M Unit := do
  let hi := b.out + b.outLen
  if hi > 0x8_0000 ∨ (b.out < a + 32 ∧ a < hi) ∨ (b.out < q ∧ b.list < hi) then trapM s0 .access (n64 (a + 24))
  if wr && s.boardAny s.cur.tile b.out b.outLen then holdM s0 i tagBoard none

/-- The index of an entry word. -/
def entIdx (w : Nat) : Nat := w / 2 ^ 32
/-- Its weight. -/
def entW (w : Nat) : FVal := FF.f32.value (w % 2 ^ 32)

/-! ## The table (R334, R344, R347) -/

/-- The entry that translates a table address: of the tile's TLB, or one that the unit has been given for this instruction; else a miss, which holds
the thread (R334, R360, R362; log 60). -/
def State.capEntry (s0 : State) (i : Instr) (kind a : Nat) (s : State) : M TEntry :=
  let ctx := s.myKernel.ctx
  match s.tlb? s.cur.tile ctx a with
  | some e => .ok e
  | none => match (if s.blocked ctx a then none else s.myTile.capHas.find? fun e => e.hit ctx a) with
    | some e => .ok e
    | none => missM s0 i kind a
/-- The global address of a table address of the current thread; ACCESS with `tv` where none is mapped there. -/
def State.capGlob (s0 : State) (tv : Nat) (a : Nat) (s : State) : M Nat :=
  match s.window s.me a with
  | .glob g => .ok g
  | _ => trapM s0 .access (n64 tv)
/-- Checks page by page that bytes from `a` up to `hi` lie in frames of the capacity tier (R334, R347). -/
def State.capTable (s0 : State) (i : Instr) (tab hi : Nat) (s : State) : Nat → Nat → M Unit
  | 0, _ => .ok ()
  | f + 1, a => if a ≥ hi then .ok () else do
      let g ← s0.capGlob tab a s
      let e ← s0.capEntry i 5 g s
      if homeOf (e.pa g) ≠ some .cap then trapM s0 .access (n64 tab)
      s0.capTable i tab hi s f (a + (e.page - g % e.page))
/-- The check of a whole table. -/
def State.capTables (s0 : State) (i : Instr) (b : PoolBlock) (s : State) : M Unit :=
  s0.capTable i b.tab (b.row b.nrows) s (b.stride * b.nrows / 2 ^ 16 + 2) b.tab

/-- The reply just sent for answers an instruction that has read a table (R370). -/
def PoolBlock.readsTable (b : PoolBlock) (s : State) : State :=
  match s.window s.me b.tab with
  | .glob g => s.readsAt g (b.stride * b.nrows)
  | _ => s
/-- Reads `n` words of a row at their homes (R334, R371). -/
def State.capWords (s0 : State) (i : Instr) : Nat → Nat → State → M (List Nat × State)
  | _, 0, s => .ok ([], s)
  | a, n + 1, s => do
    let g ← s0.capGlob a a s
    let e ← s0.capEntry i 5 g s
    let pa := e.pa g
    if s.poisoned pa 8 then poisonM s0 5 s.myKernel.ctx pa 8 (n64 a)
    let w := natOfBytes (s.homeBytes e.key pa 8)
    let (ws, s2) ← s0.capWords i (a + 8) n (s.found s.cur 5 s.myKernel.ctx pa 8)
    pure (w :: ws, s2)
/-- The lanes of a row read whole. -/
def State.capRow (s0 : State) (i : Instr) (b : PoolBlock) (r : Nat) (s : State) : M (List FVal × State) := do
  let (ws, s1) ← s0.capWords i (b.row r) (b.stride / 8) s
  let x := ws.foldr (fun w acc => w + 2 ^ 64 * acc) 0
  pure ((List.range b.dim).map fun k => b.ff.value (fieldOf x (8 * b.e * k) (8 * b.e)), s1)
/-- The rows of a list of entries with an index inside the table, with each entry's weight. -/
def State.capRows (s0 : State) (i : Instr) (b : PoolBlock) : List Nat → State → M (List (FVal × List FVal) × State)
  | [], s => .ok ([], s)
  | w :: ws, s =>
    if entIdx w ≥ b.nrows then s0.capRows i b ws s
    else do
      let (v, s1) ← s0.capRow i b (entIdx w) s
      let (l, s2) ← s0.capRows i b ws s1
      pure ((entW w, v) :: l, s2)
/-- Entries beyond the table. -/
def PoolBlock.beyond (b : PoolBlock) (ws : List Nat) : Nat := (ws.filter fun w => decide (entIdx w ≥ b.nrows)).length
/-- The status word (R335). -/
def capStatus (oor nb : Nat) : Int := ((min oor 0xFFFF * 2 ^ 32 + nb : Nat) : Int)

/-- Writes the lanes of output vectors, each word set full (R333, R334). -/
def State.capPutOut (b : PoolBlock) (s : State) : Nat → List (List Nat) → State
  | _, [] => s
  | a, v :: l =>
    State.capPutOut b ((List.range b.outWords).foldl (fun (z : State) j =>
      z.putLocalWord z.cur.tile (a + 8 * j) (v.getD (2 * j) 0 + 2 ^ 32 * v.getD (2 * j + 1) 0)) s) (a + 8 * b.outWords) l

/-! ## `cap.pool` -/

/-- The bags pooled (R334, R346): the lanes of each and the number of lanes written at the bound. -/
def State.capPooled (s0 : State) (i : Instr) (b : PoolBlock) : List (List Nat) → State → M (List (List Nat) × Nat × State)
  | [], s => .ok ([], 0, s)
  | g :: l, s => do
    let (rows, s1) ← s0.capRows i b g s
    let ys := (List.range b.dim).map fun k =>
      if rows.isEmpty then (0, false) else accF (FVal.sum .rne (rows.map fun r => r.1.mul (r.2.getD k .nan)))
    let (rest, n, s2) ← s0.capPooled i b l s1
    pure (ys.map (·.1) :: rest, n + (ys.filter (·.2)).length, s2)
/-- The course of `cap.pool` (R332 to R335, R346). -/
def poolM (s : State) (i : Instr) (h : Hdr) (d a : NameRef) : M State := do
  let s1 ← s.issue i h [a] [d] (illUnless i (s.oneDst d))
  let (x, s2) ← s.read i h a s1
  s.portCheck d s2
  if x.val % 8 ≠ 0 then trapM s .align (w64 x.val)
  if x.val < 0 ∨ x.val + 31 > 0x7_FFFF then trapM s .access (w64 x.val)
  let s3 ← s.takeUnit i s2
  let s0 := s.withUnit s3
  let ((b, bad), s4) ← s0.capBlock i x.val s3
  let (bags, q, bad2, s5) ← (if b.listed then s0.capBags i b.list b.nb s4 else pure ([], 0, none, s4))
  s0.capCheck (bad.or bad2)
  s0.capOut i x.val.toNat q b true s5
  s0.capTables i b s5
  let oor := b.beyond bags.flatten
  let (vs, sat, s6) ← s0.capPooled i b bags s5
  let s7 := ((State.capPutOut b s6 b.out vs).countN s6.cur.coreRef 0x2A oor).countN s6.cur.coreRef 0x2B sat
  pure ((s.await h i d (.int (capStatus oor b.nb)) s7.leaveUnit |> b.readsTable).undoing [s6.changed (localKey s6.cur.tile b.out) b.outLen s7])
/-- `cap.pool`. -/
def execCapPool (h : Hdr) (d a : NameRef) (s : State) : Host.Outcome State Fault Refusal := finish (poolM s (.capPool h d a) h d a)

/-! ## `cap.get` and `cap.put` (R344, R345) -/

/-- Reads the list of entry words without headers; one that passes the end of local memory is block word 2's breach (log 61). -/
def State.capList (s0 : State) (i : Instr) (a : Nat) (b : PoolBlock) (bad : Option Nat) (s : State) : M (List Nat × State) := do
  let n := if b.listed then min b.nb ((0x8_0000 - b.list) / 8) else 0
  let (es, s1) ← s0.capLocals i b.list n s
  s0.capCheck (bad.or (if n < b.nb then some (a + 16) else none))
  pure (es, s1)

/-- The vectors gathered (R344). -/
def State.capGathered (s0 : State) (i : Instr) (b : PoolBlock) : List Nat → State → M (List (List Nat) × State)
  | [], s => .ok ([], s)
  | w :: l, s => do
    let (v, s1) ← (if entIdx w ≥ b.nrows then pure (List.replicate b.dim 0, s)
      else do
        let (r, s1) ← s0.capRow i b (entIdx w) s
        pure (r.map FF.f32.code, s1))
    let (rest, s2) ← s0.capGathered i b l s1
    pure (v :: rest, s2)
/-- The course of `cap.get`. -/
def getM (s : State) (i : Instr) (h : Hdr) (d a : NameRef) : M State := do
  let s1 ← s.issue i h [a] [d] (illUnless i (s.oneDst d))
  let (x, s2) ← s.read i h a s1
  s.portCheck d s2
  if x.val % 8 ≠ 0 then trapM s .align (w64 x.val)
  if x.val < 0 ∨ x.val + 31 > 0x7_FFFF then trapM s .access (w64 x.val)
  let s3 ← s.takeUnit i s2
  let s0 := s.withUnit s3
  let ((b, bad), s4) ← s0.capBlock i x.val s3
  let (es, s5) ← s0.capList i x.val.toNat b bad s4
  s0.capOut i x.val.toNat (b.list + 8 * b.nb) b true s5
  s0.capTables i b s5
  let (vs, s6) ← s0.capGathered i b es s5
  let oor := b.beyond es
  let s7 := (State.capPutOut b s6 b.out vs).countN s6.cur.coreRef 0x2A oor
  pure ((s.await h i d (.int (capStatus oor b.nb)) s7.leaveUnit |> b.readsTable).undoing [s6.changed (localKey s6.cur.tile b.out) b.outLen s7])
/-- `cap.get`. -/
def execCapGet (h : Hdr) (d a : NameRef) (s : State) : Host.Outcome State Fault Refusal := finish (getM s (.capGet h d a) h d a)

/-- Translates every page of the rows that a list names for writing, before any is read (R345). -/
def State.capPages (s0 : State) (i : Instr) (b : PoolBlock) (s : State) : List Nat → M Unit
  | [] => .ok ()
  | w :: l =>
    if entIdx w ≥ b.nrows then s0.capPages i b s l
    else do
      let r := b.row (entIdx w)
      let r2 := r + b.dim * b.e - 1
      let g ← s0.capGlob r r s
      let e ← s0.capEntry i 6 g s
      if !e.w then trapM s0 .access (n64 r)
      let g2 ← s0.capGlob r2 r2 s
      let e2 ← s0.capEntry i 6 g2 s
      if !e2.w then trapM s0 .access (n64 r2)
      s0.capPages i b s l
/-- Writes bytes of a row at their homes, word by word; durable where they lie in the vault (R345, R347). -/
def State.capWrite (s0 : State) (i : Instr) : Nat → Nat → List Byte → State → M State
  | 0, _, _, s => .ok s
  | f + 1, a, bs, s => if bs.isEmpty then .ok s else do
      let g ← s0.capGlob a a s
      let e ← s0.capEntry i 6 g s
      s0.capWrite i f (a + 8) (bs.drop 8) (s.durableWrite (tileDie s.cur.tile) e.key (e.pa g) (bs.take 8))
/-- One lane updated (R345): its code, and whether it was written at the bound. -/
def PoolBlock.putLane (b : PoolBlock) (x w v : FVal) : Nat × Bool :=
  let y := b.ff.round .rne 0 (FVal.sum .rne [x, w.mul v]).x
  if b.ff.beyond y then (b.ff.code (b.ff.topVal y.neg?), true) else (b.ff.code y, false)
/-- The updates in list order, each with its vector; the count of lanes written at the bound (R345). -/
def State.capUpdates (s0 : State) (i : Instr) (b : PoolBlock) : List (Nat × List FVal) → State → M (Nat × State)
  | [], s => .ok (0, s)
  | (w, v) :: l, s =>
    if entIdx w ≥ b.nrows then s0.capUpdates i b l s
    else do
      let (r, s1) ← s0.capRow i b (entIdx w) s
      let ys := (List.range b.dim).map fun k => b.putLane (r.getD k .nan) (entW w) (v.getD k .nan)
      let s2 ← s0.capWrite i (b.stride / 8) (b.row (entIdx w)) (ys.flatMap fun y => bytesOfNat b.e y.1) s1
      let (n, s3) ← s0.capUpdates i b l s2
      pure (n + (ys.filter (·.2)).length, s3)
/-- Where the words of the rows that a list names lie. -/
def State.capSpans (s0 : State) (i : Instr) (b : PoolBlock) (es : List Nat) (s : State) : List (Nat × Nat) :=
  (es.filter fun w => decide (entIdx w < b.nrows)).flatMap fun w => (List.range (b.stride / 8)).filterMap fun j =>
    match s.window s.me ((b.row (entIdx w) + 8 * j : Nat) : Int) with
    | .glob g => (match s0.capEntry i 6 g s with
      | .ok e => some (keyedSpan e.key (e.pa g) 8)
      | .error _ => none)
    | _ => none
/-- The FP32 lanes of output vector `e` held in words. -/
def PoolBlock.vecOf (b : PoolBlock) (ws : List Nat) (e : Nat) : List FVal :=
  (List.range b.dim).map fun k => FF.f32.value (fieldOf (ws.getD (e * b.outWords + k / 2) 0) (32 * (k % 2)) 32)
/-- The course of `cap.put`. -/
def putM (s : State) (i : Instr) (h : Hdr) (d a : NameRef) : M State := do
  let s1 ← s.issue i h [a] [d] (illUnless i (s.oneDst d))
  let (x, s2) ← s.read i h a s1
  s.portCheck d s2
  if x.val % 8 ≠ 0 then trapM s .align (w64 x.val)
  if x.val < 0 ∨ x.val + 31 > 0x7_FFFF then trapM s .access (w64 x.val)
  let s3 ← s.takeUnit i s2
  let s0 := s.withUnit s3
  let ((b, bad), s4) ← s0.capBlock i x.val s3
  let (es, s5) ← s0.capList i x.val.toNat b bad s4
  s0.capOut i x.val.toNat (b.list + 8 * b.nb) b false s5
  s0.capTables i b s5
  let (ws, s6) ← s0.capLocals i b.out (b.outWords * b.nb) s5
  s0.capPages i b s6 es
  let (_, s7) ← s0.capRows i b es s6
  let (sat, s8) ← s0.capUpdates i b ((List.range b.nb).map fun e => (es.getD e 0, b.vecOf ws e)) s7
  let oor := b.beyond es
  let s9 := (s8.countN s8.cur.coreRef 0x2A oor).countN s8.cur.coreRef 0x2B sat
  pure ((s.await h i d (.int (capStatus oor b.nb)) s9.leaveUnit |> b.readsTable).undoing ((s0.capSpans i b es s7).map fun p => s7.changed p.1 p.2 s8))
/-- `cap.put`. -/
def execCapPut (h : Hdr) (d a : NameRef) (s : State) : Host.Outcome State Fault Refusal := finish (putM s (.capPut h d a) h d a)

/-! ## `cap.stat` (R348) -/

/-- Whether a buffer holds a part of the vault (R350, R351). -/
def State.hasVault (s : State) : Bool := decide (s.vltsize.toNat ≠ 0)
/-- Steps of `dur` instructions that wait at a buffer for their turn. -/
def State.bufWaiting (s : State) (k : Fin 16) : Nat :=
  (s.tiles.map fun p => ((List.finRange 3).map fun c => ((List.finRange 8).filter fun h => match (p.2.cores[c].threads[h]).wait with
    | some w => (match w.why with | .retry 26 aux => aux % 16 == k.val | _ => false)
    | none => false).length).sum).sum
/-- The status of a buffer: its pending requests are vault writes not yet durable and the steps that wait for it. -/
def State.bufStatus (s : State) (k : Fin 16) : Nat :=
  let b := s.buffers[k]
  (if b.up then 2 ^ 63 else 0) + (if s.hasVault then 2 ^ 62 else 0) + 2 ^ 48 * b.rk.toNat + 2 ^ 32 * b.ce.toNat + 2 ^ 16 * b.ue.toNat +
    min ((s.vwrites.filter fun v => v.buf == k.val).length + s.bufWaiting k) 0xFFFF
/-- The course of `cap.stat`. -/
def capStatM (s : State) (i : Instr) (h : Hdr) (d a : NameRef) : M State := do
  let s1 ← s.issue i h [a] [d] (illUnless i (s.oneDst d))
  let (x, s2) ← s.read i h a s1
  s.portCheck d s2
  if x.val < 0 ∨ x.val > 15 then trapM s .access (w64 x.val)
  pure (s.await h i d (.int (s2.bufStatus ⟨x.val.toNat % 16, Nat.mod_lt _ (by decide)⟩)) s2)
/-- `cap.stat`. -/
def execCapStat (h : Hdr) (d a : NameRef) (s : State) : Host.Outcome State Fault Refusal := finish (capStatM s (.capStat h d a) h d a)

/-! ## Vault records (R336 to R339, R354 to R356) -/

/-- `seq` of a VAULTPT. -/
def pointSeq (p : Word64) : Nat := p.toNat / 2 ^ 40
/-- `end` of a VAULTPT in bytes. -/
def pointEnd (p : Word64) : Nat := fieldOf p.toNat 0 40 / 8 * 8
/-- The check value of a record's header and payload words (R336). -/
def checkOf : Nat → List Nat → Nat
  | _, [] => 0
  | j, w :: ws => ((2 * j + 1) * w + checkOf (j + 1) ws) % 2 ^ 64
/-- Whether a header breaks R336, or its record passes its 64 KiB page. -/
def badHeader (pa hd : Nat) : Bool := fieldOf hd 16 24 != 0 || fieldOf hd 0 16 == 0 || decide (pa % 2 ^ 16 + 8 * (fieldOf hd 0 16 + 3) > 2 ^ 16)

/-- Where a vault address of the current thread lies. -/
structure VaultAt where
  e : TEntry
  g : Nat
  pa : Nat
  buf : Fin 16
  off : Nat

/-- Translates an address of the vault; ACCESS where it is none (R338, R339). -/
def State.vaultAt (s0 : State) (i : Instr) (kind : Nat) (w : Bool) (v : Int) (s : State) : M VaultAt :=
  match s.window s.me v with
  | .glob g => do
    let e ← s0.translate i kind w v g s
    match s.vaultC (e.pa g) with
    | some c => pure ⟨e, g, e.pa g, bufOf c, s.vaultOff c⟩
    | none => trapM s0 .access (w64 v)
  | _ => trapM s0 .access (w64 v)
/-- Whether a `dur` instruction of a thread still holds a buffer. -/
def isDurUse : Instr → Bool
  | .durBegin .. => true
  | .durCommit .. => true
  | _ => false
/-- The turn of a wait for a buffer: 16 x the cycle of its arrival + the buffer. -/
def State.bufTurn (s : State) (k : Fin 16) : Nat :=
  match s.stage with
  | some (26, aux) => if aux % 16 = k.val then aux else 16 * s.cycle + k.val
  | _ => 16 * s.cycle + k.val
/-- Whether a buffer serves another thread's step, or another thread that has arrived before waits for it (R339, R355). -/
def State.bufBusy (s : State) (k : Fin 16) : Bool :=
  (match s.buffers[k].serving with
  | some t => decide (t ≠ s.cur) && (match (s.thread t).wait with
      | some w => isDurUse w.instr && (match w.why with | .retry g _ => g == tagDurable | _ => false)
      | none => false)
  | none => false) ||
  s.tiles.any fun p => (List.finRange 3).any fun c => (List.finRange 8).any fun h =>
    decide ((⟨p.1, c, h⟩ : ThreadRef) ≠ s.cur) && match (p.2.cores[c].threads[h]).wait with
      | some w => (match w.why with
        | .retry 26 aux => aux % 16 == k.val && (decide (aux < s.bufTurn k) || (aux == s.bufTurn k && decide (w.seq < s.mySeq)))
        | _ => false)
      | none => false
/-- The current instruction waits for a buffer. -/
def State.holdBuf {α : Type} (s0 : State) (i : Instr) (k : Fin 16) : M α := .error (s0.hold i (.retry tagBuf (s0.bufTurn k)) none)
/-- Replaces a buffer. -/
def State.setBuffer (s : State) (k : Fin 16) (b : Buffer) : State := { s with buffers := s.buffers.set k b }
/-- The buffer that serves the current thread. -/
def State.myBuffer (s : State) : Fin 16 := ((List.finRange 16).find? fun k => s.buffers[k].serving == some s.cur).getD 0
/-- Reads words of a record at the home; POISON where one is poisoned (R339). -/
def State.recWords (s0 : State) (v : Nat) (p : VaultAt) : Nat → Nat → State → M (List Nat × State)
  | _, 0, s => .ok ([], s)
  | j, n + 1, s => do
    let ctx := s.myKernel.ctx
    if s.poisoned (p.pa + 8 * j) 8 then poisonM s0 2 ctx (p.pa + 8 * j) 8 (n64 (v + 8 * j))
    let w := natOfBytes (s.homeBytes p.e.key (p.pa + 8 * j) 8)
    let (ws, s1) ← s0.recWords v p (j + 1) n (s.found s.cur 2 ctx (p.pa + 8 * j) 8)
    pure (w :: ws, s1)
/-- Writes a word of a record at the home: performed, and durable later (R258, R352). -/
def State.recWrite (s : State) (p : VaultAt) (j v : Nat) : State :=
  s.homeWrite (tileDie s.cur.tile) (some (s.writer (p.g + 8 * j) 8)) p.e.key (p.pa + 8 * j) (bytesOfNat 8 v)

/-- What an operation that made `s` of the receiver has changed in `n` words of a record (R295). -/
def State.recChanged (s0 : State) (p : VaultAt) (j n : Nat) (s : State) : Undo :=
  let sp := keyedSpan p.e.key (p.pa + 8 * j) (8 * n)
  s0.changed sp.1 sp.2 s

/-- The course of `dur.point` (R338). -/
def pointM (s : State) (i : Instr) (h : Hdr) (d a : NameRef) : M State := do
  let s1 ← s.issue i h [a] [d] (illUnless i (s.oneDst d))
  let (x, s2) ← s.read i h a s1
  s.portCheck d s2
  let p ← s.vaultAt i 0 false x.val s2
  if s2.bufBusy p.buf then s.holdBuf i p.buf
  pure (s.await h i d (.int (s2.buffers[p.buf].point.toNat)) s2)
/-- `dur.point`. -/
def execDurPoint (h : Hdr) (d a : NameRef) (s : State) : Host.Outcome State Fault Refusal := finish (pointM s (.durPoint h d a) h d a)

/-- The course of `dur.commit` (R339): the trailer, then, once it is durable, the recovery point. -/
def commitM (s : State) (i : Instr) (h : Hdr) (d a : NameRef) : M State :=
  match s.stage with
  | some (12, v) =>
    if s.undurable then .error (s.hold i (.retry tagDurable v) none)
    else
      let k := s.myBuffer
      .ok ((s.await h i d (.int v) (s.setBuffer k { s.buffers[k] with point := n64 v, serving := none })).undoing [.point k s.buffers[k].point])
  | _ => do
    let s1 ← s.issue i h [a] [d] (illUnless i (s.oneDst d))
    let (x, s2) ← s.read i h a s1
    s.portCheck d s2
    if x.val % 8 ≠ 0 then trapM s .align (w64 x.val)
    let p ← s.vaultAt i 2 true x.val s2
    s.fenceOf i .recov s2
    if s2.bufBusy p.buf then s.holdBuf i p.buf
    let v := x.val.toNat
    let (hs, s3) ← s.recWords v p 0 1 s2
    let hd := hs.headD 0
    let n := fieldOf hd 0 16
    let pt : Word64 := s3.buffers[p.buf].point
    if badHeader p.pa hd ∨ hd / 2 ^ 40 ≠ (pointSeq pt + 1) % 2 ^ 24 ∨ p.off ≠ pointEnd pt then trapM s .access (w64 x.val)
    let (ws, s4) ← s.recWords v p 1 (n + 2) s3
    let s5 := (s4.recWrite p (n + 1) hd).recWrite p (n + 2) (checkOf 0 (hd :: ws.take n))
    let new := hd / 2 ^ 40 * 2 ^ 40 + (pointEnd pt + 8 * (n + 3))
    let s6 := s5.setBuffer p.buf { s5.buffers[p.buf] with serving := some s5.cur }
    .error ((s6.hold i (.retry tagDurable new) none).undoing [s4.recChanged p (n + 1) 2 s6])
/-- `dur.commit`. -/
def execDurCommit (h : Hdr) (d a : NameRef) (s : State) : Host.Outcome State Fault Refusal := finish (commitM s (.durCommit h d a) h d a)

/-- The course of `dur.begin` (R355). -/
def beginM (s : State) (i : Instr) (h : Hdr) (d a b : NameRef) : M State :=
  match s.stage with
  | some (12, v) =>
    if s.undurable then .error (s.hold i (.retry tagDurable v) none)
    else
      let k := s.myBuffer
      .ok (s.await h i d (.int v) (s.setBuffer k { s.buffers[k] with serving := none }))
  | _ => do
    let s1 ← s.issue i h [a, b] [d] (illUnless i (s.oneDst d))
    let (x, s2) ← s.read i h a s1
    let (y, s3) ← s.read i h b s2
    s.portCheck d s3
    if x.val % 8 ≠ 0 then trapM s .align (w64 x.val)
    let p ← s.vaultAt i 2 true x.val s3
    if y.val < 1 ∨ y.val > 65535 then trapM s .access (w64 y.val)
    let n : Nat := y.val.toNat
    if s3.bufBusy p.buf then s.holdBuf i p.buf
    let pt : Word64 := s3.buffers[p.buf].point
    let bad : Bool := p.off != pointEnd pt || decide (p.pa % 2 ^ 16 + 8 * (n + 3) > 2 ^ 16)
    if bad then trapM s .access (w64 x.val)
    let hd := (pointSeq pt + 1) % 2 ^ 24 * 2 ^ 40 + n
    let s4 := s3.recWrite p 0 hd
    let s5 := s4.setBuffer p.buf { s4.buffers[p.buf] with serving := some s4.cur }
    .error ((s5.hold i (.retry tagDurable hd) none).undoing [s3.recChanged p 0 1 s5])
/-- `dur.begin`. -/
def execDurBegin (h : Hdr) (d a b : NameRef) (s : State) : Host.Outcome State Fault Refusal :=
  finish (beginM s (.durBegin h d a b) h d a b)

/-- The check of a record at a physical address under a key (R336, R356): its result code, sequence number and count. -/
def State.scanRec (s : State) (key pa : Nat) : Nat × Nat × Nat :=
  let word : Nat → Nat := fun j => natOfBytes (s.homeBytes key (pa + 8 * j) 8)
  if s.poisoned pa 8 then (3, 0, 0)
  else
    let hd := word 0
    let n := fieldOf hd 0 16
    let r := if badHeader pa hd then 2
      else if s.poisoned (pa + 8) (8 * (n + 2)) then 3
      else if word (n + 1) = hd ∧ word (n + 2) = checkOf 0 ((List.range (n + 1)).map word) then 0 else 1
    (r, hd / 2 ^ 40, n)
/-- The words that the check of a record reads have been read (R371). -/
def State.scanFound (s : State) (key pa : Nat) : State :=
  let ctx := s.myKernel.ctx
  let s1 := s.found s.cur 0 ctx pa 8
  let hd := natOfBytes (s.homeBytes key pa 8)
  if s.poisoned pa 8 || badHeader pa hd then s1 else s1.found s1.cur 0 ctx (pa + 8) (8 * (fieldOf hd 0 16 + 2))
/-- The course of `dur.scan` (R356). -/
def recScanM (s : State) (i : Instr) (h : Hdr) (d a : NameRef) : M State := do
  let s1 ← s.issue i h [a] [d] (illUnless i (s.oneDst d))
  let (x, s2) ← s.read i h a s1
  s.portCheck d s2
  if x.val % 8 ≠ 0 then trapM s .align (w64 x.val)
  let p ← s.vaultAt i 0 false x.val s2
  let (r, q, n) := s2.scanRec p.e.key p.pa
  pure ((s.await h i d (.int ((q * 2 ^ 40 + r * 2 ^ 32 + n : Nat) : Int)) (s2.scanFound p.e.key p.pa)).readsAt p.g (8 * (n + 3)))
/-- `dur.scan`. -/
def execDurScan (h : Hdr) (d a : NameRef) (s : State) : Host.Outcome State Fault Refusal := finish (recScanM s (.durScan h d a) h d a)

end Sys2Proof.Machine
end

