-- ==== Sys2Proof/Machine/Translate.lean ====
section
/-! DEFINITION. Misses and their answers (21 R362 to R364, R394), the side log's replay (R366, R367), invalidation (R370), soft
errors and scrubbing (R371). -/
namespace Sys2Proof.Machine

/-! ## Tiles, rings and mailboxes of a cluster (R362, R363) -/

/-- The compute tile number 8y + x of a cluster given as 32 x die + cluster. -/
def State.clusterTile (s : State) (id t : Nat) : Nat :=
  let c := id % 32
  let u := 8 * (c % 5) + t % 8
  tileAt (id / 32) (8 * (c / 5) + t / 8) (if u < s.svc then u else u + 1)
/-- The service tile of a cluster so given. -/
def State.svcOf (s : State) (id : Nat) : Nat := s.serviceTile (id / 32) (id % 32)
/-- The cluster of a tile so given. -/
def State.clusterId (s : State) (tile : Nat) : Nat := 32 * tileDie tile + s.cluster tile

/-- The words of an entry (R359). -/
def TEntry.words (e : TEntry) : Nat × Nat :=
  (2 ^ 63 + e.psz * 2 ^ 61 + (if e.w then 2 ^ 60 else 0) + e.vpn * 2 ^ 16 + e.ctx, e.key * 2 ^ 53 + e.pfn * 2 ^ 16)
/-- The entry that two words describe; none where the hardware refuses it (R359, R363). -/
def State.entryOf (s : State) (w0 w1 : Nat) : Option TEntry :=
  let e : TEntry := ⟨fieldOf w0 61 2, w0.testBit 60, fieldOf w0 16 40, fieldOf w0 0 16, fieldOf w1 53 11, fieldOf w1 16 36⟩
  if w0.testBit 63 ∧ fieldOf w0 56 4 = 0 ∧ w1.testBit 52 = false ∧ fieldOf w1 0 16 = 0 ∧ s.entryOk e = true then some e else none

/-- MISS_RECORD: a miss's record lands at the next position of its cluster's ring, once firmware has emptied it (R362). -/
def execMissRecord (tile idx : Nat) (s : State) : Host.Outcome State Fault Refusal :=
  let t := s.tile tile
  match t.misses[idx]? with
  | none => .refused (.notEnabled "MISS_RECORD: no such miss")
  | some m =>
    let id := s.clusterId tile
    let svc := s.svcOf id
    let n := (getA s.missPos id).getD 0
    let a := 0x6_0000 + 16 * (n % 1024)
    if m.written then .refused (.notEnabled "MISS_RECORD: the record has been written")
    else if 1024 ≤ n ∧ s.full (localKey svc a) = true then .refused (.notEnabled "MISS_RECORD: the position is full")
    else
      let w0 := m.kind * 2 ^ 61 + m.va % 2 ^ 56
      let w1 := m.ctx % 2 ^ 16 * 2 ^ 48 + s.inCluster tile * 2 ^ 42 + m.req * 2 ^ 40 + m.tag * 2 ^ 32
      let s1 := s.setTile tile { t with misses := t.misses.set idx { m with written := true } }
      .next { (s1.putLocalWord svc a w0).putLocalWord svc (a + 8) w1 with missPos := putA s.missPos id (n + 1) }

/-! ## Installing a fill (R360) -/

/-- Whether two entries of one context could match one access. -/
def TEntry.overlaps (e f : TEntry) : Bool :=
  e.ctx == f.ctx && decide (e.vpn * 2 ^ 16 < f.vpn * 2 ^ 16 + f.page) && decide (f.vpn * 2 ^ 16 < e.vpn * 2 ^ 16 + e.page)
/-- A fill goes into a structure of `n` entries, oldest fill first: in place of those it overlaps, else of the oldest. -/
def fillInto (n : Nat) (l : List TEntry) (e : TEntry) : List TEntry :=
  let k := l.filter fun o => !o.overlaps e
  (if k.length = l.length ∧ n ≤ l.length then l.drop 1 else k) ++ [e]
/-- Installs a fill in the structure of a requester; the capacity unit keeps those of its instruction (log 60). -/
def Tile.fill (t : Tile) (req : Nat) (e : TEntry) : Tile :=
  if req = 1 then { t with eng := t.eng.set 0 { t.eng[0] with tc := fillInto 16 t.eng[0].tc e } }
  else if req = 2 then { t with eng := t.eng.set 1 { t.eng[1] with tc := fillInto 16 t.eng[1].tc e } }
  else { t with tlb := fillInto 128 t.tlb e, capHas := if req = 3 ∧ t.capBusy.isSome = true then e :: t.capHas else t.capHas }

/-! ## Shadows made (R172 to R174) -/

/-- The cells of memory with the 64 KiB of frame `new` replaced by those of frame `old`. -/
def copyCells (m : List Host.Cell) (old new : Nat) : List Host.Cell :=
  let o := old * 2 ^ 16
  let d := new * 2 ^ 16
  (m.filter fun c => decide (c.1 < d)) ++
  ((m.filter fun c => decide (o ≤ c.1) && decide (c.1 < o + 2 ^ 16)).map fun c => (d + (c.1 - o), c.2)) ++
  (m.filter fun c => decide (d + 2 ^ 16 ≤ c.1))
/-- The word keys with those of frame `new` replaced by those of frame `old`. -/
def copyKeys (l : List Nat) (old new : Nat) : List Nat :=
  let o := old * 2 ^ 13
  let d := new * 2 ^ 13
  (l.filter fun c => decide (c < d)) ++ ((l.filter fun c => decide (o ≤ c) && decide (c < o + 2 ^ 13)).map fun c => d + (c - o)) ++
  (l.filter fun c => decide (d + 2 ^ 13 ≤ c))
/-- Gives frame `new` the content of frame `old` under a key, with its poison and its full/empty bits. -/
def State.copyFrame (s : State) (key old new : Nat) : State :=
  let s1 := { s with poison := copyKeys s.poison old new, empties := copyKeys s.empties old new,
                     latent := s.latent.filter fun e => !(decide (new * 2 ^ 13 ≤ e.1) && decide (e.1 < (new + 1) * 2 ^ 13)) }
  if key = 0 then { s1 with mem := copyCells s1.mem old new }
  else
    let z := (List.range 1024).foldl (fun (z : State) k => z.homePut key (new * 2 ^ 16 + 64 * k) (s.homeBytes key (old * 2 ^ 16 + 64 * k) 64)) s1
    { z with poison := s1.poison }
/-- Takes a free frame of the part of a context's pool that serves frame `old` (R174). -/
def Context.takeFrame (c : Context) (old : Nat) : Option (Nat × Context) :=
  match homeOf (old * 2 ^ 16) with
  | some (.hbm 0) => (match c.pool0 with | f :: l => some (f, { c with pool0 := l }) | [] => none)
  | some (.hbm _) => (match c.pool1 with | f :: l => some (f, { c with pool1 := l }) | [] => none)
  | some .cap => (match c.poolc with | f :: l => some (f, { c with poolc := l }) | [] => none)
  | _ => none

/-- What an engine command held by a miss goes on with. -/
def State.engResume (s : State) (tile : Nat) (q : Nat × Nat) (stage : Nat → EngStage) : State :=
  let e : Fin 2 := ⟨q.1 % 2, Nat.mod_lt _ (by decide)⟩
  let k : Fin 4 := ⟨q.2 % 4, Nat.mod_lt _ (by decide)⟩
  match s.engHead tile e k with
  | some c => (match c.stage with | .miss off => s.setEngHead tile e k { c with stage := stage off } | _ => s)
  | none => s
/-- Creates the shadow that a command's element waits for (R172, R173): its frame, its content and its key. -/
def State.makeShadow (s : State) (tile : Nat) (q : Nat × Nat) (m : Miss) (e : TEntry) : State :=
  let en : Fin 2 := ⟨q.1 % 2, Nat.mod_lt _ (by decide)⟩
  let k : Fin 4 := ⟨q.2 % 4, Nat.mod_lt _ (by decide)⟩
  match s.engHead tile en k with
  | none => s
  | some c =>
    let r : CoreRef := ⟨tile, c.core⟩
    let set := cmdSset c.words
    let vpn := granuleOf m.va
    let old := granuleOf (e.pa m.va)
    let far := match homeOf (old * 2 ^ 16) with | some .host => true | some .peer => true | _ => false
    if far || (s.vaultC (old * 2 ^ 16)).isSome || !e.w then s.engResume tile q fun off => .fin 4 off
    else if ((s.core r).shadowOf set m.ctx vpn).isSome || s.shadowElsewhere r set m.ctx vpn then s.engResume tile q fun _ => .run
    else if ((s.core r).shadows.filter fun h => h.set == set).length ≥ 1024 then s.engResume tile q fun off => .fin 8 off
    else match (s.context? m.ctx).bind fun x => x.takeFrame old with
      | none => s.engResume tile q fun off => .fin 8 off
      | some (new, x) =>
        let s1 := (s.modContext m.ctx fun _ => x).copyFrame e.key old new
        let s2 := s1.setCore r { s1.core r with shadows := (s1.core r).shadows ++ [⟨set, m.ctx, vpn, old, new, e.key, (s.kernel ⟨tile, c.core, c.h⟩).lid⟩] }
        s2.engResume tile q fun _ => .run

/-! ## Outcomes (R364, R367) -/

/-- Takes a precise trap at the instruction that a thread's miss holds. -/
def State.missTrap (s : State) (t : ThreadRef) (c : Cause) (v : Word64) : State :=
  match (s.thread t).wait with
  | some w => if w.why = .miss then s.takeTrap t c w.pc v else s
  | none => s
/-- The thread of a side-log entry of a tile. -/
def SideEntry.thr (e : SideEntry) (tile : Nat) : ThreadRef := ⟨tile, e.core, e.h⟩
/-- Its kind in records (R362, R368). -/
def SideEntry.kind (e : SideEntry) : Nat := match e.work with | .store _ _ => 1 | .red .. => 2
/-- Discards entries, oldest first: a record of each, and for each thread one trap, at its oldest (R367). -/
def State.dropEntries (s : State) (tile ctx cause : Nat) (trap : Nat → Cause × Word64) : List ThreadRef → List SideEntry → State
  | _, [] => s
  | seen, e :: l =>
    let t := e.thr tile
    let s1 := match e.work with | .store _ (.late _ _ _) => s.settleTail t e.seq false | _ => s
    ((s1.count ⟨tile, e.core⟩ 4).discardEntry tile e.core e.h ctx e.kind e.addr cause (if seen.contains t then none else some (trap e.addr))).dropEntries
      tile ctx cause trap (t :: seen) l
/-- Discards the side-log entries of a granule (R367). -/
def State.dropSide (s : State) (tile ctx g cause : Nat) (trap : Nat → Cause × Word64) : State :=
  let t := s.tile tile
  let p : SideEntry → Bool := fun e => e.ctx == ctx && granuleOf e.addr == g
  (s.setTile tile { t with side := t.side.filter fun e => !p e }).dropEntries tile ctx cause trap [] (t.side.filter p)
/-- One requester's outcome (R364): `res` 0 with its entry, 1 HOSTFAIL, 2 refused. -/
def State.outcome (s : State) (tile kind : Nat) (ans : Nat × Option TEntry) (m : Miss) : State :=
  let t : Option ThreadRef := m.thr.map fun p => ⟨tile, p.1, p.2⟩
  match ans.1, ans.2 with
  | 0, some e =>
    let hit := e.hit m.ctx m.va
    let s1 := s.setTile tile ((s.tile tile).fill m.req e)
    (match m.queue with
    | some q => if kind = 7 ∧ m.kind = 7 ∧ hit = true then s1.makeShadow tile q m e else s1.engResume tile q fun _ => .run
    | none => s1)
  | 1, _ =>
    (match t, m.queue with
    | some t, _ => s.missTrap t .pfault (reasonVal 1 m.va)
    | none, some q => s.engResume tile q fun off => .fin 6 off
    | none, none => s)
  | _, _ =>
    (match t, m.queue with
    | some t, _ => s.missTrap t .access (n64 (m.va % 2 ^ 56))
    | none, some q => s.engResume tile q fun off => .fin 4 off
    | none, none => s)

/-- The hardware delivers the answer in a cluster's mailbox and empties the reply word (R363): to every requester that shares the
record; an answer for none is discarded, and a fill into a range being invalidated is not installed (R370). -/
def State.deliverFill (s : State) (id : Nat) : State :=
  let svc := s.svcOf id
  let reply := s.localWord svc 0x6_4010
  let tile := s.clusterTile id (fieldOf reply 42 6)
  let tag := fieldOf reply 32 8
  let s1 := s.setFull (localKey svc 0x6_4010) false
  let t := s1.tile tile
  match t.misses.find? fun m => m.written && m.tag == tag && m.req == fieldOf reply 40 2 with
  | none => s1
  | some m =>
    let e := (s.entryOf (s.localWord svc 0x6_4000) (s.localWord svc 0x6_4008)).filter fun e => s.presentAt tile (e.pfn * 2 ^ 16)
    let res := fieldOf reply 56 8
    let bad := res = 0 ∧ e = none
    let ans : Nat × Option TEntry := if bad then (2, none) else (res, e)
    let mine := t.misses.filter fun o => o.tag == tag && !o.dead
    let s2 := if bad ∧ mine.isEmpty = false then s1.count ⟨tile, m.core⟩ 0x0A else s1
    let s3 := s2.setTile tile { s2.tile tile with misses := (s2.tile tile).misses.filter fun o => o.tag != tag }
    let ans : Nat × Option TEntry := match ans with
      | (0, some e) => if s.invals.any fun v => v.2.ctx == e.ctx && decide (e.vpn * 2 ^ 16 < v.2.base + v.2.len) &&
            decide (v.2.base < e.vpn * 2 ^ 16 + e.page) then (0, none) else (0, some e)
      | a => a
    let s4 := match ans with
      | (0, none) => mine.foldl (fun (z : State) o => match o.queue with | some q => z.engResume tile q fun _ => .run | none => z) s3
      | a => mine.foldl (fun (z : State) o => z.outcome tile m.kind a o) s3
    if mine.isEmpty then s4
    else if ans.1 = 1 then s4.dropSide tile m.ctx (granuleOf m.va) 1 fun a => (.pfault, reasonVal 1 a)
    else if ans.1 = 0 then s4
    else s4.dropSide tile m.ctx (granuleOf m.va) 2 fun a => (.access, n64 a)

/-! ## Host memory and completions -/

/-- Bytes of host memory (R375). -/
def State.hostRead (s : State) (a n : Nat) : List Byte := s.bytesAt (hostBase + a) n
/-- A 64-bit word of it. -/
def State.hostWord (s : State) (a : Nat) : Nat := s.natAt (hostBase + a) 8
/-- Writes bytes of host memory. -/
def State.hostWrite (s : State) (a : Nat) (bs : List Byte) : State := s.putBytes (hostBase + a) bs

/-- The number of a queue pair (R378). -/
def qIx (q : Nat) : Fin 16 := ⟨q % 16, Nat.mod_lt _ (by decide)⟩
/-- The state with a queue pair changed. -/
def State.modQueue (s : State) (q : Nat) (f : QueuePair → QueuePair) : State :=
  { s with queues := s.queues.set (qIx q) (f s.queues[qIx q]) }
/-- The queue's command is completed, or counts as completed for the order of its ring (R383). -/
def State.freeQueue (s : State) (q : Nat) : State := s.modQueue q fun p => { p with busy := false }
/-- Posts a completion entry (R378, R379): the journal drops the command. -/
def State.postEntry (s : State) (q : Nat) (tag : BitVec 32) (status : Nat) (res : Word64) : State :=
  let p := s.queues[qIx q]
  let a := p.qcbase.toNat + 16 * p.ctail
  let w0 := tag.toNat * 2 ^ 32 + status % 256 * 2 ^ 8 + (if p.ph then 1 else 0)
  let wrap := decide (p.ctail + 1 ≥ p.qsize.toNat)
  let s1 := s.hostWrite a (bytesOfNat 8 w0 ++ bytesOfNat 8 res.toNat)
  let s2 := s1.modQueue q fun p => { p with ctail := if wrap then 0 else p.ctail + 1, ph := if wrap then !p.ph else p.ph, reserved := p.reserved - 1 }
  { s2 with journal := s2.journal.eraseP (fun t => t.q == (qIx q).val && t.tag == tag) }
/-- Posts a completion entry and raises the pair's vector (R378). -/
def State.postDone (s : State) (q : Nat) (tag : BitVec 32) (status : Nat) (res : Word64) : State :=
  let z := s.postEntry q tag status res
  { z with msix := z.msix ++ [s.queues[qIx q].qvec.toNat] }

/-! ## Invalidation (R370) -/

/-- Whether an entry may translate inside the range of an invalidation. -/
def Inval.hits (v : Inval) (e : TEntry) : Bool :=
  e.ctx == v.ctx && decide (e.vpn * 2 ^ 16 < v.base + v.len) && decide (v.base < e.vpn * 2 ^ 16 + e.page)
/-- A tile without the entries of an invalidation's range. -/
def Tile.without (t : Tile) (v : Inval) : Tile :=
  { t with tlb := t.tlb.filter fun e => !v.hits e, eng := t.eng.map fun g => { g with tc := g.tc.filter fun e => !v.hits e },
           capHas := t.capHas.filter fun e => !v.hits e }
/-- An invalidation that every tile has acknowledged is reported. -/
def State.invalDone (s : State) (id : Nat) (v : Inval) : State :=
  let s1 := { s with invals := delA s.invals id }
  match v.cmd with
  | some (q, tag) => (s1.freeQueue q).postDone q tag 0 0
  | none => s1
/-- An invalidation begins (R370): the host's tables no longer hold the range (log 85), every tile blocks it at once, and each is to acknowledge. -/
def State.beginInval (s : State) (v : Inval) : State :=
  let s1 := (s.modContext v.ctx fun c => { c with maps := c.maps.filter fun e => !v.hits e }).dropReflections (fun _ => true) v.ctx v.base v.len
  let s2 := { s1 with invals := s1.invals ++ [(s1.nextInval, v)], nextInval := s1.nextInval + 1 }
  if v.left.isEmpty then s2.invalDone s1.nextInval v else s2

/-! ## The service firmware (R363, R394) -/

/-- What the context's tables give for a missing granule (R394): an answer, or none where the host must be asked. -/
def State.walk (s : State) (ctx va : Nat) : Option (Nat × Option TEntry) :=
  if 0xC0_0000_0000_0000 ≤ va ∧ fieldOf va 44 9 ≥ 128 then some (2, none)
  else match (s.context? ctx).bind fun c => c.entryAt va with
  | some e => some (if s.entryOk e then (0, some e) else (2, none))
  | none => none
/-- The records of a cluster's miss ring that are full, oldest first: their local address, context and address. -/
def State.missRing (s : State) (id : Nat) : List (Nat × Nat × Nat) :=
  let svc := s.svcOf id
  let n := (getA s.missPos id).getD 0
  ((List.range (min n 1024)).map fun k => 0x6_0000 + 16 * ((n - min n 1024 + k) % 1024)).filterMap fun a =>
    if s.full (localKey svc a) then some (a, s.localWord svc (a + 8) / 2 ^ 48, s.localWord svc a % 2 ^ 56) else none
/-- The answer for a record of the ring (R363): a page that its tile's service has not is refused (R387). -/
def State.walkFor (s : State) (id : Nat) (r : Nat × Nat × Nat) : Option (Nat × Option TEntry) :=
  (s.walk r.2.1 r.2.2).map fun w =>
    match w with
    | (0, some e) => if s.presentAt (s.clusterTile id (fieldOf (s.localWord (s.svcOf id) (r.1 + 8)) 42 6)) (e.pfn * 2 ^ 16) then w else (2, none)
    | x => x
/-- Firmware answers the record at a local address: it empties the record, writes the entry words with ordinary stores and the reply
word with `fe.stf` (R363). -/
def State.answer (s : State) (id a : Nat) (res : Nat) (e : Option TEntry) : State :=
  let svc := s.svcOf id
  let w1 := s.localWord svc (a + 8)
  let s1 := (s.setFull (localKey svc a) false).setFull (localKey svc (a + 8)) false
  let s2 := match e with
    | some e => ((s1.putBytes (localKey svc 0x6_4000) (bytesOfNat 8 e.words.1)).putBytes (localKey svc 0x6_4008) (bytesOfNat 8 e.words.2))
    | none => s1
  s2.putLocalWord svc 0x6_4010 (res * 2 ^ 56 + fieldOf w1 32 16 * 2 ^ 32)

/-- FILL_DELIVER: the hardware delivers the answer in a full reply word; where the word is empty, firmware first writes the answer
of the oldest record that the context's tables answer (R363, R394). -/
def execFillDeliver (cluster : Nat) (s : State) : Host.Outcome State Fault Refusal :=
  if s.full (localKey (s.svcOf cluster) 0x6_4010) then .next (s.deliverFill cluster)
  else match (s.missRing cluster).findSome? fun r => (s.walkFor cluster r).map fun w => (r.1, w) with
    | some (a, res, e) => .next ((s.answer cluster a res e).deliverFill cluster)
    | none => .refused (.notEnabled "FILL_DELIVER: no answer is ready")

/-- An answer of the host that comes too late is discarded and counted (R367). -/
def State.countLate (s : State) (svc : Nat) : State :=
  s.putBytes (localKey svc 0x6_4FF8) (bytesOfNat 8 ((s.localWord svc 0x6_4FF8 + 1) % 2 ^ 64))
/-- Firmware drops the record at a local address unanswered, its context having ended; its requesters wait no longer (R363). -/
def State.dropRecord (s : State) (id a : Nat) : State :=
  let svc := s.svcOf id
  let w1 := s.localWord svc (a + 8)
  let s1 := (s.setFull (localKey svc a) false).setFull (localKey svc (a + 8)) false
  let tile := s.clusterTile id (fieldOf w1 42 6)
  let t := s1.tile tile
  s1.setTile tile { t with misses := t.misses.filter fun m => !(m.written && m.tag == fieldOf w1 32 8) }
/-- HOST_PAGE_ANSWER: the host answers the oldest page request of a cluster (R394): with success it has mapped the page, and firmware
walks the tables again; failure is HOSTFAIL; an answer for a context that has ended, or for a granule already answered, is discarded and counted
(R367; log 108). A range that the host maps no more begins an invalidation, at the request of the cluster's service core (R370, log 130). -/
def execHostPageAnswer (cluster : Nat) (answer : PageAnswer) (s : State) : Host.Outcome State Fault Refusal :=
  let svc := s.svcOf cluster
  let owed := (getA s.late cluster).getD 0
  match answer with
  | .invalidate ctx base len =>
    if (s.context? ctx).isNone then .refused (.notEnabled "HOST_PAGE_ANSWER: no such context") else .next (s.beginInval ⟨ctx, base, len, none, s.tiles.map (·.1)⟩)
  | _ =>
  if s.full (localKey svc 0x6_4010) then .refused (.notEnabled "HOST_PAGE_ANSWER: the reply word is full")
  else match (s.missRing cluster).find? fun r => (s.walk r.2.1 r.2.2).isNone with
    | none =>
      if owed = 0 then .refused (.notEnabled "HOST_PAGE_ANSWER: no page request is open")
      else .next (({ s with late := putA s.late cluster (owed - 1) } : State).countLate svc)
    | some (a, ctx, va) =>
      if (s.context? ctx).isNone then .next ((s.dropRecord cluster a).countLate svc)
      else match answer with
        | .failure => .next ((s.answer cluster a 1 none).deliverFill cluster)
        | .invalidate _ _ _ => .next s
        | .success psz w pfn key =>
          let n : Nat := if psz = 0 then 0 else if psz = 1 then 5 else 14
          let e : TEntry := ⟨psz, w, va / 2 ^ 16 / 2 ^ n * 2 ^ n, ctx, key, pfn⟩
          let s1 := (s.modContext ctx fun c => c.mapPage e).dropReflections (fun _ => true) ctx (e.vpn * 2 ^ 16) e.page
          let s2 := clusterIds.foldl (fun (z : State) id =>
            let more := (s.missRing id).filter fun r => !(id == cluster && r.1 == a) && (s.walk r.2.1 r.2.2).isNone && (s1.walk r.2.1 r.2.2).isSome
            if more.isEmpty then z else { z with late := putA z.late id ((getA z.late id).getD 0 + more.length) }) s1
          match s2.walkFor cluster (a, ctx, va) with
          | some (res, x) => .next ((s2.answer cluster a res x).deliverFill cluster)
          | none => .next s2

/-! ## The side log (R366) -/

/-- Performs a reduction at its home. -/
def State.performRed (s : State) (r : CoreRef) (e : SideEntry) (te : TEntry) (f : RedFn) (n : Nat) (sx : Bool) (v : Int) (x : FVal) : State :=
  let pa := te.pa e.addr
  let t : ThreadRef := ⟨r.tile, r.core, e.h⟩
  if s.poisoned pa n then (s.found t 2 e.ctx pa n).asyncTrap t .poison (n64 e.addr)
  else
    let s1 := s.found t 2 e.ctx pa n
    s1.homeWrite (tileDie r.tile) (some ⟨r, e.seq, e.ctx, e.addr, n⟩) te.key pa (bytesOfNat n (redStep f n sx v x (natOfBytes (s1.homeBytes te.key pa n))))

/-- SIDELOG_REPLAY: the oldest entry of a granule with an answer is performed under its translation, or discarded where that forbids
it; where the translation has gone meanwhile its granule misses again (R366, R367). -/
def execSidelogReplay (tile : Nat) (s : State) : Host.Outcome State Fault Refusal :=
  let t := s.tile tile
  let ripe : SideEntry → Bool := fun e => !s.blocked e.ctx e.addr && !t.misses.any fun m => m.ctx == e.ctx && granuleOf m.va == granuleOf e.addr
  let tailed : SideEntry → Bool := fun e => match e.work with
    | .store _ .tail => t.side.any (fun o => o.core == e.core && o.h == e.h && o.seq == e.seq && o != e) || (s.core ⟨tile, e.core⟩).sbuf.any fun o => o.h == e.h && o.seq == e.seq
    | _ => false
  let first := t.side.find? fun e => ripe e && !tailed e && (t.side.find? fun o => o.ctx == e.ctx && granuleOf o.addr == granuleOf e.addr) == some e
  match first with
  | none => .refused (.notEnabled "SIDELOG_REPLAY: no entry can be replayed")
  | some e =>
    let r : CoreRef := ⟨tile, e.core⟩
    match s.tlb? tile e.ctx e.addr with
    | none => .next (s.storeMiss e.kind tile e.core e.ctx e.addr)
    | some te =>
      let s1 := s.setTile tile { t with side := t.side.erase e }
      if !te.w then .next (s.dropSide tile e.ctx (granuleOf e.addr) 2 fun a => (.access, n64 a))
      else if s.routeDown (te.pa e.addr) then .next (s.dropSide tile e.ctx (granuleOf e.addr) 1 fun a => (.pfault, reasonVal 2 a))
      else if s.peerRefused (te.pa e.addr) true then .next (s.dropSide tile e.ctx (granuleOf e.addr) 2 fun a => (.access, n64 a))
      else if s.bankOff (te.pa e.addr) then .refused (.notEnabled "SIDELOG_REPLAY: the bank is in back-off")
      else match e.work with
        | .store bs f => .next ((match f.breach te e.addr with | some _ => s1.count r 4 | none => s1).landStore (e.thr tile) e.seq e.ctx te e.addr bs f)
        | .red f n sx v x => .next (s1.performRed r e te f n sx v x)

/-! ## Soft errors and scrubbing (R157, R371) -/

/-- Whether memory stores a word: HBM, the capacity tier, the local memories of the two grids of 41 x 32 tiles (R1) and the weight stores (R2). -/
def storedWord (w : Nat) : Bool :=
  let k := 8 * w
  (isLocal k && decide ((k - 2 ^ 52) / 2 ^ 19 < 4096) && decide ((k - 2 ^ 52) / 2 ^ 19 % 64 < 41)) ||
  decide (2 ^ 53 ≤ k ∧ k < 2 ^ 53 + 2 ^ 31) || (match homeOf (8 * w) with | some (.hbm _) => true | some .cap => true | _ => false)
/-- The copy of a name that a number beyond every memory word stands for (R81): tile, core, thread and name, where a kernel holds it. -/
def State.copyAt (s : State) (w : Nat) : Option (ThreadRef × Nat) :=
  let k := w - 2 ^ 52
  let t : ThreadRef := ⟨k / 2 ^ 14, ⟨k / 2 ^ 12 % 4 % 3, Nat.mod_lt _ (by decide)⟩, ⟨k / 2 ^ 9 % 8, Nat.mod_lt _ (by decide)⟩⟩
  if 2 ^ 52 ≤ w ∧ k / 2 ^ 12 % 4 < 3 ∧ k % 2 ^ 9 < (s.thread t).names.length then some (t, k % 2 ^ 9) else none
/-- SOFT_ERROR: an error of so many symbols of one code word strikes a stored word (R157, R371): one is corrected when it is found;
with more the words under that code are poisoned. One in the copy of a name stays there until a repack reads it or the copy is written (R81). -/
def execSoftError (word bits : Nat) (s : State) : Host.Outcome State Fault Refusal :=
  match s.copyAt word with
  | some (t, n) => .next (if bits ≤ 1 then s else s.setThread t { s.thread t with bad := addKey (s.thread t).bad n })
  | none =>
  if bits = 0 ∨ storedWord word = false then .refused (.notEnabled "SOFT_ERROR: no stored word is struck")
  else
    let s1 := { s with latent := s.latent ++ [(word, decide (2 ≤ bits))] }
    .next (if bits = 1 then s1 else { s1 with poison := (errorWords (8 * word) 8).foldl addKey s1.poison })

/-- The tile in whose name scrubbing reports an error: a local memory's own, else tile 0 of the die of the word (log 62). -/
def scrubTile (w : Nat) : Nat :=
  let k := 8 * w
  if 2 ^ 52 ≤ k ∧ k < 2 ^ 53 then (k - 2 ^ 52) / 2 ^ 19
  else match homeOf k with
    | some (.hbm d) => 2048 * d
    | _ => 0
/-- A controller finds the errors under a range, for no core (R371). -/
def State.scrubbed (s : State) (k n : Nat) : State :=
  let hit := s.errorsAt k n
  let s1 := hit.foldl State.bufError { s with latent := s.latent.filter fun e => !(errorWords k n).contains e.1 }
  (hit.filter (·.2)).foldl (fun (z : State) e => z.faultRecord (scrubTile e.1) 0 4 (errorAddr e.1) 0 0 0) s1
/-- PATROL_SCRUB: a controller finds the error under a word, with no event in any core (R371). -/
def execPatrolScrub (word : Nat) (s : State) : Host.Outcome State Fault Refusal :=
  if (s.errorsAt (8 * word) 8).isEmpty then .refused (.notEnabled "PATROL_SCRUB: the line holds no error") else .next (s.scrubbed (8 * word) 8)

end Sys2Proof.Machine
end

