-- ==== Sys2Proof/Machine/Image.lean ====
section
/-! DEFINITION. Host memory and the completion rings as the command processors use them (22 R377 to R383), and GYO images: their
checks and their content (03 R41 to R60, R392). -/
namespace Sys2Proof.Machine

/-! ## Commands and their completion -/

/-- The tag of a command (R378). -/
def hostTag (c : Command) : BitVec 32 := ((c.words.getD 0 0)).setWidth 32
/-- Argument word `j`. -/
def hostArg (c : Command) (j : Nat) : Nat := (c.words.getD j 0).toNat
/-- A command completes (R382). -/
def State.complete (s : State) (c : Command) (status : Nat) (res : Nat) : State := (s.freeQueue c.q).postDone c.q (hostTag c) status (n64 res)

/-- A zero field of word 0 of a submission entry is not zero; only a LAUNCH has dependences (R378, R382). -/
def badWord0 (c : Command) : Bool := fieldOf (hostArg c 0) 48 8 != 0 || fieldOf (hostArg c 0) 32 16 != 0
/-- Whether bytes lie in the host's physical address space (R375). -/
def hostOk (a n : Nat) : Bool := decide (a + n ≤ 2 ^ 49)

/-- Status codes (R60, R382). -/
abbrev stBADMAGIC : Nat := 0x01
abbrev stVERSION : Nat := 0x02
abbrev stKIND : Nat := 0x03
abbrev stFORMAT : Nat := 0x04
abbrev stFEATURE : Nat := 0x05
abbrev stEMUL : Nat := 0x06
abbrev stPACK : Nat := 0x07
abbrev stSPACE : Nat := 0x08
abbrev stBADFOLD : Nat := 0x09
abbrev stRELOC : Nat := 0x0A
abbrev stSEALBIND : Nat := 0x0B
abbrev stBUNDLE : Nat := 0x0C
abbrev stSKIPPED : Nat := 0x0D
abbrev stBADCMD : Nat := 0x0E
abbrev stNOHANDLE : Nat := 0x0F
abbrev stSIGFAIL : Nat := 0x10
abbrev stREDUCED : Nat := 0x11
abbrev stTHERMAL : Nat := 0x12

/-! ## Sections (R41 to R43) -/

/-- The little-endian number of `n` bytes at an offset. -/
def rd (b : List Byte) (off n : Nat) : Nat := natOfBytes ((b.drop off).take n)
/-- Whether bytes [lo, hi) are zero. -/
def zeros (b : List Byte) (lo hi : Nat) : Bool := ((b.drop lo).take (hi - lo)).all (· == 0)

/-- An entry of the section table (R42). -/
structure Sect where
  ty : Nat
  link : Nat
  off : Nat
  size : Nat
  align : Nat
  ok : Bool
  deriving DecidableEq, Repr

/-- Reads the section table. -/
def sections (b : List Byte) : List Sect :=
  let n := rd b 0x0C 4
  let o := rd b 0x10 8
  if o + 32 * n > b.length then []
  else (List.range n).map fun k =>
    let e := (b.drop (o + 32 * k)).take 32
    ⟨rd e 0 4, rd e 4 4, rd e 8 8, rd e 16 8, rd e 24 4, zeros e 28 32⟩
/-- The number of a section's type, the mark of an optional section aside. -/
def Sect.num (x : Sect) : Nat := x.ty % 2 ^ 31
/-- Whether the table of R42 knows the type. -/
def Sect.known (x : Sect) : Bool := decide (1 ≤ x.num) && decide (x.num ≤ 15)
/-- Whether two byte ranges meet. -/
def meets (a n b m : Nat) : Bool := decide (a < b + m) && decide (b < a + n)
/-- The checks of R41 and R42 on the table; bytes after the last section are held to zero as those between sections are (DESIGN CHOICE,
log 101). -/
def sectionsOk (b : List Byte) (l : List Sect) : Bool :=
  let n := rd b 0x0C 4
  let o := rd b 0x10 8
  let used : List (Nat × Nat) := (0, 128) :: (o, 32 * n) :: l.map fun x => (x.off, x.size)
  rd b 0x0A 2 == 128 && o % 8 == 0 && zeros b 0x18 0x40 && decide (o + 32 * n ≤ b.length) && decide (l.length = n) &&
  l.all (fun x => x.ok && x.off % 8 == 0 && decide (x.off + x.size ≤ b.length) &&
    (decide (x.link < n) || x.link == 0xFFFF_FFFF) &&
    ((List.range 15).any fun k => x.align == 2 ^ (k + 2)) && (decide (x.ty ≥ 2 ^ 31) || x.known) &&
    (decide (x.ty ≥ 2 ^ 31) || decide ((l.filter fun y => y.ty == x.ty).length = 1))) &&
  (used.zipIdx.all fun p => (used.drop (p.2 + 1)).all fun q => !meets p.1.1 p.1.2 q.1 q.2) &&
  ((List.range b.length).zip b).all fun p => p.2 == 0 || used.any fun u => decide (u.1 ≤ p.1) && decide (p.1 < u.1 + u.2)
/-- The section of a type: an optional section of a known type is read like any other, and of several the first in the table (DESIGN
CHOICE, log 101). -/
def sectOf (l : List Sect) (num : Nat) : Option Sect := l.find? (·.num == num)
/-- Its bytes; none listed: empty. -/
def sectBytes (b : List Byte) (l : List Sect) (num : Nat) : List Byte :=
  match sectOf l num with
  | some x => (b.drop x.off).take x.size
  | none => []
/-- The words and the empty words' numbers of a data section (R43); none where its size fits no number of words, or where a bit of the
bitmap beyond its last word is set. -/
def dataOf (b : List Byte) : Option (List Byte × List Nat) :=
  let w := b.length / 8
  let n := w - (w + 64) / 65
  let m := b.drop (8 * n)
  if b.length % 8 ≠ 0 ∨ n + (n + 63) / 64 ≠ w ∨ ((List.range (64 * (w - n))).any fun i => decide (n ≤ i) && (m.getD (i / 8) 0).getLsbD (i % 8)) = true then none
  else some (b.take (8 * n), (List.range n).filter fun i => !(m.getD (i / 8) 0).getLsbD (i % 8))
/-- Whether a section holds names as R42 gives them: each ends with a NUL, the first is empty. -/
def stringsOk (b : List Byte) : Bool := b.isEmpty || (b.headD 1 == 0 && b.getLastD 1 == 0)

/-! ## Records (R44 to R53, R392) -/

/-- Fixed-size records of a section; none where its size is no multiple. -/
def records (b : List Byte) (n : Nat) : Option (List (List Byte)) :=
  if b.length % n ≠ 0 then none else some ((List.range (b.length / n)).map fun k => (b.drop (n * k)).take n)

/-- A name's kind by its number (R45). -/
def kindOf : Nat → Option Kind
  | 0 => some .uint | 1 => some .sint | 2 => some .bf16 | 3 => some .fp32 | 4 => some .e4m3 | 5 => some .e5m2 | 6 => some .g8
  | 7 => some .g4 | 8 => some .raw | _ => none
/-- Whether a width fits a kind (R30). -/
def Kind.widthOk (k : Kind) (w : Nat) : Bool :=
  match k with
  | .uint | .sint | .raw => decide (1 ≤ w) && decide (w ≤ 528)
  | .bf16 => w == 16 | .fp32 => w == 32 | .e4m3 => w == 8 | .e5m2 => w == 8 | .g8 => w == 264 | .g4 => w == 320
/-- A catalogue entry from its 16 bytes (R30, R45). -/
def nameEntry (e : List Byte) : Option NameEnt :=
  match kindOf (rd e 6 1) with
  | none => none
  | some k =>
    let md : Option Ovf := match rd e 7 1 with | 0 => some .wrap | 1 => some .sat | 2 => some .trap | _ => none
    let rn : Option RMode := match rd e 8 1 with
      | 0 => some .rne | 1 => some .rtz | 2 => some .rdn | 3 => some .rup | 4 => some .rst | _ => none
    let el : Option Elem := match rd e 9 1 with
      | 0 => some .none | 1 => some .e4m3 | 2 => some .e5m2 | 3 => some .int8 | 4 => some .uint8 | _ => none
    let intk := k == .uint || k == .sint || k == .raw
    match md, rn, el with
    | some m, some r, some x =>
      if k.widthOk (rd e 4 2) && zeros e 10 16 && (!intk || r == .rne) && ((k == .g8) == (x != .none)) &&
         (intk || m != .wrap) && (k != .raw || m == .wrap) then some ⟨rd e 4 2, k, m, r, x⟩ else none
    | _, _, _ => none
/-- The catalogue records (R45): the reserve and the entries of each; `str` is the size of STRING. -/
def catalogs (str : Nat) : Nat → List Byte → Option (List (Nat × List NameEnt))
  | 0, b => if b.isEmpty then some [] else none
  | f + 1, b =>
    if b.isEmpty then some []
    else
      let n := rd b 4 2
      if b.length < 16 + 16 * n ∨ n < 1 ∨ n > 504 ∨ rd b 6 1 > 127 ∨ zeros b 7 16 = false ∨ str ≤ rd b 0 4 then none
      else
        let rs := (List.range n).map fun k => (b.drop (16 + 16 * k)).take 16
        let es := rs.map nameEntry
        if es.any (·.isNone) = true ∨ rs.any (fun r => decide (str ≤ rd r 0 4)) = true then none
        else (catalogs str f (b.drop (16 + 16 * n))).map fun l => (rd b 6 1, es.filterMap id) :: l
/-- The live-range tables (R47), with their marked address, for CODE of a size. A number above 65,535, and a range that is no `mem(a, b)`
of R36, make the image invalid, and a range that reaches or starts past the end of local memory does not (R36, R47; DESIGN CHOICE, log 98). -/
def liveTables (code : Nat) : Nat → List Byte → Option (List LiveRange)
  | 0, b => if b.isEmpty then some [] else none
  | f + 1, b =>
    if b.isEmpty then some []
    else
      let n := rd b 4 2
      let r := rd b 6 2
      let p := (2 * n + 7) / 8 * 8
      let e := 24 + p + 16 * r
      let rs := (List.range r).map fun k => (rd b (24 + p + 16 * k) 8, rd b (24 + p + 16 * k + 8) 8)
      if b.length < e ∨ zeros b 16 24 = false ∨ zeros b (24 + 2 * n) (24 + p) = false ∨ rd b 0 4 > 65535 ∨ rd b 8 8 % 4 ≠ 0 ∨ code ≤ rd b 8 8 ∨
         rs.any (fun x => x.1 % 8 != 0 || x.2 % 8 != 0 || x.2 == 0) = true then none
      else (liveTables code f (b.drop e)).map fun l =>
        ⟨rd b 0 4, 0x2000 + rd b 8 8, (List.range n).map fun k => rd b (24 + 2 * k) 2, rs⟩ :: l
/-- The entry values of names (R392): kernel, name, thread, words, value. -/
def nameInits : Nat → List Byte → Option (List (Nat × Nat × Nat × Nat × Nat))
  | 0, b => if b.isEmpty then some [] else none
  | f + 1, b =>
    if b.isEmpty then some []
    else
      let w := rd b 5 1
      if b.length < 8 + 8 * w ∨ zeros b 6 8 = false then none
      else (nameInits f (b.drop (8 + 8 * w))).map fun l => (rd b 0 2, rd b 2 2, rd b 4 1, w, rd b 8 (8 * w)) :: l

/-- The body of a function that is absent. -/
abbrev noBody : Nat := 0xFFFF_FFFF_FFFF_FFFF
/-- A function record (R51) with its call sites, by number: address, callee, lowest bit, width, shift. -/
def funRecord (r : List Byte) (sites : List (Nat × Nat × Nat × Nat × Nat)) : ImgFun where
  tile := if rd r 16 4 = 0 then noBody else 0x2000 + rd r 8 8
  loop := if rd r 20 4 = 0 then noBody else 0x2000 + rd r 24 8
  scalar := 0x2000 + rd r 32 8
  sites := (sites.drop (rd r 44 4)).take (rd r 48 4)
/-- The checks of a function record; a body offset need be no multiple of 4 (R51; DESIGN CHOICE, log 101). -/
def funOk (r : List Byte) (str code sites : Nat) : Bool :=
  decide (rd r 0 4 < str) && zeros r 4 8 && zeros r 52 64 && rd r 40 4 != 0 && decide (rd r 32 8 + rd r 40 4 ≤ code) && decide (rd r 44 4 + rd r 48 4 ≤ sites) &&
  (rd r 16 4 == 0 || decide (rd r 8 8 + rd r 16 4 ≤ code)) && (rd r 20 4 == 0 || decide (rd r 24 8 + rd r 20 4 ≤ code))
/-- Whether a body of a function record holds a CODE offset (R51). -/
def funHolds (r : List Byte) (o : Nat) : Bool :=
  (decide (rd r 8 8 ≤ o) && decide (o < rd r 8 8 + rd r 16 4)) || (decide (rd r 24 8 ≤ o) && decide (o < rd r 24 8 + rd r 20 4)) ||
  (decide (rd r 32 8 ≤ o) && decide (o < rd r 32 8 + rd r 40 4))
/-- The checks of a symbol record (R44) of a file with `n` sections; one that is undefined has no place in an image (R58). -/
def symOk (l : List Sect) (str : Nat) (r : List Byte) : Bool :=
  decide (rd r 0 4 < str) && decide (rd r 6 1 ≤ 3) && zeros r 7 8 && zeros r 16 24 &&
  (rd r 4 2 == 0xFFFF || (match l[rd r 4 2]? with | some x => decide (rd r 8 8 ≤ x.size) | none => false))

/-- Whether a list rises strictly under `lt`. -/
def rising {α : Type} (lt : α → α → Bool) : List α → Bool
  | [] => true
  | [_] => true
  | a :: b :: l => lt a b && rising lt (b :: l)

/-- What the records of an image refer to. -/
structure ImgParts where
  str : Nat
  code : Nat
  cats : List (Nat × List NameEnt)
  live : List LiveRange
  seals : Nat
  funs : List (List Byte)
  inits : List (Nat × Nat × Nat × Nat × Nat)

/-- A kernel record (R46) by its index, its seal bindings left out; none where it breaks R46, R47, R51 or R392. -/
def kernRecord (p : ImgParts) (ix : Nat) (r : List Byte) : Option ImgKern :=
  match p.cats[rd r 4 2]? with
  | none => none
  | some (reserve, cat) =>
    let th := rd r 6 1
    let live := (p.live.drop (rd r 32 4)).take (rd r 36 4)
    let ini := (p.inits.drop (rd r 56 4)).take (rd r 60 4)
    let ok := decide (rd r 0 4 < p.str) && decide (1 ≤ th) && decide (th ≤ 8) && decide (rd r 7 1 ≤ 2) && decide (rd r 8 8 < p.code) && decide (rd r 16 8 < p.code) &&
      rd r 8 8 % 4 == 0 && rd r 16 8 % 4 == 0 &&
      decide (1 ≤ rd r 24 2) && decide (rd r 24 2 ≤ 4096) && decide (1 ≤ rd r 26 2) && decide (rd r 26 2 ≤ 4096) && rd r 28 1 != 0 &&
      decide (1 ≤ rd r 29 1) && decide (rd r 29 1 ≤ 128) && zeros r 30 32 &&
      decide (rd r 32 4 + rd r 36 4 ≤ p.live.length) && decide (rd r 40 4 + rd r 44 4 ≤ p.seals) && decide (rd r 44 4 ≤ 1024) &&
      decide (rd r 48 4 + rd r 52 4 ≤ p.funs.length) && decide (1 ≤ rd r 52 4) && funHolds (p.funs.getD (rd r 48 4) []) (rd r 8 8) &&
      decide (rd r 56 4 + rd r 60 4 ≤ p.inits.length) &&
      rising (fun a b => decide (a.loc ≤ b.loc)) live && decide ((live.map (·.id)).Nodup) && live.all (fun l => l.names.all fun n => decide (n < cat.length)) &&
      rising (fun a b => decide (a.2.1 < b.2.1) || (a.2.1 == b.2.1 && decide (a.2.2.1 < b.2.2.1))) ini &&
      ini.all fun e => e.1 == ix && decide (e.2.2.1 < th) && (match cat[e.2.1]? with
        | some n => e.2.2.2.1 == (n.width + 63) / 64 && decide (e.2.2.2.2 < 2 ^ n.width)
        | none => false)
    if ok then some
      { cat := cat, reserve := reserve, threads := th, role := rd r 7 1, entry := 0x2000 + rd r 8 8, tvec := 0x2000 + rd r 16 8,
        gridw := rd r 24 2, gridh := rd r 26 2, folds := rd r 28 1, rows := rd r 29 1, ffirst := rd r 48 4, fcount := rd r 52 4,
        live := live, binds := [], init := ini.map fun e => (e.2.1, e.2.2.1, BitVec.ofNat 528 e.2.2.2.2) }
    else none
/-- Whether every entry-value record lies among those that its kernel's record counts (R392). -/
def initsOk (kerns : List (List Byte)) (inits : List (Nat × Nat × Nat × Nat × Nat)) : Bool :=
  inits.zipIdx.all fun e => match kerns[e.1.1]? with
    | some r => decide (rd r 56 4 ≤ e.2) && decide (e.2 < rd r 56 4 + rd r 60 4)
    | none => false

/-! ## Relocations (R56 to R58) -/

/-- A relocation record (R56): its type, the type of the section it patches and the offset there, the type of the section that holds
the symbol and the offset there, the addend, and the field. -/
structure Reloc where
  ty : Nat
  sect : Nat
  off : Nat
  symSect : Nat
  symOff : Nat
  addend : Int
  lo : Nat
  width : Nat
  shift : Nat
  deriving DecidableEq, Repr

/-- A field of `w` bits at bit `lo` of the number that bytes from `o` on hold, set to `v`. -/
def patchField (b : List Byte) (o n lo w v : Nat) : List Byte :=
  let old := rd b o n
  b.take o ++ (bytesOfNat n (old - fieldOf old lo w * 2 ^ lo + v * 2 ^ lo)).take (b.length - o) ++ b.drop (o + n)

/-- A relocation record as R56 and R57 allow it in an image (R58): it patches CODE, a data section or a seal binding (log 99), and its
symbol lies in DHBM or DCAP; none: the image is invalid. `size`: the bytes of a section that may be patched. -/
def relocOf (l : List Sect) (size : Nat → Nat) (syms : List (List Byte)) (r : List Byte) : Option Reloc :=
  match l[rd r 8 2]?, syms[rd r 12 4]? with
  | some x, some y =>
    let q : Reloc := ⟨rd r 10 2, x.num, rd r 0 8, ((l[rd y 4 2]?).map (·.num)).getD 0, rd y 8 8, (BitVec.ofNat 64 (rd r 16 8)).toInt,
      rd r 24 1, rd r 25 1, rd r 26 1⟩
    if zeros r 27 32 = true ∧ 1 ≤ q.ty ∧ q.ty ≤ 3 ∧ (q.sect ≤ 4 ∨ q.sect = 10) ∧ (q.symSect = 3 ∨ q.symSect = 4) ∧ q.off % 4 = 0 ∧
       q.off + (if q.ty = 1 then 8 else 4) ≤ size q.sect ∧ (q.ty = 1 ∨ (1 ≤ q.width ∧ q.width ≤ 32 ∧ q.lo + q.width ≤ 32 ∧ q.shift ≤ 8))
    then some q else none
  | _, _ => none

/-- The offset of the instruction of CODE that holds an offset: instructions follow one another from offset 0 (R84). -/
def instrStart (code : List Byte) (o : Nat) : Nat → Nat → Nat
  | 0, k => k
  | f + 1, k =>
    let n := match rd code k 1 % 4 with | 0 => 4 | 1 => 12 | 2 => 12 | _ => 20
    if o < k + n then k else instrStart code o f (k + n)

/-- The bytes of the sections a relocation may patch, by type. -/
abbrev SectBytes : Type := List (Nat × List Byte)
/-- Applies a relocation (R57): `base` is the placed base of each section, by type; none: it fails. Outside CODE the P of a FIELDREL is
the address of the patched word (log 99). -/
def Reloc.apply (q : Reloc) (base : Nat → Nat) (m : SectBytes) : Option SectBytes :=
  let b := (getA m q.sect).getD []
  let v : Int := ((base q.symSect + q.symOff : Nat) : Int) + q.addend
  let p := base q.sect + (if q.sect = 1 then instrStart b q.off (b.length / 4 + 1) 0 else q.off)
  let x : Int := if q.ty = 3 then v - p else v
  let d : Int := ((2 ^ q.shift : Nat) : Int)
  let lim : Int := ((2 ^ (q.width - 1) : Nat) : Int)
  if q.ty = 1 then some (putA m q.sect (patchField b q.off 8 0 64 (wrapNat 64 v)))
  else if x % d ≠ 0 ∨ (q.ty = 2 ∧ (x < 0 ∨ x / d ≥ 2 * lim)) ∨ (q.ty = 3 ∧ (x / d < -lim ∨ x / d ≥ lim)) then none
  else some (putA m q.sect (patchField b q.off 4 q.lo q.width (wrapNat q.width (x / d))))
/-- Applies relocations in order. -/
def applyRelocs (base : Nat → Nat) : List Reloc → SectBytes → Option SectBytes
  | [], m => some m
  | q :: l, m => (q.apply base m).bind (applyRelocs base l)

/-! ## The checks of an image (R60) -/

/-- The device's feature mask (R98): bits 0 to 30. -/
def deviceMask : Nat := 2 ^ 31 - 1

/-- A data section outside local memory, DHBM or DCAP: its bytes and its empty words. -/
structure FarData where
  bytes : List Byte
  holes : List Nat
  deriving DecidableEq, Repr

/-- An image that has passed the checks of R60 steps 1 to 3: what LOAD still has to place and to relocate. -/
structure Draft where
  /-- the image, its seal bindings and pages left out -/
  img : Image
  /-- DHBM and DCAP; none: the file has no such section -/
  dhbm : Option FarData
  dcap : Option FarData
  /-- SEALBIND, and for each kernel the index of its first record there and their number -/
  seals : List Byte
  spans : List (Nat × Nat)
  rels : List Reloc
  deriving DecidableEq, Repr

/-- The seal binding records (R48): seal, start, length. -/
def sealRecords (b : List Byte) : List (Nat × Nat × Nat) := ((records b 24).getD []).map fun r => (rd r 0 2, rd r 8 8, rd r 16 8)

/-- The content of an image whose header and sections are sound (R43 to R51, R56, R58, R392), or the status of the first check it fails.
CODE stands at 0x2000 and DLOCAL at a multiple of 4,096 whatever the sections' `align` asks for; a binding for a feature bit of 512 or more
is a breach of R50 and so ends EMUL (DESIGN CHOICE, log 101). -/
def imageBody (b : List Byte) (l : List Sect) : Except Nat Draft :=
  let code := sectBytes b l 1
  let str := (sectBytes b l 14).length
  match dataOf (sectBytes b l 2), dataOf (sectBytes b l 3), dataOf (sectBytes b l 4), catalogs str b.length (sectBytes b l 5) with
  | some (data, holes), some hbm, some cap, some cats =>
    (match records (sectBytes b l 6) 64, records (sectBytes b l 7) 64, records (sectBytes b l 8) 16, liveTables code.length b.length (sectBytes b l 9) with
    | some kerns, some funs, some calls, some live =>
      (match records (sectBytes b l 10) 24, records (sectBytes b l 11) 16, records (sectBytes b l 12) 32, records (sectBytes b l 13) 24, nameInits b.length (sectBytes b l 15) with
      | some seals, some emul, some rels, some syms, some inits =>
        let sites := calls.map fun r => (0x2000 + rd r 0 8, rd r 8 4, rd r 12 1, rd r 13 1, rd r 14 1)
        let p : ImgParts := ⟨str, code.length, cats, live, seals.length, funs, inits⟩
        let ks := kerns.zipIdx.map fun e => kernRecord p e.2 e.1
        let size : Nat → Nat := fun n => match n with
          | 1 => code.length | 2 => data.length | 3 => hbm.1.length | 4 => cap.1.length | 10 => 24 * seals.length | _ => 0
        let qs := rels.map (relocOf l size syms)
        let fmask := rd b 0x40 64
        let binds := emul.map fun r => (rd r 0 2, 0x2000 + rd r 8 8)
        let start := (0x2000 + code.length + 4095) / 4096 * 4096
        if code.length % 4 ≠ 0 ∨ stringsOk (sectBytes b l 14) = false ∨ ks.any (·.isNone) = true ∨ initsOk kerns inits = false ∨
           funs.any (fun r => !funOk r str code.length calls.length) = true ∨
           calls.any (fun r => !(zeros r 15 16 && decide (rd r 8 4 < funs.length) && decide (rd r 0 8 < code.length))) = true ∨
           seals.any (fun r => !(zeros r 2 8 && decide (rd r 0 2 ≤ 1023))) = true ∨
           emul.any (fun r => !(zeros r 2 8 && rd r 8 8 % 4 == 0 && decide (rd r 8 8 < code.length))) = true ∨
           syms.any (fun r => !symOk l str r) = true ∨ qs.any (·.isNone) = true
        then .error stFORMAT
        else if fmask &&& deviceMask ≠ fmask then .error stFEATURE
        else if binds.length > 64 ∨ ¬ (binds.map (·.1)).Nodup ∨ binds.any (fun e => fmask.testBit e.1 || decide (e.1 ≥ 512)) = true then .error stEMUL
        else if (ks.filterMap id).any (fun k => rowsNeeded (k.cat.map (·.width)) k.threads != k.rows || decide (k.rows + k.reserve > 128)) then .error stPACK
        else if 0x2000 + code.length > 0x7_C000 ∨ start + data.length > 0x7_C000 then .error stSPACE
        else .ok
          { img := { handle := 0, code := code, dlocal := start, data := data, empties := holes, kerns := ks.filterMap id,
                     funs := funs.map fun r => funRecord r sites, emul := binds, fmask := BitVec.ofNat 512 fmask, pages := [] }
            dhbm := (sectOf l 3).map fun _ => ⟨hbm.1, hbm.2⟩, dcap := (sectOf l 4).map fun _ => ⟨cap.1, cap.2⟩
            seals := sectBytes b l 10, spans := kerns.map fun r => (rd r 40 4, rd r 44 4), rels := qs.filterMap id }
      | _, _, _, _, _ => .error stFORMAT)
    | _, _, _, _ => .error stFORMAT)
  | _, _, _, _ => .error stFORMAT
/-- An image checked in the order of R60. A file shorter than the header has no magic that could be right: BADMAGIC (DESIGN CHOICE,
log 101). -/
def imageOf (b : List Byte) : Except Nat Draft :=
  if b.length < 128 ∨ rd b 0 4 ≠ 0x1A4F_5947 then .error stBADMAGIC
  else if rd b 4 2 ≠ 1 then .error stVERSION
  else if rd b 8 2 ≠ 2 then .error stKIND
  else
    let l := sections b
    if sectionsOk b l then imageBody b l else .error stFORMAT

/-- The image, its DHBM and its DCAP once every relocation is applied (R57, R58) for the given bases of DHBM and DCAP: RELOC where one
fails, SEALBIND where two bindings of different seals overlap (R48). -/
def Draft.link (d : Draft) (hbase cbase : Nat) : Except Nat (Image × List Byte × List Byte) :=
  let m : SectBytes := [(1, d.img.code), (2, d.img.data), (3, (d.dhbm.map (·.bytes)).getD []), (4, (d.dcap.map (·.bytes)).getD []), (10, d.seals)]
  let base : Nat → Nat := fun n => match n with | 1 => 0x2000 | 2 => d.img.dlocal | 3 => hbase | 4 => cbase | _ => 0
  match applyRelocs base d.rels m with
  | none => .error stRELOC
  | some m =>
    let at_ : Nat → List Byte := fun n => (getA m n).getD []
    let sl := sealRecords (at_ 10)
    if (sl.any fun a => sl.any fun c => a.1 != c.1 && meets a.2.1 a.2.2 c.2.1 c.2.2) then .error stSEALBIND
    else .ok ({ d.img with code := at_ 1, data := at_ 2,
                           kerns := (d.img.kerns.zip d.spans).map fun p => { p.1 with binds := (sl.drop p.2.1).take p.2.2 } }, at_ 3, at_ 4)

/-! ## What a launch makes of an image (R50 to R55, R61) -/

/-- The body of a function at a level, 0 tile, 1 loop, 2 scalar (R52). -/
def ImgFun.body (f : ImgFun) (lvl : Nat) : Nat :=
  if lvl = 0 ∧ f.tile ≠ noBody then f.tile else if lvl ≤ 1 ∧ f.loop ≠ noBody then f.loop else f.scalar
/-- The address at which a kernel's threads start: the selected body of its first function where the entry label starts a body of it
(R51, R52), else the entry label (log 70). -/
def Image.start (im : Image) (k : ImgKern) (lvl : Nat) : Nat :=
  match im.funs[k.ffirst]? with
  | some f => if k.entry = f.tile ∨ k.entry = f.loop ∨ k.entry = f.scalar then f.body lvl else k.entry
  | none => k.entry
/-- The value a call site takes, in its field; none where R53 fails. -/
def Image.site (im : Image) (lvl : Nat) (c : Nat × Nat × Nat × Nat × Nat) : Option Nat :=
  let d : Int := ((im.funs.getD c.2.1 ⟨0, 0, 0, []⟩).body lvl : Int) - c.1
  let q : Int := d / (2 ^ c.2.2.2.2 : Nat)
  let w := c.2.2.2.1
  if d % (2 ^ c.2.2.2.2 : Nat) ≠ 0 ∨ w = 0 ∨ q < -(2 ^ (w - 1) : Nat) ∨ q ≥ (2 ^ (w - 1) : Nat) then none
  else some (wrapNat w q)
/-- CODE with one call site patched. -/
def patchSite (code : List Byte) (c : Nat × Nat × Nat × Nat × Nat) (v : Nat) : List Byte := patchField code (c.1 - 0x2000) 16 c.2.2.1 c.2.2.2.1 v
/-- CODE as a launch patches it; none where a call site fails (R53). -/
def Image.patched (im : Image) (lvl : Nat) : Option (List Byte) :=
  (im.funs.flatMap (·.sites)).foldl (fun acc c => match acc, im.site lvl c with
    | some code, some v => some (patchSite code c v)
    | _, _ => none) (some im.code)

/-- The cells of bytes from a key on, zeros not listed. -/
def cellsOf : Nat → List Byte → List Host.Cell
  | _, [] => []
  | k, b :: bs => if b = 0 then cellsOf (k + 1) bs else (k, b) :: cellsOf (k + 1) bs
/-- The cells that lie in keys [lo, hi) and rise: of cells that do, all. -/
def risingCells (hi : Nat) : Nat → List Host.Cell → List Host.Cell
  | _, [] => []
  | lo, (a, b) :: l => if lo ≤ a ∧ a < hi ∧ b ≠ 0 then (a, b) :: risingCells hi (a + 1) l else risingCells hi lo l
/-- Replaces the content of keys [lo, hi): cells in rising order that lie there. -/
def replaceCells (m : List Host.Cell) (lo hi : Nat) (cs : List Host.Cell) : List Host.Cell :=
  (m.filter fun c => decide (c.1 < lo)) ++ risingCells hi lo cs ++ (m.filter fun c => decide (max lo hi ≤ c.1))
/-- Writes the whole of a tile's local memory: its cells, and the words that are empty; poison goes (R61). -/
def State.fillLocal (s : State) (tile : Nat) (cs : List Host.Cell) (empty : List Nat) : State :=
  let lo := localKey tile 0
  let hi := lo + 2 ^ 19
  let out : Nat → Bool := fun w => decide (8 * w < lo) || decide (hi ≤ 8 * w)
  { s with mem := replaceCells s.mem lo hi cs,
           empties := (s.empties.filter fun w => decide (8 * w < lo)) ++ empty ++ (s.empties.filter fun w => decide (hi ≤ 8 * w)),
           poison := s.poison.filter out, latent := s.latent.filter fun e => out e.1 }
/-- The launch block (R55). -/
def launchBlock (k : ImgKern) (f col row gang arg : Nat) (lid : Word64) : List Byte :=
  [k.gridw, k.gridh, f, f * col, row, gang, lid.toNat, arg].flatMap (bytesOfNat 8)
/-- The emulation table (R50). -/
def Image.emulTable (im : Image) : List Byte :=
  (List.range 512).flatMap fun b => bytesOfNat 8 (if deviceMask.testBit b then 0 else ((im.emul.find? (·.1 == b)).map (·.2)).getD 0)
/-- Writes an image into a tile's local memory (R61). -/
def State.writeImage (s : State) (tile lvl : Nat) (im : Image) (block : List Byte) : State :=
  let k := localKey tile 0
  let cs := cellsOf k block ++ cellsOf (k + 0x1000) im.emulTable ++ cellsOf (k + 0x2000) ((im.patched lvl).getD im.code) ++
    cellsOf (k + im.dlocal) im.data
  s.fillLocal tile cs (im.empties.map fun w => (k + im.dlocal) / 8 + w)

end Sys2Proof.Machine
end

