-- ==== Sys2Proof/Machine/Launch.lean ====
section
/-! DEFINITION. Launches (12 R221 to R232, 03 R50 to R62, 22 R380, R381): binding gangs, leases, the start cycle, status words,
completion, and containment of a graph node (21 R372). -/
namespace Sys2Proof.Machine

/-! ## A launch command (R223, R380) -/

/-- A launch identifier that is not zero and has not been given (R225): the command processor's choice, or, where that choice will not
do, the least number that will. -/
def State.newLid (s : State) : Word64 :=
  let c : Word64 := (Config.lidChoice s.lids).setWidth 64
  if c ≠ 0 ∧ s.usedLids.contains c = false then c
  else (((List.range (s.usedLids.length + 1)).map fun k => n64 (k + 1)).find? fun x => !s.usedLids.contains x).getD 1
/-- The kernels that a LAUNCH entry names, in order. -/
def launchKerns (c : Command) : List LaunchKern :=
  (List.range 8).filterMap fun j =>
    let v := fieldOf (hostArg c (2 + j / 4)) (16 * (j % 4)) 16
    if v = 0xFFFF then none else some ⟨v / 2 ^ 13, v % 2 ^ 13⟩
/-- The factors that every kernel of a bundle accepts (R54). -/
def bundleFolds (ks : List ImgKern) : List Nat := (List.range 8).filterMap fun f => if ks.all fun k => k.folds.testBit f then some (f + 1) else none
/-- The fold factor of a launch (R54); none: BADFOLD. -/
def foldOf (named : Nat) (ks : List ImgKern) : Option Nat :=
  if named = 0 then (bundleFolds ks).head? else if (bundleFolds ks).contains named then some named else none
/-- The level of a launch: 0 tile, 1 loop, 2 scalar (R52). -/
def levelOf (fold cap : Nat) : Nat := if cap = 3 then 2 else if fold = 1 ∧ cap ≤ 1 then 0 else 1
/-- Whether a bundle keeps the rules of R223 and R309. -/
def bundleOk (smp : Bool) (ks : List (LaunchKern × ImgKern)) : Bool :=
  let g := (ks.map fun k => (k.2.gridw, k.2.gridh)).headD (0, 0)
  !ks.isEmpty && ks.all (fun k => (k.2.gridw, k.2.gridh) == g && decide (k.1.sb + k.2.threads ≤ 8)) &&
  (ks.zipIdx.all fun p => (ks.drop (p.2 + 1)).all fun q => p.1.2.role != q.2.role || !meets p.1.1.sb p.1.2.threads q.1.sb q.2.threads) &&
  ((List.range 3).all fun r => decide (((ks.filter fun k => k.2.role == r).map fun k => k.2.rows + k.2.reserve).sum ≤ 128)) &&
  (!smp || ks.any fun k => k.2.role == 0 && k.1.sb == 7 && k.2.threads == 1)
/-- Adds bindings one after another (R248); none where one is refused. -/
def addBinds (t : List SBind) : List (Nat × Nat × Nat) → Option (List SBind)
  | [] => some t
  | (k, a, n) :: l =>
    if a % 8 ≠ 0 ∨ n % 8 ≠ 0 ∨ n = 0 ∨ a < 0x8_0000 ∨ a + n > 0xE0_0000_0000_0000 then none
    else match addBind t ⟨k, a, n⟩ with
      | .inl t' => addBinds t' l
      | .inr _ => none

/-- The width and height of gang `g` of a launch of pw x h tiles, and its first column and row (R54). -/
def gangShape (pw h g : Nat) : Nat × Nat × Nat × Nat :=
  let n := (pw + 7) / 8
  let x := 8 * (g % n)
  let y := 8 * (g / n)
  (min 8 (pw - x), min 8 (h - y), x, y)
/-- The physical columns of a launch (R54). -/
def Launch.pw (l : Launch) : Nat := (l.grid.1 + l.fold - 1) / l.fold

/-- The image of a handle. -/
def State.image? (s : State) (h : BitVec 32) : Option Image := s.images.find? fun i => i.handle == h
/-- The launch a predecessor's identifier names: an attempt's identifier names its node (R372). -/
def State.pred? (s : State) (lid : Word64) : Option Launch := s.launches.find? fun l => l.lid == lid || l.old.contains lid

/-- What a LAUNCH entry makes: a launch and the context's bindings, or the status it fails with (R54, R223, R248, R380). Where several
statuses apply, the first of NOHANDLE (image, context, predecessor), BADCMD, BUNDLE, BADFOLD, RELOC and SEALBIND is reported (DESIGN CHOICE,
log 103: the manual gives no order). -/
def State.launchOf (s : State) (c : Command) : Except Nat (Launch × Image × List SBind) :=
  let w0 := hostArg c 0
  let w1 := hostArg c 1
  if fieldOf w0 48 8 ≠ 0 ∨ fieldOf w0 32 8 ≠ 0 ∨ fieldOf w1 0 4 ≠ 0 then .error stBADCMD
  else match s.image? (BitVec.ofNat 32 (w1 / 2 ^ 32)), s.context? (fieldOf w1 16 16) with
    | some im, some cx =>
      let deps := (List.range (fieldOf w0 40 8)).map fun k => n64 (s.hostWord (hostArg c 7 + 8 * k))
      let lk := launchKerns c
      let ks := lk.filterMap fun k => (im.kerns[k.kern]?).map fun r => (k, r)
      let smp := w1.testBit 9
      if deps.any (fun d => (s.pred? d).isNone) then .error stNOHANDLE
      else if ks.length ≠ lk.length then .error stBADCMD
      else if bundleOk smp ks = false then .error stBUNDLE
      else match foldOf (fieldOf w1 12 4) (ks.map (·.2)) with
        | none => .error stBADFOLD
        | some f =>
          let lvl := levelOf f (fieldOf w1 10 2)
          match im.patched lvl, addBinds cx.sbind (ks.flatMap fun k => k.2.binds) with
          | none, _ => .error stRELOC
          | _, none => .error stSEALBIND
          | some _, some t =>
            let g := (ks.map fun k => (k.2.gridw, k.2.gridh)).headD (1, 1)
            let pw := (g.1 + f - 1) / f
            .ok ({ lid := s.newLid, old := [], q := c.q, tag := hostTag c, img := im.handle, ctx := cx.id, kerns := lk, fold := f, lvl := lvl,
                   smp := smp, contain := w1.testBit 8, retry := fieldOf w1 5 3, attempts := 0, anyway := w1.testBit 4,
                   arg := n64 (hostArg c 4), ws := (n64 (hostArg c 5), n64 (hostArg c 6)), deps := deps, grid := g, nextGang := 0, red := false, held := true,
                   gangs := (pw + 7) / 8 * ((g.2 + 7) / 8), words := [], contained := false, preCmd := [], resCmd := none, done := none, rgang := 0 }, im, t)
    | _, _ => .error stNOHANDLE

/-- LAUNCH (R223, R380): the launch is taken, its bind records follow; or the command fails. -/
def execLaunch (cmd : Command) (s : State) : Host.Outcome State Fault Refusal :=
  match s.launchOf cmd with
  | .error st => .next (s.complete cmd st 0)
  | .ok (l, _, t) =>
    let s1 := s.modContext l.ctx fun x => { x with sbind := t }
    .next { s1 with launches := s1.launches ++ [l], lids := s1.lids + 1, usedLids := l.lid :: s1.usedLids,
                    journal := s1.journal.map fun j => if j.q = (qIx cmd.q).val ∧ j.tag = hostTag cmd then { j with lid := l.lid } else j }

/-! ## Loading rows and images (R62, R225, R226) -/

/-- The threads its kernels bind on each tile. -/
def Gang.perTile (g : Gang) : Nat := (g.kerns.map fun k => k.nt + 1).sum
/-- Physical rows of a core that kernels hold, or that are written for a kernel to come (R226). -/
def Core.heldRows (c : Core) : List Nat := (c.kernels.flatMap fun k => k.phys.drop k.freed) ++ c.claims.flatMap (·.rows)
/-- Its free rows, in rising order. -/
def Core.freeRows (c : Core) : List Nat := let u := c.heldRows; (List.range 128).filter fun r => !u.contains r
/-- The gangs of a die that wait for rows or images, by slot-table entry (R225). -/
def State.waiting (s : State) (die : Nat) : List Gang :=
  (List.range 64).filterMap fun k => (s.gang? (64 * die + k)).bind fun g =>
    if (g.st = .pending ∨ g.st = .loading) ∧ (¬ g.rowsLeft.isEmpty ∨ ¬ g.imagesLeft.isEmpty) then some g else none
/-- The live-range tables of a kernel that its tile's checkpoint match table holds: of those of all the bundle's kernels in order of `at`, the
first 64 (R236); tables at one address in order of position. -/
def matchTables (im : Image) (g : Gang) (pos : Nat) : List LiveRange :=
  let all := g.kerns.zipIdx.flatMap fun b => (((im.kerns[b.1.kern]?).map (·.live)).getD []).zipIdx.map fun l => (l.1.loc, b.2, l.2)
  let own := ((g.kerns[pos]?).bind fun b => (im.kerns[b.kern]?).map (·.live)).getD []
  (own.zipIdx.filter fun l => decide ((all.filter fun o =>
    decide (o.1 < l.1.loc) || (o.1 == l.1.loc && (decide (o.2.1 < pos) || (o.2.1 == pos && decide (o.2.2 < l.2))))).length < 64)).map (·.1)

/-- Rows in increasing order (R72). -/
def insRow (r : Nat) : List Nat → List Nat
  | [] => [r]
  | x :: l => if r ≤ x then r :: x :: l else x :: insRow r l

/-- A thread as a bind record and its kernel give it (R62, R119, R159, R246, R381): thread t of the kernel is hardware thread `h` of core `c`,
whose return-stack spill area it gets (log 95). -/
def bindThread (cx : Option Context) (im : Image) (k : ImgKern) (lvl c h t : Nat) (slot : Option Nat) : Thread :=
  let ps := (cx.map (·.psize)).getD 0
  let pb := (cx.map (·.pbase)).getD 0
  { Thread.fresh with
    st := .loading, pc := im.start k lvl
    names := (List.range k.cat.length).map fun n => ((k.init.find? fun e => e.1 == n && e.2.1 == t).map (·.2.2)).getD 0
    tvec := BitVec.ofNat 19 k.tvec
    rsBase := BitVec.ofNat 16 ((0x7_D000 + 512 * (8 * c + h)) / 8), rsLim := 64
    privG := BitVec.ofNat 40 (match slot with | some j => pb / 2 ^ 16 + j * ps | none => 0)
    privSz := BitVec.ofNat 17 ps, privSlot := slot
    sealb := (cx.map (·.sealb)).getD 0 }

/-- Loads a kernel of a gang onto a core of a tile once its rows are all written: its catalogue and its threads, LOADING (R62, R218). -/
def State.loadKernel (s : State) (g : Gang) (tile pos : Nat) (rows : List Nat) : State :=
  match g.kerns[pos]?, s.image? g.img with
  | some b, some im =>
    (match im.kerns[b.kern]? with
    | some k =>
      let r : CoreRef := ⟨tile, roleCore b.role⟩
      let c := s.core r
      let before := ((g.kerns.take pos).map fun x => x.nt + 1).sum
      let ix := ((s.gangTiles g).idxOf tile) * g.perTile + before
      let kn : Kernel := { sb := b.sb, n := b.nt + 1, cat := k.cat, decl := k.cat, rows := k.rows, reserve := k.reserve,
                           phys := rows.foldl (fun l x => insRow x l) [], freed := 0, relCyc := 0, entry := im.start k g.lvl, tvec := k.tvec, pos := pos, kern := b.kern,
                           gang := g.id, lid := g.lid, ctx := g.ctx, live := matchTables im g pos }
      let ths := (List.range (b.nt + 1)).foldl (fun (v : Vector Thread 8) t =>
        if h : b.sb + t < 8 then v.set (b.sb + t) (bindThread (s.context? g.ctx) im k g.lvl r.core.val (b.sb + t) t (g.slots[ix + t]?)) else v) c.threads
      (s.setCore r { c with kernels := c.kernels ++ [kn], threads := ths,
                            claims := c.claims.filter fun x => !(x.gang == g.id && x.pos == pos) }).modGang g.id fun x =>
        { x with rowsLeft := x.rowsLeft.filter fun p => p != (tile, pos) }
    | none => s)
  | _, _ => s
/-- Gives a kernel of a waiting gang the free rows of its core that it still claims (R225, R226): each is written in the next cycle, and the
kernel is loaded once it has them all and no older kernel holds its threads. -/
def State.claimRows (s : State) (r : CoreRef) (g : Gang) (pos : Nat) : State :=
  match g.kerns[pos]? with
  | none => s
  | some b =>
    let c := s.core r
    let old := ((c.claims.find? fun x => x.gang == g.id && x.pos == pos).map (·.rows)).getD []
    let new := c.freeRows.take (b.l - old.length)
    let s1 := if new.isEmpty then s
      else (s.setCore r { c with claims := (c.claims.filter fun x => !(x.gang == g.id && x.pos == pos)) ++ [⟨g.id, pos, old ++ new⟩] }).modGang g.id
        fun x => { x with st := .loading, written := max x.written (s.cycle + 1) }
    if (old ++ new).length = b.l ∧ c.kernels.all (fun k => !meets k.sb k.n b.sb (b.nt + 1)) = true then s1.loadKernel g r.tile pos (old ++ new) else s1
/-- Whether a gang that waits names a hardware thread of a core (R218). -/
def State.named (s : State) (r : CoreRef) (h : Fin 8) : Bool :=
  s.gangs.any fun g => g.rowsLeft.any fun p => p.1 == r.tile && (match g.kerns[p.2]? with
    | some b => roleCore b.role == r.core && decide (b.sb ≤ h.val) && decide (h.val ≤ b.sb + b.nt)
    | none => false)
/-- A core whose threads without a kernel are LOADING where a bind record names them, EMPTY elsewhere (R218). -/
def State.settleNames (s : State) (r : CoreRef) : State :=
  let c := s.core r
  s.setCore r (c.modThreads ((List.finRange 8).filter fun h => (c.kernelOf h).isNone) fun h x => { x with st := if s.named r h then .loading else .empty })
/-- Loads on a core what its free rows allow, a lower entry first (R225). -/
def State.loadCore (s : State) (r : CoreRef) : State :=
  let mine : Gang → List Nat := fun g => (g.rowsLeft.filter fun p => p.1 == r.tile &&
    (match g.kerns[p.2]? with | some k => roleCore k.role == r.core | none => false)).map (·.2)
  ((s.waiting (tileDie r.tile)).foldl (fun (z : State) g => (mine g).foldl (fun (y : State) j => y.claimRows r g j) z) s).settleNames r

/-- The array of a tile between two gangs: its planes are empty (R196), its configuration holds until the next `mx.cfg` (R126, log 111). -/
def MxArray.cleared (m : MxArray) : MxArray := { MxArray.fresh with cfg := m.cfg }
/-- What a tile's lease gives up between two images: the state that every launch starts anew (R61, R169, R196, R277). -/
def Tile.renew (t : Tile) (gang : Nat) (smp : Bool) : Tile :=
  { t with gang := some gang, image := some gang, mx := t.mx.cleared, guards := Vector.replicate 32 ⟨.pend, .pend, 0⟩, crewP := 0, crewStat := [],
           crewSum := [], child := [], sent := [], capBusy := none, capHas := [],
           cores := if smp then t.cores.set 2 { t.cores[2] with smp := true } else t.cores }
/-- Writes the image of the lowest entry that waits for a tile, where the tile's image is free (R225, R226). -/
def State.loadTile (s : State) (tile : Nat) : State :=
  if (s.tile tile).image.isSome then s
  else match (s.waiting (tileDie tile)).find? fun g => g.imagesLeft.contains tile with
    | none => s
    | some g =>
      let s1 := (s.setTile tile ((s.tile tile).renew g.id g.smp)).modGang g.id fun x => { x with st := .loading, imagesLeft := x.imagesLeft.erase tile,
                                                                                                  written := max x.written (s.cycle + 1) }
      if g.resume.isSome then s1
      else match s.image? g.img, s.launch? g.lid with
        | some im, some l =>
          let k := (l.kerns.head?.bind fun k => im.kerns[k.kern]?)
          let sh := gangShape l.pw l.grid.2 g.num
          let p := s.gangPos g tile
          (match k with
          | some k => s1.writeImage tile g.lvl im (launchBlock k g.fold (sh.2.2.1 + p.1) (sh.2.2.2 + p.2) g.num l.arg.toNat g.lid)
          | none => s1)
        | _, _ => s1
/-- Loads everything that a gang's tiles allow now. -/
def State.loadGang (s : State) (g : Gang) : State :=
  (s.gangTiles g).foldl (fun (z : State) t => ((([0, 1, 2] : List (Fin 3)).foldl (fun (y : State) c => y.loadCore ⟨t, c⟩) z).loadTile t)) s

/-! ## Bind records (R224, R225) -/

/-- The free private slots of a context, lowest first, up to a number (R381). -/
def Context.freeSlots (c : Context) (n : Nat) : List Nat := ((List.range c.pslots).filter fun j => !c.pused.contains j).take n
/-- Whether a place can take a gang of a shape: a FREE entry and a rectangle of one cluster, of a die whose command processor runs (R225, R373, R387). -/
def State.placeOk (s : State) (red : Bool) (p : Place) (gw gh : Nat) : Bool :=
  decide (p.die < 2) && s.cpDown[p.die]? == some false && decide (p.slot < 64) && (s.gang? (64 * p.die + p.slot)).isNone && decide (p.clu < (if red then 1 else 20)) &&
  decide (p.col0 + gw ≤ 8) && decide (p.row0 + gh ≤ 8) && p.save % 2 ^ 16 == 0 && decide (p.save < 2 ^ 56)
/-- Whether a launch binds under the reduced service: as its first gang did (R387). -/
def State.bindsReduced (s : State) (l : Launch) : Bool := if l.nextGang = 0 then s.red else l.red
/-- Whether a launch's predecessors have completed (R225). -/
def State.depsDone (s : State) (l : Launch) : Bool := l.deps.all fun d => match s.pred? d with | some p => p.done.isSome | none => true
/-- Whether a predecessor reports traps, and the launch does not ask to be bound all the same (R232). -/
def State.depsTrapped (s : State) (l : Launch) : Bool :=
  !l.anyway && l.deps.any fun d => match s.pred? d with
    | some p => (match p.done with | some (w, _) => fieldOf w.toNat 32 12 != 0 | none => false)
    | none => false
/-- Whether a weight-store region that a launch lists is being written (R161). -/
def State.wsHeld (s : State) (l : Launch) : Bool :=
  s.wsWriting.any fun p => if p.1 = 0 then l.ws.1.getLsbD p.2 else l.ws.2.getLsbD p.2

/-- The next gang of a launch, ready to be written at a place; none where it may not be yet. -/
def State.nextRecord (s : State) (l : Launch) (p : Place) : Option (Gang × List Nat) :=
  match s.image? l.img, s.context? l.ctx with
  | some im, some cx =>
    let sh := gangShape l.pw l.grid.2 l.nextGang
    let ks : List BindKern := l.kerns.filterMap fun k => (im.kerns[k.kern]?).map fun r => ⟨k.kern, r.role, k.sb, r.threads - 1, r.rows + r.reserve⟩
    let need := if cx.psize = 0 then 0 else sh.1 * sh.2.1 * (ks.map fun k => k.nt + 1).sum
    let slots := cx.freeSlots need
    if l.done.isSome ∨ l.contained = true ∨ l.gangs ≤ l.nextGang ∨ s.depsDone l = false ∨ s.depsTrapped l = true ∨ s.wsHeld l = true ∨
       s.saved.any (fun v => v.gang.lid == l.lid) = true ∨ l.preCmd.isEmpty = false ∨ s.placeOk (s.bindsReduced l) p sh.1 sh.2.1 = false ∨ slots.length < need then none
    else
      let g : Gang :=
        { die := p.die, slot := p.slot, st := .pending, lid := l.lid, num := l.nextGang, clu := p.clu, col0 := p.col0, row0 := p.row0,
          gw := sh.1 - 1, gh := sh.2.1 - 1, fold := l.fold, lvl := l.lvl, img := l.img, save := p.save, kerns := ks, ctx := l.ctx, smp := l.smp,
          red := s.bindsReduced l, start := 0, imagesLeft := [], rowsLeft := [], written := 0, slots := slots, back := [], barP := 0, barStat := [], barSum := [], groups := [], geps := 0, tours := [],
          preempt := none, resume := none }
      let ts := s.gangTiles g
      some ({ g with imagesLeft := ts, rowsLeft := ts.flatMap fun t => (List.range ks.length).map fun j => (t, j) }, slots)
  | _, _ => none

/-- Where a saved gang's tile `k` comes to stand in the gang's new place. -/
def State.movedTile (s : State) (v : Saved) (g : Gang) (k : Nat) : Nat :=
  match v.old.idxOf? k with | some i => (s.gangTiles g).getD i k | none => k
/-- Whether a saved gang holds a member of a vector group that another gang's thread leads (R207). -/
def Saved.linked (v : Saved) : Bool :=
  v.tiles.any fun t => (List.finRange 8).any fun h => match (t.cores[2].threads[h]).vgLeader with
    | some l => !v.old.contains l.tile
    | none => false
/-- The saved gangs that must be bound and started together with one (R207). -/
def State.linkedTo (s : State) (v : Saved) : List Saved :=
  let l := s.saved.filter fun w => w.gang.lid == v.gang.lid && w.back
  if l.any Saved.linked then l else [v]
/-- The shift of a gang's rectangle between two places: die, row, column. -/
def Gang.shift (g o : Gang) : Nat × Int × Int :=
  (g.die, ((8 * (g.clu / 5) + g.row0 : Nat) : Int) - (8 * (o.clu / 5) + o.row0 : Nat), ((8 * (g.clu % 5) + g.col0 : Nat) : Int) - (8 * (o.clu % 5) + o.col0 : Nat))

/-- BIND_RECORD_WRITE: the command processor writes a gang's bind record into a FREE entry (R224, R225): of a gang that resumes (R240),
else of the launch's next gang. What its tiles have free is loaded at once. -/
def execBindRecordWrite (lid : BitVec 64) (place : Place) (s : State) : Host.Outcome State Fault Refusal :=
  match s.launch? lid with
  | none => .refused (.notEnabled "BIND_RECORD_WRITE: no such launch")
  | some l =>
    let bound : Saved → Bool := fun v => s.gangs.any fun g => g.lid == lid && g.num == v.gang.num
    match s.saved.find? fun v => v.gang.lid == lid && v.back && !bound v with
    | some v =>
      let o := v.gang
      let g : Gang := { o with die := place.die, slot := place.slot, st := .pending, clu := place.clu, col0 := place.col0, row0 := place.row0,
                               preempt := none, resume := some v.base, start := 0, written := 0 }
      let ts := s.gangTiles g
      let g' := { g with imagesLeft := ts, rowsLeft := ts.flatMap fun t => (List.range g.kerns.length).map fun j => (t, j) }
      let twins := (s.linkedTo v).filterMap fun w => (s.gangs.find? fun x => x.lid == lid && x.num == w.gang.num).map fun x => x.shift w.gang
      if s.placeOk l.red place (o.gw + 1) (o.gh + 1) = false ∨ twins.any (fun x => x != g.shift o) = true ∨ s.wsHeld l = true then
        .refused (.notEnabled "BIND_RECORD_WRITE: the place does not fit the saved gang")
      else .next ({ s with gangs := s.gangs ++ [g'] }.loadGang g')
    | none =>
      match s.nextRecord l place with
      | none => .refused (.notEnabled "BIND_RECORD_WRITE: no gang can be bound there")
      | some (g, slots) =>
        let s1 := (s.modContext l.ctx fun c => { c with pused := c.pused ++ slots }).modLaunch lid fun x =>
          { x with nextGang := x.nextGang + 1, red := s.bindsReduced l, held := x.held && decide (l.nextGang + 1 ≠ l.gangs) }
        let s2 := if l.nextGang + 1 = l.gangs ∧ l.held = true then s1.freeQueue l.q else s1
        .next ({ s2 with gangs := s2.gangs ++ [g] }.loadGang g)

/-! ## Leases released (R226) -/

/-- Whether a kernel may release its rows (R226): its threads there HALTED, no command unfinished, its tile's status word sent. -/
def State.releasing (s : State) (r : CoreRef) (k : Kernel) : Bool :=
  let t := s.tile r.tile
  let c := s.core r
  let own : Fin 3 → Fin 8 → Bool := fun co h => co == r.core && decide (k.sb ≤ h.val) && decide (h.val < k.sb + k.n)
  k.hthreads.all (fun h => c.threads[h].st == .halted) && t.sent.contains k.pos && t.gang == some k.gang &&
  !(c.cbuf.any fun b => own r.core b.h) && !((List.finRange 2).any fun e => (List.finRange 4).any fun q => (t.eng[e].queues[q]).any fun x => own x.core x.h) &&
  !(t.mx.queue.any fun m => own m.core m.h)
/-- Whether it releases a row in this cycle: one row per cycle (R226). -/
def State.releasesNow (s : State) (r : CoreRef) (k : Kernel) : Bool := k.relCyc != s.cycle + 1 && s.releasing r k
/-- A core without a kernel: its threads EMPTY, its deque gone with its owner (R218, R226). -/
def Core.without (c : Core) (k : Kernel) : Core :=
  let c1 := c.modThreads k.hthreads fun _ _ => Thread.fresh
  let c2 := { c1 with kernels := c1.kernels.filter fun o => o.sb != k.sb, replies := c1.replies.filter fun p => !k.hthreads.contains p.h }
  if c.dqOwner = some k.sb then { c2 with dq := [], shead := 0, scnt := 0, dqOwner := none } else c2
/-- A context without some private slots in use. -/
def State.freeSlots (s : State) (ctx : Nat) (l : List Nat) : State :=
  s.modContext ctx fun c => { c with pused := c.pused.filter fun j => !l.contains j }

/-- LEASE_ROW_RELEASE: the next row, in logical order, of each kernel of a core that gives up its rows goes free, the last one with the lease;
an entry that waits for rows takes what it can (R225, R226). -/
def execLeaseRowRelease (k : CoreRef) (s : State) : Host.Outcome State Fault Refusal :=
  let c := s.core k
  match c.kernels.find? fun x => s.releasesNow k x with
  | none => .refused (.notEnabled "LEASE_ROW_RELEASE: no kernel releases a row in this cycle")
  | some x =>
    let s1 := if x.freed + 1 < x.phys.length then s.setCore k (c.modKernel x.sb fun y => { y with freed := y.freed + 1, relCyc := s.cycle + 1 })
      else
        let slots := x.hthreads.filterMap fun h => c.threads[h].privSlot
        ((s.setCore k (c.without x)).freeSlots x.ctx slots).modGang x.gang fun g => { g with back := g.back ++ slots }
    .next (s1.loadCore k)

/-- Every PREEMPT of a launch completes once no gang of its launch is bound any more: with the base of the first gang saved, or NOHANDLE where every gang
came to its end before it could be saved (R236, log 73). -/
def State.settlePre (s : State) (lid : Word64) : State :=
  match s.launch? lid with
  | some l =>
    if l.preCmd.isEmpty = true ∨ s.gangs.any (fun g => g.lid == lid) = true then s
    else
      let bases := (List.range l.gangs).filterMap fun k => (s.saved.find? fun v => v.gang.lid == lid && v.gang.num == k).map (·.base)
      let end_ : State → Nat × BitVec 32 → State := fun z p => match bases.head? with
        | some b => (z.freeQueue p.1).postDone p.1 p.2 0 (n64 b)
        | none => (z.freeQueue p.1).postDone p.1 p.2 stNOHANDLE 0
      l.preCmd.foldl end_ (s.modLaunch lid fun x => { x with preCmd := [] })
  | none => s

/-- IMAGE_RELEASE: a tile's image goes free once every kernel of its gang there has released its rows, and the image of an entry that
waits for it is written; the entry of a gang that holds no tile any more is FREE (R225, R226). -/
def execImageRelease (tile : Nat) (s : State) : Host.Outcome State Fault Refusal :=
  let t := s.tile tile
  match t.image with
  | none => .refused (.notEnabled "IMAGE_RELEASE: the image is free")
  | some g =>
    let busy := (List.finRange 3).any fun c => t.cores[c].kernels.any fun k => k.gang == g
    match s.gang? g with
    | none => .refused (.notEnabled "IMAGE_RELEASE: no gang holds it")
    | some x =>
      if busy || !(decide (x.st = .live) || decide (x.st = .draining)) then .refused (.notEnabled "IMAGE_RELEASE: a kernel still holds rows")
      else
        let s1 := s.setTile tile { t with gang := none, image := none, cores := if x.smp then t.cores.set 2 { t.cores[2] with smp := false } else t.cores }
        let s2 := if (s1.gangTiles x).any fun k => (s1.tile k).image == some g then s1 else ({ s1 with gangs := s1.gangs.filter fun y => y.id != g }).settlePre x.lid
        .next (s2.loadTile tile)

/-! ## Status words (R231, R232) -/

/-- A gang's completion word for a kernel reaches the command processor (R232). -/
def State.takeWord (s : State) (lid : Word64) (num kern : Nat) (w : Word64) : State := s.modLaunch lid fun l => { l with words := l.words ++ [(num, kern, w)] }
/-- A die's command processor has restarted (R373): it takes what waits in its completion queue. -/
def State.cpRestarted (s : State) (d : Nat) : Host.Outcome State Fault Refusal :=
  let die : Fin 2 := ⟨d % 2, Nat.mod_lt _ (by decide)⟩
  if s.cpDown[die] then
    .next (s.cpq[die].foldl (fun (z : State) m => match m with | .word l n k w => z.takeWord l n k w | .record => z)
      { s with cpDown := s.cpDown.set die false, cpq := s.cpq.set die [] })
  else .refused (.notEnabled "CP_LOCKSTEP_RESET: the command processor runs")
/-- STATUS_WORD_ARRIVE: a tile's status word for one kernel reaches its parent, or from the root the command processor; while that restarts, its
die's completion queue, and where that is full the root holds the word (R231, R232, R373). -/
def execStatusWordArrive (tile kern : Nat) (s : State) : Host.Outcome State Fault Refusal :=
  let home : StatusMsg → Option Gang := fun m => s.gangs.find? fun g => g.lid == m.lid && g.num == m.num && (g.st == .live || g.st == .draining) && s.gangTile g m.pos.1 m.pos.2 == tile
  match s.flying.find? fun m => m.kern == kern && decide (m.due ≤ s.cycle) && (home m).isSome with
  | none => .refused (.notEnabled "STATUS_WORD_ARRIVE: no word of the tile arrives")
  | some m =>
    let s1 := { s with flying := s.flying.erase m }
    if m.pos = (0, 0) then
      (match home m with
      | some g =>
        let die : Fin 2 := ⟨g.die % 2, Nat.mod_lt _ (by decide)⟩
        if s.cpDown[die] = false then .next (s1.takeWord m.lid m.num kern m.word)
        else if s.cpq[die].length < 64 then .next { s1 with cpq := s1.cpq.set die (s1.cpq[die] ++ [.word m.lid m.num kern m.word]) }
        else .refused (.notEnabled "STATUS_WORD_ARRIVE: the completion queue is full, and the gang's root holds its word")
      | none => .next s)
    else match home m with
      | none => .next s
      | some g =>
        let q := if m.pos.1 > 0 then s.gangTile g (m.pos.1 - 1) m.pos.2 else s.gangTile g 0 (m.pos.2 - 1)
        .next ((s1.setTile q { s1.tile q with child := (s1.tile q).child ++ [(kern, m.word)] }).sendWords q)

/-- The combined status word of a launch (R223, R232), and the gang of the thread it reports: by gang, then tile, then position in the bundle,
then thread. -/
def Launch.combined (l : Launch) : Nat × Nat :=
  let key : (Nat × Nat × Word64) → Nat := fun e => e.1 * 2 ^ 12 + fieldOf e.2.2.toNat 50 6 * 2 ^ 6 + e.2.1 * 2 ^ 3 + fieldOf e.2.2.toNat 47 3
  l.words.foldl (fun (acc : Nat × Nat × Nat) e =>
    let w := e.2.2.toNat
    let better := fieldOf w 56 8 ≠ 0 ∧ (fieldOf acc.2.1 56 8 = 0 ∨ key e < acc.1)
    (if better then key e else acc.1, joinWords (fun x => if better then (if x = w then 0 else 1) else (if x = acc.2.1 then 0 else 1)) acc.2.1 w,
     if better then e.1 else acc.2.2)) (0, 0, 0) |>.2

/-- LAUNCH_COMPLETE: every word has come in, and the launch's completion is posted; or a node whose predecessor reports traps completes
SKIPPED (R223, R232). -/
def execLaunchComplete (lid : BitVec 64) (s : State) : Host.Outcome State Fault Refusal :=
  match s.launch? lid with
  | none => .refused (.notEnabled "LAUNCH_COMPLETE: no such launch")
  | some l =>
    let finish : Nat → Nat → State := fun st w =>
      (s.modLaunch lid fun x => { x with done := some (n64 w, st), rgang := l.combined.2 }).postDone l.q l.tag st (n64 w)
    if l.done.isSome ∨ l.contained = true ∨ s.cpDown[(0 : Fin 2)] = true then .refused (.notEnabled "LAUNCH_COMPLETE: it has completed, or is to be contained, or the command processor restarts")
    else if l.nextGang = 0 ∧ s.depsDone l = true ∧ s.depsTrapped l = true then .next ((finish stSKIPPED 0).freeQueue l.q)
    else if l.words.length = l.gangs * l.kerns.length then .next (finish 0 l.combined.1)
    else .refused (.notEnabled "LAUNCH_COMPLETE: words are missing")

/-! ## The start cycle (R221) -/

/-- The threads of a gang in one state pass to another. -/
def State.setStates (s : State) (ts : List ThreadRef) (a b : TState) : State :=
  ts.foldl (fun (z : State) t => if (z.thread t).st = a then z.setThread t { z.thread t with st := b } else z) s

/-! ## Containment (R372) -/

/-- A tile without what a gang has in it: its kernels, its engine and matrix work, its threads' misses; the image goes free. -/
def Tile.drop (t : Tile) (g : Nat) (smp : Bool) : Tile :=
  let mine : Fin 3 → Fin 8 → Bool := fun c h => match t.cores[c].kernelOf h with | some k => k.gang == g | none => false
  let held := t.gang == some g
  -- misses of the gang's threads, of its engine commands, and of the side log where none of another gang needs them
  let gone : Miss → Bool := fun m => match m.thr, m.queue with
    | some p, _ => mine p.1 p.2
    | none, some q => (List.finRange 2).any fun e => e.val == q.1 && (List.finRange 4).any fun k => k.val == q.2 &&
        (match (t.eng[e].queues[k]).head? with | some c => c.gang == g | none => false)
    | none, none => !(t.side.any fun e => e.ctx == m.ctx && granuleOf e.addr == granuleOf m.va && !mine e.core e.h)
  let clean : Fin 3 → Core := fun c =>
    let x : Core := t.cores[c]
    let y : Core := (x.kernels.filter fun k => k.gang == g).foldl (fun (z : Core) k => z.without k) x
    { y with cbuf := x.cbuf.filter (fun b => !mine c b.h), claims := x.claims.filter fun m => m.gang != g, stealMsgs := if held then [] else x.stealMsgs, tourFlag := x.tourFlag && !held,
             repack := x.repack.filter fun (r : Repack) => !mine c r.h,
             submitted := x.submitted - (x.cbuf.filter fun b => mine c b.h && b.words.length == b.need).length -
               ((List.finRange 2).map fun e => ((List.finRange 4).map fun q => ((t.eng[e].queues[q]).filter fun q => q.core == c && q.gang == g).length).sum).sum,
             smp := if smp && held then false else x.smp }
  let t1 := { t with
    cores := Vector.ofFn clean, eng := t.eng.map fun e => { e with queues := e.queues.map fun q => q.filter fun c => c.gang != g },
    board := t.board.filter fun e => match e.owner with
      | .eng k id => !((List.finRange 2).any fun j => j.val == k && (List.finRange 4).any fun q => (t.eng[j].queues[q]).any fun c => c.id == id && c.gang == g)
      | .mx c h => !mine c h,
    misses := t.misses.map fun (m : Miss) => if gone m then { m with dead := true } else m }
  if held then { t1 with gang := none, image := none, capBusy := none, capHas := [], child := [], sent := [], crewStat := [], mx := t.mx.cleared,
                         guards := Vector.replicate 32 ⟨.pend, .pend, 0⟩ } else t1

/-- The entries of a launch's threads in a side log are discarded, with a fault record each and no trap (R372). -/
def State.discardSide (s : State) (tile : Nat) (l : List SideEntry) : State :=
  l.foldl (fun (x : State) e => (x.count ⟨tile, e.core⟩ 4).discardEntry tile e.core e.h e.ctx e.kind e.addr 3 none) s
/-- What a launch's threads have left in a tile, those released too: its side-log entries and the shadows that its commands made (R372). -/
def State.dropNode (s : State) (lid : Word64) (tile : Nat) : State :=
  let t := s.tile tile
  let s1 := (s.setTile tile { t with side := t.side.filter fun e => e.lid != lid }).discardSide tile (t.side.filter fun e => e.lid == lid)
  ([0, 1, 2] : List (Fin 3)).foldl (fun (x : State) c => x.dropShadows ⟨tile, c⟩ fun h => h.lid == lid) s1
/-- The private slots that a gang's threads still have go free (R381). -/
def State.freeGang (s : State) (g : Gang) : State := s.freeSlots g.ctx (g.slots.filter fun j => !g.back.contains j)
/-- The saved gangs of a launch are gone (R372): their side-log entries and shadows are discarded, their private slots free. -/
def State.dropSaved (s : State) (lid : Word64) : State :=
  (s.saved.filter fun v => v.gang.lid == lid && !v.back).foldl (fun (z : State) v =>
    let z1 := (v.old.zip v.tiles).foldl (fun (y : State) p =>
      (p.2.cores.toList.flatMap (·.shadows)).foldl (fun (x : State) h => x.poolAdd h.ctx h.new) (y.discardSide p.1 p.2.side)) z
    z1.freeGang v.gang) { s with saved := s.saved.filter fun v => v.gang.lid != lid }

/-- CONTAIN_NODE: a poison or a fault in a containable node ends the attempt (R372): its threads become EMPTY, its engine and `cap` work is
abandoned, its shadows and side-log entries are discarded, its leases are released, and the node is bound again under a new identifier. -/
def execContainNode (lid : BitVec 64) (s : State) : Host.Outcome State Fault Refusal :=
  match s.launch? lid with
  | none => .refused (.notEnabled "CONTAIN_NODE: no such launch")
  | some l =>
    if l.contained = false then .refused (.notEnabled "CONTAIN_NODE: nothing asks for containment")
    else
      let gs := s.gangs.filter fun g => g.lid == lid
      let one : State → Gang → State := fun z g =>
        let ts := z.gangTiles g
        let mine : Nat → Fin 3 → Fin 8 → Bool := fun k c h => match (z.core ⟨k, c⟩).kernelOf h with | some x => x.gang == g.id | none => false
        let z1 := ts.foldl (fun (y : State) k => ([0, 1, 2] : List (Fin 3)).foldl (fun (x : State) c =>
            if (List.finRange 8).any (mine k c) then x.dropShadows ⟨k, c⟩ fun _ => true else x) y) z
        let z2 := ts.foldl (fun (y : State) k => y.setTile k ((y.tile k).drop g.id g.smp)) z1
        let held : ThreadRef → Bool := fun t => (ts.contains t.tile) && mine t.tile t.core t.h
        { z2.freeGang g with buffers := z2.buffers.map fun (b : Buffer) => { b with serving := b.serving.filter fun t => !held t }, gangs := z2.gangs.filter fun x => x.id != g.id }
      let s1 := gs.foldl one (((s.tiles.map (·.1)).foldl (fun (z : State) k => z.dropNode lid k) s).dropSaved lid)
      let new := s1.newLid
      let s2 := { s1 with lids := s1.lids + 1, usedLids := new :: s1.usedLids, flying := s1.flying.filter fun m => m.lid != lid,
                          launches := s1.launches.map fun x => if x.lid = lid then
                            { x with lid := new, old := lid :: x.old, attempts := x.attempts + 1, nextGang := 0, words := [], contained := false } else x,
                          journal := s1.journal.map fun j => if j.lid = lid then { j with lid := new } else j }
      .next ((gs.foldl (fun (z : State) g => (s.gangTiles g).foldl (fun (y : State) k =>
        (([0, 1, 2] : List (Fin 3)).foldl (fun (x : State) c => x.loadCore ⟨k, c⟩) y).loadTile k) z) s2).settlePre new)

end Sys2Proof.Machine
end

