-- ==== Sys2Proof/Machine/Save.lean ====
section
/-! DEFINITION. Pre-emption and resumption of a gang (12 R236 to R240, 04 R81 to R83, 10 R203, R207, 16 R305, R306), and the start cycle
(R221). -/
namespace Sys2Proof.Machine

/-! ## A context's memory as the command processor reaches it -/

/-- The entry of a context's tables for an address. -/
def Context.entry (c : Context) (va : Nat) : Option TEntry := (c.entryAt va).filter (·.ok)
/-- Whether a context maps every 64 KiB block from an aligned address on, for writing where asked. -/
def Context.maps? (c : Context) (va n : Nat) (w : Bool) : Bool :=
  (List.range n).all fun k => match c.entry (va + 2 ^ 16 * k) with | some e => e.w || !w | none => false
/-- The bytes of a range of keys, from cells in rising order none of which lies below it. -/
def expand : Nat → Nat → List Host.Cell → List Byte
  | _, 0, _ => []
  | k, n + 1, [] => 0 :: expand (k + 1) n []
  | k, n + 1, (a, b) :: l => if a = k then b :: expand (k + 1) n l else 0 :: expand (k + 1) n ((a, b) :: l)
/-- The stored bytes of a range of keys. -/
def State.slice (s : State) (k n : Nat) : List Byte := expand k n (s.mem.filter fun c => decide (k ≤ c.1) && decide (c.1 < k + n))
/-- The lines of a byte list under a key, from line number `l` on (R361). -/
def cryptLines (dec : Bool) (key : BitVec 512) : Nat → Nat → List Byte → List Byte
  | _, 0, _ => []
  | l, n + 1, bs => xtsLine dec key l (bs.take 64) ++ cryptLines dec key (l + 1) n (bs.drop 64)
/-- Writes a 64 KiB block of a context's memory. -/
def State.putBlock (s : State) (ctx va : Nat) (bs : List Byte) : State :=
  match (s.context? ctx).bind fun c => c.entry va with
  | none => s
  | some e =>
    let pa := e.pa va
    let st := if e.key = 0 then bs else cryptLines false (s.keyOf e.key) (pa / 64) 1024 bs
    let out : Nat → Bool := fun w => decide (8 * w < pa) || decide (pa + 2 ^ 16 ≤ 8 * w)
    { s with mem := replaceCells s.mem pa (pa + 2 ^ 16) (cellsOf pa st), poison := s.poison.filter out, latent := s.latent.filter fun e => out e.1 }
/-- Reads one. -/
def State.getBlock (s : State) (ctx va : Nat) : List Byte :=
  match (s.context? ctx).bind fun c => c.entry va with
  | none => List.replicate (2 ^ 16) 0
  | some e =>
    let bs := s.slice (e.pa va) (2 ^ 16)
    if e.key = 0 then bs else cryptLines true (s.keyOf e.key) (e.pa va / 64) 1024 bs
/-- Writes blocks one after another. -/
def State.putBlocks (ctx : Nat) (s : State) : Nat → Nat → List Byte → State
  | _, 0, _ => s
  | va, n + 1, bs => State.putBlocks ctx (s.putBlock ctx va (bs.take (2 ^ 16))) (va + 2 ^ 16) n (bs.drop (2 ^ 16))
/-- Reads blocks one after another. -/
def State.getBlocks (s : State) (ctx va n : Nat) : List Byte := (List.range n).flatMap fun k => s.getBlock ctx (va + 2 ^ 16 * k)

/-! ## The save area (R239) -/

/-- Lays fields at rising offsets into `n` bytes; everything between them is zero. -/
def lay (n : Nat) : Nat → List (Nat × List Byte) → List Byte
  | pos, [] => List.replicate (n - pos) 0
  | pos, (o, bs) :: l => List.replicate (o - pos) 0 ++ bs ++ lay n (o + bs.length) l
/-- A word. -/
abbrev word (x : Nat) : List Byte := bytesOfNat 8 x

/-- Words 1 to 3 of the bind record and its kernel words (R224). -/
def Gang.record (g : Gang) : List Nat × List Nat :=
  ([g.num * 2 ^ 48 + g.clu * 2 ^ 43 + g.col0 * 2 ^ 40 + g.row0 * 2 ^ 37 + g.gw * 2 ^ 34 + g.gh * 2 ^ 31 + g.fold * 2 ^ 27 + g.lvl * 2 ^ 25 +
      (g.kerns.length - 1) * 2 ^ 22, g.img.toNat * 2 ^ 32, g.save],
   g.kerns.map fun k => k.kern * 2 ^ 48 + k.role * 2 ^ 46 + k.sb * 2 ^ 43 + k.nt * 2 ^ 40 + k.l * 2 ^ 32)
/-- The head of a save area. -/
def Gang.head (g : Gang) (coop : Bool) (ck : Nat) : List Byte :=
  lay (2 ^ 16) 0 [(0, word g.lid.toNat), (8, word g.num), (0x10, bytesOfNat 1 (if coop then 1 else 0)), (0x14, bytesOfNat 4 ck),
    (0x18, g.record.1.flatMap word), (0x38, g.record.2.flatMap word), (0x78, word g.geps.toNat)]

/-- The table of a kernel whose marked address is `a` (R236). -/
def Kernel.at? (k : Kernel) (a : Nat) : Option LiveRange := k.live.find? fun l => l.loc == a
/-- The kernels of a gang on a core, by slot base. -/
def Core.kernelsOf (c : Core) (g : Nat) : List Kernel := (List.range 8).filterMap fun b => c.kernels.find? fun k => k.sb == b && k.gang == g
/-- The checkpoint at which a kernel's threads of a core stopped. -/
def Core.stopAt (c : Core) (k : Kernel) : Option LiveRange :=
  k.hthreads.findSome? fun h => if c.threads[h].st = .stopped then k.at? c.threads[h].pc else none
/-- The checkpoint at which the kernel at a position of a gang's bundle stopped, on any of the gang's tiles (R83): the table that every core saves
of it, also one whose threads of the kernel have all halted. -/
def stopTable (ts : List Tile) (gang pos : Nat) : Option LiveRange :=
  ts.findSome? fun t => (List.finRange 3).findSome? fun c => ((t.cores[c].kernelsOf gang).filter fun k => k.pos == pos).findSome? t.cores[c].stopAt

/-- The block of a kernel on a core (R82, R83). -/
def Core.saveKernel (c : Core) (k : Kernel) (coop : Bool) (tab : Option LiveRange) : List Byte :=
  let l := k.phys.length
  let body := if coop then
      (match tab with
      | some t => t.names.flatMap fun m => (List.range k.n).flatMap fun j =>
          bytesOfNat (8 * (((k.cat.map (·.width)).getD m 0 + 63) / 64)) (c.copyOf k m j)
      | none => [])
    else (c.rowsOf k).flatMap (bytesOfNat 72)
  let n := 0x440 + body.length
  lay ((n + 63) / 64 * 64) 0 [(0, word k.lid.toNat), (8, bytesOfNat 1 l), (9, bytesOfNat 1 k.n), (10, bytesOfNat 2 k.cat.length),
    (12, bytesOfNat 1 (if coop then 1 else 0)), (0x40, k.widths.flatMap (bytesOfNat 2)), (0x440, body)]

/-- The group state of a thread (R305). -/
def State.saveGroup (s : State) (g : Nat) (froze : Nat) (t : ThreadRef) : List Byte :=
  let x := s.thread t
  let p := match x.posted with | some v => v.toNat * 2 ^ 32 + 1 | none => 0
  let o := (s.gang? g).bind fun y => y.groups.find? fun o => o.opener == t && o.st != .free
  let ob := match o with
    | some o => [o.tmo * 2 ^ 24 + o.q * 2 ^ 16 + o.k * 2 ^ 8 + o.gid, ({ s with cycle := s.cycle + 1 }).gstat g o.gid,
        o.eps.toNat * 2 ^ 32 + (match o.due with | some d => 2 ^ 16 + (d - froze) % 2 ^ 16 | none => 0),
        (o.posts.map fun e => 2 ^ e.1).sum, (o.cancels.map fun e => 2 ^ e).sum]
    | none => [0, 0, 0, 0, 0]
  ([p, x.adv.toNat * 2 ^ 32 + x.ff.toNat] ++ ob).flatMap word
/-- Where a thread goes on after a save: the instruction it waits at, else its next one (R238). -/
def Thread.resumeAt (x : Thread) : Nat := match x.wait with | some w => w.pc | none => x.pc
/-- The register block of a thread. -/
def State.saveThread (s : State) (g froze : Nat) (t : ThreadRef) : List Byte :=
  let x := s.thread t
  lay 0x200 0 [(0, (List.range 32).flatMap fun n => word ((s.reg t n).getD 0).toNat), (0x100, x.rstack.reverse.flatMap word),
    (0x140, word x.resumeAt), (0x148, s.saveGroup g froze t)]

/-- A plane image (R203). -/
def Plane.save (p : Plane) : List Byte :=
  let codes := (List.range 64).flatMap fun k => (List.range 64).flatMap fun n => bytesOfNat 2 ((p.codes.getD k []).getD n 0).toNat
  let scales := (List.range 64).flatMap fun n => ((p.scales.getD n []).take 8) ++ List.replicate (8 - (p.scales.getD n []).length) 0
  let sums := (List.range 64).flatMap fun n => word (wrapNat 64 (p.sums.getD n 0))
  lay 0x2440 0 [(0, word (p.fmt + p.n * 2 ^ 8 + p.k * 2 ^ 16 + p.bw.toNat * 2 ^ 32)), (0x40, codes), (0x2040, scales), (0x2240, sums)]
/-- The array block (R203). -/
def MxArray.save (m : MxArray) : List Byte :=
  lay 0x48C0 0 [(0, word m.cfg.toNat), (8, bytesOfNat 1 ((if m.stat.loaded then 1 else 0) + (if m.shad.loaded then 2 else 0))),
    (0x40, m.stat.save), (0x2480, m.shad.save)]

/-- The commands of a gang in a tile's engines, with their queue, engine by engine. -/
def Tile.engCmds (t : Tile) (g : Nat) : List (Nat × EngCmd) :=
  (List.finRange 2).flatMap fun e => (List.finRange 4).flatMap fun q => ((t.eng[e].queues[q]).filter fun c => c.gang == g).map fun c => (q.val, c)
/-- The commands of a gang in the engine command buffer of a core, in order: those that no engine has taken, and the partly written ones (R164). -/
def Core.bufCmds (c : Core) (g : Nat) : List CmdBuf := c.cbuf.filter fun b => match c.kernelOf b.h with | some k => k.gang == g | none => false
/-- An entry of the engine-command area (R239): the words, the offset reached, the queue word. -/
def saveCmd (ws : List Word64) (off q : Nat) : List Byte :=
  lay 160 0 [(0, (ws.take 18).flatMap (fun w => word w.toNat)), (144, word off), (152, word q)]
/-- The entry of a command in an engine's queue. -/
def saveEngCmd (p : Nat × EngCmd) : List Byte := saveCmd p.2.words (p.2.elem * cmdOffE p.2.words) p.1
/-- The entry of a command in a command buffer: a whole one at its start, under the queue it names; a partly written one with bit 63, the words
received in bits [7:0] and its writer in bits [10:8] (R164). -/
def saveBufCmd (b : CmdBuf) : List Byte :=
  saveCmd b.words 0 (if b.words.length = b.need then cmdQueue b.words else 2 ^ 63 + b.h.val * 2 ^ 8 + b.words.length)
/-- The engine-command area of a tile: the queues' commands, then the command buffers', core by core. -/
def Tile.saveCmds (t : Tile) (g : Nat) : List (List Byte) :=
  (t.engCmds g).map saveEngCmd ++ (List.finRange 3).flatMap fun c => (t.cores[c].bufCmds g).map saveBufCmd
/-- A core's registers. -/
def State.saveCore (s : State) (r : CoreRef) : List Byte :=
  let c := s.core r
  lay 0x240 0 [(0, word c.ccfg), (8, word c.cqthresh.toNat), (0x10, word c.cqstat.toNat), (0x18, word c.crect.toNat), (0x20, word c.cmxst.toNat),
    (0x40, c.cevt.toList.flatMap fun v => word v.toNat)]

/-- The ranges of local memory that a cooperative save keeps on a tile (R237): the checkpoints' ranges, the return-stack entries and the
deque positions in use. `tab`: the checkpoint of each kernel of the bundle. -/
def Tile.keptRanges (t : Tile) (g : Nat) (tab : Nat → Option LiveRange) : List (Nat × Nat) :=
  (List.finRange 3).flatMap fun ci =>
    let c := t.cores[ci]
    ((c.kernelsOf g).flatMap fun k => ((tab k.pos).map (·.ranges)).getD [] ++
      k.hthreads.map fun h => (8 * (c.threads[h]).rsBase.toNat, 8 * (c.threads[h]).rsCnt.toNat)) ++
    (List.range c.scnt).map fun j => (spillPos ci ((c.shead.toNat + j) % 64), 16)
/-- Whether a local address lies in one of some ranges. -/
def inRanges (l : List (Nat × Nat)) (a : Nat) : Bool := l.any fun p => decide (p.1 ≤ a) && decide (a < p.1 + p.2)

/-- A bit for each local word, eight to a byte (R239). -/
def bitMap (p : Nat → Bool) : List Byte :=
  (List.range 8192).map fun j => BitVec.ofNat 8 (((List.range 8).map fun b => if p (8 * j + b) then 2 ^ b else 0).sum)
/-- A tile block (R239). -/
def State.saveTile (s : State) (g : Gang) (coop : Bool) (tab : Nat → Option LiveRange) (froze tile : Nat) : List Byte :=
  let k := localKey tile 0
  let kept := (s.tile tile).keptRanges g.id tab
  let loc := s.slice k (2 ^ 19)
  let mem := if coop then (loc.zip (List.range (2 ^ 19))).map fun p => if inRanges kept p.2 then p.1 else 0 else loc
  let out := s.empties.filter fun w => decide (k ≤ 8 * w) && decide (8 * w < k + 2 ^ 19)
  let bad := s.poison.filter fun w => decide (k ≤ 8 * w) && decide (8 * w < k + 2 ^ 19)
  let cores : List (Fin 3) := [0, 1, 2]
  let t := s.tile tile
  let tours := (cores.map fun c => if (s.core ⟨tile, c⟩).tourFlag then 2 ^ c.val else 0).sum + (if g.tours.any (·.armed) then 2 ^ 8 else 0)
  lay 0xA_0000 0 (
    [(0, mem), (0x8_0000, bitMap fun w => !out.contains (k / 8 + w)), (0x8_2000, bitMap fun w => bad.contains (k / 8 + w))] ++
    (cores.map fun c => (0x8_4000 + 0x4800 * c.val, (((s.core ⟨tile, c⟩).kernelsOf g.id).flatMap fun x => (s.core ⟨tile, c⟩).saveKernel x coop (tab x.pos)))) ++
    (cores.flatMap fun c => (List.finRange 8).map fun h => (0x9_2000 + 0x200 * (8 * c.val + h.val), s.saveThread g.id froze ⟨tile, c, h⟩)) ++
    (if coop then [] else [(0x9_5000, t.mx.save), (0x9_A000, ((t.saveCmds g.id).take 102).flatten)]) ++
    (cores.map fun c => (0x9_E000 + 0x200 * c.val, (s.core ⟨tile, c⟩).dq.flatMap fun d => word d.entry ++ word d.arg.toNat)) ++
    [(0x9_E600, cores.flatMap fun c => word (s.core ⟨tile, c⟩).cdqstat),
     (0x9_E640, t.guards.toList.flatMap fun v => bytesOfNat 1 (match v.now with | .pend => 0 | .tru => 1 | .fls => 2)), (0x9_E660, word tours)] ++
    (cores.map fun c => (0x9_E700 + 0x240 * c.val, s.saveCore ⟨tile, c⟩)))

/-! ## Saving (R237, R238) -/

/-- Writes a gang's save area, keeps what its layout has no place for, and takes the gang off its tiles: its threads become EMPTY, keeping
their private slots. The side-log entries of its threads go with it, with their counts (R262). -/
def State.saveGang (s : State) (g : Gang) (coop : Bool) (froze : Nat) (states : List (ThreadRef × TState)) : State :=
  let ts := s.gangTiles g
  let tab : Nat → Option LiveRange := stopTable (ts.map s.tile) g.id
  let ck := ((List.range g.kerns.length).findSome? fun p => (tab p).map (·.id)).getD 0
  let mine : Nat → Fin 3 → Fin 8 → Bool := fun k c h => match (s.core ⟨k, c⟩).kernelOf h with | some x => x.gang == g.id | none => false
  let kept : Nat → Tile := fun k => { s.tile k with side := (s.tile k).side.filter fun e => e.lid == g.lid && mine k e.core e.h }
  let s1 := State.putBlocks g.ctx s g.save 1 (g.head coop (if coop then ck else 0))
  let s2 := (ts.zipIdx).foldl (fun (z : State) p => State.putBlocks g.ctx z (g.save + 2 ^ 16 + 0xA_0000 * p.2) 10 (s.saveTile g coop tab froze p.1)) s1
  let s3 := ts.foldl (fun (z : State) k =>
    let t := (z.tile k).drop g.id g.smp
    let t1 := { t with side := t.side.filter (fun e => !(e.lid == g.lid && mine k e.core e.h)),
                       cores := t.cores.map fun c => { c with portIn := Vector.replicate 4 [], portOut := Vector.replicate 4 [], portEng := [], shadows := [] } }
    z.setTile k t1) s2
  let v : Saved := { base := g.save, ctx := g.ctx, coop := coop, gang := g, old := ts, tiles := ts.map kept, states := states, froze := froze, back := false }
  let s4 := { s3 with gangs := s3.gangs.filter fun x => x.id != g.id, saved := s3.saved ++ [v] }
  (ts.foldl (fun (z : State) k => (([0, 1, 2] : List (Fin 3)).foldl (fun (y : State) c => y.loadCore ⟨k, c⟩) z).loadTile k) s4).settlePre g.lid
/-- Blocks of 64 KiB of a save area. -/
def State.areaBlocks (s : State) (g : Gang) : Nat := 1 + 10 * (s.gangTiles g).length
/-- Whether the save area of a gang is mapped. -/
def State.areaOk (s : State) (g : Gang) : Bool :=
  decide (0x8_0000 ≤ g.save) && (match s.context? g.ctx with | some c => c.maps? g.save (s.areaBlocks g) true | none => false)
/-- Whether every posted store of a gang's threads has been performed or has moved to the side log (R262). -/
def State.storesOut (s : State) (g : Gang) : Bool :=
  (s.gangTiles g).all fun k => (List.finRange 3).all fun c => !(s.core ⟨k, c⟩).sbuf.any fun e =>
    match (s.core ⟨k, c⟩).kernelOf e.h with | some x => x.gang == g.id | none => false
/-- Whether an engine holds a command of a gang. -/
def State.engBusy (s : State) (g : Gang) : Bool :=
  (s.gangTiles g).any fun k => !((s.tile k).engCmds g.id).isEmpty || (List.finRange 3).any fun c => (s.core ⟨k, c⟩).cbuf.any fun b =>
    match (s.core ⟨k, c⟩).kernelOf b.h with | some x => x.gang == g.id | none => false
/-- The checkpoint identifiers at which a kernel's stopped threads of the gang stand. -/
def State.stopIds (s : State) (g : Gang) (pos : Nat) : List Nat :=
  (s.gangThreads g.id).filterMap fun t =>
    let k := s.kernel t
    if k.pos = pos ∧ (s.thread t).st = .stopped then (k.at? (s.thread t).pc).map (·.id) else none
/-- Whether all stand at one. -/
def State.stopAgree (s : State) (g : Gang) : Bool :=
  (List.range g.kerns.length).all fun j => match s.stopIds g j with | [] => true | i :: l => l.all (· == i)
/-- The gangs that a save of one extends to: those that hold a member of a vector group with it, and so on (R207). -/
def State.mates (s : State) (gang : Nat) : List Gang :=
  let ls : List (Nat × Nat) := (s.gangs.flatMap fun x => s.gangThreads x.id).filterMap fun f => (s.thread f).vgLeader.map fun l => ((s.kernel f).gang, (s.kernel l).gang)
  let more : List Nat → List Nat := fun ids => (s.gangs.map (·.id)).filter fun i =>
    ids.contains i || ls.any fun p => (p.1 == i && ids.contains p.2) || (p.2 == i && ids.contains p.1)
  let ids := (List.range s.gangs.length).foldl (fun ids _ => more ids) [gang]
  s.gangs.filter fun g => ids.contains g.id
/-- Whether every thread of a gang has stopped or halted. -/
def State.allStopped (s : State) (g : Gang) : Bool := (s.gangThreads g.id).all fun t => (s.thread t).st == .stopped || (s.thread t).st == .halted

/-- Whether a gang with a cooperative request can be saved so: live, every thread stopped or halted, each kernel's at one checkpoint, no command
of its engines and no store under way, its area mapped (R236, R237, R262). -/
def State.coopReady (s : State) (g : Gang) : Bool :=
  (match g.preempt with | some p => !p.forced | none => false) && g.st == .live && s.allStopped g && s.stopAgree g && !s.engBusy g && s.storesOut g && s.areaOk g
/-- COOP_SAVE: every thread has stopped at a checkpoint or halted, and the gang is saved cooperatively, with every gang that shares a vector group
with it (R207, R236, R237). -/
def execCoopSave (gang : Nat) (s : State) : Host.Outcome State Fault Refusal :=
  match s.gang? gang with
  | none => .refused (.notEnabled "COOP_SAVE: no such gang")
  | some g =>
    match g.preempt with
    | none => .refused (.notEnabled "COOP_SAVE: no request")
    | some _ =>
      let ms := s.mates gang
      if !(ms.all s.coopReady) || ms.all (fun m => (s.gangThreads m.id).all fun t => (s.thread t).st == .halted) then
        .refused (.notEnabled "COOP_SAVE: the gang cannot be saved yet")
      else .next (ms.foldl (fun (z : State) m => z.saveGang m true s.cycle ((s.gangThreads m.id).map fun t => (t, (s.thread t).st))) s)

/-- Asks for a forced save of some gangs. -/
def State.forceSave (s : State) (ms : List Gang) : State :=
  ms.foldl (fun (z : State) m => z.modGang m.id fun x => { x with preempt := x.preempt.map fun p => { p with forced := true } }) s
/-- PREEMPT_TIMEOUT: a cooperative request becomes a forced save (R236), of every gang that shares a vector group (R207): a thread has neither
stopped nor halted within its limit, the stopped threads of a kernel differ in their checkpoint, or an engine command is unfinished when every
thread has stopped. -/
def execPreemptTimeout (gang : Nat) (s : State) : Host.Outcome State Fault Refusal :=
  match s.gang? gang with
  | none => .refused (.notEnabled "PREEMPT_TIMEOUT: no such gang")
  | some g =>
    match g.preempt with
    | none => .refused (.notEnabled "PREEMPT_TIMEOUT: no request")
    | some p =>
      let late := (s.gangThreads gang).any fun t =>
        let x := s.thread t
        x.st != .stopped && x.st != .halted && decide (p.since + x.premax.toNat ≤ s.cycle)
      let odd := !s.stopAgree g || (s.allStopped g && s.engBusy g)
      if p.forced = false ∧ g.st = .live ∧ (late = true ∨ odd = true) then .next (s.forceSave (s.mates gang))
      else .refused (.notEnabled "PREEMPT_TIMEOUT: the request may still be met")

/-- REQUEST_WITHDRAWN: a pending cooperative request is withdrawn, and STOPPED threads become READY (R218). -/
def execRequestWithdrawn (gang : Nat) (s : State) : Host.Outcome State Fault Refusal :=
  match s.gang? gang with
  | none => .refused (.notEnabled "REQUEST_WITHDRAWN: no such gang")
  | some g =>
    match g.preempt with
    | some p =>
      if p.forced then .refused (.notEnabled "REQUEST_WITHDRAWN: the save is forced")
      else .next ((s.modGang gang fun x => { x with preempt := none }).setStates (s.gangThreads gang) .stopped .ready)
    | none => .refused (.notEnabled "REQUEST_WITHDRAWN: no request")

/-- Whether a vector group's forwarding has come to rest for a gang's followers (R207). -/
def State.vgQuiet (s : State) (g : Nat) : Bool := (s.gangThreads g).all fun t => (s.thread t).vgIn.isEmpty && (s.thread t).vgBuf.isEmpty
/-- Whether a gang can be frozen now (R81, R203, R238): no repack under way or waited for, no matrix command the array has begun, no fork's copy
on its way. -/
def State.canFreeze (s : State) (g : Gang) : Bool :=
  s.vgQuiet g.id && g.st == .live &&
  ((s.gangTiles g).all fun k => !((s.tile k).mx.queue.any fun m => m.begun) &&
    (List.finRange 3).all fun c => (s.core ⟨k, c⟩).repack.isNone &&
      (List.finRange 8).all fun h => ((s.core ⟨k, c⟩).threads[h]).forkIn.isNone &&
        match ((s.core ⟨k, c⟩).threads[h]).wait with | some w => w.why.tag != some tagRepack | none => true)
/-- A tile whose queued matrix commands go back to their issuers, unissued (R238). -/
def Tile.unqueue (t : Tile) : Tile :=
  let eng := t.eng.map fun (e : Engine) => { e with queues := e.queues.map fun q => q.map fun c => if c.stage = .follow then { c with stage := .run } else c }
  { t with mx := { t.mx with queue := [] }, eng := eng,
           board := t.board.filter fun b => match b.owner with | .mx _ _ => false | .eng _ _ => true }
/-- Freezes every thread of a gang (R218, R238); what they have issued goes on. -/
def State.freeze (s : State) (g : Gang) : State :=
  let ts := s.gangThreads g.id
  let held : ThreadRef → Bool := fun t => (s.tile t.tile).mx.queue.any fun m => m.core == t.core && m.h == t.h && m.fo.isNone
  let s1 := ts.foldl (fun (z : State) t =>
    let x := z.thread t
    z.setThread t { x with st := .frozen, wait := if held t then x.wait.map fun w => { w with why := .retry tagBack 0 } else x.wait }) s
  let s2 := (s.gangTiles g).foldl (fun (z : State) k => z.setTile k (z.tile k).unqueue) s1
  s2.modGang g.id fun x => { x with preempt := x.preempt.map fun p => { p with froze := s.cycle, frozen := ts.map fun t => (t, (s.thread t).st) } }

/-- The record addresses that arrivals at a barrier asked for are forgotten: the instructions that gave them are to issue again (R238, R278). -/
def State.unaskSums (s : State) (tile : Nat) (lv : BarLevel) : State :=
  match lv with
  | .crew => s.setTile tile { s.tile tile with crewStat := [], crewSum := [] }
  | _ => match (s.tile tile).gang with
    | some g => s.modGang g fun x => { x with barStat := x.barStat.filter (fun p => p.1 != tile), barSum := [] }
    | none => s
/-- A frozen thread whose wait is behind its effect goes on with it, or takes it back (R238): an arrival at a barrier whose phase is open is
undone, a completed phase completes the instruction. Any other waiting instruction is to issue again: the words its operands took from ports
are back in them. -/
def State.settleThread (s : State) (t : ThreadRef) : State :=
  let x := s.thread t
  let s1 := ({ s with cur := t }).setThread t { x with st := .waiting }
  let back : Host.Outcome State Fault Refusal → State := fun o => match o with
    | .next z => ({ z with cur := s.cur }).setThread t { z.thread t with st := .frozen }
    | .fault _ => s
    | .refused _ => s
  match x.wait with
  | none => s
  | some w =>
    match w.why, w.instr with
    | .retry 19 q, .barSync h d lv =>
      if phaseDone (s.barP t.tile lv) (BitVec.ofNat 32 q) then back (execBarSync h d lv s1)
      else s.setThread t (match lv with | .crew => { x with crewArr := none } | _ => { x with gangArr := none })
    | .retry 19 q, .barStat h a lv =>
      if phaseDone (s.barP t.tile lv) (BitVec.ofNat 32 q) then back (execBarStat h a lv s1)
      else ((s.setThread t (match lv with | .crew => { x with crewArr := none } | _ => { x with gangArr := none })).giveBack t).unaskSums t.tile lv
    | _, _ => s.giveBack t
/-- Whether nothing moves an engine of a tile on while its threads stand still: a command at the head of a queue whose guard is open, that misses, or
whose status word has no room (R168, R169, R369). -/
def Tile.stuck (t : Tile) : Bool :=
  ((List.finRange 2).any fun e => (List.finRange 4).any fun q => match (t.eng[e].queues[q]).head? with
    | some c => (cmdGen c.words && c.pass.isNone) || (match c.stage with | .miss _ => true | .ended _ _ => true | _ => false)
    | none => false) ||
  t.cores.toList.any fun c => !c.cbuf.isEmpty && Decidable.decide (15 ≤ c.portEng.length)
/-- Whether an instruction that would complete by itself cannot while its gang is frozen, so that it is saved at its place (R238, R262): it waits for
entries of the side log or for room there, for a command that an engine does not move on, or for the capacity unit of a thread held by a miss. -/
def State.outlasts (s : State) (t : ThreadRef) (w : WaitRec) : Bool :=
  let z := s.tile t.tile
  match w.why.tag with
  | some 0 => z.side.any (·.core == t.core)
  | some 7 => z.side.any (·.core == t.core)
  | some 8 => z.side.any (·.core == t.core)
  | some 11 => decide (64 ≤ z.side.length)
  | some 5 => z.stuck
  | some 24 => z.stuck
  | some 25 => z.capBusy.any fun p => (s.thread ⟨t.tile, p.1, p.2⟩).wait.any (·.why == .miss)
  | _ => false
/-- Whether what the gang's threads have issued has completed (R238): no reply and no steal is under way, and no instruction that completes by
itself still waits. -/
def State.issuedDone (s : State) (g : Gang) : Bool :=
  ((s.gangThreads g.id).all fun t => match (s.thread t).wait with
    | some w => !(w.completes && !s.outlasts t w) && w.why != .reply && (match w.instr with | .taskSteal .. => false | _ => true)
    | none => true) &&
  (s.gangTiles g).all fun k => (List.finRange 3).all fun c => (s.core ⟨k, c⟩).stealMsgs.isEmpty

/-- Saves gangs that are frozen, once their threads' waits are settled (R238). -/
def State.saveFrozen (s : State) (ms : List Gang) (froze : Nat) : State :=
  let s1 := (ms.flatMap fun m => s.gangThreads m.id).foldl State.settleThread s
  ms.foldl (fun (z : State) m => match z.gang? m.id with
    | some g1 => z.saveGang g1 false froze ((g1.preempt.map (·.frozen)).getD [])
    | none => z) s1
/-- FORCED_SAVE: the dispatch hardware freezes a gang and, once what it had issued has completed, saves it whole, with every gang that shares a
vector group with it (R207, R238, R262). -/
def execForcedSave (gang : Nat) (s : State) : Host.Outcome State Fault Refusal :=
  match s.gang? gang with
  | none => .refused (.notEnabled "FORCED_SAVE: no such gang")
  | some g =>
    match g.preempt with
    | none => .refused (.notEnabled "FORCED_SAVE: no request")
    | some p =>
      let ms := s.mates gang
      if p.forced = false ∨ g.st ≠ .live ∨ ms.all s.areaOk = false then .refused (.notEnabled "FORCED_SAVE: no forced save is asked for, or its area is not mapped")
      else if p.frozen.isEmpty then
        (if ms.all s.canFreeze = true ∧ ¬ (s.gangThreads gang).isEmpty then .next (ms.foldl State.freeze s)
        else .refused (.notEnabled "FORCED_SAVE: a repack or a matrix command is under way"))
      else if ms.all s.issuedDone = false ∨ ms.all s.storesOut = false then .refused (.notEnabled "FORCED_SAVE: an access has not completed")
      else .next (s.saveFrozen ms p.froze)

/-! ## Resumption (R240) -/

/-- A number of a block. -/
abbrev num (b : List Byte) (o n : Nat) : Nat := rd b o n
/-- A register word of a block. -/
abbrev num64 (b : List Byte) (o : Nat) : Word64 := n64 (rd b o 8)

/-- A plane from its image (R203). -/
def Plane.restore (loaded : Bool) (b : List Byte) : Plane :=
  let hd := num b 0 8
  let n := fieldOf hd 8 8
  let k := fieldOf hd 16 8
  let f := fieldOf hd 0 4
  if !loaded then Plane.fresh
  else
    { loaded := true, fmt := f, n := n, k := k, bw := BitVec.ofNat 16 (fieldOf hd 32 16),
      codes := (List.range k).map fun i => (List.range n).map fun j => BitVec.ofNat 16 (num b (0x40 + 128 * i + 2 * j) 2),
      scales := (List.range n).map fun j => ((b.drop (0x2040 + 8 * j)).take (if f = 2 then 2 else if f = 3 then 8 else 0)),
      sums := if f = 1 then (List.range n).map fun j => signedOf 64 (num b (0x2240 + 8 * j) 8) else [] }
/-- The array from its block. -/
def MxArray.restore (b : List Byte) : MxArray :=
  let p := num b 8 1
  { MxArray.fresh with cfg := num64 b 0, stat := Plane.restore (p.testBit 0) (b.drop 0x40), shad := Plane.restore (p.testBit 1) (b.drop 0x2480) }

/-- A thread from its register block (R239, R305); what the block has no place for is as it was. -/
def Thread.restore (x : Thread) (b : List Byte) (st : TState) : Thread :=
  { x with
    st := if st = .halted then .halted else .ready, wait := none, fbuf := [], pc := num b 0x140 8
    tcause := BitVec.ofNat 8 (num b 8 8), tepc := BitVec.ofNat 19 (num b 16 8), tval := num64 b 24, tvec := BitVec.ofNat 19 (num b 32 8)
    tscratch := num64 b 40, rsBase := BitVec.ofNat 16 (num b 48 8 / 8), rsLim := BitVec.ofNat 16 (num b 56 8), rsCnt := BitVec.ofNat 16 (num b 64 8)
    rstack := ((List.range (min (num b 72 8) 8)).map fun j => num b (0x100 + 8 * j) 8).reverse
    privG := BitVec.ofNat 40 (num b 80 8 / 2 ^ 16), privSz := BitVec.ofNat 17 (num b 88 8 / 2 ^ 16)
    rkey := num64 b 96, rpos := BitVec.ofNat 40 (num b 104 8), ridx := BitVec.ofNat 24 (num b 112 8), rlast := num64 b 120
    smpb := BitVec.ofNat 13 (num b 128 8 / 64)
    gmV := (num b 136 8).testBit 15, gmRes := (num b 136 8).testBit 14, gmGid := BitVec.ofNat 6 (num b 136 8 / 256), gmIdx := BitVec.ofNat 6 (num b 136 8)
    waitlim := BitVec.ofNat 32 (num b 144 8), premax := BitVec.ofNat 32 (num b 152 8), sealb := BitVec.ofNat 43 (num b 160 8 / 2 ^ 13)
    posted := if (num b 0x148 8).testBit 0 then some (BitVec.ofNat 32 (num b 0x14C 4)) else none
    adv := BitVec.ofNat 32 (num b 0x154 4), ff := BitVec.ofNat 7 (num b 0x150 4) }

/-- A thread of a vector group as it resumes (R207): what a leader had under way issues again; a follower's forwarded instruction that had not
completed is again the oldest of its forward buffer. -/
def Thread.regain (x : Thread) : Thread :=
  match x.vgRun with
  | none => x
  | some (i, p, nl) => { x with vgRun := none, vgBuf := if x.vg = .attached then ⟨i, none, p, nl, 0⟩ :: x.vgBuf else x.vgBuf }
/-- The names of a kernel's threads from its block: rows, or the checkpoint's copies (R82, R83). -/
def restoreNames (b : List Byte) (coop : Bool) (cat : List NameEnt) (n : Nat) (tab : Option LiveRange) (m t : Nat) : Nat :=
  let ws := cat.map (·.width)
  let w := ws.getD m 1
  if coop then
    match tab with
    | none => 0
    | some l =>
      match l.names.idxOf? m with
      | none => 0
      | some i =>
        let skip := ((l.names.take i).map fun j => n * ((ws.getD j 0 + 63) / 64)).sum + t * ((w + 63) / 64)
        num b (0x440 + 8 * skip) (8 * ((w + 63) / 64)) % 2 ^ w
  else
    match (placeAll n (packOrder ws)).1.find? fun p => p.1 == m && p.2.1 == t with
    | some (_, _, r, bit) => num b (0x440 + 72 * r) 72 / 2 ^ bit % 2 ^ w
    | none => 0
/-- The bytes of a kernel's block in a core's part. -/
def blockLen (k : Kernel) (coop : Bool) (tab : Option LiveRange) (ws : List Nat) : Nat :=
  let body := if coop then 8 * k.n * (((tab.map (·.names)).getD []).map fun j => (ws.getD j 0 + 63) / 64).sum else 72 * k.phys.length
  (0x440 + body + 63) / 64 * 64

/-- Restores the kernels and threads of a core from its part of a tile block: `old` is the core as it was saved. -/
def restoreCore (v : Saved) (i : Nat) (ci : Fin 3) (blk : List Byte) (old new : Core) (nth : Nat) (move : Nat → Nat) : Core :=
  let ks := old.kernelsOf v.gang.id
  let go : (Core × List Byte) → Kernel → (Core × List Byte) := fun acc k =>
    let b := acc.2
    let ws := (List.range k.cat.length).map fun m => num b (0x40 + 2 * m) 2
    let cat := k.cat.zipIdx.map fun e => { e.1 with width := ws.getD e.2 e.1.width }
    let tab := if v.coop then stopTable v.tiles v.gang.id k.pos else none
    let c1 := acc.1.modKernel k.sb fun y => { y with cat := cat }
    let c2 := c1.modThreads k.hthreads fun h _ =>
      let t : ThreadRef := ⟨v.old.getD i 0, ci, h⟩
      let st := ((v.states.find? fun e => e.1 == t).map (·.2)).getD .ready
      let x := (old.threads[h]).restore ((blk.drop (0x9_2000 + 0x200 * (8 * ci.val + h.val))).take 0x200) st
      let x := x.regain
      { x with bad := [], names := (List.range cat.length).map fun m => BitVec.ofNat 528 (restoreNames b v.coop cat k.n tab m (h.val - k.sb)),
               vgLeader := x.vgLeader.map fun l => { l with tile := move l.tile } }
    (c2, b.drop (blockLen k v.coop tab ws))
  let c := (ks.foldl go (new, (blk.drop (0x8_4000 + 0x4800 * ci.val)).take 0x4800)).1
  let rb := (blk.drop (0x9_E700 + 0x240 * ci.val)).take 0x240
  let dqs := num blk (0x9_E600 + 8 * ci.val) 8
  let db := (blk.drop (0x9_E000 + 0x200 * ci.val)).take 0x200
  let eb := blk.drop 0x9_A000
  let bufs := (old.bufCmds v.gang.id).zipIdx.map fun e =>
    let b := (eb.drop (160 * (nth + e.2))).take 160
    let q := num b 152 8
    { e.1 with h := if q.testBit 63 then ⟨fieldOf q 8 3, Nat.mod_lt _ (by decide)⟩ else e.1.h,
               words := (List.range (if q.testBit 63 then q % 256 else e.1.need)).map fun j => num64 b (8 * j) }
  { c with
    evu := (num rb 0 8).testBit 1, smp := (num rb 0 8).testBit 0, cqthresh := num64 rb 8, cqstat := num64 rb 16
    crect := BitVec.ofNat 5 (num rb 24 8), cmxst := num64 rb 32, cevt := Vector.ofFn fun (j : Fin 64) => BitVec.ofNat 32 (num rb (0x40 + 8 * j.val) 8)
    dq := (List.range (fieldOf dqs 8 8)).map fun j => ⟨num db (16 * j) 8, num64 db (16 * j + 8)⟩
    shead := BitVec.ofNat 6 (fieldOf dqs 24 6), scnt := fieldOf dqs 16 8, dqOwner := if dqs.testBit 3 then some (dqs % 8) else none, dqLast := dqs % 8
    tourFlag := (num blk 0x9_E660 8).testBit ci.val, stealDir := old.stealDir
    portIn := old.portIn, portOut := old.portOut, portEng := old.portEng, cbuf := if v.coop then old.cbuf else bufs, submitted := old.submitted, subs := old.subs, shadows := c.shadows ++ old.shadows }

/-- The words of a bit map that are clear or set, as keys. -/
def mapKeys (b : List Byte) (k : Nat) (v : Bool) : List Nat := (List.range 65536).filterMap fun w => if (b.getD (w / 8) 0).getLsbD (w % 8) = v then some (k / 8 + w) else none

/-- Restores one tile of a gang from its block. -/
def State.restoreTile (s : State) (v : Saved) (g : Gang) (l : Option Launch) (im : Option Image) (i k : Nat) (move : Nat → Nat) : State :=
  let blk := s.getBlocks v.ctx (v.base + 2 ^ 16 + 0xA_0000 * i) 10
  let old := v.tiles.getD i Tile.fresh
  let key := localKey k 0
  let fe := (blk.drop 0x8_0000).take 0x2000
  let po := (blk.drop 0x8_2000).take 0x2000
  let mem := blk.take (2 ^ 19)
  let s1 := if v.coop then
      let base := match im, l with
        | some im, some l =>
          let sh := gangShape l.pw l.grid.2 g.num
          (match l.kerns.head?.bind fun x => im.kerns[x.kern]? with
          | some kn => s.writeImage k g.lvl im (launchBlock kn g.fold (sh.2.2.1 + i % (g.gw + 1)) (sh.2.2.2 + i / (g.gw + 1)) g.num l.arg.toNat g.lid)
          | none => s)
        | _, _ => s
      let kept := old.keptRanges v.gang.id (stopTable v.tiles v.gang.id)
      let ws := (List.range 65536).filter fun w => inRanges kept (8 * w)
      ws.foldl (fun (z : State) w => ((z.putBytes (key + 8 * w) ((mem.drop (8 * w)).take 8)).setFull (key + 8 * w) ((fe.getD (w / 8) 0).getLsbD (w % 8))).setPoison
        (key + 8 * w) ((po.getD (w / 8) 0).getLsbD (w % 8))) base
    else
      let z := s.fillLocal k (cellsOf key mem) (mapKeys fe key false)
      { z with poison := (mapKeys po key true).foldl addKey z.poison }
  let t := s1.tile k
  let cores : Vector Core 3 := Vector.ofFn fun ci => restoreCore v i ci blk old.cores[ci] t.cores[ci]
    ((old.engCmds v.gang.id).length + (((List.finRange 3).filter (· < ci)).map fun c => (old.cores[c].bufCmds v.gang.id).length).sum) move
  let guard : Nat → GuardSlot := fun j => let x : Guard := match num blk (0x9_E640 + j) 1 with | 1 => .tru | 2 => .fls | _ => .pend
    ⟨x, x, 0⟩
  let eb := blk.drop 0x9_A000
  let cmds := (old.engCmds v.gang.id).zipIdx.map fun e =>
    let b := (eb.drop (160 * e.2)).take 160
    let ws := (List.range e.1.2.words.length).map fun j => num64 b (8 * j)
    (e.1.2.id, { e.1.2 with words := ws, elem := num b 144 8 / (max 1 (cmdOffE ws)), gang := g.id,
                            stage := match e.1.2.stage with | .miss _ => .run | x => x })
  let eng := t.eng.mapFinIdx fun e x he => { x with queues := x.queues.mapFinIdx fun q y hq =>
    y ++ ((old.eng[e].queues[q]).filter fun c => c.gang == v.gang.id).map fun c => ((cmds.find? fun p => p.1 == c.id).map (·.2)).getD { c with gang := g.id } }
  s1.setTile k { t with cores := cores, mx := if v.coop then MxArray.fresh else MxArray.restore ((blk.drop 0x9_5000).take 0x48C0),
                        guards := Vector.ofFn fun (j : Fin 32) => guard j.val, eng := if v.coop then t.eng else eng,
                        board := t.board ++ old.board, side := t.side ++ old.side, crewP := old.crewP, crewStat := old.crewStat, crewSum := old.crewSum,
                        child := old.child, sent := old.sent }

/-- A group object from its words in the opener's group state (R305): the descriptor, GSTAT, ε and the timeout's remaining cycles, the members that
have posted and those cancelled; what they have no place for is as it was. A block has place for one group: any other of its opener keeps its
fields, its timeout running on from `froze`. -/
def Group.restore (o : Group) (b : List Byte) (froze now : Nat) : Group :=
  let d := num b 0x158 8
  let st := num b 0x160 8
  let tm := num b 0x168 8
  let po := num b 0x170 8
  let ca := num b 0x178 8
  if fieldOf d 0 6 ≠ o.gid ∨ fieldOf st 0 2 = 0 then { o with due := o.due.map fun d => now + (d - froze) }
  else
  { o with k := fieldOf d 8 7, q := fieldOf d 16 7, tmo := fieldOf d 24 16,
           st := match fieldOf st 0 2 with | 1 => .opened | 2 => .forked | 3 => .done | _ => .free,
           tmoBit := st.testBit 3, zvar := st.testBit 2, eps := BitVec.ofNat 32 (fieldOf tm 32 32),
           due := if tm.testBit 16 then some (now + fieldOf tm 0 16) else none,
           posts := o.posts.filter fun e => po.testBit e.1, cancels := (List.range 64).filter ca.testBit }
/-- The block of a thread of a saved gang, in its area. -/
def State.savedBlock (s : State) (v : Saved) (t : ThreadRef) : List Byte :=
  match v.old.idxOf? t.tile with
  | none => []
  | some i =>
    let o := 2 ^ 16 + 0xA_0000 * i + 0x9_2000 + 0x200 * (8 * t.core.val + t.h.val)
    ((s.getBlock v.ctx (v.base + o / 2 ^ 16 * 2 ^ 16)).drop (o % 2 ^ 16)).take 0x200
/-- A resumed gang takes up what was saved (R240): its tiles, GEPS, its groups with their remaining timeouts; each of its READY threads goes on as
a redirect (R123), which reads what has been restored, and reflections of its new die that could be older are gone (R253, R262). -/
def State.restoreGang (s : State) (v : Saved) (g : Gang) : State :=
  let ts := s.gangTiles g
  let move : Nat → Nat := fun k => match s.saved.find? fun w => w.old.contains k && w.gang.lid == g.lid with
    | some w => (match s.gangs.find? fun x => x.lid == g.lid && x.num == w.gang.num with
      | some x => s.movedTile w x k
      | none => k)
    | none => k
  let hd := s.getBlock v.ctx v.base
  let s1 := (ts.zipIdx).foldl (fun (z : State) p => z.restoreTile v g (s.launch? g.lid) (s.image? g.img) p.2 p.1 move) s
  let s2 := s1.modGang g.id fun x =>
    { x with st := .live, start := s.cycle, geps := BitVec.ofNat 32 (num hd 0x78 8), preempt := none, resume := none,
             groups := v.gang.groups.map fun o => { o.restore (s.savedBlock v o.opener) v.froze s.cycle with opener := { o.opener with tile := move o.opener.tile } },
             tours := v.gang.tours, barP := v.gang.barP, barStat := v.gang.barStat.map fun p => (move p.1, p.2), barSum := v.gang.barSum }
  let s3 := (s.gangThreads g.id).foldl (fun (z : State) t =>
    let x := z.thread t
    if x.st = .ready ∧ x.vg ≠ .attached then z.redirect t x.pc else z)
    { s2 with fresh := s2.fresh.filter fun w => !ts.contains ((8 * w.1 - 2 ^ 52) / 2 ^ 19) }
  { s3 with reflections := s3.reflections.filter fun r => r.die != g.die }

/-- A RESUME completes once its gangs run again: with the start cycle (R380). -/
def State.settleRes (s : State) (lid : Word64) : State :=
  match s.launch? lid with
  | some l =>
    (match l.resCmd with
    | some (q, tag) =>
      if s.saved.any fun v => v.gang.lid == lid && v.back then s
      else ((s.modLaunch lid fun x => { x with resCmd := none }).freeQueue q).postDone q tag 0 (n64 s.cycle)
    | none => s)
  | none => s

/-- Whether a gang's rows and images are all written by a cycle (R221, R226). -/
def Gang.loaded (g : Gang) (now : Nat) : Bool :=
  (g.st == .pending || g.st == .loading) && g.rowsLeft.isEmpty && g.imagesLeft.isEmpty && decide (g.written ≤ now)
/-- GANG_START: the start cycle of a gang: all its threads pass from LOADING to READY (R221); a resumed gang takes up its saved state, together
with the gangs it is linked to (R207, R240). -/
def execGangStart (die slot : Nat) (s : State) : Host.Outcome State Fault Refusal :=
  let id := 64 * die + slot
  match s.gang? id with
  | none => .refused (.notEnabled "GANG_START: no such gang")
  | some g =>
    if !g.loaded s.cycle then .refused (.notEnabled "GANG_START: rows or images are still to be written")
    else match g.resume.bind fun b => s.saved.find? fun v => v.base == b && v.ctx == g.ctx with
      | none => .next ((s.modGang id fun x => { x with st := .live, start := s.cycle }).setStates (s.gangThreads id) .loading .ready)
      | some v =>
        let all := (s.linkedTo v).map fun w => (w, s.gangs.find? fun x => x.lid == g.lid && x.num == w.gang.num && x.loaded s.cycle)
        if all.any fun p => p.2.isNone then .refused (.notEnabled "GANG_START: a linked gang is not loaded")
        else
          let s1 := all.foldl (fun (z : State) p => match p.2 with | some x => z.restoreGang p.1 x | none => z) s
          .next ({ s1 with saved := s1.saved.filter fun w => !(all.any fun p => p.1.base == w.base && p.1.ctx == w.ctx) }.settleRes g.lid)

/-- The request for a gang's save: a new one, or one still pending, which an immediate one makes forced (R236). -/
def askSave (forced : Bool) (cycle : Nat) (p : Option PreReq) : PreReq :=
  match p with
  | some q => { q with forced := q.forced || forced }
  | none => ⟨forced, cycle, 0, []⟩
/-- The command processor sets TPREMAX of the threads of gangs that it asks to stop, where it chooses a limit of its own (R236, log 127). -/
def State.setLimits (s : State) (gs : List Gang) : State :=
  gs.foldl (fun (z : State) g => match Config.preLimit z.cycle g.id with
    | some v => (z.gangThreads g.id).foldl (fun (y : State) t => y.setThread t { y.thread t with premax := v }) z
    | none => z) s
/-- PREEMPT: asks for a save of every gang of a launch, cooperative or forced (R236, R380); a request for immediate pre-emption while another is
pending forces the save, and both complete with it (log 127). -/
def execPreempt (cmd : Command) (s : State) : Host.Outcome State Fault Refusal :=
  let lid := n64 (hostArg cmd 1)
  let forced := (hostArg cmd 2).testBit 0
  match s.launch? lid with
  | none => .next (s.complete cmd (if badWord0 cmd then stBADCMD else stNOHANDLE) 0)
  | some l =>
    if badWord0 cmd then .next (s.complete cmd stBADCMD 0)
    else if (s.gangs.any fun g => g.lid == lid) = false then .next (s.complete cmd stNOHANDLE 0)
    else
      let s1 := s.modLaunch lid fun x => { x with preCmd := x.preCmd ++ [((qIx cmd.q).val, hostTag cmd)] }
      let s2 := { s1 with gangs := s1.gangs.map fun g => if g.lid = lid then { g with preempt := some (askSave forced s.cycle g.preempt) } else g }
      .next (if l.preCmd.isEmpty ∧ forced = false then s2.setLimits (s.gangs.filter fun g => g.lid == lid) else s2)

/-- RESUME: the gangs saved with the one whose area is named are bound again (R240, R380). -/
def execResume (cmd : Command) (s : State) : Host.Outcome State Fault Refusal :=
  match s.saved.find? fun v => v.base == hostArg cmd 1 && !v.back with
  | none => .next (s.complete cmd (if badWord0 cmd then stBADCMD else stNOHANDLE) 0)
  | some v =>
    if badWord0 cmd then .next (s.complete cmd stBADCMD 0)
    else
    let s1 := s.modLaunch v.gang.lid fun x => { x with resCmd := some ((qIx cmd.q).val, hostTag cmd) }
    .next { s1 with saved := s1.saved.map fun w => if w.gang.lid = v.gang.lid then { w with back := true } else w }

end Sys2Proof.Machine
end

