-- ==== Sys2Proof/Machine/Host.lean ====
section
/-! DEFINITION. The ROM command set (22 R380 to R386) but for LAUNCH, PREEMPT and RESUME, which stand with launches; the reset of the
compute dies (R389); and the queue pairs (R378, R379, R383). -/
namespace Sys2Proof.Machine

/-! ## Identity and attestation (R386) -/

/-- The firmware slot that is active, or the other one. -/
def State.slotOf (s : State) (act : Bool) : FwSlot := s.fwSlots[if act then (1 : Fin 2) else 0]
/-- The slots with one of them written. -/
def State.setSlot (s : State) (act : Bool) (x : FwSlot) : Vector FwSlot 2 := if act then #v[s.fwSlots[0], x] else #v[x, s.fwSlots[1]]
/-- The 4,096 bytes that IDENT fills. -/
def State.identBuffer (s : State) : List Byte :=
  let n := min Config.certLength 3920
  bytesOfNat 64 deviceMask ++ [4] ++ ((List.range 96).map fun k => Config.identityByte (1 + k)) ++ List.replicate 7 0 ++ bytesOfNat 4 n ++
  bytesOfNat 4 (s.slotOf s.fwAct).version.toNat ++ ((List.range n).map fun k => Config.identityByte (0x70 + k)) ++ List.replicate (3920 - n) 0
/-- IDENT: the buffer; a configuration table that failed its check is reported as SIGFAIL (R385). -/
def execIdent (cmd : Command) (s : State) : Host.Outcome State Fault Refusal :=
  let a := hostArg cmd 1
  if badWord0 cmd = true ∨ hostOk a 4096 = false then .next (s.complete cmd stBADCMD 0)
  else .next ((s.hostWrite a s.identBuffer).complete cmd (if s.cfg.valid then 0 else stSIGFAIL) 0)

/-- The four measurements as bytes. -/
def State.measureBytes (s : State) : List Byte := s.measure.toList.flatMap fun m => bytesOfNat 48 m.toNat
/-- The quote over a nonce: measurements, count, signature. -/
def State.quote (s : State) (nonce : List Byte) : List Byte :=
  let body := s.measureBytes ++ bytesOfNat 8 (s.quotes + 1).toNat
  body ++ ((List.range 96).map fun k => Config.quoteSignature (sha384 (nonce ++ body)) k)
/-- ATTEST: a quote. -/
def execAttest (cmd : Command) (s : State) : Host.Outcome State Fault Refusal :=
  let a := hostArg cmd 1
  let b := hostArg cmd 2
  if badWord0 cmd = true ∨ hostOk a 48 = false ∨ hostOk b 296 = false then .next (s.complete cmd stBADCMD 0)
  else .next ({ s.hostWrite b (s.quote (s.hostRead a 48)) with quotes := s.quotes + 1 }.complete cmd 0 0)

/-! ## Images (R60) -/

/-- The handle of the next image: the command processor's choice where it is new, else the least unused (R60). -/
def State.newHandle (s : State) : BitVec 32 :=
  let c := Config.handleChoice s.handles
  let used := s.images.map (·.handle)
  if c ≠ 0 ∧ used.contains c = false then c
  else (((List.range (used.length + 1)).map fun k => BitVec.ofNat 32 (k + 1)).find? fun x => !used.contains x).getD 1
/-- Frames in rising order from `k` of `n` that no one uses, as many as needed (log 84). -/
def pickFrames (used : Nat → Bool) (pfn : Nat → Nat) : Nat → Nat → Nat → List Nat
  | 0, _, _ => []
  | n + 1, k, need => if need = 0 then [] else if used (pfn k) then pickFrames used pfn n (k + 1) need else pfn k :: pickFrames used pfn n (k + 1) (need - 1)
/-- 64 KiB frames of one HBM stack, and of the capacity tier (R375). -/
abbrev stackFrames : Nat := 0x1DCD65
abbrev capFrames : Nat := 2 ^ 25
/-- Frame `k` of the stacks of a die. -/
def hbmFrame (die k : Nat) : Nat := 2 ^ 21 * (4 * die + k / stackFrames) + k % stackFrames
/-- Whether a page holds a frame. -/
def TEntry.holds (e : TEntry) (f : Nat) : Bool := decide (e.pfn ≤ f) && decide (f < e.pfn + e.page / 2 ^ 16)
/-- Whether a frame is in a context's pool or mapped by its tables. -/
def Context.holds (c : Context) (f : Nat) : Bool :=
  c.pool0.contains f || c.pool1.contains f || c.poolc.contains f ||
  c.maps.any (·.holds f)
/-- Whether a frame is lent to a shadow, of a core or of a saved gang (R174, R381). -/
def State.lent (s : State) (f : Nat) : Bool :=
  let has : Tile → Bool := fun t => t.cores.toList.any fun c => c.shadows.any fun h => h.new == f
  (s.tiles.any fun p => has p.2) || s.saved.any fun v => v.tiles.any has
/-- Whether a context, a shadow or a loaded image uses a frame. -/
def State.frameUsed (s : State) (f : Nat) : Bool := s.lent f || s.contexts.any (·.holds f) || s.images.any fun i => i.pages.any (·.holds f)
/-- The spans of device-virtual space in use in some context: pages mapped, private regions, seal words, and images' data. -/
def State.spansUsed (s : State) : List (Nat × Nat) :=
  (s.images.flatMap (·.pages) ++ s.contexts.flatMap (·.maps)).map (fun e => (e.vpn * 2 ^ 16, e.page)) ++
  s.contexts.flatMap fun c => [(c.pbase, c.psize * c.pslots * 2 ^ 16), (c.sealb.toNat * 2 ^ 13, 2 ^ 13)]
/-- Whether a device-virtual span of `n` bytes is free and lies in the mapped window (R242). -/
def spanFree (used : List (Nat × Nat)) (a n : Nat) : Bool :=
  a % 2 ^ 16 == 0 && decide (0x8_0000 ≤ a) && decide (a + n ≤ 0xC0_0000_0000_0000) && !used.any fun u => meets u.1 u.2 a n
/-- The device-virtual base of a section's copy (R60): the host stage's choice where it will do, else the least place behind one in use
(log 100). -/
def placeVa (used : List (Nat × Nat)) (choice n : Nat) : Option Nat :=
  (choice :: 0x8_0000 :: (used.map fun u => (u.1 + u.2 + 2 ^ 16 - 1) / 2 ^ 16 * 2 ^ 16)).find? fun a => spanFree used a n
/-- The 64 KiB pages of a section of `n` bytes: at least one, so that a symbol in it has a place. -/
def farPages (n : Nat) : Nat := max 1 ((n + 2 ^ 16 - 1) / 2 ^ 16)
/-- Allocates pages for a section's bytes (R60 step 4): device-virtual space, and frames of HBM or of the capacity tier (log 100); none: SPACE. -/
def State.placeFar (s : State) (other : List TEntry) (cap : Bool) (n : Nat) : Option (List TEntry) :=
  let k := farPages n
  let per := if s.red then stackFrames else 4 * stackFrames
  let used : Nat → Bool := fun f => s.frameUsed f || other.any (·.holds f) || (s.vaultC (f * 2 ^ 16)).isSome
  let fs := if cap then pickFrames used (fun j => 2 ^ 34 + j) (if s.red then 0 else capFrames) 0 k
    else pickFrames used (fun j => hbmFrame (j / per) (j % per)) (2 * per) 0 k
  let spans := s.spansUsed ++ other.map fun e => (e.vpn * 2 ^ 16, e.page)
  match placeVa spans (Config.dataBase s.handles cap) (k * 2 ^ 16) with
  | some a => if fs.length < k then none else some (fs.zipIdx.map fun p => ⟨0, true, a / 2 ^ 16 + p.2, 0, 0, p.1⟩)
  | none => none
/-- The base of allocated pages. -/
def pagesBase (l : List TEntry) : Nat := ((l.head?).map (·.vpn * 2 ^ 16)).getD 0
/-- Copies a section into its pages, with its full/empty bits (R60 step 4). -/
def State.copyFar (s : State) (pages : List TEntry) (bs : List Byte) (holes : List Nat) : State :=
  pages.zipIdx.foldl (fun (z : State) p =>
    let pa := p.1.pfn * 2 ^ 16
    let part := (bs.drop (2 ^ 16 * p.2)).take (2 ^ 16)
    let ws := wordsOf pa part.length
    let out := (holes.filter fun w => decide (2 ^ 13 * p.2 ≤ w) && decide (w < 2 ^ 13 * (p.2 + 1))).map fun w => pa / 8 + (w - 2 ^ 13 * p.2)
    let z1 := z.putBytes pa part
    { z1 with empties := out.foldl addKey (z1.empties.filter fun w => !ws.contains w) }) s
/-- What LOAD makes of an image's bytes (R60): the image, and the state with its DHBM and DCAP allocated, relocated and copied; or the
status of the first step that fails. -/
def State.loadOf (s : State) (b : List Byte) : Except Nat (Image × State) :=
  match imageOf b with
  | .error st => .error st
  | .ok d =>
    match (match d.dhbm with | some x => s.placeFar [] false x.bytes.length | none => some []) with
    | none => .error stSPACE
    | some hp =>
      match (match d.dcap with | some x => s.placeFar hp true x.bytes.length | none => some []) with
      | none => .error stSPACE
      | some cp =>
        match d.link (pagesBase hp) (pagesBase cp) with
        | .error st => .error st
        | .ok (im, hb, cb) =>
          .ok ({ im with pages := hp ++ cp }, (s.copyFar hp hb ((d.dhbm.map (·.holes)).getD [])).copyFar cp cb ((d.dcap.map (·.holes)).getD []))
/-- A context whose tables also map pages (R60: every launch of an image shares its copies). -/
def Context.mapPages (c : Context) (l : List TEntry) : Context := { c with maps := c.maps ++ l.map fun e => { e with ctx := c.id } }
/-- LOAD: the image is checked, placed, kept and measured, and its handle returned (R60, R386). -/
def execLoad (cmd : Command) (s : State) : Host.Outcome State Fault Refusal :=
  let a := hostArg cmd 1
  let n := hostArg cmd 2
  if badWord0 cmd = true ∨ hostOk a n = false then .next (s.complete cmd stBADCMD 0)
  else
    let b := s.hostRead a n
    match s.loadOf b with
    | .error st => .next (s.complete cmd st 0)
    | .ok (im, t) =>
      let h := s.newHandle
      let chain := sha384 (bytesOfNat 48 s.measure[3].toNat ++ bytesOfNat 48 (sha384 b).toNat)
      .next ({ t with images := s.images ++ [{ im with handle := h }], handles := s.handles + 1, measure := s.measure.set 3 chain,
                      contexts := s.contexts.map fun (c : Context) => c.mapPages im.pages }.complete cmd 0 h.toNat)
/-- UNLOAD: the image goes; one that a launch still needs stays (log 80). -/
def execUnload (cmd : Command) (s : State) : Host.Outcome State Fault Refusal :=
  let h := BitVec.ofNat 32 (hostArg cmd 1 / 2 ^ 32)
  if badWord0 cmd then .next (s.complete cmd stBADCMD 0)
  else if (s.image? h).isNone then .next (s.complete cmd stNOHANDLE 0)
  else if s.launches.any fun l => l.img == h && l.done.isNone then .next (s.complete cmd stBADCMD 0)
  else .next ({ s with images := s.images.filter fun i => i.handle != h }.complete cmd 0 0)

/-! ## Format ranges, keys, the vault (R151, R152, R350, R358, R361) -/

/-- The bytes of an entry's scale region (R152). -/
def FmtRange.scaleSpan (r : FmtRange) : Nat × Nat :=
  (8 * r.sbase, 2 ^ 12 * (r.last + 1 - r.base) / (if r.fmt = fmtE2m1 then 4 else 32))
/-- The bytes of its element range. -/
def FmtRange.elemSpan (r : FmtRange) : Nat × Nat := (2 ^ 12 * r.base, 2 ^ 12 * (r.last + 1 - r.base))
/-- Whether an entry may come into force beside the others (R152); its own element range counts among those its scale region may not
meet (DESIGN CHOICE, log 65). -/
def frMay (r : FmtRange) (others : List FmtRange) : Bool :=
  let e := r.elemSpan
  let c := r.scaleSpan
  decide (2 ≤ r.fmt ∧ r.fmt ≤ 6 ∧ r.base ≤ r.last) && !meets c.1 c.2 e.1 e.2 &&
  (others.filter (·.en)).all fun o =>
    !meets e.1 e.2 o.elemSpan.1 o.elemSpan.2 && !meets e.1 e.2 o.scaleSpan.1 o.scaleSpan.2 && !meets c.1 c.2 o.elemSpan.1 o.elemSpan.2
/-- Writes an entry of one die; gives it as stored (R151, R152). -/
def frWrite (v : Vector FmtRange 32) (i : Fin 32) (w : FmtRange) : FmtRange :=
  let others := ((List.finRange 32).filter (· != i)).map fun k => v[k]
  if w.en then (if frMay w others then { w with ovl := false } else { w with en := false, ovl := true })
  else { w with ovl := v[i].ovl }
/-- FRCTL of an entry. -/
def FmtRange.ctl (r : FmtRange) : Nat := 16 * r.fmt + (if r.ovl then 2 else 0) + (if r.en then 1 else 0)
/-- A state without the reflections that hold bytes or scales of some spans of memory (R155). -/
def State.dropSpans (s : State) (l : List (Nat × Nat)) : State :=
  { s with reflections := s.reflections.filter fun r => !l.any fun p => meets p.1 p.2 (64 * (r.pa / 64)) 64 }
/-- FRSET: the entry of both dies (R151, R380), once no cached line of the old and new ranges is left (R155). -/
def execFrset (cmd : Command) (s : State) : Host.Outcome State Fault Refusal :=
  let i := hostArg cmd 1
  if h : badWord0 cmd = false ∧ i < 32 then
    let w : FmtRange := ⟨fieldOf (hostArg cmd 2) 12 40, fieldOf (hostArg cmd 3) 12 40, fieldOf (hostArg cmd 4) 3 49, fieldOf (hostArg cmd 5) 4 4,
      false, (hostArg cmd 5).testBit 0⟩
    let put : Vector FmtRange 32 → Vector FmtRange 32 := fun v => v.set i (frWrite v ⟨i, h.2⟩ w) h.2
    let old := (s.fr[(0 : Fin 2)])[i]'h.2
    let s1 := { s.dropSpans [old.elemSpan, old.scaleSpan, w.elemSpan, w.scaleSpan] with fr := s.fr.map put }
    .next (s1.complete cmd 0 (s1.fr[(0 : Fin 2)][i]'h.2).ctl)
  else .next (s.complete cmd stBADCMD 0)

/-- KEYLOAD: a key of the controllers (R361). -/
def execKeyload (cmd : Command) (s : State) : Host.Outcome State Fault Refusal :=
  let k := fieldOf (hostArg cmd 1) 0 11
  let a := hostArg cmd 2
  if badWord0 cmd = true ∨ k = 0 ∨ hostOk a 64 = false then .next (s.complete cmd stBADCMD 0)
  else .next ({ s with keys := putA s.keys k (BitVec.ofNat 512 (natOfBytes (s.hostRead a 64))) }.complete cmd 0 0)

/-- Whether a context maps a byte of physical addresses [lo, hi). -/
def State.mapsAny (s : State) (lo hi : Nat) : Bool :=
  decide (lo < hi) && s.contexts.any fun c => c.maps.any fun e => decide (e.pfn * 2 ^ 16 < hi) && decide (lo < e.pfn * 2 ^ 16 + e.page)
/-- Whether a context maps a frame of a vault of base and size in MiB. -/
def State.mapsVault (s : State) (b n : Nat) : Bool := s.mapsAny (capBase + 2 ^ 20 * b) (capBase + 2 ^ 20 * (b + n))
/-- VAULTSET: the vault's registers, and every VAULTPT zero (R350). -/
def execVaultset (cmd : Command) (s : State) : Host.Outcome State Fault Refusal :=
  let b := hostArg cmd 1
  let n := hostArg cmd 2
  if badWord0 cmd then .next (s.complete cmd stBADCMD 0)
  else if s.red then .next (s.complete cmd stREDUCED 0)
  else if 2 ^ 21 ≤ b ∨ 2 ^ 20 ≤ n ∨ b + n > 2 ^ 21 ∨ n > 524288 ∨ n > 1024 * s.cfg.vmax ∨ s.mapsVault b n = true ∨
      s.mapsVault s.vltbase.toNat s.vltsize.toNat = true then .next (s.complete cmd stBADCMD 0)
  else .next ({ s with vltbase := BitVec.ofNat 21 b, vltsize := BitVec.ofNat 20 n,
                       buffers := s.buffers.map fun (x : Buffer) => { x with point := 0 } }.complete cmd 0 0)

/-- The physical address of an offset in a buffer's part of the vault (R351). -/
def State.vaultPa (s : State) (buf off : Nat) : Nat :=
  capBase + 2 ^ 20 * s.vltbase.toNat + (16 * (off / 2 ^ 16) + buf) * 2 ^ 16 + off % 2 ^ 16
/-- The words of a record with its header and trailers, under the first key that finds it complete: 0, else one loaded; none: it is not
complete (log 81). -/
def State.recordAt (s : State) (pa : Nat) : Option (Nat × Nat) :=
  (0 :: s.keys.map (·.1)).findSome? fun k => let r := s.scanRec k pa; if r.1 = 0 then some (r.2.1, r.2.2) else none
/-- The sequence number that VAULTPT takes at a record that is not complete (R358): one below its header's; of several
keys one that makes it follow the record before it, else key 0; where the header is poisoned, that of the record before it (log 81). -/
def State.stopSeq (s : State) (pa q : Nat) : Nat :=
  let seq : Nat → Nat := fun k => (natOfBytes (s.homeBytes k pa 8) / 2 ^ 40 + 2 ^ 24 - 1) % 2 ^ 24
  if s.poisoned pa 8 then q else if (0 :: s.keys.map (·.1)).any fun k => seq k == q then q else seq 0
/-- Where a record of `n` words ends, and the next begins (R336, R337). -/
def recordEnd (off n : Nat) : Nat := off + 8 * (n + 3)
/-- Scans a buffer's records from an offset: where the scan stopped short of `stop`, and the sequence number of the last record read. -/
def State.scanBuffer (s : State) (buf stop : Nat) : Nat → Nat → Nat → Option (Nat × Nat)
  | 0, _, _ => none
  | f + 1, off, q =>
    if stop ≤ off then none
    else match s.recordAt (s.vaultPa buf off) with
      | some (q', n) => s.scanBuffer buf stop f (recordEnd off n) q'
      | none => some (off, s.stopSeq (s.vaultPa buf off) q)
/-- The starts of a buffer's records from an offset up to `stop`, each with the sequence number of the record before it. -/
def State.recordStarts (s : State) (buf stop : Nat) : Nat → Nat → Nat → List (Nat × Nat)
  | 0, _, _ => []
  | f + 1, off, q =>
    if stop ≤ off then []
    else (off, q) :: match s.recordAt (s.vaultPa buf off) with
      | some (q', n) => s.recordStarts buf stop f (recordEnd off n) q'
      | none => []
/-- VAULTPT moved back to the start of a record below `end`, with the sequence number of the record before it, or zero (R358 step 5). -/
def State.movePoint (s : State) (k : Fin 16) (off : Nat) : Option State :=
  let b := s.buffers[k]
  let stop := pointEnd b.point
  ((s.recordStarts k.val stop (stop / 8 + 1) 0 0).find? fun p => p.1 == off).map fun p =>
    { s with buffers := s.buffers.set k { b with point := n64 (p.2 * 2 ^ 40 + off) } }
/-- REPLAY of one buffer (R358): its VAULTPT after the scan and the offset of a stop. -/
def State.replayBuffer (s : State) (k : Fin 16) : Word64 × Option Nat :=
  let p := s.buffers[k].point
  match s.scanBuffer k.val (pointEnd p) (pointEnd p / 8 + 1) 0 0 with
  | some (off, q) => (n64 (q * 2 ^ 40 + off), some off)
  | none => (p, none)
/-- A buffer with its VAULTPT as REPLAY leaves it. -/
def State.replayed (s : State) (k : Fin 16) : Buffer :=
  let b := s.buffers[k]
  { b with point := (s.replayBuffer k).1 }
/-- The report of REPLAY: three words for each buffer, `seq`, `end`, and the offset of a stop or all ones (log 82). -/
def replayReport (l : List (Word64 × Option Nat)) : List Byte :=
  l.flatMap fun r => bytesOfNat 8 (pointSeq r.1) ++ bytesOfNat 8 (pointEnd r.1) ++ bytesOfNat 8 (r.2.getD (2 ^ 64 - 1))
/-- REPLAY (R358); word 2 bit 63 asks it first to move the VAULTPT of the buffer in bits [3:0] back to the offset in word 3 (log 107). -/
def execReplay (cmd : Command) (s : State) : Host.Outcome State Fault Refusal :=
  let a := hostArg cmd 1
  if badWord0 cmd then .next (s.complete cmd stBADCMD 0)
  else if s.red then .next (s.complete cmd stREDUCED 0)
  else if s.mapsVault s.vltbase.toNat s.vltsize.toNat = true ∨ hostOk a 384 = false then .next (s.complete cmd stBADCMD 0)
  else
    match (if (hostArg cmd 2).testBit 63 then s.movePoint ⟨hostArg cmd 2 % 16, Nat.mod_lt _ (by decide)⟩ (hostArg cmd 3) else some s) with
    | none => .next (s.complete cmd stBADCMD 0)
    | some s =>
      let l := (List.finRange 16).map s.replayBuffer
      let bs := Vector.ofFn fun k : Fin 16 => s.replayed k
      .next (({ s with buffers := bs }.hostWrite a (replayReport l)).complete cmd 0 0)

/-! ## Other modules (R384) -/

/-- ROUTE: the module's identifier and its route words. -/
def execRoute (cmd : Command) (s : State) : Host.Outcome State Fault Refusal :=
  let a := hostArg cmd 2
  if badWord0 cmd then .next (s.complete cmd stBADCMD 0)
  else if s.red then .next (s.complete cmd stREDUCED 0)
  else if hostOk a 1024 = false then .next (s.complete cmd stBADCMD 0)
  else .next ({ s with modId := BitVec.ofNat 9 (fieldOf (hostArg cmd 1) 0 7),
                       routes := Vector.ofFn fun m : Fin 128 => BitVec.ofNat 18 (s.hostWord (a + 8 * m.val)) }.complete cmd 0 0)
/-- EXPORT: an entry of the export table. -/
def execExportCmd (cmd : Command) (s : State) : Host.Outcome State Fault Refusal :=
  let i := hostArg cmd 1
  let w2 := hostArg cmd 4
  let e : Export := ⟨(hostArg cmd 2).testBit 63, fieldOf (hostArg cmd 2) 0 14, fieldOf (hostArg cmd 3) 0 14, fieldOf w2 53 11, w2.testBit 52, fieldOf w2 30 22⟩
  if badWord0 cmd then .next (s.complete cmd stBADCMD 0)
  else if s.red then .next (s.complete cmd stREDUCED 0)
  else if h : i < 64 then
    (if e.size = 0 ∧ e.v = true then .next (s.complete cmd stBADCMD 0) else .next ({ s with expt := s.expt.set i e }.complete cmd 0 0))
  else .next (s.complete cmd stBADCMD 0)

/-! ## Contexts (R174, R381) -/

/-- The mappings that the host's tables hold: pairs of entry words from the root on, up to a word that is not valid (log 83). -/
def State.tableMaps (s : State) (ctx : Nat) : Nat → Nat → List TEntry
  | 0, _ => []
  | f + 1, a =>
    let w0 := s.hostWord a
    let w1 := s.hostWord (a + 8)
    if w0.testBit 63 then
      ⟨fieldOf w0 61 2, w0.testBit 60, fieldOf w0 16 40, ctx, fieldOf w1 53 11, fieldOf w1 16 36⟩ :: s.tableMaps ctx f (a + 16)
    else []
/-- The state with a range of memory zero: a page, its poison gone. -/
def State.zeroRange (s : State) (lo hi : Nat) : State :=
  let out : Nat → Bool := fun w => decide (8 * w < lo) || decide (hi ≤ 8 * w)
  { s with mem := replaceCells s.mem lo hi [], poison := s.poison.filter out, latent := s.latent.filter fun e => out e.1 }
/-- The fields of a CTXNEW break R381. -/
def ctxBad (cmd : Command) : Bool :=
  let w1 := hostArg cmd 1
  let psize := hostArg cmd 5
  let pbase := hostArg cmd 6
  let pslots := hostArg cmd 7
  let sw := fieldOf w1 16 43 * 2 ^ 13
  badWord0 cmd || decide (w1 ≥ 2 ^ 59) || decide (hostArg cmd 4 ≥ 2 ^ 40) || decide (psize > 0x1_0000) || decide (pbase ≥ 2 ^ 56) ||
  decide (pslots ≥ 2 ^ 32) || pbase % 2 ^ 16 != 0 ||
  (psize * pslots != 0 && !(decide (0x8_0000 ≤ pbase) && decide (pbase + pslots * psize * 2 ^ 16 ≤ 0xC0_0000_0000_0000))) ||
  !(decide (0x8_0000 ≤ sw) && decide (sw + 2 ^ 13 ≤ 0xC0_0000_0000_0000))
/-- What a CTXNEW makes, or the status it fails with (R381): the context, and the entry that translates its seal words. -/
def State.contextOf (s : State) (cmd : Command) : Except Nat (Context × TEntry) :=
  let id := fieldOf (hostArg cmd 1) 0 16
  let sealb := fieldOf (hostArg cmd 1) 16 43
  let maps := s.tableMaps id 4096 (hostArg cmd 3)
  let hbm := fieldOf (hostArg cmd 4) 0 20
  let cap := fieldOf (hostArg cmd 4) 20 20
  if ctxBad cmd = true ∨ (s.context? id).isSome then .error stBADCMD
  else match maps.find? fun e => e.hit id (sealb * 2 ^ 13) with
    | none => .error stBADCMD
    | some e =>
      let used : Nat → Bool := fun f => s.frameUsed f || maps.any (·.holds f)
      let per := if s.red then stackFrames else 4 * stackFrames
      let p0 := pickFrames used (hbmFrame 0) per 0 ((hbm + 1) / 2)
      let p1 := pickFrames used (hbmFrame 1) per 0 (hbm / 2)
      let pc := pickFrames (fun f => used f || (s.vaultC (f * 2 ^ 16)).isSome) (fun k => 2 ^ 34 + k) (if s.red then 0 else capFrames) 0 cap
      if s.entryOk e = false ∨ e.w = false then .error stBADCMD
      else if p0.length + p1.length < hbm ∨ pc.length < cap then .error stSPACE
      else .ok ({ id := id, sealb := BitVec.ofNat 43 sealb, pasid := BitVec.ofNat 20 (hostArg cmd 2), root := n64 (hostArg cmd 3), pool0 := p0, pool1 := p1,
                  poolc := pc, psize := hostArg cmd 5, pbase := hostArg cmd 6, pslots := hostArg cmd 7, pused := [], sbind := [],
                  maps := maps ++ (s.images.flatMap (·.pages)).map fun m => { m with ctx := id } }, e)
/-- CTXNEW: the context, its shadow frames and its seal words zero. -/
def execCtxnew (cmd : Command) (s : State) : Host.Outcome State Fault Refusal :=
  match s.contextOf cmd with
  | .error st => .next (s.complete cmd st 0)
  | .ok (c, e) =>
    let s1 := (c.pool0 ++ c.pool1 ++ c.poolc).foldl (fun (z : State) f => z.zeroRange (f * 2 ^ 16) ((f + 1) * 2 ^ 16)) s
    let pa := e.pa (c.sealb.toNat * 2 ^ 13)
    let s2 := (List.range 128).foldl (fun (z : State) j => z.durableWrite 2 e.key (pa + 64 * j) (List.replicate 64 0)) s1
    .next ({ s2 with contexts := s2.contexts ++ [c] }.complete cmd 0 0)
/-- A tile without the entries and the shadows of a context; its misses wait for no answer any more (R174, R363). -/
def Tile.withoutCtx (t : Tile) (id : Nat) : Tile :=
  { t with cores := t.cores.map (fun c => { c with shadows := c.shadows.filter fun h => h.ctx != id }), tlb := t.tlb.filter fun e => e.ctx != id, capHas := t.capHas.filter fun e => e.ctx != id,
           eng := t.eng.map fun g => { g with tc := g.tc.filter fun e => e.ctx != id },
           misses := t.misses.map fun m => if m.ctx = id then { m with dead := true } else m }
/-- CTXEND: the context goes, and its pool with it (R174); one that a launch still needs stays (log 80). -/
def execCtxend (cmd : Command) (s : State) : Host.Outcome State Fault Refusal :=
  let id := fieldOf (hostArg cmd 1) 0 16
  if badWord0 cmd then .next (s.complete cmd stBADCMD 0)
  else if (s.context? id).isNone then .next (s.complete cmd stNOHANDLE 0)
  else if s.launches.any fun l => l.ctx == id && l.done.isNone then .next (s.complete cmd stBADCMD 0)
  else .next ({ s with contexts := s.contexts.filter fun c => c.id != id, reflections := s.reflections.filter fun r => r.ctx != id,
                       saved := (s.saved.filter fun (v : Saved) => v.ctx != id).map fun (v : Saved) => { v with tiles := v.tiles.map fun (t : Tile) => t.withoutCtx id },
                       tiles := s.tiles.map fun (p : Nat × Tile) => (p.1, p.2.withoutCtx id) }.complete cmd 0 0)

/-! ## Invalidation (R370) -/

/-- INVAL: the host's tables no longer hold the range (log 85), every tile blocks it at once, and each is to acknowledge. -/
def execInval (cmd : Command) (s : State) : Host.Outcome State Fault Refusal :=
  let id := fieldOf (hostArg cmd 1) 0 16
  if badWord0 cmd then .next (s.complete cmd stBADCMD 0)
  else if (s.context? id).isNone then .next (s.complete cmd stNOHANDLE 0)
  else
    .next (s.beginInval ⟨id, hostArg cmd 2, hostArg cmd 3, some ((qIx cmd.q).val, hostTag cmd), s.tiles.map (·.1)⟩)
/-- TILE_INVAL_ACK: a tile drops its entries of the oldest invalidation it owes, once what its threads have read is with them (R370); the last
acknowledgement is the report. -/
def execTileInvalAck (tile : Nat) (s : State) : Host.Outcome State Fault Refusal :=
  match s.invals.find? fun p => p.2.left.contains tile with
  | none => .refused (.notEnabled "TILE_INVAL_ACK: the tile owes no acknowledgement")
  | some (id, v) =>
    if (s.tile tile).returning v.ctx v.base v.len then .refused (.notEnabled "TILE_INVAL_ACK: a load has not returned its data")
    else
    let v' := { v with left := v.left.filter (· != tile) }
    let s1 := s.setTile tile ((s.tile tile).without v)
    .next (if v'.left.isEmpty then s1.invalDone id v' else { s1 with invals := putA s1.invals id v' })

/-! ## Power, faults (R368, R388) -/

/-- HBMCFG as a command leaves it that asks in word 2 (bit 63) for the `ath` of bits [13:0]: a value outside 256 to 8,192 is refused (R376,
log 118). -/
def State.putAth (s : State) (w : Nat) : State :=
  if w.testBit 63 ∧ 256 ≤ w % 2 ^ 14 ∧ w % 2 ^ 14 ≤ 8192 then { s with ath := BitVec.ofNat 14 w } else s
/-- PWRSET: PWRLIM within its bounds, else unchanged; the stored value is returned. -/
def execPwrset (cmd : Command) (s : State) : Host.Outcome State Fault Refusal :=
  let w := fieldOf (hostArg cmd 1) 0 16
  if badWord0 cmd then .next (s.complete cmd stBADCMD 0)
  else
    let s1 := if 1000 ≤ w ∧ w ≤ s.cfg.pmax then { s with pwrlim := BitVec.ofNat 16 w } else s
    .next ((s1.putAth (hostArg cmd 2)).complete cmd 0 s1.pwrlim.toNat)

/-- Moves fault records of clusters into a list, at most `n`: the position is free again. -/
def State.takeFaults (s : State) : List Nat → Nat → List Byte × State
  | [], _ => ([], s)
  | id :: l, n =>
    let svc := s.svcOf id
    let done := (getA s.faultRead id).getD 0
    let k := min n ((getA s.faultPos id).getD 0 - done)
    let at_ : Nat → Nat := fun j => 0x6_8000 + 16 * ((done + j) % 1024)
    let bs := (List.range k).flatMap fun j => s.bytesAt (localKey svc (at_ j)) 16
    let s1 := (List.range k).foldl (fun (z : State) j => (z.setFull (localKey svc (at_ j)) false).setFull (localKey svc (at_ j + 8)) false) s
    let (cs, s2) := State.takeFaults { s1 with faultRead := putA s1.faultRead id (done + k) } l (n - k)
    (bs ++ cs, s2)
/-- A seal binding as its three words, and a context's table as a host reads it (R247): 1,024 entries, those not in use zero. -/
def SBind.words (b : SBind) : List Nat := [2 ^ 63 + b.sl, b.start, b.len]
/-- The bytes of the table. -/
def Context.sealTable (c : Context) : List Byte :=
  c.sbind.flatMap (fun b => b.words.flatMap (bytesOfNat 8)) ++ List.replicate (24 * (1024 - c.sbind.length)) 0
/-- The report of a context's seal binding table that a command asks for in word 3 (bit 63 and the context), into the host buffer of word 4 (R247,
log 110): none where it asks for none. -/
def State.sealReport (s : State) (cmd : Command) : Except Nat State :=
  let b := hostArg cmd 4
  if !(hostArg cmd 3).testBit 63 then .ok s
  else match s.context? (fieldOf (hostArg cmd 3) 0 16) with
    | none => .error stNOHANDLE
    | some c => if hostOk b (24 * 1024) then .ok (s.hostWrite b c.sealTable) else .error stBADCMD
/-- HBMALT[s] of each stack (R376). -/
def State.hbmalt (s : State) (k : Fin 8) : Word64 := s.alerts[k] ++ s.boff[k]
/-- The report of HBMALT[0] to HBMALT[7] that a command asks for in word 3 (bit 62), into the host buffer of word 5 (R376, log 118). -/
def State.alertReport (s : State) (cmd : Command) : Except Nat State :=
  let b := hostArg cmd 5
  if !(hostArg cmd 3).testBit 62 then .ok s
  else if hostOk b 64 then .ok (s.hostWrite b ((List.finRange 8).flatMap fun k => bytesOfNat 8 (s.hbmalt k).toNat))
  else .error stBADCMD
/-- FAULTS: fault records pass to the host, and a seal binding table and the alerts where the command asks for them. -/
def execFaults (cmd : Command) (s : State) : Host.Outcome State Fault Refusal :=
  let a := hostArg cmd 1
  let ids := (List.range 20).map (fun c => c) ++ (List.range 20).map fun c => 32 + c
  let (bs, s1) := s.takeFaults ids (hostArg cmd 2)
  if badWord0 cmd = true ∨ hostOk a bs.length = false then .next (s.complete cmd stBADCMD 0)
  else match ((s1.hostWrite a bs).sealReport cmd).bind fun z => z.alertReport cmd with
    | .ok z => .next (z.complete cmd 0 (bs.length / 16))
    | .error st => .next (s.complete cmd st 0)

/-! ## Firmware (R385) and the reset of the compute dies (R389) -/

/-- FWLOAD: an image whose signature and version pass goes into the inactive slot. -/
def execFwload (cmd : Command) (s : State) : Host.Outcome State Fault Refusal :=
  let a := hostArg cmd 1
  let n := hostArg cmd 2
  if badWord0 cmd = true ∨ hostOk a n = false then .next (s.complete cmd stBADCMD 0)
  else
    let b := s.hostRead a n
    let v := Config.firmwareVersion b
    if Config.signatureValid b = true ∧ s.fwArb.toNat ≤ v.toNat then
      .next ({ s with fwSlots := s.setSlot (!s.fwAct) ⟨v, b⟩ }.complete cmd 0 0)
    else .next (s.complete cmd stSIGFAIL 0)

/-- Writes still in the buffers' receive queues are lost (R352), the newest undone first. -/
def State.undoVault (s : State) : State := s.vwrites.foldr (fun v z => z.undoWrite v) s
/-- The compute dies, command processors and service columns after a reset (R352, R387, R389): memory outside the dies, the vault's
domain, the host link with its queue pairs, and what stands in the module outside the dies, keep what they hold. -/
def State.resetDies (s0 : State) : State :=
  let s := s0.undoVault
  { State.reset with
    mem := s.mem.filter fun c => decide (c.1 < 2 ^ 52)
    empties := (s.empties.filter fun w => decide (8 * w < 2 ^ 52)) ++ mailboxEmptiesAt s.cfg
    poison := s.poison.filter fun w => decide (8 * w < 2 ^ 52)
    latent := s.latent.filter fun e => decide (8 * e.1 < 2 ^ 52)
    vltbase := s.vltbase, vltsize := s.vltsize, buffers := s.buffers.map fun b => { b with serving := none }
    ath := s.ath, alerts := s.alerts, boff := s.boff, boffRest := s.boffRest, acts := s.acts
    backoff := s.backoff.map fun b => (b.1, b.2.1, b.2.2 - s.cycle)
    queues := s.queues.map fun q => { q with busy := false }, qrr := s.qrr, journal := s.journal, msix := s.msix
    cprst := s.cprst, trst := s.trst, pwr := s.pwr, temp := s.temp, pwrlim := s.pwrlim, cfg := s.cfg
    fwArb := s.fwArb, fwTrial := s.fwTrial, fwAct := s.fwAct, fwSlots := s.fwSlots, fwCommit := s.fwCommit
    modId := s.modId, routes := s.routes, portsUp := s.portsUp, expt := s.expt, measure := s.measure, quotes := s.quotes
    stackBad := s.stackBad, nextInval := s.nextInval, lids := s.lids, usedLids := s.usedLids, handles := s.handles, agenda := s.agenda, seq := s.seq }
/-- The configuration table after its check (R385): that as shipped, not in force as valid, where its version is below the anti-rollback count. -/
def State.checkedTable (s : State) : CfgTable :=
  if s.cfg.valid = true ∧ s.fwArb.toNat ≤ s.cfg.version then s.cfg else { CfgTable.shipped with valid := false }
/-- The configuration table in force once firmware runs: the one it brings, with the values as shipped where that fails its check
(R385), else the one before. -/
def State.tableOf (s : State) (b : List Byte) : CfgTable :=
  if Config.bringsTable b then
    (if Config.tableValid b = true ∧ s.fwArb.toNat ≤ Config.tableField b 4 then
      { valid := true, svc := min 40 (Config.tableField b 0), fmax := min 940 (Config.tableField b 1), pmax := min 3200 (Config.tableField b 2)
        vmax := min 512 (Config.tableField b 3), version := Config.tableField b 4
        roles := Vector.ofFn fun r : Fin 32 => if Config.tableRole b r < 20 then some (Config.tableRole b r) else none }
    else { CfgTable.shipped with valid := false })
  else s.checkedTable
/-- The module resets into a firmware slot (R385, R388): what the command processors had taken is not posted (log 86). -/
def State.resetInto (s : State) (slot : Bool) : State :=
  let b := (s.slotOf slot).image
  let t := s.tableOf b
  let z := { s with cfg := t }.resetDies
  { z with queues := z.queues.map fun q => { q with reserved := 0 }, journal := [], pwrlim := BitVec.ofNat 16 t.pmax,
           measure := if Config.bringsTable b then z.measure.set 2 (Config.tableMeasurement b) else z.measure }
/-- FWACT: the module resets into the trial slot; where that holds no image, the command is refused (log 86). -/
def execFwact (cmd : Command) (s : State) : Host.Outcome State Fault Refusal :=
  if badWord0 cmd = true ∨ (s.slotOf (!s.fwAct)).image.isEmpty = true then .next (s.complete cmd stBADCMD 0)
  else .next ({ s with fwTrial := 1 }.resetInto (!s.fwAct))

/-! ## Queue pairs (R378, R379, R383) -/

/-- Completions posted that the host has not consumed. -/
def QueuePair.unread (p : QueuePair) : Nat := (p.ctail + p.qsize.toNat - p.qchead.toNat % p.qsize.toNat) % p.qsize.toNat
/-- Whether a pair may take a command now (R379, R383). -/
def QueuePair.mayTake (p : QueuePair) : Bool :=
  decide (p.qsize.toNat ≠ 0) && !p.busy && decide (p.shead ≠ p.qstail.toNat % p.qsize.toNat) && decide (p.unread + p.reserved + 2 ≤ p.qsize.toNat)
/-- The next pair in turn that may take one. -/
def State.nextPair (s : State) : Option (Fin 16) :=
  ((List.range 16).map fun k => qIx (s.qrr.val + k)).find? fun q => s.queues[q].mayTake
/-- The command an `op` names (R380). -/
def commandOf (op : Nat) (c : Command) : Option Instr :=
  match op with
  | 0x01 => some (.ident c) | 0x02 => some (.load c) | 0x03 => some (.unload c) | 0x04 => some (.launch c) | 0x05 => some (.preempt c)
  | 0x06 => some (.resume c) | 0x07 => some (.frset c) | 0x08 => some (.inval c) | 0x09 => some (.keyload c) | 0x0A => some (.vaultset c)
  | 0x0B => some (.replay c) | 0x0C => some (.route c) | 0x0D => some (.exportCmd c) | 0x0E => some (.fwload c) | 0x0F => some (.fwact c)
  | 0x10 => some (.attest c) | 0x11 => some (.ctxnew c) | 0x12 => some (.ctxend c) | 0x13 => some (.pwrset c) | 0x14 => some (.faults c)
  | _ => none
/-- QUEUE_COMMAND_TAKE: at its turn a pair takes one entry; the command comes next. Any other `op` completes BADCMD. -/
def execQueueCommandTake (q : Nat) (s : State) : Host.Outcome State Fault Refusal :=
  match s.nextPair with
  | none => .refused (.notEnabled "QUEUE_COMMAND_TAKE: no pair can take a command")
  | some k =>
    if k.val ≠ q ∨ s.cpDown[(0 : Fin 2)] = true then .refused (.notEnabled "QUEUE_COMMAND_TAKE: another pair comes first, or the command processor restarts")
    else
      let p := s.queues[k]
      let a := p.qsbase.toNat + 64 * p.shead
      let c : Command := ⟨q, (List.range 8).map fun j => n64 (s.hostWord (a + 8 * j))⟩
      let op := fieldOf (hostArg c 0) 56 8
      let s1 := s.modQueue q fun p => { p with shead := (p.shead + 1) % p.qsize.toNat, reserved := p.reserved + 1, busy := true }
      let s2 := { s1 with qrr := qIx (q + 1), journal := s1.journal ++ [(⟨q, hostTag c, op, 0⟩ : Taken)] }
      match commandOf op c with
      | some i => .next { s2 with agenda := i :: s2.agenda }
      | none => .next (s2.complete c stBADCMD 0)

/-- QSTAIL_DOORBELL. -/
def execQstailDoorbell (q : Nat) (v : BitVec 64) (s : State) : Host.Outcome State Fault Refusal :=
  if q < 16 then .next (s.modQueue q fun p => { p with qstail := v }) else .refused (.notEnabled "QSTAIL_DOORBELL: no such pair")
/-- QCHEAD_WRITE. -/
def execQcheadWrite (q : Nat) (v : BitVec 64) (s : State) : Host.Outcome State Fault Refusal :=
  if q < 16 then .next (s.modQueue q fun p => { p with qchead := v }) else .refused (.notEnabled "QCHEAD_WRITE: no such pair")
/-- The sizes a ring may have; 0 disables the pair (R378). -/
def qsizeOk (v : Nat) : Bool := v == 0 || (List.range 9).any fun k => v == 2 ^ (k + 4)
/-- A queue pair after a write of its register at an offset (R378): one of QSIZE starts both rings afresh (log 87). -/
def QueuePair.write (p : QueuePair) (off : Nat) (v : Word64) : QueuePair :=
  match off with
  | 0x00 => { p with qsbase := v &&& ~~~0xFFF#64 }
  | 0x08 => { p with qcbase := v &&& ~~~0xFFF#64 }
  | 0x10 => if qsizeOk v.toNat then { p with qsize := v, qstail := 0, qchead := 0, shead := 0, ctail := 0, ph := true } else p
  | 0x18 => { p with qstail := v }
  | 0x20 => { p with qchead := v }
  | 0x28 => { p with qvec := v }
  | _ => p
/-- A queue pair's register at an offset, as the host reads it (R378). -/
def QueuePair.read (p : QueuePair) (off : Nat) : Word64 :=
  match off with
  | 0x00 => p.qsbase | 0x08 => p.qcbase | 0x10 => p.qsize | 0x18 => p.qstail | 0x20 => p.qchead | 0x28 => p.qvec
  | _ => 0

end Sys2Proof.Machine
end

