-- ==== Sys2Proof/Machine/VGroups.lean ====
section
/-! DEFINITION. Vector groups: `vmov.join`, `vmov.leave`, forwarding and detachment (10 R204 to R207). -/
namespace Sys2Proof.Machine

/-- The cores of the tiles that are not fresh, in tile and core order. -/
def State.coreRefs (s : State) : List CoreRef := s.tiles.flatMap fun p => [⟨p.1, 0⟩, ⟨p.1, 1⟩, ⟨p.1, 2⟩]

/-- Every thread of a core that the tiles list. -/
def State.threadRefs (s : State) : List ThreadRef := s.coreRefs.flatMap fun r => (List.finRange 8).map fun h => ⟨r.tile, r.core, h⟩
/-- A `vmov.join` that waits for its group to form. -/
abbrev tagJoin : Nat := 20
/-- A leader's `join` or `leave` that waits for detached members. -/
abbrev tagLead : Nat := 21
/-- A detached member's `join`. -/
abbrev tagRejoin : Nat := 22
/-- A detached member's `leave`. -/
abbrev tagLeave : Nat := 23

/-! ## Members -/

/-- The members of a leader's group in a state. -/
def State.vgMembers (s : State) (t : ThreadRef) (v : Vg) : List ThreadRef :=
  s.threadRefs.filter fun f => (s.thread f).vg == v && (s.thread f).vgLeader == some t
/-- The distance in tiles of a follower from its leader along the chain (R204). -/
def vgHops (l f : Nat) : Nat := max (tileRow f - tileRow l) (tileCol f - tileCol l)
/-- Sends an instruction to the forward buffers of a leader's attached followers, 2 cycles per hop (R205). -/
def State.forward (s : State) (t : ThreadRef) (i : Instr) (ill : Option Word32) (pc nl : Nat) : State :=
  (s.vgMembers t .attached).foldl (fun (z : State) f =>
    let y := z.thread f
    z.setThread f { y with vgIn := y.vgIn ++ [⟨i, ill, pc, nl, z.cycle + 2 * vgHops t.tile f.tile⟩] }) s
/-- A leader whose decoder refused a word forwards the trap (R205). -/
def State.forwardIll (s : State) (t : ThreadRef) (w : Word32) (pc : Nat) : State :=
  if (s.thread t).vg = .leader then s.forward t (.sysNop ⟨.base, .none, 0⟩) (some w) pc (s.thread t).pc else s
/-- A thread that belongs to no group (R204). -/
def Thread.toSolo (x : Thread) : Thread := { x with vg := .solo, vgLeader := none, vgSize := 0, vgIn := [], vgBuf := [], vgRun := none }
/-- A thread that becomes ATTACHED: its fetch buffer is discarded (R123). -/
def Thread.attach (x : Thread) : Thread := { x with vg := .attached, vgIn := [], vgBuf := [], fbuf := [] }
/-- A waiting thread goes on behind its waiting instruction. -/
def Thread.leaveWait (x : Thread) : Thread :=
  match x.wait with
  | some w => { x with pc := w.pc + 4 * (match w.instr with | .vmovJoin h _ => h.form.words | .vmovLeave h => h.form.words | _ => 0),
                       lastPc := w.pc, wait := none, st := .ready }
  | none => x
/-- Whether a thread waits with a tag at an address. -/
def Thread.waitsAt (x : Thread) (tag pc : Nat) : Bool :=
  x.st == .waiting && match x.wait with | some w => w.why.same (.retry tag 0) && w.pc == pc | none => false

/-- The followers that a leader's descriptor claims, each the thread of the leader's number on the arithmetic core of a tile beside
it; none where a tile leaves the die, crosses the service column or belongs to no gang of the launch (R204). -/
def State.claimed (s : State) (t : ThreadRef) (south : Bool) (size : Nat) : Option (List ThreadRef) :=
  let k := s.kernel t
  let tiles := (List.range (size - 1)).map fun j =>
    let d := j + 1
    (if south then tileRow t.tile + d else tileCol t.tile + d, if south then t.tile + 64 * d else t.tile + d)
  if tiles.all fun p => (if south then decide (p.1 ≤ 31) else decide (p.1 ≤ 40)) && tileCol p.2 != s.svc &&
      (match (s.tile p.2).gang.bind s.gang? with | some g => g.lid == k.lid | none => false) then
    some (tiles.map fun p =>
      let o := (((s.core ⟨p.2, t.core⟩).kernels.find? fun o => o.pos == k.pos && o.lid == k.lid).map (·.sb)).getD k.sb
      ⟨p.2, t.core, ⟨(o + s.tnum t) % 8, Nat.mod_lt _ (by decide)⟩⟩)
  else none

/-! ## vmov.join and vmov.leave -/

/-- The TVAL of a wait of a group (R216). -/
def vgVal (s : State) : Word64 := reasonVal 4 s.me.pc

/-- Whether a descriptor keeps the table of R204. -/
def joinDescOk (x : Int) : Bool :=
  let v := x.toNat
  decide (0 ≤ x) && decide (v < 256) && !v.testBit 5 &&
    (if v.testBit 6 then v % 32 == 0 else decide (2 ≤ v % 32) && decide (v % 32 ≤ 16))

/-- Whether an attached follower has executed everything that its leader has forwarded to it. -/
def Thread.vgDone (x : Thread) : Bool := x.st == .halted || (x.vgIn.isEmpty && x.vgBuf.isEmpty && x.vgRun.isNone)
/-- A leader's `join` or `leave`: it waits until every detached member waits with `tag` at its address (R206), and, since a member may detach at an
instruction forwarded before (R205, R207), until every attached one has executed those. A `join` has been forwarded by then, to the members attached
before it (`early`). -/
def leadWait (s : State) (i : Instr) (h : Hdr) (tag : Nat) (early : Bool) (fin : List ThreadRef → State → State) : M State :=
  let pc := s.me.pc
  let det := s.vgMembers s.cur .detached
  let s1 := match s.me.vgRun with
    | some _ => (if early then s.forward s.cur i none pc (pc + Hdr.len h) else s).setMe { s.me with vgRun := none }
    | none => s
  if det.all (fun f => (s.thread f).waitsAt tag pc) && (s1.vgMembers s1.cur .attached).all (fun f => (s1.thread f).vgDone) then pure (fin det s1)
  else .error (s1.hold i (.retry tagLead 0) (some (vgVal s)))

/-- The course of `vmov.join` (R204, R206): the descriptor is read and tested once, as it issues. -/
def joinM (s : State) (h : Hdr) (a : NameRef) : M State := do
  let i : Instr := .vmovJoin h a
  match s.me.vg with
  | .attached => do
    let s1 ← s.issue i h [] [] none
    pure (s1.done h)
  | .detached => do
    let _ ← s.issue i h [] [] none
    holdM s i tagRejoin (some (vgVal s))
  | .leader => do
    let s1 ← s.issue i h [] [] none
    leadWait s1 i h tagRejoin true fun det z =>
      (det.foldl (fun (y : State) f => y.setThread f (y.thread f).leaveWait.attach) z).done h
  | .solo => do
    match s.stage with
    | some (20, v) => .error (s.hold i (.retry tagJoin v) (some (vgVal s)))
    | _ => pure ()
    let s1 ← s.issue i h [a] [] none
    let (x, s2) ← s.read i h a s1
    if !joinDescOk x.val then trapM s .ill (instrVal i)
    let v := x.val.toNat
    if s2.cur.core ≠ 2 then trapM s .access (w64 x.val)
    if !v.testBit 6 ∧ (s2.claimed s2.cur (v.testBit 7) (v % 32)).isNone = true then trapM s .access (w64 x.val)
    .error (s.hold i (.retry tagJoin v) (some (vgVal s)))
/-- `vmov.join` (R204, R206). -/
def execVmovJoin (h : Hdr) (a : NameRef) (s : State) : Host.Outcome State Fault Refusal := finish (joinM s h a)

/-- The course of `vmov.leave` (R206). -/
def leaveM (s : State) (h : Hdr) : M State := do
  let i : Instr := .vmovLeave h
  let s1 ← s.issue i h [] [] none
  match s1.me.vg with
  | .solo => pure (s1.done h)
  | .attached =>
    let s2 := s1.goTo (s1.me.pc + Hdr.len h)
    pure (s2.setMe s2.me.toSolo)
  | .detached => holdM s i tagLeave (some (vgVal s))
  | .leader =>
    leadWait s1 i h tagLeave false fun det z =>
      let pc := z.me.pc
      let z1 := det.foldl (fun (y : State) f => y.setThread f (y.thread f).leaveWait.toSolo) z
      let z2 := (z1.forward z1.cur i none pc (pc + Hdr.len h)).done h
      z2.setMe z2.me.toSolo
/-- `vmov.leave` (R206). -/
def execVmovLeave (h : Hdr) (s : State) : Host.Outcome State Fault Refusal := finish (leaveM s h)

/-- VG_FORM: every claimed follower waits in its own `join`, and all become members in one cycle (R204). -/
def execVgForm (t : ThreadRef) (s : State) : Host.Outcome State Fault Refusal :=
  let x := s.thread t
  match x.wait with
  | none => .refused (.notEnabled "VG_FORM: the thread does not wait")
  | some w =>
    match w.why with
    | .retry 20 v =>
      if x.st ≠ .waiting ∨ x.vg ≠ .solo ∨ v.testBit 6 = true then .refused (.notEnabled "VG_FORM: the thread leads no group")
      else match s.claimed t (v.testBit 7) (v % 32) with
        | none => .refused (.notEnabled "VG_FORM: a claimed tile is not bound to the launch")
        | some fs =>
          let ok := fs.all fun f =>
            let y := s.thread f
            y.st == .waiting && y.vg == .solo && match y.wait with
              | some u => (match u.why with | .retry 20 d => d.testBit 6 && d.testBit 7 == v.testBit 7 | _ => false)
              | none => false
          if !ok then .refused (.notEnabled "VG_FORM: a follower does not wait yet")
          else
            let dir : Dir := if v.testBit 7 then .s else .e
            let s1 := fs.foldl (fun (z : State) f =>
              z.setThread f { (z.thread f).leaveWait.attach with vgLeader := some t, vgDir := dir, vgSize := 0 }) s
            .next (s1.setThread t { (s1.thread t).leaveWait with vg := .leader, vgLeader := none, vgDir := dir, vgSize := v % 32, vgRun := none })
    | _ => .refused (.notEnabled "VG_FORM: the thread waits for something else")

/-- VG_FORWARD: a forwarded instruction arrives in a follower's forward buffer (R205). -/
def execVgForward (t : ThreadRef) (s : State) : Host.Outcome State Fault Refusal :=
  let x := s.thread t
  match x.vgIn with
  | [] => .refused (.notEnabled "VG_FORWARD: nothing is on its way")
  | f :: l =>
    if f.due > s.cycle then .refused (.notEnabled "VG_FORWARD: the instruction has not arrived")
    else if x.vgBuf.length ≥ 8 then .refused (.notEnabled "VG_FORWARD: the buffer is full")
    else .next (s.setThread t { x with vgIn := l, vgBuf := x.vgBuf ++ [f] })

/-! ## Forwarding and detachment (R205) -/

/-- A follower detaches: it discards its buffer and goes on alone. -/
def State.detach (s : State) (t : ThreadRef) : State :=
  let x := s.thread t
  ((s.setThread t { x with vgRun := none, vg := .detached, vgIn := [], vgBuf := [] }).redirect t x.pc).count t.coreRef 0x27

/-- The instruction of a leader that has completed or trapped is forwarded to its attached followers; an attached follower
that has executed one compares its next address with the leader's, and detaches when they differ (R205). -/
def State.vgSettle (s : State) (t : ThreadRef) : State :=
  let x := s.thread t
  match x.vgRun with
  | none => s
  | some (i, p, nl) =>
    if x.st = .waiting ∨ x.st = .frozen ∨ x.st = .parked then s
    else if x.vg = .leader then (s.setThread t { x with vgRun := none }).forward t i none p x.pc
    else if x.vg = .attached ∧ x.pc ≠ nl ∧ x.st ≠ .halted then s.detach t
    else s.setThread t { x with vgRun := none }

/-- Every thread of a group settled, at the end of a cycle. -/
def State.vgSettleAll (s : State) : State := s.threadRefs.foldl State.vgSettle s

end Sys2Proof.Machine
end

