-- ==== Sys2Proof/Machine/Sched.lean ====
section
/-! DEFINITION. What a cycle does, as data: which core issues next and what its slot's thread does (12 R217 to R219, 17 R320),
fetching (06 R114, R122), which waits are tried again, and which steps of the machine may come about. -/
namespace Sys2Proof.Machine

/-! ## Fetching -/

/-- A code word of a thread: from its fetch buffer, else from memory now (R122). -/
def State.fetchWord (s : State) (t : ThreadRef) (a : Nat) : FetchWord :=
  ((s.thread t).fbuf.find? fun w => w.addr == a).getD (s.codeWord t.tile a)
/-- Whether a word of code must wait for a W entry of the scoreboard (R171). -/
def State.fetchHeld (s : State) (t : ThreadRef) (a : Nat) : Bool :=
  !((s.thread t).fbuf.any fun w => w.addr == a) && s.boardW t.tile a 4

/-- What a fetch finds (R96 steps 1 to 5, R114, R371). -/
inductive Fetched
  /-- a word is under a W entry: the slot stays empty -/
  | held
  /-- the instruction would pass the end of local memory -/
  | past
  /-- a word is poisoned -/
  | poison (addr : Nat)
  /-- the decoder refuses it: ILL with its first word -/
  | ill (w0 : Word32)
  /-- an instruction of so many words (or an unassigned encoding) -/
  | instr (i : Instr) (n : Nat)
  deriving DecidableEq, Repr

/-- Fetches and decodes the next instruction of a thread. -/
def State.fetch (s : State) (t : ThreadRef) : Fetched :=
  let pc := (s.thread t).pc
  if s.fetchHeld t pc then .held
  else
    let w0 := s.fetchWord t pc
    let n := (formOf (w0.word.setWidth 2)).words
    let as := (List.range n).map fun k => pc + 4 * k
    if pc + 4 * n > 0x8_0000 then .past
    else if as.any (s.fetchHeld t) then .held
    else
      let ws := as.map (s.fetchWord t)
      match ws.find? (·.poison) with
      | some w => .poison w.addr
      | none =>
        match decodeWords (ws.map (·.word)) with
        | .ok i => .instr i n
        | .error _ => .ill w0.word

/-- The buffer after the issue of an instruction of `n` words: words behind its end are dropped and the four that follow
are read (R122); poisoned ones count CODEPOIS. -/
def State.refill (s : State) (t : ThreadRef) (n : Nat) : State :=
  let x := s.thread t
  let e := x.pc + 4 * n
  let own := (List.range n).map fun k => x.pc + 4 * k
  let buf0 := s.prefetch t.tile x.fbuf own
  let buf := s.prefetch t.tile buf0 [e, e + 4, e + 8, e + 12]
  ((s.setThread t { x with fbuf := buf.filter fun w => e ≤ w.addr }).countCode t.coreRef x.fbuf buf).found t 0 0 (localKey t.tile x.pc) (4 * n + 16)

/-! ## The slot -/

/-- Classes in which instructions of one cycle are applied: those of R303 and R320; guards (R282) with the first of them, writes of GEPS (R330)
behind the last, then the deque owner's (R230). Class 0: every other instruction, for which no such order is given. -/
def issueClass : Instr → Nat
  | .grpReward .. => 1
  | .engGuard .. => 1
  | .sysHalt .. => 2
  | .grpCancel .. => 4
  | .grpFork .. => 5
  | .grpClose .. => 6
  | .grpOpen .. => 7
  | .grpWait .. => 8
  | .grpWaitFf .. => 8
  | .grpStat .. => 9
  | .sysSetc _ c _ => if c.toNat = 0x200 then 10 else 0
  | .taskSpawn .. => 11
  | .taskPop .. => 11
  | _ => 0
/-- The class in which a cycle tests the timeouts of groups (R303). -/
abbrev timeoutClass : Nat := 3
/-- The class of the deque owner's instructions, which come in the order of issue (R230). -/
abbrev dequeClass : Nat := 11
/-- Instructions that act among those of one cycle in an order of their own wherever they had to wait. -/
def ordered (i : Instr) : Bool := issueClass i != 0

/-- What a thread does in its slot. -/
inductive Slot
  | asyncTrap
  | fetchEnd
  /-- it reaches a checkpoint while a cooperative request is pending (R236) -/
  | stop
  | forwarded
  | fetched (f : Fetched)
  deriving DecidableEq, Repr

/-- Whether an attached follower of a leader has a full forward buffer (R205). -/
def State.vgFull (s : State) (t : ThreadRef) : Bool :=
  s.tiles.any fun p => (List.finRange 8).any fun h =>
    let x := (p.2.cores[(2 : Fin 3)]).threads[h]
    x.vg == .attached && x.vgLeader == some t && decide (8 ≤ x.vgBuf.length)

/-- Whether a cooperative request stops the thread at its next instruction (R236). -/
def State.atCheckpoint (s : State) (t : ThreadRef) : Bool :=
  match s.gang? (s.kernel t).gang with
  | some g => (match g.preempt with | some p => !p.forced | none => false) && (s.kernel t).live.any fun l => l.loc == (s.thread t).pc
  | none => false

/-- Whether a forced save is to stop a leader from forwarding (R207). -/
def State.forwardStopped (s : State) (t : ThreadRef) : Bool :=
  match s.gang? (s.kernel t).gang with
  | some g => (match g.preempt with | some p => p.forced | none => false)
  | none => false
/-- Whether an attached follower stands at a checkpoint with nothing forwarded to come: its leader has stopped there (R207, R236). -/
def State.followStops (s : State) (t : ThreadRef) : Bool :=
  let x := s.thread t
  x.vgIn.isEmpty && s.atCheckpoint t && match x.vgLeader with | some l => (s.thread l).st == .stopped | none => false
/-- What the thread that owns the slot does; none where the slot stays empty (R217, R218). -/
def State.slot (s : State) (t : ThreadRef) : Option Slot :=
  let x := s.thread t
  let c := s.core t.coreRef
  if x.st ≠ .ready ∨ c.repacking t.h = true ∨ c.issued = s.cycle + 1 ∨ s.stopping t = true then none
  else if x.pend.isSome then some .asyncTrap
  else if x.vg = .attached then
    (if !x.vgBuf.isEmpty then some .forwarded else if s.followStops t then some .stop else none)
  else if x.vg = .leader ∧ (s.vgFull t = true ∨ x.vgRun.isSome = true ∨ s.forwardStopped t = true) then none
  else if x.pc = 0x8_0000 then some .fetchEnd
  else if s.atCheckpoint t then some .stop
  else match s.fetch t with
    | .held => none
    | f => some (.fetched f)

/-- The class of what a thread's slot does. -/
def Thread.slotClass (x : Thread) : Slot → Nat
  | .fetched (.instr i _) => issueClass i
  | .forwarded => (match x.vgBuf with | f :: _ => issueClass f.instr | [] => 0)
  | _ => 0

/-- The hardware thread that owns the slot of this cycle (R217). -/
def State.slotThread (s : State) : Fin 8 := ⟨s.cycle % 8, Nat.mod_lt _ (by decide)⟩

/-- Marks a core's slot as used. -/
def State.useSlot (s : State) (t : ThreadRef) : State :=
  s.setCore t.coreRef { s.core t.coreRef with issued := s.cycle + 1, due := 0 }

/-! ## Waits tried again -/

/-- Whether a thread's wait is tried again in this cycle: it is WAITING, or a save has frozen it at an instruction that completes first (R238),
and its attempt is not about to be contained. -/
def State.triesAgain (s : State) (t : ThreadRef) (w : WaitRec) : Bool :=
  let x := s.thread t
  w.retries && (x.st == .waiting || (x.st == .frozen && w.completes)) && !s.stopping t
/-- The waits that are tried again, of the instructions that `p` picks. -/
def State.waits (s : State) (p : Instr → Bool) : List (ThreadRef × WaitRec) :=
  s.threadRefs.filterMap fun t => match (s.thread t).wait with
    | some w => if s.triesAgain t w && p w.instr then some (t, w) else none
    | none => none
/-- The one of least place in the order of issue. -/
def firstWait (l : List (ThreadRef × WaitRec)) : Option (ThreadRef × WaitRec) :=
  l.foldl (fun best c => match best with
    | none => some c
    | some b => if c.2.seq < b.2.seq then some c else some b) none
/-- The WAITING thread to try next: the least place in the order of issue from `last` on (R102). -/
def State.nextRetry (s : State) (last : Nat) : Option (ThreadRef × WaitRec) := firstWait ((s.waits fun i => !ordered i).filter fun p => decide (last ≤ p.2.seq))
/-- The thread whose wait has reached its limit with this cycle, the oldest first (R215). -/
def State.nextExpired (s : State) : Option (ThreadRef × WaitRec) := firstWait ((s.waits fun _ => true).filter fun p => s.expired p.1)

/-! ## Turns of the issue phases (R303, R320) -/

/-- What comes about in the issue phases of a cycle: a thread's slot; a thread whose slot's instruction acts later in the cycle, in the order of its
class; an instruction of such a class that waits; a group's timeout. -/
inductive Turn
  | slot (t : ThreadRef) (sl : Slot)
  | mark (t : ThreadRef)
  | again (t : ThreadRef) (w : WaitRec)
  | timeout (gang : Nat) (gid : Nat)
  deriving DecidableEq, Repr

/-- The place of a thread in the order of R320: tile, core, thread. -/
def slotKey (t : ThreadRef) : Nat := 24 * t.tile + 8 * t.core.val + t.h.val
/-- The place of an instruction of a class: that of its thread, or for the deque owner's its place in the order of issue (R230). -/
def turnKey (cls seq : Nat) (t : ThreadRef) : Nat := if cls = dequeClass then seq else slotKey t
/-- The thread that owns the slot of a core in this cycle. -/
def State.ownerOf (s : State) (r : CoreRef) : ThreadRef := ⟨r.tile, r.core, s.slotThread⟩
/-- What a thread does whose slot's instruction was marked to act now, in the order of its class: an asynchronous trap of this cycle waits for its
next slot. -/
def State.dueSlot (s : State) (t : ThreadRef) : Option Slot :=
  if (s.core t.coreRef).due = s.cycle + 1 then
    let z := s.setThread t { s.thread t with pend := none }
    (z.setCore t.coreRef { z.core t.coreRef with issued := 0 }).slot t
  else none
/-- The turns of class 0: every slot, those whose instruction has a class of its own being marked. -/
def State.slotTurns (s : State) : List (Nat × Nat × Turn) :=
  s.coreRefs.filterMap fun r =>
    let t := s.ownerOf r
    (s.slot t).map fun sl => (0, slotKey t, if (s.thread t).slotClass sl = 0 then .slot t sl else .mark t)
/-- The turns of the other classes, with their class and their place in it. -/
def State.orderedTurns (s : State) : List (Nat × Nat × Turn) :=
  (s.coreRefs.filterMap fun r =>
    let t := s.ownerOf r
    match s.dueSlot t with
    | some sl =>
      let c := (s.thread t).slotClass sl
      if c = 0 then none else some (c, turnKey c (s.seq + slotKey t) t, .slot t sl)
    | none => none) ++
  (s.waits ordered).map (fun p => (issueClass p.2.instr, turnKey (issueClass p.2.instr) p.2.seq p.1, .again p.1 p.2)) ++
  s.gangs.flatMap fun g => g.groups.map fun o => (timeoutClass, 64 * g.id + o.gid, .timeout g.id o.gid)
/-- The next turn at or after (class, place): the least class, then the least place. Class 0 is a phase of its own. -/
def State.nextTurn (s : State) (cls key : Nat) : Option (Nat × Nat × Turn) :=
  ((if cls = 0 then s.slotTurns else s.orderedTurns).filter fun c => decide (cls < c.1) || (c.1 == cls && decide (key ≤ c.2.1))).foldl (fun best c => match best with
    | none => some c
    | some b => if c.1 < b.1 ∨ (c.1 = b.1 ∧ c.2.1 < b.2.1) then some c else some b) none

/-! ## Steps of the machine that may come about -/

/-- A step that may come about by itself, or in a thread's slot. -/
inductive Ev
  | asyncTrapEntry (a : ThreadRef)
  | fetchEndAccess (a : ThreadRef)
  | vgForward (a : ThreadRef)
  | waitlimExpire (a : ThreadRef)
  | containNode (a : BitVec 64)
  | repackUnfreeze (a : CoreRef)
  | longOpComplete (a : ThreadRef)
  | asyncWrite (a : CoreRef)
  | stealReply (a : ThreadRef)
  | stealRequest (a : CoreRef)
  | parkStealRetry (a : ThreadRef)
  | mxCommandComplete (a : Nat)
  | groupTimeout (a : Nat) (b : Nat)
  | barrierComplete (a : Nat) (b : BarLevel)
  | vgForm (a : ThreadRef)
  | forkRemoteCopy (a : ThreadRef)
  | preemptTimeout (a : Nat)
  | gangStart (a : Nat) (b : Nat)
  | fillDeliver (a : Nat)
  | sidelogReplay (a : Nat)
  | missRecord (a : Nat) (b : Nat)
  | meshWordArrive (a : CoreRef) (b : Dir)
  | engReservationGrant (a : CoreRef)
  | engineCommandAccept (a : CoreRef)
  | engineFollowon (a : Nat)
  | engineCommandEnd (a : Nat) (b : Nat) (c : Nat)
  | engineStatusPost (a : CoreRef)
  | engineBurst (a : Nat) (b : Nat) (c : Nat)
  | arrayConfigMessage (a : Nat) (b : Dir)
  | arrayChannelMessage (a : Nat) (b : Dir)
  | doorbellNotice (a : Nat)
  | unveilFlip (a : ThreadRef)
  | shadowDiscard (a : ThreadRef)
  | storeEntryPerform (a : CoreRef) (b : Nat)
  | vaultWriteDurable (a : Nat) (b : Nat)
  | tileInvalAck (a : Nat)
  | leaseRowRelease (a : CoreRef)
  | imageRelease (a : Nat)
  | statusWordArrive (a : Nat) (b : Nat)
  | launchComplete (a : BitVec 64)
  | requestWithdrawn (a : Nat)
  | coopSave (a : Nat)
  | forcedSave (a : Nat)
  | tourFinish (a : CoreRef)
  | tourToken (a : CoreRef)
  | tourRoundStart (a : CoreRef)
  | bindRecordWrite (a : BitVec 64) (b : Place)
  | queueCommandTake (a : Nat)
  | hbmBackoffEnd (a : Nat) (b : Nat)
  | peerTimeout (a : ThreadRef)
  | hbmAlert (a : Nat) (b : Nat) (c : Nat)
  | cpRestarted (a : Nat)
  deriving DecidableEq, Repr

/-- The numbers of the listed tiles. -/
def State.tileNums (s : State) : List Nat := s.tiles.map (·.1)
/-- The identifiers of the gangs bound. -/
def State.gangIds (s : State) : List Nat := s.gangs.map fun g => 64 * g.die + g.slot

/-- Steps that fall due at a time, or as soon as their condition holds, in the order in which a cycle takes them. -/
def State.timedSteps (s : State) : List Ev :=
  s.launches.map (fun l => .containNode l.lid) ++
  s.coreRefs.map .repackUnfreeze ++
  s.threadRefs.map .longOpComplete ++
  s.coreRefs.map .asyncWrite ++
  s.threadRefs.map .stealReply ++
  s.tileNums.map .mxCommandComplete ++
  s.tileNums.map (fun k => .barrierComplete k .crew) ++
  s.tileNums.map (fun k => .barrierComplete k .gang) ++
  s.threadRefs.map .vgForm ++
  s.threadRefs.map .vgForward ++
  s.threadRefs.map .forkRemoteCopy ++
  s.gangIds.map .preemptTimeout ++
  s.gangs.map (fun g => .gangStart g.die g.slot) ++
  s.backoff.map (fun b => .hbmBackoffEnd b.1 b.2.1) ++
  (s.acts.filter fun x => decide (s.ath.toNat ≤ x.2.2.2)).map (fun x => .hbmAlert x.1 x.2.1 x.2.2.1) ++
  s.threadRefs.map .peerTimeout ++
  s.coreRefs.map .engReservationGrant ++
  s.coreRefs.map .engineCommandAccept ++
  s.coreRefs.flatMap (fun r => [.meshWordArrive r .n, .meshWordArrive r .e, .meshWordArrive r .s, .meshWordArrive r .w]) ++
  s.tileNums.flatMap (fun k => [.arrayConfigMessage k .w, .arrayConfigMessage k .n, .arrayChannelMessage k .w, .arrayChannelMessage k .n]) ++
  s.tileNums.flatMap (fun k => (List.range 8).map fun j => .statusWordArrive k j) ++
  s.coreRefs.map .leaseRowRelease ++
  s.tileNums.map .imageRelease

/-- Steps that come behind every instruction of the cycle: the steals that the deques serve, after their owner's spawns and pops (R230). -/
def State.lateSteps (s : State) : List Ev := s.threadRefs.map .parkStealRetry ++ s.coreRefs.map .stealRequest
/-- The first FREE entry of a die's slot table. -/
def State.freeEntry (s : State) (die : Nat) : List Nat := ((List.range 64).find? fun k => (s.gang? (64 * die + k)).isNone).toList
/-- Steps for which the manual gives no time: one of those enabled comes about in a cycle (R252, R396). -/
def State.workSteps (s : State) : List Ev :=
  clusterIds.map .fillDeliver ++
  s.tileNums.map .sidelogReplay ++
  s.tileNums.flatMap (fun k => (List.range (s.tile k).misses.length).map fun j => .missRecord k j) ++
  s.tileNums.map .engineFollowon ++
  s.tileNums.flatMap (fun k => (List.range 2).flatMap fun e => (List.range 4).map fun q => .engineCommandEnd k e q) ++
  s.coreRefs.map .engineStatusPost ++
  s.tileNums.flatMap (fun k => (List.range 2).flatMap fun e => (List.range 4).map fun q => .engineBurst k e q) ++
  s.tileNums.map .doorbellNotice ++
  s.threadRefs.map .unveilFlip ++
  s.threadRefs.map .shadowDiscard ++
  s.coreRefs.flatMap (fun r => (List.range (s.core r).sbuf.length).map fun j => .storeEntryPerform r j) ++
  (List.range 16).flatMap (fun b => (List.range (s.vwrites.filter fun v => v.buf == b).length).map fun j => .vaultWriteDurable b j) ++
  s.tileNums.map .tileInvalAck ++
  s.launches.map (fun l => .launchComplete l.lid) ++
  s.gangIds.map .coopSave ++
  s.gangIds.map .forcedSave ++
  s.coreRefs.map .tourFinish ++
  s.coreRefs.map .tourToken ++
  s.coreRefs.map .tourRoundStart ++
  s.launches.flatMap (fun l => (List.range 2).flatMap fun die => (s.freeEntry die).flatMap fun slot =>
    (List.range 20).map fun clu => .bindRecordWrite l.lid ⟨slot, die, clu, 0, 0, 0⟩) ++
  (List.range 16).map .queueCommandTake ++
  (List.range 2).map .cpRestarted

end Sys2Proof.Machine
end

