-- ==== Sys2Proof/Machine/Device.lean ====
section
/-! DEFINITION. Steps of the module outside the command set: HBM row defence (R376), the host's accesses and registers (R377, R378),
other modules (R384), firmware (R385), bring-up, power and resets (R387 to R389), weight-store writes and refresh (R161, R162). -/
namespace Sys2Proof.Machine

/-! ## HBM row defence (R376) -/

/-- The activations counted for a row. -/
def State.actCount (s : State) (st b r : Nat) : Nat := ((s.acts.find? fun x => x.1 == st && x.2.1 == b && x.2.2.1 == r).map (·.2.2.2)).getD 0
/-- The counts without those of rows [lo, hi] of a bank. -/
def clearRows (l : List (Nat × Nat × Nat × Nat)) (st b lo hi : Nat) : List (Nat × Nat × Nat × Nat) :=
  l.filter fun x => !(x.1 == st && x.2.1 == b && decide (lo ≤ x.2.2.1) && decide (x.2.2.1 ≤ hi))
/-- Whether a physical address lies in a bank. -/
def inBank (pa stack bank : Nat) : Bool := decide (pa < 2 ^ 40) && pa / 2 ^ 37 == stack && Config.hbmBank (pa / 64) == bank
/-- Whether a posted store issued before a place in the order, whose translation stands, is for a bank. -/
def State.storeWaits (s : State) (stack bank seq : Nat) : Bool :=
  let hit : Nat → Nat → Nat → Bool := fun k ctx a => match s.tlb? k ctx a with | some e => inBank (e.pa a) stack bank | none => false
  s.tiles.any fun p => (p.2.cores.toList.any fun c => c.sbuf.any fun e => decide (e.seq < seq) && hit p.1 e.ctx e.addr) ||
    p.2.side.any fun e => decide (e.seq < seq) && hit p.1 e.ctx e.addr
/-- The physical addresses that the element which a command moves next is read from and written to, where they are known. -/
def State.engAims (s : State) (tile : Nat) (e : Fin 2) (c : EngCmd) : List Nat :=
  ([true, false] : List Bool).filterMap fun src =>
    if cmdLocal c.words (if src then 1 else 2) then none
    else
      let G := sideG c.words src
      let a := if G = 0 then elemAddr c.words src c.elem else (cmdAddr c.words (if src then 1 else 2) : Int) + 40 * (c.elem / G : Nat)
      match (if src then none else (s.core ⟨tile, c.core⟩).shadowOf (cmdSset c.words) c.ctx (granuleOf a.toNat)) with
      | some h => some (h.new * 2 ^ 16 + a.toNat % 2 ^ 16)
      | none => (((s.tile tile).eng[e]).tc.find? fun x => x.hit c.ctx a.toNat).map fun x => x.pa a.toNat
/-- Whether a command moves an element now. -/
def EngCmd.moves (c : EngCmd) : Bool := decide (c.stage = .run) && c.decided true && decide (c.elem < cmdElems c.words)
/-- The commands whose next element waits for a bank. -/
def State.engWaits (s : State) (stack bank : Nat) : List (Nat × Fin 2 × Fin 4 × Nat × Nat) :=
  s.tiles.flatMap fun p => (List.finRange 2).flatMap fun e => (List.finRange 4).filterMap fun q =>
    match s.engHead p.1 e q with
    | some c => if c.moves = true ∧ ((s.engAims p.1 e c).any fun a => inBank a stack bank) = true then some (p.1, e, q, c.id, c.elem) else none
    | none => none
/-- Whether a bank still owes a request that waited through its last back-off (R376). -/
def State.bankOwes (s : State) (stack bank : Nat) : Bool :=
  s.debts.any fun d => d.stack == stack && d.bank == bank && (s.storeWaits stack bank d.seq || d.engs.any fun x => (s.engWaits stack bank).contains x)
/-- HBM_ALERT: a row's count has reached `ath`. The bank closes, the rows about the aggressor are refreshed, and the back-off of 192
cycles begins (log 88); none begins while a request still waits from the one before. -/
def execHbmAlert (stack bank row : Nat) (s : State) : Host.Outcome State Fault Refusal :=
  if h : stack < 8 then
    if s.actCount stack bank row < s.ath.toNat then .refused (.notEnabled "HBM_ALERT: the count is below the threshold")
    else if s.backoff.any (fun b => b.1 == stack && b.2.1 == bank) = true ∨ s.bankOwes stack bank = true ∨
        s.threadRefs.any (fun t => match (s.thread t).wait with | some w => w.why == .retry tagBank (8 * bank + stack) | none => false) = true then
      .refused (.notEnabled "HBM_ALERT: the bank has not served since its last back-off")
    else
      let a := s.alerts[stack]
      .next { s with alerts := s.alerts.set stack (if a = 0xFFFF_FFFF then a else a + 1), acts := clearRows s.acts stack bank (row - 2) (row + 2),
                     backoff := s.backoff ++ [(stack, bank, s.cycle + 192)],
                     debts := s.debts.filter fun d => !(d.stack == stack && d.bank == bank) }
  else .refused (.notEnabled "HBM_ALERT: no such stack")
/-- HBM_BACKOFF_END: the bank serves again; its cycles are counted in units of 1,024. -/
def execHbmBackoffEnd (stack bank : Nat) (s : State) : Host.Outcome State Fault Refusal :=
  if h : stack < 8 then
    if (s.backoff.any fun b => b.1 == stack && b.2.1 == bank && decide (b.2.2 ≤ s.cycle)) = false then
      .refused (.notEnabled "HBM_BACKOFF_END: no back-off ends")
    else
      let n := s.boffRest[stack] + 192
      .next { s with backoff := s.backoff.filter fun b => !(b.1 == stack && b.2.1 == bank), debts := s.debts ++ [⟨stack, bank, s.seq, s.engWaits stack bank⟩], boffRest := s.boffRest.set stack (n % 1024),
                     boff := s.boff.set stack (BitVec.ofNat 32 (min (2 ^ 32 - 1) (s.boff[stack].toNat + n / 1024))) }
  else .refused (.notEnabled "HBM_BACKOFF_END: no such stack")
/-- HBM_REFRESH: a row is refreshed of itself, and its count is cleared. -/
def execHbmRefresh (stack bank row : Nat) (s : State) : Host.Outcome State Fault Refusal :=
  if stack < 8 then .next { s with acts := clearRows s.acts stack bank row row } else .refused (.notEnabled "HBM_REFRESH: no such stack")

/-! ## The weight store (R161, R162) -/

/-- WS_REFRESH: a bank enters or leaves refresh with this cycle; the schedule is a function of the cycle count. -/
def execWsRefresh (die bank : Nat) (s : State) : Host.Outcome State Fault Refusal :=
  let n := (s.cycle + 2 ^ 26 - 1024 * bank) % 65536
  if die < 2 ∧ bank < 64 ∧ (n = 0 ∨ n = 256) then .next s else .refused (.notEnabled "WS_REFRESH: no bank enters or leaves refresh")
/-- Whether a launch bound on a die lists a region. -/
def State.wsListed (s : State) (die region : Nat) : Bool :=
  s.gangs.any fun g => g.die == die && (match s.launch? g.lid with
    | some l => if die = 0 then l.ws.1.getLsbD region else l.ws.2.getLsbD region
    | none => false)
/-- WEIGHT_STORE_WRITE: the write of a region begins, goes on and ends. -/
def execWeightStoreWrite (die region : Nat) (phase : WsPhase) (s : State) : Host.Outcome State Fault Refusal :=
  let on := s.wsWriting.contains (die, region)
  if die ≥ 2 ∨ region ≥ 64 then .refused (.notEnabled "WEIGHT_STORE_WRITE: no such region")
  else match phase with
    | .start =>
      if on = true ∨ s.wsListed die region = true then .refused (.notEnabled "WEIGHT_STORE_WRITE: the region is being written or read")
      else .next { s with wsWriting := s.wsWriting ++ [(die, region)] }
    | .data off bytes =>
      if on = false ∨ off + bytes.length > 2 ^ 24 then .refused (.notEnabled "WEIGHT_STORE_WRITE: no write of the region is open there")
      else .next (s.putBytes (wsKey die (2 ^ 24 * region + off)) bytes)
    | .finish =>
      if on = false then .refused (.notEnabled "WEIGHT_STORE_WRITE: the region is not being written")
      else .next { s with wsWriting := s.wsWriting.filter (· != (die, region)) }

/-! ## The host (R375, R377, R378) -/

/-- Whether every byte of a range lies in populated memory that the host reaches: HBM and the capacity tier through CXL.mem, and its
own memory (log 89). -/
def hostReaches (pa n : Nat) : Bool :=
  (linePieces' pa n).all fun p => match homeOf p.1, homeOf (p.1 + p.2 - 1) with
    | some (.hbm _), some (.hbm _) => true
    | some .cap, some .cap => true
    | some .host, some .host => true
    | _, _ => false
where
  /-- The pieces of a range within lines. -/
  linePieces' (a n : Nat) : List (Nat × Nat) :=
    (List.range ((a % 64 + n + 63) / 64)).map fun j =>
      let lo := max a (64 * (a / 64 + j))
      (lo, min (a + n) (64 * (a / 64 + j + 1)) - lo)
/-- Writes bytes line by line, durably. -/
def State.hostStore (s : State) (pa : Nat) (bs : List Byte) : State :=
  (hostReaches.linePieces' pa bs.length).foldl (fun (z : State) p => z.durableWrite 2 0 p.1 ((bs.drop (p.1 - pa)).take p.2)) s
/-- Reads bytes line by line for no core: the read finds the errors under them (R371), and may open rows (R376). -/
def State.readAside (s : State) (pa n : Nat) : State :=
  (hostReaches.linePieces' pa n).foldl (fun (z : State) p => (z.scrubbed p.1 p.2).activate p.1) s
/-- Whether the host reaches a range in the service in force (R377, R387). -/
def State.hostReaches (s : State) (pa n : Nat) : Bool :=
  Sys2Proof.Machine.hostReaches pa n && (Sys2Proof.Machine.hostReaches.linePieces' pa n).all fun p => s.present p.1
/-- Whether a range touches a bank in back-off, where requests wait (R376). -/
def State.bankBusy (s : State) (pa n : Nat) : Bool := (Sys2Proof.Machine.hostReaches.linePieces' pa n).any fun p => s.bankOff p.1
/-- HOST_MEM_ACCESS: a read or a write of the host under key 0; a write of the vault is durable when it completes (R353, R377). -/
def execHostMemAccess (acc : HostAccess) (s : State) : Host.Outcome State Fault Refusal :=
  if s.hostReaches acc.pa acc.bytes.length = false then .refused (.notEnabled "HOST_MEM_ACCESS: not populated")
  else if s.bankBusy acc.pa acc.bytes.length then .refused (.notEnabled "HOST_MEM_ACCESS: the bank is in back-off")
  else .next (if acc.write then s.hostStore acc.pa acc.bytes else s.readAside acc.pa acc.bytes.length)

/-- A write of FWCOMMIT (R385): the value 1 while a trial runs makes it the active slot and raises the anti-rollback count; at or after
expiry no trial runs, and nothing else changes. -/
def State.putCommit (s : State) (v : Word64) : State :=
  let s1 := { s with fwCommit := v }
  if v = 1 ∧ s.fwTrial = 1 then
    let x := s.slotOf (!s.fwAct)
    { s1 with fwAct := !s.fwAct, fwTrial := 0, fwArb := x.version, measure := s.measure.set 1 (sha384 x.image) }
  else s1
/-- DEVSTAT (R388). -/
def State.devstat (s : State) : Word64 :=
  s.cprst ++ s.step ++ s.trst ++ s.pwr ++ s.temp ++ (0 : BitVec 5) ++ BitVec.ofBool s.thr ++ BitVec.ofBool s.red ++ BitVec.ofBool s.rdy
/-- FWSTAT (R385). -/
def State.fwstat (s : State) : Word64 := s.fwArb ++ (0 : BitVec 28) ++ s.fwTrial ++ (0 : BitVec 1) ++ BitVec.ofBool s.fwAct
/-- What the host reads at an offset of BAR0 (R377, R378); an offset of no register reads 0 (log 119). -/
def State.barRead (s : State) (off : Nat) : Word64 :=
  if off = 0 then s.devstat
  else if off = 0x100 then s.fwCommit
  else if off = 0x108 then s.fwstat
  else if 0x2000 ≤ off ∧ off < 0x2400 then (s.queues[qIx ((off - 0x2000) / 0x40)]).read ((off - 0x2000) % 0x40)
  else 0
/-- HOST_REGISTER_WRITE: a register of BAR0 is written; one that the host only reads, or none, takes nothing (R377, R378, R385). -/
def execHostRegisterWrite (off : Nat) (v : BitVec 64) (s : State) : Host.Outcome State Fault Refusal :=
  if off ≥ 2 ^ 20 then .refused (.notEnabled "HOST_REGISTER_WRITE: beyond BAR0")
  else if 0x2000 ≤ off ∧ off < 0x2400 then .next (s.modQueue ((off - 0x2000) / 0x40) fun p => p.write ((off - 0x2000) % 0x40) v)
  else if off = 0x100 then .next (s.putCommit v)
  else .next s

/-! ## Firmware (R385) -/

/-- FWCOMMIT_WRITE: the firmware writes FWCOMMIT. -/
def execFwcommitWrite (v : BitVec 64) (s : State) : Host.Outcome State Fault Refusal := .next (s.putCommit v)
/-- FW_WATCHDOG_EXPIRE: 30 s after its first instruction a trial without a commit is marked failed, and the module resets into the old
slot. -/
def execFwWatchdogExpire (s : State) : Host.Outcome State Fault Refusal :=
  if s.fwTrial = 1 then .next ({ s with fwTrial := 2 }.resetInto s.fwAct)
  else .refused (.notEnabled "FW_WATCHDOG_EXPIRE: no trial runs")
/-- CP_LOCKSTEP_RESET: both cores restart from ROM, and their state is rebuilt from the journal and the slot table; the restart is
counted (R373, R388). Until the pair runs again, at a time of its own, it takes no command, writes no record and completes no launch, and completion
words wait in the die's queue (log 72). -/
def execCpLockstepReset (die : Nat) (s : State) : Host.Outcome State Fault Refusal :=
  if h : die < 2 then .next { s with cprst := satUp s.cprst, cpDown := s.cpDown.set die true } else .refused (.notEnabled "CP_LOCKSTEP_RESET: no such die")

/-! ## Other modules (R384) -/

/-- The physical address of an offset that another module names, with its key; none: it is refused. The reduced service has no other
modules (R387). -/
def State.exported (s : State) (off n : Nat) (w : Bool) : Option (Nat × Nat) :=
  if s.red then none
  else match s.expt.toList.find? fun e => e.v && decide (2 ^ 30 * e.obase ≤ off) && decide (off + n ≤ 2 ^ 30 * (e.obase + e.size)) with
  | none => none
  | some e =>
    let pa := 2 ^ 30 * e.pbase + (off - 2 ^ 30 * e.obase)
    let ok : Nat → Bool := fun a => match homeOf a with | some (.hbm _) => true | some .cap => true | _ => false
    if (w = true ∧ e.w = false) ∨ ok pa = false ∨ ok (pa + n - 1) = false then none else some (e.key, pa)
/-- Writes bytes at a home for another module, line by line. -/
def State.peerStore (s : State) (key pa : Nat) (bs : List Byte) : State :=
  (hostReaches.linePieces' pa bs.length).foldl (fun (z : State) p => z.homeWrite 2 none key p.1 ((bs.drop (p.1 - pa)).take p.2)) s
/-- The word of `n` bytes that a peer's atomic leaves in place of `m` (R268); none: it writes nothing. -/
def peerAfter (f : PeerAmo) (n : Nat) (sx : Bool) (v m : Nat) : Option Nat :=
  let red : RedFn → Option Nat := fun g => some (redStep g n sx (if sx then signedOf (8 * n) v else v) (FF.value .f32 v) m)
  match f with
  | .swap => some (v % 2 ^ (8 * n))
  | .cas c => if m = c % 2 ^ (8 * n) then some (v % 2 ^ (8 * n)) else none
  | .add => red .add | .and => red .and | .or => red .or | .xor => red .xor | .min => red .min | .max => red .max | .fadd => red .fadd
/-- Whether an atomic may have `n` bytes (R267). -/
def peerSized (f : PeerAmo) (n : Nat) : Bool := match f with | .fadd => n == 2 || n == 4 | _ => n == 4 || n == 8
/-- The function of a peer's full/empty operation. -/
def peerFn : PeerFe → FeFn
  | .ldf => .ldf | .ldk => .ldk | .stf _ => .stf | .sto _ => .sto | .clr => .clr | .tst => .tst
/-- The step of a peer's full/empty operation at a word of this module (R213, R269). -/
def State.peerFe (s : State) (key pa : Nat) : PeerFe → State
  | .ldf | .tst => s
  | .ldk | .clr => s.setFull pa false
  | .stf v | .sto v => (s.peerStore key pa (bytesOfNat 8 v.toNat)).setFull pa true
/-- The offset of a peer's request, its length, and whether it writes. -/
def peerSpan : PeerReq → Nat × Nat × Bool
  | .read off n => (off, n, false)
  | .write off bs => (off, bs.length, true)
  | .add off _ => (off, 8, true)
  | .amo off _ n _ _ => (off, n, true)
  | .fe off f => (off, 8, (peerFn f).isWrite)
/-- Whether a peer's request waits for a bank in back-off (R376). -/
def State.peerWaits (s : State) (req : PeerReq) : Bool :=
  match s.exported (peerSpan req).1 (peerSpan req).2.1 (peerSpan req).2.2 with
  | some (_, pa) => s.bankBusy pa (peerSpan req).2.1
  | none => false
/-- PEER_REQUEST: a request of another module is performed here, or answered as a refusal, which changes nothing; a full/empty operation that
must wait does not occur yet. -/
def execPeerRequest (req : PeerReq) (s : State) : Host.Outcome State Fault Refusal :=
  if s.peerWaits req then .refused (.notEnabled "PEER_REQUEST: the bank is in back-off")
  else match req with
  | .read off n =>
    (match s.exported off n false with
    | some (_, pa) => .next (s.readAside pa n)
    | none => .next s)
  | .write off bytes =>
    (match s.exported off bytes.length true with
    | some (key, pa) => .next (s.peerStore key pa bytes)
    | none => .next s)
  | .add off v =>
    (match s.exported off 8 true with
    | some (key, pa) =>
      if pa % 8 ≠ 0 ∨ s.poisoned pa 8 = true then .next s
      else .next (s.peerStore key pa (bytesOfNat 8 ((natOfBytes (s.homeBytes key pa 8) + v.toNat) % 2 ^ 64)))
    | none => .next s)
  | .amo off f n sx v =>
    (match s.exported off n true with
    | some (key, pa) =>
      if peerSized f n = false ∨ pa % n ≠ 0 ∨ s.poisoned pa n = true then .next s
      else match peerAfter f n sx v (natOfBytes (s.homeBytes key pa n)) with
        | some x => .next ((s.readAside pa n).peerStore key pa (bytesOfNat n x))
        | none => .next (s.readAside pa n)
    | none => .next s)
  | .fe off f =>
    (match s.exported off 8 (peerFn f).isWrite with
    | some (key, pa) =>
      if pa % 8 ≠ 0 then .next s
      else if (peerFn f).goes (s.full pa) = false then .refused (.notEnabled "PEER_REQUEST: the full/empty operation waits")
      else if (peerFn f).reads = true ∧ s.poisoned pa 8 = true then .next s
      else .next ((if (peerFn f).reads then s.readAside pa 8 else s).peerFe key pa f)
    | none => .next s)
/-- Whether a store or reduction towards another module, posted in a cycle, has gone unanswered for 2^24 cycles. -/
def State.overdue (s : State) (tile ctx a since : Nat) : Bool :=
  decide (since + 2 ^ 24 ≤ s.cycle) && match s.tlb? tile ctx a with | some e => s.silent (e.pa a) | none => false
/-- A thread's oldest overdue entry of the store buffer enters the side log (R384), and its oldest overdue side-log entry is discarded with its granule
(R367). -/
def State.dropOverdue (s : State) (t : ThreadRef) : Option State :=
  let c := s.core t.coreRef
  let drop : State → SideEntry → State := fun z e => z.dropSide t.tile e.ctx (granuleOf e.addr) 1 fun a => (.pfault, reasonVal 2 a)
  match c.sbuf.find? fun e => e.h == t.h && s.overdue t.tile e.ctx e.addr e.since with
  | some e =>
    let x : SideEntry := ⟨e.seq, t.core, e.h, e.ctx, e.addr, e.home, .store e.bytes e.form, e.lid, e.since⟩
    let z := s.setCore t.coreRef { c with sbuf := c.sbuf.erase e }
    some (drop ((z.setTile t.tile { z.tile t.tile with side := (z.tile t.tile).side ++ [x] }).count t.coreRef 3) x)
  | none => ((s.tile t.tile).side.find? fun e => e.core == t.core && e.h == t.h && s.overdue t.tile e.ctx e.addr e.since).map (drop s)
/-- A thread's command whose next element another module has left unanswered for 2^24 cycles ends PFAULT (R384). -/
def State.endOverdue (s : State) (t : ThreadRef) : Option State :=
  (List.finRange 2).findSome? fun e => (List.finRange 4).findSome? fun q => match s.engHead t.tile e q with
    | some c =>
      if c.core = t.core ∧ c.h = t.h ∧ c.moves = true ∧ c.moved + 2 ^ 24 ≤ s.cycle ∧ (s.engAims t.tile e c).any s.silent = true then
        some (s.setEngHead t.tile e q { c with stage := .fin 6 (c.elem * cmdOffE c.words) })
      else none
    | none => none
/-- PEER_TIMEOUT: a request of a thread to another module has gone unanswered for 2^24 cycles (R384): a load or an atomic traps PFAULT, reason 2,
precisely; a store entry or reduction is discarded from the side log; an engine command ends PFAULT. -/
def execPeerTimeout (t : ThreadRef) (s : State) : Host.Outcome State Fault Refusal :=
  let x := s.thread t
  let c := s.core t.coreRef
  let posted : Host.Outcome State Fault Refusal := match (s.dropOverdue t).or (s.endOverdue t) with
    | some z => .next z
    | none => .refused (.notEnabled "PEER_TIMEOUT: no request has been open for 2^24 cycles")
  match x.wait, c.replies.find? fun p => p.h == t.h && p.peer.isSome with
  | some w, some p =>
    if x.st ≠ .waiting ∨ w.why ≠ .reply ∨ s.cycle < w.since + 2 ^ 24 then posted
    else
      let s1 := s.setCore t.coreRef { c with replies := c.replies.erase p }
      .next ((s1.setThread t { s1.thread t with st := .ready, wait := none }).takeTrap t .pfault w.pc (reasonVal 2 (p.peer.getD 0)))
  | some w, none =>
    (match w.why with
    | .retry 33 a => if x.st = .waiting ∧ w.since + 2 ^ 24 ≤ s.cycle then .next ((s.endWait t).takeTrap t .pfault w.pc (reasonVal 2 a)) else posted
    | _ => posted)
  | none, _ => posted
/-- PORT_DOWN: an Ewefer port goes out of service; a module all of whose ports are down answers as a failed host does. -/
def execPortDown (port : Nat) (s : State) : Host.Outcome State Fault Refusal :=
  if port < 18 then .next { s with portsUp := s.portsUp &&& ~~~BitVec.ofNat 18 (2 ^ port) } else .refused (.notEnabled "PORT_DOWN: no such port")
/-- PORT_UP: it is in service again. -/
def execPortUp (port : Nat) (s : State) : Host.Outcome State Fault Refusal :=
  if port < 18 then .next { s with portsUp := s.portsUp ||| BitVec.ofNat 18 (2 ^ port) } else .refused (.notEnabled "PORT_UP: no such port")

/-! ## Bring-up, power and resets (R387 to R389) -/

/-- A buffer once its capacity link has trained, or has failed to (R348, R387). -/
def Buffer.trained (b : Buffer) (up : Bool) : Buffer := { b with up := up, rk := if up then 0xF else 0 }
/-- TRAINING_DONE: links and memory are trained. `red` clears and `rdy` sets in one cycle, but under a configuration table that failed
its check, or where a stack of HBM has failed to train, which lasts until module power-on. -/
def execTrainingDone (t : Trained) (s : State) : Host.Outcome State Fault Refusal :=
  if s.rdy then .refused (.notEnabled "TRAINING_DONE: training has finished")
  else
    let s1 := { s with buffers := s.buffers.mapFinIdx fun k b _ => b.trained (t.links.getLsbD k)
                       cfg := s.checkedTable, stackBad := s.stackBad || t.hbm != 0xFF }
    .next (if s1.cfg.valid = true ∧ s1.stackBad = false then { s1 with red := false, rdy := true } else s1)
/-- The lowest clock step at which the arithmetic clock does not pass the configuration table's `fmax` (R385, R388, log 131). -/
def CfgTable.minStep (c : CfgTable) : Nat := ((List.range 9).find? fun k => decide (940 * (16 - k) ≤ 16 * c.fmax)).getD 8
/-- CLOCK_STEP_ADJUST: the step follows power and the hottest tile every 1 ms; the reduced service keeps its clock. A tile at 110 °C resets the
compute dies at once: that is the next step. -/
def execClockStepAdjust (power : BitVec 16) (temp : BitVec 8) (s : State) : Host.Outcome State Fault Refusal :=
  let s1 := { s with pwr := power, temp := temp, agenda := if temp.toNat ≥ 110 then .thermalReset :: s.agenda else s.agenda }
  if s.red then .next s1
  else if power.toNat > s.pwrlim.toNat ∨ temp.toNat ≥ 95 then .next { s1 with step := if s.step.toNat < 8 then s.step + 1 else s.step, thr := true }
  else if 100 * power.toNat < 95 * s.pwrlim.toNat ∧ temp.toNat ≤ 90 then
    .next { s1 with step := if s.step.toNat ≤ s.cfg.minStep then s.step else s.step - 1, thr := s.thr && decide (s.step.toNat ≥ s.cfg.minStep + 2) }
  else .next s1
/-- Completes as lost in a thermal reset every command taken and not completed, pair by pair in ring order, and raises each enabled
pair's vector (R389). -/
def State.postLost (s : State) : State :=
  let l := (List.range 16).flatMap fun q => s.journal.filter fun (t : Taken) => t.q == q
  let s1 := l.foldl (fun (z : State) t => z.postEntry t.q t.tag stTHERMAL 0) s
  { s1 with msix := s1.msix ++ (s1.queues.toList.filter fun (p : QueuePair) => p.qsize != 0).map fun p => p.qvec.toNat }
/-- THERMAL_RESET: both compute dies are reset on heat. -/
def execThermalReset (s : State) : Host.Outcome State Fault Refusal :=
  let z := s.resetDies
  .next { z with trst := if z.trst = 0xFF then z.trst else z.trst + 1 }.postLost
/-- MODULE_POWER_ON: every domain is reset, the vault's included; host memory, the firmware slots with their counts, and the
configuration table, checked again, stay (R352, R385, R386, R388). -/
def execModulePowerOn (s0 : State) : Host.Outcome State Fault Refusal :=
  let s := { s0 with cfg := s0.checkedTable }
  let out : Nat → Bool := fun k => decide (hostBase ≤ k) && decide (k < 2 ^ 52)
  .next { State.reset with
    mem := s.mem.filter fun c => out c.1
    empties := (s.empties.filter fun w => out (8 * w)) ++ mailboxEmptiesAt s.cfg
    poison := s.poison.filter fun w => out (8 * w)
    cfg := s.cfg, pwrlim := BitVec.ofNat 16 s.cfg.pmax
    fwArb := s.fwArb, fwTrial := s.fwTrial, fwAct := s.fwAct, fwSlots := s.fwSlots
    measure := #v[Config.romMeasurement, sha384 (s.slotOf s.fwAct).image, s.measure[2], 0]
    lids := s.lids, usedLids := s.usedLids, handles := s.handles, agenda := s.agenda, seq := s.seq }

end Sys2Proof.Machine
end

