-- ==== Sys2Proof/Machine/Advance.lean ====
section
/-! DEFINITION. What each step that comes about by itself does. -/
namespace Sys2Proof.Machine

/-- Performs a step: its meaning. -/
def Ev.run (e : Ev) (s : State) : Host.Outcome State Fault Refusal :=
  match e with
  | .asyncTrapEntry a => execAsyncTrapEntry a s
  | .fetchEndAccess a => execFetchEndAccess a s
  | .vgForward a => execVgForward a s
  | .waitlimExpire a => execWaitlimExpire a s
  | .containNode a => execContainNode a s
  | .repackUnfreeze a => execRepackUnfreeze a s
  | .longOpComplete a => execLongOpComplete a s
  | .asyncWrite a => execAsyncWrite a s
  | .stealReply a => execStealReply a s
  | .stealRequest a => execStealRequest a s
  | .parkStealRetry a => execParkStealRetry a s
  | .mxCommandComplete a => execMxCommandComplete a s
  | .groupTimeout a b => execGroupTimeout a b s
  | .barrierComplete a b => execBarrierComplete a b s
  | .vgForm a => execVgForm a s
  | .forkRemoteCopy a => execForkRemoteCopy a s
  | .preemptTimeout a => execPreemptTimeout a s
  | .gangStart a b => execGangStart a b s
  | .fillDeliver a => execFillDeliver a s
  | .sidelogReplay a => execSidelogReplay a s
  | .missRecord a b => execMissRecord a b s
  | .meshWordArrive a b => execMeshWordArrive a b s
  | .engReservationGrant a => execEngReservationGrant a s
  | .engineCommandAccept a => execEngineCommandAccept a s
  | .engineFollowon a => execEngineFollowon a s
  | .engineCommandEnd a b c => execEngineCommandEnd a b c s
  | .engineStatusPost a => execEngineStatusPost a s
  | .engineBurst a b c => execEngineBurst a b c s
  | .arrayConfigMessage a b => execArrayConfigMessage a b s
  | .arrayChannelMessage a b => execArrayChannelMessage a b s
  | .doorbellNotice a => execDoorbellNotice a s
  | .unveilFlip a => execUnveilFlip a s
  | .shadowDiscard a => execShadowDiscard a s
  | .storeEntryPerform a b => execStoreEntryPerform a b s
  | .vaultWriteDurable a b => execVaultWriteDurable a b s
  | .tileInvalAck a => execTileInvalAck a s
  | .leaseRowRelease a => execLeaseRowRelease a s
  | .imageRelease a => execImageRelease a s
  | .statusWordArrive a b => execStatusWordArrive a b s
  | .launchComplete a => execLaunchComplete a s
  | .requestWithdrawn a => execRequestWithdrawn a s
  | .coopSave a => execCoopSave a s
  | .forcedSave a => execForcedSave a s
  | .tourFinish a => execTourFinish a s
  | .tourToken a => execTourToken a s
  | .tourRoundStart a => execTourRoundStart a s
  | .bindRecordWrite a b => execBindRecordWrite a b s
  | .queueCommandTake a => execQueueCommandTake a s
  | .hbmBackoffEnd a b => execHbmBackoffEnd a b s
  | .peerTimeout a => execPeerTimeout a s
  | .hbmAlert a b c => execHbmAlert a b c s
  | .cpRestarted a => s.cpRestarted a

/-- Whether a step may come about. -/
def Ev.occurs (s : State) (e : Ev) : Bool :=
  match e.run s with
  | .next _ => true
  | .fault _ => false
  | .refused _ => false

/-- The next step that falls due (see `timedSteps`). -/
def State.nextTimed (s : State) : Option Ev := s.timedSteps.find? (Ev.occurs s)
/-- The next steal to serve. -/
def State.nextLate (s : State) : Option Ev := s.lateSteps.find? (Ev.occurs s)
/-- The next step of those that have no time of their own: the list is taken from a place that turns with the cycles, so that every
step that stays possible comes about. -/
def State.nextWork (s : State) : Option Ev :=
  let l := s.workSteps
  let k := s.cycle % (l.length + 1)
  (l.drop k ++ l.take k).find? (Ev.occurs s)

end Sys2Proof.Machine
end

