-- ==== Sys2Proof/Machine/Dispatch.lean ====
section
/-! DEFINITION. One arm per instruction and per step of the machine: a direct call of its meaning. -/
namespace Sys2Proof.Machine

/-- The meaning of an instruction or a step of the machine in a state. -/
def exec (i : Instr) (s : State) : Host.Outcome State Fault Refusal :=
  match i with
  | .sysHalt h => Sys2Proof.Machine.execSysHalt h s
  | .sysNop h => Sys2Proof.Machine.execSysNop h s
  | .sysIfence h => Sys2Proof.Machine.execSysIfence h s
  | .sysTret h => Sys2Proof.Machine.execSysTret h s
  | .sysSvc h n => Sys2Proof.Machine.execSysSvc h n s
  | .sysGetc h k d => Sys2Proof.Machine.execSysGetc h k d s
  | .sysSetc h k d => Sys2Proof.Machine.execSysSetc h k d s
  | .sysRdevt h k d => Sys2Proof.Machine.execSysRdevt h k d s
  | .sysClrevt h k => Sys2Proof.Machine.execSysClrevt h k s
  | .sysCycle h d => Sys2Proof.Machine.execSysCycle h d s
  | .aluAdd h d a b => Sys2Proof.Machine.execAluAdd h d a b s
  | .aluSub h d a b => Sys2Proof.Machine.execAluSub h d a b s
  | .aluAnd h d a b => Sys2Proof.Machine.execAluAnd h d a b s
  | .aluOr h d a b => Sys2Proof.Machine.execAluOr h d a b s
  | .aluXor h d a b => Sys2Proof.Machine.execAluXor h d a b s
  | .aluAndn h d a b => Sys2Proof.Machine.execAluAndn h d a b s
  | .aluMin h d a b => Sys2Proof.Machine.execAluMin h d a b s
  | .aluMax h d a b => Sys2Proof.Machine.execAluMax h d a b s
  | .aluMov h d a => Sys2Proof.Machine.execAluMov h d a s
  | .aluNeg h d a => Sys2Proof.Machine.execAluNeg h d a s
  | .aluAbs h d a => Sys2Proof.Machine.execAluAbs h d a s
  | .aluPopc h d a => Sys2Proof.Machine.execAluPopc h d a s
  | .aluClz h d a => Sys2Proof.Machine.execAluClz h d a s
  | .aluCtz h d a => Sys2Proof.Machine.execAluCtz h d a s
  | .aluiAdd h d a imm => Sys2Proof.Machine.execAluiAdd h d a imm s
  | .aluiSub h d a imm => Sys2Proof.Machine.execAluiSub h d a imm s
  | .aluiAnd h d a imm => Sys2Proof.Machine.execAluiAnd h d a imm s
  | .aluiOr h d a imm => Sys2Proof.Machine.execAluiOr h d a imm s
  | .aluiXor h d a imm => Sys2Proof.Machine.execAluiXor h d a imm s
  | .aluiMin h d a imm => Sys2Proof.Machine.execAluiMin h d a imm s
  | .aluiMax h d a imm => Sys2Proof.Machine.execAluiMax h d a imm s
  | .aluiSet h d imm => Sys2Proof.Machine.execAluiSet h d imm s
  | .shfShl h d a b => Sys2Proof.Machine.execShfShl h d a b s
  | .shfShr h d a b => Sys2Proof.Machine.execShfShr h d a b s
  | .shfRol h d a b => Sys2Proof.Machine.execShfRol h d a b s
  | .shfRor h d a b => Sys2Proof.Machine.execShfRor h d a b s
  | .shfShli h d a imm => Sys2Proof.Machine.execShfShli h d a imm s
  | .shfShri h d a imm => Sys2Proof.Machine.execShfShri h d a imm s
  | .shfRoli h d a imm => Sys2Proof.Machine.execShfRoli h d a imm s
  | .shfRori h d a imm => Sys2Proof.Machine.execShfRori h d a imm s
  | .shfExt h d a pos flen sx => Sys2Proof.Machine.execShfExt h d a pos flen sx s
  | .shfIns h d a pos flen => Sys2Proof.Machine.execShfIns h d a pos flen s
  | .mulMul h d a b => Sys2Proof.Machine.execMulMul h d a b s
  | .mulMac h d a b => Sys2Proof.Machine.execMulMac h d a b s
  | .mulMsub h d a b => Sys2Proof.Machine.execMulMsub h d a b s
  | .mulMulsh h d a b sh rq => Sys2Proof.Machine.execMulMulsh h d a b sh rq s
  | .divDiv h d a b => Sys2Proof.Machine.execDivDiv h d a b s
  | .divRem h d a b => Sys2Proof.Machine.execDivRem h d a b s
  | .divDivf h d a b => Sys2Proof.Machine.execDivDivf h d a b s
  | .divModf h d a b => Sys2Proof.Machine.execDivModf h d a b s
  | .cmpEq h d a b => Sys2Proof.Machine.execCmpEq h d a b s
  | .cmpNe h d a b => Sys2Proof.Machine.execCmpNe h d a b s
  | .cmpLt h d a b => Sys2Proof.Machine.execCmpLt h d a b s
  | .cmpLe h d a b => Sys2Proof.Machine.execCmpLe h d a b s
  | .cmpGt h d a b => Sys2Proof.Machine.execCmpGt h d a b s
  | .cmpGe h d a b => Sys2Proof.Machine.execCmpGe h d a b s
  | .cmpTst h d a b => Sys2Proof.Machine.execCmpTst h d a b s
  | .cmpSel h d a b c => Sys2Proof.Machine.execCmpSel h d a b c s
  | .widResize h n mode width => Sys2Proof.Machine.execWidResize h n mode width s
  | .widWidth h d a => Sys2Proof.Machine.execWidWidth h d a s
  | .widFits h d a b => Sys2Proof.Machine.execWidFits h d a b s
  | .brZ h a off => Sys2Proof.Machine.execBrZ h a off s
  | .brNz h a off => Sys2Proof.Machine.execBrNz h a off s
  | .brLz h a off => Sys2Proof.Machine.execBrLz h a off s
  | .brGez h a off => Sys2Proof.Machine.execBrGez h a off s
  | .brGz h a off => Sys2Proof.Machine.execBrGz h a off s
  | .brLez h a off => Sys2Proof.Machine.execBrLez h a off s
  | .brAl h off => Sys2Proof.Machine.execBrAl h off s
  | .jmpRel h off => Sys2Proof.Machine.execJmpRel h off s
  | .jmpInd h a off => Sys2Proof.Machine.execJmpInd h a off s
  | .callRel h off => Sys2Proof.Machine.execCallRel h off s
  | .callInd h a off => Sys2Proof.Machine.execCallInd h a off s
  | .callRet h => Sys2Proof.Machine.execCallRet h s
  | .addrGlob h d a => Sys2Proof.Machine.execAddrGlob h d a s
  | .addrGen h d a => Sys2Proof.Machine.execAddrGen h d a s
  | .addrLea h d a imm => Sys2Proof.Machine.execAddrLea h d a imm s
  | .ldB h d a off => Sys2Proof.Machine.execLdB h d a off s
  | .ldH h d a off => Sys2Proof.Machine.execLdH h d a off s
  | .ldW h d a off => Sys2Proof.Machine.execLdW h d a off s
  | .ldD h d a off => Sys2Proof.Machine.execLdD h d a off s
  | .ldV h d a off => Sys2Proof.Machine.execLdV h d a off s
  | .ldG h d a off => Sys2Proof.Machine.execLdG h d a off s
  | .stB h d a off => Sys2Proof.Machine.execStB h d a off s
  | .stH h d a off => Sys2Proof.Machine.execStH h d a off s
  | .stW h d a off => Sys2Proof.Machine.execStW h d a off s
  | .stD h d a off => Sys2Proof.Machine.execStD h d a off s
  | .stV h d a off => Sys2Proof.Machine.execStV h d a off s
  | .stG h d a off => Sys2Proof.Machine.execStG h d a off s
  | .amoSwap h d a b sz sc => Sys2Proof.Machine.execAmoSwap h d a b sz sc s
  | .amoCas h d a b c sz sc => Sys2Proof.Machine.execAmoCas h d a b c sz sc s
  | .amoAdd h d a b sz sc => Sys2Proof.Machine.execAmoAdd h d a b sz sc s
  | .amoAnd h d a b sz sc => Sys2Proof.Machine.execAmoAnd h d a b sz sc s
  | .amoOr h d a b sz sc => Sys2Proof.Machine.execAmoOr h d a b sz sc s
  | .amoXor h d a b sz sc => Sys2Proof.Machine.execAmoXor h d a b sz sc s
  | .amoMin h d a b sz sc => Sys2Proof.Machine.execAmoMin h d a b sz sc s
  | .amoMax h d a b sz sc => Sys2Proof.Machine.execAmoMax h d a b sz sc s
  | .amoFadd h d a b sz sc => Sys2Proof.Machine.execAmoFadd h d a b sz sc s
  | .feLdf h d a off sc => Sys2Proof.Machine.execFeLdf h d a off sc s
  | .feLdk h d a off sc => Sys2Proof.Machine.execFeLdk h d a off sc s
  | .feStf h d a off sc => Sys2Proof.Machine.execFeStf h d a off sc s
  | .feSto h d a off sc => Sys2Proof.Machine.execFeSto h d a off sc s
  | .feClr h a off sc => Sys2Proof.Machine.execFeClr h a off sc s
  | .feTst h d a off sc => Sys2Proof.Machine.execFeTst h d a off sc s
  | .syncBind h d a => Sys2Proof.Machine.execSyncBind h d a s
  | .syncUnbind h d a => Sys2Proof.Machine.execSyncUnbind h d a s
  | .syncAcq h d a sc => Sys2Proof.Machine.execSyncAcq h d a sc s
  | .syncRel h d a sc => Sys2Proof.Machine.execSyncRel h d a sc s
  | .syncFence h sc => Sys2Proof.Machine.execSyncFence h sc s
  | .taskSpawn h a b => Sys2Proof.Machine.execTaskSpawn h a b s
  | .taskPop h d => Sys2Proof.Machine.execTaskPop h d s
  | .taskSteal h d => Sys2Proof.Machine.execTaskSteal h d s
  | .taskPark h d => Sys2Proof.Machine.execTaskPark h d s
  | .taskTour h => Sys2Proof.Machine.execTaskTour h s
  | .taskDone h d => Sys2Proof.Machine.execTaskDone h d s
  | .barArrive h d lv => Sys2Proof.Machine.execBarArrive h d lv s
  | .barWait h a lv => Sys2Proof.Machine.execBarWait h a lv s
  | .barSync h d lv => Sys2Proof.Machine.execBarSync h d lv s
  | .barDone h a => Sys2Proof.Machine.execBarDone h a s
  | .barStat h a lv => Sys2Proof.Machine.execBarStat h a lv s
  | .vecAdd h d a b lw => Sys2Proof.Machine.execVecAdd h d a b lw s
  | .vecSub h d a b lw => Sys2Proof.Machine.execVecSub h d a b lw s
  | .vecMul h d a b lw => Sys2Proof.Machine.execVecMul h d a b lw s
  | .vecMac h d a b lw => Sys2Proof.Machine.execVecMac h d a b lw s
  | .vecMin h d a b lw => Sys2Proof.Machine.execVecMin h d a b lw s
  | .vecMax h d a b lw => Sys2Proof.Machine.execVecMax h d a b lw s
  | .vecAnd h d a b lw => Sys2Proof.Machine.execVecAnd h d a b lw s
  | .vecOr h d a b lw => Sys2Proof.Machine.execVecOr h d a b lw s
  | .vecXor h d a b lw => Sys2Proof.Machine.execVecXor h d a b lw s
  | .vecShl h d a b lw => Sys2Proof.Machine.execVecShl h d a b lw s
  | .vecShr h d a b lw => Sys2Proof.Machine.execVecShr h d a b lw s
  | .vecAbs h d a lw => Sys2Proof.Machine.execVecAbs h d a lw s
  | .vecSel h d a b c lw => Sys2Proof.Machine.execVecSel h d a b c lw s
  | .vecfAdd h d a b lf rnd => Sys2Proof.Machine.execVecfAdd h d a b lf rnd s
  | .vecfSub h d a b lf rnd => Sys2Proof.Machine.execVecfSub h d a b lf rnd s
  | .vecfMul h d a b lf rnd => Sys2Proof.Machine.execVecfMul h d a b lf rnd s
  | .vecfFma h d a b c lf rnd => Sys2Proof.Machine.execVecfFma h d a b c lf rnd s
  | .vecfMin h d a b lf rnd => Sys2Proof.Machine.execVecfMin h d a b lf rnd s
  | .vecfMax h d a b lf rnd => Sys2Proof.Machine.execVecfMax h d a b lf rnd s
  | .vecfExp2 h d a lf rnd => Sys2Proof.Machine.execVecfExp2 h d a lf rnd s
  | .vecfRcp h d a lf rnd => Sys2Proof.Machine.execVecfRcp h d a lf rnd s
  | .vecfRsqrt h d a lf rnd => Sys2Proof.Machine.execVecfRsqrt h d a lf rnd s
  | .vecfScale h d a b lf rnd => Sys2Proof.Machine.execVecfScale h d a b lf rnd s
  | .vredSum h d a lw lf fl rnd => Sys2Proof.Machine.execVredSum h d a lw lf fl rnd s
  | .vredMax h d a lw lf fl rnd => Sys2Proof.Machine.execVredMax h d a lw lf fl rnd s
  | .vredMin h d a lw lf fl rnd => Sys2Proof.Machine.execVredMin h d a lw lf fl rnd s
  | .vredArgmax h d a lw lf fl rnd => Sys2Proof.Machine.execVredArgmax h d a lw lf fl rnd s
  | .vredSumsq h d a lw lf fl rnd => Sys2Proof.Machine.execVredSumsq h d a lw lf fl rnd s
  | .vredScan h d a lw lf fl rnd => Sys2Proof.Machine.execVredScan h d a lw lf fl rnd s
  | .vmovMov h d a => Sys2Proof.Machine.execVmovMov h d a s
  | .vmovBcast h d a b lw => Sys2Proof.Machine.execVmovBcast h d a b lw s
  | .vmovPerm h d a b lw => Sys2Proof.Machine.execVmovPerm h d a b lw s
  | .vmovPack h d a b lw => Sys2Proof.Machine.execVmovPack h d a b lw s
  | .vmovUnpack h d a b lw => Sys2Proof.Machine.execVmovUnpack h d a b lw s
  | .vmovSend h d a => Sys2Proof.Machine.execVmovSend h d a s
  | .vmovRecv h d a => Sys2Proof.Machine.execVmovRecv h d a s
  | .vmovJoin h a => Sys2Proof.Machine.execVmovJoin h a s
  | .vmovLeave h => Sys2Proof.Machine.execVmovLeave h s
  | .cvtQuant h d a b c sf sup rnd => Sys2Proof.Machine.execCvtQuant h d a b c sf sup rnd s
  | .cvtDequant h d a c lf part rnd => Sys2Proof.Machine.execCvtDequant h d a c lf part rnd s
  | .cvtFtoi h d a sf lw rnd => Sys2Proof.Machine.execCvtFtoi h d a sf lw rnd s
  | .cvtItof h d a lw lf rnd => Sys2Proof.Machine.execCvtItof h d a lw lf rnd s
  | .cvtFconv h d a sf lf rnd => Sys2Proof.Machine.execCvtFconv h d a sf lf rnd s
  | .cvtScale h d a b rnd => Sys2Proof.Machine.execCvtScale h d a b rnd s
  | .cvtRound h d a lf rnd => Sys2Proof.Machine.execCvtRound h d a lf rnd s
  | .mxCfg h a => Sys2Proof.Machine.execMxCfg h a s
  | .mxLdstat h a => Sys2Proof.Machine.execMxLdstat h a s
  | .mxSwap h => Sys2Proof.Machine.execMxSwap h s
  | .mxStream h a b => Sys2Proof.Machine.execMxStream h a b s
  | .mxDrain h a b => Sys2Proof.Machine.execMxDrain h a b s
  | .mxClear h a => Sys2Proof.Machine.execMxClear h a s
  | .engCopy h a => Sys2Proof.Machine.execEngCopy h a s
  | .engGuard h a b => Sys2Proof.Machine.execEngGuard h a b s
  | .engUnveil h d a => Sys2Proof.Machine.execEngUnveil h d a s
  | .engDiscard h d a => Sys2Proof.Machine.execEngDiscard h d a s
  | .engStatus h d => Sys2Proof.Machine.execEngStatus h d s
  | .grpOpen h a => Sys2Proof.Machine.execGrpOpen h a s
  | .grpFork h d a => Sys2Proof.Machine.execGrpFork h d a s
  | .grpWait h d a => Sys2Proof.Machine.execGrpWait h d a s
  | .grpWaitFf h d a => Sys2Proof.Machine.execGrpWaitFf h d a s
  | .grpCancel h a => Sys2Proof.Machine.execGrpCancel h a s
  | .grpReward h a => Sys2Proof.Machine.execGrpReward h a s
  | .grpStat h d a => Sys2Proof.Machine.execGrpStat h d a s
  | .grpClose h a => Sys2Proof.Machine.execGrpClose h a s
  | .smpSeed h a b => Sys2Proof.Machine.execSmpSeed h a b s
  | .smpRand h d a => Sys2Proof.Machine.execSmpRand h d a s
  | .smpStop h a b => Sys2Proof.Machine.execSmpStop h a b s
  | .smpDraw h d a b => Sys2Proof.Machine.execSmpDraw h d a b s
  | .smpPos h d => Sys2Proof.Machine.execSmpPos h d s
  | .chkAcc h d a lw ng => Sys2Proof.Machine.execChkAcc h d a lw ng s
  | .chkTest h a b => Sys2Proof.Machine.execChkTest h a b s
  | .chkClr h d => Sys2Proof.Machine.execChkClr h d s
  | .capPool h d a => Sys2Proof.Machine.execCapPool h d a s
  | .capGet h d a => Sys2Proof.Machine.execCapGet h d a s
  | .capPut h d a => Sys2Proof.Machine.execCapPut h d a s
  | .capStat h d a => Sys2Proof.Machine.execCapStat h d a s
  | .durBegin h d a b => Sys2Proof.Machine.execDurBegin h d a b s
  | .durCommit h d a => Sys2Proof.Machine.execDurCommit h d a s
  | .durPoint h d a => Sys2Proof.Machine.execDurPoint h d a s
  | .durScan h d a => Sys2Proof.Machine.execDurScan h d a s
  | .unassignedEncoding w0 => Sys2Proof.Machine.execUnassignedEncoding w0 s
  | .ident cmd => Sys2Proof.Machine.execIdent cmd s
  | .load cmd => Sys2Proof.Machine.execLoad cmd s
  | .unload cmd => Sys2Proof.Machine.execUnload cmd s
  | .launch cmd => Sys2Proof.Machine.execLaunch cmd s
  | .preempt cmd => Sys2Proof.Machine.execPreempt cmd s
  | .resume cmd => Sys2Proof.Machine.execResume cmd s
  | .frset cmd => Sys2Proof.Machine.execFrset cmd s
  | .inval cmd => Sys2Proof.Machine.execInval cmd s
  | .keyload cmd => Sys2Proof.Machine.execKeyload cmd s
  | .vaultset cmd => Sys2Proof.Machine.execVaultset cmd s
  | .replay cmd => Sys2Proof.Machine.execReplay cmd s
  | .route cmd => Sys2Proof.Machine.execRoute cmd s
  | .exportCmd cmd => Sys2Proof.Machine.execExportCmd cmd s
  | .fwload cmd => Sys2Proof.Machine.execFwload cmd s
  | .fwact cmd => Sys2Proof.Machine.execFwact cmd s
  | .attest cmd => Sys2Proof.Machine.execAttest cmd s
  | .ctxnew cmd => Sys2Proof.Machine.execCtxnew cmd s
  | .ctxend cmd => Sys2Proof.Machine.execCtxend cmd s
  | .pwrset cmd => Sys2Proof.Machine.execPwrset cmd s
  | .faults cmd => Sys2Proof.Machine.execFaults cmd s
  | .fetchEndAccess t => Sys2Proof.Machine.execFetchEndAccess t s
  | .asyncWrite k => Sys2Proof.Machine.execAsyncWrite k s
  | .asyncTrapEntry t => Sys2Proof.Machine.execAsyncTrapEntry t s
  | .longOpComplete t => Sys2Proof.Machine.execLongOpComplete t s
  | .waitlimExpire t => Sys2Proof.Machine.execWaitlimExpire t s
  | .feWaitSatisfied t => Sys2Proof.Machine.execFeWaitSatisfied t s
  | .repackUnfreeze k => Sys2Proof.Machine.execRepackUnfreeze k s
  | .meshWordArrive k dir => Sys2Proof.Machine.execMeshWordArrive k dir s
  | .storeEntryPerform k idx => Sys2Proof.Machine.execStoreEntryPerform k idx s
  | .reflectionEvict die line => Sys2Proof.Machine.execReflectionEvict die line s
  | .vaultWriteDurable buf idx => Sys2Proof.Machine.execVaultWriteDurable buf idx s
  | .engReservationGrant k => Sys2Proof.Machine.execEngReservationGrant k s
  | .engineCommandAccept k => Sys2Proof.Machine.execEngineCommandAccept k s
  | .engineBurst tile eng queue => Sys2Proof.Machine.execEngineBurst tile eng queue s
  | .engineFollowon tile => Sys2Proof.Machine.execEngineFollowon tile s
  | .engineCommandEnd tile eng queue => Sys2Proof.Machine.execEngineCommandEnd tile eng queue s
  | .engineStatusPost k => Sys2Proof.Machine.execEngineStatusPost k s
  | .unveilFlip t => Sys2Proof.Machine.execUnveilFlip t s
  | .shadowDiscard t => Sys2Proof.Machine.execShadowDiscard t s
  | .mxCommandComplete tile => Sys2Proof.Machine.execMxCommandComplete tile s
  | .arrayChannelMessage tile dir => Sys2Proof.Machine.execArrayChannelMessage tile dir s
  | .arrayConfigMessage tile dir => Sys2Proof.Machine.execArrayConfigMessage tile dir s
  | .doorbellNotice tile => Sys2Proof.Machine.execDoorbellNotice tile s
  | .vgForm t => Sys2Proof.Machine.execVgForm t s
  | .vgForward t => Sys2Proof.Machine.execVgForward t s
  | .bindRecordWrite lid place => Sys2Proof.Machine.execBindRecordWrite lid place s
  | .leaseRowRelease k => Sys2Proof.Machine.execLeaseRowRelease k s
  | .imageRelease tile => Sys2Proof.Machine.execImageRelease tile s
  | .gangStart die slot => Sys2Proof.Machine.execGangStart die slot s
  | .stealRequest k => Sys2Proof.Machine.execStealRequest k s
  | .stealReply t => Sys2Proof.Machine.execStealReply t s
  | .parkStealRetry t => Sys2Proof.Machine.execParkStealRetry t s
  | .statusWordArrive tile kern => Sys2Proof.Machine.execStatusWordArrive tile kern s
  | .launchComplete lid => Sys2Proof.Machine.execLaunchComplete lid s
  | .tourToken k => Sys2Proof.Machine.execTourToken k s
  | .tourRoundStart k => Sys2Proof.Machine.execTourRoundStart k s
  | .tourFinish k => Sys2Proof.Machine.execTourFinish k s
  | .barrierComplete tile lv => Sys2Proof.Machine.execBarrierComplete tile lv s
  | .preemptTimeout gang => Sys2Proof.Machine.execPreemptTimeout gang s
  | .coopSave gang => Sys2Proof.Machine.execCoopSave gang s
  | .forcedSave gang => Sys2Proof.Machine.execForcedSave gang s
  | .groupTimeout gang g => Sys2Proof.Machine.execGroupTimeout gang g s
  | .forkRemoteCopy t => Sys2Proof.Machine.execForkRemoteCopy t s
  | .missRecord tile idx => Sys2Proof.Machine.execMissRecord tile idx s
  | .fillDeliver cluster => Sys2Proof.Machine.execFillDeliver cluster s
  | .hostPageAnswer cluster answer => Sys2Proof.Machine.execHostPageAnswer cluster answer s
  | .sidelogReplay tile => Sys2Proof.Machine.execSidelogReplay tile s
  | .tileInvalAck tile => Sys2Proof.Machine.execTileInvalAck tile s
  | .patrolScrub word => Sys2Proof.Machine.execPatrolScrub word s
  | .containNode lid => Sys2Proof.Machine.execContainNode lid s
  | .cpLockstepReset die => Sys2Proof.Machine.execCpLockstepReset die s
  | .wsRefresh die bank => Sys2Proof.Machine.execWsRefresh die bank s
  | .hbmAlert stack bank row => Sys2Proof.Machine.execHbmAlert stack bank row s
  | .hbmBackoffEnd stack bank => Sys2Proof.Machine.execHbmBackoffEnd stack bank s
  | .qstailDoorbell q v => Sys2Proof.Machine.execQstailDoorbell q v s
  | .qcheadWrite q v => Sys2Proof.Machine.execQcheadWrite q v s
  | .queueCommandTake q => Sys2Proof.Machine.execQueueCommandTake q s
  | .hostRegisterWrite off v => Sys2Proof.Machine.execHostRegisterWrite off v s
  | .fwcommitWrite v => Sys2Proof.Machine.execFwcommitWrite v s
  | .fwWatchdogExpire => Sys2Proof.Machine.execFwWatchdogExpire s
  | .peerRequest req => Sys2Proof.Machine.execPeerRequest req s
  | .peerTimeout t => Sys2Proof.Machine.execPeerTimeout t s
  | .portDown port => Sys2Proof.Machine.execPortDown port s
  | .hostMemAccess acc => Sys2Proof.Machine.execHostMemAccess acc s
  | .trainingDone t => Sys2Proof.Machine.execTrainingDone t s
  | .clockStepAdjust power temp => Sys2Proof.Machine.execClockStepAdjust power temp s
  | .thermalReset => Sys2Proof.Machine.execThermalReset s
  | .modulePowerOn => Sys2Proof.Machine.execModulePowerOn s
  | .weightStoreWrite die region phase => Sys2Proof.Machine.execWeightStoreWrite die region phase s
  | .hbmRefresh stack bank row => Sys2Proof.Machine.execHbmRefresh stack bank row s
  | .softError word bits => Sys2Proof.Machine.execSoftError word bits s
  | .portUp port => Sys2Proof.Machine.execPortUp port s
  | .requestWithdrawn gang => Sys2Proof.Machine.execRequestWithdrawn gang s

end Sys2Proof.Machine
end

