-- ==== Sys2Proof/Machine/Cycle.lean ====
section
/-! DEFINITION. How a cycle goes on: an environment step of the agenda, one thread's slot, one wait tried again, one step of the
machine, or the end of the cycle. What each does is in Sched and in the meanings. -/
namespace Sys2Proof.Machine

/-- The state of a successful step, or the given one where the step does not occur. -/
def orElse (o : Host.Outcome State Fault Refusal) (s : State) : State :=
  match o with
  | .next t => t
  | .fault _ => s
  | .refused _ => s

/-- Runs an instruction of `n` words for the current thread: it takes its place in the order of issue, is counted
(R374) and is the thread's instruction under way in a vector group (R205). -/
def run (i : Instr) (n : Nat) (s : State) : Host.Outcome State Fault Refusal :=
  let s1 := (s.refill s.cur n).count s.cur.coreRef 0
  let x := s1.me
  let s2 := if x.vg = .leader then s1.setMe { x with vgRun := some (i, x.pc, 0) } else s1
  exec i { s2 with seq := s2.seq + 1 }

/-- An attached follower issues the oldest instruction of its forward buffer, on its own names and at the address it carries (R205). -/
def runForwarded (t : ThreadRef) (s : State) : Host.Outcome State Fault Refusal :=
  let x := s.thread t
  match x.vgBuf with
  | [] => .next s
  | f :: l =>
    let s1 := s.setThread t { x with vgBuf := l, pc := f.pc, vgRun := some (f.instr, f.pc, f.nl) }
    match f.ill with
    | some w => .next (s1.takeTrap t .ill f.pc (w.setWidth 64))
    | none => exec f.instr { s1.count t.coreRef 0 with seq := s1.seq + 1 }

/-- What the thread that owns the slot does. -/
def doSlot (t : ThreadRef) (sl : Slot) (s : State) : Host.Outcome State Fault Refusal :=
  let pc := (s.thread t).pc
  match sl with
  | .asyncTrap => (Ev.asyncTrapEntry t).run s
  | .fetchEnd => (Ev.fetchEndAccess t).run s
  | .stop => .next (s.setThread t { s.thread t with st := .stopped })
  | .forwarded => runForwarded t s
  | .fetched f =>
    match f with
    | .held => .next s
    | .past => .next (s.takeTrap t .access pc 0x8_0000)
    | .poison a => .next (s.takeTrap t .poison pc (n64 a))
    | .ill w => .next ((s.takeTrap t .ill pc (w.setWidth 64)).forwardIll t w pc)
    | .instr i n => run i n s

/-- Tries a waiting instruction again (R215): it ends, or goes on waiting. A cycle held by a miss counts PFHOLD (R364). A thread that a save has
frozen stays FROZEN (R238). While a repack freezes its kernel, what comes before the repack and full/empty operations perform; any other wait
whose condition is met goes on, no longer bounded, and ends when the freeze does (R78). -/
def tryAgain (t : ThreadRef) (w : WaitRec) (s : State) : State :=
  let s0 := if w.why = .miss then s.count t.coreRef 2 else s
  let s1 := orElse (exec w.instr s0) s0
  let s2 := if (s.thread t).st = .frozen then s1.setThread t { s1.thread t with st := .frozen } else s1
  if (s.core t.coreRef).repacking t.h = true ∧ w.completes = false ∧ w.why.same (.retry tagFull 0) = false then
    (if (s1.thread t).st = .waiting then s0
    else s0.setThread t { s0.thread t with wait := some { w with lim := 0, tval := none } })
  else s2
/-- A wait that has reached its limit is tried a last time, so that it sees all that its cycle brought, and ends in WAITLIM where its condition is
still not met (R215); an instruction of a class of R320 has had its turn in the cycle. -/
def doExpire (t : ThreadRef) (w : WaitRec) (s : State) : Host.Outcome State Fault Refusal :=
  let s1 := if ordered w.instr then s else tryAgain t w s
  if s1.expired t then (Ev.waitlimExpire t).run s1 else .next s1
/-- A turn of an issue phase. -/
def doTurn (s : State) : Turn → Host.Outcome State Fault Refusal
  | .slot t sl => doSlot t sl { s.useSlot t with cur := t }
  | .mark t => .next (s.setCore t.coreRef { s.core t.coreRef with issued := s.cycle + 1, due := s.cycle + 1 })
  | .again t w => .next (tryAgain t w { s with cur := t })
  | .timeout g o => .next (orElse ((Ev.groupTimeout g o).run s) s)

/-- Every repack unit that may begin to move rows does (R78). -/
def State.repacksBegin (s : State) : State :=
  s.coreRefs.foldl (fun (z : State) r => if (z.core r).repack.isSome then z.setCore r ((z.core r).beginRepack z.cycle) else z) s
/-- Words leave every outbound queue that may give some up (R160). -/
def State.portsLeave (s : State) : State :=
  s.coreRefs.foldl (fun (z : State) r => ([.n, .e, .s, .w] : List Dir).foldl (fun (y : State) d => y.portLeave r d) z) s
/-- The guards of the commands at the heads of the engines' queues decide (R169). -/
def State.guardsDecide (s : State) : State := { s with tiles := s.tiles.map fun p => (p.1, p.2.decideAll s.cycle) }
/-- The end of a cycle. -/
def State.endCycle (s : State) : State :=
  { s.vgSettleAll.mxAdvanceAll.portsLeave.repacksBegin.guardsDecide with cycle := s.cycle + 1, phase := .issue 0 0, fresh := [] }
/-- The next thing that happens. -/
def State.goAhead (s : State) : Host.Outcome State Fault Refusal :=
  match s.agenda with
  | i :: l => .next (orElse (exec i { s with agenda := l }) { s with agenda := l })
  | [] =>
    match s.phase with
    | .issue cls key =>
      (match s.nextTurn cls key with
      | some (c, k, a) => doTurn { s with phase := .issue c (k + 1) } a
      | none => .next { s with phase := if cls = 0 then .timed else .late })
    | .timed =>
      (match s.nextTimed with
      | some e => e.run s
      | none => .next { s with phase := .work })
    | .work =>
      (match s.nextWork with
      | some e => e.run { s with phase := .retry 0 }
      | none => .next { s with phase := .retry 0 })
    | .retry last =>
      (match s.nextRetry last with
      | some (t, w) => .next (tryAgain t w { s with cur := t, phase := .retry (w.seq + 1) })
      | none => .next { s with phase := .issue 1 0 })
    | .late =>
      (match s.nextLate with
      | some e => e.run s
      | none => .next { s with phase := .expire })
    | .expire =>
      (match s.nextExpired with
      | some (t, w) => doExpire t w { s with cur := t }
      | none => .next s.endCycle)

/-! ## Placing one instruction -/

/-- A kernel of one thread with 56 names of 64 bits, for an instruction placed outside any launch. -/
def placeKernel : Kernel :=
  { Kernel.none with cat := List.replicate 56 ⟨64, .uint, .wrap, .rne, .none⟩, decl := List.replicate 56 ⟨64, .uint, .wrap, .rne, .none⟩,
                     rows := 7, phys := [0, 1, 2, 3, 4, 5, 6] }

/-- The thread that runs a placed instruction: thread 0 of the arithmetic core of tile 0. -/
def placeThread : ThreadRef := ⟨0, 2, 0⟩

end Sys2Proof.Machine
end

