-- ==== Sys2Proof/Machine/Step.lean ====
section
/-! DEFINITION. One step of the machine, and an instruction placed where it fetches. What a step does is in Cycle. -/
namespace Sys2Proof.Machine

/-- One step of the machine. -/
def step (s : State) : Host.Outcome State Fault Refusal := s.goAhead

/-- The state with an instruction stored where the next step fetches: the kernel and the READY thread that a bind would give
stand in the slot of a cycle, at local address 0x2000, where the cycle has got to the instruction's class. -/
def State.withFetchWord (s : State) (nbits w : Nat) : State :=
  let c := s.core placeThread.coreRef
  let x := { s.thread placeThread with st := .ready, pc := 0x2000, fbuf := [], wait := none, pend := none,
                                       vg := .solo, vgIn := [], vgBuf := [], vgRun := none, names := List.replicate 56 0, bad := [] }
  let s1 := s.setCore placeThread.coreRef { c with kernels := [placeKernel], repack := none, issued := 0, due := s.cycle / 8 * 8 + 1, threads := c.threads.set placeThread.h x }
  { s1 with mem := memPutList s1.mem (localKey 0 0x2000) (tableBytes nbits w), cur := placeThread, phase := .issue (if (decodeTableWord nbits w).any ordered then 1 else 0) 0, agenda := [], fresh := [],
            cycle := s.cycle / 8 * 8 }

end Sys2Proof.Machine
end

