-- ==== Sys2Proof/Safety.lean ====
section
/-! DEFINITION. What counts as a safe run: memory keeps its canonical form, and every step of a run is a next state. -/
namespace Sys2Proof

/-- A state whose memory is in the canonical form. -/
def Machine.State.memOk (s : Machine.State) : Prop := Machine.Memory.wf s.mem = true

/-- A run of `k` steps from `s` that no refusal or fault ends. -/
def SafeRun (k : Nat) (s : Machine.State) : Prop := ∃ t, core.run k s = .next t

end Sys2Proof
end

