-- ==== Sys2Proof/WellFormed.lean ====
section
/-! DEFINITION. Well-formed instructions: those that have an encoding (05 R84 to R97). One check per rule, each refusing terms
of its own. A step of the machine or a host command has no word and nothing to check. -/
namespace Sys2Proof

/-- Names an instruction carries, in the order of its fields. -/
def Instr.nameRefs : Instr → List NameRef
  | .sysGetc _ _ d => [d]
  | .sysSetc _ _ d => [d]
  | .sysRdevt _ _ d => [d]
  | .sysCycle _ d => [d]
  | .aluAdd _ d a b => [d, a, b]
  | .aluSub _ d a b => [d, a, b]
  | .aluAnd _ d a b => [d, a, b]
  | .aluOr _ d a b => [d, a, b]
  | .aluXor _ d a b => [d, a, b]
  | .aluAndn _ d a b => [d, a, b]
  | .aluMin _ d a b => [d, a, b]
  | .aluMax _ d a b => [d, a, b]
  | .aluMov _ d a => [d, a]
  | .aluNeg _ d a => [d, a]
  | .aluAbs _ d a => [d, a]
  | .aluPopc _ d a => [d, a]
  | .aluClz _ d a => [d, a]
  | .aluCtz _ d a => [d, a]
  | .aluiAdd _ d a _ => [d, a]
  | .aluiSub _ d a _ => [d, a]
  | .aluiAnd _ d a _ => [d, a]
  | .aluiOr _ d a _ => [d, a]
  | .aluiXor _ d a _ => [d, a]
  | .aluiMin _ d a _ => [d, a]
  | .aluiMax _ d a _ => [d, a]
  | .aluiSet _ d _ => [d]
  | .shfShl _ d a b => [d, a, b]
  | .shfShr _ d a b => [d, a, b]
  | .shfRol _ d a b => [d, a, b]
  | .shfRor _ d a b => [d, a, b]
  | .shfShli _ d a _ => [d, a]
  | .shfShri _ d a _ => [d, a]
  | .shfRoli _ d a _ => [d, a]
  | .shfRori _ d a _ => [d, a]
  | .shfExt _ d a _ _ _ => [d, a]
  | .shfIns _ d a _ _ => [d, a]
  | .mulMul _ d a b => [d, a, b]
  | .mulMac _ d a b => [d, a, b]
  | .mulMsub _ d a b => [d, a, b]
  | .mulMulsh _ d a b _ _ => [d, a, b]
  | .divDiv _ d a b => [d, a, b]
  | .divRem _ d a b => [d, a, b]
  | .divDivf _ d a b => [d, a, b]
  | .divModf _ d a b => [d, a, b]
  | .cmpEq _ d a b => [d, a, b]
  | .cmpNe _ d a b => [d, a, b]
  | .cmpLt _ d a b => [d, a, b]
  | .cmpLe _ d a b => [d, a, b]
  | .cmpGt _ d a b => [d, a, b]
  | .cmpGe _ d a b => [d, a, b]
  | .cmpTst _ d a b => [d, a, b]
  | .cmpSel _ d a b c => [d, a, b, c]
  | .widResize _ n _ _ => [n]
  | .widWidth _ d a => [d, a]
  | .widFits _ d a b => [d, a, b]
  | .brZ _ a _ => [a]
  | .brNz _ a _ => [a]
  | .brLz _ a _ => [a]
  | .brGez _ a _ => [a]
  | .brGz _ a _ => [a]
  | .brLez _ a _ => [a]
  | .jmpInd _ a _ => [a]
  | .callInd _ a _ => [a]
  | .addrGlob _ d a => [d, a]
  | .addrGen _ d a => [d, a]
  | .addrLea _ d a _ => [d, a]
  | .ldB _ d a _ => [d, a]
  | .ldH _ d a _ => [d, a]
  | .ldW _ d a _ => [d, a]
  | .ldD _ d a _ => [d, a]
  | .ldV _ d a _ => [d, a]
  | .ldG _ d a _ => [d, a]
  | .stB _ d a _ => [d, a]
  | .stH _ d a _ => [d, a]
  | .stW _ d a _ => [d, a]
  | .stD _ d a _ => [d, a]
  | .stV _ d a _ => [d, a]
  | .stG _ d a _ => [d, a]
  | .amoSwap _ d a b _ _ => [d, a, b]
  | .amoCas _ d a b c _ _ => [d, a, b, c]
  | .amoAdd _ d a b _ _ => [d, a, b]
  | .amoAnd _ d a b _ _ => [d, a, b]
  | .amoOr _ d a b _ _ => [d, a, b]
  | .amoXor _ d a b _ _ => [d, a, b]
  | .amoMin _ d a b _ _ => [d, a, b]
  | .amoMax _ d a b _ _ => [d, a, b]
  | .amoFadd _ d a b _ _ => [d, a, b]
  | .feLdf _ d a _ _ => [d, a]
  | .feLdk _ d a _ _ => [d, a]
  | .feStf _ d a _ _ => [d, a]
  | .feSto _ d a _ _ => [d, a]
  | .feClr _ a _ _ => [a]
  | .feTst _ d a _ _ => [d, a]
  | .syncBind _ d a => [d, a]
  | .syncUnbind _ d a => [d, a]
  | .syncAcq _ d a _ => [d, a]
  | .syncRel _ d a _ => [d, a]
  | .taskSpawn _ a b => [a, b]
  | .taskPop _ d => [d]
  | .taskSteal _ d => [d]
  | .taskPark _ d => [d]
  | .taskDone _ d => [d]
  | .barArrive _ d _ => [d]
  | .barWait _ a _ => [a]
  | .barSync _ d _ => [d]
  | .barDone _ a => [a]
  | .barStat _ a _ => [a]
  | .vecAdd _ d a b _ => [d, a, b]
  | .vecSub _ d a b _ => [d, a, b]
  | .vecMul _ d a b _ => [d, a, b]
  | .vecMac _ d a b _ => [d, a, b]
  | .vecMin _ d a b _ => [d, a, b]
  | .vecMax _ d a b _ => [d, a, b]
  | .vecAnd _ d a b _ => [d, a, b]
  | .vecOr _ d a b _ => [d, a, b]
  | .vecXor _ d a b _ => [d, a, b]
  | .vecShl _ d a b _ => [d, a, b]
  | .vecShr _ d a b _ => [d, a, b]
  | .vecAbs _ d a _ => [d, a]
  | .vecSel _ d a b c _ => [d, a, b, c]
  | .vecfAdd _ d a b _ _ => [d, a, b]
  | .vecfSub _ d a b _ _ => [d, a, b]
  | .vecfMul _ d a b _ _ => [d, a, b]
  | .vecfFma _ d a b c _ _ => [d, a, b, c]
  | .vecfMin _ d a b _ _ => [d, a, b]
  | .vecfMax _ d a b _ _ => [d, a, b]
  | .vecfExp2 _ d a _ _ => [d, a]
  | .vecfRcp _ d a _ _ => [d, a]
  | .vecfRsqrt _ d a _ _ => [d, a]
  | .vecfScale _ d a b _ _ => [d, a, b]
  | .vredSum _ d a _ _ _ _ => [d, a]
  | .vredMax _ d a _ _ _ _ => [d, a]
  | .vredMin _ d a _ _ _ _ => [d, a]
  | .vredArgmax _ d a _ _ _ _ => [d, a]
  | .vredSumsq _ d a _ _ _ _ => [d, a]
  | .vredScan _ d a _ _ _ _ => [d, a]
  | .vmovMov _ d a => [d, a]
  | .vmovBcast _ d a b _ => [d, a, b]
  | .vmovPerm _ d a b _ => [d, a, b]
  | .vmovPack _ d a b _ => [d, a, b]
  | .vmovUnpack _ d a b _ => [d, a, b]
  | .vmovSend _ d a => [d, a]
  | .vmovRecv _ d a => [d, a]
  | .vmovJoin _ a => [a]
  | .cvtQuant _ d a b c _ _ _ => [d, a, b, c]
  | .cvtDequant _ d a c _ _ _ => [d, a, c]
  | .cvtFtoi _ d a _ _ _ => [d, a]
  | .cvtItof _ d a _ _ _ => [d, a]
  | .cvtFconv _ d a _ _ _ => [d, a]
  | .cvtScale _ d a b _ => [d, a, b]
  | .cvtRound _ d a _ _ => [d, a]
  | .mxCfg _ a => [a]
  | .mxLdstat _ a => [a]
  | .mxStream _ a b => [a, b]
  | .mxDrain _ a b => [a, b]
  | .mxClear _ a => [a]
  | .engCopy _ a => [a]
  | .engGuard _ a b => [a, b]
  | .engUnveil _ d a => [d, a]
  | .engDiscard _ d a => [d, a]
  | .engStatus _ d => [d]
  | .grpOpen _ a => [a]
  | .grpFork _ d a => [d, a]
  | .grpWait _ d a => [d, a]
  | .grpWaitFf _ d a => [d, a]
  | .grpCancel _ a => [a]
  | .grpReward _ a => [a]
  | .grpStat _ d a => [d, a]
  | .grpClose _ a => [a]
  | .smpSeed _ a b => [a, b]
  | .smpRand _ d a => [d, a]
  | .smpStop _ a b => [a, b]
  | .smpDraw _ d a b => [d, a, b]
  | .smpPos _ d => [d]
  | .chkAcc _ d a _ _ => [d, a]
  | .chkTest _ a b => [a, b]
  | .chkClr _ d => [d]
  | .capPool _ d a => [d, a]
  | .capGet _ d a => [d, a]
  | .capPut _ d a => [d, a]
  | .capStat _ d a => [d, a]
  | .durBegin _ d a b => [d, a, b]
  | .durCommit _ d a => [d, a]
  | .durPoint _ d a => [d, a]
  | .durScan _ d a => [d, a]
  | _ => []

/-- A catalogue name number is below 504: 504 to 511 are the fixed names (R65). -/
def NameRef.inField : NameRef → Bool
  | .cat n => decide (n.toNat < 504)
  | .fixed _ => true

/-- Every name has a number of its own (R65). -/
def Instr.namesOk (i : Instr) : Bool := i.nameRefs.all NameRef.inField

/-- The length is one that the function admits (R93). -/
def lengthOk (maj fn : Nat) (h : Hdr) : Bool :=
  match functionOf maj fn with
  | some (_, lens) => lens.admits h.form
  | none => false

/-- A literal stands only in the forms that have one (R84). -/
def Hdr.literalOk (h : Hdr) : Bool := h.form.hasLit || h.lit == 0

/-- A base word holds no names above 55, no modifiers but those of its layout, and immediates only as wide as its field; the
other fields of the instruction have their defaults (R88, R90, R91). -/
def baseOk (maj fn : Nat) (h : Hdr) (f : Fields) : Bool :=
  match functionOf maj fn with
  | some (l, _) => h.form.isExt || baseFields l (baseBits l f ++ 0#14) == f
  | none => false

/-- Field `c` of the conversions is `zero` in a base word (R187). -/
def Instr.thirdOk : Instr → Bool
  | .cvtQuant h _ _ _ c _ _ _ => h.form.isExt || c == .fixed .zero
  | .cvtDequant h _ _ c _ _ _ => h.form.isExt || c == .fixed .zero
  | _ => true

/-- The function of an unassigned encoding is one that R94 does not assign (R97). -/
def unassignedOk (w0 : Word32) : Bool := (functionOf (w0.extractLsb' 2 6).toNat (w0.extractLsb' 10 4).toNat).isNone

/-- An instruction that has an encoding, or a step that needs none. -/
def Instr.wf (i : Instr) : Bool :=
  match i with
  | .unassignedEncoding w0 => unassignedOk w0
  | _ =>
    match toFields i with
    | none => true
    | some (maj, fn, h, f) =>
      lengthOk maj fn h && h.literalOk && i.namesOk && baseOk maj fn h f && i.thirdOk && operandsAdmitted i

end Sys2Proof
end

