-- ==== Sys2Proof/Certificates/Slice0/Obligations.lean ====
section
/-! DEFINITION. The statements about the model, by the numbered rules of the spec. Premises of the form `s.read … = .ok …` and
`s.writeInt … = .ok …` name what an operand reads as and the state a write leaves; SourceRead and IntegerWrite say when these hold. -/
open Sys2Proof Sys2Proof.Machine

/-! ## What the statements say, once -/
namespace Sys2Proof.Claims

/-- An instruction passes the checks at issue: its names (R65, R66), and its wait field (R86). -/
def Passes (s : State) (i : Instr) (h : Hdr) (srcs dsts : List NameRef) : Prop :=
  nameBreach s.myKernel h i srcs dsts = none ∧ s.waitOk h.wait = true

/-- Two sources and an integer result: header, `d`, `a`, `b` and the exact result (R105, R107, R111, R112). -/
def intTwo : Instr → Option (Hdr × NameRef × NameRef × NameRef × (Src → Src → Int))
  | .aluAdd h d a b => some (h, d, a, b, fun x y => x.val + y.val)
  | .aluSub h d a b => some (h, d, a, b, fun x y => x.val - y.val)
  | .aluAnd h d a b => some (h, d, a, b, fun x y => intAnd x.val y.val)
  | .aluOr h d a b => some (h, d, a, b, fun x y => intOr x.val y.val)
  | .aluXor h d a b => some (h, d, a, b, fun x y => intXor x.val y.val)
  | .aluAndn h d a b => some (h, d, a, b, fun x y => intAndn x.val y.val)
  | .aluMin h d a b => some (h, d, a, b, fun x y => if x.val ≤ y.val then x.val else y.val)
  | .aluMax h d a b => some (h, d, a, b, fun x y => if x.val ≤ y.val then y.val else x.val)
  | .shfShl h d a b => some (h, d, a, b, fun x y => x.val * 2 ^ (y.val % 1024).toNat)
  | .shfShr h d a b => some (h, d, a, b, fun x y => x.val / 2 ^ (y.val % 1024).toNat)
  | .shfRol h d a b => some (h, d, a, b, fun x y => valueOf x.ent (rotl x.ent.width x.pat (y.val % 1024).toNat))
  | .shfRor h d a b => some (h, d, a, b, fun x y => valueOf x.ent (rotr x.ent.width x.pat (y.val % 1024).toNat))
  | .cmpEq h d a b => some (h, d, a, b, fun x y => if x.val = y.val then 1 else 0)
  | .cmpNe h d a b => some (h, d, a, b, fun x y => if x.val = y.val then 0 else 1)
  | .cmpLt h d a b => some (h, d, a, b, fun x y => if x.val < y.val then 1 else 0)
  | .cmpLe h d a b => some (h, d, a, b, fun x y => if x.val ≤ y.val then 1 else 0)
  | .cmpGt h d a b => some (h, d, a, b, fun x y => if y.val < x.val then 1 else 0)
  | .cmpGe h d a b => some (h, d, a, b, fun x y => if y.val ≤ x.val then 1 else 0)
  | .cmpTst h d a b => some (h, d, a, b, fun x y => if intAnd x.val y.val = 0 then 0 else 1)
  | .widFits h d a b => some (h, d, a, b, fun x y => if fitsAt x.ent.kind y.val x.val then 1 else 0)
  | _ => none

/-- One source and an integer result: header, `d`, `a`, whether the immediate is admitted, and the exact result from the address
of the instruction and the source (R105 to R108, R125). -/
def intOne : Instr → Option (Hdr × NameRef × NameRef × Bool × (Nat → Src → Int))
  | .aluNeg h d a => some (h, d, a, true, fun _ x => -x.val)
  | .aluAbs h d a => some (h, d, a, true, fun _ x => if x.val < 0 then -x.val else x.val)
  | .aluPopc h d a => some (h, d, a, true, fun _ x => (popc x.ent.width x.pat : Int))
  | .aluClz h d a => some (h, d, a, true, fun _ x => (clz x.ent.width x.pat : Int))
  | .aluCtz h d a => some (h, d, a, true, fun _ x => (ctz x.ent.width x.pat : Int))
  | .aluiAdd h d a m => some (h, d, a, true, fun _ x => x.val + m.toInt)
  | .aluiSub h d a m => some (h, d, a, true, fun _ x => x.val - m.toInt)
  | .aluiAnd h d a m => some (h, d, a, true, fun _ x => intAnd x.val m.toInt)
  | .aluiOr h d a m => some (h, d, a, true, fun _ x => intOr x.val m.toInt)
  | .aluiXor h d a m => some (h, d, a, true, fun _ x => intXor x.val m.toInt)
  | .aluiMin h d a m => some (h, d, a, true, fun _ x => if x.val ≤ m.toInt then x.val else m.toInt)
  | .aluiMax h d a m => some (h, d, a, true, fun _ x => if x.val ≤ m.toInt then m.toInt else x.val)
  | .shfShli h d a m => some (h, d, a, decide (0 ≤ m.toInt ∧ m.toInt ≤ 1023), fun _ x => x.val * 2 ^ m.toNat)
  | .shfShri h d a m => some (h, d, a, decide (0 ≤ m.toInt ∧ m.toInt ≤ 1023), fun _ x => x.val / 2 ^ m.toNat)
  | .shfRoli h d a m => some (h, d, a, decide (0 ≤ m.toInt ∧ m.toInt ≤ 1023), fun _ x => valueOf x.ent (rotl x.ent.width x.pat m.toNat))
  | .shfRori h d a m => some (h, d, a, decide (0 ≤ m.toInt ∧ m.toInt ≤ 1023), fun _ x => valueOf x.ent (rotr x.ent.width x.pat m.toNat))
  | .shfExt h d a p n sx => some (h, d, a, true, fun _ x => extField x.val p.toNat n.toNat sx)
  | .addrLea h d a m => some (h, d, a, true, fun pc x => (pc : Int) + x.val + m.toInt)
  | _ => none

/-- A multiply: header, `d`, `a`, `b`, whether `d` is read too, whether its shift is admitted, and the exact result (R109). -/
def product : Instr → Option (Hdr × NameRef × NameRef × NameRef × Bool × Bool × (Int → Int → Int → Int))
  | .mulMul h d a b => some (h, d, a, b, false, true, fun x y _ => x * y)
  | .mulMac h d a b => some (h, d, a, b, true, true, fun x y z => z + x * y)
  | .mulMsub h d a b => some (h, d, a, b, true, true, fun x y z => z - x * y)
  | .mulMulsh h d a b n rq => some (h, d, a, b, false, decide (0 ≤ n.toInt ∧ n.toInt ≤ 1023), fun x y _ => shiftRound (x * y) n.toNat rq)
  | _ => none

/-- A divide: header, `d`, `a`, `b` and its quotient or remainder (R110). -/
def quotient : Instr → Option (Hdr × NameRef × NameRef × NameRef × (Int → Int → Int))
  | .divDiv h d a b => some (h, d, a, b, Int.tdiv)
  | .divRem h d a b => some (h, d, a, b, Int.tmod)
  | .divDivf h d a b => some (h, d, a, b, Int.fdiv)
  | .divModf h d a b => some (h, d, a, b, Int.fmod)
  | _ => none

/-- A conditional branch: header, `a`, offset and condition (R115). -/
def branch : Instr → Option (Hdr × NameRef × BitVec 32 × (Int → Prop))
  | .brZ h a o => some (h, a, o, fun x => x = 0)
  | .brNz h a o => some (h, a, o, fun x => x ≠ 0)
  | .brLz h a o => some (h, a, o, fun x => x < 0)
  | .brGez h a o => some (h, a, o, fun x => 0 ≤ x)
  | .brGz h a o => some (h, a, o, fun x => 0 < x)
  | .brLez h a o => some (h, a, o, fun x => x ≤ 0)
  | _ => none

/-- A target that R113 admits. -/
def Target (t : Int) : Prop := t % 4 = 0 ∧ 0 ≤ t ∧ t ≤ 0x7_FFFC

/-- The cause that R113 gives a target it refuses: ALIGN before ACCESS. -/
def Refused (t : Int) (c : Cause) : Prop := (t % 4 ≠ 0 ∧ c = .align) ∨ (t % 4 = 0 ∧ (t < 0 ∨ 0x7_FFFC < t) ∧ c = .access)

/-- The relative target of R113. -/
def target (s : State) (off : BitVec 32) : Int := (s.me.pc : Int) + 4 * off.toInt

end Sys2Proof.Claims

open Sys2Proof Sys2Proof.Machine Sys2Proof.Claims

/-! ## Operands and completion (04 R65 to R69, 05 R84 to R87) -/

/-- What reading a source field gives (R65, R67, R78, R99): a catalogue name its own copy, or what the copy was when an instruction that has
waited issued; the fixed names their values; a port its oldest word, which it gives up. A word taken before a wait is the instruction's; an empty
port, or one that an older instruction is to read, holds the thread at its instruction. -/
def Sys2Proof.Claims.SourceRead : Prop :=
  ∀ (s0 s : State) (i : Instr) (h : Hdr),
    ((∀ w, s0.me.wait = some w → w.src = none) → ∀ k, s0.read i h (.cat k) s = .ok (⟨s.ent (.cat k), (s.me.name k.toNat).toNat⟩, s)) ∧
    (∀ w l, s0.me.wait = some w → w.src = some l → ∀ k, s0.read i h (.cat k) s =
      .ok (⟨l.cat.getD k.toNat ⟨1, .uint, .wrap, .rne, .none⟩, (l.names.getD k.toNat 0).toNat⟩, s)) ∧
    s0.read i h (.fixed .zero) s = .ok (⟨⟨64, .uint, .wrap, .rne, .none⟩, 0⟩, s) ∧
    s0.read i h (.fixed .tid) s = .ok (⟨⟨64, .uint, .wrap, .rne, .none⟩, s.cur.h.val - s.myKernel.sb⟩, s) ∧
    s0.read i h (.fixed .lit) s = .ok (⟨⟨64, .sint, .wrap, .rne, .none⟩, h.lit.toNat⟩, s) ∧
    (∀ v f x l, (f = .portEng ∨ (portDir (.fixed f)).isSome = true) → s.me.wait = some v → v.took = (.fixed f, x) :: l →
      s0.read i h (.fixed f) s = .ok (⟨⟨64, .uint, .wrap, .rne, .none⟩, x.toNat⟩, s.setMe { s.me with wait := some { v with took := l } })) ∧
    ((∀ v, s.me.wait = some v → v.took = []) →
      (s.myCore.portAhead s.cur.h s0.mySeq (.fixed .portEng) = false → ∀ w ws, s.myCore.portEng = w :: ws →
        s0.read i h (.fixed .portEng) s = .ok (⟨⟨64, .uint, .wrap, .rne, .none⟩, w.toNat⟩, s.setMyCore { s.myCore with portEng := ws })) ∧
      (s.myCore.portEng = [] ∨ s.myCore.portAhead s.cur.h s0.mySeq (.fixed .portEng) = true →
        s0.read i h (.fixed .portEng) s = .error (s0.hold i (.retry 1 (s0.wordsTaken s)) (some (reasonVal 1 61)))) ∧
      (∀ f d, portDir (.fixed f) = some d →
        (s.myCore.portAhead s.cur.h s0.mySeq (.fixed f) = false → ∀ w ws, s.inbound d = w :: ws →
          s0.read i h (.fixed f) s = .ok (⟨⟨64, .uint, .wrap, .rne, .none⟩, w.toNat⟩, s.setInbound d ws)) ∧
        (s.inbound d = [] ∨ s.myCore.portAhead s.cur.h s0.mySeq (.fixed f) = true →
          s0.read i h (.fixed f) s = .error (s0.hold i (.retry 1 (s0.wordsTaken s)) (some (reasonVal 1 (dirName d)))))))

/-- How an exact integer is written (R68, R69): inside the value set as it is; outside it wrapped, saturated or a WIDTH trap with the
state as it was; `zero`, `tid` and `lit` discard it. -/
def Sys2Proof.Claims.IntegerWrite : Prop :=
  ∀ (s0 s : State) (i : Instr) (x : Int),
    (∀ n e, s.ent (.cat n) = e →
      (inRange e.kind e.width x = true → s0.writeInt i (.cat n) x s = .ok (s.putName n (patOf e.width x))) ∧
      (inRange e.kind e.width x = false → e.mode = .wrap → s0.writeInt i (.cat n) x s = .ok (s.putName n (patOf e.width (wrapNat e.width x)))) ∧
      (inRange e.kind e.width x = false → e.mode = .sat → s0.writeInt i (.cat n) x s = .ok (s.putName n (patOf e.width (satInt e.kind e.width x)))) ∧
      (inRange e.kind e.width x = false → e.mode = .trap → s0.writeInt i (.cat n) x s = .error (s0.takeTrap s0.cur .width s0.me.pc (w64 x)))) ∧
    (∀ f, f = .zero ∨ f = .tid ∨ f = .lit → s0.writeInt i (.fixed f) x s = .ok s) ∧
    (∀ f d, portDir (.fixed f) = some d → s.neighbourIn d = true → (s.outbound d).length < 16 →
      s0.writeInt i (.fixed f) x s = .ok (s.pushOut d [w64 x])) ∧
    (∀ f d, portDir (.fixed f) = some d → s.neighbourIn d = false →
      s0.writeInt i (.fixed f) x s = .error (s0.takeTrap s0.cur .access s0.me.pc (n64 (dirName d))))

/-- What operands read as and how an exact integer is written (R65, R67 to R69). Where it rests on the model's own choices: log 10. -/
def Obligations.Operands : Prop := Claims.SourceRead ∧ Claims.IntegerWrite

/-- The first breach at issue is taken first (R96): a source at or above the name count raises ILL with TVAL the number, whatever the
kinds and the wait field are; with no breach, an unmet wait field keeps the thread out of the rotation. -/
def Sys2Proof.Claims.IssueChecks : Prop :=
  ∀ (s : State) (i : Instr) (h : Hdr) (srcs dsts : List NameRef) (pre : Option (Cause × Word64)),
    (∀ n rest, srcs = .cat n :: rest → s.myKernel.cat.length ≤ n.toNat →
      s.issue i h srcs dsts pre = .error (s.takeTrap s.cur .ill s.me.pc (n64 n.toNat))) ∧
    (Passes s i h srcs dsts → pre = none → s.issue i h srcs dsts pre = .ok s) ∧
    (nameBreach s.myKernel h i srcs dsts = none → pre = none → s.waitOk h.wait = false →
      ∃ t, s.issue i h srcs dsts pre = .error t ∧ t.me.st = .waiting ∧ t.me.pc = s.me.pc ∧ t.mem = s.mem)

/-- What completing an instruction does to its thread and to nothing else (R84, R87): the next address is beyond its words, the thread is
READY, and every name, control register and memory byte and every other thread stays. -/
def Sys2Proof.Claims.CompletionEffect : Prop :=
  ∀ (s : State) (h : Hdr),
    s.done h = s.setThread s.cur { s.me with pc := s.me.pc + 4 * h.form.words, lastPc := s.me.pc, wait := none, st := .ready } ∧
    (s.done h).me = { s.me with pc := s.me.pc + 4 * h.form.words, lastPc := s.me.pc, wait := none, st := .ready } ∧
    (∀ t, t ≠ s.cur → (s.done h).thread t = s.thread t) ∧
    (∀ a, memByte (s.done h).mem a = memByte s.mem a) ∧
    (s.done h).empties = s.empties ∧ (s.done h).poison = s.poison ∧ (s.done h).gangs = s.gangs ∧ (s.done h).cycle = s.cycle

/-- What an instruction is checked for as it issues, and what completing it does (R84, R86, R87, R96). Where it rests on the model's own choices: logs 77, 123, 124. -/
def Obligations.IssueAndCompletion : Prop := Claims.IssueChecks ∧ Claims.CompletionEffect

/-! ## Scalar instructions (06 R99 to R112) -/

/-- Every integer instruction of two sources reads `a`, then `b`, and writes its exact result once by R69. -/
def Sys2Proof.Claims.IntegerTwoSources : Prop :=
  ∀ (s : State) (i : Instr) (h : Hdr) (d a b : NameRef) (f : Src → Src → Int), intTwo i = some (h, d, a, b, f) →
    Passes s i h [a, b] [d] → s.intDst d = true →
    ∀ x s1 y s2 t, s.read i h a s = .ok (x, s1) → s.read i h b s1 = .ok (y, s2) → s.writeInt i d (f x y) s2 = .ok t →
      exec i s = .next (t.done h)

/-- Every integer instruction of one source reads `a` and writes its exact result once by R69. -/
def Sys2Proof.Claims.IntegerOneSource : Prop :=
  ∀ (s : State) (i : Instr) (h : Hdr) (d a : NameRef) (ok : Bool) (f : Nat → Src → Int), intOne i = some (h, d, a, ok, f) →
    Passes s i h [a] [d] → s.intDst d = true → ok = true →
    ∀ x s1 t, s.read i h a s = .ok (x, s1) → s.writeInt i d (f s.me.pc x) s1 = .ok t → exec i s = .next (t.done h)

/-- `alu.mov`, `alui.set`, `shf.ins`, `cmp.sel` and `wid.width` (R100, R105, R106, R108, R111, R112): the value moved, or the pattern
between names of one kind and width; the immediate; the field put into `d`'s own pattern; the choice by `c`; the width of `a`. -/
def Sys2Proof.Claims.IntegerOtherShapes : Prop :=
  ∀ (s : State) (h : Hdr) (d a b c : NameRef),
    (Passes s (.aluMov h d a) h [a] [d] → s.intDst d = true → ∀ x s1 t, s.read (.aluMov h d a) h a s = .ok (x, s1) →
      s.writeInt (.aluMov h d a) d x.val s1 = .ok t → exec (.aluMov h d a) s = .next (t.done h)) ∧
    (∀ n, d = .cat n → Passes s (.aluMov h d a) h [a] [d] → s.intDst d = false → s.ent a = s.ent d →
      ∀ x s1, s.read (.aluMov h d a) h a s = .ok (x, s1) →
      exec (.aluMov h d a) s = .next ((s1.putName n (BitVec.ofNat 528 (x.pat % 2 ^ (s1.ent d).width))).done h)) ∧
    (∀ m t, Passes s (.aluiSet h d m) h [] [d] → s.intDst d = true → s.writeInt (.aluiSet h d m) d m.toInt s = .ok t →
      exec (.aluiSet h d m) s = .next (t.done h)) ∧
    (∀ n p l, d = .cat n → Passes s (.shfIns h d a p l) h [a] [d] → s.intDst d = true → p.toNat + l.toNat ≤ (s.ent d).width →
      ∀ x s1 y s2 t, s.read (.shfIns h d a p l) h a s = .ok (x, s1) → s.read (.shfIns h d a p l) h d s1 = .ok (y, s2) →
      s.writeInt (.shfIns h d a p l) d
        (valueOf y.ent (y.pat - y.pat / 2 ^ p.toNat % 2 ^ l.toNat * 2 ^ p.toNat + (x.val % 2 ^ l.toNat).toNat * 2 ^ p.toNat)) s2 = .ok t →
      exec (.shfIns h d a p l) s = .next (t.done h)) ∧
    (Passes s (.cmpSel h d a b c) h [a, b, c] [d] → s.intDst d = true → ∀ x s1 y s2 z s3 t,
      s.read (.cmpSel h d a b c) h a s = .ok (x, s1) → s.read (.cmpSel h d a b c) h b s1 = .ok (y, s2) →
      s.read (.cmpSel h d a b c) h c s2 = .ok (z, s3) →
      s.writeInt (.cmpSel h d a b c) d (if z.val ≠ 0 then x.val else y.val) s3 = .ok t →
      exec (.cmpSel h d a b c) s = .next (t.done h)) ∧
    (∀ t, Passes s (.widWidth h d a) h [] [a, d] → s.intDst d = true → s.writeInt (.widWidth h d a) d (s.ent a).width s = .ok t →
      exec (.widWidth h d a) s = .next (t.done h))

/-- The integer instructions of one or two sources and their other shapes (R99 to R112). -/
def Obligations.IntegerResults : Prop := Claims.IntegerTwoSources ∧ Claims.IntegerOneSource ∧ Claims.IntegerOtherShapes

/-- A multiply (R102, R109): with the core's multiplier free and no older instruction waiting for it, the multiplier is held for k cycles; a latency
4 + k within the thread's next slot writes the exact result by R69 now, a longer one takes the thread out of the rotation, and its end (ThreadSteps)
brings the thread back to write. -/
def Sys2Proof.Claims.MultiplyResult : Prop :=
  ∀ (s : State) (i : Instr) (h : Hdr) (d a b : NameRef) (rd ok : Bool) (f : Int → Int → Int → Int),
    product i = some (h, d, a, b, rd, ok, f) → Passes s i h (if rd then [a, b, d] else [a, b]) [d] → s.intDst d = true → ok = true →
    ∀ x s1 y s2 z s3 k, s.read i h a s = .ok (x, s1) → s.read i h b s1 = .ok (y, s2) →
      (if rd then s.read i h d s2 else .ok (⟨⟨64, .uint, .wrap, .rne, .none⟩, 0⟩, s2)) = .ok (z, s3) →
      k = (x.ent.width + 63) / 64 * ((y.ent.width + 63) / 64) →
      (s.ranOut = true → ∀ t, s.writeInt i d (f x.val y.val z.val) s3 = .ok t → exec i s = .next (t.done h)) ∧
      (s.ranOut = false → s.myCore.mulFree ≤ s.cycle → s.myCore.waitsAhead s.cur.h s.mySeq 4 = false →
        (s.writesNow (4 + k) = true → ∀ t, (s.takeMul k).writeInt i d (f x.val y.val z.val) (s3.takeMul k) = .ok t → exec i s = .next (t.done h)) ∧
        (s.writesNow (4 + k) = false → exec i s = .next ((s.running i (4 + k)).takeMul k)))

/-- A divide (R102, R110): with a divisor other than 0, the divider free and no older instruction waiting for it, divider and thread are held for
6 + w(a)/2 cycles, and the result is written by R69 when they are over. -/
def Sys2Proof.Claims.DivideResult : Prop :=
  ∀ (s : State) (i : Instr) (h : Hdr) (d a b : NameRef) (f : Int → Int → Int), quotient i = some (h, d, a, b, f) →
    Passes s i h [a, b] [d] → s.intDst d = true →
    ∀ x s1 y s2 lat, s.read i h a s = .ok (x, s1) → s.read i h b s1 = .ok (y, s2) → y.val ≠ 0 → lat = 6 + (x.ent.width + 1) / 2 →
      (s.ranOut = true → ∀ t, s.writeInt i d (f x.val y.val) s2 = .ok t → exec i s = .next (t.done h)) ∧
      (s.ranOut = false → s.myCore.divFree ≤ s.cycle → s.myCore.waitsAhead s.cur.h s.mySeq 28 = false →
        (s.writesNow lat = true → ∀ t, (s.takeDiv lat).writeInt i d (f x.val y.val) (s2.takeDiv lat) = .ok t → exec i s = .next (t.done h)) ∧
        (s.writesNow lat = false → exec i s = .next ((s.running i lat).takeDiv lat)))

/-- A divisor of 0 raises DIVZ with TVAL the dividend, from the state as it was, whether the divider is free or not (R110). -/
def Sys2Proof.Claims.DivideByZero : Prop :=
  ∀ (s : State) (i : Instr) (h : Hdr) (d a b : NameRef) (f : Int → Int → Int), quotient i = some (h, d, a, b, f) →
    Passes s i h [a, b] [d] → s.intDst d = true →
    ∀ x s1 y s2, s.read i h a s = .ok (x, s1) → s.read i h b s1 = .ok (y, s2) → y.val = 0 →
      exec i s = .next (s.takeTrap s.cur .divz s.me.pc (w64 x.val))

/-- The multiplies and the divides, a divisor of 0 among them (R102, R109, R110). -/
def Obligations.MultiplyAndDivide : Prop := Claims.MultiplyResult ∧ Claims.DivideResult ∧ Claims.DivideByZero

/-! ## Control transfer and addresses (06 R113 to R125) -/

/-- Branches (R113, R115): taken to an admitted target, or past the instruction without looking at the target. -/
def Sys2Proof.Claims.Branches : Prop :=
  ∀ (s : State) (i : Instr) (h : Hdr) (a : NameRef) (off : BitVec 32) (c : Int → Prop), branch i = some (h, a, off, c) →
    Passes s i h [a] [] → ∀ x s1, s.read i h a s = .ok (x, s1) →
      (c x.val → Target (target s off) → exec i s = .next (s1.goTo (target s off).toNat)) ∧
      (¬ c x.val → exec i s = .next (s1.done h))

/-- Unconditional transfers (R113, R115, R116): `br.al`, `jmp.rel` and `jmp.ind`. -/
def Sys2Proof.Claims.Jumps : Prop :=
  ∀ (s : State) (h : Hdr) (a : NameRef) (off : BitVec 32),
    (Passes s (.brAl h off) h [] [] → Target (target s off) → exec (.brAl h off) s = .next (s.goTo (target s off).toNat)) ∧
    (Passes s (.jmpRel h off) h [] [] → Target (target s off) → exec (.jmpRel h off) s = .next (s.goTo (target s off).toNat)) ∧
    (Passes s (.jmpInd h a off) h [a] [] → ∀ x s1, s.read (.jmpInd h a off) h a s = .ok (x, s1) → Target (x.val + 4 * off.toInt) →
      exec (.jmpInd h a off) s = .next (s1.goTo (x.val + 4 * off.toInt).toNat))

/-- A target that R113 refuses raises ALIGN before ACCESS, with TVAL the target, from the state as it was before the branch, jump, call or
return. -/
def Sys2Proof.Claims.BadTargets : Prop :=
  ∀ (s : State) (h : Hdr) (a : NameRef) (off : BitVec 32) (v : Int) (c : Cause), Refused v c →
    (v = target s off →
      (Passes s (.brAl h off) h [] [] → exec (.brAl h off) s = .next (s.takeTrap s.cur c s.me.pc (w64 v))) ∧
      (Passes s (.jmpRel h off) h [] [] → exec (.jmpRel h off) s = .next (s.takeTrap s.cur c s.me.pc (w64 v))) ∧
      (Passes s (.callRel h off) h [] [] → exec (.callRel h off) s = .next (s.takeTrap s.cur c s.me.pc (w64 v))) ∧
      ∀ i q, branch i = some (h, a, off, q) → Passes s i h [a] [] → ∀ x s1, s.read i h a s = .ok (x, s1) → q x.val →
        exec i s = .next (s.takeTrap s.cur c s.me.pc (w64 v))) ∧
    (∀ x s1, v = x.val + 4 * off.toInt →
      (Passes s (.jmpInd h a off) h [a] [] → s.read (.jmpInd h a off) h a s = .ok (x, s1) →
        exec (.jmpInd h a off) s = .next (s.takeTrap s.cur c s.me.pc (w64 v))) ∧
      (Passes s (.callInd h a off) h [a] [] → s.read (.callInd h a off) h a s = .ok (x, s1) →
        exec (.callInd h a off) s = .next (s.takeTrap s.cur c s.me.pc (w64 v)))) ∧
    (∀ (r : Nat) l, Passes s (.callRet h) h [] [] → s.me.rstack = r :: l → v = r → exec (.callRet h) s = .next (s.takeTrap s.cur c s.me.pc (w64 v)))

/-- Branches and jumps, and a target that is refused (R113, R115, R116). -/
def Obligations.Transfers : Prop := Claims.Branches ∧ Claims.Jumps ∧ Claims.BadTargets

namespace Sys2Proof.Claims

/-- A call that has passed R113, to `v`, on the state in which its operand is read (R120): fewer than eight entries, no spilling left, a spill
address beyond local memory, and the oldest entry spilled. -/
def CallFrom (s : State) (i : Instr) (h : Hdr) (v : Int) (z : State) : Prop :=
  let x := z.me
  let e := x.pc + 4 * h.form.words
  let k := 8 * (x.rsBase.toNat + x.rsCnt.toNat)
  (x.rstack.length < 8 → exec i s = .next ((z.setMe { x with rstack := e :: x.rstack }).goTo v.toNat)) ∧
  (8 ≤ x.rstack.length → x.rsLim.toNat ≤ x.rsCnt.toNat → exec i s = .next (s.takeTrap s.cur .rstack s.me.pc 1)) ∧
  (8 ≤ x.rstack.length → x.rsCnt.toNat < x.rsLim.toNat → 0x7_FFF8 < k → exec i s = .next (s.takeTrap s.cur .access s.me.pc (n64 k))) ∧
  (8 ≤ x.rstack.length → x.rsCnt.toNat < x.rsLim.toNat → k ≤ 0x7_FFF8 → z.boardAny z.cur.tile k 8 = false →
    exec i s = .next (((z.putLocalWord z.cur.tile k (x.rstack.getLastD 0)).setMe { x with rstack := e :: x.rstack.dropLast, rsCnt := x.rsCnt + 1 }).goTo v.toNat))

end Sys2Proof.Claims

/-- Calls and returns (R118, R120): a call pushes the address after it while fewer than eight entries stand there; beyond eight the oldest entry
goes to the spill area, RSTACK with TVAL 1 where no more may, ACCESS where the area leaves local memory. A return pops the newest entry; an
empty stack is refilled by one word of the spill area, which is checked by R113 and for errors; with nothing spilled it raises RSTACK. -/
def Obligations.CallsAndReturns : Prop :=
  ∀ (s : State) (h : Hdr) (a : NameRef) (off : BitVec 32),
    (Passes s (.callRel h off) h [] [] → Target (target s off) → CallFrom s (.callRel h off) h (target s off) s) ∧
    (Passes s (.callInd h a off) h [a] [] → ∀ x s1, s.read (.callInd h a off) h a s = .ok (x, s1) → Target (x.val + 4 * off.toInt) →
      CallFrom s (.callInd h a off) h (x.val + 4 * off.toInt) s1) ∧
    (Passes s (.callRet h) h [] [] →
      (∀ r l, s.me.rstack = r :: l → Target r → exec (.callRet h) s = .next ((s.setMe { s.me with rstack := l }).goTo r)) ∧
      (s.me.rstack = [] → s.me.rsCnt.toNat = 0 → exec (.callRet h) s = .next (s.takeTrap s.cur .rstack s.me.pc 0)) ∧
      (s.me.rstack = [] → 0 < s.me.rsCnt.toNat → ∀ k, k = 8 * (s.me.rsBase.toNat + (s.me.rsCnt.toNat - 1)) →
        (0x7_FFF8 < k → exec (.callRet h) s = .next (s.takeTrap s.cur .access s.me.pc (n64 k))) ∧
        (k ≤ 0x7_FFF8 → s.boardW s.cur.tile k 8 = false → s.poisoned (localKey s.cur.tile k) 8 = true →
          exec (.callRet h) s = .next ((s.found s.cur 0 s.myKernel.ctx (localKey s.cur.tile k) 8).takeTrap s.cur .poison s.me.pc (n64 k))) ∧
        (k ≤ 0x7_FFF8 → s.boardW s.cur.tile k 8 = false → s.poisoned (localKey s.cur.tile k) 8 = false →
          (Target (s.localWord s.cur.tile k) → exec (.callRet h) s =
            .next (((s.setMe { s.me with rsCnt := s.me.rsCnt - 1 }).found s.cur 0 s.myKernel.ctx (localKey s.cur.tile k) 8).goTo (s.localWord s.cur.tile k))) ∧
          ∀ c, Refused (s.localWord s.cur.tile k) c → exec (.callRet h) s = .next (s.takeTrap s.cur c s.me.pc (w64 (s.localWord s.cur.tile k))))))

/-- `addr.glob` and `addr.gen` (R124, R125): a private address within the thread's size becomes its global alias, the alias becomes the
private address again, and every other address passes through; a private address at or beyond the size, and a value that is no address,
raise ACCESS with TVAL the value. -/
def Obligations.PrivateAliases : Prop :=
  ∀ (s : State) (h : Hdr) (d a : NameRef) (x : Src) (s1 : State),
    let g : Int := (s.me.privG.toNat * 2 ^ 16 : Nat)
    let z : Int := (s.me.privSz.toNat * 2 ^ 16 : Nat)
    let pw : Int := 0xFF_FFFF_0000_0000
    let denied : State := s.takeTrap s.cur .access s.me.pc (w64 x.val)
    (Passes s (.addrGlob h d a) h [a] [d] → s.intDst d = true → s.read (.addrGlob h d a) h a s = .ok (x, s1) →
      ((x.val < 0 ∨ 2 ^ 56 ≤ x.val ∨ pw + z ≤ x.val ∧ pw ≤ x.val) → exec (.addrGlob h d a) s = .next denied) ∧
      (pw ≤ x.val → x.val < 2 ^ 56 → x.val < pw + z →
        ∀ t, s.writeInt (.addrGlob h d a) d (g + (x.val - pw)) s1 = .ok t → exec (.addrGlob h d a) s = .next (t.done h)) ∧
      (0 ≤ x.val → x.val < pw → ∀ t, s.writeInt (.addrGlob h d a) d x.val s1 = .ok t → exec (.addrGlob h d a) s = .next (t.done h))) ∧
    (Passes s (.addrGen h d a) h [a] [d] → s.intDst d = true → s.read (.addrGen h d a) h a s = .ok (x, s1) →
      (x.val < 0 ∨ 2 ^ 56 ≤ x.val → exec (.addrGen h d a) s = .next denied) ∧
      (0 ≤ x.val → x.val < 2 ^ 56 → g ≤ x.val → x.val < g + z →
        ∀ t, s.writeInt (.addrGen h d a) d (pw + (x.val - g)) s1 = .ok t → exec (.addrGen h d a) s = .next (t.done h)) ∧
      (0 ≤ x.val → x.val < 2 ^ 56 → x.val < g ∨ g + z ≤ x.val →
        ∀ t, s.writeInt (.addrGen h d a) d x.val s1 = .ok t → exec (.addrGen h d a) s = .next (t.done h)))

/-! ## Traps, system instructions and control registers (14 R284 to R290) -/

/-- A core as a trap of a thread finds it: the words that the thread's waiting instruction has taken are back in their ports (R99). -/
def Sys2Proof.Claims.portsBack (s : State) (t : ThreadRef) (r : CoreRef) : Core :=
  match (s.thread t).wait with
  | some w => if r = t.coreRef then (s.core r).returnWords w.took else s.core r
  | none => s.core r

/-- Taking a trap (R289), but for a POISON of a containable node (R372): TCAUSE, TEPC and TVAL are written, the thread is READY and waits for nothing, its
next fetch is from TVEC. No other state changes: no other field of the thread, its privilege, names and return stack among them, no other thread,
no field of a core but its threads, its event counters and the ports that get back words of the trapping instruction, none of a tile but its cores,
no gang; and with no error waiting to be found by the fetch, no memory. -/
def Obligations.TrapEntry : Prop :=
  ∀ (s : State) (t : ThreadRef) (c : Cause) (epc : Nat) (v : Word64), (c = .poison → s.containable t = false) → epc < 2 ^ 19 →
    let x := s.thread t
    let z := s.takeTrap t c epc v
    (∃ f, z.thread t = { x with tcause := c.code, tepc := BitVec.ofNat 19 epc, tval := v, wait := none, st := .ready, pc := x.tvec.toNat, fbuf := f }) ∧
    (∀ u, u ≠ t → z.thread u = s.thread u) ∧ (∀ r, ∃ ts e, z.core r = { Claims.portsBack s t r with threads := ts, cevt := e }) ∧
    (∀ k, ∃ cs, z.tile k = { s.tile k with cores := cs }) ∧ z.gangs = s.gangs ∧ z.contexts = s.contexts ∧
    (s.latent = [] → z.mem = s.mem ∧ z.empties = s.empties ∧ z.poison = s.poison)

/-- `sys.tret` returns to TEPC, checked by R113; it writes no trap register (R284). -/
def Sys2Proof.Claims.TrapReturn : Prop :=
  ∀ (s : State) (h : Hdr), Passes s (.sysTret h) h [] [] →
    (Target (s.me.tepc.toNat : Int) → exec (.sysTret h) s = .next (s.goTo s.me.tepc.toNat)) ∧
    (s.me.tepc.toNat % 4 ≠ 0 → exec (.sysTret h) s = .next (s.takeTrap s.cur .align s.me.pc (n64 s.me.tepc.toNat)))

/-- `sys.nop` completes, `sys.ifence` refetches from the next instruction, `sys.svc` raises SVC with TVAL n (R123, R284). -/
def Sys2Proof.Claims.SystemPlain : Prop :=
  ∀ (s : State) (h : Hdr) (n : BitVec 18),
    (Passes s (.sysNop h) h [] [] → exec (.sysNop h) s = .next (s.done h)) ∧
    (Passes s (.sysIfence h) h [] [] → exec (.sysIfence h) s = .next (s.goTo (s.me.pc + 4 * h.form.words))) ∧
    (Passes s (.sysSvc h n) h [] [] → exec (.sysSvc h n) s = .next (s.takeTrap s.cur .svc s.me.pc (n.setWidth 64)))

/-- `sys.halt` leaves its thread HALTED with its status contribution given (R232, R284). -/
def Sys2Proof.Claims.Halts : Prop :=
  ∀ (s : State) (h : Hdr), Passes s (.sysHalt h) h [] [] →
    ∃ t, exec (.sysHalt h) s = .next t ∧ t.me.st = .halted ∧ t.me.contrib = s.contribution s.cur ∧
      t.me.names = s.me.names ∧ t.me.gmV = false ∧ (s.me.gmV = false → t.mem = s.mem)

/-- Returning from a trap, the plain system instructions, and halting (R284, R285, R289). -/
def Obligations.SystemInstructions : Prop := Claims.TrapReturn ∧ Claims.SystemPlain ∧ Claims.Halts

/-- `sys.getc`, `sys.rdevt` and `sys.cycle` write what the register, the event counter or the die cycle count holds (R284, R285). -/
def Sys2Proof.Claims.SystemReads : Prop :=
  ∀ (s : State) (h : Hdr) (k : BitVec 12) (d : NameRef) (t : State), s.oneDst d = true →
    (∀ v, s.reg s.cur k.toNat = some v → Passes s (.sysGetc h k d) h [] [d] → s.writeOne (.sysGetc h k d) d v.toNat s = .ok t →
      exec (.sysGetc h k d) s = .next (t.done h)) ∧
    (∀ hk : k.toNat < 64, Passes s (.sysRdevt h k d) h [] [d] → s.writeOne (.sysRdevt h k d) d s.myCore.cevt[k.toNat].toNat s = .ok t →
      exec (.sysRdevt h k d) s = .next (t.done h)) ∧
    (s.cycle < 2 ^ 64 → Passes s (.sysCycle h d) h [] [d] → s.writeOne (.sysCycle h d) d s.cycle s = .ok t →
      exec (.sysCycle h d) s = .next (t.done h))

/-- What control registers read as (R285, R286): the trap, scratch, random-stream and wait registers, the quantisation threshold and flags, two registers of
the arithmetic core that read 0 on another core, and the numbers that are no register. -/
def Sys2Proof.Claims.ControlRegisters : Prop :=
  ∀ (s : State) (t : ThreadRef),
    s.reg t 0x001 = some ((s.thread t).tcause.setWidth 64) ∧ s.reg t 0x002 = some ((s.thread t).tepc.setWidth 64) ∧
    s.reg t 0x003 = some (s.thread t).tval ∧ s.reg t 0x004 = some ((s.thread t).tvec.setWidth 64) ∧
    s.reg t 0x005 = some (s.thread t).tscratch ∧ s.reg t 0x00C = some (s.thread t).rkey ∧
    s.reg t 0x00D = some ((s.thread t).rpos.setWidth 64) ∧ s.reg t 0x00E = some ((s.thread t).ridx.setWidth 64) ∧
    s.reg t 0x00F = some (s.thread t).rlast ∧ s.reg t 0x012 = some ((s.thread t).waitlim.setWidth 64) ∧
    s.reg t 0x101 = some (s.core t.coreRef).cqthresh ∧ s.reg t 0x102 = some (s.core t.coreRef).cqstat ∧
    (t.core ≠ 2 → s.reg t 0x104 = some 0 ∧ s.reg t 0x105 = some 0) ∧
    (∀ k, 0x015 ≤ k → k < 0x100 → s.reg t k = none) ∧ (∀ k, 0x108 ≤ k → k < 0x200 → s.reg t k = none) ∧ (∀ k, 0x201 ≤ k → s.reg t k = none)

/-- What control registers read as (R284 to R286). -/
def Obligations.ControlReads : Prop := Claims.SystemReads ∧ Claims.ControlRegisters

/-- `sys.setc` (R284, R285, R287): a register that does not exist raises ILL, one that the thread may not write raises PRIV with TVAL its
number, and otherwise exactly the register's writable bits take the value, none of CMXST off the arithmetic core; `sys.clrevt` clears a counter for a privileged thread or
with CCFG.evu set, and raises PRIV otherwise. -/
def Sys2Proof.Claims.SystemWrites : Prop :=
  ∀ (s : State) (h : Hdr) (k : BitVec 12) (d : NameRef),
    (∀ x s1, Passes s (.sysSetc h k d) h [d] [] → (s.reg s.cur k.toNat).isSome = true → s.settable k.toNat = true →
      (s.ent d).kind.isInt = true → s.read (.sysSetc h k d) h d s = .ok (x, s1) → x.ent.kind.isInt = true →
      exec (.sysSetc h k d) s = .next ((s1.setReg k.toNat (w64 x.val)).done h)) ∧
    (Passes s (.sysSetc h k d) h [d] [] → s.reg s.cur k.toNat = none →
      exec (.sysSetc h k d) s = .next (s.takeTrap s.cur .ill s.me.pc (instrVal (.sysSetc h k d)))) ∧
    (Passes s (.sysSetc h k d) h [d] [] → (s.reg s.cur k.toNat).isSome = true → s.settable k.toNat = false →
      exec (.sysSetc h k d) s = .next (s.takeTrap s.cur .priv s.me.pc (k.setWidth 64))) ∧
    (∀ hk : k.toNat < 64, Passes s (.sysClrevt h k) h [] [] → s.me.priv = true ∨ s.myCore.evu = true →
      exec (.sysClrevt h k) s = .next ((s.setMyCore { s.myCore with cevt := s.myCore.cevt.set k.toNat 0 }).done h)) ∧
    (k.toNat < 64 → Passes s (.sysClrevt h k) h [] [] → s.me.priv = false → s.myCore.evu = false →
      exec (.sysClrevt h k) s = .next (s.takeTrap s.cur .priv s.me.pc (k.setWidth 64)))

/-- The bits a write of a control register takes (R286, R287): TVEC keeps bits 1 and 0 clear, TRSBASE drops bits 2 to 0, CQSTAT is cleared by
ones, and CCFG is written by a privileged thread only; nothing but the register changes. -/
def Sys2Proof.Claims.RegisterWriteBits : Prop :=
  ∀ (s : State) (v : Word64),
    s.setReg 0x004 v = s.setMe { s.me with tvec := v.setWidth 19 &&& 0x7FFFC } ∧
    s.setReg 0x005 v = s.setMe { s.me with tscratch := v } ∧
    s.setReg 0x006 v = s.setMe { s.me with rsBase := (v >>> 3).setWidth 16 } ∧
    s.setReg 0x102 v = s.setMyCore { s.myCore with cqstat := s.myCore.cqstat &&& ~~~v } ∧
    (s.me.priv = true → s.setReg 0x100 v = s.setMyCore { s.myCore with evu := v.getLsbD 1, smp := v.getLsbD 0 }) ∧
    (s.me.priv = false → regWritable s.me.priv 0x100 = false ∧ s.setReg 0x100 v = s) ∧
    (∀ k, regWritable s.me.priv k = false → k ≠ 0x100 → s.setReg k v = s)

/-- What writing control registers does (R284, R286, R287). -/
def Obligations.ControlWrites : Prop := Claims.SystemWrites ∧ Claims.RegisterWriteBits

/-- An unassigned encoding (R97, R98): with no emulation routine in the table at 0x1000, as it stood when the cycle began, it raises ILL with TVAL
the word; an entry that R113 refuses raises ALIGN or ACCESS with TVAL the entry; any other is entered with cause FEATURE. The read of the table finds
the errors under it, and an uncorrectable one raises POISON. Where it rests on the model's own choices: log 27. -/
def Obligations.UnassignedEncodings : Prop :=
  ∀ (s z : State) (w0 : BitVec 32) (a e : Nat) (p : Bool), a = 0x1000 + 8 * featureBit w0 → s.wordBefore s.cur.tile a = (e, p) →
    z = s.found s.cur 0 s.myKernel.ctx (localKey s.cur.tile a) 8 →
    (p = true → exec (.unassignedEncoding w0) s = .next (z.takeTrap s.cur .poison s.me.pc (n64 a))) ∧
    (p = false → e = 0 → exec (.unassignedEncoding w0) s = .next (z.takeTrap s.cur .ill s.me.pc (w0.setWidth 64))) ∧
    (p = false → e ≠ 0 → ∀ c, Refused (e : Int) c → exec (.unassignedEncoding w0) s = .next (z.takeTrap s.cur c s.me.pc (n64 e))) ∧
    (p = false → e ≠ 0 → Target (e : Int) →
      exec (.unassignedEncoding w0) s = .next ((z.setThread s.cur (z.me.trapped 0x11 s.me.pc (w0.setWidth 64))).redirect s.cur e))

/-- `wid.resize` (R76 to R80): the width a name already has completes at once; a width with no room raises RESIZEROOM with TVAL the rows needed;
otherwise the thread goes on behind it and its kernel is frozen until the repack unit is done, which begins once what the kernel has issued is complete;
in mode `trap` it is abandoned at the lowest thread whose value does not fit. Where it rests on the model's own choices: log 74. -/
def Obligations.Resizes : Prop :=
  ∀ (s : State) (h : Hdr) (n : BitVec 9) (m : ResizeMode) (w : BitVec 10),
    Passes s (.widResize h (.cat n) m w) h [] [.cat n] → 1 ≤ w.toNat → w.toNat ≤ 528 → (s.ent (.cat n)).kind.isInt = true →
    s.myCore.unitBusy s.cur.h s.mySeq = false →
    (w.toNat = (s.ent (.cat n)).width → exec (.widResize h (.cat n) m w) s = .next (s.done h)) ∧
    (∀ q, w.toNat ≠ (s.ent (.cat n)).width → q = rowsNeeded (s.myKernel.setWidth n.toNat w.toNat).widths s.myKernel.n →
      s.myKernel.rows + s.myKernel.reserve < q →
      exec (.widResize h (.cat n) m w) s = .next (s.takeTrap s.cur .resizeroom s.me.pc (n64 q))) ∧
    (w.toNat ≠ (s.ent (.cat n)).width →
      rowsNeeded (s.myKernel.setWidth n.toNat w.toNat).widths s.myKernel.n ≤ s.myKernel.rows + s.myKernel.reserve →
      (m ≠ .trap ∨ (s.ent (.cat n)).width ≤ w.toNat ∨ (s.done h).myCore.settling s.myKernel = true ∨ (∀ t, t < s.myKernel.n →
          inRange (s.ent (.cat n)).kind w.toNat (valueOf (s.ent (.cat n)) (s.myCore.copyOf s.myKernel n.toNat t)) = true) →
        ∃ done, s.cycle + 8 ≤ done ∧
          exec (.widResize h (.cat n) m w) s = .next ((s.done h).setMyCore ((s.done h).myCore.freeze s.myKernel (.resize n.toNat w.toNat m)
            (!(s.done h).myCore.settling s.myKernel) s.cur.h s.me.pc done))) ∧
      (∀ t, m = .trap → w.toNat < (s.ent (.cat n)).width → (s.done h).myCore.settling s.myKernel = false → t < s.myKernel.n →
        inRange (s.ent (.cat n)).kind w.toNat (valueOf (s.ent (.cat n)) (s.myCore.copyOf s.myKernel n.toNat t)) = false →
        (∀ j, j < t → inRange (s.ent (.cat n)).kind w.toNat (valueOf (s.ent (.cat n)) (s.myCore.copyOf s.myKernel n.toNat j)) = true) →
        exec (.widResize h (.cat n) m w) s = .next ((s.done h).setMyCore ((s.done h).myCore.freeze s.myKernel (.abandon t) true
          s.cur.h s.me.pc (s.cycle + 8)))))

/-! ## Steps of a slot and of a wait -/

/-- What brings a thread out of the rotation and back (R87, R102, R114, R215, R290): the end of memory, a pending trap, the end of a long operation,
which has had its effect or is then to write its result, and the limit of a bounded wait. -/
def Sys2Proof.Claims.SlotSteps : Prop :=
  ∀ (s : State) (t : ThreadRef),
    ((s.thread t).st = .ready → (s.thread t).pc = 0x8_0000 →
      exec (.fetchEndAccess t) s = .next (s.takeTrap t .access (s.thread t).lastPc 0x8_0000)) ∧
    (∀ c v, (s.thread t).pend = some (c, v) → (s.thread t).st = .ready → (s.thread t).vg ≠ .attached →
      exec (.asyncTrapEntry t) s = .next ((s.setThread t { s.thread t with pend := none }).takeCode t c (s.thread t).pc v)) ∧
    (∀ w c, (s.thread t).wait = some w → w.why = .until c → c ≤ s.cycle → (s.thread t).st = .waiting →
      exec (.longOpComplete t) s = .next (s.setThread t { s.thread t with wait := none, st := .ready })) ∧
    (∀ w c, (s.thread t).wait = some w → w.why = .run c → c ≤ s.cycle → (s.thread t).st = .waiting →
      exec (.longOpComplete t) s = .next (s.setThread t { s.thread t with wait := some { w with why := .retry 30 0, ran := true } })) ∧
    (∀ w v, (s.thread t).wait = some w → w.tval = some v → w.lim ≠ 0 → w.since + w.lim ≤ s.cycle + 1 →
      w.why.same (.retry tagResv 0) = false → exec (.waitlimExpire t) s = .next ((s.endWait t).takeTrap t .waitlim w.pc v))

/-- A mesh word arrives in order (R160): the oldest word of the neighbour's outbound queue, once it has left it and its four cycles are over and the
buffer has room, becomes the newest of the port buffer. -/
def Sys2Proof.Claims.MeshWords : Prop :=
  ∀ (s : State) (k : CoreRef) (d : Dir) (n c : Nat) (w : Word64) (l : List (Nat × Word64)), tileNext k.tile d = some n →
    (s.core ⟨n, k.core⟩).portOut[dirIx (dirBack d)] = (c, w) :: l → c ≠ 0 → c ≤ s.cycle → (s.core k).portIn[dirIx d].length < 16 →
    ∃ t, exec (.meshWordArrive k d) s = .next t ∧ (t.core k).portIn[dirIx d] = (s.core k).portIn[dirIx d] ++ [w] ∧
      (t.core ⟨n, k.core⟩).portOut[dirIx (dirBack d)] = l ∧ t.mem = s.mem

/-- The steps of a thread's slot and of the mesh ports (R160, R215, R290). Where it rests on the model's own choices: logs 1, 77. -/
def Obligations.ThreadSteps : Prop := Claims.SlotSteps ∧ Claims.MeshWords

/-! ## Loads and stores (14 R263 to R266, 13 R249 to R251) -/
namespace Sys2Proof.Claims

/-- A plain load: header, `d`, `a`, offset, bytes (R265). -/
def load : Instr → Option (Hdr × NameRef × NameRef × BitVec 32 × Nat)
  | .ldB h d a o => some (h, d, a, o, 1)
  | .ldH h d a o => some (h, d, a, o, 2)
  | .ldW h d a o => some (h, d, a, o, 4)
  | .ldD h d a o => some (h, d, a, o, 8)
  | .ldV h d a o => some (h, d, a, o, 64)
  | _ => none

/-- A plain store: header, `d`, `a`, offset, bytes (R265). -/
def store : Instr → Option (Hdr × NameRef × NameRef × BitVec 32 × Nat)
  | .stB h d a o => some (h, d, a, o, 1)
  | .stH h d a o => some (h, d, a, o, 2)
  | .stW h d a o => some (h, d, a, o, 4)
  | .stD h d a o => some (h, d, a, o, 8)
  | .stV h d a o => some (h, d, a, o, 64)
  | _ => none

/-- `d` fits an access of N bytes (R264). -/
def Fits (s : State) (d : NameRef) (n : Nat) : Prop := if n = 64 then isCat d = true else s.plainKind d n = true

/-- `n` bytes of local memory from an aligned address (R157, R265). -/
def Local (ea : Int) (n l : Nat) : Prop := ea = (l : Int) ∧ l % n = 0 ∧ l + n ≤ 0x8_0000

/-- A reply value written to `d` now (R158, R265). -/
def lands (s : State) (i : Instr) (d : NameRef) (v : ReplyVal) (s1 : State) : M State :=
  match v with
  | .int x => s.writeOne i d x s1
  | .old x => s.writeKeep i d x s1
  | .pat p => s.putPat i d p.toNat s1

/-- What an atomic makes of the old bits `m` at `w` bits (R268): from `b`, `c` (for `cas`); nothing where `cas` finds another value. -/
def atomic : Instr → Option (Hdr × NameRef × NameRef × NameRef × Option NameRef × AmoSize × Scope × (Nat → Nat → Src → Option Src → Option Nat))
  | .amoSwap h d a b sz sc => some (h, d, a, b, none, sz, sc, fun w _ y _ => some (wrapNat w y.val))
  | .amoCas h d a b c sz sc => some (h, d, a, b, some c, sz, sc, fun w m y z =>
      if m = wrapNat w ((z.map Src.val).getD 0) then some (wrapNat w y.val) else none)
  | .amoAdd h d a b sz sc => some (h, d, a, b, none, sz, sc, fun w m y _ => some (wrapNat w ((if y.ent.kind = .sint then signedOf w m else m) + y.val)))
  | .amoAnd h d a b sz sc => some (h, d, a, b, none, sz, sc, fun w m y _ => some (m &&& wrapNat w y.val))
  | .amoOr h d a b sz sc => some (h, d, a, b, none, sz, sc, fun w m y _ => some (m ||| wrapNat w y.val))
  | .amoXor h d a b sz sc => some (h, d, a, b, none, sz, sc, fun w m y _ => some (m ^^^ wrapNat w y.val))
  | .amoMin h d a b sz sc => some (h, d, a, b, none, sz, sc, fun w m y _ => some (wrapNat w (min (if y.ent.kind = .sint then signedOf w m else m) y.val)))
  | .amoMax h d a b sz sc => some (h, d, a, b, none, sz, sc, fun w m y _ => some (wrapNat w (max (if y.ent.kind = .sint then signedOf w m else m) y.val)))
  | .amoFadd h d a b sz sc => some (h, d, a, b, none, sz, sc, fun w m y _ => amoAdd (amoFF sz) w m y)
  | _ => none

/-- The sizes R267 allows. -/
def sizeOk (i : Instr) (sz : AmoSize) : Prop := match i with | .amoFadd .. => sz ≠ .d | _ => sz ≠ .h

/-- Whether an atomic is `fadd`. -/
def isFadd : Instr → Bool | .amoFadd .. => true | _ => false

/-- A full/empty operation: header, `d`, `a`, offset, scope, function (R269). -/
def fullEmpty : Instr → Option (Hdr × NameRef × NameRef × BitVec 32 × Scope × FeFn)
  | .feLdf h d a o sc => some (h, d, a, o, sc, .ldf)
  | .feLdk h d a o sc => some (h, d, a, o, sc, .ldk)
  | .feStf h d a o sc => some (h, d, a, o, sc, .stf)
  | .feSto h d a o sc => some (h, d, a, o, sc, .sto)
  | .feClr h a o sc => some (h, .fixed .zero, a, o, sc, .clr)
  | .feTst h d a o sc => some (h, d, a, o, sc, .tst)
  | _ => none

/-- What a full/empty operation on the word of key `k` leaves (R269): `s0` the state before it, `s` the state with the operands read, `w` the word it
finds, `z` the state with the word stored. A thread that waits for its reply keeps what a wait ended without effect takes back (R295). -/
def feDone (i : Instr) (h : Hdr) (d : NameRef) (k w : Nat) (s0 s z : State) : FeFn → State
  | .ldf => s0.await h i d (.int w) s
  | .ldk => (s0.await h i d (.int w) (s.setFull k false)).undoing [s.changed k 8 (s.setFull k false)]
  | .stf => (z.setFull k true).done h
  | .sto => (z.setFull k true).done h
  | .clr => (s.setFull k false).done h
  | .tst => s0.await h i d (.int (if s.full k then 1 else 0)) s

/-- The bit that a waiting function waits for (R213, R269). -/
def wants : FeFn → Option Bool
  | .ldf => some true
  | .ldk => some true
  | .stf => some false
  | _ => none

end Sys2Proof.Claims

/-- Loads from local memory (R158, R265): the bytes at the effective address, zero- or sign-extended by the kind of `d`, are in `d` before the
thread issues again. -/
def Sys2Proof.Claims.LocalLoads : Prop :=
  ∀ (s : State) (i : Instr) (h : Hdr) (d a : NameRef) (o : BitVec 32) (n : Nat), load i = some (h, d, a, o, n) →
    Passes s i h [a] [d] → Fits s d n →
    ∀ x s1 l t, s.read i h a s = .ok (x, s1) → Local (x.val + o.toInt) n l → s.portCheck d s1 = .ok () →
      s1.boardW s1.cur.tile l n = false → s1.poisoned (localKey s1.cur.tile l) n = false →
      lands s i d (s1.loadVal d n (natOfBytes (s1.bytesAt (localKey s1.cur.tile l) n)))
        (s1.found s1.cur 0 s1.myKernel.ctx (localKey s1.cur.tile l) n) = .ok t →
      exec i s = .next (t.done h)

/-- Loads from beyond local memory (R70, R250, R251): the bytes found, store buffer first, are on their way as a reply, and the thread is out of
the rotation until it lands. -/
def Sys2Proof.Claims.GlobalLoads : Prop :=
  ∀ (s : State) (i : Instr) (h : Hdr) (d a : NameRef) (o : BitVec 32) (n : Nat), load i = some (h, d, a, o, n) →
    Passes s i h [a] [d] → Fits s d n →
    ∀ x s1 g bs s2, s.read i h a s = .ok (x, s1) → (x.val + o.toInt) % n = 0 → s.window s.me (x.val + o.toInt) = .glob g →
      s1.window s1.me (x.val + o.toInt) = .glob g → s.portCheck d s1 = .ok () →
      s.loadPieces i (x.val + o.toInt) [(g, n)] s1 = .ok (bs, s2) →
      exec i s = .next ((s.await h i d (s2.loadVal d n (natOfBytes bs)) s2).viaPeer g)

/-- The source of each byte of a load (R251, R265): the youngest entry of the core's store buffer that covers it, else a reflection of its line with
the poison it holds, else the home copy with its own, here under key 0. -/
def Sys2Proof.Claims.LoadByteSource : Prop :=
  ∀ (s : State) (r : CoreRef) (ctx : Nat) (e : TEntry) (a : Nat),
    (∀ b, (∀ y ∈ (s.core r).sbuf, y.form = .plain) → ((s.core r).sbuf.filter fun y => y.covers ctx a 1).getLast? = some b →
      s.loadByte r ctx e a = (b.bytes.getD (a - b.addr) 0, false, false)) ∧
    (∀ b, s.bufferByte r ctx (some a) (e.pa a) = some b → s.loadByte r ctx e a = (b, false, false)) ∧
    (∀ f, s.bufferByte r ctx (some a) (e.pa a) = none → s.reflection? (r.tile / 2048) ctx e a = some f →
      s.loadByte r ctx e a = (f.bytes.getD (a % 64) 0, false, f.bad.contains (a % 64 / 8))) ∧
    (s.bufferByte r ctx (some a) (e.pa a) = none → s.reflection? (r.tile / 2048) ctx e a = none → e.key = 0 →
      s.loadByte r ctx e a = (memByte s.mem (e.pa a), true, s.poisoned (e.pa a) 1)) ∧
    ((s.core r).sbuf = [] → s.bufferByte r ctx (some a) (e.pa a) = none)

/-- Stores (R158, R249, R265): to local memory the bytes of `d` are in place before the thread issues again; to a global address they are posted to the
core's store buffer, cut at their line, and memory is as it was. Where it rests on the model's own choices: logs 23, 24. -/
def Obligations.Stores : Prop :=
  ∀ (s : State) (i : Instr) (h : Hdr) (d a : NameRef) (o : BitVec 32) (n : Nat), store i = some (h, d, a, o, n) →
    Passes s i h [a, d] [] → Fits s d n →
    ∀ x s1 y s2, s.read i h a s = .ok (x, s1) → s.read i h d s1 = .ok (y, s2) →
      (∀ l, Local (x.val + o.toInt) n l → s2.boardAny s2.cur.tile l n = false → s2.merges (localKey s2.cur.tile l) n = false →
        exec i s = .next (((s2.rewrite s2.cur 1 s2.myKernel.ctx (localKey s2.cur.tile l) n).putBytes (localKey s2.cur.tile l)
          (bytesOfNat n (y.bitsOf (8 * n)))).done h)) ∧
      (∀ g t, (x.val + o.toInt) % n = 0 → s.window s.me (x.val + o.toInt) = .glob g → s2.window s2.me (x.val + o.toInt) = .glob g →
        s.post i (cutLines g (bytesOfNat n (y.bitsOf (8 * n)))) s2 = .ok t →
        exec i s = .next (t.done h) ∧ t.mem = s2.mem)

/-- What a store leaves alone, where no error waits to be found and the instruction has not waited: after a store to local memory every byte outside those stored reads as before, and every thread's registers, names and
return stack but the address and state of the storing thread are as before; after a store to a global address every byte of memory reads
as before. -/
def Obligations.StoreFrame : Prop :=
  ∀ (s : State) (i : Instr) (h : Hdr) (d a : NameRef) (o : BitVec 32) (n : Nat) (k j : BitVec 9), store i = some (h, d, a, o, n) →
    a = .cat k → d = .cat j → Passes s i h [a, d] [] → Fits s d n → s.latent = [] → s.me.wait = none →
    let x : Src := ⟨s.ent a, (s.me.name k.toNat).toNat⟩
    (∀ l, Local (x.val + o.toInt) n l → s.boardAny s.cur.tile l n = false → s.merges (localKey s.cur.tile l) n = false →
      ∃ t, exec i s = .next t ∧
        (∀ b, b < localKey s.cur.tile l ∨ localKey s.cur.tile l + n ≤ b → memByte t.mem b = memByte s.mem b) ∧
        t.me = { s.me with pc := s.me.pc + 4 * h.form.words, lastPc := s.me.pc, wait := none, st := .ready } ∧
        (∀ u, u ≠ s.cur → t.thread u = s.thread u) ∧ t.empties = s.empties ∧ t.gangs = s.gangs) ∧
    (∀ g, (x.val + o.toInt) % n = 0 → s.window s.me (x.val + o.toInt) = .glob g → s.myCore.sbuf.length + 2 ≤ 64 → s.portHeld = false →
      ∃ t, exec i s = .next t ∧ (∀ b, memByte t.mem b = memByte s.mem b) ∧
        t.me = { s.me with pc := s.me.pc + 4 * h.form.words, lastPc := s.me.pc, wait := none, st := .ready } ∧
        (∀ u, u ≠ s.cur → t.thread u = s.thread u) ∧ t.empties = s.empties ∧ t.gangs = s.gangs)

/-- Granule accesses (R266): in local memory `ld.g` and `st.g` move 40 bytes, 8-byte aligned. -/
def Sys2Proof.Claims.LocalGranules : Prop :=
  ∀ (s : State) (h : Hdr) (d a : NameRef) (o : BitVec 32), s.granKind d = true → ∀ (x : Src) (l : Nat), x.val + o.toInt = (l : Int) → l % 8 = 0 → l + 40 ≤ 0x8_0000 →
    (∀ s1 t, Passes s (.ldG h d a o) h [a] [d] → s.read (.ldG h d a o) h a s = .ok (x, s1) → s1.boardW s1.cur.tile l 40 = false →
      s1.poisoned (localKey s1.cur.tile l) 40 = false →
      s.putPat (.ldG h d a o) d (natOfBytes (s1.bytesAt (localKey s1.cur.tile l) 40))
        (s1.found s1.cur 0 s1.myKernel.ctx (localKey s1.cur.tile l) 40) = .ok t →
      exec (.ldG h d a o) s = .next (t.done h)) ∧
    (∀ s1 y s2, Passes s (.stG h d a o) h [a, d] [] → s.read (.stG h d a o) h a s = .ok (x, s1) → s.read (.stG h d a o) h d s1 = .ok (y, s2) →
      s2.boardAny s2.cur.tile l 40 = false → s2.merges (localKey s2.cur.tile l) 40 = false →
      exec (.stG h d a o) s = .next (((s2.rewrite s2.cur 1 s2.myKernel.ctx (localKey s2.cur.tile l) 40).putBytes (localKey s2.cur.tile l)
        (bytesOfNat 40 y.pat)).done h))

/-- Loads of local memory, of memory beyond it, the bytes they find, and granules (R158, R250, R251, R265, R266). Where it rests on the model's own choices: logs 21, 22, 24. -/
def Obligations.Loads : Prop := Claims.LocalLoads ∧ Claims.GlobalLoads ∧ Claims.LoadByteSource ∧ Claims.LocalGranules

/-- The faults of a load, in their order (R211, R242, R265): an address in no window raises ACCESS, then one that is not aligned to the access's
size raises ALIGN; TVAL is the address, and nothing of the load happens. Where it rests on the model's own choices: log 90. -/
def Obligations.AccessFaults : Prop :=
  ∀ (s : State) (i : Instr) (h : Hdr) (d a : NameRef) (o : BitVec 32) (n : Nat), load i = some (h, d, a, o, n) →
    Passes s i h [a] [d] → Fits s d n → ∀ x s1, s.read i h a s = .ok (x, s1) →
      (s.window s.me (x.val + o.toInt) = .none → exec i s = .next (s.takeTrap s.cur .access s.me.pc (w64 (x.val + o.toInt)))) ∧
      (s.window s.me (x.val + o.toInt) ≠ .none → (x.val + o.toInt) % n ≠ 0 →
        exec i s = .next (s.takeTrap s.cur .align s.me.pc (w64 (x.val + o.toInt))))

/-! ## Atomics, full/empty words, seals (14 R267 to R273, 13 R255 to R258) -/

/-- Atomics (R258, R268): once the fence of the scope is through, the old bits are read at the home, the function's result replaces them in the same
step (`cas` only where it finds `c`), and the old value is on its way to `d`. In local memory; and at a global home once translated, ordered, and
behind no full/empty operation that is served first. While the value is on its way, the wait keeps what its end without effect would take back
(R295). -/
def Obligations.Atomics : Prop :=
  ∀ (s : State) (i : Instr) (h : Hdr) (d a b : NameRef) (c : Option NameRef) (sz : AmoSize) (sc : Scope)
      (f : Nat → Nat → Src → Option Src → Option Nat),
    atomic i = some (h, d, a, b, c, sz, sc, f) → Passes s i h (a :: b :: c.toList) [d] → s.oneDst d = true → sizeOk i sz →
    ∀ x s1 y s2 z s3, s.read i h a s = .ok (x, s1) → s.read i h b s1 = .ok (y, s2) →
      (match c with | none => (.ok (none, s2) : M (Option Src × State)) | some q => (s.read i h q s2).map fun (r : Src × State) => (some r.1, r.2)) = .ok (z, s3) →
      s.portCheck d s3 = .ok () →
      (∀ l m s4 s5, Local x.val (amoBytes sz) l → s.fenceOf i sc s3 = .ok () → s3.boardAny s3.cur.tile l (amoBytes sz) = false →
        s3.poisoned (localKey s3.cur.tile l) (amoBytes sz) = false → m = s3.natAt (localKey s3.cur.tile l) (amoBytes sz) →
        s4 = s3.found s3.cur 2 s3.myKernel.ctx (localKey s3.cur.tile l) (amoBytes sz) →
        s5 = (match f (8 * amoBytes sz) m y z with | some v => s4.putBytes (localKey s3.cur.tile l) (bytesOfNat (amoBytes sz) v) | none => s4) →
        exec i s = .next ((s.await h i d (s5.amoOld d (isFadd i) (8 * amoBytes sz) m (y.ent.kind == .sint)) s5).undoing
          [s4.changed (localKey s3.cur.tile l) (amoBytes sz) s5])) ∧
      (∀ g e s4 m s5 s6, s.window s.me x.val = .glob g → s3.window s3.me x.val = .glob g → x.val % (amoBytes sz : Int) = 0 →
        (d ≠ .fixed .zero ∨ s3.sideHas s3.cur.tile s3.myKernel.ctx g = false) →
        s.translate i 2 true x.val g s3 = .ok e → s.atHome i sc g (e.pa g) s3 = .ok s4 → s4.feAhead (e.pa g) = false →
        s4.poisoned (e.pa g) (amoBytes sz) = false →
        m = natOfBytes (s4.homeBytes e.key (e.pa g) (amoBytes sz)) → s5 = s4.found s4.cur 2 s3.myKernel.ctx (e.pa g) (amoBytes sz) →
        s6 = (match f (8 * amoBytes sz) m y z with
          | some v => s5.homeWrite (tileDie s5.cur.tile) (some (s5.writer g (amoBytes sz))) e.key (e.pa g) (bytesOfNat (amoBytes sz) v)
          | none => s5) →
        exec i s = .next (((s.await h i d (s6.amoOld d (isFadd i) (8 * amoBytes sz) m (y.ent.kind == .sint)) s6).viaPeer g).undoing
          [s5.changed (keyedSpan e.key (e.pa g) (amoBytes sz)).1 (keyedSpan e.key (e.pa g) (amoBytes sz)).2 s6]))

/-- Full/empty operations on a word of local memory (R213, R258, R269), once the fence of the scope is through and no operation that is served first
waits at the word: `ldf` and `ldk` of a full word, `stf` of an empty one, `sto`, `clr` and `tst` of either read, write and set the bit in one step. -/
def Sys2Proof.Claims.FullEmptyWords : Prop :=
  ∀ (s : State) (i : Instr) (h : Hdr) (d a : NameRef) (o : BitVec 32) (sc : Scope) (f : FeFn), fullEmpty i = some (h, d, a, o, sc, f) →
    ∀ x s1 y s2 l k, Passes s i h (if f = .stf ∨ f = .sto then [a, d] else [a]) (if f = .stf ∨ f = .sto ∨ f = .clr then [] else [d]) →
      (f = .stf ∨ f = .sto ∨ f = .clr ∨ s.oneDst d = true ∧ s.portCheck d s1 = .ok ()) →
      s.read i h a s = .ok (x, s1) → (if f = .stf ∨ f = .sto then s.read i h d s1 else .ok (x, s1)) = .ok (y, s2) →
      Local (x.val + o.toInt) 8 l → k = localKey s2.cur.tile l → s.fenceOf i sc s2 = .ok () → s2.boardAny s2.cur.tile l 8 = false →
      (f = .stf ∨ f = .sto ∨ s2.poisoned k 8 = false) → s2.latent = [] → s2.feAhead k = false → (∀ b, wants f = some b → s2.full k = b) →
      exec i s = .next (feDone i h d k (s2.natAt k 8) s (if f = .stf ∨ f = .sto then s2 else s2.activate k)
        (s2.putBytes k (bytesOfNat 8 (y.bitsOf 64))) f)

/-- A full/empty operation whose bit is not as it needs waits at its word with nothing done, bounded by TWAITLIM with the address as TVAL (R213, R216,
R269). -/
def Sys2Proof.Claims.FullEmptyWaits : Prop :=
  ∀ (s : State) (h : Hdr) (d a : NameRef) (o : BitVec 32) (sc : Scope), Passes s (.feLdf h d a o sc) h [a] [d] → s.oneDst d = true →
    ∀ x s1 l, s.read (.feLdf h d a o sc) h a s = .ok (x, s1) → Local (x.val + o.toInt) 8 l → s.portCheck d s1 = .ok () →
      s.fenceOf (.feLdf h d a o sc) sc s1 = .ok () → s1.boardW s1.cur.tile l 8 = false →
      s1.full (localKey s1.cur.tile l) = false →
      exec (.feLdf h d a o sc) s =
        .next (s.hold (.feLdf h d a o sc) (.retry 10 (localKey s1.cur.tile l)) (some (w64 (x.val + o.toInt))))

/-- Full/empty operations that perform, and those that wait (R213, R269). -/
def Obligations.FullEmpty : Prop := Claims.FullEmptyWords ∧ Claims.FullEmptyWaits

/-- Seal bindings (R248, R271, R273): a range that the table does not hold and no other seal overlaps is added, one that it holds is removed with the
reflections of its lines; an overlap with another seal raises SEAL with reason 1. -/
def Sys2Proof.Claims.SealBindings : Prop :=
  ∀ (s : State) (h : Hdr) (d a : NameRef) (x y : Src) (s1 s2 : State) (c : Context) (b : SBind),
    s2.portHeld = false → s2.context? s2.myKernel.ctx = some c → y.pat < 2 ^ 58 → b = ⟨fieldOf y.pat 48 10, x.val.toNat, fieldOf y.pat 0 48⟩ →
    boundable x.val (fieldOf y.pat 0 48) = true →
    (Passes s (.syncBind h d a) h [a, d] [] → s.read (.syncBind h d a) h a s = .ok (x, s1) → s.read (.syncBind h d a) h d s1 = .ok (y, s2) →
      (c.sbind.contains b = false → (∀ o ∈ c.sbind, o.sl ≠ b.sl → o.overlaps b.start b.len = false) → c.sbind.length < 1024 →
        exec (.syncBind h d a) s = .next ((s2.modContext s2.myKernel.ctx fun z => { z with sbind := c.sbind ++ [b] }).done h)) ∧
      ((∃ o ∈ c.sbind, o.sl ≠ b.sl ∧ o.overlaps b.start b.len = true) → c.sbind.contains b = false →
        exec (.syncBind h d a) s = .next (s.takeTrap s.cur .seal_ s.me.pc (reasonVal 1 x.val)))) ∧
    (Passes s (.syncUnbind h d a) h [a, d] [] → s.read (.syncUnbind h d a) h a s = .ok (x, s1) → s.read (.syncUnbind h d a) h d s1 = .ok (y, s2) →
      c.sbind.contains b = true →
      exec (.syncUnbind h d a) s =
        .next (((s2.modContext s2.myKernel.ctx fun z => { z with sbind := c.sbind.erase b }).dropReflections (fun _ => true) s2.myKernel.ctx b.start b.len).done h))

/-- Acquire and release on a seal (R256, R257, R272): an acquire reads the seal word, and from scope `dev` on discards the reflections of the seal's
ranges on its die; a release waits for the core's older stores to the seal's ranges and then adds one to the word, which under `rec` must be durable,
and both give the word to `d`. -/
def Sys2Proof.Claims.Seals : Prop :=
  ∀ (s : State) (h : Hdr) (d a : NameRef) (sc : Scope) (x : Src) (s1 : State) (k g : Nat) (e : TEntry), s.oneDst d = true →
    x.val = (k : Int) → k < 1024 → s.portCheck d s1 = .ok () → s1.globWin (s1.sealAddr k) = .glob g → s1.poisoned (e.pa g) 8 = false →
    (Passes s (.syncAcq h d a sc) h [a] [d] → s.read (.syncAcq h d a sc) h a s = .ok (x, s1) →
      s.translate (.syncAcq h d a sc) 0 false g g s1 = .ok e → sc = .thr ∨ sc = .core ∨ sc = .tile ∨ sc = .clu ∨ sc = .die →
      exec (.syncAcq h d a sc) s = .next ((s.await h (.syncAcq h d a sc) d (.int (natOfBytes (s1.homeBytes e.key (e.pa g) 8)))
        (s1.found s1.cur 0 s1.myKernel.ctx (e.pa g) 8)).readsAt g 8)) ∧
    (Passes s (.syncAcq h d a sc) h [a] [d] → s.read (.syncAcq h d a sc) h a s = .ok (x, s1) →
      s.translate (.syncAcq h d a sc) 0 false g g s1 = .ok e → sc = .dev ∨ sc = .sys ∨ sc = .recov →
      ∃ z, exec (.syncAcq h d a sc) s = .next ((s.await h (.syncAcq h d a sc) d (.int (natOfBytes (s1.homeBytes e.key (e.pa g) 8))) z).readsAt g 8) ∧
        z = ((s1.found s1.cur 0 s1.myKernel.ctx (e.pa g) 8).sealRanges s1.myKernel.ctx k).foldl
          (fun y b => y.dropReflections (· == tileDie s1.cur.tile) s1.myKernel.ctx b.start b.len) (s1.found s1.cur 0 s1.myKernel.ctx (e.pa g) 8)) ∧
    (∀ s2 v z, Passes s (.syncRel h d a sc) h [a] [d] → s.stage = none → s.read (.syncRel h d a sc) h a s = .ok (x, s1) →
      s.translate (.syncRel h d a sc) 2 true g g s1 = .ok e →
      s1.fenceClear sc (fun c b n => c == s1.myKernel.ctx && (s1.sealRanges s1.myKernel.ctx k).any fun r => r.overlaps b n) = true →
      s2 = s1.found s1.cur 2 s1.myKernel.ctx (e.pa g) 8 → v = (natOfBytes (s2.homeBytes e.key (e.pa g) 8) + 1) % 2 ^ 64 →
      z = s2.homeWrite (tileDie s2.cur.tile) (some (s2.writer g 8)) e.key (e.pa g) (bytesOfNat 8 v) → (sc = .recov → z.undurable = false) →
      exec (.syncRel h d a sc) s = .next (((s.await h (.syncRel h d a sc) d (.int v) z).readsAt g 8).undoing
        [s2.changed (keyedSpan e.key (e.pa g) 8).1 (keyedSpan e.key (e.pa g) 8).2 z]))

/-- Seal bindings and the seal instructions (R246 to R248). Where it rests on the model's own choices: log 25. -/
def Obligations.SealInstructions : Prop := Claims.SealBindings ∧ Claims.Seals

/-- `sync.fence` (R250, R255): with `thr` or `core` it completes at once; with any other scope it waits, with nothing done, behind an older store of the core that
still waits for room, while a store of the core issued before it, of any thread, to a home of the scope (R245) is left in the store buffer or in the
side log; and under `rec` while a vault write of the core issued before it is not durable (R261). -/
def Obligations.Fences : Prop :=
  ∀ (s : State) (h : Hdr) (sc : Scope), Passes s (.syncFence h sc) h [] [] →
    (sc = .thr ∨ sc = .core → exec (.syncFence h sc) s = .next (s.done h)) ∧
    (s.portHeld = false → (∀ e ∈ s.myCore.sbuf, e.seq < s.mySeq → inScope sc e.home = false) →
      (∀ e ∈ s.myTile.side, e.core = s.cur.core → e.seq < s.mySeq → inScope sc e.home = false) →
      (sc = .recov → ∀ v ∈ s.vwrites, ∀ w, v.who = some w → w.core = s.cur.coreRef → ¬ w.seq < s.mySeq) →
      exec (.syncFence h sc) s = .next (s.done h)) ∧
    (s.portHeld = false → (∃ e ∈ s.myCore.sbuf, e.seq < s.mySeq ∧ inScope sc e.home = true) ∨
      (∃ e ∈ s.myTile.side, e.core = s.cur.core ∧ e.seq < s.mySeq ∧ inScope sc e.home = true) ∨
      (sc = .recov ∧ ∃ v ∈ s.vwrites, ∃ w, v.who = some w ∧ w.core = s.cur.coreRef ∧ w.seq < s.mySeq) →
      exec (.syncFence h sc) s = .next (s.hold (.syncFence h sc) (.retry tagFence 0) none)) ∧
    (s.portHeld = true → sc ≠ .thr → sc ≠ .core → exec (.syncFence h sc) s = .next (s.hold (.syncFence h sc) (.retry tagOrder 0) none))

/-- The steps of the memory system (R70, R252, R253, R258, R261, R352): a posted store is performed at its home once no older entry of its bytes is left;
a reflection may go at any moment; a vault write that no older fence of its core holds back becomes durable; a reply lands; a waiting full/empty operation
is performed. Where it rests on the model's own choices: logs 1, 74. -/
def Obligations.MemorySteps : Prop :=
  ∀ (s : State),
    (∀ k e rest te, (s.core k).sbuf = e :: rest → s.tlb? k.tile e.ctx e.addr = some te → s.sideHas k.tile e.ctx e.addr = false → te.w = true →
      s.routeDown (te.pa e.addr) = false → s.peerRefused (te.pa e.addr) true = false → s.bankOff (te.pa e.addr) = false → ∀ z, z = s.setCore k { s.core k with sbuf := rest } →
      (e.form = .plain → exec (.storeEntryPerform k 0) s =
        .next (((if z.merges (te.pa e.addr) e.bytes.length then z.count k 9 else z).rewrite ⟨k.tile, k.core, e.h⟩ 1 e.ctx (te.pa e.addr)
          e.bytes.length).homeWrite (tileDie k.tile) (some ⟨k, e.seq, e.ctx, e.addr, e.bytes.length⟩) te.key (te.pa e.addr) e.bytes)) ∧
      (e.form ≠ .tail → exec (.storeEntryPerform k 0) s = .next (z.landStore ⟨k.tile, k.core, e.h⟩ e.seq e.ctx te e.addr e.bytes e.form))) ∧
    (∀ die l r, r ∈ s.reflections → r.die = die → r.va = 64 * l →
      ∃ t, exec (.reflectionEvict die l) s = .next t ∧ r ∉ t.reflections ∧ t.mem = s.mem ∧ t.tiles = s.tiles) ∧
    (∀ v rest, s.vwrites = v :: rest → s.fencedOff v = false → exec (.vaultWriteDurable v.buf 0) s = .next { s with vwrites := rest }) ∧
    (∀ k p rest t, (s.core k).replies = p :: rest → (s.core k).repack = none → s.deliver k p = some t →
      exec (.asyncWrite k) s = .next (t.setCore k { t.core k with replies := (t.core k).replies.eraseIdx 0 })) ∧
    (∀ w k h d a o sc f z, s.me.wait = some w → w.why = .retry 10 k → fullEmpty w.instr = some (h, d, a, o, sc, f) → wants f ≠ none →
      exec w.instr s = .next z → (∀ v, z.me.wait = some v → v.why.same (.retry 10 0) = false) → z.cur = s.cur →
      exec (.feWaitSatisfied s.cur) s = .next z)

/-! ## Tasks, tours and barriers (14 R274 to R278, 12 R222, R227 to R235) -/

/-- `task.spawn` and `task.pop` (R227, R229, R275): a record goes behind the youngest of the hardware deque while fewer than 32 stand there; beyond that
the oldest is spilled to local memory; with 96 held the push raises DEQUE. A pop takes the youngest record: its argument goes to `d` and the
thread is redirected to its entry; an empty deque lets the thread go on with `d` as it was. The unit does one operation in a cycle: a second waits
(R230). -/
def Sys2Proof.Claims.DequeOfTasks : Prop :=
  ∀ (s : State) (h : Hdr) (a b d : NameRef),
    (Passes s (.taskSpawn h a b) h [a, b] [] → ∀ x s1 y s2, s.read (.taskSpawn h a b) h a s = .ok (x, s1) →
      s.read (.taskSpawn h a b) h b s1 = .ok (y, s2) → Target x.val → (s2.myCore.dqHas = true → s2.myCore.dqOwner = some s2.myKernel.sb) →
      (s2.myCore.dqBusy s2.cycle = true → exec (.taskSpawn h a b) s = .next (s.hold (.taskSpawn h a b) (.retry tagDeque 0) none)) ∧
      (s2.myCore.dqBusy s2.cycle = false → s2.myCore.dq.length < 32 → exec (.taskSpawn h a b) s =
        .next ((s2.setMyCore { s2.myCore with dq := s2.myCore.dq ++ [⟨x.val.toNat, w64 y.val⟩], dqOwner := some s2.myKernel.sb,
                                              dqLast := s2.myKernel.sb, dqUsed := s2.cycle + 1 }).done h)) ∧
      (∀ o q, s2.myCore.dqBusy s2.cycle = false → s2.myCore.dq = o :: q → 32 ≤ s2.myCore.dq.length → s2.myCore.scnt < 64 → ∃ t, exec (.taskSpawn h a b) s = .next t ∧
        t.myCore.dq = q ++ [⟨x.val.toNat, w64 y.val⟩] ∧ t.myCore.scnt = s2.myCore.scnt + 1 ∧ t.me.pc = s2.me.pc + 4 * h.form.words) ∧
      (s2.myCore.dqBusy s2.cycle = false → 32 ≤ s2.myCore.dq.length → 64 ≤ s2.myCore.scnt → exec (.taskSpawn h a b) s = .next (s.takeTrap s.cur .deque s.me.pc 0))) ∧
    (Passes s (.taskPop h d) h [] [d] → s.argDst d = true →
      (s.myCore.dqOwner = some s.myKernel.sb → s.myCore.dqBusy s.cycle = true →
        exec (.taskPop h d) s = .next (s.hold (.taskPop h d) (.retry tagDeque 0) none)) ∧
      (∀ q k, s.myCore.dqOwner = some s.myKernel.sb → s.myCore.dqBusy s.cycle = false → s.myCore.dq = q ++ [k] →
        exec (.taskPop h d) s =
          .next ((s.setCore s.cur.coreRef ({ s.myCore with dq := q }.tookOne s.cycle)).giveRecord s.cur d s.me.pc k)) ∧
      (s.myCore.dqBusy s.cycle = false → s.myCore.dq = [] → s.myCore.scnt = 0 → exec (.taskPop h d) s = .next (s.done h)))

/-- `task.steal`, `task.park`, `task.tour` and `task.done` (R218, R230, R234, R274): a steal with a neighbour sends its request and waits for the
reply; parking takes the thread out of the rotation at its instruction; a tour is armed for the kernel's gang; `task.done` tells whether
it has finished. -/
def Sys2Proof.Claims.TaskWaits : Prop :=
  ∀ (s : State) (h : Hdr) (d : NameRef), s.argDst d = true →
    (Passes s (.taskSteal h d) h [] [d] → s.victims s.cur [.n, .e, .s, .w] ≠ [] →
      ∃ t, exec (.taskSteal h d) s = .next t ∧ t.me.st = .waiting ∧ t.me.pc = s.me.pc ∧ t.me.names = s.me.names ∧ t.stealing s.cur = true) ∧
    (Passes s (.taskSteal h d) h [] [d] → s.victims s.cur [.n, .e, .s, .w] = [] → exec (.taskSteal h d) s = .next (s.done h)) ∧
    (Passes s (.taskPark h d) h [] [d] →
      ∃ t, exec (.taskPark h d) s = .next t ∧ t.me.st = .parked ∧ t.me.pc = s.me.pc ∧ t.me.names = s.me.names ∧ t.mem = s.mem) ∧
    (Passes s (.taskTour h) h [] [] → s.tour? s.myKernel.gang s.myKernel.pos = none →
      exec (.taskTour h) s =
        .next ((s.modGang s.myKernel.gang fun x => { x with tours := x.tours ++ [⟨s.myKernel.pos, true, none, none, false⟩] }).done h)) ∧
    (∀ t, Passes s (.taskDone h d) h [] [d] → s.writeInt (.taskDone h d) d (if s.tourDone s.cur then 1 else 0) s = .ok t →
      exec (.taskDone h d) s = .next (t.done h))

/-- The task deque and what waits on it. Where it rests on the model's own choices: logs 32, 33. -/
def Obligations.Tasks : Prop := Claims.DequeOfTasks ∧ Claims.TaskWaits

/-- The steps of a steal (R230): the deque unit of the victim answers with its oldest record, where its deque is of the thief's kernel, and marks its core
for the tour; the reply gives the record to the thief; one without a record sends it to its next neighbour, or ends the round, where it goes on behind
`task.steal` and stays parked at `task.park`; a parked thread is woken with a record of its own deque. -/
def Sys2Proof.Claims.StealSteps : Prop :=
  ∀ (s : State) (k : CoreRef) (t : ThreadRef),
    (∀ m r q, (s.core k).stealMsgs = [m] → m.reply = false → m.arrive ≤ s.cycle → (s.core k).dqUsed ≤ s.cycle → s.mayServe k m.thief = true →
      (s.core k).scnt = 0 → (s.core k).dq = r :: q → m.thief.coreRef ≠ k → ∃ z, exec (.stealRequest k) s = .next z ∧ (z.core k).dq = q ∧ (z.core k).tourFlag = true ∧
        (z.core m.thief.coreRef).stealMsgs = (s.core m.thief.coreRef).stealMsgs ++ [⟨m.thief, m.dir, s.cycle + 4, some r, true⟩]) ∧
    (∀ m r w l d pc n, (s.core t.coreRef).stealMsgs = [m] → m.reply = true → m.thief = t → m.arrive ≤ s.cycle → (s.core t.coreRef).repack = none →
      m.rec? = some r → (s.thread t).wait = some w → w.why = .steal l → w.taskWait = some (d, pc, n) →
      exec (.stealReply t) s = .next ((s.setCore t.coreRef { s.core t.coreRef with stealMsgs := [] }).giveRecord t d pc r)) ∧
    (∀ m w l d pc n z, (s.core t.coreRef).stealMsgs = [m] → m.reply = true → m.thief = t → m.arrive ≤ s.cycle → (s.core t.coreRef).repack = none →
      m.rec? = none → (s.thread t).wait = some w → w.why = .steal l → w.taskWait = some (d, pc, n) →
      ((∃ h e, w.instr = .taskPark h e) → (s.thread t).st ≠ .frozen) →
      z = s.setCore t.coreRef { s.core t.coreRef with stealMsgs := [] } →
      (∀ dir rest v, z.victims t l = dir :: rest → z.victim t dir = some v → ∃ y, exec (.stealReply t) s = .next y ∧ y.mem = s.mem ∧
        (y.thread t).wait = some { w with why := .steal rest } ∧ (y.core t.coreRef).stealDir = dir ∧
        (y.core ⟨v, t.core⟩).stealMsgs = (z.core ⟨v, t.core⟩).stealMsgs ++ [⟨t, dir, s.cycle + 4, none, false⟩]) ∧
      (z.victims t l = [] → (∃ h e, w.instr = .taskSteal h e) → exec (.stealReply t) s = .next (z.goOn t pc n)) ∧
      (z.victims t l = [] → (∃ h e, w.instr = .taskPark h e) →
        exec (.stealReply t) s = .next (z.setThread t { z.thread t with wait := some { w with why := .steal [] } }))) ∧
    (∀ w r q d pc n, (s.thread t).wait = some w → (s.thread t).st = .parked → s.stealing t = false → (s.core t.coreRef).repack = none →
      w.taskWait = some (d, pc, n) → t.h = 0 → (s.core t.coreRef).dqOwner = some (s.kernel t).sb → (s.core t.coreRef).dqUsed ≤ s.cycle →
      (s.core t.coreRef).dq = q ++ [r] →
      exec (.parkStealRetry t) s =
        .next ((s.setCore t.coreRef ({ s.core t.coreRef with dq := q }.tookOne s.cycle)).giveRecord t d pc r))

/-- The steps of a tour (R233 to R235), for a gang with the one tour of a kernel on the core: an armed tour with a passive root sends its token; a
passive core passes it on, marked if its flag was set; the root ends a round, and an unmarked one is the last; the finish message wakes
the kernel's parked threads. -/
def Sys2Proof.Claims.TourSteps : Prop :=
  ∀ (s : State) (k : CoreRef) (g : Nat) (x : Gang) (t : Tour) (kn : Kernel), s.toursAt k = [(g, x, t, kn)] →
    (t.armed = true → t.finished = false → t.token = none → t.finish = none → (s.ring x).head? = some k.tile → s.passive k kn = true →
      ∃ z, exec (.tourRoundStart k) s = .next z ∧ (z.core k).tourFlag = false ∧ z.gangs = s.gangs.map fun y => if 64 * y.die + y.slot = g then
        { y with tours := y.tours.map fun u => if u.pos = t.pos then { u with token := some (1, false, s.cycle + ringTime (s.ring x) 0) } else u } else y) ∧
    (∀ n m c, t.token = some (n, m, c) → c ≤ s.cycle → n < (s.ring x).length → (s.ring x).getD n 0 = k.tile → s.passive k kn = true →
      ∃ z, exec (.tourToken k) s = .next z ∧ (z.core k).tourFlag = false ∧ z.gangs = s.gangs.map fun y => if 64 * y.die + y.slot = g then
        { y with tours := y.tours.map fun u => if u.pos = t.pos then
          { u with token := some (n + 1, m || (s.core k).tourFlag, s.cycle + ringTime (s.ring x) n) } else u } else y) ∧
    (∀ c, t.token = some ((s.ring x).length, false, c) → c ≤ s.cycle → (s.ring x).getD 0 0 = k.tile → (s.core k).tourFlag = false →
      s.passive k kn = true → ∃ z, exec (.tourToken k) s = .next z ∧ z.gangs = s.gangs.map fun y => if 64 * y.die + y.slot = g then
        { y with tours := y.tours.map fun u => if u.pos = t.pos then
          { u with token := none, finished := true, finish := some (0, s.cycle) } else u } else y) ∧
    (∀ n c, t.finish = some (n, c) → c ≤ s.cycle → (s.ring x).getD n 0 = k.tile → (s.core k).repack = none → s.passive k kn = true →
      ∃ z, exec (.tourFinish k) s = .next z ∧ z.mem = s.mem ∧
        (∀ h w e, h ∈ kn.hthreads → (s.core k).threads[h].wait = some w → w.taskWait = some e → (s.core k).threads[h].st = .parked →
          (z.core k).threads[h].st = .ready ∧ (z.core k).threads[h].pc = e.2.1 + e.2.2))

/-- Steals and termination tours. Where it rests on the model's own choices: log 32. -/
def Obligations.StealsAndTours : Prop := Claims.StealSteps ∧ Claims.TourSteps

/-- An arrival of the instruction `i` of the state `s0`, recorded in `s`, waits for its phase and keeps what it issued with (R222, R277). -/
def Sys2Proof.Claims.barrierWait (s0 : State) (i : Instr) (p : Nat) (s : State) : State :=
  let z := s.hold i (.retry tagBar p) none
  z.setMe { z.me with wait := z.me.wait.map fun w => { w with src := some (s0.latch s0.cur) } }

/-- Barriers (R222, R277): an arrival is recorded for the open phase, whose number goes to `d`; `sync` goes on waiting behind it; a second arrival
for the open phase waits; a wait for a completed phase goes on; `bar.done` sets the thread's status flags. -/
def Sys2Proof.Claims.Barriers : Prop :=
  ∀ (s : State) (h : Hdr) (d a : NameRef) (lv : BarLevel) (q : BitVec 32), s.barOk lv = true → q = s.barP s.cur.tile lv → s.stage.map (·.1) ≠ some tagBar →
    (∀ t, Passes s (.barArrive h d lv) h [] [d] → s.oneDst d = true → s.me.arrived lv q = false →
      s.writeKeep (.barArrive h d lv) d q.toNat s = .ok t → exec (.barArrive h d lv) s = .next ((t.arrive lv q).done h)) ∧
    (∀ t, Passes s (.barSync h d lv) h [] [d] → s.oneDst d = true → s.me.arrived lv q = false →
      s.writeKeep (.barSync h d lv) d q.toNat s = .ok t → phaseDone ((t.arrive lv q).barP t.cur.tile lv) q = false → (t.arrive lv q).cur = t.cur →
      exec (.barSync h d lv) s = .next (barrierWait s (.barSync h d lv) q.toNat (t.arrive lv q))) ∧
    (Passes s (.barArrive h d lv) h [] [d] → s.oneDst d = true → s.me.arrived lv q = true →
      exec (.barArrive h d lv) s = .next (s.hold (.barArrive h d lv) (.retry tagBarFirst 0) (some (reasonVal 3 q.toNat)))) ∧
    (∀ x s1, Passes s (.barWait h a lv) h [a] [] → s.read (.barWait h a lv) h a s = .ok (x, s1) →
      phaseDone (s1.barP s1.cur.tile lv) (BitVec.ofInt 32 x.val) = true → exec (.barWait h a lv) s = .next (s1.done h)) ∧
    (∀ x s1, Passes s (.barDone h a) h [a] [] → s.sampling s.cur = false → s.read (.barDone h a) h a s = .ok (x, s1) →
      exec (.barDone h a) s = .next ((s1.setMe { s1.me with flags := BitVec.ofInt 32 x.val }).done h)) ∧
    (∀ x s1, Passes s (.barStat h a lv) h [a] [] → s.read (.barStat h a lv) h a s = .ok (x, s1) → x.val % 8 = 0 → 0 ≤ x.val → x.val ≤ 0x7_FE00 →
      s1.me.arrived lv (s1.barP s1.cur.tile lv) = false →
      ∀ z, z = (s1.askSums lv x.val.toNat).arrive lv (s1.barP s1.cur.tile lv) → phaseDone (z.barP z.cur.tile lv) (s1.barP s1.cur.tile lv) = false →
        exec (.barStat h a lv) s = .next (barrierWait s (.barStat h a lv) (s1.barP s1.cur.tile lv).toNat z)) ∧
    phaseDone (q + 1) q = true ∧ phaseDone q q = false

/-- A phase completes in the cycle after the last arrival, for every expected thread at once (R222, R277, R278). -/
def Sys2Proof.Claims.BarrierCompletes : Prop :=
  ∀ (s : State) (tile : Nat) (c : Nat),
    (s.allArrived tile .crew = some c → c < s.cycle → (s.tile tile).crewStat = [] →
      exec (.barrierComplete tile .crew) s =
        .next (s.setTile tile { s.tile tile with crewP := (s.tile tile).crewP + 1, crewStat := [], crewSum := [] })) ∧
    (∀ g x, s.allArrived tile .gang = some c → c < s.cycle → (s.tile tile).gang = some g → s.gang? g = some x → x.barStat = [] →
      exec (.barrierComplete tile .gang) s = .next (s.modGang g fun y => { y with barP := y.barP + 1, barStat := [], barSum := [] })) ∧
    (s.allArrived tile .crew = some c → s.cycle ≤ c →
      ∃ r, exec (.barrierComplete tile .crew) s = .refused r)

/-- Barriers, and their completion. Where it rests on the model's own choices: log 35. -/
def Obligations.BarrierInstructions : Prop := Claims.Barriers ∧ Claims.BarrierCompletes

/-! ## Sample groups (15 R291 to R299, 16 R300 to R304, 17 R319 to R323) -/

/-- Opening, closing, asking and cancelling (R291, R298, R302, R321): a FREE group of the gang is OPEN with its size, quorum and timeout; a DONE
group without members is FREE; GSTAT is written; an OPEN group that its opener cancels is FREE; a number beyond 63 raises GROUP. -/
def Sys2Proof.Claims.GroupObjects : Prop :=
  ∀ (s : State) (h : Hdr) (d a : NameRef) (x : Src) (s1 : State), s.me.vg = .solo →
    (∀ (gid k q tmo : Nat), Passes s (.grpOpen h a) h [a] [] → s.read (.grpOpen h a) h a s = .ok (x, s1) →
      x.val = ((gid + k * 2 ^ 8 + q * 2 ^ 16 + tmo * 2 ^ 24 : Nat) : Int) → gid < 64 → 1 ≤ q → q ≤ k → k ≤ 64 → tmo < 2 ^ 16 →
      s1.groupSt s1.myKernel.gang gid = .free →
      exec (.grpOpen h a) s = .next ((s1.putGroup s1.myKernel.gang ⟨gid, .opened, s1.cur, k, q, tmo,
        ((s1.gang? s1.myKernel.gang).map (·.geps)).getD 0, [], [], none, 0, false, false, 0⟩).done h)) ∧
    (∀ (gid : Nat) (o : Group), x.val = (gid : Int) → gid < 64 → s1.group? s1.myKernel.gang gid = some o → o.opener = s1.cur →
      (Passes s (.grpClose h a) h [a] [] → s.read (.grpClose h a) h a s = .ok (x, s1) → o.st = .done → o.combined < s1.cycle →
        s1.members s1.myKernel.gang gid = [] → exec (.grpClose h a) s = .next ((s1.freeGroup s1.myKernel.gang gid).done h)) ∧
      (Passes s (.grpCancel h a) h [a] [] → s.read (.grpCancel h a) h a s = .ok (x, s1) → o.st = .opened →
        exec (.grpCancel h a) s = .next ((s1.freeGroup s1.myKernel.gang gid).done h))) ∧
    (∀ (gid : Nat) (t : State), x.val = (gid : Int) → gid < 64 → s.oneDst d = true → Passes s (.grpStat h d a) h [a] [d] →
      s.read (.grpStat h d a) h a s = .ok (x, s1) → s.writeOne (.grpStat h d a) d (s1.gstat s1.myKernel.gang gid) s1 = .ok t →
      exec (.grpStat h d a) s = .next (t.done h)) ∧
    ((x.val < 0 ∨ 63 < x.val) → Passes s (.grpClose h a) h [a] [] → s.read (.grpClose h a) h a s = .ok (x, s1) →
      exec (.grpClose h a) s = .next (s.takeTrap s.cur .group s.me.pc (reasonVal 2 x.val)))

/-- `grp.fork` of an OPEN group of one (R294, R301): the opener is member 0, its kernel is frozen while the repack unit writes, and it goes on behind
the fork when that is over. -/
def Sys2Proof.Claims.GroupForks : Prop :=
  ∀ (s : State) (h : Hdr) (d a : NameRef) (x : Src) (s1 t : State) (gid : Nat) (o : Group), s.me.vg = .solo → s.oneDst d = true →
    Passes s (.grpFork h d a) h [a] [d] → s.read (.grpFork h d a) h a s = .ok (x, s1) → x.val = (gid : Int) → gid < 64 →
    s1.group? s1.myKernel.gang gid = some o → o.opener = s1.cur → o.st = .opened → o.k = 1 → s1.me.rsCnt = 0 → s1.me.gmV = false →
    s1.myCore.unitBusy s1.cur.h s.mySeq = false → s1.me.bad = [] → (isCat d = true → (s1.ent d).mode = .trap → (s1.ent d).holds 0 = true) →
    ∀ ds s2 l, s.draws (if isCat d && (s1.ent d).kind.isFloat && rmodeOf .attr (s1.ent d) == .rst then 1 else 0) s1 = .ok (ds, s2) →
    s.writeIndex (.grpFork h d a) d (indexVal d (s1.ent d) (ds.getD 0 0) 0) s2 = .ok t → l = s1.myKernel.rows + s1.myKernel.reserve →
    ∃ z, exec (.grpFork h d a) s = .next z ∧
      z = (let m := { t.me with gmV := true, gmRes := false, gmGid := BitVec.ofNat 6 gid, gmIdx := 0, posted := none }
           let y := s.doneLat h (.grpFork h d a) (8 + 2 * l) ((t.setMe m).putGroup s1.myKernel.gang { o with st := .forked })
           y.setMyCore (y.myCore.freeze s1.myKernel (.fork s.mySeq) true s1.cur.h s1.me.pc (s1.cycle + 8 + 2 * l)))

/-- Members (R293, R295, R297, R304): a first reward, here below the quorum, is rounded to FP32 and posted; a posted member of a
DONE group receives its advantage, or the first failure, and leaves the group. -/
def Sys2Proof.Claims.GroupMembers : Prop :=
  ∀ (s : State) (h : Hdr) (d a : NameRef) (x : Src) (s1 : State), s.me.vg = .solo →
    (∀ (gid : Nat) (t : State), x.val = (gid : Int) → gid < 64 → s.me.gmV = true → s.me.gmGid.toNat = gid → s.me.posted.isSome = true →
      s1.groupSt s1.myKernel.gang gid = .done →
      (Passes s (.grpWait h d a) h [a] [d] → s.waitKind d false = true → s.read (.grpWait h d a) h a s = .ok (x, s1) →
        s.writeReal (.grpWait h d a) d .attr (FF.f32.value s.me.adv.toNat).x s1 = .ok t →
        exec (.grpWait h d a) s = .next ((t.setMe { t.me.leaveGroup with posted := none }).done h)) ∧
      (Passes s (.grpWaitFf h d a) h [a] [d] → s.waitKind d true = true → s.read (.grpWaitFf h d a) h a s = .ok (x, s1) →
        s.writeInt (.grpWaitFf h d a) d s.me.ff.toNat s1 = .ok t →
        exec (.grpWaitFf h d a) s = .next ((t.setMe { t.me.leaveGroup with posted := none }).done h))) ∧
    (∀ o p, Passes s (.grpReward h a) h [a] [] → s.read (.grpReward h a) h a s = .ok (x, s1) → (s.ent a).kind.isFloat = true →
      s1.group? s1.myKernel.gang s1.me.gmGid.toNat = some o → s1.me.gmV = true → s1.me.posted = none →
      (FF.f32.round .rne 0 x.real.x).isFin = true → FF.f32.beyond (FF.f32.round .rne 0 x.real.x) = false →
      p = BitVec.ofNat 32 (FF.f32.code (FF.f32.round .rne 0 x.real.x)) → o.posts.length + 1 < o.q →
      exec (.grpReward h a) s = .next (((s1.setMe { s1.me with posted := some p }).combineIfAll s1.myKernel.gang
        { o with posts := o.posts ++ [(s1.me.gmIdx.toNat, p)] }).done h))

/-- Groups: their objects, forks and members. Where it rests on the model's own choices: logs 30, 31. -/
def Obligations.GroupInstructions : Prop := Claims.GroupObjects ∧ Claims.GroupForks ∧ Claims.GroupMembers

/-- A group's timeout combines it (R295, R303); a fork's copy takes a free repack unit of the sibling's core in its turn (R79, R301). -/
def Sys2Proof.Claims.GroupSteps : Prop :=
  ∀ (s : State) (g gid : Nat) (o : Group) (t : ThreadRef),
    (∀ c, s.group? g gid = some o → o.st = .forked → o.due = some c → c ≤ s.cycle → s.frozenGang g = false →
      exec (.groupTimeout g gid) s = .next (s.combine g o true none)) ∧
    (∀ f, (s.thread t).forkIn = some f → (s.core t.coreRef).unitBusy t.h f.seq = false → f.arrive ≤ s.cycle →
      exec (.forkRemoteCopy t) s = .next (s.setCore t.coreRef ((s.core t.coreRef).freeze (s.kernel t) (.fork f.seq) true t.h 0
        (s.cycle + 8 + 2 * ((s.kernel t).rows + (s.kernel t).reserve)))))

/-- REPACK_UNFREEZE after a resize that found no bad copy (R77, R78): the unit is free, every copy of the name has the value and the width R77 gives it, and the frozen
threads are as they were before the freeze. -/
def Sys2Proof.Claims.RepackEnds : Prop :=
  ∀ (s : State) (r : CoreRef) (p : Repack) (n w : Nat) (m : ResizeMode) (k : Kernel) (e : NameEnt), (s.core r).repack = some p →
    p.op = .resize n w m → p.begun = true → (∀ h ∈ k.hthreads, ((s.core r).threads[h]).bad = []) → p.held = [] → p.done ≤ s.cycle → (s.core r).kernels.find? (fun x => x.sb == p.sb) = some k →
    e = k.cat.getD n ⟨1, .uint, .wrap, .rne, .none⟩ →
    ∃ t, exec (.repackUnfreeze r) s = .next t ∧ (t.core r).repack = none ∧ t.mem = s.mem ∧
      (∀ h, h ∈ k.hthreads → n < (s.core r).threads[h].names.length →
        (t.core r).threads[h].name n = patOf w (resizeVal e.kind e.width w m (valueOf e ((s.core r).threads[h].name n).toNat))) ∧
      (∀ h st, p.frozen.find? (fun x => x.1 == h) = some (h, st) → (s.core r).threads[h].st = .frozen → (t.core r).threads[h].st = st)

/-- The steps of groups and of repacks. Where it rests on the model's own choices: logs 11, 30, 31, 91. -/
def Obligations.GroupAndRepackSteps : Prop := Claims.GroupSteps ∧ Claims.RepackEnds

/-! ## Lanes and quantised data (10 R178 to R191, R204 to R209, 16 R307 to R313, 17 R325 to R330) -/
namespace Sys2Proof.Claims

/-- An integer lane instruction: header, `d`, its sources, lane width, and lane j of the result from lane j of each source (R182). -/
def intLane : Instr → Option (Hdr × NameRef × List NameRef × LaneW × ((Nat → Int) → Int))
  | .vecAdd h d a b w => some (h, d, [a, b], w, fun v => v 0 + v 1)
  | .vecSub h d a b w => some (h, d, [a, b], w, fun v => v 0 - v 1)
  | .vecMul h d a b w => some (h, d, [a, b], w, fun v => v 0 * v 1)
  | .vecMac h d a b w => some (h, d, [a, b, d], w, fun v => v 2 + v 0 * v 1)
  | .vecMin h d a b w => some (h, d, [a, b], w, fun v => if v 0 ≤ v 1 then v 0 else v 1)
  | .vecMax h d a b w => some (h, d, [a, b], w, fun v => if v 0 ≤ v 1 then v 1 else v 0)
  | .vecAnd h d a b w => some (h, d, [a, b], w, fun v => intAnd (v 0) (v 1))
  | .vecOr h d a b w => some (h, d, [a, b], w, fun v => intOr (v 0) (v 1))
  | .vecXor h d a b w => some (h, d, [a, b], w, fun v => intXor (v 0) (v 1))
  | .vecShl h d a b w => some (h, d, [a, b], w, fun v => v 0 * 2 ^ (v 1 % 1024).toNat)
  | .vecShr h d a b w => some (h, d, [a, b], w, fun v => v 0 / 2 ^ (v 1 % 1024).toNat)
  | .vecAbs h d a w => some (h, d, [a], w, fun v => if v 0 < 0 then -v 0 else v 0)
  | .vecSel h d a b c w => some (h, d, [a, b, c], w, fun v => if v 2 = 0 then v 1 else v 0)
  | _ => none

/-- A floating lane instruction: header, `d`, its sources, format, rounding, latency, and the exact result of a lane (R181, R183). -/
def fltLane : Instr → Option (Hdr × NameRef × List NameRef × LaneF × Rnd × Nat × (RMode → (Nat → FVal) → XVal))
  | .vecfAdd h d a b f r => some (h, d, [a, b], f, r, 8, fun m v => (FVal.sum m [v 0, v 1]).x)
  | .vecfSub h d a b f r => some (h, d, [a, b], f, r, 8, fun m v => (FVal.sum m [v 0, (v 1).negate]).x)
  | .vecfMul h d a b f r => some (h, d, [a, b], f, r, 8, fun _ v => ((v 0).mul (v 1)).x)
  | .vecfFma h d a b c f r => some (h, d, [a, b, c], f, r, 8, fun m v => (FVal.sum m [(v 0).mul (v 1), v 2]).x)
  | .vecfMin h d a b f r => some (h, d, [a, b], f, r, 8, fun _ v =>
      (if (v 0).isNan ∨ (v 1).isNan then FVal.nan else if (v 1).lt (v 0) then v 1 else v 0).x)
  | .vecfMax h d a b f r => some (h, d, [a, b], f, r, 8, fun _ v =>
      (if (v 0).isNan ∨ (v 1).isNan then FVal.nan else if (v 0).lt (v 1) then v 1 else v 0).x)
  | .vecfExp2 h d a f r => some (h, d, [a], f, r, 16, fun _ v => (v 0).exp2)
  | .vecfRcp h d a f r => some (h, d, [a], f, r, 16, fun _ v => (v 0).rcp)
  | .vecfRsqrt h d a f r => some (h, d, [a], f, r, 16, fun _ v => (v 0).rsqrt)
  | .vecfScale h d a b f r => some (h, d, [a, b], f, r, 8, fun _ v => ((v 0).scale (v 1)).x)
  | _ => none

/-- A reduction of integer lanes to one value (R184). -/
def intRed : Instr → Option (Hdr × NameRef × NameRef × LaneW × Rnd × (List Int → Int))
  | .vredSum h d a w _ fl r => if fl then none else some (h, d, a, w, r, List.sum)
  | .vredMax h d a w _ fl r => if fl then none else some (h, d, a, w, r, fun l => l.tail.foldl max (l.headD 0))
  | .vredMin h d a w _ fl r => if fl then none else some (h, d, a, w, r, fun l => l.tail.foldl min (l.headD 0))
  | .vredSumsq h d a w _ fl r => if fl then none else some (h, d, a, w, r, fun l => (l.map fun x => x * x).sum)
  | .vredArgmax h d a w _ fl r => if fl then none else some (h, d, a, w, r, fun l => (l.findIdx (· == l.tail.foldl max (l.headD 0)) : Int))
  | _ => none

/-- A reduction of floating lanes to one floating value (R184). -/
def fltRed : Instr → Option (Hdr × NameRef × NameRef × LaneF × Rnd × (RMode → List FVal → FVal))
  | .vredSum h d a _ f fl r => if fl then some (h, d, a, f, r, FVal.sum) else none
  | .vredMax h d a _ f fl r => if fl then some (h, d, a, f, r, fun _ l => l.tail.foldl FVal.maxOf (l.headD .nan)) else none
  | .vredMin h d a _ f fl r => if fl then some (h, d, a, f, r, fun _ l => l.tail.foldl FVal.minOf (l.headD .nan)) else none
  | .vredSumsq h d a _ f fl r => if fl then some (h, d, a, f, r, fun m l => FVal.sum m (l.map fun x => x.mul x)) else none
  | _ => none

/-- A lane move of integer lanes: header, `d`, `a`, `b`, lane widths of `a` and `d`, whether `b` is read as lanes, and the index of a's lane
for a position (R185). -/
def laneMove : Instr → Option (Hdr × NameRef × NameRef × NameRef × Nat × Nat × Bool × (Src → Nat → Int))
  | .vmovBcast h d a b w => some (h, d, a, b, laneBits w, laneBits w, false, fun y _ => y.val)
  | .vmovPerm h d a b w => some (h, d, a, b, laneBits w, laneBits w, true, fun y j => pick 0 (y.lanes (laneBits w)) j)
  | .vmovUnpack h d a b w => if w = .l8 then none else some (h, d, a, b, laneBits w / 2, laneBits w, false, fun y j => y.val + j)
  | _ => none

/-- A floating conversion between lanes that a single rounding covers (R190): header, `d`, `a`, the lanes a source gives, the lane count of
`a`, format, rounding. -/
def laneConv (s : State) : Instr → Option (Hdr × NameRef × NameRef × Nat × (Src → List FVal) × LaneF × Rnd)
  | .cvtItof h d a w f r => some (h, d, a, ilaneCount (s.ent a) (laneBits w), fun x => (x.lanes (laneBits w)).map FVal.int, f, r)
  | .cvtFconv h d a g f r => some (h, d, a, flaneCount (s.ent a) (laneFF g), fun x => x.flanes (laneFF g), f, r)
  | _ => none

/-- The course of an instruction that reads its sources and runs for `lat` cycles before it writes (R87, R102): where it writes now, it completes as
its write leaves it; where not, its thread is out of the rotation with the latency running. -/
def Timed (s : State) (i : Instr) (h : Hdr) (lat : Nat) (m : M State) : Prop :=
  (s.writesNow lat = true → ∀ t, m = .ok t → exec i s = .next (t.done h)) ∧ (s.writesNow lat = false → exec i s = .next (s.running i lat))

/-- Whether an integer lies outside a value set in mode `trap`. -/
def laneTraps (e : NameEnt) (w : Nat) (x : Int) : Prop := inRange e.kind w x = false ∧ e.mode = .trap

end Sys2Proof.Claims

/-- Integer lanes (R178, R179): a source's lanes are its slices, lowest first, by its kind; a result's lanes are each written by R69 at the lane
width, a `sint` lane in two's complement, and the lowest lane that traps gives WIDTH with its number and value. -/
def Sys2Proof.Claims.LaneValues : Prop :=
  (∀ (x : Src) (w : Nat), x.lanes w = (List.range (min (x.ent.width / w) (512 / w))).map fun i =>
    if x.ent.kind = .sint then signedOf w (x.pat / 2 ^ (w * i) % 2 ^ w) else ((x.pat / 2 ^ (w * i) % 2 ^ w : Nat) : Int)) ∧
  (∀ (s0 s : State) (i : Instr) (n : BitVec 9) (w : Nat) (xs : List Int), (∀ x ∈ xs, ¬ laneTraps (s.ent (.cat n)) w x) →
    s0.writeLanes i (.cat n) w xs s = .ok (s.putName n (BitVec.ofNat 528 (packLanes w (xs.map fun x =>
      wrapNat w ((r69 (s.ent (.cat n)).kind w (s.ent (.cat n)).mode x).getD 0)) % 2 ^ (s.ent (.cat n)).width)))) ∧
  (∀ (s0 s : State) (i : Instr) (n : BitVec 9) (w j : Nat) (xs : List Int) (x : Int), xs[j]? = some x → laneTraps (s.ent (.cat n)) w x →
    (∀ k y, k < j → xs[k]? = some y → ¬ laneTraps (s.ent (.cat n)) w y) →
    s0.writeLanes i (.cat n) w xs s = .error (s0.takeTrap s0.cur .width s0.me.pc (reasonVal j x)))

/-- Integer lane instructions (R179, R182): each lane of `d` is the exact result of the sources' lanes, a source of one lane serving every lane. -/
def Sys2Proof.Claims.IntegerLanes : Prop :=
  ∀ (s : State) (i : Instr) (h : Hdr) (d : NameRef) (fs : List NameRef) (w : LaneW) (f : (Nat → Int) → Int),
    intLane i = some (h, d, fs, w, f) → Passes s i h fs [d] → ilaneCount (s.ent d) (laneBits w) ≠ 0 →
    (∀ n ∈ fs, ilaneCount (s.ent n) (laneBits w) = ilaneCount (s.ent d) (laneBits w) ∨ ilaneCount (s.ent n) (laneBits w) = 1) →
    ∀ xs s1 t, s.readAll i h fs s = .ok (xs, s1) →
      s.writeLanes i d (laneBits w) ((List.range (ilaneCount (s.ent d) (laneBits w))).map fun j =>
        f fun k => pick 0 ((xs.map fun x => x.lanes (laneBits w)).getD k []) j) s1 = .ok t →
      exec i s = .next (t.done h)

/-- Integer lanes and the instructions on them (R178, R179, R182). -/
def Obligations.IntegerLaneInstructions : Prop := Claims.LaneValues ∧ Claims.IntegerLanes

/-- Floating lane instructions (R179, R181, R183): each lane's exact result is rounded once into `d`'s format, with a draw for each lane under `rst`,
and is written after 8 cycles, or 16 for `exp2`, `rcp` and `rsqrt`. Where it rests on the model's own choices: logs 8, 10. -/
def Obligations.FloatLanes : Prop :=
  ∀ (s : State) (i : Instr) (h : Hdr) (d : NameRef) (fs : List NameRef) (g : LaneF) (r : Rnd) (lat : Nat)
    (f : RMode → (Nat → FVal) → XVal), fltLane i = some (h, d, fs, g, r, lat, f) → Passes s i h fs [d] →
    flaneCount (s.ent d) (laneFF g) ≠ 0 →
    (∀ n ∈ fs, flaneCount (s.ent n) (laneFF g) = flaneCount (s.ent d) (laneFF g) ∨ flaneCount (s.ent n) (laneFF g) = 1) →
    ∀ xs s1, s.readAll i h fs s = .ok (xs, s1) →
      Timed s i h lat (s.writeFlanes i d (laneFF g) r .each ((List.range (flaneCount (s.ent d) (laneFF g))).map fun j =>
        f (rmodeOf r (s.ent d)) fun k => pick .nan ((xs.map fun x => x.flanes (laneFF g)).getD k []) j) s1)

/-- Reductions (R69, R184): the exact result over a's lanes, written once under the instruction's rounding; `argmax` gives the lowest index of a largest lane, of a NaN where there is
one; `scan` writes every prefix sum after 12 cycles (R181). -/
def Obligations.Reductions : Prop :=
  (∀ (s : State) (i : Instr) (h : Hdr) (d a : NameRef) (w : LaneW) (r : Rnd) (f : List Int → Int), intRed i = some (h, d, a, w, r, f) →
    Passes s i h [a] [d] → ilaneCount (s.ent a) (laneBits w) ≠ 0 → s.oneDst d = true →
    ∀ x s1 t, s.read i h a s = .ok (x, s1) → s.writeRnd i d r (f (x.lanes (laneBits w))) s1 = .ok t → exec i s = .next (t.done h)) ∧
  (∀ (s : State) (i : Instr) (h : Hdr) (d a : NameRef) (g : LaneF) (r : Rnd) (f : RMode → List FVal → FVal),
    fltRed i = some (h, d, a, g, r, f) → Passes s i h [a] [d] → flaneCount (s.ent a) (laneFF g) ≠ 0 → flaneCount (s.ent d) (laneFF g) ≠ 0 →
    s.oneDst d = true → ∀ x s1 t, s.read i h a s = .ok (x, s1) →
      s.writeFlanes i d (laneFF g) r .usual [(f (rmodeOf r (s.ent d)) (x.flanes (laneFF g))).x] s1 = .ok t → exec i s = .next (t.done h)) ∧
  (∀ (s : State) (h : Hdr) (d a : NameRef) (w : LaneW) (g : LaneF) (r : Rnd), Passes s (.vredArgmax h d a w g true r) h [a] [d] →
    flaneCount (s.ent a) (laneFF g) ≠ 0 → s.oneDst d = true → ∀ x s1 t, s.read (.vredArgmax h d a w g true r) h a s = .ok (x, s1) →
      s.writeRnd (.vredArgmax h d a w g true r) d r (fArgmax (x.flanes (laneFF g))) s1 = .ok t →
      exec (.vredArgmax h d a w g true r) s = .next (t.done h)) ∧
  (∀ (s : State) (h : Hdr) (d a : NameRef) (w : LaneW) (g : LaneF) (r : Rnd), Passes s (.vredScan h d a w g false r) h [a] [d] →
    ilaneCount (s.ent a) (laneBits w) ≠ 0 → ilaneCount (s.ent d) (laneBits w) = ilaneCount (s.ent a) (laneBits w) →
    ∀ x s1, s.read (.vredScan h d a w g false r) h a s = .ok (x, s1) →
      Timed s (.vredScan h d a w g false r) h 12 (s.writeLanes (.vredScan h d a w g false r) d (laneBits w)
        ((List.range (ilaneCount (s.ent a) (laneBits w))).map fun j => ((x.lanes (laneBits w)).take (j + 1)).sum) s1)) ∧
  (∀ (s : State) (h : Hdr) (d a : NameRef) (w : LaneW) (g : LaneF) (r : Rnd), Passes s (.vredScan h d a w g true r) h [a] [d] →
    flaneCount (s.ent a) (laneFF g) ≠ 0 → flaneCount (s.ent d) (laneFF g) = flaneCount (s.ent a) (laneFF g) →
    ∀ x s1, s.read (.vredScan h d a w g true r) h a s = .ok (x, s1) →
      Timed s (.vredScan h d a w g true r) h 12 (s.writeFlanes (.vredScan h d a w g true r) d (laneFF g) r .usual
        ((List.range (flaneCount (s.ent a) (laneFF g))).map fun j =>
          (FVal.sum (rmodeOf r (s.ent d)) ((x.flanes (laneFF g)).take (j + 1))).x) s1))

/-- Lane moves (R185, R186): a pattern copied between names; lanes of `a` picked by index, 0 outside; two sources' lanes narrowed into one name; a
name's words sent to a neighbour, all of them or none; and as many words as `d` needs taken from a port. -/
def Obligations.LaneMoves : Prop :=
  (∀ (s : State) (h : Hdr) (n m : BitVec 9), Passes s (.vmovMov h (.cat n) (.cat m)) h [.cat m] [.cat n] → (∀ w, s.me.wait = some w → w.src = none) →
    exec (.vmovMov h (.cat n) (.cat m)) s =
      .next ((s.putName n (BitVec.ofNat 528 ((s.me.name m.toNat).toNat % 2 ^ (s.ent (.cat n)).width))).done h)) ∧
  (∀ (s : State) (i : Instr) (h : Hdr) (d a b : NameRef) (la w : Nat) (lanes : Bool) (ix : Src → Nat → Int),
    laneMove i = some (h, d, a, b, la, w, lanes, ix) → Passes s i h [a, b] [d] → ilaneCount (s.ent d) w ≠ 0 → ilaneCount (s.ent a) la ≠ 0 →
    (lanes = true → ilaneCount (s.ent b) w = ilaneCount (s.ent d) w ∨ ilaneCount (s.ent b) w = 1) →
    ∀ x s1 y s2 t, s.read i h a s = .ok (x, s1) → s.read i h b s1 = .ok (y, s2) →
      s.writeLanes i d w ((List.range (ilaneCount (s.ent d) w)).map fun j =>
        if 0 ≤ ix y j ∧ ix y j < (x.lanes la).length then (x.lanes la).getD (ix y j).toNat 0 else 0) s2 = .ok t →
      exec i s = .next (t.done h)) ∧
  (∀ (s : State) (h : Hdr) (d a b : NameRef) (w : LaneW), w ≠ .l8 → Passes s (.vmovPack h d a b w) h [a, b] [d] →
    ilaneCount (s.ent d) (laneBits w / 2) ≠ 0 → ilaneCount (s.ent a) (laneBits w) ≠ 0 → ilaneCount (s.ent b) (laneBits w) ≠ 0 →
    b ≠ .fixed .zero →
    ilaneCount (s.ent a) (laneBits w) + ilaneCount (s.ent b) (laneBits w) ≤ ilaneCount (s.ent d) (laneBits w / 2) →
    ∀ x s1 y s2 t, s.read (.vmovPack h d a b w) h a s = .ok (x, s1) → s.read (.vmovPack h d a b w) h b s1 = .ok (y, s2) →
      s.writeLanes (.vmovPack h d a b w) d (laneBits w / 2) ((List.range (ilaneCount (s.ent d) (laneBits w / 2))).map fun j =>
        (x.lanes (laneBits w) ++ y.lanes (laneBits w)).getD j 0) s2 = .ok t →
      exec (.vmovPack h d a b w) s = .next (t.done h)) ∧
  (∀ (s : State) (h : Hdr) (f : FixedName) (dir : Dir) (m : BitVec 9), portDir (.fixed f) = some dir →
    Passes s (.vmovSend h (.fixed f) (.cat m)) h [.cat m] [.fixed f] → s.neighbourIn dir = true →
    (s.outbound dir).length + ((s.ent (.cat m)).width + 63) / 64 ≤ 16 → (∀ w, s.me.wait = some w → w.src = none) →
    exec (.vmovSend h (.fixed f) (.cat m)) s = .next ((s.pushOut dir ((List.range (((s.ent (.cat m)).width + 63) / 64)).map fun j =>
      n64 ((s.me.name m.toNat).toNat / 2 ^ (64 * j)))).done h)) ∧
  (∀ (s : State) (h : Hdr) (n : BitVec 9) (f : FixedName) (dir : Dir), portDir (.fixed f) = some dir →
    Passes s (.vmovRecv h (.cat n) (.fixed f)) h [] [.fixed f, .cat n] → ((s.ent (.cat n)).width + 63) / 64 ≤ (s.inbound dir).length →
    s.myCore.portAhead s.cur.h s.mySeq (.fixed f) = false →
    ∃ t, exec (.vmovRecv h (.cat n) (.fixed f)) s = .next (t.done h) ∧
      t = (s.setInbound dir ((s.inbound dir).drop (((s.ent (.cat n)).width + 63) / 64))).putName n
        (BitVec.ofNat 528 (ofWords ((s.inbound dir).take (((s.ent (.cat n)).width + 63) / 64)) % 2 ^ (s.ent (.cat n)).width)))

/-- Check accumulators (R208, R209): `chk.acc` adds or takes away the sum of a's lanes, modulo 2^w; `chk.test` goes on where the two values are
equal and otherwise counts the event and raises CHECK with TVAL the two name numbers; `chk.clr` makes 0. -/
def Obligations.Checks : Prop :=
  ∀ (s : State) (h : Hdr),
    (∀ n a w ng x s1, Passes s (.chkAcc h (.cat n) a w ng) h [a, .cat n] [] → s.chkDst (.cat n) = true →
      s.read (.chkAcc h (.cat n) a w ng) h a s = .ok (x, s1) → ∀ y s2, s.read (.chkAcc h (.cat n) a w ng) h (.cat n) s1 = .ok (y, s2) →
      exec (.chkAcc h (.cat n) a w ng) s = .next ((s2.putName n (BitVec.ofNat 528 (wrapNat y.ent.width
        (if ng then y.val - foldSum x (laneBits w) else y.val + foldSum x (laneBits w)) % 2 ^ (s2.ent (.cat n)).width))).done h)) ∧
    (∀ a b x s1 y s2, Passes s (.chkTest h a b) h [a, b] [] → s.read (.chkTest h a b) h a s = .ok (x, s1) →
      s.read (.chkTest h a b) h b s1 = .ok (y, s2) →
      (x.val = y.val → exec (.chkTest h a b) s = .next (s2.done h)) ∧
      (x.val ≠ y.val → exec (.chkTest h a b) s =
        .next ((s.count s.cur.coreRef 0x26).takeTrap s.cur .check s.me.pc (n64 (nameNumber a * 2 ^ 16 + nameNumber b))))) ∧
    (∀ n, Passes s (.chkClr h (.cat n)) h [] [.cat n] → s.chkDst (.cat n) = true →
      exec (.chkClr h (.cat n)) s = .next ((s.putName n 0).done h))

namespace Sys2Proof.Claims

/-- The elements that `cvt.quant` rounds into a name (R137, R188): `c` its third source and `cv` its value, `sup` whether the scale is supplied. -/
def quantMask (e : NameEnt) (c : NameRef) (cv : Nat) (sup : Bool) (vs : List FVal) : List Bool :=
  match e.kind with
  | .g8 => maskG8 (if sup then some (cv % 256) else none) (vs.map FVal.x)
  | .g4 => maskG4 (bandOf c cv) (if sup then some (cv / 2 ^ 16) else none) (vs.map FVal.x)
  | _ => maskChan (if sup then some (cv % 256, cv / 256 % 256) else none) vs
/-- The pattern that `cvt.quant` writes, and what it counts (R140, R141, R188). -/
def quantRes (e : NameEnt) (c : NameRef) (cv : Nat) (sup : Bool) (md : RMode) (ds : List Nat) (vs : List FVal) : Nat × QCount :=
  match e.kind with
  | .g8 => quantG8 e.elem md ds (if sup then some (cv % 256) else none) (vs.map FVal.x)
  | .g4 => quantG4 md ds (bandOf c cv) (if sup then some (cv / 2 ^ 16) else none) (vs.map FVal.x)
  | k =>
    let q := quantChan (k == Kind.sint) md ds (if sup then some (cv % 256, cv / 256 % 256) else none) vs
    (chanPat q.1 q.2.1 q.2.2.1, q.2.2.2)
/-- The elements that `cvt.scale` rounds (R137, R191). -/
def scaleMask (e : NameEnt) (bv p : Nat) : List Bool :=
  if e.kind = .g8 then (g8Vals e.elem p).map fun v => bv % 256 != 255 && !v.isNan
  else maskG4 (.fin false 1 0) (some bv) ((g4Vals (.fin false 1 0) p).map FVal.x)
/-- The pattern that `cvt.scale` writes, and what it counts (R191). -/
def scaleRes (e : NameEnt) (bv p : Nat) (md : RMode) (ds : List Nat) : Nat × QCount :=
  let r := if e.kind = .g8 then rescaleG8 e.elem md ds (bv % 256) p else quantG4 md ds (.fin false 1 0) (some bv) ((g4Vals (.fin false 1 0) p).map FVal.x)
  (r.1, { r.2 with zr := 0 })

end Sys2Proof.Claims

/-- Conversions of lanes (R190): each lane of `a`, or its one lane for all, is rounded once into `d`; `ftoi` rounds to an integer, a NaN
written as 0 and counted where the mode does not trap; `round` gives the integral value nearest by the rounding. -/
def Sys2Proof.Claims.LaneConversions : Prop :=
  (∀ (s : State) (i : Instr) (h : Hdr) (d a : NameRef) (na : Nat) (vs : Src → List FVal) (f : LaneF) (r : Rnd),
    laneConv s i = some (h, d, a, na, vs, f, r) → Passes s i h [a] [d] → flaneCount (s.ent d) (laneFF f) ≠ 0 →
    (na = flaneCount (s.ent d) (laneFF f) ∨ na = 1) →
    ∀ x s1 t, s.read i h a s = .ok (x, s1) → (vs x).length = na →
      s.writeFlanes i d (laneFF f) r .plain ((List.range (flaneCount (s.ent d) (laneFF f))).map fun j => (pick .nan (vs x) j).x) s1 = .ok t →
      exec i s = .next (t.done h)) ∧
  (∀ (s : State) (h : Hdr) (n : BitVec 9) (a : NameRef) (g : LaneF) (w : LaneW) (r : Rnd),
    Passes s (.cvtFtoi h (.cat n) a g w r) h [a] [.cat n] → ilaneCount (s.ent (.cat n)) (laneBits w) = 1 → flaneCount (s.ent a) (laneFF g) = 1 →
    ∀ x s1 v ds s2, s.read (.cvtFtoi h (.cat n) a g w r) h a s = .ok (x, s1) → x.flanes (laneFF g) = [v] →
      s.draws (if rmodeOf r (s.ent (.cat n)) = .rst then 1 else 0) s1 = .ok (ds, s2) → s2.ent (.cat n) = s.ent (.cat n) →
      (∀ y, v ≠ .nan → (∀ n, v ≠ .inf n) →
        r69 (s.ent (.cat n)).kind (laneBits w) (s.ent (.cat n)).mode
          ((v.x.toInt (rmodeOf r (s.ent (.cat n))) (ds.headD 0 % 2 ^ 24)).getD 0) = some y →
        ∃ t, exec (.cvtFtoi h (.cat n) a g w r) s = .next t ∧
          t.mem = s2.mem ∧ t.me.name n.toNat = BitVec.ofNat 528 (wrapNat (laneBits w) y % 2 ^ (s.ent (.cat n)).width)) ∧
      (v = .nan → (s.ent (.cat n)).mode = .trap →
        exec (.cvtFtoi h (.cat n) a g w r) s = .next (s.takeTrap s.cur .width s.me.pc 0x7FC0_0000)) ∧
      (v = .nan → (s.ent (.cat n)).mode ≠ .trap →
        exec (.cvtFtoi h (.cat n) a g w r) s =
          .next (((s2.putName n 0).countQ s2.cur.coreRef { QCount.zero with nan := 1 } 0xFFFF_FFFF).done h)) ∧
      (∀ ng, v = .inf ng → (s.ent (.cat n)).mode ≠ .trap → ∃ t, exec (.cvtFtoi h (.cat n) a g w r) s = .next t ∧ t.mem = s2.mem ∧
        t.me.name n.toNat = BitVec.ofNat 528 (wrapNat (laneBits w)
          (if ng then kindLo (s.ent (.cat n)).kind (laneBits w) else kindHi (s.ent (.cat n)).kind (laneBits w)) % 2 ^ (s.ent (.cat n)).width))) ∧
  (∀ (s : State) (h : Hdr) (d a : NameRef) (f : LaneF) (r : Rnd), Passes s (.cvtRound h d a f r) h [a] [d] →
    flaneCount (s.ent d) (laneFF f) ≠ 0 →
    (flaneCount (s.ent a) (laneFF f) = flaneCount (s.ent d) (laneFF f) ∨ flaneCount (s.ent a) (laneFF f) = 1) →
    rmodeOf r (s.ent d) ≠ .rst →
    ∀ x s1 t, s.read (.cvtRound h d a f r) h a s = .ok (x, s1) →
      s.writeFlanes (.cvtRound h d a f r) d (laneFF f) r .plain ((List.range (flaneCount (s.ent d) (laneFF f))).map fun j =>
        ((pick .nan (x.flanes (laneFF f)) j).integral (rmodeOf r (s.ent d)) 0).x) s1 = .ok t →
      exec (.cvtRound h d a f r) s = .next (t.done h))

/-- Quantised granules and channels (R140, R141, R145, R188, R189, R191): `quant`, `dequant` and `scale` go between values and a granule (`quant` and
`dequant` a channel too), the scale derived or supplied; what clips, flushes or is NaN is counted, and a threshold crossed raises QSCALE with the counts kept and nothing written. -/
def Sys2Proof.Claims.QuantisedGranules : Prop :=
  (∀ (s : State) (h : Hdr) (n : BitVec 9) (a b c : NameRef) (f : LaneF) (sup : Bool) (r : Rnd) (vs : List FVal),
    Passes s (.cvtQuant h (.cat n) a b c f sup r) h [a, b, c] [.cat n] → flaneCount (s.ent a) (laneFF f) ≠ 0 →
    (b = .fixed .zero ∨ flaneCount (s.ent b) (laneFF f) ≠ 0) →
    quantFits (s.ent (.cat n)) (flaneCount (s.ent a) (laneFF f) + if b = .fixed .zero then 0 else flaneCount (s.ent b) (laneFF f)) = true →
    ∀ x s1 y s2 z s3 ds s4 q, s.read (.cvtQuant h (.cat n) a b c f sup r) h a s = .ok (x, s1) →
      s.read (.cvtQuant h (.cat n) a b c f sup r) h b s1 = .ok (y, s2) → s.read (.cvtQuant h (.cat n) a b c f sup r) h c s2 = .ok (z, s3) →
      vs = x.flanes (laneFF f) ++ (if b = .fixed .zero then [] else y.flanes (laneFF f)) →
      s.drawsFor (rmodeOf r (s.ent (.cat n))) (quantMask (s.ent (.cat n)) c (wrapNat 528 z.val) sup vs) s3 = .ok (ds, s4) →
      q = quantRes (s.ent (.cat n)) c (wrapNat 528 z.val) sup (rmodeOf r (s.ent (.cat n))) ds vs →
      (q.2.trips s.myCore.cqthresh = false → exec (.cvtQuant h (.cat n) a b c f sup r) s =
        .next (((s4.countQ s4.cur.coreRef q.2 s.myCore.cqthresh).putName n (BitVec.ofNat 528 (q.1 % 2 ^ (s4.ent (.cat n)).width))).done h)) ∧
      (q.2.trips s.myCore.cqthresh = true → exec (.cvtQuant h (.cat n) a b c f sup r) s =
        .next ((s.countQ s.cur.coreRef q.2 s.myCore.cqthresh).takeTrap s.cur .qscale s.me.pc q.2.tval))) ∧
  (∀ (s : State) (h : Hdr) (d a c : NameRef) (f : LaneF) (p : BitVec 2) (r : Rnd) (us : List FVal),
    Passes s (.cvtDequant h d a c f p r) h [a, c] [d] → flaneCount (s.ent d) (laneFF f) ≠ 0 →
    (p.toNat + 1) * flaneCount (s.ent d) (laneFF f) ≤ dequantCount a (s.ent a) →
    ∀ x s1 z s2 t, s.read (.cvtDequant h d a c f p r) h a s = .ok (x, s1) → s.read (.cvtDequant h d a c f p r) h c s1 = .ok (z, s2) →
      us = (match x.ent.kind with
        | .g8 => g8Vals x.ent.elem x.pat
        | .g4 => g4Vals (bandOf c (wrapNat 528 z.val)) x.pat
        | k => chanVals (k == Kind.sint) x.pat) →
      s.writeFlanes (.cvtDequant h d a c f p r) d (laneFF f) r .usual ((List.range (flaneCount (s.ent d) (laneFF f))).map fun j =>
        (us.getD (p.toNat * flaneCount (s.ent d) (laneFF f) + j) .nan).x) s2 = .ok t →
      exec (.cvtDequant h d a c f p r) s = .next (t.done h)) ∧
  (∀ (s : State) (h : Hdr) (n m : BitVec 9) (b : NameRef) (r : Rnd), Passes s (.cvtScale h (.cat n) (.cat m) b r) h [.cat m, b] [.cat n] →
    (s.ent (.cat n)).kind.isGran = true → (s.ent (.cat n)).kind = (s.ent (.cat m)).kind → (s.ent (.cat n)).elem = (s.ent (.cat m)).elem →
    ∀ x s0 y s1 ds s2 q, s.read (.cvtScale h (.cat n) (.cat m) b r) h (.cat m) s = .ok (x, s0) → s.read (.cvtScale h (.cat n) (.cat m) b r) h b s0 = .ok (y, s1) →
      s.drawsFor (rmodeOf r (s.ent (.cat n))) (scaleMask (s.ent (.cat n)) (wrapNat 528 y.val) x.pat) s1 = .ok (ds, s2) →
      q = scaleRes (s.ent (.cat n)) (wrapNat 528 y.val) x.pat (rmodeOf r (s.ent (.cat n))) ds →
      (q.2.trips s.myCore.cqthresh = false → exec (.cvtScale h (.cat n) (.cat m) b r) s =
        .next (((s2.countQ s2.cur.coreRef q.2 s.myCore.cqthresh).putName n (BitVec.ofNat 528 (q.1 % 2 ^ (s2.ent (.cat n)).width))).done h)) ∧
      (q.2.trips s.myCore.cqthresh = true → exec (.cvtScale h (.cat n) (.cat m) b r) s =
        .next ((s.countQ s.cur.coreRef q.2 s.myCore.cqthresh).takeTrap s.cur .qscale s.me.pc q.2.tval)))

/-- Conversions of lanes, of quantised granules and of channels (R140, R141, R145, R187 to R191). Where it rests on the model's own choices: logs 7, 8, 14, 15,
112, 114, 125, 132. -/
def Obligations.Conversions : Prop := Claims.LaneConversions ∧ Claims.QuantisedGranules

namespace Sys2Proof.Claims

/-- The `n` weights from a key, of two bytes in BF16 or of four in FP32 (R328). -/
def weightsAt (s : State) (k n el : Nat) : List FVal :=
  (List.range n).map fun j => (if el = 2 then FF.b16 else FF.f32).value (s.natAt (k + el * j) el)
/-- A weight that counts as 0 (R328): a NaN, an infinity, or less than 0. -/
def badWeight (v : FVal) : Bool := !v.isFin || (v.neg? && !v.isZero)
/-- Weights as whole numbers of one unit, bad ones as 0. -/
def weightUnits (l : List FVal) : List Nat :=
  let ws := l.map fun v => if badWeight v then FVal.fin false 0 0 else v
  ws.map fun v => (v.units (ws.foldl (fun m v => min m v.exp) 0)).toNat
/-- What a draw picks (R328): the smallest index with 2^32 times the weights up to it above the draw times them all. -/
def Picks (us : List Nat) (r j : Nat) : Prop :=
  j < us.length ∧ r * us.sum < 2 ^ 32 * (us.take (j + 1)).sum ∧ ∀ k, k < j → 2 ^ 32 * (us.take (k + 1)).sum ≤ r * us.sum

end Sys2Proof.Claims

/-- The random stream (R307, R308, R326, R327): `seed` sets key and position and restarts the index; `rand` takes one draw, as it is or scaled
below a bound; `pos` moves to the next position, and at the last one raises RNG. -/
def Sys2Proof.Claims.RandomStream : Prop :=
  ∀ (s : State) (h : Hdr),
    (∀ a b x s1 y s2, Passes s (.smpSeed h a b) h [a, b] [] → s.read (.smpSeed h a b) h a s = .ok (x, s1) →
      s.read (.smpSeed h a b) h b s1 = .ok (y, s2) →
      (0 ≤ y.val ∧ y.val < 2 ^ 40 → exec (.smpSeed h a b) s =
        .next ((s2.setMe { s2.me with rkey := BitVec.ofInt 64 x.val, rpos := BitVec.ofInt 40 y.val, ridx := 0 }).done h)) ∧
      (y.val < 0 ∨ 2 ^ 40 ≤ y.val → exec (.smpSeed h a b) s = .next (s.takeTrap s.cur .rng s.me.pc (reasonVal 3 y.val)))) ∧
    (∀ n ds s1, Passes s (.smpRand h (.cat n) (.fixed .zero)) h [.fixed .zero] [.cat n] → s.intDst (.cat n) = true →
      s.draws 1 s = .ok (ds, s1) →
      exec (.smpRand h (.cat n) (.fixed .zero)) s =
        .next ((s1.putName n (BitVec.ofNat 528 (ds.headD 0 % 2 ^ (s1.ent (.cat n)).width))).done h)) ∧
    (∀ d a x s1 ds s2 t, Passes s (.smpRand h d a) h [a] [d] → s.intDst d = true → a ≠ .fixed .zero →
      s.read (.smpRand h d a) h a s = .ok (x, s1) → s.draws 1 s1 = .ok (ds, s2) → 1 ≤ x.val → x.val < 2 ^ 64 →
      s.writeInt (.smpRand h d a) d ((ds.headD 0 * x.val.toNat / 2 ^ 64 : Nat) : Int) s2 = .ok t →
      exec (.smpRand h d a) s = .next (t.done h)) ∧
    (∀ d t, Passes s (.smpPos h d) h [] [d] → s.oneDst d = true →
      (s.me.rpos.toNat < 2 ^ 40 - 1 → s.writeOne (.smpPos h d) d ((s.me.rpos.toNat + 1 : Nat) : Int) s = .ok t →
        exec (.smpPos h d) s = .next ((t.setMe { t.me with rpos := BitVec.ofNat 40 (s.me.rpos.toNat + 1), ridx := 0 }).done h)) ∧
      (s.me.rpos.toNat = 2 ^ 40 - 1 → exec (.smpPos h d) s = .next (s.takeTrap s.cur .rng s.me.pc (reasonVal 2 (2 ^ 40 - 1)))))

/-- The sampler (R87, R310, R328, R329): `smp.stop` writes the stop identifiers of a request slot; `smp.draw` runs for 8 + the beats of its vector, and
then picks the first token whose weights up to it, times 2^32, exceed the draw times them all, a bad weight counting as 0; weights that are all 0 give
code 4 with the token all ones; a descriptor with a count of 0 raises RNG. -/
def Sys2Proof.Claims.Sampler : Prop :=
  (∀ (s : State) (h : Hdr) (a b : NameRef), Passes s (.smpStop h a b) h [a, b] [] → 32 ≤ (s.ent b).width →
    ∀ x s1 y s2 blk, s.read (.smpStop h a b) h a s = .ok (x, s1) → s.read (.smpStop h a b) h b s1 = .ok (y, s2) → s2.myBlock = some blk →
      0 ≤ x.val → x.val ≤ 15 → s2.myCore.slotAhead s2.cur.h s.mySeq (slotCode true x.val) = false →
      s2.boardAny s2.cur.tile (slotAt blk x.val.toNat) 128 = false →
      s2.poisoned (localKey s2.cur.tile (slotAt blk x.val.toNat)) 128 = false →
      exec (.smpStop h a b) s = .next ((s2.putStops s2.cur.tile (slotAt blk x.val.toNat)
        (((List.range (min (y.ent.width / 32) 16)).map fun j => laneAt y.pat 32 j).takeWhile (· != 0xFFFF_FFFF))).done h)) ∧
  (∀ (s : State) (h : Hdr) (d a b : NameRef), Passes s (.smpDraw h d a b) h [a, b] [d] →
    ((s.ent d).kind = .uint ∨ (s.ent d).kind = .raw) → 35 ≤ (s.ent d).width →
    ∀ x s1 y s2, s.read (.smpDraw h d a b) h a s = .ok (x, s1) → s.read (.smpDraw h d a b) h b s1 = .ok (y, s2) →
      (∀ l n bf el k us nb ds s3, x.val = ((l + 2 ^ 35 * n + 2 ^ 53 * bf : Nat) : Int) → 1 ≤ n → n < 2 ^ 18 → bf < 2 → el = (if bf = 1 then 2 else 4) →
        l % 8 = 0 → l + el * n ≤ 2 ^ 19 → 0 ≤ y.val → y.val + n ≤ 2 ^ 32 → s2.boardW s2.cur.tile l (el * n) = false →
        (s.ranOut = false → exec (.smpDraw h d a b) s = .next ((s.running (.smpDraw h d a b) (8 + (n * el + 63) / 64)).keepVal 0)) ∧
        (s.ranOut = true → k = localKey s2.cur.tile l → s2.poisoned k (el * n) = false → us = weightUnits (weightsAt s2 k n el) →
          nb = ((weightsAt s2 k n el).filter badWeight).length →
          (s.countN s.cur.coreRef 0x29 nb).draws 1 ((s2.countN s2.cur.coreRef 0x29 nb).found s2.cur 0 s2.myKernel.ctx k (el * n)) = .ok (ds, s3) →
          (∀ t, us.sum = 0 → s.writeDrawn (s.countN s.cur.coreRef 0x29 nb) (.smpDraw h d a b) d 0x4_FFFF_FFFF s3 = .ok t →
            exec (.smpDraw h d a b) s = .next (t.done h)) ∧
          (∀ j t, Picks us (ds.headD 0 / 2 ^ 32) j → s.writeDrawn (s.countN s.cur.coreRef 0x29 nb) (.smpDraw h d a b) d (y.val + j) s3 = .ok t →
            exec (.smpDraw h d a b) s = .next (t.done h)))) ∧
      (∀ l : Nat, x.val = (l : Int) → l < 2 ^ 35 →
        exec (.smpDraw h d a b) s = .next (s.takeTrap s.cur .rng s.me.pc (reasonVal 3 x.val))))

/-- The random stream and the sampler (R307, R308, R310, R326 to R329). Where it rests on the model's own choices: logs 17, 18, 129. -/
def Obligations.RandomAndSampler : Prop := Claims.RandomStream ∧ Claims.Sampler

/-- Vector groups (R204 to R206): a solo thread's `join` with a descriptor that the table admits waits for its group to form; the group forms in one
cycle when every follower waits, leader and followers going on behind their `join`; an attached follower's `join` does nothing and its `leave`
makes it solo and fetches anew (R123); a forwarded instruction reaches the follower's buffer, of eight entries, when its hops are over. Where it rests on the model's own choices: logs 28, 29. -/
def Obligations.VectorGroups : Prop :=
  (∀ (s : State) (h : Hdr) (a : NameRef) (x : Src) (s1 : State), s.me.vg = .solo → s.stage = none → Passes s (.vmovJoin h a) h [a] [] →
    s.read (.vmovJoin h a) h a s = .ok (x, s1) → joinDescOk x.val = true → s1.cur.core = 2 → x.val.toNat.testBit 6 = true →
    exec (.vmovJoin h a) s = .next (s.hold (.vmovJoin h a) (.retry 20 x.val.toNat) (some (reasonVal 4 s.me.pc)))) ∧
  (∀ (s : State) (h : Hdr) (a : NameRef), s.me.vg = .attached → Passes s (.vmovJoin h a) h [] [] →
    exec (.vmovJoin h a) s = .next (s.done h)) ∧
  (∀ (s : State) (h : Hdr), Passes s (.vmovLeave h) h [] [] →
    (s.me.vg = .solo → exec (.vmovLeave h) s = .next (s.done h)) ∧
    (s.me.vg = .attached → ∀ z, z = s.goTo (s.me.pc + 4 * h.form.words) → exec (.vmovLeave h) s = .next (z.setMe z.me.toSolo))) ∧
  (∀ (s : State) (t : ThreadRef) (w : WaitRec) (v : Nat) (fs : List ThreadRef), (s.thread t).wait = some w → w.why = .retry 20 v →
    (s.thread t).st = .waiting → (s.thread t).vg = .solo → v.testBit 6 = false → s.claimed t (v.testBit 7) (v % 32) = some fs →
    (∀ f ∈ fs, (s.thread f).st = .waiting ∧ (s.thread f).vg = .solo ∧
      ∃ u d, (s.thread f).wait = some u ∧ u.why = .retry 20 d ∧ d.testBit 6 = true ∧ d.testBit 7 = v.testBit 7) →
    ∃ z, exec (.vgForm t) s = .next z ∧ (z.thread t).vg = .leader ∧ (z.thread t).vgSize = v % 32 ∧ (z.thread t).st = .ready ∧ z.mem = s.mem ∧
      (∀ h a, w.instr = .vmovJoin h a → (z.thread t).pc = w.pc + 4 * h.form.words) ∧
      ∀ f ∈ fs, (z.thread f).vg = .attached ∧ (z.thread f).vgLeader = some t ∧ (z.thread f).st = .ready ∧
        ∀ u h a, (s.thread f).wait = some u → u.instr = .vmovJoin h a → (z.thread f).pc = u.pc + 4 * h.form.words) ∧
  (∀ (s : State) (t : ThreadRef) (f : Forward) (l : List Forward), (s.thread t).vgIn = f :: l → f.due ≤ s.cycle → (s.thread t).vgBuf.length < 8 →
    exec (.vgForward t) s = .next (s.setThread t { s.thread t with vgIn := l, vgBuf := (s.thread t).vgBuf ++ [f] }))

/-! ## Matrix array and engines (09 R163 to R171, R174 to R177, 10 R193 to R202, 14 R279 to R283, 16 R311) -/
namespace Sys2Proof.Claims

/-- An array instruction: header, sources, function (R193). -/
def mxCmd : Instr → Option (Hdr × List NameRef × Nat)
  | .mxCfg h a => some (h, [a], 0)
  | .mxLdstat h a => some (h, [a], 1)
  | .mxSwap h => some (h, [], 2)
  | .mxStream h a b => some (h, [a, b], 3)
  | .mxDrain h a b => some (h, [a, b], 4)
  | .mxClear h a => some (h, [a], 5)
  | _ => none

/-- An operand of an array instruction: its value, or the pattern of a name of another than an integer kind that `cfg` reads. -/
def mxVal (fn : Nat) (xs : List Src) (k : Nat) : Int :=
  ((xs[k]?).map fun x => if fn = 0 ∧ x.ent.kind.isInt = false then (x.pat : Int) else x.val).getD 0

/-- The thread that a command of the array belongs to. -/
def mxThread (tile : Nat) (q : MxCmd) : ThreadRef := ⟨tile, q.core, q.h⟩

/-- The head of a tile's array ends now, is an instruction's, and no soft error lies under what it reads. -/
def Ends (s : State) (tile : Nat) (q : MxCmd) : Prop :=
  (s.tile tile).mx.queue.head? = some q ∧ (∃ c, q.done = some c ∧ c ≤ s.cycle) ∧ (s.tile tile).mx.notice = none ∧ q.fo = none ∧
  (s.thread (mxThread tile q)).st = .waiting ∧ s.latent = []

/-- What an instruction of the array leaves when it has completed: it is out of the queue, its scoreboard entries are gone, and its
thread is ready. -/
def Ended (s t : State) (tile : Nat) (q : MxCmd) : Prop :=
  (t.tile tile).mx.queue = (s.tile tile).mx.queue.tail ∧ (t.thread (mxThread tile q)).st = .ready ∧
  ∀ e ∈ (t.tile tile).board, e.owner ≠ .mx q.core q.h

/-- The new accumulator at row m and column n of a stream on one tile, from the state before it (R128, R148): the old one and the row's contribution at the
column, summed exactly and written once, saturated. -/
def streamed (s : State) (tile : Nat) (q : MxCmd) (m n : Nat) : Nat :=
  let c := (s.tile tile).mx.cfg
  let p := (s.tile tile).mx.stat
  let row := s.actRow tile c q.a.toNat m
  let old := s.natAt (localKey tile (q.b.toNat + accRow c * m + 4 * n)) 4
  if cfgFmt c = 1 then wrapNat 32 (satInt .sint 32 (signedOf 32 old + contribI c p row n))
  else (accF (FVal.sum .rne [FF.f32.value old, contribF c p (rowValues c (bandScale (s.auxWord tile c / 2 ^ 16 % 2 ^ 16)) row) n])).1

/-- The element at row m and column n of a drain's output block, from the state before it (R129, R199): the accumulator and the column's word of the
drain block. -/
def drained (s : State) (tile : Nat) (q : MxCmd) (m n : Nat) : Nat :=
  let c := (s.tile tile).mx.cfg
  let ws := s.drainWords tile c q.b.toNat
  (drainElem c (ws.getD 1 0) (s.natAt (localKey tile (q.a.toNat + accRow c * m + 4 * n)) 4) (ws.getD (2 + n) 0)).1

/-- Every byte of memory but `n` bytes from a key reads as before. -/
def Others (s t : State) (k n : Nat) : Prop := ∀ j, j < k ∨ k + n ≤ j → memByte t.mem j = memByte s.mem j

end Sys2Proof.Claims

/-- Array instructions (R156, R170, R193, R202): on the arithmetic core the command joins the array's queue with its operands and its scoreboard
entries, and the thread waits for it; `cfg` and `swap` on an idle array begin at once; on another core they raise ACCESS. Where it rests on the model's own choices: logs 37, 128. -/
def Obligations.ArrayInstructions : Prop :=
  ∀ (s : State) (i : Instr) (h : Hdr) (fs : List NameRef) (fn : Nat), mxCmd i = some (h, fs, fn) → nameBreach s.myKernel h i fs [] = none →
    (s.cur.core ≠ 2 → exec i s = .next (s.takeTrap s.cur .access s.me.pc (instrVal i))) ∧
    (s.cur.core = 2 → s.waitOk h.wait = true → ∀ xs s1 es z, s.readAll i h fs s = .ok (xs, s1) →
      es = mxEntries s1.myTile.mx.cfg fn (mxVal fn xs 0) (mxVal fn xs 1) s1.myCore.crect (.mx s1.cur.core s1.cur.h) s1.cycle →
      s1.myTile.board.length + es.length ≤ 16 →
      z = s1.setMyTile { s1.myTile with board := s1.myTile.board ++ es, mx := { s1.myTile.mx with queue := s1.myTile.mx.queue ++
        [⟨fn, mxVal fn xs 0, mxVal fn xs 1, s1.cur.core, s1.cur.h, none, s1.myCore.crect, false, none, 0, none, none, none, false, none, 0, 0,
          false, []⟩] } } →
      exec i s = .next (
        let y := z.setMe { z.me with st := .waiting, wait := some { s.newWait i .reply with took := s.tookOf i } }
        if (fn = 0 ∨ fn = 2) ∧ s1.myTile.mx.queue = [] then y.mxBegin y.cur.tile else y))

/-- The end of an array command (R193 to R202): in its last cycle a command that may read its blocks has its effect and its thread goes on. `cfg`
and `swap` took effect when they began; `ldstat` fills the shadow plane; `stream` on one tile adds every row's contribution to its accumulators; `drain` writes
every element of its block, and ends or, in sampler mode, leaves its notice; `clear` makes the accumulators 0; no other byte changes. Memory has its
canonical form there (StepKeepsMemoryForm). -/
def Sys2Proof.Claims.ArrayCompletion : Prop :=
  ∀ (s : State) (tile : Nat) (q : MxCmd), Ends s tile q →
    (q.fn = 0 ∨ q.fn = 2 → ∃ t, exec (.mxCommandComplete tile) s = .next t ∧ Ended s t tile q ∧ t.mem = s.mem) ∧
    (q.fn = 1 → s.ldstatPoison tile (s.tile tile).mx.cfg q.a.toNat = none →
      ∃ t, exec (.mxCommandComplete tile) s = .next t ∧ Ended s t tile q ∧ t.mem = s.mem ∧ (t.tile tile).mx.shad.loaded = true ∧
        (t.tile tile).mx.stat = (s.tile tile).mx.stat) ∧
    (q.fn = 3 → inRect q.rect = false → s.streamPoison tile (s.tile tile).mx.cfg q = none →
      ∃ t, exec (.mxCommandComplete tile) s = .next t ∧ Ended s t tile q ∧
        (s.memOk → 0 ≤ q.b → overlaps q.a.toNat (actSize (s.tile tile).mx.cfg) q.b (accSize (s.tile tile).mx.cfg) = false →
          Others s t (localKey tile q.b.toNat) (accSize (s.tile tile).mx.cfg) ∧
          ∀ m n, m < cfgM (s.tile tile).mx.cfg → n < cfgN (s.tile tile).mx.cfg →
            t.natAt (localKey tile (q.b.toNat + accRow (s.tile tile).mx.cfg * m + 4 * n)) 4 = streamed s tile q m n % 2 ^ 32)) ∧
    (∀ c out w1, q.fn = 4 → c = (s.tile tile).mx.cfg → out = (s.drainWords tile c q.b.toNat).getD 0 0 → w1 = (s.drainWords tile c q.b.toNat).getD 1 0 →
      s.blockPoison tile q.a.toNat (cfgM c) (accRow c) (4 * cfgN c) = none → ∃ t, exec (.mxCommandComplete tile) s = .next t ∧
        (cfgFmt c = 1 ∨ s.samplerBlock tile = none → Ended s t tile q) ∧
        (∀ b, cfgFmt c ≠ 1 → s.samplerBlock tile = some b → (t.tile tile).mx.notice = some (b, noticeOf c w1 out)) ∧
        (s.memOk → overlaps out (outRow c w1 * cfgM c) q.a.toNat (accSize c) = false → Others s t (localKey tile out) (outRow c w1 * cfgM c) ∧
          ∀ m n, m < cfgM c → n < cfgN c → t.natAt (localKey tile (out + outRow c w1 * m + outBits c w1 / 8 * n)) (outBits c w1 / 8) =
            drained s tile q m n % 2 ^ outBits c w1)) ∧
    (q.fn = 5 → s.memOk → ∃ t, exec (.mxCommandComplete tile) s = .next t ∧ Ended s t tile q ∧
      Others s t (localKey tile q.a.toNat) (accRow (s.tile tile).mx.cfg * cfgM (s.tile tile).mx.cfg) ∧
      ∀ j, j < accRow (s.tile tile).mx.cfg * cfgM (s.tile tile).mx.cfg → memByte t.mem (localKey tile (q.a.toNat + j)) = 0)

/-- Notices and array channels (R176, R177, R311): a drain in sampler mode ends once the doorbell is empty and its notice is written; a message
moves from the neighbour's channel into one of the tile's own four places, in order, when its cycles are over. -/
def Sys2Proof.Claims.ArrayMessages : Prop :=
  ∀ (s : State) (tile : Nat),
    (∀ q b w, (s.tile tile).mx.queue.head? = some q → (s.tile tile).mx.notice = some (b, w) → q.fo = none →
      (s.thread (mxThread tile q)).st = .waiting → s.full (localKey tile b) = false →
      ∃ t, exec (.doorbellNotice tile) s = .next t ∧ Ended s t tile q ∧ (t.tile tile).mx.notice = none) ∧
    (∀ n c v l, tileNext tile .w = some n → n ≠ tile → (s.tile n).mx.east = (c, .row v) :: l → c ≤ s.cycle → (s.tile tile).mx.west.length < 4 →
      ∃ t, exec (.arrayChannelMessage tile .w) s = .next t ∧ (t.tile n).mx.east = l ∧
        (t.tile tile).mx.west = (s.tile tile).mx.west ++ [(s.cycle, .row v)] ∧ t.mem = s.mem) ∧
    (∀ n c v l, tileNext tile .n = some n → n ≠ tile → (s.tile n).mx.south = (c, .row v) :: l → c ≤ s.cycle → (s.tile tile).mx.north.length < 4 →
      ∃ t, exec (.arrayChannelMessage tile .n) s = .next t ∧ (t.tile n).mx.south = l ∧
        (t.tile tile).mx.north = (s.tile tile).mx.north ++ [(s.cycle, .row v)] ∧ t.mem = s.mem) ∧
    (∀ n c a b k f x l, tileNext tile .w = some n → n ≠ tile → (s.tile n).mx.east = (c, .cfg a b k f x) :: l → c ≤ s.cycle →
      (s.tile tile).mx.west.length < 4 → (s.tile tile).mx.queue = [] →
      ∃ t, exec (.arrayConfigMessage tile .w) s = .next t ∧ (t.tile n).mx.east = l ∧
        (t.tile tile).mx.west = (s.tile tile).mx.west ++ [(s.cycle, .cfg a b k f x)] ∧ t.mem = s.mem)

/-- The ends of array commands, notices and array channels (R176, R177, R193 to R202, R311). Where it rests on the model's own choices: logs 36, 38, 39, 40, 93, 112. -/
def Obligations.ArraySteps : Prop := Claims.ArrayCompletion ∧ Claims.ArrayMessages

/-- Engine instructions (R163, R164, R175, R281 to R283): `eng.copy` passes a whole command from local memory to the buffer; `eng.guard` sets a guard slot
from the next cycle on; `eng.unveil` and `eng.discard` wait for their set's commands; `eng.status` reads the submitted count, the status words
queued and the sets that have shadows. Where it rests on the model's own choices: logs 42, 47. -/
def Obligations.EngineInstructions : Prop :=
  ∀ (s : State) (h : Hdr) (d a b : NameRef),
    (Passes s (.engCopy h a) h [a] [] → s.stage = none → ∀ x s1 l w s2 ws s3 t, s.read (.engCopy h a) h a s = .ok (x, s1) → x.val = ((l : Nat) : Int) →
      l % 8 = 0 → l ≤ 0x7_FFF8 → s.cmdWordAt (.engCopy h a) l s1 = .ok (w, s2) → l + 8 * (cmdLen w - 1) ≤ 0x7_FFF8 →
      s.cmdWordsAt (.engCopy h a) (l + 8) s2 (cmdLen w - 1) = .ok (ws, s3) → s3.myCore.cbufUsed + (w :: ws).length ≤ 32 →
      s.submitTo s3.myCore.cbuf ⟨s3.cur.h, (w :: ws).length, w :: ws, 0, 0, 0, 0, 0⟩ s3 = .ok t →
      exec (.engCopy h a) s = .next (t.done h)) ∧
    (Passes s (.engGuard h a b) h [a, b] [] → ∀ x s1 y s2, s.read (.engGuard h a b) h a s = .ok (x, s1) → s.read (.engGuard h a b) h b s1 = .ok (y, s2) →
      (∀ k : Fin 32, ∀ v : Fin 3, x.val = (k.val : Int) → y.val = (v.val : Int) → ∃ t : State, exec (.engGuard h a b) s = .next (t.done h) ∧
        t.mem = s2.mem ∧ (t.myTile.guards[k]).now = [Guard.pend, .tru, .fls].getD v.val .pend ∧ (t.myTile.guards[k]).cyc = s2.cycle + 1 ∧
        ∀ j : Fin 32, j ≠ k → t.myTile.guards[j] = s2.myTile.guards[j]) ∧
      (x.val < 0 ∨ 31 < x.val → exec (.engGuard h a b) s = .next (s.takeTrap s.cur .access s.me.pc (w64 x.val)))) ∧
    (∀ i, i = .engUnveil h d a ∨ i = .engDiscard h d a → Passes s i h [a] [d] → s.oneDst d = true → s.stage = none →
      ∀ x s1, s.read i h a s = .ok (x, s1) → s.portCheck d s1 = .ok () → 0 ≤ x.val → x.val ≤ 15 →
      exec i s = .next (s.hold i (.retry 24 (x.val.toNat + 16 * s1.myCore.subs)) none)) ∧
    (Passes s (.engStatus h d) h [] [d] → s.oneDst d = true → ∀ t, s.writeOne (.engStatus h d) d
      ((((List.range 16).map fun k => if s.myCore.shadows.any (fun x => x.set == k) then 2 ^ k else 0).sum * 2 ^ 24 +
        (s.myCore.cbuf.map fun c => c.words.length).sum % 256 * 2 ^ 16 + s.myCore.portEng.length % 256 * 2 ^ 8 +
        min s.myCore.submitted 255 : Nat) : Int) s = .ok t →
      exec (.engStatus h d) s = .next (t.done h))

/-- Engine commands (R145, R164 to R169): a complete command is accepted in order into its queue with its entries, or answered by code 3 (the core may
not) or 2 (the command is refused); the oldest waiting header write gets its room; a head command whose elements are through goes
to its follow-on or ends with code 0 or, past a threshold, 9, which gives its thread QSCALE; one whose guard has decided against it ends with code 1. -/
def Sys2Proof.Claims.EngineCommands : Prop :=
  (∀ (s : State) (k : CoreRef) (b : CmdBuf), (s.core k).cbuf.find? (fun b => b.words.length == b.need) = some b →
    (cmdRole k.core b.words = false → cmdRefused k.core b.words = false →
      (s.tile k.tile).board.length + (cmdEntries b.words (.eng (engOf k.core).val b.id) s.cycle).length ≤ 16 →
      ∃ t c, exec (.engineCommandAccept k) s = .next t ∧ c.words = b.words ∧ c.h = b.h ∧ c.core = k.core ∧ c.elem = 0 ∧
        (((t.tile k.tile).eng[engOf k.core]).queues[cmdQueue b.words]) = (((s.tile k.tile).eng[engOf k.core]).queues[cmdQueue b.words]) ++ [c] ∧
        (t.tile k.tile).board = (s.tile k.tile).board ++ cmdEntries b.words (.eng (engOf k.core).val b.id) s.cycle ∧ t.mem = s.mem) ∧
    (cmdRole k.core b.words = false → cmdRefused k.core b.words = true → s.statusRoom k b.words 2 0 = true → cmdSem b.words = none →
      ∃ t, exec (.engineCommandAccept k) s = .next t ∧ (t.core k).portEng = (s.core k).portEng ++ [statusWord (cmdHd b.words) 2 (engOf k.core).val 0] ∧
        (t.core k).submitted = (s.core k).submitted - 1) ∧
    (cmdRole k.core b.words = true → s.statusRoom k b.words 3 0 = true → cmdSem b.words = none →
      ∃ t, exec (.engineCommandAccept k) s = .next t ∧ (t.core k).portEng = (s.core k).portEng ++
          [statusWord (cmdHd b.words) 3 (if cmdOp b.words = 2 then 1 else 0) 0] ∧
        (t.core k).submitted = (s.core k).submitted - 1 ∧ (t.core k).cbuf = (s.core k).cbuf.erase b ∧ t.mem = s.mem)) ∧
  (∀ (s : State) (k : CoreRef) (h : Fin 8) (w : WaitRec) (n : Nat), ((s.core k).threads[h]).wait = some w → w.why = .retry 3 n →
    ((s.core k).threads[h]).st = .waiting → (s.core k).partialOf h = none → (s.core k).cbufUsed + n ≤ 32 →
    (∀ g : Fin 8, g ≠ h → ∀ u m, ((s.core k).threads[g]).wait = some u → u.why ≠ .retry 3 m) →
    exec (.engReservationGrant k) s = .next (s.setCore k { s.core k with cbuf := (s.core k).cbuf ++ [⟨h, n, [], 0, 0, 0, 0, 0⟩] })) ∧
  (∀ (s : State) (tile : Nat) (q : Fin 4) (c : EngCmd), s.engHead tile 0 q = some c → c.stage = .run → cmdElems c.words ≤ c.elem →
    cmdFo c.words = true → (∀ p : Fin 4, p < q → s.followOn tile p = none) →
    ∃ t m, exec (.engineFollowon tile) s = .next t ∧ (t.tile tile).mx.queue = (s.tile tile).mx.queue ++ [m] ∧ m.fo = some q.val ∧
      m.fn = fieldOf (cmdTail c.words 0) 60 4 ∧ t.engHead tile 0 q = some { c with stage := .follow }) ∧
  (∀ (s : State) (tile : Nat) (e : Fin 2) (q : Fin 4) (c : EngCmd), s.engHead tile e q = some c → c.stage = .run → cmdElems c.words ≤ c.elem →
    c.decided false = false → cmdFo c.words = false → c.counts.trips c.thresh = false → cmdSem c.words = none → s.statusRoom ⟨tile, c.core⟩ c.words 0 (c.elem * cmdOffE c.words) = true →
    ∃ t, exec (.engineCommandEnd tile e.val q.val) s = .next t ∧ ((t.tile tile).eng[e]).queues[q] = (((s.tile tile).eng[e]).queues[q]).tail ∧
      (t.core ⟨tile, c.core⟩).submitted = (s.core ⟨tile, c.core⟩).submitted - 1 ∧
      (t.core ⟨tile, c.core⟩).portEng = (s.core ⟨tile, c.core⟩).portEng ++
        if cmdPosts c.words then statusWords (cmdHd c.words) 0 e.val (c.elem * cmdOffE c.words) else []) ∧
  (∀ (s : State) (tile : Nat) (e : Fin 2) (q : Fin 4) (c : EngCmd), s.engHead tile e q = some c → c.stage = .run → cmdElems c.words ≤ c.elem →
    c.decided false = false → cmdFo c.words = false → c.counts.trips c.thresh = true → cmdSem c.words = none → s.statusRoom ⟨tile, c.core⟩ c.words 9 (c.elem * cmdOffE c.words) = true →
    ∃ t, exec (.engineCommandEnd tile e.val q.val) s = .next t ∧ ((t.tile tile).eng[e]).queues[q] = (((s.tile tile).eng[e]).queues[q]).tail ∧
      (t.core ⟨tile, c.core⟩).submitted = (s.core ⟨tile, c.core⟩).submitted - 1 ∧
      (t.core ⟨tile, c.core⟩).portEng = (s.core ⟨tile, c.core⟩).portEng ++ statusWords (cmdHd c.words) 9 e.val (c.elem * cmdOffE c.words) ∧
      ((s.thread ⟨tile, c.core, c.h⟩).pend = none → ((t.thread ⟨tile, c.core, c.h⟩).pend.map (·.1)) = some Cause.qscale.code)) ∧
  (∀ (s : State) (tile : Nat) (e : Fin 2) (q : Fin 4) (c : EngCmd), s.engHead tile e q = some c → c.stage = .run →
    c.decided false = true → s.statusRoom ⟨tile, c.core⟩ c.words 1 0 = true →
    ∃ t, exec (.engineCommandEnd tile e.val q.val) s = .next t ∧ ((t.tile tile).eng[e]).queues[q] = (((s.tile tile).eng[e]).queues[q]).tail ∧
      (t.core ⟨tile, c.core⟩).submitted = (s.core ⟨tile, c.core⟩).submitted - 1 ∧
      (t.core ⟨tile, c.core⟩).portEng = (s.core ⟨tile, c.core⟩).portEng ++ (if cmdPosts c.words then [statusWord (cmdHd c.words) 1 e.val 0] else []) ∧
      (cmdSem c.words = none → t.mem = s.mem)) ∧
  (∀ (s : State) (k : CoreRef) (q : Fin 4) (c : EngCmd) (code off : Nat), s.engHead k.tile (engOf k.core) q = some c → c.stage = .ended code off →
    c.core = k.core → code ≠ 9 → (code = 5 ∨ code = 6 → s.containable ⟨k.tile, c.core, c.h⟩ = false) → s.statusRoom k c.words code off = true →
    (∀ p : Fin 4, p ≠ q → ∀ x, s.engHead k.tile (engOf k.core) p = some x → ∀ a b, x.stage ≠ .ended a b) →
    ∃ t, exec (.engineStatusPost k) s = .next t ∧
      ((t.tile k.tile).eng[engOf k.core]).queues[q] = (((s.tile k.tile).eng[engOf k.core]).queues[q]).tail)

/-- Elements, bursts and shadow sets (R165, R167, R169, R175, R282): where memory has its canonical form, an element of a copy between local
addresses takes the source's bytes to the destination, and no other byte changes; with its guard decided for it, its entries clear, and none of its destination's shadows
in the vault, a head command moves a burst of its elements in its queue's turn; unveiling flips every page of its set in one step, its tables then naming the
shadow's frame, and discarding leaves the tables as they were, once the set's commands have ended, and the thread goes on. -/
def Sys2Proof.Claims.EngineMoves : Prop :=
  (∀ (s : State) (x : EngAt) (p a b : Nat), s.memOk → s.latent = [] → cmdLocal x.cmd.words 1 = true → cmdLocal x.cmd.words 2 = true →
    elemAddr x.cmd.words true p = (a : Int) → elemAddr x.cmd.words false p = (b : Int) →
    a + cmdE x.cmd.words ≤ 0x8_0000 → b + cmdE x.cmd.words ≤ 0x8_0000 → s.poisoned (localKey x.tile a) (cmdE x.cmd.words) = false →
    ∃ t, s.copyElem x p = .ok t ∧
      (∀ j, j < cmdE x.cmd.words → memByte t.mem (localKey x.tile (b + j)) = memByte s.mem (localKey x.tile (a + j))) ∧
      ∀ k, (∀ j, j < cmdE x.cmd.words → k ≠ localKey x.tile (b + j)) → memByte t.mem k = memByte s.mem k) ∧
  (∀ (s : State) (tile : Nat) (e : Fin 2) (q : Fin 4) (c : EngCmd) (z : State) (c1 : EngCmd), s.engHead tile e q = some c → c.stage = .run →
    c.elem < cmdElems c.words → c.cyc < s.cycle → c.decided true = true → (c.elem = 0 → s.shadowsVault c = none) → boardClear (s.tile tile).board (.eng e.val c.id) s.cycle = true →
    ((s.tile tile).eng[e]).rr = q → s.moveElems ⟨tile, e, c⟩ (burstLen c.words) = (z, c1, none) →
    ∃ t, exec (.engineBurst tile e.val q.val) s = .next t ∧ t.mem = z.mem ∧ t.engHead tile e q = some c1 ∧ ((t.tile tile).eng[e]).rr = q + 1) ∧
  (∀ (s : State) (t : ThreadRef) (w : SetWait) (v : State), (s.thread t).setWait = some w → s.setTurn t w = true →
    (w.unveil = true → State.writeOne { s with cur := t } (.engUnveil w.h w.d w.a) w.d
        (((s.core t.coreRef).shadows.filter fun h => h.set == w.set).length : Nat) { s with cur := t } = .ok v →
      ∃ z, exec (.unveilFlip t) s = .next z ∧ z.cur = s.cur ∧ (z.thread t).st = .ready ∧ (∀ h ∈ (z.core t.coreRef).shadows, h.set ≠ w.set) ∧
        ∀ h ∈ (s.core t.coreRef).shadows, h.set = w.set → (s.context? h.ctx).isSome = true →
          (∀ k ∈ (s.core t.coreRef).shadows, k.set = w.set → k.ctx = h.ctx → k.vpn = h.vpn → k = h) →
          ∃ x e, z.context? h.ctx = some x ∧ x.entryAt (2 ^ 16 * h.vpn) = some e ∧ e.pfn = h.new ∧ e.key = h.key ∧ e.vpn = h.vpn ∧ e.psz = 0) ∧
    (w.unveil = false → State.writeOne { s with cur := t } (.engDiscard w.h w.d w.a) w.d
        (((s.core t.coreRef).shadows.filter fun h => h.set == w.set).length : Nat) { s with cur := t } = .ok v →
      ∃ z, exec (.shadowDiscard t) s = .next z ∧ z.cur = s.cur ∧ (z.thread t).st = .ready ∧ (∀ h ∈ (z.core t.coreRef).shadows, h.set ≠ w.set) ∧
        ∀ x, (z.context? x).map (·.maps) = (s.context? x).map (·.maps)))

/-- Engine commands from acceptance to their end, bursts and shadow sets (R164 to R169, R175, R282). Where it rests on the model's own choices: logs 42, 43, 44, 46, 47. -/
def Obligations.EngineSteps : Prop := Claims.EngineCommands ∧ Claims.EngineMoves

/-! ## Capacity tier and vault (18 R332 to R339, 19 R344 to R348, 20 R354 to R356) -/

/-- Capacity tables (R332 to R335, R344 to R346, R348): with the block, its lists, its output, its pages and its rows in order, `pool` writes each bag's weighted
sums, `get` the rows gathered and 0 for an index beyond the table, and `put` the updates in list order; each counts what lay beyond the table and
what was written at the bound, gives up the tile's unit and replies with the status word; `stat` replies with a buffer's status. Where it rests on the model's own choices: logs 48, 60, 61. -/
def Obligations.CapacityTables : Prop :=
  ∀ (s s1 s2 s3 s4 s5 : State) (h : Hdr) (d a : NameRef) (x : Src) (b : PoolBlock) (z : State),
    z = s.withUnit s2 → s.oneDst d = true → s.portCheck d s1 = .ok () → x.val % 8 = 0 → 0 ≤ x.val → x.val + 31 ≤ 0x7_FFFF →
    (∀ bags q vs sat, Passes s (.capPool h d a) h [a] [d] → s.read (.capPool h d a) h a s = .ok (x, s1) → s.takeUnit (.capPool h d a) s1 = .ok s2 →
      z.capBlock (.capPool h d a) x.val s2 = .ok ((b, none), s3) → b.listed = true → z.capBags (.capPool h d a) b.list b.nb s3 = .ok (bags, q, none, s4) →
      z.capOut (.capPool h d a) x.val.toNat q b true s4 = .ok () → z.capTables (.capPool h d a) b s4 = .ok () →
      z.capPooled (.capPool h d a) b bags s4 = .ok (vs, sat, s5) →
      ∀ t, t = ((State.capPutOut b s5 b.out vs).countN s5.cur.coreRef 0x2A
          (bags.flatten.filter fun w => decide (b.nrows ≤ entIdx w)).length).countN s5.cur.coreRef 0x2B sat →
      exec (.capPool h d a) s = .next ((b.readsTable (s.await h (.capPool h d a) d
        (.int ((min (bags.flatten.filter fun w => decide (b.nrows ≤ entIdx w)).length 0xFFFF * 2 ^ 32 + b.nb : Nat) : Int)) t.leaveUnit)).undoing
          [s5.changed (localKey s5.cur.tile b.out) b.outLen t])) ∧
    (∀ es vs, Passes s (.capGet h d a) h [a] [d] → s.read (.capGet h d a) h a s = .ok (x, s1) → s.takeUnit (.capGet h d a) s1 = .ok s2 →
      z.capBlock (.capGet h d a) x.val s2 = .ok ((b, none), s3) → z.capList (.capGet h d a) x.val.toNat b none s3 = .ok (es, s4) →
      z.capOut (.capGet h d a) x.val.toNat (b.list + 8 * b.nb) b true s4 = .ok () → z.capTables (.capGet h d a) b s4 = .ok () →
      z.capGathered (.capGet h d a) b es s4 = .ok (vs, s5) →
      ∀ t, t = (State.capPutOut b s5 b.out vs).countN s5.cur.coreRef 0x2A (es.filter fun w => decide (b.nrows ≤ entIdx w)).length →
      exec (.capGet h d a) s = .next ((b.readsTable (s.await h (.capGet h d a) d
        (.int ((min (es.filter fun w => decide (b.nrows ≤ entIdx w)).length 0xFFFF * 2 ^ 32 + b.nb : Nat) : Int)) t.leaveUnit)).undoing
          [s5.changed (localKey s5.cur.tile b.out) b.outLen t])) ∧
    (∀ es ws rows s6 s7 sat, Passes s (.capPut h d a) h [a] [d] → s.read (.capPut h d a) h a s = .ok (x, s1) → s.takeUnit (.capPut h d a) s1 = .ok s2 →
      z.capBlock (.capPut h d a) x.val s2 = .ok ((b, none), s3) → z.capList (.capPut h d a) x.val.toNat b none s3 = .ok (es, s4) →
      z.capOut (.capPut h d a) x.val.toNat (b.list + 8 * b.nb) b false s4 = .ok () → z.capTables (.capPut h d a) b s4 = .ok () →
      z.capLocals (.capPut h d a) b.out (b.outWords * b.nb) s4 = .ok (ws, s5) → z.capPages (.capPut h d a) b s5 es = .ok () →
      z.capRows (.capPut h d a) b es s5 = .ok (rows, s6) →
      z.capUpdates (.capPut h d a) b ((List.range b.nb).map fun e => (es.getD e 0, b.vecOf ws e)) s6 = .ok (sat, s7) →
      exec (.capPut h d a) s = .next ((b.readsTable (s.await h (.capPut h d a) d
        (.int ((min (es.filter fun w => decide (b.nrows ≤ entIdx w)).length 0xFFFF * 2 ^ 32 + b.nb : Nat) : Int))
        (((s7.countN s7.cur.coreRef 0x2A (es.filter fun w => decide (b.nrows ≤ entIdx w)).length).countN s7.cur.coreRef 0x2B sat).leaveUnit))).undoing
          ((z.capSpans (.capPut h d a) b es s6).map fun p => s6.changed p.1 p.2 s7))) ∧
    (∀ k : Fin 16, Passes s (.capStat h d a) h [a] [d] → s.read (.capStat h d a) h a s = .ok (x, s1) → x.val = (k.val : Int) →
      exec (.capStat h d a) s = .next (s.await h (.capStat h d a) d (.int (s1.bufStatus k)) s1))

/-- Vault records (R336, R338, R339, R354 to R356): `point` replies with the buffer's recovery point; `scan` with the record's result, number and count; `begin`
writes the header of the next record and `commit` its two trailer words, each going on only when every write is durable, `commit` then
moving the recovery point to the record's end. Where it rests on the model's own choices: logs 48, 49. -/
def Obligations.VaultRecords : Prop :=
  (∀ (s s1 : State) (h : Hdr) (d a : NameRef) (x : Src) (p : VaultAt), s.oneDst d = true → s.portCheck d s1 = .ok () →
    (Passes s (.durPoint h d a) h [a] [d] → s.read (.durPoint h d a) h a s = .ok (x, s1) → s.vaultAt (.durPoint h d a) 0 false x.val s1 = .ok p →
      s1.bufBusy p.buf = false →
      exec (.durPoint h d a) s = .next (s.await h (.durPoint h d a) d (.int ((s1.buffers[p.buf]).point.toNat)) s1)) ∧
    (∀ r q n, Passes s (.durScan h d a) h [a] [d] → s.read (.durScan h d a) h a s = .ok (x, s1) → x.val % 8 = 0 →
      s.vaultAt (.durScan h d a) 0 false x.val s1 = .ok p → s1.scanRec p.e.key p.pa = (r, q, n) →
      exec (.durScan h d a) s = .next ((s.await h (.durScan h d a) d (.int ((q * 2 ^ 40 + r * 2 ^ 32 + n : Nat) : Int))
        (s1.scanFound p.e.key p.pa)).readsAt p.g (8 * (n + 3))))) ∧
  (∀ (s s1 s2 : State) (h : Hdr) (d a b : NameRef) (x y : Src) (p : VaultAt) (n : Nat), s.stage = none → Passes s (.durBegin h d a b) h [a, b] [d] →
    s.oneDst d = true → s.read (.durBegin h d a b) h a s = .ok (x, s1) → s.read (.durBegin h d a b) h b s1 = .ok (y, s2) →
    s.portCheck d s2 = .ok () → x.val % 8 = 0 → s.vaultAt (.durBegin h d a b) 2 true x.val s2 = .ok p → y.val = (n : Int) → 1 ≤ n → n ≤ 65535 →
    s2.bufBusy p.buf = false → p.off = pointEnd (s2.buffers[p.buf]).point → p.pa % 2 ^ 16 + 8 * (n + 3) ≤ 2 ^ 16 →
    ∃ (t : State) (v : Nat), v = (pointSeq (s2.buffers[p.buf]).point + 1) % 2 ^ 24 * 2 ^ 40 + n ∧
      exec (.durBegin h d a b) s = .next ((t.hold (.durBegin h d a b) (.retry 12 v) none).undoing [s2.recChanged p 0 1 t]) ∧ (t.buffers[p.buf]).serving = some t.cur ∧
      t = (s2.recWrite p 0 v).setBuffer p.buf { (s2.recWrite p 0 v).buffers[p.buf] with serving := some (s2.recWrite p 0 v).cur }) ∧
  (∀ (s s1 s2 s3 : State) (h : Hdr) (d a : NameRef) (x : Src) (p : VaultAt) (hd : Nat) (ws : List Nat), s.stage = none →
    Passes s (.durCommit h d a) h [a] [d] → s.oneDst d = true → s.read (.durCommit h d a) h a s = .ok (x, s1) → s.portCheck d s1 = .ok () →
    x.val % 8 = 0 → s.vaultAt (.durCommit h d a) 2 true x.val s1 = .ok p → s.fenceOf (.durCommit h d a) .recov s1 = .ok () → s1.bufBusy p.buf = false →
    s.recWords x.val.toNat p 0 1 s1 = .ok ([hd], s2) → badHeader p.pa hd = false →
    hd / 2 ^ 40 = (pointSeq (s2.buffers[p.buf]).point + 1) % 2 ^ 24 → p.off = pointEnd (s2.buffers[p.buf]).point →
    s.recWords x.val.toNat p 1 (hd % 2 ^ 16 + 2) s2 = .ok (ws, s3) →
    ∃ t : State, exec (.durCommit h d a) s = .next ((t.hold (.durCommit h d a)
        (.retry 12 (hd / 2 ^ 40 * 2 ^ 40 + (pointEnd (s2.buffers[p.buf]).point + 8 * (hd % 2 ^ 16 + 3)))) none).undoing
          [s3.recChanged p (hd % 2 ^ 16 + 1) 2 t]) ∧
      t.mem = ((s3.recWrite p (hd % 2 ^ 16 + 1) hd).recWrite p (hd % 2 ^ 16 + 2) (checkOf 0 (hd :: ws.take (hd % 2 ^ 16)))).mem) ∧
  (∀ (s : State) (h : Hdr) (d a b : NameRef) (v : Nat), s.stage = some (12, v) → s.undurable = false →
    exec (.durCommit h d a) s = .next ((s.await h (.durCommit h d a) d (.int v)
      (s.setBuffer s.myBuffer { s.buffers[s.myBuffer] with point := n64 v, serving := none })).undoing
        [.point s.myBuffer (s.buffers[s.myBuffer]).point]) ∧
    exec (.durBegin h d a b) s = .next (s.await h (.durBegin h d a b) d (.int v)
      (s.setBuffer s.myBuffer { s.buffers[s.myBuffer] with serving := none })))

/-! ## The host (22 R373 to R386) -/
namespace Sys2Proof.Claims

/-- The commands of the host but LAUNCH, whose zero fields of word 0 include bits [47:32] (R378, R380). -/
def hostCmd : Instr → Option Command
  | .ident c => some c
  | .load c => some c
  | .unload c => some c
  | .preempt c => some c
  | .resume c => some c
  | .frset c => some c
  | .inval c => some c
  | .keyload c => some c
  | .vaultset c => some c
  | .replay c => some c
  | .route c => some c
  | .exportCmd c => some c
  | .fwload c => some c
  | .fwact c => some c
  | .attest c => some c
  | .ctxnew c => some c
  | .ctxend c => some c
  | .pwrset c => some c
  | .faults c => some c
  | _ => none

end Sys2Proof.Claims

/-- Completion entries (R378, R379, R382): a completion writes tag, status, phase and result at the completion ring's tail, moves the tail, flips the phase
where the ring wraps, frees the pair for its next command and raises its vector; a command whose zero fields are not zero completes BADCMD. Where it rests on the model's own choices: log 68. -/
def Obligations.CommandCompletion : Prop :=
  (∀ (s : State) (c : Command) (st res : Nat), c.q < 16 →
    (s.complete c st res).mem = (s.hostWrite ((s.queues[qIx c.q]).qcbase.toNat + 16 * (s.queues[qIx c.q]).ctail)
      (bytesOfNat 8 ((hostTag c).toNat * 2 ^ 32 + st % 256 * 2 ^ 8 + if (s.queues[qIx c.q]).ph then 1 else 0) ++ bytesOfNat 8 (res % 2 ^ 64))).mem ∧
    (s.complete c st res).queues[qIx c.q] = { s.queues[qIx c.q] with
      busy := false, reserved := (s.queues[qIx c.q]).reserved - 1,
      ctail := if (s.queues[qIx c.q]).qsize.toNat ≤ (s.queues[qIx c.q]).ctail + 1 then 0 else (s.queues[qIx c.q]).ctail + 1,
      ph := if (s.queues[qIx c.q]).qsize.toNat ≤ (s.queues[qIx c.q]).ctail + 1 then !(s.queues[qIx c.q]).ph else (s.queues[qIx c.q]).ph } ∧
    (∀ q : Fin 16, q ≠ qIx c.q → (s.complete c st res).queues[q] = s.queues[q]) ∧
    (s.complete c st res).msix = s.msix ++ [(s.queues[qIx c.q]).qvec.toNat] ∧ (s.complete c st res).tiles = s.tiles) ∧
  (∀ (s : State) (i : Instr) (c : Command), hostCmd i = some c → badWord0 c = true → exec i s = .next (s.complete c 0x0E 0))

/-- Commands that complete as they are taken (R60, R151, R350, R358, R361, R368, R380, R384 to R386, R388): IDENT, ATTEST, LOAD, UNLOAD, FRSET, KEYLOAD, VAULTSET,
REPLAY, ROUTE, EXPORT, FWLOAD, PWRSET and FAULTS have their effect and complete; FWACT resets the module into the trial slot. Where it rests on the model's own choices: logs 53, 65, 66,
67, 68, 80, 81, 82, 86, 92, 100, 107, 110, 118. -/
def Obligations.HostCommands : Prop :=
  ∀ (s : State) (c : Command), badWord0 c = false →
    (hostArg c 1 + 4096 ≤ 2 ^ 49 → exec (.ident c) s = .next ((s.hostWrite (hostArg c 1) s.identBuffer).complete c (if s.cfg.valid then 0 else 0x10) 0)) ∧
    (hostArg c 1 + 48 ≤ 2 ^ 49 → hostArg c 2 + 296 ≤ 2 ^ 49 → exec (.attest c) s =
      .next (State.complete { s.hostWrite (hostArg c 2) (s.quote (s.hostRead (hostArg c 1) 48)) with quotes := s.quotes + 1 } c 0 0)) ∧
    (∀ im t, hostArg c 1 + hostArg c 2 ≤ 2 ^ 49 → s.loadOf (s.hostRead (hostArg c 1) (hostArg c 2)) = .ok (im, t) →
      ∃ z : State, exec (.load c) s = .next (z.complete c 0 s.newHandle.toNat) ∧ z.images = s.images ++ [{ im with handle := s.newHandle }] ∧
        z.mem = t.mem ∧ z.empties = t.empties ∧ z.contexts = s.contexts.map (fun x => x.mapPages im.pages) ∧ z.tiles = t.tiles ∧ z.measure[3] = Machine.sha384 (bytesOfNat 48 (s.measure[3]).toNat ++
          bytesOfNat 48 (Machine.sha384 (s.hostRead (hostArg c 1) (hostArg c 2))).toNat)) ∧
    (∀ st, hostArg c 1 + hostArg c 2 ≤ 2 ^ 49 → s.loadOf (s.hostRead (hostArg c 1) (hostArg c 2)) = .error st →
      exec (.load c) s = .next (s.complete c st 0)) ∧
    (∀ im, s.image? (BitVec.ofNat 32 (hostArg c 1 / 2 ^ 32)) = some im →
      (∀ l ∈ s.launches, l.img = BitVec.ofNat 32 (hostArg c 1 / 2 ^ 32) → l.done.isSome = true) →
      exec (.unload c) s =
        .next (State.complete { s with images := s.images.filter fun i => i.handle != BitVec.ofNat 32 (hostArg c 1 / 2 ^ 32) } c 0 0)) ∧
    (s.image? (BitVec.ofNat 32 (hostArg c 1 / 2 ^ 32)) = none → exec (.unload c) s = .next (s.complete c 0x0F 0)) ∧
    (∀ (k : Fin 32) (w : FmtRange), hostArg c 1 = k.val → w = ⟨hostArg c 2 / 2 ^ 12 % 2 ^ 40, hostArg c 3 / 2 ^ 12 % 2 ^ 40, hostArg c 4 / 2 ^ 3 % 2 ^ 49,
        hostArg c 5 / 2 ^ 4 % 2 ^ 4, false, (hostArg c 5).testBit 0⟩ →
      ∃ (z : State) (r : Nat), exec (.frset c) s = .next (z.complete c 0 r) ∧ r = (z.fr[(0 : Fin 2)][k]).ctl ∧
      z.mem = s.mem ∧ (∀ (d : Fin 2) (j : Fin 32), j ≠ k → z.fr[d][j] = s.fr[d][j]) ∧
      (∀ d : Fin 2, z.fr[d][k] = if w.en = false then { w with ovl := (s.fr[d][k]).ovl }
        else if frMay w (((List.finRange 32).filter (· != k)).map fun j => s.fr[d][j]) = true then w else { w with en := false, ovl := true }) ∧
      ∀ x ∈ z.reflections, ∀ p ∈ [(s.fr[(0 : Fin 2)][k]).elemSpan, (s.fr[(0 : Fin 2)][k]).scaleSpan, w.elemSpan, w.scaleSpan],
        meets p.1 p.2 (64 * (x.pa / 64)) 64 = false) ∧
    (hostArg c 1 % 2 ^ 11 ≠ 0 → hostArg c 2 + 64 ≤ 2 ^ 49 → exec (.keyload c) s =
      .next (State.complete { s with keys := putA s.keys (hostArg c 1 % 2 ^ 11) (BitVec.ofNat 512 (natOfBytes (s.hostRead (hostArg c 2) 64))) } c 0 0)) ∧
    (s.red = true → exec (.vaultset c) s = .next (s.complete c 0x11 0) ∧ exec (.replay c) s = .next (s.complete c 0x11 0) ∧
      exec (.route c) s = .next (s.complete c 0x11 0) ∧ exec (.exportCmd c) s = .next (s.complete c 0x11 0)) ∧
    (s.red = false → hostArg c 1 < 2 ^ 21 → hostArg c 2 ≤ 524288 → hostArg c 1 + hostArg c 2 ≤ 2 ^ 21 → hostArg c 2 ≤ 1024 * s.cfg.vmax →
      s.mapsVault (hostArg c 1) (hostArg c 2) = false → s.mapsVault s.vltbase.toNat s.vltsize.toNat = false →
      ∃ z : State, exec (.vaultset c) s = .next (z.complete c 0 0) ∧ z.vltbase.toNat = hostArg c 1 ∧ z.vltsize.toNat = hostArg c 2 ∧
        (∀ k : Fin 16, (z.buffers[k]).point = 0) ∧ z.mem = s.mem) ∧
    (s.red = false → s.mapsVault s.vltbase.toNat s.vltsize.toNat = false → hostArg c 1 + 384 ≤ 2 ^ 49 →
      (∀ s1 : State, (((hostArg c 2).testBit 63 = false ∧ s1 = s) ∨
          ((hostArg c 2).testBit 63 = true ∧ s.movePoint ⟨hostArg c 2 % 16, Nat.mod_lt _ (by decide)⟩ (hostArg c 3) = some s1)) →
        ∃ z : State, exec (.replay c) s = .next (z.complete c 0 0) ∧ (∀ k : Fin 16, z.buffers[k] = s1.replayed k) ∧
          z.mem = (s.hostWrite (hostArg c 1) (replayReport ((List.finRange 16).map s1.replayBuffer))).mem) ∧
      ((hostArg c 2).testBit 63 = true → s.movePoint ⟨hostArg c 2 % 16, Nat.mod_lt _ (by decide)⟩ (hostArg c 3) = none →
        exec (.replay c) s = .next (s.complete c 0x0E 0))) ∧
    (s.red = false → hostArg c 2 + 1024 ≤ 2 ^ 49 → ∃ z : State, exec (.route c) s = .next (z.complete c 0 0) ∧
      z.modId = BitVec.ofNat 9 (hostArg c 1 % 2 ^ 7) ∧ (∀ m : Fin 128, z.routes[m] = BitVec.ofNat 18 (s.hostWord (hostArg c 2 + 8 * m.val))) ∧ z.mem = s.mem) ∧
    (∀ k : Fin 64, s.red = false → hostArg c 1 = k.val → (hostArg c 2).testBit 63 = false →
      ∃ z : State, exec (.exportCmd c) s = .next (z.complete c 0 0) ∧ (z.expt[k]).v = false ∧ z.mem = s.mem ∧ ∀ j : Fin 64, j ≠ k → z.expt[j] = s.expt[j]) ∧
    (∀ (k : Fin 64) (e : Export), s.red = false → hostArg c 1 = k.val → (hostArg c 2).testBit 63 = true → hostArg c 3 % 2 ^ 14 ≠ 0 →
      e = ⟨true, hostArg c 2 % 2 ^ 14, hostArg c 3 % 2 ^ 14, hostArg c 4 / 2 ^ 53 % 2 ^ 11, (hostArg c 4).testBit 52, hostArg c 4 / 2 ^ 30 % 2 ^ 22⟩ →
      ∃ z : State, exec (.exportCmd c) s = .next (z.complete c 0 0) ∧ z.expt[k] = e ∧ z.mem = s.mem ∧ ∀ j : Fin 64, j ≠ k → z.expt[j] = s.expt[j]) ∧
    (hostArg c 1 + hostArg c 2 ≤ 2 ^ 49 →
      (Config.signatureValid (s.hostRead (hostArg c 1) (hostArg c 2)) = true →
        s.fwArb.toNat ≤ (Config.firmwareVersion (s.hostRead (hostArg c 1) (hostArg c 2))).toNat →
        exec (.fwload c) s = .next (State.complete { s with fwSlots := (s.setSlot (!s.fwAct)
          ⟨Config.firmwareVersion (s.hostRead (hostArg c 1) (hostArg c 2)), s.hostRead (hostArg c 1) (hostArg c 2)⟩) } c 0 0)) ∧
      (Config.signatureValid (s.hostRead (hostArg c 1) (hostArg c 2)) = false → exec (.fwload c) s = .next (s.complete c 0x10 0))) ∧
    ((s.slotOf (!s.fwAct)).image ≠ [] → ∃ t : State, exec (.fwact c) s = .next t ∧ t.fwTrial = 1 ∧ t.tiles = State.reset.tiles ∧ t.journal = []) ∧
    (1000 ≤ hostArg c 1 % 2 ^ 16 → hostArg c 1 % 2 ^ 16 ≤ s.cfg.pmax →
      exec (.pwrset c) s = .next ((State.putAth { s with pwrlim := BitVec.ofNat 16 (hostArg c 1 % 2 ^ 16) } (hostArg c 2)).complete c 0 (hostArg c 1 % 2 ^ 16))) ∧
    (hostArg c 1 % 2 ^ 16 < 1000 ∨ s.cfg.pmax < hostArg c 1 % 2 ^ 16 → exec (.pwrset c) s = .next ((s.putAth (hostArg c 2)).complete c 0 s.pwrlim.toNat)) ∧
    (∀ a, (hostArg c 2 = 2 ^ 63 + a → 256 ≤ a → a ≤ 8192 → s.putAth (hostArg c 2) = { s with ath := BitVec.ofNat 14 a }) ∧
      (hostArg c 2 = 2 ^ 63 + a → a < 256 ∨ (8192 < a ∧ a < 2 ^ 14) → s.putAth (hostArg c 2) = s) ∧ (hostArg c 2 < 2 ^ 63 → s.putAth (hostArg c 2) = s)) ∧
    (∀ bs z, s.takeFaults ((List.range 20).map (fun k => k) ++ (List.range 20).map fun k => 32 + k) (hostArg c 2) = (bs, z) →
      hostArg c 1 + bs.length ≤ 2 ^ 49 →
      ((hostArg c 3).testBit 63 = false → (hostArg c 3).testBit 62 = false →
        exec (.faults c) s = .next ((z.hostWrite (hostArg c 1) bs).complete c 0 (bs.length / 16))) ∧
      ((hostArg c 3).testBit 63 = true → (hostArg c 3).testBit 62 = false → hostArg c 4 + 24576 ≤ 2 ^ 49 → ∀ x, z.context? (fieldOf (hostArg c 3) 0 16) = some x →
        exec (.faults c) s = .next (((z.hostWrite (hostArg c 1) bs).hostWrite (hostArg c 4) x.sealTable).complete c 0 (bs.length / 16))) ∧
      ((hostArg c 3).testBit 63 = false → (hostArg c 3).testBit 62 = true → hostArg c 5 + 64 ≤ 2 ^ 49 →
        exec (.faults c) s = .next (((z.hostWrite (hostArg c 1) bs).hostWrite (hostArg c 5)
          ((List.finRange 8).flatMap fun k => bytesOfNat 8 ((s.alerts[k]).toNat * 2 ^ 32 + (s.boff[k]).toNat))).complete c 0 (bs.length / 16))))

/-- Commands over contexts and launches (R223, R236, R240, R370, R380, R381): CTXNEW adds a context, CTXEND removes one that
no launch needs, INVAL blocks a range until every tile has acknowledged, LAUNCH is taken with a new identifier and completes later, PREEMPT asks every gang of a
launch for a save, at once also where another request is pending, and RESUME takes back what was saved. Where it rests on the model's own choices: logs 73, 80,
83, 84, 85, 127. -/
def Obligations.ContextCommands : Prop :=
  ∀ (s : State) (c : Command),
    (badWord0 c = false →
      (∀ x e, s.contextOf c = .ok (x, e) → ∃ z : State, exec (.ctxnew c) s = .next (z.complete c 0 0) ∧ z.contexts = s.contexts ++ [x] ∧ z.tiles = s.tiles) ∧
      (∀ st, s.contextOf c = .error st → exec (.ctxnew c) s = .next (s.complete c st 0)) ∧
      ((s.context? (hostArg c 1 % 2 ^ 16)).isSome = true → (∀ l ∈ s.launches, l.ctx = hostArg c 1 % 2 ^ 16 → l.done.isSome = true) →
        ∃ z : State, exec (.ctxend c) s = .next (z.complete c 0 0) ∧ z.context? (hostArg c 1 % 2 ^ 16) = none ∧
          z.contexts = s.contexts.filter fun x => x.id != hostArg c 1 % 2 ^ 16) ∧
      ((s.context? (hostArg c 1 % 2 ^ 16)).isSome = true → s.tiles ≠ [] → ∃ z v, exec (.inval c) s = .next z ∧
        z.invals = s.invals ++ [(s.nextInval, v)] ∧ v.ctx = hostArg c 1 % 2 ^ 16 ∧ v.base = hostArg c 2 ∧ v.len = hostArg c 3 ∧
        v.left = s.tiles.map (·.1) ∧ z.mem = s.mem) ∧
      ((s.context? (hostArg c 1 % 2 ^ 16)).isSome = true → s.tiles = [] → ∃ z : State, exec (.inval c) s = .next (z.complete c 0 0)) ∧
      (s.context? (hostArg c 1 % 2 ^ 16) = none →
        exec (.ctxend c) s = .next (s.complete c 0x0F 0) ∧ exec (.inval c) s = .next (s.complete c 0x0F 0)) ∧
      (∀ l, s.launch? (BitVec.ofNat 64 (hostArg c 1)) = some l → (∃ g ∈ s.gangs, g.lid = BitVec.ofNat 64 (hostArg c 1)) →
        ∃ z, exec (.preempt c) s = .next z ∧ z.mem = s.mem ∧ (z.launch? l.lid).map (·.preCmd) = some (l.preCmd ++ [(c.q % 16, hostTag c)]) ∧
          z.gangs = s.gangs.map fun g => if g.lid = BitVec.ofNat 64 (hostArg c 1) then
            { g with preempt := some (match g.preempt with
              | some p => { p with forced := p.forced || (hostArg c 2).testBit 0 }
              | none => ⟨(hostArg c 2).testBit 0, s.cycle, 0, []⟩) } else g) ∧
      (s.launch? (BitVec.ofNat 64 (hostArg c 1)) = none → exec (.preempt c) s = .next (s.complete c 0x0F 0)) ∧
      (∀ v, (s.saved.find? fun v => v.base == hostArg c 1 && !v.back) = some v → ∃ z, exec (.resume c) s = .next z ∧ z.mem = s.mem ∧
        z.saved = s.saved.map fun w => if w.gang.lid = v.gang.lid then { w with back := true } else w)) ∧
    (∀ l im t, s.launchOf c = .ok (l, im, t) → ∃ z, exec (.launch c) s = .next z ∧ z.launches.map (·.lid) = s.launches.map (·.lid) ++ [l.lid] ∧
      z.usedLids = l.lid :: s.usedLids ∧ z.mem = s.mem ∧ z.queues = s.queues) ∧
    (∀ st, s.launchOf c = .error st → exec (.launch c) s = .next (s.complete c st 0))

/-- Rings and registers (R377 to R379, R383, R385): a doorbell or a head write sets the register of its pair; a pair in turn whose ring holds an entry has it taken, its
command to run next or BADCMD for an `op` without one; a register write reaches the queue pairs' registers and FWCOMMIT and no other; a commit of 1 during a trial makes its slot active. Where it rests on the model's own
choices: logs 72, 87, 119. -/
def Obligations.RingSteps : Prop :=
  (∀ (s : State) (q : Nat) (v : BitVec 64), q < 16 →
    exec (.qstailDoorbell q v) s = .next (s.modQueue q fun p => { p with qstail := v }) ∧
    exec (.qcheadWrite q v) s = .next (s.modQueue q fun p => { p with qchead := v })) ∧
  (∀ (s : State) (q : Fin 16) (c : Command), s.nextPair = some q → s.cpDown[(0 : Fin 2)] = false →
    c = ⟨q.val, (List.range 8).map fun j => n64 (s.hostWord ((s.queues[q]).qsbase.toNat + 64 * (s.queues[q]).shead + 8 * j))⟩ →
    (∀ i, commandOf (fieldOf (hostArg c 0) 56 8) c = some i → ∃ z, exec (.queueCommandTake q.val) s = .next z ∧ z.agenda = i :: s.agenda ∧
      z.queues[q] = { s.queues[q] with shead := ((s.queues[q]).shead + 1) % (s.queues[q]).qsize.toNat,
                                       reserved := (s.queues[q]).reserved + 1, busy := true } ∧ z.mem = s.mem) ∧
    (commandOf (fieldOf (hostArg c 0) 56 8) c = none → ∃ z : State, exec (.queueCommandTake q.val) s = .next (z.complete c 0x0E 0))) ∧
  (∀ (s : State) (off : Nat) (v : BitVec 64), off < 2 ^ 20 →
    (∀ q : Fin 16, off = 0x2000 + 0x40 * q.val + 0x18 → exec (.hostRegisterWrite off v) s = .next (s.modQueue q.val fun p => { p with qstail := v })) ∧
    (∀ q : Fin 16, off = 0x2000 + 0x40 * q.val + 0x28 → exec (.hostRegisterWrite off v) s = .next (s.modQueue q.val fun p => { p with qvec := v })) ∧
    ((off < 0x2000 ∧ off ≠ 0x100) ∨ 0x2400 ≤ off → exec (.hostRegisterWrite off v) s = .next s) ∧
    exec (.hostRegisterWrite 0x100 v) s = exec (.fwcommitWrite v) s) ∧
  (∀ (s : State) (v : BitVec 64), (v = 1 → s.fwTrial = 1 → ∃ t : State, exec (.fwcommitWrite v) s = .next t ∧ t.fwAct = !s.fwAct ∧ t.fwTrial = 0 ∧
      t.fwArb = (s.slotOf (!s.fwAct)).version ∧ t.mem = s.mem) ∧
    (s.fwTrial ≠ 1 → exec (.fwcommitWrite v) s = .next { s with fwCommit := v }))

/-! ## Launches, saves, translation, devices (12 R221 to R241, 21 R360 to R376, 22 R384 to R389) -/

/-- A launch's course (R221, R223 to R226, R231, R232, R372): a gang's record is written and what its tiles have free is loaded; the gang's threads become READY in its
start cycle; a halted kernel's rows and a tile's image go free; status words combine towards the root; the launch completes when every word has come in; a
contained node's attempt ends under its identifier. While a command processor restarts, completion words wait in its die's queue. Where it rests on the model's own
choices: logs 54, 55, 56, 58, 72, 116. -/
def Obligations.LaunchSteps : Prop :=
  (∀ (s : State) (lid : BitVec 64) (p : Place) (l : Launch) (g : Gang) (slots : List Nat), s.launch? lid = some l →
    (∀ v ∈ s.saved, v.gang.lid ≠ lid) → s.nextRecord l p = some (g, slots) →
    ∃ z : State, exec (.bindRecordWrite lid p) s = .next (z.loadGang g) ∧ z.gangs = s.gangs ++ [g] ∧ z.mem = s.mem ∧ z.tiles = s.tiles) ∧
  (∀ (s : State) (die slot : Nat) (g : Gang), s.gang? (64 * die + slot) = some g → g.loaded s.cycle = true → g.resume = none →
    ∃ z, exec (.gangStart die slot) s = .next z ∧ z.mem = s.mem ∧ (∀ t ∈ s.gangThreads (64 * die + slot), (s.thread t).st = .loading → (z.thread t).st = .ready) ∧
      ∀ t, t ∉ s.gangThreads (64 * die + slot) → (z.thread t).st = (s.thread t).st) ∧
  (∀ (s : State) (k : CoreRef) (x : Kernel), (s.core k).kernels.find? (fun x => s.releasesNow k x) = some x → x.freed + 1 < x.phys.length →
    exec (.leaseRowRelease k) s = .next ((s.setCore k ((s.core k).modKernel x.sb fun y => { y with freed := y.freed + 1, relCyc := s.cycle + 1 })).loadCore k)) ∧
  (∀ (s : State) (k : CoreRef) (x : Kernel), (s.core k).kernels.find? (fun x => s.releasesNow k x) = some x → x.phys.length ≤ x.freed + 1 →
    ∀ l, l = (x.hthreads.filterMap fun h => ((s.core k).threads[h]).privSlot) → exec (.leaseRowRelease k) s =
      .next ((((s.setCore k ((s.core k).without x)).freeSlots x.ctx l).modGang x.gang fun g => { g with back := g.back ++ l }).loadCore k)) ∧
  (∀ (s : State) (tile g : Nat) (x : Gang), (s.tile tile).image = some g → s.gang? g = some x → x.st = .live ∨ x.st = .draining →
    (∀ c : Fin 3, ∀ k ∈ ((s.tile tile).cores[c]).kernels, k.gang ≠ g) → ∃ z : State, exec (.imageRelease tile) s = .next (z.loadTile tile) ∧
      (z.tile tile).image = none ∧ (z.tile tile).gang = none) ∧
  (∀ (s : State) (tile kern : Nat) (g : Gang) (w : Word64), (s.tile tile).gang = some g.id → s.gang? g.id = some g → g.st = .live →
    kern < g.kerns.length → s.wordOf g tile kern = some w → s.gangPos g tile ≠ (0, 0) →
    kern ∈ ((s.sendWords tile).tile tile).sent ∧ (s.sendWords tile).mem = s.mem ∧
    ⟨g.lid, g.num, s.gangPos g tile, kern, w, s.cycle + 4⟩ ∈ (s.sendWords tile).flying) ∧
  (∀ (s : State) (tile : Nat) (m : StatusMsg) (l : List StatusMsg) (g : Gang), s.flying = m :: l → m.due ≤ s.cycle →
    (s.gangs.find? fun g => g.lid == m.lid && g.num == m.num && (g.st == .live || g.st == .draining) && s.gangTile g m.pos.1 m.pos.2 == tile) = some g →
    (∀ die : Fin 2, m.pos = (0, 0) → g.die = die.val →
      (s.cpDown[die] = false → exec (.statusWordArrive tile m.kern) s =
        .next (({ s with flying := l } : State).modLaunch m.lid fun x => { x with words := x.words ++ [(m.num, m.kern, m.word)] })) ∧
      (s.cpDown[die] = true → (s.cpq[die]).length < 64 → exec (.statusWordArrive tile m.kern) s =
        .next { s with flying := l, cpq := s.cpq.set die (s.cpq[die] ++ [.word m.lid m.num m.kern m.word]) })) ∧
    (∀ q, 0 < m.pos.1 → q = s.gangTile g (m.pos.1 - 1) m.pos.2 → exec (.statusWordArrive tile m.kern) s =
      .next ((({ s with flying := l } : State).setTile q { s.tile q with child := (s.tile q).child ++ [(m.kern, m.word)] }).sendWords q)) ∧
    (∀ q, m.pos.1 = 0 → 0 < m.pos.2 → q = s.gangTile g 0 (m.pos.2 - 1) → exec (.statusWordArrive tile m.kern) s =
      .next ((({ s with flying := l } : State).setTile q { s.tile q with child := (s.tile q).child ++ [(m.kern, m.word)] }).sendWords q))) ∧
  (∀ (s : State) (lid : BitVec 64) (l : Launch), s.launch? lid = some l → l.done = none → l.contained = false → ¬ (l.nextGang = 0 ∧ s.depsTrapped l = true) →
    s.cpDown[(0 : Fin 2)] = false → l.words.length = l.gangs * l.kerns.length →
    ∃ z : State, exec (.launchComplete lid) s = .next (z.postDone l.q l.tag 0 (n64 l.combined.1)) ∧ z.mem = s.mem ∧
      ∃ x, z.launch? lid = some x ∧ x.done = some (n64 l.combined.1, 0) ∧ x.rgang = l.combined.2) ∧
  (∀ (s : State) (lid : BitVec 64) (l : Launch), s.launch? lid = some l → l.contained = true →
    ∃ z : State, exec (.containNode lid) s = .next z ∧ ∀ x ∈ z.launches, x.contained = true → x.lid ≠ lid)

/-- Saves (R207, R218, R236 to R238): a request whose limit is past becomes forced; gangs whose threads have stopped alike, with nothing of theirs under way, are saved
cooperatively; a forced save first freezes the gangs, each with those that share a vector group with it; a request withdrawn makes the stopped threads READY. Where it rests on the model's own choices: logs 57, 115. -/
def Obligations.SaveSteps : Prop :=
  ∀ (s : State) (gang : Nat) (g : Gang) (p : PreReq), s.gang? gang = some g → g.preempt = some p → g.st = .live →
    (p.forced = false → ∀ t ∈ s.gangThreads gang, (s.thread t).st ≠ .stopped → (s.thread t).st ≠ .halted → p.since + (s.thread t).premax.toNat ≤ s.cycle →
      exec (.preemptTimeout gang) s = .next (s.forceSave (s.mates gang))) ∧
    ((∀ m ∈ s.mates gang, s.coopReady m = true) → (∃ m ∈ s.mates gang, ∃ t ∈ s.gangThreads m.id, (s.thread t).st ≠ .halted) →
      exec (.coopSave gang) s = .next ((s.mates gang).foldl (fun (z : State) m => z.saveGang m true s.cycle ((s.gangThreads m.id).map fun t => (t, (s.thread t).st))) s)) ∧
    (p.forced = true → (∀ m ∈ s.mates gang, s.areaOk m = true ∧ s.canFreeze m = true) → p.frozen = [] → s.gangThreads gang ≠ [] →
      exec (.forcedSave gang) s = .next ((s.mates gang).foldl State.freeze s)) ∧
    (p.forced = true → (∀ m ∈ s.mates gang, s.areaOk m = true ∧ s.issuedDone m = true ∧ s.storesOut m = true) → p.frozen ≠ [] →
      exec (.forcedSave gang) s = .next (s.saveFrozen (s.mates gang) p.froze)) ∧
    (p.forced = false → ∃ z, exec (.requestWithdrawn gang) s = .next z ∧ z.mem = s.mem ∧
      (∀ t ∈ s.gangThreads gang, (s.thread t).st = .stopped → (z.thread t).st = .ready) ∧
      ∀ t, t ∉ s.gangThreads gang → (z.thread t).st = (s.thread t).st)

/-- Misses, invalidation and errors (R362, R363, R366, R370, R371, R394): a miss's record is written once at its cluster's next position; an answer in the reply word is delivered, and
firmware writes the one the context's tables give; the host's answer to a page request is delivered, and a range it maps no more begins an invalidation; a side-log entry with a translation that allows it is performed; a
tile drops an invalidated range; scrubbing takes the errors of a line; an error of two symbols or more poisons what its code covers. Where it rests on the model's own choices: logs 50, 51,
52, 62, 91, 130. -/
def Obligations.TranslationSteps : Prop :=
  (∀ (s : State) (tile idx : Nat) (m : Miss), (s.tile tile).misses[idx]? = some m → m.written = false → (getA s.missPos (s.clusterId tile)).getD 0 < 1024 →
    ∃ z, exec (.missRecord tile idx) s = .next z ∧ (getA z.missPos (s.clusterId tile)).getD 0 = (getA s.missPos (s.clusterId tile)).getD 0 + 1 ∧
      z.full (localKey (s.svcOf (s.clusterId tile)) (0x6_0000 + 16 * (getA s.missPos (s.clusterId tile)).getD 0)) = true) ∧
  (∀ (s : State) (cl : Nat), s.full (localKey (s.svcOf cl) 0x6_4010) = true → exec (.fillDeliver cl) s = .next (s.deliverFill cl)) ∧
  (∀ (s : State) (cl a ctx va res : Nat) (e : Option TEntry) (l : List (Nat × Nat × Nat)), s.full (localKey (s.svcOf cl) 0x6_4010) = false →
    s.missRing cl = (a, ctx, va) :: l → s.walkFor cl (a, ctx, va) = some (res, e) → exec (.fillDeliver cl) s = .next ((s.answer cl a res e).deliverFill cl)) ∧
  (∀ (s : State) (cl a ctx va : Nat) (l : List (Nat × Nat × Nat)), s.full (localKey (s.svcOf cl) 0x6_4010) = false →
    s.missRing cl = (a, ctx, va) :: l → s.walk ctx va = none → (s.context? ctx).isSome = true →
    exec (.hostPageAnswer cl .failure) s = .next ((s.answer cl a 1 none).deliverFill cl)) ∧
  (∀ (s : State) (cl ctx base len : Nat), (s.context? ctx).isSome = true → s.tiles ≠ [] → ∃ z v, exec (.hostPageAnswer cl (.invalidate ctx base len)) s = .next z ∧
    z.invals = s.invals ++ [(s.nextInval, v)] ∧ v.ctx = ctx ∧ v.base = base ∧ v.len = len ∧ v.left = s.tiles.map (·.1) ∧ z.mem = s.mem) ∧
  (∀ (s : State) (tile : Nat) (e : SideEntry) (te : TEntry) (l : List SideEntry), (s.tile tile).side = e :: l → (s.tile tile).misses = [] →
    s.blocked e.ctx e.addr = false → s.tlb? tile e.ctx e.addr = some te → te.w = true → s.routeDown (te.pa e.addr) = false → s.peerRefused (te.pa e.addr) true = false → s.bankOff (te.pa e.addr) = false →
    (∀ bs f, e.work = .store bs f → f ≠ .tail → f.breach te e.addr = none →
      exec (.sidelogReplay tile) s = .next ((s.setTile tile { s.tile tile with side := l }).landStore (e.thr tile) e.seq e.ctx te e.addr bs f)) ∧
    (∀ f n sx v x, e.work = .red f n sx v x →
      exec (.sidelogReplay tile) s = .next ((s.setTile tile { s.tile tile with side := l }).performRed ⟨tile, e.core⟩ e te f n sx v x))) ∧
  (∀ (s : State) (tile id : Nat) (v : Inval) (l : List (Nat × Inval)), s.invals = (id, v) :: l → tile ∈ v.left → (s.tile tile).returning v.ctx v.base v.len = false →
    ∃ z, exec (.tileInvalAck tile) s = .next z ∧ ∀ e ∈ (z.tile tile).tlb, v.hits e = false) ∧
  (∀ (s : State) (word : Nat), (∃ e ∈ s.latent, e.1 ∈ errorWords (8 * word) 8) →
    ∃ z, exec (.patrolScrub word) s = .next z ∧ ∀ e ∈ z.latent, e.1 ∉ errorWords (8 * word) 8) ∧
  (∀ (s : State) (word bits : Nat) (t : ThreadRef) (n : Nat), s.copyAt word = some (t, n) →
    exec (.softError word bits) s = .next (if bits ≤ 1 then s else s.setThread t { s.thread t with bad := addKey (s.thread t).bad n })) ∧
  (∀ (s : State) (word bits : Nat), 2 ≤ bits → storedWord word = true → s.copyAt word = none → ∃ z, exec (.softError word bits) s = .next z ∧ z.mem = s.mem ∧
    z.latent = s.latent ++ [(word, true)] ∧ ∀ w ∈ errorWords (8 * word) 8, w ∈ z.poison)

/-- Memory and other modules (R161, R162, R353, R376, R377, R384): a row alert closes its bank for 192 cycles and clears the counts about the aggressor; a refresh clears a row's; a weight-store
region is written between start and finish; the host and other modules reach memory, with atomics and full/empty operations of those; an unanswered request traps PFAULT, an unanswered store leaves its buffer, and an unanswered command ends PFAULT; a port goes down and
up. Where it rests on the model's own choices: logs 5, 71, 75, 88, 89, 120. -/
def Obligations.MemoryDevices : Prop :=
  (∀ (s : State) (st : Fin 8) (b r : Nat), s.ath.toNat ≤ s.actCount st.val b r → (∀ x ∈ s.backoff, ¬ (x.1 = st.val ∧ x.2.1 = b)) → s.bankOwes st.val b = false →
    (∀ t ∈ s.threadRefs, ∀ w, (s.thread t).wait = some w → w.why ≠ .retry tagBank (8 * b + st.val)) →
    ∃ z : State, exec (.hbmAlert st.val b r) s = .next z ∧ z.backoff = s.backoff ++ [(st.val, b, s.cycle + 192)] ∧ z.actCount st.val b r = 0 ∧ z.mem = s.mem) ∧
  (∀ (s : State) (st : Fin 8) (b e : Nat), (st.val, b, e) ∈ s.backoff → e ≤ s.cycle → ∃ z : State, exec (.hbmBackoffEnd st.val b) s = .next z ∧
    (∀ x ∈ z.backoff, ¬ (x.1 = st.val ∧ x.2.1 = b)) ∧ z.mem = s.mem) ∧
  (∀ (s : State) (st : Fin 8) (b r : Nat), ∃ z : State, exec (.hbmRefresh st.val b r) s = .next z ∧ z.actCount st.val b r = 0 ∧ z.mem = s.mem) ∧
  (∀ (s : State) (die bank : Nat), die < 2 → bank < 64 → (s.cycle + 2 ^ 26 - 1024 * bank) % 65536 = 0 → exec (.wsRefresh die bank) s = .next s) ∧
  (∀ (s : State) (die region : Nat), die < 2 → region < 64 →
    ((die, region) ∉ s.wsWriting → s.wsListed die region = false →
      exec (.weightStoreWrite die region .start) s = .next { s with wsWriting := s.wsWriting ++ [(die, region)] }) ∧
    (∀ off bs, (die, region) ∈ s.wsWriting → off + bs.length ≤ 2 ^ 24 →
      exec (.weightStoreWrite die region (.data off bs)) s = .next (s.putBytes (wsKey die (2 ^ 24 * region + off)) bs)) ∧
    ((die, region) ∈ s.wsWriting → ∃ z : State, exec (.weightStoreWrite die region .finish) s = .next z ∧ (die, region) ∉ z.wsWriting)) ∧
  (∀ (s : State) (acc : HostAccess), s.hostReaches acc.pa acc.bytes.length = true → s.bankBusy acc.pa acc.bytes.length = false →
    exec (.hostMemAccess acc) s = .next (if acc.write then s.hostStore acc.pa acc.bytes else s.readAside acc.pa acc.bytes.length)) ∧
  (∀ (s : State) (off n : Nat), (s.exported off n false = none → exec (.peerRequest (.read off n)) s = .next s) ∧
    (∀ key pa, s.exported off n false = some (key, pa) → s.bankBusy pa n = false → exec (.peerRequest (.read off n)) s = .next (s.readAside pa n))) ∧
  (∀ (s : State) (pa n : Nat), s.latent = [] → (s.readAside pa n).mem = s.mem) ∧
  (∀ (s : State) (off n key pa : Nat) (sx : Bool) (v : Nat), s.exported off n true = some (key, pa) → n = 4 ∨ n = 8 → pa % n = 0 → s.poisoned pa n = false → s.bankBusy pa n = false →
    exec (.peerRequest (.amo off .swap n sx v)) s = .next ((s.readAside pa n).peerStore key pa (bytesOfNat n (v % 2 ^ (8 * n))))) ∧
  (∀ (s : State) (off key pa : Nat) (v : BitVec 64), s.exported off 8 true = some (key, pa) → pa % 8 = 0 → s.full pa = false → s.bankBusy pa 8 = false →
    exec (.peerRequest (.fe off (.stf v))) s = .next ((s.peerStore key pa (bytesOfNat 8 v.toNat)).setFull pa true)) ∧
  (∀ (s : State) (off : Nat) (bs : List Byte), (s.exported off bs.length true = none → exec (.peerRequest (.write off bs)) s = .next s) ∧
    (∀ key pa, s.exported off bs.length true = some (key, pa) → s.bankBusy pa bs.length = false → exec (.peerRequest (.write off bs)) s = .next (s.peerStore key pa bs))) ∧
  (∀ (s : State) (t : ThreadRef) (w : WaitRec) (r : Reply) (pa : Nat), (s.thread t).wait = some w → w.why = .reply → (s.thread t).st = .waiting →
    (s.core t.coreRef).replies = [r] → r.h = t.h → r.peer = some pa → w.since + 2 ^ 24 ≤ s.cycle →
    exec (.peerTimeout t) s = .next (((s.setCore t.coreRef { s.core t.coreRef with replies := [] }).setThread t
      { s.thread t with st := .ready, wait := none }).takeTrap t .pfault w.pc (reasonVal 2 pa))) ∧
  (∀ (s : State) (t : ThreadRef), (s.thread t).wait = none →
    (∀ e l, (s.core t.coreRef).sbuf = e :: l → e.h = t.h → e.form = .plain → (s.tile t.tile).side = [] → s.overdue t.tile e.ctx e.addr e.since = true →
      ∃ z, exec (.peerTimeout t) s = .next z ∧ (z.core t.coreRef).sbuf = l) ∧
    (∀ (e : Fin 2) (q : Fin 4) (c : EngCmd), (s.core t.coreRef).sbuf = [] → (s.tile t.tile).side = [] → s.engHead t.tile e q = some c →
      (∀ (f : Fin 2) (p : Fin 4), (f, p) ≠ (e, q) → s.engHead t.tile f p = none) → c.core = t.core → c.h = t.h → c.moves = true →
      c.moved + 2 ^ 24 ≤ s.cycle → (∃ a ∈ s.engAims t.tile e c, s.silent a = true) →
      exec (.peerTimeout t) s = .next (s.setEngHead t.tile e q { c with stage := .fin 6 (c.elem * cmdOffE c.words) }))) ∧
  (∀ (s : State) (p : Fin 18), (∃ z : State, exec (.portDown p.val) s = .next z ∧ z.portsUp.getLsbD p.val = false ∧ ∀ j, j ≠ p.val → z.portsUp.getLsbD j = s.portsUp.getLsbD j) ∧
    ∃ z : State, exec (.portUp p.val) s = .next z ∧ z.portsUp.getLsbD p.val = true ∧ ∀ j, j ≠ p.val → z.portsUp.getLsbD j = s.portsUp.getLsbD j)

/-- The module (R352, R373, R385, R387 to R389): training raises `rdy` and ends the reduced service unless the configuration table failed its check or a stack failed to train; the clock
step goes down one by one above the limit, and up no further than the table's `fmax` lets it; heat, power-on and a failed trial reset the compute dies; a command processor's restart is
counted. Where it rests on the model's own choices: logs 59, 63, 64, 69, 72, 131. -/
def Obligations.ModuleSteps : Prop :=
  (∀ (s : State) (t : Trained), s.rdy = false → ∃ z : State, exec (.trainingDone t) s = .next z ∧ (∀ k : Fin 16, (z.buffers[k]).up = t.links.getLsbD k.val) ∧ z.mem = s.mem ∧
    (s.checkedTable.valid = true → s.stackBad = false → t.hbm = 0xFF → z.rdy = true ∧ z.red = false) ∧
    (s.checkedTable.valid = false ∨ s.stackBad = true ∨ t.hbm ≠ 0xFF → z.rdy = false ∧ z.red = s.red)) ∧
  (∀ s : State, s.cfg.valid = true → (s.cfg.version < s.fwArb.toNat → s.checkedTable.valid = false) ∧ (s.fwArb.toNat ≤ s.cfg.version → s.checkedTable = s.cfg)) ∧
  (∀ (s : State) (p : BitVec 16) (t : BitVec 8), s.red = false →
    ((s.pwrlim.toNat < p.toNat ∨ 95 ≤ t.toNat) → ∃ z : State, exec (.clockStepAdjust p t) s = .next z ∧ z.thr = true ∧ z.pwr = p ∧ z.temp = t ∧
      z.step = (if s.step.toNat < 8 then s.step + 1 else s.step) ∧ z.mem = s.mem) ∧
    (110 ≤ t.toNat → ∃ z : State, exec (.clockStepAdjust p t) s = .next z ∧ z.agenda = .thermalReset :: s.agenda) ∧
    (100 * p.toNat < 95 * s.pwrlim.toNat → t.toNat ≤ 90 → ∃ z : State, exec (.clockStepAdjust p t) s = .next z ∧
      z.step = (if s.step.toNat ≤ s.cfg.minStep then s.step else s.step - 1) ∧ (s.step.toNat ≤ s.cfg.minStep + 1 → z.thr = false) ∧ z.mem = s.mem)) ∧
  (∀ s : State, ∃ z : State, exec .thermalReset s = .next z ∧ z.tiles = State.reset.tiles ∧ z.gangs = [] ∧
    z.trst = (if s.trst = 0xFF then s.trst else s.trst + 1) ∧ z.vltbase = s.vltbase ∧ z.vltsize = s.vltsize) ∧
  (∀ s : State, ∃ z : State, exec .modulePowerOn s = .next z ∧ z.tiles = State.reset.tiles ∧ z.vltsize = State.reset.vltsize ∧ z.fwSlots = s.fwSlots ∧ z.fwArb = s.fwArb ∧
    ∀ a, hostBase ≤ a → a < 2 ^ 52 → memByte z.mem a = memByte s.mem a) ∧
  (∀ s : State, s.fwTrial = 1 → ∃ z : State, exec .fwWatchdogExpire s = .next z ∧ z.fwTrial = 2 ∧ z.fwAct = s.fwAct ∧ z.tiles = State.reset.tiles) ∧
  (∀ (s : State) (d : Fin 2), exec (.cpLockstepReset d.val) s = .next { s with cprst := satUp s.cprst, cpDown := s.cpDown.set d true })

/-! ## Frames, steps, encoding, reset (05 R84 to R96, 06 R99, 11 R217, 22 R387) -/
namespace Sys2Proof.Claims

/-- The destination of an instruction that works on registers alone (R105 to R112, R182, R183). -/
def registerDst (i : Instr) : Option NameRef :=
  match i with
  | .aluMov _ d _ | .aluiSet _ d _ | .shfIns _ d _ _ _ | .cmpSel _ d _ _ _ | .widWidth _ d _ => some d
  | _ => ((intTwo i).map fun p => p.2.1).or (((intOne i).map fun p => p.2.1).or (((product i).map fun p => p.2.1).or
    (((quotient i).map fun p => p.2.1).or (((intLane i).map fun p => p.2.1).or ((fltLane i).map fun p => p.2.1)))))

/-- The words of an instruction at an address of a tile, as a read of this cycle finds them: not under a W entry, not poisoned. -/
def CodeAt (s : State) (tile pc : Nat) (ws : List Word32) : Prop :=
  pc + 4 * ws.length ≤ 0x8_0000 ∧ ∀ k w, ws[k]? = some w →
    s.codeWord tile (pc + 4 * k) = ⟨pc + 4 * k, w, false⟩ ∧ s.boardW tile (pc + 4 * k) 4 = false

/-- A word written in the fields of R88, highest first: three names of six bits, function, wait, major and length. -/
def base3 (b a d : BitVec 6) (fn : BitVec 4) (w : BitVec 2) (maj : BitVec 6) (len : BitVec 2) : Word32 := b ++ a ++ d ++ fn ++ w ++ maj ++ len

/-- The state as an attempt to issue leaves it: the cycle goes on behind it, the slot is used, and the thread is the current one. -/
def issuing (s : State) (t : ThreadRef) (c k : Nat) : State := { ({ s with phase := .issue c (k + 1) } : State).useSlot t with cur := t }

end Sys2Proof.Claims

/-- What an instruction on registers leaves as it was (R69, R99), whether it completes, waits or traps: every byte of memory and its full/empty bits,
every other thread, every name but its destination, the thread's trap vector, return stack and seal base, and its place in the random stream (a floating
lane instruction's draws move the index, R137). -/
def Obligations.RegisterFrame : Prop :=
  ∀ (s t : State) (i : Instr) (d : NameRef), registerDst i = some d → s.latent = [] → exec i s = .next t →
    (∀ a, memByte t.mem a = memByte s.mem a) ∧ t.empties = s.empties ∧ t.poison = s.poison ∧ t.cur = s.cur ∧
    (∀ u, u ≠ s.cur → t.thread u = s.thread u) ∧
    (∀ n, (∀ k, d = .cat k → k.toNat ≠ n) → t.me.name n = s.me.name n) ∧
    t.me.tvec = s.me.tvec ∧ t.me.rstack = s.me.rstack ∧ t.me.sealb = s.me.sealb ∧ t.me.rkey = s.me.rkey ∧ t.me.rpos = s.me.rpos ∧
    (fltLane i = none → t.me.ridx = s.me.ridx ∧ t.me.rlast = s.me.rlast) ∧ t.gangs = s.gangs ∧ t.contexts = s.contexts ∧ t.cycle = s.cycle

/-- A step runs the instruction decoded at the program counter (R84, R96, R122, R217): a code word is what local memory holds as the cycle begins; where the words at a READY thread's pc
decode to an instruction of that length, its slot is that instruction; when it is the next slot of the cycle, the step is the meaning of that instruction on a state that differs by the used slot, the
thread's fetch buffer and the counts alone. Where it rests on the model's own choices: logs 1, 6. -/
def Obligations.StepRunsInstruction : Prop :=
  (∀ (s : State) (tile a : Nat), (∀ p ∈ s.fresh, p.1 ≠ localKey tile a / 8) → a % 4 = 0 →
    s.codeWord tile a = ⟨a, BitVec.ofNat 32 (s.natAt (localKey tile a) 4), s.poisoned (localKey tile a) 4⟩) ∧
  (∀ (s : State) (t : ThreadRef) (w0 : Word32) (ws : List Word32) (i : Instr), (s.thread t).st = .ready → (s.core t.coreRef).repacking t.h = false →
    (s.core t.coreRef).issued ≠ s.cycle + 1 → (s.thread t).pend = none → (s.thread t).vg = .solo → (s.thread t).fbuf = [] → s.stopping t = false → s.atCheckpoint t = false →
    (w0 :: ws).length = (formOf (w0.setWidth 2)).words → CodeAt s t.tile (s.thread t).pc (w0 :: ws) → decodeWords (w0 :: ws) = .ok i →
    s.slot t = some (.fetched (.instr i (w0 :: ws).length))) ∧
  (∀ (s : State) (cls key c k : Nat) (t : ThreadRef) (i : Instr) (n : Nat), s.agenda = [] → s.phase = .issue cls key →
    s.nextTurn cls key = some (c, k, .slot t (.fetched (.instr i n))) → (s.thread t).vg = .solo →
    step s = exec i { ((issuing s t c k).refill t n).count t.coreRef 0 with seq := ((issuing s t c k).refill t n).seq + 1 }) ∧
  (∀ (s : State) (t : ThreadRef) (c k n : Nat), s.latent = [] → ∀ z, z = ((issuing s t c k).refill t n).count t.coreRef 0 →
    z.mem = s.mem ∧ z.empties = s.empties ∧ z.cur = t ∧ (∃ f, z.me = { s.thread t with fbuf := f }) ∧ (∀ u, u ≠ t → z.thread u = s.thread u) ∧
    z.gangs = s.gangs ∧ z.cycle = s.cycle ∧ z.seq = s.seq)

/-- Words written out from the encoding tables (R84, R85, R88, R89, R94): what they decode to. -/
def Obligations.DecodedWords : Prop :=
  decodeWords [base3 0b000011 0b000010 0b000001 0b0000 0b00 0b000001 0b00] = .ok (.aluAdd ⟨.base, .none, 0⟩ (.cat 1) (.cat 2) (.cat 3)) ∧
  decodeWords [base3 0b111111 0b000010 0b000001 0b0001 0b01 0b000001 0b01, 0x89ABCDEF, 0x01234567] =
    .ok (.aluSub ⟨.baseLit, .near, 0x0123456789ABCDEF⟩ (.cat 1) (.cat 2) (.fixed .lit)) ∧
  decodeWords [base3 0b111111 0b000010 0b000001 0b0000 0b00 0b000010 0b00] = .ok (.aluiAdd ⟨.base, .none, 0⟩ (.cat 1) (.cat 2) (-1)) ∧
  decodeWords [base3 0b000001 0b000010 0b000001 0b0011 0b00 0b001100 0b00] = .ok (.ldD ⟨.base, .none, 0⟩ (.cat 1) (.cat 2) 8) ∧
  decodeWords [base3 0 0 0 0b0001 0b11 0b000001 0b10] = .error .truncated

/-- DECODE AND ENCODE AGREE (R84 to R94): for every well-formed instruction that has words, the decoder reads from its bytes that instruction and leaves the bytes behind it. -/
def Obligations.EncodingRoundTrip : Prop :=
  ∀ (i : Instr) (rest : List Byte), i.wf = true → encode i ≠ [] → decode (bytesOfWords (encode i) ++ rest) = .ok (i, rest)

/-- EVERY STEP KEEPS MEMORY IN ITS CANONICAL FORM: whatever the step does, addresses rise strictly and no byte is listed that reads as an unlisted one. Where it rests on the model's own choices: log 4. -/
def Obligations.StepKeepsMemoryForm : Prop :=
  ∀ s t : State, s.memOk → step s = .next t → t.memOk

/-- The machine right after reset (R61, R348, R387): memory holds nothing listed and is in its canonical form, no gang, launch, context or image
is there, no thread runs, the module is in reduced service with training unfinished, and cycle 0 comes. Where it rests on the model's own choices: logs 3, 4. -/
def Obligations.ResetState : Prop :=
  State.reset.memOk ∧ (∀ a, memByte State.reset.mem a = 0) ∧ State.reset.gangs = [] ∧ State.reset.launches = [] ∧ State.reset.contexts = [] ∧
  State.reset.images = [] ∧ (∀ t, (State.reset.thread t).st = .empty) ∧ State.reset.rdy = false ∧ State.reset.red = true ∧ State.reset.cycle = 0 ∧
  State.reset.vltsize = 0 ∧ State.reset.invals = [] ∧ State.reset.agenda = [] ∧
  State.reset.devstat = 0x0000_0800_0000_0002 ∧ (∀ k, State.reset.hbmalt k = 0) ∧ State.reset.ath = 1024

/-! ## Completion, under conditions on the state and the operands alone -/
namespace Sys2Proof.Claims

/-- What a source field reads as (R65, R67, R78): a name's copy, of an instruction that has run as it was when it read it; a port's oldest word, or the
one that the instruction has taken from it. -/
def srcOf (s : State) (h : Hdr) : NameRef → Src
  | .cat k => s.nameSrc s k
  | .fixed f => ⟨s.ent (.fixed f), match f with
    | .zero => 0
    | .tid => s.tnum s.cur
    | .lit => h.lit.toNat
    | .portEng => (((State.taken (.fixed f) s).map (·.1)).getD (s.myCore.portEng.headD 0)).toNat
    | _ => (((State.taken (.fixed f) s).map (·.1)).getD ((s.inbound ((portDir (.fixed f)).getD .n)).headD 0)).toNat⟩

/-- The state with a source field read: a port without its oldest word, or the instruction without the one it has taken. -/
def popped (s : State) (n : NameRef) : State :=
  if n ≠ .fixed .portEng ∧ portDir n = none then s
  else if let some t := State.taken n s then t.2
  else match n, portDir n with
  | .fixed .portEng, _ => s.setMyCore { s.myCore with portEng := s.myCore.portEng.tail }
  | _, some d => s.setInbound d (s.inbound d).tail
  | _, none => s

/-- What source fields read as, in their order (R99). -/
def srcsOf (s : State) (h : Hdr) : List NameRef → List Src
  | [] => []
  | n :: l => srcOf s h n :: srcsOf (popped s n) h l

/-- The state with source fields read. -/
def readSt (s : State) (l : List NameRef) : State := l.foldl popped s

/-- Source fields can be read: each port among them holds a word that no older instruction is to read, or the instruction has taken it (R65, R99). -/
def Readable (s0 s : State) : List NameRef → Prop
  | [] => True
  | n :: l => ((State.taken n s).isSome = true ∨
      (n = .fixed .portEng → s.myCore.portEng ≠ []) ∧ (∀ d, portDir n = some d → s.inbound d ≠ []) ∧
      (n = .fixed .portEng ∨ (portDir n).isSome = true → s.myCore.portAhead s.cur.h s0.mySeq n = false)) ∧ Readable s0 (popped s n) l

/-- An instruction that has not waited passes its checks and can read its sources. -/
def Starts (s : State) (i : Instr) (h : Hdr) (srcs dsts : List NameRef) : Prop :=
  s.me.wait = none ∧ Passes s i h srcs dsts ∧ Readable s s srcs

/-- An instruction of latency `lat` passes its checks, can read its sources, and writes now: it has not waited and the latency is none, or it has run
for it (R87, R102). -/
def Goes (s : State) (i : Instr) (h : Hdr) (lat : Nat) (srcs dsts : List NameRef) : Prop :=
  Passes s i h srcs dsts ∧ Readable s s srcs ∧ s.writesNow lat = true

/-- A destination other than `port.eng` can take a word: a mesh port leads into the gang and has room (R65). -/
def Room (s : State) (d : NameRef) : Prop :=
  d ≠ .fixed .portEng ∧ ∀ dir, portDir d = some dir → s.neighbourIn dir = true ∧ (s.outbound dir).length < 16

/-- An exact integer can be written by R69: the mode does not trap on it. -/
def IntFits (s : State) (d : NameRef) (x : Int) : Prop :=
  Room s d ∧ (isCat d = true → (r69 (s.ent d).kind (s.ent d).width (s.ent d).mode x).isSome = true)
/-- The state with it written (R68, R69). -/
def intPut (s : State) (d : NameRef) (x : Int) : State :=
  match d, portDir d with
  | .cat n, _ => s.putName n (patOf (s.ent d).width ((r69 (s.ent d).kind (s.ent d).width (s.ent d).mode x).getD 0))
  | _, some dir => s.pushOut dir [w64 x]
  | _, none => s
/-- The state with a pattern written. -/
def patPut (s : State) (d : NameRef) (p : Nat) : State :=
  match d with
  | .cat n => s.putName n (BitVec.ofNat 528 (p % 2 ^ (s.ent d).width))
  | _ => intPut s d p

/-- Integer lanes can be written: no lane traps (R179). -/
def LanesFit (s : State) (d : NameRef) (w : Nat) (xs : List Int) : Prop :=
  Room s d ∧ ∀ x ∈ xs, (r69 (s.ent d).kind w (s.ent d).mode x).isSome = true
/-- The state with them written: each by R69 at the lane width (R179). -/
def lanePut (s : State) (d : NameRef) (w : Nat) (xs : List Int) : State :=
  patPut s d (packLanes w (xs.map fun x => wrapNat w ((r69 (s.ent d).kind w (s.ent d).mode x).getD 0)))

/-- The next draws of the current thread's stream (R308). -/
def drawList (s : State) (n : Nat) : List Nat := (List.range n).map fun k => drawOf s.me.rkey.toNat s.me.rpos.toNat (s.me.ridx.toNat + k)
/-- The state with them taken. -/
def drawn (s : State) (n : Nat) : State :=
  if n = 0 then s
  else s.setMe { s.me with ridx := BitVec.ofNat 24 (s.me.ridx.toNat + n), rlast := n64 ((drawList s n).getLastD 0) }
/-- The stream has them (R308). -/
def DrawsLeft (s : State) (n : Nat) : Prop := n = 0 ∨ s.me.ridx.toNat + n < 2 ^ 24
/-- The draws that rounding the elements of a mask takes (R137). -/
def drawCount (md : RMode) (mask : List Bool) : Nat := if md = .rst then (mask.filter id).length else 0

/-- The draws of written floating lanes, one place for each element that is rounded (R137, R140, R183). -/
def fltDraws (s : State) (d : NameRef) (r : Rnd) (l : LaneRule) (xs : List XVal) : List Nat :=
  spread (l.mask (s.ent d) xs) (drawList s (drawCount (rmodeOf r (s.ent d)) (l.mask (s.ent d) xs)))
/-- The format that floating lanes are written in. -/
def fltFormat (e : NameEnt) (f : FF) : FF := if e.kind.isFloat then e.kind.ff else f
/-- The codes of floating lanes, or the TVAL of one that traps (R139, R179). -/
def fltCodes (s : State) (d : NameRef) (f : FF) (r : Rnd) (l : LaneRule) (xs : List XVal) : List (Nat ⊕ Word64) :=
  (List.range xs.length).map fun j => fpWrite (fltFormat (s.ent d) f)
    (if (s.ent d).kind.isInt && (s.ent d).mode == .wrap then .sat else (s.ent d).mode) (rmodeOf r (s.ent d))
    ((fltDraws s d r l xs).getD j 0 % 2 ^ 24) (xs.getD j .nan)
/-- A granule of them, and what it counts (R140, R190). -/
def fltGran (s : State) (d : NameRef) (r : Rnd) (l : LaneRule) (xs : List XVal) : Nat × QCount :=
  ((quantGran (s.ent d) (rmodeOf r (s.ent d)) (fltDraws s d r l xs) (.fin false 1 0) none xs).1,
   l.counts (quantGran (s.ent d) (rmodeOf r (s.ent d)) (fltDraws s d r l xs) (.fin false 1 0) none xs).2)

/-- Floating lanes can be written: their draws are left, no lane traps, and a granule crosses no threshold (R145, R179). -/
def FltFits (s : State) (d : NameRef) (f : FF) (r : Rnd) (l : LaneRule) (xs : List XVal) : Prop :=
  discards d = true ∨
    Room s d ∧ DrawsLeft s (drawCount (rmodeOf r (s.ent d)) (l.mask (s.ent d) xs)) ∧
      if (s.ent d).kind.isGran = true then (fltGran s d r l xs).2.trips s.myCore.cqthresh = false
      else ∀ c ∈ fltCodes s d f r l xs, c.isLeft = true
/-- The state with them written (R140, R145, R179). -/
def fltPut (s : State) (d : NameRef) (f : FF) (r : Rnd) (l : LaneRule) (xs : List XVal) : State :=
  if discards d then s
  else
    let z := drawn s (drawCount (rmodeOf r (s.ent d)) (l.mask (s.ent d) xs))
    if (s.ent d).kind.isGran then (patPut z d (fltGran s d r l xs).1).countQ s.cur.coreRef (fltGran s d r l xs).2 s.myCore.cqthresh
    else patPut z d (packLanes (fltFormat (s.ent d) f).bits ((fltCodes s d f r l xs).map fun c => match c with | .inl v => v | .inr _ => 0))

/-- One floating value in a name's own format (R69, R139). -/
def realCode (s : State) (d : NameRef) (r : Rnd) (x : XVal) : Nat ⊕ Word64 :=
  fpWrite (s.ent d).kind.ff (s.ent d).mode (rmodeOf r (s.ent d)) ((drawList s (drawCount (rmodeOf r (s.ent d)) [true])).headD 0 % 2 ^ 24) x
/-- It can be written. -/
def RealFits (s : State) (d : NameRef) (r : Rnd) (x : XVal) : Prop :=
  isCat d = true ∧ DrawsLeft s (drawCount (rmodeOf r (s.ent d)) [true]) ∧ (realCode s d r x).isLeft = true
/-- The state with it written. -/
def realPut (s : State) (d : NameRef) (r : Rnd) (x : XVal) : State :=
  match d, realCode s d r x with
  | .cat n, .inl c => (drawn s (drawCount (rmodeOf r (s.ent d)) [true])).putName n (BitVec.ofNat 528 c)
  | _, _ => s

/-- One exact integer can be written to a name of any kind but a granule (R69). -/
def OneFits (s : State) (d : NameRef) (r : Rnd) (x : Int) : Prop :=
  s.oneDst d = true ∧ if (s.ent d).kind.isFloat = true then RealFits s d r (FVal.int x).x else IntFits s d x
/-- The state with it written. -/
def onePut (s : State) (d : NameRef) (r : Rnd) (x : Int) : State :=
  if (s.ent d).kind.isFloat then realPut s d r (FVal.int x).x else intPut s d x

/-- The fence of a scope is through (R255, R258). -/
def Fenced (s : State) (sc : Scope) : Prop := sc = .thr ∨ sc = .core ∨ (s.portHeld = false ∧ s.fenceClear sc allBytes = true)
/-- A global address is mapped for the access and its bank answers (R359, R385, R396). -/
def Mapped (s : State) (g : Nat) (w : Bool) (e : TEntry) : Prop :=
  s.portHeld = false ∧ s.tlb? s.cur.tile s.myKernel.ctx g = some e ∧ (w = true → e.w = true) ∧ s.routeDown (e.pa g) = false ∧
    s.peerRefused (e.pa g) w = false ∧ s.bankOff (e.pa g) = false
/-- A destination may be named by an instruction that replies to it (R65). -/
def ReplyTo (s : State) (d : NameRef) : Prop := ∀ dir, portDir d = some dir → s.neighbourIn dir = true

/-! ### Full/empty operations -/

/-- The source fields of a full/empty operation, and its destinations. -/
def feSrcs (f : FeFn) (a d : NameRef) : List NameRef := if f = .stf ∨ f = .sto then [a, d] else [a]
/-- Its destinations. -/
def feDsts (f : FeFn) (d : NameRef) : List NameRef := if f = .stf ∨ f = .sto ∨ f = .clr then [] else [d]

/-- What a full/empty operation on the word of key `k` leaves (R269): `s0` the state before it, `s` with its operands read, `w` the word, `put` with the
word stored, `bit` with its durability undo noted. -/
def feLeaves (i : Instr) (h : Hdr) (d : NameRef) (k w : Nat) (s0 s put bit : State) : FeFn → State
  | .ldf => s0.await h i d (.int w) (s.found s.cur 2 s.myKernel.ctx k 8)
  | .ldk => (s0.await h i d (.int w) ((bit.found s.cur 2 s.myKernel.ctx k 8).setFull k false)).undoing
      [(s.found s.cur 2 s.myKernel.ctx k 8).changed k 8 ((bit.found s.cur 2 s.myKernel.ctx k 8).setFull k false)]
  | .stf => (put.setFull k true).done h
  | .sto => (put.setFull k true).done h
  | .clr => ((bit.found s.cur 2 s.myKernel.ctx k 8).setFull k false).done h
  | .tst => s0.await h i d (.int (if (s.found s.cur 2 s.myKernel.ctx k 8).full k then 1 else 0)) (s.found s.cur 2 s.myKernel.ctx k 8)

/-- The word of key `k` lets the operation go on: its bit is as the function needs it, no operation waits before it, and a function that reads meets no
poison (R213, R258, R269). -/
def WordReady (s : State) (k : Nat) (f : FeFn) : Prop :=
  (∀ b, wants f = some b → s.full k = b) ∧ s.feAhead k = false ∧ (f = .stf ∨ f = .sto ∨ s.poisoned k 8 = false)

/-- A full/empty operation of the state `s` goes on, with the operands `x` and `v` read in `s1`, and leaves `z`: on a word of local memory, or on one
of a mapped page, whose reply may come from another module (R213, R258, R269, R384). -/
def FeRuns (s : State) (i : Instr) (h : Hdr) (d : NameRef) (o : BitVec 32) (sc : Scope) (f : FeFn) (x v : Src) (s1 z : State) : Prop :=
  (f = .stf ∨ f = .sto ∨ f = .clr ∨ s.oneDst d = true ∧ ReplyTo s1 d) ∧ Fenced s1 sc ∧
  ((∃ l k, Local (x.val + o.toInt) 8 l ∧ k = localKey s1.cur.tile l ∧ s1.boardAny s1.cur.tile l 8 = false ∧ WordReady s1 k f ∧
      z = feLeaves i h d k (s1.natAt k 8) s s1 (s1.putBytes k (bytesOfNat 8 (v.bitsOf 64))) s1 f) ∨
   (∃ g e pa, s1.window s1.me (x.val + o.toInt) = .glob g ∧ (x.val + o.toInt) % 8 = 0 ∧ Mapped s1 g (f != .ldf && f != .tst) e ∧ pa = e.pa g ∧
      (∀ b ∈ s1.myCore.sbuf, b.seq < s1.mySeq → b.covers s1.myKernel.ctx (64 * (g / 64)) 64 = false ∧
        s1.scalesIn s1.cur.tile b (64 * (pa / 64)) 64 = false) ∧
      (∀ b ∈ s1.myTile.side, b.core = s1.cur.core → b.seq < s1.mySeq → b.covers s1.myKernel.ctx (64 * (g / 64)) 64 = false) ∧
      WordReady s1 pa f ∧
      z = (feLeaves i h d pa (natOfBytes (s1.homeBytes e.key pa 8)) s s1
        (s1.homeWrite (tileDie s1.cur.tile) (some (s1.writer g 8)) e.key pa (bytesOfNat 8 (v.bitsOf 64))) (s1.vaultMark (some (s1.writer g 8)) pa) f).viaHome pa g))

end Sys2Proof.Claims

/-- Every full/empty operation completes on a word that is as it needs it, local or global, when it issues and, for one that waits for the bit, when the
machine finds the bit for it. -/
def Sys2Proof.Claims.FullEmptyCompletes : Prop :=
  ∀ (s : State) (i : Instr) (h : Hdr) (d a : NameRef) (o : BitVec 32) (sc : Scope) (f : FeFn), fullEmpty i = some (h, d, a, o, sc, f) →
    (∀ z, Starts s i h (feSrcs f a d) (feDsts f d) →
      FeRuns s i h d o sc f (srcOf s h a) (srcOf (popped s a) h d) (readSt s (feSrcs f a d)) z → exec i s = .next z) ∧
    (∀ w k z, s.me.wait = some w → w.why = .retry 10 k → w.instr = i → w.src = none → w.took = [] → wants f ≠ none →
      Passes s i h (feSrcs f a d) (feDsts f d) → (∀ n ∈ feSrcs f a d, n ≠ .fixed .portEng ∧ portDir n = none) →
      FeRuns s i h d o sc f (srcOf s h a) (srcOf s h d) s z → exec (.feWaitSatisfied s.cur) s = .next z)

/-- The seal instructions and the fence complete (R248, R255 to R257, R271, R272): a range is added to the context's table or taken from it, a seal's word is
read, or is one more once the seal's older stores are at their homes, and a fence goes on once nothing is left for it. -/
def Sys2Proof.Claims.SealsComplete : Prop :=
  ∀ (s : State) (h : Hdr) (d a : NameRef) (sc : Scope),
    (∀ s2 x y c b, s2 = readSt s [a, d] → x = srcOf s h a → y = srcOf (popped s a) h d → s2.portHeld = false →
      s2.context? s2.myKernel.ctx = some c → y.pat < 2 ^ 58 → boundable x.val (fieldOf y.pat 0 48) = true →
      b = ⟨fieldOf y.pat 48 10, x.val.toNat, fieldOf y.pat 0 48⟩ →
      (Starts s (.syncBind h d a) h [a, d] [] → c.sbind.contains b = false → (∀ o ∈ c.sbind, o.sl ≠ b.sl → o.overlaps b.start b.len = false) →
        c.sbind.length < 1024 →
        exec (.syncBind h d a) s = .next ((s2.modContext s2.myKernel.ctx fun z => { z with sbind := c.sbind ++ [b] }).done h)) ∧
      (Starts s (.syncUnbind h d a) h [a, d] [] → c.sbind.contains b = true →
        exec (.syncUnbind h d a) s = .next (((s2.modContext s2.myKernel.ctx fun z => { z with sbind := c.sbind.erase b }).dropReflections
          (fun _ => true) s2.myKernel.ctx b.start b.len).done h))) ∧
    (∀ s1 k g e, s1 = readSt s [a] → s.oneDst d = true → ReplyTo s1 d → (srcOf s h a).val = ((k : Nat) : Int) → k < 1024 →
      s1.globWin (s1.sealAddr k) = .glob g → s1.poisoned (e.pa g) 8 = false →
      (∀ z, Starts s (.syncAcq h d a sc) h [a] [d] → Mapped s1 g false e → z = s1.found s1.cur 0 s1.myKernel.ctx (e.pa g) 8 →
        exec (.syncAcq h d a sc) s = .next ((s.await h (.syncAcq h d a sc) d (.int (natOfBytes (s1.homeBytes e.key (e.pa g) 8)))
          (if sc = .dev ∨ sc = .sys ∨ sc = .recov then
            (z.sealRanges z.myKernel.ctx k).foldl (fun t b => t.dropReflections (· == tileDie z.cur.tile) z.myKernel.ctx b.start b.len) z
            else z)).readsAt g 8)) ∧
      (∀ y v z, Starts s (.syncRel h d a sc) h [a] [d] → Mapped s1 g true e →
        s1.fenceClear sc (fun c p n => c == s1.myKernel.ctx && (s1.sealRanges s1.myKernel.ctx k).any fun r => r.overlaps p n) = true →
        y = s1.found s1.cur 2 s1.myKernel.ctx (e.pa g) 8 → v = (natOfBytes (y.homeBytes e.key (e.pa g) 8) + 1) % 2 ^ 64 →
        z = y.homeWrite (tileDie y.cur.tile) (some (y.writer g 8)) e.key (e.pa g) (bytesOfNat 8 v) → (sc = .recov → z.undurable = false) →
        exec (.syncRel h d a sc) s = .next (((s.await h (.syncRel h d a sc) d (.int v) z).readsAt g 8).undoing
          [y.changed (keyedSpan e.key (e.pa g) 8).1 (keyedSpan e.key (e.pa g) 8).2 z]))) ∧
    (Starts s (.syncFence h sc) h [] [] → Fenced s sc → exec (.syncFence h sc) s = .next (s.done h))

/-- The task instructions complete (R218, R229, R230, R234, R274, R275): a record is pushed or taken; a steal goes out, or finds no neighbour; a thread parks; a
tour is armed; `task.done` tells whether it has finished. -/
def Sys2Proof.Claims.TasksComplete : Prop :=
  ∀ (s : State) (h : Hdr) (a b d : NameRef),
    (∀ s2 x y, Starts s (.taskSpawn h a b) h [a, b] [] → s2 = readSt s [a, b] → x = srcOf s h a → y = srcOf (popped s a) h b → Target x.val →
      (s2.myCore.dqHas = true → s2.myCore.dqOwner = some s2.myKernel.sb) → s2.myCore.dqBusy s2.cycle = false → s2.myCore.dq.length < 32 →
      exec (.taskSpawn h a b) s = .next ((s2.setMyCore (s2.myCore.push ⟨x.val.toNat, w64 y.val⟩ s2.myKernel.sb s2.cycle)).done h)) ∧
    (s.argDst d = true →
      (∀ q k, Starts s (.taskPop h d) h [] [d] → s.myCore.dqOwner = some s.myKernel.sb → s.myCore.dqBusy s.cycle = false → s.myCore.dq = q ++ [k] →
        exec (.taskPop h d) s = .next ((s.setCore s.cur.coreRef ({ s.myCore with dq := q }.tookOne s.cycle)).giveRecord s.cur d s.me.pc k)) ∧
      (Starts s (.taskPop h d) h [] [d] → s.myCore.dqOwner ≠ some s.myKernel.sb → exec (.taskPop h d) s = .next (s.done h)) ∧
      (Starts s (.taskSteal h d) h [] [d] →
        if s.victims s.cur (stealOrder s.myCore.stealDir) = [] then exec (.taskSteal h d) s = .next (s.done h)
        else ∃ z, exec (.taskSteal h d) s = .next z ∧ z.me.st = .waiting ∧ z.me.pc = s.me.pc ∧ z.stealing s.cur = true) ∧
      (Starts s (.taskPark h d) h [] [d] → ∃ z, exec (.taskPark h d) s = .next z ∧ z.me.st = .parked ∧ z.me.pc = s.me.pc ∧ z.mem = s.mem) ∧
      (Starts s (.taskDone h d) h [] [d] → IntFits s d (if s.tourDone s.cur then 1 else 0) →
        exec (.taskDone h d) s = .next ((intPut s d (if s.tourDone s.cur then 1 else 0)).done h))) ∧
    (Starts s (.taskTour h) h [] [] → exec (.taskTour h) s = .next ((match s.tour? s.myKernel.gang s.myKernel.pos with
      | some _ => s.modTour s.myKernel.gang s.myKernel.pos fun t => { t with armed := true }
      | none => s.modGang s.myKernel.gang fun x => { x with tours := x.tours ++ [(⟨s.myKernel.pos, true, none, none, false⟩ : Tour)] }).done h))

/-- The barrier instructions complete (R222, R277, R278): an arrival is recorded; `bar.sync` and `bar.stat` go on behind theirs once the phase is
complete, and so does a wait for it; `bar.done` sets the flags. -/
def Sys2Proof.Claims.BarriersComplete : Prop :=
  ∀ (s : State) (h : Hdr) (d a : NameRef) (lv : BarLevel), s.barOk lv = true →
    (∀ q, Starts s (.barArrive h d lv) h [] [d] → q = s.barP s.cur.tile lv → s.me.arrived lv q = false → OneFits s d .attr q.toNat →
      exec (.barArrive h d lv) s = .next (((onePut s d .attr q.toNat).arrive lv q).done h)) ∧
    (∀ i q, i = .barSync h d lv ∨ i = .barStat h a lv → s.stage = some (19, q) → phaseDone (s.barP s.cur.tile lv) (BitVec.ofNat 32 q) = true →
      exec i s = .next (s.done h)) ∧
    (∀ s1, Starts s (.barWait h a lv) h [a] [] → s1 = readSt s [a] →
      phaseDone (s1.barP s1.cur.tile lv) (BitVec.ofInt 32 (srcOf s h a).val) = true → exec (.barWait h a lv) s = .next (s1.done h)) ∧
    (∀ s1, Starts s (.barDone h a) h [a] [] → s1 = readSt s [a] →
      exec (.barDone h a) s = .next ((s1.setMe { s1.me with flags := BitVec.ofInt 32 (srcOf s h a).val }).done h))

/-- The group instructions complete (R291 to R299, R301, R302, R304): an object is opened, forked of one, asked, freed by its opener; a member posts a
reward below the quorum, and of a DONE group receives its advantage or the first failure and leaves. -/
def Sys2Proof.Claims.GroupsComplete : Prop :=
  ∀ (s : State) (h : Hdr) (d a : NameRef) (s1 : State) (x : Src), s.me.vg = .solo → s1 = readSt s [a] → x = srcOf s h a →
    (∀ gid k q tmo : Nat, Starts s (.grpOpen h a) h [a] [] → x.val = ((gid + k * 2 ^ 8 + q * 2 ^ 16 + tmo * 2 ^ 24 : Nat) : Int) → gid < 64 → 1 ≤ q → q ≤ k →
      k ≤ 64 → tmo < 2 ^ 16 → s1.groupSt s1.myKernel.gang gid = .free →
      exec (.grpOpen h a) s = .next ((s1.putGroup s1.myKernel.gang ⟨gid, .opened, s1.cur, k, q, tmo,
        ((s1.gang? s1.myKernel.gang).map (·.geps)).getD 0, [], [], none, 0, false, false, 0⟩).done h)) ∧
    (∀ gid : Nat, x.val = (gid : Int) → gid < 64 →
      (∀ o, s1.group? s1.myKernel.gang gid = some o → o.opener = s1.cur →
        (Starts s (.grpFork h d a) h [a] [d] → o.st = .opened → o.k = 1 → s1.me.rsCnt = 0 → s1.me.gmV = false → s1.me.bad = [] →
          s1.myCore.unitBusy s1.cur.h s.mySeq = false → (s1.ent d).kind.isInt = true → IntFits s1 d 0 →
          exec (.grpFork h d a) s = .next (
            let z := intPut s1 d 0
            let l := s1.myKernel.rows + s1.myKernel.reserve
            let m := { z.me with gmV := true, gmRes := false, gmGid := BitVec.ofNat 6 gid, gmIdx := 0, posted := none }
            let y := s.doneLat h (.grpFork h d a) (8 + 2 * l) ((z.setMe m).putGroup s1.myKernel.gang { o with st := .forked })
            y.setMyCore (y.myCore.freeze s1.myKernel (.fork s.mySeq) true s1.cur.h s1.me.pc (s1.cycle + 8 + 2 * l)))) ∧
        (Starts s (.grpClose h a) h [a] [] → o.st = .done → o.combined < s1.cycle → s1.members s1.myKernel.gang gid = [] →
          exec (.grpClose h a) s = .next ((s1.freeGroup s1.myKernel.gang gid).done h)) ∧
        (Starts s (.grpCancel h a) h [a] [] → o.st = .opened →
          exec (.grpCancel h a) s = .next ((s1.freeGroup s1.myKernel.gang gid).done h))) ∧
      (Starts s (.grpStat h d a) h [a] [d] → OneFits s1 d .attr (s1.gstat s1.myKernel.gang gid) →
        exec (.grpStat h d a) s = .next ((onePut s1 d .attr (s1.gstat s1.myKernel.gang gid)).done h)) ∧
      (s.me.gmV = true → s.me.gmGid.toNat = gid → s.me.posted.isSome = true → s1.groupSt s1.myKernel.gang gid = .done →
        (∀ v t, Starts s (.grpWait h d a) h [a] [d] → v = (FF.f32.value s.me.adv.toNat).x →
          (d = .fixed .zero ∧ t = s1 ∨ (s.ent d).kind.isFloat = true ∧ RealFits s1 d .attr v ∧ t = realPut s1 d .attr v) →
          exec (.grpWait h d a) s = .next ((t.setMe { t.me.leaveGroup with posted := none }).done h)) ∧
        (∀ t, Starts s (.grpWaitFf h d a) h [a] [d] → (s.ent d).kind.isInt = true → IntFits s1 d s.me.ff.toNat → t = intPut s1 d s.me.ff.toNat →
          exec (.grpWaitFf h d a) s = .next ((t.setMe { t.me.leaveGroup with posted := none }).done h)))) ∧
    (∀ o v, Starts s (.grpReward h a) h [a] [] → (isCat a = true → (s.ent a).kind.isGran = false ∧ (s.ent a).kind ≠ .raw) →
      s1.group? s1.myKernel.gang s1.me.gmGid.toNat = some o → s1.me.gmV = true → s1.me.posted = none → v = FF.f32.round .rne 0 x.real.x →
      v.isFin = true → FF.f32.beyond v = false → o.posts.length + 1 < o.q →
      exec (.grpReward h a) s = .next (((s1.setMe { s1.me with posted := some (BitVec.ofNat 32 (FF.f32.code v)) }).combineIfAll s1.myKernel.gang
        { o with posts := o.posts ++ [(s1.me.gmIdx.toNat, BitVec.ofNat 32 (FF.f32.code v))] }).done h))

/-- Full/empty operations, seals, fences, tasks, barriers and groups complete wherever the state and their operands meet the conditions of their rules
(R213, R222, R229, R248, R255 to R257, R269, R275, R277, R291 to R304). Where it rests on the model's own choices: logs 25, 30, 31, 32, 35. -/
def Obligations.SynchronisationCompletes : Prop :=
  Claims.FullEmptyCompletes ∧ Claims.SealsComplete ∧ Claims.TasksComplete ∧ Claims.BarriersComplete ∧ Claims.GroupsComplete

/-- The integer lane instructions and the integer reductions complete with the lanes that their functions give (R179, R182, R184); `vred.scan` runs for
its 12 cycles before it writes. -/
def Sys2Proof.Claims.IntegerLanesComplete : Prop :=
  (∀ (s : State) (i : Instr) (h : Hdr) (d : NameRef) (fs : List NameRef) (w : LaneW) (f : (Nat → Int) → Int) (s1 : State) (xs : List Int),
    intLane i = some (h, d, fs, w, f) → Starts s i h fs [d] → ilaneCount (s.ent d) (laneBits w) ≠ 0 →
    (∀ n ∈ fs, ilaneCount (s.ent n) (laneBits w) = ilaneCount (s.ent d) (laneBits w) ∨ ilaneCount (s.ent n) (laneBits w) = 1) →
    s1 = readSt s fs → xs = ((List.range (ilaneCount (s.ent d) (laneBits w))).map fun j =>
      f fun k => pick 0 (((srcsOf s h fs).map fun x => x.lanes (laneBits w)).getD k []) j) → LanesFit s1 d (laneBits w) xs →
    exec i s = .next ((lanePut s1 d (laneBits w) xs).done h)) ∧
  (∀ (s : State) (i : Instr) (h : Hdr) (d a : NameRef) (w : LaneW) (r : Rnd) (f : List Int → Int) (s1 : State) (x : Int),
    intRed i = some (h, d, a, w, r, f) → Starts s i h [a] [d] → ilaneCount (s.ent a) (laneBits w) ≠ 0 → s1 = readSt s [a] →
    x = f ((srcOf s h a).lanes (laneBits w)) → OneFits s1 d r x → exec i s = .next ((onePut s1 d r x).done h)) ∧
  (∀ (s : State) (h : Hdr) (d a : NameRef) (w : LaneW) (g : LaneF) (r : Rnd) (s1 : State) (xs : List Int), ilaneCount (s.ent a) (laneBits w) ≠ 0 →
    ilaneCount (s.ent d) (laneBits w) = ilaneCount (s.ent a) (laneBits w) →
    (Starts s (.vredScan h d a w g false r) h [a] [d] → exec (.vredScan h d a w g false r) s = .next (s.running (.vredScan h d a w g false r) 12)) ∧
    (Goes s (.vredScan h d a w g false r) h 12 [a] [d] → s1 = readSt s [a] →
      xs = ((List.range (ilaneCount (s.ent a) (laneBits w))).map fun j => (((srcOf s h a).lanes (laneBits w)).take (j + 1)).sum) →
      LanesFit s1 d (laneBits w) xs → exec (.vredScan h d a w g false r) s = .next ((lanePut s1 d (laneBits w) xs).done h)))

/-- The floating lane instructions and the floating reductions complete, each lane rounded once (R179, R181, R183, R184); one of more than 8 cycles runs
for them before it writes. -/
def Sys2Proof.Claims.FloatLanesComplete : Prop :=
  (∀ (s : State) (i : Instr) (h : Hdr) (d : NameRef) (fs : List NameRef) (g : LaneF) (r : Rnd) (lat : Nat) (f : RMode → (Nat → FVal) → XVal)
    (s1 : State) (xs : List XVal), fltLane i = some (h, d, fs, g, r, lat, f) → flaneCount (s.ent d) (laneFF g) ≠ 0 →
    (∀ n ∈ fs, flaneCount (s.ent n) (laneFF g) = flaneCount (s.ent d) (laneFF g) ∨ flaneCount (s.ent n) (laneFF g) = 1) →
    (Starts s i h fs [d] → 8 < lat → exec i s = .next (s.running i lat)) ∧
    (Goes s i h lat fs [d] → s1 = readSt s fs → xs = ((List.range (flaneCount (s.ent d) (laneFF g))).map fun j =>
      f (rmodeOf r (s.ent d)) fun k => pick .nan (((srcsOf s h fs).map fun x => x.flanes (laneFF g)).getD k []) j) →
    FltFits s1 d (laneFF g) r .each xs → exec i s = .next ((fltPut s1 d (laneFF g) r .each xs).done h))) ∧
  (∀ (s : State) (i : Instr) (h : Hdr) (d a : NameRef) (g : LaneF) (r : Rnd) (f : RMode → List FVal → FVal) (s1 : State) (xs : List XVal),
    fltRed i = some (h, d, a, g, r, f) → Starts s i h [a] [d] → flaneCount (s.ent a) (laneFF g) ≠ 0 → flaneCount (s.ent d) (laneFF g) ≠ 0 →
    s.oneDst d = true → s1 = readSt s [a] → xs = [(f (rmodeOf r (s.ent d)) ((srcOf s h a).flanes (laneFF g))).x] →
    FltFits s1 d (laneFF g) r .usual xs → exec i s = .next ((fltPut s1 d (laneFF g) r .usual xs).done h)) ∧
  (∀ (s : State) (h : Hdr) (d a : NameRef) (w : LaneW) (g : LaneF) (r : Rnd) (s1 : State), flaneCount (s.ent a) (laneFF g) ≠ 0 → s1 = readSt s [a] →
    (∀ x, Starts s (.vredArgmax h d a w g true r) h [a] [d] → x = ((fArgmax ((srcOf s h a).flanes (laneFF g)) : Nat) : Int) → OneFits s1 d r x →
      exec (.vredArgmax h d a w g true r) s = .next ((onePut s1 d r x).done h)) ∧
    (Starts s (.vredScan h d a w g true r) h [a] [d] → flaneCount (s.ent d) (laneFF g) = flaneCount (s.ent a) (laneFF g) →
      exec (.vredScan h d a w g true r) s = .next (s.running (.vredScan h d a w g true r) 12)) ∧
    (∀ xs, Goes s (.vredScan h d a w g true r) h 12 [a] [d] → flaneCount (s.ent d) (laneFF g) = flaneCount (s.ent a) (laneFF g) →
      xs = ((List.range (flaneCount (s.ent a) (laneFF g))).map fun j =>
        (FVal.sum (rmodeOf r (s.ent d)) (((srcOf s h a).flanes (laneFF g)).take (j + 1))).x) → FltFits s1 d (laneFF g) r .usual xs →
      exec (.vredScan h d a w g true r) s = .next ((fltPut s1 d (laneFF g) r .usual xs).done h)))

/-- The lane moves complete (R185, R186), and the check accumulators (R208, R209): `chk.test` where its two values are equal. -/
def Sys2Proof.Claims.MovesComplete : Prop :=
  ∀ (s : State) (h : Hdr) (d a b : NameRef),
    (∀ i la w lanes ix s2 xs, laneMove i = some (h, d, a, b, la, w, lanes, ix) → Starts s i h [a, b] [d] → ilaneCount (s.ent d) w ≠ 0 →
      ilaneCount (s.ent a) la ≠ 0 → (lanes = true → ilaneCount (s.ent b) w = ilaneCount (s.ent d) w ∨ ilaneCount (s.ent b) w = 1) →
      s2 = readSt s [a, b] → xs = ((List.range (ilaneCount (s.ent d) w)).map fun j =>
        if 0 ≤ ix (srcOf (popped s a) h b) j ∧ ix (srcOf (popped s a) h b) j < ((srcOf s h a).lanes la).length
        then ((srcOf s h a).lanes la).getD (ix (srcOf (popped s a) h b) j).toNat 0 else 0) → LanesFit s2 d w xs →
      exec i s = .next ((lanePut s2 d w xs).done h)) ∧
    (∀ w s2 ys xs, w ≠ .l8 → Starts s (.vmovPack h d a b w) h [a, b] [d] → ilaneCount (s.ent d) (laneBits w / 2) ≠ 0 →
      ilaneCount (s.ent a) (laneBits w) ≠ 0 → (b = .fixed .zero ∨ ilaneCount (s.ent b) (laneBits w) ≠ 0) →
      ys = (if b = .fixed .zero then [] else (srcOf (popped s a) h b).lanes (laneBits w)) →
      ilaneCount (s.ent a) (laneBits w) + ys.length ≤ ilaneCount (s.ent d) (laneBits w / 2) → s2 = readSt s [a, b] →
      xs = ((List.range (ilaneCount (s.ent d) (laneBits w / 2))).map fun j => ((srcOf s h a).lanes (laneBits w) ++ ys).getD j 0) →
      LanesFit s2 d (laneBits w / 2) xs → exec (.vmovPack h d a b w) s = .next ((lanePut s2 d (laneBits w / 2) xs).done h)) ∧
    (Starts s (.vmovMov h d a) h [a] [d] → isCat d = true → isCat a = true →
      exec (.vmovMov h d a) s = .next ((patPut s d (srcOf s h a).pat).done h)) ∧
    (∀ dir k, Starts s (.vmovSend h d a) h [a] [d] → isCat a = true → portDir d = some dir → s.neighbourIn dir = true →
      k = ((s.ent a).width + 63) / 64 → (s.outbound dir).length + k ≤ 16 → exec (.vmovSend h d a) s =
        .next ((s.pushOut dir ((List.range k).map fun j => n64 ((srcOf s h a).pat / 2 ^ (64 * j)))).done h)) ∧
    (∀ dir k, Starts s (.vmovRecv h d a) h [] [a, d] → isCat d = true → portDir a = some dir → k = ((s.ent d).width + 63) / 64 →
      k ≤ (s.inbound dir).length → s.myCore.portAhead s.cur.h s.mySeq a = false → exec (.vmovRecv h d a) s =
        .next ((patPut (s.setInbound dir ((s.inbound dir).drop k)) d (ofWords ((s.inbound dir).take k))).done h)) ∧
    (∀ w ng s2 y, Starts s (.chkAcc h d a w ng) h [a, d] [] → s.chkDst d = true → s2 = readSt s [a, d] → y = srcOf (popped s a) h d → Room s2 d →
      exec (.chkAcc h d a w ng) s = .next ((patPut s2 d (wrapNat y.ent.width
        (if ng then y.val - foldSum (srcOf s h a) (laneBits w) else y.val + foldSum (srcOf s h a) (laneBits w)))).done h)) ∧
    (Starts s (.chkTest h a b) h [a, b] [] → (srcOf s h a).val = (srcOf (popped s a) h b).val →
      exec (.chkTest h a b) s = .next ((readSt s [a, b]).done h)) ∧
    (Starts s (.chkClr h d) h [] [d] → s.chkDst d = true → Room s d → exec (.chkClr h d) s = .next ((patPut s d 0).done h))

/-- The conversions complete (R188 to R191): a quantisation that crosses no threshold, its counts kept, and the lanes of the others. -/
def Sys2Proof.Claims.ConversionsComplete : Prop :=
  ∀ (s : State) (h : Hdr) (d a : NameRef) (r : Rnd) (md : RMode), md = rmodeOf r (s.ent d) →
    (∀ b c f sup s3 vs cv n ds q, Starts s (.cvtQuant h d a b c f sup r) h [a, b, c] [d] → isCat d = true → flaneCount (s.ent a) (laneFF f) ≠ 0 →
      (b = .fixed .zero ∨ flaneCount (s.ent b) (laneFF f) ≠ 0) →
      vs = (srcOf s h a).flanes (laneFF f) ++ (if b = .fixed .zero then [] else (srcOf (popped s a) h b).flanes (laneFF f)) →
      quantFits (s.ent d) (flaneCount (s.ent a) (laneFF f) + if b = .fixed .zero then 0 else flaneCount (s.ent b) (laneFF f)) = true →
      s3 = readSt s [a, b, c] → cv = wrapNat 528 (srcOf (readSt s [a, b]) h c).val → n = drawCount md (quantMask (s.ent d) c cv sup vs) →
      DrawsLeft s3 n → ds = spread (quantMask (s.ent d) c cv sup vs) (drawList s3 n) → q = quantRes (s.ent d) c cv sup md ds vs →
      q.2.trips s.myCore.cqthresh = false →
      exec (.cvtQuant h d a b c f sup r) s = .next ((patPut ((drawn s3 n).countQ s.cur.coreRef q.2 s.myCore.cqthresh) d q.1).done h)) ∧
    (∀ c f p us xs s2, Starts s (.cvtDequant h d a c f p r) h [a, c] [d] → flaneCount (s.ent d) (laneFF f) ≠ 0 →
      (p.toNat + 1) * flaneCount (s.ent d) (laneFF f) ≤ dequantCount a (s.ent a) →
      us = (match (s.ent a).kind with
        | .g8 => g8Vals (s.ent a).elem (srcOf s h a).pat
        | .g4 => g4Vals (bandOf c (wrapNat 528 (srcOf (popped s a) h c).val)) (srcOf s h a).pat
        | k => chanVals (k == Kind.sint) (srcOf s h a).pat) →
      xs = ((List.range (flaneCount (s.ent d) (laneFF f))).map fun j => (us.getD (p.toNat * flaneCount (s.ent d) (laneFF f) + j) .nan).x) →
      s2 = readSt s [a, c] → FltFits s2 d (laneFF f) r .usual xs →
      exec (.cvtDequant h d a c f p r) s = .next ((fltPut s2 d (laneFF f) r .usual xs).done h)) ∧
    (∀ g w s1 n rs, Starts s (.cvtFtoi h d a g w r) h [a] [d] → ilaneCount (s.ent d) (laneBits w) ≠ 0 →
      (flaneCount (s.ent a) (laneFF g) = ilaneCount (s.ent d) (laneBits w) ∨ flaneCount (s.ent a) (laneFF g) = 1) →
      s1 = readSt s [a] → n = (if md = .rst then ilaneCount (s.ent d) (laneBits w) else 0) →
      rs = ((List.range (ilaneCount (s.ent d) (laneBits w))).map fun j => ftoiLane (s.ent d).kind (laneBits w) (s.ent d).mode md
        ((drawList s1 n).getD j 0 % 2 ^ 24) (pick .nan ((srcOf s h a).flanes (laneFF g)) j)) →
      (discards d = true → exec (.cvtFtoi h d a g w r) s = .next (s1.done h)) ∧
      (discards d = false → Room s1 d → DrawsLeft s1 n → (∀ y ∈ rs, y.1.isLeft = true) →
        ∀ z, z = patPut (drawn s1 n) d (packLanes (laneBits w) (rs.map fun y => match y.1 with | .inl v => wrapNat (laneBits w) v | .inr _ => 0)) →
        exec (.cvtFtoi h d a g w r) s =
          .next ((z.countQ z.cur.coreRef { QCount.zero with nan := (rs.filter (·.2)).length } 0xFFFF_FFFF).done h))) ∧
    (∀ i na vs f s1 xs, laneConv s i = some (h, d, a, na, vs, f, r) → Starts s i h [a] [d] → flaneCount (s.ent d) (laneFF f) ≠ 0 →
      (na = flaneCount (s.ent d) (laneFF f) ∨ na = 1) → s1 = readSt s [a] →
      xs = ((List.range (flaneCount (s.ent d) (laneFF f))).map fun j => (pick .nan (vs (srcOf s h a)) j).x) →
      (vs (srcOf s h a)).length = na → FltFits s1 d (laneFF f) r .plain xs → exec i s = .next ((fltPut s1 d (laneFF f) r .plain xs).done h)) ∧
    (∀ f s1 n xs r', Starts s (.cvtRound h d a f r) h [a] [d] → flaneCount (s.ent d) (laneFF f) ≠ 0 →
      (flaneCount (s.ent a) (laneFF f) = flaneCount (s.ent d) (laneFF f) ∨ flaneCount (s.ent a) (laneFF f) = 1) → s1 = readSt s [a] →
      n = (if md = .rst ∧ discards d = false then flaneCount (s.ent d) (laneFF f) else 0) → DrawsLeft s1 n → r' = (if md = .rst then .rne else r) →
      xs = ((List.range (flaneCount (s.ent d) (laneFF f))).map fun j =>
        ((pick .nan ((srcOf s h a).flanes (laneFF f)) j).integral md ((drawList s1 n).getD j 0 % 2 ^ 24)).x) →
      FltFits (drawn s1 n) d (laneFF f) r' .plain xs →
      exec (.cvtRound h d a f r) s = .next ((fltPut (drawn s1 n) d (laneFF f) r' .plain xs).done h)) ∧
    (∀ b s2 bv n q, Starts s (.cvtScale h d a b r) h [a, b] [d] → isCat d = true → isCat a = true → (s.ent d).kind.isGran = true →
      (s.ent d).kind = (s.ent a).kind → (s.ent d).elem = (s.ent a).elem → s2 = readSt s [a, b] → bv = wrapNat 528 (srcOf (popped s a) h b).val →
      n = drawCount md (scaleMask (s.ent d) bv (srcOf s h a).pat) → DrawsLeft s2 n →
      q = scaleRes (s.ent d) bv (srcOf s h a).pat md (spread (scaleMask (s.ent d) bv (srcOf s h a).pat) (drawList s2 n)) →
      q.2.trips s.myCore.cqthresh = false →
      exec (.cvtScale h d a b r) s = .next ((patPut ((drawn s2 n).countQ s.cur.coreRef q.2 s.myCore.cqthresh) d q.1).done h))

/-- The stream's instructions and the sampler's complete (R307, R308, R310, R313, R326 to R329): a draw that has run its cycles takes one number of the stream
and writes the token that it picks, or code 4 with all ones where the weights are all 0; one that commits writes a token of its range and its code too. -/
def Sys2Proof.Claims.SamplingCompletes : Prop :=
  ∀ (s : State) (h : Hdr) (d a b : NameRef),
    (∀ s2 x y, Starts s (.smpSeed h a b) h [a, b] [] → s2 = readSt s [a, b] → x = srcOf s h a → y = srcOf (popped s a) h b → 0 ≤ y.val → y.val < 2 ^ 40 →
      exec (.smpSeed h a b) s = .next ((s2.setMe { s2.me with rkey := w64 x.val, rpos := BitVec.ofInt 40 y.val, ridx := 0 }).done h)) ∧
    (∀ s1 D, Starts s (.smpRand h d a) h [a] [d] → s.intDst d = true → s1 = readSt s [a] → DrawsLeft s1 1 → D = (drawList s1 1).headD 0 →
      (a = .fixed .zero → Room s1 d → exec (.smpRand h d a) s = .next ((patPut (drawn s1 1) d D).done h)) ∧
      (∀ x : Nat, a ≠ .fixed .zero → (srcOf s h a).val = (x : Int) → 1 ≤ x → x < 2 ^ 64 → IntFits s1 d ((D * x / 2 ^ 64 : Nat) : Int) →
        exec (.smpRand h d a) s = .next ((intPut (drawn s1 1) d ((D * x / 2 ^ 64 : Nat) : Int)).done h))) ∧
    (∀ z, Starts s (.smpPos h d) h [] [d] → s.me.rpos.toNat < 2 ^ 40 - 1 → OneFits s d .attr ((s.me.rpos.toNat + 1 : Nat) : Int) →
      z = onePut s d .attr ((s.me.rpos.toNat + 1 : Nat) : Int) →
      exec (.smpPos h d) s = .next ((z.setMe { z.me with rpos := BitVec.ofNat 40 (s.me.rpos.toNat + 1), ridx := 0 }).done h)) ∧
    (∀ s2 y p blk k, Starts s (.smpStop h a b) h [a, b] [] → 32 ≤ (s.ent b).width → s2 = readSt s [a, b] → y = srcOf (popped s a) h b →
      s2.myBlock = some blk → (srcOf s h a).val = ((k : Nat) : Int) → k ≤ 15 → p = slotAt blk k →
      s2.myCore.slotAhead s2.cur.h s.mySeq (slotCode true k) = false → s2.boardAny s2.cur.tile p 128 = false →
      s2.poisoned (localKey s2.cur.tile p) 128 = false → exec (.smpStop h a b) s = .next ((s2.putStops s2.cur.tile p
        (((List.range (min (y.ent.width / 32) 16)).map fun j => laneAt y.pat 32 j).takeWhile (· != 0xFFFF_FFFF))).done h)) ∧
    (∀ s2 l n el bf slot cm T k c, Passes s (.smpDraw h d a b) h [a, b] [d] → Readable s s [a, b] → ((s.ent d).kind = .uint ∨ (s.ent d).kind = .raw) → 35 ≤ (s.ent d).width →
      s2 = readSt s [a, b] → (srcOf s h a).val = ((l + 2 ^ 35 * n + 2 ^ 53 * bf + 2 ^ 54 * slot + 2 ^ 63 * cm : Nat) : Int) → 1 ≤ n → n < 2 ^ 18 → bf < 2 →
      slot < 16 → cm < 2 → el = (if bf = 1 then 2 else 4) → l % 8 = 0 → l + el * n ≤ 2 ^ 19 → T = (srcOf (popped s a) h b).val → 0 ≤ T →
      T + n ≤ 2 ^ 32 → k = localKey s2.cur.tile l → s2.boardW s2.cur.tile l (el * n) = false →
      c = (if cm = 1 then slotCode true slot else 0) → s2.myCore.slotAhead s2.cur.h s.mySeq c = false →
      (s.ranOut = false → cm = 0 → exec (.smpDraw h d a b) s = .next ((s.running (.smpDraw h d a b) (8 + (n * el + 63) / 64)).keepVal c)) ∧
      (s.ranOut = true → s2.poisoned k (el * n) = false → DrawsLeft s2 1 → Room s2 d →
        (∀ nb z us, cm = 0 → us = weightUnits (weightsAt s2 k n el) → nb = ((weightsAt s2 k n el).filter badWeight).length →
          z = (s2.countN s2.cur.coreRef 0x29 nb).found s2.cur 0 s2.myKernel.ctx k (el * n) →
          ∃ tok, (us.sum = 0 ∧ tok = 0x4_FFFF_FFFF ∨ ∃ j : Nat, Picks us ((drawList z 1).headD 0 / 2 ^ 32) j ∧ tok = T + j) ∧
            exec (.smpDraw h d a b) s = .next ((intPut (drawn z 1) d tok).done h)) ∧
        (∀ blk p, cm = 1 → s2.latent = [] → s2.myBlock = some blk → p = slotAt blk slot → s2.boardAny s2.cur.tile p 128 = false →
          s2.poisoned (localKey s2.cur.tile p) 128 = false → ∃ (z : State) (tok : Int), (∃ j : Nat, j < n ∧ tok % 2 ^ 32 = T + j ∨ tok = 0x4_FFFF_FFFF) ∧
            tok / 2 ^ 32 < 5 ∧ exec (.smpDraw h d a b) s = .next ((intPut z d tok).done h))))

/-- The vector-group instructions and steps complete (R204 to R206): an attached follower's `join` does nothing, a leader's takes back the detached members once
they wait at it and the attached ones have executed what it forwarded; `leave` makes a follower solo, and a leader once its detached members wait there; a solo thread's `join` ends when its group forms; an
instruction on its way arrives. -/
def Sys2Proof.Claims.VectorGroupsComplete : Prop :=
  ∀ (s : State) (h : Hdr) (a : NameRef),
    (Starts s (.vmovJoin h a) h [] [] → s.me.vg = .attached → exec (.vmovJoin h a) s = .next (s.done h)) ∧
    (∀ fs, Starts s (.vmovJoin h a) h [] [] → s.me.vg = .leader → s.me.vgRun = none → fs = s.vgMembers s.cur .detached →
      (∀ f ∈ fs, (s.thread f).waitsAt tagRejoin s.me.pc = true) → (∀ f ∈ s.vgMembers s.cur .attached, (s.thread f).vgDone = true) →
      exec (.vmovJoin h a) s = .next ((fs.foldl (fun (y : State) f => y.setThread f (y.thread f).leaveWait.attach) s).done h)) ∧
    (Starts s (.vmovLeave h) h [] [] → s.me.vg = .solo → exec (.vmovLeave h) s = .next (s.done h)) ∧
    (∀ z, Starts s (.vmovLeave h) h [] [] → s.me.vg = .attached → z = s.goTo (s.me.pc + 4 * h.form.words) →
      exec (.vmovLeave h) s = .next (z.setMe z.me.toSolo)) ∧
    (∀ fs z, Starts s (.vmovLeave h) h [] [] → s.me.vg = .leader → s.me.vgRun = none → fs = s.vgMembers s.cur .detached →
      (∀ f ∈ fs, (s.thread f).waitsAt tagLeave s.me.pc = true) → (∀ f ∈ s.vgMembers s.cur .attached, (s.thread f).vgDone = true) →
      z = fs.foldl (fun (y : State) f => y.setThread f (y.thread f).leaveWait.toSolo) s →
      ∀ y, y = (z.forward z.cur (.vmovLeave h) none z.me.pc (z.me.pc + 4 * h.form.words)).done h → exec (.vmovLeave h) s = .next (y.setMe y.me.toSolo)) ∧
    (∀ t w v fs, (s.thread t).wait = some w → w.why = .retry 20 v → (s.thread t).st = .waiting → (s.thread t).vg = .solo → v.testBit 6 = false →
      s.claimed t (v.testBit 7) (v % 32) = some fs →
      (∀ f ∈ fs, (s.thread f).st = .waiting ∧ (s.thread f).vg = .solo ∧
        ∃ u d, (s.thread f).wait = some u ∧ u.why = .retry 20 d ∧ d.testBit 6 = true ∧ d.testBit 7 = v.testBit 7) →
      ∃ z, exec (.vgForm t) s = .next z ∧ (z.thread t).vg = .leader ∧ (z.thread t).vgSize = v % 32 ∧ (z.thread t).st = .ready ∧
        ∀ f ∈ fs, (z.thread f).vg = .attached ∧ (z.thread f).vgLeader = some t ∧ (z.thread f).st = .ready) ∧
    (∀ t f l, (s.thread t).vgIn = f :: l → f.due ≤ s.cycle → (s.thread t).vgBuf.length < 8 →
      exec (.vgForward t) s = .next (s.setThread t { s.thread t with vgIn := l, vgBuf := (s.thread t).vgBuf ++ [f] }))

/-- Lane instructions, reductions, moves, checks, conversions, sampling and vector groups complete wherever the state and their operands meet the conditions
of their rules (R179 to R186, R188 to R191, R204 to R206, R208, R209, R307 to R329). Where it rests on the model's own choices: logs 7, 8, 10, 14, 15, 17, 18, 28, 29. -/
def Obligations.LaneInstructionsComplete : Prop :=
  Claims.IntegerLanesComplete ∧ Claims.FloatLanesComplete ∧ Claims.MovesComplete ∧ Claims.ConversionsComplete ∧ Claims.SamplingCompletes ∧
    Claims.VectorGroupsComplete

/-! ### Steps of the machine -/

/-- The steps of the memory system complete (R70, R213, R252, R253, R258, R261): a reply lands, or waits for the repack that holds its kernel; the oldest entry
of a store buffer is performed where its page is mapped, or moves to the side log where it is not; a reflection goes; a vault write that no older one of
its bytes and no fence holds back becomes durable. -/
def Sys2Proof.Claims.MemoryStepsComplete : Prop :=
  ∀ (s : State) (k : CoreRef),
    (∀ p rest t y, (s.core k).replies = p :: rest → (s.core k).repack = none → t = (⟨k.tile, k.core, p.h⟩ : ThreadRef) →
      ((∃ n x o, p.dest = .cat n ∧ p.val = (if o then .old x else .int x) ∧ y = { ({ s with cur := t } : State).landAs t n x o with cur := s.cur }) ∨
       (∃ n q, p.dest = .cat n ∧ p.val = .pat q ∧
         y = { ({ s with cur := t } : State).putName n (BitVec.ofNat 528 (q.toNat % 2 ^ (entOf (s.kernel t) p.dest).width)) with cur := s.cur }) ∨
       (discards p.dest = true ∧ y = s)) →
      ∀ z, z = y.wakeReply t p.wake → exec (.asyncWrite k) s = .next (z.setCore k { z.core k with replies := (z.core k).replies.eraseIdx 0 })) ∧
    (∀ p rest q o, (s.core k).replies = p :: rest → (s.core k).repack = some q → (s.core k).kernelOf p.h = some o → o.sb = q.sb →
      exec (.asyncWrite k) s =
        .next (s.setCore k { s.core k with replies := rest, repack := some { q with held := q.held ++ [p] } })) ∧
    (∀ e rest, (s.core k).sbuf = e :: rest → s.sideHas k.tile e.ctx e.addr = false →
      (∀ te, s.tlb? k.tile e.ctx e.addr = some te → te.w = true → s.routeDown (te.pa e.addr) = false → s.peerRefused (te.pa e.addr) true = false → s.bankOff (te.pa e.addr) = false → e.form ≠ .tail →
        exec (.storeEntryPerform k 0) s =
          .next ((s.setCore k { s.core k with sbuf := rest }).landStore ⟨k.tile, k.core, e.h⟩ e.seq e.ctx te e.addr e.bytes e.form)) ∧
      (s.tlb? k.tile e.ctx e.addr = none → s.blocked e.ctx e.addr = false → (s.tile k.tile).side.length < 64 →
        ∃ z, exec (.storeEntryPerform k 0) s = .next z ∧ (z.core k).sbuf = rest ∧ z.mem = s.mem ∧
          (z.tile k.tile).side = (s.tile k.tile).side ++ [⟨e.seq, k.core, e.h, e.ctx, e.addr, e.home, .store e.bytes e.form, e.lid, e.since⟩])) ∧
    (∀ die l, (s.reflections.any fun r => r.die == die && r.va == 64 * l) = true → exec (.reflectionEvict die l) s =
      .next { s with reflections := s.reflections.filter fun r => !(r.die == die && r.va == 64 * l) }) ∧
    (∀ b j v l, l = (s.vwrites.filter fun x => x.buf == b) → l[j]? = some v →
      (∀ o ∈ l.take j, o.addr + o.old.length ≤ v.addr ∨ v.addr + v.old.length ≤ o.addr) → s.fencedOff v = false →
      exec (.vaultWriteDurable b j) s = .next { s with vwrites := s.vwrites.erase v })

/-- The steps of the deque unit complete (R229, R230): a request that has arrived is answered, with the oldest record where the thief's kernel of the same
launch owns the deque and with none elsewhere; a reply is taken or the round ends; a parked thread is woken. -/
def Sys2Proof.Claims.StealsComplete : Prop :=
  ∀ (s : State) (k : CoreRef) (t : ThreadRef),
    (∀ m, (s.core k).stealMsgs = [m] → m.reply = false → m.arrive ≤ s.cycle → (s.core k).dqUsed ≤ s.cycle → m.thief.coreRef ≠ k →
      (∀ r q, s.mayServe k m.thief = true → (s.core k).scnt = 0 → (s.core k).dq = r :: q → ∃ z, exec (.stealRequest k) s = .next z ∧ (z.core k).dq = q ∧
        (z.core m.thief.coreRef).stealMsgs = (s.core m.thief.coreRef).stealMsgs ++ [⟨m.thief, m.dir, s.cycle + 4, some r, true⟩]) ∧
      (s.mayServe k m.thief = false → ∃ z, exec (.stealRequest k) s = .next z ∧ (z.core k).dq = (s.core k).dq ∧
        (z.core m.thief.coreRef).stealMsgs = (s.core m.thief.coreRef).stealMsgs ++ [⟨m.thief, m.dir, s.cycle + 4, none, true⟩])) ∧
    (∀ m w l d pc n z, (s.core t.coreRef).stealMsgs = [m] → m.reply = true → m.thief = t → m.arrive ≤ s.cycle → (s.core t.coreRef).repack = none →
      (s.thread t).wait = some w → w.why = .steal l → w.taskWait = some (d, pc, n) → z = s.setCore t.coreRef { s.core t.coreRef with stealMsgs := [] } →
      (∀ r, m.rec? = some r → exec (.stealReply t) s = .next (z.giveRecord t d pc r)) ∧
      (m.rec? = none → l = [] → (∃ h e, w.instr = .taskSteal h e) → exec (.stealReply t) s = .next (z.goOn t pc n))) ∧
    (∀ w r q d pc n, (s.thread t).wait = some w → (s.thread t).st = .parked → s.stealing t = false → (s.core t.coreRef).repack = none →
      w.taskWait = some (d, pc, n) → t.h = 0 → (s.core t.coreRef).dqOwner = some (s.kernel t).sb → (s.core t.coreRef).dqUsed ≤ s.cycle →
      (s.core t.coreRef).dq = q ++ [r] →
      exec (.parkStealRetry t) s = .next ((s.setCore t.coreRef ({ s.core t.coreRef with dq := q }.tookOne s.cycle)).giveRecord t d pc r))

/-- The steps of a tour complete (R233 to R235): its token leaves the root, goes on from a passive core, and ends the last round at the root; its finish
message goes round and wakes the kernel's parked threads. -/
def Sys2Proof.Claims.ToursComplete : Prop :=
  ∀ (s : State) (k : CoreRef) (g : Nat) (x : Gang) (t : Tour) (kn : Kernel) (z : State), s.toursAt k = [(g, x, t, kn)] →
    z = s.setCore k { s.core k with tourFlag := false } →
    (t.armed = true → t.finished = false → t.token = none → t.finish = none → (s.ring x).head? = some k.tile → s.passive k kn = true →
      exec (.tourRoundStart k) s = .next (z.modTour g t.pos fun u => { u with token := some (1, false, s.cycle + ringTime (s.ring x) 0) })) ∧
    (∀ n m c, t.token = some (n, m, c) → c ≤ s.cycle → s.passive k kn = true →
      (n < (s.ring x).length → (s.ring x).getD n 0 = k.tile → exec (.tourToken k) s = .next (z.modTour g t.pos fun u =>
        { u with token := some (n + 1, m || (s.core k).tourFlag, s.cycle + ringTime (s.ring x) n) })) ∧
      (n = (s.ring x).length → (s.ring x).getD 0 0 = k.tile → exec (.tourToken k) s = .next (s.modTour g t.pos fun u =>
        if m = false ∧ (s.core k).tourFlag = false then { u with token := none, finished := true, finish := some (0, s.cycle) }
        else { u with token := none }))) ∧
    (∀ n c, t.finish = some (n, c) → c ≤ s.cycle → (s.ring x).getD n 0 = k.tile → (s.core k).repack = none → s.passive k kn = true →
      ∃ y, exec (.tourFinish k) s = .next y ∧ y.mem = s.mem ∧ (y.toursAt k).map (fun p => p.2.2.1.finish) =
        [if n + 1 < (s.ring x).length then some (n + 1, s.cycle + ringTime (s.ring x) n) else none])

/-- The steps of barriers, groups and repacks complete (R78, R79, R222, R278, R295, R301): a phase is counted and its records are written; a timeout combines
its group; a copy takes up a free unit; a unit whose rows are written is free. -/
def Sys2Proof.Claims.BarrierAndRepackStepsComplete : Prop :=
  ∀ (s : State),
    (∀ tile c, s.allArrived tile .crew = some c → c < s.cycle → ∃ y, exec (.barrierComplete tile .crew) s =
      .next (y.setTile tile { y.tile tile with crewP := (s.tile tile).crewP + 1, crewStat := [], crewSum := [] }) ∧
        y = (s.tile tile).crewStat.foldl (fun (v : State) a => v.putSums tile a (s.tile tile).crewSum) s) ∧
    (∀ tile c g x, s.allArrived tile .gang = some c → c < s.cycle → (s.tile tile).gang = some g → s.gang? g = some x → ∃ y,
      exec (.barrierComplete tile .gang) s = .next (y.modGang g fun v => { v with barP := v.barP + 1, barStat := [], barSum := [] }) ∧
        y = x.barStat.foldl (fun (v : State) p => v.putSums p.1 p.2 x.barSum) s) ∧
    (∀ g gid o c, s.group? g gid = some o → o.st = .forked → o.due = some c → c ≤ s.cycle → s.frozenGang g = false →
      exec (.groupTimeout g gid) s = .next (s.combine g o true none)) ∧
    (∀ t f l, (s.thread t).forkIn = some f → (s.core t.coreRef).unitBusy t.h f.seq = false → f.arrive ≤ s.cycle →
      l = (s.kernel t).rows + (s.kernel t).reserve → exec (.forkRemoteCopy t) s =
        .next (s.setCore t.coreRef ((s.core t.coreRef).freeze (s.kernel t) (.fork f.seq) true t.h 0 (s.cycle + 8 + 2 * l)))) ∧
    (∀ r p n w m, (s.core r).repack = some p → p.op = .resize n w m → p.begun = true → p.done ≤ s.cycle → p.held = [] →
      (∀ h : Fin 8, ((s.core r).threads[h]).bad = []) → ∃ t, exec (.repackUnfreeze r) s = .next t ∧ (t.core r).repack = none)

/-- The steps of the memory system, of steals, tours, barriers, groups and repacks complete under conditions on the state alone. Where it rests on the model's
own choices: logs 1, 23, 30, 31, 32, 74, 91. -/
def Obligations.MachineStepsComplete : Prop :=
  Claims.MemoryStepsComplete ∧ Claims.StealsComplete ∧ Claims.ToursComplete ∧ Claims.BarrierAndRepackStepsComplete
end

