-- ==== Sys2Proof/Laws/Memory.lean ====
section
/-! SUPPORT. Memory: what a byte reads as after each operation, and that every operation keeps the canonical form. -/
namespace Sys2Proof.Machine

/-- The canonical form, cell by cell: a non-zero byte, every later key higher, the rest canonical. -/
theorem Memory.wf_cons (c : Host.Cell) (m : List Host.Cell) :
    Memory.wf (c :: m) = true ↔ c.2 ≠ 0 ∧ (∀ e ∈ m, c.1 < e.1) ∧ Memory.wf m = true := by
  induction m generalizing c with
  | nil => obtain ⟨j, b⟩ := c; simp [Memory.wf]
  | cons d m ih =>
    obtain ⟨j, b⟩ := c
    obtain ⟨k, e⟩ := d
    simp only [Memory.wf, Bool.and_eq_true, bne_iff_ne, decide_eq_true_eq, List.mem_cons, forall_eq_or_imp]
    constructor
    · rintro ⟨⟨hb, hjk⟩, hw⟩
      have h2 := (ih (k, e)).1 hw
      exact ⟨hb, ⟨hjk, fun x hx => Nat.lt_trans hjk (h2.2.1 x hx)⟩, hw⟩
    · rintro ⟨hb, ⟨hjk, -⟩, hw⟩
      exact ⟨⟨hb, hjk⟩, hw⟩

theorem Memory.wf_nil : Memory.wf [] = true := rfl

/-- A filter keeps the canonical form. -/
theorem Memory.wf_filter (p : Host.Cell → Bool) {m : List Host.Cell} (h : Memory.wf m = true) : Memory.wf (m.filter p) = true := by
  induction m with
  | nil => rfl
  | cons c m ih =>
    obtain ⟨hb, hl, hw⟩ := (Memory.wf_cons c m).1 h
    rw [List.filter_cons]
    split
    · exact (Memory.wf_cons _ _).2 ⟨hb, fun e he => hl e ((List.mem_filter.1 he).1), ih hw⟩
    · exact ih hw

/-- Two canonical lists one above the other. -/
theorem Memory.wf_append {m n : List Host.Cell} (hm : Memory.wf m = true) (hn : Memory.wf n = true)
    (h : ∀ a ∈ m, ∀ b ∈ n, a.1 < b.1) : Memory.wf (m ++ n) = true := by
  induction m with
  | nil => exact hn
  | cons c m ih =>
    obtain ⟨hb, hl, hw⟩ := (Memory.wf_cons c m).1 hm
    rw [List.cons_append, Memory.wf_cons]
    refine ⟨hb, ?_, ih hw fun a ha => h a (List.mem_cons_of_mem _ ha)⟩
    intro e he
    rcases List.mem_append.1 he with he | he
    · exact hl e he
    · exact h c List.mem_cons_self e he

/-- Raising every key by a fixed distance, or moving a block, keeps the order. -/
theorem Memory.wf_map (f : Nat → Nat) {m : List Host.Cell} (hm : Memory.wf m = true)
    (h : ∀ a ∈ m, ∀ b ∈ m, a.1 < b.1 → f a.1 < f b.1) : Memory.wf (m.map fun c => (f c.1, c.2)) = true := by
  induction m with
  | nil => rfl
  | cons c m ih =>
    obtain ⟨hb, hl, hw⟩ := (Memory.wf_cons c m).1 hm
    rw [List.map_cons, Memory.wf_cons]
    refine ⟨hb, ?_, ih hw fun a ha b hb => h a (List.mem_cons_of_mem _ ha) b (List.mem_cons_of_mem _ hb)⟩
    intro e he
    obtain ⟨x, hx, rfl⟩ := List.mem_map.1 he
    exact h c List.mem_cons_self x (List.mem_cons_of_mem _ hx) (hl x hx)

/-- A key that no cell has reads 0. -/
theorem memByte_of_absent {m : List Host.Cell} {k : Nat} (h : ∀ e ∈ m, e.1 ≠ k) : memByte m k = 0 := by
  induction m with
  | nil => rfl
  | cons c m ih =>
    obtain ⟨j, b⟩ := c
    have hj : ¬ k = j := fun e => h (j, b) List.mem_cons_self e.symm
    simp only [memByte, hj, if_false]
    exact ih fun e he => h e (List.mem_cons_of_mem _ he)

/-- Keys after a write: the old ones, and the one written. -/
theorem mem_memPut {m : List Host.Cell} {k : Nat} {b : Byte} {e : Host.Cell} (h : e ∈ memPut m k b) : e = (k, b) ∨ e ∈ m := by
  induction m with
  | nil => simp only [memPut] at h; split at h <;> simp_all
  | cons c m ih =>
    obtain ⟨j, d⟩ := c
    simp only [memPut] at h
    split at h
    · split at h
      · exact .inr h
      · rcases List.mem_cons.1 h with h | h
        · exact .inl h
        · exact .inr h
    · split at h
      · split at h
        · exact .inr (List.mem_cons_of_mem _ h)
        · rcases List.mem_cons.1 h with h | h
          · exact .inl h
          · exact .inr (List.mem_cons_of_mem _ h)
      · rcases List.mem_cons.1 h with h | h
        · exact .inr (h ▸ List.mem_cons_self)
        · rcases ih h with h | h
          · exact .inl h
          · exact .inr (List.mem_cons_of_mem _ h)

/-- A byte write keeps the canonical form. -/
theorem Memory.wf_memPut {m : List Host.Cell} (h : Memory.wf m = true) (k : Nat) (b : Byte) : Memory.wf (memPut m k b) = true := by
  induction m with
  | nil => simp only [memPut]; split
           · rfl
           · simpa [Memory.wf] using ‹¬ b = 0›
  | cons c m ih =>
    obtain ⟨j, d⟩ := c
    obtain ⟨hd, hl, hw⟩ := (Memory.wf_cons (j, d) m).1 h
    simp only [memPut]
    split
    · split
      · exact h
      · refine (Memory.wf_cons _ _).2 ⟨‹_›, ?_, h⟩
        intro e he
        rcases List.mem_cons.1 he with rfl | he
        · assumption
        · exact Nat.lt_trans (by assumption) (hl e he)
    · split
      · rename_i hkj; subst hkj
        split
        · exact hw
        · exact (Memory.wf_cons _ _).2 ⟨‹_›, hl, hw⟩
      · refine (Memory.wf_cons _ _).2 ⟨hd, ?_, ih hw⟩
        intro e he
        rcases mem_memPut he with rfl | he
        · show j < k; omega
        · exact hl e he

/-- A byte read after a write to the same key. -/
theorem memByte_memPut_same {m : List Host.Cell} (h : Memory.wf m = true) (k : Nat) (b : Byte) : memByte (memPut m k b) k = b := by
  induction m with
  | nil => simp only [memPut]; split <;> simp_all [memByte]
  | cons c m ih =>
    obtain ⟨j, d⟩ := c
    obtain ⟨hd, hl, hw⟩ := (Memory.wf_cons (j, d) m).1 h
    simp only [memPut]
    split
    · rename_i hkj
      split
      · rename_i hb0; subst hb0
        apply memByte_of_absent
        intro e he
        rcases List.mem_cons.1 he with rfl | he
        · show j ≠ k; omega
        · have : j < e.1 := hl e he
          omega
      · simp [memByte]
    · split
      · rename_i hkj; subst hkj
        split
        · rename_i hb0; subst hb0
          apply memByte_of_absent
          intro e he
          have : k < e.1 := hl e he
          omega
        · simp [memByte]
      · simp only [memByte, *, if_false]

/-- A byte read after a write to another key. -/
theorem memByte_memPut_other (m : List Host.Cell) {k a : Nat} (b : Byte) (h : a ≠ k) : memByte (memPut m k b) a = memByte m a := by
  induction m with
  | nil => simp only [memPut]; split <;> simp [memByte, h]
  | cons c m ih =>
    obtain ⟨j, d⟩ := c
    simp only [memPut]
    split
    · split
      · rfl
      · simp [memByte, h]
    · split
      · rename_i hkj; subst hkj
        split <;> simp [memByte, h]
      · simp only [memByte, ih]

/-- A write of consecutive bytes keeps the canonical form. -/
theorem Memory.wf_memPutList {m : List Host.Cell} (h : Memory.wf m = true) (k : Nat) (bs : List Byte) :
    Memory.wf (memPutList m k bs) = true := by
  induction bs generalizing m k with
  | nil => exact h
  | cons b bs ih => exact ih (Memory.wf_memPut h k b) (k + 1)

/-- A byte outside the bytes written reads as before. -/
theorem memByte_memPutList_other (m : List Host.Cell) (k : Nat) (bs : List Byte) {a : Nat} (h : a < k ∨ k + bs.length ≤ a) :
    memByte (memPutList m k bs) a = memByte m a := by
  induction bs generalizing m k with
  | nil => rfl
  | cons b bs ih =>
    simp only [List.length_cons] at h
    simp only [memPutList]
    rw [ih (memPut m k b) (k + 1) (by omega), memByte_memPut_other _ _ (by omega)]

/-- A byte among those written reads as written. -/
theorem memByte_memPutList_same {m : List Host.Cell} (h : Memory.wf m = true) (k : Nat) (bs : List Byte) {j : Nat}
    (hj : j < bs.length) : memByte (memPutList m k bs) (k + j) = bs.getD j 0 := by
  induction bs generalizing m k j with
  | nil => simp at hj
  | cons b bs ih =>
    simp only [memPutList]
    cases j with
    | zero =>
      rw [memByte_memPutList_other _ _ _ (by omega)]
      simpa using memByte_memPut_same h k b
    | succ j =>
      simp only [List.length_cons] at hj
      have := ih (Memory.wf_memPut h k b) (k + 1) (j := j) (by omega)
      simpa [Nat.add_assoc, Nat.add_comm 1 j] using this

/-- Cells of `risingCells` lie in the range. -/
theorem mem_risingCells {hi lo : Nat} {cs : List Host.Cell} {e : Host.Cell} (h : e ∈ risingCells hi lo cs) : lo ≤ e.1 ∧ e.1 < hi := by
  induction cs generalizing lo with
  | nil => simp [risingCells] at h
  | cons c cs ih =>
    obtain ⟨a, b⟩ := c
    simp only [risingCells] at h
    split at h
    · rename_i hc
      rcases List.mem_cons.1 h with rfl | h
      · exact ⟨hc.1, hc.2.1⟩
      · have := ih h; omega
    · exact ih h

theorem Memory.wf_risingCells (hi lo : Nat) (cs : List Host.Cell) : Memory.wf (risingCells hi lo cs) = true := by
  induction cs generalizing lo with
  | nil => rfl
  | cons c cs ih =>
    obtain ⟨a, b⟩ := c
    simp only [risingCells]
    split
    · rename_i hc
      refine (Memory.wf_cons _ _).2 ⟨hc.2.2, ?_, ih _⟩
      intro e he
      have := mem_risingCells he
      show a < e.1
      omega
    · exact ih _

/-- Replacing a range of keys keeps the canonical form. -/
theorem Memory.wf_replaceCells {m : List Host.Cell} (h : Memory.wf m = true) (lo hi : Nat) (cs : List Host.Cell) :
    Memory.wf (replaceCells m lo hi cs) = true := by
  unfold replaceCells
  apply Memory.wf_append
  · apply Memory.wf_append (Memory.wf_filter _ h) (Memory.wf_risingCells _ _ _)
    intro a ha b hb
    have h1 := (List.mem_filter.1 ha).2
    have h2 := mem_risingCells hb
    simp only [decide_eq_true_eq] at h1
    omega
  · exact Memory.wf_filter _ h
  · intro a ha b hb
    have h1 := (List.mem_filter.1 hb).2
    simp only [decide_eq_true_eq] at h1
    rcases List.mem_append.1 ha with ha | ha
    · have h2 := (List.mem_filter.1 ha).2
      simp only [decide_eq_true_eq] at h2
      omega
    · have h2 := mem_risingCells ha
      omega

/-- A block of `n` keys from `o` moved to `d`, what lay there going. -/
theorem Memory.wf_moved {m : List Host.Cell} (h : Memory.wf m = true) (o d n : Nat) :
    Memory.wf ((m.filter fun c => decide (c.1 < d)) ++
      ((m.filter fun c => decide (o ≤ c.1) && decide (c.1 < o + n)).map fun c => (d + (c.1 - o), c.2)) ++
      (m.filter fun c => decide (d + n ≤ c.1))) = true := by
  apply Memory.wf_append
  · apply Memory.wf_append (Memory.wf_filter _ h)
    · apply Memory.wf_map (fun k => d + (k - o)) (Memory.wf_filter _ h)
      intro a ha b hb hab
      have h1 := (List.mem_filter.1 ha).2
      have h2 := (List.mem_filter.1 hb).2
      simp only [Bool.and_eq_true, decide_eq_true_eq] at h1 h2
      show d + (a.1 - o) < d + (b.1 - o)
      omega
    · intro a ha b hb
      have h1 := (List.mem_filter.1 ha).2
      obtain ⟨x, hx, rfl⟩ := List.mem_map.1 hb
      simp only [decide_eq_true_eq] at h1
      show a.1 < d + (x.1 - o)
      omega
  · exact Memory.wf_filter _ h
  · intro a ha b hb
    have h1 := (List.mem_filter.1 hb).2
    simp only [decide_eq_true_eq] at h1
    rcases List.mem_append.1 ha with ha | ha
    · have h2 := (List.mem_filter.1 ha).2
      simp only [decide_eq_true_eq] at h2
      omega
    · obtain ⟨x, hx, rfl⟩ := List.mem_map.1 ha
      have h2 := (List.mem_filter.1 hx).2
      simp only [Bool.and_eq_true, decide_eq_true_eq] at h2
      show d + (x.1 - o) < b.1
      omega
/-- A frame copied keeps the canonical form. -/
theorem Memory.wf_copyCells {m : List Host.Cell} (h : Memory.wf m = true) (old new : Nat) : Memory.wf (copyCells m old new) = true :=
  Memory.wf_moved h (old * 2 ^ 16) (new * 2 ^ 16) (2 ^ 16)

/-! ## Writes of the state -/

theorem State.memOk_putBytes {s : State} (h : s.memOk) (k : Nat) (bs : List Byte) : (s.putBytes k bs).memOk :=
  Memory.wf_memPutList h k bs
theorem State.memOk_putLocalWord {s : State} (h : s.memOk) (tile a v : Nat) : (s.putLocalWord tile a v).memOk :=
  Memory.wf_memPutList h _ _
theorem State.memOk_homePut {s : State} (h : s.memOk) (key pa : Nat) (bs : List Byte) : (s.homePut key pa bs).memOk := by
  unfold State.homePut
  split
  · exact State.memOk_putBytes h _ _
  · unfold State.memOk
    dsimp only
    exact Memory.wf_memPutList h _ _
theorem State.memOk_fillLocal {s : State} (h : s.memOk) (tile : Nat) (cs : List Host.Cell) (e : List Nat) : (s.fillLocal tile cs e).memOk :=
  Memory.wf_replaceCells h _ _ _
theorem State.memOk_zeroRange {s : State} (h : s.memOk) (lo hi : Nat) : (s.zeroRange lo hi).memOk :=
  Memory.wf_replaceCells h _ _ _
theorem State.memOk_putBlock {s : State} (h : s.memOk) (ctx va : Nat) (bs : List Byte) : (s.putBlock ctx va bs).memOk := by
  unfold State.putBlock
  split
  · exact h
  · exact Memory.wf_replaceCells h _ _ _
/-- A fold of steps that keep the form keeps it. -/
theorem State.memOk_foldl {α : Type} (f : State → α → State) (hf : ∀ z a, z.memOk → (f z a).memOk) (l : List α) {z : State}
    (h : z.memOk) : (l.foldl f z).memOk := by
  induction l generalizing z with
  | nil => exact h
  | cons a l ih => exact ih (hf z a h)
theorem State.memOk_copyFrame {s : State} (h : s.memOk) (key old new : Nat) : (s.copyFrame key old new).memOk := by
  unfold State.copyFrame
  split
  · exact Memory.wf_copyCells h _ _
  · generalize List.range 1024 = l
    unfold State.memOk
    dsimp only
    exact State.memOk_foldl _ (fun z k hz => State.memOk_homePut hz _ _ _) l h
/-- Vault writes undone keep the canonical form. -/
theorem State.memOk_undoVault {s : State} (h : s.memOk) : s.undoVault.memOk := by
  unfold State.undoVault
  generalize s.vwrites = l
  induction l with
  | nil => exact h
  | cons v l ih => exact Memory.wf_memPutList ih _ _
theorem State.memOk_resetDies {s : State} (h : s.memOk) : s.resetDies.memOk :=
  Memory.wf_filter _ (State.memOk_undoVault h)

/-- The memory after module power-on is in the canonical form. -/
theorem State.memOk_reset : State.reset.memOk := by
  have h : State.reset.mem = [] := by rw [State.reset]
  rw [State.memOk, h]
  exact Memory.wf_nil

/-- A byte read after a write of bytes elsewhere. -/
theorem State.putBytes_other (s : State) (k : Nat) (bs : List Byte) {a : Nat} (h : a < k ∨ k + bs.length ≤ a) :
    memByte (s.putBytes k bs).mem a = memByte s.mem a := memByte_memPutList_other _ _ _ h
/-- A byte read among those just written. -/
theorem State.putBytes_same {s : State} (hw : s.memOk) (k : Nat) (bs : List Byte) {j : Nat} (hj : j < bs.length) :
    memByte (s.putBytes k bs).mem (k + j) = bs.getD j 0 := memByte_memPutList_same hw k bs hj

end Sys2Proof.Machine
end

