-- ==== Sys2Proof/Laws/State.lean ====
section
/-! SUPPORT. What each named update of the state leaves alone: one lemma per field per update. -/
namespace Sys2Proof.Machine

section
variable (s : State) (k : Nat) (t : Tile)
@[simp] theorem State.setTile_cycle : (s.setTile k t).cycle = s.cycle := rfl
@[simp] theorem State.setTile_mem : (s.setTile k t).mem = s.mem := rfl
@[simp] theorem State.setTile_empties : (s.setTile k t).empties = s.empties := rfl
@[simp] theorem State.setTile_poison : (s.setTile k t).poison = s.poison := rfl
@[simp] theorem State.setTile_latent : (s.setTile k t).latent = s.latent := rfl
@[simp] theorem State.setTile_fresh : (s.setTile k t).fresh = s.fresh := rfl
@[simp] theorem State.setTile_gangs : (s.setTile k t).gangs = s.gangs := rfl
@[simp] theorem State.setTile_launches : (s.setTile k t).launches = s.launches := rfl
@[simp] theorem State.setTile_flying : (s.setTile k t).flying = s.flying := rfl
@[simp] theorem State.setTile_saved : (s.setTile k t).saved = s.saved := rfl
@[simp] theorem State.setTile_images : (s.setTile k t).images = s.images := rfl
@[simp] theorem State.setTile_contexts : (s.setTile k t).contexts = s.contexts := rfl
@[simp] theorem State.setTile_reflections : (s.setTile k t).reflections = s.reflections := rfl
@[simp] theorem State.setTile_fr : (s.setTile k t).fr = s.fr := rfl
@[simp] theorem State.setTile_keys : (s.setTile k t).keys = s.keys := rfl
@[simp] theorem State.setTile_vltbase : (s.setTile k t).vltbase = s.vltbase := rfl
@[simp] theorem State.setTile_vltsize : (s.setTile k t).vltsize = s.vltsize := rfl
@[simp] theorem State.setTile_buffers : (s.setTile k t).buffers = s.buffers := rfl
@[simp] theorem State.setTile_vwrites : (s.setTile k t).vwrites = s.vwrites := rfl
@[simp] theorem State.setTile_wsWriting : (s.setTile k t).wsWriting = s.wsWriting := rfl
@[simp] theorem State.setTile_ath : (s.setTile k t).ath = s.ath := rfl
@[simp] theorem State.setTile_alerts : (s.setTile k t).alerts = s.alerts := rfl
@[simp] theorem State.setTile_boff : (s.setTile k t).boff = s.boff := rfl
@[simp] theorem State.setTile_boffRest : (s.setTile k t).boffRest = s.boffRest := rfl
@[simp] theorem State.setTile_acts : (s.setTile k t).acts = s.acts := rfl
@[simp] theorem State.setTile_backoff : (s.setTile k t).backoff = s.backoff := rfl
@[simp] theorem State.setTile_debts : (s.setTile k t).debts = s.debts := rfl
@[simp] theorem State.setTile_queues : (s.setTile k t).queues = s.queues := rfl
@[simp] theorem State.setTile_qrr : (s.setTile k t).qrr = s.qrr := rfl
@[simp] theorem State.setTile_journal : (s.setTile k t).journal = s.journal := rfl
@[simp] theorem State.setTile_msix : (s.setTile k t).msix = s.msix := rfl
@[simp] theorem State.setTile_cprst : (s.setTile k t).cprst = s.cprst := rfl
@[simp] theorem State.setTile_step : (s.setTile k t).step = s.step := rfl
@[simp] theorem State.setTile_trst : (s.setTile k t).trst = s.trst := rfl
@[simp] theorem State.setTile_pwr : (s.setTile k t).pwr = s.pwr := rfl
@[simp] theorem State.setTile_temp : (s.setTile k t).temp = s.temp := rfl
@[simp] theorem State.setTile_thr : (s.setTile k t).thr = s.thr := rfl
@[simp] theorem State.setTile_red : (s.setTile k t).red = s.red := rfl
@[simp] theorem State.setTile_rdy : (s.setTile k t).rdy = s.rdy := rfl
@[simp] theorem State.setTile_pwrlim : (s.setTile k t).pwrlim = s.pwrlim := rfl
@[simp] theorem State.setTile_cfg : (s.setTile k t).cfg = s.cfg := rfl
@[simp] theorem State.setTile_fwArb : (s.setTile k t).fwArb = s.fwArb := rfl
@[simp] theorem State.setTile_fwTrial : (s.setTile k t).fwTrial = s.fwTrial := rfl
@[simp] theorem State.setTile_fwAct : (s.setTile k t).fwAct = s.fwAct := rfl
@[simp] theorem State.setTile_fwSlots : (s.setTile k t).fwSlots = s.fwSlots := rfl
@[simp] theorem State.setTile_fwCommit : (s.setTile k t).fwCommit = s.fwCommit := rfl
@[simp] theorem State.setTile_modId : (s.setTile k t).modId = s.modId := rfl
@[simp] theorem State.setTile_routes : (s.setTile k t).routes = s.routes := rfl
@[simp] theorem State.setTile_portsUp : (s.setTile k t).portsUp = s.portsUp := rfl
@[simp] theorem State.setTile_expt : (s.setTile k t).expt = s.expt := rfl
@[simp] theorem State.setTile_measure : (s.setTile k t).measure = s.measure := rfl
@[simp] theorem State.setTile_quotes : (s.setTile k t).quotes = s.quotes := rfl
@[simp] theorem State.setTile_missPos : (s.setTile k t).missPos = s.missPos := rfl
@[simp] theorem State.setTile_faultPos : (s.setTile k t).faultPos = s.faultPos := rfl
@[simp] theorem State.setTile_late : (s.setTile k t).late = s.late := rfl
@[simp] theorem State.setTile_cpDown : (s.setTile k t).cpDown = s.cpDown := rfl
@[simp] theorem State.setTile_cpq : (s.setTile k t).cpq = s.cpq := rfl
@[simp] theorem State.setTile_stackBad : (s.setTile k t).stackBad = s.stackBad := rfl
@[simp] theorem State.setTile_faultRead : (s.setTile k t).faultRead = s.faultRead := rfl
@[simp] theorem State.setTile_invals : (s.setTile k t).invals = s.invals := rfl
@[simp] theorem State.setTile_nextInval : (s.setTile k t).nextInval = s.nextInval := rfl
@[simp] theorem State.setTile_lids : (s.setTile k t).lids = s.lids := rfl
@[simp] theorem State.setTile_usedLids : (s.setTile k t).usedLids = s.usedLids := rfl
@[simp] theorem State.setTile_handles : (s.setTile k t).handles = s.handles := rfl
@[simp] theorem State.setTile_cur : (s.setTile k t).cur = s.cur := rfl
@[simp] theorem State.setTile_phase : (s.setTile k t).phase = s.phase := rfl
@[simp] theorem State.setTile_agenda : (s.setTile k t).agenda = s.agenda := rfl
@[simp] theorem State.setTile_seq : (s.setTile k t).seq = s.seq := rfl
end

section
variable (s : State) (r : CoreRef) (c : Core)
@[simp] theorem State.setCore_cycle : (s.setCore r c).cycle = s.cycle := rfl
@[simp] theorem State.setCore_mem : (s.setCore r c).mem = s.mem := rfl
@[simp] theorem State.setCore_empties : (s.setCore r c).empties = s.empties := rfl
@[simp] theorem State.setCore_poison : (s.setCore r c).poison = s.poison := rfl
@[simp] theorem State.setCore_latent : (s.setCore r c).latent = s.latent := rfl
@[simp] theorem State.setCore_fresh : (s.setCore r c).fresh = s.fresh := rfl
@[simp] theorem State.setCore_gangs : (s.setCore r c).gangs = s.gangs := rfl
@[simp] theorem State.setCore_launches : (s.setCore r c).launches = s.launches := rfl
@[simp] theorem State.setCore_flying : (s.setCore r c).flying = s.flying := rfl
@[simp] theorem State.setCore_saved : (s.setCore r c).saved = s.saved := rfl
@[simp] theorem State.setCore_images : (s.setCore r c).images = s.images := rfl
@[simp] theorem State.setCore_contexts : (s.setCore r c).contexts = s.contexts := rfl
@[simp] theorem State.setCore_reflections : (s.setCore r c).reflections = s.reflections := rfl
@[simp] theorem State.setCore_fr : (s.setCore r c).fr = s.fr := rfl
@[simp] theorem State.setCore_keys : (s.setCore r c).keys = s.keys := rfl
@[simp] theorem State.setCore_vltbase : (s.setCore r c).vltbase = s.vltbase := rfl
@[simp] theorem State.setCore_vltsize : (s.setCore r c).vltsize = s.vltsize := rfl
@[simp] theorem State.setCore_buffers : (s.setCore r c).buffers = s.buffers := rfl
@[simp] theorem State.setCore_vwrites : (s.setCore r c).vwrites = s.vwrites := rfl
@[simp] theorem State.setCore_wsWriting : (s.setCore r c).wsWriting = s.wsWriting := rfl
@[simp] theorem State.setCore_ath : (s.setCore r c).ath = s.ath := rfl
@[simp] theorem State.setCore_alerts : (s.setCore r c).alerts = s.alerts := rfl
@[simp] theorem State.setCore_boff : (s.setCore r c).boff = s.boff := rfl
@[simp] theorem State.setCore_boffRest : (s.setCore r c).boffRest = s.boffRest := rfl
@[simp] theorem State.setCore_acts : (s.setCore r c).acts = s.acts := rfl
@[simp] theorem State.setCore_backoff : (s.setCore r c).backoff = s.backoff := rfl
@[simp] theorem State.setCore_debts : (s.setCore r c).debts = s.debts := rfl
@[simp] theorem State.setCore_queues : (s.setCore r c).queues = s.queues := rfl
@[simp] theorem State.setCore_qrr : (s.setCore r c).qrr = s.qrr := rfl
@[simp] theorem State.setCore_journal : (s.setCore r c).journal = s.journal := rfl
@[simp] theorem State.setCore_msix : (s.setCore r c).msix = s.msix := rfl
@[simp] theorem State.setCore_cprst : (s.setCore r c).cprst = s.cprst := rfl
@[simp] theorem State.setCore_step : (s.setCore r c).step = s.step := rfl
@[simp] theorem State.setCore_trst : (s.setCore r c).trst = s.trst := rfl
@[simp] theorem State.setCore_pwr : (s.setCore r c).pwr = s.pwr := rfl
@[simp] theorem State.setCore_temp : (s.setCore r c).temp = s.temp := rfl
@[simp] theorem State.setCore_thr : (s.setCore r c).thr = s.thr := rfl
@[simp] theorem State.setCore_red : (s.setCore r c).red = s.red := rfl
@[simp] theorem State.setCore_rdy : (s.setCore r c).rdy = s.rdy := rfl
@[simp] theorem State.setCore_pwrlim : (s.setCore r c).pwrlim = s.pwrlim := rfl
@[simp] theorem State.setCore_cfg : (s.setCore r c).cfg = s.cfg := rfl
@[simp] theorem State.setCore_fwArb : (s.setCore r c).fwArb = s.fwArb := rfl
@[simp] theorem State.setCore_fwTrial : (s.setCore r c).fwTrial = s.fwTrial := rfl
@[simp] theorem State.setCore_fwAct : (s.setCore r c).fwAct = s.fwAct := rfl
@[simp] theorem State.setCore_fwSlots : (s.setCore r c).fwSlots = s.fwSlots := rfl
@[simp] theorem State.setCore_fwCommit : (s.setCore r c).fwCommit = s.fwCommit := rfl
@[simp] theorem State.setCore_modId : (s.setCore r c).modId = s.modId := rfl
@[simp] theorem State.setCore_routes : (s.setCore r c).routes = s.routes := rfl
@[simp] theorem State.setCore_portsUp : (s.setCore r c).portsUp = s.portsUp := rfl
@[simp] theorem State.setCore_expt : (s.setCore r c).expt = s.expt := rfl
@[simp] theorem State.setCore_measure : (s.setCore r c).measure = s.measure := rfl
@[simp] theorem State.setCore_quotes : (s.setCore r c).quotes = s.quotes := rfl
@[simp] theorem State.setCore_missPos : (s.setCore r c).missPos = s.missPos := rfl
@[simp] theorem State.setCore_faultPos : (s.setCore r c).faultPos = s.faultPos := rfl
@[simp] theorem State.setCore_late : (s.setCore r c).late = s.late := rfl
@[simp] theorem State.setCore_cpDown : (s.setCore r c).cpDown = s.cpDown := rfl
@[simp] theorem State.setCore_cpq : (s.setCore r c).cpq = s.cpq := rfl
@[simp] theorem State.setCore_stackBad : (s.setCore r c).stackBad = s.stackBad := rfl
@[simp] theorem State.setCore_faultRead : (s.setCore r c).faultRead = s.faultRead := rfl
@[simp] theorem State.setCore_invals : (s.setCore r c).invals = s.invals := rfl
@[simp] theorem State.setCore_nextInval : (s.setCore r c).nextInval = s.nextInval := rfl
@[simp] theorem State.setCore_lids : (s.setCore r c).lids = s.lids := rfl
@[simp] theorem State.setCore_usedLids : (s.setCore r c).usedLids = s.usedLids := rfl
@[simp] theorem State.setCore_handles : (s.setCore r c).handles = s.handles := rfl
@[simp] theorem State.setCore_cur : (s.setCore r c).cur = s.cur := rfl
@[simp] theorem State.setCore_phase : (s.setCore r c).phase = s.phase := rfl
@[simp] theorem State.setCore_agenda : (s.setCore r c).agenda = s.agenda := rfl
@[simp] theorem State.setCore_seq : (s.setCore r c).seq = s.seq := rfl
end

section
variable (s : State) (t : ThreadRef) (x : Thread)
@[simp] theorem State.setThread_cycle : (s.setThread t x).cycle = s.cycle := rfl
@[simp] theorem State.setThread_mem : (s.setThread t x).mem = s.mem := rfl
@[simp] theorem State.setThread_empties : (s.setThread t x).empties = s.empties := rfl
@[simp] theorem State.setThread_poison : (s.setThread t x).poison = s.poison := rfl
@[simp] theorem State.setThread_latent : (s.setThread t x).latent = s.latent := rfl
@[simp] theorem State.setThread_fresh : (s.setThread t x).fresh = s.fresh := rfl
@[simp] theorem State.setThread_gangs : (s.setThread t x).gangs = s.gangs := rfl
@[simp] theorem State.setThread_launches : (s.setThread t x).launches = s.launches := rfl
@[simp] theorem State.setThread_flying : (s.setThread t x).flying = s.flying := rfl
@[simp] theorem State.setThread_saved : (s.setThread t x).saved = s.saved := rfl
@[simp] theorem State.setThread_images : (s.setThread t x).images = s.images := rfl
@[simp] theorem State.setThread_contexts : (s.setThread t x).contexts = s.contexts := rfl
@[simp] theorem State.setThread_reflections : (s.setThread t x).reflections = s.reflections := rfl
@[simp] theorem State.setThread_fr : (s.setThread t x).fr = s.fr := rfl
@[simp] theorem State.setThread_keys : (s.setThread t x).keys = s.keys := rfl
@[simp] theorem State.setThread_vltbase : (s.setThread t x).vltbase = s.vltbase := rfl
@[simp] theorem State.setThread_vltsize : (s.setThread t x).vltsize = s.vltsize := rfl
@[simp] theorem State.setThread_buffers : (s.setThread t x).buffers = s.buffers := rfl
@[simp] theorem State.setThread_vwrites : (s.setThread t x).vwrites = s.vwrites := rfl
@[simp] theorem State.setThread_wsWriting : (s.setThread t x).wsWriting = s.wsWriting := rfl
@[simp] theorem State.setThread_ath : (s.setThread t x).ath = s.ath := rfl
@[simp] theorem State.setThread_alerts : (s.setThread t x).alerts = s.alerts := rfl
@[simp] theorem State.setThread_boff : (s.setThread t x).boff = s.boff := rfl
@[simp] theorem State.setThread_boffRest : (s.setThread t x).boffRest = s.boffRest := rfl
@[simp] theorem State.setThread_acts : (s.setThread t x).acts = s.acts := rfl
@[simp] theorem State.setThread_backoff : (s.setThread t x).backoff = s.backoff := rfl
@[simp] theorem State.setThread_debts : (s.setThread t x).debts = s.debts := rfl
@[simp] theorem State.setThread_queues : (s.setThread t x).queues = s.queues := rfl
@[simp] theorem State.setThread_qrr : (s.setThread t x).qrr = s.qrr := rfl
@[simp] theorem State.setThread_journal : (s.setThread t x).journal = s.journal := rfl
@[simp] theorem State.setThread_msix : (s.setThread t x).msix = s.msix := rfl
@[simp] theorem State.setThread_cprst : (s.setThread t x).cprst = s.cprst := rfl
@[simp] theorem State.setThread_step : (s.setThread t x).step = s.step := rfl
@[simp] theorem State.setThread_trst : (s.setThread t x).trst = s.trst := rfl
@[simp] theorem State.setThread_pwr : (s.setThread t x).pwr = s.pwr := rfl
@[simp] theorem State.setThread_temp : (s.setThread t x).temp = s.temp := rfl
@[simp] theorem State.setThread_thr : (s.setThread t x).thr = s.thr := rfl
@[simp] theorem State.setThread_red : (s.setThread t x).red = s.red := rfl
@[simp] theorem State.setThread_rdy : (s.setThread t x).rdy = s.rdy := rfl
@[simp] theorem State.setThread_pwrlim : (s.setThread t x).pwrlim = s.pwrlim := rfl
@[simp] theorem State.setThread_cfg : (s.setThread t x).cfg = s.cfg := rfl
@[simp] theorem State.setThread_fwArb : (s.setThread t x).fwArb = s.fwArb := rfl
@[simp] theorem State.setThread_fwTrial : (s.setThread t x).fwTrial = s.fwTrial := rfl
@[simp] theorem State.setThread_fwAct : (s.setThread t x).fwAct = s.fwAct := rfl
@[simp] theorem State.setThread_fwSlots : (s.setThread t x).fwSlots = s.fwSlots := rfl
@[simp] theorem State.setThread_fwCommit : (s.setThread t x).fwCommit = s.fwCommit := rfl
@[simp] theorem State.setThread_modId : (s.setThread t x).modId = s.modId := rfl
@[simp] theorem State.setThread_routes : (s.setThread t x).routes = s.routes := rfl
@[simp] theorem State.setThread_portsUp : (s.setThread t x).portsUp = s.portsUp := rfl
@[simp] theorem State.setThread_expt : (s.setThread t x).expt = s.expt := rfl
@[simp] theorem State.setThread_measure : (s.setThread t x).measure = s.measure := rfl
@[simp] theorem State.setThread_quotes : (s.setThread t x).quotes = s.quotes := rfl
@[simp] theorem State.setThread_missPos : (s.setThread t x).missPos = s.missPos := rfl
@[simp] theorem State.setThread_faultPos : (s.setThread t x).faultPos = s.faultPos := rfl
@[simp] theorem State.setThread_late : (s.setThread t x).late = s.late := rfl
@[simp] theorem State.setThread_cpDown : (s.setThread t x).cpDown = s.cpDown := rfl
@[simp] theorem State.setThread_cpq : (s.setThread t x).cpq = s.cpq := rfl
@[simp] theorem State.setThread_stackBad : (s.setThread t x).stackBad = s.stackBad := rfl
@[simp] theorem State.setThread_faultRead : (s.setThread t x).faultRead = s.faultRead := rfl
@[simp] theorem State.setThread_invals : (s.setThread t x).invals = s.invals := rfl
@[simp] theorem State.setThread_nextInval : (s.setThread t x).nextInval = s.nextInval := rfl
@[simp] theorem State.setThread_lids : (s.setThread t x).lids = s.lids := rfl
@[simp] theorem State.setThread_usedLids : (s.setThread t x).usedLids = s.usedLids := rfl
@[simp] theorem State.setThread_handles : (s.setThread t x).handles = s.handles := rfl
@[simp] theorem State.setThread_cur : (s.setThread t x).cur = s.cur := rfl
@[simp] theorem State.setThread_phase : (s.setThread t x).phase = s.phase := rfl
@[simp] theorem State.setThread_agenda : (s.setThread t x).agenda = s.agenda := rfl
@[simp] theorem State.setThread_seq : (s.setThread t x).seq = s.seq := rfl
end

section
variable (s : State) (x : Thread)
@[simp] theorem State.setMe_cycle : (s.setMe x).cycle = s.cycle := rfl
@[simp] theorem State.setMe_mem : (s.setMe x).mem = s.mem := rfl
@[simp] theorem State.setMe_empties : (s.setMe x).empties = s.empties := rfl
@[simp] theorem State.setMe_poison : (s.setMe x).poison = s.poison := rfl
@[simp] theorem State.setMe_latent : (s.setMe x).latent = s.latent := rfl
@[simp] theorem State.setMe_fresh : (s.setMe x).fresh = s.fresh := rfl
@[simp] theorem State.setMe_gangs : (s.setMe x).gangs = s.gangs := rfl
@[simp] theorem State.setMe_launches : (s.setMe x).launches = s.launches := rfl
@[simp] theorem State.setMe_flying : (s.setMe x).flying = s.flying := rfl
@[simp] theorem State.setMe_saved : (s.setMe x).saved = s.saved := rfl
@[simp] theorem State.setMe_images : (s.setMe x).images = s.images := rfl
@[simp] theorem State.setMe_contexts : (s.setMe x).contexts = s.contexts := rfl
@[simp] theorem State.setMe_reflections : (s.setMe x).reflections = s.reflections := rfl
@[simp] theorem State.setMe_fr : (s.setMe x).fr = s.fr := rfl
@[simp] theorem State.setMe_keys : (s.setMe x).keys = s.keys := rfl
@[simp] theorem State.setMe_vltbase : (s.setMe x).vltbase = s.vltbase := rfl
@[simp] theorem State.setMe_vltsize : (s.setMe x).vltsize = s.vltsize := rfl
@[simp] theorem State.setMe_buffers : (s.setMe x).buffers = s.buffers := rfl
@[simp] theorem State.setMe_vwrites : (s.setMe x).vwrites = s.vwrites := rfl
@[simp] theorem State.setMe_wsWriting : (s.setMe x).wsWriting = s.wsWriting := rfl
@[simp] theorem State.setMe_ath : (s.setMe x).ath = s.ath := rfl
@[simp] theorem State.setMe_alerts : (s.setMe x).alerts = s.alerts := rfl
@[simp] theorem State.setMe_boff : (s.setMe x).boff = s.boff := rfl
@[simp] theorem State.setMe_boffRest : (s.setMe x).boffRest = s.boffRest := rfl
@[simp] theorem State.setMe_acts : (s.setMe x).acts = s.acts := rfl
@[simp] theorem State.setMe_backoff : (s.setMe x).backoff = s.backoff := rfl
@[simp] theorem State.setMe_debts : (s.setMe x).debts = s.debts := rfl
@[simp] theorem State.setMe_queues : (s.setMe x).queues = s.queues := rfl
@[simp] theorem State.setMe_qrr : (s.setMe x).qrr = s.qrr := rfl
@[simp] theorem State.setMe_journal : (s.setMe x).journal = s.journal := rfl
@[simp] theorem State.setMe_msix : (s.setMe x).msix = s.msix := rfl
@[simp] theorem State.setMe_cprst : (s.setMe x).cprst = s.cprst := rfl
@[simp] theorem State.setMe_step : (s.setMe x).step = s.step := rfl
@[simp] theorem State.setMe_trst : (s.setMe x).trst = s.trst := rfl
@[simp] theorem State.setMe_pwr : (s.setMe x).pwr = s.pwr := rfl
@[simp] theorem State.setMe_temp : (s.setMe x).temp = s.temp := rfl
@[simp] theorem State.setMe_thr : (s.setMe x).thr = s.thr := rfl
@[simp] theorem State.setMe_red : (s.setMe x).red = s.red := rfl
@[simp] theorem State.setMe_rdy : (s.setMe x).rdy = s.rdy := rfl
@[simp] theorem State.setMe_pwrlim : (s.setMe x).pwrlim = s.pwrlim := rfl
@[simp] theorem State.setMe_cfg : (s.setMe x).cfg = s.cfg := rfl
@[simp] theorem State.setMe_fwArb : (s.setMe x).fwArb = s.fwArb := rfl
@[simp] theorem State.setMe_fwTrial : (s.setMe x).fwTrial = s.fwTrial := rfl
@[simp] theorem State.setMe_fwAct : (s.setMe x).fwAct = s.fwAct := rfl
@[simp] theorem State.setMe_fwSlots : (s.setMe x).fwSlots = s.fwSlots := rfl
@[simp] theorem State.setMe_fwCommit : (s.setMe x).fwCommit = s.fwCommit := rfl
@[simp] theorem State.setMe_modId : (s.setMe x).modId = s.modId := rfl
@[simp] theorem State.setMe_routes : (s.setMe x).routes = s.routes := rfl
@[simp] theorem State.setMe_portsUp : (s.setMe x).portsUp = s.portsUp := rfl
@[simp] theorem State.setMe_expt : (s.setMe x).expt = s.expt := rfl
@[simp] theorem State.setMe_measure : (s.setMe x).measure = s.measure := rfl
@[simp] theorem State.setMe_quotes : (s.setMe x).quotes = s.quotes := rfl
@[simp] theorem State.setMe_missPos : (s.setMe x).missPos = s.missPos := rfl
@[simp] theorem State.setMe_faultPos : (s.setMe x).faultPos = s.faultPos := rfl
@[simp] theorem State.setMe_late : (s.setMe x).late = s.late := rfl
@[simp] theorem State.setMe_cpDown : (s.setMe x).cpDown = s.cpDown := rfl
@[simp] theorem State.setMe_cpq : (s.setMe x).cpq = s.cpq := rfl
@[simp] theorem State.setMe_stackBad : (s.setMe x).stackBad = s.stackBad := rfl
@[simp] theorem State.setMe_faultRead : (s.setMe x).faultRead = s.faultRead := rfl
@[simp] theorem State.setMe_invals : (s.setMe x).invals = s.invals := rfl
@[simp] theorem State.setMe_nextInval : (s.setMe x).nextInval = s.nextInval := rfl
@[simp] theorem State.setMe_lids : (s.setMe x).lids = s.lids := rfl
@[simp] theorem State.setMe_usedLids : (s.setMe x).usedLids = s.usedLids := rfl
@[simp] theorem State.setMe_handles : (s.setMe x).handles = s.handles := rfl
@[simp] theorem State.setMe_cur : (s.setMe x).cur = s.cur := rfl
@[simp] theorem State.setMe_phase : (s.setMe x).phase = s.phase := rfl
@[simp] theorem State.setMe_agenda : (s.setMe x).agenda = s.agenda := rfl
@[simp] theorem State.setMe_seq : (s.setMe x).seq = s.seq := rfl
end

section
variable (s : State) (c : Core)
@[simp] theorem State.setMyCore_cycle : (s.setMyCore c).cycle = s.cycle := rfl
@[simp] theorem State.setMyCore_mem : (s.setMyCore c).mem = s.mem := rfl
@[simp] theorem State.setMyCore_empties : (s.setMyCore c).empties = s.empties := rfl
@[simp] theorem State.setMyCore_poison : (s.setMyCore c).poison = s.poison := rfl
@[simp] theorem State.setMyCore_latent : (s.setMyCore c).latent = s.latent := rfl
@[simp] theorem State.setMyCore_fresh : (s.setMyCore c).fresh = s.fresh := rfl
@[simp] theorem State.setMyCore_gangs : (s.setMyCore c).gangs = s.gangs := rfl
@[simp] theorem State.setMyCore_launches : (s.setMyCore c).launches = s.launches := rfl
@[simp] theorem State.setMyCore_flying : (s.setMyCore c).flying = s.flying := rfl
@[simp] theorem State.setMyCore_saved : (s.setMyCore c).saved = s.saved := rfl
@[simp] theorem State.setMyCore_images : (s.setMyCore c).images = s.images := rfl
@[simp] theorem State.setMyCore_contexts : (s.setMyCore c).contexts = s.contexts := rfl
@[simp] theorem State.setMyCore_reflections : (s.setMyCore c).reflections = s.reflections := rfl
@[simp] theorem State.setMyCore_fr : (s.setMyCore c).fr = s.fr := rfl
@[simp] theorem State.setMyCore_keys : (s.setMyCore c).keys = s.keys := rfl
@[simp] theorem State.setMyCore_vltbase : (s.setMyCore c).vltbase = s.vltbase := rfl
@[simp] theorem State.setMyCore_vltsize : (s.setMyCore c).vltsize = s.vltsize := rfl
@[simp] theorem State.setMyCore_buffers : (s.setMyCore c).buffers = s.buffers := rfl
@[simp] theorem State.setMyCore_vwrites : (s.setMyCore c).vwrites = s.vwrites := rfl
@[simp] theorem State.setMyCore_wsWriting : (s.setMyCore c).wsWriting = s.wsWriting := rfl
@[simp] theorem State.setMyCore_ath : (s.setMyCore c).ath = s.ath := rfl
@[simp] theorem State.setMyCore_alerts : (s.setMyCore c).alerts = s.alerts := rfl
@[simp] theorem State.setMyCore_boff : (s.setMyCore c).boff = s.boff := rfl
@[simp] theorem State.setMyCore_boffRest : (s.setMyCore c).boffRest = s.boffRest := rfl
@[simp] theorem State.setMyCore_acts : (s.setMyCore c).acts = s.acts := rfl
@[simp] theorem State.setMyCore_backoff : (s.setMyCore c).backoff = s.backoff := rfl
@[simp] theorem State.setMyCore_debts : (s.setMyCore c).debts = s.debts := rfl
@[simp] theorem State.setMyCore_queues : (s.setMyCore c).queues = s.queues := rfl
@[simp] theorem State.setMyCore_qrr : (s.setMyCore c).qrr = s.qrr := rfl
@[simp] theorem State.setMyCore_journal : (s.setMyCore c).journal = s.journal := rfl
@[simp] theorem State.setMyCore_msix : (s.setMyCore c).msix = s.msix := rfl
@[simp] theorem State.setMyCore_cprst : (s.setMyCore c).cprst = s.cprst := rfl
@[simp] theorem State.setMyCore_step : (s.setMyCore c).step = s.step := rfl
@[simp] theorem State.setMyCore_trst : (s.setMyCore c).trst = s.trst := rfl
@[simp] theorem State.setMyCore_pwr : (s.setMyCore c).pwr = s.pwr := rfl
@[simp] theorem State.setMyCore_temp : (s.setMyCore c).temp = s.temp := rfl
@[simp] theorem State.setMyCore_thr : (s.setMyCore c).thr = s.thr := rfl
@[simp] theorem State.setMyCore_red : (s.setMyCore c).red = s.red := rfl
@[simp] theorem State.setMyCore_rdy : (s.setMyCore c).rdy = s.rdy := rfl
@[simp] theorem State.setMyCore_pwrlim : (s.setMyCore c).pwrlim = s.pwrlim := rfl
@[simp] theorem State.setMyCore_cfg : (s.setMyCore c).cfg = s.cfg := rfl
@[simp] theorem State.setMyCore_fwArb : (s.setMyCore c).fwArb = s.fwArb := rfl
@[simp] theorem State.setMyCore_fwTrial : (s.setMyCore c).fwTrial = s.fwTrial := rfl
@[simp] theorem State.setMyCore_fwAct : (s.setMyCore c).fwAct = s.fwAct := rfl
@[simp] theorem State.setMyCore_fwSlots : (s.setMyCore c).fwSlots = s.fwSlots := rfl
@[simp] theorem State.setMyCore_fwCommit : (s.setMyCore c).fwCommit = s.fwCommit := rfl
@[simp] theorem State.setMyCore_modId : (s.setMyCore c).modId = s.modId := rfl
@[simp] theorem State.setMyCore_routes : (s.setMyCore c).routes = s.routes := rfl
@[simp] theorem State.setMyCore_portsUp : (s.setMyCore c).portsUp = s.portsUp := rfl
@[simp] theorem State.setMyCore_expt : (s.setMyCore c).expt = s.expt := rfl
@[simp] theorem State.setMyCore_measure : (s.setMyCore c).measure = s.measure := rfl
@[simp] theorem State.setMyCore_quotes : (s.setMyCore c).quotes = s.quotes := rfl
@[simp] theorem State.setMyCore_missPos : (s.setMyCore c).missPos = s.missPos := rfl
@[simp] theorem State.setMyCore_faultPos : (s.setMyCore c).faultPos = s.faultPos := rfl
@[simp] theorem State.setMyCore_late : (s.setMyCore c).late = s.late := rfl
@[simp] theorem State.setMyCore_cpDown : (s.setMyCore c).cpDown = s.cpDown := rfl
@[simp] theorem State.setMyCore_cpq : (s.setMyCore c).cpq = s.cpq := rfl
@[simp] theorem State.setMyCore_stackBad : (s.setMyCore c).stackBad = s.stackBad := rfl
@[simp] theorem State.setMyCore_faultRead : (s.setMyCore c).faultRead = s.faultRead := rfl
@[simp] theorem State.setMyCore_invals : (s.setMyCore c).invals = s.invals := rfl
@[simp] theorem State.setMyCore_nextInval : (s.setMyCore c).nextInval = s.nextInval := rfl
@[simp] theorem State.setMyCore_lids : (s.setMyCore c).lids = s.lids := rfl
@[simp] theorem State.setMyCore_usedLids : (s.setMyCore c).usedLids = s.usedLids := rfl
@[simp] theorem State.setMyCore_handles : (s.setMyCore c).handles = s.handles := rfl
@[simp] theorem State.setMyCore_cur : (s.setMyCore c).cur = s.cur := rfl
@[simp] theorem State.setMyCore_phase : (s.setMyCore c).phase = s.phase := rfl
@[simp] theorem State.setMyCore_agenda : (s.setMyCore c).agenda = s.agenda := rfl
@[simp] theorem State.setMyCore_seq : (s.setMyCore c).seq = s.seq := rfl
end

section
variable (s : State) (t : Tile)
@[simp] theorem State.setMyTile_cycle : (s.setMyTile t).cycle = s.cycle := rfl
@[simp] theorem State.setMyTile_mem : (s.setMyTile t).mem = s.mem := rfl
@[simp] theorem State.setMyTile_empties : (s.setMyTile t).empties = s.empties := rfl
@[simp] theorem State.setMyTile_poison : (s.setMyTile t).poison = s.poison := rfl
@[simp] theorem State.setMyTile_latent : (s.setMyTile t).latent = s.latent := rfl
@[simp] theorem State.setMyTile_fresh : (s.setMyTile t).fresh = s.fresh := rfl
@[simp] theorem State.setMyTile_gangs : (s.setMyTile t).gangs = s.gangs := rfl
@[simp] theorem State.setMyTile_launches : (s.setMyTile t).launches = s.launches := rfl
@[simp] theorem State.setMyTile_flying : (s.setMyTile t).flying = s.flying := rfl
@[simp] theorem State.setMyTile_saved : (s.setMyTile t).saved = s.saved := rfl
@[simp] theorem State.setMyTile_images : (s.setMyTile t).images = s.images := rfl
@[simp] theorem State.setMyTile_contexts : (s.setMyTile t).contexts = s.contexts := rfl
@[simp] theorem State.setMyTile_reflections : (s.setMyTile t).reflections = s.reflections := rfl
@[simp] theorem State.setMyTile_fr : (s.setMyTile t).fr = s.fr := rfl
@[simp] theorem State.setMyTile_keys : (s.setMyTile t).keys = s.keys := rfl
@[simp] theorem State.setMyTile_vltbase : (s.setMyTile t).vltbase = s.vltbase := rfl
@[simp] theorem State.setMyTile_vltsize : (s.setMyTile t).vltsize = s.vltsize := rfl
@[simp] theorem State.setMyTile_buffers : (s.setMyTile t).buffers = s.buffers := rfl
@[simp] theorem State.setMyTile_vwrites : (s.setMyTile t).vwrites = s.vwrites := rfl
@[simp] theorem State.setMyTile_wsWriting : (s.setMyTile t).wsWriting = s.wsWriting := rfl
@[simp] theorem State.setMyTile_ath : (s.setMyTile t).ath = s.ath := rfl
@[simp] theorem State.setMyTile_alerts : (s.setMyTile t).alerts = s.alerts := rfl
@[simp] theorem State.setMyTile_boff : (s.setMyTile t).boff = s.boff := rfl
@[simp] theorem State.setMyTile_boffRest : (s.setMyTile t).boffRest = s.boffRest := rfl
@[simp] theorem State.setMyTile_acts : (s.setMyTile t).acts = s.acts := rfl
@[simp] theorem State.setMyTile_backoff : (s.setMyTile t).backoff = s.backoff := rfl
@[simp] theorem State.setMyTile_debts : (s.setMyTile t).debts = s.debts := rfl
@[simp] theorem State.setMyTile_queues : (s.setMyTile t).queues = s.queues := rfl
@[simp] theorem State.setMyTile_qrr : (s.setMyTile t).qrr = s.qrr := rfl
@[simp] theorem State.setMyTile_journal : (s.setMyTile t).journal = s.journal := rfl
@[simp] theorem State.setMyTile_msix : (s.setMyTile t).msix = s.msix := rfl
@[simp] theorem State.setMyTile_cprst : (s.setMyTile t).cprst = s.cprst := rfl
@[simp] theorem State.setMyTile_step : (s.setMyTile t).step = s.step := rfl
@[simp] theorem State.setMyTile_trst : (s.setMyTile t).trst = s.trst := rfl
@[simp] theorem State.setMyTile_pwr : (s.setMyTile t).pwr = s.pwr := rfl
@[simp] theorem State.setMyTile_temp : (s.setMyTile t).temp = s.temp := rfl
@[simp] theorem State.setMyTile_thr : (s.setMyTile t).thr = s.thr := rfl
@[simp] theorem State.setMyTile_red : (s.setMyTile t).red = s.red := rfl
@[simp] theorem State.setMyTile_rdy : (s.setMyTile t).rdy = s.rdy := rfl
@[simp] theorem State.setMyTile_pwrlim : (s.setMyTile t).pwrlim = s.pwrlim := rfl
@[simp] theorem State.setMyTile_cfg : (s.setMyTile t).cfg = s.cfg := rfl
@[simp] theorem State.setMyTile_fwArb : (s.setMyTile t).fwArb = s.fwArb := rfl
@[simp] theorem State.setMyTile_fwTrial : (s.setMyTile t).fwTrial = s.fwTrial := rfl
@[simp] theorem State.setMyTile_fwAct : (s.setMyTile t).fwAct = s.fwAct := rfl
@[simp] theorem State.setMyTile_fwSlots : (s.setMyTile t).fwSlots = s.fwSlots := rfl
@[simp] theorem State.setMyTile_fwCommit : (s.setMyTile t).fwCommit = s.fwCommit := rfl
@[simp] theorem State.setMyTile_modId : (s.setMyTile t).modId = s.modId := rfl
@[simp] theorem State.setMyTile_routes : (s.setMyTile t).routes = s.routes := rfl
@[simp] theorem State.setMyTile_portsUp : (s.setMyTile t).portsUp = s.portsUp := rfl
@[simp] theorem State.setMyTile_expt : (s.setMyTile t).expt = s.expt := rfl
@[simp] theorem State.setMyTile_measure : (s.setMyTile t).measure = s.measure := rfl
@[simp] theorem State.setMyTile_quotes : (s.setMyTile t).quotes = s.quotes := rfl
@[simp] theorem State.setMyTile_missPos : (s.setMyTile t).missPos = s.missPos := rfl
@[simp] theorem State.setMyTile_faultPos : (s.setMyTile t).faultPos = s.faultPos := rfl
@[simp] theorem State.setMyTile_late : (s.setMyTile t).late = s.late := rfl
@[simp] theorem State.setMyTile_cpDown : (s.setMyTile t).cpDown = s.cpDown := rfl
@[simp] theorem State.setMyTile_cpq : (s.setMyTile t).cpq = s.cpq := rfl
@[simp] theorem State.setMyTile_stackBad : (s.setMyTile t).stackBad = s.stackBad := rfl
@[simp] theorem State.setMyTile_faultRead : (s.setMyTile t).faultRead = s.faultRead := rfl
@[simp] theorem State.setMyTile_invals : (s.setMyTile t).invals = s.invals := rfl
@[simp] theorem State.setMyTile_nextInval : (s.setMyTile t).nextInval = s.nextInval := rfl
@[simp] theorem State.setMyTile_lids : (s.setMyTile t).lids = s.lids := rfl
@[simp] theorem State.setMyTile_usedLids : (s.setMyTile t).usedLids = s.usedLids := rfl
@[simp] theorem State.setMyTile_handles : (s.setMyTile t).handles = s.handles := rfl
@[simp] theorem State.setMyTile_cur : (s.setMyTile t).cur = s.cur := rfl
@[simp] theorem State.setMyTile_phase : (s.setMyTile t).phase = s.phase := rfl
@[simp] theorem State.setMyTile_agenda : (s.setMyTile t).agenda = s.agenda := rfl
@[simp] theorem State.setMyTile_seq : (s.setMyTile t).seq = s.seq := rfl
end

section
variable (s : State) (g : Nat) (f : Gang → Gang)
@[simp] theorem State.modGang_cycle : (s.modGang g f).cycle = s.cycle := rfl
@[simp] theorem State.modGang_tiles : (s.modGang g f).tiles = s.tiles := rfl
@[simp] theorem State.modGang_mem : (s.modGang g f).mem = s.mem := rfl
@[simp] theorem State.modGang_empties : (s.modGang g f).empties = s.empties := rfl
@[simp] theorem State.modGang_poison : (s.modGang g f).poison = s.poison := rfl
@[simp] theorem State.modGang_latent : (s.modGang g f).latent = s.latent := rfl
@[simp] theorem State.modGang_fresh : (s.modGang g f).fresh = s.fresh := rfl
@[simp] theorem State.modGang_launches : (s.modGang g f).launches = s.launches := rfl
@[simp] theorem State.modGang_flying : (s.modGang g f).flying = s.flying := rfl
@[simp] theorem State.modGang_saved : (s.modGang g f).saved = s.saved := rfl
@[simp] theorem State.modGang_images : (s.modGang g f).images = s.images := rfl
@[simp] theorem State.modGang_contexts : (s.modGang g f).contexts = s.contexts := rfl
@[simp] theorem State.modGang_reflections : (s.modGang g f).reflections = s.reflections := rfl
@[simp] theorem State.modGang_fr : (s.modGang g f).fr = s.fr := rfl
@[simp] theorem State.modGang_keys : (s.modGang g f).keys = s.keys := rfl
@[simp] theorem State.modGang_vltbase : (s.modGang g f).vltbase = s.vltbase := rfl
@[simp] theorem State.modGang_vltsize : (s.modGang g f).vltsize = s.vltsize := rfl
@[simp] theorem State.modGang_buffers : (s.modGang g f).buffers = s.buffers := rfl
@[simp] theorem State.modGang_vwrites : (s.modGang g f).vwrites = s.vwrites := rfl
@[simp] theorem State.modGang_wsWriting : (s.modGang g f).wsWriting = s.wsWriting := rfl
@[simp] theorem State.modGang_ath : (s.modGang g f).ath = s.ath := rfl
@[simp] theorem State.modGang_alerts : (s.modGang g f).alerts = s.alerts := rfl
@[simp] theorem State.modGang_boff : (s.modGang g f).boff = s.boff := rfl
@[simp] theorem State.modGang_boffRest : (s.modGang g f).boffRest = s.boffRest := rfl
@[simp] theorem State.modGang_acts : (s.modGang g f).acts = s.acts := rfl
@[simp] theorem State.modGang_backoff : (s.modGang g f).backoff = s.backoff := rfl
@[simp] theorem State.modGang_debts : (s.modGang g f).debts = s.debts := rfl
@[simp] theorem State.modGang_queues : (s.modGang g f).queues = s.queues := rfl
@[simp] theorem State.modGang_qrr : (s.modGang g f).qrr = s.qrr := rfl
@[simp] theorem State.modGang_journal : (s.modGang g f).journal = s.journal := rfl
@[simp] theorem State.modGang_msix : (s.modGang g f).msix = s.msix := rfl
@[simp] theorem State.modGang_cprst : (s.modGang g f).cprst = s.cprst := rfl
@[simp] theorem State.modGang_step : (s.modGang g f).step = s.step := rfl
@[simp] theorem State.modGang_trst : (s.modGang g f).trst = s.trst := rfl
@[simp] theorem State.modGang_pwr : (s.modGang g f).pwr = s.pwr := rfl
@[simp] theorem State.modGang_temp : (s.modGang g f).temp = s.temp := rfl
@[simp] theorem State.modGang_thr : (s.modGang g f).thr = s.thr := rfl
@[simp] theorem State.modGang_red : (s.modGang g f).red = s.red := rfl
@[simp] theorem State.modGang_rdy : (s.modGang g f).rdy = s.rdy := rfl
@[simp] theorem State.modGang_pwrlim : (s.modGang g f).pwrlim = s.pwrlim := rfl
@[simp] theorem State.modGang_cfg : (s.modGang g f).cfg = s.cfg := rfl
@[simp] theorem State.modGang_fwArb : (s.modGang g f).fwArb = s.fwArb := rfl
@[simp] theorem State.modGang_fwTrial : (s.modGang g f).fwTrial = s.fwTrial := rfl
@[simp] theorem State.modGang_fwAct : (s.modGang g f).fwAct = s.fwAct := rfl
@[simp] theorem State.modGang_fwSlots : (s.modGang g f).fwSlots = s.fwSlots := rfl
@[simp] theorem State.modGang_fwCommit : (s.modGang g f).fwCommit = s.fwCommit := rfl
@[simp] theorem State.modGang_modId : (s.modGang g f).modId = s.modId := rfl
@[simp] theorem State.modGang_routes : (s.modGang g f).routes = s.routes := rfl
@[simp] theorem State.modGang_portsUp : (s.modGang g f).portsUp = s.portsUp := rfl
@[simp] theorem State.modGang_expt : (s.modGang g f).expt = s.expt := rfl
@[simp] theorem State.modGang_measure : (s.modGang g f).measure = s.measure := rfl
@[simp] theorem State.modGang_quotes : (s.modGang g f).quotes = s.quotes := rfl
@[simp] theorem State.modGang_missPos : (s.modGang g f).missPos = s.missPos := rfl
@[simp] theorem State.modGang_faultPos : (s.modGang g f).faultPos = s.faultPos := rfl
@[simp] theorem State.modGang_late : (s.modGang g f).late = s.late := rfl
@[simp] theorem State.modGang_cpDown : (s.modGang g f).cpDown = s.cpDown := rfl
@[simp] theorem State.modGang_cpq : (s.modGang g f).cpq = s.cpq := rfl
@[simp] theorem State.modGang_stackBad : (s.modGang g f).stackBad = s.stackBad := rfl
@[simp] theorem State.modGang_faultRead : (s.modGang g f).faultRead = s.faultRead := rfl
@[simp] theorem State.modGang_invals : (s.modGang g f).invals = s.invals := rfl
@[simp] theorem State.modGang_nextInval : (s.modGang g f).nextInval = s.nextInval := rfl
@[simp] theorem State.modGang_lids : (s.modGang g f).lids = s.lids := rfl
@[simp] theorem State.modGang_usedLids : (s.modGang g f).usedLids = s.usedLids := rfl
@[simp] theorem State.modGang_handles : (s.modGang g f).handles = s.handles := rfl
@[simp] theorem State.modGang_cur : (s.modGang g f).cur = s.cur := rfl
@[simp] theorem State.modGang_phase : (s.modGang g f).phase = s.phase := rfl
@[simp] theorem State.modGang_agenda : (s.modGang g f).agenda = s.agenda := rfl
@[simp] theorem State.modGang_seq : (s.modGang g f).seq = s.seq := rfl
end

section
variable (s : State) (lid : Word64) (f : Launch → Launch)
@[simp] theorem State.modLaunch_cycle : (s.modLaunch lid f).cycle = s.cycle := rfl
@[simp] theorem State.modLaunch_tiles : (s.modLaunch lid f).tiles = s.tiles := rfl
@[simp] theorem State.modLaunch_mem : (s.modLaunch lid f).mem = s.mem := rfl
@[simp] theorem State.modLaunch_empties : (s.modLaunch lid f).empties = s.empties := rfl
@[simp] theorem State.modLaunch_poison : (s.modLaunch lid f).poison = s.poison := rfl
@[simp] theorem State.modLaunch_latent : (s.modLaunch lid f).latent = s.latent := rfl
@[simp] theorem State.modLaunch_fresh : (s.modLaunch lid f).fresh = s.fresh := rfl
@[simp] theorem State.modLaunch_gangs : (s.modLaunch lid f).gangs = s.gangs := rfl
@[simp] theorem State.modLaunch_flying : (s.modLaunch lid f).flying = s.flying := rfl
@[simp] theorem State.modLaunch_saved : (s.modLaunch lid f).saved = s.saved := rfl
@[simp] theorem State.modLaunch_images : (s.modLaunch lid f).images = s.images := rfl
@[simp] theorem State.modLaunch_contexts : (s.modLaunch lid f).contexts = s.contexts := rfl
@[simp] theorem State.modLaunch_reflections : (s.modLaunch lid f).reflections = s.reflections := rfl
@[simp] theorem State.modLaunch_fr : (s.modLaunch lid f).fr = s.fr := rfl
@[simp] theorem State.modLaunch_keys : (s.modLaunch lid f).keys = s.keys := rfl
@[simp] theorem State.modLaunch_vltbase : (s.modLaunch lid f).vltbase = s.vltbase := rfl
@[simp] theorem State.modLaunch_vltsize : (s.modLaunch lid f).vltsize = s.vltsize := rfl
@[simp] theorem State.modLaunch_buffers : (s.modLaunch lid f).buffers = s.buffers := rfl
@[simp] theorem State.modLaunch_vwrites : (s.modLaunch lid f).vwrites = s.vwrites := rfl
@[simp] theorem State.modLaunch_wsWriting : (s.modLaunch lid f).wsWriting = s.wsWriting := rfl
@[simp] theorem State.modLaunch_ath : (s.modLaunch lid f).ath = s.ath := rfl
@[simp] theorem State.modLaunch_alerts : (s.modLaunch lid f).alerts = s.alerts := rfl
@[simp] theorem State.modLaunch_boff : (s.modLaunch lid f).boff = s.boff := rfl
@[simp] theorem State.modLaunch_boffRest : (s.modLaunch lid f).boffRest = s.boffRest := rfl
@[simp] theorem State.modLaunch_acts : (s.modLaunch lid f).acts = s.acts := rfl
@[simp] theorem State.modLaunch_backoff : (s.modLaunch lid f).backoff = s.backoff := rfl
@[simp] theorem State.modLaunch_debts : (s.modLaunch lid f).debts = s.debts := rfl
@[simp] theorem State.modLaunch_queues : (s.modLaunch lid f).queues = s.queues := rfl
@[simp] theorem State.modLaunch_qrr : (s.modLaunch lid f).qrr = s.qrr := rfl
@[simp] theorem State.modLaunch_journal : (s.modLaunch lid f).journal = s.journal := rfl
@[simp] theorem State.modLaunch_msix : (s.modLaunch lid f).msix = s.msix := rfl
@[simp] theorem State.modLaunch_cprst : (s.modLaunch lid f).cprst = s.cprst := rfl
@[simp] theorem State.modLaunch_step : (s.modLaunch lid f).step = s.step := rfl
@[simp] theorem State.modLaunch_trst : (s.modLaunch lid f).trst = s.trst := rfl
@[simp] theorem State.modLaunch_pwr : (s.modLaunch lid f).pwr = s.pwr := rfl
@[simp] theorem State.modLaunch_temp : (s.modLaunch lid f).temp = s.temp := rfl
@[simp] theorem State.modLaunch_thr : (s.modLaunch lid f).thr = s.thr := rfl
@[simp] theorem State.modLaunch_red : (s.modLaunch lid f).red = s.red := rfl
@[simp] theorem State.modLaunch_rdy : (s.modLaunch lid f).rdy = s.rdy := rfl
@[simp] theorem State.modLaunch_pwrlim : (s.modLaunch lid f).pwrlim = s.pwrlim := rfl
@[simp] theorem State.modLaunch_cfg : (s.modLaunch lid f).cfg = s.cfg := rfl
@[simp] theorem State.modLaunch_fwArb : (s.modLaunch lid f).fwArb = s.fwArb := rfl
@[simp] theorem State.modLaunch_fwTrial : (s.modLaunch lid f).fwTrial = s.fwTrial := rfl
@[simp] theorem State.modLaunch_fwAct : (s.modLaunch lid f).fwAct = s.fwAct := rfl
@[simp] theorem State.modLaunch_fwSlots : (s.modLaunch lid f).fwSlots = s.fwSlots := rfl
@[simp] theorem State.modLaunch_fwCommit : (s.modLaunch lid f).fwCommit = s.fwCommit := rfl
@[simp] theorem State.modLaunch_modId : (s.modLaunch lid f).modId = s.modId := rfl
@[simp] theorem State.modLaunch_routes : (s.modLaunch lid f).routes = s.routes := rfl
@[simp] theorem State.modLaunch_portsUp : (s.modLaunch lid f).portsUp = s.portsUp := rfl
@[simp] theorem State.modLaunch_expt : (s.modLaunch lid f).expt = s.expt := rfl
@[simp] theorem State.modLaunch_measure : (s.modLaunch lid f).measure = s.measure := rfl
@[simp] theorem State.modLaunch_quotes : (s.modLaunch lid f).quotes = s.quotes := rfl
@[simp] theorem State.modLaunch_missPos : (s.modLaunch lid f).missPos = s.missPos := rfl
@[simp] theorem State.modLaunch_faultPos : (s.modLaunch lid f).faultPos = s.faultPos := rfl
@[simp] theorem State.modLaunch_late : (s.modLaunch lid f).late = s.late := rfl
@[simp] theorem State.modLaunch_cpDown : (s.modLaunch lid f).cpDown = s.cpDown := rfl
@[simp] theorem State.modLaunch_cpq : (s.modLaunch lid f).cpq = s.cpq := rfl
@[simp] theorem State.modLaunch_stackBad : (s.modLaunch lid f).stackBad = s.stackBad := rfl
@[simp] theorem State.modLaunch_faultRead : (s.modLaunch lid f).faultRead = s.faultRead := rfl
@[simp] theorem State.modLaunch_invals : (s.modLaunch lid f).invals = s.invals := rfl
@[simp] theorem State.modLaunch_nextInval : (s.modLaunch lid f).nextInval = s.nextInval := rfl
@[simp] theorem State.modLaunch_lids : (s.modLaunch lid f).lids = s.lids := rfl
@[simp] theorem State.modLaunch_usedLids : (s.modLaunch lid f).usedLids = s.usedLids := rfl
@[simp] theorem State.modLaunch_handles : (s.modLaunch lid f).handles = s.handles := rfl
@[simp] theorem State.modLaunch_cur : (s.modLaunch lid f).cur = s.cur := rfl
@[simp] theorem State.modLaunch_phase : (s.modLaunch lid f).phase = s.phase := rfl
@[simp] theorem State.modLaunch_agenda : (s.modLaunch lid f).agenda = s.agenda := rfl
@[simp] theorem State.modLaunch_seq : (s.modLaunch lid f).seq = s.seq := rfl
end

section
variable (s : State) (c : Nat) (f : Context → Context)
@[simp] theorem State.modContext_cycle : (s.modContext c f).cycle = s.cycle := rfl
@[simp] theorem State.modContext_tiles : (s.modContext c f).tiles = s.tiles := rfl
@[simp] theorem State.modContext_mem : (s.modContext c f).mem = s.mem := rfl
@[simp] theorem State.modContext_empties : (s.modContext c f).empties = s.empties := rfl
@[simp] theorem State.modContext_poison : (s.modContext c f).poison = s.poison := rfl
@[simp] theorem State.modContext_latent : (s.modContext c f).latent = s.latent := rfl
@[simp] theorem State.modContext_fresh : (s.modContext c f).fresh = s.fresh := rfl
@[simp] theorem State.modContext_gangs : (s.modContext c f).gangs = s.gangs := rfl
@[simp] theorem State.modContext_launches : (s.modContext c f).launches = s.launches := rfl
@[simp] theorem State.modContext_flying : (s.modContext c f).flying = s.flying := rfl
@[simp] theorem State.modContext_saved : (s.modContext c f).saved = s.saved := rfl
@[simp] theorem State.modContext_images : (s.modContext c f).images = s.images := rfl
@[simp] theorem State.modContext_reflections : (s.modContext c f).reflections = s.reflections := rfl
@[simp] theorem State.modContext_fr : (s.modContext c f).fr = s.fr := rfl
@[simp] theorem State.modContext_keys : (s.modContext c f).keys = s.keys := rfl
@[simp] theorem State.modContext_vltbase : (s.modContext c f).vltbase = s.vltbase := rfl
@[simp] theorem State.modContext_vltsize : (s.modContext c f).vltsize = s.vltsize := rfl
@[simp] theorem State.modContext_buffers : (s.modContext c f).buffers = s.buffers := rfl
@[simp] theorem State.modContext_vwrites : (s.modContext c f).vwrites = s.vwrites := rfl
@[simp] theorem State.modContext_wsWriting : (s.modContext c f).wsWriting = s.wsWriting := rfl
@[simp] theorem State.modContext_ath : (s.modContext c f).ath = s.ath := rfl
@[simp] theorem State.modContext_alerts : (s.modContext c f).alerts = s.alerts := rfl
@[simp] theorem State.modContext_boff : (s.modContext c f).boff = s.boff := rfl
@[simp] theorem State.modContext_boffRest : (s.modContext c f).boffRest = s.boffRest := rfl
@[simp] theorem State.modContext_acts : (s.modContext c f).acts = s.acts := rfl
@[simp] theorem State.modContext_backoff : (s.modContext c f).backoff = s.backoff := rfl
@[simp] theorem State.modContext_debts : (s.modContext c f).debts = s.debts := rfl
@[simp] theorem State.modContext_queues : (s.modContext c f).queues = s.queues := rfl
@[simp] theorem State.modContext_qrr : (s.modContext c f).qrr = s.qrr := rfl
@[simp] theorem State.modContext_journal : (s.modContext c f).journal = s.journal := rfl
@[simp] theorem State.modContext_msix : (s.modContext c f).msix = s.msix := rfl
@[simp] theorem State.modContext_cprst : (s.modContext c f).cprst = s.cprst := rfl
@[simp] theorem State.modContext_step : (s.modContext c f).step = s.step := rfl
@[simp] theorem State.modContext_trst : (s.modContext c f).trst = s.trst := rfl
@[simp] theorem State.modContext_pwr : (s.modContext c f).pwr = s.pwr := rfl
@[simp] theorem State.modContext_temp : (s.modContext c f).temp = s.temp := rfl
@[simp] theorem State.modContext_thr : (s.modContext c f).thr = s.thr := rfl
@[simp] theorem State.modContext_red : (s.modContext c f).red = s.red := rfl
@[simp] theorem State.modContext_rdy : (s.modContext c f).rdy = s.rdy := rfl
@[simp] theorem State.modContext_pwrlim : (s.modContext c f).pwrlim = s.pwrlim := rfl
@[simp] theorem State.modContext_cfg : (s.modContext c f).cfg = s.cfg := rfl
@[simp] theorem State.modContext_fwArb : (s.modContext c f).fwArb = s.fwArb := rfl
@[simp] theorem State.modContext_fwTrial : (s.modContext c f).fwTrial = s.fwTrial := rfl
@[simp] theorem State.modContext_fwAct : (s.modContext c f).fwAct = s.fwAct := rfl
@[simp] theorem State.modContext_fwSlots : (s.modContext c f).fwSlots = s.fwSlots := rfl
@[simp] theorem State.modContext_fwCommit : (s.modContext c f).fwCommit = s.fwCommit := rfl
@[simp] theorem State.modContext_modId : (s.modContext c f).modId = s.modId := rfl
@[simp] theorem State.modContext_routes : (s.modContext c f).routes = s.routes := rfl
@[simp] theorem State.modContext_portsUp : (s.modContext c f).portsUp = s.portsUp := rfl
@[simp] theorem State.modContext_expt : (s.modContext c f).expt = s.expt := rfl
@[simp] theorem State.modContext_measure : (s.modContext c f).measure = s.measure := rfl
@[simp] theorem State.modContext_quotes : (s.modContext c f).quotes = s.quotes := rfl
@[simp] theorem State.modContext_missPos : (s.modContext c f).missPos = s.missPos := rfl
@[simp] theorem State.modContext_faultPos : (s.modContext c f).faultPos = s.faultPos := rfl
@[simp] theorem State.modContext_late : (s.modContext c f).late = s.late := rfl
@[simp] theorem State.modContext_cpDown : (s.modContext c f).cpDown = s.cpDown := rfl
@[simp] theorem State.modContext_cpq : (s.modContext c f).cpq = s.cpq := rfl
@[simp] theorem State.modContext_stackBad : (s.modContext c f).stackBad = s.stackBad := rfl
@[simp] theorem State.modContext_faultRead : (s.modContext c f).faultRead = s.faultRead := rfl
@[simp] theorem State.modContext_invals : (s.modContext c f).invals = s.invals := rfl
@[simp] theorem State.modContext_nextInval : (s.modContext c f).nextInval = s.nextInval := rfl
@[simp] theorem State.modContext_lids : (s.modContext c f).lids = s.lids := rfl
@[simp] theorem State.modContext_usedLids : (s.modContext c f).usedLids = s.usedLids := rfl
@[simp] theorem State.modContext_handles : (s.modContext c f).handles = s.handles := rfl
@[simp] theorem State.modContext_cur : (s.modContext c f).cur = s.cur := rfl
@[simp] theorem State.modContext_phase : (s.modContext c f).phase = s.phase := rfl
@[simp] theorem State.modContext_agenda : (s.modContext c f).agenda = s.agenda := rfl
@[simp] theorem State.modContext_seq : (s.modContext c f).seq = s.seq := rfl
end

section
variable (s : State) (k : Nat) (f : Bool)
@[simp] theorem State.setFull_cycle : (s.setFull k f).cycle = s.cycle := rfl
@[simp] theorem State.setFull_tiles : (s.setFull k f).tiles = s.tiles := rfl
@[simp] theorem State.setFull_mem : (s.setFull k f).mem = s.mem := rfl
@[simp] theorem State.setFull_poison : (s.setFull k f).poison = s.poison := rfl
@[simp] theorem State.setFull_latent : (s.setFull k f).latent = s.latent := rfl
@[simp] theorem State.setFull_fresh : (s.setFull k f).fresh = s.fresh := rfl
@[simp] theorem State.setFull_gangs : (s.setFull k f).gangs = s.gangs := rfl
@[simp] theorem State.setFull_launches : (s.setFull k f).launches = s.launches := rfl
@[simp] theorem State.setFull_flying : (s.setFull k f).flying = s.flying := rfl
@[simp] theorem State.setFull_saved : (s.setFull k f).saved = s.saved := rfl
@[simp] theorem State.setFull_images : (s.setFull k f).images = s.images := rfl
@[simp] theorem State.setFull_contexts : (s.setFull k f).contexts = s.contexts := rfl
@[simp] theorem State.setFull_reflections : (s.setFull k f).reflections = s.reflections := rfl
@[simp] theorem State.setFull_fr : (s.setFull k f).fr = s.fr := rfl
@[simp] theorem State.setFull_keys : (s.setFull k f).keys = s.keys := rfl
@[simp] theorem State.setFull_vltbase : (s.setFull k f).vltbase = s.vltbase := rfl
@[simp] theorem State.setFull_vltsize : (s.setFull k f).vltsize = s.vltsize := rfl
@[simp] theorem State.setFull_buffers : (s.setFull k f).buffers = s.buffers := rfl
@[simp] theorem State.setFull_vwrites : (s.setFull k f).vwrites = s.vwrites := rfl
@[simp] theorem State.setFull_wsWriting : (s.setFull k f).wsWriting = s.wsWriting := rfl
@[simp] theorem State.setFull_ath : (s.setFull k f).ath = s.ath := rfl
@[simp] theorem State.setFull_alerts : (s.setFull k f).alerts = s.alerts := rfl
@[simp] theorem State.setFull_boff : (s.setFull k f).boff = s.boff := rfl
@[simp] theorem State.setFull_boffRest : (s.setFull k f).boffRest = s.boffRest := rfl
@[simp] theorem State.setFull_acts : (s.setFull k f).acts = s.acts := rfl
@[simp] theorem State.setFull_backoff : (s.setFull k f).backoff = s.backoff := rfl
@[simp] theorem State.setFull_debts : (s.setFull k f).debts = s.debts := rfl
@[simp] theorem State.setFull_queues : (s.setFull k f).queues = s.queues := rfl
@[simp] theorem State.setFull_qrr : (s.setFull k f).qrr = s.qrr := rfl
@[simp] theorem State.setFull_journal : (s.setFull k f).journal = s.journal := rfl
@[simp] theorem State.setFull_msix : (s.setFull k f).msix = s.msix := rfl
@[simp] theorem State.setFull_cprst : (s.setFull k f).cprst = s.cprst := rfl
@[simp] theorem State.setFull_step : (s.setFull k f).step = s.step := rfl
@[simp] theorem State.setFull_trst : (s.setFull k f).trst = s.trst := rfl
@[simp] theorem State.setFull_pwr : (s.setFull k f).pwr = s.pwr := rfl
@[simp] theorem State.setFull_temp : (s.setFull k f).temp = s.temp := rfl
@[simp] theorem State.setFull_thr : (s.setFull k f).thr = s.thr := rfl
@[simp] theorem State.setFull_red : (s.setFull k f).red = s.red := rfl
@[simp] theorem State.setFull_rdy : (s.setFull k f).rdy = s.rdy := rfl
@[simp] theorem State.setFull_pwrlim : (s.setFull k f).pwrlim = s.pwrlim := rfl
@[simp] theorem State.setFull_cfg : (s.setFull k f).cfg = s.cfg := rfl
@[simp] theorem State.setFull_fwArb : (s.setFull k f).fwArb = s.fwArb := rfl
@[simp] theorem State.setFull_fwTrial : (s.setFull k f).fwTrial = s.fwTrial := rfl
@[simp] theorem State.setFull_fwAct : (s.setFull k f).fwAct = s.fwAct := rfl
@[simp] theorem State.setFull_fwSlots : (s.setFull k f).fwSlots = s.fwSlots := rfl
@[simp] theorem State.setFull_fwCommit : (s.setFull k f).fwCommit = s.fwCommit := rfl
@[simp] theorem State.setFull_modId : (s.setFull k f).modId = s.modId := rfl
@[simp] theorem State.setFull_routes : (s.setFull k f).routes = s.routes := rfl
@[simp] theorem State.setFull_portsUp : (s.setFull k f).portsUp = s.portsUp := rfl
@[simp] theorem State.setFull_expt : (s.setFull k f).expt = s.expt := rfl
@[simp] theorem State.setFull_measure : (s.setFull k f).measure = s.measure := rfl
@[simp] theorem State.setFull_quotes : (s.setFull k f).quotes = s.quotes := rfl
@[simp] theorem State.setFull_missPos : (s.setFull k f).missPos = s.missPos := rfl
@[simp] theorem State.setFull_faultPos : (s.setFull k f).faultPos = s.faultPos := rfl
@[simp] theorem State.setFull_late : (s.setFull k f).late = s.late := rfl
@[simp] theorem State.setFull_cpDown : (s.setFull k f).cpDown = s.cpDown := rfl
@[simp] theorem State.setFull_cpq : (s.setFull k f).cpq = s.cpq := rfl
@[simp] theorem State.setFull_stackBad : (s.setFull k f).stackBad = s.stackBad := rfl
@[simp] theorem State.setFull_faultRead : (s.setFull k f).faultRead = s.faultRead := rfl
@[simp] theorem State.setFull_invals : (s.setFull k f).invals = s.invals := rfl
@[simp] theorem State.setFull_nextInval : (s.setFull k f).nextInval = s.nextInval := rfl
@[simp] theorem State.setFull_lids : (s.setFull k f).lids = s.lids := rfl
@[simp] theorem State.setFull_usedLids : (s.setFull k f).usedLids = s.usedLids := rfl
@[simp] theorem State.setFull_handles : (s.setFull k f).handles = s.handles := rfl
@[simp] theorem State.setFull_cur : (s.setFull k f).cur = s.cur := rfl
@[simp] theorem State.setFull_phase : (s.setFull k f).phase = s.phase := rfl
@[simp] theorem State.setFull_agenda : (s.setFull k f).agenda = s.agenda := rfl
@[simp] theorem State.setFull_seq : (s.setFull k f).seq = s.seq := rfl
end

section
variable (s : State) (k : Nat) (p : Bool)
@[simp] theorem State.setPoison_cycle : (s.setPoison k p).cycle = s.cycle := rfl
@[simp] theorem State.setPoison_tiles : (s.setPoison k p).tiles = s.tiles := rfl
@[simp] theorem State.setPoison_mem : (s.setPoison k p).mem = s.mem := rfl
@[simp] theorem State.setPoison_empties : (s.setPoison k p).empties = s.empties := rfl
@[simp] theorem State.setPoison_latent : (s.setPoison k p).latent = s.latent := rfl
@[simp] theorem State.setPoison_fresh : (s.setPoison k p).fresh = s.fresh := rfl
@[simp] theorem State.setPoison_gangs : (s.setPoison k p).gangs = s.gangs := rfl
@[simp] theorem State.setPoison_launches : (s.setPoison k p).launches = s.launches := rfl
@[simp] theorem State.setPoison_flying : (s.setPoison k p).flying = s.flying := rfl
@[simp] theorem State.setPoison_saved : (s.setPoison k p).saved = s.saved := rfl
@[simp] theorem State.setPoison_images : (s.setPoison k p).images = s.images := rfl
@[simp] theorem State.setPoison_contexts : (s.setPoison k p).contexts = s.contexts := rfl
@[simp] theorem State.setPoison_reflections : (s.setPoison k p).reflections = s.reflections := rfl
@[simp] theorem State.setPoison_fr : (s.setPoison k p).fr = s.fr := rfl
@[simp] theorem State.setPoison_keys : (s.setPoison k p).keys = s.keys := rfl
@[simp] theorem State.setPoison_vltbase : (s.setPoison k p).vltbase = s.vltbase := rfl
@[simp] theorem State.setPoison_vltsize : (s.setPoison k p).vltsize = s.vltsize := rfl
@[simp] theorem State.setPoison_buffers : (s.setPoison k p).buffers = s.buffers := rfl
@[simp] theorem State.setPoison_vwrites : (s.setPoison k p).vwrites = s.vwrites := rfl
@[simp] theorem State.setPoison_wsWriting : (s.setPoison k p).wsWriting = s.wsWriting := rfl
@[simp] theorem State.setPoison_ath : (s.setPoison k p).ath = s.ath := rfl
@[simp] theorem State.setPoison_alerts : (s.setPoison k p).alerts = s.alerts := rfl
@[simp] theorem State.setPoison_boff : (s.setPoison k p).boff = s.boff := rfl
@[simp] theorem State.setPoison_boffRest : (s.setPoison k p).boffRest = s.boffRest := rfl
@[simp] theorem State.setPoison_acts : (s.setPoison k p).acts = s.acts := rfl
@[simp] theorem State.setPoison_backoff : (s.setPoison k p).backoff = s.backoff := rfl
@[simp] theorem State.setPoison_debts : (s.setPoison k p).debts = s.debts := rfl
@[simp] theorem State.setPoison_queues : (s.setPoison k p).queues = s.queues := rfl
@[simp] theorem State.setPoison_qrr : (s.setPoison k p).qrr = s.qrr := rfl
@[simp] theorem State.setPoison_journal : (s.setPoison k p).journal = s.journal := rfl
@[simp] theorem State.setPoison_msix : (s.setPoison k p).msix = s.msix := rfl
@[simp] theorem State.setPoison_cprst : (s.setPoison k p).cprst = s.cprst := rfl
@[simp] theorem State.setPoison_step : (s.setPoison k p).step = s.step := rfl
@[simp] theorem State.setPoison_trst : (s.setPoison k p).trst = s.trst := rfl
@[simp] theorem State.setPoison_pwr : (s.setPoison k p).pwr = s.pwr := rfl
@[simp] theorem State.setPoison_temp : (s.setPoison k p).temp = s.temp := rfl
@[simp] theorem State.setPoison_thr : (s.setPoison k p).thr = s.thr := rfl
@[simp] theorem State.setPoison_red : (s.setPoison k p).red = s.red := rfl
@[simp] theorem State.setPoison_rdy : (s.setPoison k p).rdy = s.rdy := rfl
@[simp] theorem State.setPoison_pwrlim : (s.setPoison k p).pwrlim = s.pwrlim := rfl
@[simp] theorem State.setPoison_cfg : (s.setPoison k p).cfg = s.cfg := rfl
@[simp] theorem State.setPoison_fwArb : (s.setPoison k p).fwArb = s.fwArb := rfl
@[simp] theorem State.setPoison_fwTrial : (s.setPoison k p).fwTrial = s.fwTrial := rfl
@[simp] theorem State.setPoison_fwAct : (s.setPoison k p).fwAct = s.fwAct := rfl
@[simp] theorem State.setPoison_fwSlots : (s.setPoison k p).fwSlots = s.fwSlots := rfl
@[simp] theorem State.setPoison_fwCommit : (s.setPoison k p).fwCommit = s.fwCommit := rfl
@[simp] theorem State.setPoison_modId : (s.setPoison k p).modId = s.modId := rfl
@[simp] theorem State.setPoison_routes : (s.setPoison k p).routes = s.routes := rfl
@[simp] theorem State.setPoison_portsUp : (s.setPoison k p).portsUp = s.portsUp := rfl
@[simp] theorem State.setPoison_expt : (s.setPoison k p).expt = s.expt := rfl
@[simp] theorem State.setPoison_measure : (s.setPoison k p).measure = s.measure := rfl
@[simp] theorem State.setPoison_quotes : (s.setPoison k p).quotes = s.quotes := rfl
@[simp] theorem State.setPoison_missPos : (s.setPoison k p).missPos = s.missPos := rfl
@[simp] theorem State.setPoison_faultPos : (s.setPoison k p).faultPos = s.faultPos := rfl
@[simp] theorem State.setPoison_late : (s.setPoison k p).late = s.late := rfl
@[simp] theorem State.setPoison_cpDown : (s.setPoison k p).cpDown = s.cpDown := rfl
@[simp] theorem State.setPoison_cpq : (s.setPoison k p).cpq = s.cpq := rfl
@[simp] theorem State.setPoison_stackBad : (s.setPoison k p).stackBad = s.stackBad := rfl
@[simp] theorem State.setPoison_faultRead : (s.setPoison k p).faultRead = s.faultRead := rfl
@[simp] theorem State.setPoison_invals : (s.setPoison k p).invals = s.invals := rfl
@[simp] theorem State.setPoison_nextInval : (s.setPoison k p).nextInval = s.nextInval := rfl
@[simp] theorem State.setPoison_lids : (s.setPoison k p).lids = s.lids := rfl
@[simp] theorem State.setPoison_usedLids : (s.setPoison k p).usedLids = s.usedLids := rfl
@[simp] theorem State.setPoison_handles : (s.setPoison k p).handles = s.handles := rfl
@[simp] theorem State.setPoison_cur : (s.setPoison k p).cur = s.cur := rfl
@[simp] theorem State.setPoison_phase : (s.setPoison k p).phase = s.phase := rfl
@[simp] theorem State.setPoison_agenda : (s.setPoison k p).agenda = s.agenda := rfl
@[simp] theorem State.setPoison_seq : (s.setPoison k p).seq = s.seq := rfl
end

section
variable (s : State) (k : Nat) (bs : List Byte)
@[simp] theorem State.putBytes_cycle : (s.putBytes k bs).cycle = s.cycle := rfl
@[simp] theorem State.putBytes_tiles : (s.putBytes k bs).tiles = s.tiles := rfl
@[simp] theorem State.putBytes_empties : (s.putBytes k bs).empties = s.empties := rfl
@[simp] theorem State.putBytes_gangs : (s.putBytes k bs).gangs = s.gangs := rfl
@[simp] theorem State.putBytes_launches : (s.putBytes k bs).launches = s.launches := rfl
@[simp] theorem State.putBytes_flying : (s.putBytes k bs).flying = s.flying := rfl
@[simp] theorem State.putBytes_saved : (s.putBytes k bs).saved = s.saved := rfl
@[simp] theorem State.putBytes_images : (s.putBytes k bs).images = s.images := rfl
@[simp] theorem State.putBytes_contexts : (s.putBytes k bs).contexts = s.contexts := rfl
@[simp] theorem State.putBytes_reflections : (s.putBytes k bs).reflections = s.reflections := rfl
@[simp] theorem State.putBytes_fr : (s.putBytes k bs).fr = s.fr := rfl
@[simp] theorem State.putBytes_keys : (s.putBytes k bs).keys = s.keys := rfl
@[simp] theorem State.putBytes_vltbase : (s.putBytes k bs).vltbase = s.vltbase := rfl
@[simp] theorem State.putBytes_vltsize : (s.putBytes k bs).vltsize = s.vltsize := rfl
@[simp] theorem State.putBytes_buffers : (s.putBytes k bs).buffers = s.buffers := rfl
@[simp] theorem State.putBytes_vwrites : (s.putBytes k bs).vwrites = s.vwrites := rfl
@[simp] theorem State.putBytes_wsWriting : (s.putBytes k bs).wsWriting = s.wsWriting := rfl
@[simp] theorem State.putBytes_ath : (s.putBytes k bs).ath = s.ath := rfl
@[simp] theorem State.putBytes_alerts : (s.putBytes k bs).alerts = s.alerts := rfl
@[simp] theorem State.putBytes_boff : (s.putBytes k bs).boff = s.boff := rfl
@[simp] theorem State.putBytes_boffRest : (s.putBytes k bs).boffRest = s.boffRest := rfl
@[simp] theorem State.putBytes_acts : (s.putBytes k bs).acts = s.acts := rfl
@[simp] theorem State.putBytes_backoff : (s.putBytes k bs).backoff = s.backoff := rfl
@[simp] theorem State.putBytes_debts : (s.putBytes k bs).debts = s.debts := rfl
@[simp] theorem State.putBytes_queues : (s.putBytes k bs).queues = s.queues := rfl
@[simp] theorem State.putBytes_qrr : (s.putBytes k bs).qrr = s.qrr := rfl
@[simp] theorem State.putBytes_journal : (s.putBytes k bs).journal = s.journal := rfl
@[simp] theorem State.putBytes_msix : (s.putBytes k bs).msix = s.msix := rfl
@[simp] theorem State.putBytes_cprst : (s.putBytes k bs).cprst = s.cprst := rfl
@[simp] theorem State.putBytes_step : (s.putBytes k bs).step = s.step := rfl
@[simp] theorem State.putBytes_trst : (s.putBytes k bs).trst = s.trst := rfl
@[simp] theorem State.putBytes_pwr : (s.putBytes k bs).pwr = s.pwr := rfl
@[simp] theorem State.putBytes_temp : (s.putBytes k bs).temp = s.temp := rfl
@[simp] theorem State.putBytes_thr : (s.putBytes k bs).thr = s.thr := rfl
@[simp] theorem State.putBytes_red : (s.putBytes k bs).red = s.red := rfl
@[simp] theorem State.putBytes_rdy : (s.putBytes k bs).rdy = s.rdy := rfl
@[simp] theorem State.putBytes_pwrlim : (s.putBytes k bs).pwrlim = s.pwrlim := rfl
@[simp] theorem State.putBytes_cfg : (s.putBytes k bs).cfg = s.cfg := rfl
@[simp] theorem State.putBytes_fwArb : (s.putBytes k bs).fwArb = s.fwArb := rfl
@[simp] theorem State.putBytes_fwTrial : (s.putBytes k bs).fwTrial = s.fwTrial := rfl
@[simp] theorem State.putBytes_fwAct : (s.putBytes k bs).fwAct = s.fwAct := rfl
@[simp] theorem State.putBytes_fwSlots : (s.putBytes k bs).fwSlots = s.fwSlots := rfl
@[simp] theorem State.putBytes_fwCommit : (s.putBytes k bs).fwCommit = s.fwCommit := rfl
@[simp] theorem State.putBytes_modId : (s.putBytes k bs).modId = s.modId := rfl
@[simp] theorem State.putBytes_routes : (s.putBytes k bs).routes = s.routes := rfl
@[simp] theorem State.putBytes_portsUp : (s.putBytes k bs).portsUp = s.portsUp := rfl
@[simp] theorem State.putBytes_expt : (s.putBytes k bs).expt = s.expt := rfl
@[simp] theorem State.putBytes_measure : (s.putBytes k bs).measure = s.measure := rfl
@[simp] theorem State.putBytes_quotes : (s.putBytes k bs).quotes = s.quotes := rfl
@[simp] theorem State.putBytes_missPos : (s.putBytes k bs).missPos = s.missPos := rfl
@[simp] theorem State.putBytes_faultPos : (s.putBytes k bs).faultPos = s.faultPos := rfl
@[simp] theorem State.putBytes_late : (s.putBytes k bs).late = s.late := rfl
@[simp] theorem State.putBytes_cpDown : (s.putBytes k bs).cpDown = s.cpDown := rfl
@[simp] theorem State.putBytes_cpq : (s.putBytes k bs).cpq = s.cpq := rfl
@[simp] theorem State.putBytes_stackBad : (s.putBytes k bs).stackBad = s.stackBad := rfl
@[simp] theorem State.putBytes_faultRead : (s.putBytes k bs).faultRead = s.faultRead := rfl
@[simp] theorem State.putBytes_invals : (s.putBytes k bs).invals = s.invals := rfl
@[simp] theorem State.putBytes_nextInval : (s.putBytes k bs).nextInval = s.nextInval := rfl
@[simp] theorem State.putBytes_lids : (s.putBytes k bs).lids = s.lids := rfl
@[simp] theorem State.putBytes_usedLids : (s.putBytes k bs).usedLids = s.usedLids := rfl
@[simp] theorem State.putBytes_handles : (s.putBytes k bs).handles = s.handles := rfl
@[simp] theorem State.putBytes_cur : (s.putBytes k bs).cur = s.cur := rfl
@[simp] theorem State.putBytes_phase : (s.putBytes k bs).phase = s.phase := rfl
@[simp] theorem State.putBytes_agenda : (s.putBytes k bs).agenda = s.agenda := rfl
@[simp] theorem State.putBytes_seq : (s.putBytes k bs).seq = s.seq := rfl
end

section
variable (s : State) (tile a v : Nat)
@[simp] theorem State.putLocalWord_cycle : (s.putLocalWord tile a v).cycle = s.cycle := rfl
@[simp] theorem State.putLocalWord_tiles : (s.putLocalWord tile a v).tiles = s.tiles := rfl
@[simp] theorem State.putLocalWord_gangs : (s.putLocalWord tile a v).gangs = s.gangs := rfl
@[simp] theorem State.putLocalWord_launches : (s.putLocalWord tile a v).launches = s.launches := rfl
@[simp] theorem State.putLocalWord_flying : (s.putLocalWord tile a v).flying = s.flying := rfl
@[simp] theorem State.putLocalWord_saved : (s.putLocalWord tile a v).saved = s.saved := rfl
@[simp] theorem State.putLocalWord_images : (s.putLocalWord tile a v).images = s.images := rfl
@[simp] theorem State.putLocalWord_contexts : (s.putLocalWord tile a v).contexts = s.contexts := rfl
@[simp] theorem State.putLocalWord_reflections : (s.putLocalWord tile a v).reflections = s.reflections := rfl
@[simp] theorem State.putLocalWord_fr : (s.putLocalWord tile a v).fr = s.fr := rfl
@[simp] theorem State.putLocalWord_keys : (s.putLocalWord tile a v).keys = s.keys := rfl
@[simp] theorem State.putLocalWord_vltbase : (s.putLocalWord tile a v).vltbase = s.vltbase := rfl
@[simp] theorem State.putLocalWord_vltsize : (s.putLocalWord tile a v).vltsize = s.vltsize := rfl
@[simp] theorem State.putLocalWord_buffers : (s.putLocalWord tile a v).buffers = s.buffers := rfl
@[simp] theorem State.putLocalWord_vwrites : (s.putLocalWord tile a v).vwrites = s.vwrites := rfl
@[simp] theorem State.putLocalWord_wsWriting : (s.putLocalWord tile a v).wsWriting = s.wsWriting := rfl
@[simp] theorem State.putLocalWord_ath : (s.putLocalWord tile a v).ath = s.ath := rfl
@[simp] theorem State.putLocalWord_alerts : (s.putLocalWord tile a v).alerts = s.alerts := rfl
@[simp] theorem State.putLocalWord_boff : (s.putLocalWord tile a v).boff = s.boff := rfl
@[simp] theorem State.putLocalWord_boffRest : (s.putLocalWord tile a v).boffRest = s.boffRest := rfl
@[simp] theorem State.putLocalWord_acts : (s.putLocalWord tile a v).acts = s.acts := rfl
@[simp] theorem State.putLocalWord_backoff : (s.putLocalWord tile a v).backoff = s.backoff := rfl
@[simp] theorem State.putLocalWord_debts : (s.putLocalWord tile a v).debts = s.debts := rfl
@[simp] theorem State.putLocalWord_queues : (s.putLocalWord tile a v).queues = s.queues := rfl
@[simp] theorem State.putLocalWord_qrr : (s.putLocalWord tile a v).qrr = s.qrr := rfl
@[simp] theorem State.putLocalWord_journal : (s.putLocalWord tile a v).journal = s.journal := rfl
@[simp] theorem State.putLocalWord_msix : (s.putLocalWord tile a v).msix = s.msix := rfl
@[simp] theorem State.putLocalWord_cprst : (s.putLocalWord tile a v).cprst = s.cprst := rfl
@[simp] theorem State.putLocalWord_step : (s.putLocalWord tile a v).step = s.step := rfl
@[simp] theorem State.putLocalWord_trst : (s.putLocalWord tile a v).trst = s.trst := rfl
@[simp] theorem State.putLocalWord_pwr : (s.putLocalWord tile a v).pwr = s.pwr := rfl
@[simp] theorem State.putLocalWord_temp : (s.putLocalWord tile a v).temp = s.temp := rfl
@[simp] theorem State.putLocalWord_thr : (s.putLocalWord tile a v).thr = s.thr := rfl
@[simp] theorem State.putLocalWord_red : (s.putLocalWord tile a v).red = s.red := rfl
@[simp] theorem State.putLocalWord_rdy : (s.putLocalWord tile a v).rdy = s.rdy := rfl
@[simp] theorem State.putLocalWord_pwrlim : (s.putLocalWord tile a v).pwrlim = s.pwrlim := rfl
@[simp] theorem State.putLocalWord_cfg : (s.putLocalWord tile a v).cfg = s.cfg := rfl
@[simp] theorem State.putLocalWord_fwArb : (s.putLocalWord tile a v).fwArb = s.fwArb := rfl
@[simp] theorem State.putLocalWord_fwTrial : (s.putLocalWord tile a v).fwTrial = s.fwTrial := rfl
@[simp] theorem State.putLocalWord_fwAct : (s.putLocalWord tile a v).fwAct = s.fwAct := rfl
@[simp] theorem State.putLocalWord_fwSlots : (s.putLocalWord tile a v).fwSlots = s.fwSlots := rfl
@[simp] theorem State.putLocalWord_fwCommit : (s.putLocalWord tile a v).fwCommit = s.fwCommit := rfl
@[simp] theorem State.putLocalWord_modId : (s.putLocalWord tile a v).modId = s.modId := rfl
@[simp] theorem State.putLocalWord_routes : (s.putLocalWord tile a v).routes = s.routes := rfl
@[simp] theorem State.putLocalWord_portsUp : (s.putLocalWord tile a v).portsUp = s.portsUp := rfl
@[simp] theorem State.putLocalWord_expt : (s.putLocalWord tile a v).expt = s.expt := rfl
@[simp] theorem State.putLocalWord_measure : (s.putLocalWord tile a v).measure = s.measure := rfl
@[simp] theorem State.putLocalWord_quotes : (s.putLocalWord tile a v).quotes = s.quotes := rfl
@[simp] theorem State.putLocalWord_missPos : (s.putLocalWord tile a v).missPos = s.missPos := rfl
@[simp] theorem State.putLocalWord_faultPos : (s.putLocalWord tile a v).faultPos = s.faultPos := rfl
@[simp] theorem State.putLocalWord_late : (s.putLocalWord tile a v).late = s.late := rfl
@[simp] theorem State.putLocalWord_cpDown : (s.putLocalWord tile a v).cpDown = s.cpDown := rfl
@[simp] theorem State.putLocalWord_cpq : (s.putLocalWord tile a v).cpq = s.cpq := rfl
@[simp] theorem State.putLocalWord_stackBad : (s.putLocalWord tile a v).stackBad = s.stackBad := rfl
@[simp] theorem State.putLocalWord_faultRead : (s.putLocalWord tile a v).faultRead = s.faultRead := rfl
@[simp] theorem State.putLocalWord_invals : (s.putLocalWord tile a v).invals = s.invals := rfl
@[simp] theorem State.putLocalWord_nextInval : (s.putLocalWord tile a v).nextInval = s.nextInval := rfl
@[simp] theorem State.putLocalWord_lids : (s.putLocalWord tile a v).lids = s.lids := rfl
@[simp] theorem State.putLocalWord_usedLids : (s.putLocalWord tile a v).usedLids = s.usedLids := rfl
@[simp] theorem State.putLocalWord_handles : (s.putLocalWord tile a v).handles = s.handles := rfl
@[simp] theorem State.putLocalWord_cur : (s.putLocalWord tile a v).cur = s.cur := rfl
@[simp] theorem State.putLocalWord_phase : (s.putLocalWord tile a v).phase = s.phase := rfl
@[simp] theorem State.putLocalWord_agenda : (s.putLocalWord tile a v).agenda = s.agenda := rfl
@[simp] theorem State.putLocalWord_seq : (s.putLocalWord tile a v).seq = s.seq := rfl
end

section
variable (s : State) (k : Nat)
@[simp] theorem State.activate_cycle : (s.activate k).cycle = s.cycle := rfl
@[simp] theorem State.activate_tiles : (s.activate k).tiles = s.tiles := rfl
@[simp] theorem State.activate_mem : (s.activate k).mem = s.mem := rfl
@[simp] theorem State.activate_empties : (s.activate k).empties = s.empties := rfl
@[simp] theorem State.activate_poison : (s.activate k).poison = s.poison := rfl
@[simp] theorem State.activate_latent : (s.activate k).latent = s.latent := rfl
@[simp] theorem State.activate_fresh : (s.activate k).fresh = s.fresh := rfl
@[simp] theorem State.activate_gangs : (s.activate k).gangs = s.gangs := rfl
@[simp] theorem State.activate_launches : (s.activate k).launches = s.launches := rfl
@[simp] theorem State.activate_flying : (s.activate k).flying = s.flying := rfl
@[simp] theorem State.activate_saved : (s.activate k).saved = s.saved := rfl
@[simp] theorem State.activate_images : (s.activate k).images = s.images := rfl
@[simp] theorem State.activate_contexts : (s.activate k).contexts = s.contexts := rfl
@[simp] theorem State.activate_reflections : (s.activate k).reflections = s.reflections := rfl
@[simp] theorem State.activate_fr : (s.activate k).fr = s.fr := rfl
@[simp] theorem State.activate_keys : (s.activate k).keys = s.keys := rfl
@[simp] theorem State.activate_vltbase : (s.activate k).vltbase = s.vltbase := rfl
@[simp] theorem State.activate_vltsize : (s.activate k).vltsize = s.vltsize := rfl
@[simp] theorem State.activate_buffers : (s.activate k).buffers = s.buffers := rfl
@[simp] theorem State.activate_vwrites : (s.activate k).vwrites = s.vwrites := rfl
@[simp] theorem State.activate_wsWriting : (s.activate k).wsWriting = s.wsWriting := rfl
@[simp] theorem State.activate_ath : (s.activate k).ath = s.ath := rfl
@[simp] theorem State.activate_alerts : (s.activate k).alerts = s.alerts := rfl
@[simp] theorem State.activate_boff : (s.activate k).boff = s.boff := rfl
@[simp] theorem State.activate_boffRest : (s.activate k).boffRest = s.boffRest := rfl
@[simp] theorem State.activate_backoff : (s.activate k).backoff = s.backoff := rfl
@[simp] theorem State.activate_debts : (s.activate k).debts = s.debts := rfl
@[simp] theorem State.activate_queues : (s.activate k).queues = s.queues := rfl
@[simp] theorem State.activate_qrr : (s.activate k).qrr = s.qrr := rfl
@[simp] theorem State.activate_journal : (s.activate k).journal = s.journal := rfl
@[simp] theorem State.activate_msix : (s.activate k).msix = s.msix := rfl
@[simp] theorem State.activate_cprst : (s.activate k).cprst = s.cprst := rfl
@[simp] theorem State.activate_step : (s.activate k).step = s.step := rfl
@[simp] theorem State.activate_trst : (s.activate k).trst = s.trst := rfl
@[simp] theorem State.activate_pwr : (s.activate k).pwr = s.pwr := rfl
@[simp] theorem State.activate_temp : (s.activate k).temp = s.temp := rfl
@[simp] theorem State.activate_thr : (s.activate k).thr = s.thr := rfl
@[simp] theorem State.activate_red : (s.activate k).red = s.red := rfl
@[simp] theorem State.activate_rdy : (s.activate k).rdy = s.rdy := rfl
@[simp] theorem State.activate_pwrlim : (s.activate k).pwrlim = s.pwrlim := rfl
@[simp] theorem State.activate_cfg : (s.activate k).cfg = s.cfg := rfl
@[simp] theorem State.activate_fwArb : (s.activate k).fwArb = s.fwArb := rfl
@[simp] theorem State.activate_fwTrial : (s.activate k).fwTrial = s.fwTrial := rfl
@[simp] theorem State.activate_fwAct : (s.activate k).fwAct = s.fwAct := rfl
@[simp] theorem State.activate_fwSlots : (s.activate k).fwSlots = s.fwSlots := rfl
@[simp] theorem State.activate_fwCommit : (s.activate k).fwCommit = s.fwCommit := rfl
@[simp] theorem State.activate_modId : (s.activate k).modId = s.modId := rfl
@[simp] theorem State.activate_routes : (s.activate k).routes = s.routes := rfl
@[simp] theorem State.activate_portsUp : (s.activate k).portsUp = s.portsUp := rfl
@[simp] theorem State.activate_expt : (s.activate k).expt = s.expt := rfl
@[simp] theorem State.activate_measure : (s.activate k).measure = s.measure := rfl
@[simp] theorem State.activate_quotes : (s.activate k).quotes = s.quotes := rfl
@[simp] theorem State.activate_missPos : (s.activate k).missPos = s.missPos := rfl
@[simp] theorem State.activate_faultPos : (s.activate k).faultPos = s.faultPos := rfl
@[simp] theorem State.activate_late : (s.activate k).late = s.late := rfl
@[simp] theorem State.activate_cpDown : (s.activate k).cpDown = s.cpDown := rfl
@[simp] theorem State.activate_cpq : (s.activate k).cpq = s.cpq := rfl
@[simp] theorem State.activate_stackBad : (s.activate k).stackBad = s.stackBad := rfl
@[simp] theorem State.activate_faultRead : (s.activate k).faultRead = s.faultRead := rfl
@[simp] theorem State.activate_invals : (s.activate k).invals = s.invals := rfl
@[simp] theorem State.activate_nextInval : (s.activate k).nextInval = s.nextInval := rfl
@[simp] theorem State.activate_lids : (s.activate k).lids = s.lids := rfl
@[simp] theorem State.activate_usedLids : (s.activate k).usedLids = s.usedLids := rfl
@[simp] theorem State.activate_handles : (s.activate k).handles = s.handles := rfl
@[simp] theorem State.activate_cur : (s.activate k).cur = s.cur := rfl
@[simp] theorem State.activate_phase : (s.activate k).phase = s.phase := rfl
@[simp] theorem State.activate_agenda : (s.activate k).agenda = s.agenda := rfl
@[simp] theorem State.activate_seq : (s.activate k).seq = s.seq := rfl
end

end Sys2Proof.Machine
end

