-- ==== Sys2Proof/Laws/Threads.lean ====
section
/-! SUPPORT. What a tile, a core or a thread is after one of them has been set, and what completing an instruction, waiting and taking
a trap leave alone. -/
namespace Sys2Proof.Machine

theorem getA_putA_same {α : Type} (l : List (Nat × α)) (k : Nat) (v : α) : getA (putA l k v) k = some v := by
  induction l with
  | nil => simp [putA, getA]
  | cons e l ih =>
    obtain ⟨j, w⟩ := e
    simp only [putA]
    split
    · simp [getA]
    · split
      · simp [getA]
      · next h => simp [getA, h, ih]

theorem getA_putA_other {α : Type} (l : List (Nat × α)) {k j : Nat} (v : α) (h : j ≠ k) : getA (putA l k v) j = getA l j := by
  induction l with
  | nil => simp [putA, getA, h]
  | cons e l ih =>
    obtain ⟨i, w⟩ := e
    simp only [putA]
    split
    · simp [getA, h]
    · split
      · next h1 h2 => subst h2; simp [getA, h]
      · simp [getA, ih]

/-! ## Tiles -/

@[simp] theorem State.tile_setTile_same (s : State) (k : Nat) (t : Tile) : (s.setTile k t).tile k = t := by
  simp [State.tile, State.setTile, getA_putA_same]
theorem State.tile_setTile_other (s : State) {k j : Nat} (t : Tile) (h : j ≠ k) : (s.setTile k t).tile j = s.tile j := by
  simp [State.tile, State.setTile, getA_putA_other _ _ h]

/-! ## Cores -/

@[simp] theorem State.core_setCore_same (s : State) (r : CoreRef) (c : Core) : (s.setCore r c).core r = c := by
  simp [State.core, State.setCore]
theorem State.core_setCore_other (s : State) {r q : CoreRef} (c : Core) (h : q ≠ r) : (s.setCore r c).core q = s.core q := by
  unfold State.core State.setCore
  by_cases ht : q.tile = r.tile
  · rw [ht, State.tile_setTile_same]
    have hc : r.core.val ≠ q.core.val := fun e => h (by
      cases q; cases r; simp only [CoreRef.mk.injEq]; exact ⟨ht, Fin.ext e.symm⟩)
    simp [hc]
  · rw [State.tile_setTile_other _ _ ht]

/-! ## Threads -/

@[simp] theorem State.thread_setThread_same (s : State) (t : ThreadRef) (x : Thread) : (s.setThread t x).thread t = x := by
  simp [State.thread, State.setThread]
theorem State.thread_setThread_other (s : State) {t u : ThreadRef} (x : Thread) (h : u ≠ t) : (s.setThread t x).thread u = s.thread u := by
  unfold State.thread State.setThread
  by_cases hc : u.coreRef = t.coreRef
  · rw [hc, State.core_setCore_same]
    have hh : t.h.val ≠ u.h.val := fun e => h (by
      cases u; cases t; simp only [ThreadRef.coreRef, CoreRef.mk.injEq] at hc
      simp only [ThreadRef.mk.injEq]; exact ⟨hc.1, hc.2, Fin.ext e.symm⟩)
    simp [hh]
  · rw [State.core_setCore_other _ _ hc]
/-- Setting a thread leaves everything else of every core alone. -/
theorem State.core_setThread (s : State) (t : ThreadRef) (x : Thread) :
    (s.setThread t x).core t.coreRef = { s.core t.coreRef with threads := (s.core t.coreRef).threads.set t.h x } := by
  simp [State.setThread]
/-- Changing a core but not its threads changes no thread. -/
theorem State.thread_setCore (s : State) (r : CoreRef) (c : Core) (h : c.threads = (s.core r).threads) (u : ThreadRef) :
    (s.setCore r c).thread u = s.thread u := by
  unfold State.thread
  by_cases hc : u.coreRef = r
  · subst hc; simp [h]
  · rw [State.core_setCore_other _ _ hc]

@[simp] theorem State.me_setMe (s : State) (x : Thread) : (s.setMe x).me = x := by simp [State.me, State.setMe]
theorem State.thread_setMe_other (s : State) (x : Thread) {u : ThreadRef} (h : u ≠ s.cur) : (s.setMe x).thread u = s.thread u :=
  s.thread_setThread_other x h
@[simp] theorem State.myCore_setMyCore (s : State) (c : Core) : (s.setMyCore c).myCore = c := by simp [State.myCore, State.setMyCore]
@[simp] theorem State.myTile_setMyTile (s : State) (t : Tile) : (s.setMyTile t).myTile = t := by simp [State.myTile, State.setMyTile]

/-! ## Completing, waiting, trapping -/

@[simp] theorem Thread.advance_names (x : Thread) (n : Nat) : (x.advance n).names = x.names := rfl
@[simp] theorem Thread.advance_pc (x : Thread) (n : Nat) : (x.advance n).pc = x.pc + n := rfl
@[simp] theorem Thread.advance_st (x : Thread) (n : Nat) : (x.advance n).st = .ready := rfl
@[simp] theorem Thread.advance_wait (x : Thread) (n : Nat) : (x.advance n).wait = none := rfl
@[simp] theorem Thread.trapped_names (x : Thread) (c : BitVec 8) (p : Nat) (v : Word64) : (x.trapped c p v).names = x.names := rfl
@[simp] theorem Thread.trapped_tvec (x : Thread) (c : BitVec 8) (p : Nat) (v : Word64) : (x.trapped c p v).tvec = x.tvec := rfl
@[simp] theorem State.done_mem (s : State) (h : Hdr) : (s.done h).mem = s.mem := rfl
@[simp] theorem State.done_cur (s : State) (h : Hdr) : (s.done h).cur = s.cur := rfl
@[simp] theorem State.me_done (s : State) (h : Hdr) : (s.done h).me = s.me.advance (Hdr.len h) := by simp [State.done]
/-- Setting a port's buffer leaves a core's threads alone. -/
@[simp] theorem Core.setBuffer_threads (c : Core) (p : Nat) (l : List Word64) : (c.setBuffer p l).threads = c.threads := by
  unfold Core.setBuffer; split <;> rfl
/-- Taking words from ports leaves a core's threads alone. -/
@[simp] theorem Core.lessWords_threads (c : Core) (l : List (NameRef × Word64)) : (c.lessWords l).threads = c.threads := by
  unfold Core.lessWords
  induction l generalizing c with
  | nil => rfl
  | cons e l ih => rw [List.foldl_cons, ih]; split <;> simp
/-- Giving words back to ports leaves a core's threads alone. -/
@[simp] theorem Core.returnWords_threads (c : Core) (l : List (NameRef × Word64)) : (c.returnWords l).threads = c.threads := by
  unfold Core.returnWords
  induction l with
  | nil => rfl
  | cons e l ih => rw [List.foldr_cons]; split <;> simp [ih]
/-- What a wait begun changes: the words its operands take leave their ports, and the thread waits (R87, R99, R215). -/
theorem State.hold_cases (s : State) (i : Instr) (w : WaitFor) (v : Option Word64) :
    ∃ s1 l, (s1 = s ∨ ∃ c : Core, c.threads = s.myCore.threads ∧ s1 = s.setMyCore c) ∧
      s.hold i w v = s1.setMe { s.me with st := .waiting, wait := some { s.waitRec i w v with took := l } } := by
  by_cases hn : (if w.keeps ∧ (s.waitRec i w v).took.isEmpty then s.myCore.takes i.sources else []).isEmpty = true
  · exact ⟨s, (s.waitRec i w v).took, .inl rfl, by simp only [State.hold, hn, if_true]⟩
  · let n := if w.keeps ∧ (s.waitRec i w v).took.isEmpty then s.myCore.takes i.sources else []
    have hm : (s.setMyCore (s.myCore.lessWords n)).me = s.me := s.thread_setCore _ _ (Core.lessWords_threads _ n) _
    refine ⟨s.setMyCore (s.myCore.lessWords n), n, .inr ⟨_, Core.lessWords_threads _ n, rfl⟩, ?_⟩
    rw [← hm]
    simp only [State.hold, if_neg hn, n]
@[simp] theorem State.hold_mem (s : State) (i : Instr) (w : WaitFor) (v : Option Word64) : (s.hold i w v).mem = s.mem := by
  obtain ⟨s1, l, rfl | ⟨c, -, rfl⟩, h⟩ := s.hold_cases i w v <;> rw [h] <;> rfl
@[simp] theorem State.hold_cur (s : State) (i : Instr) (w : WaitFor) (v : Option Word64) : (s.hold i w v).cur = s.cur := by
  obtain ⟨s1, l, rfl | ⟨c, -, rfl⟩, h⟩ := s.hold_cases i w v <;> rw [h] <;> rfl
/-- The thread that waits: it stands at its instruction, its names as they were. -/
theorem State.me_hold (s : State) (i : Instr) (w : WaitFor) (v : Option Word64) :
    ∃ l, (s.hold i w v).me = { s.me with st := .waiting, wait := some { s.waitRec i w v with took := l } } := by
  obtain ⟨s1, l, rfl | ⟨c, -, rfl⟩, h⟩ := s.hold_cases i w v <;> exact ⟨l, by rw [h, State.me_setMe]⟩
theorem State.doneLat_mem (s0 s : State) (h : Hdr) (i : Instr) (n : Nat) : (s0.doneLat h i n s).mem = s.mem := by
  unfold State.doneLat; split <;> rfl
/-- A count changes one core's counters and nothing else. -/
theorem State.countN_eq (s : State) (r : CoreRef) (e : Fin 64) (n : Nat) :
    s.countN r e n = s ∨ ∃ c, c.threads = (s.core r).threads ∧ s.countN r e n = s.setCore r c := by
  unfold State.countN; split
  · exact .inl rfl
  · exact .inr ⟨{ s.core r with cevt := (s.core r).cevt.set e (satInc (s.core r).cevt[e] n) }, rfl, rfl⟩
@[simp] theorem State.countN_mem (s : State) (r : CoreRef) (e : Fin 64) (n : Nat) : (s.countN r e n).mem = s.mem := by
  unfold State.countN; split <;> rfl
@[simp] theorem State.countN_empties (s : State) (r : CoreRef) (e : Fin 64) (n : Nat) : (s.countN r e n).empties = s.empties := by
  unfold State.countN; split <;> rfl
@[simp] theorem State.countN_poison (s : State) (r : CoreRef) (e : Fin 64) (n : Nat) : (s.countN r e n).poison = s.poison := by
  unfold State.countN; split <;> rfl
@[simp] theorem State.countN_latent (s : State) (r : CoreRef) (e : Fin 64) (n : Nat) : (s.countN r e n).latent = s.latent := by
  unfold State.countN; split <;> rfl
@[simp] theorem State.countN_gangs (s : State) (r : CoreRef) (e : Fin 64) (n : Nat) : (s.countN r e n).gangs = s.gangs := by
  unfold State.countN; split <;> rfl
@[simp] theorem State.countN_cur (s : State) (r : CoreRef) (e : Fin 64) (n : Nat) : (s.countN r e n).cur = s.cur := by
  unfold State.countN; split <;> rfl
theorem State.thread_countN (s : State) (r : CoreRef) (e : Fin 64) (n : Nat) (u : ThreadRef) : (s.countN r e n).thread u = s.thread u := by
  obtain h | ⟨c, hc, h⟩ := s.countN_eq r e n
  · rw [h]
  · rw [h, s.thread_setCore r c hc u]

/-- With no error waiting to be found, a read finds none. -/
theorem State.found_of_clean {s : State} (h : s.latent = []) (t : ThreadRef) (kind ctx k n : Nat) : s.found t kind ctx k n = s.activate k := by
  simp [State.found, h]
@[simp] theorem State.thread_activate (s : State) (k : Nat) (u : ThreadRef) : (s.activate k).thread u = s.thread u := rfl
/-- A redirect over code with no error waiting sets one thread's pc and fetch buffer. -/
theorem State.redirect_of_clean {s : State} (h : s.latent = []) (t : ThreadRef) (a : Nat) :
    (s.redirect t a).mem = s.mem ∧ (s.redirect t a).cur = s.cur ∧ (∃ f, (s.redirect t a).thread t = { s.thread t with pc := a, fbuf := f }) ∧
    ∀ u, u ≠ t → (s.redirect t a).thread u = s.thread u := by
  unfold State.redirect
  simp only [State.countCode]
  rw [State.found_of_clean (by rw [State.countN_latent]; exact h)]
  refine ⟨by simp [State.setThread], by simp [State.setThread], ⟨s.prefetch t.tile [] [a, a + 4, a + 8, a + 12], ?_⟩, fun u hu => ?_⟩
  · rw [State.thread_activate, State.thread_countN, State.thread_setThread_same]
  · rw [State.thread_activate, State.thread_countN, State.thread_setThread_other _ _ hu]
/-- Giving back a thread's words touches the ports of its core and the record of its wait, and nothing else (R99). -/
theorem State.giveBack_cases (s : State) (t : ThreadRef) :
    (s.giveBack t).mem = s.mem ∧ (s.giveBack t).latent = s.latent ∧ (s.giveBack t).cur = s.cur ∧
    ∃ w, (s.giveBack t).thread t = { s.thread t with wait := w } ∧ ∀ u, u ≠ t → (s.giveBack t).thread u = s.thread u := by
  unfold State.giveBack
  split
  · next w hw =>
    split
    · exact ⟨rfl, rfl, rfl, (s.thread t).wait, rfl, fun u _ => rfl⟩
    · have hk : ∀ u, (s.setCore t.coreRef ((s.core t.coreRef).returnWords w.took)).thread u = s.thread u :=
        fun u => s.thread_setCore _ _ (by simp) u
      refine ⟨rfl, rfl, rfl, some { w with took := [] }, ?_, fun u hu => ?_⟩
      · rw [State.thread_setThread_same, hk]
      · rw [State.thread_setThread_other _ _ hu, hk]
  · exact ⟨rfl, rfl, rfl, (s.thread t).wait, rfl, fun u _ => rfl⟩
/-- A trap other than POISON with no error waiting (R289): the thread's trap registers, its state and where it goes on. -/
theorem State.takeTrap_of_clean {s : State} (h : s.latent = []) (t : ThreadRef) {c : Cause} (hc : c ≠ .poison) (epc : Nat) (v : Word64) :
    (s.takeTrap t c epc v).mem = s.mem ∧ (s.takeTrap t c epc v).cur = s.cur ∧
    (∃ f, (s.takeTrap t c epc v).thread t = { (s.thread t).trapped c.code epc v with pc := (s.thread t).tvec.toNat, fbuf := f }) ∧
    ∀ u, u ≠ t → (s.takeTrap t c epc v).thread u = s.thread u := by
  have hn : ¬ (c.code = Cause.poison.code ∧ s.containable t = true) := fun e => hc (by
    cases c <;> first | rfl | exact absurd e.1 (by decide))
  obtain ⟨hm, hl, hc', w, hw, ho⟩ := s.giveBack_cases t
  have hg : (s.giveBack t).latent = [] := hl.trans h
  have he : ((s.giveBack t).thread t).trapped c.code epc v = (s.thread t).trapped c.code epc v := by rw [hw]; rfl
  simp only [State.takeTrap, State.takeCode, if_neg hn, State.enterTrap]
  obtain ⟨h1, h2, ⟨f, h3⟩, h4⟩ := State.redirect_of_clean
    (s := (s.giveBack t).setThread t (((s.giveBack t).thread t).trapped c.code epc v)) hg t ((s.giveBack t).thread t).tvec.toNat
  refine ⟨h1.trans hm, h2.trans hc', ⟨f, ?_⟩, fun u hu => ?_⟩
  · rw [h3, State.thread_setThread_same, he]; rw [hw]
  · rw [h4 u hu, State.thread_setThread_other _ _ hu, ho u hu]

end Sys2Proof.Machine
end

