-- ==== Sys2Proof/Laws/Operands.lean ====
section
/-! SUPPORT. What the shared operations of a meaning answer: the issue prologue, reading a source, writing a result. -/
namespace Sys2Proof.Machine

theorem illUnless_true (i : Instr) {c : Bool} (h : c = true) : illUnless i c = none := by simp [illUnless, h]

/-- An instruction whose names, kinds and wait field pass issues (R96). -/
theorem State.issue_ok {s : State} {i : Instr} {h : Hdr} {srcs dsts : List NameRef} {pre : Option (Cause × Word64)}
    (hn : nameBreach s.myKernel h i srcs dsts = none) (hp : pre = none) (hw : s.waitOk h.wait = true) : s.issue i h srcs dsts pre = .ok s := by
  subst hp; simp [State.issue, hn, hw]
/-- Everything the issue prologue can answer. -/
theorem State.issue_cases (s : State) (i : Instr) (h : Hdr) (srcs dsts : List NameRef) (pre : Option (Cause × Word64)) :
    s.issue i h srcs dsts pre = .ok s ∨ (∃ v, s.issue i h srcs dsts pre = .error (s.takeTrap s.cur .ill s.me.pc v)) ∨
    (∃ c v, pre = some (c, v) ∧ s.issue i h srcs dsts pre = .error (s.takeTrap s.cur c s.me.pc v)) ∨
    s.issue i h srcs dsts pre = .error (s.hold i (.retry 0 0) none) := by
  unfold State.issue
  split
  · exact .inr (.inl ⟨_, rfl⟩)
  · split
    · exact .inr (.inr (.inl ⟨_, _, rfl, rfl⟩))
    · split
      · exact .inl rfl
      · exact .inr (.inr (.inr rfl))

@[simp] theorem State.read_cat (s0 s : State) (i : Instr) (h : Hdr) (k : BitVec 9) : s0.read i h (.cat k) s = .ok (s0.nameSrc s k, s) := rfl
/-- The name that an instruction reads which has not waited: as it stands (R67). -/
theorem State.nameSrc_free {s0 : State} (hw : s0.me.wait = none) (s : State) (k : BitVec 9) :
    s0.nameSrc s k = ⟨s.ent (.cat k), (s.me.name k.toNat).toNat⟩ := by simp [State.nameSrc, hw]
@[simp] theorem State.read_zero (s0 s : State) (i : Instr) (h : Hdr) : s0.read i h (.fixed .zero) s = .ok (⟨s.ent (.fixed .zero), 0⟩, s) := rfl
@[simp] theorem State.read_lit (s0 s : State) (i : Instr) (h : Hdr) :
    s0.read i h (.fixed .lit) s = .ok (⟨s.ent (.fixed .lit), h.lit.toNat⟩, s) := rfl

/-- A word that a waiting instruction had taken: it is out of the record of its wait. -/
theorem State.taken_eq {n : NameRef} {s s1 : State} {w : Word64} (h : State.taken n s = some (w, s1)) :
    ∃ v, s1 = s.setMe { s.me with wait := v } := by
  unfold State.taken at h
  split at h
  · split at h
    · split at h
      · cases h; exact ⟨_, rfl⟩
      · cases h
    · cases h
  · cases h
/-- Everything that reading a source can answer: the state as it was, with a word taken earlier out of the record of the wait, or with one
word of a port less; or a wait on a port. -/
theorem State.read_cases (s0 s : State) (i : Instr) (h : Hdr) (n : NameRef) :
    (∃ x s1, s0.read i h n s = .ok (x, s1) ∧ (s1 = s ∨ (∃ v, s1 = s.setMe { s.me with wait := v }) ∨
      ∃ c : Core, c.threads = s.myCore.threads ∧ s1 = s.setMyCore c)) ∨
    ∃ p, s0.read i h n s = portM s0 i p s := by
  have port : ∀ d, (∃ x s1, State.read.readPort s0 i n s d = .ok (x, s1) ∧ (s1 = s ∨ (∃ v, s1 = s.setMe { s.me with wait := v }) ∨
        ∃ c : Core, c.threads = s.myCore.threads ∧ s1 = s.setMyCore c)) ∨
      ∃ p, State.read.readPort s0 i n s d = portM s0 i p s := fun d => by
    unfold State.read.readPort
    split
    · next e => exact .inl ⟨_, _, rfl, .inr (.inl (State.taken_eq e))⟩
    · split
      · exact .inr ⟨_, rfl⟩
      · split
        · exact .inl ⟨_, _, rfl, .inr (.inr ⟨_, by exact rfl, rfl⟩)⟩
        · exact .inr ⟨_, rfl⟩
  unfold State.read
  split
  · exact .inl ⟨_, _, rfl, .inl rfl⟩
  · exact .inl ⟨_, _, rfl, .inl rfl⟩
  · exact .inl ⟨_, _, rfl, .inl rfl⟩
  · exact .inl ⟨_, _, rfl, .inl rfl⟩
  · split
    · next e => exact .inl ⟨_, _, rfl, .inr (.inl (State.taken_eq e))⟩
    · split
      · exact .inr ⟨_, rfl⟩
      · split
        · exact .inl ⟨_, _, rfl, .inr (.inr ⟨_, by exact rfl, rfl⟩)⟩
        · exact .inr ⟨_, rfl⟩
  · exact port .n
  · exact port .e
  · exact port .s
  · exact port .w

/-- A value inside a set is written as it is; in mode `wrap` or `sat` a value is always written (R68, R69). -/
theorem r69_inRange {k : Kind} {w : Nat} {m : Ovf} {x : Int} (h : inRange k w x = true) : r69 k w m x = some x := by simp [r69, h]
theorem r69_wrap {k : Kind} {w : Nat} {x : Int} (h : inRange k w x = false) : r69 k w .wrap x = some (wrapNat w x) := by simp [r69, h]
theorem r69_sat {k : Kind} {w : Nat} {x : Int} (h : inRange k w x = false) : r69 k w .sat x = some (satInt k w x) := by simp [r69, h]
theorem r69_trap {k : Kind} {w : Nat} {x : Int} (h : inRange k w x = false) : r69 k w .trap x = none := by simp [r69, h]
/-- Writing an integer to a name (R69). -/
theorem State.writeInt_cat {s0 s : State} {i : Instr} {n : BitVec 9} {x v : Int}
    (h : r69 (s.ent (.cat n)).kind (s.ent (.cat n)).width (s.ent (.cat n)).mode x = some v) :
    s0.writeInt i (.cat n) x s = .ok (s.putName n (patOf (s.ent (.cat n)).width v)) := by simp [State.writeInt, h]
/-- What writing a name leaves: every other name and everything but the thread. -/
@[simp] theorem State.putName_mem (s : State) (n : BitVec 9) (p : Pat) : (s.putName n p).mem = s.mem := rfl
@[simp] theorem State.putName_cur (s : State) (n : BitVec 9) (p : Pat) : (s.putName n p).cur = s.cur := rfl
theorem State.me_putName (s : State) (n : BitVec 9) (p : Pat) : (s.putName n p).me = s.me.setName n.toNat p := by simp [State.putName]
theorem Thread.name_setName_other (x : Thread) {n m : Nat} (p : Pat) (h : m ≠ n) : (x.setName n p).name m = x.name m := by
  simp [Thread.name, Thread.setName, List.getD, Ne.symm h]
theorem Thread.name_setName_same (x : Thread) {n : Nat} (p : Pat) (h : n < x.names.length) : (x.setName n p).name n = p := by
  simp [Thread.name, Thread.setName, List.getD, h]
/-- No draw asked for: none taken. -/
@[simp] theorem State.draws_zero (s0 s : State) : s0.draws 0 s = .ok ([], s) := rfl

/-- Every meaning's course ends in a next state. -/
theorem finish_next (m : M State) : ∃ t, finish m = .next t := by cases m <;> exact ⟨_, rfl⟩

end Sys2Proof.Machine
end

