-- ==== Sys2Proof/Laws/PerInstr.lean ====
section
/-! SUPPORT. The fields of a well-formed instruction name it again: what the decoder's candidate is for the fields the encoder
takes from an instruction. One lemma per constructor. -/
namespace Sys2Proof.Laws

theorem nameOf_numOf {d : NameRef} (h : d.inField = true) : nameOf (numOf d) = d := by
  cases d with
  | cat n =>
    simp only [NameRef.inField, decide_eq_true_eq] at h
    exact if_neg (Nat.not_le.2 h)
  | fixed f => cases f <;> rfl

theorem waitOf_waitNum (w : Wait) : waitOf (waitNum w) = w := by cases w <;> rfl
theorem formOf_formNum (f : Form) : formOf (formNum f) = f := by cases f <;> rfl
theorem scopeOf_scopeNum (s : Scope) : scopeOf (scopeNum s) = s := by cases s <;> rfl
theorem rndOf_rndNum (r : Rnd) : rndOf (rndNum r) = r := by cases r <;> rfl
theorem amoSizeOf_amoSizeNum (z : AmoSize) : amoSizeOf (amoSizeNum z) = z := by cases z <;> rfl
theorem barLevelOf_barLevelNum (l : BarLevel) : barLevelOf (barLevelNum l) = l := by cases l <;> rfl
theorem resizeModeOf_resizeModeNum (m : ResizeMode) : resizeModeOf (resizeModeNum m) = m := by cases m <;> rfl

/-- What well-formedness says of an instruction that has a word. -/
theorem wf_cases {i : Instr} {maj fn : Nat} {h : Hdr} {f : Fields} (ht : toFields i = some (maj, fn, h, f)) (hw : i.wf = true) :
    lengthOk maj fn h = true ∧ h.literalOk = true ∧ i.namesOk = true ∧ baseOk maj fn h f = true ∧ i.thirdOk = true ∧
      operandsAdmitted i = true := by
  have hu : ∀ w0, i ≠ .unassignedEncoding w0 := by rintro w0 rfl; cases ht
  unfold Instr.wf at hw
  split at hw
  · exact absurd rfl (hu _)
  · rw [ht] at hw; simpa [and_assoc] using hw

theorem namesOk_of_wf {i : Instr} {x : Nat × Nat × Hdr × Fields} (ht : toFields i = some x) (hw : i.wf = true) :
    i.namesOk = true := (wf_cases ht hw).2.2.1

theorem thirdOk_of_wf {i : Instr} {x : Nat × Nat × Hdr × Fields} (ht : toFields i = some x) (hw : i.wf = true) :
    i.thirdOk = true := (wf_cases ht hw).2.2.2.2.1

/-- The third name of a conversion comes back from its field. -/
theorem third_back {h : Hdr} {c : NameRef} {f : Fields} (hn : c.inField = true) (hc : (h.form.isExt || c == .fixed .zero) = true)
    (hf : f.c = cNumOf h c) : cNameOf h f = c := by
  by_cases he : h.form.isExt = true
  · simp [cNameOf, cNumOf, he, nameOf_numOf, hn, hf]
  · simp_all [cNameOf]

theorem bitfield_pos (pos flen : BitVec 10) : (0#12 ++ flen ++ pos).extractLsb' 0 10 = pos := by
  ext k hk
  rw [BitVec.getElem_extractLsb', BitVec.getLsbD_append]
  simp [hk]

theorem bitfield_len (pos flen : BitVec 10) : (0#12 ++ flen ++ pos).extractLsb' 10 10 = flen := by
  ext k hk
  rw [BitVec.getElem_extractLsb', BitVec.getLsbD_append, BitVec.getLsbD_append]
  simp [hk]

theorem dequant_format (lf : LaneF) (part : BitVec 2) :
    laneFOf ((laneFNum lf <<< 2 ||| part.setWidth 8 <<< 5).extractLsb' 2 2) = lf := by
  revert part; cases lf <;> decide

theorem dequant_part (lf : LaneF) (part : BitVec 2) :
    (laneFNum lf <<< 2 ||| part.setWidth 8 <<< 5).extractLsb' 5 2 = part := by
  revert part; cases lf <;> decide

/-- The fields of a well-formed instruction name it again. -/
def Reencodes.Statement (i : Instr) : Prop :=
  i.wf = true → match toFields i with
    | some (maj, fn, h, f) => candidate maj fn h f = some i
    | none => True

namespace Reencodes

theorem sysHalt (h : Hdr) : Statement (.sysHalt h) := by
  intro hw
  change some (Instr.sysHalt h) = _
  rfl

theorem sysNop (h : Hdr) : Statement (.sysNop h) := by
  intro hw
  change some (Instr.sysNop h) = _
  rfl

theorem sysIfence (h : Hdr) : Statement (.sysIfence h) := by
  intro hw
  change some (Instr.sysIfence h) = _
  rfl

theorem sysTret (h : Hdr) : Statement (.sysTret h) := by
  intro hw
  change some (Instr.sysTret h) = _
  rfl

theorem sysSvc (h : Hdr) (n : BitVec 18) : Statement (.sysSvc h n) := by
  intro hw
  change some (Instr.sysSvc h ((n.setWidth 32).setWidth 18)) = _
  have h_n : ((n.setWidth 32).setWidth 18) = n := by ext k hk; simp
  simp only [h_n]

theorem sysGetc (h : Hdr) (k : BitVec 12) (d : NameRef) : Statement (.sysGetc h k d) := by
  intro hw
  have hn : (d.inField && true) = true := namesOk_of_wf rfl hw
  simp only [Bool.and_true] at hn
  change some (Instr.sysGetc h ((k.setWidth 32).setWidth 12) (nameOf (numOf d))) = _
  have h_k : ((k.setWidth 32).setWidth 12) = k := by ext k hk; simp
  simp only [h_k, nameOf_numOf, hn]

theorem sysSetc (h : Hdr) (k : BitVec 12) (d : NameRef) : Statement (.sysSetc h k d) := by
  intro hw
  have hn : (d.inField && true) = true := namesOk_of_wf rfl hw
  simp only [Bool.and_true] at hn
  change some (Instr.sysSetc h ((k.setWidth 32).setWidth 12) (nameOf (numOf d))) = _
  have h_k : ((k.setWidth 32).setWidth 12) = k := by ext k hk; simp
  simp only [h_k, nameOf_numOf, hn]

theorem sysRdevt (h : Hdr) (k : BitVec 12) (d : NameRef) : Statement (.sysRdevt h k d) := by
  intro hw
  have hn : (d.inField && true) = true := namesOk_of_wf rfl hw
  simp only [Bool.and_true] at hn
  change some (Instr.sysRdevt h ((k.setWidth 32).setWidth 12) (nameOf (numOf d))) = _
  have h_k : ((k.setWidth 32).setWidth 12) = k := by ext k hk; simp
  simp only [h_k, nameOf_numOf, hn]

theorem sysClrevt (h : Hdr) (k : BitVec 12) : Statement (.sysClrevt h k) := by
  intro hw
  change some (Instr.sysClrevt h ((k.setWidth 32).setWidth 12)) = _
  have h_k : ((k.setWidth 32).setWidth 12) = k := by ext k hk; simp
  simp only [h_k]

theorem sysCycle (h : Hdr) (d : NameRef) : Statement (.sysCycle h d) := by
  intro hw
  have hn : (d.inField && true) = true := namesOk_of_wf rfl hw
  simp only [Bool.and_true] at hn
  change some (Instr.sysCycle h (nameOf (numOf d))) = _
  simp only [nameOf_numOf, hn]

theorem aluAdd (h : Hdr) (d : NameRef) (a : NameRef) (b : NameRef) : Statement (.aluAdd h d a b) := by
  intro hw
  have hn : (d.inField && (a.inField && (b.inField && true))) = true := namesOk_of_wf rfl hw
  simp only [Bool.and_true, Bool.and_eq_true] at hn
  change some (Instr.aluAdd h (nameOf (numOf d)) (nameOf (numOf a)) (nameOf (numOf b))) = _
  simp only [nameOf_numOf, hn]

theorem aluSub (h : Hdr) (d : NameRef) (a : NameRef) (b : NameRef) : Statement (.aluSub h d a b) := by
  intro hw
  have hn : (d.inField && (a.inField && (b.inField && true))) = true := namesOk_of_wf rfl hw
  simp only [Bool.and_true, Bool.and_eq_true] at hn
  change some (Instr.aluSub h (nameOf (numOf d)) (nameOf (numOf a)) (nameOf (numOf b))) = _
  simp only [nameOf_numOf, hn]

theorem aluAnd (h : Hdr) (d : NameRef) (a : NameRef) (b : NameRef) : Statement (.aluAnd h d a b) := by
  intro hw
  have hn : (d.inField && (a.inField && (b.inField && true))) = true := namesOk_of_wf rfl hw
  simp only [Bool.and_true, Bool.and_eq_true] at hn
  change some (Instr.aluAnd h (nameOf (numOf d)) (nameOf (numOf a)) (nameOf (numOf b))) = _
  simp only [nameOf_numOf, hn]

theorem aluOr (h : Hdr) (d : NameRef) (a : NameRef) (b : NameRef) : Statement (.aluOr h d a b) := by
  intro hw
  have hn : (d.inField && (a.inField && (b.inField && true))) = true := namesOk_of_wf rfl hw
  simp only [Bool.and_true, Bool.and_eq_true] at hn
  change some (Instr.aluOr h (nameOf (numOf d)) (nameOf (numOf a)) (nameOf (numOf b))) = _
  simp only [nameOf_numOf, hn]

theorem aluXor (h : Hdr) (d : NameRef) (a : NameRef) (b : NameRef) : Statement (.aluXor h d a b) := by
  intro hw
  have hn : (d.inField && (a.inField && (b.inField && true))) = true := namesOk_of_wf rfl hw
  simp only [Bool.and_true, Bool.and_eq_true] at hn
  change some (Instr.aluXor h (nameOf (numOf d)) (nameOf (numOf a)) (nameOf (numOf b))) = _
  simp only [nameOf_numOf, hn]

theorem aluAndn (h : Hdr) (d : NameRef) (a : NameRef) (b : NameRef) : Statement (.aluAndn h d a b) := by
  intro hw
  have hn : (d.inField && (a.inField && (b.inField && true))) = true := namesOk_of_wf rfl hw
  simp only [Bool.and_true, Bool.and_eq_true] at hn
  change some (Instr.aluAndn h (nameOf (numOf d)) (nameOf (numOf a)) (nameOf (numOf b))) = _
  simp only [nameOf_numOf, hn]

theorem aluMin (h : Hdr) (d : NameRef) (a : NameRef) (b : NameRef) : Statement (.aluMin h d a b) := by
  intro hw
  have hn : (d.inField && (a.inField && (b.inField && true))) = true := namesOk_of_wf rfl hw
  simp only [Bool.and_true, Bool.and_eq_true] at hn
  change some (Instr.aluMin h (nameOf (numOf d)) (nameOf (numOf a)) (nameOf (numOf b))) = _
  simp only [nameOf_numOf, hn]

theorem aluMax (h : Hdr) (d : NameRef) (a : NameRef) (b : NameRef) : Statement (.aluMax h d a b) := by
  intro hw
  have hn : (d.inField && (a.inField && (b.inField && true))) = true := namesOk_of_wf rfl hw
  simp only [Bool.and_true, Bool.and_eq_true] at hn
  change some (Instr.aluMax h (nameOf (numOf d)) (nameOf (numOf a)) (nameOf (numOf b))) = _
  simp only [nameOf_numOf, hn]

theorem aluMov (h : Hdr) (d : NameRef) (a : NameRef) : Statement (.aluMov h d a) := by
  intro hw
  have hn : (d.inField && (a.inField && true)) = true := namesOk_of_wf rfl hw
  simp only [Bool.and_true, Bool.and_eq_true] at hn
  change some (Instr.aluMov h (nameOf (numOf d)) (nameOf (numOf a))) = _
  simp only [nameOf_numOf, hn]

theorem aluNeg (h : Hdr) (d : NameRef) (a : NameRef) : Statement (.aluNeg h d a) := by
  intro hw
  have hn : (d.inField && (a.inField && true)) = true := namesOk_of_wf rfl hw
  simp only [Bool.and_true, Bool.and_eq_true] at hn
  change some (Instr.aluNeg h (nameOf (numOf d)) (nameOf (numOf a))) = _
  simp only [nameOf_numOf, hn]

theorem aluAbs (h : Hdr) (d : NameRef) (a : NameRef) : Statement (.aluAbs h d a) := by
  intro hw
  have hn : (d.inField && (a.inField && true)) = true := namesOk_of_wf rfl hw
  simp only [Bool.and_true, Bool.and_eq_true] at hn
  change some (Instr.aluAbs h (nameOf (numOf d)) (nameOf (numOf a))) = _
  simp only [nameOf_numOf, hn]

theorem aluPopc (h : Hdr) (d : NameRef) (a : NameRef) : Statement (.aluPopc h d a) := by
  intro hw
  have hn : (d.inField && (a.inField && true)) = true := namesOk_of_wf rfl hw
  simp only [Bool.and_true, Bool.and_eq_true] at hn
  change some (Instr.aluPopc h (nameOf (numOf d)) (nameOf (numOf a))) = _
  simp only [nameOf_numOf, hn]

theorem aluClz (h : Hdr) (d : NameRef) (a : NameRef) : Statement (.aluClz h d a) := by
  intro hw
  have hn : (d.inField && (a.inField && true)) = true := namesOk_of_wf rfl hw
  simp only [Bool.and_true, Bool.and_eq_true] at hn
  change some (Instr.aluClz h (nameOf (numOf d)) (nameOf (numOf a))) = _
  simp only [nameOf_numOf, hn]

theorem aluCtz (h : Hdr) (d : NameRef) (a : NameRef) : Statement (.aluCtz h d a) := by
  intro hw
  have hn : (d.inField && (a.inField && true)) = true := namesOk_of_wf rfl hw
  simp only [Bool.and_true, Bool.and_eq_true] at hn
  change some (Instr.aluCtz h (nameOf (numOf d)) (nameOf (numOf a))) = _
  simp only [nameOf_numOf, hn]

theorem aluiAdd (h : Hdr) (d : NameRef) (a : NameRef) (imm : BitVec 32) : Statement (.aluiAdd h d a imm) := by
  intro hw
  have hn : (d.inField && (a.inField && true)) = true := namesOk_of_wf rfl hw
  simp only [Bool.and_true, Bool.and_eq_true] at hn
  change some (Instr.aluiAdd h (nameOf (numOf d)) (nameOf (numOf a)) (imm)) = _
  simp only [nameOf_numOf, hn]

theorem aluiSub (h : Hdr) (d : NameRef) (a : NameRef) (imm : BitVec 32) : Statement (.aluiSub h d a imm) := by
  intro hw
  have hn : (d.inField && (a.inField && true)) = true := namesOk_of_wf rfl hw
  simp only [Bool.and_true, Bool.and_eq_true] at hn
  change some (Instr.aluiSub h (nameOf (numOf d)) (nameOf (numOf a)) (imm)) = _
  simp only [nameOf_numOf, hn]

theorem aluiAnd (h : Hdr) (d : NameRef) (a : NameRef) (imm : BitVec 32) : Statement (.aluiAnd h d a imm) := by
  intro hw
  have hn : (d.inField && (a.inField && true)) = true := namesOk_of_wf rfl hw
  simp only [Bool.and_true, Bool.and_eq_true] at hn
  change some (Instr.aluiAnd h (nameOf (numOf d)) (nameOf (numOf a)) (imm)) = _
  simp only [nameOf_numOf, hn]

theorem aluiOr (h : Hdr) (d : NameRef) (a : NameRef) (imm : BitVec 32) : Statement (.aluiOr h d a imm) := by
  intro hw
  have hn : (d.inField && (a.inField && true)) = true := namesOk_of_wf rfl hw
  simp only [Bool.and_true, Bool.and_eq_true] at hn
  change some (Instr.aluiOr h (nameOf (numOf d)) (nameOf (numOf a)) (imm)) = _
  simp only [nameOf_numOf, hn]

theorem aluiXor (h : Hdr) (d : NameRef) (a : NameRef) (imm : BitVec 32) : Statement (.aluiXor h d a imm) := by
  intro hw
  have hn : (d.inField && (a.inField && true)) = true := namesOk_of_wf rfl hw
  simp only [Bool.and_true, Bool.and_eq_true] at hn
  change some (Instr.aluiXor h (nameOf (numOf d)) (nameOf (numOf a)) (imm)) = _
  simp only [nameOf_numOf, hn]

theorem aluiMin (h : Hdr) (d : NameRef) (a : NameRef) (imm : BitVec 32) : Statement (.aluiMin h d a imm) := by
  intro hw
  have hn : (d.inField && (a.inField && true)) = true := namesOk_of_wf rfl hw
  simp only [Bool.and_true, Bool.and_eq_true] at hn
  change some (Instr.aluiMin h (nameOf (numOf d)) (nameOf (numOf a)) (imm)) = _
  simp only [nameOf_numOf, hn]

theorem aluiMax (h : Hdr) (d : NameRef) (a : NameRef) (imm : BitVec 32) : Statement (.aluiMax h d a imm) := by
  intro hw
  have hn : (d.inField && (a.inField && true)) = true := namesOk_of_wf rfl hw
  simp only [Bool.and_true, Bool.and_eq_true] at hn
  change some (Instr.aluiMax h (nameOf (numOf d)) (nameOf (numOf a)) (imm)) = _
  simp only [nameOf_numOf, hn]

theorem aluiSet (h : Hdr) (d : NameRef) (imm : BitVec 32) : Statement (.aluiSet h d imm) := by
  intro hw
  have hn : (d.inField && true) = true := namesOk_of_wf rfl hw
  simp only [Bool.and_true] at hn
  change some (Instr.aluiSet h (nameOf (numOf d)) (imm)) = _
  simp only [nameOf_numOf, hn]

theorem shfShl (h : Hdr) (d : NameRef) (a : NameRef) (b : NameRef) : Statement (.shfShl h d a b) := by
  intro hw
  have hn : (d.inField && (a.inField && (b.inField && true))) = true := namesOk_of_wf rfl hw
  simp only [Bool.and_true, Bool.and_eq_true] at hn
  change some (Instr.shfShl h (nameOf (numOf d)) (nameOf (numOf a)) (nameOf (numOf b))) = _
  simp only [nameOf_numOf, hn]

theorem shfShr (h : Hdr) (d : NameRef) (a : NameRef) (b : NameRef) : Statement (.shfShr h d a b) := by
  intro hw
  have hn : (d.inField && (a.inField && (b.inField && true))) = true := namesOk_of_wf rfl hw
  simp only [Bool.and_true, Bool.and_eq_true] at hn
  change some (Instr.shfShr h (nameOf (numOf d)) (nameOf (numOf a)) (nameOf (numOf b))) = _
  simp only [nameOf_numOf, hn]

theorem shfRol (h : Hdr) (d : NameRef) (a : NameRef) (b : NameRef) : Statement (.shfRol h d a b) := by
  intro hw
  have hn : (d.inField && (a.inField && (b.inField && true))) = true := namesOk_of_wf rfl hw
  simp only [Bool.and_true, Bool.and_eq_true] at hn
  change some (Instr.shfRol h (nameOf (numOf d)) (nameOf (numOf a)) (nameOf (numOf b))) = _
  simp only [nameOf_numOf, hn]

theorem shfRor (h : Hdr) (d : NameRef) (a : NameRef) (b : NameRef) : Statement (.shfRor h d a b) := by
  intro hw
  have hn : (d.inField && (a.inField && (b.inField && true))) = true := namesOk_of_wf rfl hw
  simp only [Bool.and_true, Bool.and_eq_true] at hn
  change some (Instr.shfRor h (nameOf (numOf d)) (nameOf (numOf a)) (nameOf (numOf b))) = _
  simp only [nameOf_numOf, hn]

theorem shfShli (h : Hdr) (d : NameRef) (a : NameRef) (imm : BitVec 32) : Statement (.shfShli h d a imm) := by
  intro hw
  have hn : (d.inField && (a.inField && true)) = true := namesOk_of_wf rfl hw
  simp only [Bool.and_true, Bool.and_eq_true] at hn
  change some (Instr.shfShli h (nameOf (numOf d)) (nameOf (numOf a)) (imm)) = _
  simp only [nameOf_numOf, hn]

theorem shfShri (h : Hdr) (d : NameRef) (a : NameRef) (imm : BitVec 32) : Statement (.shfShri h d a imm) := by
  intro hw
  have hn : (d.inField && (a.inField && true)) = true := namesOk_of_wf rfl hw
  simp only [Bool.and_true, Bool.and_eq_true] at hn
  change some (Instr.shfShri h (nameOf (numOf d)) (nameOf (numOf a)) (imm)) = _
  simp only [nameOf_numOf, hn]

theorem shfRoli (h : Hdr) (d : NameRef) (a : NameRef) (imm : BitVec 32) : Statement (.shfRoli h d a imm) := by
  intro hw
  have hn : (d.inField && (a.inField && true)) = true := namesOk_of_wf rfl hw
  simp only [Bool.and_true, Bool.and_eq_true] at hn
  change some (Instr.shfRoli h (nameOf (numOf d)) (nameOf (numOf a)) (imm)) = _
  simp only [nameOf_numOf, hn]

theorem shfRori (h : Hdr) (d : NameRef) (a : NameRef) (imm : BitVec 32) : Statement (.shfRori h d a imm) := by
  intro hw
  have hn : (d.inField && (a.inField && true)) = true := namesOk_of_wf rfl hw
  simp only [Bool.and_true, Bool.and_eq_true] at hn
  change some (Instr.shfRori h (nameOf (numOf d)) (nameOf (numOf a)) (imm)) = _
  simp only [nameOf_numOf, hn]

theorem shfExt (h : Hdr) (d : NameRef) (a : NameRef) (pos : BitVec 10) (flen : BitVec 10) (sx : Bool) : Statement (.shfExt h d a pos flen sx) := by
  intro hw
  have hn : (d.inField && (a.inField && true)) = true := namesOk_of_wf rfl hw
  simp only [Bool.and_true, Bool.and_eq_true] at hn
  change some (Instr.shfExt h (nameOf (numOf d)) (nameOf (numOf a)) (((0#12 ++ flen ++ pos)).extractLsb' 0 10) (((0#12 ++ flen ++ pos)).extractLsb' 10 10) ((bitAt sx 0).getLsbD 0)) = _
  have h_pos : (((0#12 ++ flen ++ pos)).extractLsb' 0 10) = pos := by exact bitfield_pos pos flen
  have h_flen : (((0#12 ++ flen ++ pos)).extractLsb' 10 10) = flen := by exact bitfield_len pos flen
  have h_sx : ((bitAt sx 0).getLsbD 0) = sx := by cases sx <;> rfl
  simp only [h_sx, h_flen, h_pos, nameOf_numOf, hn]

theorem shfIns (h : Hdr) (d : NameRef) (a : NameRef) (pos : BitVec 10) (flen : BitVec 10) : Statement (.shfIns h d a pos flen) := by
  intro hw
  have hn : (d.inField && (a.inField && true)) = true := namesOk_of_wf rfl hw
  simp only [Bool.and_true, Bool.and_eq_true] at hn
  change some (Instr.shfIns h (nameOf (numOf d)) (nameOf (numOf a)) (((0#12 ++ flen ++ pos)).extractLsb' 0 10) (((0#12 ++ flen ++ pos)).extractLsb' 10 10)) = _
  have h_pos : (((0#12 ++ flen ++ pos)).extractLsb' 0 10) = pos := by exact bitfield_pos pos flen
  have h_flen : (((0#12 ++ flen ++ pos)).extractLsb' 10 10) = flen := by exact bitfield_len pos flen
  simp only [h_flen, h_pos, nameOf_numOf, hn]

theorem mulMul (h : Hdr) (d : NameRef) (a : NameRef) (b : NameRef) : Statement (.mulMul h d a b) := by
  intro hw
  have hn : (d.inField && (a.inField && (b.inField && true))) = true := namesOk_of_wf rfl hw
  simp only [Bool.and_true, Bool.and_eq_true] at hn
  change some (Instr.mulMul h (nameOf (numOf d)) (nameOf (numOf a)) (nameOf (numOf b))) = _
  simp only [nameOf_numOf, hn]

theorem mulMac (h : Hdr) (d : NameRef) (a : NameRef) (b : NameRef) : Statement (.mulMac h d a b) := by
  intro hw
  have hn : (d.inField && (a.inField && (b.inField && true))) = true := namesOk_of_wf rfl hw
  simp only [Bool.and_true, Bool.and_eq_true] at hn
  change some (Instr.mulMac h (nameOf (numOf d)) (nameOf (numOf a)) (nameOf (numOf b))) = _
  simp only [nameOf_numOf, hn]

theorem mulMsub (h : Hdr) (d : NameRef) (a : NameRef) (b : NameRef) : Statement (.mulMsub h d a b) := by
  intro hw
  have hn : (d.inField && (a.inField && (b.inField && true))) = true := namesOk_of_wf rfl hw
  simp only [Bool.and_true, Bool.and_eq_true] at hn
  change some (Instr.mulMsub h (nameOf (numOf d)) (nameOf (numOf a)) (nameOf (numOf b))) = _
  simp only [nameOf_numOf, hn]

theorem mulMulsh (h : Hdr) (d : NameRef) (a : NameRef) (b : NameRef) (sh : BitVec 32) (rq : Bool) : Statement (.mulMulsh h d a b sh rq) := by
  intro hw
  have hn : (d.inField && (a.inField && (b.inField && true))) = true := namesOk_of_wf rfl hw
  simp only [Bool.and_true, Bool.and_eq_true] at hn
  change some (Instr.mulMulsh h (nameOf (numOf d)) (nameOf (numOf a)) (nameOf (numOf b)) (sh) ((bitAt rq 0).getLsbD 0)) = _
  have h_rq : ((bitAt rq 0).getLsbD 0) = rq := by cases rq <;> rfl
  simp only [h_rq, nameOf_numOf, hn]

theorem divDiv (h : Hdr) (d : NameRef) (a : NameRef) (b : NameRef) : Statement (.divDiv h d a b) := by
  intro hw
  have hn : (d.inField && (a.inField && (b.inField && true))) = true := namesOk_of_wf rfl hw
  simp only [Bool.and_true, Bool.and_eq_true] at hn
  change some (Instr.divDiv h (nameOf (numOf d)) (nameOf (numOf a)) (nameOf (numOf b))) = _
  simp only [nameOf_numOf, hn]

theorem divRem (h : Hdr) (d : NameRef) (a : NameRef) (b : NameRef) : Statement (.divRem h d a b) := by
  intro hw
  have hn : (d.inField && (a.inField && (b.inField && true))) = true := namesOk_of_wf rfl hw
  simp only [Bool.and_true, Bool.and_eq_true] at hn
  change some (Instr.divRem h (nameOf (numOf d)) (nameOf (numOf a)) (nameOf (numOf b))) = _
  simp only [nameOf_numOf, hn]

theorem divDivf (h : Hdr) (d : NameRef) (a : NameRef) (b : NameRef) : Statement (.divDivf h d a b) := by
  intro hw
  have hn : (d.inField && (a.inField && (b.inField && true))) = true := namesOk_of_wf rfl hw
  simp only [Bool.and_true, Bool.and_eq_true] at hn
  change some (Instr.divDivf h (nameOf (numOf d)) (nameOf (numOf a)) (nameOf (numOf b))) = _
  simp only [nameOf_numOf, hn]

theorem divModf (h : Hdr) (d : NameRef) (a : NameRef) (b : NameRef) : Statement (.divModf h d a b) := by
  intro hw
  have hn : (d.inField && (a.inField && (b.inField && true))) = true := namesOk_of_wf rfl hw
  simp only [Bool.and_true, Bool.and_eq_true] at hn
  change some (Instr.divModf h (nameOf (numOf d)) (nameOf (numOf a)) (nameOf (numOf b))) = _
  simp only [nameOf_numOf, hn]

theorem cmpEq (h : Hdr) (d : NameRef) (a : NameRef) (b : NameRef) : Statement (.cmpEq h d a b) := by
  intro hw
  have hn : (d.inField && (a.inField && (b.inField && true))) = true := namesOk_of_wf rfl hw
  simp only [Bool.and_true, Bool.and_eq_true] at hn
  change some (Instr.cmpEq h (nameOf (numOf d)) (nameOf (numOf a)) (nameOf (numOf b))) = _
  simp only [nameOf_numOf, hn]

theorem cmpNe (h : Hdr) (d : NameRef) (a : NameRef) (b : NameRef) : Statement (.cmpNe h d a b) := by
  intro hw
  have hn : (d.inField && (a.inField && (b.inField && true))) = true := namesOk_of_wf rfl hw
  simp only [Bool.and_true, Bool.and_eq_true] at hn
  change some (Instr.cmpNe h (nameOf (numOf d)) (nameOf (numOf a)) (nameOf (numOf b))) = _
  simp only [nameOf_numOf, hn]

theorem cmpLt (h : Hdr) (d : NameRef) (a : NameRef) (b : NameRef) : Statement (.cmpLt h d a b) := by
  intro hw
  have hn : (d.inField && (a.inField && (b.inField && true))) = true := namesOk_of_wf rfl hw
  simp only [Bool.and_true, Bool.and_eq_true] at hn
  change some (Instr.cmpLt h (nameOf (numOf d)) (nameOf (numOf a)) (nameOf (numOf b))) = _
  simp only [nameOf_numOf, hn]

theorem cmpLe (h : Hdr) (d : NameRef) (a : NameRef) (b : NameRef) : Statement (.cmpLe h d a b) := by
  intro hw
  have hn : (d.inField && (a.inField && (b.inField && true))) = true := namesOk_of_wf rfl hw
  simp only [Bool.and_true, Bool.and_eq_true] at hn
  change some (Instr.cmpLe h (nameOf (numOf d)) (nameOf (numOf a)) (nameOf (numOf b))) = _
  simp only [nameOf_numOf, hn]

theorem cmpGt (h : Hdr) (d : NameRef) (a : NameRef) (b : NameRef) : Statement (.cmpGt h d a b) := by
  intro hw
  have hn : (d.inField && (a.inField && (b.inField && true))) = true := namesOk_of_wf rfl hw
  simp only [Bool.and_true, Bool.and_eq_true] at hn
  change some (Instr.cmpGt h (nameOf (numOf d)) (nameOf (numOf a)) (nameOf (numOf b))) = _
  simp only [nameOf_numOf, hn]

theorem cmpGe (h : Hdr) (d : NameRef) (a : NameRef) (b : NameRef) : Statement (.cmpGe h d a b) := by
  intro hw
  have hn : (d.inField && (a.inField && (b.inField && true))) = true := namesOk_of_wf rfl hw
  simp only [Bool.and_true, Bool.and_eq_true] at hn
  change some (Instr.cmpGe h (nameOf (numOf d)) (nameOf (numOf a)) (nameOf (numOf b))) = _
  simp only [nameOf_numOf, hn]

theorem cmpTst (h : Hdr) (d : NameRef) (a : NameRef) (b : NameRef) : Statement (.cmpTst h d a b) := by
  intro hw
  have hn : (d.inField && (a.inField && (b.inField && true))) = true := namesOk_of_wf rfl hw
  simp only [Bool.and_true, Bool.and_eq_true] at hn
  change some (Instr.cmpTst h (nameOf (numOf d)) (nameOf (numOf a)) (nameOf (numOf b))) = _
  simp only [nameOf_numOf, hn]

theorem cmpSel (h : Hdr) (d : NameRef) (a : NameRef) (b : NameRef) (c : NameRef) : Statement (.cmpSel h d a b c) := by
  intro hw
  have hn : (d.inField && (a.inField && (b.inField && (c.inField && true)))) = true := namesOk_of_wf rfl hw
  simp only [Bool.and_true, Bool.and_eq_true] at hn
  change some (Instr.cmpSel h (nameOf (numOf d)) (nameOf (numOf a)) (nameOf (numOf b)) (nameOf (numOf c))) = _
  simp only [nameOf_numOf, hn]

theorem widResize (h : Hdr) (n : NameRef) (mode : ResizeMode) (width : BitVec 10) : Statement (.widResize h n mode width) := by
  intro hw
  have hn : (n.inField && true) = true := namesOk_of_wf rfl hw
  simp only [Bool.and_true] at hn
  change some (Instr.widResize h (nameOf (numOf n)) (resizeModeOf (resizeModeNum mode)) ((width.setWidth 32).setWidth 10)) = _
  have h_width : ((width.setWidth 32).setWidth 10) = width := by ext k hk; simp
  simp only [h_width, nameOf_numOf, hn, resizeModeOf_resizeModeNum]

theorem widWidth (h : Hdr) (d : NameRef) (a : NameRef) : Statement (.widWidth h d a) := by
  intro hw
  have hn : (d.inField && (a.inField && true)) = true := namesOk_of_wf rfl hw
  simp only [Bool.and_true, Bool.and_eq_true] at hn
  change some (Instr.widWidth h (nameOf (numOf d)) (nameOf (numOf a))) = _
  simp only [nameOf_numOf, hn]

theorem widFits (h : Hdr) (d : NameRef) (a : NameRef) (b : NameRef) : Statement (.widFits h d a b) := by
  intro hw
  have hn : (d.inField && (a.inField && (b.inField && true))) = true := namesOk_of_wf rfl hw
  simp only [Bool.and_true, Bool.and_eq_true] at hn
  change some (Instr.widFits h (nameOf (numOf d)) (nameOf (numOf a)) (nameOf (numOf b))) = _
  simp only [nameOf_numOf, hn]

theorem brZ (h : Hdr) (a : NameRef) (off : BitVec 32) : Statement (.brZ h a off) := by
  intro hw
  have hn : (a.inField && true) = true := namesOk_of_wf rfl hw
  simp only [Bool.and_true] at hn
  change some (Instr.brZ h (nameOf (numOf a)) (off)) = _
  simp only [nameOf_numOf, hn]

theorem brNz (h : Hdr) (a : NameRef) (off : BitVec 32) : Statement (.brNz h a off) := by
  intro hw
  have hn : (a.inField && true) = true := namesOk_of_wf rfl hw
  simp only [Bool.and_true] at hn
  change some (Instr.brNz h (nameOf (numOf a)) (off)) = _
  simp only [nameOf_numOf, hn]

theorem brLz (h : Hdr) (a : NameRef) (off : BitVec 32) : Statement (.brLz h a off) := by
  intro hw
  have hn : (a.inField && true) = true := namesOk_of_wf rfl hw
  simp only [Bool.and_true] at hn
  change some (Instr.brLz h (nameOf (numOf a)) (off)) = _
  simp only [nameOf_numOf, hn]

theorem brGez (h : Hdr) (a : NameRef) (off : BitVec 32) : Statement (.brGez h a off) := by
  intro hw
  have hn : (a.inField && true) = true := namesOk_of_wf rfl hw
  simp only [Bool.and_true] at hn
  change some (Instr.brGez h (nameOf (numOf a)) (off)) = _
  simp only [nameOf_numOf, hn]

theorem brGz (h : Hdr) (a : NameRef) (off : BitVec 32) : Statement (.brGz h a off) := by
  intro hw
  have hn : (a.inField && true) = true := namesOk_of_wf rfl hw
  simp only [Bool.and_true] at hn
  change some (Instr.brGz h (nameOf (numOf a)) (off)) = _
  simp only [nameOf_numOf, hn]

theorem brLez (h : Hdr) (a : NameRef) (off : BitVec 32) : Statement (.brLez h a off) := by
  intro hw
  have hn : (a.inField && true) = true := namesOk_of_wf rfl hw
  simp only [Bool.and_true] at hn
  change some (Instr.brLez h (nameOf (numOf a)) (off)) = _
  simp only [nameOf_numOf, hn]

theorem brAl (h : Hdr) (off : BitVec 32) : Statement (.brAl h off) := by
  intro hw
  change some (Instr.brAl h (off)) = _
  rfl

theorem jmpRel (h : Hdr) (off : BitVec 32) : Statement (.jmpRel h off) := by
  intro hw
  change some (Instr.jmpRel h (off)) = _
  rfl

theorem jmpInd (h : Hdr) (a : NameRef) (off : BitVec 32) : Statement (.jmpInd h a off) := by
  intro hw
  have hn : (a.inField && true) = true := namesOk_of_wf rfl hw
  simp only [Bool.and_true] at hn
  change some (Instr.jmpInd h (nameOf (numOf a)) (off)) = _
  simp only [nameOf_numOf, hn]

theorem callRel (h : Hdr) (off : BitVec 32) : Statement (.callRel h off) := by
  intro hw
  change some (Instr.callRel h (off)) = _
  rfl

theorem callInd (h : Hdr) (a : NameRef) (off : BitVec 32) : Statement (.callInd h a off) := by
  intro hw
  have hn : (a.inField && true) = true := namesOk_of_wf rfl hw
  simp only [Bool.and_true] at hn
  change some (Instr.callInd h (nameOf (numOf a)) (off)) = _
  simp only [nameOf_numOf, hn]

theorem callRet (h : Hdr) : Statement (.callRet h) := by
  intro hw
  change some (Instr.callRet h) = _
  rfl

theorem addrGlob (h : Hdr) (d : NameRef) (a : NameRef) : Statement (.addrGlob h d a) := by
  intro hw
  have hn : (d.inField && (a.inField && true)) = true := namesOk_of_wf rfl hw
  simp only [Bool.and_true, Bool.and_eq_true] at hn
  change some (Instr.addrGlob h (nameOf (numOf d)) (nameOf (numOf a))) = _
  simp only [nameOf_numOf, hn]

theorem addrGen (h : Hdr) (d : NameRef) (a : NameRef) : Statement (.addrGen h d a) := by
  intro hw
  have hn : (d.inField && (a.inField && true)) = true := namesOk_of_wf rfl hw
  simp only [Bool.and_true, Bool.and_eq_true] at hn
  change some (Instr.addrGen h (nameOf (numOf d)) (nameOf (numOf a))) = _
  simp only [nameOf_numOf, hn]

theorem addrLea (h : Hdr) (d : NameRef) (a : NameRef) (imm : BitVec 32) : Statement (.addrLea h d a imm) := by
  intro hw
  have hn : (d.inField && (a.inField && true)) = true := namesOk_of_wf rfl hw
  simp only [Bool.and_true, Bool.and_eq_true] at hn
  change some (Instr.addrLea h (nameOf (numOf d)) (nameOf (numOf a)) (imm)) = _
  simp only [nameOf_numOf, hn]

theorem ldB (h : Hdr) (d : NameRef) (a : NameRef) (off : BitVec 32) : Statement (.ldB h d a off) := by
  intro hw
  have hn : (d.inField && (a.inField && true)) = true := namesOk_of_wf rfl hw
  simp only [Bool.and_true, Bool.and_eq_true] at hn
  change some (Instr.ldB h (nameOf (numOf d)) (nameOf (numOf a)) (off)) = _
  simp only [nameOf_numOf, hn]

theorem ldH (h : Hdr) (d : NameRef) (a : NameRef) (off : BitVec 32) : Statement (.ldH h d a off) := by
  intro hw
  have hn : (d.inField && (a.inField && true)) = true := namesOk_of_wf rfl hw
  simp only [Bool.and_true, Bool.and_eq_true] at hn
  change some (Instr.ldH h (nameOf (numOf d)) (nameOf (numOf a)) (off)) = _
  simp only [nameOf_numOf, hn]

theorem ldW (h : Hdr) (d : NameRef) (a : NameRef) (off : BitVec 32) : Statement (.ldW h d a off) := by
  intro hw
  have hn : (d.inField && (a.inField && true)) = true := namesOk_of_wf rfl hw
  simp only [Bool.and_true, Bool.and_eq_true] at hn
  change some (Instr.ldW h (nameOf (numOf d)) (nameOf (numOf a)) (off)) = _
  simp only [nameOf_numOf, hn]

theorem ldD (h : Hdr) (d : NameRef) (a : NameRef) (off : BitVec 32) : Statement (.ldD h d a off) := by
  intro hw
  have hn : (d.inField && (a.inField && true)) = true := namesOk_of_wf rfl hw
  simp only [Bool.and_true, Bool.and_eq_true] at hn
  change some (Instr.ldD h (nameOf (numOf d)) (nameOf (numOf a)) (off)) = _
  simp only [nameOf_numOf, hn]

theorem ldV (h : Hdr) (d : NameRef) (a : NameRef) (off : BitVec 32) : Statement (.ldV h d a off) := by
  intro hw
  have hn : (d.inField && (a.inField && true)) = true := namesOk_of_wf rfl hw
  simp only [Bool.and_true, Bool.and_eq_true] at hn
  change some (Instr.ldV h (nameOf (numOf d)) (nameOf (numOf a)) (off)) = _
  simp only [nameOf_numOf, hn]

theorem ldG (h : Hdr) (d : NameRef) (a : NameRef) (off : BitVec 32) : Statement (.ldG h d a off) := by
  intro hw
  have hn : (d.inField && (a.inField && true)) = true := namesOk_of_wf rfl hw
  simp only [Bool.and_true, Bool.and_eq_true] at hn
  change some (Instr.ldG h (nameOf (numOf d)) (nameOf (numOf a)) (off)) = _
  simp only [nameOf_numOf, hn]

theorem stB (h : Hdr) (d : NameRef) (a : NameRef) (off : BitVec 32) : Statement (.stB h d a off) := by
  intro hw
  have hn : (d.inField && (a.inField && true)) = true := namesOk_of_wf rfl hw
  simp only [Bool.and_true, Bool.and_eq_true] at hn
  change some (Instr.stB h (nameOf (numOf d)) (nameOf (numOf a)) (off)) = _
  simp only [nameOf_numOf, hn]

theorem stH (h : Hdr) (d : NameRef) (a : NameRef) (off : BitVec 32) : Statement (.stH h d a off) := by
  intro hw
  have hn : (d.inField && (a.inField && true)) = true := namesOk_of_wf rfl hw
  simp only [Bool.and_true, Bool.and_eq_true] at hn
  change some (Instr.stH h (nameOf (numOf d)) (nameOf (numOf a)) (off)) = _
  simp only [nameOf_numOf, hn]

theorem stW (h : Hdr) (d : NameRef) (a : NameRef) (off : BitVec 32) : Statement (.stW h d a off) := by
  intro hw
  have hn : (d.inField && (a.inField && true)) = true := namesOk_of_wf rfl hw
  simp only [Bool.and_true, Bool.and_eq_true] at hn
  change some (Instr.stW h (nameOf (numOf d)) (nameOf (numOf a)) (off)) = _
  simp only [nameOf_numOf, hn]

theorem stD (h : Hdr) (d : NameRef) (a : NameRef) (off : BitVec 32) : Statement (.stD h d a off) := by
  intro hw
  have hn : (d.inField && (a.inField && true)) = true := namesOk_of_wf rfl hw
  simp only [Bool.and_true, Bool.and_eq_true] at hn
  change some (Instr.stD h (nameOf (numOf d)) (nameOf (numOf a)) (off)) = _
  simp only [nameOf_numOf, hn]

theorem stV (h : Hdr) (d : NameRef) (a : NameRef) (off : BitVec 32) : Statement (.stV h d a off) := by
  intro hw
  have hn : (d.inField && (a.inField && true)) = true := namesOk_of_wf rfl hw
  simp only [Bool.and_true, Bool.and_eq_true] at hn
  change some (Instr.stV h (nameOf (numOf d)) (nameOf (numOf a)) (off)) = _
  simp only [nameOf_numOf, hn]

theorem stG (h : Hdr) (d : NameRef) (a : NameRef) (off : BitVec 32) : Statement (.stG h d a off) := by
  intro hw
  have hn : (d.inField && (a.inField && true)) = true := namesOk_of_wf rfl hw
  simp only [Bool.and_true, Bool.and_eq_true] at hn
  change some (Instr.stG h (nameOf (numOf d)) (nameOf (numOf a)) (off)) = _
  simp only [nameOf_numOf, hn]

theorem amoSwap (h : Hdr) (d : NameRef) (a : NameRef) (b : NameRef) (sz : AmoSize) (sc : Scope) : Statement (.amoSwap h d a b sz sc) := by
  intro hw
  have hn : (d.inField && (a.inField && (b.inField && true))) = true := namesOk_of_wf rfl hw
  simp only [Bool.and_true, Bool.and_eq_true] at hn
  change some (Instr.amoSwap h (nameOf (numOf d)) (nameOf (numOf a)) (nameOf (numOf b)) (amoSizeOf (amoSizeNum sz)) (scopeOf (scopeNum sc))) = _
  simp only [nameOf_numOf, hn, amoSizeOf_amoSizeNum, scopeOf_scopeNum]

theorem amoCas (h : Hdr) (d : NameRef) (a : NameRef) (b : NameRef) (c : NameRef) (sz : AmoSize) (sc : Scope) : Statement (.amoCas h d a b c sz sc) := by
  intro hw
  have hn : (d.inField && (a.inField && (b.inField && (c.inField && true)))) = true := namesOk_of_wf rfl hw
  simp only [Bool.and_true, Bool.and_eq_true] at hn
  change some (Instr.amoCas h (nameOf (numOf d)) (nameOf (numOf a)) (nameOf (numOf b)) (nameOf (numOf c)) (amoSizeOf (amoSizeNum sz)) (scopeOf (scopeNum sc))) = _
  simp only [nameOf_numOf, hn, amoSizeOf_amoSizeNum, scopeOf_scopeNum]

theorem amoAdd (h : Hdr) (d : NameRef) (a : NameRef) (b : NameRef) (sz : AmoSize) (sc : Scope) : Statement (.amoAdd h d a b sz sc) := by
  intro hw
  have hn : (d.inField && (a.inField && (b.inField && true))) = true := namesOk_of_wf rfl hw
  simp only [Bool.and_true, Bool.and_eq_true] at hn
  change some (Instr.amoAdd h (nameOf (numOf d)) (nameOf (numOf a)) (nameOf (numOf b)) (amoSizeOf (amoSizeNum sz)) (scopeOf (scopeNum sc))) = _
  simp only [nameOf_numOf, hn, amoSizeOf_amoSizeNum, scopeOf_scopeNum]

theorem amoAnd (h : Hdr) (d : NameRef) (a : NameRef) (b : NameRef) (sz : AmoSize) (sc : Scope) : Statement (.amoAnd h d a b sz sc) := by
  intro hw
  have hn : (d.inField && (a.inField && (b.inField && true))) = true := namesOk_of_wf rfl hw
  simp only [Bool.and_true, Bool.and_eq_true] at hn
  change some (Instr.amoAnd h (nameOf (numOf d)) (nameOf (numOf a)) (nameOf (numOf b)) (amoSizeOf (amoSizeNum sz)) (scopeOf (scopeNum sc))) = _
  simp only [nameOf_numOf, hn, amoSizeOf_amoSizeNum, scopeOf_scopeNum]

theorem amoOr (h : Hdr) (d : NameRef) (a : NameRef) (b : NameRef) (sz : AmoSize) (sc : Scope) : Statement (.amoOr h d a b sz sc) := by
  intro hw
  have hn : (d.inField && (a.inField && (b.inField && true))) = true := namesOk_of_wf rfl hw
  simp only [Bool.and_true, Bool.and_eq_true] at hn
  change some (Instr.amoOr h (nameOf (numOf d)) (nameOf (numOf a)) (nameOf (numOf b)) (amoSizeOf (amoSizeNum sz)) (scopeOf (scopeNum sc))) = _
  simp only [nameOf_numOf, hn, amoSizeOf_amoSizeNum, scopeOf_scopeNum]

theorem amoXor (h : Hdr) (d : NameRef) (a : NameRef) (b : NameRef) (sz : AmoSize) (sc : Scope) : Statement (.amoXor h d a b sz sc) := by
  intro hw
  have hn : (d.inField && (a.inField && (b.inField && true))) = true := namesOk_of_wf rfl hw
  simp only [Bool.and_true, Bool.and_eq_true] at hn
  change some (Instr.amoXor h (nameOf (numOf d)) (nameOf (numOf a)) (nameOf (numOf b)) (amoSizeOf (amoSizeNum sz)) (scopeOf (scopeNum sc))) = _
  simp only [nameOf_numOf, hn, amoSizeOf_amoSizeNum, scopeOf_scopeNum]

theorem amoMin (h : Hdr) (d : NameRef) (a : NameRef) (b : NameRef) (sz : AmoSize) (sc : Scope) : Statement (.amoMin h d a b sz sc) := by
  intro hw
  have hn : (d.inField && (a.inField && (b.inField && true))) = true := namesOk_of_wf rfl hw
  simp only [Bool.and_true, Bool.and_eq_true] at hn
  change some (Instr.amoMin h (nameOf (numOf d)) (nameOf (numOf a)) (nameOf (numOf b)) (amoSizeOf (amoSizeNum sz)) (scopeOf (scopeNum sc))) = _
  simp only [nameOf_numOf, hn, amoSizeOf_amoSizeNum, scopeOf_scopeNum]

theorem amoMax (h : Hdr) (d : NameRef) (a : NameRef) (b : NameRef) (sz : AmoSize) (sc : Scope) : Statement (.amoMax h d a b sz sc) := by
  intro hw
  have hn : (d.inField && (a.inField && (b.inField && true))) = true := namesOk_of_wf rfl hw
  simp only [Bool.and_true, Bool.and_eq_true] at hn
  change some (Instr.amoMax h (nameOf (numOf d)) (nameOf (numOf a)) (nameOf (numOf b)) (amoSizeOf (amoSizeNum sz)) (scopeOf (scopeNum sc))) = _
  simp only [nameOf_numOf, hn, amoSizeOf_amoSizeNum, scopeOf_scopeNum]

theorem amoFadd (h : Hdr) (d : NameRef) (a : NameRef) (b : NameRef) (sz : AmoSize) (sc : Scope) : Statement (.amoFadd h d a b sz sc) := by
  intro hw
  have hn : (d.inField && (a.inField && (b.inField && true))) = true := namesOk_of_wf rfl hw
  simp only [Bool.and_true, Bool.and_eq_true] at hn
  change some (Instr.amoFadd h (nameOf (numOf d)) (nameOf (numOf a)) (nameOf (numOf b)) (amoSizeOf (amoSizeNum sz)) (scopeOf (scopeNum sc))) = _
  simp only [nameOf_numOf, hn, amoSizeOf_amoSizeNum, scopeOf_scopeNum]

theorem feLdf (h : Hdr) (d : NameRef) (a : NameRef) (off : BitVec 32) (sc : Scope) : Statement (.feLdf h d a off sc) := by
  intro hw
  have hn : (d.inField && (a.inField && true)) = true := namesOk_of_wf rfl hw
  simp only [Bool.and_true, Bool.and_eq_true] at hn
  change some (Instr.feLdf h (nameOf (numOf d)) (nameOf (numOf a)) (off) (scopeOf (scopeNum sc))) = _
  simp only [nameOf_numOf, hn, scopeOf_scopeNum]

theorem feLdk (h : Hdr) (d : NameRef) (a : NameRef) (off : BitVec 32) (sc : Scope) : Statement (.feLdk h d a off sc) := by
  intro hw
  have hn : (d.inField && (a.inField && true)) = true := namesOk_of_wf rfl hw
  simp only [Bool.and_true, Bool.and_eq_true] at hn
  change some (Instr.feLdk h (nameOf (numOf d)) (nameOf (numOf a)) (off) (scopeOf (scopeNum sc))) = _
  simp only [nameOf_numOf, hn, scopeOf_scopeNum]

theorem feStf (h : Hdr) (d : NameRef) (a : NameRef) (off : BitVec 32) (sc : Scope) : Statement (.feStf h d a off sc) := by
  intro hw
  have hn : (d.inField && (a.inField && true)) = true := namesOk_of_wf rfl hw
  simp only [Bool.and_true, Bool.and_eq_true] at hn
  change some (Instr.feStf h (nameOf (numOf d)) (nameOf (numOf a)) (off) (scopeOf (scopeNum sc))) = _
  simp only [nameOf_numOf, hn, scopeOf_scopeNum]

theorem feSto (h : Hdr) (d : NameRef) (a : NameRef) (off : BitVec 32) (sc : Scope) : Statement (.feSto h d a off sc) := by
  intro hw
  have hn : (d.inField && (a.inField && true)) = true := namesOk_of_wf rfl hw
  simp only [Bool.and_true, Bool.and_eq_true] at hn
  change some (Instr.feSto h (nameOf (numOf d)) (nameOf (numOf a)) (off) (scopeOf (scopeNum sc))) = _
  simp only [nameOf_numOf, hn, scopeOf_scopeNum]

theorem feClr (h : Hdr) (a : NameRef) (off : BitVec 32) (sc : Scope) : Statement (.feClr h a off sc) := by
  intro hw
  have hn : (a.inField && true) = true := namesOk_of_wf rfl hw
  simp only [Bool.and_true] at hn
  change some (Instr.feClr h (nameOf (numOf a)) (off) (scopeOf (scopeNum sc))) = _
  simp only [nameOf_numOf, hn, scopeOf_scopeNum]

theorem feTst (h : Hdr) (d : NameRef) (a : NameRef) (off : BitVec 32) (sc : Scope) : Statement (.feTst h d a off sc) := by
  intro hw
  have hn : (d.inField && (a.inField && true)) = true := namesOk_of_wf rfl hw
  simp only [Bool.and_true, Bool.and_eq_true] at hn
  change some (Instr.feTst h (nameOf (numOf d)) (nameOf (numOf a)) (off) (scopeOf (scopeNum sc))) = _
  simp only [nameOf_numOf, hn, scopeOf_scopeNum]

theorem syncBind (h : Hdr) (d : NameRef) (a : NameRef) : Statement (.syncBind h d a) := by
  intro hw
  have hn : (d.inField && (a.inField && true)) = true := namesOk_of_wf rfl hw
  simp only [Bool.and_true, Bool.and_eq_true] at hn
  change some (Instr.syncBind h (nameOf (numOf d)) (nameOf (numOf a))) = _
  simp only [nameOf_numOf, hn]

theorem syncUnbind (h : Hdr) (d : NameRef) (a : NameRef) : Statement (.syncUnbind h d a) := by
  intro hw
  have hn : (d.inField && (a.inField && true)) = true := namesOk_of_wf rfl hw
  simp only [Bool.and_true, Bool.and_eq_true] at hn
  change some (Instr.syncUnbind h (nameOf (numOf d)) (nameOf (numOf a))) = _
  simp only [nameOf_numOf, hn]

theorem syncAcq (h : Hdr) (d : NameRef) (a : NameRef) (sc : Scope) : Statement (.syncAcq h d a sc) := by
  intro hw
  have hn : (d.inField && (a.inField && true)) = true := namesOk_of_wf rfl hw
  simp only [Bool.and_true, Bool.and_eq_true] at hn
  change some (Instr.syncAcq h (nameOf (numOf d)) (nameOf (numOf a)) (scopeOf (scopeNum sc))) = _
  simp only [nameOf_numOf, hn, scopeOf_scopeNum]

theorem syncRel (h : Hdr) (d : NameRef) (a : NameRef) (sc : Scope) : Statement (.syncRel h d a sc) := by
  intro hw
  have hn : (d.inField && (a.inField && true)) = true := namesOk_of_wf rfl hw
  simp only [Bool.and_true, Bool.and_eq_true] at hn
  change some (Instr.syncRel h (nameOf (numOf d)) (nameOf (numOf a)) (scopeOf (scopeNum sc))) = _
  simp only [nameOf_numOf, hn, scopeOf_scopeNum]

theorem syncFence (h : Hdr) (sc : Scope) : Statement (.syncFence h sc) := by
  intro hw
  change some (Instr.syncFence h (scopeOf (scopeNum sc))) = _
  simp only [scopeOf_scopeNum]

theorem taskSpawn (h : Hdr) (a : NameRef) (b : NameRef) : Statement (.taskSpawn h a b) := by
  intro hw
  have hn : (a.inField && (b.inField && true)) = true := namesOk_of_wf rfl hw
  simp only [Bool.and_true, Bool.and_eq_true] at hn
  change some (Instr.taskSpawn h (nameOf (numOf a)) (nameOf (numOf b))) = _
  simp only [nameOf_numOf, hn]

theorem taskPop (h : Hdr) (d : NameRef) : Statement (.taskPop h d) := by
  intro hw
  have hn : (d.inField && true) = true := namesOk_of_wf rfl hw
  simp only [Bool.and_true] at hn
  change some (Instr.taskPop h (nameOf (numOf d))) = _
  simp only [nameOf_numOf, hn]

theorem taskSteal (h : Hdr) (d : NameRef) : Statement (.taskSteal h d) := by
  intro hw
  have hn : (d.inField && true) = true := namesOk_of_wf rfl hw
  simp only [Bool.and_true] at hn
  change some (Instr.taskSteal h (nameOf (numOf d))) = _
  simp only [nameOf_numOf, hn]

theorem taskPark (h : Hdr) (d : NameRef) : Statement (.taskPark h d) := by
  intro hw
  have hn : (d.inField && true) = true := namesOk_of_wf rfl hw
  simp only [Bool.and_true] at hn
  change some (Instr.taskPark h (nameOf (numOf d))) = _
  simp only [nameOf_numOf, hn]

theorem taskTour (h : Hdr) : Statement (.taskTour h) := by
  intro hw
  change some (Instr.taskTour h) = _
  rfl

theorem taskDone (h : Hdr) (d : NameRef) : Statement (.taskDone h d) := by
  intro hw
  have hn : (d.inField && true) = true := namesOk_of_wf rfl hw
  simp only [Bool.and_true] at hn
  change some (Instr.taskDone h (nameOf (numOf d))) = _
  simp only [nameOf_numOf, hn]

theorem barArrive (h : Hdr) (d : NameRef) (lv : BarLevel) : Statement (.barArrive h d lv) := by
  intro hw
  have hn : (d.inField && true) = true := namesOk_of_wf rfl hw
  simp only [Bool.and_true] at hn
  change some (Instr.barArrive h (nameOf (numOf d)) (barLevelOf (barLevelNum lv))) = _
  simp only [nameOf_numOf, hn, barLevelOf_barLevelNum]

theorem barWait (h : Hdr) (a : NameRef) (lv : BarLevel) : Statement (.barWait h a lv) := by
  intro hw
  have hn : (a.inField && true) = true := namesOk_of_wf rfl hw
  simp only [Bool.and_true] at hn
  change some (Instr.barWait h (nameOf (numOf a)) (barLevelOf (barLevelNum lv))) = _
  simp only [nameOf_numOf, hn, barLevelOf_barLevelNum]

theorem barSync (h : Hdr) (d : NameRef) (lv : BarLevel) : Statement (.barSync h d lv) := by
  intro hw
  have hn : (d.inField && true) = true := namesOk_of_wf rfl hw
  simp only [Bool.and_true] at hn
  change some (Instr.barSync h (nameOf (numOf d)) (barLevelOf (barLevelNum lv))) = _
  simp only [nameOf_numOf, hn, barLevelOf_barLevelNum]

theorem barDone (h : Hdr) (a : NameRef) : Statement (.barDone h a) := by
  intro hw
  have hn : (a.inField && true) = true := namesOk_of_wf rfl hw
  simp only [Bool.and_true] at hn
  change some (Instr.barDone h (nameOf (numOf a))) = _
  simp only [nameOf_numOf, hn]

theorem barStat (h : Hdr) (a : NameRef) (lv : BarLevel) : Statement (.barStat h a lv) := by
  intro hw
  have hn : (a.inField && true) = true := namesOk_of_wf rfl hw
  simp only [Bool.and_true] at hn
  change some (Instr.barStat h (nameOf (numOf a)) (barLevelOf (barLevelNum lv))) = _
  simp only [nameOf_numOf, hn, barLevelOf_barLevelNum]

theorem vecAdd (h : Hdr) (d : NameRef) (a : NameRef) (b : NameRef) (lw : LaneW) : Statement (.vecAdd h d a b lw) := by
  intro hw
  have hn : (d.inField && (a.inField && (b.inField && true))) = true := namesOk_of_wf rfl hw
  simp only [Bool.and_true, Bool.and_eq_true] at hn
  change some (Instr.vecAdd h (nameOf (numOf d)) (nameOf (numOf a)) (nameOf (numOf b)) (laneWOf ((laneWNum lw).extractLsb' 0 2))) = _
  have h_lw : (laneWOf ((laneWNum lw).extractLsb' 0 2)) = lw := by cases lw <;> rfl
  simp only [h_lw, nameOf_numOf, hn]

theorem vecSub (h : Hdr) (d : NameRef) (a : NameRef) (b : NameRef) (lw : LaneW) : Statement (.vecSub h d a b lw) := by
  intro hw
  have hn : (d.inField && (a.inField && (b.inField && true))) = true := namesOk_of_wf rfl hw
  simp only [Bool.and_true, Bool.and_eq_true] at hn
  change some (Instr.vecSub h (nameOf (numOf d)) (nameOf (numOf a)) (nameOf (numOf b)) (laneWOf ((laneWNum lw).extractLsb' 0 2))) = _
  have h_lw : (laneWOf ((laneWNum lw).extractLsb' 0 2)) = lw := by cases lw <;> rfl
  simp only [h_lw, nameOf_numOf, hn]

theorem vecMul (h : Hdr) (d : NameRef) (a : NameRef) (b : NameRef) (lw : LaneW) : Statement (.vecMul h d a b lw) := by
  intro hw
  have hn : (d.inField && (a.inField && (b.inField && true))) = true := namesOk_of_wf rfl hw
  simp only [Bool.and_true, Bool.and_eq_true] at hn
  change some (Instr.vecMul h (nameOf (numOf d)) (nameOf (numOf a)) (nameOf (numOf b)) (laneWOf ((laneWNum lw).extractLsb' 0 2))) = _
  have h_lw : (laneWOf ((laneWNum lw).extractLsb' 0 2)) = lw := by cases lw <;> rfl
  simp only [h_lw, nameOf_numOf, hn]

theorem vecMac (h : Hdr) (d : NameRef) (a : NameRef) (b : NameRef) (lw : LaneW) : Statement (.vecMac h d a b lw) := by
  intro hw
  have hn : (d.inField && (a.inField && (b.inField && true))) = true := namesOk_of_wf rfl hw
  simp only [Bool.and_true, Bool.and_eq_true] at hn
  change some (Instr.vecMac h (nameOf (numOf d)) (nameOf (numOf a)) (nameOf (numOf b)) (laneWOf ((laneWNum lw).extractLsb' 0 2))) = _
  have h_lw : (laneWOf ((laneWNum lw).extractLsb' 0 2)) = lw := by cases lw <;> rfl
  simp only [h_lw, nameOf_numOf, hn]

theorem vecMin (h : Hdr) (d : NameRef) (a : NameRef) (b : NameRef) (lw : LaneW) : Statement (.vecMin h d a b lw) := by
  intro hw
  have hn : (d.inField && (a.inField && (b.inField && true))) = true := namesOk_of_wf rfl hw
  simp only [Bool.and_true, Bool.and_eq_true] at hn
  change some (Instr.vecMin h (nameOf (numOf d)) (nameOf (numOf a)) (nameOf (numOf b)) (laneWOf ((laneWNum lw).extractLsb' 0 2))) = _
  have h_lw : (laneWOf ((laneWNum lw).extractLsb' 0 2)) = lw := by cases lw <;> rfl
  simp only [h_lw, nameOf_numOf, hn]

theorem vecMax (h : Hdr) (d : NameRef) (a : NameRef) (b : NameRef) (lw : LaneW) : Statement (.vecMax h d a b lw) := by
  intro hw
  have hn : (d.inField && (a.inField && (b.inField && true))) = true := namesOk_of_wf rfl hw
  simp only [Bool.and_true, Bool.and_eq_true] at hn
  change some (Instr.vecMax h (nameOf (numOf d)) (nameOf (numOf a)) (nameOf (numOf b)) (laneWOf ((laneWNum lw).extractLsb' 0 2))) = _
  have h_lw : (laneWOf ((laneWNum lw).extractLsb' 0 2)) = lw := by cases lw <;> rfl
  simp only [h_lw, nameOf_numOf, hn]

theorem vecAnd (h : Hdr) (d : NameRef) (a : NameRef) (b : NameRef) (lw : LaneW) : Statement (.vecAnd h d a b lw) := by
  intro hw
  have hn : (d.inField && (a.inField && (b.inField && true))) = true := namesOk_of_wf rfl hw
  simp only [Bool.and_true, Bool.and_eq_true] at hn
  change some (Instr.vecAnd h (nameOf (numOf d)) (nameOf (numOf a)) (nameOf (numOf b)) (laneWOf ((laneWNum lw).extractLsb' 0 2))) = _
  have h_lw : (laneWOf ((laneWNum lw).extractLsb' 0 2)) = lw := by cases lw <;> rfl
  simp only [h_lw, nameOf_numOf, hn]

theorem vecOr (h : Hdr) (d : NameRef) (a : NameRef) (b : NameRef) (lw : LaneW) : Statement (.vecOr h d a b lw) := by
  intro hw
  have hn : (d.inField && (a.inField && (b.inField && true))) = true := namesOk_of_wf rfl hw
  simp only [Bool.and_true, Bool.and_eq_true] at hn
  change some (Instr.vecOr h (nameOf (numOf d)) (nameOf (numOf a)) (nameOf (numOf b)) (laneWOf ((laneWNum lw).extractLsb' 0 2))) = _
  have h_lw : (laneWOf ((laneWNum lw).extractLsb' 0 2)) = lw := by cases lw <;> rfl
  simp only [h_lw, nameOf_numOf, hn]

theorem vecXor (h : Hdr) (d : NameRef) (a : NameRef) (b : NameRef) (lw : LaneW) : Statement (.vecXor h d a b lw) := by
  intro hw
  have hn : (d.inField && (a.inField && (b.inField && true))) = true := namesOk_of_wf rfl hw
  simp only [Bool.and_true, Bool.and_eq_true] at hn
  change some (Instr.vecXor h (nameOf (numOf d)) (nameOf (numOf a)) (nameOf (numOf b)) (laneWOf ((laneWNum lw).extractLsb' 0 2))) = _
  have h_lw : (laneWOf ((laneWNum lw).extractLsb' 0 2)) = lw := by cases lw <;> rfl
  simp only [h_lw, nameOf_numOf, hn]

theorem vecShl (h : Hdr) (d : NameRef) (a : NameRef) (b : NameRef) (lw : LaneW) : Statement (.vecShl h d a b lw) := by
  intro hw
  have hn : (d.inField && (a.inField && (b.inField && true))) = true := namesOk_of_wf rfl hw
  simp only [Bool.and_true, Bool.and_eq_true] at hn
  change some (Instr.vecShl h (nameOf (numOf d)) (nameOf (numOf a)) (nameOf (numOf b)) (laneWOf ((laneWNum lw).extractLsb' 0 2))) = _
  have h_lw : (laneWOf ((laneWNum lw).extractLsb' 0 2)) = lw := by cases lw <;> rfl
  simp only [h_lw, nameOf_numOf, hn]

theorem vecShr (h : Hdr) (d : NameRef) (a : NameRef) (b : NameRef) (lw : LaneW) : Statement (.vecShr h d a b lw) := by
  intro hw
  have hn : (d.inField && (a.inField && (b.inField && true))) = true := namesOk_of_wf rfl hw
  simp only [Bool.and_true, Bool.and_eq_true] at hn
  change some (Instr.vecShr h (nameOf (numOf d)) (nameOf (numOf a)) (nameOf (numOf b)) (laneWOf ((laneWNum lw).extractLsb' 0 2))) = _
  have h_lw : (laneWOf ((laneWNum lw).extractLsb' 0 2)) = lw := by cases lw <;> rfl
  simp only [h_lw, nameOf_numOf, hn]

theorem vecAbs (h : Hdr) (d : NameRef) (a : NameRef) (lw : LaneW) : Statement (.vecAbs h d a lw) := by
  intro hw
  have hn : (d.inField && (a.inField && true)) = true := namesOk_of_wf rfl hw
  simp only [Bool.and_true, Bool.and_eq_true] at hn
  change some (Instr.vecAbs h (nameOf (numOf d)) (nameOf (numOf a)) (laneWOf ((laneWNum lw).extractLsb' 0 2))) = _
  have h_lw : (laneWOf ((laneWNum lw).extractLsb' 0 2)) = lw := by cases lw <;> rfl
  simp only [h_lw, nameOf_numOf, hn]

theorem vecSel (h : Hdr) (d : NameRef) (a : NameRef) (b : NameRef) (c : NameRef) (lw : LaneW) : Statement (.vecSel h d a b c lw) := by
  intro hw
  have hn : (d.inField && (a.inField && (b.inField && (c.inField && true)))) = true := namesOk_of_wf rfl hw
  simp only [Bool.and_true, Bool.and_eq_true] at hn
  change some (Instr.vecSel h (nameOf (numOf d)) (nameOf (numOf a)) (nameOf (numOf b)) (nameOf (numOf c)) (laneWOf ((laneWNum lw).extractLsb' 0 2))) = _
  have h_lw : (laneWOf ((laneWNum lw).extractLsb' 0 2)) = lw := by cases lw <;> rfl
  simp only [h_lw, nameOf_numOf, hn]

theorem vecfAdd (h : Hdr) (d : NameRef) (a : NameRef) (b : NameRef) (lf : LaneF) (rnd : Rnd) : Statement (.vecfAdd h d a b lf rnd) := by
  intro hw
  have hn : (d.inField && (a.inField && (b.inField && true))) = true := namesOk_of_wf rfl hw
  simp only [Bool.and_true, Bool.and_eq_true] at hn
  change some (Instr.vecfAdd h (nameOf (numOf d)) (nameOf (numOf a)) (nameOf (numOf b)) (laneFOf ((laneFNum lf <<< 2).extractLsb' 2 2)) (rndOf (rndNum rnd))) = _
  have h_lf : (laneFOf ((laneFNum lf <<< 2).extractLsb' 2 2)) = lf := by cases lf <;> rfl
  simp only [h_lf, nameOf_numOf, hn, rndOf_rndNum]

theorem vecfSub (h : Hdr) (d : NameRef) (a : NameRef) (b : NameRef) (lf : LaneF) (rnd : Rnd) : Statement (.vecfSub h d a b lf rnd) := by
  intro hw
  have hn : (d.inField && (a.inField && (b.inField && true))) = true := namesOk_of_wf rfl hw
  simp only [Bool.and_true, Bool.and_eq_true] at hn
  change some (Instr.vecfSub h (nameOf (numOf d)) (nameOf (numOf a)) (nameOf (numOf b)) (laneFOf ((laneFNum lf <<< 2).extractLsb' 2 2)) (rndOf (rndNum rnd))) = _
  have h_lf : (laneFOf ((laneFNum lf <<< 2).extractLsb' 2 2)) = lf := by cases lf <;> rfl
  simp only [h_lf, nameOf_numOf, hn, rndOf_rndNum]

theorem vecfMul (h : Hdr) (d : NameRef) (a : NameRef) (b : NameRef) (lf : LaneF) (rnd : Rnd) : Statement (.vecfMul h d a b lf rnd) := by
  intro hw
  have hn : (d.inField && (a.inField && (b.inField && true))) = true := namesOk_of_wf rfl hw
  simp only [Bool.and_true, Bool.and_eq_true] at hn
  change some (Instr.vecfMul h (nameOf (numOf d)) (nameOf (numOf a)) (nameOf (numOf b)) (laneFOf ((laneFNum lf <<< 2).extractLsb' 2 2)) (rndOf (rndNum rnd))) = _
  have h_lf : (laneFOf ((laneFNum lf <<< 2).extractLsb' 2 2)) = lf := by cases lf <;> rfl
  simp only [h_lf, nameOf_numOf, hn, rndOf_rndNum]

theorem vecfFma (h : Hdr) (d : NameRef) (a : NameRef) (b : NameRef) (c : NameRef) (lf : LaneF) (rnd : Rnd) : Statement (.vecfFma h d a b c lf rnd) := by
  intro hw
  have hn : (d.inField && (a.inField && (b.inField && (c.inField && true)))) = true := namesOk_of_wf rfl hw
  simp only [Bool.and_true, Bool.and_eq_true] at hn
  change some (Instr.vecfFma h (nameOf (numOf d)) (nameOf (numOf a)) (nameOf (numOf b)) (nameOf (numOf c)) (laneFOf ((laneFNum lf <<< 2).extractLsb' 2 2)) (rndOf (rndNum rnd))) = _
  have h_lf : (laneFOf ((laneFNum lf <<< 2).extractLsb' 2 2)) = lf := by cases lf <;> rfl
  simp only [h_lf, nameOf_numOf, hn, rndOf_rndNum]

theorem vecfMin (h : Hdr) (d : NameRef) (a : NameRef) (b : NameRef) (lf : LaneF) (rnd : Rnd) : Statement (.vecfMin h d a b lf rnd) := by
  intro hw
  have hn : (d.inField && (a.inField && (b.inField && true))) = true := namesOk_of_wf rfl hw
  simp only [Bool.and_true, Bool.and_eq_true] at hn
  change some (Instr.vecfMin h (nameOf (numOf d)) (nameOf (numOf a)) (nameOf (numOf b)) (laneFOf ((laneFNum lf <<< 2).extractLsb' 2 2)) (rndOf (rndNum rnd))) = _
  have h_lf : (laneFOf ((laneFNum lf <<< 2).extractLsb' 2 2)) = lf := by cases lf <;> rfl
  simp only [h_lf, nameOf_numOf, hn, rndOf_rndNum]

theorem vecfMax (h : Hdr) (d : NameRef) (a : NameRef) (b : NameRef) (lf : LaneF) (rnd : Rnd) : Statement (.vecfMax h d a b lf rnd) := by
  intro hw
  have hn : (d.inField && (a.inField && (b.inField && true))) = true := namesOk_of_wf rfl hw
  simp only [Bool.and_true, Bool.and_eq_true] at hn
  change some (Instr.vecfMax h (nameOf (numOf d)) (nameOf (numOf a)) (nameOf (numOf b)) (laneFOf ((laneFNum lf <<< 2).extractLsb' 2 2)) (rndOf (rndNum rnd))) = _
  have h_lf : (laneFOf ((laneFNum lf <<< 2).extractLsb' 2 2)) = lf := by cases lf <;> rfl
  simp only [h_lf, nameOf_numOf, hn, rndOf_rndNum]

theorem vecfExp2 (h : Hdr) (d : NameRef) (a : NameRef) (lf : LaneF) (rnd : Rnd) : Statement (.vecfExp2 h d a lf rnd) := by
  intro hw
  have hn : (d.inField && (a.inField && true)) = true := namesOk_of_wf rfl hw
  simp only [Bool.and_true, Bool.and_eq_true] at hn
  change some (Instr.vecfExp2 h (nameOf (numOf d)) (nameOf (numOf a)) (laneFOf ((laneFNum lf <<< 2).extractLsb' 2 2)) (rndOf (rndNum rnd))) = _
  have h_lf : (laneFOf ((laneFNum lf <<< 2).extractLsb' 2 2)) = lf := by cases lf <;> rfl
  simp only [h_lf, nameOf_numOf, hn, rndOf_rndNum]

theorem vecfRcp (h : Hdr) (d : NameRef) (a : NameRef) (lf : LaneF) (rnd : Rnd) : Statement (.vecfRcp h d a lf rnd) := by
  intro hw
  have hn : (d.inField && (a.inField && true)) = true := namesOk_of_wf rfl hw
  simp only [Bool.and_true, Bool.and_eq_true] at hn
  change some (Instr.vecfRcp h (nameOf (numOf d)) (nameOf (numOf a)) (laneFOf ((laneFNum lf <<< 2).extractLsb' 2 2)) (rndOf (rndNum rnd))) = _
  have h_lf : (laneFOf ((laneFNum lf <<< 2).extractLsb' 2 2)) = lf := by cases lf <;> rfl
  simp only [h_lf, nameOf_numOf, hn, rndOf_rndNum]

theorem vecfRsqrt (h : Hdr) (d : NameRef) (a : NameRef) (lf : LaneF) (rnd : Rnd) : Statement (.vecfRsqrt h d a lf rnd) := by
  intro hw
  have hn : (d.inField && (a.inField && true)) = true := namesOk_of_wf rfl hw
  simp only [Bool.and_true, Bool.and_eq_true] at hn
  change some (Instr.vecfRsqrt h (nameOf (numOf d)) (nameOf (numOf a)) (laneFOf ((laneFNum lf <<< 2).extractLsb' 2 2)) (rndOf (rndNum rnd))) = _
  have h_lf : (laneFOf ((laneFNum lf <<< 2).extractLsb' 2 2)) = lf := by cases lf <;> rfl
  simp only [h_lf, nameOf_numOf, hn, rndOf_rndNum]

theorem vecfScale (h : Hdr) (d : NameRef) (a : NameRef) (b : NameRef) (lf : LaneF) (rnd : Rnd) : Statement (.vecfScale h d a b lf rnd) := by
  intro hw
  have hn : (d.inField && (a.inField && (b.inField && true))) = true := namesOk_of_wf rfl hw
  simp only [Bool.and_true, Bool.and_eq_true] at hn
  change some (Instr.vecfScale h (nameOf (numOf d)) (nameOf (numOf a)) (nameOf (numOf b)) (laneFOf ((laneFNum lf <<< 2).extractLsb' 2 2)) (rndOf (rndNum rnd))) = _
  have h_lf : (laneFOf ((laneFNum lf <<< 2).extractLsb' 2 2)) = lf := by cases lf <;> rfl
  simp only [h_lf, nameOf_numOf, hn, rndOf_rndNum]

theorem vredSum (h : Hdr) (d : NameRef) (a : NameRef) (lw : LaneW) (lf : LaneF) (fl : Bool) (rnd : Rnd) : Statement (.vredSum h d a lw lf fl rnd) := by
  intro hw
  have hn : (d.inField && (a.inField && true)) = true := namesOk_of_wf rfl hw
  simp only [Bool.and_true, Bool.and_eq_true] at hn
  change some (Instr.vredSum h (nameOf (numOf d)) (nameOf (numOf a)) (laneWOf ((laneWNum lw ||| laneFNum lf <<< 2 ||| bitAt fl 4).extractLsb' 0 2)) (laneFOf ((laneWNum lw ||| laneFNum lf <<< 2 ||| bitAt fl 4).extractLsb' 2 2)) ((laneWNum lw ||| laneFNum lf <<< 2 ||| bitAt fl 4).getLsbD 4) (rndOf (rndNum rnd))) = _
  have h_lw : (laneWOf ((laneWNum lw ||| laneFNum lf <<< 2 ||| bitAt fl 4).extractLsb' 0 2)) = lw := by cases lw <;> cases lf <;> cases fl <;> rfl
  have h_lf : (laneFOf ((laneWNum lw ||| laneFNum lf <<< 2 ||| bitAt fl 4).extractLsb' 2 2)) = lf := by cases lw <;> cases lf <;> cases fl <;> rfl
  have h_fl : ((laneWNum lw ||| laneFNum lf <<< 2 ||| bitAt fl 4).getLsbD 4) = fl := by cases lw <;> cases lf <;> cases fl <;> rfl
  simp only [h_fl, h_lf, h_lw, nameOf_numOf, hn, rndOf_rndNum]

theorem vredMax (h : Hdr) (d : NameRef) (a : NameRef) (lw : LaneW) (lf : LaneF) (fl : Bool) (rnd : Rnd) : Statement (.vredMax h d a lw lf fl rnd) := by
  intro hw
  have hn : (d.inField && (a.inField && true)) = true := namesOk_of_wf rfl hw
  simp only [Bool.and_true, Bool.and_eq_true] at hn
  change some (Instr.vredMax h (nameOf (numOf d)) (nameOf (numOf a)) (laneWOf ((laneWNum lw ||| laneFNum lf <<< 2 ||| bitAt fl 4).extractLsb' 0 2)) (laneFOf ((laneWNum lw ||| laneFNum lf <<< 2 ||| bitAt fl 4).extractLsb' 2 2)) ((laneWNum lw ||| laneFNum lf <<< 2 ||| bitAt fl 4).getLsbD 4) (rndOf (rndNum rnd))) = _
  have h_lw : (laneWOf ((laneWNum lw ||| laneFNum lf <<< 2 ||| bitAt fl 4).extractLsb' 0 2)) = lw := by cases lw <;> cases lf <;> cases fl <;> rfl
  have h_lf : (laneFOf ((laneWNum lw ||| laneFNum lf <<< 2 ||| bitAt fl 4).extractLsb' 2 2)) = lf := by cases lw <;> cases lf <;> cases fl <;> rfl
  have h_fl : ((laneWNum lw ||| laneFNum lf <<< 2 ||| bitAt fl 4).getLsbD 4) = fl := by cases lw <;> cases lf <;> cases fl <;> rfl
  simp only [h_fl, h_lf, h_lw, nameOf_numOf, hn, rndOf_rndNum]

theorem vredMin (h : Hdr) (d : NameRef) (a : NameRef) (lw : LaneW) (lf : LaneF) (fl : Bool) (rnd : Rnd) : Statement (.vredMin h d a lw lf fl rnd) := by
  intro hw
  have hn : (d.inField && (a.inField && true)) = true := namesOk_of_wf rfl hw
  simp only [Bool.and_true, Bool.and_eq_true] at hn
  change some (Instr.vredMin h (nameOf (numOf d)) (nameOf (numOf a)) (laneWOf ((laneWNum lw ||| laneFNum lf <<< 2 ||| bitAt fl 4).extractLsb' 0 2)) (laneFOf ((laneWNum lw ||| laneFNum lf <<< 2 ||| bitAt fl 4).extractLsb' 2 2)) ((laneWNum lw ||| laneFNum lf <<< 2 ||| bitAt fl 4).getLsbD 4) (rndOf (rndNum rnd))) = _
  have h_lw : (laneWOf ((laneWNum lw ||| laneFNum lf <<< 2 ||| bitAt fl 4).extractLsb' 0 2)) = lw := by cases lw <;> cases lf <;> cases fl <;> rfl
  have h_lf : (laneFOf ((laneWNum lw ||| laneFNum lf <<< 2 ||| bitAt fl 4).extractLsb' 2 2)) = lf := by cases lw <;> cases lf <;> cases fl <;> rfl
  have h_fl : ((laneWNum lw ||| laneFNum lf <<< 2 ||| bitAt fl 4).getLsbD 4) = fl := by cases lw <;> cases lf <;> cases fl <;> rfl
  simp only [h_fl, h_lf, h_lw, nameOf_numOf, hn, rndOf_rndNum]

theorem vredArgmax (h : Hdr) (d : NameRef) (a : NameRef) (lw : LaneW) (lf : LaneF) (fl : Bool) (rnd : Rnd) : Statement (.vredArgmax h d a lw lf fl rnd) := by
  intro hw
  have hn : (d.inField && (a.inField && true)) = true := namesOk_of_wf rfl hw
  simp only [Bool.and_true, Bool.and_eq_true] at hn
  change some (Instr.vredArgmax h (nameOf (numOf d)) (nameOf (numOf a)) (laneWOf ((laneWNum lw ||| laneFNum lf <<< 2 ||| bitAt fl 4).extractLsb' 0 2)) (laneFOf ((laneWNum lw ||| laneFNum lf <<< 2 ||| bitAt fl 4).extractLsb' 2 2)) ((laneWNum lw ||| laneFNum lf <<< 2 ||| bitAt fl 4).getLsbD 4) (rndOf (rndNum rnd))) = _
  have h_lw : (laneWOf ((laneWNum lw ||| laneFNum lf <<< 2 ||| bitAt fl 4).extractLsb' 0 2)) = lw := by cases lw <;> cases lf <;> cases fl <;> rfl
  have h_lf : (laneFOf ((laneWNum lw ||| laneFNum lf <<< 2 ||| bitAt fl 4).extractLsb' 2 2)) = lf := by cases lw <;> cases lf <;> cases fl <;> rfl
  have h_fl : ((laneWNum lw ||| laneFNum lf <<< 2 ||| bitAt fl 4).getLsbD 4) = fl := by cases lw <;> cases lf <;> cases fl <;> rfl
  simp only [h_fl, h_lf, h_lw, nameOf_numOf, hn, rndOf_rndNum]

theorem vredSumsq (h : Hdr) (d : NameRef) (a : NameRef) (lw : LaneW) (lf : LaneF) (fl : Bool) (rnd : Rnd) : Statement (.vredSumsq h d a lw lf fl rnd) := by
  intro hw
  have hn : (d.inField && (a.inField && true)) = true := namesOk_of_wf rfl hw
  simp only [Bool.and_true, Bool.and_eq_true] at hn
  change some (Instr.vredSumsq h (nameOf (numOf d)) (nameOf (numOf a)) (laneWOf ((laneWNum lw ||| laneFNum lf <<< 2 ||| bitAt fl 4).extractLsb' 0 2)) (laneFOf ((laneWNum lw ||| laneFNum lf <<< 2 ||| bitAt fl 4).extractLsb' 2 2)) ((laneWNum lw ||| laneFNum lf <<< 2 ||| bitAt fl 4).getLsbD 4) (rndOf (rndNum rnd))) = _
  have h_lw : (laneWOf ((laneWNum lw ||| laneFNum lf <<< 2 ||| bitAt fl 4).extractLsb' 0 2)) = lw := by cases lw <;> cases lf <;> cases fl <;> rfl
  have h_lf : (laneFOf ((laneWNum lw ||| laneFNum lf <<< 2 ||| bitAt fl 4).extractLsb' 2 2)) = lf := by cases lw <;> cases lf <;> cases fl <;> rfl
  have h_fl : ((laneWNum lw ||| laneFNum lf <<< 2 ||| bitAt fl 4).getLsbD 4) = fl := by cases lw <;> cases lf <;> cases fl <;> rfl
  simp only [h_fl, h_lf, h_lw, nameOf_numOf, hn, rndOf_rndNum]

theorem vredScan (h : Hdr) (d : NameRef) (a : NameRef) (lw : LaneW) (lf : LaneF) (fl : Bool) (rnd : Rnd) : Statement (.vredScan h d a lw lf fl rnd) := by
  intro hw
  have hn : (d.inField && (a.inField && true)) = true := namesOk_of_wf rfl hw
  simp only [Bool.and_true, Bool.and_eq_true] at hn
  change some (Instr.vredScan h (nameOf (numOf d)) (nameOf (numOf a)) (laneWOf ((laneWNum lw ||| laneFNum lf <<< 2 ||| bitAt fl 4).extractLsb' 0 2)) (laneFOf ((laneWNum lw ||| laneFNum lf <<< 2 ||| bitAt fl 4).extractLsb' 2 2)) ((laneWNum lw ||| laneFNum lf <<< 2 ||| bitAt fl 4).getLsbD 4) (rndOf (rndNum rnd))) = _
  have h_lw : (laneWOf ((laneWNum lw ||| laneFNum lf <<< 2 ||| bitAt fl 4).extractLsb' 0 2)) = lw := by cases lw <;> cases lf <;> cases fl <;> rfl
  have h_lf : (laneFOf ((laneWNum lw ||| laneFNum lf <<< 2 ||| bitAt fl 4).extractLsb' 2 2)) = lf := by cases lw <;> cases lf <;> cases fl <;> rfl
  have h_fl : ((laneWNum lw ||| laneFNum lf <<< 2 ||| bitAt fl 4).getLsbD 4) = fl := by cases lw <;> cases lf <;> cases fl <;> rfl
  simp only [h_fl, h_lf, h_lw, nameOf_numOf, hn, rndOf_rndNum]

theorem vmovMov (h : Hdr) (d : NameRef) (a : NameRef) : Statement (.vmovMov h d a) := by
  intro hw
  have hn : (d.inField && (a.inField && true)) = true := namesOk_of_wf rfl hw
  simp only [Bool.and_true, Bool.and_eq_true] at hn
  change some (Instr.vmovMov h (nameOf (numOf d)) (nameOf (numOf a))) = _
  simp only [nameOf_numOf, hn]

theorem vmovBcast (h : Hdr) (d : NameRef) (a : NameRef) (b : NameRef) (lw : LaneW) : Statement (.vmovBcast h d a b lw) := by
  intro hw
  have hn : (d.inField && (a.inField && (b.inField && true))) = true := namesOk_of_wf rfl hw
  simp only [Bool.and_true, Bool.and_eq_true] at hn
  change some (Instr.vmovBcast h (nameOf (numOf d)) (nameOf (numOf a)) (nameOf (numOf b)) (laneWOf ((laneWNum lw).extractLsb' 0 2))) = _
  have h_lw : (laneWOf ((laneWNum lw).extractLsb' 0 2)) = lw := by cases lw <;> rfl
  simp only [h_lw, nameOf_numOf, hn]

theorem vmovPerm (h : Hdr) (d : NameRef) (a : NameRef) (b : NameRef) (lw : LaneW) : Statement (.vmovPerm h d a b lw) := by
  intro hw
  have hn : (d.inField && (a.inField && (b.inField && true))) = true := namesOk_of_wf rfl hw
  simp only [Bool.and_true, Bool.and_eq_true] at hn
  change some (Instr.vmovPerm h (nameOf (numOf d)) (nameOf (numOf a)) (nameOf (numOf b)) (laneWOf ((laneWNum lw).extractLsb' 0 2))) = _
  have h_lw : (laneWOf ((laneWNum lw).extractLsb' 0 2)) = lw := by cases lw <;> rfl
  simp only [h_lw, nameOf_numOf, hn]

theorem vmovPack (h : Hdr) (d : NameRef) (a : NameRef) (b : NameRef) (lw : LaneW) : Statement (.vmovPack h d a b lw) := by
  intro hw
  have hn : (d.inField && (a.inField && (b.inField && true))) = true := namesOk_of_wf rfl hw
  simp only [Bool.and_true, Bool.and_eq_true] at hn
  change some (Instr.vmovPack h (nameOf (numOf d)) (nameOf (numOf a)) (nameOf (numOf b)) (laneWOf ((laneWNum lw).extractLsb' 0 2))) = _
  have h_lw : (laneWOf ((laneWNum lw).extractLsb' 0 2)) = lw := by cases lw <;> rfl
  simp only [h_lw, nameOf_numOf, hn]

theorem vmovUnpack (h : Hdr) (d : NameRef) (a : NameRef) (b : NameRef) (lw : LaneW) : Statement (.vmovUnpack h d a b lw) := by
  intro hw
  have hn : (d.inField && (a.inField && (b.inField && true))) = true := namesOk_of_wf rfl hw
  simp only [Bool.and_true, Bool.and_eq_true] at hn
  change some (Instr.vmovUnpack h (nameOf (numOf d)) (nameOf (numOf a)) (nameOf (numOf b)) (laneWOf ((laneWNum lw).extractLsb' 0 2))) = _
  have h_lw : (laneWOf ((laneWNum lw).extractLsb' 0 2)) = lw := by cases lw <;> rfl
  simp only [h_lw, nameOf_numOf, hn]

theorem vmovSend (h : Hdr) (d : NameRef) (a : NameRef) : Statement (.vmovSend h d a) := by
  intro hw
  have hn : (d.inField && (a.inField && true)) = true := namesOk_of_wf rfl hw
  simp only [Bool.and_true, Bool.and_eq_true] at hn
  change some (Instr.vmovSend h (nameOf (numOf d)) (nameOf (numOf a))) = _
  simp only [nameOf_numOf, hn]

theorem vmovRecv (h : Hdr) (d : NameRef) (a : NameRef) : Statement (.vmovRecv h d a) := by
  intro hw
  have hn : (d.inField && (a.inField && true)) = true := namesOk_of_wf rfl hw
  simp only [Bool.and_true, Bool.and_eq_true] at hn
  change some (Instr.vmovRecv h (nameOf (numOf d)) (nameOf (numOf a))) = _
  simp only [nameOf_numOf, hn]

theorem vmovJoin (h : Hdr) (a : NameRef) : Statement (.vmovJoin h a) := by
  intro hw
  have hn : (a.inField && true) = true := namesOk_of_wf rfl hw
  simp only [Bool.and_true] at hn
  change some (Instr.vmovJoin h (nameOf (numOf a))) = _
  simp only [nameOf_numOf, hn]

theorem vmovLeave (h : Hdr) : Statement (.vmovLeave h) := by
  intro hw
  change some (Instr.vmovLeave h) = _
  rfl

theorem cvtQuant (h : Hdr) (d : NameRef) (a : NameRef) (b : NameRef) (c : NameRef) (sf : LaneF) (sup : Bool) (rnd : Rnd) : Statement (.cvtQuant h d a b c sf sup rnd) := by
  intro hw
  have hn : (d.inField && (a.inField && (b.inField && (c.inField && true)))) = true := namesOk_of_wf rfl hw
  simp only [Bool.and_true, Bool.and_eq_true] at hn
  change some (Instr.cvtQuant h (nameOf (numOf d)) (nameOf (numOf a)) (nameOf (numOf b)) (cNameOf h { d := numOf d, a := numOf a, b := numOf b, c := cNumOf h c, rnd := rndNum rnd, xmod := laneFNum sf <<< 5 ||| bitAt sup 7 }) (laneFOf ((laneFNum sf <<< 5 ||| bitAt sup 7).extractLsb' 5 2)) ((laneFNum sf <<< 5 ||| bitAt sup 7).getLsbD 7) (rndOf (rndNum rnd))) = _
  have h_c : (cNameOf h { d := numOf d, a := numOf a, b := numOf b, c := cNumOf h c, rnd := rndNum rnd, xmod := laneFNum sf <<< 5 ||| bitAt sup 7 }) = c := third_back (by simp only [hn]) (thirdOk_of_wf rfl hw) rfl
  have h_sf : (laneFOf ((laneFNum sf <<< 5 ||| bitAt sup 7).extractLsb' 5 2)) = sf := by cases sf <;> cases sup <;> rfl
  have h_sup : ((laneFNum sf <<< 5 ||| bitAt sup 7).getLsbD 7) = sup := by cases sf <;> cases sup <;> rfl
  rw [h_c]
  simp only [h_sup, h_sf, nameOf_numOf, hn, rndOf_rndNum]

theorem cvtDequant (h : Hdr) (d : NameRef) (a : NameRef) (c : NameRef) (lf : LaneF) (part : BitVec 2) (rnd : Rnd) : Statement (.cvtDequant h d a c lf part rnd) := by
  intro hw
  have hn : (d.inField && (a.inField && (c.inField && true))) = true := namesOk_of_wf rfl hw
  simp only [Bool.and_true, Bool.and_eq_true] at hn
  change some (Instr.cvtDequant h (nameOf (numOf d)) (nameOf (numOf a)) (cNameOf h { d := numOf d, a := numOf a, c := cNumOf h c, rnd := rndNum rnd, xmod := laneFNum lf <<< 2 ||| part.setWidth 8 <<< 5 }) (laneFOf ((laneFNum lf <<< 2 ||| part.setWidth 8 <<< 5).extractLsb' 2 2)) ((laneFNum lf <<< 2 ||| part.setWidth 8 <<< 5).extractLsb' 5 2) (rndOf (rndNum rnd))) = _
  have h_c : (cNameOf h { d := numOf d, a := numOf a, c := cNumOf h c, rnd := rndNum rnd, xmod := laneFNum lf <<< 2 ||| part.setWidth 8 <<< 5 }) = c := third_back (by simp only [hn]) (thirdOk_of_wf rfl hw) rfl
  have h_lf : (laneFOf ((laneFNum lf <<< 2 ||| part.setWidth 8 <<< 5).extractLsb' 2 2)) = lf := by exact dequant_format lf part
  have h_part : ((laneFNum lf <<< 2 ||| part.setWidth 8 <<< 5).extractLsb' 5 2) = part := by exact dequant_part lf part
  rw [h_c]
  simp only [h_part, h_lf, nameOf_numOf, hn, rndOf_rndNum]

theorem cvtFtoi (h : Hdr) (d : NameRef) (a : NameRef) (sf : LaneF) (lw : LaneW) (rnd : Rnd) : Statement (.cvtFtoi h d a sf lw rnd) := by
  intro hw
  have hn : (d.inField && (a.inField && true)) = true := namesOk_of_wf rfl hw
  simp only [Bool.and_true, Bool.and_eq_true] at hn
  change some (Instr.cvtFtoi h (nameOf (numOf d)) (nameOf (numOf a)) (laneFOf ((laneFNum sf <<< 5 ||| laneWNum lw).extractLsb' 5 2)) (laneWOf ((laneFNum sf <<< 5 ||| laneWNum lw).extractLsb' 0 2)) (rndOf (rndNum rnd))) = _
  have h_sf : (laneFOf ((laneFNum sf <<< 5 ||| laneWNum lw).extractLsb' 5 2)) = sf := by cases sf <;> cases lw <;> rfl
  have h_lw : (laneWOf ((laneFNum sf <<< 5 ||| laneWNum lw).extractLsb' 0 2)) = lw := by cases sf <;> cases lw <;> rfl
  simp only [h_lw, h_sf, nameOf_numOf, hn, rndOf_rndNum]

theorem cvtItof (h : Hdr) (d : NameRef) (a : NameRef) (lw : LaneW) (lf : LaneF) (rnd : Rnd) : Statement (.cvtItof h d a lw lf rnd) := by
  intro hw
  have hn : (d.inField && (a.inField && true)) = true := namesOk_of_wf rfl hw
  simp only [Bool.and_true, Bool.and_eq_true] at hn
  change some (Instr.cvtItof h (nameOf (numOf d)) (nameOf (numOf a)) (laneWOf ((laneWNum lw ||| laneFNum lf <<< 2).extractLsb' 0 2)) (laneFOf ((laneWNum lw ||| laneFNum lf <<< 2).extractLsb' 2 2)) (rndOf (rndNum rnd))) = _
  have h_lw : (laneWOf ((laneWNum lw ||| laneFNum lf <<< 2).extractLsb' 0 2)) = lw := by cases lw <;> cases lf <;> rfl
  have h_lf : (laneFOf ((laneWNum lw ||| laneFNum lf <<< 2).extractLsb' 2 2)) = lf := by cases lw <;> cases lf <;> rfl
  simp only [h_lf, h_lw, nameOf_numOf, hn, rndOf_rndNum]

theorem cvtFconv (h : Hdr) (d : NameRef) (a : NameRef) (sf : LaneF) (lf : LaneF) (rnd : Rnd) : Statement (.cvtFconv h d a sf lf rnd) := by
  intro hw
  have hn : (d.inField && (a.inField && true)) = true := namesOk_of_wf rfl hw
  simp only [Bool.and_true, Bool.and_eq_true] at hn
  change some (Instr.cvtFconv h (nameOf (numOf d)) (nameOf (numOf a)) (laneFOf ((laneFNum sf <<< 5 ||| laneFNum lf <<< 2).extractLsb' 5 2)) (laneFOf ((laneFNum sf <<< 5 ||| laneFNum lf <<< 2).extractLsb' 2 2)) (rndOf (rndNum rnd))) = _
  have h_sf : (laneFOf ((laneFNum sf <<< 5 ||| laneFNum lf <<< 2).extractLsb' 5 2)) = sf := by cases sf <;> cases lf <;> rfl
  have h_lf : (laneFOf ((laneFNum sf <<< 5 ||| laneFNum lf <<< 2).extractLsb' 2 2)) = lf := by cases sf <;> cases lf <;> rfl
  simp only [h_lf, h_sf, nameOf_numOf, hn, rndOf_rndNum]

theorem cvtScale (h : Hdr) (d : NameRef) (a : NameRef) (b : NameRef) (rnd : Rnd) : Statement (.cvtScale h d a b rnd) := by
  intro hw
  have hn : (d.inField && (a.inField && (b.inField && true))) = true := namesOk_of_wf rfl hw
  simp only [Bool.and_true, Bool.and_eq_true] at hn
  change some (Instr.cvtScale h (nameOf (numOf d)) (nameOf (numOf a)) (nameOf (numOf b)) (rndOf (rndNum rnd))) = _
  simp only [nameOf_numOf, hn, rndOf_rndNum]

theorem cvtRound (h : Hdr) (d : NameRef) (a : NameRef) (lf : LaneF) (rnd : Rnd) : Statement (.cvtRound h d a lf rnd) := by
  intro hw
  have hn : (d.inField && (a.inField && true)) = true := namesOk_of_wf rfl hw
  simp only [Bool.and_true, Bool.and_eq_true] at hn
  change some (Instr.cvtRound h (nameOf (numOf d)) (nameOf (numOf a)) (laneFOf ((laneFNum lf <<< 2).extractLsb' 2 2)) (rndOf (rndNum rnd))) = _
  have h_lf : (laneFOf ((laneFNum lf <<< 2).extractLsb' 2 2)) = lf := by cases lf <;> rfl
  simp only [h_lf, nameOf_numOf, hn, rndOf_rndNum]

theorem mxCfg (h : Hdr) (a : NameRef) : Statement (.mxCfg h a) := by
  intro hw
  have hn : (a.inField && true) = true := namesOk_of_wf rfl hw
  simp only [Bool.and_true] at hn
  change some (Instr.mxCfg h (nameOf (numOf a))) = _
  simp only [nameOf_numOf, hn]

theorem mxLdstat (h : Hdr) (a : NameRef) : Statement (.mxLdstat h a) := by
  intro hw
  have hn : (a.inField && true) = true := namesOk_of_wf rfl hw
  simp only [Bool.and_true] at hn
  change some (Instr.mxLdstat h (nameOf (numOf a))) = _
  simp only [nameOf_numOf, hn]

theorem mxSwap (h : Hdr) : Statement (.mxSwap h) := by
  intro hw
  change some (Instr.mxSwap h) = _
  rfl

theorem mxStream (h : Hdr) (a : NameRef) (b : NameRef) : Statement (.mxStream h a b) := by
  intro hw
  have hn : (a.inField && (b.inField && true)) = true := namesOk_of_wf rfl hw
  simp only [Bool.and_true, Bool.and_eq_true] at hn
  change some (Instr.mxStream h (nameOf (numOf a)) (nameOf (numOf b))) = _
  simp only [nameOf_numOf, hn]

theorem mxDrain (h : Hdr) (a : NameRef) (b : NameRef) : Statement (.mxDrain h a b) := by
  intro hw
  have hn : (a.inField && (b.inField && true)) = true := namesOk_of_wf rfl hw
  simp only [Bool.and_true, Bool.and_eq_true] at hn
  change some (Instr.mxDrain h (nameOf (numOf a)) (nameOf (numOf b))) = _
  simp only [nameOf_numOf, hn]

theorem mxClear (h : Hdr) (a : NameRef) : Statement (.mxClear h a) := by
  intro hw
  have hn : (a.inField && true) = true := namesOk_of_wf rfl hw
  simp only [Bool.and_true] at hn
  change some (Instr.mxClear h (nameOf (numOf a))) = _
  simp only [nameOf_numOf, hn]

theorem engCopy (h : Hdr) (a : NameRef) : Statement (.engCopy h a) := by
  intro hw
  have hn : (a.inField && true) = true := namesOk_of_wf rfl hw
  simp only [Bool.and_true] at hn
  change some (Instr.engCopy h (nameOf (numOf a))) = _
  simp only [nameOf_numOf, hn]

theorem engGuard (h : Hdr) (a : NameRef) (b : NameRef) : Statement (.engGuard h a b) := by
  intro hw
  have hn : (a.inField && (b.inField && true)) = true := namesOk_of_wf rfl hw
  simp only [Bool.and_true, Bool.and_eq_true] at hn
  change some (Instr.engGuard h (nameOf (numOf a)) (nameOf (numOf b))) = _
  simp only [nameOf_numOf, hn]

theorem engUnveil (h : Hdr) (d : NameRef) (a : NameRef) : Statement (.engUnveil h d a) := by
  intro hw
  have hn : (d.inField && (a.inField && true)) = true := namesOk_of_wf rfl hw
  simp only [Bool.and_true, Bool.and_eq_true] at hn
  change some (Instr.engUnveil h (nameOf (numOf d)) (nameOf (numOf a))) = _
  simp only [nameOf_numOf, hn]

theorem engDiscard (h : Hdr) (d : NameRef) (a : NameRef) : Statement (.engDiscard h d a) := by
  intro hw
  have hn : (d.inField && (a.inField && true)) = true := namesOk_of_wf rfl hw
  simp only [Bool.and_true, Bool.and_eq_true] at hn
  change some (Instr.engDiscard h (nameOf (numOf d)) (nameOf (numOf a))) = _
  simp only [nameOf_numOf, hn]

theorem engStatus (h : Hdr) (d : NameRef) : Statement (.engStatus h d) := by
  intro hw
  have hn : (d.inField && true) = true := namesOk_of_wf rfl hw
  simp only [Bool.and_true] at hn
  change some (Instr.engStatus h (nameOf (numOf d))) = _
  simp only [nameOf_numOf, hn]

theorem grpOpen (h : Hdr) (a : NameRef) : Statement (.grpOpen h a) := by
  intro hw
  have hn : (a.inField && true) = true := namesOk_of_wf rfl hw
  simp only [Bool.and_true] at hn
  change some (Instr.grpOpen h (nameOf (numOf a))) = _
  simp only [nameOf_numOf, hn]

theorem grpFork (h : Hdr) (d : NameRef) (a : NameRef) : Statement (.grpFork h d a) := by
  intro hw
  have hn : (d.inField && (a.inField && true)) = true := namesOk_of_wf rfl hw
  simp only [Bool.and_true, Bool.and_eq_true] at hn
  change some (Instr.grpFork h (nameOf (numOf d)) (nameOf (numOf a))) = _
  simp only [nameOf_numOf, hn]

theorem grpWait (h : Hdr) (d : NameRef) (a : NameRef) : Statement (.grpWait h d a) := by
  intro hw
  have hn : (d.inField && (a.inField && true)) = true := namesOk_of_wf rfl hw
  simp only [Bool.and_true, Bool.and_eq_true] at hn
  change candidate26 2 h _ = _
  simp [candidate26, nameOf_numOf, hn]

theorem grpWaitFf (h : Hdr) (d : NameRef) (a : NameRef) : Statement (.grpWaitFf h d a) := by
  intro hw
  have hn : (d.inField && (a.inField && true)) = true := namesOk_of_wf rfl hw
  simp only [Bool.and_true, Bool.and_eq_true] at hn
  change candidate26 2 h _ = _
  simp [candidate26, nameOf_numOf, hn]

theorem grpCancel (h : Hdr) (a : NameRef) : Statement (.grpCancel h a) := by
  intro hw
  have hn : (a.inField && true) = true := namesOk_of_wf rfl hw
  simp only [Bool.and_true] at hn
  change some (Instr.grpCancel h (nameOf (numOf a))) = _
  simp only [nameOf_numOf, hn]

theorem grpReward (h : Hdr) (a : NameRef) : Statement (.grpReward h a) := by
  intro hw
  have hn : (a.inField && true) = true := namesOk_of_wf rfl hw
  simp only [Bool.and_true] at hn
  change some (Instr.grpReward h (nameOf (numOf a))) = _
  simp only [nameOf_numOf, hn]

theorem grpStat (h : Hdr) (d : NameRef) (a : NameRef) : Statement (.grpStat h d a) := by
  intro hw
  have hn : (d.inField && (a.inField && true)) = true := namesOk_of_wf rfl hw
  simp only [Bool.and_true, Bool.and_eq_true] at hn
  change some (Instr.grpStat h (nameOf (numOf d)) (nameOf (numOf a))) = _
  simp only [nameOf_numOf, hn]

theorem grpClose (h : Hdr) (a : NameRef) : Statement (.grpClose h a) := by
  intro hw
  have hn : (a.inField && true) = true := namesOk_of_wf rfl hw
  simp only [Bool.and_true] at hn
  change some (Instr.grpClose h (nameOf (numOf a))) = _
  simp only [nameOf_numOf, hn]

theorem smpSeed (h : Hdr) (a : NameRef) (b : NameRef) : Statement (.smpSeed h a b) := by
  intro hw
  have hn : (a.inField && (b.inField && true)) = true := namesOk_of_wf rfl hw
  simp only [Bool.and_true, Bool.and_eq_true] at hn
  change some (Instr.smpSeed h (nameOf (numOf a)) (nameOf (numOf b))) = _
  simp only [nameOf_numOf, hn]

theorem smpRand (h : Hdr) (d : NameRef) (a : NameRef) : Statement (.smpRand h d a) := by
  intro hw
  have hn : (d.inField && (a.inField && true)) = true := namesOk_of_wf rfl hw
  simp only [Bool.and_true, Bool.and_eq_true] at hn
  change some (Instr.smpRand h (nameOf (numOf d)) (nameOf (numOf a))) = _
  simp only [nameOf_numOf, hn]

theorem smpStop (h : Hdr) (a : NameRef) (b : NameRef) : Statement (.smpStop h a b) := by
  intro hw
  have hn : (a.inField && (b.inField && true)) = true := namesOk_of_wf rfl hw
  simp only [Bool.and_true, Bool.and_eq_true] at hn
  change some (Instr.smpStop h (nameOf (numOf a)) (nameOf (numOf b))) = _
  simp only [nameOf_numOf, hn]

theorem smpDraw (h : Hdr) (d : NameRef) (a : NameRef) (b : NameRef) : Statement (.smpDraw h d a b) := by
  intro hw
  have hn : (d.inField && (a.inField && (b.inField && true))) = true := namesOk_of_wf rfl hw
  simp only [Bool.and_true, Bool.and_eq_true] at hn
  change some (Instr.smpDraw h (nameOf (numOf d)) (nameOf (numOf a)) (nameOf (numOf b))) = _
  simp only [nameOf_numOf, hn]

theorem smpPos (h : Hdr) (d : NameRef) : Statement (.smpPos h d) := by
  intro hw
  have hn : (d.inField && true) = true := namesOk_of_wf rfl hw
  simp only [Bool.and_true] at hn
  change some (Instr.smpPos h (nameOf (numOf d))) = _
  simp only [nameOf_numOf, hn]

theorem chkAcc (h : Hdr) (d : NameRef) (a : NameRef) (lw : LaneW) (ng : Bool) : Statement (.chkAcc h d a lw ng) := by
  intro hw
  have hn : (d.inField && (a.inField && true)) = true := namesOk_of_wf rfl hw
  simp only [Bool.and_true, Bool.and_eq_true] at hn
  change some (Instr.chkAcc h (nameOf (numOf d)) (nameOf (numOf a)) (laneWOf ((laneWNum lw ||| bitAt ng 4).extractLsb' 0 2)) ((laneWNum lw ||| bitAt ng 4).getLsbD 4)) = _
  have h_lw : (laneWOf ((laneWNum lw ||| bitAt ng 4).extractLsb' 0 2)) = lw := by cases lw <;> cases ng <;> rfl
  have h_ng : ((laneWNum lw ||| bitAt ng 4).getLsbD 4) = ng := by cases lw <;> cases ng <;> rfl
  simp only [h_ng, h_lw, nameOf_numOf, hn]

theorem chkTest (h : Hdr) (a : NameRef) (b : NameRef) : Statement (.chkTest h a b) := by
  intro hw
  have hn : (a.inField && (b.inField && true)) = true := namesOk_of_wf rfl hw
  simp only [Bool.and_true, Bool.and_eq_true] at hn
  change some (Instr.chkTest h (nameOf (numOf a)) (nameOf (numOf b))) = _
  simp only [nameOf_numOf, hn]

theorem chkClr (h : Hdr) (d : NameRef) : Statement (.chkClr h d) := by
  intro hw
  have hn : (d.inField && true) = true := namesOk_of_wf rfl hw
  simp only [Bool.and_true] at hn
  change some (Instr.chkClr h (nameOf (numOf d))) = _
  simp only [nameOf_numOf, hn]

theorem capPool (h : Hdr) (d : NameRef) (a : NameRef) : Statement (.capPool h d a) := by
  intro hw
  have hn : (d.inField && (a.inField && true)) = true := namesOk_of_wf rfl hw
  simp only [Bool.and_true, Bool.and_eq_true] at hn
  change some (Instr.capPool h (nameOf (numOf d)) (nameOf (numOf a))) = _
  simp only [nameOf_numOf, hn]

theorem capGet (h : Hdr) (d : NameRef) (a : NameRef) : Statement (.capGet h d a) := by
  intro hw
  have hn : (d.inField && (a.inField && true)) = true := namesOk_of_wf rfl hw
  simp only [Bool.and_true, Bool.and_eq_true] at hn
  change some (Instr.capGet h (nameOf (numOf d)) (nameOf (numOf a))) = _
  simp only [nameOf_numOf, hn]

theorem capPut (h : Hdr) (d : NameRef) (a : NameRef) : Statement (.capPut h d a) := by
  intro hw
  have hn : (d.inField && (a.inField && true)) = true := namesOk_of_wf rfl hw
  simp only [Bool.and_true, Bool.and_eq_true] at hn
  change some (Instr.capPut h (nameOf (numOf d)) (nameOf (numOf a))) = _
  simp only [nameOf_numOf, hn]

theorem capStat (h : Hdr) (d : NameRef) (a : NameRef) : Statement (.capStat h d a) := by
  intro hw
  have hn : (d.inField && (a.inField && true)) = true := namesOk_of_wf rfl hw
  simp only [Bool.and_true, Bool.and_eq_true] at hn
  change some (Instr.capStat h (nameOf (numOf d)) (nameOf (numOf a))) = _
  simp only [nameOf_numOf, hn]

theorem durBegin (h : Hdr) (d : NameRef) (a : NameRef) (b : NameRef) : Statement (.durBegin h d a b) := by
  intro hw
  have hn : (d.inField && (a.inField && (b.inField && true))) = true := namesOk_of_wf rfl hw
  simp only [Bool.and_true, Bool.and_eq_true] at hn
  change some (Instr.durBegin h (nameOf (numOf d)) (nameOf (numOf a)) (nameOf (numOf b))) = _
  simp only [nameOf_numOf, hn]

theorem durCommit (h : Hdr) (d : NameRef) (a : NameRef) : Statement (.durCommit h d a) := by
  intro hw
  have hn : (d.inField && (a.inField && true)) = true := namesOk_of_wf rfl hw
  simp only [Bool.and_true, Bool.and_eq_true] at hn
  change some (Instr.durCommit h (nameOf (numOf d)) (nameOf (numOf a))) = _
  simp only [nameOf_numOf, hn]

theorem durPoint (h : Hdr) (d : NameRef) (a : NameRef) : Statement (.durPoint h d a) := by
  intro hw
  have hn : (d.inField && (a.inField && true)) = true := namesOk_of_wf rfl hw
  simp only [Bool.and_true, Bool.and_eq_true] at hn
  change some (Instr.durPoint h (nameOf (numOf d)) (nameOf (numOf a))) = _
  simp only [nameOf_numOf, hn]

theorem durScan (h : Hdr) (d : NameRef) (a : NameRef) : Statement (.durScan h d a) := by
  intro hw
  have hn : (d.inField && (a.inField && true)) = true := namesOk_of_wf rfl hw
  simp only [Bool.and_true, Bool.and_eq_true] at hn
  change some (Instr.durScan h (nameOf (numOf d)) (nameOf (numOf a))) = _
  simp only [nameOf_numOf, hn]

theorem unassignedEncoding (w0 : BitVec 32) : Statement (.unassignedEncoding w0) := fun _ => trivial

theorem ident (cmd : Command) : Statement (.ident cmd) := fun _ => trivial

theorem load (cmd : Command) : Statement (.load cmd) := fun _ => trivial

theorem unload (cmd : Command) : Statement (.unload cmd) := fun _ => trivial

theorem launch (cmd : Command) : Statement (.launch cmd) := fun _ => trivial

theorem preempt (cmd : Command) : Statement (.preempt cmd) := fun _ => trivial

theorem resume (cmd : Command) : Statement (.resume cmd) := fun _ => trivial

theorem frset (cmd : Command) : Statement (.frset cmd) := fun _ => trivial

theorem inval (cmd : Command) : Statement (.inval cmd) := fun _ => trivial

theorem keyload (cmd : Command) : Statement (.keyload cmd) := fun _ => trivial

theorem vaultset (cmd : Command) : Statement (.vaultset cmd) := fun _ => trivial

theorem replay (cmd : Command) : Statement (.replay cmd) := fun _ => trivial

theorem route (cmd : Command) : Statement (.route cmd) := fun _ => trivial

theorem exportCmd (cmd : Command) : Statement (.exportCmd cmd) := fun _ => trivial

theorem fwload (cmd : Command) : Statement (.fwload cmd) := fun _ => trivial

theorem fwact (cmd : Command) : Statement (.fwact cmd) := fun _ => trivial

theorem attest (cmd : Command) : Statement (.attest cmd) := fun _ => trivial

theorem ctxnew (cmd : Command) : Statement (.ctxnew cmd) := fun _ => trivial

theorem ctxend (cmd : Command) : Statement (.ctxend cmd) := fun _ => trivial

theorem pwrset (cmd : Command) : Statement (.pwrset cmd) := fun _ => trivial

theorem faults (cmd : Command) : Statement (.faults cmd) := fun _ => trivial

theorem fetchEndAccess (t : ThreadRef) : Statement (.fetchEndAccess t) := fun _ => trivial

theorem asyncWrite (k : CoreRef) : Statement (.asyncWrite k) := fun _ => trivial

theorem asyncTrapEntry (t : ThreadRef) : Statement (.asyncTrapEntry t) := fun _ => trivial

theorem longOpComplete (t : ThreadRef) : Statement (.longOpComplete t) := fun _ => trivial

theorem waitlimExpire (t : ThreadRef) : Statement (.waitlimExpire t) := fun _ => trivial

theorem feWaitSatisfied (t : ThreadRef) : Statement (.feWaitSatisfied t) := fun _ => trivial

theorem repackUnfreeze (k : CoreRef) : Statement (.repackUnfreeze k) := fun _ => trivial

theorem meshWordArrive (k : CoreRef) (dir : Dir) : Statement (.meshWordArrive k dir) := fun _ => trivial

theorem storeEntryPerform (k : CoreRef) (idx : Nat) : Statement (.storeEntryPerform k idx) := fun _ => trivial

theorem reflectionEvict (die : Nat) (line : Nat) : Statement (.reflectionEvict die line) := fun _ => trivial

theorem vaultWriteDurable (buf : Nat) (idx : Nat) : Statement (.vaultWriteDurable buf idx) := fun _ => trivial

theorem engReservationGrant (k : CoreRef) : Statement (.engReservationGrant k) := fun _ => trivial

theorem engineCommandAccept (k : CoreRef) : Statement (.engineCommandAccept k) := fun _ => trivial

theorem engineBurst (tile : Nat) (eng : Nat) (queue : Nat) : Statement (.engineBurst tile eng queue) := fun _ => trivial

theorem engineFollowon (tile : Nat) : Statement (.engineFollowon tile) := fun _ => trivial

theorem engineCommandEnd (tile : Nat) (eng : Nat) (queue : Nat) : Statement (.engineCommandEnd tile eng queue) := fun _ => trivial

theorem engineStatusPost (k : CoreRef) : Statement (.engineStatusPost k) := fun _ => trivial

theorem unveilFlip (t : ThreadRef) : Statement (.unveilFlip t) := fun _ => trivial

theorem shadowDiscard (t : ThreadRef) : Statement (.shadowDiscard t) := fun _ => trivial

theorem mxCommandComplete (tile : Nat) : Statement (.mxCommandComplete tile) := fun _ => trivial

theorem arrayChannelMessage (tile : Nat) (dir : Dir) : Statement (.arrayChannelMessage tile dir) := fun _ => trivial

theorem arrayConfigMessage (tile : Nat) (dir : Dir) : Statement (.arrayConfigMessage tile dir) := fun _ => trivial

theorem doorbellNotice (tile : Nat) : Statement (.doorbellNotice tile) := fun _ => trivial

theorem vgForm (t : ThreadRef) : Statement (.vgForm t) := fun _ => trivial

theorem vgForward (t : ThreadRef) : Statement (.vgForward t) := fun _ => trivial

theorem bindRecordWrite (lid : BitVec 64) (place : Place) : Statement (.bindRecordWrite lid place) := fun _ => trivial

theorem leaseRowRelease (k : CoreRef) : Statement (.leaseRowRelease k) := fun _ => trivial

theorem imageRelease (tile : Nat) : Statement (.imageRelease tile) := fun _ => trivial

theorem gangStart (die : Nat) (slot : Nat) : Statement (.gangStart die slot) := fun _ => trivial

theorem stealRequest (k : CoreRef) : Statement (.stealRequest k) := fun _ => trivial

theorem stealReply (t : ThreadRef) : Statement (.stealReply t) := fun _ => trivial

theorem parkStealRetry (t : ThreadRef) : Statement (.parkStealRetry t) := fun _ => trivial

theorem statusWordArrive (tile : Nat) (kern : Nat) : Statement (.statusWordArrive tile kern) := fun _ => trivial

theorem launchComplete (lid : BitVec 64) : Statement (.launchComplete lid) := fun _ => trivial

theorem tourToken (k : CoreRef) : Statement (.tourToken k) := fun _ => trivial

theorem tourRoundStart (k : CoreRef) : Statement (.tourRoundStart k) := fun _ => trivial

theorem tourFinish (k : CoreRef) : Statement (.tourFinish k) := fun _ => trivial

theorem barrierComplete (tile : Nat) (lv : BarLevel) : Statement (.barrierComplete tile lv) := fun _ => trivial

theorem preemptTimeout (gang : Nat) : Statement (.preemptTimeout gang) := fun _ => trivial

theorem coopSave (gang : Nat) : Statement (.coopSave gang) := fun _ => trivial

theorem forcedSave (gang : Nat) : Statement (.forcedSave gang) := fun _ => trivial

theorem groupTimeout (gang : Nat) (g : Nat) : Statement (.groupTimeout gang g) := fun _ => trivial

theorem forkRemoteCopy (t : ThreadRef) : Statement (.forkRemoteCopy t) := fun _ => trivial

theorem missRecord (tile : Nat) (idx : Nat) : Statement (.missRecord tile idx) := fun _ => trivial

theorem fillDeliver (cluster : Nat) : Statement (.fillDeliver cluster) := fun _ => trivial

theorem hostPageAnswer (cluster : Nat) (answer : PageAnswer) : Statement (.hostPageAnswer cluster answer) := fun _ => trivial

theorem sidelogReplay (tile : Nat) : Statement (.sidelogReplay tile) := fun _ => trivial

theorem tileInvalAck (tile : Nat) : Statement (.tileInvalAck tile) := fun _ => trivial

theorem patrolScrub (word : Nat) : Statement (.patrolScrub word) := fun _ => trivial

theorem containNode (lid : BitVec 64) : Statement (.containNode lid) := fun _ => trivial

theorem cpLockstepReset (die : Nat) : Statement (.cpLockstepReset die) := fun _ => trivial

theorem wsRefresh (die : Nat) (bank : Nat) : Statement (.wsRefresh die bank) := fun _ => trivial

theorem hbmAlert (stack : Nat) (bank : Nat) (row : Nat) : Statement (.hbmAlert stack bank row) := fun _ => trivial

theorem hbmBackoffEnd (stack : Nat) (bank : Nat) : Statement (.hbmBackoffEnd stack bank) := fun _ => trivial

theorem qstailDoorbell (q : Nat) (v : BitVec 64) : Statement (.qstailDoorbell q v) := fun _ => trivial

theorem qcheadWrite (q : Nat) (v : BitVec 64) : Statement (.qcheadWrite q v) := fun _ => trivial

theorem queueCommandTake (q : Nat) : Statement (.queueCommandTake q) := fun _ => trivial

theorem hostRegisterWrite (off : Nat) (v : BitVec 64) : Statement (.hostRegisterWrite off v) := fun _ => trivial

theorem fwcommitWrite (v : BitVec 64) : Statement (.fwcommitWrite v) := fun _ => trivial

theorem fwWatchdogExpire : Statement (.fwWatchdogExpire) := fun _ => trivial

theorem peerRequest (req : PeerReq) : Statement (.peerRequest req) := fun _ => trivial

theorem peerTimeout (t : ThreadRef) : Statement (.peerTimeout t) := fun _ => trivial

theorem portDown (port : Nat) : Statement (.portDown port) := fun _ => trivial

theorem hostMemAccess (acc : HostAccess) : Statement (.hostMemAccess acc) := fun _ => trivial

theorem trainingDone (t : Trained) : Statement (.trainingDone t) := fun _ => trivial

theorem clockStepAdjust (power : BitVec 16) (temp : BitVec 8) : Statement (.clockStepAdjust power temp) := fun _ => trivial

theorem thermalReset : Statement (.thermalReset) := fun _ => trivial

theorem modulePowerOn : Statement (.modulePowerOn) := fun _ => trivial

theorem weightStoreWrite (die : Nat) (region : Nat) (phase : WsPhase) : Statement (.weightStoreWrite die region phase) := fun _ => trivial

theorem hbmRefresh (stack : Nat) (bank : Nat) (row : Nat) : Statement (.hbmRefresh stack bank row) := fun _ => trivial

theorem softError (word : Nat) (bits : Nat) : Statement (.softError word bits) := fun _ => trivial

theorem portUp (port : Nat) : Statement (.portUp port) := fun _ => trivial

theorem requestWithdrawn (gang : Nat) : Statement (.requestWithdrawn gang) := fun _ => trivial

end Reencodes

end Sys2Proof.Laws
end

