-- ==== Sys2Proof/Tests/Slice0.lean ====
section
/-! SUPPORT. The sitting's own tests: ill-formed terms, words written out from the encoding tables, one step with results computed by
hand, and for every statement a state and operands that meet its hypotheses. -/
namespace Sys2Proof.Tests
open Sys2Proof Sys2Proof.Machine Sys2Proof.Claims
def hb : Hdr := ⟨.base, .none, 0⟩
def he : Hdr := ⟨.ext, .none, 0⟩
set_option maxRecDepth 8000
set_option exponentiation.threshold 1100
/-! ### A small machine: one kernel of eight threads on core 2 of tile 0 -/

def sint (w : Nat) (m : Ovf := .wrap) : NameEnt := ⟨w, .sint, m, .rne, .none⟩
def uint (w : Nat) (m : Ovf := .wrap) : NameEnt := ⟨w, .uint, m, .rne, .none⟩
/-- The catalogue: 0 to 3 `sint` 32; 4 `sint` 8 in mode `trap`; 5 `uint` 8 in mode `sat`; 6, 7 and 8 `uint` 64; 9 and 10 `sint` 64; 11 and 12 fp32;
13 `g8`; 14 raw 512; 15 `uint` 512; 16 bf16. -/
def cat0 : List NameEnt :=
  [sint 32, sint 32, sint 32, sint 32, sint 8 .trap, uint 8 .sat, uint 64, uint 64, uint 64, sint 64, sint 64, ⟨32, .fp32, .wrap, .rne, .none⟩,
   ⟨32, .fp32, .wrap, .rne, .none⟩, ⟨264, .g8, .wrap, .rne, .e4m3⟩, ⟨512, .raw, .wrap, .rne, .none⟩, uint 512, ⟨16, .bf16, .wrap, .rne, .none⟩]
/-- What they hold: 7, 5, 0 and -7; 100; 200; 0x4000, 0 and 3; four 16-bit lanes 1, 2, 3, -1 and 10, 20, 30, 40; 1.5 and 2.0; ... -/
def names0 : List Pat :=
  [7, 5, 0, 0xFFFF_FFF9, 100, 200, 0x4000, 0, 3, 0xFFFF_0003_0002_0001, 0x0028_001E_0014_000A, 0x3FC0_0000, 0x4000_0000, 0x80,
   0, 0, 0x3FC0]
def th0 : Thread := { Thread.fresh with st := .ready, pc := 0x2000, tvec := 0x3000, names := names0 }
def kn0 : Kernel where
  sb := 0; n := 8; cat := cat0; decl := cat0; rows := 200; reserve := 8; phys := []; freed := 0; relCyc := 0; entry := 0x2000; tvec := 0x3000
  pos := 0; kern := 0; gang := 0; lid := 7; ctx := 0; live := []
def core0 : Core := { Core.fresh with kernels := [kn0], threads := Core.fresh.threads.set 0 th0 }
/-- Thread 0 of core 2 of tile 0 is the current one. -/
def w0 : State :=
  { State.reset with
    cur := ⟨0, 2, 0⟩
    tiles := [(0, { Tile.fresh with cores := Tile.fresh.cores.set 2 core0 })] }
/-- The same with the current thread, or its core, changed. -/
def wt (f : Thread → Thread) : State := w0.setMe (f w0.me)
def wc (f : Core → Core) : State := w0.setMyCore (f w0.myCore)

/-- The next state, where there is one. -/
def next (i : Instr) (s : State) : Option State := match exec i s with | .next t => some t | _ => none
/-- Name `n` of the current thread in the next state. -/
def name (i : Instr) (n : Nat) (s : State := w0) : Option Nat := (next i s).map fun t => (t.me.name n).toNat
/-- Cause, TVAL and address after the instruction. -/
def trap (i : Instr) (s : State := w0) : Option (BitVec 8 × Word64 × Nat) := (next i s).map fun t => (t.me.tcause, t.me.tval, t.me.pc)
/-- Context 0, with the granule of virtual address 0x8_0000 at frame 0 of HBM, cached in tile 0. -/
def ctx0 : Context where
  id := 0; sealb := 64; pasid := 0; root := 0; pool0 := []; pool1 := []; poolc := []; psize := 0; pbase := 0; pslots := 0; pused := []
  sbind := []; maps := []
def wg : State :=
  let s := w0.setMe { w0.me with names := names0.set 6 0x8_0000, sealb := 64 }
  { s.setTile 0 { s.tile 0 with tlb := [⟨0, true, 8, 0, 0, 0⟩] } with contexts := [ctx0] }
/-- The thread waits in an instruction whose latency has run out. -/
def wran (i : Instr) : State := wt fun x => { x with st := .waiting, wait := some ⟨i, 0x2000, 0, 0, 0, none, .retry 29 0, none, [], none, true, none, []⟩ }
/-- A gang of one tile or two in a row at the corner of cluster 0 of die 0, with the kernel of `w0`. -/
def gang0 : Gang where
  die := 0; slot := 0; st := .live; lid := 7; num := 0; clu := 0; col0 := 0; row0 := 0; gw := 0; gh := 0; fold := 0; lvl := 0; img := 0; save := 0
  kerns := [⟨0, 0, 0, 8, 0⟩]; ctx := 0; smp := false; red := false; start := 0; imagesLeft := []; rowsLeft := []; written := 0; slots := []; back := []
  barP := 0; barStat := []; barSum := []; groups := []; geps := 0; tours := []; preempt := none; resume := none
def wq (f : Gang → Gang := id) (g : Tile → Tile := id) : State :=
  { w0 with gangs := [f gang0], tiles := [(0, g { w0.tile 0 with gang := some 0, image := some 0 }), (1, { w0.tile 0 with gang := some 0, image := some 0 })] }
def park0 : WaitRec := ⟨.taskPark hb (.cat 7), 0x2000, 0, 0, 0, none, .steal [], none, [], none, false, none, []⟩
/-- A copy of two elements of eight bytes from 0x4000 to 0x5000, with a status word (R164, R165). -/
def copy0 : List Word64 := [0x0113_0004_0000_0000, 0x4000, 0x5000, 0, BitVec.ofNat 64 (2 * 2 ^ 44 + 2 ^ 22 + 1)]
/-- The same with a `clear` of the block at 0 behind it. -/
def copyFo : List Word64 := [0x0113_0404_0000_0000, 0x4000, 0x5000, 0, BitVec.ofNat 64 (2 * 2 ^ 44 + 2 ^ 22 + 1), BitVec.ofNat 64 (5 * 2 ^ 60), 0]
def cmd0 (ws : List Word64) (elem : Nat) : EngCmd := ⟨ws, 0, 0, 0, 0, elem, .run, 0, 0, 0, 0, 0, 0, 0, 0, 0, 0, 0, 0, none⟩
/-- A command at the head of queue 0 of the copy engine, in cycle 1. -/
def weng (c : EngCmd) : State :=
  let t := w0.tile 0
  { (w0.setTile 0 { t with eng := t.eng.set 0 { Engine.fresh with queues := Engine.fresh.queues.set 0 [c] } }) with cycle := 1 }
/-- A command at the head of the array's queue, its thread waiting. -/
def wmx (q : MxCmd) (cfg : Word64) : State :=
  let s := wt fun x => { x with st := .waiting, wait := some ⟨.mxSwap hb, 0x2000, 0, 0, 0, none, .reply, none, [], none, false, none, []⟩ }
  s.setTile 0 { s.tile 0 with mx := { MxArray.fresh with cfg := cfg, queue := [q] } }
def mx0 (fn : Nat) (a b : Int) : MxCmd := ⟨fn, a, b, 2, 0, none, 0, true, some 0, 0, none, none, none, false, none, 0, 0, false, []⟩
/-- A table of one row of two FP32 elements, 1.0 and 2.0, at 0x8_0000 in the capacity tier; a block at 0x4000 for one bag, list or update
of the row with weight 1.0 at 0x4100, its output at 0x4200; and a vault of 1 MiB at the start of the tier. -/
def wcap : State :=
  let s := w0.setMe { w0.me with names := (names0.set 6 0x4000).set 8 0x8_0000 }
  let s := { s.setTile 0 { s.tile 0 with tlb := [⟨0, true, 8, 0, 0, capBase / 2 ^ 16⟩] } with contexts := [ctx0], vltsize := 1 }
  ((((((((s.putLocalWord 0 0x4000 0x8_0000).putLocalWord 0 0x4008 (2 * 2 ^ 48 + 2 ^ 32 + 1)).putLocalWord 0 0x4010 0x4100).putLocalWord 0 0x4018 0x4200).putLocalWord
    0 0x4100 0x3F80_0000).putLocalWord 0 0x4110 1).putLocalWord 0 0x4118 0x3F80_0000).putBytes capBase (bytesOfNat 8 0x4000_0000_3F80_0000))
def cm (ws : List Word64) : Command := ⟨0, ws⟩
/-- The module after training, with a vault of no size; host memory empty. -/
def wh : State := { State.reset with red := false, rdy := true }
/-- The 128 bytes of an image without sections (R41). -/
def image0 : List Byte := [0x47, 0x59, 0x4F, 0x1A, 1, 0, 0, 0, 2, 0, 128, 0, 0, 0, 0, 0, 128] ++ List.replicate 111 0
def ikern0 : ImgKern := ⟨cat0, 8, 8, 0, 0x2000, 0x3000, 1, 1, 1, 40, 0, 0, [], [], []⟩
def im0 : Image := ⟨5, [], 0x3000, [], [], [ikern0], [], [], 0, []⟩
def launch0 : Launch where
  lid := 7; old := []; q := 0; tag := 9; img := 5; ctx := 0; kerns := [⟨0, 0⟩]; fold := 1; lvl := 0; smp := false; contain := false; retry := 0; attempts := 0
  anyway := false; arg := 0; ws := (0, 0); deps := []; grid := (1, 1); nextGang := 0; gangs := 1; words := []; red := false; held := true; contained := false
  preCmd := []; resCmd := none; done := none; rgang := 0
def saved0 : Saved := ⟨0x10_0000, 0, true, gang0, [0], [Tile.fresh], [], 0, false⟩

/-- The fields of names 1, 2 and 3 in a base word, and of 1 and 2 (R88). -/
def dab : Nat := 1 * 2 ^ 14 + 2 * 2 ^ 20 + 3 * 2 ^ 26
def da : Nat := 1 * 2 ^ 14 + 2 * 2 ^ 20

/-! ### Words of the encoding tables (R94), and what they decode to -/

theorem decodes_sys :
    [0x0000, 0x0400, 0x0800, 0x0C00, 0x1000 + 1 * 2 ^ 14, 0x1400 + 1 * 2 ^ 20 + 1 * 2 ^ 14, 0x1800 + 1 * 2 ^ 20 + 1 * 2 ^ 14,
     0x1C00 + 1 * 2 ^ 20 + 1 * 2 ^ 14, 0x2000 + 1 * 2 ^ 20, 0x2400 + 1 * 2 ^ 14].map (decodeTableWord 32) =
    [.sysHalt hb, .sysNop hb, .sysIfence hb, .sysTret hb, .sysSvc hb 1, .sysGetc hb 1 (.cat 1), .sysSetc hb 1 (.cat 1),
     .sysRdevt hb 1 (.cat 1), .sysClrevt hb 1, .sysCycle hb (.cat 1)].map some := rfl

theorem decodes_alu :
    [0x0004 + dab, 0x0404 + dab, 0x0804 + dab, 0x0C04 + dab, 0x1004 + dab, 0x1404 + dab, 0x1804 + dab, 0x1C04 + dab, 0x2004 +
     da, 0x2404 + da, 0x2804 + da, 0x2C04 + da, 0x3004 + da, 0x3404 + da].map (decodeTableWord 32) =
    [.aluAdd hb (.cat 1) (.cat 2) (.cat 3), .aluSub hb (.cat 1) (.cat 2) (.cat 3), .aluAnd hb (.cat 1) (.cat 2) (.cat 3),
     .aluOr hb (.cat 1) (.cat 2) (.cat 3), .aluXor hb (.cat 1) (.cat 2) (.cat 3), .aluAndn hb (.cat 1) (.cat 2) (.cat 3),
     .aluMin hb (.cat 1) (.cat 2) (.cat 3), .aluMax hb (.cat 1) (.cat 2) (.cat 3), .aluMov hb (.cat 1) (.cat 2), .aluNeg hb
     (.cat 1) (.cat 2), .aluAbs hb (.cat 1) (.cat 2), .aluPopc hb (.cat 1) (.cat 2), .aluClz hb (.cat 1) (.cat 2), .aluCtz hb
     (.cat 1) (.cat 2)].map some := rfl

theorem decodes_alui :
    [0x0008 + da + 1 * 2 ^ 26, 0x0408 + da + 1 * 2 ^ 26, 0x0808 + da + 1 * 2 ^ 26, 0x0C08 + da + 1 * 2 ^ 26, 0x1008 + da + 1 *
     2 ^ 26, 0x1408 + da + 1 * 2 ^ 26, 0x1808 + da + 1 * 2 ^ 26, 0x1C08 + 1 * 2 ^ 14 + 1 * 2 ^ 26].map (decodeTableWord 32) =
    [.aluiAdd hb (.cat 1) (.cat 2) 1, .aluiSub hb (.cat 1) (.cat 2) 1, .aluiAnd hb (.cat 1) (.cat 2) 1, .aluiOr hb (.cat 1)
     (.cat 2) 1, .aluiXor hb (.cat 1) (.cat 2) 1, .aluiMin hb (.cat 1) (.cat 2) 1, .aluiMax hb (.cat 1) (.cat 2) 1, .aluiSet hb
     (.cat 1) 1].map some := rfl

theorem decodes_shf :
    [0x000C + dab, 0x040C + dab, 0x080C + dab, 0x0C0C + dab, 0x100C + da + 1 * 2 ^ 26, 0x140C + da + 1 * 2 ^ 26, 0x180C + da +
     1 * 2 ^ 26, 0x1C0C + da + 1 * 2 ^ 26].map (decodeTableWord 32) =
    [.shfShl hb (.cat 1) (.cat 2) (.cat 3), .shfShr hb (.cat 1) (.cat 2) (.cat 3), .shfRol hb (.cat 1) (.cat 2) (.cat 3),
     .shfRor hb (.cat 1) (.cat 2) (.cat 3), .shfShli hb (.cat 1) (.cat 2) 1, .shfShri hb (.cat 1) (.cat 2) 1, .shfRoli hb (.cat
     1) (.cat 2) 1, .shfRori hb (.cat 1) (.cat 2) 1].map some := rfl

theorem decodes_mul :
    [0x0010 + dab, 0x0410 + dab, 0x0810 + dab].map (decodeTableWord 32) =
    [.mulMul hb (.cat 1) (.cat 2) (.cat 3), .mulMac hb (.cat 1) (.cat 2) (.cat 3), .mulMsub hb (.cat 1) (.cat 2) (.cat 3)].map some := rfl

theorem decodes_div :
    [0x0014 + dab, 0x0414 + dab, 0x0814 + dab, 0x0C14 + dab].map (decodeTableWord 32) =
    [.divDiv hb (.cat 1) (.cat 2) (.cat 3), .divRem hb (.cat 1) (.cat 2) (.cat 3), .divDivf hb (.cat 1) (.cat 2) (.cat 3),
     .divModf hb (.cat 1) (.cat 2) (.cat 3)].map some := rfl

theorem decodes_cmp :
    [0x0018 + dab, 0x0418 + dab, 0x0818 + dab, 0x0C18 + dab, 0x1018 + dab, 0x1418 + dab, 0x1818 + dab].map (decodeTableWord 32) =
    [.cmpEq hb (.cat 1) (.cat 2) (.cat 3), .cmpNe hb (.cat 1) (.cat 2) (.cat 3), .cmpLt hb (.cat 1) (.cat 2) (.cat 3), .cmpLe
     hb (.cat 1) (.cat 2) (.cat 3), .cmpGt hb (.cat 1) (.cat 2) (.cat 3), .cmpGe hb (.cat 1) (.cat 2) (.cat 3), .cmpTst hb
     (.cat 1) (.cat 2) (.cat 3)].map some := rfl

theorem decodes_wid :
    [0x001C + 1 * 2 ^ 14 + 1 * 2 ^ 30 + 1 * 2 ^ 20, 0x041C + da, 0x081C + dab].map (decodeTableWord 32) =
    [.widResize hb (.cat 1) .sat 1, .widWidth hb (.cat 1) (.cat 2), .widFits hb (.cat 1) (.cat 2) (.cat 3)].map some := rfl

theorem decodes_br :
    [0x0020 + 2 * 2 ^ 14 + 1 * 2 ^ 20, 0x0420 + 2 * 2 ^ 14 + 1 * 2 ^ 20, 0x0820 + 2 * 2 ^ 14 + 1 * 2 ^ 20, 0x0C20 + 2 * 2 ^ 14
     + 1 * 2 ^ 20, 0x1020 + 2 * 2 ^ 14 + 1 * 2 ^ 20, 0x1420 + 2 * 2 ^ 14 + 1 * 2 ^ 20, 0x1820 + 1 * 2 ^ 20].map (decodeTableWord 32) =
    [.brZ hb (.cat 2) 1, .brNz hb (.cat 2) 1, .brLz hb (.cat 2) 1, .brGez hb (.cat 2) 1, .brGz hb (.cat 2) 1, .brLez hb (.cat
     2) 1, .brAl hb 1].map some := rfl

theorem decodes_jmp :
    [0x0024 + 1 * 2 ^ 14, 0x0424 + 2 * 2 ^ 14 + 1 * 2 ^ 20].map (decodeTableWord 32) =
    [.jmpRel hb 1, .jmpInd hb (.cat 2) 1].map some := rfl

theorem decodes_call :
    [0x0028 + 1 * 2 ^ 14, 0x0428 + 2 * 2 ^ 14 + 1 * 2 ^ 20, 0x0828].map (decodeTableWord 32) =
    [.callRel hb 1, .callInd hb (.cat 2) 1, .callRet hb].map some := rfl

theorem decodes_addr :
    [0x002C + da, 0x042C + da, 0x082C + da + 1 * 2 ^ 26].map (decodeTableWord 32) =
    [.addrGlob hb (.cat 1) (.cat 2), .addrGen hb (.cat 1) (.cat 2), .addrLea hb (.cat 1) (.cat 2) 1].map some := rfl

theorem decodes_ld :
    [0x0030 + da + 1 * 2 ^ 26, 0x0430 + da + 1 * 2 ^ 26, 0x0830 + da + 1 * 2 ^ 26, 0x0C30 + da + 1 * 2 ^ 26, 0x1030 + da + 1 *
     2 ^ 26, 0x1430 + da + 1 * 2 ^ 26].map (decodeTableWord 32) =
    [.ldB hb (.cat 1) (.cat 2) 8, .ldH hb (.cat 1) (.cat 2) 8, .ldW hb (.cat 1) (.cat 2) 8, .ldD hb (.cat 1) (.cat 2) 8, .ldV
     hb (.cat 1) (.cat 2) 8, .ldG hb (.cat 1) (.cat 2) 8].map some := rfl

theorem decodes_st :
    [0x0034 + da + 1 * 2 ^ 26, 0x0434 + da + 1 * 2 ^ 26, 0x0834 + da + 1 * 2 ^ 26, 0x0C34 + da + 1 * 2 ^ 26, 0x1034 + da + 1 *
     2 ^ 26, 0x1434 + da + 1 * 2 ^ 26].map (decodeTableWord 32) =
    [.stB hb (.cat 1) (.cat 2) 8, .stH hb (.cat 1) (.cat 2) 8, .stW hb (.cat 1) (.cat 2) 8, .stD hb (.cat 1) (.cat 2) 8, .stV
     hb (.cat 1) (.cat 2) 8, .stG hb (.cat 1) (.cat 2) 8].map some := rfl

theorem decodes_amo :
    [0x0038 + dab, 0x0838 + dab, 0x0C38 + dab, 0x1038 + dab, 0x1438 + dab, 0x1838 + dab, 0x1C38 + dab].map (decodeTableWord 32) =
    [.amoSwap hb (.cat 1) (.cat 2) (.cat 3) .d .thr, .amoAdd hb (.cat 1) (.cat 2) (.cat 3) .d .thr, .amoAnd hb (.cat 1) (.cat
     2) (.cat 3) .d .thr, .amoOr hb (.cat 1) (.cat 2) (.cat 3) .d .thr, .amoXor hb (.cat 1) (.cat 2) (.cat 3) .d .thr, .amoMin
     hb (.cat 1) (.cat 2) (.cat 3) .d .thr, .amoMax hb (.cat 1) (.cat 2) (.cat 3) .d .thr].map some := rfl

theorem decodes_fe :
    [0x003C + da + 1 * 2 ^ 26 + 5 * 2 ^ 29, 0x043C + da + 1 * 2 ^ 26 + 5 * 2 ^ 29, 0x083C + da + 1 * 2 ^ 26 + 5 * 2 ^ 29,
     0x0C3C + da + 1 * 2 ^ 26 + 5 * 2 ^ 29, 0x103C + 2 * 2 ^ 20 + 1 * 2 ^ 26 + 5 * 2 ^ 29, 0x143C + da + 1 * 2 ^ 26 + 5 * 2 ^
     29].map (decodeTableWord 32) =
    [.feLdf hb (.cat 1) (.cat 2) 8 .dev, .feLdk hb (.cat 1) (.cat 2) 8 .dev, .feStf hb (.cat 1) (.cat 2) 8 .dev, .feSto hb
     (.cat 1) (.cat 2) 8 .dev, .feClr hb (.cat 2) 8 .dev, .feTst hb (.cat 1) (.cat 2) 8 .dev].map some := rfl

theorem decodes_sync :
    [0x0040 + da, 0x0440 + da, 0x0840 + da + 5 * 2 ^ 29, 0x0C40 + da + 5 * 2 ^ 29, 0x1040 + 5 * 2 ^ 29].map (decodeTableWord 32) =
    [.syncBind hb (.cat 1) (.cat 2), .syncUnbind hb (.cat 1) (.cat 2), .syncAcq hb (.cat 1) (.cat 2) .dev, .syncRel hb (.cat 1)
     (.cat 2) .dev, .syncFence hb .dev].map some := rfl

theorem decodes_task :
    [0x0044 + 2 * 2 ^ 20 + 3 * 2 ^ 26, 0x0444 + 1 * 2 ^ 14, 0x0844 + 1 * 2 ^ 14, 0x0C44 + 1 * 2 ^ 14, 0x1044, 0x1444 + 1 * 2 ^
     14].map (decodeTableWord 32) =
    [.taskSpawn hb (.cat 2) (.cat 3), .taskPop hb (.cat 1), .taskSteal hb (.cat 1), .taskPark hb (.cat 1), .taskTour hb,
     .taskDone hb (.cat 1)].map some := rfl

theorem decodes_bar :
    [0x0048 + 1 * 2 ^ 14, 0x0448 + 2 * 2 ^ 20, 0x0848 + 1 * 2 ^ 14, 0x0C48 + 2 * 2 ^ 20, 0x1048 + 2 * 2 ^ 20].map (decodeTableWord 32) =
    [.barArrive hb (.cat 1) .crew, .barWait hb (.cat 2) .crew, .barSync hb (.cat 1) .crew, .barDone hb (.cat 2), .barStat hb
     (.cat 2) .crew].map some := rfl

theorem decodes_vec :
    [0x004C + dab, 0x044C + dab, 0x084C + dab, 0x0C4C + dab, 0x104C + dab, 0x144C + dab, 0x184C + dab, 0x1C4C + dab, 0x204C +
     dab, 0x244C + dab, 0x284C + dab, 0x2C4C + da].map (decodeTableWord 32) =
    [.vecAdd hb (.cat 1) (.cat 2) (.cat 3) .l8, .vecSub hb (.cat 1) (.cat 2) (.cat 3) .l8, .vecMul hb (.cat 1) (.cat 2) (.cat
     3) .l8, .vecMac hb (.cat 1) (.cat 2) (.cat 3) .l8, .vecMin hb (.cat 1) (.cat 2) (.cat 3) .l8, .vecMax hb (.cat 1) (.cat 2)
     (.cat 3) .l8, .vecAnd hb (.cat 1) (.cat 2) (.cat 3) .l8, .vecOr hb (.cat 1) (.cat 2) (.cat 3) .l8, .vecXor hb (.cat 1)
     (.cat 2) (.cat 3) .l8, .vecShl hb (.cat 1) (.cat 2) (.cat 3) .l8, .vecShr hb (.cat 1) (.cat 2) (.cat 3) .l8, .vecAbs hb
     (.cat 1) (.cat 2) .l8].map some := rfl

theorem decodes_vecf :
    [0x0050 + dab, 0x0450 + dab, 0x0850 + dab, 0x1050 + dab, 0x1450 + dab, 0x1850 + da, 0x1C50 + da, 0x2050 + da, 0x2450 + dab].map (decodeTableWord 32) =
    [.vecfAdd hb (.cat 1) (.cat 2) (.cat 3) .f32 .attr, .vecfSub hb (.cat 1) (.cat 2) (.cat 3) .f32 .attr, .vecfMul hb (.cat 1)
     (.cat 2) (.cat 3) .f32 .attr, .vecfMin hb (.cat 1) (.cat 2) (.cat 3) .f32 .attr, .vecfMax hb (.cat 1) (.cat 2) (.cat 3)
     .f32 .attr, .vecfExp2 hb (.cat 1) (.cat 2) .f32 .attr, .vecfRcp hb (.cat 1) (.cat 2) .f32 .attr, .vecfRsqrt hb (.cat 1)
     (.cat 2) .f32 .attr, .vecfScale hb (.cat 1) (.cat 2) (.cat 3) .f32 .attr].map some := rfl

theorem decodes_vred :
    [0x0054 + da, 0x0454 + da, 0x0854 + da, 0x0C54 + da, 0x1054 + da, 0x1454 + da].map (decodeTableWord 32) =
    [.vredSum hb (.cat 1) (.cat 2) .l8 .f32 false .attr, .vredMax hb (.cat 1) (.cat 2) .l8 .f32 false .attr, .vredMin hb (.cat
     1) (.cat 2) .l8 .f32 false .attr, .vredArgmax hb (.cat 1) (.cat 2) .l8 .f32 false .attr, .vredSumsq hb (.cat 1) (.cat 2)
     .l8 .f32 false .attr, .vredScan hb (.cat 1) (.cat 2) .l8 .f32 false .attr].map some := rfl

theorem decodes_vmov :
    [0x0058 + da, 0x0458 + dab, 0x0858 + dab, 0x0C58 + dab, 0x1058 + dab, 0x1458 + da, 0x1858 + da, 0x1C58 + 2 * 2 ^ 20, 0x2058].map (decodeTableWord 32) =
    [.vmovMov hb (.cat 1) (.cat 2), .vmovBcast hb (.cat 1) (.cat 2) (.cat 3) .l8, .vmovPerm hb (.cat 1) (.cat 2) (.cat 3) .l8,
     .vmovPack hb (.cat 1) (.cat 2) (.cat 3) .l8, .vmovUnpack hb (.cat 1) (.cat 2) (.cat 3) .l8, .vmovSend hb (.cat 1) (.cat
     2), .vmovRecv hb (.cat 1) (.cat 2), .vmovJoin hb (.cat 2), .vmovLeave hb].map some := rfl

theorem decodes_cvt :
    [0x005C + dab, 0x045C + da, 0x085C + da, 0x0C5C + da, 0x105C + da, 0x145C + dab, 0x185C + da].map (decodeTableWord 32) =
    [.cvtQuant hb (.cat 1) (.cat 2) (.cat 3) (.fixed .zero) .f32 false .attr, .cvtDequant hb (.cat 1) (.cat 2) (.fixed .zero)
     .f32 0 .attr, .cvtFtoi hb (.cat 1) (.cat 2) .f32 .l8 .attr, .cvtItof hb (.cat 1) (.cat 2) .l8 .f32 .attr, .cvtFconv hb
     (.cat 1) (.cat 2) .f32 .f32 .attr, .cvtScale hb (.cat 1) (.cat 2) (.cat 3) .attr, .cvtRound hb (.cat 1) (.cat 2) .f32
     .attr].map some := rfl

theorem decodes_mx :
    [0x0060 + 2 * 2 ^ 20, 0x0460 + 2 * 2 ^ 20, 0x0860, 0x0C60 + 2 * 2 ^ 20 + 3 * 2 ^ 26, 0x1060 + 2 * 2 ^ 20 + 3 * 2 ^ 26,
     0x1460 + 2 * 2 ^ 20].map (decodeTableWord 32) =
    [.mxCfg hb (.cat 2), .mxLdstat hb (.cat 2), .mxSwap hb, .mxStream hb (.cat 2) (.cat 3), .mxDrain hb (.cat 2) (.cat 3),
     .mxClear hb (.cat 2)].map some := rfl

theorem decodes_eng :
    [0x0064 + 2 * 2 ^ 20, 0x0464 + 2 * 2 ^ 20 + 3 * 2 ^ 26, 0x0864 + da, 0x0C64 + da, 0x1064 + 1 * 2 ^ 14].map (decodeTableWord 32) =
    [.engCopy hb (.cat 2), .engGuard hb (.cat 2) (.cat 3), .engUnveil hb (.cat 1) (.cat 2), .engDiscard hb (.cat 1) (.cat 2),
     .engStatus hb (.cat 1)].map some := rfl

theorem decodes_grp :
    [0x0068 + 2 * 2 ^ 20, 0x0468 + da, 0x0868 + da, 0x0C68 + 2 * 2 ^ 20, 0x1068 + 2 * 2 ^ 20, 0x1468 + da, 0x1868 + 2 * 2 ^ 20].map (decodeTableWord 32) =
    [.grpOpen hb (.cat 2), .grpFork hb (.cat 1) (.cat 2), .grpWait hb (.cat 1) (.cat 2), .grpCancel hb (.cat 2), .grpReward hb
     (.cat 2), .grpStat hb (.cat 1) (.cat 2), .grpClose hb (.cat 2)].map some := rfl

theorem decodes_smp :
    [0x006C + 2 * 2 ^ 20 + 3 * 2 ^ 26, 0x046C + da, 0x086C + 2 * 2 ^ 20 + 3 * 2 ^ 26, 0x0C6C + dab, 0x106C + 1 * 2 ^ 14].map (decodeTableWord 32) =
    [.smpSeed hb (.cat 2) (.cat 3), .smpRand hb (.cat 1) (.cat 2), .smpStop hb (.cat 2) (.cat 3), .smpDraw hb (.cat 1) (.cat 2)
     (.cat 3), .smpPos hb (.cat 1)].map some := rfl

theorem decodes_chk :
    [0x0070 + da, 0x0470 + 2 * 2 ^ 20 + 3 * 2 ^ 26, 0x0870 + 1 * 2 ^ 14].map (decodeTableWord 32) =
    [.chkAcc hb (.cat 1) (.cat 2) .l8 false, .chkTest hb (.cat 2) (.cat 3), .chkClr hb (.cat 1)].map some := rfl

theorem decodes_cap :
    [0x0074 + da, 0x0474 + da, 0x0874 + da, 0x0C74 + da].map (decodeTableWord 32) =
    [.capPool hb (.cat 1) (.cat 2), .capGet hb (.cat 1) (.cat 2), .capPut hb (.cat 1) (.cat 2), .capStat hb (.cat 1) (.cat 2)].map some := rfl

theorem decodes_dur :
    [0x0078 + dab, 0x0478 + da, 0x0878 + da, 0x0C78 + da].map (decodeTableWord 32) =
    [.durBegin hb (.cat 1) (.cat 2) (.cat 3), .durCommit hb (.cat 1) (.cat 2), .durPoint hb (.cat 1) (.cat 2), .durScan hb
     (.cat 1) (.cat 2)].map some := rfl

/-- An extended form without a literal (R84, R89): its three words. -/
def ext (w0 w1 w2 : Nat) : Option Instr := decodeTableWord 96 (w0 + 2 ^ 32 * w1 + 2 ^ 64 * w2)

/-- Functions that have an extended form alone (R93): `d` from bit 14, `a` from bit 23, `b` and `c` from bits 0 and 9 of word 1, the modifiers
above them, the immediate word 2. -/
theorem decodes_extended_only :
    ext (0x200E + 1 * 2 ^ 14 + 2 * 2 ^ 23) (1 * 2 ^ 18) (5 + 7 * 2 ^ 10) = some (.shfExt he (.cat 1) (.cat 2) 5 7 true) ∧
    ext (0x240E + 1 * 2 ^ 14 + 2 * 2 ^ 23) 0 (5 + 7 * 2 ^ 10) = some (.shfIns he (.cat 1) (.cat 2) 5 7) ∧
    ext (0x0C12 + 1 * 2 ^ 14 + 2 * 2 ^ 23) (3 + 1 * 2 ^ 18) 16 = some (.mulMulsh he (.cat 1) (.cat 2) (.cat 3) 16 true) ∧
    ext (0x1C1A + 1 * 2 ^ 14 + 2 * 2 ^ 23) (3 + 4 * 2 ^ 9) 0 = some (.cmpSel he (.cat 1) (.cat 2) (.cat 3) (.cat 4)) ∧
    ext (0x043A + 1 * 2 ^ 14 + 2 * 2 ^ 23) (3 + 4 * 2 ^ 9 + 1 * 2 ^ 18 + 6 * 2 ^ 26) 0 =
      some (.amoCas he (.cat 1) (.cat 2) (.cat 3) (.cat 4) .w .sys) ∧
    ext (0x203A + 1 * 2 ^ 14 + 2 * 2 ^ 23) (3 + 2 * 2 ^ 18 + 5 * 2 ^ 26) 0 = some (.amoFadd he (.cat 1) (.cat 2) (.cat 3) .h .dev) ∧
    ext (0x304E + 1 * 2 ^ 14 + 2 * 2 ^ 23) (3 + 4 * 2 ^ 9 + 1 * 2 ^ 18) 0 = some (.vecSel he (.cat 1) (.cat 2) (.cat 3) (.cat 4) .l16) ∧
    ext (0x0C52 + 1 * 2 ^ 14 + 2 * 2 ^ 23) (3 + 4 * 2 ^ 9 + 1 * 2 ^ 20 + 2 * 2 ^ 29) 0 =
      some (.vecfFma he (.cat 1) (.cat 2) (.cat 3) (.cat 4) .b16 .rtz) ∧
    ext (0x086A + 1 * 2 ^ 14 + 2 * 2 ^ 23) (1 * 2 ^ 18) 0 = some (.grpWaitFf he (.cat 1) (.cat 2)) := ⟨rfl, rfl, rfl, rfl, rfl, rfl, rfl, rfl, rfl⟩

/-! ### Ill-formed terms, each refused by its check, and words the decoder refuses by name -/

theorem smoke_name_field : (Instr.aluAdd he (.cat 504) (.cat 0) (.cat 1)).wf = false ∧ (Instr.aluAdd he (.cat 503) (.cat 0) (.cat 1)).wf = true := by decide
/-- A bit-field extraction has no one-word form (R93). -/
theorem smoke_length : (Instr.shfExt hb (.cat 0) (.cat 1) 0 8 false).wf = false ∧ (Instr.shfExt he (.cat 0) (.cat 1) 0 8 false).wf = true := by decide
theorem smoke_literal : (Instr.aluAdd ⟨.base, .none, 1⟩ (.cat 0) (.cat 0) (.cat 1)).wf = false := by decide
/-- A base form has names of six bits and a signed immediate of six bits (R88). -/
theorem smoke_base_fields : (Instr.aluAdd hb (.cat 56) (.cat 0) (.cat 1)).wf = false ∧ (Instr.aluiAdd hb (.cat 0) (.cat 0) 32).wf = false ∧
    (Instr.aluiAdd he (.cat 0) (.cat 0) 32).wf = true := by decide
theorem smoke_unassigned : (Instr.unassignedEncoding 0x4).wf = false ∧ (Instr.unassignedEncoding 0x2C00).wf = true := by decide

theorem smoke_third : (Instr.cvtQuant hb (.cat 13) (.cat 14) (.cat 0) (.cat 1) .e4 false .rne).wf = false := by decide
/-- A field of no bits, and an atomic size that the function does not have (R108, R267). -/
theorem smoke_operands : (Instr.shfExt he (.cat 0) (.cat 1) 0 0 false).wf = false ∧ (Instr.amoFadd he (.cat 0) (.cat 6) (.cat 1) .d .dev).wf = false ∧
    (Instr.amoAdd he (.cat 0) (.cat 6) (.cat 1) .h .dev).wf = false := by decide

/-- A length that the function does not admit (`shf.ext` in one word), a reserved bit of `sys.nop`, and words that end early (R84, R85, R88). -/
theorem decode_refuses_length : decodeWords [0x200C] = .error .badLength := rfl
theorem decode_refuses_field : decodeWords [0x400 + 2 ^ 31] = .error .badField := rfl
theorem decode_refuses_truncated : decodeWords [0x4 + 2] = .error .truncated ∧ decodeWords [] = .error .truncated := ⟨rfl, rfl⟩

/-! ### One step, with results computed by hand from the rules cited -/

/-- R105: 7 + 5; the sum 100 + 100 leaves `sint` 8 in mode `trap`, and 200 + 200 saturates at 255 in `uint` 8 (R71, R72). -/
theorem test_alu_add : name (.aluAdd hb (.cat 2) (.cat 0) (.cat 1)) 2 = some 12 := by decide
theorem test_alu_add_trap : trap (.aluAdd hb (.cat 4) (.cat 4) (.cat 4)) = some (Cause.width.code, 200, 0x3000) := by decide
theorem test_alu_add_sat : name (.aluAdd hb (.cat 5) (.cat 5) (.cat 5)) 5 = some 255 := by decide
theorem test_alu_sub : name (.aluSub hb (.cat 2) (.cat 1) (.cat 0)) 2 = some 0xFFFF_FFFE := by decide
/-- -7 and 7: ...11001 and 00111 (R105). -/
theorem test_alu_and : name (.aluAnd hb (.cat 2) (.cat 3) (.cat 0)) 2 = some 1 := by decide
theorem test_alu_or : name (.aluOr hb (.cat 2) (.cat 0) (.cat 1)) 2 = some 7 := by decide
theorem test_alu_xor : name (.aluXor hb (.cat 2) (.cat 0) (.cat 1)) 2 = some 2 := by decide
theorem test_alu_andn : name (.aluAndn hb (.cat 2) (.cat 0) (.cat 1)) 2 = some 2 := by decide
theorem test_alu_min : name (.aluMin hb (.cat 2) (.cat 3) (.cat 1)) 2 = some 0xFFFF_FFF9 := by decide
theorem test_alu_max : name (.aluMax hb (.cat 2) (.cat 3) (.cat 1)) 2 = some 5 := by decide
theorem test_alu_neg : name (.aluNeg hb (.cat 2) (.cat 3)) 2 = some 7 := by decide
theorem test_alu_abs : name (.aluAbs hb (.cat 2) (.cat 3)) 2 = some 7 := by decide
/-- -7 in 32 bits has 30 ones, and 7 has 29 leading zeros and none at its end (R105). -/
theorem test_alu_popc : name (.aluPopc hb (.cat 2) (.cat 3)) 2 = some 30 := by decide
theorem test_alu_clz : name (.aluClz hb (.cat 2) (.cat 0)) 2 = some 29 := by decide
theorem test_alu_ctz : name (.aluCtz hb (.cat 2) (.cat 5)) 2 = some 3 := by decide
theorem test_alui_add : name (.aluiAdd hb (.cat 2) (.cat 0) (-8)) 2 = some 0xFFFF_FFFF := by decide
theorem test_alui_set : name (.aluiSet hb (.cat 2) (-1)) 2 = some 0xFFFF_FFFF := by decide
/-- -7 shifted right by one keeps its sign: -4 (R107). -/
theorem test_shf_shri : name (.shfShri hb (.cat 2) (.cat 3) 1) 2 = some 0xFFFF_FFFC := by decide
theorem test_shf_shl : name (.shfShl hb (.cat 2) (.cat 0) (.cat 1)) 2 = some 224 := by decide
/-- 200 is 11001000: rotated left by one in 8 bits it is 10010001 (R107). -/
theorem test_shf_roli : name (.shfRoli hb (.cat 6) (.cat 5) 1) 6 = some 145 := by decide
/-- Bits 3 to 6 of 200 are 1001, which is -7 with its sign (R108). -/
theorem test_shf_ext : name (.shfExt he (.cat 2) (.cat 5) 3 4 true) 2 = some 0xFFFF_FFF9 := by decide
theorem test_shf_ins : name (.shfIns he (.cat 2) (.cat 0) 8 4) 2 = some 0x700 := by decide
theorem test_mul_mul : name (.mulMul hb (.cat 2) (.cat 0) (.cat 3)) 2 = some 0xFFFF_FFCF := by decide
theorem test_mul_mac : name (.mulMac hb (.cat 0) (.cat 1) (.cat 3)) 0 = some 0xFFFF_FFE4 := by decide
/-- -7 by 5: the quotient goes to zero, the floor of it does not, and each remainder goes with its quotient (R110). -/
theorem test_div_div : name (.divDiv hb (.cat 2) (.cat 3) (.cat 1)) 2 (wran (.divDiv hb (.cat 2) (.cat 3) (.cat 1))) = some 0xFFFF_FFFF := by decide
theorem test_div_rem : name (.divRem hb (.cat 2) (.cat 3) (.cat 1)) 2 (wran (.divRem hb (.cat 2) (.cat 3) (.cat 1))) = some 0xFFFF_FFFE := by decide
theorem test_div_divf : name (.divDivf hb (.cat 2) (.cat 3) (.cat 1)) 2 (wran (.divDivf hb (.cat 2) (.cat 3) (.cat 1))) = some 0xFFFF_FFFE := by decide
theorem test_div_modf : name (.divModf hb (.cat 2) (.cat 3) (.cat 1)) 2 (wran (.divModf hb (.cat 2) (.cat 3) (.cat 1))) = some 3 := by decide
theorem test_div_zero : trap (.divDiv hb (.cat 2) (.cat 0) (.cat 2)) = some (Cause.divz.code, 7, 0x3000) := by decide
/-- Signed and unsigned kinds compare by value: -7 < 200 (R111). -/
theorem test_cmp_lt : name (.cmpLt hb (.cat 2) (.cat 3) (.cat 5)) 2 = some 1 := by decide
theorem test_cmp_tst : name (.cmpTst hb (.cat 0) (.cat 0) (.cat 1)) 0 = some 1 := by decide
theorem test_cmp_sel : name (.cmpSel he (.cat 2) (.cat 0) (.cat 1) (.cat 7)) 2 = some 5 := by decide
theorem test_wid_width : name (.widWidth hb (.cat 2) (.cat 4)) 2 = some 8 := by decide
/-- A branch counts words from its own address (R113, R115). -/
theorem test_br_nz : (next (.brNz hb (.cat 0) (-2)) w0).map (·.me.pc) = some 0x1FF8 := by decide
theorem test_br_z : (next (.brZ hb (.cat 0) (-2)) w0).map (·.me.pc) = some 0x2004 := by decide
theorem test_call_rel : (next (.callRel hb 4) w0).map (fun t => (t.me.pc, t.me.rstack)) = some (0x2010, [0x2004]) := by decide
theorem test_call_ret : (next (.callRet hb) (wt fun x => { x with rstack := [0x2040, 0x2080] })).map (fun t => t.me.pc) = some 0x2040 := by decide
/-- `addr.lea` adds the program counter, a name and an immediate (R125). -/
theorem test_addr_lea : name (.addrLea hb (.cat 8) (.cat 6) (-8)) 8 = some 0x5FF8 := by decide
/-- A byte loaded into a signed name is read with its sign, and a store writes the low byte first (R3, R265). -/
theorem test_ld_b : name (.ldB hb (.cat 2) (.cat 6) 1) 2 (w0.putBytes (localKey 0 0x4000) [0, 0x80]) = some 0xFFFF_FF80 := by decide
theorem test_st_w : (next (.stW hb (.cat 3) (.cat 6) 0) w0).map (fun t => t.bytesAt (localKey 0 0x4000) 5) = some [0xF9, 0xFF, 0xFF, 0xFF, 0] := by decide
theorem test_ld_align : trap (.ldW hb (.cat 2) (.cat 6) 2) = some (Cause.align.code, 0x4002, 0x3000) := by decide
/-- `fe.ldf` leaves a full word full, `fe.ldk` leaves it empty (R213, R269); the reply of each is on the way. -/
theorem test_fe_ldf : (next (.feLdf he (.cat 8) (.cat 6) 0 .thr) w0).map (fun t => (t.me.st, t.full (localKey 0 0x4000))) = some (.waiting, true) := by decide
theorem test_fe_ldk : (next (.feLdk he (.cat 8) (.cat 6) 0 .thr) w0).map (fun t => (t.me.st, t.full (localKey 0 0x4000))) = some (.waiting, false) := by decide
/-- 1, 2, 3 and -1 with 10, 20, 30 and 40, in lanes of 16 bits (R182). -/
theorem test_vec_add : name (.vecAdd he (.cat 9) (.cat 9) (.cat 10) .l16) 9 = some 0x0027_0021_0016_000B := by decide
theorem test_vec_mul : name (.vecMul he (.cat 9) (.cat 9) (.cat 10) .l16) 9 = some 0xFFD8_005A_0028_000A := by decide
theorem test_vec_sub_wrap : name (.vecSub he (.cat 9) (.cat 9) (.cat 10) .l16) 9 = some 0xFFD7_FFE5_FFEE_FFF7 := by decide
/-- 1.5 + 2.0, 1.5 * 2.0 and 1.5 * 2.0 + 1.5 (R183). -/
theorem test_vecf_add : name (.vecfAdd he (.cat 11) (.cat 11) (.cat 12) .f32 .rne) 11 = some 0x4060_0000 := by decide
theorem test_vecf_mul : name (.vecfMul he (.cat 11) (.cat 11) (.cat 12) .f32 .rne) 11 = some 0x4040_0000 := by decide
theorem test_vecf_fma : name (.vecfFma he (.cat 11) (.cat 11) (.cat 12) (.cat 11) .f32 .rne) 11 = some 0x4090_0000 := by decide
theorem test_vred_sum : name (.vredSum he (.cat 2) (.cat 9) .l16 .f32 false .rne) 2 = some 5 := by decide
theorem test_vred_max : name (.vredMax he (.cat 2) (.cat 9) .l16 .f32 false .rne) 2 = some 3 := by decide
/-- 1.5 in the bfloat16 format and back (R190). -/
theorem test_cvt_fconv : name (.cvtFconv he (.cat 16) (.cat 11) .f32 .b16 .rne) 16 = some 0x3FC0 := by decide
/-- 1.5 goes to the even integer 2, and -7 to -7.0 (R190). -/
theorem test_cvt_ftoi : name (.cvtFtoi he (.cat 2) (.cat 11) .f32 .l32 .rne) 2 = some 2 := by decide
theorem test_cvt_itof : name (.cvtItof he (.cat 11) (.cat 3) .l32 .f32 .rne) 11 = some 0xC0E0_0000 := by decide
/-- `sys.svc` traps with its number (R284). -/
theorem test_sys_svc : trap (.sysSvc hb 5) = some (Cause.svc.code, 5, 0x3000) := by decide
theorem test_sys_nop : (next (.sysNop hb) w0).map (·.me.pc) = some 0x2004 := by decide
theorem test_unassigned : trap (.unassignedEncoding 0x2C00) = some (Cause.ill.code, 0x2C00, 0x3000) := by decide
/-- The task pushed last is the one that a pop takes (R229, R275). -/
theorem test_task_pop : (next (.taskPop hb (.cat 8)) (wc fun c => { c with dq := [⟨0x2100, 1⟩, ⟨0x2200, 2⟩], dqOwner := some 0 })).map
    (fun t => (t.me.pc, t.me.name 8, t.myCore.dq)) = some (0x2200, 2, [⟨0x2100, 1⟩]) := by decide
/-- A repack that reads a copy with an uncorrectable error writes no row, and its thread takes POISON at the `wid.resize` (R81). -/
theorem test_repack_poison :
    (next (.repackUnfreeze ⟨0, 2⟩) (w0.setMyCore { core0 with
      repack := some ⟨.resize 2 16 .wrap, true, 0, 0x2000, 0, 0, [(0, .ready)], []⟩
      threads := core0.threads.set 0 { th0 with st := .frozen, pc := 0x2004, bad := [5] } })).map
      (fun t => (t.me.tcause, t.me.tepc, t.me.pc, (t.ent (.cat 2)).width)) = some (Cause.poison.code, 0x2000, 0x3000, 32) := by decide

/-! ### Witnesses: states and operands that meet the hypotheses of the statements -/

theorem witness_Operands :
    (wc fun c => { c with portEng := [3] }).myCore.portEng = [3] ∧ w0.myCore.portEng = [] ∧ w0.inbound .w = [] ∧
    (w0.setInbound .e [4]).inbound .e = [4] ∧ w0.neighbourIn .e = false ∧
    ({ w0 with tiles := w0.tiles.map (fun p => (p.1, { p.2 with gang := some 0 })) ++ [(64, { Tile.fresh with gang := some 0 })] } : State).neighbourIn .s = true ∧
    (let w : WaitRec := ⟨.aluAdd hb (.cat 2) (.fixed .portEng) (.cat 1), 0x2000, 0, 0, 0, none, .retry 1 0, none, [(.fixed .portEng, 3)], some (w0.latch w0.cur), false, none, []⟩
     let s := wt fun x => { x with st := .waiting, wait := some w }
     s.me.wait = some w ∧ w.took = (.fixed .portEng, 3) :: [] ∧ w.src = some (w0.latch w0.cur)) ∧
    w0.myCore.portAhead w0.cur.h w0.mySeq (.fixed .portEng) = false ∧ w0.me.wait = none ∧
    inRange .sint 8 100 = true ∧ inRange .sint 8 128 = false ∧ w0.ent (.cat 4) = sint 8 .trap ∧ w0.ent (.cat 5) = uint 8 .sat := by decide

theorem witness_IssueAndCompletion :
    w0.myKernel.cat.length ≤ (17 : BitVec 9).toNat ∧ nameBreach w0.myKernel hb (.aluMov hb (.cat 2) (.cat 0)) [.cat 0] [.cat 2] = none ∧
    w0.waitOk .both = true ∧ (wc fun c => { c with sbuf := [⟨0, 0, 0, 2 ^ 40, [1], some (.near, .hbm 0), .plain, 0, 0⟩] }).waitOk .near = false ∧
    w0.waitOk .none = true := by decide

theorem witness_IntegerTwoSources : ∃ (s : State) (i : Instr) (h : Hdr) (d a b : NameRef) (f : Src → Src → Int),
    intTwo i = some (h, d, a, b, f) ∧ Passes s i h [a, b] [d] ∧ s.intDst d = true ∧
    ∃ x s1 y s2 t, s.read i h a s = .ok (x, s1) ∧ s.read i h b s1 = .ok (y, s2) ∧ s.writeInt i d (f x y) s2 = .ok t :=
  ⟨w0, .aluAdd hb (.cat 2) (.cat 0) (.cat 1), _, _, _, _, _, rfl, ⟨by decide, by decide⟩, by decide, _, _, _, _, _, rfl, rfl, rfl⟩

theorem witness_IntegerOneSource : ∃ (s : State) (i : Instr) (h : Hdr) (d a : NameRef) (f : Nat → Src → Int),
    intOne i = some (h, d, a, true, f) ∧ Passes s i h [a] [d] ∧ s.intDst d = true ∧
    ∃ x s1 t, s.read i h a s = .ok (x, s1) ∧ s.writeInt i d (f s.me.pc x) s1 = .ok t :=
  ⟨w0, .shfShli hb (.cat 2) (.cat 0) 1023, _, _, _, _, rfl, ⟨by decide, by decide⟩, by decide, _, _, _, rfl, rfl⟩

theorem witness_IntegerOtherShapes :
    (Passes w0 (.aluMov hb (.cat 2) (.cat 5)) hb [.cat 5] [.cat 2] ∧ w0.intDst (.cat 2) = true ∧
      ∃ t, w0.writeInt (.aluMov hb (.cat 2) (.cat 5)) (.cat 2) 200 w0 = .ok t) ∧
    (Passes w0 (.aluMov hb (.cat 11) (.cat 12)) hb [.cat 12] [.cat 11] ∧ w0.intDst (.cat 11) = false ∧ w0.ent (.cat 12) = w0.ent (.cat 11)) ∧
    (Passes w0 (.aluiSet hb (.cat 2) (-32)) hb [] [.cat 2] ∧ ∃ t, w0.writeInt (.aluiSet hb (.cat 2) (-32)) (.cat 2) (-32) w0 = .ok t) ∧
    (Passes w0 (.shfIns he (.cat 2) (.cat 0) 24 8) he [.cat 0] [.cat 2] ∧ (24 : BitVec 10).toNat + (8 : BitVec 10).toNat ≤ (w0.ent (.cat 2)).width) ∧
    (Passes w0 (.cmpSel he (.cat 2) (.cat 0) (.cat 1) (.cat 3)) he [.cat 0, .cat 1, .cat 3] [.cat 2]) ∧
    Passes w0 (.widWidth hb (.cat 2) (.cat 4)) hb [] [.cat 4, .cat 2] :=
  ⟨⟨⟨by decide, by decide⟩, by decide, _, rfl⟩, ⟨⟨by decide, by decide⟩, by decide, by decide⟩, ⟨⟨by decide, by decide⟩, _, rfl⟩,
    ⟨⟨by decide, by decide⟩, by decide⟩, ⟨by decide, by decide⟩, ⟨by decide, by decide⟩⟩

theorem witness_MultiplyAndDivide :
    (∃ (s : State) (i : Instr) (h : Hdr) (d a b : NameRef) (f : Int → Int → Int → Int), product i = some (h, d, a, b, true, true, f) ∧
      Passes s i h [a, b, d] [d] ∧ s.intDst d = true ∧ s.myCore.mulFree ≤ s.cycle ∧ s.myCore.waitsAhead s.cur.h s.mySeq 4 = false ∧
      ∃ x s1 y s2 z s3 t, s.read i h a s = .ok (x, s1) ∧ s.read i h b s1 = .ok (y, s2) ∧ s.read i h d s2 = .ok (z, s3) ∧
        s.writeInt i d (f x.val y.val z.val) s3 = .ok t) ∧
    (∃ (s : State) (i : Instr) (h : Hdr) (d a b : NameRef) (f : Int → Int → Int), quotient i = some (h, d, a, b, f) ∧ Passes s i h [a, b] [d] ∧
      s.intDst d = true ∧ s.myCore.divFree ≤ s.cycle ∧ s.myCore.waitsAhead s.cur.h s.mySeq 28 = false ∧ ∃ x s1 y s2 t, s.read i h a s = .ok (x, s1) ∧ s.read i h b s1 = .ok (y, s2) ∧ y.val ≠ 0 ∧
        s.writeInt i d (f x.val y.val) s2 = .ok t) ∧
    (∃ (s : State) (i : Instr) (h : Hdr) (d a b : NameRef) (f : Int → Int → Int), quotient i = some (h, d, a, b, f) ∧ Passes s i h [a, b] [d] ∧
      s.intDst d = true ∧ ∃ x s1 y s2, s.read i h a s = .ok (x, s1) ∧ s.read i h b s1 = .ok (y, s2) ∧ y.val = 0) :=
  ⟨⟨w0, .mulMac hb (.cat 2) (.cat 0) (.cat 1), _, _, _, _, _, rfl, ⟨by decide, by decide⟩, by decide, by decide, by decide, _, _, _, _, _, _, _, rfl, rfl, rfl, rfl⟩,
    ⟨w0, .divRem hb (.cat 2) (.cat 3) (.cat 1), _, _, _, _, _, rfl, ⟨by decide, by decide⟩, by decide, by decide, by decide, _, _, _, _, _, rfl, rfl, by decide, rfl⟩,
    ⟨w0, .divDiv hb (.cat 2) (.cat 0) (.fixed .zero), _, _, _, _, _, rfl, ⟨by decide, by decide⟩, by decide, _, _, _, _, rfl, rfl, by decide⟩⟩

/-- Branches and jumps: a taken and an untaken branch, the last target that R113 admits, the first ones beyond it on both sides, and targets of an
indirect transfer and of a return that are not multiples of 4. -/
theorem witness_Transfers :
    Passes w0 (.brNz hb (.cat 0) 2) hb [.cat 0] [] ∧ Target (target w0 2) ∧ Target (target (wt fun x => { x with pc := 0x7_FFF8 }) 1) ∧
    Passes w0 (.brZ hb (.cat 0) 2) hb [.cat 0] [] ∧ Passes w0 (.jmpInd hb (.cat 6) 0) hb [.cat 6] [] ∧ Target (0x4000 + 4 * (0 : BitVec 32).toInt) ∧
    Passes w0 (.jmpRel he (-0x801)) he [] [] ∧ Refused (target w0 (-0x801)) .access ∧ Passes w0 (.callRel he (-0x801)) he [] [] ∧
    Refused (target (wt fun x => { x with pc := 0x7_FFFC }) 1) .access ∧
    Passes w0 (.callInd hb (.cat 0) 0) hb [.cat 0] [] ∧ Refused (7 + 4 * (0 : BitVec 32).toInt) .align ∧ Refused (0x2002 : Nat) .align := by
  refine ⟨⟨by decide, by decide⟩, ⟨by decide, by decide, by decide⟩, ⟨by decide, by decide, by decide⟩, ⟨by decide, by decide⟩, ⟨by decide, by decide⟩,
    ⟨by decide, by decide, by decide⟩, ⟨by decide, by decide⟩, .inr ⟨by decide, .inl (by decide), rfl⟩, ⟨by decide, by decide⟩,
    .inr ⟨by decide, .inr (by decide), rfl⟩, ⟨by decide, by decide⟩, .inl ⟨by decide, rfl⟩, .inl ⟨by decide, rfl⟩⟩

/-- Calls with room, with a spill, with none left, and with a spill address beyond local memory; returns from the stack, from the spill area (the word read
admitted, refused, or poisoned), beyond local memory, and with nothing there. -/
theorem witness_CallsAndReturns :
    Passes w0 (.callRel hb 1) hb [] [] ∧ Target (target w0 1) ∧ w0.me.rstack.length < 8 ∧ Passes w0 (.callInd hb (.cat 6) 1) hb [.cat 6] [] ∧
    (let s := wt fun x => { x with rstack := [4, 8, 12, 16, 20, 24, 28, 32], rsLim := 1, rsBase := 0xFFFF }
     Passes s (.callRel hb 1) hb [] [] ∧ 8 ≤ s.me.rstack.length ∧ s.me.rsCnt.toNat < s.me.rsLim.toNat ∧
      8 * (s.me.rsBase.toNat + s.me.rsCnt.toNat) = 0x7_FFF8 ∧ s.boardAny s.cur.tile (8 * (s.me.rsBase.toNat + s.me.rsCnt.toNat)) 8 = false) ∧
    (let s := wt fun x => { x with rstack := [4, 8, 12, 16, 20, 24, 28, 32], rsLim := 2, rsCnt := 1, rsBase := 0xFFFF }
     8 ≤ s.me.rstack.length ∧ s.me.rsCnt.toNat < s.me.rsLim.toNat ∧ 0x7_FFF8 < 8 * (s.me.rsBase.toNat + s.me.rsCnt.toNat)) ∧
    (let s := wt fun x => { x with rstack := [4, 8, 12, 16, 20, 24, 28, 32] }
     Passes s (.callRel hb 1) hb [] [] ∧ 8 ≤ s.me.rstack.length ∧ s.me.rsLim.toNat ≤ s.me.rsCnt.toNat) ∧
    (let s := wt fun x => { x with rstack := [0x7_FFFC] }
     Passes s (.callRet hb) hb [] [] ∧ s.me.rstack = [0x7_FFFC] ∧ Target ((0x7_FFFC : Nat) : Int)) ∧
    (let s := (wt fun x => { x with rsCnt := 1, rsBase := 0x800 }).putLocalWord 0 0x4000 0x2040
     s.me.rstack = [] ∧ 0 < s.me.rsCnt.toNat ∧ 8 * (s.me.rsBase.toNat + (s.me.rsCnt.toNat - 1)) = 0x4000 ∧ s.boardW s.cur.tile 0x4000 8 = false ∧
      s.poisoned (localKey s.cur.tile 0x4000) 8 = false ∧ s.localWord s.cur.tile 0x4000 = 0x2040 ∧
      ({ s with poison := [localKey 0 0x4000 / 8] } : State).poisoned (localKey s.cur.tile 0x4000) 8 = true) ∧
    Passes w0 (.callRet hb) hb [] [] ∧ w0.me.rstack = [] ∧ w0.me.rsCnt.toNat = 0 := by
  refine ⟨⟨by decide, by decide⟩, ⟨by decide, by decide, by decide⟩, by decide, ⟨by decide, by decide⟩,
    ⟨⟨by decide, by decide⟩, by decide, by decide, by decide, by decide⟩, by decide, ⟨⟨by decide, by decide⟩, by decide, by decide⟩,
    ⟨⟨by decide, by decide⟩, by decide, by decide, by decide, by decide⟩, by decide, ⟨by decide, by decide⟩, by decide, by decide⟩

/-- The last byte of a private region of one unit, the first beyond it, an address below the window, and the alias's ends. -/
theorem witness_PrivateAliases :
    let s := wt fun x => { x with privSz := 1, privG := 8, names := x.names.set 6 0xFF_FFFF_0000_FFFF }
    let pw : Int := 0xFF_FFFF_0000_0000
    Passes s (.addrGlob hb (.cat 7) (.cat 6)) hb [.cat 6] [.cat 7] ∧ s.intDst (.cat 7) = true ∧
    (match s.read (.addrGlob hb (.cat 7) (.cat 6)) hb (.cat 6) s with | .ok (x, _) => decide (x.val = pw + 0xFFFF) | .error _ => false) = true ∧
    pw + 0xFFFF < pw + (s.me.privSz.toNat * 2 ^ 16 : Nat) ∧ pw + (s.me.privSz.toNat * 2 ^ 16 : Nat) ≤ pw + 0x1_0000 ∧ pw + 0x1_0000 < 2 ^ 56 ∧
    (∃ t, s.writeInt (.addrGlob hb (.cat 7) (.cat 6)) (.cat 7) ((s.me.privG.toNat * 2 ^ 16 : Nat) + 0xFFFF) s = .ok t) ∧
    Passes s (.addrGen hb (.cat 7) (.cat 8)) hb [.cat 8] [.cat 7] ∧
    ((s.me.privG.toNat * 2 ^ 16 : Nat) : Int) ≤ 0x8_FFFF ∧ (0x8_FFFF : Int) < (s.me.privG.toNat * 2 ^ 16 : Nat) + (s.me.privSz.toNat * 2 ^ 16 : Nat) ∧
    (s.me.privG.toNat * 2 ^ 16 : Nat) + ((s.me.privSz.toNat * 2 ^ 16 : Nat) : Int) ≤ 0x9_0000 := by
  refine ⟨⟨by decide, by decide⟩, by decide, by decide, by decide, by decide, by decide, ⟨_, rfl⟩, ⟨by decide, by decide⟩, by decide, by decide, by decide⟩

theorem witness_TrapEntry : Cause.ill ≠ .poison ∧ w0.containable w0.cur = false ∧ 0x7_FFFC < 2 ^ 19 ∧ w0.latent = [] := by decide

theorem witness_SystemInstructions :
    Passes w0 (.sysTret hb) hb [] [] ∧ Target (w0.me.tepc.toNat : Int) ∧ Passes w0 (.sysNop hb) hb [] [] ∧ Passes w0 (.sysIfence hb) hb [] [] ∧
    Passes w0 (.sysSvc hb 0x3_FFFF) hb [] [] ∧ Passes w0 (.sysHalt hb) hb [] [] ∧ w0.me.gmV = false ∧
    (wt fun x => { x with tepc := 0x2002 }).me.tepc.toNat % 4 ≠ 0 := by
  refine ⟨⟨by decide, by decide⟩, ⟨by decide, by decide, by decide⟩, ⟨by decide, by decide⟩, ⟨by decide, by decide⟩, ⟨by decide, by decide⟩,
    ⟨by decide, by decide⟩, by decide, by decide⟩

theorem witness_ControlReads :
    w0.oneDst (.cat 7) = true ∧ w0.reg w0.cur 0x004 = some 0x3000 ∧ Passes w0 (.sysGetc hb 4 (.cat 7)) hb [] [.cat 7] ∧
    (∃ t, w0.writeOne (.sysGetc hb 4 (.cat 7)) (.cat 7) 0x3000 w0 = .ok t) ∧ (63 : BitVec 12).toNat < 64 ∧
    Passes w0 (.sysRdevt hb 63 (.cat 7)) hb [] [.cat 7] ∧ Passes w0 (.sysCycle hb (.cat 7)) hb [] [.cat 7] ∧ w0.cycle < 2 ^ 64 := by
  refine ⟨by decide, by decide, ⟨by decide, by decide⟩, ⟨_, rfl⟩, by decide, ⟨by decide, by decide⟩, ⟨by decide, by decide⟩, by decide⟩

/-- A writable register, one that the thread may not write, and the counters with and without leave. -/
theorem witness_ControlWrites :
    Passes w0 (.sysSetc hb 4 (.cat 7)) hb [.cat 7] [] ∧ (w0.reg w0.cur 4).isSome = true ∧ w0.settable 4 = true ∧
    (w0.ent (.cat 7)).kind.isInt = true ∧ (w0.reg w0.cur 0x100).isSome = true ∧ w0.settable 0x100 = false ∧
    (wt fun x => { x with priv := true }).me.priv = true ∧ (wc fun c => { c with evu := true }).myCore.evu = true ∧
    Passes w0 (.sysClrevt hb 63) hb [] [] ∧ w0.me.priv = false ∧ w0.myCore.evu = false ∧ Passes w0 (.sysSetc hb 0x3F (.cat 7)) hb [.cat 7] [] ∧
    w0.reg w0.cur (0x3F : BitVec 12).toNat = none := by
  refine ⟨⟨by decide, by decide⟩, by decide, by decide, by decide, by decide, by decide, by decide, by decide, ⟨by decide, by decide⟩, by decide, by decide, ⟨by decide, by decide⟩,
    by decide⟩

/-- No emulation routine, one at the last address that R113 admits, one that is refused, and an entry under an error. -/
theorem witness_UnassignedEncodings :
    w0.wordBefore w0.cur.tile (0x1000 + 8 * featureBit 0x7C) = (0, false) ∧
    (let s : Nat → State := fun e => { (w0.putLocalWord 0 (0x1000 + 8 * featureBit 0x7C) e) with fresh := [] }
     (s 0x7_FFFC).wordBefore 0 (0x1000 + 8 * featureBit 0x7C) = (0x7_FFFC, false) ∧ (s 6).wordBefore 0 (0x1000 + 8 * featureBit 0x7C) = (6, false) ∧
      ({ s 6 with poison := [localKey 0 (0x1000 + 8 * featureBit 0x7C) / 8] } : State).wordBefore 0 (0x1000 + 8 * featureBit 0x7C) = (6, true)) := by decide

/-- The width as it is, one beyond every row, one that fits, and one that a value does not fit. -/
theorem witness_Resizes :
    Passes w0 (.widResize hb (.cat 2) .wrap 32) hb [] [.cat 2] ∧ (w0.ent (.cat 2)).kind.isInt = true ∧ w0.myCore.unitBusy w0.cur.h w0.mySeq = false ∧
    (w0.ent (.cat 2)).width = 32 ∧
    rowsNeeded (w0.myKernel.setWidth 2 528).widths w0.myKernel.n ≤ w0.myKernel.rows + w0.myKernel.reserve ∧
    (let s := wc fun c => { c with kernels := [{ kn0 with rows := 8, reserve := 0 }] }
     Passes s (.widResize hb (.cat 2) .sat 528) hb [] [.cat 2] ∧ s.myKernel.rows + s.myKernel.reserve < rowsNeeded (s.myKernel.setWidth 2 528).widths s.myKernel.n) ∧
    (Passes w0 (.widResize hb (.cat 5) .trap 4) hb [] [.cat 5] ∧ (w0.done hb).myCore.settling w0.myKernel = false ∧
      inRange (w0.ent (.cat 5)).kind 4 (valueOf (w0.ent (.cat 5)) (w0.myCore.copyOf w0.myKernel 5 0)) = false) := by
  refine ⟨⟨by decide, by decide⟩, by decide, by decide, by decide, by decide, ⟨⟨by decide, by decide⟩, by decide⟩, ⟨by decide, by decide⟩, by decide, by decide⟩

/-- A thread at the end of memory, one with a trap pending, one whose latency is over, one at its limit, and a mesh word due. -/
theorem witness_ThreadSteps :
    (let s := wt fun x => { x with pc := 0x8_0000 }
     (s.thread s.cur).st = .ready ∧ (s.thread s.cur).pc = 0x8_0000) ∧
    (let s := wt fun x => { x with pend := some (0x0C, 1) }
     (s.thread s.cur).pend = some (0x0C, 1) ∧ (s.thread s.cur).st = .ready ∧ (s.thread s.cur).vg ≠ .attached) ∧
    (let w : WaitRec := ⟨.mulMul hb (.cat 2) (.cat 0) (.cat 1), 0x2000, 0, 0, 0, none, .until 0, none, [], none, false, none, []⟩
     let s := wt fun x => { x with st := .waiting, wait := some w }
     (s.thread s.cur).wait = some w ∧ w.why = .until 0 ∧ 0 ≤ s.cycle ∧ (s.thread s.cur).st = .waiting) ∧
    (let w : WaitRec := ⟨.sysNop hb, 0x2000, 0, 0, 1, some 0, .retry 1 0, some (.retry 1 0), [], none, false, none, []⟩
     let s := wt fun x => { x with st := .waiting, wait := some w }
     (s.thread s.cur).wait = some w ∧ w.lim ≠ 0 ∧ w.since + w.lim ≤ s.cycle + 1 ∧ w.why.same (.retry tagResv 0) = false) ∧
    (let s := w0.setCore ⟨1, 2⟩ { Core.fresh with portOut := Core.fresh.portOut.set 3 [(5, 7)] }
     let s : State := { s with cycle := 5 }
     tileNext 0 .e = some 1 ∧ (s.core ⟨1, 2⟩).portOut[dirIx (dirBack .e)] = (5, 7) :: [] ∧ 5 ≤ s.cycle ∧ (s.core ⟨0, 2⟩).portIn[dirIx .e].length < 16) := by
  decide

/-- The last bytes of local memory, and a word beyond it. -/
theorem witness_Loads :
    (∃ (s : State) (i : Instr) (h : Hdr) (d a : NameRef) (o : BitVec 32) (n : Nat), load i = some (h, d, a, o, n) ∧ Passes s i h [a] [d] ∧ Fits s d n ∧
      portDir d = none ∧ ∃ x s1 l t, s.read i h a s = .ok (x, s1) ∧ Local (x.val + o.toInt) n l ∧ l + n = 0x8_0000 ∧
        s1.boardW s1.cur.tile l n = false ∧ s1.poisoned (localKey s1.cur.tile l) n = false ∧
        lands s i d (s1.loadVal d n (natOfBytes (s1.bytesAt (localKey s1.cur.tile l) n)))
          (s1.found s1.cur 0 s1.myKernel.ctx (localKey s1.cur.tile l) n) = .ok t) ∧
    (∃ (s : State) (i : Instr) (h : Hdr) (d a : NameRef) (o : BitVec 32) (n : Nat), load i = some (h, d, a, o, n) ∧ Passes s i h [a] [d] ∧ Fits s d n ∧
      ∃ x s1 bs s2, s.read i h a s = .ok (x, s1) ∧ (x.val + o.toInt) % n = 0 ∧ s.window s.me (x.val + o.toInt) = .glob 0x8_0000 ∧
        s1.window s1.me (x.val + o.toInt) = .glob 0x8_0000 ∧ s.portCheck d s1 = .ok () ∧
        s.loadPieces i (x.val + o.toInt) [(0x8_0000, n)] s1 = .ok (bs, s2)) :=
  ⟨⟨wt fun x => { x with names := names0.set 6 0x7_FFC0 }, .ldV he (.cat 14) (.cat 6) 0, _, _, _, _, _, rfl, ⟨by decide, by decide⟩, by unfold Fits; decide, by decide,
      _, _, 0x7_FFC0, _, rfl, ⟨by decide, by decide, by decide⟩, by decide, by decide, by decide, rfl⟩,
    ⟨wg, .ldD hb (.cat 7) (.cat 6) 0, _, _, _, _, _, rfl, ⟨by decide, by decide⟩, by unfold Fits; decide, _, _, _, _, rfl, by decide, by decide, by decide, rfl, rfl⟩⟩

/-- Bytes from a store buffer, from a reflection and from the home; granules at the end of local memory. -/
theorem witness_LoadSources :
    (let s := wc fun c => { c with sbuf := [⟨0, 0, 0, 2 ^ 40, [1], none, .plain, 0, 0⟩] }
     ((s.core ⟨0, 2⟩).sbuf.filter fun y => y.covers 0 (2 ^ 40) 1).getLast?.isSome = true) ∧
    ((w0.core ⟨0, 2⟩).sbuf.filter fun y => y.covers 0 (2 ^ 40) 1) = [] ∧ w0.reflection? 0 0 ⟨0, true, 2 ^ 24, 0, 0, 0⟩ (2 ^ 40) = none ∧ w0.bufferByte ⟨0, 2⟩ 0 (some (2 ^ 40)) 0 = none ∧
    (({ w0 with reflections := [⟨0, 0, 2 ^ 40, 0, 0, [], [], []⟩] } : State).reflection? 0 0 ⟨0, true, 2 ^ 24, 0, 0, 0⟩ (2 ^ 40)).isSome = true ∧
    w0.granKind (.cat 13) = true ∧ w0.granKind (.cat 14) = true ∧ (0x7_FFD8 : Int) = ((0x7_FFD8 : Nat) : Int) ∧ 0x7_FFD8 % 8 = 0 ∧ 0x7_FFD8 + 40 ≤ 0x8_0000 ∧
    nameBreach w0.myKernel hb (.ldG hb (.cat 13) (.cat 6) 0) [.cat 6] [.cat 13] = none ∧
    nameBreach w0.myKernel hb (.stG hb (.cat 13) (.cat 6) 0) [.cat 6, .cat 13] [] = none ∧
    w0.boardAny 0 0x7_FFD8 40 = false ∧ w0.merges (localKey 0 0x7_FFD8) 40 = false ∧ w0.poisoned (localKey 0 0x7_FFD8) 40 = false := by decide

theorem witness_Stores :
    (∃ (s : State) (i : Instr) (h : Hdr) (d a : NameRef) (o : BitVec 32) (n : Nat), store i = some (h, d, a, o, n) ∧ Passes s i h [a, d] [] ∧ Fits s d n ∧
      ∃ x s1 y s2 l, s.read i h a s = .ok (x, s1) ∧ s.read i h d s1 = .ok (y, s2) ∧ Local (x.val + o.toInt) n l ∧
        s2.boardAny s2.cur.tile l n = false ∧ s2.merges (localKey s2.cur.tile l) n = false) ∧
    (∃ (s : State) (i : Instr) (h : Hdr) (d a : NameRef) (o : BitVec 32) (n : Nat), store i = some (h, d, a, o, n) ∧ Passes s i h [a, d] [] ∧ Fits s d n ∧
      ∃ x s1 y s2 t, s.read i h a s = .ok (x, s1) ∧ s.read i h d s1 = .ok (y, s2) ∧ (x.val + o.toInt) % n = 0 ∧
        s.window s.me (x.val + o.toInt) = .glob 0x8_0000 ∧ s2.window s2.me (x.val + o.toInt) = .glob 0x8_0000 ∧ s.myCore.sbuf.length + 2 ≤ 64 ∧
        s.post i (cutLines 0x8_0000 (bytesOfNat n (y.bitsOf (8 * n)))) s2 = .ok t) :=
  ⟨⟨w0, .stB hb (.cat 0) (.cat 6) (-1), _, _, _, _, _, rfl, ⟨by decide, by decide⟩, by unfold Fits; decide, _, _, _, _, 0x3FFF, rfl, rfl,
      ⟨by decide, by decide, by decide⟩, by decide, by decide⟩,
    ⟨wg, .stD hb (.cat 9) (.cat 6) 0, _, _, _, _, _, rfl, ⟨by decide, by decide⟩, by unfold Fits; decide, _, _, _, _, _, rfl, rfl, by decide, by decide, by decide,
      by decide, rfl⟩⟩

/-- An address in no window, and one in a window that is not aligned. -/
theorem witness_AccessFaults : ∃ (s : State) (i j : Instr) (h : Hdr) (d a : NameRef) (o q : BitVec 32) (n : Nat),
    load i = some (h, d, a, o, n) ∧ Passes s i h [a] [d] ∧ load j = some (h, d, a, q, n) ∧ Passes s j h [a] [d] ∧ Fits s d n ∧
    ∃ x s1, s.read i h a s = .ok (x, s1) ∧ s.window s.me (x.val + o.toInt) = .none ∧ s.window s.me (x.val + q.toInt) ≠ .none ∧ (x.val + q.toInt) % n ≠ 0 :=
  ⟨w0, .ldD he (.cat 7) (.cat 6) (-0x4001), .ldD he (.cat 7) (.cat 6) 4, _, _, _, _, _, _, rfl, ⟨by decide, by decide⟩, rfl, ⟨by decide, by decide⟩,
    by unfold Fits; decide, _, _, rfl, by decide, by decide, by decide⟩

/-- A swap in local memory, and one at a global home. -/
theorem witness_Atomics :
    (∃ (s : State) (i : Instr) (h : Hdr) (d a b : NameRef) (sz : AmoSize) (sc : Scope) (f : Nat → Nat → Src → Option Src → Option Nat),
      atomic i = some (h, d, a, b, none, sz, sc, f) ∧ Passes s i h [a, b] [d] ∧ s.oneDst d = true ∧ sizeOk i sz ∧
      ∃ x s1 y s2, s.read i h a s = .ok (x, s1) ∧ s.read i h b s1 = .ok (y, s2) ∧ s.portCheck d s2 = .ok () ∧ Local x.val (amoBytes sz) 0x4000 ∧ s.fenceOf i sc s2 = .ok () ∧
        s2.boardAny s2.cur.tile 0x4000 (amoBytes sz) = false ∧ s2.poisoned (localKey s2.cur.tile 0x4000) (amoBytes sz) = false) ∧
    (∃ (s : State) (i : Instr) (h : Hdr) (d a b c : NameRef) (sz : AmoSize) (sc : Scope) (f : Nat → Nat → Src → Option Src → Option Nat),
      atomic i = some (h, d, a, b, some c, sz, sc, f) ∧ Passes s i h [a, b, c] [d] ∧ s.oneDst d = true ∧ sizeOk i sz ∧
      ∃ x s1 y s2 z s3 e s4, s.read i h a s = .ok (x, s1) ∧ s.read i h b s1 = .ok (y, s2) ∧ s.read i h c s2 = .ok (z, s3) ∧ s.portCheck d s3 = .ok () ∧
        s.window s.me x.val = .glob 0x8_0000 ∧ s3.window s3.me x.val = .glob 0x8_0000 ∧ x.val % (amoBytes sz : Int) = 0 ∧ d ≠ .fixed .zero ∧
        s.translate i 2 true x.val 0x8_0000 s3 = .ok e ∧ s.atHome i sc 0x8_0000 (e.pa 0x8_0000) s3 = .ok s4 ∧ s4.feAhead (e.pa 0x8_0000) = false ∧ s4.poisoned (e.pa 0x8_0000) (amoBytes sz) = false) :=
  ⟨⟨w0, .amoSwap he (.cat 7) (.cat 6) (.cat 8) .d .thr, _, _, _, _, _, _, _, rfl, ⟨by decide, by decide⟩, by decide, by simp [sizeOk], _, _, _, _, rfl, rfl,
      rfl, ⟨by decide, by decide, by decide⟩, rfl, by decide, by decide⟩,
    ⟨wg, .amoCas he (.cat 7) (.cat 6) (.cat 8) (.cat 9) .w .sys, _, _, _, _, _, _, _, _, rfl, ⟨by decide, by decide⟩, by decide, by simp [sizeOk],
      _, _, _, _, _, _, ⟨0, true, 8, 0, 0, 0⟩, _, rfl, rfl, rfl, rfl, by decide, by decide, by decide, by decide, rfl, rfl, by decide, by decide⟩⟩

/-- A full word read, an empty one written, and an empty one waited for. -/
theorem witness_FullEmpty :
    (let i : Instr := .feLdf he (.cat 7) (.cat 6) 0 .thr
     fullEmpty i = some (he, .cat 7, .cat 6, 0, .thr, .ldf) ∧ Passes w0 i he [.cat 6] [.cat 7] ∧ w0.oneDst (.cat 7) = true ∧ portDir (.cat 7) = none ∧
      (∃ x, w0.read i he (.cat 6) w0 = .ok (x, w0) ∧ Local (x.val + (0 : BitVec 32).toInt) 8 0x4000) ∧ w0.boardAny 0 0x4000 8 = false ∧
      w0.poisoned (localKey 0 0x4000) 8 = false ∧ w0.latent = [] ∧ w0.full (localKey 0 0x4000) = true ∧ w0.feAhead (localKey 0 0x4000) = false ∧
      w0.fenceOf i .thr w0 = .ok ()) ∧
    (let s := w0.setFull (localKey 0 0x4000) false
     Passes s (.feLdf he (.cat 7) (.cat 6) 0 .thr) he [.cat 6] [.cat 7] ∧ s.boardW 0 0x4000 8 = false ∧ s.full (localKey 0 0x4000) = false ∧
      Passes s (.feStf he (.cat 7) (.cat 6) 0 .thr) he [.cat 6, .cat 7] [] ∧ s.feAhead (localKey 0 0x4000) = false) := by
  refine ⟨⟨rfl, ⟨by decide, by decide⟩, by decide, by decide, ⟨_, rfl, by decide, by decide, by decide⟩, by decide, by decide, by decide, by decide, by decide, rfl⟩,
    ⟨by decide, by decide⟩, by decide, by decide, ⟨by decide, by decide⟩, by decide⟩

/-- A range of the least length bound, unbound, and refused beside another seal's; and a seal word acquired and released. -/
theorem witness_SealInstructions :
    (let b : SBind := ⟨1023, 0x8_0000, 8⟩
     let s := wg.setMe { wg.me with names := wg.me.names.set 8 (BitVec.ofNat 528 (1023 * 2 ^ 48 + 8)) }
     s.context? s.myKernel.ctx = some ctx0 ∧ 1023 * 2 ^ 48 + 8 < 2 ^ 58 ∧ fieldOf (1023 * 2 ^ 48 + 8) 48 10 = 1023 ∧
      fieldOf (1023 * 2 ^ 48 + 8) 0 48 = 8 ∧ boundable 0x8_0000 8 = true ∧
      Passes s (.syncBind hb (.cat 8) (.cat 6)) hb [.cat 6, .cat 8] [] ∧ Passes s (.syncUnbind hb (.cat 8) (.cat 6)) hb [.cat 6, .cat 8] [] ∧
      s.portHeld = false ∧ ctx0.sbind.contains b = false ∧ ctx0.sbind.length < 1024 ∧ [b].contains b = true ∧
      (⟨2, 0x8_0000, 64⟩ : SBind).overlaps b.start b.len = true ∧ [(⟨2, 0x8_0000, 64⟩ : SBind)].contains b = false) ∧
    (let s := wg
     let i : Instr := .syncAcq hb (.cat 7) (.cat 8) .die
     let j : Instr := .syncRel hb (.cat 7) (.cat 8) .dev
     s.oneDst (.cat 7) = true ∧ s.globWin (s.sealAddr 3) = .glob 0x8_0018 ∧ s.translate i 0 false 0x8_0018 0x8_0018 s = .ok ⟨0, true, 8, 0, 0, 0⟩ ∧
      s.translate j 2 true 0x8_0018 0x8_0018 s = .ok ⟨0, true, 8, 0, 0, 0⟩ ∧ s.poisoned 0x18 8 = false ∧ s.stage = none ∧ w0.undurable = false ∧
      Passes s i hb [.cat 8] [.cat 7] ∧ Passes s j hb [.cat 8] [.cat 7] ∧ s.portCheck (.cat 7) s = .ok () ∧
      s.fenceClear .dev (fun c b n => c == s.myKernel.ctx && (s.sealRanges s.myKernel.ctx 3).any fun r => r.overlaps b n) = true) := by
  refine ⟨⟨by decide, by decide, by decide, by decide, by decide, ⟨by decide, by decide⟩, ⟨by decide, by decide⟩, by decide, by decide, by decide, by decide,
    by decide, by decide⟩, by decide, by decide, rfl, rfl, by decide, by decide, by decide, ⟨by decide, by decide⟩, ⟨by decide, by decide⟩, rfl, by decide⟩

/-- Nothing left; a store of the core, an entry of the side log and a vault write left; and an older store that waits for room. -/
theorem witness_Fences :
    Passes w0 (.syncFence hb .recov) hb [] [] ∧ w0.portHeld = false ∧ w0.myCore.sbuf = [] ∧ w0.myTile.side = [] ∧ w0.vwrites = [] ∧
    (let e : StoreEntry := ⟨0, 0, 0, 2 ^ 40, [1], none, .plain, 0, 0⟩
     let s : State := { wc fun c => { c with sbuf := [e] } with seq := 1 }
     e ∈ s.myCore.sbuf ∧ e.seq < s.mySeq ∧ inScope .sys e.home = true ∧ inScope .core e.home = false ∧ s.waitOk .none = true ∧ s.portHeld = false) ∧
    (let e : SideEntry := ⟨0, 2, 0, 0, 0x8_0000, none, .store [1] .plain, 0, 0⟩
     let s := w0.setTile 0 { w0.tile 0 with side := [e] }
     e ∈ s.myTile.side ∧ e.core = s.cur.core ∧ inScope .die e.home = true) ∧
    (let v : VaultWrite := ⟨0, some ⟨⟨0, 2⟩, 0, 0, 0x8_0000, 8⟩, capBase, [], [], []⟩
     let s : State := { w0 with vwrites := [v], seq := 1 }
     v ∈ s.vwrites ∧ (v.who.map fun w => decide (w.core = s.cur.coreRef ∧ w.seq < s.mySeq)) = some true) ∧
    (let w : WaitRec := ⟨.stB hb (.cat 0) (.cat 6) 0, 0x2000, 0, 0, 0, none, .retry tagStore 0, none, [], none, false, none, []⟩
     let c : Core := { core0 with threads := core0.threads.set 1 { th0 with st := .waiting, wait := some w } }
     let s : State := { w0.setMyCore c with seq := 1 }
     s.portHeld = true) ∧
    inScope .dev (some (.far, .host)) = false := by
  refine ⟨⟨by decide, by decide⟩, by decide, by decide, by decide, by decide, by decide, by decide, by decide, by decide, by decide⟩

/-- A store due at its home, a reflection, a vault write, a reply, and a word that a waiting operation finds full. -/
theorem witness_MemorySteps :
    (let e : StoreEntry := ⟨0, 0, 0, 0x8_0000, [1], some (.near, .hbm 0), .plain, 0, 0⟩
     let s := wg.setMyCore { wg.myCore with sbuf := [e] }
     (s.core ⟨0, 2⟩).sbuf = e :: [] ∧ s.tlb? 0 0 0x8_0000 = some ⟨0, true, 8, 0, 0, 0⟩ ∧ s.sideHas 0 0 0x8_0000 = false ∧ e.form = .plain ∧ s.routeDown 0 = false ∧ s.peerRefused 0 true = false ∧
      s.bankOff 0 = false) ∧
    (let r : Reply := ⟨0, .cat 7, .int 9, true, none, none⟩
     let s := wc fun c => { c with replies := [r] }
     (s.core ⟨0, 2⟩).replies = r :: [] ∧ (s.core ⟨0, 2⟩).repack = none ∧ (s.deliver ⟨0, 2⟩ r).isSome = true) ∧
    (let i : Instr := .feLdf he (.cat 7) (.cat 6) 0 .thr
     let w : WaitRec := ⟨i, 0x2000, 0, 0, 0, none, .retry 10 (localKey 0 0x4000), none, [], none, false, none, []⟩
     let s := wt fun x => { x with st := .waiting, wait := some w }
     s.me.wait = some w ∧ ((next i s).map fun z => (z.me.wait.map (·.why), z.cur)) = some (some .reply, s.cur)) ∧
    (let v : VaultWrite := ⟨0, none, capBase, [], [], []⟩
     ({ w0 with vwrites := [v] } : State).fencedOff v = false) ∧
    (let r : Reflection := ⟨0, 0, 0x8_0000, 0, 0, [1], [], []⟩
     ({ w0 with reflections := [r] } : State).reflections = [r] ∧ r.va = 64 * 0x2000) := by decide

/-- A word at the end of local memory, one in a global granule, and a store buffer with two entries of room. -/
theorem witness_StoreFrame :
    (let s := wt fun x => { x with names := names0.set 6 0x7_FFFC }
     Passes s (.stW hb (.cat 3) (.cat 6) 0) hb [.cat 6, .cat 3] [] ∧ Fits s (.cat 3) 4 ∧ Local (((s.me.name 6).toNat : Int) + (0 : BitVec 32).toInt) 4 0x7_FFFC ∧
      s.boardAny s.cur.tile 0x7_FFFC 4 = false ∧ s.merges (localKey s.cur.tile 0x7_FFFC) 4 = false) ∧
    (Passes wg (.stW hb (.cat 3) (.cat 6) 0) hb [.cat 6, .cat 3] [] ∧ wg.window wg.me (((wg.me.name 6).toNat : Int) + (0 : BitVec 32).toInt) = .glob 0x8_0000 ∧
      (0x8_0000 : Int) % 4 = 0 ∧ wg.myCore.sbuf.length + 2 ≤ 64 ∧ wg.portHeld = false ∧ wg.me.wait = none ∧ wg.latent = [] ∧
      (wg.setMyCore { wg.myCore with sbuf := List.replicate 62 ⟨0, 0, 0, 2 ^ 40, [1], none, .plain, 0, 0⟩ }).myCore.sbuf.length + 2 ≤ 64) := by
  refine ⟨⟨⟨by decide, by decide⟩, by unfold Fits; decide, ⟨by decide, by decide, by decide⟩, by decide, by decide⟩, ⟨by decide, by decide⟩, by decide, by decide, by decide,
    by decide⟩

/-- A push with room, one that spills, one beyond 96 records, a pop, and a pop of nothing; waits with neighbours and without. -/
theorem witness_Tasks :
    Passes w0 (.taskSpawn hb (.cat 6) (.cat 9)) hb [.cat 6, .cat 9] [] ∧ Target 0x4000 ∧ w0.myCore.dqHas = false ∧ w0.myCore.dq.length < 32 ∧
    (let c : Core := { core0 with dq := List.replicate 32 ⟨4, 0⟩, scnt := 63, dqOwner := some 0 }
     32 ≤ c.dq.length ∧ c.scnt < 64 ∧ c.dqOwner = some w0.myKernel.sb) ∧
    Passes w0 (.taskPop hb (.cat 7)) hb [] [.cat 7] ∧ w0.argDst (.cat 7) = true ∧ w0.myCore.dq = [] ∧ w0.myCore.scnt = 0 ∧
    Passes wq (.taskSteal hb (.cat 7)) hb [] [.cat 7] ∧ wq.victims wq.cur [.n, .e, .s, .w] ≠ [] ∧ w0.victims w0.cur [.n, .e, .s, .w] = [] ∧
    Passes w0 (.taskPark hb (.cat 7)) hb [] [.cat 7] ∧ Passes w0 (.taskTour hb) hb [] [] ∧ w0.tour? 0 0 = none ∧
    Passes w0 (.taskDone hb (.cat 7)) hb [] [.cat 7] := by
  refine ⟨⟨by decide, by decide⟩, ⟨by decide, by decide, by decide⟩, by decide, by decide, by decide, ⟨by decide, by decide⟩, by decide, by decide, by decide,
    ⟨by decide, by decide⟩, by decide, by decide, ⟨by decide, by decide⟩, ⟨by decide, by decide⟩, by decide, ⟨by decide, by decide⟩⟩

/-- A request served, a reply received, a parked thread with a record of its own; a tour's rounds, from the armed root to the finish. -/
theorem witness_StealsAndTours :
    (let m : StealMsg := ⟨⟨1, 2, 0⟩, .w, 0, none, false⟩
     let s := wq (g := fun t => { t with cores := t.cores.set 2 { core0 with stealMsgs := [m], dq := [⟨4, 9⟩], dqOwner := some 0 } })
     (s.core ⟨0, 2⟩).stealMsgs = [m] ∧ m.arrive ≤ s.cycle ∧ (s.core ⟨0, 2⟩).dqUsed ≤ s.cycle ∧ s.mayServe ⟨0, 2⟩ m.thief = true ∧
      (s.core ⟨0, 2⟩).scnt = 0 ∧ (s.core ⟨0, 2⟩).dq = ⟨4, 9⟩ :: [] ∧ m.thief.coreRef ≠ ⟨0, 2⟩) ∧
    (let m : StealMsg := ⟨⟨0, 2, 0⟩, .w, 0, some ⟨4, 9⟩, true⟩
     let s := w0.setMyCore { core0 with stealMsgs := [m], threads := core0.threads.set 0 { th0 with st := .parked, wait := some park0 } }
     (s.core ⟨0, 2⟩).stealMsgs = [m] ∧ m.arrive ≤ s.cycle ∧ (s.core ⟨0, 2⟩).repack = none ∧ (s.thread ⟨0, 2, 0⟩).wait = some park0 ∧
      park0.why = .steal [] ∧ park0.taskWait = some (.cat 7, 0x2000, 4)) ∧
    (let s := w0.setMyCore { core0 with dq := [⟨4, 9⟩], dqOwner := some 0, threads := core0.threads.set 0 { th0 with st := .parked, wait := some park0 } }
     (s.thread ⟨0, 2, 0⟩).st = .parked ∧ s.stealing ⟨0, 2, 0⟩ = false ∧ (s.core ⟨0, 2⟩).dqOwner = some (s.kernel ⟨0, 2, 0⟩).sb ∧
      (s.core ⟨0, 2⟩).dqUsed ≤ s.cycle ∧ (s.core ⟨0, 2⟩).dq = [] ++ [⟨4, 9⟩]) ∧
    (let core : Core := { core0 with threads := Vector.replicate 8 { th0 with st := .parked, wait := some park0 } }
     let st : Option (Nat × Bool × Nat) → Option (Nat × Nat) → State := fun tok fin =>
       let s := wq (f := fun g => { g with gw := 1, tours := [⟨0, true, tok, fin, false⟩] })
       (s.setCore ⟨0, 2⟩ core).setCore ⟨1, 2⟩ core
     ((st none none).toursAt ⟨0, 2⟩).map (fun p => (p.1, p.2.2.2)) = [(0, kn0)] ∧ ((st none none).ring { gang0 with gw := 1 }) = [0, 1] ∧
      (st none none).passive ⟨0, 2⟩ kn0 = true ∧ (st (some (1, false, 0)) none).passive ⟨1, 2⟩ kn0 = true ∧
      ((st (some (1, false, 0)) none).toursAt ⟨1, 2⟩).map (fun p => (p.1, p.2.2.2)) = [(0, kn0)] ∧
      ((st (some (2, false, 0)) none).core ⟨0, 2⟩).tourFlag = false ∧ ((st none (some (1, 0))).core ⟨1, 2⟩).repack = none) := by decide

/-- An open phase, one at which the thread has arrived, a completed one, and phases that complete. -/
theorem witness_BarrierInstructions :
    w0.barOk .crew = true ∧ w0.stage = none ∧ Passes w0 (.barArrive he (.cat 7) .crew) he [] [.cat 7] ∧ Passes w0 (.barSync he (.cat 7) .gang) he [] [.cat 7] ∧
    w0.oneDst (.cat 7) = true ∧ w0.me.arrived .crew (w0.barP 0 .crew) = false ∧
    (let s := wt fun x => { x with crewArr := some (0, 0) }
     s.me.arrived .crew (s.barP 0 .crew) = true) ∧
    Passes w0 (.barWait he (.cat 3) .crew) he [.cat 3] [] ∧ phaseDone (w0.barP 0 .crew) (BitVec.ofInt 32 (-1)) = true ∧
    Passes w0 (.barDone hb (.cat 6)) hb [.cat 6] [] ∧ w0.sampling w0.cur = false ∧ Passes w0 (.barStat he (.cat 6) .crew) he [.cat 6] [] ∧
    (0x4000 : Int) % 8 = 0 ∧ (0x4000 : Int) ≤ 0x7_FE00 ∧
    (let t : Thread := { th0 with st := .halted, haltCyc := 0 }
     let core : Core := { core0 with threads := (Vector.replicate 8 t).set 0 { th0 with st := .waiting, crewArr := some (0, 0), gangArr := some (0, 0) } }
     let s : State := { (wq (g := fun x => { x with cores := x.cores.set 2 core })) with cycle := 1 }
     s.allArrived 0 .crew = some 0 ∧ s.allArrived 0 .gang = some 0 ∧ 0 < s.cycle ∧ (s.tile 0).crewStat = [] ∧ (s.tile 0).gang = some 0) := by
  refine ⟨by decide, by decide, ⟨by decide, by decide⟩, ⟨by decide, by decide⟩, by decide, by decide, by decide, ⟨by decide, by decide⟩, by decide,
    ⟨by decide, by decide⟩, by decide, ⟨by decide, by decide⟩, by decide, by decide, by decide⟩

/-- A free, an open and a done group; a member that has posted and one that posts. -/
theorem witness_GroupInstructions :
    (let s := (wq).setMe { w0.me with names := names0.set 6 (BitVec.ofNat 528 (63 + 64 * 2 ^ 8 + 64 * 2 ^ 16 + 65535 * 2 ^ 24)) }
     s.me.vg = .solo ∧ Passes s (.grpOpen hb (.cat 6)) hb [.cat 6] [] ∧ s.groupSt s.myKernel.gang 63 = .free) ∧
    (let o : Group := ⟨3, .done, ⟨0, 2, 0⟩, 1, 1, 0, 0, [], [], none, 0, false, false, 0⟩
     let s : State := { (wq (f := fun g => { g with groups := [o] })) with cycle := 1 }
     s.group? s.myKernel.gang 3 = some o ∧ o.opener = s.cur ∧ o.combined < s.cycle ∧ s.members s.myKernel.gang 3 = [] ∧
      Passes s (.grpClose hb (.cat 8)) hb [.cat 8] [] ∧ Passes s (.grpStat hb (.cat 7) (.cat 8)) hb [.cat 8] [.cat 7] ∧ s.oneDst (.cat 7) = true) ∧
    (let o : Group := ⟨3, .opened, ⟨0, 2, 0⟩, 1, 1, 0, 0, [], [], none, 0, false, false, 0⟩
     let s := wq (f := fun g => { g with groups := [o] })
     s.group? s.myKernel.gang 3 = some o ∧ Passes s (.grpCancel hb (.cat 8)) hb [.cat 8] [] ∧ Passes s (.grpFork hb (.cat 2) (.cat 8)) hb [.cat 8] [.cat 2] ∧
      s.me.rsCnt = 0 ∧ s.me.gmV = false ∧ s.me.bad = [] ∧ s.myCore.unitBusy s.cur.h s.mySeq = false ∧ (s.ent (.cat 2)).mode ≠ .trap ∧
      ∃ ds s2 t, s.draws 0 s = .ok (ds, s2) ∧ s.writeIndex (.grpFork hb (.cat 2) (.cat 8)) (.cat 2) (indexVal (.cat 2) (s.ent (.cat 2)) (ds.getD 0 0) 0) s2 = .ok t) ∧
    (let o : Group := ⟨3, .done, ⟨0, 2, 0⟩, 1, 1, 0, 0, [(0, 0)], [], none, 0, false, false, 0⟩
     let s : State := { (wq (f := fun g => { g with groups := [o] })).setMe { w0.me with gmV := true, gmGid := 3, posted := some 0, adv := 0x3F80_0000 } with cycle := 1 }
     s.me.gmGid.toNat = 3 ∧ s.me.posted.isSome = true ∧ s.groupSt s.myKernel.gang 3 = .done ∧ s.waitKind (.cat 11) false = true ∧
      s.waitKind (.cat 7) true = true ∧ Passes s (.grpWait hb (.cat 11) (.cat 8)) hb [.cat 8] [.cat 11] ∧
      Passes s (.grpWaitFf he (.cat 7) (.cat 8)) he [.cat 8] [.cat 7]) ∧
    (let o : Group := ⟨3, .forked, ⟨0, 2, 0⟩, 2, 2, 0, 0, [], [], none, 0, false, false, 0⟩
     let s := (wq (f := fun g => { g with groups := [o] })).setMe { w0.me with gmV := true, gmGid := 3 }
     Passes s (.grpReward hb (.cat 11)) hb [.cat 11] [] ∧ (s.ent (.cat 11)).kind.isFloat = true ∧ s.group? s.myKernel.gang s.me.gmGid.toNat = some o ∧
      s.me.posted = none ∧ o.posts.length + 1 < o.q ∧
      (let x : Src := ⟨s.ent (.cat 11), (s.me.name 11).toNat⟩
       (FF.f32.round .rne 0 x.real.x).isFin = true ∧ FF.f32.beyond (FF.f32.round .rne 0 x.real.x) = false)) := by
  refine ⟨⟨by decide, ⟨by decide, by decide⟩, by decide⟩, ⟨by decide, by decide, by decide, by decide, ⟨by decide, by decide⟩, ⟨by decide, by decide⟩, by decide⟩,
    ⟨by decide, ⟨by decide, by decide⟩, ⟨by decide, by decide⟩, by decide, by decide, by decide, by decide, by decide, _, _, _, rfl, rfl⟩,
    ⟨by decide, by decide, by decide, by decide, by decide, ⟨by decide, by decide⟩, ⟨by decide, by decide⟩⟩,
    ⟨by decide, by decide⟩, by decide, by decide, by decide, by decide, by decide, by decide⟩

/-- A timeout that falls due, a fork's copy that has arrived, and a resize at its end. -/
theorem witness_GroupAndRepackSteps :
    (let o : Group := ⟨3, .forked, ⟨0, 2, 0⟩, 2, 1, 1, 0, [(0, 0)], [], some 0, 0, false, false, 0⟩
     let s := wq (f := fun g => { g with groups := [o] })
     s.group? 0 3 = some o ∧ o.due = some 0 ∧ 0 ≤ s.cycle ∧ s.frozenGang 0 = false) ∧
    (let f : ForkCopy := ⟨[], [], 0, .cat 2, .int 1, 0, 0⟩
     let s := wt fun x => { x with forkIn := some f }
     (s.thread s.cur).forkIn = some f ∧ (s.core s.cur.coreRef).unitBusy s.cur.h f.seq = false ∧ f.arrive ≤ s.cycle) ∧
    (let p : Repack := ⟨.resize 2 16 .wrap, true, 0, 0x2000, 0, 0, [(0, .ready)], []⟩
     let s := w0.setMyCore { core0 with repack := some p, threads := core0.threads.set 0 { th0 with st := .frozen } }
     (s.core ⟨0, 2⟩).repack = some p ∧ p.begun = true ∧ p.held = [] ∧ p.done ≤ s.cycle ∧ (s.core ⟨0, 2⟩).kernels.find? (fun x => x.sb == p.sb) = some kn0 ∧
      p.frozen.find? (fun x => x.1 == 0) = some (0, .ready) ∧ (s.core ⟨0, 2⟩).threads[0].st = .frozen ∧
      (∀ h ∈ kn0.hthreads, ((s.core ⟨0, 2⟩).threads[h]).bad = []) ∧ 2 < (s.core ⟨0, 2⟩).threads[0].names.length) := by decide

/-- Lanes of 16 bits that fit, one lane serving four, and a lane that traps. -/
theorem witness_IntegerLaneInstructions :
    (∃ (s : State) (i : Instr) (h : Hdr) (d : NameRef) (fs : List NameRef) (w : LaneW) (f : (Nat → Int) → Int), intLane i = some (h, d, fs, w, f) ∧
      Passes s i h fs [d] ∧ ilaneCount (s.ent d) (laneBits w) ≠ 0 ∧
      (∀ n ∈ fs, ilaneCount (s.ent n) (laneBits w) = ilaneCount (s.ent d) (laneBits w) ∨ ilaneCount (s.ent n) (laneBits w) = 1) ∧
      ∃ xs s1 t, s.readAll i h fs s = .ok (xs, s1) ∧ s.writeLanes i d (laneBits w) ((List.range (ilaneCount (s.ent d) (laneBits w))).map fun j =>
        f fun k => pick 0 ((xs.map fun x => x.lanes (laneBits w)).getD k []) j) s1 = .ok t) ∧
    laneTraps (w0.ent (.cat 4)) 8 128 ∧ ¬ laneTraps (w0.ent (.cat 4)) 8 127 :=
  ⟨⟨w0, .vecMac he (.cat 9) (.cat 9) (.cat 10) .l16, _, _, _, _, _, rfl, ⟨by decide, by decide⟩, by decide, by decide, _, _, _, rfl, rfl⟩,
    ⟨by decide, by decide⟩, fun h => absurd h.1 (by decide)⟩

theorem witness_FloatLanes : ∃ (s : State) (i : Instr) (h : Hdr) (d : NameRef) (fs : List NameRef) (g : LaneF) (r : Rnd) (lat : Nat)
    (f : RMode → (Nat → FVal) → XVal), fltLane i = some (h, d, fs, g, r, lat, f) ∧ Passes s i h fs [d] ∧ flaneCount (s.ent d) (laneFF g) ≠ 0 ∧
    (∀ n ∈ fs, flaneCount (s.ent n) (laneFF g) = flaneCount (s.ent d) (laneFF g) ∨ flaneCount (s.ent n) (laneFF g) = 1) ∧
    ∃ xs s1 t, s.readAll i h fs s = .ok (xs, s1) ∧ s.writeFlanes i d (laneFF g) r .each ((List.range (flaneCount (s.ent d) (laneFF g))).map fun j =>
      f (rmodeOf r (s.ent d)) fun k => pick .nan ((xs.map fun x => x.flanes (laneFF g)).getD k []) j) s1 = .ok t ∧
      s.writesNow lat = true ∧ s.writesNow 16 = false ∧ (wran i).writesNow 16 = true :=
  ⟨w0, .vecfAdd hb (.cat 11) (.cat 11) (.cat 12) .f32 .attr, _, _, _, _, _, _, _, rfl, ⟨by decide, by decide⟩, by decide, by decide, _, _, _, rfl, rfl, by decide, by decide,
    by decide⟩

/-- A sum of integer lanes, a largest floating lane, an index and the prefix sums. -/
theorem witness_Reductions :
    (∃ (s : State) (i : Instr) (h : Hdr) (d a : NameRef) (w : LaneW) (r : Rnd) (f : List Int → Int), intRed i = some (h, d, a, w, r, f) ∧ Passes s i h [a] [d] ∧
      ilaneCount (s.ent a) (laneBits w) ≠ 0 ∧ s.oneDst d = true ∧ ∃ x s1 t, s.read i h a s = .ok (x, s1) ∧
        s.writeRnd i d r (f (x.lanes (laneBits w))) s1 = .ok t) ∧
    (∃ (s : State) (i : Instr) (h : Hdr) (d a : NameRef) (g : LaneF) (r : Rnd) (f : RMode → List FVal → FVal), fltRed i = some (h, d, a, g, r, f) ∧
      Passes s i h [a] [d] ∧ flaneCount (s.ent a) (laneFF g) ≠ 0 ∧ flaneCount (s.ent d) (laneFF g) ≠ 0 ∧ s.oneDst d = true ∧
      ∃ x s1 t, s.read i h a s = .ok (x, s1) ∧ s.writeFlanes i d (laneFF g) r .usual [(f (rmodeOf r (s.ent d)) (x.flanes (laneFF g))).x] s1 = .ok t) ∧
    (∃ t, Passes w0 (.vredArgmax he (.cat 7) (.cat 9) .l16 .b16 true .attr) he [.cat 9] [.cat 7] ∧ flaneCount (w0.ent (.cat 9)) (laneFF .b16) ≠ 0 ∧
      w0.writeRnd (.vredArgmax he (.cat 7) (.cat 9) .l16 .b16 true .attr) (.cat 7) .attr
        (fArgmax ((⟨w0.ent (.cat 9), (w0.me.name 9).toNat⟩ : Src).flanes (laneFF .b16))) w0 = .ok t) ∧
    Passes w0 (.vredScan he (.cat 10) (.cat 9) .l16 .f32 false .attr) he [.cat 9] [.cat 10] ∧ ilaneCount (w0.ent (.cat 9)) (laneBits .l16) ≠ 0 ∧
    ilaneCount (w0.ent (.cat 10)) (laneBits .l16) = ilaneCount (w0.ent (.cat 9)) (laneBits .l16) ∧
    Passes w0 (.vredScan he (.cat 10) (.cat 9) .l16 .b16 true .attr) he [.cat 9] [.cat 10] ∧
    flaneCount (w0.ent (.cat 10)) (laneFF .b16) = flaneCount (w0.ent (.cat 9)) (laneFF .b16) :=
  ⟨⟨w0, .vredSum he (.cat 7) (.cat 9) .l16 .f32 false .attr, _, _, _, _, _, _, rfl, ⟨by decide, by decide⟩, by decide, by decide, _, _, _, rfl, rfl⟩,
    ⟨w0, .vredMax he (.cat 11) (.cat 12) .l16 .f32 true .attr, _, _, _, _, _, _, rfl, ⟨by decide, by decide⟩, by decide, by decide, by decide,
      _, _, _, rfl, rfl⟩,
    ⟨_, ⟨by decide, by decide⟩, by decide, rfl⟩, ⟨by decide, by decide⟩, by decide, by decide, ⟨by decide, by decide⟩, by decide⟩

theorem witness_LaneMoves :
    Passes w0 (.vmovMov hb (.cat 14) (.cat 15)) hb [.cat 15] [.cat 14] ∧
    (∃ (s : State) (i : Instr) (h : Hdr) (d a b : NameRef) (la w : Nat) (ix : Src → Nat → Int), laneMove i = some (h, d, a, b, la, w, true, ix) ∧
      Passes s i h [a, b] [d] ∧ ilaneCount (s.ent d) w ≠ 0 ∧ ilaneCount (s.ent a) la ≠ 0 ∧ ilaneCount (s.ent b) w = ilaneCount (s.ent d) w ∧
      ∃ x s1 y s2 t, s.read i h a s = .ok (x, s1) ∧ s.read i h b s1 = .ok (y, s2) ∧ s.writeLanes i d w ((List.range (ilaneCount (s.ent d) w)).map fun j =>
        if 0 ≤ ix y j ∧ ix y j < (x.lanes la).length then (x.lanes la).getD (ix y j).toNat 0 else 0) s2 = .ok t) ∧
    (Passes w0 (.vmovPack he (.cat 9) (.cat 0) (.cat 1) .l16) he [.cat 0, .cat 1] [.cat 9] ∧ ilaneCount (w0.ent (.cat 9)) 8 ≠ 0 ∧
      ilaneCount (w0.ent (.cat 0)) 16 ≠ 0 ∧ ilaneCount (w0.ent (.cat 0)) 16 + ilaneCount (w0.ent (.cat 1)) 16 ≤ ilaneCount (w0.ent (.cat 9)) 8) ∧
    (portDir (.fixed .portE) = some .e ∧ Passes (wq) (.vmovSend hb (.fixed .portE) (.cat 15)) hb [.cat 15] [.fixed .portE] ∧ (wq).neighbourIn .e = true ∧
      ((wq).outbound .e).length + (((wq).ent (.cat 15)).width + 63) / 64 ≤ 16) ∧
    (let s := w0.setInbound .e [1, 2, 3, 4, 5, 6, 7, 8]
     Passes s (.vmovRecv hb (.cat 15) (.fixed .portE)) hb [] [.fixed .portE, .cat 15] ∧ ((s.ent (.cat 15)).width + 63) / 64 ≤ (s.inbound .e).length) :=
  ⟨⟨by decide, by decide⟩, ⟨w0, .vmovPerm he (.cat 9) (.cat 9) (.cat 10) .l16, _, _, _, _, _, _, _, rfl, ⟨by decide, by decide⟩, by decide, by decide, by decide,
      _, _, _, _, _, rfl, rfl, rfl⟩,
    ⟨⟨by decide, by decide⟩, by decide, by decide, by decide⟩, ⟨by decide, ⟨by decide, by decide⟩, by decide, by decide⟩, ⟨by decide, by decide⟩, by decide⟩

theorem witness_Checks :
    Passes w0 (.chkAcc he (.cat 6) (.cat 9) .l16 false) he [.cat 9, .cat 6] [] ∧ w0.chkDst (.cat 6) = true ∧
    Passes w0 (.chkTest hb (.cat 0) (.cat 1)) hb [.cat 0, .cat 1] [] ∧ Passes w0 (.chkClr hb (.cat 6)) hb [] [.cat 6] :=
  ⟨⟨by decide, by decide⟩, by decide, ⟨by decide, by decide⟩, ⟨by decide, by decide⟩⟩

/-- Conversions of one lane; a NaN in mode `trap`; and granules quantised, read and rescaled. -/
theorem witness_Conversions :
    (∃ t, laneConv w0 (.cvtItof he (.cat 11) (.cat 0) .l32 .f32 .rtz) = some (he, .cat 11, .cat 0, 1, fun x => (x.lanes (laneBits .l32)).map FVal.int, .f32, .rtz) ∧
      Passes w0 (.cvtItof he (.cat 11) (.cat 0) .l32 .f32 .rtz) he [.cat 0] [.cat 11] ∧ flaneCount (w0.ent (.cat 11)) (laneFF .f32) = 1 ∧
      w0.writeFlanes (.cvtItof he (.cat 11) (.cat 0) .l32 .f32 .rtz) (.cat 11) (laneFF .f32) .rtz .plain [(FVal.int 7).x] w0 = .ok t) ∧
    (let i : Instr := .cvtFtoi he (.cat 0) (.cat 11) .f32 .l32 .rtz
     Passes w0 i he [.cat 11] [.cat 0] ∧ ilaneCount (w0.ent (.cat 0)) (laneBits .l32) = 1 ∧ flaneCount (w0.ent (.cat 11)) (laneFF .f32) = 1 ∧
      (∃ v, (⟨w0.ent (.cat 11), (w0.me.name 11).toNat⟩ : Src).flanes (laneFF .f32) = [v] ∧ v ≠ .nan ∧
        r69 .sint 32 .wrap ((v.x.toInt (rmodeOf .rtz (w0.ent (.cat 0))) 0).getD 0) = some 1)) ∧
    (let s := wt fun x => { x with names := names0.set 11 0x7FC0_0000 }
     ilaneCount (s.ent (.cat 4)) (laneBits .l8) = 1 ∧ (s.ent (.cat 4)).mode = .trap ∧
      (⟨s.ent (.cat 11), (s.me.name 11).toNat⟩ : Src).flanes (laneFF .f32) = [.nan] ∧
      Passes s (.cvtFtoi he (.cat 4) (.cat 11) .f32 .l8 .rtz) he [.cat 11] [.cat 4] ∧ (s.ent (.cat 0)).mode ≠ .trap ∧
      Passes s (.cvtFtoi he (.cat 0) (.cat 11) .f32 .l32 .rtz) he [.cat 11] [.cat 0] ∧
      (⟨s.ent (.cat 11), 0xFF80_0000⟩ : Src).flanes (laneFF .f32) = [.inf true]) ∧
    Passes w0 (.cvtRound he (.cat 11) (.cat 12) .f32 .rtz) he [.cat 12] [.cat 11] ∧ rmodeOf .rtz (w0.ent (.cat 11)) ≠ .rst ∧
    (let i : Instr := .cvtQuant he (.cat 13) (.cat 14) (.cat 15) (.fixed .zero) .f32 false .attr
     Passes w0 i he [.cat 14, .cat 15, .fixed .zero] [.cat 13] ∧
      quantFits (w0.ent (.cat 13)) (flaneCount (w0.ent (.cat 14)) (laneFF .f32) + flaneCount (w0.ent (.cat 15)) (laneFF .f32)) = true ∧
      (∃ ds z, w0.drawsFor .rne (quantMask (w0.ent (.cat 13)) (.fixed .zero) 0 false []) w0 = .ok (ds, z)) ∧ QCount.zero.trips 0 = false ∧
      ({ QCount.zero with clip := 1 } : QCount).trips 0x1_0000_0000 = true) ∧
    (let e : NameEnt := ⟨288, .g4, .wrap, .rne, .none⟩
     quantFits e 64 = true ∧ quantFits (uint 528) 5 = true ∧ dequantCount (.cat 0) e = 64 ∧ dequantCount (.cat 0) (sint 528) = 64) ∧
    (let i : Instr := .cvtDequant hb (.cat 9) (.cat 13) (.fixed .zero) .f32 0 .attr
     Passes w0 i hb [.cat 13, .fixed .zero] [.cat 9] ∧ flaneCount (w0.ent (.cat 9)) (laneFF .f32) ≠ 0 ∧
      ((0 : BitVec 2).toNat + 1) * flaneCount (w0.ent (.cat 9)) (laneFF .f32) ≤ dequantCount (.cat 13) (w0.ent (.cat 13))) ∧
    Passes w0 (.cvtScale hb (.cat 13) (.cat 13) (.cat 8) .attr) hb [.cat 13, .cat 8] [.cat 13] :=
  ⟨⟨_, rfl, ⟨by decide, by decide⟩, by decide, rfl⟩, ⟨⟨by decide, by decide⟩, by decide, by decide, _, rfl, by decide, by decide⟩,
    ⟨by decide, by decide, by decide, ⟨by decide, by decide⟩, by decide, ⟨by decide, by decide⟩, by decide⟩, ⟨by decide, by decide⟩, by decide,
    ⟨⟨by decide, by decide⟩, by decide, ⟨_, _, rfl⟩, by decide, by decide⟩, by decide, ⟨⟨by decide, by decide⟩, by decide, by decide⟩, ⟨by decide, by decide⟩⟩

/-- The last position of a stream and the first; a request slot; weights that are all 0, and a count of 0. -/
theorem witness_RandomAndSampler :
    Passes w0 (.smpSeed hb (.cat 6) (.cat 8)) hb [.cat 6, .cat 8] [] ∧ (∃ ds s1, w0.draws 1 w0 = .ok (ds, s1)) ∧
    Passes w0 (.smpRand hb (.cat 7) (.fixed .zero)) hb [.fixed .zero] [.cat 7] ∧ w0.intDst (.cat 7) = true ∧
    Passes w0 (.smpRand hb (.cat 7) (.cat 8)) hb [.cat 8] [.cat 7] ∧ Passes w0 (.smpPos hb (.cat 7)) hb [] [.cat 7] ∧ w0.me.rpos.toNat < 2 ^ 40 - 1 ∧
    (wt fun x => { x with rpos := 0xFF_FFFF_FFFF }).me.rpos.toNat = 2 ^ 40 - 1 ∧
    (let s := wc fun c => { c with smp := true, threads := c.threads.set 7 { Thread.fresh with smpb := 0x1FDF } }
     Passes s (.smpStop hb (.cat 8) (.cat 15)) hb [.cat 8, .cat 15] [] ∧ 32 ≤ (s.ent (.cat 15)).width ∧ s.myBlock.isSome = true) ∧
    (let s := wt fun x => { x with names := (names0.set 6 (BitVec.ofNat 528 (0x4000 + 2 ^ 35 * 2 + 2 ^ 53))).set 8 (BitVec.ofNat 528 (2 ^ 32 - 2)) }
     Passes s (.smpDraw hb (.cat 7) (.cat 6) (.cat 8)) hb [.cat 6, .cat 8] [.cat 7] ∧ (s.ent (.cat 7)).kind = .uint ∧ 35 ≤ (s.ent (.cat 7)).width ∧
      0x4000 + 2 * 2 ≤ 2 ^ 19 ∧ s.natAt (localKey 0 0x4000) 2 = 0 ∧ s.natAt (localKey 0 0x4002) 2 = 0 ∧ s.boardW 0 0x4000 4 = false) := by
  refine ⟨⟨by decide, by decide⟩, ⟨_, _, rfl⟩, ⟨by decide, by decide⟩, by decide, ⟨by decide, by decide⟩, ⟨by decide, by decide⟩, by decide, by decide,
    ⟨⟨by decide, by decide⟩, by decide, by decide⟩, ⟨by decide, by decide⟩, by decide, by decide, by decide, by decide, by decide, by decide⟩

/-- A follower's and a leader's `join`, an attached follower, a group that can form, and a forwarded instruction. -/
theorem witness_VectorGroups :
    (let s := wt fun x => { x with names := names0.set 6 0x40 }
     s.me.vg = .solo ∧ Passes s (.vmovJoin hb (.cat 6)) hb [.cat 6] [] ∧ joinDescOk 0x40 = true ∧ s.cur.core = 2 ∧ (0x40 : Nat).testBit 6 = true) ∧
    (let s := wt fun x => { x with vg := .attached }
     s.me.vg = .attached ∧ Passes s (.vmovJoin hb (.cat 6)) hb [] [] ∧ Passes s (.vmovLeave hb) hb [] []) ∧
    (let l : WaitRec := ⟨.vmovJoin hb (.cat 6), 0x2000, 0, 0, 0, none, .retry 20 2, none, [], none, false, none, []⟩
     let f : WaitRec := ⟨.vmovJoin hb (.cat 6), 0x2000, 0, 0, 0, none, .retry 20 0x40, none, [], none, false, none, []⟩
     let core : WaitRec → Core := fun w => { core0 with threads := core0.threads.set 0 { th0 with st := .waiting, wait := some w } }
     let s := ((wq (f := fun g => { g with gw := 1 })).setCore ⟨0, 2⟩ (core l)).setCore ⟨1, 2⟩ (core f)
     (s.thread ⟨0, 2, 0⟩).wait = some l ∧ (2 : Nat).testBit 6 = false ∧ s.claimed ⟨0, 2, 0⟩ ((2 : Nat).testBit 7) (2 % 32) = some [⟨1, 2, 0⟩] ∧
      (s.thread ⟨1, 2, 0⟩).wait = some f ∧ (s.thread ⟨1, 2, 0⟩).st = .waiting ∧ (s.thread ⟨1, 2, 0⟩).vg = .solo) := by
  refine ⟨⟨by decide, ⟨by decide, by decide⟩, by decide, by decide, by decide⟩, ⟨by decide, ⟨by decide, by decide⟩, ⟨by decide, by decide⟩⟩, by decide⟩

/-- An array instruction away from the arithmetic core, and one on it. -/
theorem witness_ArrayInstructions :
    (let s := { w0 with cur := ⟨0, 1, 0⟩ }.setCore ⟨0, 1⟩ core0
     mxCmd (.mxSwap hb) = some (hb, [], 2) ∧ nameBreach s.myKernel hb (.mxSwap hb) [] [] = none ∧ s.cur.core ≠ 2) ∧
    (mxCmd (.mxClear hb (.cat 6)) = some (hb, [.cat 6], 5) ∧ nameBreach w0.myKernel hb (.mxClear hb (.cat 6)) [.cat 6] [] = none ∧ w0.cur.core = 2 ∧
      w0.waitOk hb.wait = true ∧ ∃ xs s1, w0.readAll (.mxClear hb (.cat 6)) hb [.cat 6] w0 = .ok (xs, s1) ∧
        s1.myTile.board.length + (mxEntries s1.myTile.mx.cfg 5 (mxVal 5 xs 0) (mxVal 5 xs 1) s1.myCore.crect (.mx s1.cur.core s1.cur.h) s1.cycle).length ≤ 16) :=
  ⟨⟨rfl, by decide, by decide⟩, rfl, by decide, by decide, by decide, _, _, rfl, by decide⟩

/-- Every function at its end, under INT8 with one row of one column, and messages that may move. -/
theorem witness_ArraySteps :
    (∀ fn : Fin 6, Ends (wmx (mx0 fn.val 0x4000 0x6000) 0x0000_0101_0100_0001) 0 (mx0 fn.val 0x4000 0x6000)) ∧
    Memory.wf (wmx (mx0 5 0x4000 0x6000) 0x0000_0101_0100_0001).mem = true ∧ cfgFmt 0x0000_0101_0100_0001 = 1 ∧ inRect (mx0 3 0x4000 0x6000).rect = false ∧
    (let s := wmx (mx0 1 0x4000 0) 0x0000_0101_0100_0001
     s.ldstatPoison 0 (s.tile 0).mx.cfg 0x4000 = none ∧ s.streamPoison 0 (s.tile 0).mx.cfg (mx0 3 0x4000 0x6000) = none ∧
      s.blockPoison 0 0x4000 (cfgM (s.tile 0).mx.cfg) (accRow (s.tile 0).mx.cfg) (4 * cfgN (s.tile 0).mx.cfg) = none) ∧
    (let s0 := wmx (mx0 4 0x4000 0x6000) 0x0000_0101_0100_0001
     let s := (s0.setTile 0 { s0.tile 0 with mx := { (s0.tile 0).mx with notice := some (0x7000, 1) } }).setFull (localKey 0 0x7000) false
     (s.tile 0).mx.notice = some (0x7000, 1) ∧ s.full (localKey 0 0x7000) = false ∧ (s.thread (mxThread 0 (mx0 4 0x4000 0x6000))).st = .waiting) ∧
    (let s := (w0.setTile 1 { Tile.fresh with mx := { MxArray.fresh with west := [], east := [(0, .row [1])] } })
     tileNext 2 .w = some 1 ∧ (s.tile 1).mx.east = (0, .row [1]) :: [] ∧ (s.tile 2).mx.queue = []) ∧
    (let s := (w0.setTile 1 { Tile.fresh with mx := { MxArray.fresh with south := [(0, .row [1])] } })
     tileNext 65 .n = some 1 ∧ (s.tile 1).mx.south = (0, .row [1]) :: []) ∧
    (let s := (w0.setTile 1 { Tile.fresh with mx := { MxArray.fresh with east := [(0, .cfg 1 1 1 1 false)] } })
     (s.tile 1).mx.east = (0, .cfg 1 1 1 1 false) :: [] ∧ (s.tile 2).mx.queue = []) := by
  refine ⟨fun fn => ?_, by decide, by decide, by decide, by decide, by decide, by decide, by decide, by decide⟩
  exact ⟨rfl, ⟨0, rfl, Nat.le_refl 0⟩, rfl, rfl, rfl, rfl⟩

/-- A command in local memory, the last guard slot, sets, and the status. -/
theorem witness_EngineInstructions :
    (let s := w0.putBytes (localKey 0 0x4000) (copy0.flatMap fun w => bytesOfNat 8 w.toNat)
     let i : Instr := .engCopy hb (.cat 6)
     Passes s i hb [.cat 6] [] ∧ s.stage = none ∧ s.natAt (localKey 0 0x4000) 8 = 0x0113_0004_0000_0000 ∧ cmdLen 0x0113_0004_0000_0000 = 5 ∧
      0x4000 + 8 * (5 - 1) ≤ 0x7_FFF8 ∧ s.myCore.cbufUsed + 5 ≤ 32) ∧
    Passes w0 (.engGuard hb (.cat 0) (.cat 8)) hb [.cat 0, .cat 8] [] ∧ Passes w0 (.engUnveil hb (.cat 7) (.cat 8)) hb [.cat 8] [.cat 7] ∧
    Passes w0 (.engDiscard hb (.cat 7) (.cat 8)) hb [.cat 8] [.cat 7] ∧ w0.oneDst (.cat 7) = true ∧ Passes w0 (.engStatus hb (.cat 7)) hb [] [.cat 7] ∧
    w0.stage = none := by
  refine ⟨⟨⟨by decide, by decide⟩, by decide, by decide, by decide, by decide, by decide⟩, ⟨by decide, by decide⟩, ⟨by decide, by decide⟩, ⟨by decide, by decide⟩,
    by decide, ⟨by decide, by decide⟩, by decide⟩

/-- A command to accept and one that is refused; room for a header; a command before its follow-on, at its end and under a false guard; bursts; sets. -/
theorem witness_EngineSteps :
    (let b : CmdBuf := ⟨0, 5, copy0, 0, 0, 0, 0, 0⟩
     let s := w0.setCore ⟨0, 0⟩ { core0 with cbuf := [b], submitted := 1 }
     (s.core ⟨0, 0⟩).cbuf.find? (fun b => b.words.length == b.need) = some b ∧ cmdRole 0 copy0 = false ∧ cmdRefused 0 copy0 = false ∧
      (s.tile 0).board.length + (cmdEntries copy0 (.eng (engOf 0).val 0) s.cycle).length ≤ 16 ∧
      cmdRole 0 [0] = false ∧ cmdRefused 0 [0] = true ∧ s.statusRoom ⟨0, 0⟩ [0] 2 0 = true ∧ cmdSem [0] = none) ∧
    (let w : WaitRec := ⟨.engStatus hb (.fixed .portEng), 0x2000, 0, 0, 0, none, .retry 3 5, none, [], none, false, none, []⟩
     let s := w0.setMyCore { core0 with threads := core0.threads.set 0 { th0 with st := .waiting, wait := some w } }
     ((s.core ⟨0, 2⟩).threads[0]).wait = some w ∧ (s.core ⟨0, 2⟩).partialOf 0 = none ∧ (s.core ⟨0, 2⟩).cbufUsed + 5 ≤ 32) ∧
    (let s := weng (cmd0 copyFo 2)
     s.engHead 0 0 0 = some (cmd0 copyFo 2) ∧ cmdElems copyFo ≤ 2 ∧ cmdFo copyFo = true ∧ s.followOn 0 1 = none) ∧
    (let s := weng (cmd0 copy0 2)
     s.engHead 0 0 0 = some (cmd0 copy0 2) ∧ cmdElems copy0 = 2 ∧ cmdFo copy0 = false ∧ (cmd0 copy0 2).counts.trips 0 = false ∧ (cmd0 copy0 2).decided false = false ∧ cmdSem copy0 = none ∧
      s.statusRoom ⟨0, 0⟩ copy0 0 (2 * cmdOffE copy0) = true) ∧
    (let ws := (0x0113_0200_0000_0000 : Word64) :: copy0.tail
     let s0 := weng (cmd0 ws 0)
     let s := s0.setTile 0 { s0.tile 0 with guards := (s0.tile 0).guards.set 0 ⟨.fls, .fls, 0⟩ }
     let c : EngCmd := { cmd0 ws 0 with pass := some false }
     ((s.tile 0).decide 1 (cmd0 ws 0)).pass = some false ∧ c.decided false = true ∧ (weng c).engHead 0 0 0 = some c ∧ s.statusRoom ⟨0, 0⟩ ws 1 0 = true) ∧
    (let c := { cmd0 copy0 1 with stage := .ended 5 8 }
     (weng c).engHead 0 (engOf 0) 0 = some c ∧ (weng c).statusRoom ⟨0, 0⟩ copy0 5 8 = true ∧ (weng c).containable ⟨0, 0, 0⟩ = false) ∧
    (Memory.wf (weng (cmd0 copy0 1)).mem = true ∧ (weng (cmd0 copy0 1)).latent = [] ∧ cmdLocal copy0 1 = true ∧ cmdLocal copy0 2 = true ∧ elemAddr copy0 true 1 = 0x4008 ∧ elemAddr copy0 false 1 = 0x5008 ∧ cmdE copy0 = 8 ∧
      (weng (cmd0 copy0 1)).poisoned (localKey 0 0x4008) 8 = false) ∧
    (let s := weng (cmd0 copy0 0)
     (cmd0 copy0 0).decided true = true ∧ (cmd0 copy0 0).cyc < s.cycle ∧ s.shadowsVault (cmd0 copy0 0) = none ∧ boardClear (s.tile 0).board (.eng 0 0) s.cycle = true ∧ ((s.tile 0).eng[0]).rr = 0 ∧
      (s.moveElems ⟨0, 0, cmd0 copy0 0⟩ (burstLen copy0)).2.2 = none) ∧
    (let w : WaitRec := ⟨.engUnveil hb (.cat 7) (.cat 8), 0x2000, 0, 0, 0, none, .retry 24 3, none, [], none, false, none, []⟩
     let s := wt fun x => { x with st := .waiting, wait := some w }
     (s.thread s.cur).setWait = some ⟨true, hb, .cat 7, .cat 8, 3, 0, 0⟩ ∧ s.setTurn s.cur ⟨true, hb, .cat 7, .cat 8, 3, 0, 0⟩ = true) := by decide

/-- The checks that the three instructions pass on the way, one by one. -/
theorem witness_CapacityTables :
    (let i : Instr := .capGet hb (.cat 7) (.cat 6)
     ∃ x s1 s2 b s3 es s4 vs s5, Passes wcap i hb [.cat 6] [.cat 7] ∧ wcap.oneDst (.cat 7) = true ∧ wcap.read i hb (.cat 6) wcap = .ok (x, s1) ∧
      wcap.portCheck (.cat 7) s1 = .ok () ∧ x.val % 8 = 0 ∧ 0 ≤ x.val ∧ x.val + 31 ≤ 0x7_FFFF ∧ wcap.takeUnit i s1 = .ok s2 ∧
      (wcap.withUnit s2).capBlock i x.val s2 = .ok ((b, none), s3) ∧ b.listed = true ∧ (wcap.withUnit s2).capList i x.val.toNat b none s3 = .ok (es, s4) ∧
      (wcap.withUnit s2).capOut i x.val.toNat (b.list + 8 * b.nb) b true s4 = .ok () ∧ (wcap.withUnit s2).capTables i b s4 = .ok () ∧
      (wcap.withUnit s2).capGathered i b es s4 = .ok (vs, s5)) ∧
    (next (.capPool hb (.cat 7) (.cat 6)) (wcap.putLocalWord 0 0x4010 0x4110)).map (fun t => (t.myTile.capBusy, t.me.st, t.localWord 0 0x4200)) =
      some (none, .waiting, 0x4000_0000_3F80_0000) ∧
    (next (.capPut hb (.cat 7) (.cat 6)) wcap).map (fun t => (t.myTile.capBusy, t.me.st, t.natAt capBase 8)) = some (none, .waiting, 0x4000_0000_3F80_0000) ∧
    (Passes wcap (.capStat hb (.cat 7) (.cat 8)) hb [.cat 8] [.cat 7] ∧ w0.me.name 8 = 3) :=
  ⟨⟨_, _, _, _, _, _, _, _, _, ⟨by decide, by decide⟩, by decide, rfl, rfl, by decide, by decide, by decide, rfl, rfl, by decide, rfl, rfl, rfl, rfl⟩, by decide, by decide,
    ⟨by decide, by decide⟩, by decide⟩

/-- A buffer with nothing in it: its point, a scan of an empty place, a header, the trailer of a record of one word, and the last stage of both. -/
theorem witness_VaultRecords :
    (let i : Instr := .durPoint hb (.cat 7) (.cat 8)
     ∃ p, Passes wcap i hb [.cat 8] [.cat 7] ∧ wcap.vaultAt i 0 false 0x8_0000 wcap = .ok p ∧ wcap.bufBusy p.buf = false ∧ p.off = pointEnd (wcap.buffers[p.buf]).point) ∧
    Passes wcap (.durScan hb (.cat 7) (.cat 8)) hb [.cat 8] [.cat 7] ∧
    (let i : Instr := .durBegin hb (.cat 7) (.cat 8) (.cat 1)
     ∃ p, wcap.stage = none ∧ Passes wcap i hb [.cat 8, .cat 1] [.cat 7] ∧ wcap.vaultAt i 2 true 0x8_0000 wcap = .ok p ∧ wcap.bufBusy p.buf = false ∧ p.off = pointEnd (wcap.buffers[p.buf]).point ∧ p.pa % 2 ^ 16 + 8 * (5 + 3) ≤ 2 ^ 16) ∧
    (let s := wcap.putBytes capBase (bytesOfNat 8 (2 ^ 40 + 1))
     let i : Instr := .durCommit hb (.cat 7) (.cat 8)
     ∃ p s2 ws s3, s.stage = none ∧ Passes s i hb [.cat 8] [.cat 7] ∧ s.vaultAt i 2 true 0x8_0000 s = .ok p ∧ s.fenceOf i .recov s = .ok () ∧ s.bufBusy p.buf = false ∧
      s.recWords 0x8_0000 p 0 1 s = .ok ([2 ^ 40 + 1], s2) ∧ badHeader p.pa (2 ^ 40 + 1) = false ∧
      (2 ^ 40 + 1) / 2 ^ 40 = (pointSeq (s2.buffers[p.buf]).point + 1) % 2 ^ 24 ∧ p.off = pointEnd (s2.buffers[p.buf]).point ∧ s.recWords 0x8_0000 p 1 ((2 ^ 40 + 1) % 2 ^ 16 + 2) s2 = .ok (ws, s3)) ∧
    (let s := wt fun x => { x with st := .waiting, wait := some ⟨.durCommit hb (.cat 7) (.cat 8), 0x2000, 0, 0, 0, none, .retry 12 24, none, [], none, false, none, []⟩ }
     s.stage = some (12, 24) ∧ s.undurable = false) :=
  ⟨⟨_, ⟨by decide, by decide⟩, rfl, by decide, by decide⟩, ⟨by decide, by decide⟩, ⟨_, by decide, ⟨by decide, by decide⟩, rfl, by decide, by decide, by decide⟩,
    ⟨_, _, _, _, by decide, ⟨by decide, by decide⟩, rfl, rfl, by decide, rfl, by decide, by decide, by decide, rfl⟩, by decide⟩

theorem witness_CommandCompletion :
    (cm [0]).q < 16 ∧ hostCmd (.ident (cm [2 ^ 48])) = some (cm [2 ^ 48]) ∧ badWord0 (cm [2 ^ 48]) = true := by decide

/-- Every clause at an argument it admits: the last bytes of host memory, an image without sections, range 31, key 2047, the whole vault. -/
theorem witness_HostCommands :
    badWord0 (cm [5]) = false ∧ hostArg (cm [5, BitVec.ofNat 64 (2 ^ 49 - 4096)]) 1 + 4096 ≤ 2 ^ 49 ∧
    (let c := cm [5, 0x1000, 0x2000]
     hostArg c 1 + 48 ≤ 2 ^ 49 ∧ hostArg c 2 + 296 ≤ 2 ^ 49 ∧ hostArg c 1 + 384 ≤ 2 ^ 49 ∧ hostArg c 2 + 1024 ≤ 2 ^ 49) ∧
    (let s := wh.hostWrite 0 image0
     (s.loadOf (s.hostRead 0 128)).toOption.isSome = true ∧ (wh.loadOf (wh.hostRead 0 128)).toOption.isSome = false) ∧
    (let s := { wh with images := [im0] }
     s.image? (BitVec.ofNat 32 (5 * 2 ^ 32 / 2 ^ 32)) = some im0 ∧ s.launches = [] ∧ wh.image? 5 = none) ∧
    hostArg (cm [5, 31]) 1 = 31 ∧ hostArg (cm [5, 2047, 0]) 1 % 2 ^ 11 ≠ 0 ∧ State.reset.red = true ∧ wh.red = false ∧
    (let c := cm [5, 0, 524288]
     hostArg c 1 < 2 ^ 21 ∧ hostArg c 2 ≤ 524288 ∧ hostArg c 1 + hostArg c 2 ≤ 2 ^ 21 ∧ hostArg c 2 ≤ 1024 * wh.cfg.vmax ∧ wh.mapsVault 0 524288 = false ∧
      wh.mapsVault wh.vltbase.toNat wh.vltsize.toNat = false) ∧
    (hostArg (cm [5, 0, 0]) 1 + 384 ≤ 2 ^ 49 ∧ (hostArg (cm [5, 0, 0]) 2).testBit 63 = false ∧
      wh.movePoint ⟨0, by decide⟩ 0 = none) ∧
    (hostArg (cm [5, 63, 0]) 1 = 63 ∧ (hostArg (cm [5, 63, 0]) 2).testBit 63 = false) ∧
    (let s := { wh with fwSlots := wh.fwSlots.set 1 ⟨1, [0]⟩ }
     (s.slotOf (!s.fwAct)).image ≠ []) ∧
    (1000 ≤ hostArg (cm [5, 1000]) 1 % 2 ^ 16 ∧ hostArg (cm [5, 3200]) 1 % 2 ^ 16 ≤ wh.cfg.pmax ∧ hostArg (cm [5, 999]) 1 % 2 ^ 16 < 1000 ∧
      wh.cfg.pmax < hostArg (cm [5, 3201]) 1 % 2 ^ 16) ∧
    (wh.takeFaults ((List.range 20).map (fun k => k) ++ (List.range 20).map fun k => 32 + k) 16).1.length ≤ 16 * 16 ∧
    (let c := cm [5, 0, 16, 2 ^ 63, 0]
     let s := { wh with contexts := [ctx0] }
     (hostArg c 3).testBit 63 = true ∧ (hostArg c 3).testBit 62 = false ∧ (s.context? (fieldOf (hostArg c 3) 0 16)).isSome = true) ∧
    ((hostArg (cm [5, 0, 16, 2 ^ 62]) 3).testBit 62 = true ∧ hostArg (cm [5, 1000, 2 ^ 63 + 256]) 2 = 2 ^ 63 + 256 ∧
      hostArg (cm [5, 1000, 2 ^ 63 + 8193]) 2 = 2 ^ 63 + 8193) := by decide

/-- The version check of FWLOAD is met by a module that has committed none; either the signature of the bytes is valid or it is not. -/
theorem witness_FwLoad : ∀ bs : List Byte, wh.fwArb.toNat ≤ (Config.firmwareVersion bs).toNat ∧
    (Config.signatureValid bs = true ∨ Config.signatureValid bs = false) :=
  fun bs => ⟨Nat.zero_le _, by cases Config.signatureValid bs <;> simp⟩

theorem witness_ContextCommands :
    (let s := (wh.hostWrite 0x1000 (bytesOfNat 8 (2 ^ 63 + 2 ^ 60 + 8 * 2 ^ 16))).hostWrite 0x1008 (bytesOfNat 8 0)
     let c := cm [5, BitVec.ofNat 64 (64 * 2 ^ 16), 0, 0x1000, 0, 0, 0, 0]
     (s.contextOf c).toOption.isSome = true ∧ (wh.contextOf c).toOption.isSome = false ∧ badWord0 c = false) ∧
    (let s := { wh with contexts := [ctx0] }
     (s.context? (hostArg (cm [5, 0]) 1 % 2 ^ 16)).isSome = true ∧ s.launches = [] ∧ s.tiles = [] ∧ w0.tiles ≠ [] ∧ wh.context? 0 = none) ∧
    (let s := { wq with launches := [launch0] }
     s.launch? (BitVec.ofNat 64 (hostArg (cm [5, 7]) 1)) = some launch0 ∧ launch0.preCmd = [] ∧ (∃ g ∈ s.gangs, g.lid = 7) ∧ wh.launch? 7 = none) ∧
    (let s := { wh with saved := [saved0] }
     s.saved.find? (fun v => v.base == hostArg (cm [5, 0x10_0000]) 1 && !v.back) = some saved0) ∧
    (let s := { wh with images := [im0], contexts := [ctx0] }
     (s.launchOf (cm [5, BitVec.ofNat 64 (5 * 2 ^ 32), 0xFFFF_FFFF_FFFF_0000, 0xFFFF_FFFF_FFFF_FFFF])).toOption.isSome = true ∧
      (wh.launchOf (cm [5, BitVec.ofNat 64 (5 * 2 ^ 32)])).toOption.isSome = false) := by decide

/-- A ring with one entry, the offsets of the first and the last pair, and a trial with a commit of 1. -/
theorem witness_RingSteps :
    (let s := wh.modQueue 0 fun p => { p with qsize := 2, qstail := 1 }
     s.nextPair = some 0 ∧ commandOf 0x01 (cm []) = some (.ident (cm [])) ∧ commandOf 0x15 (cm []) = none) ∧
    (0x2000 + 0x40 * (15 : Fin 16).val + 0x28 < 2 ^ 20) ∧ (0x23FF < 0x2400 ∧ 0x1FFF < 0x2000) ∧ ({ wh with fwTrial := 1 } : State).fwTrial = 1 := by decide

/-- A record to write, a gang to start, rows and images to release, a status word, a launch complete, and one contained. -/
theorem witness_LaunchSteps :
    (let s := { wh with launches := [launch0], images := [im0], contexts := [ctx0] }
     s.launch? 7 = some launch0 ∧ s.saved = [] ∧ (s.nextRecord launch0 ⟨0, 0, 0, 0, 0, 0x10_0000⟩).isSome = true) ∧
    (let g : Gang := { gang0 with st := .loading }
     let s : State := { wq with gangs := [g] }
     s.gang? (64 * 0 + 0) = some g ∧ g.loaded s.cycle = true ∧ g.resume = none) ∧
    (let t : Thread := { th0 with st := .halted }
     let k : Nat → Kernel := fun n => { kn0 with phys := [0, 1], freed := n }
     let s : Nat → State := fun n => wq (g := fun z => { z with sent := [0], cores := z.cores.set 2 { core0 with kernels := [k n], threads := Vector.replicate 8 t } })
     ((s 0).core ⟨0, 2⟩).kernels.find? (fun x => (s 0).releasesNow ⟨0, 2⟩ x) = some (k 0) ∧ (k 0).freed + 1 < (k 0).phys.length ∧
      ((s 1).core ⟨0, 2⟩).kernels.find? (fun x => (s 1).releasesNow ⟨0, 2⟩ x) = some (k 1) ∧ (k 1).phys.length ≤ (k 1).freed + 1) ∧
    (let s := wq (g := fun z => { z with cores := z.cores.set 2 Core.fresh })
     (s.tile 0).image = some 0 ∧ (s.gang? 0).map (·.st) = some .live ∧ ∀ c : Fin 3, ((s.tile 0).cores[c]).kernels = []) ∧
    (let s := wq (g := fun z => { z with cores := z.cores.set 2 { core0 with threads := Vector.replicate 8 { th0 with st := .halted } } })
     (s.tile 0).gang = some gang0.id ∧ s.gang? gang0.id = some gang0 ∧ gang0.st = .live ∧ 0 < gang0.kerns.length ∧ (s.wordOf gang0 0 0).isSome = true) ∧
    (let g : Gang := { gang0 with gw := 1, gh := 1 }
     let t : Tile := { w0.tile 0 with gang := some 0, image := some 0 }
     let h : Tile := { t with cores := t.cores.set 2 { core0 with threads := Vector.replicate 8 { th0 with st := .halted } } }
     let s : StatusMsg → State := fun m => { w0 with gangs := [g], tiles := [(0, t), (1, h), (64, t), (65, h)], flying := [m], launches := [launch0] }
     let m : Nat × Nat → StatusMsg := fun p => ⟨7, 0, p, 0, 5, 0⟩
     (∀ p ∈ [(0, 0), (1, 0), (0, 1), (1, 1)], ((s (m p)).gangs.find? fun x => x.lid == (m p).lid && x.num == (m p).num && (x.st == .live || x.st == .draining) &&
       (s (m p)).gangTile x (m p).pos.1 (m p).pos.2 == (s (m p)).gangTile g p.1 p.2) = some g) ∧
      (s (m (0, 0))).gangPos g ((s (m (0, 0))).gangTile g 1 1) ≠ (0, 0) ∧ ((s (m (0, 0))).wordOf g ((s (m (0, 0))).gangTile g 1 1) 0).isSome = true ∧
      (s (m (0, 0))).gangTile g 1 1 = 65) ∧
    (let l : Launch := { launch0 with words := [(0, 0, 0)], nextGang := 1 }
     let s := { wh with launches := [l] }
     s.launch? 7 = some l ∧ l.done = none ∧ l.contained = false ∧ ¬ (l.nextGang = 0 ∧ s.depsTrapped l = true) ∧ l.words.length = l.gangs * l.kerns.length) ∧
    (let l : Launch := { launch0 with contained := true }
     ({ wh with launches := [l] } : State).launch? 7 = some l) := by decide

/-- A request past its limit, a gang stopped alike, one to freeze and one frozen, and one whose request goes. -/
theorem witness_SaveSteps :
    (let g : PreReq → Gang := fun p => { gang0 with preempt := some p, save := 0x10_0000 }
     let t : Thread := { th0 with st := .stopped, premax := 0 }
     let core : TState → Core := fun st => { core0 with kernels := [{ kn0 with live := [⟨1, 0x2000, [], []⟩] }], threads := Vector.replicate 8 { t with st := st } }
     let cx : Context := { ctx0 with maps := [⟨2, true, 0, 0, 0, 0⟩] }
     let s : PreReq → TState → State := fun p st =>
       { (wq (f := fun _ => g p) (g := fun z => { z with cores := z.cores.set 2 (core st) })) with contexts := [cx], tiles :=
         [(0, { w0.tile 0 with gang := some 0, image := some 0, cores := (w0.tile 0).cores.set 2 (core st) })] }
     let p0 : PreReq := ⟨false, 0, 0, []⟩
     let p1 : PreReq := ⟨true, 0, 0, []⟩
     let p2 : PreReq := ⟨true, 0, 0, [(⟨0, 2, 0⟩, .ready)]⟩
     (s p0 .ready).gang? 0 = some (g p0) ∧ ⟨0, 2, 0⟩ ∈ (s p0 .ready).gangThreads 0 ∧ ((s p0 .ready).thread ⟨0, 2, 0⟩).premax = 0 ∧
      (s p0 .stopped).mates 0 = [g p0] ∧ (s p0 .stopped).coopReady (g p0) = true ∧ (∃ x ∈ (s p0 .stopped).gangThreads 0, ((s p0 .stopped).thread x).st ≠ .halted) ∧
      (s p1 .ready).mates 0 = [g p1] ∧ (s p1 .ready).areaOk (g p1) = true ∧ (s p1 .ready).canFreeze (g p1) = true ∧ (s p1 .ready).gangThreads 0 ≠ [] ∧
      (s p2 .frozen).mates 0 = [g p2] ∧ (s p2 .frozen).areaOk (g p2) = true ∧ (s p2 .frozen).issuedDone (g p2) = true ∧ (s p2 .frozen).storesOut (g p2) = true) := by decide

/-- A record to write; an answer in the reply word; a record of a mapped and of an unmapped address; a store in the side log; an invalidation; errors. -/
theorem witness_TranslationSteps :
    (let m : Miss := ⟨0, 0x8_0000, 0, 0, 1, none, none, 2, false, false⟩
     let s := w0.setTile 0 { w0.tile 0 with misses := [m] }
     (s.tile 0).misses[0]? = some m ∧ (getA s.missPos (s.clusterId 0)).getD 0 < 1024) ∧
    (({ w0 with empties := [] } : State).full (localKey (w0.svcOf 0) 0x6_4010) = true) ∧
    (let k := localKey (w0.svcOf 0) 0x6_4010
     let s : State := { (w0.putLocalWord (w0.svcOf 0) 0x6_0000 0x8_0000).putLocalWord (w0.svcOf 0) 0x6_0008 0 with empties := [k / 8], missPos := [(0, 1)] }
     let e : TEntry := ⟨0, true, 8, 0, 0, 0⟩
     let t : State := { s with contexts := [{ ctx0 with maps := [e] }] }
     let u : State := { s with contexts := [ctx0] }
     t.full k = false ∧ t.missRing 0 = [(0x6_0000, 0, 0x8_0000)] ∧ t.walk 0 0x8_0000 = some (0, some e) ∧
      u.full k = false ∧ u.missRing 0 = [(0x6_0000, 0, 0x8_0000)] ∧ u.walk 0 0x8_0000 = none ∧ (u.context? 0).isSome = true) ∧
    (let mk : SideWork → SideEntry := fun w => ⟨0, 2, 0, 0, 0x8_0000, none, w, 0, 0⟩
     let s : SideEntry → State := fun e => wg.setTile 0 { wg.tile 0 with side := [e] }
     ∀ e ∈ [mk (.store [1] .plain), mk (.red .add 8 false 1 .nan)], ((s e).tile 0).side = [e] ∧ ((s e).tile 0).misses = [] ∧ (s e).blocked 0 0x8_0000 = false ∧
       (s e).tlb? 0 0 0x8_0000 = some ⟨0, true, 8, 0, 0, 0⟩ ∧ (s e).routeDown 0 = false ∧ (s e).peerRefused 0 true = false ∧ (s e).bankOff 0 = false ∧
       StoreForm.breach .plain ⟨0, true, 8, 0, 0, 0⟩ 0x8_0000 = none) ∧
    (let v : Inval := ⟨0, 0x8_0000, 0x1_0000, none, [0]⟩
     ({ wg with invals := [(1, v)] } : State).invals = [(1, v)] ∧ v.hits ⟨0, true, 8, 0, 0, 0⟩ = true ∧ (wg.tile 0).returning 0 0x8_0000 0x1_0000 = false) ∧
    (let s : State := { w0 with latent := [(0, false)] }
     ∃ e ∈ s.latent, e.1 ∈ errorWords (8 * 0) 8) ∧ w0.copyAt 0 = none ∧ w0.copyAt (2 ^ 52 + 2 * 2 ^ 12 + 5) = some (⟨0, 2, 0⟩, 5) ∧
    storedWord 0 = true ∧ storedWord (2 ^ 47 * 64) = false :=
  ⟨by decide, by decide, by decide, by decide, by decide, by decide, by decide, by decide, by decide⟩

/-- A row at the threshold; a bank at the end of its back-off; a refresh cycle; a region of the weight store before, in and after a write; an access of
the host; an exported window; a request unanswered for 2^24 cycles. -/
theorem witness_MemoryDevices :
    (let s : State := { w0 with ath := 2, acts := [(0, 1, 5, 2)] }
     s.ath.toNat ≤ s.actCount 0 1 5 ∧ (∀ x ∈ s.backoff, ¬ (x.1 = 0 ∧ x.2.1 = 1)) ∧ s.bankOwes 0 1 = false ∧ w0.me.wait = none) ∧
    (let s : State := { w0 with backoff := [(0, 1, 192)], cycle := 192 }
     ((0 : Fin 8).val, 1, 192) ∈ s.backoff ∧ 192 ≤ s.cycle) ∧
    (({ w0 with cycle := 1024 * 63 } : State).cycle + 2 ^ 26 - 1024 * 63) % 65536 = 0 ∧
    ((1, 63) ∉ w0.wsWriting ∧ w0.wsListed 1 63 = false ∧ (1, 63) ∈ ({ w0 with wsWriting := [(1, 63)] } : State).wsWriting) ∧
    (wh.hostReaches 0 64 = true ∧ wh.hostReaches capBase 8 = true ∧ wh.hostReaches hostBase 8 = true ∧ State.reset.hostReaches hostBase 8 = true) ∧
    (wh.exported 0 8 true = none ∧ wh.latent = [] ∧
     (let s : State := { wh with expt := wh.expt.set 0 { wh.expt[0] with v := true, w := true, obase := 0, size := 1, pbase := 0, key := 3 }, empties := [8] }
      s.exported 0x40 8 true = some (3, 0x40) ∧ s.exported 0x40 8 false = some (3, 0x40) ∧ s.poisoned 0x40 8 = false ∧ s.full 0x40 = false ∧ s.bankBusy 0x40 8 = false)) ∧
    (let w : WaitRec := ⟨.ldD hb (.cat 7) (.cat 6) 0, 0x2000, 0, 0, 0, none, .reply, none, [], none, false, none, []⟩
     let r : Reply := ⟨0, .cat 7, .int 0, true, some peerBase, none⟩
     let s : State := { (wt fun x => { x with st := .waiting, wait := some w }) with cycle := 2 ^ 24 }
     let s := s.setMyCore { s.myCore with replies := [r] }
     s.me.wait = some w ∧ s.me.st = .waiting ∧ (s.core s.cur.coreRef).replies = [r] ∧ r.h = s.cur.h ∧ w.since + 2 ^ 24 ≤ s.cycle) :=
  ⟨by decide, by decide, by decide, ⟨by decide, by decide, by decide⟩, ⟨by decide, by decide, by decide, by decide⟩, by decide, by decide⟩

theorem witness_ModuleSteps :
    (State.reset.rdy = false ∧ ({ State.reset with cfg := { State.reset.cfg with valid := true } } : State).cfg.valid = true) ∧
    (wh.red = false ∧ wh.pwrlim.toNat < (BitVec.ofNat 16 (wh.pwrlim.toNat + 1)).toNat ∧ 95 ≤ (95 : BitVec 8).toNat ∧
      100 * (0 : BitVec 16).toNat < 95 * wh.pwrlim.toNat ∧ (90 : BitVec 8).toNat ≤ 90 ∧ 110 ≤ (110 : BitVec 8).toNat) ∧
    ({ wh with fwTrial := 1 } : State).fwTrial = 1 ∧ hostBase < 2 ^ 52 :=
  ⟨by decide, by decide, by decide, by decide⟩

theorem witness_RegisterFrame :
    registerDst (.aluAdd hb (.cat 2) (.cat 0) (.cat 1)) = some (.cat 2) ∧ registerDst (.mulMul hb (.cat 2) (.cat 0) (.cat 1)) = some (.cat 2) ∧
    registerDst (.divDiv hb (.cat 8) (.cat 0) (.cat 1)) = some (.cat 8) ∧ registerDst (.vecAdd he (.cat 9) (.cat 9) (.cat 10) .l16) = some (.cat 9) ∧
    w0.latent = [] ∧ (next (.aluAdd hb (.cat 2) (.cat 0) (.cat 1)) w0).isSome = true := by decide

/-- `alu.add` of names 1, 2 and 3 at the program counter of thread 0, in its slot of the cycle. -/
def wstep : State :=
  { w0 with mem := memPutList w0.mem (localKey 0 0x2000) (bytesOfNat 4 (0x4 + dab)), phase := .issue 0 0, cycle := 0 }

theorem witness_StepRunsInstruction :
    (let t : ThreadRef := ⟨0, 2, 0⟩
     let w : Word32 := BitVec.ofNat 32 (0x4 + dab)
     let i : Instr := .aluAdd hb (.cat 1) (.cat 2) (.cat 3)
     (wstep.thread t).st = .ready ∧ (wstep.core t.coreRef).repacking t.h = false ∧ (wstep.core t.coreRef).issued ≠ wstep.cycle + 1 ∧
      (wstep.thread t).pend = none ∧ (wstep.thread t).vg = .solo ∧ (wstep.thread t).fbuf = [] ∧ wstep.stopping t = false ∧ wstep.atCheckpoint t = false ∧
      [w].length = (formOf (w.setWidth 2)).words ∧ CodeAt wstep t.tile (wstep.thread t).pc [w] ∧ decodeWords [w] = .ok i ∧
      wstep.agenda = [] ∧ wstep.phase = .issue 0 0 ∧ wstep.nextTurn 0 0 = some (issueClass i, slotKey t, .slot t (.fetched (.instr i 1))) ∧ wstep.latent = [] ∧ wstep.fresh = []) := by
  refine ⟨rfl, by decide, by decide, rfl, rfl, rfl, by decide, by decide, by decide, ⟨by decide, ?_⟩, rfl, rfl, rfl, rfl, rfl, rfl⟩
  intro k w h
  obtain ⟨rfl, rfl⟩ : k = 0 ∧ w = BitVec.ofNat 32 (0x4 + dab) := by
    cases k with
    | zero => exact ⟨rfl, by simpa using h.symm⟩
    | succ k => simp at h
  decide

/-- A name of the extended numbering at the end of its range, each form of literal, and an immediate below zero. -/
theorem witness_EncodingRoundTrip :
    (Instr.aluAdd ⟨.extLit, .both, 0xFFFF_FFFF_FFFF_FFFF⟩ (.cat 503) (.cat 56) (.fixed .lit)).wf = true ∧
    encode (.aluAdd ⟨.extLit, .both, 0xFFFF_FFFF_FFFF_FFFF⟩ (.cat 503) (.cat 56) (.fixed .lit)) ≠ [] ∧
    (Instr.aluiAdd hb (.cat 55) (.cat 0) (-32)).wf = true ∧ encode (.aluiAdd hb (.cat 55) (.cat 0) (-32)) ≠ [] := by decide

theorem witness_StepKeepsMemoryForm :
    State.reset.memOk ∧ wstep.memOk ∧ (match step wstep with | .next t => decide (t.me.name 1 = 0xFFFF_FFF9) | _ => false) = true :=
  ⟨rfl, rfl, rfl⟩

/-- The thread and kernel that `withFetchWord` places run the word: `alu.set` of 9 writes name 1. -/
theorem witness_placed_word_runs :
    (match step (State.reset.withFetchWord 32 (0x1C08 + 1 * 2 ^ 14 + 9 * 2 ^ 26)) with | .next t => decide (t.me.name 1 = 9 ∧ t.me.pc = 0x2004) | _ => false) = true :=
  rfl

/-! ### Witnesses of the statements of completion -/

theorem readable_cats (s0 s : State) : ∀ l : List NameRef, l.all isCat = true → Readable s0 s l
  | [], _ => trivial
  | .cat n :: l, h => ⟨.inr ⟨nofun, nofun, fun p => p.elim nofun nofun⟩, by
      rw [show popped s (.cat n) = s from if_pos ⟨nofun, rfl⟩]; exact readable_cats s0 s l (by simpa [isCat] using h)⟩
  | .fixed _ :: _, h => by simp [isCat] at h
theorem readable_zero (s0 s : State) (a c : BitVec 9) : Readable s0 s [.cat a, .fixed .zero, .cat c] :=
  ⟨.inr ⟨nofun, nofun, fun p => p.elim nofun nofun⟩, .inr ⟨nofun, nofun, fun p => p.elim nofun nofun⟩,
    .inr ⟨nofun, nofun, fun p => p.elim nofun nofun⟩, trivial⟩
/-- An instruction whose sources are catalogue names starts. -/
theorem starts_of {s : State} {i : Instr} {h : Hdr} {srcs dsts : List NameRef} (a : s.me.wait = none) (b : nameBreach s.myKernel h i srcs dsts = none)
    (c : s.waitOk h.wait = true) (d : srcs.all isCat = true) : Starts s i h srcs dsts := ⟨a, ⟨b, c⟩, readable_cats s s srcs d⟩
theorem room_cat (s : State) (n : BitVec 9) : Room s (.cat n) := ⟨nofun, nofun⟩
theorem oneFits_int {s : State} {n : BitVec 9} {x : Int} (a : s.oneDst (.cat n) = true) (b : (s.ent (.cat n)).kind.isFloat = false)
    (c : (r69 (s.ent (.cat n)).kind (s.ent (.cat n)).width (s.ent (.cat n)).mode x).isSome = true) {r : Rnd} : OneFits s (.cat n) r x :=
  ⟨a, by rw [if_neg (by simp [b])]; exact ⟨room_cat s n, fun _ => c⟩⟩
theorem replyTo_cat (s : State) (n : BitVec 9) : ReplyTo s (.cat n) := nofun

/-- A word of local memory and one of a mapped page as each function needs it, and one found full for a thread that waits; a fence of every scope. -/
theorem witness_FullEmptyCompletes :
    (∃ z, Starts w0 (.feLdk he (.cat 7) (.cat 6) 0 .sys) he (feSrcs .ldk (.cat 6) (.cat 7)) (feDsts .ldk (.cat 7)) ∧
      FeRuns w0 (.feLdk he (.cat 7) (.cat 6) 0 .sys) he (.cat 7) 0 .sys .ldk (srcOf w0 he (.cat 6)) (srcOf w0 he (.cat 7)) (readSt w0 [.cat 6]) z) ∧
    (∃ z, Starts wg (.feSto he (.cat 7) (.cat 6) 0 .thr) he (feSrcs .sto (.cat 6) (.cat 7)) (feDsts .sto (.cat 7)) ∧
      FeRuns wg (.feSto he (.cat 7) (.cat 6) 0 .thr) he (.cat 7) 0 .thr .sto (srcOf wg he (.cat 6)) (srcOf wg he (.cat 7)) (readSt wg [.cat 6, .cat 7]) z) ∧
    (let i : Instr := .feStf he (.cat 7) (.cat 6) 0 .core
     let w : WaitRec := ⟨i, 0x2000, 0, 0, 0, none, .retry 10 (localKey 0 0x4000), none, [], none, false, none, []⟩
     let s := (wt fun x => { x with st := .waiting, wait := some w }).setFull (localKey 0 0x4000) false
     s.me.wait = some w ∧ Passes s i he [.cat 6, .cat 7] [] ∧
      ∃ z, FeRuns s i he (.cat 7) 0 .core .stf (srcOf s he (.cat 6)) (srcOf s he (.cat 7)) s z) := by
  refine ⟨⟨_, starts_of rfl (by decide) (by decide) (by decide), .inr (.inr (.inr ⟨by decide, replyTo_cat _ _⟩)), .inr (.inr ⟨by decide, by decide⟩),
      .inl ⟨0x4000, _, ⟨by decide, by decide, by decide⟩, rfl, by decide, ⟨by decide, by decide, by decide⟩, rfl⟩⟩,
    ⟨_, starts_of rfl (by decide) (by decide) (by decide), .inr (.inl rfl), .inl rfl,
      .inr ⟨0x8_0000, ⟨0, true, 8, 0, 0, 0⟩, _, by decide, by decide, ⟨by decide, by decide, by decide, by decide, by decide⟩, rfl, by decide, by decide,
        ⟨by decide, by decide, by decide⟩, rfl⟩⟩,
    by decide, ⟨by decide, by decide⟩, _, .inl rfl, .inr (.inl rfl),
      .inl ⟨0x4000, _, ⟨by decide, by decide, by decide⟩, rfl, by decide, ⟨by decide, by decide, by decide⟩, rfl⟩⟩

theorem witness_SealsComplete :
    (let b : SBind := ⟨1023, 0x8_0000, 8⟩
     let s := wg.setMe { wg.me with names := wg.me.names.set 8 (BitVec.ofNat 528 (1023 * 2 ^ 48 + 8)) }
     Starts s (.syncBind hb (.cat 8) (.cat 6)) hb [.cat 6, .cat 8] [] ∧ Starts s (.syncUnbind hb (.cat 8) (.cat 6)) hb [.cat 6, .cat 8] [] ∧
      s.portHeld = false ∧ s.context? s.myKernel.ctx = some ctx0 ∧ (srcOf s hb (.cat 8)).pat = 1023 * 2 ^ 48 + 8 ∧
      (srcOf s hb (.cat 6)).val = 0x8_0000 ∧ boundable 0x8_0000 8 = true ∧ ctx0.sbind.contains b = false ∧ [b].contains b = true) ∧
    (let e : TEntry := ⟨0, true, 8, 0, 0, 0⟩
     Starts wg (.syncAcq hb (.cat 7) (.cat 8) .dev) hb [.cat 8] [.cat 7] ∧ Starts wg (.syncRel hb (.cat 7) (.cat 8) .sys) hb [.cat 8] [.cat 7] ∧
      wg.oneDst (.cat 7) = true ∧ ReplyTo wg (.cat 7) ∧ (srcOf wg hb (.cat 8)).val = 3 ∧ wg.globWin (wg.sealAddr 3) = .glob 0x8_0018 ∧
      wg.poisoned (e.pa 0x8_0018) 8 = false ∧ Mapped wg 0x8_0018 false e ∧ Mapped wg 0x8_0018 true e ∧ wg.fenceClear .sys (fun _ _ _ => false) = true) ∧
    Starts w0 (.syncFence hb .recov) hb [] [] ∧ Fenced w0 .recov := by
  refine ⟨⟨starts_of rfl (by decide) (by decide) (by decide), starts_of rfl (by decide) (by decide) (by decide), by decide, by decide, by decide, by decide, by decide,
      by decide, by decide⟩,
    ⟨starts_of rfl (by decide) (by decide) (by decide), starts_of rfl (by decide) (by decide) (by decide), by decide, replyTo_cat _ _, by decide, by decide, by decide,
      ⟨by decide, by decide, by decide, by decide, by decide⟩, ⟨by decide, by decide, by decide, by decide, by decide⟩, by decide⟩,
    starts_of rfl (by decide) (by decide) (by decide), .inr (.inr ⟨by decide, by decide⟩)⟩

/-- A push with room, a pop of the youngest record and of a deque that is another kernel's, a steal without neighbours and one with them, ... -/
theorem witness_TasksComplete :
    (Starts w0 (.taskSpawn hb (.cat 6) (.cat 9)) hb [.cat 6, .cat 9] [] ∧ Target (srcOf w0 hb (.cat 6)).val ∧ w0.myCore.dqHas = false ∧ w0.myCore.dq.length < 32) ∧
    (let s := wc fun c => { c with dq := [⟨4, 1⟩, ⟨8, 2⟩], dqOwner := some 0 }
     s.argDst (.cat 7) = true ∧ Starts s (.taskPop hb (.cat 7)) hb [] [.cat 7] ∧ s.myCore.dqOwner = some s.myKernel.sb ∧ s.myCore.dq = [⟨4, 1⟩] ++ [⟨8, 2⟩]) ∧
    w0.myCore.dqOwner ≠ some w0.myKernel.sb ∧ Starts w0 (.taskPop hb (.cat 7)) hb [] [.cat 7] ∧ w0.argDst (.cat 7) = true ∧
    Starts w0 (.taskSteal hb (.cat 7)) hb [] [.cat 7] ∧ Starts wq (.taskSteal hb (.cat 7)) hb [] [.cat 7] ∧ Starts w0 (.taskPark hb (.cat 7)) hb [] [.cat 7] ∧
    (Starts w0 (.taskDone hb (.cat 7)) hb [] [.cat 7] ∧ IntFits w0 (.cat 7) 0) ∧ Starts w0 (.taskTour hb) hb [] [] := by
  refine ⟨⟨starts_of rfl (by decide) (by decide) (by decide), ⟨by decide, by decide, by decide⟩, by decide, by decide⟩,
    ⟨by decide, starts_of rfl (by decide) (by decide) (by decide), by decide, by decide⟩, by decide, starts_of rfl (by decide) (by decide) (by decide), by decide,
    starts_of rfl (by decide) (by decide) (by decide), starts_of rfl (by decide) (by decide) (by decide), starts_of rfl (by decide) (by decide) (by decide),
    ⟨starts_of rfl (by decide) (by decide) (by decide), room_cat _ _, fun _ => by decide⟩, starts_of rfl (by decide) (by decide) (by decide)⟩

theorem witness_BarriersComplete :
    w0.barOk .crew = true ∧ Starts w0 (.barArrive he (.cat 7) .crew) he [] [.cat 7] ∧ w0.me.arrived .crew (w0.barP 0 .crew) = false ∧
    OneFits w0 (.cat 7) .attr (w0.barP 0 .crew).toNat ∧
    (let w : WaitRec := ⟨.barSync he (.cat 7) .crew, 0x2000, 0, 0, 0, none, .retry 19 0, none, [], none, false, none, []⟩
     let s := (wt fun x => { x with st := .waiting, wait := some w })
     let s := s.setTile 0 { s.tile 0 with crewP := 1 }
     s.stage = some (19, 0) ∧ phaseDone (s.barP s.cur.tile .crew) (BitVec.ofNat 32 0) = true) ∧
    Starts w0 (.barWait he (.cat 3) .crew) he [.cat 3] [] ∧ phaseDone (w0.barP 0 .crew) (BitVec.ofInt 32 (srcOf w0 he (.cat 3)).val) = true ∧
    Starts w0 (.barDone hb (.cat 6)) hb [.cat 6] [] := by
  refine ⟨by decide, starts_of rfl (by decide) (by decide) (by decide), by decide, oneFits_int (by decide) (by decide) (by decide),
    by decide, starts_of rfl (by decide) (by decide) (by decide), by decide, starts_of rfl (by decide) (by decide) (by decide)⟩

/-- A free number opened; an OPEN group of one forked and cancelled; a DONE group asked, closed and left; a reward below the quorum. -/
theorem witness_GroupsComplete :
    (let s := wq.setMe { w0.me with names := names0.set 6 (BitVec.ofNat 528 (63 + 64 * 2 ^ 8 + 64 * 2 ^ 16 + 65535 * 2 ^ 24)) }
     s.me.vg = .solo ∧ Starts s (.grpOpen hb (.cat 6)) hb [.cat 6] [] ∧ s.groupSt s.myKernel.gang 63 = .free ∧
      (srcOf s hb (.cat 6)).val = 63 + 64 * 2 ^ 8 + 64 * 2 ^ 16 + 65535 * 2 ^ 24) ∧
    (let o : Group := ⟨3, .opened, ⟨0, 2, 0⟩, 1, 1, 0, 0, [], [], none, 0, false, false, 0⟩
     let s := wq (f := fun g => { g with groups := [o] })
     (srcOf s hb (.cat 8)).val = 3 ∧ s.group? s.myKernel.gang 3 = some o ∧ Starts s (.grpCancel hb (.cat 8)) hb [.cat 8] [] ∧
      Starts s (.grpFork hb (.cat 2) (.cat 8)) hb [.cat 8] [.cat 2] ∧ s.me.rsCnt = 0 ∧ s.me.gmV = false ∧ s.me.bad = [] ∧
      s.myCore.unitBusy s.cur.h s.mySeq = false ∧ (s.ent (.cat 2)).kind.isInt = true ∧ IntFits s (.cat 2) 0) ∧
    (let o : Group := ⟨3, .done, ⟨0, 2, 0⟩, 1, 1, 0, 0, [], [], none, 0, false, false, 0⟩
     let s : State := { (wq (f := fun g => { g with groups := [o] })) with cycle := 1 }
     s.group? s.myKernel.gang 3 = some o ∧ o.combined < s.cycle ∧ s.members s.myKernel.gang 3 = [] ∧ Starts s (.grpClose hb (.cat 8)) hb [.cat 8] [] ∧
      Starts s (.grpStat hb (.cat 7) (.cat 8)) hb [.cat 8] [.cat 7] ∧ OneFits s (.cat 7) .attr (s.gstat s.myKernel.gang 3)) ∧
    (let o : Group := ⟨3, .done, ⟨0, 2, 0⟩, 1, 1, 0, 0, [(0, 0)], [], none, 0, false, false, 0⟩
     let s : State := { (wq (f := fun g => { g with groups := [o] })).setMe { w0.me with gmV := true, gmGid := 3, posted := some 0, adv := 0x3F80_0000 } with cycle := 1 }
     s.me.gmGid.toNat = 3 ∧ s.me.posted.isSome = true ∧ s.groupSt s.myKernel.gang 3 = .done ∧ Starts s (.grpWait hb (.cat 11) (.cat 8)) hb [.cat 8] [.cat 11] ∧
      (s.ent (.cat 11)).kind.isFloat = true ∧ RealFits s (.cat 11) .attr (FF.f32.value s.me.adv.toNat).x ∧
      Starts s (.grpWaitFf he (.cat 7) (.cat 8)) he [.cat 8] [.cat 7] ∧ (s.ent (.cat 7)).kind.isInt = true ∧ IntFits s (.cat 7) s.me.ff.toNat) ∧
    (let o : Group := ⟨3, .forked, ⟨0, 2, 0⟩, 2, 2, 0, 0, [], [], none, 0, false, false, 0⟩
     let s := (wq (f := fun g => { g with groups := [o] })).setMe { w0.me with gmV := true, gmGid := 3 }
     Starts s (.grpReward hb (.cat 11)) hb [.cat 11] [] ∧ (s.ent (.cat 11)).kind = .fp32 ∧ s.group? s.myKernel.gang s.me.gmGid.toNat = some o ∧
      s.me.posted = none ∧ o.posts.length + 1 < o.q ∧ (FF.f32.round .rne 0 (srcOf s hb (.cat 11)).real.x).isFin = true ∧
      FF.f32.beyond (FF.f32.round .rne 0 (srcOf s hb (.cat 11)).real.x) = false) := by
  refine ⟨⟨by decide, starts_of rfl (by decide) (by decide) (by decide), by decide, by decide⟩,
    ⟨by decide, by decide, starts_of rfl (by decide) (by decide) (by decide), starts_of rfl (by decide) (by decide) (by decide), by decide, by decide, by decide,
      by decide, by decide, room_cat _ _, fun _ => by decide⟩,
    ⟨by decide, by decide, by decide, starts_of rfl (by decide) (by decide) (by decide), starts_of rfl (by decide) (by decide) (by decide),
      oneFits_int (by decide) (by decide) (by decide)⟩,
    ⟨by decide, by decide, by decide, starts_of rfl (by decide) (by decide) (by decide), by decide, ⟨by decide, .inl (by decide), by decide⟩,
      starts_of rfl (by decide) (by decide) (by decide), by decide, room_cat _ _, fun _ => by decide⟩,
    starts_of rfl (by decide) (by decide) (by decide), by decide, by decide, by decide, by decide, by decide, by decide⟩

theorem witness_IntegerLanesComplete :
    (∃ (s : State) (i : Instr) (h : Hdr) (d : NameRef) (fs : List NameRef) (w : LaneW) (f : (Nat → Int) → Int), intLane i = some (h, d, fs, w, f) ∧
      Starts s i h fs [d] ∧ ilaneCount (s.ent d) (laneBits w) ≠ 0 ∧
      (∀ n ∈ fs, ilaneCount (s.ent n) (laneBits w) = ilaneCount (s.ent d) (laneBits w) ∨ ilaneCount (s.ent n) (laneBits w) = 1) ∧
      LanesFit (readSt s fs) d (laneBits w) ((List.range (ilaneCount (s.ent d) (laneBits w))).map fun j =>
        f fun k => pick 0 (((srcsOf s h fs).map fun x => x.lanes (laneBits w)).getD k []) j)) ∧
    (∃ (i : Instr) (h : Hdr) (d a : NameRef) (w : LaneW) (r : Rnd) (f : List Int → Int), intRed i = some (h, d, a, w, r, f) ∧ Starts w0 i h [a] [d] ∧
      ilaneCount (w0.ent a) (laneBits w) ≠ 0 ∧ OneFits (readSt w0 [a]) d r (f ((srcOf w0 h a).lanes (laneBits w)))) ∧
    (Starts w0 (.vredScan he (.cat 10) (.cat 9) .l16 .f32 false .attr) he [.cat 9] [.cat 10] ∧ ilaneCount (w0.ent (.cat 9)) 16 ≠ 0 ∧
      ilaneCount (w0.ent (.cat 10)) 16 = ilaneCount (w0.ent (.cat 9)) 16 ∧ LanesFit w0 (.cat 10) 16 [1, 3, 6, 5]) :=
  ⟨⟨w0, .vecMac he (.cat 9) (.cat 9) (.cat 10) .l16, _, _, _, _, _, rfl, starts_of rfl (by decide) (by decide) (by decide), by decide, by decide,
      room_cat _ _, by decide⟩,
    ⟨.vredSumsq he (.cat 7) (.cat 9) .l16 .f32 false .attr, _, _, _, _, _, _, rfl, starts_of rfl (by decide) (by decide) (by decide), by decide,
      oneFits_int (by decide) (by decide) (by decide)⟩,
    starts_of rfl (by decide) (by decide) (by decide), by decide, by decide, room_cat _ _, by decide⟩

theorem witness_FloatLanesComplete :
    (∃ (i : Instr) (h : Hdr) (d : NameRef) (fs : List NameRef) (g : LaneF) (r : Rnd) (lat : Nat) (f : RMode → (Nat → FVal) → XVal),
      fltLane i = some (h, d, fs, g, r, lat, f) ∧ Starts w0 i h fs [d] ∧ flaneCount (w0.ent d) (laneFF g) ≠ 0 ∧
      (∀ n ∈ fs, flaneCount (w0.ent n) (laneFF g) = flaneCount (w0.ent d) (laneFF g) ∨ flaneCount (w0.ent n) (laneFF g) = 1) ∧
      FltFits (readSt w0 fs) d (laneFF g) r .each ((List.range (flaneCount (w0.ent d) (laneFF g))).map fun j =>
        f (rmodeOf r (w0.ent d)) fun k => pick .nan (((srcsOf w0 h fs).map fun x => x.flanes (laneFF g)).getD k []) j)) ∧
    (∃ (i : Instr) (h : Hdr) (d a : NameRef) (g : LaneF) (r : Rnd) (f : RMode → List FVal → FVal), fltRed i = some (h, d, a, g, r, f) ∧
      Starts w0 i h [a] [d] ∧ flaneCount (w0.ent a) (laneFF g) ≠ 0 ∧ flaneCount (w0.ent d) (laneFF g) ≠ 0 ∧ w0.oneDst d = true ∧
      FltFits (readSt w0 [a]) d (laneFF g) r .usual [(f (rmodeOf r (w0.ent d)) ((srcOf w0 h a).flanes (laneFF g))).x]) ∧
    (flaneCount (w0.ent (.cat 9)) (laneFF .b16) ≠ 0 ∧ Starts w0 (.vredArgmax he (.cat 7) (.cat 9) .l16 .b16 true .attr) he [.cat 9] [.cat 7] ∧
      OneFits w0 (.cat 7) .attr ((fArgmax ((srcOf w0 he (.cat 9)).flanes (laneFF .b16)) : Nat) : Int) ∧
      Starts w0 (.vredScan he (.cat 12) (.cat 11) .l16 .f32 true .attr) he [.cat 11] [.cat 12] ∧
      flaneCount (w0.ent (.cat 12)) (laneFF .f32) = flaneCount (w0.ent (.cat 11)) (laneFF .f32) ∧
      FltFits w0 (.cat 12) (laneFF .f32) .attr .usual ((List.range (flaneCount (w0.ent (.cat 11)) (laneFF .f32))).map fun j =>
        (FVal.sum (rmodeOf .attr (w0.ent (.cat 12))) (((srcOf w0 he (.cat 11)).flanes (laneFF .f32)).take (j + 1))).x)) := by
  refine ⟨⟨.vecfFma he (.cat 11) (.cat 11) (.cat 12) (.cat 11) .f32 .rtz, _, _, _, _, _, _, _, rfl, starts_of rfl (by decide) (by decide) (by decide), by decide, by decide,
      .inr ⟨room_cat _ _, .inl (by decide), ?_⟩⟩,
    ⟨.vredSumsq he (.cat 11) (.cat 12) .l16 .f32 true .attr, _, _, _, _, _, _, rfl, starts_of rfl (by decide) (by decide) (by decide), by decide, by decide, by decide,
      .inr ⟨room_cat _ _, .inl (by decide), ?_⟩⟩,
    by decide, starts_of rfl (by decide) (by decide) (by decide), oneFits_int (by decide) (by decide) (by decide), starts_of rfl (by decide) (by decide) (by decide),
    by decide, .inr ⟨room_cat _ _, .inl (by decide), ?_⟩⟩ <;> (rw [if_neg (by decide)]; decide)

theorem witness_MovesComplete :
    (∃ (i : Instr) (la w : Nat) (ix : Src → Nat → Int), laneMove i = some (he, .cat 9, .cat 9, .cat 10, la, w, true, ix) ∧
      Starts w0 i he [.cat 9, .cat 10] [.cat 9] ∧ ilaneCount (w0.ent (.cat 9)) w ≠ 0 ∧ ilaneCount (w0.ent (.cat 9)) la ≠ 0 ∧
      ilaneCount (w0.ent (.cat 10)) w = ilaneCount (w0.ent (.cat 9)) w ∧ LanesFit w0 (.cat 9) w [0, 0, 0, 0]) ∧
    (Starts w0 (.vmovPack he (.cat 9) (.cat 0) (.cat 1) .l16) he [.cat 0, .cat 1] [.cat 9] ∧ ilaneCount (w0.ent (.cat 9)) 8 ≠ 0 ∧
      ilaneCount (w0.ent (.cat 0)) 16 ≠ 0 ∧ ilaneCount (w0.ent (.cat 0)) 16 + ilaneCount (w0.ent (.cat 1)) 16 ≤ ilaneCount (w0.ent (.cat 9)) 8 ∧
      LanesFit w0 (.cat 9) 8 [7, 0, 5, 0, 0, 0, 0, 0]) ∧
    Starts w0 (.vmovMov hb (.cat 14) (.cat 15)) hb [.cat 15] [.cat 14] ∧
    (Starts wq (.vmovSend hb (.fixed .portE) (.cat 15)) hb [.cat 15] [.fixed .portE] ∧ wq.neighbourIn .e = true ∧ (wq.outbound .e).length + 8 ≤ 16) ∧
    (let s := w0.setInbound .e [1, 2, 3, 4, 5, 6, 7, 8]
     Starts s (.vmovRecv hb (.cat 15) (.fixed .portE)) hb [] [.fixed .portE, .cat 15] ∧ 8 ≤ (s.inbound .e).length ∧
      s.myCore.portAhead s.cur.h s.mySeq (.fixed .portE) = false) ∧
    (Starts w0 (.chkAcc he (.cat 6) (.cat 9) .l16 false) he [.cat 9, .cat 6] [] ∧ w0.chkDst (.cat 6) = true ∧ Room w0 (.cat 6)) ∧
    (Starts w0 (.chkTest hb (.cat 0) (.cat 0)) hb [.cat 0, .cat 0] [] ∧ (srcOf w0 hb (.cat 0)).val = (srcOf (popped w0 (.cat 0)) hb (.cat 0)).val) ∧
    Starts w0 (.chkClr hb (.cat 6)) hb [] [.cat 6] :=
  ⟨⟨.vmovPerm he (.cat 9) (.cat 9) (.cat 10) .l16, _, _, _, rfl, starts_of rfl (by decide) (by decide) (by decide), by decide, by decide, by decide, room_cat _ _, by decide⟩,
    ⟨starts_of rfl (by decide) (by decide) (by decide), by decide, by decide, by decide, room_cat _ _, by decide⟩, starts_of rfl (by decide) (by decide) (by decide),
    ⟨starts_of rfl (by decide) (by decide) (by decide), by decide, by decide⟩, ⟨starts_of rfl (by decide) (by decide) (by decide), by decide, by decide⟩,
    ⟨starts_of rfl (by decide) (by decide) (by decide), by decide, room_cat _ _⟩, ⟨starts_of rfl (by decide) (by decide) (by decide), rfl⟩,
    starts_of rfl (by decide) (by decide) (by decide)⟩

theorem witness_ConversionsComplete :
    (∃ (s3 : State) (vs : List FVal) (n : Nat) (ds : List Nat) (q : Nat × QCount), Starts w0 (.cvtQuant he (.cat 13) (.cat 14) (.fixed .zero) (.cat 5) .b16 true .attr) he
        [.cat 14, .fixed .zero, .cat 5] [.cat 13] ∧ flaneCount (w0.ent (.cat 14)) (laneFF .b16) ≠ 0 ∧ vs = (srcOf w0 he (.cat 14)).flanes (laneFF .b16) ++ [] ∧
      quantFits (w0.ent (.cat 13)) (flaneCount (w0.ent (.cat 14)) (laneFF .b16) + 0) = true ∧ s3 = readSt w0 [.cat 14, .fixed .zero, .cat 5] ∧
      n = drawCount .rne (quantMask (w0.ent (.cat 13)) (.cat 5) 200 true vs) ∧ DrawsLeft s3 n ∧
      ds = spread (quantMask (w0.ent (.cat 13)) (.cat 5) 200 true vs) (drawList s3 n) ∧ q = quantRes (w0.ent (.cat 13)) (.cat 5) 200 true .rne ds vs ∧
      q.2.trips w0.myCore.cqthresh = false) ∧
    (Starts w0 (.cvtDequant hb (.cat 11) (.cat 13) (.cat 5) .f32 3 .attr) hb [.cat 13, .cat 5] [.cat 11] ∧ flaneCount (w0.ent (.cat 11)) (laneFF .f32) ≠ 0 ∧
      4 * flaneCount (w0.ent (.cat 11)) (laneFF .f32) ≤ dequantCount (.cat 13) (w0.ent (.cat 13)) ∧
      FltFits w0 (.cat 11) (laneFF .f32) .attr .usual [((g8Vals .e4m3 (srcOf w0 hb (.cat 13)).pat).getD 3 .nan).x]) ∧
    (Starts w0 (.cvtFtoi he (.cat 0) (.cat 11) .f32 .l32 .rtz) he [.cat 11] [.cat 0] ∧ ilaneCount (w0.ent (.cat 0)) 32 ≠ 0 ∧
      flaneCount (w0.ent (.cat 11)) (laneFF .f32) = 1 ∧ Room w0 (.cat 0) ∧ DrawsLeft w0 0 ∧
      (ftoiLane .sint 32 .wrap .rtz 0 (pick .nan ((srcOf w0 he (.cat 11)).flanes (laneFF .f32)) 0)).1.isLeft = true) ∧
    (laneConv w0 (.cvtItof he (.cat 11) (.cat 0) .l32 .f32 .rtz) = some (he, .cat 11, .cat 0, 1, fun x => (x.lanes (laneBits .l32)).map FVal.int, .f32, .rtz) ∧
      Starts w0 (.cvtItof he (.cat 11) (.cat 0) .l32 .f32 .rtz) he [.cat 0] [.cat 11] ∧ flaneCount (w0.ent (.cat 11)) (laneFF .f32) = 1 ∧
      (((srcOf w0 he (.cat 0)).lanes 32).map FVal.int).length = 1 ∧ FltFits w0 (.cat 11) (laneFF .f32) .rtz .plain [(FVal.int 7).x]) ∧
    (Starts w0 (.cvtRound he (.cat 11) (.cat 12) .f32 .rtz) he [.cat 12] [.cat 11] ∧ DrawsLeft w0 0 ∧
      FltFits (drawn w0 0) (.cat 11) (laneFF .f32) .rtz .plain [((pick .nan ((srcOf w0 he (.cat 12)).flanes (laneFF .f32)) 0).integral .rtz 0).x]) ∧
    (∃ (n : Nat) (q : Nat × QCount), Starts w0 (.cvtScale hb (.cat 13) (.cat 13) (.cat 8) .attr) hb [.cat 13, .cat 8] [.cat 13] ∧ (w0.ent (.cat 13)).kind.isGran = true ∧
      n = drawCount .rne (scaleMask (w0.ent (.cat 13)) 3 (srcOf w0 hb (.cat 13)).pat) ∧ DrawsLeft w0 n ∧
      q = scaleRes (w0.ent (.cat 13)) 3 (srcOf w0 hb (.cat 13)).pat .rne (spread (scaleMask (w0.ent (.cat 13)) 3 (srcOf w0 hb (.cat 13)).pat) (drawList w0 n)) ∧
      q.2.trips w0.myCore.cqthresh = false) := by
  refine ⟨⟨_, _, _, _, _, ⟨rfl, ⟨by decide, by decide⟩, readable_zero _ _ _ _⟩, by decide, rfl, by decide, rfl, rfl, .inl (by decide), rfl, rfl, by decide⟩,
    ⟨starts_of rfl (by decide) (by decide) (by decide), by decide, by decide, .inr ⟨room_cat _ _, .inl (by decide), ?_⟩⟩,
    ⟨starts_of rfl (by decide) (by decide) (by decide), by decide, by decide, room_cat _ _, .inl rfl, by decide⟩,
    ⟨rfl, starts_of rfl (by decide) (by decide) (by decide), by decide, by decide, .inr ⟨room_cat _ _, .inl (by decide), ?_⟩⟩,
    ⟨starts_of rfl (by decide) (by decide) (by decide), .inl rfl, .inr ⟨room_cat _ _, .inl (by decide), ?_⟩⟩,
    _, _, starts_of rfl (by decide) (by decide) (by decide), by decide, rfl, .inl (by decide), rfl, by decide⟩ <;> (rw [if_neg (by decide)]; decide)

/-- A key and a position, a draw as it is and one below 3, the next position; the last request slot; two weights of 0 without and with a commit. -/
theorem witness_SamplingCompletes :
    (Starts w0 (.smpSeed hb (.cat 6) (.cat 8)) hb [.cat 6, .cat 8] [] ∧ (srcOf w0 hb (.cat 8)).val = 3) ∧
    (Starts w0 (.smpRand hb (.cat 7) (.cat 8)) hb [.cat 8] [.cat 7] ∧ w0.intDst (.cat 7) = true ∧ DrawsLeft w0 1 ∧ ∀ x : Nat, IntFits w0 (.cat 7) ((x % 3 : Nat) : Int)) ∧
    (Starts w0 (.smpRand hb (.cat 7) (.fixed .zero)) hb [.fixed .zero] [.cat 7] ∧ Room w0 (.cat 7)) ∧
    (Starts w0 (.smpPos hb (.cat 7)) hb [] [.cat 7] ∧ w0.me.rpos.toNat < 2 ^ 40 - 1 ∧ OneFits w0 (.cat 7) .attr ((w0.me.rpos.toNat + 1 : Nat) : Int)) ∧
    (let s := (wc fun c => { c with smp := true, threads := c.threads.set 7 { Thread.fresh with smpb := 0x1FDF } }).setMe
       { w0.me with names := (names0.set 6 (BitVec.ofNat 528 (0x4000 + 2 ^ 35 * 2 + 2 ^ 53 + 2 ^ 63))).set 8 15 }
     let blk := s.myBlock
     Starts s (.smpStop hb (.cat 8) (.cat 15)) hb [.cat 8, .cat 15] [] ∧ 32 ≤ (s.ent (.cat 15)).width ∧ blk.isSome = true ∧ (srcOf s hb (.cat 8)).val = 15 ∧
      s.boardAny 0 (slotAt (blk.getD 0) 15) 128 = false ∧ s.poisoned (localKey 0 (slotAt (blk.getD 0) 15)) 128 = false ∧
      Starts s (.smpDraw hb (.cat 7) (.cat 6) (.cat 8)) hb [.cat 6, .cat 8] [.cat 7] ∧ (s.ent (.cat 7)).kind = .uint ∧ 35 ≤ (s.ent (.cat 7)).width ∧
      (srcOf s hb (.cat 6)).val = 0x4000 + 2 ^ 35 * 2 + 2 ^ 53 + 2 ^ 63 ∧ s.boardW 0 0x4000 4 = false ∧ s.poisoned (localKey 0 0x4000) 4 = false ∧
      DrawsLeft s 1 ∧ Room s (.cat 7) ∧ s.latent = []) := by
  refine ⟨⟨starts_of rfl (by decide) (by decide) (by decide), by decide⟩,
    ⟨starts_of rfl (by decide) (by decide) (by decide), by decide, .inr (by decide), fun x => ⟨room_cat _ _, fun _ => ?_⟩⟩,
    ⟨⟨rfl, ⟨by decide, by decide⟩, .inr ⟨nofun, nofun, fun p => p.elim nofun nofun⟩, trivial⟩, room_cat _ _⟩,
    ⟨starts_of rfl (by decide) (by decide) (by decide), by decide, oneFits_int (by decide) (by decide) (by decide)⟩,
    starts_of rfl (by decide) (by decide) (by decide), by decide, by decide, by decide, by decide, by decide,
    starts_of rfl (by decide) (by decide) (by decide), by decide, by decide, by decide, by decide, by decide, .inr (by decide), room_cat _ _, by decide⟩
  have h : x % 3 = 0 ∨ x % 3 = 1 ∨ x % 3 = 2 := by omega
  obtain h | h | h := h <;> (rw [h]; decide)

/-- A reply of either kind, one discarded, and one held by a repack; a store performed and one that moves to the side log; a reflection; a vault write. -/
theorem witness_MemoryStepsComplete :
    (∀ p ∈ [(⟨0, .cat 7, .int 9, true, none, none⟩ : Reply), ⟨0, .cat 7, .pat 9, true, none, none⟩, ⟨0, .fixed .zero, .int 9, true, none, none⟩],
      let s := wc fun c => { c with replies := [p] }
      (s.core ⟨0, 2⟩).replies = p :: [] ∧ (s.core ⟨0, 2⟩).repack = none ∧ (discards p.dest = true ∨ p.dest = .cat 7)) ∧
    (let p : Reply := ⟨0, .cat 7, .int 9, true, none, none⟩
     let q : Repack := ⟨.resize 2 16 .wrap, true, 0, 0x2000, 0, 0, [(0, .ready)], []⟩
     let s := wc fun c => { c with replies := [p], repack := some q }
     (s.core ⟨0, 2⟩).replies = p :: [] ∧ (s.core ⟨0, 2⟩).repack = some q ∧ (s.core ⟨0, 2⟩).kernelOf p.h = some kn0 ∧ kn0.sb = q.sb) ∧
    (let e : StoreEntry := ⟨0, 0, 0, 0x8_0000, [1], none, .plain, 0, 0⟩
     let s := wg.setMyCore { wg.myCore with sbuf := [e] }
     let u := w0.setMyCore { w0.myCore with sbuf := [e] }
     (s.core ⟨0, 2⟩).sbuf = e :: [] ∧ s.sideHas 0 0 0x8_0000 = false ∧ s.tlb? 0 0 0x8_0000 = some ⟨0, true, 8, 0, 0, 0⟩ ∧ s.routeDown 0 = false ∧ s.peerRefused 0 true = false ∧ s.bankOff 0 = false ∧
      e.form ≠ .tail ∧ (u.core ⟨0, 2⟩).sbuf = e :: [] ∧ u.sideHas 0 0 0x8_0000 = false ∧ u.tlb? 0 0 0x8_0000 = none ∧ u.blocked 0 0x8_0000 = false ∧
      (u.tile 0).side.length < 64) ∧
    (({ w0 with reflections := [⟨0, 0, 0x8_0000, 0, 0, [1], [], []⟩] } : State).reflections.any fun r => r.die == 0 && r.va == 64 * 0x2000) = true ∧
    (let v : VaultWrite := ⟨3, none, capBase, [], [], []⟩
     let s : State := { w0 with vwrites := [{ v with buf := 1 }, v] }
     (s.vwrites.filter fun x => x.buf == 3) = v :: [] ∧ s.fencedOff v = false) := by decide

/-- A request served and one of a kernel that has no part in the deque, a reply with a record and one that ends the round, a parked thread. -/
theorem witness_StealsComplete :
    (let m : StealMsg := ⟨⟨1, 2, 0⟩, .w, 0, none, false⟩
     let s : Nat → State := fun o => wq (g := fun t => { t with cores := t.cores.set 2 { core0 with stealMsgs := [m], dq := [⟨4, 9⟩], dqOwner := some o } })
     ((s 0).core ⟨0, 2⟩).stealMsgs = [m] ∧ m.arrive ≤ (s 0).cycle ∧ ((s 0).core ⟨0, 2⟩).dqUsed ≤ (s 0).cycle ∧ m.thief.coreRef ≠ ⟨0, 2⟩ ∧
      (s 0).mayServe ⟨0, 2⟩ m.thief = true ∧ ((s 0).core ⟨0, 2⟩).scnt = 0 ∧ ((s 0).core ⟨0, 2⟩).dq = ⟨4, 9⟩ :: [] ∧ (s 5).mayServe ⟨0, 2⟩ m.thief = false) ∧
    (let m : Option Task → StealMsg := fun r => ⟨⟨0, 2, 0⟩, .w, 0, r, true⟩
     let w : WaitRec := ⟨.taskSteal hb (.cat 7), 0x2000, 0, 0, 0, none, .steal [], none, [], none, false, none, []⟩
     let s : Option Task → State := fun r => w0.setMyCore { core0 with stealMsgs := [m r], threads := core0.threads.set 0 { th0 with st := .waiting, wait := some w } }
     ∀ r ∈ [some ⟨4, 9⟩, none], ((s r).core ⟨0, 2⟩).stealMsgs = [m r] ∧ (m r).rec? = r ∧ (m r).arrive ≤ (s r).cycle ∧ ((s r).core ⟨0, 2⟩).repack = none ∧
       ((s r).thread ⟨0, 2, 0⟩).wait = some w ∧ w.why = .steal [] ∧ w.taskWait = some (.cat 7, 0x2000, 4)) ∧
    (let s := w0.setMyCore { core0 with dq := [⟨4, 9⟩], dqOwner := some 0, threads := core0.threads.set 0 { th0 with st := .parked, wait := some park0 } }
     (s.thread ⟨0, 2, 0⟩).wait = some park0 ∧ park0.taskWait = some (.cat 7, 0x2000, 4) ∧ (s.thread ⟨0, 2, 0⟩).st = .parked ∧ s.stealing ⟨0, 2, 0⟩ = false ∧
      (s.core ⟨0, 2⟩).repack = none ∧ (s.core ⟨0, 2⟩).dqOwner = some (s.kernel ⟨0, 2, 0⟩).sb ∧ (s.core ⟨0, 2⟩).dqUsed ≤ s.cycle ∧
      (s.core ⟨0, 2⟩).dq = [] ++ [⟨4, 9⟩]) := by decide

theorem witness_ToursComplete :
    let core : Core := { core0 with threads := Vector.replicate 8 { th0 with st := .parked, wait := some park0 } }
    let st : Option (Nat × Bool × Nat) → Option (Nat × Nat) → State := fun tok fin =>
      let s := wq (f := fun g => { g with gw := 1, tours := [⟨0, true, tok, fin, false⟩] })
      (s.setCore ⟨0, 2⟩ core).setCore ⟨1, 2⟩ core
    ((st none none).toursAt ⟨0, 2⟩).map (fun p => (p.1, p.2.2.2)) = [(0, kn0)] ∧ ((st none none).ring { gang0 with gw := 1 }) = [0, 1] ∧
      (st none none).passive ⟨0, 2⟩ kn0 = true ∧ (st (some (1, false, 0)) none).passive ⟨1, 2⟩ kn0 = true ∧
      ((st (some (1, false, 0)) none).toursAt ⟨1, 2⟩).map (fun p => p.2.2.1.token) = [some (1, false, 0)] ∧
      ((st (some (2, true, 0)) none).toursAt ⟨0, 2⟩).map (fun p => p.2.2.1.token) = [some (2, true, 0)] ∧
      (st (some (2, true, 0)) none).passive ⟨0, 2⟩ kn0 = true ∧
      ((st none (some (1, 0))).toursAt ⟨1, 2⟩).map (fun p => p.2.2.1.finish) = [some (1, 0)] ∧ ((st none (some (1, 0))).core ⟨1, 2⟩).repack = none := by decide

/-- Phases with records to write, a timeout that is due, a copy that has arrived, and a unit whose rows are written. -/
theorem witness_BarrierAndRepackStepsComplete :
    (let t : Thread := { th0 with st := .halted, haltCyc := 0 }
     let core : Core := { core0 with threads := (Vector.replicate 8 t).set 0 { th0 with st := .waiting, crewArr := some (0, 0), gangArr := some (0, 0) } }
     let s : State := { (wq (f := fun g => { g with barStat := [(0, 0x4000)] }) (g := fun x => { x with cores := x.cores.set 2 core, crewStat := [0x4000] })) with cycle := 1 }
     s.allArrived 0 .crew = some 0 ∧ s.allArrived 0 .gang = some 0 ∧ 0 < s.cycle ∧ (s.tile 0).gang = some 0 ∧ (s.gang? 0).isSome = true) ∧
    (let o : Group := ⟨3, .forked, ⟨0, 2, 0⟩, 2, 1, 1, 0, [(0, 0)], [], some 0, 0, false, false, 0⟩
     let s := wq (f := fun g => { g with groups := [o] })
     s.group? 0 3 = some o ∧ o.st = .forked ∧ o.due = some 0 ∧ 0 ≤ s.cycle ∧ s.frozenGang 0 = false) ∧
    (let f : ForkCopy := ⟨[], [], 0, .cat 2, .int 1, 0, 0⟩
     let s := wt fun x => { x with forkIn := some f }
     (s.thread s.cur).forkIn = some f ∧ (s.core s.cur.coreRef).unitBusy s.cur.h f.seq = false ∧ f.arrive ≤ s.cycle) ∧
    (let p : Repack := ⟨.resize 2 16 .wrap, true, 0, 0x2000, 0, 0, [(0, .ready)], []⟩
     let s := w0.setMyCore { core0 with repack := some p, threads := core0.threads.set 0 { th0 with st := .frozen } }
     (s.core ⟨0, 2⟩).repack = some p ∧ p.begun = true ∧ p.done ≤ s.cycle ∧ p.held = [] ∧ ∀ h : Fin 8, ((s.core ⟨0, 2⟩).threads[h]).bad = []) := by decide

/-- An attached follower, a leader with a detached member at its `join` or `leave`, and a group that can form. -/
theorem witness_VectorGroupsComplete :
    (let s := wt fun x => { x with vg := .attached }
     Starts s (.vmovJoin hb (.cat 6)) hb [] [] ∧ Starts s (.vmovLeave hb) hb [] [] ∧ s.me.vg = .attached) ∧ w0.me.vg = .solo ∧ Starts w0 (.vmovLeave hb) hb [] [] ∧
    (let d : Instr → Nat → Thread := fun i g =>
       { th0 with st := .waiting, vg := .detached, vgLeader := some ⟨0, 2, 0⟩, wait := some ⟨i, 0x2000, 0, 0, 0, none, .retry g 0, none, [], none, false, none, []⟩ }
     let s : Instr → Nat → State := fun i g =>
       (wq.setMe { wq.me with vg := .leader, vgSize := 2 }).setCore ⟨1, 2⟩ { core0 with threads := core0.threads.set 0 (d i g) }
     let p : Instr → Nat → Prop := fun i g => (s i g).me.vg = .leader ∧ (s i g).me.vgRun = none ∧ (s i g).vgMembers (s i g).cur .detached = [⟨1, 2, 0⟩] ∧
       ((s i g).thread ⟨1, 2, 0⟩).waitsAt g (s i g).me.pc = true
     p (.vmovJoin hb (.cat 6)) tagRejoin ∧ p (.vmovLeave hb) tagLeave ∧
      Starts (s (.vmovJoin hb (.cat 6)) tagRejoin) (.vmovJoin hb (.cat 6)) hb [] [] ∧ Starts (s (.vmovLeave hb) tagLeave) (.vmovLeave hb) hb [] []) ∧
    (let l : WaitRec := ⟨.vmovJoin hb (.cat 6), 0x2000, 0, 0, 0, none, .retry 20 2, none, [], none, false, none, []⟩
     let f : WaitRec := ⟨.vmovJoin hb (.cat 6), 0x2000, 0, 0, 0, none, .retry 20 0x40, none, [], none, false, none, []⟩
     let core : WaitRec → Core := fun w => { core0 with threads := core0.threads.set 0 { th0 with st := .waiting, wait := some w } }
     let s := ((wq (f := fun g => { g with gw := 1 })).setCore ⟨0, 2⟩ (core l)).setCore ⟨1, 2⟩ (core f)
     (s.thread ⟨0, 2, 0⟩).wait = some l ∧ (2 : Nat).testBit 6 = false ∧ s.claimed ⟨0, 2, 0⟩ ((2 : Nat).testBit 7) (2 % 32) = some [⟨1, 2, 0⟩] ∧
      (s.thread ⟨1, 2, 0⟩).wait = some f ∧ (s.thread ⟨1, 2, 0⟩).st = .waiting ∧ (s.thread ⟨1, 2, 0⟩).vg = .solo ∧ (0x40 : Nat).testBit 7 = (2 : Nat).testBit 7) ∧
    (let f : Forward := ⟨.sysNop hb, none, 0x2000, 0x2004, 0⟩
     let s := wt fun x => { x with vg := .attached, vgIn := [f] }
     (s.thread s.cur).vgIn = f :: [] ∧ f.due ≤ s.cycle ∧ (s.thread s.cur).vgBuf.length < 8) := by
  refine ⟨⟨starts_of rfl (by decide) (by decide) (by decide), starts_of rfl (by decide) (by decide) (by decide), by decide⟩, by decide,
    starts_of rfl (by decide) (by decide) (by decide), ⟨by decide, by decide, starts_of rfl (by decide) (by decide) (by decide),
      starts_of rfl (by decide) (by decide) (by decide)⟩, by decide, by decide⟩

/-! ### Witnesses of the clauses on latencies, ports and free values -/

/-- A wait for a latency that is over, one that has run, an instruction of 8 cycles and one of more; a deque unit at work; a sink for a value that is kept. -/
theorem witness_latencies :
    w0.ranOut = false ∧ (wran (.mulMul hb (.cat 2) (.cat 0) (.cat 1))).ranOut = true ∧ w0.writesNow (4 + 1) = true ∧ w0.writesNow (4 + 64) = false ∧
    w0.writesNow (6 + (4 + 1) / 2) = true ∧ w0.writesNow (6 + (32 + 1) / 2) = false ∧
    Passes (wran (.mulMul hb (.cat 2) (.cat 0) (.cat 1))) (.mulMul hb (.cat 2) (.cat 0) (.cat 1)) hb [.cat 0, .cat 1] [.cat 2] ∧
    (let w : WaitRec := ⟨.mulMul hb (.cat 2) (.cat 0) (.cat 1), 0x2000, 0, 0, 0, none, .run 0, none, [], some (w0.latch w0.cur), false, none, []⟩
     let s := wt fun x => { x with st := .waiting, wait := some w }
     (s.thread s.cur).wait = some w ∧ w.why = .run 0 ∧ 0 ≤ s.cycle ∧ (s.thread s.cur).st = .waiting) ∧
    (wc fun c => { c with dqUsed := 1 }).myCore.dqBusy 0 = true ∧ w0.myCore.dqBusy w0.cycle = false := by
  refine ⟨by decide, by decide, by decide, by decide, by decide, by decide, ⟨by decide, by decide⟩, by decide, by decide, by decide⟩

theorem witness_Goes :
    (let i : Instr := .vredScan he (.cat 12) (.cat 11) .l16 .f32 true .attr
     Goes (wran i) i he 12 [.cat 11] [.cat 12]) ∧
    (let i : Instr := .vredScan he (.cat 10) (.cat 9) .l16 .f32 false .attr
     Goes (wran i) i he 12 [.cat 9] [.cat 10]) ∧
    (let i : Instr := .vecfExp2 hb (.cat 11) (.cat 12) .f32 .attr
     Goes (wran i) i hb 16 [.cat 12] [.cat 11] ∧ Starts w0 i hb [.cat 12] [.cat 11] ∧ FltFits w0 (.cat 11) (laneFF .f32) .attr .each [.nan]) ∧
    (let i : Instr := .vecfAdd hb (.cat 11) (.cat 11) (.cat 12) .f32 .attr
     Goes w0 i hb 8 [.cat 11, .cat 12] [.cat 11]) := by
  refine ⟨⟨⟨by decide, by decide⟩, readable_cats _ _ _ (by decide), by decide⟩, ⟨⟨by decide, by decide⟩, readable_cats _ _ _ (by decide), by decide⟩,
    ⟨⟨⟨by decide, by decide⟩, readable_cats _ _ _ (by decide), by decide⟩, starts_of rfl (by decide) (by decide) (by decide),
      .inr ⟨room_cat _ _, .inl (by decide), ?_⟩⟩, ⟨by decide, by decide⟩, readable_cats _ _ _ (by decide), by decide⟩
  rw [if_neg (by decide)]; decide

/-- A reply without a record for a thread with a neighbour still to try, and for one with none. -/
theorem witness_StealReplyWithoutRecord :
    (let m : StealMsg := ⟨⟨0, 2, 0⟩, .w, 0, none, true⟩
     let w : List Dir → Instr → WaitRec := fun l i => ⟨i, 0x2000, 0, 0, 0, none, .steal l, none, [], none, false, none, []⟩
     let s : List Dir → Instr → State := fun l i =>
       wq (g := fun t => { t with cores := t.cores.set 2 { core0 with stealMsgs := [m], threads := core0.threads.set 0 { th0 with st := .waiting, wait := some (w l i) } } })
     let z : List Dir → Instr → State := fun l i => (s l i).setCore ⟨0, 2⟩ { (s l i).core ⟨0, 2⟩ with stealMsgs := [] }
     ∀ i ∈ [Instr.taskSteal hb (.cat 7), .taskPark hb (.cat 7)], ∀ l ∈ [[Dir.e], []],
       ((s l i).core ⟨0, 2⟩).stealMsgs = [m] ∧ m.reply = true ∧ m.thief = ⟨0, 2, 0⟩ ∧ m.arrive ≤ (s l i).cycle ∧ ((s l i).core ⟨0, 2⟩).repack = none ∧ m.rec? = none ∧
       ((s l i).thread ⟨0, 2, 0⟩).wait = some (w l i) ∧ (w l i).taskWait = some (.cat 7, 0x2000, 4) ∧ ((s l i).thread ⟨0, 2, 0⟩).st ≠ .frozen ∧
       (z [.e] i).victims ⟨0, 2, 0⟩ [.e] = .e :: [] ∧ (z [.e] i).victim ⟨0, 2, 0⟩ .e = some 1 ∧ (z [] i).victims ⟨0, 2, 0⟩ [] = []) := by decide

/-- Three weights of which a draw below a third picks the first and another a later one, a bad weight among them; a draw that has run its cycles. -/
theorem witness_DrawPicks :
    weightUnits [.fin false 1 0, .nan, .fin false 1 1] = [1, 0, 2] ∧ ([FVal.fin false 1 0, .nan, .fin false 1 1].filter badWeight).length = 1 ∧
    Picks [1, 0, 2] 0 0 ∧ Picks [1, 0, 2] (2 ^ 32 - 1) 2 ∧
    (let i : Instr := .smpDraw hb (.cat 7) (.cat 6) (.cat 8)
     let s := (wran i).setMe { (wran i).me with names := (names0.set 6 (BitVec.ofNat 528 (0x4000 + 2 ^ 35 * 2 + 2 ^ 53))).set 8 0 }
     Passes s i hb [.cat 6, .cat 8] [.cat 7] ∧ Readable s s [.cat 6, .cat 8] ∧ s.ranOut = true ∧ s.poisoned (localKey 0 0x4000) 4 = false ∧ DrawsLeft s 1 ∧
      Room s (.cat 7) ∧ s.myCore.slotAhead s.cur.h s.mySeq 0 = false ∧ s.myCore.slotAhead s.cur.h s.mySeq (slotCode true 15) = false ∧
      ∃ ds s3, (s.countN s.cur.coreRef 0x29 0).draws 1 ((s.countN s.cur.coreRef 0x29 0).found s.cur 0 s.myKernel.ctx (localKey 0 0x4000) 4) = .ok (ds, s3) ∧
        ∃ t, s.writeDrawn (s.countN s.cur.coreRef 0x29 0) i (.cat 7) 0x4_FFFF_FFFF s3 = .ok t) := by
  refine ⟨by decide, by decide, ⟨by decide, by decide, by omega⟩, ⟨by decide, by decide, ?_⟩, ⟨by decide, by decide⟩, readable_cats _ _ _ (by decide), by decide, by decide,
    .inr (by decide), room_cat _ _, by decide, by decide, _, _, rfl, _, rfl⟩
  intro k hk
  obtain rfl | rfl : k = 0 ∨ k = 1 := by omega
  all_goals decide

/-- A stream and a drain on one tile whose blocks lie apart, without and with a sampler block. -/
theorem witness_ArrayBlocks :
    (let c : Word64 := 0x0000_0101_0100_0001
     let s := wmx (mx0 3 0x4000 0x6000) c
     Memory.wf s.mem = true ∧ overlaps 0x4000 (actSize c) 0x6000 (accSize c) = false ∧ (0 : Int) ≤ (mx0 3 0x4000 0x6000).b ∧ 0 < cfgM c ∧ 0 < cfgN c) ∧
    (let c : Word64 := 0x0000_0101_0100_0002
     let s := (wmx (mx0 4 0x4000 0x6000) c).putLocalWord 0 0x6000 0x7000
     let u := s.setCore ⟨0, 2⟩ { s.core ⟨0, 2⟩ with smp := true, threads := (s.core ⟨0, 2⟩).threads.set 7 { Thread.fresh with smpb := 0x1FDF } }
     cfgFmt c ≠ 1 ∧ s.samplerBlock 0 = none ∧ (u.samplerBlock 0).isSome = true ∧ Memory.wf s.mem = true ∧ (s.drainWords 0 c 0x6000).getD 0 0 = 0x7000 ∧
      overlaps 0x7000 (outRow c 0 * cfgM c) 0x4000 (accSize c) = false ∧ s.blockPoison 0 0x4000 (cfgM c) (accRow c) (4 * cfgN c) = none) := by decide

/-- A command that the arithmetic core may not give, one past a threshold, and a set of one page in a context that is there. -/
theorem witness_EngineCodes :
    (let b : CmdBuf := ⟨0, 5, copy0, 0, 0, 0, 0, 0⟩
     let s := w0.setCore ⟨0, 2⟩ { core0 with cbuf := [b], submitted := 1 }
     (s.core ⟨0, 2⟩).cbuf.find? (fun b => b.words.length == b.need) = some b ∧ cmdRole 2 copy0 = true ∧ s.statusRoom ⟨0, 2⟩ copy0 3 0 = true ∧ cmdSem copy0 = none) ∧
    (let c : EngCmd := { cmd0 copy0 2 with clips := 1, thresh := 0x1_0000_0000 }
     (weng c).engHead 0 0 0 = some c ∧ cmdElems copy0 ≤ 2 ∧ c.decided false = false ∧ cmdFo copy0 = false ∧ c.counts.trips c.thresh = true ∧ cmdSem copy0 = none ∧
      (weng c).statusRoom ⟨0, 0⟩ copy0 9 (2 * cmdOffE copy0) = true ∧ ((weng c).thread ⟨0, 0, 0⟩).pend = none) ∧
    (let h : Shadow := ⟨3, 0, 8, 0, 1, 0, 7⟩
     let s := wg.setMyCore { wg.myCore with shadows := [h] }
     (s.core s.cur.coreRef).shadows = [h] ∧ (s.context? 0).isSome = true ∧ ((s.context? 0).bind fun x => x.entryAt (2 ^ 16 * 8)).isSome = false) := by decide

/-- Commands of the host: a range enabled and one not, an exported window, a pre-emption beside a pending one; and what a restart holds back. -/
theorem witness_HostSide :
    (let w : FmtRange := ⟨1, 2, 0x1000, 2, false, true⟩
     frMay w (((List.finRange 32).filter (· != (0 : Fin 32))).map fun j => wh.fr[(0 : Fin 2)][j]) = true ∧ frMay { w with sbase := 0x200 } [] = false) ∧
    (let c := cm [0, 63, BitVec.ofNat 64 (2 ^ 63), 1, 0]
     wh.red = false ∧ hostArg c 1 = 63 ∧ (hostArg c 2).testBit 63 = true ∧ hostArg c 3 % 2 ^ 14 ≠ 0) ∧
    (let s := { (wq (f := fun g => { g with preempt := some ⟨false, 0, 0, []⟩ })) with launches := [{ launch0 with preCmd := [(0, 1)] }] }
     s.launch? (BitVec.ofNat 64 (hostArg (cm [5, 7, 1]) 1)) = some { launch0 with preCmd := [(0, 1)] } ∧ ∃ g ∈ s.gangs, g.lid = 7) ∧
    (let m : StatusMsg := ⟨7, 0, (0, 0), 0, 5, 0⟩
     let s : Bool → State := fun b => { wq with flying := [m], launches := [launch0], cpDown := w0.cpDown.set 0 b }
     ∀ b ∈ [true, false], (s b).flying = m :: [] ∧ (s b).cpDown[(0 : Fin 2)] = b ∧ ((s b).cpq[(0 : Fin 2)]).length < 64 ∧ gang0.die = (0 : Fin 2).val ∧
       ((s b).gangs.find? fun g => g.lid == m.lid && g.num == m.num && (g.st == .live || g.st == .draining) && (s b).gangTile g 0 0 == 0) = some gang0) ∧
    ((wg.context? 0).isSome = true ∧ wg.tiles ≠ []) ∧
    (State.reset.rdy = false ∧ ({ wh with cfg := { wh.cfg with valid := true, version := 4 }, fwArb := 5 } : State).checkedTable.valid = false ∧
      ({ wh with cfg := { wh.cfg with valid := true, version := 5 }, fwArb := 5 } : State).checkedTable.valid = true ∧ wh.stackBad = false) := by decide

/-- A store to another module, unanswered for 2^24 cycles where the free value of its address says that the module is silent, and a command that still moves. -/
theorem witness_PeerTimeouts :
    (let e : StoreEntry := ⟨0, 0, 0, 0x8_0000, [1], none, .plain, 7, 0⟩
     let x : TEntry := ⟨0, true, 8, 0, 0, peerBase / 2 ^ 16⟩
     let s0 := wg.setTile 0 { wg.tile 0 with tlb := [x] }
     let s : State := { (s0.setMyCore { s0.myCore with sbuf := [e] }) with cycle := 2 ^ 24 }
     (s.thread s.cur).wait = none ∧ (s.core s.cur.coreRef).sbuf = e :: [] ∧ e.h = s.cur.h ∧ e.form = .plain ∧ (s.tile 0).side = [] ∧
      e.since + 2 ^ 24 ≤ s.cycle ∧ s.tlb? 0 e.ctx e.addr = some x ∧ homeOf (x.pa e.addr) = some .peer) ∧
    (let c := cmd0 copy0 0
     let s : State := { weng { c with pass := some true } with cycle := 2 ^ 24 }
     s.engHead 0 0 0 = some { c with pass := some true } ∧ ({ c with pass := some true } : EngCmd).moves = true ∧ c.moved + 2 ^ 24 ≤ s.cycle ∧
      (s.core ⟨0, 0⟩).sbuf = [] ∧ ∀ (f : Fin 2) (p : Fin 4), (f, p) ≠ (0, 0) → s.engHead 0 f p = none) := by decide

/-- A write behind one of other bytes; a reply that keeps an old value; a passive core; and a leader's group whose attached member has done all. -/
theorem witness_OrderAndGroups :
    (let o : VaultWrite := ⟨3, none, capBase, [0], [], []⟩
     let v : VaultWrite := ⟨3, none, capBase + 1, [0], [], []⟩
     let s : State := { w0 with vwrites := [o, v] }
     (s.vwrites.filter fun x => x.buf == 3)[1]? = some v ∧ (o.addr + o.old.length ≤ v.addr) ∧ s.fencedOff v = false) ∧
    (let p : Reply := ⟨0, .cat 7, .old 9, true, none, none⟩
     let s := wc fun c => { c with replies := [p] }
     (s.core ⟨0, 2⟩).replies = p :: [] ∧ (s.core ⟨0, 2⟩).repack = none) ∧
    (let m : Thread := { th0 with vg := .attached, vgLeader := some ⟨0, 2, 0⟩ }
     let s := (wq.setMe { wq.me with vg := .leader, vgSize := 2 }).setCore ⟨1, 2⟩ { core0 with threads := core0.threads.set 0 m }
     s.vgMembers s.cur .attached = [⟨1, 2, 0⟩] ∧ (s.thread ⟨1, 2, 0⟩).vgDone = true ∧ s.vgMembers s.cur .detached = []) ∧
    w0.stage.map (·.1) ≠ some tagBar ∧
    registerDst (.aluMov hb (.cat 2) (.cat 0)) = some (.cat 2) ∧ registerDst (.aluiSet hb (.cat 2) 0) = some (.cat 2) ∧ registerDst (.shfIns he (.cat 2) (.cat 0) 0 4) = some (.cat 2) ∧
    registerDst (.cmpSel he (.cat 2) (.cat 0) (.cat 1) (.cat 3)) = some (.cat 2) ∧ registerDst (.widWidth hb (.cat 2) (.cat 0)) = some (.cat 2) ∧
    registerDst (.vecfAdd hb (.cat 11) (.cat 11) (.cat 12) .f32 .attr) = some (.cat 11) := by decide

end Sys2Proof.Tests
end

section
/-! The control transfers of 06 R113 to R120: what their courses answer once issue has passed and their operand is read, and the
statements Transfers and CallsAndReturns from it. -/
namespace Sys2Proof.Machine
open Sys2Proof.Claims

/-! ### What a read that finds errors leaves alone (R371) -/

/-- What no step of a fold changes, the fold does not change. -/
theorem foldl_keeps {σ ε τ : Type} (get : σ → τ) {f : σ → ε → σ} (hf : ∀ s e, get (f s e) = get s) (l : List ε) (s : σ) :
    get (l.foldl f s) = get s := by
  induction l generalizing s with
  | nil => rfl
  | cons e l ih => exact (ih (f s e)).trans (hf s e)

/-- The threads of a state are read off its tiles. -/
theorem State.thread_of_tiles {s s1 : State} (h : s1.tiles = s.tiles) (u : ThreadRef) : s1.thread u = s.thread u := by
  simp only [State.thread, State.core, State.tile, h]
@[simp] theorem State.bufError_cur (s : State) (e : Nat × Bool) : (s.bufError e).cur = s.cur := by
  unfold State.bufError; split <;> rfl
@[simp] theorem State.thread_bufError (s : State) (e : Nat × Bool) (u : ThreadRef) : (s.bufError e).thread u = s.thread u :=
  State.thread_of_tiles (by unfold State.bufError; split <;> rfl) u
@[simp] theorem State.faultRecord_cur (s : State) (tile kind cause va ctx core h : Nat) :
    (s.faultRecord tile kind cause va ctx core h).cur = s.cur := by
  unfold State.faultRecord; dsimp only; split <;> rfl
@[simp] theorem State.thread_faultRecord (s : State) (tile kind cause va ctx core h : Nat) (u : ThreadRef) :
    (s.faultRecord tile kind cause va ctx core h).thread u = s.thread u :=
  State.thread_of_tiles (by unfold State.faultRecord; dsimp only; split <;> rfl) u

/-- Counting, recording and reporting the errors under a read changes neither which thread is current nor any thread. -/
theorem State.found_keeps (s : State) (t : ThreadRef) (kind ctx k n : Nat) :
    (s.found t kind ctx k n).cur = s.cur ∧ ∀ u, (s.found t kind ctx k n).thread u = s.thread u := by
  unfold State.found
  split
  · exact ⟨rfl, fun _ => rfl⟩
  · constructor
    · rw [foldl_keeps State.cur fun z e => z.faultRecord_cur ..]
      change (State.countN _ _ _ _).cur = s.cur
      rw [State.countN_cur, State.countN_cur, foldl_keeps State.cur State.bufError_cur]
    · intro u
      rw [foldl_keeps (State.thread · u) fun z e => z.thread_faultRecord .., State.thread_activate, State.thread_countN,
        State.thread_countN, foldl_keeps (State.thread · u) fun z e => z.thread_bufError e u]
      rfl
@[simp] theorem State.found_cur (s : State) (t : ThreadRef) (kind ctx k n : Nat) : (s.found t kind ctx k n).cur = s.cur :=
  (s.found_keeps t kind ctx k n).1
@[simp] theorem State.me_found (s : State) (t : ThreadRef) (kind ctx k n : Nat) : (s.found t kind ctx k n).me = s.me := by
  obtain ⟨hc, ht⟩ := s.found_keeps t kind ctx k n
  rw [State.me, hc, ht]; rfl

/-! ### The checks of issue and of R113 -/

theorem State.issue_of_passes {s : State} {i : Instr} {h : Hdr} {srcs dsts : List NameRef} (hp : Passes s i h srcs dsts) :
    s.issue i h srcs dsts none = .ok s := State.issue_ok hp.1 rfl hp.2

theorem targetCause_of_target {t : Int} (ht : Target t) : targetCause t = none := by
  obtain ⟨ha, hl, hu⟩ := ht
  rw [targetCause, if_neg (by omega), if_neg (by omega)]
theorem targetCause_of_refused {t : Int} {c : Cause} (ht : Refused t c) : targetCause t = some c := by
  obtain ⟨ha, rfl⟩ | ⟨ha, ho, rfl⟩ := ht
  · rw [targetCause, if_pos ha]
  · rw [targetCause, if_neg (by omega), if_pos ho]

theorem finish_transfer_of_target {t : Int} (ht : Target t) (s0 s : State) : finish (s0.transfer t s) = .next (s.goTo t.toNat) := by
  rw [State.transfer, targetCause_of_target ht]; rfl
theorem finish_transfer_of_refused {t : Int} {c : Cause} (ht : Refused t c) (s0 s : State) :
    finish (s0.transfer t s) = .next (s0.takeTrap s0.cur c s0.me.pc (w64 t)) := by
  rw [State.transfer, targetCause_of_refused ht]; rfl
theorem finish_callTo_of_refused {t : Int} {c : Cause} (ht : Refused t c) (s0 s : State) (i : Instr) (h : Hdr) :
    finish (s0.callTo i h t s) = .next (s0.takeTrap s0.cur c s0.me.pc (w64 t)) := by
  rw [State.callTo, targetCause_of_refused ht]; rfl

/-! ### Courses past issue: each is its transfer from the state in which the operand is read -/

section
variable {s s1 : State} {i : Instr} {h : Hdr} {a : NameRef} {x : Src}

theorem branchM_of_read (hp : Passes s i h [a] []) (hr : s.read i h a s = .ok (x, s1)) (off : BitVec 32) (c : Int → Bool) :
    branchM s i h a off c = if c x.val then s.transfer (target s off) s1 else .ok (s1.done h) := by
  rw [branchM, State.issue_of_passes hp]
  simp only [bind, Except.bind, hr]; rfl
theorem relM_of_passes (hp : Passes s i h [] []) (off : BitVec 32) : relM s i h off = s.transfer (target s off) s := by
  rw [relM, State.issue_of_passes hp]; rfl
theorem indM_of_read (hp : Passes s i h [a] []) (hr : s.read i h a s = .ok (x, s1)) (off : BitVec 32) :
    indM s i h a off = s.transfer (x.val + 4 * off.toInt) s1 := by
  rw [indM, State.issue_of_passes hp]
  simp only [bind, Except.bind, hr]
theorem callRelM_of_passes (hp : Passes s i h [] []) (off : BitVec 32) :
    callRelM s i h off = s.callTo i h (target s off) s := by
  rw [callRelM, State.issue_of_passes hp]; rfl
theorem callIndM_of_read (hp : Passes s i h [a] []) (hr : s.read i h a s = .ok (x, s1)) (off : BitVec 32) :
    callIndM s i h a off = s.callTo i h (x.val + 4 * off.toInt) s1 := by
  rw [callIndM, State.issue_of_passes hp]
  simp only [bind, Except.bind, hr]
end

/-- A conditional branch runs the common course with its own condition, decided (R115). -/
theorem exec_branch {i : Instr} {h : Hdr} {a : NameRef} {off : BitVec 32} {c : Int → Prop} (hb : branch i = some (h, a, off, c)) :
    ∃ b : Int → Bool, (∀ v, b v = true ↔ c v) ∧ ∀ s, exec i s = finish (branchM s i h a off b) := by
  unfold branch at hb
  split at hb <;> cases hb
  all_goals exact ⟨_, fun _ => decide_eq_true_iff, fun _ => rfl⟩

/-- A branch whose condition holds is its transfer; one whose condition does not hold is completed and checks no target (R115). -/
theorem exec_branch_of_read {i : Instr} {h : Hdr} {a : NameRef} {off : BitVec 32} {c : Int → Prop} (hb : branch i = some (h, a, off, c))
    {s s1 : State} {x : Src} (hp : Passes s i h [a] []) (hr : s.read i h a s = .ok (x, s1)) :
    (c x.val → exec i s = finish (s.transfer (target s off) s1)) ∧ (¬ c x.val → exec i s = .next (s1.done h)) := by
  obtain ⟨b, hbc, he⟩ := exec_branch hb
  rw [he, branchM_of_read hp hr]
  constructor
  · intro hc; rw [if_pos ((hbc _).2 hc)]
  · intro hc; rw [if_neg (mt (hbc _).1 hc)]; rfl

/-! ### Calls (R118, R120) -/

/-- A call whose course is `callTo` of an admitted target does to the return stack what R120 says. -/
theorem callFrom_of_course {s z : State} {i : Instr} {h : Hdr} {v : Int} (ht : Target v) (he : exec i s = finish (s.callTo i h v z)) :
    CallFrom s i h v z := by
  rw [State.callTo, targetCause_of_target ht] at he
  dsimp only [Thread.spillAddr] at he
  refine ⟨fun hroom => ?room, fun hfull hlim => ?noneLeft, fun hfull hlim hk => ?beyond, fun hfull hlim hk hboard => ?spill⟩
  case room => rw [he, if_pos hroom]; rfl
  all_goals rw [if_neg (Nat.not_lt.2 hfull)] at he
  case noneLeft => rw [he, if_pos hlim]; rfl
  all_goals rw [if_neg (Nat.not_le.2 hlim)] at he
  case beyond => rw [he, if_pos hk]; rfl
  case spill =>
    rw [if_neg (Nat.not_lt.2 hk), if_neg (by rw [hboard]; decide)] at he
    rw [he]; rfl

/-! ### Returns (R120) -/

section
variable {s : State} {i : Instr} {h : Hdr} (hp : Passes s i h [] [])
include hp

/-- A return with entries in the hardware stack transfers to the newest and pops it. -/
theorem retM_of_entry {r : Nat} {l : List Nat} (hr : s.me.rstack = r :: l) :
    retM s i h = s.transfer r (s.setMe { s.me with rstack := l }) := by
  rw [retM, State.issue_of_passes hp]
  simp only [bind, Except.bind, hr]
/-- A return with no entry in the hardware stack and none spilled raises RSTACK. -/
theorem retM_of_nothing (hr : s.me.rstack = []) (hc : s.me.rsCnt.toNat = 0) : retM s i h = trapM s .rstack 0 := by
  rw [retM, State.issue_of_passes hp]
  simp only [bind, Except.bind, hr, if_pos hc]
/-- A return with no entry in the hardware stack refills it by the newest spilled word, which is checked for its address, for errors and
by R113. -/
theorem retM_of_spilled (hr : s.me.rstack = []) (hc : 0 < s.me.rsCnt.toNat) {k : Nat} (hk : k = s.me.spillAddr (s.me.rsCnt.toNat - 1)) :
    retM s i h =
      if k > 0x7_FFF8 then trapM s .access (n64 k)
      else if s.boardW s.cur.tile k 8 then holdM s i tagBoard none
      else if s.poisoned (localKey s.cur.tile k) 8 then poisonM s 0 s.myKernel.ctx (localKey s.cur.tile k) 8 (n64 k)
      else s.transfer (s.localWord s.cur.tile k)
        ((s.setMe { s.me with rsCnt := s.me.rsCnt - 1 }).found s.cur 0 s.myKernel.ctx (localKey s.cur.tile k) 8) := by
  subst hk
  rw [retM, State.issue_of_passes hp]
  simp only [bind, Except.bind, hr, if_neg (Nat.ne_of_gt hc)]
end

/-- POISON of the current instruction: from the state in which its error has been found. -/
theorem finish_poisonM (s : State) (kind ctx k n : Nat) (v : Word64) :
    finish (poisonM s kind ctx k n v) = .next ((s.found s.cur kind ctx k n).takeTrap s.cur .poison s.me.pc v) := by
  simp [poisonM, trapM, finish]

end Sys2Proof.Machine

namespace Sys2Proof.Proofs
open Sys2Proof.Machine Sys2Proof.Claims

theorem branches : Branches := by
  intro s i h a off c hb hp x s1 hr
  obtain ⟨htaken, hpast⟩ := exec_branch_of_read hb hp hr
  exact ⟨fun hc ht => (htaken hc).trans (finish_transfer_of_target ht s s1), hpast⟩

theorem jumps : Jumps := fun s _ _ off =>
  ⟨fun hp ht => (congrArg finish (relM_of_passes hp off)).trans (finish_transfer_of_target ht s s),
    fun hp ht => (congrArg finish (relM_of_passes hp off)).trans (finish_transfer_of_target ht s s),
    fun hp _ s1 hr ht => (congrArg finish (indM_of_read hp hr off)).trans (finish_transfer_of_target ht s s1)⟩

theorem badTargets : BadTargets := by
  intro s h a off v c hv
  refine ⟨?relative, ?indirect, ?ret⟩
  case relative =>
    rintro rfl
    have htrap := finish_transfer_of_refused hv s
    exact ⟨fun hp => (congrArg finish (relM_of_passes hp off)).trans (htrap s),
      fun hp => (congrArg finish (relM_of_passes hp off)).trans (htrap s),
      fun hp => (congrArg finish (callRelM_of_passes hp off)).trans (finish_callTo_of_refused hv s s _ h),
      fun i q hb hp x s1 hr hq => ((exec_branch_of_read hb hp hr).1 hq).trans (htrap s1)⟩
  case indirect =>
    rintro x s1 rfl
    exact ⟨fun hp hr => (congrArg finish (indM_of_read hp hr off)).trans (finish_transfer_of_refused hv s s1),
      fun hp hr => (congrArg finish (callIndM_of_read hp hr off)).trans (finish_callTo_of_refused hv s s1 _ h)⟩
  case ret =>
    rintro r l hp hr rfl
    exact (congrArg finish (retM_of_entry hp hr)).trans (finish_transfer_of_refused hv s _)

/-- Settles O5: each transfer is the check of R113 on its target, from the state in which its operand is read. -/
theorem transfers : Obligations.Transfers := ⟨branches, jumps, badTargets⟩

/-- R120's order of checks, for a return that refills the hardware stack from the spill area: the address, then errors, then the target. -/
theorem exec_callRet_of_spilled {s : State} {h : Hdr} (hp : Passes s (.callRet h) h [] []) (hr : s.me.rstack = []) (hc : 0 < s.me.rsCnt.toNat) {k : Nat}
    (hk : k = 8 * (s.me.rsBase.toNat + (s.me.rsCnt.toNat - 1))) :
    (0x7_FFF8 < k → exec (.callRet h) s = .next (s.takeTrap s.cur .access s.me.pc (n64 k))) ∧
    (k ≤ 0x7_FFF8 → s.boardW s.cur.tile k 8 = false → s.poisoned (localKey s.cur.tile k) 8 = true →
      exec (.callRet h) s = .next ((s.found s.cur 0 s.myKernel.ctx (localKey s.cur.tile k) 8).takeTrap s.cur .poison s.me.pc (n64 k))) ∧
    (k ≤ 0x7_FFF8 → s.boardW s.cur.tile k 8 = false → s.poisoned (localKey s.cur.tile k) 8 = false →
      exec (.callRet h) s = finish (s.transfer (s.localWord s.cur.tile k)
        ((s.setMe { s.me with rsCnt := s.me.rsCnt - 1 }).found s.cur 0 s.myKernel.ctx (localKey s.cur.tile k) 8))) := by
  have he : exec (.callRet h) s = _ := congrArg finish (retM_of_spilled hp hr hc hk)
  refine ⟨fun hbeyond => ?_, fun hin hboard hbad => ?_, fun hin hboard hbad => ?_⟩
  · rw [he, if_pos hbeyond]; rfl
  · rw [he, if_neg (Nat.not_lt.2 hin), hboard, if_neg Bool.false_ne_true, if_pos hbad, finish_poisonM]
  · rw [he, if_neg (Nat.not_lt.2 hin), hboard, if_neg Bool.false_ne_true, hbad, if_neg Bool.false_ne_true]

/-- Settles O6: the branches of R120, in its order, for calls by `callFrom_of_course` and for returns by where the newest entry stands. -/
theorem callsAndReturns : Obligations.CallsAndReturns := by
  intro s h a off
  refine ⟨fun hp ht => ?callRel, fun hp x s1 hr ht => ?callInd, fun hp => ⟨fun r l hr ht => ?pop, fun hr hc => ?nothing, fun hr hc k hk => ?refill⟩⟩
  case callRel => exact callFrom_of_course ht (congrArg finish (callRelM_of_passes hp off))
  case callInd => exact callFrom_of_course ht (congrArg finish (callIndM_of_read hp hr off))
  case pop => exact (congrArg finish (retM_of_entry hp hr)).trans (finish_transfer_of_target ht s _)
  case nothing => exact congrArg finish (retM_of_nothing hp hr hc)
  case refill =>
    obtain ⟨hbeyond, hpoison, hword⟩ := exec_callRet_of_spilled hp hr hc hk
    exact ⟨hbeyond, hpoison, fun hin hboard hclean =>
      ⟨fun ht => (hword hin hboard hclean).trans (finish_transfer_of_target ht s _),
        fun c hv => (hword hin hboard hclean).trans (finish_transfer_of_refused hv s _)⟩⟩

end Sys2Proof.Proofs
end

section
/-! The fences of 13 R255 and R261: what a fence waits for, what `fenceOf` answers, and the statement Fences from it. -/
namespace Sys2Proof.Machine
open Sys2Proof.Claims

/-! ### What a fence waits for (R255, R261) -/

/-- A vault write that a place in a core's order finds not yet durable, whichever bytes it wrote (R261). -/
theorem VaultWrite.before_allBytes_iff (v : VaultWrite) (r : CoreRef) (n : Nat) :
    v.before r n allBytes = true ↔ ∃ w, v.who = some w ∧ w.core = r ∧ w.seq < n := by
  unfold VaultWrite.before
  cases v.who <;> simp [allBytes]

/-- A fence over all bytes is clear exactly when the store buffer and the side log hold nothing of its core before it in its scope and,
under `rec`, every vault write before it is durable. -/
theorem State.fenceClear_allBytes_iff (s : State) (sc : Scope) :
    s.fenceClear sc allBytes = true ↔
      (∀ e ∈ s.myCore.sbuf, e.seq < s.mySeq → inScope sc e.home = false) ∧
      (∀ e ∈ s.myTile.side, e.core = s.cur.core → e.seq < s.mySeq → inScope sc e.home = false) ∧
      (sc = .recov → ∀ v ∈ s.vwrites, ∀ w, v.who = some w → w.core = s.cur.coreRef → ¬ w.seq < s.mySeq) := by
  have hvault : (s.vwrites.any fun v => v.before s.cur.coreRef s.mySeq allBytes) = false ↔
      ∀ v ∈ s.vwrites, ∀ w, v.who = some w → w.core = s.cur.coreRef → ¬ w.seq < s.mySeq := by
    simp only [List.any_eq_false, VaultWrite.before_allBytes_iff, not_exists, not_and]
  rw [← hvault, Decidable.imp_iff_not_or (a := sc = .recov)]
  simp only [State.fenceClear, allBytes, Bool.and_true, Bool.and_eq_true, Bool.or_eq_true, Bool.not_eq_true', List.any_eq_false,
    bne_iff_ne, ne_eq, beq_iff_eq, decide_eq_true_eq, not_and, Bool.not_eq_true, and_assoc]

/-- One entry of its scope, or one write not yet durable, is enough to keep a fence over all bytes from being clear. -/
theorem State.fenceClear_allBytes_of_pending {s : State} {sc : Scope}
    (hpend : (∃ e ∈ s.myCore.sbuf, e.seq < s.mySeq ∧ inScope sc e.home = true) ∨
      (∃ e ∈ s.myTile.side, e.core = s.cur.core ∧ e.seq < s.mySeq ∧ inScope sc e.home = true) ∨
      (sc = .recov ∧ ∃ v ∈ s.vwrites, ∃ w, v.who = some w ∧ w.core = s.cur.coreRef ∧ w.seq < s.mySeq)) :
    s.fenceClear sc allBytes = false := by
  refine Bool.eq_false_iff.2 fun hclear => ?_
  obtain ⟨hbuf, hside, hvault⟩ := (s.fenceClear_allBytes_iff sc).1 hclear
  obtain ⟨e, he, hlt, hin⟩ | ⟨e, he, hcore, hlt, hin⟩ | ⟨hsc, v, hv, w, hw, hcore, hlt⟩ := hpend
  case inl => exact Bool.false_ne_true ((hbuf e he hlt).symm.trans hin)
  case inr.inl => exact Bool.false_ne_true ((hside e he hcore hlt).symm.trans hin)
  case inr.inr => exact hvault hsc v hv w hw hcore hlt

/-- Scopes `thr` and `core` order nothing (R245): no fence of theirs waits for an entry or a write. -/
theorem State.fenceClear_of_narrow (s : State) {sc : Scope} (hsc : sc = .thr ∨ sc = .core) : s.fenceClear sc allBytes = true := by
  rw [s.fenceClear_allBytes_iff]
  obtain rfl | rfl := hsc <;> exact ⟨fun _ _ _ => rfl, fun _ _ _ _ => rfl, nofun⟩

/-! ### What a fence answers (R250, R255) -/

section
variable {s : State} {sc : Scope} (s0 : State) (i : Instr)

theorem State.fenceOf_of_narrow (hsc : sc = .thr ∨ sc = .core) : s0.fenceOf i sc s = .ok () := by
  obtain rfl | rfl := hsc <;> rfl
theorem State.fenceOf_of_wide (hthr : sc ≠ .thr) (hcore : sc ≠ .core) :
    s0.fenceOf i sc s =
      if s.portHeld then holdM s0 i tagOrder none else if s.fenceClear sc allBytes then .ok () else holdM s0 i tagFence none := by
  cases sc with
  | thr => exact absurd rfl hthr
  | core => exact absurd rfl hcore
  | tile | clu | die | dev | sys | recov => rfl

/-- Behind an older access at the memory port a fence waits before it looks at any entry. -/
theorem State.fenceOf_of_portHeld (hthr : sc ≠ .thr) (hcore : sc ≠ .core) (hp : s.portHeld = true) :
    s0.fenceOf i sc s = holdM s0 i tagOrder none := by
  rw [State.fenceOf_of_wide s0 i hthr hcore, if_pos hp]
/-- Past the memory port, a fence of any scope goes on or waits as it is clear or not. -/
theorem State.fenceOf_of_port_free (hp : s.portHeld = false) :
    s0.fenceOf i sc s = if s.fenceClear sc allBytes then .ok () else holdM s0 i tagFence none := by
  by_cases hsc : sc = .thr ∨ sc = .core
  · rw [State.fenceOf_of_narrow s0 i hsc, if_pos (s.fenceClear_of_narrow hsc)]
  · obtain ⟨hthr, hcore⟩ := not_or.1 hsc
    rw [State.fenceOf_of_wide s0 i hthr hcore, hp, if_neg Bool.false_ne_true]
end

section
variable {s : State} {h : Hdr} {sc : Scope} (hp : Passes s (.syncFence h sc) h [] [])
include hp

/-- Past issue, `sync.fence` is its fence and then its completion. -/
theorem exec_syncFence_of_passes :
    exec (.syncFence h sc) s = finish (s.fenceOf (.syncFence h sc) sc s >>= fun _ => pure (s.done h)) := by
  change finish (fenceM s (.syncFence h sc) h sc) = _
  rw [fenceM, State.issue_of_passes hp]
  rfl
theorem exec_syncFence_of_fenceOf_ok (hf : s.fenceOf (.syncFence h sc) sc s = .ok ()) : exec (.syncFence h sc) s = .next (s.done h) := by
  rw [exec_syncFence_of_passes hp, hf]
  rfl
theorem exec_syncFence_of_fenceOf_hold {tag : Nat} (hf : s.fenceOf (.syncFence h sc) sc s = holdM s (.syncFence h sc) tag none) :
    exec (.syncFence h sc) s = .next (s.hold (.syncFence h sc) (.retry tag 0) none) := by
  rw [exec_syncFence_of_passes hp, hf]
  rfl
end

end Sys2Proof.Machine

namespace Sys2Proof.Proofs
open Sys2Proof.Machine Sys2Proof.Claims

/-- Settles O22: `sync.fence` is what `fenceOf` answers; it goes on for a narrow scope and for one that is clear, and else waits, at the memory
port or for its entries. -/
theorem fences : Obligations.Fences := by
  intro s h sc hp
  refine ⟨fun hsc => ?narrow, fun hport hbuf hside hvault => ?clear, fun hport hpend => ?pending, fun hport hthr hcore => ?held⟩
  case narrow => exact exec_syncFence_of_fenceOf_ok hp (State.fenceOf_of_narrow s _ hsc)
  case clear =>
    refine exec_syncFence_of_fenceOf_ok hp ?_
    rw [State.fenceOf_of_port_free s _ hport, if_pos ((s.fenceClear_allBytes_iff sc).2 ⟨hbuf, hside, hvault⟩)]
  case pending =>
    refine exec_syncFence_of_fenceOf_hold hp ?_
    rw [State.fenceOf_of_port_free s _ hport, State.fenceClear_allBytes_of_pending hpend, if_neg Bool.false_ne_true]
  case held => exact exec_syncFence_of_fenceOf_hold hp (State.fenceOf_of_portHeld s _ hthr hcore hport)

end Sys2Proof.Proofs
end

section
/-! Trap entry, 14 R289: the words an instruction took go back to their ports, one thread gets its trap registers and is redirected to TVEC; what
these three steps leave alone, and the statement TrapEntry from it. -/
namespace Sys2Proof.Machine

theorem State.tile_setCore_other (s : State) {r : CoreRef} {k : Nat} (c : Core) (h : k ≠ r.tile) : (s.setCore r c).tile k = s.tile k :=
  s.tile_setTile_other _ h

theorem State.faultRecord_tiles (s : State) (tile kind cause va ctx core h : Nat) :
    (s.faultRecord tile kind cause va ctx core h).tiles = s.tiles := by
  unfold State.faultRecord; dsimp only; split <;> rfl
theorem State.faultRecord_gangs (s : State) (tile kind cause va ctx core h : Nat) :
    (s.faultRecord tile kind cause va ctx core h).gangs = s.gangs := by
  unfold State.faultRecord; dsimp only; split <;> rfl
theorem State.faultRecord_contexts (s : State) (tile kind cause va ctx core h : Nat) :
    (s.faultRecord tile kind cause va ctx core h).contexts = s.contexts := by
  unfold State.faultRecord; dsimp only; split <;> rfl

/-! ### The cores once an instruction's words are back in their ports (R99) -/

section
variable {s : State} {t : ThreadRef}

theorem portsBack_of_no_wait (hw : (s.thread t).wait = none) : Claims.portsBack s t = s.core := by
  funext r
  simp only [Claims.portsBack, hw]
theorem portsBack_of_wait {w : WaitRec} (hw : (s.thread t).wait = some w) (r : CoreRef) :
    Claims.portsBack s t r = if r = t.coreRef then (s.core r).returnWords w.took else s.core r := by
  simp only [Claims.portsBack, hw]
theorem portsBack_of_nothing_taken {w : WaitRec} (hw : (s.thread t).wait = some w) (hnone : w.took = []) : Claims.portsBack s t = s.core := by
  funext r
  rw [portsBack_of_wait hw, hnone]
  exact ite_self _
end

/-! ### The frame of trap entry -/

/-- `z` is `s` but for threads and event counters, once the cores are set to `cores`: the same tiles outside their cores, the same gangs and
contexts. -/
structure State.TrapFrame (cores : CoreRef → Core) (s z : State) : Prop where
  core : ∀ r, ∃ ts e, z.core r = { cores r with threads := ts, cevt := e }
  tile : ∀ k, ∃ cs, z.tile k = { s.tile k with cores := cs }
  gangs : z.gangs = s.gangs
  contexts : z.contexts = s.contexts

namespace State.TrapFrame
variable {cores : CoreRef → Core} {s y z : State}

theorem of_tiles (ht : z.tiles = s.tiles) (hg : z.gangs = s.gangs) (hc : z.contexts = s.contexts) : TrapFrame s.core s z where
  core r := ⟨(s.core r).threads, (s.core r).cevt, by simp only [State.core, State.tile, ht]⟩
  tile k := ⟨(s.tile k).cores, by simp only [State.tile, ht]⟩
  gangs := hg
  contexts := hc

theorem refl (s : State) : TrapFrame s.core s s := of_tiles rfl rfl rfl

theorem trans (h1 : TrapFrame cores s y) (h2 : TrapFrame y.core y z) : TrapFrame cores s z where
  core r := by
    obtain ⟨_, _, h⟩ := h1.core r
    obtain ⟨ts, e, h'⟩ := h2.core r
    exact ⟨ts, e, by rw [h', h]⟩
  tile k := by
    obtain ⟨_, h⟩ := h1.tile k
    obtain ⟨cs, h'⟩ := h2.tile k
    exact ⟨cs, by rw [h', h]⟩
  gangs := h2.gangs.trans h1.gangs
  contexts := h2.contexts.trans h1.contexts

theorem foldl {ε : Type} {f : State → ε → State} (hf : ∀ z e, TrapFrame z.core z (f z e)) (l : List ε) (s : State) :
    TrapFrame s.core s (l.foldl f s) := by
  induction l generalizing s with
  | nil => exact refl s
  | cons e l ih => exact (hf s e).trans (ih (f s e))

/-- One core set as `cores` has it, but for its threads and counters; the others are there already. -/
theorem setCore {r : CoreRef} {c : Core} (hr : ∃ ts e, c = { cores r with threads := ts, cevt := e })
    (ho : ∀ q, q ≠ r → cores q = s.core q) : TrapFrame cores s (s.setCore r c) where
  core q := by
    by_cases hq : q = r
    · subst hq
      rwa [State.core_setCore_same]
    · exact ⟨(s.core q).threads, (s.core q).cevt, by rw [State.core_setCore_other _ _ hq, ho q hq]⟩
  tile k := by
    by_cases hk : k = r.tile
    · subst hk
      exact ⟨_, s.tile_setTile_same _ _⟩
    · exact ⟨(s.tile k).cores, s.tile_setCore_other c hk⟩
  gangs := rfl
  contexts := rfl

theorem setThread (s : State) (t : ThreadRef) (x : Thread) : TrapFrame s.core s (s.setThread t x) :=
  setCore ⟨_, (s.core t.coreRef).cevt, rfl⟩ fun _ _ => rfl

theorem countN (s : State) (r : CoreRef) (e : Fin 64) (n : Nat) : TrapFrame s.core s (s.countN r e n) := by
  unfold State.countN
  split
  · exact refl s
  · exact setCore ⟨(s.core r).threads, _, rfl⟩ fun _ _ => rfl

theorem bufError (s : State) (e : Nat × Bool) : TrapFrame s.core s (s.bufError e) := by
  unfold State.bufError
  split <;> exact of_tiles rfl rfl rfl

theorem faultRecord (s : State) (tile kind cause va ctx core h : Nat) :
    TrapFrame s.core s (s.faultRecord tile kind cause va ctx core h) :=
  of_tiles (s.faultRecord_tiles ..) (s.faultRecord_gangs ..) (s.faultRecord_contexts ..)

theorem activate (s : State) (k : Nat) : TrapFrame s.core s (s.activate k) := of_tiles rfl rfl rfl

/-- The errors that a read finds leave the list of those unfound, and are counted at their buffers, as events and as fault records (R371). -/
theorem found (s : State) (t : ThreadRef) (kind ctx k n : Nat) : TrapFrame s.core s (s.found t kind ctx k n) := by
  unfold State.found
  split
  · exact activate s k
  · have hlatent : TrapFrame s.core s { s with latent := s.latent.filter fun e => !(errorWords k n).contains e.1 } := of_tiles rfl rfl rfl
    have hbuffers := hlatent.trans (foldl bufError (s.errorsAt k n) _)
    exact (((hbuffers.trans (countN ..)).trans (countN ..)).trans (activate ..)).trans (foldl (fun z e => faultRecord z ..) _ _)

theorem redirect (s : State) (t : ThreadRef) (a : Nat) : TrapFrame s.core s (s.redirect t a) :=
  ((setThread ..).trans (countN ..)).trans (found ..)

/-- Of a core, giving back changes the ports that get back words, and the thread's record of its wait (R99). -/
theorem giveBack (s : State) (t : ThreadRef) : TrapFrame (Claims.portsBack s t) s (s.giveBack t) := by
  unfold State.giveBack
  split
  next w hw =>
    split
    next hnone =>
      rw [portsBack_of_nothing_taken hw (List.isEmpty_iff.1 hnone)]
      exact refl s
    next =>
      have hports : TrapFrame (Claims.portsBack s t) s (s.setCore t.coreRef ((s.core t.coreRef).returnWords w.took)) :=
        setCore ⟨_, _, by rw [portsBack_of_wait hw, if_pos rfl]⟩ fun q hq => by rw [portsBack_of_wait hw, if_neg hq]
      exact hports.trans (setThread ..)
  next hw =>
    rw [portsBack_of_no_wait hw]
    exact refl s

theorem enterTrap (s : State) (t : ThreadRef) (cause : BitVec 8) (epc : Nat) (v : Word64) :
    TrapFrame (Claims.portsBack s t) s (s.enterTrap t cause epc v) :=
  ((giveBack s t).trans (setThread ..)).trans (redirect ..)

end State.TrapFrame

/-! ### The threads -/

/-- A redirect sets one thread's pc and fetch buffer, whatever errors its fetch finds. -/
theorem State.thread_redirect (s : State) (t : ThreadRef) (a : Nat) :
    ∃ f, (s.redirect t a).thread t = { s.thread t with pc := a, fbuf := f } :=
  ⟨s.prefetch t.tile [] [a, a + 4, a + 8, a + 12], by
    rw [State.redirect, (State.found_keeps ..).2, State.countCode, State.thread_countN, State.thread_setThread_same]⟩
theorem State.thread_redirect_other (s : State) {t u : ThreadRef} (a : Nat) (hu : u ≠ t) : (s.redirect t a).thread u = s.thread u := by
  rw [State.redirect, (State.found_keeps ..).2, State.countCode, State.thread_countN, State.thread_setThread_other _ _ hu]

theorem State.thread_enterTrap (s : State) (t : ThreadRef) (cause : BitVec 8) (epc : Nat) (v : Word64) :
    ∃ f, (s.enterTrap t cause epc v).thread t = { (s.thread t).trapped cause epc v with pc := (s.thread t).tvec.toNat, fbuf := f } := by
  obtain ⟨-, -, -, w, hself, -⟩ := s.giveBack_cases t
  obtain ⟨f, hf⟩ := State.thread_redirect ((s.giveBack t).setThread t (((s.giveBack t).thread t).trapped cause epc v)) t
    ((s.giveBack t).thread t).tvec.toNat
  refine ⟨f, hf.trans ?_⟩
  rw [State.thread_setThread_same, hself]
  rfl
theorem State.thread_enterTrap_other (s : State) {t u : ThreadRef} (cause : BitVec 8) (epc : Nat) (v : Word64) (hu : u ≠ t) :
    (s.enterTrap t cause epc v).thread u = s.thread u := by
  obtain ⟨-, -, -, w, -, hother⟩ := s.giveBack_cases t
  rw [State.enterTrap, State.thread_redirect_other _ _ hu, State.thread_setThread_other _ _ hu, hother u hu]

/-! ### Memory -/

theorem State.giveBack_memory (s : State) (t : ThreadRef) :
    (s.giveBack t).latent = s.latent ∧ (s.giveBack t).mem = s.mem ∧ (s.giveBack t).empties = s.empties ∧ (s.giveBack t).poison = s.poison := by
  unfold State.giveBack
  split
  · split <;> exact ⟨rfl, rfl, rfl, rfl⟩
  · exact ⟨rfl, rfl, rfl, rfl⟩

/-- With no error waiting to be found, the fetch of a redirect writes no fault record. -/
theorem State.redirect_memory_of_clean {s : State} (h : s.latent = []) (t : ThreadRef) (a : Nat) :
    (s.redirect t a).mem = s.mem ∧ (s.redirect t a).empties = s.empties ∧ (s.redirect t a).poison = s.poison := by
  rw [State.redirect, State.countCode, State.found_of_clean (by rw [State.countN_latent]; exact h)]
  exact ⟨State.countN_mem .., State.countN_empties .., State.countN_poison ..⟩

theorem State.enterTrap_memory_of_clean {s : State} (h : s.latent = []) (t : ThreadRef) (cause : BitVec 8) (epc : Nat) (v : Word64) :
    (s.enterTrap t cause epc v).mem = s.mem ∧ (s.enterTrap t cause epc v).empties = s.empties ∧
    (s.enterTrap t cause epc v).poison = s.poison := by
  obtain ⟨hlatent, hmem, hempties, hpoison⟩ := s.giveBack_memory t
  obtain ⟨hmem', hempties', hpoison'⟩ := State.redirect_memory_of_clean
    (s := (s.giveBack t).setThread t (((s.giveBack t).thread t).trapped cause epc v)) (hlatent.trans h) t ((s.giveBack t).thread t).tvec.toNat
  exact ⟨hmem'.trans hmem, hempties'.trans hempties, hpoison'.trans hpoison⟩

/-! ### Containment -/

theorem Cause.eq_poison_of_code {c : Cause} : c.code = Cause.poison.code → c = .poison := by
  cases c <;> decide
/-- A trap is entered unless it is a POISON of a containable node (R372). -/
theorem State.takeTrap_of_not_contained {s : State} {t : ThreadRef} {c : Cause} (h : c = .poison → s.containable t = false) (epc : Nat)
    (v : Word64) : s.takeTrap t c epc v = s.enterTrap t c.code epc v :=
  if_neg fun ⟨hcode, hcont⟩ => Bool.false_ne_true ((h (Cause.eq_poison_of_code hcode)).symm.trans hcont)

end Sys2Proof.Machine

namespace Sys2Proof.Proofs
open Sys2Proof.Machine

/-- Settles O8: what is no containment is trap entry, whose three steps set one thread's trap registers, pc and fetch buffer, and keep the
frame `TrapFrame`; memory changes only by the records of errors that the fetch from TVEC finds. -/
theorem trapEntry : Obligations.TrapEntry := by
  intro s t c epc v hcont _
  rw [State.takeTrap_of_not_contained hcont]
  have hframe := State.TrapFrame.enterTrap s t c.code epc v
  exact ⟨s.thread_enterTrap t c.code epc v, fun u hu => s.thread_enterTrap_other c.code epc v hu, hframe.core, hframe.tile, hframe.gangs,
    hframe.contexts, fun hclean => State.enterTrap_memory_of_clean hclean t c.code epc v⟩

end Sys2Proof.Proofs
end

section
/-! Decode and encode agree, 05 R84 to R97: cutting the words of a well-formed instruction gives back its fields, its fields give back the
instruction, and the statement EncodingRoundTrip from it. -/
namespace Sys2Proof.Laws

/-! ### The function map (R94) -/

theorem functionOf_bounds {maj fn : Nat} {x : Layout × Lengths} (h : functionOf maj fn = some x) : maj < 64 ∧ fn < 16 := by
  unfold functionOf at h
  grind

/-- Only `wid.resize` has layout NW (R88). -/
theorem function_of_nw {maj fn : Nat} {lens : Lengths} (h : functionOf maj fn = some (.nw, lens)) : maj = 7 ∧ fn = 0 := by
  unfold functionOf at h
  grind
theorem eq_widResize_of_fields {i : Instr} {h : Hdr} {f : Fields} (ht : toFields i = some (7, 0, h, f)) :
    ∃ n mode width, i = .widResize h n mode width := by
  cases i <;> simp_all [toFields]

/-! ### Fields from words (R85, R88, R89) -/

theorem extFields_extBits {l : Layout} (hl : l ≠ .nw) (f : Fields) (low : BitVec 14) :
    extFields l ((extBits l f).1 ++ low) (extBits l f).2.1 (extBits l f).2.2 = some f := by
  have hd : (f.a ++ f.d ++ low).extractLsb' 14 9 = f.d := by grind
  have ha : (f.a ++ f.d ++ low).extractLsb' 23 9 = f.a := by grind
  have hb : (f.rnd ++ f.sc ++ f.xmod ++ f.c ++ f.b).extractLsb' 0 9 = f.b := by grind
  have hc : (f.rnd ++ f.sc ++ f.xmod ++ f.c ++ f.b).extractLsb' 9 9 = f.c := by grind
  have hx : (f.rnd ++ f.sc ++ f.xmod ++ f.c ++ f.b).extractLsb' 18 8 = f.xmod := by grind
  have hs : (f.rnd ++ f.sc ++ f.xmod ++ f.c ++ f.b).extractLsb' 26 3 = f.sc := by grind
  have hr : (f.rnd ++ f.sc ++ f.xmod ++ f.c ++ f.b).extractLsb' 29 3 = f.rnd := by grind
  cases l
  case nw => exact absurd rfl hl
  all_goals exact congrArg some (Fields.mk.injEq .. ▸ ⟨hd, ha, hb, hc, hr, hs, hx, rfl⟩)

/-- The words of an extended `wid.resize` hold its name, mode and width (R76). -/
theorem extFields_extBits_widResize (d : BitVec 9) (mode : ResizeMode) (width : BitVec 10) (low : BitVec 14) :
    let f : Fields := { d := d, imm := width.setWidth 32, xmod := resizeModeNum mode }
    extFields .nw ((extBits .nw f).1 ++ low) (extBits .nw f).2.1 (extBits .nw f).2.2 = some f := by
  intro f
  have hd : ((0#9 ++ d) ++ low).extractLsb' 14 9 = d := by grind
  have h0 : ((0#9 ++ d) ++ low).extractLsb' 23 9 = 0 := by grind
  have h1 (m : BitVec 2) (n : BitVec 10) : (0#20 ++ m ++ n).extractLsb' 12 20 = 0 := by grind
  have hm (m : BitVec 2) (n : BitVec 10) : (0#20 ++ m ++ n).extractLsb' 10 2 = m := by grind
  have hn (m : BitVec 2) (n : BitVec 10) : (0#20 ++ m ++ n).extractLsb' 0 10 = n := by grind
  have hw : ((width.setWidth 32).setWidth 10).setWidth 32 = width.setWidth 32 := by grind
  have hmode : ((resizeModeNum mode).setWidth 2).setWidth 8 = resizeModeNum mode := by cases mode <;> rfl
  refine (if_pos ⟨h0, h1 _ _, rfl⟩).trans (congrArg some (Fields.mk.injEq .. ▸ ⟨hd, rfl, rfl, rfl, rfl, rfl, ?_, ?_⟩))
  · exact (congrArg (BitVec.setWidth 8) (hm _ _)).trans hmode
  · exact (congrArg (BitVec.setWidth 32) (hn _ _)).trans hw

/-- The low bits of a first word (R85). -/
theorem lowBits_fields (u : BitVec 18) {maj fn : Nat} (h : Hdr) (hm : maj < 64) (hf : fn < 16) :
    let w : Word32 := u ++ lowBits maj fn h
    (w.extractLsb' 2 6).toNat = maj ∧ (w.extractLsb' 10 4).toNat = fn ∧ w.setWidth 2 = formNum h.form ∧
      w.extractLsb' 8 2 = waitNum h.wait := by
  have cut (n : BitVec 4) (v : BitVec 2) (m : BitVec 6) (k : BitVec 2) :
      let w : Word32 := u ++ (n ++ v ++ m ++ k)
      w.extractLsb' 2 6 = m ∧ w.extractLsb' 10 4 = n ∧ w.setWidth 2 = k ∧ w.extractLsb' 8 2 = v := by
    refine ⟨?_, ?_, ?_, ?_⟩ <;> grind
  obtain ⟨hmaj, hfn, hform, hwait⟩ := cut (BitVec.ofNat 4 fn) (waitNum h.wait) (BitVec.ofNat 6 maj) (formNum h.form)
  refine ⟨?_, ?_, hform, hwait⟩
  · exact (congrArg BitVec.toNat hmaj).trans (Nat.mod_eq_of_lt hm)
  · exact (congrArg BitVec.toNat hfn).trans (Nat.mod_eq_of_lt hf)

/-- The literal words hold the literal, which is 0 where the form has none (R84). -/
theorem literalOf_litWords {h : Hdr} (hl : h.literalOk = true) : (if h.form.hasLit then literalOf (litWords h) else 0) = h.lit := by
  unfold Hdr.literalOk at hl
  unfold litWords
  split
  · have : h.lit.extractLsb' 32 32 ++ h.lit.extractLsb' 0 32 = h.lit := by grind
    exact this
  · simp_all

/-- Base fields do not depend on the bits below them. -/
theorem baseFields_low (l : Layout) (u : BitVec 18) (low : BitVec 14) : baseFields l (u ++ low) = baseFields l (u ++ 0#14) := by
  have high (start len : Nat) (hs : 14 ≤ start) : (u ++ low).extractLsb' start len = (u ++ 0#14).extractLsb' start len := by
    rw [BitVec.extractLsb'_append_eq_of_le hs, BitVec.extractLsb'_append_eq_of_le hs]
  have h14 := high 14 6 (by decide)
  have h20 := high 20 6 (by decide)
  have h26 := high 26 6 (by decide)
  cases l <;> simp only [baseFields]
  case n3 | ni => rw [h14, h20, h26]
  case nm => rw [h14, h20, high 26 3 (by decide), high 29 3 (by decide)]
  case nb | nc => rw [h14, high 20 12 (by decide)]
  case nj | nz => rw [high 14 18 (by decide)]
  case nw => rw [h14, high 20 10 (by decide), high 30 2 (by decide)]

/-! ### From the words of an instruction to the instruction (R96) -/

/-- The fields of a well-formed instruction name it again. -/
theorem reencodes : ∀ i : Instr, Reencodes.Statement i
  | .sysHalt _ => Reencodes.sysHalt _
  | .sysNop _ => Reencodes.sysNop _
  | .sysIfence _ => Reencodes.sysIfence _
  | .sysTret _ => Reencodes.sysTret _
  | .sysSvc _ _ => Reencodes.sysSvc _ _
  | .sysGetc _ _ _ => Reencodes.sysGetc _ _ _
  | .sysSetc _ _ _ => Reencodes.sysSetc _ _ _
  | .sysRdevt _ _ _ => Reencodes.sysRdevt _ _ _
  | .sysClrevt _ _ => Reencodes.sysClrevt _ _
  | .sysCycle _ _ => Reencodes.sysCycle _ _
  | .aluAdd _ _ _ _ => Reencodes.aluAdd _ _ _ _
  | .aluSub _ _ _ _ => Reencodes.aluSub _ _ _ _
  | .aluAnd _ _ _ _ => Reencodes.aluAnd _ _ _ _
  | .aluOr _ _ _ _ => Reencodes.aluOr _ _ _ _
  | .aluXor _ _ _ _ => Reencodes.aluXor _ _ _ _
  | .aluAndn _ _ _ _ => Reencodes.aluAndn _ _ _ _
  | .aluMin _ _ _ _ => Reencodes.aluMin _ _ _ _
  | .aluMax _ _ _ _ => Reencodes.aluMax _ _ _ _
  | .aluMov _ _ _ => Reencodes.aluMov _ _ _
  | .aluNeg _ _ _ => Reencodes.aluNeg _ _ _
  | .aluAbs _ _ _ => Reencodes.aluAbs _ _ _
  | .aluPopc _ _ _ => Reencodes.aluPopc _ _ _
  | .aluClz _ _ _ => Reencodes.aluClz _ _ _
  | .aluCtz _ _ _ => Reencodes.aluCtz _ _ _
  | .aluiAdd _ _ _ _ => Reencodes.aluiAdd _ _ _ _
  | .aluiSub _ _ _ _ => Reencodes.aluiSub _ _ _ _
  | .aluiAnd _ _ _ _ => Reencodes.aluiAnd _ _ _ _
  | .aluiOr _ _ _ _ => Reencodes.aluiOr _ _ _ _
  | .aluiXor _ _ _ _ => Reencodes.aluiXor _ _ _ _
  | .aluiMin _ _ _ _ => Reencodes.aluiMin _ _ _ _
  | .aluiMax _ _ _ _ => Reencodes.aluiMax _ _ _ _
  | .aluiSet _ _ _ => Reencodes.aluiSet _ _ _
  | .shfShl _ _ _ _ => Reencodes.shfShl _ _ _ _
  | .shfShr _ _ _ _ => Reencodes.shfShr _ _ _ _
  | .shfRol _ _ _ _ => Reencodes.shfRol _ _ _ _
  | .shfRor _ _ _ _ => Reencodes.shfRor _ _ _ _
  | .shfShli _ _ _ _ => Reencodes.shfShli _ _ _ _
  | .shfShri _ _ _ _ => Reencodes.shfShri _ _ _ _
  | .shfRoli _ _ _ _ => Reencodes.shfRoli _ _ _ _
  | .shfRori _ _ _ _ => Reencodes.shfRori _ _ _ _
  | .shfExt _ _ _ _ _ _ => Reencodes.shfExt _ _ _ _ _ _
  | .shfIns _ _ _ _ _ => Reencodes.shfIns _ _ _ _ _
  | .mulMul _ _ _ _ => Reencodes.mulMul _ _ _ _
  | .mulMac _ _ _ _ => Reencodes.mulMac _ _ _ _
  | .mulMsub _ _ _ _ => Reencodes.mulMsub _ _ _ _
  | .mulMulsh _ _ _ _ _ _ => Reencodes.mulMulsh _ _ _ _ _ _
  | .divDiv _ _ _ _ => Reencodes.divDiv _ _ _ _
  | .divRem _ _ _ _ => Reencodes.divRem _ _ _ _
  | .divDivf _ _ _ _ => Reencodes.divDivf _ _ _ _
  | .divModf _ _ _ _ => Reencodes.divModf _ _ _ _
  | .cmpEq _ _ _ _ => Reencodes.cmpEq _ _ _ _
  | .cmpNe _ _ _ _ => Reencodes.cmpNe _ _ _ _
  | .cmpLt _ _ _ _ => Reencodes.cmpLt _ _ _ _
  | .cmpLe _ _ _ _ => Reencodes.cmpLe _ _ _ _
  | .cmpGt _ _ _ _ => Reencodes.cmpGt _ _ _ _
  | .cmpGe _ _ _ _ => Reencodes.cmpGe _ _ _ _
  | .cmpTst _ _ _ _ => Reencodes.cmpTst _ _ _ _
  | .cmpSel _ _ _ _ _ => Reencodes.cmpSel _ _ _ _ _
  | .widResize _ _ _ _ => Reencodes.widResize _ _ _ _
  | .widWidth _ _ _ => Reencodes.widWidth _ _ _
  | .widFits _ _ _ _ => Reencodes.widFits _ _ _ _
  | .brZ _ _ _ => Reencodes.brZ _ _ _
  | .brNz _ _ _ => Reencodes.brNz _ _ _
  | .brLz _ _ _ => Reencodes.brLz _ _ _
  | .brGez _ _ _ => Reencodes.brGez _ _ _
  | .brGz _ _ _ => Reencodes.brGz _ _ _
  | .brLez _ _ _ => Reencodes.brLez _ _ _
  | .brAl _ _ => Reencodes.brAl _ _
  | .jmpRel _ _ => Reencodes.jmpRel _ _
  | .jmpInd _ _ _ => Reencodes.jmpInd _ _ _
  | .callRel _ _ => Reencodes.callRel _ _
  | .callInd _ _ _ => Reencodes.callInd _ _ _
  | .callRet _ => Reencodes.callRet _
  | .addrGlob _ _ _ => Reencodes.addrGlob _ _ _
  | .addrGen _ _ _ => Reencodes.addrGen _ _ _
  | .addrLea _ _ _ _ => Reencodes.addrLea _ _ _ _
  | .ldB _ _ _ _ => Reencodes.ldB _ _ _ _
  | .ldH _ _ _ _ => Reencodes.ldH _ _ _ _
  | .ldW _ _ _ _ => Reencodes.ldW _ _ _ _
  | .ldD _ _ _ _ => Reencodes.ldD _ _ _ _
  | .ldV _ _ _ _ => Reencodes.ldV _ _ _ _
  | .ldG _ _ _ _ => Reencodes.ldG _ _ _ _
  | .stB _ _ _ _ => Reencodes.stB _ _ _ _
  | .stH _ _ _ _ => Reencodes.stH _ _ _ _
  | .stW _ _ _ _ => Reencodes.stW _ _ _ _
  | .stD _ _ _ _ => Reencodes.stD _ _ _ _
  | .stV _ _ _ _ => Reencodes.stV _ _ _ _
  | .stG _ _ _ _ => Reencodes.stG _ _ _ _
  | .amoSwap _ _ _ _ _ _ => Reencodes.amoSwap _ _ _ _ _ _
  | .amoCas _ _ _ _ _ _ _ => Reencodes.amoCas _ _ _ _ _ _ _
  | .amoAdd _ _ _ _ _ _ => Reencodes.amoAdd _ _ _ _ _ _
  | .amoAnd _ _ _ _ _ _ => Reencodes.amoAnd _ _ _ _ _ _
  | .amoOr _ _ _ _ _ _ => Reencodes.amoOr _ _ _ _ _ _
  | .amoXor _ _ _ _ _ _ => Reencodes.amoXor _ _ _ _ _ _
  | .amoMin _ _ _ _ _ _ => Reencodes.amoMin _ _ _ _ _ _
  | .amoMax _ _ _ _ _ _ => Reencodes.amoMax _ _ _ _ _ _
  | .amoFadd _ _ _ _ _ _ => Reencodes.amoFadd _ _ _ _ _ _
  | .feLdf _ _ _ _ _ => Reencodes.feLdf _ _ _ _ _
  | .feLdk _ _ _ _ _ => Reencodes.feLdk _ _ _ _ _
  | .feStf _ _ _ _ _ => Reencodes.feStf _ _ _ _ _
  | .feSto _ _ _ _ _ => Reencodes.feSto _ _ _ _ _
  | .feClr _ _ _ _ => Reencodes.feClr _ _ _ _
  | .feTst _ _ _ _ _ => Reencodes.feTst _ _ _ _ _
  | .syncBind _ _ _ => Reencodes.syncBind _ _ _
  | .syncUnbind _ _ _ => Reencodes.syncUnbind _ _ _
  | .syncAcq _ _ _ _ => Reencodes.syncAcq _ _ _ _
  | .syncRel _ _ _ _ => Reencodes.syncRel _ _ _ _
  | .syncFence _ _ => Reencodes.syncFence _ _
  | .taskSpawn _ _ _ => Reencodes.taskSpawn _ _ _
  | .taskPop _ _ => Reencodes.taskPop _ _
  | .taskSteal _ _ => Reencodes.taskSteal _ _
  | .taskPark _ _ => Reencodes.taskPark _ _
  | .taskTour _ => Reencodes.taskTour _
  | .taskDone _ _ => Reencodes.taskDone _ _
  | .barArrive _ _ _ => Reencodes.barArrive _ _ _
  | .barWait _ _ _ => Reencodes.barWait _ _ _
  | .barSync _ _ _ => Reencodes.barSync _ _ _
  | .barDone _ _ => Reencodes.barDone _ _
  | .barStat _ _ _ => Reencodes.barStat _ _ _
  | .vecAdd _ _ _ _ _ => Reencodes.vecAdd _ _ _ _ _
  | .vecSub _ _ _ _ _ => Reencodes.vecSub _ _ _ _ _
  | .vecMul _ _ _ _ _ => Reencodes.vecMul _ _ _ _ _
  | .vecMac _ _ _ _ _ => Reencodes.vecMac _ _ _ _ _
  | .vecMin _ _ _ _ _ => Reencodes.vecMin _ _ _ _ _
  | .vecMax _ _ _ _ _ => Reencodes.vecMax _ _ _ _ _
  | .vecAnd _ _ _ _ _ => Reencodes.vecAnd _ _ _ _ _
  | .vecOr _ _ _ _ _ => Reencodes.vecOr _ _ _ _ _
  | .vecXor _ _ _ _ _ => Reencodes.vecXor _ _ _ _ _
  | .vecShl _ _ _ _ _ => Reencodes.vecShl _ _ _ _ _
  | .vecShr _ _ _ _ _ => Reencodes.vecShr _ _ _ _ _
  | .vecAbs _ _ _ _ => Reencodes.vecAbs _ _ _ _
  | .vecSel _ _ _ _ _ _ => Reencodes.vecSel _ _ _ _ _ _
  | .vecfAdd _ _ _ _ _ _ => Reencodes.vecfAdd _ _ _ _ _ _
  | .vecfSub _ _ _ _ _ _ => Reencodes.vecfSub _ _ _ _ _ _
  | .vecfMul _ _ _ _ _ _ => Reencodes.vecfMul _ _ _ _ _ _
  | .vecfFma _ _ _ _ _ _ _ => Reencodes.vecfFma _ _ _ _ _ _ _
  | .vecfMin _ _ _ _ _ _ => Reencodes.vecfMin _ _ _ _ _ _
  | .vecfMax _ _ _ _ _ _ => Reencodes.vecfMax _ _ _ _ _ _
  | .vecfExp2 _ _ _ _ _ => Reencodes.vecfExp2 _ _ _ _ _
  | .vecfRcp _ _ _ _ _ => Reencodes.vecfRcp _ _ _ _ _
  | .vecfRsqrt _ _ _ _ _ => Reencodes.vecfRsqrt _ _ _ _ _
  | .vecfScale _ _ _ _ _ _ => Reencodes.vecfScale _ _ _ _ _ _
  | .vredSum _ _ _ _ _ _ _ => Reencodes.vredSum _ _ _ _ _ _ _
  | .vredMax _ _ _ _ _ _ _ => Reencodes.vredMax _ _ _ _ _ _ _
  | .vredMin _ _ _ _ _ _ _ => Reencodes.vredMin _ _ _ _ _ _ _
  | .vredArgmax _ _ _ _ _ _ _ => Reencodes.vredArgmax _ _ _ _ _ _ _
  | .vredSumsq _ _ _ _ _ _ _ => Reencodes.vredSumsq _ _ _ _ _ _ _
  | .vredScan _ _ _ _ _ _ _ => Reencodes.vredScan _ _ _ _ _ _ _
  | .vmovMov _ _ _ => Reencodes.vmovMov _ _ _
  | .vmovBcast _ _ _ _ _ => Reencodes.vmovBcast _ _ _ _ _
  | .vmovPerm _ _ _ _ _ => Reencodes.vmovPerm _ _ _ _ _
  | .vmovPack _ _ _ _ _ => Reencodes.vmovPack _ _ _ _ _
  | .vmovUnpack _ _ _ _ _ => Reencodes.vmovUnpack _ _ _ _ _
  | .vmovSend _ _ _ => Reencodes.vmovSend _ _ _
  | .vmovRecv _ _ _ => Reencodes.vmovRecv _ _ _
  | .vmovJoin _ _ => Reencodes.vmovJoin _ _
  | .vmovLeave _ => Reencodes.vmovLeave _
  | .cvtQuant _ _ _ _ _ _ _ _ => Reencodes.cvtQuant _ _ _ _ _ _ _ _
  | .cvtDequant _ _ _ _ _ _ _ => Reencodes.cvtDequant _ _ _ _ _ _ _
  | .cvtFtoi _ _ _ _ _ _ => Reencodes.cvtFtoi _ _ _ _ _ _
  | .cvtItof _ _ _ _ _ _ => Reencodes.cvtItof _ _ _ _ _ _
  | .cvtFconv _ _ _ _ _ _ => Reencodes.cvtFconv _ _ _ _ _ _
  | .cvtScale _ _ _ _ _ => Reencodes.cvtScale _ _ _ _ _
  | .cvtRound _ _ _ _ _ => Reencodes.cvtRound _ _ _ _ _
  | .mxCfg _ _ => Reencodes.mxCfg _ _
  | .mxLdstat _ _ => Reencodes.mxLdstat _ _
  | .mxSwap _ => Reencodes.mxSwap _
  | .mxStream _ _ _ => Reencodes.mxStream _ _ _
  | .mxDrain _ _ _ => Reencodes.mxDrain _ _ _
  | .mxClear _ _ => Reencodes.mxClear _ _
  | .engCopy _ _ => Reencodes.engCopy _ _
  | .engGuard _ _ _ => Reencodes.engGuard _ _ _
  | .engUnveil _ _ _ => Reencodes.engUnveil _ _ _
  | .engDiscard _ _ _ => Reencodes.engDiscard _ _ _
  | .engStatus _ _ => Reencodes.engStatus _ _
  | .grpOpen _ _ => Reencodes.grpOpen _ _
  | .grpFork _ _ _ => Reencodes.grpFork _ _ _
  | .grpWait _ _ _ => Reencodes.grpWait _ _ _
  | .grpWaitFf _ _ _ => Reencodes.grpWaitFf _ _ _
  | .grpCancel _ _ => Reencodes.grpCancel _ _
  | .grpReward _ _ => Reencodes.grpReward _ _
  | .grpStat _ _ _ => Reencodes.grpStat _ _ _
  | .grpClose _ _ => Reencodes.grpClose _ _
  | .smpSeed _ _ _ => Reencodes.smpSeed _ _ _
  | .smpRand _ _ _ => Reencodes.smpRand _ _ _
  | .smpStop _ _ _ => Reencodes.smpStop _ _ _
  | .smpDraw _ _ _ _ => Reencodes.smpDraw _ _ _ _
  | .smpPos _ _ => Reencodes.smpPos _ _
  | .chkAcc _ _ _ _ _ => Reencodes.chkAcc _ _ _ _ _
  | .chkTest _ _ _ => Reencodes.chkTest _ _ _
  | .chkClr _ _ => Reencodes.chkClr _ _
  | .capPool _ _ _ => Reencodes.capPool _ _ _
  | .capGet _ _ _ => Reencodes.capGet _ _ _
  | .capPut _ _ _ => Reencodes.capPut _ _ _
  | .capStat _ _ _ => Reencodes.capStat _ _ _
  | .durBegin _ _ _ _ => Reencodes.durBegin _ _ _ _
  | .durCommit _ _ _ => Reencodes.durCommit _ _ _
  | .durPoint _ _ _ => Reencodes.durPoint _ _ _
  | .durScan _ _ _ => Reencodes.durScan _ _ _
  | .unassignedEncoding _ => Reencodes.unassignedEncoding _
  | .ident _ => Reencodes.ident _
  | .load _ => Reencodes.load _
  | .unload _ => Reencodes.unload _
  | .launch _ => Reencodes.launch _
  | .preempt _ => Reencodes.preempt _
  | .resume _ => Reencodes.resume _
  | .frset _ => Reencodes.frset _
  | .inval _ => Reencodes.inval _
  | .keyload _ => Reencodes.keyload _
  | .vaultset _ => Reencodes.vaultset _
  | .replay _ => Reencodes.replay _
  | .route _ => Reencodes.route _
  | .exportCmd _ => Reencodes.exportCmd _
  | .fwload _ => Reencodes.fwload _
  | .fwact _ => Reencodes.fwact _
  | .attest _ => Reencodes.attest _
  | .ctxnew _ => Reencodes.ctxnew _
  | .ctxend _ => Reencodes.ctxend _
  | .pwrset _ => Reencodes.pwrset _
  | .faults _ => Reencodes.faults _
  | .fetchEndAccess _ => Reencodes.fetchEndAccess _
  | .asyncWrite _ => Reencodes.asyncWrite _
  | .asyncTrapEntry _ => Reencodes.asyncTrapEntry _
  | .longOpComplete _ => Reencodes.longOpComplete _
  | .waitlimExpire _ => Reencodes.waitlimExpire _
  | .feWaitSatisfied _ => Reencodes.feWaitSatisfied _
  | .repackUnfreeze _ => Reencodes.repackUnfreeze _
  | .meshWordArrive _ _ => Reencodes.meshWordArrive _ _
  | .storeEntryPerform _ _ => Reencodes.storeEntryPerform _ _
  | .reflectionEvict _ _ => Reencodes.reflectionEvict _ _
  | .vaultWriteDurable _ _ => Reencodes.vaultWriteDurable _ _
  | .engReservationGrant _ => Reencodes.engReservationGrant _
  | .engineCommandAccept _ => Reencodes.engineCommandAccept _
  | .engineBurst _ _ _ => Reencodes.engineBurst _ _ _
  | .engineFollowon _ => Reencodes.engineFollowon _
  | .engineCommandEnd _ _ _ => Reencodes.engineCommandEnd _ _ _
  | .engineStatusPost _ => Reencodes.engineStatusPost _
  | .unveilFlip _ => Reencodes.unveilFlip _
  | .shadowDiscard _ => Reencodes.shadowDiscard _
  | .mxCommandComplete _ => Reencodes.mxCommandComplete _
  | .arrayChannelMessage _ _ => Reencodes.arrayChannelMessage _ _
  | .arrayConfigMessage _ _ => Reencodes.arrayConfigMessage _ _
  | .doorbellNotice _ => Reencodes.doorbellNotice _
  | .vgForm _ => Reencodes.vgForm _
  | .vgForward _ => Reencodes.vgForward _
  | .bindRecordWrite _ _ => Reencodes.bindRecordWrite _ _
  | .leaseRowRelease _ => Reencodes.leaseRowRelease _
  | .imageRelease _ => Reencodes.imageRelease _
  | .gangStart _ _ => Reencodes.gangStart _ _
  | .stealRequest _ => Reencodes.stealRequest _
  | .stealReply _ => Reencodes.stealReply _
  | .parkStealRetry _ => Reencodes.parkStealRetry _
  | .statusWordArrive _ _ => Reencodes.statusWordArrive _ _
  | .launchComplete _ => Reencodes.launchComplete _
  | .tourToken _ => Reencodes.tourToken _
  | .tourRoundStart _ => Reencodes.tourRoundStart _
  | .tourFinish _ => Reencodes.tourFinish _
  | .barrierComplete _ _ => Reencodes.barrierComplete _ _
  | .preemptTimeout _ => Reencodes.preemptTimeout _
  | .coopSave _ => Reencodes.coopSave _
  | .forcedSave _ => Reencodes.forcedSave _
  | .groupTimeout _ _ => Reencodes.groupTimeout _ _
  | .forkRemoteCopy _ => Reencodes.forkRemoteCopy _
  | .missRecord _ _ => Reencodes.missRecord _ _
  | .fillDeliver _ => Reencodes.fillDeliver _
  | .hostPageAnswer _ _ => Reencodes.hostPageAnswer _ _
  | .sidelogReplay _ => Reencodes.sidelogReplay _
  | .tileInvalAck _ => Reencodes.tileInvalAck _
  | .patrolScrub _ => Reencodes.patrolScrub _
  | .containNode _ => Reencodes.containNode _
  | .cpLockstepReset _ => Reencodes.cpLockstepReset _
  | .wsRefresh _ _ => Reencodes.wsRefresh _ _
  | .hbmAlert _ _ _ => Reencodes.hbmAlert _ _ _
  | .hbmBackoffEnd _ _ => Reencodes.hbmBackoffEnd _ _
  | .qstailDoorbell _ _ => Reencodes.qstailDoorbell _ _
  | .qcheadWrite _ _ => Reencodes.qcheadWrite _ _
  | .queueCommandTake _ => Reencodes.queueCommandTake _
  | .hostRegisterWrite _ _ => Reencodes.hostRegisterWrite _ _
  | .fwcommitWrite _ => Reencodes.fwcommitWrite _
  | .fwWatchdogExpire => Reencodes.fwWatchdogExpire
  | .peerRequest _ => Reencodes.peerRequest _
  | .peerTimeout _ => Reencodes.peerTimeout _
  | .portDown _ => Reencodes.portDown _
  | .hostMemAccess _ => Reencodes.hostMemAccess _
  | .trainingDone _ => Reencodes.trainingDone _
  | .clockStepAdjust _ _ => Reencodes.clockStepAdjust _ _
  | .thermalReset => Reencodes.thermalReset
  | .modulePowerOn => Reencodes.modulePowerOn
  | .weightStoreWrite _ _ _ => Reencodes.weightStoreWrite _ _ _
  | .hbmRefresh _ _ _ => Reencodes.hbmRefresh _ _ _
  | .softError _ _ => Reencodes.softError _ _
  | .portUp _ => Reencodes.portUp _
  | .requestWithdrawn _ => Reencodes.requestWithdrawn _

/-- A word list whose fields are those of a header and a candidate that stands decodes to it. -/
theorem decodeWords_of_fields {w0 : Word32} {rest : List Word32} {maj fn : Nat} {h : Hdr} {f : Fields} {l : Layout} {lens : Lengths}
    {i : Instr} (hmaj : (w0.extractLsb' 2 6).toNat = maj) (hfn : (w0.extractLsb' 10 4).toNat = fn)
    (hform : formOf (w0.setWidth 2) = h.form) (hwait : waitOf (w0.extractLsb' 8 2) = h.wait)
    (hfun : functionOf maj fn = some (l, lens)) (hadm : lens.admits h.form = true) (hlen : h.form.words ≤ (w0 :: rest).length)
    (hlit : (if h.form.hasLit then literalOf (rest.drop (h.form.words - 3)) else 0) = h.lit)
    (hfs : (if h.form.isExt then extFields l w0 (rest.getD 0 0) (rest.getD 1 0) else some (baseFields l w0)) = some f)
    (hcand : candidate maj fn h f = some i) (ht : toFields i = some (maj, fn, h, f)) (hop : operandsAdmitted i = true) :
    decodeWords (w0 :: rest) = .ok i := by
  obtain ⟨form, wait, lit⟩ := h
  dsimp only at hform hwait hadm hlen hlit hfs
  simp only [decodeWords, hmaj, hfn, hform, hwait, hfun, hadm, hlen, hlit, hfs, hcand, ht, hop, if_true, and_self]

/-- What well-formedness says of the length: the function is assigned and admits the form (R93). -/
theorem functionOf_of_lengthOk {maj fn : Nat} {h : Hdr} (hl : lengthOk maj fn h = true) :
    ∃ l lens, functionOf maj fn = some (l, lens) ∧ lens.admits h.form = true := by
  unfold lengthOk at hl
  split at hl
  · exact ⟨_, _, ‹_›, hl⟩
  · cases hl

/-- The words of an instruction with fields (R84). -/
theorem encode_of_fields {i : Instr} {maj fn : Nat} {h : Hdr} {f : Fields} {l : Layout} {lens : Lengths}
    (ht : toFields i = some (maj, fn, h, f)) (hfun : functionOf maj fn = some (l, lens)) :
    encode i = if h.form.isExt then ((extBits l f).1 ++ lowBits maj fn h) :: (extBits l f).2.1 :: (extBits l f).2.2 :: litWords h
      else (baseBits l f ++ lowBits maj fn h) :: litWords h := by
  have hu : ∀ w0, i ≠ .unassignedEncoding w0 := by rintro w0 rfl; cases ht
  unfold encode
  split
  · exact absurd rfl (hu _)
  · simp only [ht, hfun]

theorem Form.words_eq (f : Form) : f.words = (if f.hasLit then 2 else 0) + if f.isExt then 3 else 1 := by cases f <;> rfl
theorem litWords_length (h : Hdr) : (litWords h).length = if h.form.hasLit then 2 else 0 := by
  unfold litWords; split <;> rfl

/-- The fields of an extended form come back from its words. -/
theorem extFields_encoded {i : Instr} {maj fn : Nat} {h : Hdr} {f : Fields} {l : Layout} {lens : Lengths}
    (ht : toFields i = some (maj, fn, h, f)) (hfun : functionOf maj fn = some (l, lens)) (low : BitVec 14) :
    extFields l ((extBits l f).1 ++ low) (extBits l f).2.1 (extBits l f).2.2 = some f := by
  by_cases hl : l = .nw
  · subst hl
    obtain ⟨rfl, rfl⟩ := function_of_nw hfun
    obtain ⟨n, mode, width, rfl⟩ := eq_widResize_of_fields ht
    cases ht
    exact extFields_extBits_widResize _ _ _ _
  · exact extFields_extBits hl f low

/-- The words of a well-formed instruction with fields: as many as its form takes, and they decode to it. -/
theorem decodeWords_encode {i : Instr} {maj fn : Nat} {h : Hdr} {f : Fields} (ht : toFields i = some (maj, fn, h, f)) (hw : i.wf = true) :
    ∃ w0 rest, encode i = w0 :: rest ∧ (formOf (w0.setWidth 2)).words = (w0 :: rest).length ∧ decodeWords (w0 :: rest) = .ok i := by
  obtain ⟨hlength, hlit, -, hbase, -, hop⟩ := wf_cases ht hw
  obtain ⟨l, lens, hfun, hadm⟩ := functionOf_of_lengthOk hlength
  obtain ⟨hm, hf⟩ := functionOf_bounds hfun
  have hcand : candidate maj fn h f = some i := by simpa only [ht] using reencodes i hw
  have hlit := literalOf_litWords hlit
  have low (u : BitVec 18) := lowBits_fields u h hm hf
  have form (u : BitVec 18) : formOf (BitVec.setWidth 2 (u ++ lowBits maj fn h : Word32)) = h.form :=
    (congrArg formOf (low u).2.2.1).trans (formOf_formNum _)
  have wait (u : BitVec 18) : waitOf ((u ++ lowBits maj fn h : Word32).extractLsb' 8 2) = h.wait :=
    (congrArg waitOf (low u).2.2.2).trans (waitOf_waitNum _)
  rw [encode_of_fields ht hfun]
  by_cases he : h.form.isExt = true
  · have hwords : h.form.words = (litWords h).length + 3 := by rw [litWords_length, Form.words_eq, if_pos he]
    rw [if_pos he]
    refine ⟨_, _, rfl, (congrArg Form.words (form _)).trans hwords, ?_⟩
    refine decodeWords_of_fields (low _).1 (low _).2.1 (form _) (wait _) hfun hadm (Nat.le_of_eq hwords) ?_ ?_ hcand ht hop
    · have : h.form.words - 3 = if h.form.hasLit then 2 else 0 := by rw [hwords, litWords_length, Nat.add_sub_cancel]
      rw [this]
      refine Eq.trans ?_ hlit
      split <;> rfl
    · rw [if_pos he]
      exact extFields_encoded ht hfun _
  · have hwords : h.form.words = (litWords h).length + 1 := by rw [litWords_length, Form.words_eq, if_neg he]
    rw [if_neg he]
    refine ⟨_, _, rfl, (congrArg Form.words (form _)).trans hwords, ?_⟩
    refine decodeWords_of_fields (low _).1 (low _).2.1 (form _) (wait _) hfun hadm (Nat.le_of_eq hwords) ?_ ?_ hcand ht hop
    · have : h.form.words - 3 = 0 := by rw [Form.words_eq, if_neg he]; split <;> rfl
      rwa [this, List.drop_zero]
    · rw [if_neg he, baseFields_low]
      have hb : (h.form.isExt || baseFields l (baseBits l f ++ 0#14) == f) = true := by simpa only [baseOk, hfun] using hbase
      simpa [he] using hb

/-! ### Bytes (R3) -/

theorem word32Of_bytesOfWord32 (w : Word32) :
    word32Of (w.extractLsb' 0 8) (w.extractLsb' 8 8) (w.extractLsb' 16 8) (w.extractLsb' 24 8) = w := by
  unfold word32Of; grind
theorem wordsOfBytes_bytesOfWords (ws : List Word32) (bs : List Byte) : wordsOfBytes (bytesOfWords ws ++ bs) = ws ++ wordsOfBytes bs := by
  induction ws with
  | nil => rfl
  | cons w ws ih =>
    change word32Of _ _ _ _ :: wordsOfBytes (bytesOfWords ws ++ bs) = _
    rw [ih, word32Of_bytesOfWord32, List.cons_append]
theorem bytesOfWords_length (ws : List Word32) : (bytesOfWords ws).length = 4 * ws.length := by
  induction ws with
  | nil => rfl
  | cons w ws ih =>
    change (bytesOfWords ws).length + 4 = 4 * (ws.length + 1)
    rw [ih, Nat.mul_add]
theorem Form.words_le (f : Form) : f.words ≤ 5 := by cases f <;> decide

/-- Bytes that begin with the words of an instruction decode to it, and what follows them is left. -/
theorem decode_bytesOfWords {w0 : Word32} {tail : List Word32} {i : Instr} (rest : List Byte)
    (hlen : (formOf (w0.setWidth 2)).words = (w0 :: tail).length) (hd : decodeWords (w0 :: tail) = .ok i) :
    decode (bytesOfWords (w0 :: tail) ++ rest) = .ok (i, rest) := by
  have hbytes := bytesOfWords_length (w0 :: tail)
  have hfive := Form.words_le (formOf (w0.setWidth 2))
  have hwords : wordsOfBytes ((bytesOfWords (w0 :: tail) ++ rest).take 20) =
      w0 :: (tail ++ wordsOfBytes (rest.take (20 - (bytesOfWords (w0 :: tail)).length))) := by
    rw [List.take_append, List.take_of_length_le (by omega), wordsOfBytes_bytesOfWords, List.cons_append]
  have htake (ys : List Word32) : (w0 :: (tail ++ ys)).take (w0 :: tail).length = w0 :: tail := List.take_left' (l₁ := w0 :: tail) rfl
  have hle : 4 * (w0 :: tail).length ≤ (bytesOfWords (w0 :: tail) ++ rest).length := by rw [List.length_append, hbytes]; omega
  simp only [decode, hwords, hlen, htake, hd, if_pos hle]
  rw [← hbytes, List.drop_left]

theorem decodeWords_unassigned {w0 : Word32} (h : unassignedOk w0 = true) (rest : List Word32) :
    decodeWords (w0 :: rest) = .ok (.unassignedEncoding w0) := by
  have h := Option.isNone_iff_eq_none.1 h
  simp only [decodeWords, h]

end Sys2Proof.Laws

namespace Sys2Proof.Proofs
open Sys2Proof.Laws

/-- Settles O55: the words of a well-formed instruction decode to it, by its fields or as an unassigned encoding, and bytes are cut at
their number. -/
theorem encodingRoundTrip : Obligations.EncodingRoundTrip := by
  intro i rest hw hne
  by_cases hu : ∃ w0, i = .unassignedEncoding w0
  · obtain ⟨w0, rfl⟩ := hu
    refine decode_bytesOfWords rest ?_ (decodeWords_unassigned hw _)
    rw [List.length_cons, List.length_replicate]
    generalize formOf (w0.setWidth 2) = g
    cases g <;> rfl
  · have hfields : (toFields i).isSome = true := by
      refine Classical.byContradiction fun hnone => hne ?_
      have hnone : toFields i = none := by simpa using hnone
      unfold encode
      split
      · exact absurd ⟨_, rfl⟩ hu
      · rw [hnone]
    obtain ⟨⟨maj, fn, h, f⟩, ht⟩ := Option.isSome_iff_exists.1 hfields
    obtain ⟨w0, tail, he, hlen, hd⟩ := decodeWords_encode ht hw
    rw [he]
    exact decode_bytesOfWords rest hlen hd

end Sys2Proof.Proofs
end

section
/-! What a course of a meaning ends in: a predicate of the value it goes on with, and one of the state it stops in. -/
namespace Sys2Proof.Machine

/-- A course goes on with a value that `P` admits, or stops in a state that `E` admits. -/
def Ends {α : Type} (E : State → Prop) (P : α → Prop) : M α → Prop
  | .ok a => P a
  | .error z => E z
/-- A step is refused, or its next state is one that `P` admits. -/
def Nexts (P : State → Prop) : Host.Outcome State Fault Refusal → Prop
  | .next z => P z
  | .fault _ => True
  | .refused _ => True

section
variable {α β : Type} {E : State → Prop} {P : α → Prop} {m : M α}

theorem Ends.bind {Q : β → Prop} {f : α → M β} (hm : Ends E P m) (hf : ∀ a, P a → Ends E Q (f a)) : Ends E Q (m >>= f) :=
  match m, hm with
  | .ok a, h => hf a h
  | .error _, h => h
theorem Ends.map {Q : β → Prop} {f : α → β} (hm : Ends E (fun a => Q (f a)) m) : Ends E Q (m.map f) :=
  match m, hm with
  | .ok _, h => h
  | .error _, h => h
theorem Ends.of_ok {a : α} (hm : Ends E P m) (h : m = .ok a) : P a := by subst h; exact hm
theorem Ends.of_error {z : State} (hm : Ends E P m) (h : m = .error z) : E z := by subst h; exact hm
theorem Ends.ite {c : Prop} [Decidable c] {n : M α} (hm : c → Ends E P m) (hn : ¬ c → Ends E P n) : Ends E P (if c then m else n) := by
  split
  next h => exact hm h
  next h => exact hn h
theorem Ends.guard {c : Prop} [Decidable c] {m : M PUnit} {k : PUnit → M α} (hm : Ends E (fun _ => True) m)
    (hk : ∀ u, Ends E P (k u)) : Ends E P (if c then m >>= k else k ⟨⟩) :=
  .ite (fun _ => hm.bind fun u _ => hk u) fun _ => hk _
theorem Ends.mono {Q : α → Prop} (hm : Ends E P m) (hP : ∀ a, P a → Q a) : Ends E Q m :=
  match m, hm with
  | .ok a, h => hP a h
  | .error _, h => h
end

/-- A meaning whose course ends well has a good next state. -/
theorem Ends.finish {P : State → Prop} {m : M State} (h : Ends P P m) : Nexts P (finish m) :=
  match m, h with
  | .ok _, h => h
  | .error _, h => h
theorem Nexts.ite {P : State → Prop} {c : Prop} [Decidable c] {o o' : Host.Outcome State Fault Refusal} (h : c → Nexts P o)
    (h' : ¬ c → Nexts P o') : Nexts P (if c then o else o') := by
  split
  next hc => exact h hc
  next hc => exact h' hc
theorem Nexts.of_next {P : State → Prop} {o : Host.Outcome State Fault Refusal} {z : State} (ho : Nexts P o) (h : o = .next z) : P z := by
  subst h; exact ho

theorem State.memOk_ite {c : Prop} [Decidable c] {s z : State} (hs : s.memOk) (hz : z.memOk) : (if c then s else z).memOk := by
  split
  · exact hs
  · exact hz
/-- An update of other fields keeps the form of memory. -/
theorem State.memOk_with {s : State} {cycle tiles empties poison latent fresh gangs launches flying saved images contexts reflections fr
      keys vltbase vltsize buffers vwrites wsWriting ath alerts boff boffRest acts backoff debts queues qrr journal msix cprst step trst pwr
      temp thr red rdy pwrlim cfg fwArb fwTrial fwAct fwSlots fwCommit modId routes portsUp expt measure quotes missPos faultPos late cpDown
      cpq stackBad faultRead invals nextInval lids usedLids handles cur phase agenda seq} (hs : s.memOk) :
    State.memOk
      { cycle, tiles, mem := s.mem, empties, poison, latent, fresh, gangs, launches, flying, saved, images, contexts, reflections,
        fr, keys, vltbase, vltsize, buffers, vwrites, wsWriting, ath, alerts, boff, boffRest, acts, backoff, debts, queues, qrr, journal,
        msix, cprst, step, trst, pwr, temp, thr, red, rdy, pwrlim, cfg, fwArb, fwTrial, fwAct, fwSlots, fwCommit, modId, routes, portsUp,
        expt, measure, quotes, missPos, faultPos, late, cpDown, cpq, stackBad, faultRead, invals, nextInval, lids, usedLids, handles, cur,
        phase, agenda, seq } := hs

end Sys2Proof.Machine
end

section
/-! Memory keeps its canonical form: the operations of the state, the counts and the operands. One lemma for each meaning, along its definition. -/
namespace Sys2Proof.Machine

theorem State.memOk_setTile {s : State} {k : Nat} {t : Tile} (hs : s.memOk) :
    (s.setTile k t).memOk := hs
theorem State.memOk_setCore {s : State} {r : CoreRef} {c : Core} (hs : s.memOk) :
    (s.setCore r c).memOk := memOk_setTile hs
theorem State.memOk_setThread {s : State} {t : ThreadRef} {x : Thread} (hs : s.memOk) :
    (s.setThread t x).memOk := memOk_setCore hs
theorem State.memOk_setMe {s : State} {x : Thread} (hs : s.memOk) :
    (s.setMe x).memOk := memOk_setThread hs
theorem State.memOk_setMyCore {s : State} {c : Core} (hs : s.memOk) :
    (s.setMyCore c).memOk := memOk_setCore hs
theorem State.memOk_setMyTile {s : State} {t : Tile} (hs : s.memOk) :
    (s.setMyTile t).memOk := memOk_setTile hs
theorem State.memOk_modGang {s : State} {g : Nat} {f : Gang → Gang} (hs : s.memOk) :
    (s.modGang g f).memOk := hs
theorem State.memOk_modLaunch {s : State} {lid : Word64} {f : Launch → Launch} (hs : s.memOk) :
    (s.modLaunch lid f).memOk := hs
theorem State.memOk_modContext {s : State} {c : Nat} {f : Context → Context} (hs : s.memOk) :
    (s.modContext c f).memOk := hs
theorem State.memOk_setFull {s : State} {k : Nat} {f : Bool} (hs : s.memOk) :
    (s.setFull k f).memOk := hs
theorem State.memOk_setFullList {s : State} {l : List Nat} (hs : s.memOk) : (s.setFullList l).memOk := by
  induction l generalizing s with
  | nil => exact hs
  | cons k l ih => exact ih (memOk_setFull hs)
theorem State.memOk_setPoison {s : State} {k : Nat} {p : Bool} (hs : s.memOk) :
    (s.setPoison k p).memOk := hs
theorem State.memOk_undoWrite {s : State} {v : VaultWrite} (hs : s.memOk) : (s.undoWrite v).memOk := Memory.wf_memPutList hs _ _
theorem State.memOk_countN {s : State} {r : CoreRef} {e : Fin 64} {n : Nat} (hs : s.memOk) :
    (s.countN r e n).memOk := memOk_ite hs (memOk_setCore hs)
theorem State.memOk_count {s : State} {r : CoreRef} {e : Fin 64} (hs : s.memOk) :
    (s.count r e).memOk := memOk_countN hs
theorem State.memOk_faultRecord {s : State} {tile kind cause va ctx core h : Nat} (hs : s.memOk) :
    (s.faultRecord tile kind cause va ctx core h).memOk := by
  unfold State.faultRecord
  dsimp only
  split
  · exact State.memOk_putLocalWord hs _ _ _
  · exact Memory.wf_memPutList (Memory.wf_memPutList hs _ _) _ _
theorem State.memOk_bufError {s : State} {e : Nat × Bool} (hs : s.memOk) :
    (s.bufError e).memOk := by
  unfold State.bufError
  split
  · exact hs
  · exact hs
theorem State.memOk_activate {s : State} {k : Nat} (hs : s.memOk) :
    (s.activate k).memOk := hs
theorem State.memOk_found {s : State} {t : ThreadRef} {kind ctx k n : Nat} (hs : s.memOk) :
    (s.found t kind ctx k n).memOk := memOk_ite (memOk_activate hs) (State.memOk_foldl _ (fun _ _ hz => (memOk_faultRecord hz)) _
        (memOk_activate (memOk_countN (memOk_countN (State.memOk_foldl _ (fun _ _ hz => (memOk_bufError hz)) _ hs)))))
theorem State.memOk_countCode {s : State} {r : CoreRef} {old new : List FetchWord} (hs : s.memOk) :
    (s.countCode r old new).memOk := memOk_countN hs
theorem State.memOk_redirect {s : State} {t : ThreadRef} {a : Nat} (hs : s.memOk) :
    (s.redirect t a).memOk := memOk_found (memOk_countCode (memOk_setThread hs))
theorem State.memOk_giveBack {s : State} {t : ThreadRef} (hs : s.memOk) :
    (s.giveBack t).memOk := by
  unfold State.giveBack
  split
  · exact memOk_ite hs (memOk_setThread (memOk_setCore hs))
  · exact hs
theorem State.memOk_enterTrap {s : State} {t : ThreadRef} {cause : BitVec 8} {epc : Nat} {tval : Word64} (hs : s.memOk) :
    (s.enterTrap t cause epc tval).memOk := memOk_redirect (memOk_setThread (memOk_giveBack hs))
theorem State.memOk_askContain {s : State} {lid : Word64} (hs : s.memOk) :
    (s.askContain lid).memOk := memOk_ite hs (memOk_modLaunch hs)
theorem State.memOk_takeCode {s : State} {t : ThreadRef} {c : BitVec 8} {epc : Nat} {tval : Word64} (hs : s.memOk) :
    (s.takeCode t c epc tval).memOk := memOk_ite (memOk_askContain hs) (memOk_enterTrap hs)
theorem State.memOk_takeTrap {s : State} {t : ThreadRef} {c : Cause} {epc : Nat} {tval : Word64} (hs : s.memOk) :
    (s.takeTrap t c epc tval).memOk := memOk_takeCode hs
theorem State.memOk_asyncTrap {s : State} {t : ThreadRef} {c : Cause} {tval : Word64} (hs : s.memOk) :
    (s.asyncTrap t c tval).memOk := by
  unfold State.asyncTrap
  split
  · exact memOk_count hs
  · exact memOk_setThread hs
theorem State.memOk_trapM {α : Type} {s0 : State} {c : Cause} {tval : Word64} {P : α → Prop} (hs0 : s0.memOk) :
    Ends State.memOk P (trapM s0 c tval) := memOk_takeTrap hs0
theorem State.memOk_poisonM {α : Type} {s0 : State} {kind ctx k n : Nat} {tval : Word64} {P : α → Prop} (hs0 : s0.memOk) :
    Ends State.memOk P (poisonM s0 kind ctx k n tval) := memOk_trapM (memOk_found hs0)
theorem State.memOk_done {s : State} {h : Hdr} (hs : s.memOk) :
    (s.done h).memOk := memOk_setMe hs
theorem State.memOk_goTo {s : State} {a : Nat} (hs : s.memOk) :
    (s.goTo a).memOk := memOk_redirect (memOk_setMe hs)
theorem State.memOk_doneLat {s0 : State} {h : Hdr} {i : Instr} {lat : Nat} {s : State} (hs : s.memOk) :
    (s0.doneLat h i lat s).memOk := memOk_ite (memOk_done hs) (memOk_setMe hs)
theorem State.memOk_undoing {s : State} {l : List Undo} (hs : s.memOk) :
    (s.undoing l).memOk := memOk_setMe hs
theorem State.memOk_hold {s : State} {i : Instr} {why : WaitFor} {tval : Option Word64} (hs : s.memOk) :
    (s.hold i why tval).memOk := memOk_setMe (memOk_ite hs (memOk_setMyCore hs))
theorem State.memOk_running {s0 : State} {i : Instr} {lat : Nat} (hs0 : s0.memOk) :
    (s0.running i lat).memOk := memOk_setMe (memOk_hold hs0)
theorem State.memOk_runFor {s0 : State} {i : Instr} {lat : Nat} {s : State} (hs0 : s0.memOk) (hs : s.memOk) :
    Ends State.memOk State.memOk (s0.runFor i lat s) := by
  unfold State.runFor
  split
  · exact hs
  · exact memOk_running hs0
theorem State.memOk_afterRun {m : M State} (hm : Ends State.memOk State.memOk m) : Ends State.memOk State.memOk (afterRun m) :=
  match m, hm with
  | .ok _, h => h
  | .error _, h => memOk_setMe h
theorem State.memOk_keepVal {s : State} {v : Word64} (hs : s.memOk) :
    (s.keepVal v).memOk := memOk_setMe hs
theorem State.memOk_keeping {α : Type} {v : Word64} {m : M α} {P : α → Prop} (hm : Ends State.memOk P m) :
    Ends State.memOk P (keeping v m) :=
  match m, hm with
  | .ok _, h => h
  | .error _, h => memOk_keepVal h
theorem State.memOk_holdM {α : Type} {s0 : State} {i : Instr} {tag : Nat} {tval : Option Word64} {P : α → Prop} (hs0 : s0.memOk) :
    Ends State.memOk P (holdM s0 i tag tval) := memOk_hold hs0
theorem State.memOk_setCq {s : State} {r : CoreRef} {f : Nat} (hs : s.memOk) :
    (s.setCq r f).memOk := memOk_ite hs (memOk_setCore hs)
theorem State.memOk_countQ {s : State} {r : CoreRef} {q : QCount} {t : Word64} (hs : s.memOk) :
    (s.countQ r q t).memOk := memOk_setCq (memOk_countN (memOk_countN (memOk_countN (memOk_countN (memOk_countN hs)))))
theorem State.memOk_issue {s : State} {i : Instr} {h : Hdr} {srcs dsts : List NameRef} {pre : Option (Cause × Word64)} (hs : s.memOk) :
    Ends State.memOk State.memOk (s.issue i h srcs dsts pre) := by
  unfold State.issue
  split
  · exact memOk_trapM hs
  · split
    · exact memOk_trapM hs
    · split
      · exact hs
      · exact memOk_holdM hs
theorem State.memOk_setInbound {s : State} {d : Dir} {l : List Word64} (hs : s.memOk) :
    (s.setInbound d l).memOk := memOk_setMyCore hs
theorem State.memOk_pushOut {s : State} {d : Dir} {ws : List Word64} (hs : s.memOk) :
    (s.pushOut d ws).memOk := memOk_setMyCore hs
theorem State.memOk_portM {α : Type} {s0 : State} {i : Instr} {port : Nat} {s : State} {P : α → Prop} (hs0 : s0.memOk) :
    Ends State.memOk P (portM s0 i port s) := memOk_hold hs0
theorem State.memOk_read {s0 s : State} {i : Instr} {h : Hdr} {n : NameRef} (hs0 : s0.memOk) (hs : s.memOk) :
    Ends State.memOk (fun p => p.2.memOk) (s0.read i h n s) := by
  obtain ⟨x, s1, hr, rfl | ⟨v, rfl⟩ | ⟨c, -, rfl⟩⟩ | ⟨p, hr⟩ := s0.read_cases s i h n <;> rw [hr]
  case inl.inl => exact hs
  case inl.inr.inl => exact memOk_setMe hs
  case inl.inr.inr => exact memOk_setMyCore hs
  case inr => exact memOk_hold hs0
theorem State.memOk_draws {s0 : State} {n : Nat} {s : State} (hs0 : s0.memOk) (hs : s.memOk) :
    Ends State.memOk (fun p => p.2.memOk) (s0.draws n s) := by
  unfold State.draws
  split
  · exact hs
  · refine Ends.ite (fun _ => memOk_trapM hs0) fun _ => ?_
    change State.memOk _
    dsimp only
    exact memOk_setMe hs
theorem State.memOk_drawsFor {s0 : State} {md : RMode} {mask : List Bool} {s : State} (hs0 : s0.memOk) (hs : s.memOk) :
    Ends State.memOk (fun p => p.2.memOk) (s0.drawsFor md mask s) := by
  unfold State.drawsFor
  split
  · rename_i e3
    exact (memOk_draws hs0 hs).of_error e3
  · rename_i z6 e7
    have he7 : z6.memOk := (memOk_draws hs0 hs).of_ok e7
    exact he7
theorem State.memOk_submitTo {s0 : State} {rest : List CmdBuf} {b : CmdBuf} {s : State} (hs0 : s0.memOk) (hs : s.memOk) :
    Ends State.memOk State.memOk (s0.submitTo rest b s) := by
  unfold State.submitTo
  dsimp only
  split
  · rename_i e3
    exact (memOk_draws hs0 hs).of_error e3
  · rename_i e7
    exact memOk_setMyCore ((memOk_draws hs0 hs).of_ok e7)
theorem State.memOk_submit {s0 : State} {b : CmdBuf} {s : State} (hs0 : s0.memOk) (hs : s.memOk) :
    Ends State.memOk State.memOk (s0.submit b s) := memOk_submitTo hs0 hs
theorem State.memOk_writeEng {s0 : State} {i : Instr} {w : Word64} {s : State} (hs0 : s0.memOk) (hs : s.memOk) :
    Ends State.memOk State.memOk (s0.writeEng i w s) := by
  unfold State.writeEng
  dsimp only
  split
  · refine Ends.ite (fun _ => memOk_submit hs0 hs) fun _ => ?_
    exact memOk_setMyCore hs
  · split
    · exact memOk_hold hs0
    · refine Ends.ite (fun _ => memOk_submit hs0 hs) fun _ => ?_
      exact memOk_setMyCore hs
theorem State.memOk_send {s0 : State} {i : Instr} {d : Dir} {ws : List Word64} {tval : Option Word64} {s : State} (hs0 : s0.memOk) (hs :
    s.memOk) :
    Ends State.memOk State.memOk (s0.send i d ws tval s) := by
  unfold State.send
  refine Ends.ite (fun _ => memOk_trapM hs0) fun _ => ?_
  refine Ends.ite (fun _ => memOk_holdM hs0) fun _ => ?_
  exact memOk_pushOut hs
theorem State.memOk_putName {s : State} {n : BitVec 9} {p : Pat} (hs : s.memOk) :
    (s.putName n p).memOk := memOk_setMe hs
theorem State.memOk_writeInt {s0 : State} {i : Instr} {d : NameRef} {x : Int} {s : State} (hs0 : s0.memOk) (hs : s.memOk) :
    Ends State.memOk State.memOk (s0.writeInt i d x s) := by
  unfold State.writeInt
  split
  · exact memOk_writeEng hs0 hs
  · exact memOk_send hs0 hs
  · exact memOk_send hs0 hs
  · exact memOk_send hs0 hs
  · exact memOk_send hs0 hs
  · exact hs
  · dsimp only
    split
    · exact memOk_putName hs
    · exact memOk_trapM hs0
theorem State.memOk_writeRealTv {s0 : State} {i : Instr} {d : NameRef} {rnd : Rnd} {x : XVal} {tv : Word64 → Word64} {s : State} (hs0 :
    s0.memOk) (hs : s.memOk) :
    Ends State.memOk State.memOk (s0.writeRealTv i d rnd x tv s) := by
  unfold State.writeRealTv
  dsimp only
  split
  · split
    · exact hs
    · exact hs
    · exact hs
    · split
      · rename_i e12
        exact (memOk_draws hs0 hs).of_error e12
      · rename_i e16
        exact memOk_writeInt hs0 ((memOk_draws hs0 hs).of_ok e16)
  · split
    · rename_i e21
      exact (memOk_draws hs0 hs).of_error e21
    · rename_i e25
      split
      · exact memOk_putName ((memOk_draws hs0 hs).of_ok e25)
      · exact memOk_trapM hs0
theorem State.memOk_writeReal {s0 : State} {i : Instr} {d : NameRef} {rnd : Rnd} {x : XVal} {s : State} (hs0 : s0.memOk) (hs : s.memOk) :
    Ends State.memOk State.memOk (s0.writeReal i d rnd x s) := memOk_writeRealTv hs0 hs
theorem State.memOk_writeRnd {s0 : State} {i : Instr} {d : NameRef} {rnd : Rnd} {x : Int} {s : State} (hs0 : s0.memOk) (hs : s.memOk) :
    Ends State.memOk State.memOk (s0.writeRnd i d rnd x s) := by
  unfold State.writeRnd
  refine Ends.ite (fun _ => memOk_writeReal hs0 hs) fun _ => ?_
  exact memOk_writeInt hs0 hs
theorem State.memOk_writeOne {s0 : State} {i : Instr} {d : NameRef} {x : Int} {s : State} (hs0 : s0.memOk) (hs : s.memOk) :
    Ends State.memOk State.memOk (s0.writeOne i d x s) := memOk_writeRnd hs0 hs
theorem State.memOk_writeKeep {s0 : State} {i : Instr} {d : NameRef} {x : Int} {s : State} (hs0 : s0.memOk) (hs : s.memOk) :
    Ends State.memOk State.memOk (s0.writeKeep i d x s) := by
  unfold State.writeKeep
  refine Ends.ite (fun _ => memOk_writeRealTv hs0 hs) fun _ => ?_
  exact memOk_writeInt hs0 hs
theorem State.memOk_putPat {s0 : State} {i : Instr} {d : NameRef} {p : Nat} {s : State} (hs0 : s0.memOk) (hs : s.memOk) :
    Ends State.memOk State.memOk (s0.putPat i d p s) := by
  unfold State.putPat
  split
  · exact memOk_putName hs
  · exact memOk_writeInt hs0 hs
theorem State.memOk_writeLanes {s0 : State} {i : Instr} {d : NameRef} {lam : Nat} {xs : List Int} {s : State} (hs0 : s0.memOk) (hs :
    s.memOk) :
    Ends State.memOk State.memOk (s0.writeLanes i d lam xs s) := by
  unfold State.writeLanes
  dsimp only
  split
  · exact hs
  · exact hs
  · exact hs
  · split
    · exact memOk_trapM hs0
    · exact memOk_putPat hs0 hs
theorem State.memOk_quantDone {s0 : State} {q : QCount} {s : State} (hs0 : s0.memOk) (hs : s.memOk) :
    Ends State.memOk State.memOk (s0.quantDone q s) := by
  unfold State.quantDone
  refine Ends.ite (fun _ => memOk_trapM (memOk_countQ hs0)) fun _ => ?_
  exact memOk_countQ hs
theorem State.memOk_writeFlanes {s0 : State} {i : Instr} {d : NameRef} {f : FF} {rnd : Rnd} {l : LaneRule} {xs : List XVal} {s : State}
    (hs0 : s0.memOk) (hs : s.memOk) :
    Ends State.memOk State.memOk (s0.writeFlanes i d f rnd l xs s) := by
  unfold State.writeFlanes
  dsimp only
  split
  · exact hs
  · split
    · rename_i e5
      exact (memOk_drawsFor hs0 hs).of_error e5
    · rename_i z8 e9
      have he9 : z8.memOk := (memOk_drawsFor hs0 hs).of_ok e9
      split
      · split
        · rename_i e13
          exact (memOk_putPat hs0 he9).of_error e13
        · rename_i e16
          exact memOk_quantDone hs0 ((memOk_putPat hs0 he9).of_ok e16)
      · split
        · exact memOk_trapM hs0
        · exact memOk_putPat hs0 he9

end Sys2Proof.Machine
end

section
/-! Memory keeps its canonical form: scalar instructions, control and the memory system. One lemma for each meaning, along its definition. -/
namespace Sys2Proof.Machine

theorem State.memOk_alu2 {s : State} {i : Instr} {h : Hdr} {d a b : NameRef} {f : Src → Src → Int} (hs : s.memOk) :
    Ends State.memOk State.memOk (alu2 s i h d a b f) := by
  unfold alu2
  refine (memOk_issue hs).bind fun z1 h2 => ?_
  refine (memOk_read hs h2).bind fun p3 h4 => ?_
  refine (memOk_read hs h4).bind fun p5 h6 => ?_
  refine (memOk_writeInt hs h6).bind fun z7 h8 => ?_
  exact memOk_done h8
theorem State.memOk_alu1 {s : State} {i : Instr} {h : Hdr} {d a : NameRef} {f : Src → Int} (hs : s.memOk) :
    Ends State.memOk State.memOk (alu1 s i h d a f) := by
  unfold alu1
  refine (memOk_issue hs).bind fun z1 h2 => ?_
  refine (memOk_read hs h2).bind fun p3 h4 => ?_
  refine (memOk_writeInt hs h4).bind fun z5 h6 => ?_
  exact memOk_done h6
theorem State.memOk_movM {s : State} {i : Instr} {h : Hdr} {d a : NameRef} (hs : s.memOk) :
    Ends State.memOk State.memOk (movM s i h d a) := by
  unfold movM
  refine (memOk_issue hs).bind fun z1 h2 => ?_
  refine (memOk_read hs h2).bind fun p3 h4 => ?_
  split
  dsimp only
  split
  · refine (memOk_writeInt hs h4).bind fun z9 h10 => ?_
    exact memOk_done h10
  · refine (memOk_putPat hs h4).bind fun z12 h13 => ?_
    exact memOk_done h13
theorem State.memOk_setM {s : State} {i : Instr} {h : Hdr} {d : NameRef} {x : Int} (hs : s.memOk) :
    Ends State.memOk State.memOk (setM s i h d x) := by
  unfold setM
  refine (memOk_issue hs).bind fun z1 h2 => ?_
  refine (memOk_writeInt hs h2).bind fun z3 h4 => ?_
  exact memOk_done h4
theorem State.memOk_shiftI {s : State} {i : Instr} {h : Hdr} {d a : NameRef} {imm : BitVec 32} {f : Src → Nat → Int} (hs : s.memOk) :
    Ends State.memOk State.memOk (shiftI s i h d a imm f) := by
  unfold shiftI
  refine (memOk_issue hs).bind fun z1 h2 => ?_
  refine (memOk_read hs h2).bind fun p3 h4 => ?_
  refine (memOk_writeInt hs h4).bind fun z5 h6 => ?_
  exact memOk_done h6
theorem State.memOk_insM {s : State} {i : Instr} {h : Hdr} {d a : NameRef} {pos len : Nat} (hs : s.memOk) :
    Ends State.memOk State.memOk (insM s i h d a pos len) := by
  unfold insM
  refine (memOk_issue hs).bind fun z1 h2 => ?_
  refine (memOk_read hs h2).bind fun p3 h4 => ?_
  refine (memOk_read hs h4).bind fun p5 h6 => ?_
  refine (memOk_writeInt hs h6).bind fun z7 h8 => ?_
  exact memOk_done h8
theorem State.memOk_takeMul {k : Nat} {s : State} (hs : s.memOk) :
    (s.takeMul k).memOk := memOk_setMyCore hs
theorem State.memOk_takeDiv {k : Nat} {s : State} (hs : s.memOk) :
    (s.takeDiv k).memOk := memOk_setMyCore hs
/-- A unit taken, or one taken before: what it changes keeps the form. -/
theorem State.memOk_useUnit {s0 : State} {i : Instr} {tag free lat : Nat} {take : State → State} (hs0 : s0.memOk)
    (ht : ∀ z, z.memOk → (take z).memOk) :
    Ends State.memOk (fun u => ∀ z, z.memOk → (u z).memOk) (s0.useUnit i tag free lat take) := by
  unfold State.useUnit
  split
  · exact fun _ hz => hz
  · split
    · exact memOk_holdM hs0
    · split
      · exact ht
      · exact ht _ (memOk_running hs0)
theorem State.memOk_mulM {s : State} {i : Instr} {h : Hdr} {d a b : NameRef} {readD ok : Bool} {f : Src → Src → Int → Int} (hs : s.memOk) :
    Ends State.memOk State.memOk (mulM s i h d a b readD ok f) := by
  have write {x y : Src} {z : Int} {s4 : State} (h4 : s4.memOk) : Ends State.memOk State.memOk (do
      let u ← s.useUnit i tagUnit s.myCore.mulFree (4 + mulK x y) (State.takeMul (mulK x y))
      let s5 ← afterRun ((u s).writeInt i d (f x y z) (u s4))
      pure (s5.done h)) := by
    refine (memOk_useUnit hs fun _ hz => memOk_takeMul hz).bind fun u hu => ?_
    refine (memOk_afterRun (memOk_writeInt (hu s hs) (hu s4 h4))).bind fun z hz => ?_
    exact memOk_done hz
  unfold mulM
  refine (memOk_issue hs).bind fun z1 h1 => ?_
  refine (memOk_read hs h1).bind fun p2 h2 => ?_
  refine (memOk_read hs h2).bind fun p3 h3 => ?_
  dsimp only
  split
  · refine Ends.bind (P := fun p => p.2.memOk) (Ends.map ?_) fun p4 h4 => write h4
    exact memOk_read hs h3
  · exact write h3
theorem State.memOk_divM {s : State} {i : Instr} {h : Hdr} {d a b : NameRef} {f : Int → Int → Int} (hs : s.memOk) :
    Ends State.memOk State.memOk (divM s i h d a b f) := by
  unfold divM
  refine (memOk_issue hs).bind fun z1 h1 => ?_
  refine (memOk_read hs h1).bind fun p2 h2 => ?_
  refine (memOk_read hs h2).bind fun p3 h3 => ?_
  dsimp only
  split
  · exact Ends.bind (P := fun _ => False) (memOk_trapM hs) fun _ h => h.elim
  · refine (memOk_useUnit hs fun _ hz => memOk_takeDiv hz).bind fun u hu => ?_
    refine (memOk_afterRun (memOk_writeInt (hu s hs) (hu _ h3))).bind fun z hz => ?_
    exact memOk_done hz
theorem State.memOk_selM {s : State} {i : Instr} {h : Hdr} {d a b c : NameRef} (hs : s.memOk) :
    Ends State.memOk State.memOk (selM s i h d a b c) := by
  unfold selM
  refine (memOk_issue hs).bind fun z1 h2 => ?_
  refine (memOk_read hs h2).bind fun p3 h4 => ?_
  refine (memOk_read hs h4).bind fun p5 h6 => ?_
  refine (memOk_read hs h6).bind fun p7 h8 => ?_
  refine (memOk_writeInt hs h8).bind fun z9 h10 => ?_
  exact memOk_done h10
theorem State.memOk_transfer {s0 : State} {t : Int} {s : State} (hs0 : s0.memOk) (hs : s.memOk) :
    Ends State.memOk State.memOk (s0.transfer t s) := by
  unfold State.transfer
  split
  · exact memOk_trapM hs0
  · exact memOk_goTo hs
theorem State.memOk_branchM {s : State} {i : Instr} {h : Hdr} {a : NameRef} {off : BitVec 32} {c : Int → Bool} (hs : s.memOk) :
    Ends State.memOk State.memOk (branchM s i h a off c) := by
  unfold branchM
  refine (memOk_issue hs).bind fun z1 h2 => ?_
  refine (memOk_read hs h2).bind fun p3 h4 => ?_
  refine Ends.ite (fun _ => memOk_transfer hs h4) fun _ => ?_
  exact memOk_done h4
theorem State.memOk_relM {s : State} {i : Instr} {h : Hdr} {off : BitVec 32} (hs : s.memOk) :
    Ends State.memOk State.memOk (relM s i h off) := by
  unfold relM
  refine (memOk_issue hs).bind fun z1 h2 => ?_
  exact memOk_transfer hs h2
theorem State.memOk_indM {s : State} {i : Instr} {h : Hdr} {a : NameRef} {off : BitVec 32} (hs : s.memOk) :
    Ends State.memOk State.memOk (indM s i h a off) := by
  unfold indM
  refine (memOk_issue hs).bind fun z1 h2 => ?_
  refine (memOk_read hs h2).bind fun p3 h4 => ?_
  split
  exact memOk_transfer hs h4
theorem State.memOk_callTo {s0 : State} {i : Instr} {h : Hdr} {t : Int} {s : State} (hs0 : s0.memOk) (hs : s.memOk) :
    Ends State.memOk State.memOk (s0.callTo i h t s) := by
  unfold State.callTo
  split
  · exact memOk_trapM hs0
  · dsimp only
    split
    · exact memOk_goTo (memOk_setMe hs)
    · refine Ends.ite (fun _ => memOk_trapM hs0) fun _ => ?_
      refine Ends.ite (fun _ => memOk_trapM hs0) fun _ => ?_
      refine Ends.ite (fun _ => memOk_holdM hs0) fun _ => ?_
      exact memOk_goTo (memOk_setMe (memOk_putLocalWord hs _ _ _))
theorem State.memOk_callRelM {s : State} {i : Instr} {h : Hdr} {off : BitVec 32} (hs : s.memOk) :
    Ends State.memOk State.memOk (callRelM s i h off) := by
  unfold callRelM
  refine (memOk_issue hs).bind fun z1 h2 => ?_
  exact memOk_callTo hs h2
theorem State.memOk_callIndM {s : State} {i : Instr} {h : Hdr} {a : NameRef} {off : BitVec 32} (hs : s.memOk) :
    Ends State.memOk State.memOk (callIndM s i h a off) := by
  unfold callIndM
  refine (memOk_issue hs).bind fun z1 h2 => ?_
  refine (memOk_read hs h2).bind fun p3 h4 => ?_
  split
  exact memOk_callTo hs h4
theorem State.memOk_retM {s : State} {i : Instr} {h : Hdr} (hs : s.memOk) :
    Ends State.memOk State.memOk (retM s i h) := by
  unfold retM
  refine (memOk_issue hs).bind fun z1 h1 => ?_
  dsimp only
  split
  · exact memOk_transfer hs (memOk_setMe h1)
  · split
    · exact memOk_trapM hs
    · refine .ite (fun _ => memOk_trapM hs) fun _ => .ite (fun _ => memOk_holdM hs) fun _ => .ite (fun _ => memOk_poisonM hs) fun _ => ?_
      generalize (z1.localWord _ _ : Int) = a
      exact memOk_transfer hs (memOk_found (memOk_setMe h1))
theorem State.memOk_addrM {s : State} {i : Instr} {h : Hdr} {d a : NameRef} {f : Thread → Nat → Option Nat} (hs : s.memOk) :
    Ends State.memOk State.memOk (addrM s i h d a f) := by
  unfold addrM
  refine (memOk_issue hs).bind fun z1 h2 => ?_
  refine (memOk_read hs h2).bind fun p3 h4 => ?_
  refine Ends.ite (fun _ => memOk_trapM hs) fun _ => ?_
  split
  · exact memOk_trapM hs
  · refine (memOk_writeInt hs h4).bind fun z10 h11 => ?_
    exact memOk_done h11
theorem State.memOk_reflect {s : State} {die pa n : Nat} (hs : s.memOk) :
    (s.reflect die pa n).memOk := hs
theorem State.memOk_vaultMark {s : State} {who : Option Writer} {pa : Nat} (hs : s.memOk) :
    (s.vaultMark who pa).memOk := hs
theorem State.memOk_homeWrite {s : State} {die : Nat} {who : Option Writer} {key pa : Nat} {bs : List Byte} (hs : s.memOk) :
    (s.homeWrite die who key pa bs).memOk := memOk_activate (memOk_reflect (memOk_with (memOk_homePut hs _ _ _)))
theorem State.memOk_durableWrite {s : State} {die key pa : Nat} {bs : List Byte} (hs : s.memOk) :
    (s.durableWrite die key pa bs).memOk := memOk_activate (memOk_reflect (memOk_homePut (by exact hs) _ _ _))
theorem State.memOk_sendMiss {s : State} {tile : Nat} {m : Miss} (hs : s.memOk) :
    (s.sendMiss tile m).memOk := by
  unfold State.sendMiss
  dsimp only
  split
  · exact memOk_setTile hs
  · exact memOk_count (memOk_setTile hs)
theorem State.memOk_threadMiss {s : State} {kind a req : Nat} (hs : s.memOk) :
    (s.threadMiss kind a req).memOk := memOk_ite hs (memOk_sendMiss hs)
theorem State.memOk_missM {α : Type} {s0 : State} {i : Instr} {kind a : Nat} {P : α → Prop} (hs0 : s0.memOk) :
    Ends State.memOk P (missM s0 i kind a) := memOk_hold (memOk_ite hs0 (memOk_threadMiss hs0))
theorem State.memOk_holdPeer {s0 : State} {i : Instr} {a : Nat} (hs0 : s0.memOk) :
    (s0.holdPeer i a).memOk := memOk_ite (memOk_hold hs0) (memOk_setMe (memOk_hold hs0))
theorem State.memOk_translate {s0 : State} {i : Instr} {kind : Nat} {w : Bool} {ea : Int} {a : Nat} {s : State} (hs0 : s0.memOk) :
    Ends State.memOk (fun _ => True) (s0.translate i kind w ea a s) := by
  unfold State.translate
  refine Ends.ite (fun _ => memOk_holdM hs0) fun _ => ?_
  split
  · exact memOk_missM hs0
  · refine Ends.ite (fun _ => memOk_trapM hs0) fun _ => ?_
    refine Ends.ite (fun _ => memOk_trapM hs0) fun _ => ?_
    refine Ends.ite (fun _ => memOk_trapM hs0) fun _ => ?_
    split
    · exact memOk_ite (memOk_holdPeer hs0) (memOk_hold hs0)
    · exact trivial
theorem State.memOk_fenceOf {s0 : State} {i : Instr} {sc : Scope} {s : State} (hs0 : s0.memOk) :
    Ends State.memOk (fun _ => True) (s0.fenceOf i sc s) := by
  unfold State.fenceOf
  split
  · exact trivial
  · exact trivial
  · refine Ends.ite (fun _ => memOk_holdM hs0) fun _ => ?_
    split
    · exact trivial
    · exact memOk_holdM hs0
theorem State.memOk_atHome {s0 : State} {i : Instr} {sc : Scope} {a pa : Nat} {s : State} (hs0 : s0.memOk) (hs : s.memOk) :
    Ends State.memOk State.memOk (s0.atHome i sc a pa s) := by
  unfold State.atHome
  refine Ends.ite (fun _ => memOk_holdM hs0) fun _ => ?_
  refine (memOk_fenceOf hs0).bind fun _ _ => ?_
  exact hs
theorem State.memOk_leave {s : State} {die ctx : Nat} {e : TEntry} {a : Nat} (hs : s.memOk) :
    (s.leave die ctx e a).memOk := by
  unfold State.leave
  dsimp only
  split
  · exact memOk_ite hs hs
  · exact hs
theorem State.memOk_loadPiece {s0 : State} {i : Instr} {kind : Nat} {ea : Int} {a n : Nat} {s : State} (hs0 : s0.memOk) (hs : s.memOk) :
    Ends State.memOk (fun p => p.2.memOk) (s0.loadPiece i kind ea a n s) := by
  unfold State.loadPiece
  refine Ends.ite (fun _ => memOk_holdM hs0) fun _ => ?_
  refine (memOk_translate hs0).bind fun x1 _ => ?_
  refine Ends.guard (memOk_holdM hs0) fun _ => ?_
  refine Ends.ite (fun _ => memOk_poisonM hs0) fun _ => ?_
  change State.memOk _
  dsimp only
  exact memOk_ite (memOk_leave (memOk_found hs)) hs
theorem State.memOk_loadWs {s0 : State} {i : Instr} {ea : Int} {die region off n : Nat} {s : State} (hs0 : s0.memOk) (hs : s.memOk) :
    Ends State.memOk (fun p => p.2.memOk) (s0.loadWs i ea die region off n s) := by
  unfold State.loadWs
  refine Ends.ite (fun _ => memOk_trapM hs0) fun _ => ?_
  refine Ends.ite (fun _ => memOk_holdM hs0) fun _ => ?_
  refine Ends.ite (fun _ => memOk_poisonM hs0) fun _ => ?_
  change State.memOk _
  dsimp only
  exact memOk_found hs
theorem State.memOk_storeMiss {s : State} {kind tile : Nat} {core : Fin 3} {ctx a : Nat} (hs : s.memOk) :
    (s.storeMiss kind tile core ctx a).memOk := memOk_sendMiss hs
theorem State.memOk_rewrite {s : State} {t : ThreadRef} {kind ctx k n : Nat} (hs : s.memOk) :
    (s.rewrite t kind ctx k n).memOk := memOk_ite hs (State.memOk_foldl _ (fun _ _ hz => (memOk_found hz)) _ hs)
theorem State.memOk_performStore {s : State} {t : ThreadRef} {seq ctx : Nat} {te : TEntry} {a : Nat} {bs : List Byte} {f : StoreForm} (hs
    : s.memOk) :
    (s.performStore t seq ctx te a bs f).memOk := State.memOk_foldl _ (fun _ _ hz => (memOk_homeWrite (memOk_rewrite (memOk_ite
        (memOk_count hz) hz)))) _ hs
theorem State.memOk_wakeReply {s : State} {t : ThreadRef} {wake : Bool} (hs : s.memOk) :
    (s.wakeReply t wake).memOk := by
  unfold State.wakeReply
  dsimp only
  split
  · exact memOk_ite (memOk_setThread hs) hs
  · exact hs
theorem State.memOk_landAs {s : State} {t : ThreadRef} {n : BitVec 9} {x : Int} {old : Bool} (hs : s.memOk) :
    (s.landAs t n x old).memOk := by
  unfold State.landAs
  refine memOk_ite (memOk_ite (memOk_asyncTrap hs) ?_) ?_
  · dsimp only
    split
    · exact memOk_setThread hs
    · exact memOk_asyncTrap hs
  · split
    · exact memOk_setThread hs
    · exact memOk_asyncTrap hs
theorem State.memOk_landInt {s : State} {t : ThreadRef} {n : BitVec 9} {x : Int} (hs : s.memOk) :
    (s.landInt t n x).memOk := memOk_landAs hs
theorem State.memOk_deliver {s z : State} {r : CoreRef} {p : Reply} (hs : s.memOk) (hz : s.deliver r p = some z) : z.memOk := by
  unfold State.deliver at hz
  dsimp only at hz
  split at hz
  · split at hz <;> cases hz
    · exact memOk_wakeReply (memOk_landAs hs)
    · exact memOk_wakeReply (memOk_landAs hs)
    · exact memOk_wakeReply hs
  · split at hz
    · next z1 he =>
      cases hz
      have h1 : z1.memOk := Ends.of_ok (memOk_writeEng (by exact hs) (by exact hs)) he
      exact memOk_wakeReply h1
    · cases hz
  · split at hz
    · split at hz
      · cases hz
      · cases hz
        exact memOk_wakeReply hs
    · cases hz
      exact memOk_wakeReply hs
theorem State.memOk_await {s0 : State} {h : Hdr} {i : Instr} {d : NameRef} {v : ReplyVal} {s : State} (hs : s.memOk) :
    (s0.await h i d v s).memOk := memOk_setMyCore (memOk_setMe hs)
theorem State.memOk_modLastReply {s : State} {f : Reply → Reply} (hs : s.memOk) :
    (s.modLastReply f).memOk := memOk_setMyCore hs
theorem State.memOk_readsAt {s : State} {a n : Nat} (hs : s.memOk) :
    (s.readsAt a n).memOk := memOk_modLastReply hs
theorem State.memOk_viaHome {s : State} {pa a : Nat} (hs : s.memOk) :
    (s.viaHome pa a).memOk := memOk_modLastReply hs
theorem State.memOk_viaPeer {s : State} {a : Nat} (hs : s.memOk) :
    (s.viaPeer a).memOk := by
  unfold State.viaPeer
  split
  · exact memOk_viaHome hs
  · exact hs
theorem State.memOk_portCheck {s0 : State} {d : NameRef} {s : State} (hs0 : s0.memOk) :
    Ends State.memOk (fun _ => True) (s0.portCheck d s) := by
  unfold State.portCheck
  split
  · split
    · exact trivial
    · exact memOk_trapM hs0
  · exact trivial
theorem State.memOk_firstReply {s z : State} {r : CoreRef} {k j : Nat} {l : List Reply} (hs : s.memOk)
    (hz : s.firstReply r k l = some (j, z)) : z.memOk := by
  induction l generalizing k with
  | nil => cases hz
  | cons p l ih =>
    unfold State.firstReply at hz
    split at hz
    · next he => cases hz; exact memOk_deliver hs he
    · exact ih hz
theorem State.memOk_execAsyncWrite {r : CoreRef} {s : State} (hs : s.memOk) : Nexts State.memOk (execAsyncWrite r s) := by
  unfold execAsyncWrite
  dsimp only
  split
  · exact memOk_setCore hs
  · split
    · next he => exact memOk_setCore (memOk_firstReply hs he)
    · exact trivial

end Sys2Proof.Machine
end

section
/-! Memory keeps its canonical form: accesses, repacks, groups and the system instructions. One lemma for each meaning, along its definition. -/
namespace Sys2Proof.Machine

theorem State.memOk_effective {s0 : State} {v : Int} {n : Nat} (hs0 : s0.memOk) :
    Ends State.memOk (fun _ => True) (s0.effective v n) := by
  unfold State.effective
  refine Ends.ite (fun _ => memOk_trapM hs0) fun _ => ?_
  refine Ends.ite (fun _ => memOk_trapM hs0) fun _ => ?_
  exact trivial
theorem State.memOk_landNow {s0 : State} {i : Instr} {h : Hdr} {d : NameRef} {v : ReplyVal} {s : State} (hs0 : s0.memOk) (hs : s.memOk) :
    Ends State.memOk State.memOk (s0.landNow i h d v s) := by
  unfold State.landNow
  refine Ends.bind (P := State.memOk) ?_ fun z1 h2 => ?_
  · split
    · exact memOk_writeOne hs0 hs
    · exact memOk_writeKeep hs0 hs
    · exact memOk_putPat hs0 hs
  · exact memOk_done h2
theorem State.memOk_loadPieces {s0 s : State} {i : Instr} {ea : Int} {l : List (Nat × Nat)} (hs0 : s0.memOk) (hs : s.memOk) :
    Ends State.memOk (fun p => p.2.memOk) (s0.loadPieces i ea l s) := by
  induction l generalizing s with
  | nil => exact hs
  | cons p l ih =>
    unfold State.loadPieces
    split
    · refine (memOk_loadPiece hs0 hs).bind fun q hq => ?_
      exact (ih hq).bind fun r hr => hr
    · refine (memOk_loadWs hs0 hs).bind fun q hq => ?_
      exact (ih hq).bind fun r hr => hr
    · exact memOk_trapM hs0
theorem State.memOk_loadLocal {s0 : State} {i : Instr} {ea : Int} {a n : Nat} {s : State} (hs0 : s0.memOk) (hs : s.memOk) :
    Ends State.memOk (fun p => p.2.memOk) (s0.loadLocal i ea a n s) := by
  unfold State.loadLocal
  refine Ends.ite (fun _ => memOk_trapM hs0) fun _ => ?_
  refine Ends.ite (fun _ => memOk_holdM hs0) fun _ => ?_
  refine Ends.ite (fun _ => memOk_poisonM hs0) fun _ => ?_
  change State.memOk _
  dsimp only
  exact memOk_found hs
theorem State.memOk_loadM {s : State} {i : Instr} {h : Hdr} {d a : NameRef} {off : BitVec 32} {n : Nat} (hs : s.memOk) :
    Ends State.memOk State.memOk (loadM s i h d a off n) := by
  unfold loadM
  refine (memOk_issue hs).bind fun z1 h2 => ?_
  refine (memOk_read hs h2).bind fun p3 h4 => ?_
  refine (memOk_effective hs).bind fun x5 _ => ?_
  refine (memOk_portCheck hs).bind fun _ _ => ?_
  split
  · refine (memOk_loadLocal hs h4).bind fun p9 h10 => ?_
    split
    exact memOk_landNow hs h10
  · exact memOk_trapM hs
  · refine (memOk_loadPieces hs h4).bind fun p19 h20 => ?_
    exact memOk_viaPeer (memOk_await h20)
theorem State.memOk_granRange {s0 : State} {ea : Int} {pa : Nat} {d : NameRef} {s : State} (hs0 : s0.memOk) :
    Ends State.memOk (fun _ => True) (s0.granRange ea pa d s) := by
  unfold State.granRange
  split
  · exact trivial
  · refine Ends.ite (fun _ => memOk_trapM hs0) fun _ => ?_
    split
    · exact trivial
    · exact memOk_trapM hs0
theorem State.memOk_loadGran {s0 : State} {i : Instr} {ea : Int} {g : Nat} {f : FmtRange} {e : TEntry} {s : State} (hs0 : s0.memOk) (hs :
    s.memOk) :
    Ends State.memOk (fun p => p.2.memOk) (s0.loadGran i ea g f e s) := by
  unfold State.loadGran
  refine Ends.guard (memOk_holdM hs0) fun _ => ?_
  refine (memOk_loadPiece hs0 hs).bind fun p1 h2 => ?_
  refine Ends.guard (memOk_poisonM hs0) fun _ => ?_
  change State.memOk _
  dsimp only
  exact memOk_ite (memOk_found h2) h2
theorem State.memOk_loadGM {s : State} {i : Instr} {h : Hdr} {d a : NameRef} {off : BitVec 32} (hs : s.memOk) :
    Ends State.memOk State.memOk (loadGM s i h d a off) := by
  unfold loadGM
  refine (memOk_issue hs).bind fun z1 h2 => ?_
  refine (memOk_read hs h2).bind fun p3 h4 => ?_
  refine (memOk_effective hs).bind fun x5 _ => ?_
  split
  · refine (memOk_loadLocal hs h4).bind fun p9 h10 => ?_
    split
    exact memOk_landNow hs h10
  · exact memOk_trapM hs
  · refine (memOk_loadPieces hs h4).bind fun p21 h22 => ?_
    exact memOk_await h22
  · refine (memOk_translate hs).bind fun x26 _ => ?_
    refine (memOk_granRange hs).bind fun x27 _ => ?_
    split
    · refine Ends.guard (memOk_trapM hs) fun _ => ?_
      refine (memOk_loadPieces hs h4).bind fun p29 h30 => ?_
      exact memOk_viaPeer (memOk_await h30)
    · refine (memOk_loadGran hs h4).bind fun p33 h34 => ?_
      exact memOk_viaPeer (memOk_await h34)
theorem State.memOk_storeLocal {s0 : State} {i : Instr} {ea : Int} {a : Nat} {bs : List Byte} {s : State} (hs0 : s0.memOk) (hs : s.memOk) :
    Ends State.memOk State.memOk (s0.storeLocal i ea a bs s) := by
  unfold State.storeLocal
  refine Ends.ite (fun _ => memOk_trapM hs0) fun _ => ?_
  refine Ends.ite (fun _ => memOk_holdM hs0) fun _ => ?_
  exact memOk_putBytes (memOk_rewrite (memOk_ite (memOk_count hs) hs)) _ _
theorem State.memOk_post {s0 : State} {i : Instr} {ps : List (Nat × List Byte × StoreForm)} {s : State} (hs0 : s0.memOk) (hs : s.memOk) :
    Ends State.memOk State.memOk (s0.post i ps s) := by
  unfold State.post
  refine Ends.ite (fun _ => memOk_holdM hs0) fun _ => ?_
  exact memOk_setMyCore hs
theorem State.memOk_storeM {s : State} {i : Instr} {h : Hdr} {d a : NameRef} {off : BitVec 32} {n : Nat} (hs : s.memOk) :
    Ends State.memOk State.memOk (storeM s i h d a off n) := by
  unfold storeM
  refine (memOk_issue hs).bind fun z1 h2 => ?_
  refine (memOk_read hs h2).bind fun p3 h4 => ?_
  refine (memOk_read hs h4).bind fun p5 h6 => ?_
  refine (memOk_effective hs).bind fun x7 _ => ?_
  dsimp only
  split
  · refine (memOk_storeLocal hs h6).bind fun z11 h12 => ?_
    exact memOk_done h12
  · refine (memOk_post hs h6).bind fun z16 h17 => ?_
    exact memOk_done h17
  · exact memOk_trapM hs
theorem State.memOk_storeGM {s : State} {i : Instr} {h : Hdr} {d a : NameRef} {off : BitVec 32} (hs : s.memOk) :
    Ends State.memOk State.memOk (storeGM s i h d a off) := by
  unfold storeGM
  refine (memOk_issue hs).bind fun z1 h2 => ?_
  refine (memOk_read hs h2).bind fun p3 h4 => ?_
  refine (memOk_read hs h4).bind fun p5 h6 => ?_
  refine (memOk_effective hs).bind fun x7 _ => ?_
  dsimp only
  split
  · refine (memOk_storeLocal hs h6).bind fun z11 h12 => ?_
    exact memOk_done h12
  · refine Ends.bind (P := fun _ => True) ?_ fun x16 _ => ?_
    · split
      · exact trivial
      · refine (memOk_granRange hs).bind fun x22 _ => ?_
        refine Ends.guard (memOk_trapM hs) fun _ => ?_
        exact trivial
    · refine (memOk_post hs h6).bind fun z23 h24 => ?_
      exact memOk_done h24
  · exact memOk_trapM hs
theorem State.memOk_sideReduction {s0 : State} {i : Instr} {h : Hdr} {f : RedFn} {a n : Nat} {b : Src} {s : State} (hs0 : s0.memOk) (hs :
    s.memOk) :
    Ends State.memOk State.memOk (s0.sideReduction i h f a n b s) := by
  unfold State.sideReduction
  refine Ends.ite (fun _ => memOk_holdM hs0) fun _ => ?_
  exact memOk_done (memOk_ite (memOk_count (memOk_setMyTile hs)) (memOk_storeMiss (memOk_count (memOk_setMyTile hs))))
theorem State.memOk_amoStep {f : AmoFn} {n m : Nat} {b : Src} {put : List Byte → State} {s : State} (hs : s.memOk)
    (hp : ∀ l, (put l).memOk) : (amoStep f n m b put s).memOk := by
  unfold amoStep
  split
  · exact hp _
  · exact hs
theorem State.memOk_amoM {s : State} {i : Instr} {h : Hdr} {d a b : NameRef} {c : Option NameRef} {sz : AmoSize} {sc : Scope} {fadd :
    Bool} {f : Option Src → AmoFn} (hs : s.memOk) :
    Ends State.memOk State.memOk (amoM s i h d a b c sz sc fadd f) := by
  unfold amoM
  refine (memOk_issue hs).bind fun z1 h2 => ?_
  refine (memOk_read hs h2).bind fun p3 h4 => ?_
  refine (memOk_read hs h4).bind fun p5 h6 => ?_
  refine Ends.bind (P := fun p => p.2.memOk) ?_ fun p7 h8 => ?_
  · split
    · exact h6
    · refine (memOk_read hs h6).bind fun p12 h13 => ?_
      exact h13
  · refine (memOk_effective hs).bind fun x14 _ => ?_
    refine (memOk_portCheck hs).bind fun _ _ => ?_
    dsimp only
    split
    · refine (memOk_fenceOf hs).bind fun _ _ => ?_
      refine Ends.ite (fun _ => memOk_holdM hs) fun _ => ?_
      refine Ends.ite (fun _ => memOk_poisonM hs) fun _ => ?_
      change State.memOk _
      refine memOk_undoing (memOk_await (memOk_amoStep (memOk_found h8) ?_))
      intro a18
      exact memOk_putBytes (memOk_found h8) _ _
    · split
      · refine Ends.guard (memOk_holdM hs) fun _ => ?_
        refine (memOk_fenceOf hs).bind fun _ _ => ?_
        exact memOk_sideReduction hs h8
      · refine (memOk_translate hs).bind fun x30 _ => ?_
        refine (memOk_atHome hs h8).bind fun z31 h32 => ?_
        refine Ends.guard (memOk_holdM hs) fun _ => ?_
        refine Ends.guard (memOk_poisonM hs) fun _ => ?_
        change State.memOk _
        refine memOk_undoing (memOk_viaPeer (memOk_await (memOk_amoStep (memOk_found h32) ?_)))
        intro a33
        exact memOk_homeWrite (memOk_found h32)
    · exact memOk_trapM hs
theorem State.memOk_feStep {s0 : State} {i : Instr} {h : Hdr} {f : FeFn} {d : NameRef} {ea : Int} {k word : Nat} {put bit s : State} (hs0
    : s0.memOk) (hput : put.memOk) (hbit : bit.memOk) (hs : s.memOk) :
    Ends State.memOk State.memOk (s0.feStep i h f d ea k word put bit s) := by
  unfold State.feStep
  split
  · exact memOk_hold hs0
  · refine Ends.ite (fun _ => memOk_holdM hs0) fun _ => ?_
    refine Ends.ite (fun _ => memOk_poisonM hs0) fun _ => ?_
    dsimp only
    split
    · exact memOk_await (memOk_ite (memOk_found hs) hs)
    · exact memOk_undoing (memOk_await (memOk_setFull (memOk_ite (memOk_found hbit) hbit)))
    · exact memOk_done (memOk_setFull hput)
    · exact memOk_done (memOk_setFull hput)
    · exact memOk_done (memOk_setFull (memOk_ite (memOk_found hbit) hbit))
    · exact memOk_await (memOk_ite (memOk_found hs) hs)
theorem State.memOk_feM {s : State} {i : Instr} {h : Hdr} {f : FeFn} {d a : NameRef} {off : BitVec 32} {sc : Scope} (hs : s.memOk) :
    Ends State.memOk State.memOk (feM s i h f d a off sc) := by
  unfold feM
  refine (memOk_issue hs).bind fun z1 h2 => ?_
  refine (memOk_read hs h2).bind fun p3 h4 => ?_
  refine Ends.bind (P := fun p => p.2.memOk) ?_ fun p5 h6 => ?_
  · split
    · refine (memOk_read hs h4).bind fun p8 h9 => ?_
      exact h9
    · exact h4
  · refine (memOk_effective hs).bind fun x11 _ => ?_
    refine Ends.guard (memOk_portCheck hs) fun _ => ?_
    dsimp only
    split
    · refine Ends.bind (P := fun _ => True) ?_ fun _ _ => ?_
      · split
        · exact trivial
        · exact memOk_fenceOf hs
      · split
        · split
          · exact memOk_ite (memOk_hold hs) (memOk_hold hs)
          · exact memOk_feStep hs (memOk_putBytes h6 _ _) h6 h6
        · split
          · exact memOk_ite (memOk_hold hs) (memOk_hold hs)
          · exact memOk_feStep hs (memOk_putBytes h6 _ _) h6 h6
    · refine Ends.bind (P := fun p => p.2.memOk) ?_ fun p26 h27 => ?_
      · split
        · split
          · exact memOk_hold hs
          · exact h6
        · refine (memOk_translate hs).bind fun x35 _ => ?_
          refine (memOk_atHome hs h6).bind fun z36 h37 => ?_
          exact h37
      · refine (memOk_feStep hs (memOk_homeWrite h27) (memOk_vaultMark h27) h27).bind fun z38 h39 => ?_
        exact memOk_viaHome h39
    · exact memOk_trapM hs
theorem State.memOk_dropReflections {s : State} {p : Nat → Bool} {ctx start len : Nat} (hs : s.memOk) :
    (s.dropReflections p ctx start len).memOk := hs
theorem State.memOk_bindM {s : State} {i : Instr} {h : Hdr} {d a : NameRef} {add : Bool} (hs : s.memOk) :
    Ends State.memOk State.memOk (bindM s i h d a add) := by
  unfold bindM
  refine (memOk_issue hs).bind fun z1 h2 => ?_
  refine (memOk_read hs h2).bind fun p3 h4 => ?_
  refine (memOk_read hs h4).bind fun p5 h6 => ?_
  refine Ends.guard (memOk_holdM hs) fun _ => ?_
  refine Ends.guard (memOk_trapM hs) fun _ => ?_
  dsimp only
  split
  · split
    · exact memOk_done (memOk_modContext h6)
    · exact memOk_trapM hs
  · split
    · exact memOk_done (memOk_dropReflections (memOk_modContext h6))
    · exact memOk_trapM hs
theorem State.memOk_acqM {s : State} {i : Instr} {h : Hdr} {d a : NameRef} {sc : Scope} (hs : s.memOk) :
    Ends State.memOk State.memOk (acqM s i h d a sc) := by
  unfold acqM
  refine (memOk_issue hs).bind fun z1 h2 => ?_
  refine (memOk_read hs h2).bind fun p3 h4 => ?_
  refine Ends.guard (memOk_trapM hs) fun _ => ?_
  refine (memOk_portCheck hs).bind fun _ _ => ?_
  dsimp only
  split
  · refine (memOk_translate hs).bind fun x8 _ => ?_
    refine Ends.guard (memOk_poisonM hs) fun _ => ?_
    exact memOk_readsAt (memOk_await (memOk_ite (State.memOk_foldl _ (fun _ _ hz => (memOk_dropReflections hz)) _ (memOk_found h4))
        (memOk_found h4)))
  · exact memOk_trapM hs
theorem State.memOk_relSealM {s : State} {i : Instr} {h : Hdr} {d a : NameRef} {sc : Scope} (hs : s.memOk) :
    Ends State.memOk State.memOk (relSealM s i h d a sc) := by
  unfold relSealM
  split
  · split
    · exact memOk_hold hs
    · exact memOk_await hs
  · refine (memOk_issue hs).bind fun z8 h9 => ?_
    refine (memOk_read hs h9).bind fun p10 h11 => ?_
    refine Ends.guard (memOk_trapM hs) fun _ => ?_
    refine (memOk_portCheck hs).bind fun _ _ => ?_
    dsimp only
    split
    · refine (memOk_translate hs).bind fun x15 _ => ?_
      refine Ends.guard (memOk_holdM hs) fun _ => ?_
      refine Ends.guard (memOk_poisonM hs) fun _ => ?_
      split
      · exact memOk_undoing (memOk_hold (memOk_homeWrite (memOk_found h11)))
      · exact memOk_undoing (memOk_readsAt (memOk_await (memOk_homeWrite (memOk_found h11))))
    · exact memOk_trapM hs
theorem State.memOk_fenceM {s : State} {i : Instr} {h : Hdr} {sc : Scope} (hs : s.memOk) :
    Ends State.memOk State.memOk (fenceM s i h sc) := by
  unfold fenceM
  refine (memOk_issue hs).bind fun z1 h2 => ?_
  refine (memOk_fenceOf hs).bind fun _ _ => ?_
  exact memOk_done h2
theorem State.memOk_discardEntry {s : State} {tile : Nat} {core : Fin 3} {h : Fin 8} {ctx kind a cause : Nat} {trap : Option (Cause ×
    Word64)} (hs : s.memOk) :
    (s.discardEntry tile core h ctx kind a cause trap).memOk := by
  unfold State.discardEntry
  dsimp only
  split
  · exact memOk_asyncTrap (memOk_faultRecord hs)
  · exact memOk_faultRecord hs
theorem State.memOk_settleTail {s : State} {t : ThreadRef} {seq : Nat} {gone : Bool} (hs : s.memOk) :
    (s.settleTail t seq gone).memOk := memOk_setTile (memOk_setCore hs)
theorem State.memOk_landStore {s : State} {t : ThreadRef} {seq ctx : Nat} {te : TEntry} {a : Nat} {bs : List Byte} {f : StoreForm} (hs :
    s.memOk) :
    (s.landStore t seq ctx te a bs f).memOk := by
  unfold State.landStore
  dsimp only
  split
  · refine memOk_discardEntry ?_
    split
    · exact memOk_settleTail hs
    · exact hs
  · refine memOk_performStore ?_
    split
    · exact memOk_settleTail hs
    · exact hs
theorem State.memOk_execStoreEntryPerform {k : CoreRef} {idx : Nat} {s : State} (hs : s.memOk) :
    Nexts State.memOk (execStoreEntryPerform k idx s) := by
  unfold execStoreEntryPerform
  dsimp only
  split
  · exact trivial
  · refine Nexts.ite (fun _ => trivial) fun _ => ?_
    split
    · refine Nexts.ite (fun _ => trivial) fun _ => ?_
      exact memOk_ite (memOk_count (memOk_setTile (memOk_setCore hs))) (memOk_storeMiss (memOk_count (memOk_setTile (memOk_setCore hs))))
    · refine Nexts.ite (fun _ => trivial) fun _ => ?_
      split
      · split
        · change State.memOk _
          refine memOk_discardEntry ?_
          split
          · exact memOk_settleTail (memOk_setCore hs)
          · exact memOk_setCore hs
        · split
          · change State.memOk _
            refine memOk_discardEntry ?_
            split
            · exact memOk_settleTail (memOk_setCore hs)
            · exact memOk_setCore hs
          · refine Nexts.ite (fun _ => trivial) fun _ => ?_
            exact memOk_landStore (memOk_setCore hs)
      · exact trivial
theorem State.memOk_execReflectionEvict {die line : Nat} {s : State} (hs : s.memOk) :
    Nexts State.memOk (execReflectionEvict die line s) := by
  unfold execReflectionEvict
  refine Nexts.ite (fun _ => ?_) fun _ => trivial
  exact hs
theorem State.memOk_execVaultWriteDurable {buf idx : Nat} {s : State} (hs : s.memOk) :
    Nexts State.memOk (execVaultWriteDurable buf idx s) := by
  unfold execVaultWriteDurable
  dsimp only
  split
  · exact trivial
  · refine Nexts.ite (fun _ => trivial) fun _ => ?_
    refine Nexts.ite (fun _ => trivial) fun _ => ?_
    exact hs
theorem State.memOk_execFeWaitSatisfied {t : ThreadRef} {s : State} (hs : s.memOk) : Nexts State.memOk (execFeWaitSatisfied t s) := by
  have at' : State.memOk { s with cur := t } := hs
  have out (w : WaitRec) : Nexts State.memOk (match w.why, w.instr with
      | .retry 10 _, .feLdf h d a off sc => execFeLdf h d a off sc { s with cur := t }
      | .retry 10 _, .feLdk h d a off sc => execFeLdk h d a off sc { s with cur := t }
      | .retry 10 _, .feStf h d a off sc => execFeStf h d a off sc { s with cur := t }
      | _, _ => .refused (.notEnabled "FE_WAIT_SATISFIED: the thread waits for no word")) := by
    split
    · exact (memOk_feM at').finish
    · exact (memOk_feM at').finish
    · exact (memOk_feM at').finish
    · exact trivial
  unfold execFeWaitSatisfied
  dsimp only
  cases (s.thread t).wait with
  | none => exact trivial
  | some w =>
    dsimp only
    split
    · next z hz =>
      have hz : z.memOk := (out w).of_next hz
      split
      · exact Nexts.ite (fun _ => trivial) fun _ => hz
      · exact hz
    · next hn => exact out w
theorem State.memOk_widthM {s : State} {i : Instr} {h : Hdr} {d a : NameRef} (hs : s.memOk) :
    Ends State.memOk State.memOk (widthM s i h d a) := by
  unfold widthM
  refine (memOk_issue hs).bind fun z1 h2 => ?_
  refine (memOk_writeInt hs h2).bind fun z3 h4 => ?_
  exact memOk_done h4
theorem State.memOk_resizeM {s : State} {i : Instr} {h : Hdr} {n : NameRef} {m : ResizeMode} {width : BitVec 10} (hs : s.memOk) :
    Ends State.memOk State.memOk (resizeM s i h n m width) := by
  unfold resizeM
  refine (memOk_issue hs).bind fun z1 h2 => ?_
  dsimp only
  split
  · exact memOk_trapM hs
  · refine Ends.ite (fun _ => memOk_trapM hs) fun _ => ?_
    refine Ends.ite (fun _ => memOk_holdM hs) fun _ => ?_
    split
    · exact memOk_done h2
    · refine Ends.ite (fun _ => memOk_trapM hs) fun _ => ?_
      split
      · exact memOk_setMyCore (memOk_done h2)
      · exact memOk_setMyCore (memOk_done h2)
theorem State.memOk_sendReply {s : State} {r : CoreRef} {p : Reply} (hs : s.memOk) : (s.sendReply r p).memOk := by
  unfold State.sendReply
  cases he : s.deliver r p with
  | none => exact memOk_setCore hs
  | some z => exact memOk_deliver hs he
theorem State.memOk_landFork {s : State} {t : ThreadRef} {f : ForkCopy} (hs : s.memOk) :
    (s.landFork t f).memOk := memOk_redirect (memOk_sendReply (memOk_setThread hs))
theorem State.memOk_landHeld {s : State} {r : CoreRef} {l : List Reply} (hs : s.memOk) : (s.landHeld r l).memOk := by
  induction l generalizing s with
  | nil => exact hs
  | cons p l ih => exact ih (memOk_sendReply hs)
theorem State.memOk_landForks {s : State} {r : CoreRef} {q : Nat} {l : List (Fin 8)} (hs : s.memOk) :
    (l.foldl (fun (z : State) h => match (z.thread ⟨r.tile, r.core, h⟩).forkIn with
      | some f => if f.seq = q then z.landFork ⟨r.tile, r.core, h⟩ f else z
      | none => z) s).memOk := by
  refine State.memOk_foldl _ (fun z h hz => ?_) _ hs
  split
  · split
    · exact memOk_landFork hz
    · exact hz
  · exact hz
theorem State.memOk_execRepackUnfreeze {r : CoreRef} {s : State} (hs : s.memOk) :
    Nexts State.memOk (execRepackUnfreeze r s) := by
  unfold execRepackUnfreeze
  dsimp only
  split
  · exact trivial
  next p _ =>
    have forks (c : Core) (k : Kernel) : State.memOk (match p.op with
        | .fork q => k.hthreads.foldl (fun (z : State) h => match (z.thread ⟨r.tile, r.core, h⟩).forkIn with
            | some f => if f.seq = q then z.landFork ⟨r.tile, r.core, h⟩ f else z
            | none => z) (s.setCore r c)
        | _ => s.setCore r c) := by
      split
      · exact memOk_landForks hs
      · exact hs
    have unfrozen (z : State) (hz : z.memOk) : Nexts State.memOk (match p.op with
        | .abandon t => .next (z.takeTrap ⟨r.tile, r.core, p.h⟩ .width p.pc (n64 t))
        | _ => .next z) := by
      split
      · exact memOk_takeTrap hz
      · exact hz
    refine Nexts.ite (fun _ => trivial) fun _ => Nexts.ite (fun _ => memOk_takeTrap (memOk_landHeld (forks _ _))) fun _ => ?_
    exact unfrozen _ (memOk_landHeld (forks _ _))
theorem State.memOk_execForkRemoteCopy {t : ThreadRef} {s : State} (hs : s.memOk) :
    Nexts State.memOk (execForkRemoteCopy t s) := by
  unfold execForkRemoteCopy
  dsimp only
  split
  · refine Nexts.ite (fun _ => ?_) fun _ => trivial
    exact memOk_setCore hs
  · exact trivial
theorem State.memOk_setCmx {s : State} {tile : Nat} {f : Word64 → Word64} (hs : s.memOk) :
    (s.setCmx tile f).memOk := memOk_setCore hs
theorem State.memOk_modMx {s : State} {tile : Nat} {f : MxArray → MxArray} (hs : s.memOk) :
    (s.modMx tile f).memOk := memOk_setTile hs
theorem State.memOk_dropReplies {s : State} {t : ThreadRef} (hs : s.memOk) :
    (s.dropReplies t).memOk := memOk_setCore hs
theorem State.memOk_takenBack {s : State} {t : ThreadRef} (hs : s.memOk) :
    (s.takenBack t).memOk := by
  unfold State.takenBack
  refine State.memOk_foldl _ ?_ _ (State.memOk_foldl _ ?_ _ hs)
  · intro z1 a2 h3
    unfold undo1
    split
    · exact memOk_ite (memOk_with (memOk_undoWrite h3)) h3
    · exact h3
    · exact memOk_modMx h3
    · exact memOk_modMx h3
  · intro z14 a15 h16
    refine memOk_ite (memOk_setCmx (State.memOk_foldl _ ?_ _ h16)) (State.memOk_foldl _ ?_ _ h16)
    · intro z17 a18 h19
      unfold undo1
      split
      · exact memOk_ite (memOk_with (memOk_undoWrite h19)) h19
      · exact h19
      · exact memOk_modMx h19
      · exact memOk_modMx h19
    · intro z30 a31 h32
      unfold undo1
      split
      · exact memOk_ite (memOk_with (memOk_undoWrite h32)) h32
      · exact h32
      · exact memOk_modMx h32
      · exact memOk_modMx h32
theorem State.memOk_endWait {s0 : State} {t : ThreadRef} (hs0 : s0.memOk) : (s0.endWait t).memOk := by
  refine memOk_setThread (memOk_dropReplies (memOk_giveBack ?_))
  exact memOk_takenBack hs0
theorem State.memOk_putGroup {s : State} {g : Nat} {o : Group} (hs : s.memOk) :
    (s.putGroup g o).memOk := memOk_modGang hs
theorem State.memOk_freeGroup {s : State} {g gid : Nat} (hs : s.memOk) :
    (s.freeGroup g gid).memOk := memOk_modGang hs
theorem State.memOk_cancelMember {s : State} {gid : Nat} {t : ThreadRef} (hs : s.memOk) :
    (s.cancelMember gid t).memOk := by
  unfold State.cancelMember
  refine memOk_ite (memOk_setThread hs) ?_
  split
  · split
    · exact memOk_count (memOk_endWait (memOk_setThread hs))
    · exact memOk_takeTrap (memOk_endWait (memOk_setThread hs))
  · exact memOk_asyncTrap (memOk_setThread hs)
theorem State.memOk_combine {s : State} {g : Nat} {o : Group} {tmo : Bool} {spare : Option ThreadRef} (hs : s.memOk) :
    (s.combine g o tmo spare).memOk := memOk_putGroup (State.memOk_foldl _ (fun _ _ hz => (memOk_ite (memOk_ite (memOk_setThread hz)
        (memOk_cancelMember hz)) (memOk_setThread hz))) _ hs)
theorem State.memOk_combineIfAll {s : State} {g : Nat} {o : Group} (hs : s.memOk) :
    (s.combineIfAll g o).memOk := memOk_ite (memOk_combine hs) (memOk_putGroup hs)
theorem State.memOk_haltGroups {s : State} {t : ThreadRef} (hs : s.memOk) :
    (s.haltGroups t).memOk := by
  unfold State.haltGroups
  refine memOk_modGang (memOk_ite ?_ (memOk_setThread hs))
  split
  · exact memOk_ite (memOk_combineIfAll (memOk_setThread hs)) (memOk_setThread hs)
  · exact memOk_setThread hs
theorem State.memOk_execGroupTimeout {gang g : Nat} {s : State} (hs : s.memOk) :
    Nexts State.memOk (execGroupTimeout gang g s) := by
  unfold execGroupTimeout
  split
  · split
    · refine Nexts.ite (fun _ => ?_) fun _ => trivial
      exact memOk_combine hs
    · exact trivial
  · exact trivial
theorem State.memOk_groupTrap {α : Type} {s0 : State} {r : Nat} {g : Int} {P : α → Prop} (hs0 : s0.memOk) :
    Ends State.memOk P (groupTrap s0 r g) := memOk_trapM hs0
theorem State.memOk_grpStart {s : State} {i : Instr} {h : Hdr} {a : NameRef} {dsts : List NameRef} {pre : Option (Cause × Word64)} {gr :
    Bool} (hs : s.memOk) :
    Ends State.memOk (fun p => p.2.memOk) (grpStart s i h a dsts pre gr) := by
  unfold grpStart
  refine (memOk_issue hs).bind fun z1 h2 => ?_
  refine (memOk_read hs h2).bind fun p3 h4 => ?_
  refine Ends.ite (fun _ => memOk_groupTrap hs) fun _ => ?_
  refine Ends.ite (fun _ => memOk_groupTrap hs) fun _ => ?_
  exact h4
theorem State.memOk_openM {s : State} {h : Hdr} {a : NameRef} (hs : s.memOk) :
    Ends State.memOk State.memOk (openM s h a) := by
  unfold openM
  refine (memOk_grpStart hs).bind fun p1 h2 => ?_
  refine Ends.ite (fun _ => memOk_groupTrap hs) fun _ => ?_
  exact memOk_done (memOk_putGroup h2)
theorem State.memOk_takeSibling {s : State} {gid i : Nat} {f : ForkCopy} {t : ThreadRef} (hs : s.memOk) :
    (s.takeSibling gid i f t).memOk := memOk_ite (memOk_count (memOk_setThread hs)) (memOk_setThread hs)
theorem State.memOk_writeIndex {s0 : State} {i : Instr} {d : NameRef} {v : ReplyVal} {s : State} (hs0 : s0.memOk) (hs : s.memOk) :
    Ends State.memOk State.memOk (s0.writeIndex i d v s) := by
  unfold State.writeIndex
  split
  · exact memOk_writeInt hs0 hs
  · exact memOk_writeInt hs0 hs
  · exact memOk_putName hs
  · exact hs
theorem State.memOk_forkM {s : State} {h : Hdr} {d a : NameRef} (hs : s.memOk) :
    Ends State.memOk State.memOk (forkM s h d a) := by
  unfold forkM
  refine (memOk_grpStart hs).bind fun p1 h2 => ?_
  split
  dsimp only
  split
  · exact memOk_groupTrap hs
  · refine Ends.ite (fun _ => memOk_groupTrap hs) fun _ => ?_
    refine Ends.ite (fun _ => memOk_trapM hs) fun _ => ?_
    refine Ends.ite (fun _ => memOk_holdM hs) fun _ => ?_
    refine Ends.ite (fun _ => memOk_holdM hs) fun _ => ?_
    refine Ends.ite (fun _ => memOk_groupTrap hs) fun _ => ?_
    refine Ends.ite (fun _ => memOk_trapM hs) fun _ => ?_
    refine (memOk_draws hs h2).bind fun p11 h12 => ?_
    refine (memOk_writeIndex hs h12).bind fun z13 h14 => ?_
    exact memOk_setMyCore (memOk_doneLat (memOk_putGroup (State.memOk_foldl _ (fun _ _ hz => (memOk_takeSibling hz)) _ (memOk_setMe h14))))
theorem State.memOk_grpWaitM {s : State} {i : Instr} {h : Hdr} {d a : NameRef} {ff : Bool} (hs : s.memOk) :
    Ends State.memOk State.memOk (grpWaitM s i h d a ff) := by
  unfold grpWaitM
  refine (memOk_grpStart hs).bind fun p1 h2 => ?_
  split
  dsimp only
  split
  · exact memOk_hold (memOk_setMe hs)
  · refine Ends.ite (fun _ => memOk_groupTrap hs) fun _ => ?_
    refine Ends.ite (fun _ => memOk_holdM hs) fun _ => ?_
    refine Ends.bind (P := State.memOk) ?_ fun z8 h9 => ?_
    · refine Ends.ite (fun _ => memOk_writeInt hs h2) fun _ => ?_
      exact memOk_writeReal hs h2
    · exact memOk_done (memOk_setMe h9)
theorem State.memOk_cancelM {s : State} {h : Hdr} {a : NameRef} (hs : s.memOk) :
    Ends State.memOk State.memOk (cancelM s h a) := by
  unfold cancelM
  refine (memOk_grpStart hs).bind fun p1 h2 => ?_
  split
  dsimp only
  split
  · exact memOk_groupTrap hs
  · refine Ends.ite (fun _ => memOk_groupTrap hs) fun _ => ?_
    split
    · exact memOk_done (memOk_freeGroup h2)
    · exact memOk_done (memOk_setMe (memOk_ite h2 (memOk_ite (memOk_combine h2) (memOk_combine h2))))
theorem State.memOk_rewardM {s : State} {h : Hdr} {a : NameRef} (hs : s.memOk) :
    Ends State.memOk State.memOk (rewardM s h a) := by
  unfold rewardM
  refine (memOk_grpStart hs).bind fun p1 h2 => ?_
  split
  dsimp only
  split
  · exact memOk_groupTrap hs
  · refine Ends.ite (fun _ => memOk_groupTrap hs) fun _ => ?_
    refine Ends.ite (fun _ => memOk_groupTrap hs) fun _ => ?_
    exact memOk_done (memOk_combineIfAll (memOk_setMe h2))
theorem State.memOk_statM {s : State} {h : Hdr} {d a : NameRef} (hs : s.memOk) :
    Ends State.memOk State.memOk (statM s h d a) := by
  unfold statM
  refine (memOk_grpStart hs).bind fun p1 h2 => ?_
  refine (memOk_writeOne hs h2).bind fun z3 h4 => ?_
  exact memOk_done h4
theorem State.memOk_closeM {s : State} {h : Hdr} {a : NameRef} (hs : s.memOk) :
    Ends State.memOk State.memOk (closeM s h a) := by
  unfold closeM
  refine (memOk_grpStart hs).bind fun p1 h2 => ?_
  split
  dsimp only
  split
  · exact memOk_groupTrap hs
  · refine Ends.ite (fun _ => memOk_groupTrap hs) fun _ => ?_
    split
    · exact memOk_done (memOk_freeGroup h2)
    · exact memOk_holdM hs
theorem State.memOk_setReg {s : State} {k : Nat} {v : Word64} (hs : s.memOk) :
    (s.setReg k v).memOk := by
  unfold State.setReg
  dsimp only
  split
  · exact memOk_setMe hs
  · exact memOk_setMe hs
  · exact memOk_setMe hs
  · exact memOk_setMe hs
  · exact memOk_setMe hs
  · exact memOk_setMe hs
  · exact memOk_setMe hs
  · exact memOk_setMe hs
  · exact memOk_setMe hs
  · exact memOk_setMe hs
  · exact memOk_ite (memOk_setMe hs) hs
  · exact memOk_setMe hs
  · exact memOk_ite (memOk_setMyCore hs) hs
  · exact memOk_setMyCore hs
  · exact memOk_setMyCore hs
  · exact memOk_ite (memOk_setMyCore hs) hs
  · exact memOk_modGang hs
  · exact hs
theorem State.memOk_nopM {s : State} {i : Instr} {h : Hdr} (hs : s.memOk) :
    Ends State.memOk State.memOk (nopM s i h) := by
  unfold nopM
  refine (memOk_issue hs).bind fun z1 h2 => ?_
  exact memOk_done h2
theorem State.memOk_ifenceM {s : State} {h : Hdr} (hs : s.memOk) :
    Ends State.memOk State.memOk (ifenceM s h) := by
  unfold ifenceM
  refine (memOk_issue hs).bind fun z1 h2 => ?_
  exact memOk_goTo h2
theorem State.memOk_tretM {s : State} {h : Hdr} (hs : s.memOk) :
    Ends State.memOk State.memOk (tretM s h) := by
  unfold tretM
  refine (memOk_issue hs).bind fun z1 h2 => ?_
  exact memOk_transfer hs h2
theorem State.memOk_svcM {s : State} {h : Hdr} {n : BitVec 18} (hs : s.memOk) :
    Ends State.memOk State.memOk (svcM s h n) := by
  unfold svcM
  refine (memOk_issue hs).bind fun z1 h2 => ?_
  exact memOk_trapM hs
theorem State.memOk_produceM {s : State} {i : Instr} {h : Hdr} {d : NameRef} {ok : Bool} {v : State → Nat} (hs : s.memOk) :
    Ends State.memOk State.memOk (produceM s i h d ok v) := by
  unfold produceM
  refine (memOk_issue hs).bind fun z1 h2 => ?_
  refine (memOk_writeOne hs h2).bind fun z3 h4 => ?_
  exact memOk_done h4
theorem State.memOk_setcM {s : State} {h : Hdr} {k : BitVec 12} {d : NameRef} (hs : s.memOk) :
    Ends State.memOk State.memOk (setcM s h k d) := by
  unfold setcM
  refine (memOk_issue hs).bind fun z1 h2 => ?_
  refine (memOk_read hs h2).bind fun p3 h4 => ?_
  exact memOk_done (memOk_setReg h4)
theorem State.memOk_clrevtM {s : State} {h : Hdr} {k : BitVec 12} (hs : s.memOk) :
    Ends State.memOk State.memOk (clrevtM s h k) := by
  unfold clrevtM
  refine (memOk_issue hs).bind fun z1 h2 => ?_
  exact memOk_done (memOk_setMyCore h2)
theorem State.memOk_execFetchEndAccess {t : ThreadRef} {s : State} (hs : s.memOk) :
    Nexts State.memOk (execFetchEndAccess t s) := by
  unfold execFetchEndAccess
  refine Nexts.ite (fun _ => ?_) fun _ => trivial
  exact memOk_takeTrap hs
theorem State.memOk_execAsyncTrapEntry {t : ThreadRef} {s : State} (hs : s.memOk) :
    Nexts State.memOk (execAsyncTrapEntry t s) := by
  unfold execAsyncTrapEntry
  dsimp only
  split
  · refine Nexts.ite (fun _ => ?_) fun _ => trivial
    exact memOk_ite (memOk_count (memOk_setThread (memOk_takeCode (memOk_setThread hs)))) (memOk_takeCode (memOk_setThread hs))
  · exact trivial
theorem State.memOk_execLongOpComplete {t : ThreadRef} {s : State} (hs : s.memOk) :
    Nexts State.memOk (execLongOpComplete t s) := by
  unfold execLongOpComplete
  dsimp only
  split
  · split
    · refine Nexts.ite (fun _ => ?_) fun _ => trivial
      exact memOk_setThread hs
    · refine Nexts.ite (fun _ => ?_) fun _ => trivial
      exact memOk_setThread hs
    · exact trivial
  · exact trivial
theorem State.memOk_execWaitlimExpire {t : ThreadRef} {s : State} (hs : s.memOk) :
    Nexts State.memOk (execWaitlimExpire t s) := by
  unfold execWaitlimExpire
  dsimp only
  split
  · split
    · refine Nexts.ite (fun _ => ?_) fun _ => trivial
      exact memOk_takeTrap (memOk_ite (memOk_setThread (memOk_endWait hs)) (memOk_endWait hs))
    · exact trivial
  · exact trivial
theorem State.memOk_portLeave {s : State} {r : CoreRef} {d : Dir} (hs : s.memOk) :
    (s.portLeave r d).memOk := by
  unfold State.portLeave
  split
  · exact hs
  · exact memOk_ite hs (memOk_setCore hs)
theorem State.memOk_execMeshWordArrive {k : CoreRef} {dir : Dir} {s : State} (hs : s.memOk) :
    Nexts State.memOk (execMeshWordArrive k dir s) := by
  unfold execMeshWordArrive
  split
  · exact trivial
  · dsimp only
    split
    · exact trivial
    · refine Nexts.ite (fun _ => trivial) fun _ => ?_
      refine Nexts.ite (fun _ => trivial) fun _ => ?_
      exact memOk_setCore (memOk_setCore hs)

end Sys2Proof.Machine
end

section
/-! Memory keeps its canonical form: tasks, lanes, conversions, sampling and vector groups. One lemma for each meaning, along its definition. -/
namespace Sys2Proof.Machine

theorem State.memOk_takeSpill {s : State} {r : CoreRef} {p : Nat} {head : BitVec 6} (hs : s.memOk) :
    (s.takeSpill r p head).2.memOk := by
  unfold State.takeSpill
  dsimp only
  split
  · dsimp only
    exact memOk_ite (memOk_found (memOk_setCore hs)) (memOk_count (memOk_found (memOk_setCore hs)))
  · dsimp only
    exact memOk_found (memOk_setCore hs)
theorem State.memOk_takeYoung {s : State} {r : CoreRef} (hs : s.memOk) :
    (s.takeYoung r).2.memOk := by
  unfold State.takeYoung
  dsimp only
  split
  · dsimp only
    exact memOk_setCore hs
  · split
    · exact hs
    · exact memOk_takeSpill hs
theorem State.memOk_takeOld {s : State} {r : CoreRef} (hs : s.memOk) :
    (s.takeOld r).2.memOk := by
  unfold State.takeOld
  dsimp only
  split
  · exact memOk_takeSpill hs
  · split
    · dsimp only
      exact memOk_setCore hs
    · exact hs
theorem State.memOk_giveRecord {s : State} {t : ThreadRef} {d : NameRef} {pc : Nat} {k : Task} (hs : s.memOk) :
    (s.giveRecord t d pc k).memOk := by
  unfold State.giveRecord
  refine memOk_redirect (memOk_setThread ?_)
  split
  · exact memOk_landInt hs
  · exact hs
theorem State.memOk_goOn {s : State} {t : ThreadRef} {pc len : Nat} (hs : s.memOk) :
    (s.goOn t pc len).memOk := memOk_setThread hs
theorem State.memOk_spawnM {s : State} {h : Hdr} {a b : NameRef} (hs : s.memOk) :
    Ends State.memOk State.memOk (spawnM s h a b) := by
  unfold spawnM
  refine (memOk_issue hs).bind fun z1 h2 => ?_
  refine (memOk_read hs h2).bind fun p3 h4 => ?_
  refine (memOk_read hs h4).bind fun p5 h6 => ?_
  split
  split
  · exact memOk_trapM hs
  · refine Ends.ite (fun _ => memOk_holdM hs) fun _ => ?_
    refine Ends.ite (fun _ => memOk_trapM hs) fun _ => ?_
    dsimp only
    split
    · exact memOk_done (memOk_setMyCore h6)
    · refine Ends.ite (fun _ => memOk_trapM hs) fun _ => ?_
      exact memOk_done (memOk_setMyCore (memOk_putLocalWord (memOk_putLocalWord h6 _ _ _) _ _ _))
theorem State.memOk_popM {s : State} {h : Hdr} {d : NameRef} (hs : s.memOk) : Ends State.memOk State.memOk (popM s h d) := by
  unfold popM
  refine (memOk_issue hs).bind fun z h1 => ?_
  have h2 : (z.takeYoung z.cur.coreRef).2.memOk := memOk_takeYoung h1
  refine .ite (fun _ => memOk_done h1) fun _ => .ite (fun _ => memOk_holdM hs) fun _ => ?_
  split <;> rename_i he <;> rw [he] at h2
  · exact memOk_done h2
  · exact memOk_giveRecord h2
  · exact memOk_takeTrap h2
theorem State.memOk_sendSteal {s z : State} {t : ThreadRef} {l : List Dir} {w : WaitRec} (hs : s.memOk)
    (hz : s.sendSteal t l w = some z) : z.memOk := by
  unfold State.sendSteal at hz
  split at hz
  · cases hz
  · dsimp only at hz
    split at hz <;> cases hz
    exact hs
theorem State.memOk_stealM {s : State} {h : Hdr} {d : NameRef} (hs : s.memOk) : Ends State.memOk State.memOk (stealM s h d) := by
  unfold stealM
  refine (memOk_issue hs).bind fun z h1 => ?_
  dsimp only
  split
  · next he => exact memOk_sendSteal (memOk_setMe h1) he
  · exact memOk_done h1
theorem State.memOk_parkM {s : State} {h : Hdr} {d : NameRef} (hs : s.memOk) :
    Ends State.memOk State.memOk (parkM s h d) := by
  unfold parkM
  refine (memOk_issue hs).bind fun z1 h2 => ?_
  exact memOk_setMe h2
theorem State.memOk_execStealRequest {k : CoreRef} {s : State} (hs : s.memOk) :
    Nexts State.memOk (execStealRequest k s) := by
  unfold execStealRequest
  dsimp only
  split
  · exact trivial
  · refine Nexts.ite (fun _ => trivial) fun _ => ?_
    change State.memOk _
    refine memOk_setCore ?_
    split
    · refine memOk_setCore ?_
      split
      · exact memOk_takeOld (memOk_setCore hs)
      · dsimp only
        exact memOk_setCore hs
    · split
      · exact memOk_takeOld (memOk_setCore hs)
      · dsimp only
        exact memOk_setCore hs
theorem State.memOk_keepRecord {s : State} {t : ThreadRef} {m : StealMsg} (hs : s.memOk) :
    Nexts State.memOk (s.keepRecord t m) := by
  unfold State.keepRecord
  dsimp only
  split
  · exact memOk_setCore hs
  · refine Nexts.ite (fun _ => ?_) fun _ => trivial
    exact memOk_setCore hs
theorem State.memOk_execStealReply {t : ThreadRef} {s : State} (hs : s.memOk) : Nexts State.memOk (execStealReply t s) := by
  unfold execStealReply
  dsimp only
  split
  · exact trivial
  next m _ =>
    refine Nexts.ite (fun _ => trivial) fun _ => ?_
    cases (s.thread t).wait with
    | none => exact memOk_keepRecord hs
    | some w =>
      have h1 (c : Core) : (s.setCore t.coreRef c).memOk := memOk_setCore hs
      dsimp only
      split
      · exact memOk_giveRecord (h1 _)
      · split
        · next he => exact memOk_sendSteal (h1 _) (Option.ite_none_left_eq_some.1 he).2
        · refine Nexts.ite (fun _ => memOk_setThread (h1 _)) fun _ => memOk_goOn (h1 _)
      · exact memOk_keepRecord hs
theorem State.memOk_execParkStealRetry {t : ThreadRef} {s : State} (hs : s.memOk) : Nexts State.memOk (execParkStealRetry t s) := by
  unfold execParkStealRetry
  dsimp only
  cases (s.thread t).wait with
  | none => exact trivial
  | some w =>
    have h1 : (s.takeYoung t.coreRef).2.memOk := memOk_takeYoung hs
    refine Nexts.ite (fun _ => trivial) fun _ => Nexts.ite (fun _ => ?_) fun _ => Nexts.ite (fun _ => ?_) fun _ => trivial
    · split
      · next he _ => rw [he] at h1; exact memOk_giveRecord h1
      · next he _ => rw [he] at h1; exact memOk_takeTrap h1
      · exact trivial
    · split
      · next he => exact memOk_sendSteal hs he
      · exact trivial
theorem State.memOk_modTour {s : State} {g pos : Nat} {f : Tour → Tour} (hs : s.memOk) :
    (s.modTour g pos f).memOk := memOk_modGang hs
theorem State.memOk_tourM {s : State} {h : Hdr} (hs : s.memOk) :
    Ends State.memOk State.memOk (tourM s h) := by
  unfold tourM
  refine (memOk_issue hs).bind fun z1 h2 => ?_
  change State.memOk _
  refine memOk_done ?_
  split
  · exact memOk_modTour h2
  · exact memOk_modGang h2
theorem State.memOk_taskDoneM {s : State} {h : Hdr} {d : NameRef} (hs : s.memOk) :
    Ends State.memOk State.memOk (taskDoneM s h d) := by
  unfold taskDoneM
  refine (memOk_issue hs).bind fun z1 h2 => ?_
  refine (memOk_writeInt hs h2).bind fun z3 h4 => ?_
  exact memOk_done h4
theorem State.memOk_execTourRoundStart {k : CoreRef} {s : State} (hs : s.memOk) :
    Nexts State.memOk (execTourRoundStart k s) := by
  unfold execTourRoundStart
  split
  · exact memOk_modTour (memOk_setCore hs)
  · exact trivial
theorem State.memOk_execTourToken {k : CoreRef} {s : State} (hs : s.memOk) :
    Nexts State.memOk (execTourToken k s) := by
  unfold execTourToken
  split
  · dsimp only
    split
    · split
      · exact memOk_modTour hs
      · exact memOk_modTour hs
    · exact memOk_modTour (memOk_setCore hs)
  · exact trivial
theorem State.memOk_execTourFinish {k : CoreRef} {s : State} (hs : s.memOk) :
    Nexts State.memOk (execTourFinish k s) := by
  unfold execTourFinish
  split
  · change State.memOk _
    refine memOk_modTour (State.memOk_foldl _ ?_ _ hs)
    intro z8 a9 h10
    dsimp only
    split
    · split
      · exact memOk_ite (memOk_goOn h10) h10
      · exact h10
    · exact h10
  · exact trivial
theorem State.memOk_takeSums {s : State} {tile : Nat} {lv : BarLevel} (hs : s.memOk) :
    (s.takeSums tile lv).memOk := by
  unfold State.takeSums
  split
  · exact hs
  · split
    · exact memOk_ite hs (memOk_setTile hs)
    · split
      · exact memOk_modGang hs
      · exact hs
theorem State.memOk_arrive {s : State} {lv : BarLevel} {q : BitVec 32} (hs : s.memOk) :
    (s.arrive lv q).memOk := memOk_takeSums (memOk_setMe hs)
theorem State.memOk_waitPhase {s0 : State} {i : Instr} {h : Hdr} {lv : BarLevel} {q : BitVec 32} {s : State} (hs : s.memOk) :
    Ends State.memOk State.memOk (s0.waitPhase i h lv q s) := by
  unfold State.waitPhase
  split
  · exact memOk_done hs
  · exact memOk_setMe (memOk_hold hs)
theorem State.memOk_arriveM {s : State} {i : Instr} {h : Hdr} {d : NameRef} {lv : BarLevel} {sync : Bool} (hs : s.memOk) :
    Ends State.memOk State.memOk (arriveM s i h d lv sync) := by
  unfold arriveM
  split
  · exact memOk_waitPhase hs
  · refine (memOk_issue hs).bind fun z6 h7 => ?_
    refine Ends.ite (fun _ => memOk_holdM hs) fun _ => ?_
    refine (memOk_writeKeep hs h7).bind fun z8 h9 => ?_
    refine Ends.ite (fun _ => memOk_waitPhase (memOk_arrive h9)) fun _ => ?_
    exact memOk_done (memOk_arrive h9)
theorem State.memOk_barWaitM {s : State} {h : Hdr} {a : NameRef} {lv : BarLevel} (hs : s.memOk) :
    Ends State.memOk State.memOk (barWaitM s h a lv) := by
  unfold barWaitM
  refine (memOk_issue hs).bind fun z1 h2 => ?_
  refine (memOk_read hs h2).bind fun p3 h4 => ?_
  split
  dsimp only
  split
  · exact memOk_done h4
  · exact memOk_holdM hs
theorem State.memOk_barDoneM {s : State} {h : Hdr} {a : NameRef} (hs : s.memOk) :
    Ends State.memOk State.memOk (barDoneM s h a) := by
  unfold barDoneM
  refine (memOk_issue hs).bind fun z1 h2 => ?_
  refine (memOk_read hs h2).bind fun p3 h4 => ?_
  exact memOk_done (memOk_setMe h4)
theorem State.memOk_askSums {s : State} {lv : BarLevel} {a : Nat} (hs : s.memOk) :
    (s.askSums lv a).memOk := by
  unfold State.askSums
  split
  · exact memOk_setMyTile hs
  · split
    · exact memOk_modGang hs
    · exact hs
theorem State.memOk_barStatM {s : State} {h : Hdr} {a : NameRef} {lv : BarLevel} (hs : s.memOk) :
    Ends State.memOk State.memOk (barStatM s h a lv) := by
  unfold barStatM
  dsimp only
  split
  · exact memOk_waitPhase hs
  · refine (memOk_issue hs).bind fun z6 h7 => ?_
    refine (memOk_read hs h7).bind fun p8 h9 => ?_
    refine Ends.guard (memOk_trapM hs) fun _ => ?_
    refine Ends.ite (fun _ => memOk_holdM hs) fun _ => ?_
    exact memOk_waitPhase (memOk_arrive (memOk_askSums h9))
theorem State.memOk_putSums {s : State} {tile a : Nat} {l : List Nat} (hs : s.memOk) : (s.putSums tile a l).memOk := by
  induction l generalizing s a with
  | nil => exact hs
  | cons v l ih => exact ih (memOk_putLocalWord hs _ _ _)
theorem State.memOk_execBarrierComplete {tile : Nat} {lv : BarLevel} {s : State} (hs : s.memOk) :
    Nexts State.memOk (execBarrierComplete tile lv s) := by
  unfold execBarrierComplete
  split
  · exact trivial
  · refine Nexts.ite (fun _ => trivial) fun _ => ?_
    split
    · exact memOk_setTile (State.memOk_foldl _ (fun _ _ hz => memOk_putSums hz) _ hs)
    · split
      · exact memOk_modGang (State.memOk_foldl _ (fun _ _ hz => memOk_putSums hz) _ hs)
      · exact trivial
    · exact trivial
theorem State.memOk_sendWords {s : State} {tile : Nat} (hs : s.memOk) : (s.sendWords tile).memOk := by
  unfold State.sendWords
  split
  · exact hs
  next g _ =>
    split
    · exact hs
    · refine State.memOk_foldl _ (fun z j hz => ?_) _ hs
      split
      · exact hz
      · dsimp only
        split
        · exact hz
        · exact hz
theorem State.memOk_haltM {s : State} {h : Hdr} (hs : s.memOk) :
    Ends State.memOk State.memOk (haltM s h) := by
  unfold haltM
  refine (memOk_issue hs).bind fun z1 h2 => ?_
  exact memOk_sendWords (memOk_takeSums (memOk_takeSums (memOk_haltGroups (memOk_setMyCore (memOk_setMe (memOk_done h2))))))
theorem State.memOk_readAll {s0 s : State} {i : Instr} {h : Hdr} {l : List NameRef} (hs0 : s0.memOk) (hs : s.memOk) :
    Ends State.memOk (fun p => p.2.memOk) (s0.readAll i h l s) := by
  induction l generalizing s with
  | nil => exact hs
  | cons n l ih =>
    refine (memOk_read hs0 hs).bind fun p hp => ?_
    exact (ih hp).bind fun q hq => hq
theorem State.memOk_vecM {s : State} {i : Instr} {h : Hdr} {d : NameRef} {fs : List NameRef} {lw : LaneW} {f : (Nat → Int) → Int} (hs :
    s.memOk) :
    Ends State.memOk State.memOk (vecM s i h d fs lw f) := by
  unfold vecM
  refine (memOk_issue hs).bind fun z1 h2 => ?_
  refine (memOk_readAll hs h2).bind fun p3 h4 => ?_
  refine (memOk_writeLanes hs h4).bind fun z5 h6 => ?_
  exact memOk_done h6
theorem State.memOk_vecfM {s : State} {i : Instr} {h : Hdr} {d : NameRef} {fs : List NameRef} {lf : LaneF} {rnd : Rnd} {lat : Nat} {f :
    RMode → (Nat → FVal) → XVal} (hs : s.memOk) :
    Ends State.memOk State.memOk (vecfM s i h d fs lf rnd lat f) := by
  unfold vecfM
  refine (memOk_issue hs).bind fun z1 h2 => ?_
  refine (memOk_readAll hs h2).bind fun p3 h4 => ?_
  refine (memOk_runFor hs h4).bind fun z5 h6 => ?_
  refine (memOk_afterRun (memOk_writeFlanes hs h6)).bind fun z7 h8 => ?_
  exact memOk_done h8
theorem State.memOk_vredIntM {s : State} {i : Instr} {h : Hdr} {d a : NameRef} {lw : LaneW} {rnd : Rnd} {f : List Int → Int} (hs :
    s.memOk) :
    Ends State.memOk State.memOk (vredIntM s i h d a lw rnd f) := by
  unfold vredIntM
  refine (memOk_issue hs).bind fun z1 h2 => ?_
  refine (memOk_read hs h2).bind fun p3 h4 => ?_
  refine (memOk_writeRnd hs h4).bind fun z5 h6 => ?_
  exact memOk_done h6
theorem State.memOk_vredFltM {s : State} {i : Instr} {h : Hdr} {d a : NameRef} {lf : LaneF} {rnd : Rnd} {f : RMode → List FVal → FVal} (hs
    : s.memOk) :
    Ends State.memOk State.memOk (vredFltM s i h d a lf rnd f) := by
  unfold vredFltM
  refine (memOk_issue hs).bind fun z1 h2 => ?_
  refine (memOk_read hs h2).bind fun p3 h4 => ?_
  refine (memOk_writeFlanes hs h4).bind fun z5 h6 => ?_
  exact memOk_done h6
theorem State.memOk_vredM {s : State} {i : Instr} {h : Hdr} {d a : NameRef} {lw : LaneW} {lf : LaneF} {fl : Bool} {rnd : Rnd} {f : List
    Int → Int} {g : RMode → List FVal → FVal} (hs : s.memOk) :
    Ends State.memOk State.memOk (vredM s i h d a lw lf fl rnd f g) := by
  unfold vredM
  refine Ends.ite (fun _ => memOk_vredFltM hs) fun _ => ?_
  exact memOk_vredIntM hs
theorem State.memOk_argmaxFM {s : State} {i : Instr} {h : Hdr} {d a : NameRef} {lf : LaneF} {rnd : Rnd} (hs : s.memOk) :
    Ends State.memOk State.memOk (argmaxFM s i h d a lf rnd) := by
  unfold argmaxFM
  refine (memOk_issue hs).bind fun z1 h2 => ?_
  refine (memOk_read hs h2).bind fun p3 h4 => ?_
  refine (memOk_writeRnd hs h4).bind fun z5 h6 => ?_
  exact memOk_done h6
theorem State.memOk_execVredArgmax {h : Hdr} {d a : NameRef} {lw : LaneW} {lf : LaneF} {fl : Bool} {rnd : Rnd} {s : State} (hs : s.memOk) :
    Nexts State.memOk (execVredArgmax h d a lw lf fl rnd s) := by
  unfold execVredArgmax
  refine Ends.finish ?_
  refine Ends.ite (fun _ => memOk_argmaxFM hs) fun _ => ?_
  exact memOk_vredIntM hs
theorem State.memOk_scanM {s : State} {i : Instr} {h : Hdr} {d a : NameRef} {lw : LaneW} {lf : LaneF} {fl : Bool} {rnd : Rnd} (hs :
    s.memOk) :
    Ends State.memOk State.memOk (scanM s i h d a lw lf fl rnd) := by
  unfold scanM
  refine (memOk_issue hs).bind fun z1 h2 => ?_
  refine (memOk_read hs h2).bind fun p3 h4 => ?_
  refine (memOk_runFor hs h4).bind fun z5 h6 => ?_
  refine (memOk_afterRun ?_).bind fun z7 h8 => ?_
  · refine Ends.ite (fun _ => memOk_writeFlanes hs h6) fun _ => ?_
    exact memOk_writeLanes hs h6
  · exact memOk_done h8
theorem State.memOk_vmovM {s : State} {h : Hdr} {d a : NameRef} (hs : s.memOk) :
    Ends State.memOk State.memOk (vmovM s h d a) := by
  unfold vmovM
  refine (memOk_issue hs).bind fun z1 h2 => ?_
  refine (memOk_read hs h2).bind fun p3 h4 => ?_
  refine (memOk_putPat hs h4).bind fun z5 h6 => ?_
  exact memOk_done h6
theorem State.memOk_indexM {s : State} {i : Instr} {h : Hdr} {d a b : NameRef} {la lam : Nat} {ok nb : Bool} {ix : Src → Nat → Int} (hs :
    s.memOk) :
    Ends State.memOk State.memOk (indexM s i h d a b la lam ok nb ix) := by
  unfold indexM
  refine (memOk_issue hs).bind fun z1 h2 => ?_
  refine (memOk_read hs h2).bind fun p3 h4 => ?_
  refine (memOk_read hs h4).bind fun p5 h6 => ?_
  refine (memOk_writeLanes hs h6).bind fun z7 h8 => ?_
  exact memOk_done h8
theorem State.memOk_packM {s : State} {h : Hdr} {d a b : NameRef} {lw : LaneW} (hs : s.memOk) :
    Ends State.memOk State.memOk (packM s h d a b lw) := by
  unfold packM
  refine (memOk_issue hs).bind fun z1 h2 => ?_
  refine (memOk_read hs h2).bind fun p3 h4 => ?_
  refine (memOk_read hs h4).bind fun p5 h6 => ?_
  refine (memOk_writeLanes hs h6).bind fun z7 h8 => ?_
  exact memOk_done h8
theorem State.memOk_sendM {s : State} {h : Hdr} {d a : NameRef} (hs : s.memOk) :
    Ends State.memOk State.memOk (sendM s h d a) := by
  unfold sendM
  refine (memOk_issue hs).bind fun z1 h2 => ?_
  refine (memOk_read hs h2).bind fun p3 h4 => ?_
  refine (memOk_send hs h4).bind fun z5 h6 => ?_
  exact memOk_done h6
theorem State.memOk_recvM {s : State} {h : Hdr} {d a : NameRef} (hs : s.memOk) :
    Ends State.memOk State.memOk (recvM s h d a) := by
  unfold recvM
  refine (memOk_issue hs).bind fun z1 h2 => ?_
  refine Ends.guard (memOk_holdM hs) fun _ => ?_
  refine (memOk_putPat hs (memOk_setInbound h2)).bind fun z3 h4 => ?_
  exact memOk_done h4
theorem State.memOk_chkAccM {s : State} {h : Hdr} {d a : NameRef} {lw : LaneW} {ng : Bool} (hs : s.memOk) :
    Ends State.memOk State.memOk (chkAccM s h d a lw ng) := by
  unfold chkAccM
  refine (memOk_issue hs).bind fun z1 h2 => ?_
  refine (memOk_read hs h2).bind fun p3 h4 => ?_
  refine (memOk_read hs h4).bind fun p5 h6 => ?_
  refine (memOk_putPat hs h6).bind fun z7 h8 => ?_
  exact memOk_done h8
theorem State.memOk_chkTestM {s : State} {h : Hdr} {a b : NameRef} (hs : s.memOk) :
    Ends State.memOk State.memOk (chkTestM s h a b) := by
  unfold chkTestM
  refine (memOk_issue hs).bind fun z1 h2 => ?_
  refine (memOk_read hs h2).bind fun p3 h4 => ?_
  refine (memOk_read hs h4).bind fun p5 h6 => ?_
  refine Ends.ite (fun _ => memOk_trapM (memOk_count hs)) fun _ => ?_
  exact memOk_done h6
theorem State.memOk_chkClrM {s : State} {h : Hdr} {d : NameRef} (hs : s.memOk) :
    Ends State.memOk State.memOk (chkClrM s h d) := by
  unfold chkClrM
  refine (memOk_issue hs).bind fun z1 h2 => ?_
  refine (memOk_putPat hs h2).bind fun z3 h4 => ?_
  exact memOk_done h4
theorem State.memOk_quantM {s : State} {h : Hdr} {d a b c : NameRef} {sf : LaneF} {sup : Bool} {rnd : Rnd} (hs : s.memOk) :
    Ends State.memOk State.memOk (quantM s h d a b c sf sup rnd) := by
  unfold quantM
  refine (memOk_issue hs).bind fun z1 h2 => ?_
  refine (memOk_read hs h2).bind fun p3 h4 => ?_
  refine (memOk_read hs h4).bind fun p5 h6 => ?_
  refine (memOk_read hs h6).bind fun p7 h8 => ?_
  refine (memOk_drawsFor hs h8).bind fun p9 h10 => ?_
  refine (memOk_quantDone hs h10).bind fun z11 h12 => ?_
  refine (memOk_putPat hs h12).bind fun z13 h14 => ?_
  exact memOk_done h14
theorem State.memOk_dequantM {s : State} {h : Hdr} {d a c : NameRef} {lf : LaneF} {part : BitVec 2} {rnd : Rnd} (hs : s.memOk) :
    Ends State.memOk State.memOk (dequantM s h d a c lf part rnd) := by
  unfold dequantM
  refine (memOk_issue hs).bind fun z1 h2 => ?_
  refine (memOk_read hs h2).bind fun p3 h4 => ?_
  refine (memOk_read hs h4).bind fun p5 h6 => ?_
  refine (memOk_writeFlanes hs h6).bind fun z7 h8 => ?_
  exact memOk_done h8
theorem State.memOk_ftoiM {s : State} {h : Hdr} {d a : NameRef} {sf : LaneF} {lw : LaneW} {rnd : Rnd} (hs : s.memOk) :
    Ends State.memOk State.memOk (ftoiM s h d a sf lw rnd) := by
  unfold ftoiM
  refine (memOk_issue hs).bind fun z1 h2 => ?_
  refine (memOk_read hs h2).bind fun p3 h4 => ?_
  split
  split
  · exact memOk_done h4
  · exact memOk_done h4
  · exact memOk_done h4
  · refine (memOk_draws hs h4).bind fun p15 h16 => ?_
    split
    dsimp only
    split
    · exact memOk_trapM hs
    · refine (memOk_putPat hs h16).bind fun z25 h26 => ?_
      exact memOk_done (memOk_countQ h26)
theorem State.memOk_itofM {s : State} {h : Hdr} {d a : NameRef} {lw : LaneW} {lf : LaneF} {rnd : Rnd} (hs : s.memOk) :
    Ends State.memOk State.memOk (itofM s h d a lw lf rnd) := by
  unfold itofM
  refine (memOk_issue hs).bind fun z1 h2 => ?_
  refine (memOk_read hs h2).bind fun p3 h4 => ?_
  refine (memOk_writeFlanes hs h4).bind fun z5 h6 => ?_
  exact memOk_done h6
theorem State.memOk_fconvM {s : State} {h : Hdr} {d a : NameRef} {sf lf : LaneF} {rnd : Rnd} (hs : s.memOk) :
    Ends State.memOk State.memOk (fconvM s h d a sf lf rnd) := by
  unfold fconvM
  refine (memOk_issue hs).bind fun z1 h2 => ?_
  refine (memOk_read hs h2).bind fun p3 h4 => ?_
  refine (memOk_writeFlanes hs h4).bind fun z5 h6 => ?_
  exact memOk_done h6
theorem State.memOk_roundM {s : State} {h : Hdr} {d a : NameRef} {lf : LaneF} {rnd : Rnd} (hs : s.memOk) :
    Ends State.memOk State.memOk (roundM s h d a lf rnd) := by
  unfold roundM
  refine (memOk_issue hs).bind fun z1 h2 => ?_
  refine (memOk_read hs h2).bind fun p3 h4 => ?_
  refine (memOk_draws hs h4).bind fun p5 h6 => ?_
  refine (memOk_writeFlanes hs h6).bind fun z7 h8 => ?_
  exact memOk_done h8
theorem State.memOk_scaleM {s : State} {h : Hdr} {d a b : NameRef} {rnd : Rnd} (hs : s.memOk) :
    Ends State.memOk State.memOk (scaleM s h d a b rnd) := by
  unfold scaleM
  refine (memOk_issue hs).bind fun z1 h2 => ?_
  refine (memOk_read hs h2).bind fun p3 h4 => ?_
  refine (memOk_read hs h4).bind fun p5 h6 => ?_
  refine (memOk_drawsFor hs h6).bind fun p7 h8 => ?_
  refine (memOk_quantDone hs h8).bind fun z9 h10 => ?_
  refine (memOk_putPat hs h10).bind fun z11 h12 => ?_
  exact memOk_done h12
theorem State.memOk_seedM {s : State} {h : Hdr} {a b : NameRef} (hs : s.memOk) :
    Ends State.memOk State.memOk (seedM s h a b) := by
  unfold seedM
  refine (memOk_issue hs).bind fun z1 h2 => ?_
  refine (memOk_read hs h2).bind fun p3 h4 => ?_
  refine (memOk_read hs h4).bind fun p5 h6 => ?_
  refine Ends.guard (memOk_trapM hs) fun _ => ?_
  exact memOk_done (memOk_setMe h6)
theorem State.memOk_randM {s : State} {h : Hdr} {d a : NameRef} (hs : s.memOk) :
    Ends State.memOk State.memOk (randM s h d a) := by
  unfold randM
  refine (memOk_issue hs).bind fun z1 h2 => ?_
  refine (memOk_read hs h2).bind fun p3 h4 => ?_
  refine (memOk_draws hs h4).bind fun p5 h6 => ?_
  split
  dsimp only
  split
  · refine (memOk_putPat hs h6).bind fun z11 h12 => ?_
    exact memOk_done h12
  · refine Ends.ite (fun _ => memOk_trapM hs) fun _ => ?_
    refine (memOk_writeInt hs h6).bind fun z14 h15 => ?_
    exact memOk_done h15
theorem State.memOk_posM {s : State} {h : Hdr} {d : NameRef} (hs : s.memOk) :
    Ends State.memOk State.memOk (posM s h d) := by
  unfold posM
  refine (memOk_issue hs).bind fun z1 h2 => ?_
  refine Ends.guard (memOk_trapM hs) fun _ => ?_
  refine (memOk_writeOne hs h2).bind fun z3 h4 => ?_
  exact memOk_done (memOk_setMe h4)
theorem State.memOk_putWord {s : State} {tile a v : Nat} (hs : s.memOk) :
    (s.putWord tile a v).memOk := memOk_putBytes hs _ _
theorem State.memOk_putStops {s : State} {tile a : Nat} {ids : List Nat} (hs : s.memOk) :
    (s.putStops tile a ids).memOk := State.memOk_foldl _ (fun _ _ hz => (memOk_putWord hz)) _ (memOk_putWord hs)
theorem State.memOk_stopAt {s : State} {i : Instr} {h : Hdr} {x : Src} {b : NameRef} {s2 : State} (hs : s.memOk) (hs2 : s2.memOk) :
    Ends State.memOk State.memOk (Sys2Proof.Machine.stopAt s i h x b s2) := by
  unfold Sys2Proof.Machine.stopAt
  refine (memOk_read hs hs2).bind fun p hp => ?_
  dsimp only
  split
  · exact memOk_trapM hs
  · refine .ite (fun _ => memOk_trapM hs) fun _ => .ite (fun _ => memOk_holdM hs) fun _ => .ite (fun _ => memOk_poisonM hs) fun _ => ?_
    exact memOk_done (memOk_putStops hp)
theorem State.memOk_stopM {s : State} {h : Hdr} {a b : NameRef} (hs : s.memOk) :
    Ends State.memOk State.memOk (Sys2Proof.Machine.stopM s h a b) := by
  unfold Sys2Proof.Machine.stopM
  refine (memOk_issue hs).bind fun z1 h1 => ?_
  refine (memOk_read hs h1).bind fun p2 h2 => ?_
  exact memOk_keeping (memOk_stopAt hs h2)
theorem State.memOk_commitToken {s : State} {tile a tau pos : Nat} (hs : s.memOk) :
    (s.commitToken tile a tau pos).2.memOk := by
  unfold State.commitToken
  dsimp only
  split
  · exact hs
  · dsimp only
    exact memOk_putWord (memOk_putWord (memOk_putWord (memOk_putWord hs)))
theorem State.memOk_writeDrawn {s s0 : State} {i : Instr} {d : NameRef} {x : Int} {z : State} (hs : s.memOk) (hs0 : s0.memOk) (hz :
    z.memOk) :
    Ends State.memOk State.memOk (s.writeDrawn s0 i d x z) := by
  unfold State.writeDrawn
  split
  · rename_i e3
    split
    · exact (memOk_writeInt hs hz).of_error e3
    · exact memOk_writeInt hs0 hz
  · rename_i z7 e8
    have he8 : z7.memOk := (memOk_writeInt hs hz).of_ok e8
    exact he8
theorem State.memOk_drawAt {s : State} {i : Instr} {h : Hdr} {d b : NameRef} {x : Src} {s2 : State} (hs : s.memOk) (hs2 : s2.memOk) :
    Ends State.memOk State.memOk (drawAt s i h d b x s2) := by
  have drawn {s0 z : State} {v : Int} (h0 : s0.memOk) (hz : z.memOk) : Ends State.memOk State.memOk (do
      let s6 ← afterRun (s.writeDrawn s0 i d v z)
      pure (s6.done h)) :=
    (memOk_afterRun (memOk_writeDrawn hs h0 hz)).bind fun z hz => memOk_done hz
  unfold drawAt
  refine (memOk_read hs hs2).bind fun p hp => ?_
  refine Ends.guard (memOk_trapM hs) fun _ => ?_
  refine Ends.guard (memOk_trapM hs) fun _ => ?_
  refine Ends.guard (memOk_trapM hs) fun _ => ?_
  refine Ends.guard (memOk_trapM hs) fun _ => ?_
  refine Ends.guard (memOk_trapM hs) fun _ => ?_
  refine Ends.guard (memOk_holdM hs) fun _ => ?_
  refine (memOk_runFor hs hp).bind fun s3 h3 => ?_
  refine Ends.guard (memOk_poisonM hs) fun _ => ?_
  have h0 {n : Nat} : (s.countN s.cur.coreRef 41 n).memOk := memOk_countN hs
  refine (memOk_draws h0 (memOk_found (memOk_countN h3))).bind fun q hq => ?_
  refine .ite (fun _ => drawn h0 hq) fun _ => .ite (fun _ => .ite (fun _ => memOk_poisonM h0) fun _ => ?_) fun _ => drawn h0 hq
  exact drawn h0 (memOk_commitToken hq)
theorem State.memOk_drawM {s : State} {h : Hdr} {d a b : NameRef} (hs : s.memOk) :
    Ends State.memOk State.memOk (drawM s h d a b) := by
  unfold drawM
  refine (memOk_issue hs).bind fun z1 h2 => ?_
  refine (memOk_read hs h2).bind fun p3 h4 => ?_
  split
  exact memOk_keeping (memOk_drawAt hs h4)
theorem State.memOk_forward {s : State} {t : ThreadRef} {i : Instr} {ill : Option Word32} {pc nl : Nat} (hs : s.memOk) :
    (s.forward t i ill pc nl).memOk := State.memOk_foldl _ (fun _ _ hz => (memOk_setThread hz)) _ hs
theorem State.memOk_forwardIll {s : State} {t : ThreadRef} {w : Word32} {pc : Nat} (hs : s.memOk) :
    (s.forwardIll t w pc).memOk := memOk_ite (memOk_forward hs) hs
theorem State.memOk_leadWait {s : State} {i : Instr} {h : Hdr} {tag : Nat} {early : Bool} {fin : List ThreadRef → State → State}
    (hs : s.memOk) (hf : ∀ l z, z.memOk → (fin l z).memOk) : Ends State.memOk State.memOk (leadWait s i h tag early fin) := by
  have h1 : State.memOk (match s.me.vgRun with
      | some _ => (if early then s.forward s.cur i none s.me.pc (s.me.pc + Hdr.len h) else s).setMe { s.me with vgRun := none }
      | none => s) := by
    split
    · split
      · exact memOk_setMe (memOk_forward hs)
      · exact hs
    · exact hs
  unfold leadWait
  exact .ite (fun _ => hf _ _ h1) fun _ => memOk_hold h1
theorem State.memOk_joinM {s : State} {h : Hdr} {a : NameRef} (hs : s.memOk) :
    Ends State.memOk State.memOk (joinM s h a) := by
  unfold joinM
  dsimp only
  split
  · refine (memOk_issue hs).bind fun z3 h4 => ?_
    exact memOk_done h4
  · refine (memOk_issue hs).bind fun z7 h8 => ?_
    exact memOk_holdM hs
  · refine (memOk_issue hs).bind fun z11 h12 => ?_
    refine memOk_leadWait h12 ?_
    intro a13 z14 h15
    exact memOk_done (State.memOk_foldl _ (fun _ _ hz => (memOk_setThread hz)) _ h15)
  · split
    · refine Ends.bind (P := fun _ => True) ?_ fun _ _ => ?_
      · exact memOk_hold hs
      · refine (memOk_issue hs).bind fun z21 h22 => ?_
        refine (memOk_read hs h22).bind fun p23 h24 => ?_
        refine Ends.guard (memOk_trapM hs) fun _ => ?_
        refine Ends.guard (memOk_trapM hs) fun _ => ?_
        refine Ends.guard (memOk_trapM hs) fun _ => ?_
        exact memOk_hold hs
    · refine (memOk_issue hs).bind fun z27 h28 => ?_
      refine (memOk_read hs h28).bind fun p29 h30 => ?_
      refine Ends.guard (memOk_trapM hs) fun _ => ?_
      refine Ends.guard (memOk_trapM hs) fun _ => ?_
      refine Ends.guard (memOk_trapM hs) fun _ => ?_
      exact memOk_hold hs
theorem State.memOk_leaveM {s : State} {h : Hdr} (hs : s.memOk) :
    Ends State.memOk State.memOk (leaveM s h) := by
  unfold leaveM
  refine (memOk_issue hs).bind fun z1 h2 => ?_
  split
  · exact memOk_done h2
  · exact memOk_setMe (memOk_goTo h2)
  · exact memOk_holdM hs
  · refine memOk_leadWait h2 ?_
    intro a11 z12 h13
    exact memOk_setMe (memOk_done (memOk_forward (State.memOk_foldl _ (fun _ _ hz => (memOk_setThread hz)) _ h13)))
theorem State.memOk_execVgForm {t : ThreadRef} {s : State} (hs : s.memOk) :
    Nexts State.memOk (execVgForm t s) := by
  unfold execVgForm
  dsimp only
  split
  · exact trivial
  · split
    · refine Nexts.ite (fun _ => trivial) fun _ => ?_
      split
      · exact trivial
      · refine Nexts.ite (fun _ => trivial) fun _ => ?_
        exact memOk_setThread (State.memOk_foldl _ (fun _ _ hz => (memOk_setThread hz)) _ hs)
    · exact trivial
theorem State.memOk_execVgForward {t : ThreadRef} {s : State} (hs : s.memOk) :
    Nexts State.memOk (execVgForward t s) := by
  unfold execVgForward
  dsimp only
  split
  · exact trivial
  · refine Nexts.ite (fun _ => trivial) fun _ => ?_
    refine Nexts.ite (fun _ => trivial) fun _ => ?_
    exact memOk_setThread hs
theorem State.memOk_detach {s : State} {t : ThreadRef} (hs : s.memOk) :
    (s.detach t).memOk := memOk_count (memOk_redirect (memOk_setThread hs))
theorem State.memOk_vgSettle {s : State} {t : ThreadRef} (hs : s.memOk) :
    (s.vgSettle t).memOk := by
  unfold State.vgSettle
  dsimp only
  split
  · exact hs
  · exact memOk_ite hs (memOk_ite (memOk_forward (memOk_setThread hs)) (memOk_ite (memOk_detach hs) (memOk_setThread hs)))
theorem State.memOk_vgSettleAll {s : State} (hs : s.memOk) :
    (s.vgSettleAll).memOk := State.memOk_foldl _ (fun _ _ hz => (memOk_vgSettle hz)) _ hs

end Sys2Proof.Machine
end

section
/-! Memory keeps its canonical form: the arrays, the engines and the capacity tier. One lemma for each meaning, along its definition. -/
namespace Sys2Proof.Machine

theorem State.memOk_setHead {s : State} {tile : Nat} {q : MxCmd} (hs : s.memOk) :
    (s.setHead tile q).memOk := memOk_modMx hs
theorem State.memOk_mxEnd {s : State} {tile : Nat} {q : MxCmd} {e : MxEnd} (hs : s.memOk) :
    (s.mxEnd tile q e).memOk := by
  unfold State.mxEnd
  dsimp only
  split
  · split
    · exact memOk_asyncTrap (memOk_setTile (memOk_ite (memOk_setCmx (memOk_modMx hs)) (memOk_modMx hs)))
    · refine memOk_setTile (memOk_ite (memOk_setCmx ?_) ?_)
      · split
        · exact memOk_setCmx (memOk_modMx hs)
        · exact memOk_modMx hs
      · split
        · exact memOk_setCmx (memOk_modMx hs)
        · exact memOk_modMx hs
  · split
    · exact memOk_setThread (memOk_setTile (memOk_ite (memOk_setCmx (memOk_modMx hs)) (memOk_modMx hs)))
    · exact memOk_takeTrap (memOk_setTile (memOk_ite (memOk_setCmx (memOk_setCmx (memOk_modMx hs))) (memOk_setCmx (memOk_modMx hs))))
    · exact memOk_takeTrap (memOk_setTile (memOk_ite (memOk_setCmx (memOk_modMx hs)) (memOk_modMx hs)))
theorem State.memOk_blockFound {s : State} {tile : Nat} {q : MxCmd} {a n : Nat} (hs : s.memOk) :
    (s.blockFound tile q a n).memOk := memOk_found hs
theorem State.memOk_auxFound {s : State} {tile : Nat} {q : MxCmd} {c : Word64} {sm : Bool} (hs : s.memOk) :
    (s.auxFound tile q c sm).memOk := by
  unfold State.auxFound
  split
  · exact hs
  · exact memOk_ite (memOk_blockFound (memOk_blockFound hs)) (memOk_blockFound hs)
theorem State.memOk_mxLdstat {s : State} {tile : Nat} {q : MxCmd} (hs : s.memOk) :
    (s.mxLdstat tile q).memOk := by
  unfold State.mxLdstat
  dsimp only
  split
  · exact memOk_mxEnd (memOk_blockFound (memOk_auxFound hs))
  · exact memOk_mxEnd (memOk_countN (memOk_countN (memOk_modMx (memOk_blockFound (memOk_auxFound hs)))))
theorem State.memOk_streamFound {s : State} {tile : Nat} {c : Word64} {q : MxCmd} (hs : s.memOk) :
    (s.streamFound tile c q).memOk := memOk_ite (memOk_blockFound (memOk_ite (memOk_blockFound (memOk_auxFound hs)) (memOk_auxFound hs)))
        (memOk_ite (memOk_blockFound (memOk_auxFound hs)) (memOk_auxFound hs))
theorem State.memOk_putAccs {s : State} {tile : Nat} {q : MxCmd} {a : Nat} {vs : List (Nat × Bool)} (hs : s.memOk) :
    (s.putAccs tile q a vs).memOk := memOk_countN (memOk_setFullList (memOk_putBytes hs _ _))
theorem State.memOk_streamRow {s : State} {tile : Nat} {c : Word64} {q : MxCmd} {aux m : Nat} {row : List Byte} {north : Option (List
    Word64)} (hs : s.memOk) :
    (s.streamRow tile c q aux m row north).memOk := memOk_putAccs hs
theorem State.memOk_mxStream {s : State} {tile : Nat} {q : MxCmd} (hs : s.memOk) :
    (s.mxStream tile q).memOk := by
  unfold State.mxStream
  dsimp only
  split
  · exact memOk_mxEnd (memOk_streamFound hs)
  · exact memOk_mxEnd (State.memOk_foldl _ (fun _ _ hz => (memOk_streamRow hz)) _ (memOk_streamFound hs))
theorem State.memOk_putRow {s : State} {tile a n : Nat} {bs : List Byte} (hs : s.memOk) :
    (s.putRow tile a n bs).memOk := memOk_setFullList (memOk_putBytes hs _ _)
theorem State.memOk_mxDrain {s : State} {tile : Nat} {q : MxCmd} (hs : s.memOk) :
    (s.mxDrain tile q).memOk := by
  unfold State.mxDrain
  dsimp only
  split
  · exact memOk_mxEnd (memOk_blockFound hs)
  · split
    · exact memOk_modMx (memOk_setHead (State.memOk_foldl _ (fun _ _ hz => (memOk_countN (memOk_putRow hz))) _ (memOk_blockFound hs)))
    · exact memOk_mxEnd (State.memOk_foldl _ (fun _ _ hz => (memOk_countN (memOk_putRow hz))) _ (memOk_blockFound hs))
theorem State.memOk_mxClear {s : State} {tile : Nat} {q : MxCmd} (hs : s.memOk) :
    (s.mxClear tile q).memOk := memOk_mxEnd (State.memOk_foldl _ (fun _ _ hz => (memOk_putRow hz)) _ hs)
theorem State.memOk_drainEntry {s : State} {tile : Nat} {q : MxCmd} {own : SbOwner} (hs : s.memOk) :
    (s.drainEntry tile q own).memOk := memOk_ite hs (memOk_setHead (memOk_setTile hs))
theorem State.memOk_mxBegin {s : State} {tile : Nat} (hs : s.memOk) :
    (s.mxBegin tile).memOk := by
  unfold State.mxBegin
  dsimp only
  split
  · exact hs
  · refine memOk_ite hs (memOk_ite hs ?_)
    split
    · exact memOk_mxEnd (memOk_blockFound hs)
    · split
      · exact memOk_mxEnd hs
      · split
        · exact memOk_setHead (memOk_modMx hs)
        · exact memOk_setHead (memOk_modMx hs)
        · exact memOk_ite (memOk_setHead hs) (memOk_ite (memOk_mxEnd hs) (memOk_setHead hs))
        · split
          · exact memOk_ite (memOk_setHead (memOk_blockFound (memOk_drainEntry hs))) (memOk_drainEntry hs)
          · exact memOk_drainEntry hs
        · exact memOk_setHead hs
theorem State.memOk_sendArr {s : State} {tile : Nat} {d : Dir} {m : ArrMsg} (hs : s.memOk) :
    (s.sendArr tile d m).memOk := memOk_modMx hs
theorem State.memOk_rectWait {s : State} {tile : Nat} {q : MxCmd} (hs : s.memOk) :
    (s.rectWait tile q).memOk := memOk_ite (memOk_mxEnd hs) (memOk_setHead hs)
/-- A move of a stream in a rectangle that keeps the form. -/
def RectMove.memOk : RectMove → Prop
  | .go z => z.memOk
  | _ => True
theorem RectMove.memOk_ite {c : Prop} [Decidable c] {m n : RectMove} (hm : m.memOk) (hn : n.memOk) : (if c then m else n).memOk := by
  split
  · exact hm
  · exact hn
theorem State.memOk_rectStep {s : State} {tile : Nat} {q : MxCmd} (hs : s.memOk) : (s.rectStep tile q).memOk := by
  have sent {c : Bool} {z : State} {d : Dir} {m : ArrMsg} (hz : z.memOk) : State.memOk (if c then z else z.sendArr tile d m) := by
    split
    · exact hz
    · exact memOk_sendArr hz
  unfold State.rectStep
  dsimp only
  refine RectMove.memOk_ite ?_ (RectMove.memOk_ite ?_ (RectMove.memOk_ite ?_ (RectMove.memOk_ite ?_ (RectMove.memOk_ite trivial
    (RectMove.memOk_ite ?_ ?_)))))
  · split
    · exact memOk_setHead (memOk_modMx hs)
    · exact trivial
  · split
    · exact memOk_setHead (memOk_modMx hs)
    · exact trivial
  · exact RectMove.memOk_ite trivial (memOk_setHead (sent (sent hs)))
  · split
    · exact memOk_setHead (memOk_modMx hs)
    · exact memOk_setHead (memOk_modMx hs)
    · exact RectMove.memOk_ite (memOk_mxEnd hs) trivial
  · exact memOk_mxEnd (memOk_streamFound hs)
  · have hz : State.memOk (if q.row = 0 then s.streamFound tile (s.tile tile).mx.cfg q else s) := by
      split
      · exact memOk_streamFound hs
      · exact hs
    split
    · refine RectMove.memOk_ite trivial ?_
      split
      · next s1 he =>
        have h1 : s1.memOk := by
          split at he
          · cases he; exact hz
          · split at he <;> cases he
            exact memOk_modMx hz
        exact memOk_setHead (sent h1)
      · exact trivial
    · refine RectMove.memOk_ite trivial ?_
      split
      · exact trivial
      · next s1 he =>
        have h1 : s1.memOk := by
          split at he
          · cases he; exact hs
          · split at he <;> cases he
            exact memOk_modMx hs
        refine memOk_setHead ?_
        split
        · exact memOk_streamRow h1
        · exact memOk_sendArr h1
theorem State.memOk_of_rectStep {s z : State} {tile : Nat} {q : MxCmd} (hs : s.memOk) (hz : s.rectStep tile q = .go z) : z.memOk := by
  have := memOk_rectStep (tile := tile) (q := q) hs
  rwa [hz] at this
theorem State.memOk_rectRun {s : State} {tile upTo n : Nat} (hs : s.memOk) : (s.rectRun tile upTo n).memOk := by
  induction n generalizing s with
  | zero => exact hs
  | succ n ih =>
    unfold State.rectRun
    split
    · exact hs
    · split
      · exact hs
      · split
        · exact memOk_rectWait hs
        · exact hs
        · next he => exact ih (memOk_of_rectStep hs he)
theorem State.memOk_mxAdvance {s : State} {tile : Nat} (hs : s.memOk) : (s.mxAdvance tile).memOk := by
  have hb : (s.mxBegin tile).memOk := memOk_mxBegin hs
  unfold State.mxAdvance
  dsimp only
  split
  · exact hb
  · exact memOk_rectRun hb
theorem State.memOk_mxAdvanceAll {s : State} (hs : s.memOk) :
    (s.mxAdvanceAll).memOk := State.memOk_foldl _ (fun _ _ hz => (memOk_mxAdvance hz)) _ hs
theorem State.memOk_execMxCommandComplete {tile : Nat} {s : State} (hs : s.memOk) :
    Nexts State.memOk (execMxCommandComplete tile s) := by
  unfold execMxCommandComplete
  dsimp only
  split
  · exact trivial
  · split
    · exact trivial
    · refine Nexts.ite (fun _ => trivial) fun _ => ?_
      split
      · exact memOk_mxLdstat hs
      · split
        · exact memOk_mxStream hs
        · refine Nexts.ite (fun _ => ?_) fun _ => trivial
          exact memOk_mxEnd hs
      · exact memOk_mxDrain hs
      · exact memOk_mxClear hs
      · exact memOk_mxEnd hs
theorem State.memOk_execDoorbellNotice {tile : Nat} {s : State} (hs : s.memOk) :
    Nexts State.memOk (execDoorbellNotice tile s) := by
  unfold execDoorbellNotice
  dsimp only
  split
  · refine Nexts.ite (fun _ => trivial) fun _ => ?_
    exact memOk_mxEnd (memOk_modMx (memOk_putLocalWord hs _ _ _))
  · exact trivial
theorem State.memOk_arrTake {s : State} {tile : Nat} {d : Dir} {n : Nat} {m : ArrMsg} {l : List (Nat × ArrMsg)} (hs : s.memOk) :
    (s.arrTake tile d n m l).memOk := by
  unfold State.arrTake
  split
  · exact memOk_modMx (memOk_modMx hs)
  · exact memOk_modMx (memOk_modMx hs)
theorem State.memOk_execArrayChannelMessage {tile : Nat} {dir : Dir} {s : State} (hs : s.memOk) :
    Nexts State.memOk (execArrayChannelMessage tile dir s) := by
  unfold execArrayChannelMessage
  split
  · exact memOk_arrTake hs
  · exact trivial
theorem State.memOk_execArrayConfigMessage {tile : Nat} {dir : Dir} {s : State} (hs : s.memOk) :
    Nexts State.memOk (execArrayConfigMessage tile dir s) := by
  unfold execArrayConfigMessage
  split
  · dsimp only
    change State.memOk _
    have h1 {n : Nat} {m : ArrMsg} {l : List (Nat × ArrMsg)} : (s.arrTake tile dir n m l).memOk := memOk_arrTake hs
    split
    · split
      · split
        · next he => exact memOk_of_rectStep h1 he
        · exact h1
      · exact h1
    · exact h1
  · exact trivial
theorem State.memOk_mxArrive {s0 : State} {i : Instr} {fn : Nat} {a b : Int} {s : State} (hs0 : s0.memOk) (hs : s.memOk) :
    Ends State.memOk State.memOk (mxArrive s0 i fn a b s) := by
  unfold mxArrive
  refine Ends.ite (fun _ => memOk_holdM hs0) fun _ => ?_
  exact memOk_ite (memOk_mxBegin (memOk_setMe (memOk_setMyTile hs))) (memOk_setMe (memOk_setMyTile hs))
theorem State.memOk_mxOneM {s : State} {i : Instr} {h : Hdr} {fn : Nat} {a : NameRef} (hs : s.memOk) :
    Ends State.memOk State.memOk (mxOneM s i h fn a) := by
  unfold mxOneM
  refine (memOk_issue hs).bind fun z1 h2 => ?_
  refine (memOk_read hs h2).bind fun p3 h4 => ?_
  split
  exact memOk_mxArrive hs h4
theorem State.memOk_mxTwoM {s : State} {i : Instr} {h : Hdr} {fn : Nat} {a b : NameRef} (hs : s.memOk) :
    Ends State.memOk State.memOk (mxTwoM s i h fn a b) := by
  unfold mxTwoM
  refine (memOk_issue hs).bind fun z1 h2 => ?_
  refine (memOk_read hs h2).bind fun p3 h4 => ?_
  refine (memOk_read hs h4).bind fun p5 h6 => ?_
  split
  exact memOk_mxArrive hs h6
theorem State.memOk_mxSwapM {s : State} {i : Instr} {h : Hdr} (hs : s.memOk) :
    Ends State.memOk State.memOk (mxSwapM s i h) := by
  unfold mxSwapM
  refine (memOk_issue hs).bind fun z1 h2 => ?_
  exact memOk_mxArrive hs h2
theorem State.memOk_report {s : State} {r : CoreRef} {ws : List Word64} {code eng off : Nat} (hs : s.memOk) :
    (s.report r ws code eng off).memOk := by
  unfold State.report
  refine memOk_setCore ?_
  dsimp only
  split
  · exact memOk_putLocalWord (memOk_ite (memOk_putLocalWord hs _ _ _) hs) _ _ _
  · exact hs
theorem State.memOk_execEngineCommandAccept {k : CoreRef} {s : State} (hs : s.memOk) :
    Nexts State.memOk (execEngineCommandAccept k s) := by
  unfold execEngineCommandAccept
  dsimp only
  split
  · exact trivial
  · split
    · split
      · refine Nexts.ite (fun _ => ?_) fun _ => trivial
        exact memOk_report (memOk_setCore hs)
      · refine Nexts.ite (fun _ => trivial) fun _ => ?_
        exact memOk_setTile (memOk_setCore hs)
    · split
      · split
        · refine Nexts.ite (fun _ => ?_) fun _ => trivial
          exact memOk_report (memOk_setCore hs)
        · refine Nexts.ite (fun _ => trivial) fun _ => ?_
          exact memOk_setTile (memOk_setCore hs)
      · split
        · refine Nexts.ite (fun _ => ?_) fun _ => trivial
          exact memOk_report (memOk_setCore hs)
        · refine Nexts.ite (fun _ => trivial) fun _ => ?_
          exact memOk_setTile (memOk_setCore hs)
theorem State.memOk_execEngReservationGrant {k : CoreRef} {s : State} (hs : s.memOk) :
    Nexts State.memOk (execEngReservationGrant k s) := by
  unfold execEngReservationGrant
  dsimp only
  split
  · refine Nexts.ite (fun _ => ?_) fun _ => trivial
    exact memOk_setCore hs
  · exact trivial
theorem ok_of_ite {α β : Type} {c : Prop} [Decidable c] {e : α} {m : Except α β} {a : β} (h : (if c then .error e else m) = .ok a) :
    ¬ c ∧ m = .ok a := by
  split at h
  · cases h
  next hc => exact ⟨hc, h⟩
theorem State.memOk_engRead {s : State} {x : EngAt} {isLocal : Bool} {a : Int} {n : Nat} {p : List Byte × State} (hs : s.memOk)
    (hp : s.engRead x isLocal a n = .ok p) : p.2.memOk := by
  unfold State.engRead at hp
  dsimp only at hp
  split at hp
  · split at hp
    · cases hp
    · split at hp <;> cases hp
      exact memOk_found hs
  · split at hp
    · cases hp
    · split at hp
      · split at hp
        · cases hp
        · split at hp <;> cases hp
          exact memOk_found hs
      · replace hp := (ok_of_ite hp).2
        replace hp := (ok_of_ite hp).2
        replace hp := (ok_of_ite hp).2
        cases hp
        exact memOk_found hs
      · cases hp
theorem State.memOk_engWrite {s z : State} {x : EngAt} {a : Int} {bs : List Byte} (hs : s.memOk) (hz : s.engWrite x a bs = .ok z) :
    z.memOk := by
  have counted (c : Bool) : State.memOk (if c then s.count x.thr.coreRef 9 else s) := by
    split
    · exact memOk_count hs
    · exact hs
  have put {c : Bool} {pa n die key : Nat} : (((if c then s.count x.thr.coreRef 9 else s).rewrite x.thr 4 x.cmd.ctx pa n).durableWrite
      die key pa bs).memOk := memOk_durableWrite (memOk_rewrite (counted c))
  unfold State.engWrite at hz
  dsimp only at hz
  split at hz
  · split at hz <;> cases hz
    exact memOk_setFullList (memOk_putBytes (memOk_rewrite (counted _)) _ _)
  · split at hz
    · cases hz
    · split at hz
      · split at hz
        · split at hz
          · split at hz <;> cases hz
            exact put
          · split at hz
            · cases hz
            · split at hz
              · cases hz
              · split at hz <;> cases hz
        · split at hz <;> cases hz
          exact put
      · cases hz
theorem State.memOk_engWrites {s z : State} {x : EngAt} {a : Int} {bs : List Byte} {n : Nat} (hs : s.memOk)
    (hz : s.engWrites x a bs n = .ok z) : z.memOk := by
  induction n generalizing s a bs with
  | zero => unfold State.engWrites at hz; cases hz; exact hs
  | succ n ih =>
    unfold State.engWrites at hz
    split at hz
    · cases hz
    · next he => exact ih (memOk_engWrite hs he) hz
theorem State.memOk_engReads {s : State} {x : EngAt} {isLocal : Bool} {a : Int} {n : Nat} {p : List Byte × State} (hs : s.memOk)
    (hp : s.engReads x isLocal a n = .ok p) : p.2.memOk := by
  induction n generalizing s a p with
  | zero => unfold State.engReads at hp; cases hp; exact hs
  | succ n ih =>
    unfold State.engReads at hp
    split at hp
    · cases hp
    · next he =>
      split at hp
      · cases hp
      · next hr =>
        cases hp
        have hy := ih (memOk_engRead hs he) hr
        exact hy
theorem State.memOk_copyElem {s z : State} {x : EngAt} {p : Nat} (hs : s.memOk) (hz : s.copyElem x p = .ok z) : z.memOk := by
  unfold State.copyElem at hz
  dsimp only at hz
  split at hz
  · cases hz
  · next he => exact memOk_engWrite (memOk_engRead hs he) hz
theorem State.memOk_factor {s : State} {x : EngAt} {p : Nat} {r : Option Nat × State} (hs : s.memOk) (hr : s.factor x p = .ok r) :
    r.2.memOk := by
  unfold State.factor at hr
  dsimp only at hr
  split at hr
  · cases hr; exact hs
  · split at hr
    · cases hr
    · next he => cases hr; exact memOk_engRead hs he
theorem State.memOk_sourceVals {s : State} {x : EngAt} {f : CFmt} {p n : Nat} {r : List (XVal × Nat) × State} (hs : s.memOk)
    (hr : s.sourceVals x f p n = .ok r) : r.2.memOk := by
  induction n generalizing s p r with
  | zero => unfold State.sourceVals at hr; cases hr; exact hs
  | succ n ih =>
    unfold State.sourceVals at hr
    split at hr
    · cases hr
    · next h1 =>
      split at hr
      · cases hr
      · next h2 =>
        split at hr
        · cases hr
        · next h3 =>
          cases hr
          have hu := ih (memOk_factor (memOk_engRead hs h1) h2) h3
          exact hu
theorem State.memOk_convertElem {s : State} {x : EngAt} {p : Nat} {r : Nat × QCount × State} (hs : s.memOk)
    (hr : s.convertElem x p = .ok r) : r.2.2.memOk := by
  unfold State.convertElem at hr
  dsimp only at hr
  split at hr
  · split at hr
    · split at hr
      · cases hr
      · next h1 =>
        split at hr
        · cases hr
        · next h2 => cases hr; exact memOk_engWrites (memOk_sourceVals hs h1) h2
    · split at hr
      · cases hr
      · next v bad z h1 =>
        have hz : z.memOk := by
          split at h1
          · split at h1
            · cases h1
            · next h2 => cases h1; exact memOk_sourceVals hs h2
          · split at h1
            · cases h1
            · next h2 =>
              split at h1
              · cases h1
              · next h3 =>
                cases h1
                have hy := memOk_factor (memOk_engReads hs h2) h3
                exact hy
        split at hr
        · cases hr
        · next h2 => cases hr; exact memOk_engWrite hz h2
  · cases hr
theorem State.memOk_moveElems {s : State} {x : EngAt} {n : Nat} (hs : s.memOk) : (s.moveElems x n).1.memOk := by
  induction n generalizing s x with
  | zero => exact hs
  | succ n ih =>
    unfold State.moveElems
    dsimp only
    split
    · exact hs
    · split
      · split
        · next he => exact ih (memOk_convertElem hs he)
        · exact hs
      · split
        · next he => exact ih (memOk_copyElem hs he)
        · exact hs
theorem State.memOk_setEngHead {s : State} {tile : Nat} {e : Fin 2} {q : Fin 4} {c : EngCmd} (hs : s.memOk) :
    (s.setEngHead tile e q c).memOk := memOk_setTile hs
theorem State.memOk_burst {s z : State} {tile : Nat} {e : Fin 2} {q : Fin 4} (hs : s.memOk) (hz : s.burst tile e q = some z) : z.memOk := by
  unfold State.burst at hz
  dsimp only at hz
  split at hz
  · cases hz
  · split at hz
    · cases hz
    · split at hz
      · cases hz; exact memOk_setEngHead hs
      · split at hz
        · cases hz; exact memOk_setEngHead (memOk_moveElems hs)
        · split at hz <;> cases hz
          exact memOk_setEngHead (memOk_moveElems hs)
        · cases hz; exact memOk_setEngHead (memOk_moveElems hs)
        · cases hz; exact memOk_found (memOk_setEngHead (memOk_moveElems hs))
        · cases hz; exact memOk_sendMiss (memOk_count (memOk_setEngHead (memOk_moveElems hs)))
theorem State.memOk_execEngineBurst {tile eng queue : Nat} {s : State} (hs : s.memOk) :
    Nexts State.memOk (execEngineBurst tile eng queue s) := by
  unfold execEngineBurst
  refine Nexts.ite (fun _ => trivial) fun _ => ?_
  split
  · exact trivial
  · next he => exact memOk_setTile (memOk_burst hs he)
theorem State.memOk_followOn {s z : State} {tile : Nat} {q : Fin 4} (hs : s.memOk) (hz : s.followOn tile q = some z) : z.memOk := by
  unfold State.followOn at hz
  split at hz
  · cases hz
  · dsimp only at hz
    split at hz <;> cases hz
    exact memOk_modMx (memOk_setEngHead hs)
theorem State.memOk_execEngineFollowon {tile : Nat} {s : State} (hs : s.memOk) : Nexts State.memOk (execEngineFollowon tile s) := by
  unfold execEngineFollowon
  split
  · next he =>
    obtain ⟨q, -, hq⟩ := List.exists_of_findSome?_eq_some he
    exact memOk_followOn hs hq
  · exact trivial
theorem State.memOk_poolAdd {s : State} {ctx pfn : Nat} (hs : s.memOk) :
    (s.poolAdd ctx pfn).memOk := memOk_modContext hs
theorem State.memOk_dropShadows {s : State} {r : CoreRef} {p : Shadow → Bool} (hs : s.memOk) :
    (s.dropShadows r p).memOk := State.memOk_foldl _ (fun _ _ hz => (memOk_poolAdd hz)) _ (memOk_setCore hs)
theorem State.memOk_engFinish {s : State} {tile : Nat} {e : Fin 2} {q : Fin 4} {c : EngCmd} {code off : Nat} (hs : s.memOk) :
    (s.engFinish tile e q c code off).memOk := memOk_ite (memOk_ite (memOk_askContain (memOk_setEngHead hs)) (memOk_askContain
        (memOk_setCore (memOk_setTile hs)))) (memOk_report (memOk_ite (memOk_asyncTrap (memOk_dropShadows (memOk_setTile hs)))
        (memOk_setTile hs)))
theorem State.memOk_execEngineCommandEnd {tile eng queue : Nat} {s : State} (hs : s.memOk) :
    Nexts State.memOk (execEngineCommandEnd tile eng queue s) := by
  unfold execEngineCommandEnd
  dsimp only
  split
  · exact trivial
  · split
    · exact trivial
    · split
      · exact memOk_engFinish (memOk_countQ hs)
      · exact memOk_setEngHead (memOk_countQ hs)
theorem State.memOk_execEngineStatusPost {k : CoreRef} {s : State} (hs : s.memOk) :
    Nexts State.memOk (execEngineStatusPost k s) := by
  unfold execEngineStatusPost
  dsimp only
  split
  · exact memOk_engFinish hs
  · exact trivial
theorem State.memOk_cmdWordAt {s0 : State} {i : Instr} {a : Nat} {s : State} (hs0 : s0.memOk) (hs : s.memOk) :
    Ends State.memOk (fun p => p.2.memOk) (s0.cmdWordAt i a s) := by
  unfold State.cmdWordAt
  refine Ends.ite (fun _ => memOk_holdM hs0) fun _ => ?_
  refine Ends.ite (fun _ => memOk_poisonM hs0) fun _ => ?_
  change State.memOk _
  dsimp only
  exact memOk_found hs
theorem State.memOk_cmdWordsAt {s0 s : State} {i : Instr} {a n : Nat} (hs0 : s0.memOk) (hs : s.memOk) :
    Ends State.memOk (fun p => p.2.memOk) (s0.cmdWordsAt i a s n) := by
  induction n generalizing s a with
  | zero => exact hs
  | succ n ih => exact (memOk_cmdWordAt hs0 hs).bind fun p hp => (ih hp).bind fun q hq => hq
theorem State.memOk_passCommand {s0 : State} {i : Instr} {h : Hdr} {ws : List Word64} {s : State} (hs0 : s0.memOk) (hs : s.memOk) :
    Ends State.memOk State.memOk (s0.passCommand i h ws s) := by
  unfold State.passCommand
  dsimp only
  split
  · refine Ends.bind (P := fun _ => True) ?_ fun _ _ => ?_
    · exact memOk_hold hs0
    · refine (memOk_submitTo hs0 hs).bind fun z2 h3 => ?_
      exact memOk_done h3
  · refine (memOk_submitTo hs0 hs).bind fun z5 h6 => ?_
    exact memOk_done h6
theorem State.memOk_engCopyM {s : State} {h : Hdr} {a : NameRef} (hs : s.memOk) :
    Ends State.memOk State.memOk (engCopyM s h a) := by
  unfold engCopyM
  refine (memOk_issue hs).bind fun z1 h2 => ?_
  refine (memOk_read hs h2).bind fun p3 h4 => ?_
  split
  dsimp only
  split
  · exact memOk_passCommand hs h4
  · refine Ends.ite (fun _ => memOk_trapM hs) fun _ => ?_
    refine Ends.ite (fun _ => memOk_trapM hs) fun _ => ?_
    refine (memOk_cmdWordAt hs h4).bind fun p13 h14 => ?_
    refine Ends.guard (memOk_trapM hs) fun _ => ?_
    refine (memOk_cmdWordsAt hs h14).bind fun p15 h16 => ?_
    exact memOk_passCommand hs h16
theorem State.memOk_engGuardM {s : State} {h : Hdr} {a b : NameRef} (hs : s.memOk) :
    Ends State.memOk State.memOk (engGuardM s h a b) := by
  unfold engGuardM
  refine (memOk_issue hs).bind fun z1 h2 => ?_
  refine (memOk_read hs h2).bind fun p3 h4 => ?_
  refine (memOk_read hs h4).bind fun p5 h6 => ?_
  refine Ends.guard (memOk_trapM hs) fun _ => ?_
  refine Ends.guard (memOk_trapM hs) fun _ => ?_
  exact memOk_done (memOk_setMyTile h6)
theorem State.memOk_engSetM {s : State} {i : Instr} {h : Hdr} {d a : NameRef} (hs : s.memOk) :
    Ends State.memOk State.memOk (engSetM s i h d a) := by
  unfold engSetM
  split
  · exact memOk_setMe hs
  · refine (memOk_issue hs).bind fun z6 h7 => ?_
    refine (memOk_read hs h7).bind fun p8 h9 => ?_
    refine Ends.guard (memOk_trapM hs) fun _ => ?_
    refine (memOk_portCheck hs).bind fun _ _ => ?_
    exact memOk_hold hs
theorem State.memOk_engStatusM {s : State} {h : Hdr} {d : NameRef} (hs : s.memOk) :
    Ends State.memOk State.memOk (engStatusM s h d) := by
  unfold engStatusM
  refine (memOk_issue hs).bind fun z1 h2 => ?_
  dsimp only
  split
  · rename_i e5
    exact memOk_done ((memOk_writeOne hs h2).of_ok e5)
  · rename_i e8
    exact memOk_keepVal ((memOk_writeOne hs h2).of_error e8)
theorem State.memOk_setDone {s z : State} {t : ThreadRef} {w : SetWait} {i : Instr} {n : Nat} {act : State → State} (hs : s.memOk)
    (ha : ∀ y, y.memOk → (act y).memOk) (hz : s.setDone t w i n act = some z) : z.memOk := by
  have at' : State.memOk { s with cur := t } := hs
  unfold State.setDone at hz
  dsimp only at hz
  split at hz
  · next he => cases hz; exact memOk_done (h := w.h) (ha _ ((memOk_writeOne at' at').of_ok he))
  · next he =>
    split at hz <;> cases hz
    have hz := (memOk_writeOne at' at').of_error he
    exact hz
theorem State.memOk_flip {s : State} {h : Shadow} (hs : s.memOk) :
    (s.flip h).memOk := memOk_poolAdd (memOk_modContext hs)
theorem State.memOk_execUnveilFlip {t : ThreadRef} {s : State} (hs : s.memOk) : Nexts State.memOk (execUnveilFlip t s) := by
  unfold execUnveilFlip
  split
  · refine Nexts.ite (fun _ => ?_) fun _ => trivial
    dsimp only
    split
    · next he => exact memOk_setDone hs (fun y hy => State.memOk_foldl _ (fun _ _ hz => memOk_flip hz) _ (memOk_setCore hy)) he
    · exact trivial
  · exact trivial
theorem State.memOk_execShadowDiscard {t : ThreadRef} {s : State} (hs : s.memOk) : Nexts State.memOk (execShadowDiscard t s) := by
  unfold execShadowDiscard
  split
  · refine Nexts.ite (fun _ => ?_) fun _ => trivial
    dsimp only
    split
    · next he => exact memOk_setDone hs (fun y hy => memOk_dropShadows hy) he
    · exact trivial
  · exact trivial
theorem State.memOk_takeUnit {s0 : State} {i : Instr} {s : State} (hs0 : s0.memOk) (hs : s.memOk) :
    Ends State.memOk State.memOk (s0.takeUnit i s) := by
  unfold State.takeUnit
  refine Ends.ite (fun _ => memOk_holdM hs0) fun _ => ?_
  exact memOk_setMyTile hs
theorem State.memOk_withUnit {s0 s : State} (hs0 : s0.memOk) :
    (s0.withUnit s).memOk := memOk_setMyTile hs0
theorem State.memOk_leaveUnit {s : State} (hs : s.memOk) :
    (s.leaveUnit).memOk := memOk_setMyTile hs
theorem State.memOk_capLocal {s0 : State} {i : Instr} {a : Nat} {s : State} (hs0 : s0.memOk) (hs : s.memOk) :
    Ends State.memOk (fun p => p.2.memOk) (s0.capLocal i a s) := by
  unfold State.capLocal
  refine (memOk_loadLocal hs0 hs).bind fun p1 h2 => ?_
  exact h2
theorem State.memOk_capLocals {s0 s : State} {i : Instr} {a n : Nat} (hs0 : s0.memOk) (hs : s.memOk) :
    Ends State.memOk (fun p => p.2.memOk) (s0.capLocals i a n s) := by
  induction n generalizing s a with
  | zero => exact hs
  | succ n ih => exact (memOk_capLocal hs0 hs).bind fun p hp => (ih hp).bind fun q hq => hq
theorem State.memOk_capBlock {s0 : State} {i : Instr} {v : Int} {s : State} (hs0 : s0.memOk) (hs : s.memOk) :
    Ends State.memOk (fun p => p.2.memOk) (s0.capBlock i v s) := by
  unfold State.capBlock
  refine Ends.guard (memOk_trapM hs0) fun _ => ?_
  refine Ends.guard (memOk_trapM hs0) fun _ => ?_
  refine (memOk_capLocals hs0 hs).bind fun p1 h2 => ?_
  exact h2
theorem State.memOk_capBags {s0 s : State} {i : Instr} {p n : Nat} (hs0 : s0.memOk) (hs : s.memOk) :
    Ends State.memOk (fun r => r.2.2.2.memOk) (s0.capBags i p n s) := by
  induction n generalizing s p with
  | zero => exact hs
  | succ n ih =>
    unfold State.capBags
    refine .ite (fun _ => hs) fun _ => ?_
    refine (memOk_capLocal hs0 hs).bind fun q hq => .ite (fun _ => hq) fun _ => ?_
    exact (memOk_capLocals hs0 hq).bind fun u hu => (ih hu).bind fun v hv => hv
theorem State.memOk_capCheck {s0 : State} {bad : Option Nat} (hs0 : s0.memOk) :
    Ends State.memOk (fun _ => True) (s0.capCheck bad) := by
  unfold State.capCheck
  split
  · exact memOk_trapM hs0
  · exact trivial
theorem State.memOk_capOut {s0 : State} {i : Instr} {a q : Nat} {b : PoolBlock} {wr : Bool} {s : State} (hs0 : s0.memOk) :
    Ends State.memOk (fun _ => True) (s0.capOut i a q b wr s) := by
  unfold State.capOut
  refine Ends.guard (memOk_trapM hs0) fun _ => ?_
  refine Ends.ite (fun _ => memOk_holdM hs0) fun _ => ?_
  exact trivial
theorem State.memOk_capEntry {s0 : State} {i : Instr} {kind a : Nat} {s : State} (hs0 : s0.memOk) :
    Ends State.memOk (fun _ => True) (s0.capEntry i kind a s) := by
  unfold State.capEntry
  dsimp only
  split
  · exact trivial
  · split
    · exact trivial
    · exact memOk_missM hs0
theorem State.memOk_capGlob {s0 : State} {tv a : Nat} {s : State} (hs0 : s0.memOk) :
    Ends State.memOk (fun _ => True) (s0.capGlob tv a s) := by
  unfold State.capGlob
  split
  · exact trivial
  · exact memOk_trapM hs0
theorem State.memOk_capTable {s0 s : State} {i : Instr} {tab hi n a : Nat} (hs0 : s0.memOk) :
    Ends State.memOk (fun _ => True) (s0.capTable i tab hi s n a) := by
  induction n generalizing a with
  | zero => exact trivial
  | succ n ih =>
    unfold State.capTable
    refine .ite (fun _ => trivial) fun _ => ?_
    refine Ends.bind (P := fun _ => True) (memOk_capGlob hs0) fun g _ => ?_
    refine Ends.bind (P := fun _ => True) (memOk_capEntry hs0) fun e _ => ?_
    exact Ends.guard (memOk_trapM hs0) fun _ => ih
theorem State.memOk_capTables {s0 : State} {i : Instr} {b : PoolBlock} {s : State} (hs0 : s0.memOk) :
    Ends State.memOk (fun _ => True) (s0.capTables i b s) := memOk_capTable hs0
theorem State.memOk_PoolBlock_readsTable {b : PoolBlock} {s : State} (hs : s.memOk) :
    (PoolBlock.readsTable b s).memOk := by
  unfold PoolBlock.readsTable
  split
  · exact memOk_readsAt hs
  · exact hs
theorem State.memOk_capWords {s0 s : State} {i : Instr} {a n : Nat} (hs0 : s0.memOk) (hs : s.memOk) :
    Ends State.memOk (fun p => p.2.memOk) (s0.capWords i a n s) := by
  induction n generalizing s a with
  | zero => exact hs
  | succ n ih =>
    unfold State.capWords
    refine Ends.bind (P := fun _ => True) (memOk_capGlob hs0) fun g _ => ?_
    refine Ends.bind (P := fun _ => True) (memOk_capEntry hs0) fun e _ => ?_
    exact Ends.guard (memOk_poisonM hs0) fun _ => (ih (memOk_found hs)).bind fun q hq => hq
theorem State.memOk_capRow {s0 : State} {i : Instr} {b : PoolBlock} {r : Nat} {s : State} (hs0 : s0.memOk) (hs : s.memOk) :
    Ends State.memOk (fun p => p.2.memOk) (s0.capRow i b r s) := by
  unfold State.capRow
  refine (memOk_capWords hs0 hs).bind fun p1 h2 => ?_
  exact h2
theorem State.memOk_capRows {s0 s : State} {i : Instr} {b : PoolBlock} {l : List Nat} (hs0 : s0.memOk) (hs : s.memOk) :
    Ends State.memOk (fun p => p.2.memOk) (s0.capRows i b l s) := by
  induction l generalizing s with
  | nil => exact hs
  | cons w l ih =>
    unfold State.capRows
    exact .ite (fun _ => ih hs) fun _ => (memOk_capRow hs0 hs).bind fun p hp => (ih hp).bind fun q hq => hq
theorem State.memOk_capPutOut {b : PoolBlock} {s : State} {a : Nat} {l : List (List Nat)} (hs : s.memOk) :
    (State.capPutOut b s a l).memOk := by
  induction l generalizing s a with
  | nil => exact hs
  | cons v l ih => exact ih (State.memOk_foldl _ (fun _ _ hz => memOk_putLocalWord hz _ _ _) _ hs)
theorem State.memOk_capPooled {s0 s : State} {i : Instr} {b : PoolBlock} {l : List (List Nat)} (hs0 : s0.memOk) (hs : s.memOk) :
    Ends State.memOk (fun p => p.2.2.memOk) (s0.capPooled i b l s) := by
  induction l generalizing s with
  | nil => exact hs
  | cons g l ih => exact (memOk_capRows hs0 hs).bind fun p hp => (ih hp).bind fun q hq => hq
theorem State.memOk_poolM {s : State} {i : Instr} {h : Hdr} {d a : NameRef} (hs : s.memOk) :
    Ends State.memOk State.memOk (poolM s i h d a) := by
  unfold poolM
  refine (memOk_issue hs).bind fun z1 h1 => ?_
  refine (memOk_read hs h1).bind fun p2 h2 => ?_
  refine Ends.bind (P := fun _ => True) (memOk_portCheck hs) fun _ _ => ?_
  refine Ends.guard (memOk_trapM hs) fun _ => Ends.guard (memOk_trapM hs) fun _ => ?_
  refine (memOk_takeUnit hs h2).bind fun z3 h3 => ?_
  have h0 : (s.withUnit z3).memOk := memOk_withUnit hs
  refine Ends.bind (P := fun p => p.2.memOk) (memOk_capBlock h0 h3) fun p4 h4 => ?_
  have bags {b : PoolBlock} {z : State} (hz : z.memOk) : Ends State.memOk (fun p => p.2.2.2.memOk)
      (if b.listed then (s.withUnit z3).capBags i b.list b.nb z else pure ([], 0, none, z)) :=
    .ite (fun _ => memOk_capBags h0 hz) fun _ => hz
  refine (bags h4).bind fun p5 h5 => ?_
  refine Ends.bind (P := fun _ => True) (memOk_capCheck h0) fun _ _ => ?_
  refine Ends.bind (P := fun _ => True) (memOk_capOut h0) fun _ _ => ?_
  refine Ends.bind (P := fun _ => True) (memOk_capTables h0) fun _ _ => ?_
  refine (memOk_capPooled h0 h5).bind fun p6 h6 => ?_
  exact memOk_undoing (memOk_PoolBlock_readsTable (memOk_await (memOk_leaveUnit (memOk_countN (memOk_countN (memOk_capPutOut h6))))))
theorem State.memOk_capList {s0 : State} {i : Instr} {a : Nat} {b : PoolBlock} {bad : Option Nat} {s : State} (hs0 : s0.memOk) (hs :
    s.memOk) :
    Ends State.memOk (fun p => p.2.memOk) (s0.capList i a b bad s) := by
  unfold State.capList
  refine (memOk_capLocals hs0 hs).bind fun p1 h2 => ?_
  refine (memOk_capCheck hs0).bind fun _ _ => ?_
  exact h2
theorem State.memOk_capGathered {s0 s : State} {i : Instr} {b : PoolBlock} {l : List Nat} (hs0 : s0.memOk) (hs : s.memOk) :
    Ends State.memOk (fun p => p.2.memOk) (s0.capGathered i b l s) := by
  induction l generalizing s with
  | nil => exact hs
  | cons w l ih =>
    unfold State.capGathered
    refine Ends.bind (P := fun p => p.2.memOk) ?_ fun p hp => (ih hp).bind fun q hq => hq
    split
    · exact hs
    · exact (memOk_capRow hs0 hs).bind fun p hp => hp
theorem State.memOk_getM {s : State} {i : Instr} {h : Hdr} {d a : NameRef} (hs : s.memOk) :
    Ends State.memOk State.memOk (getM s i h d a) := by
  unfold getM
  refine (memOk_issue hs).bind fun z1 h2 => ?_
  refine (memOk_read hs h2).bind fun p3 h4 => ?_
  refine (memOk_portCheck hs).bind fun _ _ => ?_
  refine Ends.guard (memOk_trapM hs) fun _ => ?_
  refine Ends.guard (memOk_trapM hs) fun _ => ?_
  refine (memOk_takeUnit hs h4).bind fun z5 h6 => ?_
  refine (memOk_capBlock (memOk_withUnit hs) h6).bind fun p7 h8 => ?_
  refine (memOk_capList (memOk_withUnit hs) h8).bind fun p9 h10 => ?_
  refine (memOk_capOut (memOk_withUnit hs)).bind fun _ _ => ?_
  refine (memOk_capTables (memOk_withUnit hs)).bind fun _ _ => ?_
  refine (memOk_capGathered (memOk_withUnit hs) h10).bind fun p11 h12 => ?_
  exact memOk_undoing (memOk_PoolBlock_readsTable (memOk_await (memOk_leaveUnit (memOk_countN (memOk_capPutOut h12)))))
theorem State.memOk_capPages {s0 s : State} {i : Instr} {b : PoolBlock} {l : List Nat} (hs0 : s0.memOk) :
    Ends State.memOk (fun _ => True) (s0.capPages i b s l) := by
  induction l with
  | nil => exact trivial
  | cons w l ih =>
    unfold State.capPages
    refine .ite (fun _ => ih) fun _ => ?_
    refine Ends.bind (P := fun _ => True) (memOk_capGlob hs0) fun g _ => ?_
    refine Ends.bind (P := fun _ => True) (memOk_capEntry hs0) fun e _ => ?_
    refine Ends.guard (memOk_trapM hs0) fun _ => ?_
    refine Ends.bind (P := fun _ => True) (memOk_capGlob hs0) fun g _ => ?_
    refine Ends.bind (P := fun _ => True) (memOk_capEntry hs0) fun e _ => ?_
    exact Ends.guard (memOk_trapM hs0) fun _ => ih
theorem State.memOk_capWrite {s0 s : State} {i : Instr} {n a : Nat} {bs : List Byte} (hs0 : s0.memOk) (hs : s.memOk) :
    Ends State.memOk State.memOk (s0.capWrite i n a bs s) := by
  induction n generalizing s a bs with
  | zero => exact hs
  | succ n ih =>
    unfold State.capWrite
    refine .ite (fun _ => hs) fun _ => ?_
    refine Ends.bind (P := fun _ => True) (memOk_capGlob hs0) fun g _ => ?_
    refine Ends.bind (P := fun _ => True) (memOk_capEntry hs0) fun e _ => ?_
    exact ih (memOk_durableWrite hs)
theorem State.memOk_capUpdates {s0 s : State} {i : Instr} {b : PoolBlock} {l : List (Nat × List FVal)} (hs0 : s0.memOk) (hs : s.memOk) :
    Ends State.memOk (fun p => p.2.memOk) (s0.capUpdates i b l s) := by
  induction l generalizing s with
  | nil => exact hs
  | cons p l ih =>
    unfold State.capUpdates
    refine .ite (fun _ => ih hs) fun _ => (memOk_capRow hs0 hs).bind fun p hp => ?_
    exact (memOk_capWrite hs0 hp).bind fun z hz => (ih hz).bind fun q hq => hq
theorem State.memOk_putM {s : State} {i : Instr} {h : Hdr} {d a : NameRef} (hs : s.memOk) :
    Ends State.memOk State.memOk (putM s i h d a) := by
  unfold putM
  refine (memOk_issue hs).bind fun z1 h2 => ?_
  refine (memOk_read hs h2).bind fun p3 h4 => ?_
  refine (memOk_portCheck hs).bind fun _ _ => ?_
  refine Ends.guard (memOk_trapM hs) fun _ => ?_
  refine Ends.guard (memOk_trapM hs) fun _ => ?_
  refine (memOk_takeUnit hs h4).bind fun z5 h6 => ?_
  refine (memOk_capBlock (memOk_withUnit hs) h6).bind fun p7 h8 => ?_
  refine (memOk_capList (memOk_withUnit hs) h8).bind fun p9 h10 => ?_
  refine (memOk_capOut (memOk_withUnit hs)).bind fun _ _ => ?_
  refine (memOk_capTables (memOk_withUnit hs)).bind fun _ _ => ?_
  refine (memOk_capLocals (memOk_withUnit hs) h10).bind fun p11 h12 => ?_
  refine (memOk_capPages (memOk_withUnit hs)).bind fun _ _ => ?_
  refine (memOk_capRows (memOk_withUnit hs) h12).bind fun p13 h14 => ?_
  refine (memOk_capUpdates (memOk_withUnit hs) h14).bind fun p15 h16 => ?_
  exact memOk_undoing (memOk_PoolBlock_readsTable (memOk_await (memOk_leaveUnit (memOk_countN (memOk_countN h16)))))
theorem State.memOk_capStatM {s : State} {i : Instr} {h : Hdr} {d a : NameRef} (hs : s.memOk) :
    Ends State.memOk State.memOk (capStatM s i h d a) := by
  unfold capStatM
  refine (memOk_issue hs).bind fun z1 h2 => ?_
  refine (memOk_read hs h2).bind fun p3 h4 => ?_
  refine (memOk_portCheck hs).bind fun _ _ => ?_
  refine Ends.guard (memOk_trapM hs) fun _ => ?_
  exact memOk_await h4
theorem State.memOk_vaultAt {s0 : State} {i : Instr} {kind : Nat} {w : Bool} {v : Int} {s : State} (hs0 : s0.memOk) :
    Ends State.memOk (fun _ => True) (s0.vaultAt i kind w v s) := by
  unfold State.vaultAt
  split
  · refine (memOk_translate hs0).bind fun x4 _ => ?_
    split
    · exact trivial
    · exact memOk_trapM hs0
  · exact memOk_trapM hs0
theorem State.memOk_holdBuf {α : Type} {s0 : State} {i : Instr} {k : Fin 16} {P : α → Prop} (hs0 : s0.memOk) :
    Ends State.memOk P (s0.holdBuf i k) := memOk_hold hs0
theorem State.memOk_setBuffer {s : State} {k : Fin 16} {b : Buffer} (hs : s.memOk) :
    (s.setBuffer k b).memOk := hs
theorem State.memOk_recWords {s0 s : State} {v : Nat} {p : VaultAt} {j n : Nat} (hs0 : s0.memOk) (hs : s.memOk) :
    Ends State.memOk (fun p => p.2.memOk) (s0.recWords v p j n s) := by
  induction n generalizing s j with
  | zero => exact hs
  | succ n ih =>
    unfold State.recWords
    exact Ends.guard (memOk_poisonM hs0) fun _ => (ih (memOk_found hs)).bind fun q hq => hq
theorem State.memOk_recWrite {s : State} {p : VaultAt} {j v : Nat} (hs : s.memOk) :
    (s.recWrite p j v).memOk := memOk_homeWrite hs
theorem State.memOk_pointM {s : State} {i : Instr} {h : Hdr} {d a : NameRef} (hs : s.memOk) :
    Ends State.memOk State.memOk (pointM s i h d a) := by
  unfold pointM
  refine (memOk_issue hs).bind fun z1 h2 => ?_
  refine (memOk_read hs h2).bind fun p3 h4 => ?_
  refine (memOk_portCheck hs).bind fun _ _ => ?_
  refine (memOk_vaultAt hs).bind fun x5 _ => ?_
  refine Ends.guard (memOk_holdBuf hs) fun _ => ?_
  exact memOk_await h4
theorem State.memOk_commitM {s : State} {i : Instr} {h : Hdr} {d a : NameRef} (hs : s.memOk) :
    Ends State.memOk State.memOk (commitM s i h d a) := by
  unfold commitM
  split
  · split
    · exact memOk_hold hs
    · exact memOk_undoing (memOk_await (memOk_setBuffer hs))
  · refine (memOk_issue hs).bind fun z8 h9 => ?_
    refine (memOk_read hs h9).bind fun p10 h11 => ?_
    refine (memOk_portCheck hs).bind fun _ _ => ?_
    refine Ends.guard (memOk_trapM hs) fun _ => ?_
    refine (memOk_vaultAt hs).bind fun x12 _ => ?_
    refine (memOk_fenceOf hs).bind fun _ _ => ?_
    refine Ends.guard (memOk_holdBuf hs) fun _ => ?_
    refine (memOk_recWords hs h11).bind fun p13 h14 => ?_
    refine Ends.guard (memOk_trapM hs) fun _ => ?_
    refine (memOk_recWords hs h14).bind fun p15 h16 => ?_
    exact memOk_undoing (memOk_hold (memOk_setBuffer (memOk_recWrite (memOk_recWrite h16))))
theorem State.memOk_beginM {s : State} {i : Instr} {h : Hdr} {d a b : NameRef} (hs : s.memOk) :
    Ends State.memOk State.memOk (beginM s i h d a b) := by
  unfold beginM
  split
  · split
    · exact memOk_hold hs
    · exact memOk_await (memOk_setBuffer hs)
  · refine (memOk_issue hs).bind fun z8 h9 => ?_
    refine (memOk_read hs h9).bind fun p10 h11 => ?_
    refine (memOk_read hs h11).bind fun p12 h13 => ?_
    refine (memOk_portCheck hs).bind fun _ _ => ?_
    refine Ends.guard (memOk_trapM hs) fun _ => ?_
    refine (memOk_vaultAt hs).bind fun x14 _ => ?_
    refine Ends.guard (memOk_trapM hs) fun _ => ?_
    refine Ends.guard (memOk_holdBuf hs) fun _ => ?_
    refine Ends.guard (memOk_trapM hs) fun _ => ?_
    exact memOk_undoing (memOk_hold (memOk_setBuffer (memOk_recWrite h13)))
theorem State.memOk_scanFound {s : State} {key pa : Nat} (hs : s.memOk) :
    (s.scanFound key pa).memOk := memOk_ite (memOk_found hs) (memOk_found (memOk_found hs))
theorem State.memOk_recScanM {s : State} {i : Instr} {h : Hdr} {d a : NameRef} (hs : s.memOk) :
    Ends State.memOk State.memOk (recScanM s i h d a) := by
  unfold recScanM
  refine (memOk_issue hs).bind fun z1 h2 => ?_
  refine (memOk_read hs h2).bind fun p3 h4 => ?_
  refine (memOk_portCheck hs).bind fun _ _ => ?_
  refine Ends.guard (memOk_trapM hs) fun _ => ?_
  refine (memOk_vaultAt hs).bind fun x5 _ => ?_
  exact memOk_readsAt (memOk_await (memOk_scanFound h4))

end Sys2Proof.Machine
end

section
/-! Memory keeps its canonical form: translation, launches, saves, host commands and devices. One lemma for each meaning, along its definition. -/
namespace Sys2Proof.Machine

theorem State.memOk_execMissRecord {tile idx : Nat} {s : State} (hs : s.memOk) :
    Nexts State.memOk (execMissRecord tile idx s) := by
  unfold execMissRecord
  dsimp only
  split
  · exact trivial
  · refine Nexts.ite (fun _ => trivial) fun _ => ?_
    refine Nexts.ite (fun _ => trivial) fun _ => ?_
    exact memOk_with (memOk_putLocalWord (memOk_putLocalWord (memOk_setTile hs) _ _ _) _ _ _)
theorem State.memOk_engResume {s : State} {tile : Nat} {q : Nat × Nat} {stage : Nat → EngStage} (hs : s.memOk) :
    (s.engResume tile q stage).memOk := by
  unfold State.engResume
  dsimp only
  split
  · split
    · exact memOk_setEngHead hs
    · exact hs
  · exact hs
theorem State.memOk_makeShadow {s : State} {tile : Nat} {q : Nat × Nat} {m : Miss} {e : TEntry} (hs : s.memOk) :
    (s.makeShadow tile q m e).memOk := by
  unfold State.makeShadow
  dsimp only
  split
  · exact hs
  · refine memOk_ite (memOk_engResume hs) (memOk_ite (memOk_engResume hs) (memOk_ite (memOk_engResume hs) ?_))
    split
    · exact memOk_engResume hs
    · exact memOk_engResume (memOk_setCore (memOk_copyFrame (memOk_modContext hs) _ _ _))
theorem State.memOk_missTrap {s : State} {t : ThreadRef} {c : Cause} {v : Word64} (hs : s.memOk) :
    (s.missTrap t c v).memOk := by
  unfold State.missTrap
  split
  · exact memOk_ite (memOk_takeTrap hs) hs
  · exact hs
theorem State.memOk_dropEntries {s : State} {tile ctx cause : Nat} {trap : Nat → Cause × Word64} {seen : List ThreadRef}
    {l : List SideEntry} (hs : s.memOk) : (s.dropEntries tile ctx cause trap seen l).memOk := by
  induction l generalizing s seen with
  | nil => exact hs
  | cons e l ih =>
    refine ih (memOk_discardEntry (memOk_count ?_))
    split
    · exact memOk_settleTail hs
    · exact hs
theorem State.memOk_dropSide {s : State} {tile ctx g cause : Nat} {trap : Nat → Cause × Word64} (hs : s.memOk) :
    (s.dropSide tile ctx g cause trap).memOk := memOk_dropEntries (memOk_setTile hs)
theorem State.memOk_outcome {s : State} {tile kind : Nat} {ans : Nat × Option TEntry} {m : Miss} (hs : s.memOk) :
    (s.outcome tile kind ans m).memOk := by
  unfold State.outcome
  dsimp only
  split
  · split
    · exact memOk_ite (memOk_makeShadow (memOk_setTile hs)) (memOk_engResume (memOk_setTile hs))
    · exact memOk_setTile hs
  · split
    · exact memOk_missTrap hs
    · exact memOk_engResume hs
    · exact hs
  · split
    · exact memOk_missTrap hs
    · exact memOk_engResume hs
    · exact hs
theorem State.memOk_deliverFill {s : State} {id : Nat} (hs : s.memOk) :
    (s.deliverFill id).memOk := by
  unfold State.deliverFill
  dsimp only
  split
  · exact memOk_setFull hs
  · refine memOk_ite ?_ (memOk_ite (memOk_dropSide ?_) (memOk_ite ?_ (memOk_dropSide ?_)))
    · split
      · refine State.memOk_foldl _ ?_ _ (memOk_setTile (memOk_ite (memOk_count (memOk_setFull hs)) (memOk_setFull hs)))
        intro z8 a9 h10
        split
        · exact memOk_engResume h10
        · exact h10
      · exact State.memOk_foldl _ (fun _ _ hz => (memOk_outcome hz)) _ (memOk_setTile (memOk_ite (memOk_count (memOk_setFull hs))
          (memOk_setFull hs)))
    · split
      · refine State.memOk_foldl _ ?_ _ (memOk_setTile (memOk_ite (memOk_count (memOk_setFull hs)) (memOk_setFull hs)))
        intro z20 a21 h22
        split
        · exact memOk_engResume h22
        · exact h22
      · exact State.memOk_foldl _ (fun _ _ hz => (memOk_outcome hz)) _ (memOk_setTile (memOk_ite (memOk_count (memOk_setFull hs))
          (memOk_setFull hs)))
    · split
      · refine State.memOk_foldl _ ?_ _ (memOk_setTile (memOk_ite (memOk_count (memOk_setFull hs)) (memOk_setFull hs)))
        intro z32 a33 h34
        split
        · exact memOk_engResume h34
        · exact h34
      · exact State.memOk_foldl _ (fun _ _ hz => (memOk_outcome hz)) _ (memOk_setTile (memOk_ite (memOk_count (memOk_setFull hs))
          (memOk_setFull hs)))
    · split
      · refine State.memOk_foldl _ ?_ _ (memOk_setTile (memOk_ite (memOk_count (memOk_setFull hs)) (memOk_setFull hs)))
        intro z44 a45 h46
        split
        · exact memOk_engResume h46
        · exact h46
      · exact State.memOk_foldl _ (fun _ _ hz => (memOk_outcome hz)) _ (memOk_setTile (memOk_ite (memOk_count (memOk_setFull hs))
          (memOk_setFull hs)))
theorem State.memOk_hostWrite {s : State} {a : Nat} {bs : List Byte} (hs : s.memOk) :
    (s.hostWrite a bs).memOk := memOk_putBytes hs _ _
theorem State.memOk_modQueue {s : State} {q : Nat} {f : QueuePair → QueuePair} (hs : s.memOk) :
    (s.modQueue q f).memOk := hs
theorem State.memOk_freeQueue {s : State} {q : Nat} (hs : s.memOk) :
    (s.freeQueue q).memOk := memOk_modQueue hs
theorem State.memOk_postEntry {s : State} {q : Nat} {tag : BitVec 32} {status : Nat} {res : Word64} (hs : s.memOk) :
    (s.postEntry q tag status res).memOk := memOk_with (memOk_modQueue (memOk_hostWrite hs))
theorem State.memOk_postDone {s : State} {q : Nat} {tag : BitVec 32} {status : Nat} {res : Word64} (hs : s.memOk) :
    (s.postDone q tag status res).memOk :=
  memOk_with (memOk_postEntry hs)
theorem State.memOk_invalDone {s : State} {id : Nat} {v : Inval} (hs : s.memOk) :
    (s.invalDone id v).memOk := by
  unfold State.invalDone
  dsimp only
  split
  · exact memOk_postDone (memOk_freeQueue hs)
  · exact hs
theorem State.memOk_beginInval {s : State} {v : Inval} (hs : s.memOk) :
    (s.beginInval v).memOk := memOk_ite (memOk_invalDone (memOk_with (memOk_dropReflections (memOk_modContext hs)))) (memOk_with
        (memOk_dropReflections (memOk_modContext hs)))
theorem State.memOk_answer {s : State} {id a res : Nat} {e : Option TEntry} (hs : s.memOk) :
    (s.answer id a res e).memOk := by
  unfold State.answer
  refine memOk_putLocalWord ?_ _ _ _
  split
  · exact memOk_putBytes (memOk_putBytes (memOk_setFull (memOk_setFull hs)) _ _) _ _
  · exact memOk_setFull (memOk_setFull hs)
theorem State.memOk_execFillDeliver {cluster : Nat} {s : State} (hs : s.memOk) :
    Nexts State.memOk (execFillDeliver cluster s) := by
  unfold execFillDeliver
  split
  · exact memOk_deliverFill hs
  · split
    · exact memOk_deliverFill (memOk_answer hs)
    · exact trivial
theorem State.memOk_countLate {s : State} {svc : Nat} (hs : s.memOk) :
    (s.countLate svc).memOk := memOk_putBytes hs _ _
theorem State.memOk_dropRecord {s : State} {id a : Nat} (hs : s.memOk) :
    (s.dropRecord id a).memOk := memOk_setTile (memOk_setFull (memOk_setFull hs))
theorem State.memOk_execHostPageAnswer {cluster : Nat} {answer : PageAnswer} {s : State} (hs : s.memOk) :
    Nexts State.memOk (execHostPageAnswer cluster answer s) := by
  unfold execHostPageAnswer
  dsimp only
  split
  · exact Nexts.ite (fun _ => trivial) fun _ => memOk_beginInval hs
  · refine Nexts.ite (fun _ => trivial) fun _ => ?_
    split
    · exact Nexts.ite (fun _ => trivial) fun _ => memOk_countLate (memOk_with hs)
    · refine Nexts.ite (fun _ => memOk_countLate (memOk_dropRecord hs)) fun _ => ?_
      split
      · exact memOk_deliverFill (memOk_answer hs)
      · exact hs
      · split
        · refine memOk_deliverFill (memOk_answer (State.memOk_foldl _ (fun _ _ hz => memOk_ite hz (memOk_with hz)) _ ?_))
          exact memOk_dropReflections (memOk_modContext hs)
        · refine State.memOk_foldl _ (fun _ _ hz => memOk_ite hz (memOk_with hz)) _ ?_
          exact memOk_dropReflections (memOk_modContext hs)
theorem State.memOk_performRed {s : State} {r : CoreRef} {e : SideEntry} {te : TEntry} {f : RedFn} {n : Nat} {sx : Bool} {v : Int} {x :
    FVal} (hs : s.memOk) :
    (s.performRed r e te f n sx v x).memOk := memOk_ite (memOk_asyncTrap (memOk_found hs)) (memOk_homeWrite (memOk_found hs))
theorem State.memOk_execSidelogReplay {tile : Nat} {s : State} (hs : s.memOk) :
    Nexts State.memOk (execSidelogReplay tile s) := by
  unfold execSidelogReplay
  dsimp only
  split
  · exact trivial
  · split
    · exact memOk_storeMiss hs
    · split
      · exact memOk_dropSide hs
      · split
        · exact memOk_dropSide hs
        · split
          · exact memOk_dropSide hs
          · refine Nexts.ite (fun _ => trivial) fun _ => ?_
            split
            · change State.memOk _
              refine memOk_landStore ?_
              split
              · exact memOk_count (memOk_setTile hs)
              · exact memOk_setTile hs
            · exact memOk_performRed (memOk_setTile hs)
theorem State.memOk_execSoftError {word bits : Nat} {s : State} (hs : s.memOk) :
    Nexts State.memOk (execSoftError word bits s) := by
  unfold execSoftError
  split
  · exact memOk_ite hs (memOk_setThread hs)
  · refine Nexts.ite (fun _ => trivial) fun _ => ?_
    exact memOk_ite hs hs
theorem State.memOk_scrubbed {s : State} {k n : Nat} (hs : s.memOk) :
    (s.scrubbed k n).memOk := State.memOk_foldl _ (fun _ _ hz => (memOk_faultRecord hz)) _ (State.memOk_foldl _ (fun _ _ hz =>
        (memOk_bufError hz)) _ hs)
theorem State.memOk_execPatrolScrub {word : Nat} {s : State} (hs : s.memOk) :
    Nexts State.memOk (execPatrolScrub word s) := by
  unfold execPatrolScrub
  refine Nexts.ite (fun _ => trivial) fun _ => ?_
  exact memOk_scrubbed hs
theorem State.memOk_complete {s : State} {c : Command} {status res : Nat} (hs : s.memOk) :
    (s.complete c status res).memOk := memOk_postDone (memOk_freeQueue hs)
theorem State.memOk_writeImage {s : State} {tile lvl : Nat} {im : Image} {block : List Byte} (hs : s.memOk) :
    (s.writeImage tile lvl im block).memOk := memOk_fillLocal hs _ _ _
theorem State.memOk_execLaunch {cmd : Command} {s : State} (hs : s.memOk) :
    Nexts State.memOk (execLaunch cmd s) := by
  unfold execLaunch
  split
  · exact memOk_complete hs
  · exact memOk_with (memOk_modContext hs)
theorem State.memOk_loadKernel {s : State} {g : Gang} {tile pos : Nat} {rows : List Nat} (hs : s.memOk) :
    (s.loadKernel g tile pos rows).memOk := by
  unfold State.loadKernel
  split
  · split
    · exact memOk_modGang (memOk_setCore hs)
    · exact hs
  · exact hs
theorem State.memOk_claimRows {s : State} {r : CoreRef} {g : Gang} {pos : Nat} (hs : s.memOk) :
    (s.claimRows r g pos).memOk := by
  unfold State.claimRows
  split
  · exact hs
  · exact memOk_ite (memOk_loadKernel (memOk_ite hs (memOk_modGang (memOk_setCore hs)))) (memOk_ite hs (memOk_modGang (memOk_setCore hs)))
theorem State.memOk_settleNames {s : State} {r : CoreRef} (hs : s.memOk) :
    (s.settleNames r).memOk := memOk_setCore hs
theorem State.memOk_loadCore {s : State} {r : CoreRef} (hs : s.memOk) :
    (s.loadCore r).memOk := memOk_settleNames (State.memOk_foldl _ (fun _ _ hz => (State.memOk_foldl _ (fun _ _ hz => (memOk_claimRows
        hz)) _ hz)) _ hs)
theorem State.memOk_loadTile {s : State} {tile : Nat} (hs : s.memOk) :
    (s.loadTile tile).memOk := by
  unfold State.loadTile
  refine memOk_ite hs ?_
  split
  · exact hs
  · refine memOk_ite (memOk_modGang (memOk_setTile hs)) ?_
    split
    · dsimp only
      split
      · exact memOk_writeImage (memOk_modGang (memOk_setTile hs))
      · exact memOk_modGang (memOk_setTile hs)
    · exact memOk_modGang (memOk_setTile hs)
theorem State.memOk_loadGang {s : State} {g : Gang} (hs : s.memOk) :
    (s.loadGang g).memOk := State.memOk_foldl _ (fun _ _ hz => (memOk_loadTile (State.memOk_foldl _ (fun _ _ hz => (memOk_loadCore hz)) _
        hz))) _ hs
theorem State.memOk_execBindRecordWrite {lid : BitVec 64} {place : Place} {s : State} (hs : s.memOk) :
    Nexts State.memOk (execBindRecordWrite lid place s) := by
  unfold execBindRecordWrite
  split
  · exact trivial
  · dsimp only
    split
    · refine Nexts.ite (fun _ => trivial) fun _ => ?_
      exact memOk_loadGang hs
    · split
      · exact trivial
      · exact memOk_loadGang (memOk_with (memOk_ite (memOk_freeQueue (memOk_modLaunch (memOk_modContext hs))) (memOk_modLaunch
          (memOk_modContext hs))))
theorem State.memOk_freeSlots {s : State} {ctx : Nat} {l : List Nat} (hs : s.memOk) :
    (s.freeSlots ctx l).memOk := memOk_modContext hs
theorem State.memOk_execLeaseRowRelease {k : CoreRef} {s : State} (hs : s.memOk) :
    Nexts State.memOk (execLeaseRowRelease k s) := by
  unfold execLeaseRowRelease
  dsimp only
  split
  · exact trivial
  · exact memOk_loadCore (memOk_ite (memOk_setCore hs) (memOk_modGang (memOk_freeSlots (memOk_setCore hs))))
theorem State.memOk_settlePre {s : State} {lid : Word64} (hs : s.memOk) :
    (s.settlePre lid).memOk := by
  unfold State.settlePre
  split
  · refine memOk_ite hs (State.memOk_foldl _ ?_ _ (memOk_modLaunch hs))
    intro z4 a5 h6
    split
    · exact memOk_postDone (memOk_freeQueue h6)
    · exact memOk_postDone (memOk_freeQueue h6)
  · exact hs
theorem State.memOk_execImageRelease {tile : Nat} {s : State} (hs : s.memOk) :
    Nexts State.memOk (execImageRelease tile s) := by
  unfold execImageRelease
  dsimp only
  split
  · exact trivial
  · split
    · exact trivial
    · refine Nexts.ite (fun _ => trivial) fun _ => ?_
      exact memOk_loadTile (memOk_ite (memOk_setTile hs) (memOk_settlePre (memOk_with (memOk_setTile hs))))
theorem State.memOk_takeWord {s : State} {lid : Word64} {num kern : Nat} {w : Word64} (hs : s.memOk) :
    (s.takeWord lid num kern w).memOk := memOk_modLaunch hs
theorem State.memOk_cpRestarted {s : State} {d : Nat} (hs : s.memOk) :
    Nexts State.memOk (s.cpRestarted d) := by
  unfold State.cpRestarted
  refine Nexts.ite (fun _ => ?_) fun _ => trivial
  change State.memOk _
  refine State.memOk_foldl _ ?_ _ hs
  intro z1 a2 h3
  split
  · exact memOk_takeWord h3
  · exact h3
theorem State.memOk_execStatusWordArrive {tile kern : Nat} {s : State} (hs : s.memOk) :
    Nexts State.memOk (execStatusWordArrive tile kern s) := by
  unfold execStatusWordArrive
  dsimp only
  split
  · exact trivial
  · split
    · split
      · split
        · exact memOk_takeWord hs
        · refine Nexts.ite (fun _ => ?_) fun _ => trivial
          exact hs
      · exact hs
    · split
      · exact hs
      · exact memOk_sendWords (memOk_setTile hs)
theorem State.memOk_execLaunchComplete {lid : BitVec 64} {s : State} (hs : s.memOk) :
    Nexts State.memOk (execLaunchComplete lid s) := by
  unfold execLaunchComplete
  split
  · exact trivial
  · refine Nexts.ite (fun _ => trivial) fun _ => ?_
    split
    · exact memOk_freeQueue (memOk_postDone (memOk_modLaunch hs))
    · refine Nexts.ite (fun _ => ?_) fun _ => trivial
      exact memOk_postDone (memOk_modLaunch hs)
theorem State.memOk_setStates {s : State} {ts : List ThreadRef} {a b : TState} (hs : s.memOk) :
    (s.setStates ts a b).memOk := State.memOk_foldl _ (fun _ _ hz => (memOk_ite (memOk_setThread hz) hz)) _ hs
theorem State.memOk_discardSide {s : State} {tile : Nat} {l : List SideEntry} (hs : s.memOk) :
    (s.discardSide tile l).memOk := State.memOk_foldl _ (fun _ _ hz => (memOk_discardEntry (memOk_count hz))) _ hs
theorem State.memOk_dropNode {s : State} {lid : Word64} {tile : Nat} (hs : s.memOk) :
    (s.dropNode lid tile).memOk := State.memOk_foldl _ (fun _ _ hz => (memOk_dropShadows hz)) _ (memOk_discardSide (memOk_setTile hs))
theorem State.memOk_freeGang {s : State} {g : Gang} (hs : s.memOk) :
    (s.freeGang g).memOk := memOk_freeSlots hs
theorem State.memOk_dropSaved {s : State} {lid : Word64} (hs : s.memOk) :
    (s.dropSaved lid).memOk := State.memOk_foldl _ (fun _ _ hz => (memOk_freeGang (State.memOk_foldl _ (fun _ _ hz => (State.memOk_foldl _
        (fun _ _ hz => (memOk_poolAdd hz)) _ (memOk_discardSide hz))) _ hz))) _ hs
theorem State.memOk_execContainNode {lid : BitVec 64} {s : State} (hs : s.memOk) :
    Nexts State.memOk (execContainNode lid s) := by
  unfold execContainNode
  split
  · exact trivial
  · refine Nexts.ite (fun _ => trivial) fun _ => ?_
    exact memOk_settlePre (State.memOk_foldl _ (fun _ _ hz => (State.memOk_foldl _ (fun _ _ hz => (memOk_loadTile (State.memOk_foldl _
        (fun _ _ hz => (memOk_loadCore hz)) _ hz))) _ hz)) _ (memOk_with (State.memOk_foldl _ (fun _ _ hz => (memOk_with (memOk_freeGang
        (State.memOk_foldl _ (fun _ _ hz => (memOk_setTile hz)) _ (State.memOk_foldl _ (fun _ _ hz => (State.memOk_foldl _ (fun _ _ hz =>
        (memOk_ite (memOk_dropShadows hz) hz)) _ hz)) _ hz))))) _ (memOk_dropSaved (State.memOk_foldl _ (fun _ _ hz => (memOk_dropNode
        hz)) _ hs)))))
theorem State.memOk_putBlocks {ctx va n : Nat} {s : State} {bs : List Byte} (hs : s.memOk) : (State.putBlocks ctx s va n bs).memOk := by
  induction n generalizing s va bs with
  | zero => exact hs
  | succ n ih => exact ih (memOk_putBlock hs _ _ _)
theorem State.memOk_saveGang {s : State} {g : Gang} {coop : Bool} {froze : Nat} {states : List (ThreadRef × TState)} (hs : s.memOk) :
    (s.saveGang g coop froze states).memOk := memOk_settlePre (State.memOk_foldl _ (fun _ _ hz => (memOk_loadTile (State.memOk_foldl _
        (fun _ _ hz => (memOk_loadCore hz)) _ hz))) _ (memOk_with (State.memOk_foldl _ (fun _ _ hz => (memOk_setTile hz)) _
        (State.memOk_foldl _ (fun _ _ hz => (memOk_putBlocks hz)) _ (memOk_putBlocks hs)))))
theorem State.memOk_execCoopSave {gang : Nat} {s : State} (hs : s.memOk) :
    Nexts State.memOk (execCoopSave gang s) := by
  unfold execCoopSave
  split
  · exact trivial
  · split
    · exact trivial
    · refine Nexts.ite (fun _ => trivial) fun _ => ?_
      exact State.memOk_foldl _ (fun _ _ hz => (memOk_saveGang hz)) _ hs
theorem State.memOk_forceSave {s : State} {ms : List Gang} (hs : s.memOk) :
    (s.forceSave ms).memOk := State.memOk_foldl _ (fun _ _ hz => (memOk_modGang hz)) _ hs
theorem State.memOk_execPreemptTimeout {gang : Nat} {s : State} (hs : s.memOk) :
    Nexts State.memOk (execPreemptTimeout gang s) := by
  unfold execPreemptTimeout
  split
  · exact trivial
  · split
    · exact trivial
    · refine Nexts.ite (fun _ => ?_) fun _ => trivial
      exact memOk_forceSave hs
theorem State.memOk_execRequestWithdrawn {gang : Nat} {s : State} (hs : s.memOk) :
    Nexts State.memOk (execRequestWithdrawn gang s) := by
  unfold execRequestWithdrawn
  split
  · exact trivial
  · split
    · refine Nexts.ite (fun _ => trivial) fun _ => ?_
      exact memOk_setStates (memOk_modGang hs)
    · exact trivial
theorem State.memOk_freeze {s : State} {g : Gang} (hs : s.memOk) :
    (s.freeze g).memOk := memOk_modGang (State.memOk_foldl _ (fun _ _ hz => (memOk_setTile hz)) _ (State.memOk_foldl _ (fun _ _ hz =>
        (memOk_setThread hz)) _ hs))
theorem State.memOk_unaskSums {s : State} {tile : Nat} {lv : BarLevel} (hs : s.memOk) :
    (s.unaskSums tile lv).memOk := by
  unfold State.unaskSums
  split
  · exact memOk_setTile hs
  · split
    · exact memOk_modGang hs
    · exact hs
theorem State.memOk_settleThread {s : State} {t : ThreadRef} (hs : s.memOk) : (s.settleThread t).memOk := by
  have h1 : State.memOk (({ s with cur := t }).setThread t { s.thread t with st := .waiting }) := hs
  unfold State.settleThread
  dsimp only
  split
  · exact hs
  · split
    · split
      · split
        · next he => exact memOk_setThread (memOk_with ((memOk_arriveM h1).finish.of_next he))
        · exact hs
        · exact hs
      · exact memOk_setThread hs
    · split
      · split
        · next he => exact memOk_setThread (memOk_with ((memOk_barStatM h1).finish.of_next he))
        · exact hs
        · exact hs
      · exact memOk_unaskSums (memOk_giveBack (memOk_setThread hs))
    · exact memOk_giveBack hs
theorem State.memOk_saveFrozen {s : State} {ms : List Gang} {froze : Nat} (hs : s.memOk) :
    (s.saveFrozen ms froze).memOk := by
  unfold State.saveFrozen
  refine State.memOk_foldl _ ?_ _ (State.memOk_foldl _ (fun _ _ hz => (memOk_settleThread hz)) _ hs)
  intro z1 a2 h3
  split
  · exact memOk_saveGang h3
  · exact h3
theorem State.memOk_execForcedSave {gang : Nat} {s : State} (hs : s.memOk) :
    Nexts State.memOk (execForcedSave gang s) := by
  unfold execForcedSave
  split
  · exact trivial
  · split
    · exact trivial
    · refine Nexts.ite (fun _ => trivial) fun _ => ?_
      split
      · refine Nexts.ite (fun _ => ?_) fun _ => trivial
        exact State.memOk_foldl _ (fun _ _ hz => (memOk_freeze hz)) _ hs
      · refine Nexts.ite (fun _ => trivial) fun _ => ?_
        exact memOk_saveFrozen hs
theorem State.memOk_restoreTile {s : State} {v : Saved} {g : Gang} {l : Option Launch} {im : Option Image} {i k : Nat} {move : Nat → Nat}
    (hs : s.memOk) :
    (s.restoreTile v g l im i k move).memOk := by
  unfold State.restoreTile
  refine memOk_setTile (memOk_ite (State.memOk_foldl _ (fun _ _ hz => (memOk_setPoison (memOk_setFull (memOk_putBytes hz _ _)))) _ ?_)
      (memOk_with (memOk_fillLocal hs _ _ _)))
  split
  · dsimp only
    split
    · exact memOk_writeImage hs
    · exact hs
  · exact hs
theorem State.memOk_restoreGang {s : State} {v : Saved} {g : Gang} (hs : s.memOk) : (s.restoreGang v g).memOk := by
  have redirected {z : State} (l : List ThreadRef) (hz : z.memOk) : (l.foldl (fun (z : State) t =>
      if (z.thread t).st = .ready ∧ (z.thread t).vg ≠ .attached then z.redirect t (z.thread t).pc else z) z).memOk := by
    refine State.memOk_foldl _ (fun z t hz => ?_) _ hz
    split
    · exact memOk_redirect hz
    · exact hz
  refine memOk_with (redirected (s.gangThreads g.id) ?_)
  exact memOk_with (memOk_modGang (State.memOk_foldl _ (fun _ _ hz => memOk_restoreTile hz) _ hs))
theorem State.memOk_settleRes {s : State} {lid : Word64} (hs : s.memOk) :
    (s.settleRes lid).memOk := by
  unfold State.settleRes
  split
  · split
    · exact memOk_ite hs (memOk_postDone (memOk_freeQueue (memOk_modLaunch hs)))
    · exact hs
  · exact hs
theorem State.memOk_execGangStart {die slot : Nat} {s : State} (hs : s.memOk) :
    Nexts State.memOk (execGangStart die slot s) := by
  unfold execGangStart
  dsimp only
  split
  · exact trivial
  · refine Nexts.ite (fun _ => trivial) fun _ => ?_
    split
    · exact memOk_setStates (memOk_modGang hs)
    · refine Nexts.ite (fun _ => trivial) fun _ => ?_
      change State.memOk _
      refine memOk_settleRes (memOk_with (State.memOk_foldl _ ?_ _ hs))
      intro z11 a12 h13
      split
      · exact memOk_restoreGang h13
      · exact h13
theorem State.memOk_setLimits {s : State} {gs : List Gang} (hs : s.memOk) :
    (s.setLimits gs).memOk := by
  unfold State.setLimits
  refine State.memOk_foldl _ ?_ _ hs
  intro z1 a2 h3
  split
  · exact State.memOk_foldl _ (fun _ _ hz => (memOk_setThread hz)) _ h3
  · exact h3
theorem State.memOk_execPreempt {cmd : Command} {s : State} (hs : s.memOk) :
    Nexts State.memOk (execPreempt cmd s) := by
  unfold execPreempt
  dsimp only
  split
  · exact memOk_complete hs
  · split
    · exact memOk_complete hs
    · split
      · exact memOk_complete hs
      · exact memOk_ite (memOk_setLimits (memOk_with (memOk_modLaunch hs))) (memOk_with (memOk_modLaunch hs))
theorem State.memOk_execResume {cmd : Command} {s : State} (hs : s.memOk) :
    Nexts State.memOk (execResume cmd s) := by
  unfold execResume
  split
  · exact memOk_complete hs
  · split
    · exact memOk_complete hs
    · exact memOk_with (memOk_modLaunch hs)
theorem State.memOk_execIdent {cmd : Command} {s : State} (hs : s.memOk) :
    Nexts State.memOk (execIdent cmd s) := by
  unfold execIdent
  dsimp only
  split
  · exact memOk_complete hs
  · exact memOk_complete (memOk_hostWrite hs)
theorem State.memOk_execAttest {cmd : Command} {s : State} (hs : s.memOk) :
    Nexts State.memOk (execAttest cmd s) := by
  unfold execAttest
  dsimp only
  split
  · exact memOk_complete hs
  · exact memOk_complete (memOk_with (memOk_hostWrite hs))
theorem State.memOk_copyFar {s : State} {pages : List TEntry} {bs : List Byte} {holes : List Nat} (hs : s.memOk) :
    (s.copyFar pages bs holes).memOk :=
  State.memOk_foldl _ (fun _ _ hz => memOk_with (memOk_putBytes hz _ _)) _ hs
theorem State.memOk_loadOf {s : State} {b : List Byte} {p : Image × State} (hs : s.memOk) (hp : s.loadOf b = .ok p) : p.2.memOk := by
  unfold State.loadOf at hp
  split at hp
  · cases hp
  · split at hp
    · cases hp
    · split at hp
      · cases hp
      · split at hp <;> cases hp
        exact memOk_copyFar (memOk_copyFar hs)
theorem State.memOk_execLoad {cmd : Command} {s : State} (hs : s.memOk) : Nexts State.memOk (execLoad cmd s) := by
  unfold execLoad
  refine Nexts.ite (fun _ => memOk_complete hs) fun _ => ?_
  dsimp only
  split
  · exact memOk_complete hs
  · next im t he =>
    have ht : t.memOk := memOk_loadOf hs he
    exact memOk_complete (memOk_with ht)
theorem State.memOk_execUnload {cmd : Command} {s : State} (hs : s.memOk) :
    Nexts State.memOk (execUnload cmd s) := by
  unfold execUnload
  dsimp only
  split
  · exact memOk_complete hs
  · split
    · exact memOk_complete hs
    · split
      · exact memOk_complete hs
      · exact memOk_complete hs
theorem State.memOk_dropSpans {s : State} {l : List (Nat × Nat)} (hs : s.memOk) :
    (s.dropSpans l).memOk := hs
theorem State.memOk_execFrset {cmd : Command} {s : State} (hs : s.memOk) :
    Nexts State.memOk (execFrset cmd s) := by
  unfold execFrset
  dsimp only
  split
  · exact memOk_complete (memOk_with (memOk_dropSpans hs))
  · exact memOk_complete hs
theorem State.memOk_execKeyload {cmd : Command} {s : State} (hs : s.memOk) :
    Nexts State.memOk (execKeyload cmd s) := by
  unfold execKeyload
  dsimp only
  split
  · exact memOk_complete hs
  · exact memOk_complete hs
theorem State.memOk_execVaultset {cmd : Command} {s : State} (hs : s.memOk) :
    Nexts State.memOk (execVaultset cmd s) := by
  unfold execVaultset
  dsimp only
  split
  · exact memOk_complete hs
  · split
    · exact memOk_complete hs
    · split
      · exact memOk_complete hs
      · exact memOk_complete hs
theorem State.memOk_movePoint {s z : State} {k : Fin 16} {off : Nat} (hs : s.memOk) (hz : s.movePoint k off = some z) : z.memOk := by
  obtain ⟨p, -, rfl⟩ := Option.map_eq_some_iff.1 hz
  exact hs
theorem State.memOk_execReplay {cmd : Command} {s : State} (hs : s.memOk) : Nexts State.memOk (execReplay cmd s) := by
  unfold execReplay
  refine Nexts.ite (fun _ => memOk_complete hs) fun _ => Nexts.ite (fun _ => memOk_complete hs) fun _ =>
    Nexts.ite (fun _ => memOk_complete hs) fun _ => ?_
  split
  · exact memOk_complete hs
  · next z he =>
    have hz : z.memOk := by
      split at he
      · exact memOk_movePoint hs he
      · cases he; exact hs
    exact memOk_complete (memOk_hostWrite (memOk_with hz))
theorem State.memOk_execRoute {cmd : Command} {s : State} (hs : s.memOk) : Nexts State.memOk (execRoute cmd s) := by
  unfold execRoute
  dsimp only
  split
  · exact memOk_complete hs
  · split
    · exact memOk_complete hs
    · generalize hostOk _ _ = b
      split
      · exact memOk_complete hs
      · exact memOk_complete (memOk_with hs)
theorem State.memOk_execExportCmd {cmd : Command} {s : State} (hs : s.memOk) :
    Nexts State.memOk (execExportCmd cmd s) := by
  unfold execExportCmd
  dsimp only
  split
  · exact memOk_complete hs
  · split
    · exact memOk_complete hs
    · split
      · split
        · exact memOk_complete hs
        · exact memOk_complete hs
      · exact memOk_complete hs
theorem State.memOk_execCtxnew {cmd : Command} {s : State} (hs : s.memOk) :
    Nexts State.memOk (execCtxnew cmd s) := by
  unfold execCtxnew
  split
  · exact memOk_complete hs
  · exact memOk_complete (memOk_with (State.memOk_foldl _ (fun _ _ hz => (memOk_durableWrite hz)) _ (State.memOk_foldl _ (fun _ _ hz =>
      (memOk_zeroRange hz _ _)) _ hs)))
theorem State.memOk_execCtxend {cmd : Command} {s : State} (hs : s.memOk) :
    Nexts State.memOk (execCtxend cmd s) := by
  unfold execCtxend
  dsimp only
  split
  · exact memOk_complete hs
  · split
    · exact memOk_complete hs
    · split
      · exact memOk_complete hs
      · exact memOk_complete hs
theorem State.memOk_execInval {cmd : Command} {s : State} (hs : s.memOk) :
    Nexts State.memOk (execInval cmd s) := by
  unfold execInval
  dsimp only
  split
  · exact memOk_complete hs
  · split
    · exact memOk_complete hs
    · exact memOk_beginInval hs
theorem State.memOk_execTileInvalAck {tile : Nat} {s : State} (hs : s.memOk) :
    Nexts State.memOk (execTileInvalAck tile s) := by
  unfold execTileInvalAck
  split
  · exact trivial
  · refine Nexts.ite (fun _ => trivial) fun _ => ?_
    exact memOk_ite (memOk_invalDone (memOk_setTile hs)) (memOk_with (memOk_setTile hs))
theorem State.memOk_putAth {s : State} {w : Nat} (hs : s.memOk) :
    (s.putAth w).memOk := memOk_ite hs hs
theorem State.memOk_execPwrset {cmd : Command} {s : State} (hs : s.memOk) :
    Nexts State.memOk (execPwrset cmd s) := by
  unfold execPwrset
  dsimp only
  split
  · exact memOk_complete hs
  · exact memOk_complete (memOk_putAth (memOk_ite hs hs))
theorem State.memOk_takeFaults {s : State} {l : List Nat} {n : Nat} (hs : s.memOk) : (State.takeFaults s l n).2.memOk := by
  induction l generalizing s n with
  | nil => exact hs
  | cons id l ih =>
    unfold State.takeFaults
    exact ih (memOk_with (State.memOk_foldl _ (fun _ _ hz => memOk_setFull (memOk_setFull hz)) _ hs))
theorem State.memOk_sealReport {s z : State} {cmd : Command} (hs : s.memOk) (hz : s.sealReport cmd = .ok z) : z.memOk := by
  unfold State.sealReport at hz
  dsimp only at hz
  split at hz
  · cases hz; exact hs
  · split at hz
    · cases hz
    · split at hz <;> cases hz
      exact memOk_hostWrite hs
theorem State.memOk_alertReport {s z : State} {cmd : Command} (hs : s.memOk) (hz : s.alertReport cmd = .ok z) : z.memOk := by
  unfold State.alertReport at hz
  dsimp only at hz
  split at hz
  · cases hz; exact hs
  · split at hz <;> cases hz
    exact memOk_hostWrite hs
theorem State.memOk_execFaults {cmd : Command} {s : State} (hs : s.memOk) : Nexts State.memOk (execFaults cmd s) := by
  have ht := memOk_takeFaults (l := (List.range 20).map (fun c => c) ++ (List.range 20).map fun c => 32 + c) (n := hostArg cmd 2) hs
  unfold execFaults
  dsimp only
  generalize State.takeFaults s _ _ = p at ht ⊢
  refine Nexts.ite (fun _ => memOk_complete hs) fun _ => ?_
  split
  · next he =>
    cases h1 : (p.2.hostWrite (hostArg cmd 1) p.1).sealReport cmd with
    | error st => rw [h1] at he; cases he
    | ok z1 =>
      rw [h1] at he
      exact memOk_complete (memOk_alertReport (memOk_sealReport (memOk_hostWrite ht) h1) he)
  · exact memOk_complete hs
theorem State.memOk_execFwload {cmd : Command} {s : State} (hs : s.memOk) :
    Nexts State.memOk (execFwload cmd s) := by
  unfold execFwload
  dsimp only
  split
  · exact memOk_complete hs
  · split
    · exact memOk_complete hs
    · exact memOk_complete hs
theorem State.memOk_resetInto {s : State} {slot : Bool} (hs : s.memOk) :
    (s.resetInto slot).memOk := memOk_with (memOk_resetDies hs)
theorem State.memOk_execFwact {cmd : Command} {s : State} (hs : s.memOk) :
    Nexts State.memOk (execFwact cmd s) := by
  unfold execFwact
  split
  · exact memOk_complete hs
  · exact memOk_resetInto hs
theorem State.memOk_execQueueCommandTake {q : Nat} {s : State} (hs : s.memOk) :
    Nexts State.memOk (execQueueCommandTake q s) := by
  unfold execQueueCommandTake
  split
  · exact trivial
  · refine Nexts.ite (fun _ => trivial) fun _ => ?_
    dsimp only
    split
    · exact memOk_with (memOk_modQueue hs)
    · exact memOk_complete (memOk_with (memOk_modQueue hs))
theorem State.memOk_execQstailDoorbell {q : Nat} {v : BitVec 64} {s : State} (hs : s.memOk) :
    Nexts State.memOk (execQstailDoorbell q v s) := by
  unfold execQstailDoorbell
  refine Nexts.ite (fun _ => ?_) fun _ => trivial
  exact memOk_modQueue hs
theorem State.memOk_execQcheadWrite {q : Nat} {v : BitVec 64} {s : State} (hs : s.memOk) :
    Nexts State.memOk (execQcheadWrite q v s) := by
  unfold execQcheadWrite
  refine Nexts.ite (fun _ => ?_) fun _ => trivial
  exact memOk_modQueue hs
theorem State.memOk_refill {s : State} {t : ThreadRef} {n : Nat} (hs : s.memOk) :
    (s.refill t n).memOk := memOk_found (memOk_countCode (memOk_setThread hs))
theorem State.memOk_useSlot {s : State} {t : ThreadRef} (hs : s.memOk) :
    (s.useSlot t).memOk := memOk_setCore hs
theorem State.memOk_execHbmAlert {stack bank row : Nat} {s : State} (hs : s.memOk) :
    Nexts State.memOk (execHbmAlert stack bank row s) := by
  unfold execHbmAlert
  split
  · refine Nexts.ite (fun _ => trivial) fun _ => ?_
    refine Nexts.ite (fun _ => trivial) fun _ => ?_
    exact hs
  · exact trivial
theorem State.memOk_execHbmBackoffEnd {stack bank : Nat} {s : State} (hs : s.memOk) :
    Nexts State.memOk (execHbmBackoffEnd stack bank s) := by
  unfold execHbmBackoffEnd
  split
  · refine Nexts.ite (fun _ => trivial) fun _ => ?_
    exact hs
  · exact trivial
theorem State.memOk_execHbmRefresh {stack bank row : Nat} {s : State} (hs : s.memOk) :
    Nexts State.memOk (execHbmRefresh stack bank row s) := by
  unfold execHbmRefresh
  refine Nexts.ite (fun _ => ?_) fun _ => trivial
  exact hs
theorem State.memOk_execWsRefresh {die bank : Nat} {s : State} (hs : s.memOk) :
    Nexts State.memOk (execWsRefresh die bank s) := by
  unfold execWsRefresh
  refine Nexts.ite (fun _ => ?_) fun _ => trivial
  exact hs
theorem State.memOk_execWeightStoreWrite {die region : Nat} {phase : WsPhase} {s : State} (hs : s.memOk) :
    Nexts State.memOk (execWeightStoreWrite die region phase s) := by
  unfold execWeightStoreWrite
  refine Nexts.ite (fun _ => trivial) fun _ => ?_
  split
  · refine Nexts.ite (fun _ => trivial) fun _ => ?_
    exact hs
  · refine Nexts.ite (fun _ => trivial) fun _ => ?_
    exact memOk_putBytes hs _ _
  · refine Nexts.ite (fun _ => trivial) fun _ => ?_
    exact hs
theorem State.memOk_hostStore {s : State} {pa : Nat} {bs : List Byte} (hs : s.memOk) :
    (s.hostStore pa bs).memOk := State.memOk_foldl _ (fun _ _ hz => (memOk_durableWrite hz)) _ hs
theorem State.memOk_readAside {s : State} {pa n : Nat} (hs : s.memOk) :
    (s.readAside pa n).memOk := State.memOk_foldl _ (fun _ _ hz => (memOk_activate (memOk_scrubbed hz))) _ hs
theorem State.memOk_execHostMemAccess {acc : HostAccess} {s : State} (hs : s.memOk) :
    Nexts State.memOk (execHostMemAccess acc s) := by
  unfold execHostMemAccess
  refine Nexts.ite (fun _ => trivial) fun _ => ?_
  refine Nexts.ite (fun _ => trivial) fun _ => ?_
  exact memOk_ite (memOk_hostStore hs) (memOk_readAside hs)
theorem State.memOk_putCommit {s : State} {v : Word64} (hs : s.memOk) :
    (s.putCommit v).memOk := memOk_ite hs hs
theorem State.memOk_execHostRegisterWrite {off : Nat} {v : BitVec 64} {s : State} (hs : s.memOk) :
    Nexts State.memOk (execHostRegisterWrite off v s) := by
  unfold execHostRegisterWrite
  refine Nexts.ite (fun _ => trivial) fun _ => ?_
  split
  · exact memOk_modQueue hs
  · split
    · exact memOk_putCommit hs
    · exact hs
theorem State.memOk_execFwWatchdogExpire {s : State} (hs : s.memOk) :
    Nexts State.memOk (execFwWatchdogExpire s) := by
  unfold execFwWatchdogExpire
  refine Nexts.ite (fun _ => ?_) fun _ => trivial
  exact memOk_resetInto hs
theorem State.memOk_execCpLockstepReset {die : Nat} {s : State} (hs : s.memOk) :
    Nexts State.memOk (execCpLockstepReset die s) := by
  unfold execCpLockstepReset
  split
  · exact hs
  · exact trivial
theorem State.memOk_peerStore {s : State} {key pa : Nat} {bs : List Byte} (hs : s.memOk) :
    (s.peerStore key pa bs).memOk := State.memOk_foldl _ (fun _ _ hz => (memOk_homeWrite hz)) _ hs
theorem State.memOk_peerFe {s : State} {key pa : Nat} {f : PeerFe} (hs : s.memOk) : (s.peerFe key pa f).memOk := by
  cases f with
  | ldf | tst => exact hs
  | ldk | clr => exact memOk_setFull hs
  | stf v | sto v => exact memOk_setFull (memOk_peerStore hs)
theorem State.memOk_execPeerRequest {req : PeerReq} {s : State} (hs : s.memOk) :
    Nexts State.memOk (execPeerRequest req s) := by
  unfold execPeerRequest
  refine Nexts.ite (fun _ => trivial) fun _ => ?_
  split
  · split
    · exact memOk_readAside hs
    · exact hs
  · split
    · exact memOk_peerStore hs
    · exact hs
  · split
    · split
      · exact hs
      · exact memOk_peerStore hs
    · exact hs
  · split
    · split
      · exact hs
      · split
        · exact memOk_peerStore (memOk_readAside hs)
        · exact memOk_readAside hs
    · exact hs
  · split
    · split
      · exact hs
      · refine Nexts.ite (fun _ => trivial) fun _ => ?_
        split
        · exact hs
        · exact memOk_peerFe (memOk_ite (memOk_readAside hs) hs)
    · exact hs
theorem State.memOk_dropOverdue {s z : State} {t : ThreadRef} (hs : s.memOk) (hz : s.dropOverdue t = some z) : z.memOk := by
  unfold State.dropOverdue at hz
  dsimp only at hz
  split at hz
  · cases hz
    exact memOk_dropSide (memOk_count (memOk_setTile (memOk_setCore hs)))
  · obtain ⟨e, -, rfl⟩ := Option.map_eq_some_iff.1 hz
    exact memOk_dropSide hs
theorem State.memOk_endOverdue {s z : State} {t : ThreadRef} (hs : s.memOk) (hz : s.endOverdue t = some z) : z.memOk := by
  unfold State.endOverdue at hz
  obtain ⟨e, -, he⟩ := List.exists_of_findSome?_eq_some hz
  obtain ⟨q, -, hq⟩ := List.exists_of_findSome?_eq_some he
  split at hq
  · split at hq <;> cases hq
    exact memOk_setEngHead hs
  · cases hq
theorem State.memOk_execPeerTimeout {t : ThreadRef} {s : State} (hs : s.memOk) : Nexts State.memOk (execPeerTimeout t s) := by
  have posted : Nexts State.memOk (match (s.dropOverdue t).or (s.endOverdue t) with
      | some z => .next z
      | none => .refused (.notEnabled "PEER_TIMEOUT: no request has been open for 2^24 cycles")) := by
    split
    · next he =>
      rcases Option.or_eq_some_iff.1 he with h | ⟨-, h⟩
      · exact memOk_dropOverdue hs h
      · exact memOk_endOverdue hs h
    · exact trivial
  unfold execPeerTimeout
  dsimp only
  split
  · exact Nexts.ite (fun _ => posted) fun _ => memOk_takeTrap (memOk_setThread (memOk_setCore hs))
  · split
    · exact Nexts.ite (fun _ => memOk_takeTrap (memOk_endWait hs)) fun _ => posted
    · exact posted
  · exact posted
theorem State.memOk_execPortDown {port : Nat} {s : State} (hs : s.memOk) :
    Nexts State.memOk (execPortDown port s) := by
  unfold execPortDown
  refine Nexts.ite (fun _ => ?_) fun _ => trivial
  exact hs
theorem State.memOk_execPortUp {port : Nat} {s : State} (hs : s.memOk) :
    Nexts State.memOk (execPortUp port s) := by
  unfold execPortUp
  refine Nexts.ite (fun _ => ?_) fun _ => trivial
  exact hs
theorem State.memOk_execTrainingDone {t : Trained} {s : State} (hs : s.memOk) :
    Nexts State.memOk (execTrainingDone t s) := by
  unfold execTrainingDone
  refine Nexts.ite (fun _ => trivial) fun _ => ?_
  exact memOk_ite hs hs
theorem State.memOk_execClockStepAdjust {power : BitVec 16} {temp : BitVec 8} {s : State} (hs : s.memOk) :
    Nexts State.memOk (execClockStepAdjust power temp s) := by
  unfold execClockStepAdjust
  dsimp only
  split
  · exact hs
  · split
    · exact hs
    · split
      · exact hs
      · exact hs
theorem State.memOk_postLost {s : State} (hs : s.memOk) :
    (s.postLost).memOk := memOk_with (State.memOk_foldl _ (fun _ _ hz => (memOk_postEntry hz)) _ hs)
theorem State.memOk_execModulePowerOn {s0 : State} (hs0 : s0.memOk) : Nexts State.memOk (execModulePowerOn s0) :=
  Memory.wf_filter _ hs0

end Sys2Proof.Machine
end

section
/-! Memory keeps its canonical form: every step. -/
namespace Sys2Proof.Machine

theorem State.memOk_Ev_run {e : Ev} {s : State} (hs : s.memOk) : Nexts State.memOk (e.run s) := by
  cases e with
  | asyncTrapEntry => exact memOk_execAsyncTrapEntry hs
  | fetchEndAccess => exact memOk_execFetchEndAccess hs
  | vgForward => exact memOk_execVgForward hs
  | waitlimExpire => exact memOk_execWaitlimExpire hs
  | containNode => exact memOk_execContainNode hs
  | repackUnfreeze => exact memOk_execRepackUnfreeze hs
  | longOpComplete => exact memOk_execLongOpComplete hs
  | asyncWrite => exact memOk_execAsyncWrite hs
  | stealReply => exact memOk_execStealReply hs
  | stealRequest => exact memOk_execStealRequest hs
  | parkStealRetry => exact memOk_execParkStealRetry hs
  | mxCommandComplete => exact memOk_execMxCommandComplete hs
  | groupTimeout => exact memOk_execGroupTimeout hs
  | barrierComplete => exact memOk_execBarrierComplete hs
  | vgForm => exact memOk_execVgForm hs
  | forkRemoteCopy => exact memOk_execForkRemoteCopy hs
  | preemptTimeout => exact memOk_execPreemptTimeout hs
  | gangStart => exact memOk_execGangStart hs
  | fillDeliver => exact memOk_execFillDeliver hs
  | sidelogReplay => exact memOk_execSidelogReplay hs
  | missRecord => exact memOk_execMissRecord hs
  | meshWordArrive => exact memOk_execMeshWordArrive hs
  | engReservationGrant => exact memOk_execEngReservationGrant hs
  | engineCommandAccept => exact memOk_execEngineCommandAccept hs
  | engineFollowon => exact memOk_execEngineFollowon hs
  | engineCommandEnd => exact memOk_execEngineCommandEnd hs
  | engineStatusPost => exact memOk_execEngineStatusPost hs
  | engineBurst => exact memOk_execEngineBurst hs
  | arrayConfigMessage => exact memOk_execArrayConfigMessage hs
  | arrayChannelMessage => exact memOk_execArrayChannelMessage hs
  | doorbellNotice => exact memOk_execDoorbellNotice hs
  | unveilFlip => exact memOk_execUnveilFlip hs
  | shadowDiscard => exact memOk_execShadowDiscard hs
  | storeEntryPerform => exact memOk_execStoreEntryPerform hs
  | vaultWriteDurable => exact memOk_execVaultWriteDurable hs
  | tileInvalAck => exact memOk_execTileInvalAck hs
  | leaseRowRelease => exact memOk_execLeaseRowRelease hs
  | imageRelease => exact memOk_execImageRelease hs
  | statusWordArrive => exact memOk_execStatusWordArrive hs
  | launchComplete => exact memOk_execLaunchComplete hs
  | requestWithdrawn => exact memOk_execRequestWithdrawn hs
  | coopSave => exact memOk_execCoopSave hs
  | forcedSave => exact memOk_execForcedSave hs
  | tourFinish => exact memOk_execTourFinish hs
  | tourToken => exact memOk_execTourToken hs
  | tourRoundStart => exact memOk_execTourRoundStart hs
  | bindRecordWrite => exact memOk_execBindRecordWrite hs
  | queueCommandTake => exact memOk_execQueueCommandTake hs
  | hbmBackoffEnd => exact memOk_execHbmBackoffEnd hs
  | peerTimeout => exact memOk_execPeerTimeout hs
  | hbmAlert => exact memOk_execHbmAlert hs
  | cpRestarted => exact memOk_cpRestarted hs
/-- Every instruction and every step of the machine keeps the form of memory. -/
theorem State.memOk_exec {i : Instr} {s : State} (hs : s.memOk) : Nexts State.memOk (exec i s) := by
  cases i with
  | sysHalt => exact (memOk_haltM hs).finish
  | sysNop => exact (memOk_nopM hs).finish
  | sysIfence => exact (memOk_ifenceM hs).finish
  | sysTret => exact (memOk_tretM hs).finish
  | sysSvc => exact (memOk_svcM hs).finish
  | sysGetc | sysRdevt | sysCycle => exact (memOk_produceM hs).finish
  | sysSetc => exact (memOk_setcM hs).finish
  | sysClrevt => exact (memOk_clrevtM hs).finish
  | aluAdd | aluSub | aluAnd | aluOr | aluXor | aluAndn | aluMin | aluMax | shfShl | shfShr | shfRol | shfRor | cmpEq | cmpNe | cmpLt |
    cmpLe | cmpGt | cmpGe | cmpTst | widFits => exact (memOk_alu2 hs).finish
  | aluMov => exact (memOk_movM hs).finish
  | aluNeg | aluAbs | aluPopc | aluClz | aluCtz | aluiAdd | aluiSub | aluiAnd | aluiOr | aluiXor | aluiMin | aluiMax | shfExt | addrLea =>
    exact (memOk_alu1 hs).finish
  | aluiSet => exact (memOk_setM hs).finish
  | shfShli | shfShri | shfRoli | shfRori => exact (memOk_shiftI hs).finish
  | shfIns => exact (memOk_insM hs).finish
  | mulMul | mulMac | mulMsub | mulMulsh => exact (memOk_mulM hs).finish
  | divDiv | divRem | divDivf | divModf => exact (memOk_divM hs).finish
  | cmpSel => exact (memOk_selM hs).finish
  | widResize => exact (memOk_resizeM hs).finish
  | widWidth => exact (memOk_widthM hs).finish
  | brZ | brNz | brLz | brGez | brGz | brLez => exact (memOk_branchM hs).finish
  | brAl | jmpRel => exact (memOk_relM hs).finish
  | jmpInd => exact (memOk_indM hs).finish
  | callRel => exact (memOk_callRelM hs).finish
  | callInd => exact (memOk_callIndM hs).finish
  | callRet => exact (memOk_retM hs).finish
  | addrGlob | addrGen => exact (memOk_addrM hs).finish
  | ldB | ldH | ldW | ldD | ldV => exact (memOk_loadM hs).finish
  | ldG => exact (memOk_loadGM hs).finish
  | stB | stH | stW | stD | stV => exact (memOk_storeM hs).finish
  | stG => exact (memOk_storeGM hs).finish
  | amoSwap | amoCas | amoAdd | amoAnd | amoOr | amoXor | amoMin | amoMax | amoFadd => exact (memOk_amoM hs).finish
  | feLdf | feLdk | feStf | feSto | feClr | feTst => exact (memOk_feM hs).finish
  | syncBind | syncUnbind => exact (memOk_bindM hs).finish
  | syncAcq => exact (memOk_acqM hs).finish
  | syncRel => exact (memOk_relSealM hs).finish
  | syncFence => exact (memOk_fenceM hs).finish
  | taskSpawn => exact (memOk_spawnM hs).finish
  | taskPop => exact (memOk_popM hs).finish
  | taskSteal => exact (memOk_stealM hs).finish
  | taskPark => exact (memOk_parkM hs).finish
  | taskTour => exact (memOk_tourM hs).finish
  | taskDone => exact (memOk_taskDoneM hs).finish
  | barArrive | barSync => exact (memOk_arriveM hs).finish
  | barWait => exact (memOk_barWaitM hs).finish
  | barDone => exact (memOk_barDoneM hs).finish
  | barStat => exact (memOk_barStatM hs).finish
  | vecAdd | vecSub | vecMul | vecMac | vecMin | vecMax | vecAnd | vecOr | vecXor | vecShl | vecShr | vecAbs | vecSel => exact (memOk_vecM
    hs).finish
  | vecfAdd | vecfSub | vecfMul | vecfFma | vecfMin | vecfMax | vecfExp2 | vecfRcp | vecfRsqrt | vecfScale => exact (memOk_vecfM
    hs).finish
  | vredSum | vredMax | vredMin | vredSumsq => exact (memOk_vredM hs).finish
  | vredArgmax => exact memOk_execVredArgmax hs
  | vredScan => exact (memOk_scanM hs).finish
  | vmovMov => exact (memOk_vmovM hs).finish
  | vmovBcast | vmovPerm | vmovUnpack => exact (memOk_indexM hs).finish
  | vmovPack => exact (memOk_packM hs).finish
  | vmovSend => exact (memOk_sendM hs).finish
  | vmovRecv => exact (memOk_recvM hs).finish
  | vmovJoin => exact (memOk_joinM hs).finish
  | vmovLeave => exact (memOk_leaveM hs).finish
  | cvtQuant => exact (memOk_quantM hs).finish
  | cvtDequant => exact (memOk_dequantM hs).finish
  | cvtFtoi => exact (memOk_ftoiM hs).finish
  | cvtItof => exact (memOk_itofM hs).finish
  | cvtFconv => exact (memOk_fconvM hs).finish
  | cvtScale => exact (memOk_scaleM hs).finish
  | cvtRound => exact (memOk_roundM hs).finish
  | mxCfg | mxLdstat | mxClear => exact (memOk_mxOneM hs).finish
  | mxSwap => exact (memOk_mxSwapM hs).finish
  | mxStream | mxDrain => exact (memOk_mxTwoM hs).finish
  | engCopy => exact (memOk_engCopyM hs).finish
  | engGuard => exact (memOk_engGuardM hs).finish
  | engUnveil | engDiscard => exact (memOk_engSetM hs).finish
  | engStatus => exact (memOk_engStatusM hs).finish
  | grpOpen => exact (memOk_openM hs).finish
  | grpFork => exact (memOk_forkM hs).finish
  | grpWait | grpWaitFf => exact (memOk_grpWaitM hs).finish
  | grpCancel => exact (memOk_cancelM hs).finish
  | grpReward => exact (memOk_rewardM hs).finish
  | grpStat => exact (memOk_statM hs).finish
  | grpClose => exact (memOk_closeM hs).finish
  | smpSeed => exact (memOk_seedM hs).finish
  | smpRand => exact (memOk_randM hs).finish
  | smpStop => exact (memOk_stopM hs).finish
  | smpDraw => exact (memOk_drawM hs).finish
  | smpPos => exact (memOk_posM hs).finish
  | chkAcc => exact (memOk_chkAccM hs).finish
  | chkTest => exact (memOk_chkTestM hs).finish
  | chkClr => exact (memOk_chkClrM hs).finish
  | capPool => exact (memOk_poolM hs).finish
  | capGet => exact (memOk_getM hs).finish
  | capPut => exact (memOk_putM hs).finish
  | capStat => exact (memOk_capStatM hs).finish
  | durBegin => exact (memOk_beginM hs).finish
  | durCommit => exact (memOk_commitM hs).finish
  | durPoint => exact (memOk_pointM hs).finish
  | durScan => exact (memOk_recScanM hs).finish
  | unassignedEncoding => exact memOk_ite (memOk_takeTrap (memOk_found hs)) (memOk_ite (memOk_takeTrap (memOk_found hs)) (memOk_ite
    (memOk_takeTrap (memOk_found hs)) (memOk_ite (memOk_takeTrap (memOk_found hs)) (memOk_redirect (memOk_setThread (memOk_found hs))))))
  | ident => exact memOk_execIdent hs
  | load => exact memOk_execLoad hs
  | unload => exact memOk_execUnload hs
  | launch => exact memOk_execLaunch hs
  | preempt => exact memOk_execPreempt hs
  | resume => exact memOk_execResume hs
  | frset => exact memOk_execFrset hs
  | inval => exact memOk_execInval hs
  | keyload => exact memOk_execKeyload hs
  | vaultset => exact memOk_execVaultset hs
  | replay => exact memOk_execReplay hs
  | route => exact memOk_execRoute hs
  | exportCmd => exact memOk_execExportCmd hs
  | fwload => exact memOk_execFwload hs
  | fwact => exact memOk_execFwact hs
  | attest => exact memOk_execAttest hs
  | ctxnew => exact memOk_execCtxnew hs
  | ctxend => exact memOk_execCtxend hs
  | pwrset => exact memOk_execPwrset hs
  | faults => exact memOk_execFaults hs
  | fetchEndAccess => exact memOk_execFetchEndAccess hs
  | asyncWrite => exact memOk_execAsyncWrite hs
  | asyncTrapEntry => exact memOk_execAsyncTrapEntry hs
  | longOpComplete => exact memOk_execLongOpComplete hs
  | waitlimExpire => exact memOk_execWaitlimExpire hs
  | feWaitSatisfied => exact memOk_execFeWaitSatisfied hs
  | repackUnfreeze => exact memOk_execRepackUnfreeze hs
  | meshWordArrive => exact memOk_execMeshWordArrive hs
  | storeEntryPerform => exact memOk_execStoreEntryPerform hs
  | reflectionEvict => exact memOk_execReflectionEvict hs
  | vaultWriteDurable => exact memOk_execVaultWriteDurable hs
  | engReservationGrant => exact memOk_execEngReservationGrant hs
  | engineCommandAccept => exact memOk_execEngineCommandAccept hs
  | engineBurst => exact memOk_execEngineBurst hs
  | engineFollowon => exact memOk_execEngineFollowon hs
  | engineCommandEnd => exact memOk_execEngineCommandEnd hs
  | engineStatusPost => exact memOk_execEngineStatusPost hs
  | unveilFlip => exact memOk_execUnveilFlip hs
  | shadowDiscard => exact memOk_execShadowDiscard hs
  | mxCommandComplete => exact memOk_execMxCommandComplete hs
  | arrayChannelMessage => exact memOk_execArrayChannelMessage hs
  | arrayConfigMessage => exact memOk_execArrayConfigMessage hs
  | doorbellNotice => exact memOk_execDoorbellNotice hs
  | vgForm => exact memOk_execVgForm hs
  | vgForward => exact memOk_execVgForward hs
  | bindRecordWrite => exact memOk_execBindRecordWrite hs
  | leaseRowRelease => exact memOk_execLeaseRowRelease hs
  | imageRelease => exact memOk_execImageRelease hs
  | gangStart => exact memOk_execGangStart hs
  | stealRequest => exact memOk_execStealRequest hs
  | stealReply => exact memOk_execStealReply hs
  | parkStealRetry => exact memOk_execParkStealRetry hs
  | statusWordArrive => exact memOk_execStatusWordArrive hs
  | launchComplete => exact memOk_execLaunchComplete hs
  | tourToken => exact memOk_execTourToken hs
  | tourRoundStart => exact memOk_execTourRoundStart hs
  | tourFinish => exact memOk_execTourFinish hs
  | barrierComplete => exact memOk_execBarrierComplete hs
  | preemptTimeout => exact memOk_execPreemptTimeout hs
  | coopSave => exact memOk_execCoopSave hs
  | forcedSave => exact memOk_execForcedSave hs
  | groupTimeout => exact memOk_execGroupTimeout hs
  | forkRemoteCopy => exact memOk_execForkRemoteCopy hs
  | missRecord => exact memOk_execMissRecord hs
  | fillDeliver => exact memOk_execFillDeliver hs
  | hostPageAnswer => exact memOk_execHostPageAnswer hs
  | sidelogReplay => exact memOk_execSidelogReplay hs
  | tileInvalAck => exact memOk_execTileInvalAck hs
  | patrolScrub => exact memOk_execPatrolScrub hs
  | containNode => exact memOk_execContainNode hs
  | cpLockstepReset => exact memOk_execCpLockstepReset hs
  | wsRefresh => exact memOk_execWsRefresh hs
  | hbmAlert => exact memOk_execHbmAlert hs
  | hbmBackoffEnd => exact memOk_execHbmBackoffEnd hs
  | qstailDoorbell => exact memOk_execQstailDoorbell hs
  | qcheadWrite => exact memOk_execQcheadWrite hs
  | queueCommandTake => exact memOk_execQueueCommandTake hs
  | hostRegisterWrite => exact memOk_execHostRegisterWrite hs
  | fwcommitWrite => exact memOk_putCommit hs
  | fwWatchdogExpire => exact memOk_execFwWatchdogExpire hs
  | peerRequest => exact memOk_execPeerRequest hs
  | peerTimeout => exact memOk_execPeerTimeout hs
  | portDown => exact memOk_execPortDown hs
  | hostMemAccess => exact memOk_execHostMemAccess hs
  | trainingDone => exact memOk_execTrainingDone hs
  | clockStepAdjust => exact memOk_execClockStepAdjust hs
  | thermalReset => exact memOk_postLost (memOk_with (memOk_resetDies hs))
  | modulePowerOn => exact memOk_execModulePowerOn hs
  | weightStoreWrite => exact memOk_execWeightStoreWrite hs
  | hbmRefresh => exact memOk_execHbmRefresh hs
  | softError => exact memOk_execSoftError hs
  | portUp => exact memOk_execPortUp hs
  | requestWithdrawn => exact memOk_execRequestWithdrawn hs
theorem State.memOk_orElse {o : Host.Outcome State Fault Refusal} {s : State} (hs : s.memOk) (ho : Nexts State.memOk o) :
    (orElse o s).memOk :=
  match o, ho with
  | .next _, h => h
  | .fault _, _ => hs
  | .refused _, _ => hs
theorem State.memOk_run {i : Instr} {n : Nat} {s : State} (hs : s.memOk) : Nexts State.memOk (run i n s) := by
  unfold run
  have h1 : ((s.refill s.cur n).count s.cur.coreRef 0).memOk := memOk_count (memOk_refill hs)
  exact memOk_exec (memOk_with (memOk_ite (memOk_setMe h1) h1))
theorem State.memOk_runForwarded {t : ThreadRef} {s : State} (hs : s.memOk) : Nexts State.memOk (runForwarded t s) := by
  unfold runForwarded
  dsimp only
  split
  · exact hs
  · split
    · exact memOk_takeTrap (memOk_setThread hs)
    · exact memOk_exec (memOk_with (memOk_count (memOk_setThread hs)))
theorem State.memOk_doSlot {t : ThreadRef} {sl : Slot} {s : State} (hs : s.memOk) : Nexts State.memOk (doSlot t sl s) := by
  cases sl with
  | asyncTrap => exact memOk_Ev_run (e := .asyncTrapEntry t) hs
  | fetchEnd => exact memOk_Ev_run (e := .fetchEndAccess t) hs
  | stop => exact memOk_setThread hs
  | forwarded => exact memOk_runForwarded hs
  | fetched f =>
    cases f with
    | held => exact hs
    | past | poison a => exact memOk_takeTrap hs
    | ill w => exact memOk_forwardIll (memOk_takeTrap hs)
    | instr i n => exact memOk_run hs
theorem State.memOk_tryAgain {t : ThreadRef} {w : WaitRec} {s : State} (hs : s.memOk) : (tryAgain t w s).memOk := by
  have h0 : State.memOk (if w.why = .miss then s.count t.coreRef 2 else s) := memOk_ite (memOk_count hs) hs
  have h1 := memOk_orElse h0 (memOk_exec (i := w.instr) h0)
  exact memOk_ite (memOk_ite h0 (memOk_setThread h0)) (memOk_ite (memOk_setThread h1) h1)
theorem State.memOk_doExpire {t : ThreadRef} {w : WaitRec} {s : State} (hs : s.memOk) : Nexts State.memOk (doExpire t w s) := by
  have h1 : State.memOk (if ordered w.instr then s else tryAgain t w s) := memOk_ite hs (memOk_tryAgain hs)
  exact Nexts.ite (fun _ => memOk_Ev_run h1) fun _ => h1
theorem State.memOk_doTurn {s : State} {a : Turn} (hs : s.memOk) : Nexts State.memOk (doTurn s a) := by
  cases a with
  | slot t sl => exact memOk_doSlot (memOk_with (memOk_useSlot hs))
  | mark t => exact memOk_setCore hs
  | again t w => exact memOk_tryAgain (memOk_with hs)
  | timeout g o => exact memOk_orElse hs (memOk_Ev_run hs)
theorem State.memOk_repacksBegin {s : State} (hs : s.memOk) : s.repacksBegin.memOk := by
  exact State.memOk_foldl _ (fun _ _ hz => memOk_ite (memOk_setCore hz) hz) _ hs
theorem State.memOk_portsLeave {s : State} (hs : s.memOk) : s.portsLeave.memOk :=
  State.memOk_foldl _ (fun _ _ hz => State.memOk_foldl _ (fun _ _ hy => memOk_portLeave hy) _ hz) _ hs
theorem State.memOk_endCycle {s : State} (hs : s.memOk) : s.endCycle.memOk :=
  memOk_with (memOk_with (memOk_repacksBegin (memOk_portsLeave (memOk_mxAdvanceAll (memOk_vgSettleAll hs)))))
theorem State.memOk_goAhead {s : State} (hs : s.memOk) : Nexts State.memOk s.goAhead := by
  unfold State.goAhead
  split
  · exact memOk_orElse (memOk_with hs) (memOk_exec (memOk_with hs))
  · split
    · split
      · exact memOk_doTurn (memOk_with hs)
      · exact memOk_with hs
    · split
      · exact memOk_Ev_run hs
      · exact memOk_with hs
    · split
      · exact memOk_Ev_run (memOk_with hs)
      · exact memOk_with hs
    · split
      · exact memOk_tryAgain (memOk_with hs)
      · exact memOk_with hs
    · split
      · exact memOk_Ev_run hs
      · exact memOk_with hs
    · split
      · exact memOk_doExpire (memOk_with hs)
      · exact memOk_endCycle hs

end Sys2Proof.Machine

namespace Sys2Proof.Proofs
open Sys2Proof.Machine

/-- Settles O56: what each part of a step does to memory is a list of writes of whole cells, so the form is kept along its meaning. -/
theorem stepKeepsMemoryForm : Obligations.StepKeepsMemoryForm := by
  intro s t hs h
  exact (State.memOk_goAhead hs).of_next h

end Sys2Proof.Proofs
end

section
/-! The integer instructions of 06 R99 to R112: what their courses answer once issue has passed and their operands are read, and the
statements IntegerResults and MultiplyAndDivide from it. -/
namespace Sys2Proof.Machine
open Sys2Proof.Claims

/-- Issue answers the state as it was where the names, the wait field and the kinds of the instruction pass (R96, R100). -/
theorem State.issue_of_checks {s : State} {i : Instr} {h : Hdr} {srcs dsts : List NameRef} {c : Bool} (hp : Passes s i h srcs dsts)
    (hc : c = true) : s.issue i h srcs dsts (illUnless i c) = .ok s := State.issue_ok hp.1 (illUnless_true i hc) hp.2

section
variable {s s1 s2 s3 t : State} {i : Instr} {h : Hdr} {d a b c : NameRef} {x y z : Src}

theorem alu2_of_read {f : Src → Src → Int} (hp : Passes s i h [a, b] [d]) (hd : s.intDst d = true) (hx : s.read i h a s = .ok (x, s1))
    (hy : s.read i h b s1 = .ok (y, s2)) (hw : s.writeInt i d (f x y) s2 = .ok t) : alu2 s i h d a b f = .ok (t.done h) := by
  simp only [alu2, State.issue_of_checks hp hd, bind, Except.bind, hx, hy, hw]; rfl
theorem alu1_of_read {f : Src → Int} (hp : Passes s i h [a] [d]) (hd : s.intDst d = true) (hx : s.read i h a s = .ok (x, s1))
    (hw : s.writeInt i d (f x) s1 = .ok t) : alu1 s i h d a f = .ok (t.done h) := by
  simp only [alu1, State.issue_of_checks hp hd, bind, Except.bind, hx, hw]; rfl
theorem shiftI_of_read {m : BitVec 32} {f : Src → Nat → Int} (hp : Passes s i h [a] [d]) (hd : s.intDst d = true)
    (hm : 0 ≤ m.toInt ∧ m.toInt ≤ 1023) (hx : s.read i h a s = .ok (x, s1)) (hw : s.writeInt i d (f x m.toNat) s1 = .ok t) :
    shiftI s i h d a m f = .ok (t.done h) := by
  have hc : (s.intDst d && decide (0 ≤ m.toInt) && decide (m.toInt ≤ 1023)) = true := by simp [hd, hm]
  simp only [shiftI, State.issue_of_checks hp hc, bind, Except.bind, hx, hw]; rfl

/-- `alu.mov` of a value (R105). -/
theorem movM_of_value (hp : Passes s i h [a] [d]) (hd : s.intDst d = true) (hx : s.read i h a s = .ok (x, s1))
    (hw : s.writeInt i d x.val s1 = .ok t) : movM s i h d a = .ok (t.done h) := by
  have hc : (s.intDst d || s.samePat d a) = true := by simp [hd]
  simp only [movM, State.issue_of_checks hp hc, bind, Except.bind, hx, if_pos hd, hw]; rfl
/-- `alu.mov` of a pattern, between names of one kind and width (R100). -/
theorem movM_of_pattern {n : BitVec 9} (hp : Passes s i h [a] [.cat n]) (hd : s.intDst (.cat n) = false) (he : s.ent a = s.ent (.cat n))
    (hx : s.read i h a s = .ok (x, s1)) :
    movM s i h (.cat n) a = .ok ((s1.putName n (BitVec.ofNat 528 (x.pat % 2 ^ (s1.ent (.cat n)).width))).done h) := by
  have hc : (s.intDst (.cat n) || s.samePat (.cat n) a) = true := by simp [State.samePat, he]
  rw [movM, State.issue_of_checks hp hc]
  simp only [bind, Except.bind, hx, hd]; rfl
theorem setM_of_write {v : Int} (hp : Passes s i h [] [d]) (hd : s.intDst d = true) (hw : s.writeInt i d v s = .ok t) :
    setM s i h d v = .ok (t.done h) := by
  simp only [setM, State.issue_of_checks hp hd, bind, Except.bind, hw]; rfl
theorem insM_of_read {n : BitVec 9} {p l : Nat} (hp : Passes s i h [a] [.cat n]) (hd : s.intDst (.cat n) = true)
    (hl : p + l ≤ (s.ent (.cat n)).width) (hx : s.read i h a s = .ok (x, s1)) (hy : s.read i h (.cat n) s1 = .ok (y, s2))
    (hw : s.writeInt i (.cat n) (insVal y x.val p l) s2 = .ok t) : insM s i h (.cat n) a p l = .ok (t.done h) := by
  have hc : (s.intDst (.cat n) && !false && decide (p + l ≤ (s.ent (.cat n)).width)) = true := by simp [hd, hl]
  simp only [insM, State.issue_of_checks hp hc, bind, Except.bind, hx, hy, hw]; rfl
theorem selM_of_read (hp : Passes s i h [a, b, c] [d]) (hd : s.intDst d = true) (hx : s.read i h a s = .ok (x, s1))
    (hy : s.read i h b s1 = .ok (y, s2)) (hz : s.read i h c s2 = .ok (z, s3))
    (hw : s.writeInt i d (if z.val ≠ 0 then x.val else y.val) s3 = .ok t) : selM s i h d a b c = .ok (t.done h) := by
  simp only [selM, State.issue_of_checks hp hd, bind, Except.bind, hx, hy, hz, hw]; rfl
theorem widthM_of_write (hp : Passes s i h [] [a, d]) (hd : s.intDst d = true) (hw : s.writeInt i d (s.ent a).width s = .ok t) :
    widthM s i h d a = .ok (t.done h) := by
  simp only [widthM, State.issue_of_checks hp hd, bind, Except.bind, hw]; rfl
end

/-- An integer instruction of two sources runs the common course with its own result (R105, R107, R111, R112). -/
theorem exec_intTwo {i : Instr} {h : Hdr} {d a b : NameRef} {f : Src → Src → Int} (hi : intTwo i = some (h, d, a, b, f)) (s : State) :
    exec i s = finish (alu2 s i h d a b f) := by
  have same {g : Src → Src → Int} (e : Instr) (hg : ∀ x y, g x y = f x y) : finish (alu2 s e h d a b g) = finish (alu2 s e h d a b f) := by
    rw [show g = f from funext fun x => funext (hg x)]
  unfold intTwo at hi
  split at hi <;> cases hi
  case h_7 => exact same _ fun x y => Int.min_def ..
  case h_8 => exact same _ fun x y => Int.max_def ..
  case h_13 => exact same _ fun x y => by simp [flag]
  case h_14 => exact same _ fun x y => by simp [flag]
  case h_15 => exact same _ fun x y => by simp [flag]
  case h_16 => exact same _ fun x y => by simp [flag]
  case h_17 => exact same _ fun x y => by simp [flag]
  case h_18 => exact same _ fun x y => by simp [flag]
  case h_19 => exact same _ fun x y => by simp [flag]
  all_goals rfl

/-- An integer instruction of one source, with an immediate that is admitted, runs the common course with its own result. -/
theorem exec_intOne {i : Instr} {h : Hdr} {d a : NameRef} {ok : Bool} {f : Nat → Src → Int} (hi : intOne i = some (h, d, a, ok, f))
    {s s1 t : State} {x : Src} (hok : ok = true) (hp : Passes s i h [a] [d]) (hd : s.intDst d = true) (hx : s.read i h a s = .ok (x, s1))
    (hw : s.writeInt i d (f s.me.pc x) s1 = .ok t) : exec i s = .next (t.done h) := by
  have one {g : Src → Int} (hg : g x = f s.me.pc x) : finish (alu1 s i h d a g) = .next (t.done h) :=
    congrArg finish (alu1_of_read hp hd hx (hg ▸ hw))
  have shift {m : BitVec 32} {g : Src → Nat → Int} (hm : decide (0 ≤ m.toInt ∧ m.toInt ≤ 1023) = true) (hg : g x m.toNat = f s.me.pc x) :
      finish (shiftI s i h d a m g) = .next (t.done h) :=
    congrArg finish (shiftI_of_read hp hd (of_decide_eq_true hm) hx (hg ▸ hw))
  unfold intOne at hi
  split at hi <;> cases hi
  case h_2 => exact one (by simp only []; omega)
  case h_11 => exact one (Int.min_def ..)
  case h_12 => exact one (Int.max_def ..)
  case h_13 => exact shift hok rfl
  case h_14 => exact shift hok rfl
  case h_15 => exact shift hok rfl
  case h_16 => exact shift hok rfl
  all_goals exact one rfl

/-! ### Multiplies and divides (R102, R109, R110) -/

section
variable {s s1 s2 s3 t : State} {i : Instr} {h : Hdr} {d a b : NameRef} {x y : Src}

/-- The unit of an instruction that has run its cycles is not taken again. -/
theorem State.useUnit_of_ranOut {tag free lat : Nat} {take : State → State} (hr : s.ranOut = true) : s.useUnit i tag free lat take = .ok id := by
  rw [State.useUnit, if_pos hr]
/-- A free unit that no older instruction waits for is taken (R102). -/
theorem State.useUnit_of_free {tag free lat : Nat} {take : State → State} (hr : s.ranOut = false) (hf : free ≤ s.cycle)
    (hw : s.myCore.waitsAhead s.cur.h s.mySeq tag = false) :
    s.useUnit i tag free lat take = if s.writesNow lat then .ok take else .error (take (s.running i lat)) := by
  rw [State.useUnit, hr, if_neg Bool.false_ne_true, hw, Bool.or_false, if_neg (by simpa using hf)]

/-- A multiply whose sources are read: its unit, then its write (R109). -/
theorem mulM_of_read {rd ok : Bool} {f : Src → Src → Int → Int} {z : Src} (hp : Passes s i h (if rd then [a, b, d] else [a, b]) [d])
    (hd : s.intDst d = true) (hok : ok = true) (hx : s.read i h a s = .ok (x, s1)) (hy : s.read i h b s1 = .ok (y, s2))
    (hz : (if rd then s.read i h d s2 else .ok (⟨⟨64, .uint, .wrap, .rne, .none⟩, 0⟩, s2)) = .ok (z, s3)) :
    mulM s i h d a b rd ok f = (do
      let u ← s.useUnit i tagUnit s.myCore.mulFree (4 + mulK x y) (State.takeMul (mulK x y))
      let s5 ← afterRun ((u s).writeInt i d (f x y z.val) (u s3))
      pure (s5.done h)) := by
  have hc : (s.intDst d && ok) = true := by simp [hd, hok]
  rw [mulM, State.issue_of_checks hp hc]
  cases rd with
  | false =>
    cases hz
    simp only [bind, Except.bind, hx, hy]; rfl
  | true =>
    have hz : s.read i h d s2 = .ok (z, s3) := hz
    simp only [bind, Except.bind, hx, hy, if_pos, hz, Except.map]

/-- A divide whose sources are read (R110): a divisor of 0 traps before the divider is asked for. -/
theorem divM_of_read {f : Int → Int → Int} (hp : Passes s i h [a, b] [d]) (hd : s.intDst d = true) (hx : s.read i h a s = .ok (x, s1))
    (hy : s.read i h b s1 = .ok (y, s2)) :
    divM s i h d a b f = if y.val = 0 then trapM s .divz (w64 x.val) else (do
      let u ← s.useUnit i tagDiv s.myCore.divFree (6 + (x.ent.width + 1) / 2) (State.takeDiv (6 + (x.ent.width + 1) / 2))
      let s4 ← afterRun ((u s).writeInt i d (f x.val y.val) (u s2))
      pure (s4.done h)) := by
  simp only [divM, State.issue_of_checks hp hd, bind, Except.bind, hx, hy, trapM]

/-- A course that takes a unit and then writes: what it answers by the unit and by the time there is (R102). -/
theorem finish_useUnit {tag free lat : Nat} {take : State → State} {v : Int} {z : State} :
    let m : M State := do
      let u ← s.useUnit i tag free lat take
      let s5 ← afterRun ((u s).writeInt i d v (u z))
      pure (s5.done h)
    (s.ranOut = true → s.writeInt i d v z = .ok t → finish m = .next (t.done h)) ∧
    (s.ranOut = false → free ≤ s.cycle → s.myCore.waitsAhead s.cur.h s.mySeq tag = false →
      (s.writesNow lat = true → (take s).writeInt i d v (take z) = .ok t → finish m = .next (t.done h)) ∧
      (s.writesNow lat = false → finish m = .next (take (s.running i lat)))) := by
  refine ⟨fun hr hw => ?_, fun hr hf ha => ⟨fun hn hw => ?_, fun hn => ?_⟩⟩
  · rw [State.useUnit_of_ranOut hr]
    simp only [bind, Except.bind, id, hw]; rfl
  · rw [State.useUnit_of_free hr hf ha, if_pos hn]
    simp only [bind, Except.bind, hw]; rfl
  · rw [State.useUnit_of_free hr hf ha, hn, if_neg Bool.false_ne_true]; rfl
end

/-- A multiply runs the common course with its own result (R109). -/
theorem exec_product {i : Instr} {h : Hdr} {d a b : NameRef} {rd ok : Bool} {f : Int → Int → Int → Int}
    (hi : product i = some (h, d, a, b, rd, ok, f)) :
    ∃ c, (ok = true → c = true) ∧ ∀ s, exec i s = finish (mulM s i h d a b rd c fun x y z => f x.val y.val z) := by
  unfold product at hi
  split at hi <;> cases hi
  case h_4 => exact ⟨_, fun hok => by simpa using hok, fun _ => rfl⟩
  all_goals exact ⟨true, fun hok => hok, fun _ => rfl⟩
/-- A divide runs the common course with its own result (R110). -/
theorem exec_quotient {i : Instr} {h : Hdr} {d a b : NameRef} {f : Int → Int → Int} (hi : quotient i = some (h, d, a, b, f)) (s : State) :
    exec i s = finish (divM s i h d a b f) := by
  unfold quotient at hi
  split at hi <;> cases hi
  all_goals rfl

end Sys2Proof.Machine

namespace Sys2Proof.Proofs
open Sys2Proof.Machine Sys2Proof.Claims

theorem integerTwoSources : IntegerTwoSources := fun s _ _ _ _ _ _ hi hp hd _ _ _ _ _ hx hy hw =>
  (exec_intTwo hi s).trans (congrArg finish (alu2_of_read hp hd hx hy hw))
theorem integerOneSource : IntegerOneSource := fun _ _ _ _ _ _ _ hi hp hd hok _ _ _ hx hw => exec_intOne hi hok hp hd hx hw

theorem integerOtherShapes : IntegerOtherShapes := by
  intro s h d a b c
  refine ⟨fun hp hd x s1 t hx hw => ?value, fun n hn hp hd he x s1 hx => ?pattern, fun m t hp hd hw => ?set,
    fun n p l hn hp hd hl x s1 y s2 t hx hy hw => ?ins, fun hp hd x s1 y s2 z s3 t hx hy hz hw => ?sel, fun t hp hd hw => ?width⟩
  case value => exact congrArg finish (movM_of_value hp hd hx hw)
  case pattern => subst hn; exact congrArg finish (movM_of_pattern hp hd he hx)
  case set => exact congrArg finish (setM_of_write hp hd hw)
  case ins => subst hn; exact congrArg finish (insM_of_read hp hd hl hx hy hw)
  case sel => exact congrArg finish (selM_of_read hp hd hx hy hz hw)
  case width => exact congrArg finish (widthM_of_write hp hd hw)

/-- Settles O3: each integer instruction is one of the shared courses, with its operands read and its exact result written once. -/
theorem integerResults : Obligations.IntegerResults := ⟨integerTwoSources, integerOneSource, integerOtherShapes⟩

theorem multiplyResult : MultiplyResult := by
  intro s i h d a b rd ok f hi hp hd hok x s1 y s2 z s3 k hx hy hz hk
  obtain ⟨c, hc, he⟩ := exec_product hi
  subst hk
  rw [he, mulM_of_read hp hd (hc hok) hx hy hz]
  exact ⟨fun hr t hw => finish_useUnit.1 hr hw, fun hr hf ha => ⟨fun hn t hw => (finish_useUnit.2 hr hf ha).1 hn hw,
    fun hn => (finish_useUnit (t := s).2 hr hf ha).2 hn⟩⟩
theorem divideResult : DivideResult := by
  intro s i h d a b f hi hp hd x s1 y s2 lat hx hy hy0 hl
  subst hl
  rw [exec_quotient hi, divM_of_read hp hd hx hy, if_neg hy0]
  exact ⟨fun hr t hw => finish_useUnit.1 hr hw, fun hr hf ha => ⟨fun hn t hw => (finish_useUnit.2 hr hf ha).1 hn hw,
    fun hn => (finish_useUnit (t := s).2 hr hf ha).2 hn⟩⟩
theorem divideByZero : DivideByZero := by
  intro s i h d a b f hi hp hd x s1 y s2 hx hy hy0
  rw [exec_quotient hi, divM_of_read hp hd hx hy, if_pos hy0]; rfl

/-- Settles O4: the sources are read, DIVZ comes before the unit is asked for, and the unit decides whether the result is written now. -/
theorem multiplyAndDivide : Obligations.MultiplyAndDivide := ⟨multiplyResult, divideResult, divideByZero⟩

end Sys2Proof.Proofs
end

section
/-! Addresses of a thread's own window and their global form (06 R124, R125): the course of both conversions, and the statement PrivateAliases from it. -/
namespace Sys2Proof.Machine
open Sys2Proof.Claims

section
variable {s s1 : State} {i : Instr} {h : Hdr} {d a : NameRef} {x : Src} {f : Thread → Nat → Option Nat} (hp : Passes s i h [a] [d])
  (hd : s.intDst d = true) (hx : s.read i h a s = .ok (x, s1))
include hp hd hx

/-- A value that is no address, or one that has no conversion, raises ACCESS. -/
theorem finish_addrM_denied (hv : x.val < 0 ∨ 2 ^ 56 ≤ x.val ∨ f s.me x.val.toNat = none) :
    finish (addrM s i h d a f) = .next (s.takeTrap s.cur .access s.me.pc (w64 x.val)) := by
  simp only [addrM, State.issue_of_checks hp hd, bind, Except.bind, hx]
  split
  · rfl
  · next hn => rw [(hv.resolve_left fun h => hn (.inl h)).resolve_left (by omega)]; rfl
/-- An address with a conversion is written as that. -/
theorem finish_addrM_of_some {v : Nat} {u : Int} {t : State} (hl : 0 ≤ x.val) (hu : x.val < 2 ^ 56) (hf : f s.me x.val.toNat = some v)
    (hv : (v : Int) = u) (hw : s.writeInt i d u s1 = .ok t) : finish (addrM s i h d a f) = .next (t.done h) := by
  subst hv
  simp only [addrM, State.issue_of_checks hp hd, bind, Except.bind, hx, if_neg (by omega : ¬ (x.val < 0 ∨ x.val > 2 ^ 56 - 1)), hf, hw]; rfl
end

/-- The own window's address as a number, once (R124). -/
theorem privBase_eq : privBase = 0xFF_FFFF_0000_0000 := rfl

/-- An address of the window at or beyond the thread's size has no global form (R125). -/
theorem globOf_beyond {x : Thread} {v : Nat} (hl : privBase ≤ v) (hu : v < 2 ^ 56) (hz : privBase + x.privZ ≤ v) : globOf x v = none := by
  rw [privBase_eq] at *
  rw [globOf, privBase_eq, if_pos (by omega), if_pos (by omega)]
theorem globOf_private {x : Thread} {v : Nat} (hl : privBase ≤ v) (hu : v < 2 ^ 56) (hz : v < privBase + x.privZ) :
    globOf x v = some (x.privG' + (v - privBase)) := by
  rw [privBase_eq] at *
  rw [globOf, privBase_eq, if_pos (by omega), if_neg (by omega)]
theorem globOf_other {x : Thread} {v : Nat} (hl : v < privBase) : globOf x v = some v := by
  rw [globOf, if_neg (by omega)]

end Sys2Proof.Machine

namespace Sys2Proof.Proofs
open Sys2Proof.Machine Sys2Proof.Claims

/-- Settles O7: by where the value stands to the own window, for `addr.glob`, and to its global form, for `addr.gen`. -/
theorem privateAliases : Obligations.PrivateAliases := by
  intro s h d a x s1 g z pw denied
  have hg : g = (s.me.privG' : Int) := rfl
  have hz : z = (s.me.privZ : Int) := rfl
  have hb : pw = (privBase : Int) := rfl
  clear_value g z pw
  have hbase := privBase_eq
  refine ⟨fun hp hd hx => ⟨fun hv => ?_, fun hl hu hi t hw => ?_, fun hl hu t hw => ?_⟩,
    fun hp hd hx => ⟨fun hv => ?_, fun hl hu hg' hi t hw => ?_, fun hl hu ho t hw => ?_⟩⟩
  · refine finish_addrM_denied hp hd hx ?_
    by_cases hin : x.val < 0 ∨ 2 ^ 56 ≤ x.val
    · exact hin.elim .inl fun h => .inr (.inl h)
    · exact .inr (.inr (globOf_beyond (by omega) (by omega) (by omega)))
  · exact finish_addrM_of_some hp hd hx (by omega) hu (globOf_private (by omega) (by omega) (by omega)) (by omega) hw
  · exact finish_addrM_of_some hp hd hx hl (by omega) (globOf_other (by omega)) (by omega) hw
  · exact finish_addrM_denied hp hd hx (hv.elim .inl fun h => .inr (.inl h))
  · exact finish_addrM_of_some hp hd hx hl hu (congrArg some (if_pos (by omega))) (by omega) hw
  · exact finish_addrM_of_some hp hd hx hl hu (congrArg some (if_neg (by omega))) (by omega) hw

end Sys2Proof.Proofs
end

section
/-! Control registers, the plain system instructions, unassigned encodings and the steps of a slot (14 R284 to R290, 05 R97, 11 R215): their
courses past issue, and the statements ControlReads, ControlWrites, UnassignedEncodings and ThreadSteps from them. -/
namespace Sys2Proof.Machine
open Sys2Proof.Claims

section
variable {s s1 t : State} {i : Instr} {h : Hdr} {d : NameRef} {k : BitVec 12} {x : Src}

/-- An instruction that writes one value which it finds in the state. -/
theorem finish_produceM {ok : Bool} {v : State → Nat} {n : Nat} (hp : Passes s i h [] [d]) (hd : s.oneDst d = true) (hok : ok = true)
    (hn : v s = n) (hw : s.writeOne i d n s = .ok t) : finish (produceM s i h d ok v) = .next (t.done h) := by
  subst hn
  have hc : (s.oneDst d && ok) = true := by simp [hd, hok]
  rw [produceM, State.issue_of_checks hp hc]
  simp only [bind, Except.bind, hw]; rfl

/-- Issue takes the breach that the description names where names pass (R96). -/
theorem State.issue_of_breach {srcs dsts : List NameRef} {c : Cause} {v : Word64} (hp : Passes s i h srcs dsts) :
    s.issue i h srcs dsts (some (c, v)) = trapM s c v := by
  rw [State.issue, hp.1]

/-- What `sys.setc` is checked for: the register is one, and the thread may write it (R287). -/
theorem setcM_of_settable (hp : Passes s (.sysSetc h k d) h [d] []) (hk : (s.reg s.cur k.toNat).isSome = true) (hs : s.settable k.toNat = true)
    (hx : s.read (.sysSetc h k d) h d s = .ok (x, s1)) (hi : x.ent.kind.isInt = true) :
    setcM s h k d = .ok ((s1.setReg k.toNat (w64 x.val)).done h) := by
  have hn : (s.reg s.cur k.toNat).isNone = false := by rw [← Option.not_isSome, hk]; rfl
  simp only [setcM, hn, hs, if_neg Bool.false_ne_true, if_true, State.issue_of_passes hp, bind, Except.bind, hx, hi]; rfl
theorem setcM_of_none (hp : Passes s (.sysSetc h k d) h [d] []) (hk : s.reg s.cur k.toNat = none) :
    setcM s h k d = trapM s .ill (instrVal (.sysSetc h k d)) := by
  simp only [setcM, hk, Option.isNone_none, if_true, State.issue_of_breach hp]; rfl
theorem setcM_of_not_settable (hp : Passes s (.sysSetc h k d) h [d] []) (hk : (s.reg s.cur k.toNat).isSome = true)
    (hs : s.settable k.toNat = false) : setcM s h k d = trapM s .priv (k.setWidth 64) := by
  have hn : (s.reg s.cur k.toNat).isNone = false := by rw [← Option.not_isSome, hk]; rfl
  simp only [setcM, hn, hs, if_neg Bool.false_ne_true, State.issue_of_breach hp]; rfl

theorem clrevtM_of_allowed (hk : k.toNat < 64) (hp : Passes s (.sysClrevt h k) h [] []) (ha : s.me.priv = true ∨ s.myCore.evu = true) :
    clrevtM s h k = .ok ((s.setMyCore { s.myCore with cevt := s.myCore.cevt.set k.toNat 0 }).done h) := by
  have ha : (s.me.priv || s.myCore.evu) = true := by simpa using ha
  simp only [clrevtM, if_neg (Nat.not_le.2 hk), ha, if_true, State.issue_of_passes hp, bind, Except.bind, dif_pos hk]; rfl
theorem clrevtM_of_denied (hk : k.toNat < 64) (hp : Passes s (.sysClrevt h k) h [] []) (hm : s.me.priv = false) (he : s.myCore.evu = false) :
    clrevtM s h k = trapM s .priv (k.setWidth 64) := by
  have ha : (s.me.priv || s.myCore.evu) = false := by simp [hm, he]
  simp only [clrevtM, if_neg (Nat.not_le.2 hk), ha, if_neg Bool.false_ne_true, State.issue_of_breach hp]; rfl
end

/-- A neighbour is another tile. -/
theorem tileNext_ne {k n : Nat} {d : Dir} (h : tileNext k d = some n) : n ≠ k := by
  cases d <;> obtain ⟨hk, he⟩ := Option.ite_none_left_eq_some.1 h <;> cases he
  case n => unfold tileRow at hk; omega
  case w => unfold tileCol at hk; omega
  all_goals omega

/-- No register has a number between the thread's, the core's and the gang's, or beyond them (R285). -/
theorem State.reg_eq_none {k : Nat} (hk : (0x015 ≤ k ∧ k < 0x100) ∨ (0x108 ≤ k ∧ k < 0x200) ∨ 0x201 ≤ k) (s : State) (t : ThreadRef) :
    s.reg t k = none := by
  apply State.reg.eq_31 <;> (intro he; omega)

/-- A register without a bit that the thread may write keeps its bits (R287). -/
theorem State.setReg_of_not_writable {s : State} {k : Nat} (hw : regWritable s.me.priv k = false) (hk : k ≠ 0x100) (v : Word64) :
    s.setReg k v = s := by
  unfold State.setReg
  split
  case h_18 => rfl
  case h_13 => exact absurd rfl hk
  all_goals cases hw

end Sys2Proof.Machine

namespace Sys2Proof.Proofs
open Sys2Proof.Machine Sys2Proof.Claims

theorem systemReads : SystemReads := by
  intro s h k d t hd
  refine ⟨fun v hv hp hw => ?_, fun hk hp hw => ?_, fun hc hp hw => ?_⟩
  · exact finish_produceM hp hd (by rw [hv]; rfl) (by rw [hv]; rfl) hw
  · exact finish_produceM hp hd (decide_eq_true hk) (by rw [Core.event, dif_pos hk]) hw
  · exact finish_produceM hp hd rfl (Nat.mod_eq_of_lt hc) hw

theorem controlRegisters : ControlRegisters := by
  intro s t
  refine ⟨rfl, rfl, rfl, rfl, rfl, rfl, rfl, rfl, rfl, rfl, rfl, rfl, fun hc => ?_, fun k hl hu => ?_, fun k hl hu => ?_, fun k hl => ?_⟩
  · exact ⟨congrArg some (if_neg hc), congrArg some (if_neg hc)⟩
  · exact State.reg_eq_none (.inl ⟨hl, hu⟩) s t
  · exact State.reg_eq_none (.inr (.inl ⟨hl, hu⟩)) s t
  · exact State.reg_eq_none (.inr (.inr hl)) s t

/-- Settles O10: each reading instruction writes what the register table has, and the table is the definition's. -/
theorem controlReads : Obligations.ControlReads := ⟨systemReads, controlRegisters⟩

theorem systemWrites : SystemWrites := by
  intro s h k d
  exact ⟨fun x s1 hp hk hs _ hx hi => congrArg finish (setcM_of_settable hp hk hs hx hi), fun hp hk => congrArg finish (setcM_of_none hp hk),
    fun hp hk hs => congrArg finish (setcM_of_not_settable hp hk hs), fun hk hp ha => congrArg finish (clrevtM_of_allowed hk hp ha),
    fun hk hp hm he => congrArg finish (clrevtM_of_denied hk hp hm he)⟩

theorem registerWriteBits : RegisterWriteBits := by
  intro s v
  refine ⟨rfl, rfl, rfl, rfl, fun hp => ?_, fun hp => ⟨hp, ?_⟩, fun k hw hk => State.setReg_of_not_writable hw hk v⟩
  · exact if_pos hp
  · exact if_neg (by rw [hp]; decide)

/-- Settles O11: what a write is checked for, and the bits that each register takes. -/
theorem controlWrites : Obligations.ControlWrites := ⟨systemWrites, registerWriteBits⟩

/-- Settles O12: the tests of R97 in their order, on the word of the table and whether it is poisoned. -/
theorem unassignedEncodings : Obligations.UnassignedEncodings := by
  intro s z w0 a e p ha he hz
  have hx : exec (.unassignedEncoding w0) s = .next (
      if p then z.takeTrap s.cur .poison s.me.pc (n64 a)
      else if e = 0 then z.takeTrap s.cur .ill s.me.pc (w0.setWidth 64)
      else if e % 4 ≠ 0 then z.takeTrap s.cur .align s.me.pc (n64 e)
      else if e > 0x7_FFFC then z.takeTrap s.cur .access s.me.pc (n64 e)
      else (z.setThread s.cur (z.me.trapped Cause.feature.code s.me.pc (w0.setWidth 64))).redirect s.cur e) := by
    subst hz
    rw [ha] at he ⊢
    change execUnassignedEncoding w0 s = _
    simp only [execUnassignedEncoding, he]
  rw [hx]
  refine ⟨fun hp => ?_, fun hp h0 => ?_, fun hp h0 c hc => ?_, fun hp h0 ht => ?_⟩
  · rw [if_pos hp]
  · rw [hp, if_neg Bool.false_ne_true, if_pos h0]
  · rw [hp, if_neg Bool.false_ne_true, if_neg h0]
    obtain ⟨hal, rfl⟩ | ⟨hal, ho, rfl⟩ := hc
    · rw [if_pos (by omega)]
    · rw [if_neg (by omega), if_pos (by omega)]
  · obtain ⟨hal, hl, hu⟩ := ht
    rw [hp, if_neg Bool.false_ne_true, if_neg h0, if_neg (by omega), if_neg (by omega)]; rfl

theorem slotSteps : SlotSteps := by
  intro s t
  refine ⟨fun hs hpc => ?fetchEnd, fun c v hp hs hv => ?asyncTrap, fun w c hw hy hc hs => ?longOp, fun w c hw hy hc hs => ?run,
    fun w v hw hv hl hc hr => ?waitlim⟩
  case fetchEnd => exact if_pos ⟨hs, hpc⟩
  case asyncTrap =>
    change execAsyncTrapEntry t s = _
    simp only [execAsyncTrapEntry, hp, if_pos hs, if_neg hv]
  case longOp =>
    change execLongOpComplete t s = _
    simp only [execLongOpComplete, hw, hy, hc, hs, Thread.goes]; rfl
  case run =>
    change execLongOpComplete t s = _
    simp only [execLongOpComplete, hw, hy, hc, hs]; rfl
  case waitlim =>
    have he : s.expired t = true := by simp [State.expired, hw, hv, hl, hc]
    change execWaitlimExpire t s = _
    simp only [execWaitlimExpire, hw, hv, he, hr, if_true, if_neg Bool.false_ne_true]

theorem meshWords : MeshWords := by
  intro s k d n c w l hn hq hc hcyc hroom
  have hne : k ≠ ⟨n, k.core⟩ := fun h => tileNext_ne hn (congrArg CoreRef.tile h).symm
  refine ⟨?t, ?run, ?inbound, ?outbound, ?mem⟩
  case run =>
    change execMeshWordArrive k d s = _
    simp only [execMeshWordArrive, hn, hq, if_neg (by omega : ¬ (c = 0 ∨ s.cycle < c)), if_neg (Nat.not_le.2 hroom)]
    rfl
  case inbound => simp [State.core_setCore_other _ _ hne]
  case outbound =>
    rw [State.core_setCore_other _ _ (Ne.symm hne)]
    simp
  case mem => rfl

/-- Settles O14: each step's tests, in its definition's order. -/
theorem threadSteps : Obligations.ThreadSteps := ⟨slotSteps, meshWords⟩

end Sys2Proof.Proofs
end

section
/-! What operands read as, how an exact integer is written, and what issue and completion do (04 R65 to R69, 05 R84 to R96): the statements
Operands and IssueAndCompletion. -/
namespace Sys2Proof.Machine
open Sys2Proof.Claims

/-- A read of a port of a direction is the port's own course (R67). -/
theorem State.read_portDir {f : FixedName} {d : Dir} (hd : portDir (.fixed f) = some d) (s0 s : State) (i : Instr) (h : Hdr) :
    s0.read i h (.fixed f) s = State.read.readPort s0 i (.fixed f) s d := by
  cases f <;> cases hd <;> rfl
/-- The kind that every fixed name but `lit` has (R65). -/
theorem State.ent_fixed {f : FixedName} (hf : f ≠ .lit) (s : State) : s.ent (.fixed f) = ⟨64, .uint, .wrap, .rne, .none⟩ := by
  cases f
  case lit => exact absurd rfl hf
  all_goals rfl
theorem portDir_ne_lit {f : FixedName} {d : Dir} (hd : portDir (.fixed f) = some d) : f ≠ .lit := by rintro rfl; cases hd

/-- The word that a waiting instruction took last stands first in its record (R99). -/
theorem State.taken_of_record {s : State} {v : WaitRec} {n : NameRef} {x : Word64} {l : List (NameRef × Word64)}
    (hv : s.me.wait = some v) (ht : v.took = (n, x) :: l) :
    State.taken n s = some (x, s.setMe { s.me with wait := some { v with took := l } }) := by
  simp [State.taken, hv, ht]
/-- An instruction that has taken no word has none to be given. -/
theorem State.taken_of_none {s : State} (hv : ∀ v, s.me.wait = some v → v.took = []) (n : NameRef) : State.taken n s = none := by
  unfold State.taken
  split
  · next w hw => rw [hv w hw]
  · rfl

section
variable {s0 s : State} {i : Instr}

theorem State.readPort_of_taken {n : NameRef} {d : Dir} {x : Word64} {s1 : State} (ht : State.taken n s = some (x, s1)) :
    State.read.readPort s0 i n s d = .ok (⟨s.ent n, x.toNat⟩, s1) := by
  simp only [State.read.readPort, ht]
theorem State.readPort_of_word {n : NameRef} {d : Dir} {w : Word64} {ws : List Word64} (ht : State.taken n s = none)
    (ha : s.myCore.portAhead s.cur.h s0.mySeq n = false) (hw : s.inbound d = w :: ws) :
    State.read.readPort s0 i n s d = .ok (⟨s.ent n, w.toNat⟩, s.setInbound d ws) := by
  simp only [State.read.readPort, ht, ha, if_neg Bool.false_ne_true, hw]
theorem State.readPort_of_nothing {n : NameRef} {d : Dir} (ht : State.taken n s = none)
    (hn : s.inbound d = [] ∨ s.myCore.portAhead s.cur.h s0.mySeq n = true) :
    State.read.readPort s0 i n s d = portM s0 i (dirName d) s := by
  simp only [State.read.readPort, ht]
  split
  · rfl
  · next ha => rw [hn.resolve_right ha]

variable {h : Hdr}
theorem State.read_portEng_of_taken {x : Word64} {s1 : State} (ht : State.taken (.fixed .portEng) s = some (x, s1)) :
    s0.read i h (.fixed .portEng) s = .ok (⟨s.ent (.fixed .portEng), x.toNat⟩, s1) := by
  simp only [State.read, ht]
theorem State.read_portEng_of_word {w : Word64} {ws : List Word64} (ht : State.taken (.fixed .portEng) s = none)
    (ha : s.myCore.portAhead s.cur.h s0.mySeq (.fixed .portEng) = false) (hw : s.myCore.portEng = w :: ws) :
    s0.read i h (.fixed .portEng) s = .ok (⟨s.ent (.fixed .portEng), w.toNat⟩, s.setMyCore { s.myCore with portEng := ws }) := by
  simp only [State.read, ht, ha, if_neg Bool.false_ne_true, hw]
theorem State.read_portEng_of_nothing (ht : State.taken (.fixed .portEng) s = none)
    (hn : s.myCore.portEng = [] ∨ s.myCore.portAhead s.cur.h s0.mySeq (.fixed .portEng) = true) :
    s0.read i h (.fixed .portEng) s = portM s0 i 61 s := by
  simp only [State.read, ht]
  split
  · rfl
  · next ha => rw [hn.resolve_right ha]
end

/-- A value outside the set, in a mode that traps, raises WIDTH with the state as it was (R69). -/
theorem State.writeInt_of_trap {s0 s : State} {i : Instr} {n : BitVec 9} {x : Int}
    (h : r69 (s.ent (.cat n)).kind (s.ent (.cat n)).width (s.ent (.cat n)).mode x = none) :
    s0.writeInt i (.cat n) x s = trapM s0 .width (w64 x) := by simp [State.writeInt, h]
/-- A write to a port of a direction sends one word (R67). -/
theorem State.writeInt_portDir {f : FixedName} {d : Dir} (hd : portDir (.fixed f) = some d) (s0 s : State) (i : Instr) (x : Int) :
    s0.writeInt i (.fixed f) x s = s0.send i d [w64 x] none s := by
  cases f <;> cases hd <;> rfl
/-- Words go out in a direction where a neighbour is and the queue has room for all of them; without a neighbour they raise ACCESS (R160). -/
theorem State.send_of_room {s0 s : State} {i : Instr} {d : Dir} {ws : List Word64} {v : Option Word64} (hn : s.neighbourIn d = true)
    (hl : (s.outbound d).length + ws.length ≤ 16) : s0.send i d ws v s = .ok (s.pushOut d ws) := by
  rw [State.send, hn, if_neg (by decide), if_neg (Nat.not_lt.2 hl)]
theorem State.send_of_no_neighbour {s0 s : State} {i : Instr} {d : Dir} {ws : List Word64} {v : Option Word64} (hn : s.neighbourIn d = false) :
    s0.send i d ws v s = trapM s0 .access (n64 (dirName d)) := by
  rw [State.send, hn]; rfl

end Sys2Proof.Machine

namespace Sys2Proof.Proofs
open Sys2Proof.Machine Sys2Proof.Claims

theorem sourceRead : SourceRead := by
  intro s0 s i h
  refine ⟨fun hw k => ?fresh, fun w l hw hl k => ?waited, rfl, rfl, rfl, fun v f x l hf hv ht => ?took,
    fun hv => ⟨fun ha w ws hw => ?engWord, fun hn => ?engNothing, fun f d hd => ⟨fun ha w ws hw => ?word, fun hn => ?nothing⟩⟩⟩
  case fresh =>
    have hsrc : (s0.me.wait.bind fun w => w.src) = none := by
      cases e : s0.me.wait with
      | none => rfl
      | some w => exact hw w e
    simp only [State.read, State.nameSrc, hsrc]
  case waited => simp [State.read, State.nameSrc, hw, hl]
  case took =>
    have ht := State.taken_of_record hv ht
    obtain rfl | hd := hf
    · exact State.read_portEng_of_taken ht
    · obtain ⟨d, hd⟩ := Option.isSome_iff_exists.1 hd
      rw [State.read_portDir hd, State.readPort_of_taken ht, State.ent_fixed (portDir_ne_lit hd)]
  case engWord => exact State.read_portEng_of_word (State.taken_of_none hv _) ha hw
  case engNothing => exact State.read_portEng_of_nothing (State.taken_of_none hv _) hn
  case word =>
    rw [State.read_portDir hd, State.readPort_of_word (State.taken_of_none hv _) ha hw, State.ent_fixed (portDir_ne_lit hd)]
  case nothing => rw [State.read_portDir hd, State.readPort_of_nothing (State.taken_of_none hv _) hn]; rfl

theorem integerWrite : IntegerWrite := by
  intro s0 s i x
  refine ⟨?name, ?discarded, fun f d hd hn hl => ?sent, fun f d hd hn => ?alone⟩
  case name =>
    rintro n e rfl
    refine ⟨fun hin => State.writeInt_cat (r69_inRange hin), fun hout hm => State.writeInt_cat (hm ▸ r69_wrap hout),
      fun hout hm => State.writeInt_cat (hm ▸ r69_sat hout), fun hout hm => State.writeInt_of_trap (hm ▸ r69_trap hout)⟩
  case discarded => rintro f (rfl | rfl | rfl) <;> rfl
  case sent => rw [State.writeInt_portDir hd, State.send_of_room hn (by simp only [List.length_singleton]; omega)]
  case alone => rw [State.writeInt_portDir hd, State.send_of_no_neighbour hn]; rfl

/-- Settles O1: each source by its own course, and R69 by its four cases. -/
theorem operands : Obligations.Operands := ⟨sourceRead, integerWrite⟩

theorem issueChecks : IssueChecks := by
  intro s i h srcs dsts pre
  refine ⟨fun n rest hs hn => ?beyond, fun hp hpre => ?passes, fun hn hpre hw => ?waits⟩
  case beyond =>
    have hb : nameBreach s.myKernel h i srcs dsts = some (n64 n.toNat) := by
      simp [nameBreach, hs, srcBreach, Nat.not_lt.2 hn]
    simp only [State.issue, hb]; rfl
  case passes => exact State.issue_ok hp.1 hpre hp.2
  case waits =>
    subst hpre
    obtain ⟨l, hl⟩ := s.me_hold i (.retry 0 0) none
    exact ⟨s.hold i (.retry 0 0) none, by simp only [State.issue, hn, hw, if_neg Bool.false_ne_true]; rfl, by rw [hl], by rw [hl], by simp⟩

theorem completionEffect : CompletionEffect := fun s h =>
  ⟨rfl, State.me_done s h, fun _ ht => State.thread_setMe_other s _ ht, fun _ => rfl, rfl, rfl, rfl, rfl⟩

/-- Settles O2: the answers of issue in their order, and `done` is the advance of the current thread. -/
theorem issueAndCompletion : Obligations.IssueAndCompletion := ⟨issueChecks, completionEffect⟩

end Sys2Proof.Proofs
end

section
/-! The plain system instructions and `sys.halt` (14 R284): what ending another thread's wait and trapping it leave of a thread, and the
statement SystemInstructions. -/
namespace Sys2Proof.Machine
open Sys2Proof.Claims

/-! ### What leaves a thread alone -/

/-- A thread is as it was, and the same thread is current. -/
structure State.KeepsThread (u : ThreadRef) (s z : State) : Prop where
  cur : z.cur = s.cur
  thread : z.thread u = s.thread u

namespace State.KeepsThread
variable {u t : ThreadRef} {s y z : State}

theorem refl (s : State) : KeepsThread u s s := ⟨rfl, rfl⟩
theorem trans (h1 : KeepsThread u s y) (h2 : KeepsThread u y z) : KeepsThread u s z :=
  ⟨h2.cur.trans h1.cur, h2.thread.trans h1.thread⟩
theorem ite {c : Prop} [Decidable c] (hy : KeepsThread u s y) (hz : KeepsThread u s z) : KeepsThread u s (if c then y else z) := by
  split
  · exact hy
  · exact hz
theorem foldl {ε : Type} {f : State → ε → State} {l : List ε} (hf : ∀ e ∈ l, ∀ z, KeepsThread u z (f z e)) (s : State) :
    KeepsThread u s (l.foldl f s) := by
  induction l generalizing s with
  | nil => exact refl s
  | cons e l ih => exact (hf e (by simp) s).trans (ih (fun e' he => hf e' (by simp [he])) (f s e))
theorem of_tiles (ht : z.tiles = s.tiles) (hc : z.cur = s.cur) : KeepsThread u s z := ⟨hc, State.thread_of_tiles ht u⟩
theorem setThread (hu : u ≠ t) (x : Thread) : KeepsThread u s (s.setThread t x) := ⟨rfl, State.thread_setThread_other s x hu⟩
theorem setCore {r : CoreRef} {c : Core} (h : c.threads = (s.core r).threads) : KeepsThread u s (s.setCore r c) :=
  ⟨rfl, s.thread_setCore r c h u⟩
theorem setTile {k : Nat} {x : Tile} (h : x.cores = (s.tile k).cores) : KeepsThread u s (s.setTile k x) := by
  refine ⟨rfl, ?_⟩
  unfold State.thread State.core
  by_cases hk : u.coreRef.tile = k
  · rw [hk, State.tile_setTile_same, h]
  · rw [State.tile_setTile_other s x hk]
theorem countN (r : CoreRef) (e : Fin 64) (n : Nat) : KeepsThread u s (s.countN r e n) := ⟨by simp, s.thread_countN r e n u⟩
theorem found (v : ThreadRef) (kind ctx k n : Nat) : KeepsThread u s (s.found v kind ctx k n) :=
  ⟨(s.found_keeps v kind ctx k n).1, (s.found_keeps v kind ctx k n).2 u⟩
theorem modGang (g : Nat) (f : Gang → Gang) : KeepsThread u s (s.modGang g f) := of_tiles rfl rfl
theorem undo1 (v : ThreadRef) (e : Undo) : KeepsThread u s (s.undo1 v e) := by
  cases e with
  | mem v now es =>
    unfold State.undo1
    exact ite (of_tiles rfl rfl) (refl s)
  | point => exact of_tiles rfl rfl
  | cfg => exact setTile rfl
  | swap => exact setTile rfl
theorem takenBack (t : ThreadRef) : KeepsThread u s (s.takenBack t) := by
  unfold State.takenBack
  refine (foldl (fun m _ z => ?_) s).trans (foldl (fun e _ z => undo1 t e) _)
  have hundo := foldl (u := u) (fun e _ z => undo1 (s := z) t e) (l := m.undo) z
  exact ite (hundo.trans (setCore rfl)) hundo
theorem giveBack (hu : u ≠ t) : KeepsThread u s (s.giveBack t) := by
  obtain ⟨-, -, hc, w, -, ho⟩ := s.giveBack_cases t
  exact ⟨hc, ho u hu⟩
theorem redirect (hu : u ≠ t) (a : Nat) : KeepsThread u s (s.redirect t a) :=
  ((setThread hu _).trans (countN ..)).trans (found ..)
theorem takeTrap (hu : u ≠ t) {c : Cause} (hc : c.code ≠ Cause.poison.code) (epc : Nat) (v : Word64) : KeepsThread u s (s.takeTrap t c epc v) := by
  rw [State.takeTrap, State.takeCode, if_neg fun h => hc h.1]
  exact ((giveBack hu).trans (setThread hu _)).trans (redirect hu _)
theorem asyncTrap (hu : u ≠ t) (c : Cause) (v : Word64) : KeepsThread u s (s.asyncTrap t c v) := by
  unfold State.asyncTrap
  split
  · exact countN ..
  · exact setThread hu _
theorem endWait (hu : u ≠ t) : KeepsThread u s (s.endWait t) := by
  have hforget (z : State) : KeepsThread u z (z.setTile t.tile ((z.tile t.tile).forget t.core t.h)) := setTile rfl
  have hbuffers (z : State) (b : Vector Buffer _) : KeepsThread u z { z with buffers := b } := of_tiles rfl rfl
  have hreplies (z : State) : KeepsThread u z (z.dropReplies t) := setCore rfl
  exact (((((takenBack t).trans (hforget _)).trans (hbuffers _ _)).trans (giveBack hu)).trans (hreplies _)).trans (setThread hu _)
theorem cancelMember (hu : u ≠ t) (gid : Nat) : KeepsThread u s (s.cancelMember gid t) := by
  have hleave : KeepsThread u s (s.setThread t (s.thread t).leaveGroup) := setThread hu _
  unfold State.cancelMember
  dsimp only
  split
  · exact hleave
  · split
    · split
      · exact hleave.trans ((endWait hu).trans (countN ..))
      · exact hleave.trans ((endWait hu).trans (takeTrap hu (by decide) _ _))
    · exact hleave.trans (asyncTrap hu _ _)
/-- Combining a group changes its members alone (R295). -/
theorem combineIfAll {g : Nat} {o : Group} (hu : u ∉ s.members g o.gid) : KeepsThread u s (s.combineIfAll g o) := by
  refine ite ((foldl (fun t ht z => ?_) s).trans (modGang ..)) (modGang ..)
  have hne : u ≠ t := fun h => hu (h ▸ ht)
  exact ite (ite (setThread hne _) (cancelMember hne _)) (setThread hne _)
theorem takeSums (tile : Nat) (lv : BarLevel) : KeepsThread u s (s.takeSums tile lv) := by
  unfold State.takeSums
  split
  · exact refl s
  · split
    · exact ite (refl s) (setTile rfl)
    · split
      · exact modGang ..
      · exact refl s
theorem sendWords (tile : Nat) : KeepsThread u s (s.sendWords tile) := by
  unfold State.sendWords
  split
  · exact refl s
  · refine ite (refl s) (foldl (fun j _ z => ?_) s)
    dsimp only
    split
    · exact refl z
    · next g _ w _ =>
      have hsent : KeepsThread u z (z.setTile tile { z.tile tile with sent := (z.tile tile).sent ++ [j] }) := setTile rfl
      have hword (y : State) (l) : KeepsThread u y { y with flying := l } := of_tiles rfl rfl
      exact ite ((hsent.trans (hword _ _)).trans (modGang ..)) (hsent.trans (hword _ _))
end State.KeepsThread

/-- Who has left its group is no member of it. -/
theorem State.not_mem_members {s : State} {u : ThreadRef} (h : (s.thread u).gmV = false) (g gid : Nat) : u ∉ s.members g gid := by
  simp [State.members, h]

/-- A halting thread leaves its group and is otherwise as it was (R295). -/
theorem State.haltGroups_thread (s : State) (t : ThreadRef) :
    (s.haltGroups t).cur = s.cur ∧ (s.haltGroups t).thread t = (s.thread t).leaveGroup := by
  have hleft : (s.setThread t (s.thread t).leaveGroup).thread t = (s.thread t).leaveGroup := State.thread_setThread_same ..
  have hkeeps (y : State) (hy : State.KeepsThread t (s.setThread t (s.thread t).leaveGroup) y) (f : Gang → Gang) :
      (y.modGang (s.kernel t).gang f).cur = s.cur ∧ (y.modGang (s.kernel t).gang f).thread t = (s.thread t).leaveGroup :=
    have h := hy.trans (.modGang (s.kernel t).gang f)
    ⟨h.cur, h.thread.trans hleft⟩
  refine hkeeps _ (.ite ?_ (.refl _)) _
  split
  · exact .ite (.combineIfAll (State.not_mem_members (by rw [hleft]; rfl) _ _)) (.refl _)
  · exact .refl _

/-! ### What leaves memory alone -/

theorem State.takeSums_mem (s : State) (tile : Nat) (lv : BarLevel) : (s.takeSums tile lv).mem = s.mem := by
  unfold State.takeSums
  split
  · rfl
  · split
    · split <;> rfl
    · split <;> rfl
theorem State.sendWords_mem (s : State) (tile : Nat) : (s.sendWords tile).mem = s.mem := by
  unfold State.sendWords
  split
  · rfl
  · split
    · rfl
    · refine foldl_keeps State.mem (fun z j => ?_) _ _
      dsimp only
      split
      · rfl
      · split <;> rfl
theorem State.haltGroups_mem {s : State} {t : ThreadRef} (h : (s.thread t).gmV = false) : (s.haltGroups t).mem = s.mem := by
  simp only [State.haltGroups, h, if_neg Bool.false_ne_true]; rfl

/-- The state that a halting instruction leaves, but for its groups, the event sums and the words of its tile (R232, R284). -/
def State.haltsAt (s : State) (h : Hdr) : State :=
  let s2 := s.done h
  let s3 := s2.setMe { s2.me with st := .halted, contrib := s.contribution s.cur, haltCyc := s.cycle }
  s3.setMyCore (s3.myCore.dropPartial s3.cur.h)

theorem State.haltsAt_me (s : State) (h : Hdr) :
    (s.haltsAt h).me = { s.me.advance (Hdr.len h) with st := .halted, contrib := s.contribution s.cur, haltCyc := s.cycle } := by
  have hcore (z : State) : (z.setMyCore (z.myCore.dropPartial z.cur.h)).me = z.me :=
    State.thread_setCore z z.cur.coreRef (z.myCore.dropPartial z.cur.h) rfl z.cur
  have hme (x : Thread) : ((s.done h).setMe x).me = x := State.me_setMe ..
  refine (hcore _).trans ((hme _).trans ?_)
  rw [State.me_done]

theorem haltM_of_passes {s : State} {h : Hdr} (hp : Passes s (.sysHalt h) h [] []) :
    haltM s h = .ok (((((s.haltsAt h).haltGroups s.cur).takeSums s.cur.tile .crew).takeSums s.cur.tile .gang).sendWords s.cur.tile) := by
  have hc : (((s.haltsAt h).haltGroups s.cur).cur) = s.cur := ((s.haltsAt h).haltGroups_thread s.cur).1
  have hr : haltM s h = .ok (((((s.haltsAt h).haltGroups s.cur).takeSums ((s.haltsAt h).haltGroups s.cur).cur.tile .crew).takeSums
      ((s.haltsAt h).haltGroups s.cur).cur.tile .gang).sendWords ((s.haltsAt h).haltGroups s.cur).cur.tile) := by
    rw [haltM, State.issue_of_passes hp]; rfl
  rw [hr, hc]

end Sys2Proof.Machine

namespace Sys2Proof.Proofs
open Sys2Proof.Machine Sys2Proof.Claims

theorem trapReturn : TrapReturn := by
  intro s h hp
  have hx : exec (.sysTret h) s = finish (s.transfer s.me.tepc.toNat s) := by
    change finish (tretM s h) = _
    rw [tretM, State.issue_of_passes hp]; rfl
  exact ⟨fun ht => hx.trans (finish_transfer_of_target ht s s),
    fun ha => hx.trans (finish_transfer_of_refused (.inl ⟨by omega, rfl⟩) s s)⟩

theorem systemPlain : SystemPlain := by
  intro s h n
  refine ⟨fun hp => congrArg finish (?nop : nopM s (.sysNop h) h = .ok _), fun hp => congrArg finish (?ifence : ifenceM s h = .ok _),
    fun hp => congrArg finish (?svc : svcM s h n = .error _)⟩
  case nop => rw [nopM, State.issue_of_passes hp]; rfl
  case ifence => rw [ifenceM, State.issue_of_passes hp]; rfl
  case svc => rw [svcM, State.issue_of_passes hp]; rfl

theorem halts : Halts := by
  intro s h hp
  obtain ⟨hcur, hthread⟩ := (s.haltsAt h).haltGroups_thread s.cur
  let z := (s.haltsAt h).haltGroups s.cur
  have hk : State.KeepsThread s.cur z (((z.takeSums s.cur.tile .crew).takeSums s.cur.tile .gang).sendWords s.cur.tile) :=
    ((State.KeepsThread.takeSums ..).trans (.takeSums ..)).trans (.sendWords ..)
  have hme : (((z.takeSums s.cur.tile .crew).takeSums s.cur.tile .gang).sendWords s.cur.tile).me = (s.haltsAt h).me.leaveGroup := by
    rw [State.me, hk.cur, hcur]
    exact hk.thread.trans hthread
  rw [State.haltsAt_me] at hme
  refine ⟨_, congrArg finish (haltM_of_passes hp), by rw [hme]; rfl, by rw [hme]; rfl, by rw [hme]; rfl, by rw [hme]; rfl, fun hg => ?_⟩
  have hgm : ((s.haltsAt h).thread s.cur).gmV = false := by
    change (s.haltsAt h).me.gmV = false
    rw [State.haltsAt_me]; exact hg
  rw [State.sendWords_mem, State.takeSums_mem, State.takeSums_mem, State.haltGroups_mem hgm]; rfl

/-- Settles O9: `sys.tret` is the transfer to TEPC, and what a halt does after its thread is HALTED leaves that thread but for its group. -/
theorem systemInstructions : Obligations.SystemInstructions := ⟨trapReturn, systemPlain, halts⟩

end Sys2Proof.Proofs
end

section
/-! Loads and stores (14 R263 to R266, 13 R249 to R251): their courses past issue, and the statements Loads, Stores, StoreFrame and
AccessFaults from them. -/
namespace Sys2Proof.Machine
open Sys2Proof.Claims

/-! ### Effective addresses (R211, R265) -/

/-- An address below 0x8_0000 is one of local memory (R242). -/
theorem State.window_of_local {l : Nat} (hl : l < 0x8_0000) (s : State) (x : Thread) : s.window x (l : Int) = .loc l := by
  rw [State.window, if_neg (by omega), if_pos (by omega)]; rfl
theorem State.effective_of_aligned {s0 : State} {v : Int} {n : Nat} (hw : s0.window s0.me v ≠ .none) (ha : v % n = 0) :
    s0.effective v n = .ok v := by
  rw [State.effective, if_neg hw, if_neg (Classical.not_not.2 ha)]
theorem State.effective_of_no_window {s0 : State} {v : Int} {n : Nat} (hw : s0.window s0.me v = .none) :
    s0.effective v n = trapM s0 .access (w64 v) := by
  rw [State.effective, if_pos hw]
theorem State.effective_of_unaligned {s0 : State} {v : Int} {n : Nat} (hw : s0.window s0.me v ≠ .none) (ha : v % n ≠ 0) :
    s0.effective v n = trapM s0 .align (w64 v) := by
  rw [State.effective, if_neg hw, if_pos ha]
/-- A local access of aligned bytes has its effective address and its window. -/
theorem State.effective_of_local {ea : Int} {n l : Nat} (h : ea = (l : Int)) (ha : l % n = 0) (hl : l < 0x8_0000) (s0 : State) :
    s0.effective ea n = .ok ea ∧ ∀ (s : State) (x : Thread), s.window x ea = .loc l := by
  subst h
  exact ⟨State.effective_of_aligned (by rw [State.window_of_local hl]; exact Win.noConfusion) (by exact_mod_cast ha),
    fun s x => State.window_of_local hl s x⟩

/-- The fit of `d` is what issue checks (R264). -/
theorem fits_iff (s : State) (d : NameRef) (n : Nat) : (if n = 64 then isCat d else s.plainKind d n) = true ↔ Fits s d n := by
  unfold Fits; split <;> rfl

/-! ### Local memory (R158, R171) -/

section
variable {s0 s s1 s2 t : State} {i : Instr} {h : Hdr} {d a : NameRef} {off : BitVec 32} {x y : Src} {ea : Int} {l n : Nat}

theorem State.loadLocal_of_clear (hl : l + n ≤ 0x8_0000) (hb : s.boardW s.cur.tile l n = false)
    (hc : s.poisoned (localKey s.cur.tile l) n = false) :
    s0.loadLocal i ea l n s =
      .ok (s.bytesAt (localKey s.cur.tile l) n, s.found s.cur 0 s.myKernel.ctx (localKey s.cur.tile l) n) := by
  rw [State.loadLocal, if_neg (Nat.not_lt.2 hl), hb, hc, if_neg Bool.false_ne_true, if_neg Bool.false_ne_true]
theorem State.landNow_of_lands {v : ReplyVal} (hw : lands s0 i d v s = .ok t) : s0.landNow i h d v s = .ok (t.done h) := by
  have he : s0.landNow i h d v s = (lands s0 i d v s >>= fun z => pure (z.done h)) := by cases v <;> rfl
  rw [he, hw]; rfl
theorem State.storeLocal_of_clear {bs : List Byte} (hn : bs.length = n) (hl : l + n ≤ 0x8_0000) (hb : s.boardAny s.cur.tile l n = false)
    (hm : s.merges (localKey s.cur.tile l) n = false) :
    s0.storeLocal i ea l bs s =
      .ok ((s.rewrite s.cur 1 s.myKernel.ctx (localKey s.cur.tile l) n).putBytes (localKey s.cur.tile l) bs) := by
  subst hn
  simp only [State.storeLocal, if_neg (Nat.not_lt.2 hl), hb, hm, if_neg Bool.false_ne_true]

theorem bytesOfNat_length (n x : Nat) : (bytesOfNat n x).length = n := by
  induction n generalizing x with
  | zero => rfl
  | succ n ih => exact congrArg Nat.succ (ih (x / 256))
theorem natOfBytes_lt (l : List Byte) : natOfBytes l < 256 ^ l.length := by
  induction l with
  | nil => exact Nat.one_pos
  | cons b l ih =>
    have hb := b.isLt
    rw [natOfBytes, List.length_cons, Nat.pow_succ]
    omega
theorem memBytes_length (m : List Host.Cell) (k n : Nat) : (memBytes m k n).length = n := by
  induction n generalizing k with
  | zero => rfl
  | succ n ih => exact congrArg Nat.succ (ih (k + 1))
/-- A granule's 40 bytes fit a pattern. -/
theorem toNat_ofNat_natOfBytes_granule (s : State) (k : Nat) :
    (BitVec.ofNat 528 (natOfBytes (s.bytesAt k 40))).toNat = natOfBytes (s.bytesAt k 40) := by
  have h := natOfBytes_lt (s.bytesAt k 40)
  rw [State.bytesAt, memBytes_length] at h
  rw [BitVec.toNat_ofNat]
  refine Nat.mod_eq_of_lt (Nat.lt_of_lt_of_le h ?_)
  rw [show (256 : Nat) = 2 ^ 8 from rfl, ← Nat.pow_mul]
  exact Nat.pow_le_pow_right (by decide) (by decide)

/-! ### The courses of loads and stores -/

/-- A load whose address is read: its effective address, then where its window is (R265). -/
theorem loadM_of_read (hp : Passes s i h [a] [d]) (hf : Fits s d n) (hx : s.read i h a s = .ok (x, s1)) :
    loadM s i h d a off n = (do
      let ea ← s.effective (x.val + off.toInt) n
      s.portCheck d s1
      match s1.window s1.me ea with
      | .loc l => do
        let (bs, s3) ← s.loadLocal i ea l n s1
        s.landNow i h d (s1.loadVal d n (natOfBytes bs)) s3
      | .none => trapM s .access (w64 ea)
      | w => do
        let (bs, s3) ← s.loadPieces i ea [(w.addr, n)] s1
        pure ((s.await h i d (s3.loadVal d n (natOfBytes bs)) s3).viaPeer w.addr)) := by
  simp only [loadM, State.issue_of_checks hp ((fits_iff s d n).2 hf), bind, Except.bind, hx] <;> rfl

theorem loadM_of_local (hp : Passes s i h [a] [d]) (hf : Fits s d n) (hx : s.read i h a s = .ok (x, s1)) (hn : 0 < n)
    (hl : Local (x.val + off.toInt) n l) (hport : s.portCheck d s1 = .ok ()) (hb : s1.boardW s1.cur.tile l n = false)
    (hc : s1.poisoned (localKey s1.cur.tile l) n = false)
    (hw : lands s i d (s1.loadVal d n (natOfBytes (s1.bytesAt (localKey s1.cur.tile l) n)))
      (s1.found s1.cur 0 s1.myKernel.ctx (localKey s1.cur.tile l) n) = .ok t) :
    loadM s i h d a off n = .ok (t.done h) := by
  obtain ⟨hea, hal, hle⟩ := hl
  obtain ⟨heff, hwin⟩ := State.effective_of_local hea hal (by omega) s
  rw [loadM_of_read hp hf hx]
  simp only [bind, Except.bind, heff, hport, hwin, State.loadLocal_of_clear hle hb hc]
  exact State.landNow_of_lands hw
theorem loadM_of_global {g : Nat} {bs : List Byte} (hp : Passes s i h [a] [d]) (hf : Fits s d n) (hx : s.read i h a s = .ok (x, s1))
    (ha : (x.val + off.toInt) % n = 0) (hg : s.window s.me (x.val + off.toInt) = .glob g)
    (hg1 : s1.window s1.me (x.val + off.toInt) = .glob g) (hport : s.portCheck d s1 = .ok ())
    (hl : s.loadPieces i (x.val + off.toInt) [(g, n)] s1 = .ok (bs, s2)) :
    loadM s i h d a off n = .ok ((s.await h i d (s2.loadVal d n (natOfBytes bs)) s2).viaPeer g) := by
  have heff : s.effective (x.val + off.toInt) n = _ := State.effective_of_aligned (by rw [hg]; exact Win.noConfusion) ha
  rw [loadM_of_read hp hf hx]
  simp only [bind, Except.bind, heff, hport, hg1, Win.addr, hl]; rfl

/-- A store whose sources are read: its effective address, then where its window is (R265). -/
theorem storeM_of_read (hp : Passes s i h [a, d] []) (hf : Fits s d n) (hx : s.read i h a s = .ok (x, s1))
    (hy : s.read i h d s1 = .ok (y, s2)) (ha : (x.val + off.toInt) % n = 0) (hw : s.window s.me (x.val + off.toInt) ≠ .none) :
    storeM s i h d a off n = (match s2.window s2.me (x.val + off.toInt) with
      | .loc l => do
        let s4 ← s.storeLocal i (x.val + off.toInt) l (bytesOfNat n (y.bitsOf (8 * n))) s2
        pure (s4.done h)
      | .glob g => do
        let s4 ← s.post i (cutLines g (bytesOfNat n (y.bitsOf (8 * n)))) s2
        pure (s4.done h)
      | _ => trapM s .access (w64 (x.val + off.toInt))) := by
  simp only [storeM, State.issue_of_checks hp ((fits_iff s d n).2 hf), bind, Except.bind, hx, hy, State.effective_of_aligned hw ha] <;> rfl
theorem storeM_of_local (hp : Passes s i h [a, d] []) (hf : Fits s d n) (hx : s.read i h a s = .ok (x, s1))
    (hy : s.read i h d s1 = .ok (y, s2)) (hn : 0 < n) (hl : Local (x.val + off.toInt) n l) (hb : s2.boardAny s2.cur.tile l n = false)
    (hm : s2.merges (localKey s2.cur.tile l) n = false) :
    storeM s i h d a off n = .ok (((s2.rewrite s2.cur 1 s2.myKernel.ctx (localKey s2.cur.tile l) n).putBytes (localKey s2.cur.tile l)
      (bytesOfNat n (y.bitsOf (8 * n)))).done h) := by
  obtain ⟨hea, hal, hle⟩ := hl
  have hwin (z : State) (u : Thread) : z.window u (x.val + off.toInt) = .loc l := by rw [hea]; exact State.window_of_local (by omega) z u
  rw [storeM_of_read hp hf hx hy (by rw [hea]; exact_mod_cast hal) (by rw [hwin]; exact Win.noConfusion), hwin]
  simp only [State.storeLocal_of_clear (bytesOfNat_length n _) hle hb hm]; rfl
theorem storeM_of_global {g : Nat} (hp : Passes s i h [a, d] []) (hf : Fits s d n) (hx : s.read i h a s = .ok (x, s1))
    (hy : s.read i h d s1 = .ok (y, s2)) (ha : (x.val + off.toInt) % n = 0) (hg : s.window s.me (x.val + off.toInt) = .glob g)
    (hg2 : s2.window s2.me (x.val + off.toInt) = .glob g) (ht : s.post i (cutLines g (bytesOfNat n (y.bitsOf (8 * n)))) s2 = .ok t) :
    storeM s i h d a off n = .ok (t.done h) := by
  rw [storeM_of_read hp hf hx hy ha (by rw [hg]; exact Win.noConfusion), hg2]
  simp only [bind, Except.bind, ht]; rfl

/-- Changing the current core but not its threads changes no thread. -/
theorem State.thread_setMyCore {c : Core} (hc : c.threads = s.myCore.threads) (u : ThreadRef) : (s.setMyCore c).thread u = s.thread u :=
  State.thread_setCore s s.cur.coreRef c hc u
theorem State.me_setMyCore {c : Core} (hc : c.threads = s.myCore.threads) : (s.setMyCore c).me = s.me := State.thread_setMyCore hc s.cur

/-- Posting changes the store buffer of the core and nothing else (R249). -/
theorem State.post_eq {ps : List (Nat × List Byte × StoreForm)} (hp : s0.post i ps s = .ok t) :
    ∃ l, t = s.setMyCore { s.myCore with sbuf := l } := by
  unfold State.post at hp
  dsimp only at hp
  split at hp
  · cases hp
  · cases hp; exact ⟨_, rfl⟩
theorem State.post_keeps {ps : List (Nat × List Byte × StoreForm)} (hp : s0.post i ps s = .ok t) :
    t.mem = s.mem ∧ t.cur = s.cur ∧ (∀ u, t.thread u = s.thread u) ∧ t.empties = s.empties ∧ t.gangs = s.gangs := by
  obtain ⟨l, rfl⟩ := State.post_eq hp
  exact ⟨rfl, rfl, fun u => State.thread_setMyCore (by exact rfl) u, rfl, rfl⟩
/-- Entries are posted while there is room for them and no older access holds the memory port. -/
theorem State.post_of_room {ps : List (Nat × List Byte × StoreForm)} (hl : s.myCore.sbuf.length + ps.length ≤ 64) (hp : s.portHeld = false) :
    ∃ t, s0.post i ps s = .ok t := by
  unfold State.post
  simp only [hp, Bool.or_false, decide_eq_true_eq, if_neg (Nat.not_lt.2 hl)]
  exact ⟨_, rfl⟩
theorem cutLines_length_le (g : Nat) (bs : List Byte) : (cutLines g bs).length ≤ 2 := by
  unfold cutLines linePieces
  rw [List.length_map]
  split <;> simp
end

/-! ### The byte of the youngest entry of a store buffer (R251) -/

/-- An entry of a plain store gives the byte that it covers, and no other. -/
theorem State.entryParts_byte_of_plain {s : State} {e : StoreEntry} (he : e.form = .plain) (tile ctx a pa : Nat) :
    (s.entryParts tile e).findSome? (fun p => p.byte (e.ctx == ctx) (some a) pa) =
      if e.covers ctx a 1 then some (e.bytes.getD (a - e.addr) 0) else none := by
  have hparts : s.entryParts tile e = [⟨some e.addr, (s.placed tile e.ctx e.addr).map (·.pa e.addr), e.bytes⟩] := by
    simp [State.entryParts, he, StoreForm.ranges, State.tailVoid]
  have hspan : e.span = e.bytes.length := by rw [StoreEntry.span, he]; rfl
  rw [hparts]
  simp only [List.findSome?, StorePart.byte, StoreEntry.covers, hspan, Bool.and_eq_true, beq_iff_eq, decide_eq_true_eq]
  by_cases hc : e.ctx = ctx ∧ e.addr ≤ a
  · by_cases hl : a - e.addr < e.bytes.length
    · rw [if_pos hc, if_pos ⟨⟨hc.1, by omega⟩, by omega⟩]; simp [hl]
    · rw [if_pos hc, if_neg (by rintro ⟨⟨-, h1⟩, h2⟩; omega)]; simp [Nat.le_of_not_lt hl]
  · rw [if_neg hc, if_neg (by rintro ⟨⟨h1, h2⟩, -⟩; exact hc ⟨h1, by omega⟩)]
/-- In a store buffer of plain stores the byte is the youngest entry's that covers it. -/
theorem State.bufferByte_of_youngest {s : State} {r : CoreRef} {ctx a : Nat} {b : StoreEntry} (hplain : ∀ y ∈ (s.core r).sbuf, y.form = .plain)
    (hb : ((s.core r).sbuf.filter fun y => y.covers ctx a 1).getLast? = some b) (pa : Nat) :
    s.bufferByte r ctx (some a) pa = some (b.bytes.getD (a - b.addr) 0) := by
  rw [List.getLast?_filter, List.find?_eq_some_iff_append] at hb
  obtain ⟨hcov, l1, l2, hl, hnot⟩ := hb
  have hform (y : StoreEntry) (hy : y ∈ l1 ++ b :: l2) : y.form = .plain := hplain y (List.mem_reverse.1 (hl ▸ hy))
  refine List.findSome?_eq_some_iff.2 ⟨l1, b, l2, hl, ?_, fun y hy => ?_⟩
  · rw [State.entryParts_byte_of_plain (hform b (by simp)), if_pos hcov]
  · rw [State.entryParts_byte_of_plain (hform y (by simp [hy])), if_neg (by simpa using hnot y hy)]

/-- A plain load runs the common course (R265). -/
theorem exec_load {i : Instr} {h : Hdr} {d a : NameRef} {o : BitVec 32} {n : Nat} (hi : load i = some (h, d, a, o, n)) (s : State) :
    exec i s = finish (loadM s i h d a o n) ∧ 0 < n := by
  unfold load at hi
  split at hi <;> cases hi
  all_goals exact ⟨rfl, by decide⟩
/-- A plain store runs the common course (R265). -/
theorem exec_store {i : Instr} {h : Hdr} {d a : NameRef} {o : BitVec 32} {n : Nat} (hi : store i = some (h, d, a, o, n)) (s : State) :
    exec i s = finish (storeM s i h d a o n) ∧ 0 < n := by
  unfold store at hi
  split at hi <;> cases hi
  all_goals exact ⟨rfl, by decide⟩

/-- A write of part of a word where no error waits finds none (R371). -/
theorem State.rewrite_of_clean {s : State} (h : s.latent = []) (t : ThreadRef) (kind ctx k n : Nat) : s.rewrite t kind ctx k n = s := by
  rw [State.rewrite, h]; rfl

end Sys2Proof.Machine

namespace Sys2Proof.Proofs
open Sys2Proof.Machine Sys2Proof.Claims

theorem localLoads : LocalLoads := by
  intro s i h d a o n hi hp hf x s1 l t hx hl hport hb hc hw
  obtain ⟨he, hn⟩ := exec_load hi s
  exact he.trans (congrArg finish (loadM_of_local hp hf hx hn hl hport hb hc hw))
theorem globalLoads : GlobalLoads := by
  intro s i h d a o n hi hp hf x s1 g bs s2 hx ha hg hg1 hport hl
  exact (exec_load hi s).1.trans (congrArg finish (loadM_of_global hp hf hx ha hg hg1 hport hl))

theorem loadByteSource : LoadByteSource := by
  intro s r ctx e a
  refine ⟨fun b hplain hb => ?youngest, fun b hb => ?buffer, fun f hb hf => ?reflection, fun hb hf hk => ?home, fun hb => ?empty⟩
  case youngest =>
    simp only [State.loadByte, State.bufferByte_of_youngest hplain hb (e.pa a)]
  case buffer => simp only [State.loadByte, hb]
  case reflection => simp only [State.loadByte, hb]; rw [show s.reflection? (tileDie r.tile) ctx e a = some f from hf]
  case home =>
    simp only [State.loadByte, hb]
    rw [show s.reflection? (tileDie r.tile) ctx e a = none from hf]
    simp [State.homeBytes, hk, State.bytesAt, memBytes]
  case empty => simp [State.bufferByte, hb]

theorem localGranules : LocalGranules := by
  intro s h d a o hk x l hea hal hle
  obtain ⟨heff, hwin⟩ := State.effective_of_local hea hal (by omega) s
  refine ⟨fun s1 t hp hx hb hc hw => congrArg finish (?load : loadGM s _ h d a o = .ok _),
    fun s1 y s2 hp hx hy hb hm => congrArg finish (?store : storeGM s _ h d a o = .ok _)⟩
  case load =>
    simp only [loadGM, State.issue_of_checks hp hk, bind, Except.bind, hx, heff, hwin, State.loadLocal_of_clear hle hb hc]
    refine State.landNow_of_lands (v := .pat _) ?_
    change s.putPat _ d _ _ = _
    rw [toNat_ofNat_natOfBytes_granule]; exact hw
  case store =>
    simp only [storeGM, State.issue_of_checks hp hk, bind, Except.bind, hx, hy, heff, hwin,
      State.storeLocal_of_clear (bytesOfNat_length 40 _) hle hb hm]
    rfl

/-- Settles O17: the loads' courses by the window of their address, and the byte's source by the tests of R251 in their order. -/
theorem loads : Obligations.Loads := ⟨localLoads, globalLoads, loadByteSource, localGranules⟩

/-- Settles O15: a store to local memory is `storeLocal`, one beyond it `post`, which changes the store buffer alone. -/
theorem stores : Obligations.Stores := by
  intro s i h d a o n hi hp hf x s1 y s2 hx hy
  obtain ⟨he, hn⟩ := exec_store hi s
  refine ⟨fun l hl hb hm => ?_, fun g t ha hg hg2 ht => ⟨?_, ?_⟩⟩
  · rw [he, storeM_of_local hp hf hx hy hn hl hb hm]; rfl
  · rw [he, storeM_of_global hp hf hx hy ha hg hg2 ht]; rfl
  · exact (State.post_keeps ht).1

/-- Settles O16: the state after the store is `putBytes` or a longer store buffer, completed. -/
theorem storeFrame : Obligations.StoreFrame := by
  intro s i h d a o n k j hi ha hd hp hf hlat hwait x
  subst ha hd
  obtain ⟨he, hn⟩ := exec_store hi s
  have hx : s.read i h (.cat k) s = .ok (x, s) := by rw [State.read_cat, State.nameSrc_free hwait]
  have hy : s.read i h (.cat j) s = .ok (⟨s.ent (.cat j), (s.me.name j.toNat).toNat⟩, s) := by rw [State.read_cat, State.nameSrc_free hwait]
  refine ⟨fun l hl hb hm => ?localStore, fun g hal hg hroom hport => ?globalStore⟩
  case localStore =>
    refine ⟨_, he.trans (congrArg finish (storeM_of_local hp hf hx hy hn hl hb hm)), fun b hout => ?_, ?_, fun u hu => ?_, ?_, ?_⟩
    all_goals rw [State.rewrite_of_clean hlat]
    · exact State.putBytes_other s _ _ (by rwa [bytesOfNat_length])
    · exact State.me_done _ h
    · exact State.thread_setMe_other _ _ hu
    · rfl
    · rfl
  case globalStore =>
    have hlen := cutLines_length_le g (bytesOfNat n (Src.bitsOf ⟨s.ent (.cat j), (s.me.name j.toNat).toNat⟩ (8 * n)))
    obtain ⟨t, ht⟩ := State.post_of_room (s0 := s) (i := i)
      (ps := cutLines g (bytesOfNat n (Src.bitsOf ⟨s.ent (.cat j), (s.me.name j.toNat).toNat⟩ (8 * n)))) (by omega) hport
    refine ⟨t.done h, he.trans (congrArg finish (storeM_of_global hp hf hx hy hal hg hg ht)), ?_⟩
    obtain ⟨hmem, hcur, hthread, hempties, hgangs⟩ := State.post_keeps ht
    have hme : t.me = s.me := by rw [State.me, hcur]; exact hthread s.cur
    refine ⟨fun b => congrArg (memByte · b) hmem, ?_, fun u hu => ?_, hempties, hgangs⟩
    · rw [State.me_done, hme]; rfl
    · rw [State.done, State.thread_setMe_other _ _ (by rwa [hcur]), hthread]

/-- Settles O18: the two tests of the effective address, in their order. -/
theorem accessFaults : Obligations.AccessFaults := by
  intro s i h d a o n hi hp hf x s1 hx
  have he : exec i s = finish (loadM s i h d a o n) := (exec_load hi s).1
  refine ⟨fun hw => ?_, fun hw ha => ?_⟩
  · rw [he, loadM_of_read hp hf hx, State.effective_of_no_window hw]; rfl
  · rw [he, loadM_of_read hp hf hx, State.effective_of_unaligned hw ha]; rfl

end Sys2Proof.Proofs
end

section
/-! Atomics, full/empty operations and seals (14 R267 to R273, 13 R255 to R258): their courses past issue, and the statements Atomics,
FullEmpty and SealInstructions from them. -/
namespace Sys2Proof.Machine
open Sys2Proof.Claims

/-- An access that its translation admits: the memory port is free, the tile's TLB has the entry, and a port reaches the module. -/
theorem State.translate_ok {s0 s : State} {i : Instr} {kind a : Nat} {w : Bool} {ea : Int} {e : TEntry}
    (h : s0.translate i kind w ea a s = .ok e) :
    s.portHeld = false ∧ s.tlb? s.cur.tile s.myKernel.ctx a = some e ∧ s.routeDown (e.pa a) = false := by
  unfold State.translate at h
  split at h
  · cases h
  · next hport =>
    split at h
    · cases h
    · next o htlb =>
      split at h
      · cases h
      · split at h
        · cases h
        · next hroute =>
          split at h
          · cases h
          · split at h
            · cases h
            · cases h
              exact ⟨by simpa using hport, htlb, by simpa using hroute⟩
/-- What has a translation and a route, and nothing of its granule in the side log, goes to its home. -/
theorem State.noRoute_of_translate {s0 s : State} {i : Instr} {kind a : Nat} {w : Bool} {ea : Int} {e : TEntry}
    (h : s0.translate i kind w ea a s = .ok e) : s.noRoute s.cur.tile s.myKernel.ctx a = false := by
  obtain ⟨-, htlb, hroute⟩ := State.translate_ok h
  simp only [State.noRoute, htlb, hroute]

section
variable {s s1 s2 s3 s4 t : State} {i : Instr} {h : Hdr} {d a b : NameRef} {x y : Src} {sz : AmoSize} {sc : Scope} {l g : Nat}

/-! ### Atomics (R268) -/

/-- The third source of an atomic: none, or the comparand of `cas`. -/
def State.readThird (s : State) (i : Instr) (h : Hdr) (c : Option NameRef) (z : State) : M (Option Src × State) :=
  match c with
  | none => .ok (none, z)
  | some q => (s.read i h q z).map fun r => (some r.1, r.2)

theorem State.readThird_ok {c : Option NameRef} {z : Option Src} (hz : s.readThird i h c s2 = .ok (z, s3)) :
    (c = none ∧ z = none ∧ s3 = s2) ∨ ∃ q v, c = some q ∧ z = some v ∧ s.read i h q s2 = .ok (v, s3) := by
  cases c with
  | none => cases hz; exact .inl ⟨rfl, rfl, rfl⟩
  | some q =>
    cases hr : s.read i h q s2 with
    | error e => rw [State.readThird, hr] at hz; cases hz
    | ok r => rw [State.readThird, hr] at hz; cases hz; exact .inr ⟨q, r.1, rfl, rfl, hr⟩

/-- What issue checks of an atomic (R267). -/
theorem amo_checks {i : Instr} (hd : s.oneDst d = true) (hs : sizeOk i sz) :
    (s.oneDst d && (if isFadd i then sz != .d else sz != .h)) = true := by
  have hsz : (if isFadd i then sz != AmoSize.d else sz != AmoSize.h) = true := by
    cases i
    all_goals exact bne_iff_ne.2 hs
  rw [hd, hsz]; rfl

/-- An atomic of local memory (R268): fence, scoreboard and poison passed, the old bits are read and replaced in one step. -/
theorem amoM_of_local {c : Option NameRef} {f : Option Src → AmoFn} {z : Option Src} (hp : Passes s i h (a :: b :: c.toList) [d])
    (hd : s.oneDst d = true) (hs : sizeOk i sz) (hx : s.read i h a s = .ok (x, s1)) (hy : s.read i h b s1 = .ok (y, s2))
    (hz : s.readThird i h c s2 = .ok (z, s3)) (hport : s.portCheck d s3 = .ok ()) (hl : Local x.val (amoBytes sz) l)
    (hf : s.fenceOf i sc s3 = .ok ()) (hb : s3.boardAny s3.cur.tile l (amoBytes sz) = false)
    (hc : s3.poisoned (localKey s3.cur.tile l) (amoBytes sz) = false)
    (h4 : s4 = s3.found s3.cur 2 s3.myKernel.ctx (localKey s3.cur.tile l) (amoBytes sz))
    (ht : t = amoStep (f z) (amoBytes sz) (s3.natAt (localKey s3.cur.tile l) (amoBytes sz)) y (s4.putBytes (localKey s3.cur.tile l)) s4) :
    amoM s i h d a b c sz sc (isFadd i) f = .ok ((s.await h i d
      (t.amoOld d (isFadd i) (8 * amoBytes sz) (s3.natAt (localKey s3.cur.tile l) (amoBytes sz)) (y.ent.kind == .sint)) t).undoing
      [s4.changed (localKey s3.cur.tile l) (amoBytes sz) t]) := by
  obtain ⟨hea, hal, hle⟩ := hl
  have hpos : 0 < amoBytes sz := by cases sz <;> decide
  obtain ⟨heff, hwin⟩ := State.effective_of_local hea hal (by omega) s
  subst h4 ht
  obtain ⟨rfl, rfl, rfl⟩ | ⟨q, v, rfl, rfl, hr⟩ := State.readThird_ok hz
  · simp only [amoM, State.issue_of_checks hp (amo_checks hd hs), bind, Except.bind, pure, Except.pure, hx, hy, heff, hport, hwin, hf, hb, hc,
      if_neg Bool.false_ne_true, State.found_cur]
  · simp only [amoM, State.issue_of_checks hp (amo_checks hd hs), bind, Except.bind, pure, Except.pure, hx, hy, hr, heff, hport, hwin, hf, hb,
      hc, if_neg Bool.false_ne_true, State.found_cur]

/-- An atomic at a global home (R258, R268): translated, ordered, behind no full/empty operation that is served first and no poison. -/
theorem amoM_of_global {c : Option NameRef} {f : Option Src → AmoFn} {z : Option Src} {e : TEntry} {u : State}
    (hp : Passes s i h (a :: b :: c.toList) [d])
    (hd : s.oneDst d = true) (hs : sizeOk i sz) (hx : s.read i h a s = .ok (x, s1)) (hy : s.read i h b s1 = .ok (y, s2))
    (hz : s.readThird i h c s2 = .ok (z, s3)) (hport : s.portCheck d s3 = .ok ()) (hg : s.window s.me x.val = .glob g)
    (hg3 : s3.window s3.me x.val = .glob g) (hal : x.val % (amoBytes sz : Int) = 0)
    (hside : d ≠ .fixed .zero ∨ s3.sideHas s3.cur.tile s3.myKernel.ctx g = false)
    (he : s.translate i 2 true x.val g s3 = .ok e) (hh : s.atHome i sc g (e.pa g) s3 = .ok s4) (ha : s4.feAhead (e.pa g) = false)
    (hc : s4.poisoned (e.pa g) (amoBytes sz) = false) (hu : u = s4.found s4.cur 2 s3.myKernel.ctx (e.pa g) (amoBytes sz))
    (ht : t = amoStep (f z) (amoBytes sz) (natOfBytes (s4.homeBytes e.key (e.pa g) (amoBytes sz))) y
      (u.homeWrite (tileDie u.cur.tile) (some (u.writer g (amoBytes sz))) e.key (e.pa g)) u) :
    amoM s i h d a b c sz sc (isFadd i) f = .ok (((s.await h i d
      (t.amoOld d (isFadd i) (8 * amoBytes sz) (natOfBytes (s4.homeBytes e.key (e.pa g) (amoBytes sz))) (y.ent.kind == .sint)) t).viaPeer g).undoing
      [u.changed (keyedSpan e.key (e.pa g) (amoBytes sz)).1 (keyedSpan e.key (e.pa g) (amoBytes sz)).2 t]) := by
  have heff : s.effective x.val (amoBytes sz) = .ok x.val := State.effective_of_aligned (by rw [hg]; exact Win.noConfusion) hal
  obtain ⟨-, htlb, -⟩ := State.translate_ok he
  have hroute := State.noRoute_of_translate he
  have hred {rf : RedFn} (hr : (if d = .fixed .zero then redFn i else none) = some rf) : ((s3.tlb? s3.cur.tile s3.myKernel.ctx g).isNone || s3.sideHas s3.cur.tile s3.myKernel.ctx g ||
      s3.noRoute s3.cur.tile s3.myKernel.ctx g) = false := by
    rw [htlb, hside.resolve_left (Classical.not_not.2 (Option.ite_none_right_eq_some.1 hr).1), hroute]; rfl
  subst hu ht
  obtain ⟨rfl, rfl, rfl⟩ | ⟨q, v, rfl, rfl, hr⟩ := State.readThird_ok hz
  · simp only [amoM, State.issue_of_checks hp (amo_checks hd hs), bind, Except.bind, pure, Except.pure, hx, hy, heff, hport, hg3]
    split
    · next hr hcond => exact absurd hcond (by rw [hred hr]; exact Bool.false_ne_true)
    · simp only [he, hh, ha, hc, if_neg Bool.false_ne_true]
  · simp only [amoM, State.issue_of_checks hp (amo_checks hd hs), bind, Except.bind, pure, Except.pure, hx, hy, hr, heff, hport, hg3]
    split
    · next hr' hcond => exact absurd hcond (by rw [hred hr']; exact Bool.false_ne_true)
    · simp only [he, hh, ha, hc, if_neg Bool.false_ne_true]

/-! ### Full/empty operations (R269) -/

/-- A full/empty operation on a word of local memory whose fence and scoreboard let it through is its step there (R158, R269). -/
theorem feM_of_local {f : FeFn} {o : BitVec 32} (hp : Passes s i h (if f = .stf ∨ f = .sto then [a, d] else [a])
      (if f = .stf ∨ f = .sto ∨ f = .clr then [] else [d]))
    (hd : f = .stf ∨ f = .sto ∨ f = .clr ∨ s.oneDst d = true ∧ s.portCheck d s1 = .ok ()) (hx : s.read i h a s = .ok (x, s1))
    (hy : (if f = .stf ∨ f = .sto then s.read i h d s1 else .ok (x, s1)) = .ok (y, s2)) (hl : Local (x.val + o.toInt) 8 l)
    (hf : s.fenceOf i sc s2 = .ok ())
    (hb : (if f.isWrite then s2.boardAny s2.cur.tile l 8 else s2.boardW s2.cur.tile l 8) = false) :
    ∃ v, (f = .stf ∨ f = .sto → v = y.bitsOf 64) ∧ feM s i h f d a o sc = s.feStep i h f d (x.val + o.toInt) (localKey s2.cur.tile l)
      (s2.natAt (localKey s2.cur.tile l) 8) (s2.putBytes (localKey s2.cur.tile l) (bytesOfNat 8 v)) s2 s2 := by
  obtain ⟨hea, hal, hle⟩ := hl
  obtain ⟨heff, hwin⟩ := State.effective_of_local hea hal (by omega) s
  by_cases hs : f = .stf ∨ f = .sto
  · have hsb : (f == .stf || f == .sto) = true := by simpa using hs
    have hnone : f = .stf ∨ f = .sto ∨ f = .clr := hs.elim .inl fun h => .inr (.inl h)
    rw [if_pos hs, if_pos hnone] at hp
    rw [if_pos hs] at hy
    refine ⟨y.bitsOf 64, fun _ => rfl, ?_⟩
    simp only [feM, hsb, Bool.true_or, Bool.not_true, Bool.false_and, if_true, if_neg Bool.false_ne_true, State.issue_of_checks hp rfl, bind, Except.bind,
      pure, Except.pure, hx, hy, heff, hwin, hf, hb, ite_self]
  · have hsb : (f == .stf || f == .sto) = false := by simpa using hs
    rw [if_neg hs] at hp hy
    cases hy
    refine ⟨0, fun hs' => absurd hs' hs, ?_⟩
    by_cases hclr : f = .clr
    · have hcb : (f == .clr) = true := by simpa using hclr
      have hcn : (f != .clr) = false := by simpa using hclr
      rw [if_pos (.inr (.inr hclr))] at hp
      simp only [feM, hsb, hcb, hcn, Bool.or_true, Bool.true_or, Bool.and_false, if_true, if_neg Bool.false_ne_true,
        State.issue_of_checks hp rfl, bind, Except.bind, pure, Except.pure, hx, heff, hwin, hf, hb, ite_self]
    · have hcb : (f == .clr) = false := by simpa using hclr
      have hcn : (f != .clr) = true := by simpa using hclr
      have hwrites : ¬ (f = .stf ∨ f = .sto ∨ f = .clr) := fun hx => (or_assoc.2 hx).elim hs hclr
      obtain ⟨hd, hport⟩ : s.oneDst d = true ∧ s.portCheck d s1 = .ok () := by
        obtain h1 | h1 | h1 | h1 := hd
        · exact absurd (.inl h1) hs
        · exact absurd (.inr h1) hs
        · exact absurd h1 hclr
        · exact h1
      rw [if_neg hwrites] at hp
      simp only [feM, hsb, hcb, hcn, Bool.false_or, Bool.not_false, Bool.true_and, if_neg Bool.false_ne_true,
        State.issue_of_checks hp hd, bind, Except.bind, pure, Except.pure, hx, hport, heff, hwin, hf, hb, ite_self]

/-- The step of a function that its word's bit lets go on, behind no operation that is served first and, for one that reads, no poison (R269). -/
theorem State.feStep_of_goes {s0 put : State} {f : FeFn} {ea : Int} {k w : Nat} (ha : s.feAhead k = false)
    (hg : f.waits = true → f.goes (s.full k) = true) (hc : f.reads = true → s.poisoned k 8 = false) (hlat : s.latent = []) :
    s0.feStep i h f d ea k w put s s =
      .ok (feDone i h d k w s0 (if f = .stf ∨ f = .sto then s else s.activate k) put f) := by
  have hwait : (f.waits && (s.feAhead k || !f.goes (s.full k))) = false := by
    cases hw : f.waits
    · rfl
    · rw [ha, hg hw]; rfl
  have hpoison : (f.reads && s.poisoned k 8) = false := by
    cases hr : f.reads
    · rfl
    · rw [hc hr]; rfl
  rw [State.feStep, hwait, ha, hpoison, if_neg Bool.false_ne_true, if_neg Bool.false_ne_true, if_neg Bool.false_ne_true]
  cases f
  case stf => rfl
  case sto => rfl
  all_goals
    simp only [FeFn.reads, if_true, State.found_of_clean hlat]
    rfl

/-- A function that waits, at a word whose bit is not as it needs, is held there with nothing done (R213, R269). -/
theorem State.feStep_of_waits {s0 put bit : State} {f : FeFn} {ea : Int} {k w : Nat} (hw : f.waits = true) (hg : f.goes (s.full k) = false) :
    s0.feStep i h f d ea k w put bit s = .error (s0.hold i (.retry tagFull k) (some (w64 ea))) := by
  rw [State.feStep, hw, hg, if_pos (by simp)]

/-- What waits for a write waits for any entry of the scoreboard. -/
theorem State.boardW_of_boardAny {tile lo n : Nat} (hb : s.boardAny tile lo n = false) : s.boardW tile lo n = false := by
  rw [State.boardW, List.any_eq_false]
  intro e he h
  rw [State.boardAny, List.any_eq_false] at hb
  exact hb e he (by simp only [Bool.and_eq_true] at h ⊢; exact ⟨⟨h.1.1.2, h.1.2⟩, h.2⟩)

/-! ### Seals (R247, R248, R256, R257) -/

/-- A range that the table does not hold and no other seal overlaps is added behind the others while there is room (R248). -/
theorem addBind_of_new {l : List SBind} {b : SBind} (hn : l.contains b = false) (ho : ∀ o ∈ l, o.sl ≠ b.sl → o.overlaps b.start b.len = false)
    (hl : l.length < 1024) : addBind l b = .inl (l ++ [b]) := by
  have hany : (l.any fun c => c.sl != b.sl && c.overlaps b.start b.len) = false :=
    List.any_eq_false.2 fun o hm h => by
      obtain ⟨hne, hov⟩ := Bool.and_eq_true_iff.1 h
      rw [ho o hm (bne_iff_ne.1 hne)] at hov; cases hov
  rw [addBind, hn, hany, if_neg Bool.false_ne_true, if_neg Bool.false_ne_true, if_neg (Nat.not_le.2 hl)]
theorem addBind_of_overlap {l : List SBind} {b : SBind} (hn : l.contains b = false) (ho : ∃ o ∈ l, o.sl ≠ b.sl ∧ o.overlaps b.start b.len = true) :
    addBind l b = .inr 1 := by
  obtain ⟨o, hm, hne, hov⟩ := ho
  have hany : (l.any fun c => c.sl != b.sl && c.overlaps b.start b.len) = true :=
    List.any_eq_true.2 ⟨o, hm, by rw [hov, Bool.and_true]; exact bne_iff_ne.2 hne⟩
  rw [addBind, hn, hany, if_neg Bool.false_ne_true, if_pos rfl]

/-- A binding instruction whose range may be bound: the table of its context, with the range added or removed (R248, R271). -/
theorem bindM_of_read {add : Bool} {c : Context} (hp : Passes s i h [a, d] []) (hx : s.read i h a s = .ok (x, s1))
    (hy : s.read i h d s1 = .ok (y, s2)) (hport : s2.portHeld = false) (hc : s2.context? s2.myKernel.ctx = some c) (hw : y.pat < 2 ^ 58)
    (hb : boundable x.val (fieldOf y.pat 0 48) = true) :
    let b : SBind := ⟨fieldOf y.pat 48 10, x.val.toNat, fieldOf y.pat 0 48⟩
    bindM s i h d a add =
      if add then
        match addBind c.sbind b with
        | .inl t' => .ok ((s2.modContext s2.myKernel.ctx fun z => { z with sbind := t' }).done h)
        | .inr r => trapM s .seal_ (reasonVal r x.val)
      else if c.sbind.contains b then
        .ok (((s2.modContext s2.myKernel.ctx fun z => { z with sbind := c.sbind.erase b }).dropReflections (fun _ => true) s2.myKernel.ctx
          b.start b.len).done h)
      else trapM s .seal_ (reasonVal 4 x.val) := by
  have hmod : y.pat % 2 ^ 64 = y.pat := Nat.mod_eq_of_lt (Nat.lt_trans hw (by decide))
  have hzero : fieldOf y.pat 58 6 = 0 := by rw [fieldOf, Nat.div_eq_of_lt hw, Nat.zero_mod]
  simp only [bindM, State.issue_of_passes hp, bind, Except.bind, hx, hy, hport, if_neg Bool.false_ne_true, hmod, hzero, hb, hc, Option.map_some,
    Option.getD_some, ne_eq, not_true_eq_false, Bool.true_eq_false, or_self, if_false] <;> rfl

end

/-- An atomic runs the common course with its own function (R268). -/
theorem exec_atomic {i : Instr} {h : Hdr} {d a b : NameRef} {c : Option NameRef} {sz : AmoSize} {sc : Scope}
    {f : Nat → Nat → Src → Option Src → Option Nat} (hi : atomic i = some (h, d, a, b, c, sz, sc, f)) (s : State) :
    exec i s = finish (amoM s i h d a b c sz sc (isFadd i) fun z w m y => f w m y z) := by
  unfold atomic at hi
  split at hi <;> cases hi
  all_goals rfl

/-- A full/empty operation runs the common course with its function (R269). -/
theorem exec_fullEmpty {i : Instr} {h : Hdr} {d a : NameRef} {o : BitVec 32} {sc : Scope} {f : FeFn} (hi : fullEmpty i = some (h, d, a, o, sc, f))
    (s : State) : exec i s = finish (feM s i h f d a o sc) := by
  unfold fullEmpty at hi
  split at hi <;> cases hi
  all_goals rfl

end Sys2Proof.Machine

namespace Sys2Proof.Proofs
open Sys2Proof.Machine Sys2Proof.Claims

/-- Settles O19: the course of an atomic in local memory, and at a global home that its translation and its order allow. -/
theorem atomics : Obligations.Atomics := by
  intro s i h d a b c sz sc f hi hp hd hs x s1 y s2 z s3 hx hy hz hport
  have hz : s.readThird i h c s2 = .ok (z, s3) := by cases c <;> exact hz
  have he := exec_atomic hi s
  refine ⟨fun l m s4 s5 hl hf hb hc hm h4 h5 => ?inner, fun g e s4 m s5 s6 hg hg3 hal hside htr hh ha hc hm h5 h6 => ?outer⟩
  case inner =>
    subst hm
    exact he.trans (congrArg finish (amoM_of_local hp hd hs hx hy hz hport hl hf hb hc h4 h5))
  case outer =>
    subst hm
    exact he.trans (congrArg finish (amoM_of_global hp hd hs hx hy hz hport hg hg3 hal hside htr hh ha hc h5 h6))


theorem fullEmptyWords : FullEmptyWords := by
  intro s i h d a o sc f hi x s1 y s2 l k hp hd hx hy hl hk hf hb hc hlat ha hw
  subst hk
  have hboard : (if f.isWrite then s2.boardAny s2.cur.tile l 8 else s2.boardW s2.cur.tile l 8) = false := by
    rw [hb, State.boardW_of_boardAny hb, ite_self]
  obtain ⟨v, hv, hm⟩ := feM_of_local hp hd hx hy hl hf hboard
  have hgoes : f.waits = true → f.goes (s2.full (localKey s2.cur.tile l)) = true := by
    intro hwait
    cases f
    case ldf => exact hw true rfl
    case ldk => exact hw true rfl
    case stf => rw [hw false rfl]; rfl
    all_goals cases hwait
  have hclean : f.reads = true → s2.poisoned (localKey s2.cur.tile l) 8 = false := by
    intro hr
    cases f
    case stf => cases hr
    case sto => cases hr
    all_goals simpa using hc
  rw [exec_fullEmpty hi, hm, State.feStep_of_goes ha hgoes hclean hlat]
  cases f
  case stf => rw [hv (.inl rfl)]; rfl
  case sto => rw [hv (.inr rfl)]; rfl
  all_goals rfl

theorem fullEmptyWaits : FullEmptyWaits := by
  intro s h d a o sc hp hd x s1 l hx hl hport hf hb hfull
  obtain ⟨v, -, hm⟩ := feM_of_local (f := .ldf) hp (.inr (.inr (.inr ⟨hd, hport⟩))) hx rfl hl hf hb
  refine (congrArg finish (hm.trans (State.feStep_of_waits rfl ?_)))
  exact hfull

/-- Settles O20: the course on a local word is its step, which goes on or is held by the bit. -/
theorem fullEmpty : Obligations.FullEmpty := ⟨fullEmptyWords, fullEmptyWaits⟩

theorem sealBindings : SealBindings := by
  intro s h d a x y s1 s2 c b hport hc hw hb hbound
  subst hb
  refine ⟨fun hp hx hy => ⟨fun hn ho hl => ?add, fun ho hn => ?overlap⟩, fun hp hx hy hin => ?remove⟩
  all_goals have hm := fun add => bindM_of_read (add := add) hp hx hy hport hc hw hbound
  case add =>
    refine congrArg finish ((hm true).trans ?_ : bindM s _ h d a true = .ok _)
    simp only [if_true, addBind_of_new hn ho hl]
  case overlap =>
    refine congrArg finish ((hm true).trans ?_ : bindM s _ h d a true = .error _)
    simp only [if_true, addBind_of_overlap hn ho]; rfl
  case remove =>
    refine congrArg finish ((hm false).trans ?_ : bindM s _ h d a false = .ok _)
    simp only [if_neg Bool.false_ne_true, hin, if_true]

theorem seals : Seals := by
  intro s h d a sc x s1 k g e hd hk hlt hport hg hc
  have hrange : ¬ (x.val < 0 ∨ x.val > 1023) := by omega
  have hkn : x.val.toNat = k := by omega
  refine ⟨fun hp hx he hsc => ?narrow, fun hp hx he hsc => ⟨_, ?wide, rfl⟩, fun s2 v z hp hst hx he hf h2 hv hz hdur => ?release⟩
  case narrow =>
    have hwide : ¬ (sc = .dev ∨ sc = .sys ∨ sc = .recov) := by
      obtain rfl | rfl | rfl | rfl | rfl := hsc <;> decide
    refine congrArg finish (?_ : acqM s _ h d a sc = .ok _)
    simp only [acqM, State.issue_of_checks hp hd, bind, Except.bind, pure, Except.pure, hx, if_neg hrange, hport, hkn, hg, he, hc,
      if_neg Bool.false_ne_true, if_neg hwide]
  case wide =>
    refine congrArg finish (?_ : acqM s _ h d a sc = .ok _)
    simp only [acqM, State.issue_of_checks hp hd, bind, Except.bind, pure, Except.pure, hx, if_neg hrange, hport, hkn, hg, he, hc,
      if_neg Bool.false_ne_true, if_pos hsc, State.found_cur]
  case release =>
    have hnot : ¬ (sc = .recov ∧ z.undurable = true) := fun hr => absurd hr.2 (by rw [hdur hr.1]; exact Bool.false_ne_true)
    subst h2 hv hz
    refine congrArg finish (?_ : relSealM s _ h d a sc = .ok _)
    simp only [relSealM, hst, State.issue_of_checks hp hd, bind, Except.bind, pure, Except.pure, hx, if_neg hrange, hport, hkn, hg, he, hf, hc,
      Bool.not_true, if_neg Bool.false_ne_true, if_neg hnot]

/-- Settles O21: the courses of the bindings by what the table says, and of an acquire and a release from the translation of the seal word. -/
theorem sealInstructions : Obligations.SealInstructions := ⟨sealBindings, seals⟩

end Sys2Proof.Proofs
end

section
/-! The steps of the memory system (13 R252, R253, R258, R261, 04 R70) and `wid.resize` (04 R76 to R80): the statements MemorySteps and
Resizes. -/
namespace Sys2Proof.Machine
open Sys2Proof.Claims

/-! ### A posted store is performed (R252) -/

/-- The oldest entry of a store buffer, with a translation that admits the write, a route, and its bank open, lands at its home; but for the
second part of an `st.g`, which waits for the first. -/
theorem execStoreEntryPerform_of_oldest {s : State} {k : CoreRef} {e : StoreEntry} {rest : List StoreEntry} {te : TEntry}
    (hb : (s.core k).sbuf = e :: rest) (ht : s.tlb? k.tile e.ctx e.addr = some te) (hs : s.sideHas k.tile e.ctx e.addr = false) (hw : te.w = true)
    (hr : s.routeDown (te.pa e.addr) = false) (hp : s.peerRefused (te.pa e.addr) true = false) (ho : s.bankOff (te.pa e.addr) = false)
    (hf : e.form ≠ .tail) :
    execStoreEntryPerform k 0 s =
      .next ((s.setCore k { s.core k with sbuf := rest }).landStore ⟨k.tile, k.core, e.h⟩ e.seq e.ctx te e.addr e.bytes e.form) := by
  have hnext : (s.core k).sbuf[0]? = some e := by rw [hb]; rfl
  have hmay : s.sbufMay k.tile ((s.core k).sbuf.take 0) e = true := rfl
  have hroute : s.noRoute k.tile e.ctx e.addr = false := by simp only [State.noRoute, ht, hr]
  have herase : (s.core k).sbuf.eraseIdx 0 = rest := by rw [hb]; rfl
  simp only [execStoreEntryPerform, hnext, hmay, ht, hs, hroute, hw, hp, ho, hf, herase, Bool.not_true, Option.isNone_some, Bool.or_self,
    if_neg Bool.false_ne_true, false_and, if_false]

/-- A plain store lands by one write at its home (R252). -/
theorem State.landStore_plain (s : State) (t : ThreadRef) (seq ctx : Nat) (te : TEntry) (a : Nat) (bs : List Byte) :
    s.landStore t seq ctx te a bs .plain =
      ((if s.merges (te.pa a) bs.length then s.count t.coreRef 9 else s).rewrite t 1 ctx (te.pa a) bs.length).homeWrite (tileDie t.tile)
        (some ⟨t.coreRef, seq, ctx, a, bs.length⟩) te.key (te.pa a) bs := rfl

/-! ### Vault writes and replies (R70, R261) -/

/-- The oldest vault write of a buffer that no fence holds back becomes durable. -/
theorem execVaultWriteDurable_of_oldest {s : State} {v : VaultWrite} {rest : List VaultWrite} (hv : s.vwrites = v :: rest)
    (hf : s.fencedOff v = false) : execVaultWriteDurable v.buf 0 s = .next { s with vwrites := rest } := by
  have hnext : (s.vwrites.filter fun w => w.buf == v.buf)[0]? = some v := by rw [hv]; simp
  have herase : s.vwrites.erase v = rest := by rw [hv]; exact List.erase_cons_head ..
  simp only [execVaultWriteDurable, hnext, List.take_zero, List.any_nil, hf, herase, if_neg Bool.false_ne_true]

/-- With no repack at work on the core, its oldest reply lands where it can be delivered. -/
theorem execAsyncWrite_of_oldest {s t : State} {k : CoreRef} {p : Reply} {rest : List Reply} (hp : (s.core k).replies = p :: rest)
    (hr : (s.core k).repack = none) (hd : s.deliver k p = some t) :
    execAsyncWrite k s = .next (t.setCore k { t.core k with replies := (t.core k).replies.eraseIdx 0 }) := by
  simp only [execAsyncWrite, hr]
  split
  · next hnone => cases hnone
  · simp only [hp, State.firstReply, hd]

/-! ### A waiting full/empty operation (R258) -/

/-- FE_WAIT_SATISFIED runs the current thread's waiting instruction: one that the bit lets go on is performed. -/
theorem execFeWaitSatisfied_of_next {s z : State} {w : WaitRec} {k : Nat} {h : Hdr} {d a : NameRef} {o : BitVec 32} {sc : Scope} {f : FeFn}
    (hw : s.me.wait = some w) (hy : w.why = .retry 10 k) (hi : fullEmpty w.instr = some (h, d, a, o, sc, f)) (hf : wants f ≠ none)
    (hx : exec w.instr s = .next z) (hg : ∀ v, z.me.wait = some v → v.why.same (.retry 10 0) = false) (hc : z.cur = s.cur) :
    execFeWaitSatisfied s.cur s = .next z := by
  have hthread : (s.thread s.cur).wait = some w := hw
  have hzthread : z.thread s.cur = z.me := by rw [State.me, hc]
  have hback : ({ z with cur := s.cur } : State) = z := by rw [← hc]
  have hheld (v : WaitRec) (hv : z.me.wait = some v) : v.why.same (.retry tagFull 0) = false := hg v hv
  have hout : (match z.me.wait with
      | some v => if v.why.same (.retry tagFull 0) then .refused (.notEnabled "FE_WAIT_SATISFIED: the bit still holds the thread")
          else .next { z with cur := s.cur }
      | none => .next { z with cur := s.cur } : Host.Outcome State Fault Refusal) = .next z := by
    split
    · next v hv => rw [hheld v hv, if_neg Bool.false_ne_true, hback]
    · rw [hback]
  unfold fullEmpty at hi
  split at hi <;> cases hi
  case h_4 => exact absurd rfl hf
  case h_5 => exact absurd rfl hf
  case h_6 => exact absurd rfl hf
  case h_1 hinstr =>
    rw [hinstr] at hx
    change execFeLdf h d a o sc { s with cur := s.cur } = _ at hx
    simp only [execFeWaitSatisfied, hthread, hy, hinstr, hx, hzthread]
    exact hout
  case h_2 hinstr =>
    rw [hinstr] at hx
    change execFeLdk h d a o sc { s with cur := s.cur } = _ at hx
    simp only [execFeWaitSatisfied, hthread, hy, hinstr, hx, hzthread]
    exact hout
  case h_3 hinstr =>
    rw [hinstr] at hx
    change execFeStf h d a o sc { s with cur := s.cur } = _ at hx
    simp only [execFeWaitSatisfied, hthread, hy, hinstr, hx, hzthread]
    exact hout

/-! ### What a resize comes to (R77) -/

section
variable {c : Core} {k : Kernel} {n w : Nat} {m : ResizeMode} {e : NameEnt}

/-- A resize is done where its mode does not trap, where the name does not get narrower, and where every copy fits. -/
theorem Core.planResize_of_fits (he : k.cat.getD n ⟨1, .uint, .wrap, .rne, .none⟩ = e) (hf : m ≠ .trap ∨ e.width ≤ w ∨
      ∀ t, t < k.n → inRange e.kind w (valueOf e (c.copyOf k n t)) = true) :
    ∃ rows, c.planResize k n w m = (.resize n w m, rows) := by
  subst he
  unfold Core.planResize
  dsimp only
  split
  · next t hbad =>
    obtain ⟨⟨hw, hm⟩, hfind⟩ := Option.ite_none_right_eq_some.1 hbad
    have hout := List.find?_some hfind
    have hall := (hf.resolve_left (Classical.not_not.2 hm)).resolve_left (Nat.not_le.2 hw)
    rw [hall t (List.mem_range.1 (List.mem_of_find?_eq_some hfind))] at hout
    cases hout
  · exact ⟨_, rfl⟩
/-- In mode `trap` a resize is abandoned at the lowest thread whose value does not fit. -/
theorem Core.planResize_of_bad {t : Nat} (he : k.cat.getD n ⟨1, .uint, .wrap, .rne, .none⟩ = e) (hm : m = .trap) (hw : w < e.width) (ht : t < k.n)
    (hbad : inRange e.kind w (valueOf e (c.copyOf k n t)) = false)
    (hlow : ∀ j, j < t → inRange e.kind w (valueOf e (c.copyOf k n j)) = true) : c.planResize k n w m = (.abandon t, 0) := by
  subst he
  have hfind : (List.range k.n).find? (fun t => !inRange (k.cat.getD n ⟨1, .uint, .wrap, .rne, .none⟩).kind w
      (valueOf (k.cat.getD n ⟨1, .uint, .wrap, .rne, .none⟩) (c.copyOf k n t))) = some t :=
    List.find?_range_eq_some.2 ⟨by rw [hbad]; rfl, List.mem_range.2 ht, fun j hj => by rw [hlow j hj]; rfl⟩
  simp only [Core.planResize, if_pos (⟨hw, hm⟩ : _ ∧ _), hfind]
end

/-- `wid.resize` of an integer name to a width that there is, with the core's repack unit free (R76 to R80). -/
theorem resizeM_of_passes {s : State} {i : Instr} {h : Hdr} {n : BitVec 9} {m : ResizeMode} {w : BitVec 10} (hp : Passes s i h [] [.cat n])
    (hl : 1 ≤ w.toNat) (hu : w.toNat ≤ 528) (hi : (s.ent (.cat n)).kind.isInt = true) (hb : s.myCore.unitBusy s.cur.h s.mySeq = false) :
    resizeM s i h (.cat n) m w =
      if w.toNat = (s.ent (.cat n)).width then .ok (s.done h)
      else if rowsNeeded (s.myKernel.setWidth n.toNat w.toNat).widths s.myKernel.n > s.myKernel.rows + s.myKernel.reserve then
        trapM s .resizeroom (n64 (rowsNeeded (s.myKernel.setWidth n.toNat w.toNat).widths s.myKernel.n))
      else if (s.done h).myCore.settling s.myKernel then
        .ok ((s.done h).setMyCore ((s.done h).myCore.freeze s.myKernel (.resize n.toNat w.toNat m) false s.cur.h s.me.pc (s.cycle + 8)))
      else .ok ((s.done h).setMyCore ((s.done h).myCore.freeze s.myKernel (s.myCore.planResize s.myKernel n.toNat w.toNat m).1 true s.cur.h s.me.pc
        (s.cycle + 8 + (s.myCore.planResize s.myKernel n.toNat w.toNat m).2))) := by
  have hwidth : ¬ (w.toNat < 1 ∨ w.toNat > 528 ∨ (s.ent (.cat n)).kind.isInt = false) := by rw [hi]; simp; omega
  simp only [resizeM, State.issue_of_passes hp, bind, Except.bind, if_neg hwidth, hb, if_neg Bool.false_ne_true]
  rfl

end Sys2Proof.Machine

namespace Sys2Proof.Proofs
open Sys2Proof.Machine Sys2Proof.Claims

/-- Settles O23: each step's tests, in its definition's order, for the oldest entry of its queue. -/
theorem memorySteps : Obligations.MemorySteps := by
  intro s
  refine ⟨fun k e rest te hb ht hs hw hr hp ho z hz => ⟨fun hf => ?plain, fun hf => ?lands⟩, fun die l r hr hdie hva => ?evict,
    fun v rest hv hf => execVaultWriteDurable_of_oldest hv hf, fun k p rest t hp hr hd => execAsyncWrite_of_oldest hp hr hd,
    fun w k h d a o sc f z hw hy hi hf hx hg hc => execFeWaitSatisfied_of_next hw hy hi hf hx hg hc⟩
  case plain =>
    subst hz
    refine (execStoreEntryPerform_of_oldest hb ht hs hw hr hp ho (by rw [hf]; decide)).trans ?_
    rw [hf, State.landStore_plain]; rfl
  case lands => subst hz; exact execStoreEntryPerform_of_oldest hb ht hs hw hr hp ho hf
  case evict =>
    have hin : (s.reflections.any fun r => r.die == die && r.va == 64 * l) = true := List.any_eq_true.2 ⟨r, hr, by simp [hdie, hva]⟩
    refine ⟨_, if_pos hin, fun hr' => ?_, rfl, rfl⟩
    have := (List.mem_filter.1 hr').2
    simp [hdie, hva] at this

/-- Settles O13: the branches of the course of `wid.resize`, and what `planResize` comes to. -/
theorem resizes : Obligations.Resizes := by
  intro s h n m w hp hl hu hi hb
  have hx : exec (.widResize h (.cat n) m w) s = finish (resizeM s _ h (.cat n) m w) := rfl
  rw [hx, resizeM_of_passes hp hl hu hi hb]
  refine ⟨fun hw => ?same, fun q hw hq hroom => ?noRoom, fun hw hroom => ⟨fun hf => ?frozen, fun t hm hlt hset ht hbad hlow => ?abandoned⟩⟩
  case same => rw [if_pos hw]; rfl
  case noRoom => subst hq; rw [if_neg hw, if_pos hroom]; rfl
  case frozen =>
    rw [if_neg hw, if_neg (Nat.not_lt.2 hroom)]
    cases hset : (s.done h).myCore.settling s.myKernel
    · rw [hset, or_iff_right (a := false = true) Bool.false_ne_true] at hf
      obtain ⟨rows, hplan⟩ := Core.planResize_of_fits (c := s.myCore) (k := s.myKernel) (n := n.toNat) rfl hf
      exact ⟨s.cycle + 8 + rows, by omega, by rw [hplan, if_neg Bool.false_ne_true]; rfl⟩
    · exact ⟨s.cycle + 8, by omega, rfl⟩
  case abandoned =>
    rw [if_neg hw, if_neg (Nat.not_lt.2 hroom), hset, if_neg Bool.false_ne_true,
      Core.planResize_of_bad (c := s.myCore) (k := s.myKernel) (n := n.toNat) rfl hm hlt ht hbad hlow]; rfl

end Sys2Proof.Proofs
end

section
/-! Tasks, steals and tours (12 R227 to R235, 14 R274, R275): the statements Tasks and StealsAndTours. -/
namespace Sys2Proof.Machine
open Sys2Proof.Claims

/-! ### The deque (R229) -/

section
variable {s s1 s2 : State} {h : Hdr} {a b d : NameRef} {x y : Src}

/-- Completing an instruction changes the threads of its core and nothing else of it. -/
theorem State.myCore_done (s : State) (h : Hdr) : ∃ ts, (s.done h).myCore = { s.myCore with threads := ts } :=
  ⟨_, s.core_setThread s.cur _⟩
/-- A deque that its own kernel owns, or that is empty, admits a push. -/
theorem Core.dq_admits {c : Core} {sb : Nat} (ho : c.dqHas = true → c.dqOwner = some sb) : ¬ (c.dqHas = true ∧ c.dqOwner ≠ some sb) :=
  fun hn => hn.2 (ho hn.1)

/-- Local memory with the oldest hardware record spilled behind the others (R229). -/
def State.spillOldest (s : State) : State :=
  let o := s.myCore.dq.headD ⟨0, 0⟩
  let p := spillPos s.cur.core ((s.myCore.shead.toNat + s.myCore.scnt) % 64)
  (s.putLocalWord s.cur.tile p o.entry).putLocalWord s.cur.tile (p + 8) o.arg.toNat
/-- The state with the oldest hardware record spilled and a record pushed (R229). -/
def State.spilling (s : State) (k : Task) : State :=
  s.spillOldest.setMyCore ({ s.myCore with dq := s.myCore.dq.tail, scnt := s.myCore.scnt + 1 }.push k s.myKernel.sb s.cycle)
theorem State.me_putLocalWord (s : State) (tile a v : Nat) : (s.putLocalWord tile a v).me = s.me := rfl
theorem State.myCore_putLocalWord (s : State) (tile a v : Nat) : (s.putLocalWord tile a v).myCore = s.myCore := rfl
theorem State.spillOldest_me (s : State) : s.spillOldest.me = s.me :=
  (State.me_putLocalWord ..).trans (State.me_putLocalWord ..)
theorem State.spillOldest_myCore (s : State) : s.spillOldest.myCore = s.myCore :=
  (State.myCore_putLocalWord ..).trans (State.myCore_putLocalWord ..)
theorem State.spilling_core (s : State) (k : Task) :
    (s.spilling k).myCore.dq = s.myCore.dq.tail ++ [k] ∧ (s.spilling k).myCore.scnt = s.myCore.scnt + 1 ∧
    (s.spilling k).me = s.me := by
  have hc : (s.spilling k).myCore = { s.myCore with dq := s.myCore.dq.tail, scnt := s.myCore.scnt + 1 }.push k s.myKernel.sb s.cycle :=
    State.myCore_setMyCore ..
  refine ⟨by rw [hc]; rfl, by rw [hc]; rfl, (State.me_setMyCore ?_).trans s.spillOldest_me⟩
  rw [s.spillOldest_myCore]; rfl

/-- `task.spawn` of an admitted entry, on a deque of its own kernel (R229, R230). -/
theorem spawnM_of_read (hp : Passes s (.taskSpawn h a b) h [a, b] []) (hx : s.read (.taskSpawn h a b) h a s = .ok (x, s1))
    (hy : s.read (.taskSpawn h a b) h b s1 = .ok (y, s2)) (ht : Target x.val) (ho : s2.myCore.dqHas = true → s2.myCore.dqOwner = some s2.myKernel.sb) :
    spawnM s h a b =
      if s2.myCore.dqBusy s2.cycle then holdM s (.taskSpawn h a b) tagDeque none
      else if s2.myCore.dq.length < 32 then
        .ok ((s2.setMyCore (s2.myCore.push ⟨x.val.toNat, w64 y.val⟩ s2.myKernel.sb s2.cycle)).done h)
      else if s2.myCore.scnt ≥ 64 then trapM s .deque 0
      else .ok ((s2.spilling ⟨x.val.toNat, w64 y.val⟩).done h) := by
  simp only [spawnM, State.issue_of_passes hp, bind, Except.bind, hx, hy, targetCause_of_target ht, if_neg (Core.dq_admits ho)]
  rfl

/-- `task.pop` of a kernel that owns the deque takes its youngest record (R229). -/
theorem popM_of_owner (hp : Passes s (.taskPop h d) h [] [d]) (hd : s.argDst d = true) (ho : s.myCore.dqOwner = some s.myKernel.sb) :
    popM s h d = if s.myCore.dqBusy s.cycle then holdM s (.taskPop h d) tagDeque none
      else match s.takeYoung s.cur.coreRef with
        | (.empty, s2) => .ok (s2.done h)
        | (.record k, s2) => .ok (s2.giveRecord s2.cur d s.me.pc k)
        | (.poisoned a, s2) => .error (s2.takeTrap s2.cur .poison s.me.pc (n64 a)) := by
  simp only [popM, State.issue_of_checks hp hd, bind, Except.bind, ho, ne_eq, not_true_eq_false, if_false] <;> rfl
end

/-- The youngest record of a deque whose hardware part is not empty is its last (R229). -/
theorem State.takeYoung_of_last {s : State} {r : CoreRef} {q : List Task} {k : Task} (hq : (s.core r).dq = q ++ [k]) :
    s.takeYoung r = (.record k, s.setCore r ({ s.core r with dq := q }.tookOne s.cycle)) := by
  have hlast : (s.core r).dq.getLast? = some k := by rw [hq]; simp
  have hrest : (s.core r).dq.dropLast = q := by rw [hq]; simp
  simp only [State.takeYoung, hlast, hrest]
theorem State.takeYoung_of_empty {s : State} {r : CoreRef} (hq : (s.core r).dq = []) (hs : (s.core r).scnt = 0) : s.takeYoung r = (.empty, s) := by
  simp only [State.takeYoung, hq, hs, List.getLast?_nil, if_true]
/-- The oldest record, with none spilled, is the first of the hardware part (R229). -/
theorem State.takeOld_of_first {s : State} {r : CoreRef} {q : List Task} {k : Task} (hq : (s.core r).dq = k :: q) (hs : (s.core r).scnt = 0) :
    s.takeOld r = (.record k, s.setCore r ({ s.core r with dq := q }.tookOne s.cycle)) := by
  simp only [State.takeOld, hs, hq, ne_eq, not_true_eq_false, if_false]
theorem Core.dqBusy_of_le {c : Core} {n : Nat} (h : c.dqUsed ≤ n) : c.dqBusy n = false := by
  rw [Core.dqBusy, beq_eq_false_iff_ne]; omega

/-! ### Steals (R230) -/

/-- What a list of pairs gives for a key is in it. -/
theorem mem_of_getA {α : Type} {l : List (Nat × α)} {k : Nat} {v : α} (h : getA l k = some v) : (k, v) ∈ l := by
  induction l with
  | nil => cases h
  | cons e l ih =>
    obtain ⟨j, w⟩ := e
    rw [getA] at h
    split at h
    · next hk => cases h; subst hk; exact List.mem_cons_self
    · exact List.mem_cons_of_mem _ (ih h)
/-- A thread whose message stands at a core is stealing. -/
theorem State.stealing_of_mem {s : State} {r : CoreRef} {m : StealMsg} (hm : m ∈ (s.core r).stealMsgs) : s.stealing m.thief = true := by
  have hcore : (s.core r).stealMsgs.any (fun m' => m'.thief == m.thief) = true := List.any_eq_true.2 ⟨m, hm, beq_self_eq_true _⟩
  cases ht : getA s.tiles r.tile with
  | none =>
    have hfresh : (s.core r).stealMsgs = [] := by
      rw [State.core, State.tile, ht]
      change (Tile.fresh.cores[r.core]).stealMsgs = []
      simp [Tile.fresh, Core.fresh]
    rw [hfresh] at hm; cases hm
  | some x =>
    refine List.any_eq_true.2 ⟨(r.tile, x), mem_of_getA ht, List.any_eq_true.2 ⟨s.core r, ?_, hcore⟩⟩
    rw [State.core, State.tile, ht]
    exact Vector.mem_toList_iff.2 (Vector.getElem_mem _)

/-- A victim is a neighbour. -/
theorem State.victim_ne {s : State} {t : ThreadRef} {d : Dir} {n : Nat} (h : s.victim t d = some n) : n ≠ t.tile := by
  unfold State.victim at h
  split at h
  · next m hm =>
    obtain ⟨-, he⟩ := Option.ite_none_right_eq_some.1 h
    cases he; exact tileNext_ne hm
  · cases h

/-- The next request of a round (R230): the wait goes on with the directions left, the core has tried this one, and the request is on its way. -/
theorem State.sendSteal_of_victim {s : State} {t : ThreadRef} {l rest : List Dir} {d : Dir} {n : Nat} (w : WaitRec)
    (hl : s.victims t l = d :: rest) (hn : s.victim t d = some n) :
    ∃ y, s.sendSteal t l w = some y ∧ y.cur = s.cur ∧ y.mem = s.mem ∧
      y.thread t = { s.thread t with wait := some { w with why := .steal rest } } ∧ (y.core t.coreRef).stealDir = d ∧
      (y.core ⟨n, t.core⟩).stealMsgs = (s.core ⟨n, t.core⟩).stealMsgs ++ [⟨t, d, s.cycle + 4, none, false⟩] := by
  have hne : (⟨n, t.core⟩ : CoreRef) ≠ t.coreRef := fun h => State.victim_ne hn (congrArg CoreRef.tile h)
  refine ⟨?y, ?run, ?cur, ?mem, ?thread, ?dir, ?msgs⟩
  case run => simp only [State.sendSteal, hl, hn]; rfl
  case cur => rfl
  case mem => rfl
  case thread => rw [State.thread_setCore _ _ _ (by exact rfl), State.thread_setCore _ _ _ (by exact rfl), State.thread_setThread_same]
  case dir => rw [State.core_setCore_other _ _ (Ne.symm hne), State.core_setCore_same]
  case msgs => rw [State.core_setCore_same, State.core_setCore_other _ _ hne, State.setThread, State.core_setCore_other _ _ hne]
theorem State.sendSteal_of_none {s : State} {t : ThreadRef} {l : List Dir} (w : WaitRec) (hl : s.victims t l = []) :
    s.sendSteal t l w = none := by
  simp only [State.sendSteal, hl]
/-- A direction that is listed has its victim. -/
theorem State.victim_of_victims {s : State} {t : ThreadRef} {l rest : List Dir} {d : Dir} (hl : s.victims t l = d :: rest) :
    ∃ n, s.victim t d = some n :=
  Option.isSome_iff_exists.1 (List.mem_filter.1 (hl ▸ List.mem_cons_self : d ∈ s.victims t l)).2

/-- Changing a core leaves the gang of every tile alone. -/
theorem State.gang_setCore (s : State) (r : CoreRef) (c : Core) (k : Nat) : ((s.setCore r c).tile k).gang = (s.tile k).gang := by
  unfold State.setCore
  by_cases hk : k = r.tile
  · subst hk; rw [State.tile_setTile_same]
  · rw [State.tile_setTile_other _ _ hk]
theorem State.victim_setCore (s : State) (r : CoreRef) (c : Core) (t : ThreadRef) (d : Dir) : (s.setCore r c).victim t d = s.victim t d := by
  have hsvc : (s.setCore r c).svc = s.svc := rfl
  simp only [State.victim, State.gang_setCore, hsvc]
theorem State.victims_setCore (s : State) (r : CoreRef) (c : Core) (t : ThreadRef) (l : List Dir) : (s.setCore r c).victims t l = s.victims t l := by
  simp only [State.victims, State.victim_setCore]
/-- A round tries every direction (R230). -/
theorem mem_stealOrder (d q : Dir) : q ∈ stealOrder d := by cases d <;> cases q <;> decide
theorem mem_directions (q : Dir) : q ∈ [Dir.n, Dir.e, Dir.s, Dir.w] := by cases q <;> decide
/-- A round has a victim exactly when some direction has one. -/
theorem State.victims_stealOrder_eq_nil (s : State) (t : ThreadRef) (d : Dir) :
    s.victims t (stealOrder d) = [] ↔ s.victims t [.n, .e, .s, .w] = [] := by
  simp only [State.victims, List.filter_eq_nil_iff]
  exact ⟨fun h q _ => h q (mem_stealOrder d q), fun h q _ => h q (mem_directions q)⟩

theorem State.setMe_victims (s : State) (x : Thread) (t : ThreadRef) (l : List Dir) : (s.setMe x).victims t l = s.victims t l :=
  s.victims_setCore ..
/-- `task.steal` sends the first request of a round, or goes on where it has no victim (R230, R275). -/
theorem stealM_of_checks {s : State} {h : Hdr} {d : NameRef} (hp : Passes s (.taskSteal h d) h [] [d]) (hd : s.argDst d = true) :
    stealM s h d = match (s.setMe { s.me with st := .waiting }).sendSteal s.cur (stealOrder (s.setMe { s.me with st := .waiting }).myCore.stealDir)
        (s.newWait (.taskSteal h d) (.steal [])) with
      | some z => .ok z
      | none => .ok (s.done h) := by
  simp only [stealM, State.issue_of_checks hp hd, bind, Except.bind] <;> rfl

/-! ### The tour (R235) -/

/-- What the finish message does to one thread of the kernel. -/
def State.wakeParked (k : CoreRef) (z : State) (h : Fin 8) : State :=
  let r : ThreadRef := ⟨k.tile, k.core, h⟩
  match (z.thread r).wait with
  | some w => (match w.taskWait with
    | some (_, pc, len) => if (z.thread r).st = .parked then z.goOn r pc len else z
    | none => z)
  | none => z

section
variable {k : CoreRef} {z : State} {h : Fin 8}
theorem State.wakeParked_other {u : ThreadRef} (hu : u ≠ ⟨k.tile, k.core, h⟩) : (State.wakeParked k z h).thread u = z.thread u := by
  unfold State.wakeParked
  dsimp only
  split
  · split
    · split
      · exact State.thread_setThread_other _ _ hu
      · rfl
    · rfl
  · rfl
theorem State.wakeParked_of_parked {w : WaitRec} {d : NameRef} {pc len : Nat} (hw : (z.thread ⟨k.tile, k.core, h⟩).wait = some w)
    (he : w.taskWait = some (d, pc, len)) (hs : (z.thread ⟨k.tile, k.core, h⟩).st = .parked) :
    ((State.wakeParked k z h).thread ⟨k.tile, k.core, h⟩).st = .ready ∧ ((State.wakeParked k z h).thread ⟨k.tile, k.core, h⟩).pc = pc + len ∧
    ((State.wakeParked k z h).thread ⟨k.tile, k.core, h⟩).wait = none := by
  have hx : State.wakeParked k z h = z.goOn ⟨k.tile, k.core, h⟩ pc len := by simp only [State.wakeParked, hw, he, hs, if_true]
  rw [hx, State.goOn, State.thread_setThread_same, Thread.goes, hs]
  exact ⟨rfl, rfl, rfl⟩
theorem State.wakeParked_of_awake (hw : (z.thread ⟨k.tile, k.core, h⟩).wait = none) (j : Fin 8) :
    (State.wakeParked k z j).thread ⟨k.tile, k.core, h⟩ = z.thread ⟨k.tile, k.core, h⟩ := by
  by_cases hj : h = j
  · subst hj; simp only [State.wakeParked, hw]
  · exact State.wakeParked_other fun e => hj (congrArg ThreadRef.h e)
theorem State.wakeParked_mem : (State.wakeParked k z h).mem = z.mem := by
  unfold State.wakeParked
  dsimp only
  split
  · split
    · split <;> rfl
    · rfl
  · rfl

/-- The finish message wakes every parked thread of the kernel. -/
theorem State.foldl_wakeParked {l : List (Fin 8)} {w : WaitRec} {d : NameRef} {pc len : Nat} (hl : h ∈ l)
    (hw : (z.thread ⟨k.tile, k.core, h⟩).wait = some w) (he : w.taskWait = some (d, pc, len))
    (hs : (z.thread ⟨k.tile, k.core, h⟩).st = .parked) :
    ((l.foldl (State.wakeParked k) z).thread ⟨k.tile, k.core, h⟩).st = .ready ∧
    ((l.foldl (State.wakeParked k) z).thread ⟨k.tile, k.core, h⟩).pc = pc + len := by
  induction l generalizing z with
  | nil => cases hl
  | cons j l ih =>
    rw [List.foldl_cons]
    by_cases hj : h = j
    · subst hj
      obtain ⟨hst, hpc, hawake⟩ := State.wakeParked_of_parked hw he hs
      have hrest : (l.foldl (State.wakeParked k) (State.wakeParked k z h)).thread ⟨k.tile, k.core, h⟩ =
          (State.wakeParked k z h).thread ⟨k.tile, k.core, h⟩ := by
        generalize State.wakeParked k z h = y at hawake
        clear ih hl
        induction l generalizing y with
        | nil => rfl
        | cons i l ih =>
          have hi := State.wakeParked_of_awake hawake i
          rw [List.foldl_cons, ih (y := State.wakeParked k y i) (by rw [hi]; exact hawake), hi]
      rw [hrest]; exact ⟨hst, hpc⟩
    · have ho : (State.wakeParked k z j).thread ⟨k.tile, k.core, h⟩ = z.thread ⟨k.tile, k.core, h⟩ :=
        State.wakeParked_other fun e => hj (congrArg ThreadRef.h e)
      exact ih ((List.mem_cons.1 hl).resolve_left hj) (by rw [ho]; exact hw) (by rw [ho]; exact hs)
end

/-! ### What the steps of a tour answer (R234, R235) -/

section
variable {s : State} {k : CoreRef} {g : Nat} {x : Gang} {t : Tour} {kn : Kernel}

theorem execTourRoundStart_of_passive (ht : s.toursAt k = [(g, x, t, kn)]) (ha : t.armed = true) (hf : t.finished = false) (hk : t.token = none)
    (hm : t.finish = none) (hr : (s.ring x).head? = some k.tile) (hp : s.passive k kn = true) :
    execTourRoundStart k s = .next ((s.setCore k { s.core k with tourFlag := false }).modTour g t.pos fun t =>
      { t with token := some (1, false, s.cycle + ringTime (s.ring x) 0) }) := by
  simp only [execTourRoundStart, ht, List.find?_cons, ha, hf, hk, hm, hr, hp, Bool.not_false, Option.isNone_none, beq_self_eq_true, Bool.and_self]

/-- A token that is at a passive core, or back at the root, is found there. -/
theorem execTourToken_of_token {n c : Nat} {m : Bool} (ht : s.toursAt k = [(g, x, t, kn)]) (hk : t.token = some (n, m, c)) (hc : c ≤ s.cycle)
    (hr : (s.ring x).getD (n % (s.ring x).length) 0 = k.tile) (hp : s.passive k kn = true) :
    execTourToken k s =
      if n = (s.ring x).length then
        if !m ∧ (s.core k).tourFlag = false ∧ s.passive k kn = true then
          .next (s.modTour g t.pos fun t => { t with token := none, finished := true, finish := some (0, s.cycle) })
        else .next (s.modTour g t.pos fun t => { t with token := none })
      else .next ((s.setCore k { s.core k with tourFlag := false }).modTour g t.pos fun t =>
        { t with token := some (n + 1, m || (s.core k).tourFlag, s.cycle + ringTime (s.ring x) n) }) := by
  have hhere : c ≤ s.cycle ∧ (s.ring x).getD (n % (s.ring x).length) 0 = k.tile ∧ (n = (s.ring x).length ∨ s.passive k kn = true) :=
    ⟨hc, hr, .inr hp⟩
  simp only [execTourToken, ht, List.findSome?_cons, hk, if_pos hhere]

theorem execTourFinish_of_message {n c : Nat} (ht : s.toursAt k = [(g, x, t, kn)]) (hf : t.finish = some (n, c)) (hc : c ≤ s.cycle)
    (hr : (s.ring x).getD n 0 = k.tile) (hk : (s.core k).repack = none) (hp : s.passive k kn = true) :
    execTourFinish k s = .next ((kn.hthreads.foldl (State.wakeParked k) s).modTour g t.pos fun t =>
      { t with finish := if n + 1 < (s.ring x).length then some (n + 1, s.cycle + ringTime (s.ring x) n) else none }) := by
  have hhere : c ≤ s.cycle ∧ (s.ring x).getD n 0 = k.tile ∧ (s.core k).repack.isNone = true ∧ s.passive k kn = true :=
    ⟨hc, hr, by rw [hk]; rfl, hp⟩
  simp only [execTourFinish, ht, List.findSome?_cons, hf, if_pos hhere]
  rfl
end

/-! ### What the steps of a steal answer (R230) -/

section
variable {s : State} {k : CoreRef} {t : ThreadRef} {m : StealMsg} {w : WaitRec} {l : List Dir} {d : NameRef} {pc n : Nat}

/-- A request of a kernel that the deque serves, alone at its victim, with no record spilled (R229, R230). -/
theorem execStealRequest_of_record {r : Task} {q : List Task} (hm : (s.core k).stealMsgs = [m]) (hr : m.reply = false) (ha : m.arrive ≤ s.cycle)
    (hb : (s.core k).dqUsed ≤ s.cycle) (hv : s.mayServe k m.thief = true) (hs : (s.core k).scnt = 0) (hq : (s.core k).dq = r :: q)
    (hne : m.thief.coreRef ≠ k) : ∃ z, execStealRequest k s = .next z ∧ (z.core k).dq = q ∧ (z.core k).tourFlag = true ∧
      (z.core m.thief.coreRef).stealMsgs = (s.core m.thief.coreRef).stealMsgs ++ [⟨m.thief, m.dir, s.cycle + 4, some r, true⟩] := by
  have hready : (s.core k).stealMsgs.filter (fun m => !m.reply && decide (m.arrive ≤ s.cycle)) = [m] := by
    rw [hm]; simp [hr, ha]
  have hc := Core.dqBusy_of_le hb
  let s1 := s.setCore k { s.core k with stealMsgs := (s.core k).stealMsgs.erase m, dqUsed := s.cycle + 1 }
  have h1 : s1.core k = { s.core k with stealMsgs := (s.core k).stealMsgs.erase m, dqUsed := s.cycle + 1 } := State.core_setCore_same ..
  have htake : s1.takeOld k = (.record r, s1.setCore k ({ s1.core k with dq := q }.tookOne s1.cycle)) :=
    State.takeOld_of_first (by rw [h1]; exact hq) (by rw [h1]; exact hs)
  let s2 := (s1.setCore k ({ s1.core k with dq := q }.tookOne s1.cycle)).setCore k
    { (s1.setCore k ({ s1.core k with dq := q }.tookOne s1.cycle)).core k with tourFlag := true }
  have hrun : execStealRequest k s = .next (s2.setCore m.thief.coreRef { s2.core m.thief.coreRef with
      stealMsgs := (s2.core m.thief.coreRef).stealMsgs ++ [⟨m.thief, m.dir, s.cycle + 4, some r, true⟩] }) := by
    simp only [execStealRequest, hready, List.foldl_nil, hc, if_neg Bool.false_ne_true, hv, if_true]
    rw [show (s.setCore k { s.core k with stealMsgs := (s.core k).stealMsgs.erase m, dqUsed := s.cycle + 1 }).takeOld k = _ from htake]
  have hk2 : s2.core k = { ({ s1.core k with dq := q }.tookOne s1.cycle) with tourFlag := true } := by
    rw [State.core_setCore_same, State.core_setCore_same]
  have ho2 : s2.core m.thief.coreRef = s.core m.thief.coreRef := by
    rw [State.core_setCore_other _ _ hne, State.core_setCore_other _ _ hne, State.core_setCore_other _ _ hne]
  refine ⟨_, hrun, ?_, ?_, ?_⟩
  · rw [State.core_setCore_other _ _ (Ne.symm hne), hk2]; rfl
  · rw [State.core_setCore_other _ _ (Ne.symm hne), hk2]
  · rw [State.core_setCore_same, ho2]

/-- A reply that has arrived alone at the thief's core, which no repack holds. -/
theorem execStealReply_of_reply (hm : (s.core t.coreRef).stealMsgs = [m]) (hr : m.reply = true) (hth : m.thief = t) (ha : m.arrive ≤ s.cycle)
    (hk : (s.core t.coreRef).repack = none) (hw : (s.thread t).wait = some w) (hy : w.why = .steal l) (he : w.taskWait = some (d, pc, n)) :
    execStealReply t s = (match m.rec? with
      | some r => .next ((s.setCore t.coreRef { s.core t.coreRef with stealMsgs := [] }).giveRecord t d pc r)
      | none => (match (if (match w.instr with | .taskPark _ _ => true | _ => false : Bool) && (s.thread t).st == .frozen then none
            else (s.setCore t.coreRef { s.core t.coreRef with stealMsgs := [] }).sendSteal t l w) with
          | some s2 => .next s2
          | none => if (match w.instr with | .taskPark _ _ => true | _ => false : Bool) then
              .next ((s.setCore t.coreRef { s.core t.coreRef with stealMsgs := [] }).setThread t
                { (s.setCore t.coreRef { s.core t.coreRef with stealMsgs := [] }).thread t with wait := some { w with why := .steal [] } })
            else .next ((s.setCore t.coreRef { s.core t.coreRef with stealMsgs := [] }).goOn t pc n))) := by
  have hfind : (s.core t.coreRef).stealMsgs.find? (fun m => m.reply && m.thief == t && decide (m.arrive ≤ s.cycle)) = some m := by
    rw [hm]; simp [hr, hth, ha]
  have herase : (s.core t.coreRef).stealMsgs.erase m = [] := by rw [hm]; simp
  have hpack : (s.core t.coreRef).repacking t.h = false := by simp only [Core.repacking, hk]
  simp only [execStealReply, hfind, hpack, herase, hw, hy, he, if_neg Bool.false_ne_true]
  cases m.rec? <;> rfl
end

end Sys2Proof.Machine

namespace Sys2Proof.Proofs
open Sys2Proof.Machine Sys2Proof.Claims

theorem dequeOfTasks : DequeOfTasks := by
  intro s h a b d
  refine ⟨fun hp x s1 y s2 hx hy ht ho => ?spawn, fun hp hd => ⟨fun ho hb => ?popBusy, fun q k ho hb hq => ?pop, fun hb hq hs => ?popEmpty⟩⟩
  case spawn =>
    have he : exec (.taskSpawn h a b) s = finish (spawnM s h a b) := rfl
    rw [he, spawnM_of_read hp hx hy ht ho]
    refine ⟨fun hb => ?busy, fun hb hl => ?room, fun o q hb hq hl hs => ?spill, fun hb hl hs => ?full⟩
    case busy => rw [hb, if_pos rfl]; rfl
    all_goals rw [hb, if_neg Bool.false_ne_true]
    case room => rw [if_pos hl]; rfl
    all_goals rw [if_neg (Nat.not_lt.2 hl)]
    case full => rw [if_pos hs]; rfl
    case spill =>
      rw [if_neg (Nat.not_le.2 hs)]
      obtain ⟨hdq, hscnt, hme⟩ := s2.spilling_core ⟨x.val.toNat, w64 y.val⟩
      obtain ⟨ts, hc⟩ := State.myCore_done (s2.spilling ⟨x.val.toNat, w64 y.val⟩) h
      refine ⟨_, rfl, ?_, ?_, ?_⟩
      · rw [hc]; exact hdq.trans (by rw [hq, List.tail_cons])
      · rw [hc]; exact hscnt
      · rw [State.me_done, hme]; rfl
  case popBusy => exact congrArg finish ((popM_of_owner hp hd ho).trans (by rw [hb, if_pos rfl]) : popM s h d = holdM s _ _ _)
  case pop =>
    refine congrArg finish ((popM_of_owner hp hd ho).trans ?_ : popM s h d = .ok _)
    rw [hb, if_neg Bool.false_ne_true, State.takeYoung_of_last hq]; rfl
  case popEmpty =>
    refine congrArg finish (?_ : popM s h d = .ok _)
    by_cases ho : s.myCore.dqOwner = some s.myKernel.sb
    · rw [popM_of_owner hp hd ho, hb, if_neg Bool.false_ne_true, State.takeYoung_of_empty hq hs]
    · simp only [popM, State.issue_of_checks hp hd, bind, Except.bind, if_pos ho]; rfl

theorem taskWaits : TaskWaits := by
  intro s h d hd
  refine ⟨fun hp hv => ?steal, fun hp hv => ?alone, fun hp => ?park, fun hp ht => ?tour, fun t hp hw => ?done⟩
  case steal =>
    let z := s.setMe { s.me with st := .waiting }
    have hvz : z.victims s.cur (stealOrder z.myCore.stealDir) ≠ [] := by
      rw [State.setMe_victims, ne_eq, State.victims_stealOrder_eq_nil]; exact hv
    obtain ⟨dir, rest, hl⟩ := List.exists_cons_of_ne_nil hvz
    obtain ⟨n, hn⟩ := State.victim_of_victims hl
    obtain ⟨y, hy, hcur, -, hthread, -, hmsgs⟩ := State.sendSteal_of_victim (s.newWait (.taskSteal h d) (.steal [])) hl hn
    have hrun : stealM s h d = .ok y := (stealM_of_checks hp hd).trans (by rw [show z.sendSteal s.cur _ _ = some y from hy])
    have hme : y.me = { z.me with wait := some { s.newWait (.taskSteal h d) (.steal []) with why := .steal rest } } := by
      rw [State.me, hcur]; exact hthread
    rw [State.me_setMe] at hme
    refine ⟨y, congrArg finish hrun, by rw [hme], by rw [hme], by rw [hme], ?_⟩
    exact State.stealing_of_mem (m := ⟨s.cur, dir, z.cycle + 4, none, false⟩) (by rw [hmsgs]; simp)
  case alone =>
    have hvz := (State.victims_stealOrder_eq_nil s s.cur (s.setMe { s.me with st := .waiting }).myCore.stealDir).2 hv
    rw [← State.setMe_victims s { s.me with st := .waiting }] at hvz
    exact congrArg finish ((stealM_of_checks hp hd).trans (by rw [State.sendSteal_of_none _ hvz]) : stealM s h d = .ok _)
  case park =>
    have hrun : parkM s h d = .ok (s.setMe { s.me with st := .parked, wait := some (s.newWait (.taskPark h d) (.steal [])) }) := by
      simp only [parkM, State.issue_of_checks hp hd]; rfl
    exact ⟨_, congrArg finish hrun, by rw [State.me_setMe], by rw [State.me_setMe], by rw [State.me_setMe], rfl⟩
  case tour =>
    refine congrArg finish (?_ : tourM s h = .ok _)
    simp only [tourM, State.issue_of_passes hp, bind, Except.bind, ht]; rfl
  case done =>
    refine congrArg finish (?_ : taskDoneM s h d = .ok _)
    simp only [taskDoneM, State.issue_of_checks hp hd, bind, Except.bind, hw]; rfl

/-- Settles O24: the deque's branches in their order, and each waiting task instruction's course. -/
theorem tasks : Obligations.Tasks := ⟨dequeOfTasks, taskWaits⟩

theorem stealSteps : StealSteps := by
  intro s k t
  refine ⟨fun m r q hm hrep harr hbusy hmay hs hq hne => execStealRequest_of_record hm hrep harr hbusy hmay hs hq hne,
    fun m r w l d pc n hm hrep hth harr hpack hrec hw hy he => ?record,
    fun m w l d pc n z hm hrep hth harr hpack hrec hw hwhy he hfroz hz => ⟨fun dir rest v hl hv => ?next, fun hl hi => ?ends, fun hl hi => ?parks⟩,
    fun w r q d pc n hw hst hsteal hpack he hh ho hbusy hq => ?park⟩
  case record =>
    refine (execStealReply_of_reply hm hrep hth harr hpack hw hy he).trans ?_
    rw [hrec]
  case next =>
    subst hz
    have hgo : ((match w.instr with | .taskPark _ _ => true | _ => false : Bool) && (s.thread t).st == .frozen) = false := by
      split
      · next h e hi => rw [Bool.true_and, beq_eq_false_iff_ne]; exact hfroz ⟨h, e, hi⟩
      · rfl
    obtain ⟨y, hy, -, hmem, hthread, hdir, hmsgs⟩ := State.sendSteal_of_victim w hl hv
    refine ⟨y, (execStealReply_of_reply hm hrep hth harr hpack hw hwhy he).trans ?_, hmem, congrArg Thread.wait hthread, hdir, hmsgs⟩
    rw [hrec, hgo, if_neg Bool.false_ne_true, hy]
  case ends =>
    subst hz
    obtain ⟨h, e, hi⟩ := hi
    refine (execStealReply_of_reply hm hrep hth harr hpack hw hwhy he).trans ?_
    simp only [hrec, hi, Bool.false_and, if_neg Bool.false_ne_true, State.sendSteal_of_none w hl]
  case parks =>
    subst hz
    obtain ⟨h, e, hi⟩ := hi
    refine (execStealReply_of_reply hm hrep hth harr hpack hw hwhy he).trans ?_
    simp only [hrec, hi, State.sendSteal_of_none w hl, ite_self, if_true]
  case park =>
    have hidle : s.idleParked t = true := by rw [State.idleParked, hst, hsteal]; rfl
    have hpk : (s.core t.coreRef).repacking t.h = false := by simp only [Core.repacking, hpack]
    have hhas : (s.core t.coreRef).dqHas = true := by rw [Core.dqHas, hq]; simp
    have hfirst : (!((List.finRange 8).any fun h => decide (h.val < t.h.val) && ((s.core t.coreRef).kernelOf h).map (·.sb) == some (s.kernel t).sb &&
        ((s.core t.coreRef).threads[h]).st == .parked)) = true := by
      rw [hh]; simp
    change execParkStealRetry t s = _
    simp only [execParkStealRetry, hw, hidle, hpk, hfirst, ho, hhas, Core.dqBusy_of_le hbusy, State.takeYoung_of_last hq, he, Bool.not_true,
      Bool.or_self, if_neg Bool.false_ne_true, and_self, if_true]

theorem tourSteps : TourSteps := by
  intro s k g x t kn htours
  refine ⟨fun harm hfin htok hfm hring hpas => ⟨_, execTourRoundStart_of_passive htours harm hfin htok hfm hring hpas, ?startFlag, rfl⟩,
    fun n m c htok hc hn hring hpas => ?token, fun c htok hc hring hflag hpas => ?last,
    fun n c hfm hc hring hpack hpas => ⟨_, execTourFinish_of_message htours hfm hc hring hpack hpas, ?mem, fun h w e hh hw he hst => ?woken⟩⟩
  case startFlag => exact congrArg Core.tourFlag (State.core_setCore_same s k { s.core k with tourFlag := false })
  case token =>
    refine ⟨_, (execTourToken_of_token htours htok hc (by rw [Nat.mod_eq_of_lt hn]; exact hring) hpas).trans (if_neg (Nat.ne_of_lt hn)), ?_, rfl⟩
    exact congrArg Core.tourFlag (State.core_setCore_same s k { s.core k with tourFlag := false })
  case last =>
    refine ⟨_, (execTourToken_of_token htours htok hc (by rw [Nat.mod_self]; exact hring) hpas).trans ((if_pos rfl).trans (if_pos ⟨rfl, hflag, hpas⟩)), rfl⟩
  case mem => exact foldl_keeps State.mem (fun _ _ => State.wakeParked_mem) kn.hthreads s
  case woken =>
    obtain ⟨d, pc, len⟩ := e
    exact State.foldl_wakeParked hh hw he hst

/-- Settles O25: a steal's messages and a tour's token and finish message, by the tests of each step in their order. -/
theorem stealsAndTours : Obligations.StealsAndTours := ⟨stealSteps, tourSteps⟩

end Sys2Proof.Proofs
end

section
/-! Barriers (12 R222, 14 R276 to R278): their courses past issue, and the statement BarrierInstructions. -/
namespace Sys2Proof.Machine
open Sys2Proof.Claims

/-! ### Phases (R277) -/

theorem phaseDone_next (q : BitVec 32) : phaseDone (q + 1) q = true := by
  rw [phaseDone, decide_eq_true_eq]; bv_omega
theorem phaseDone_open (q : BitVec 32) : phaseDone q q = false := by
  rw [phaseDone, decide_eq_false_iff_not]; bv_omega

section
variable {s s1 t : State} {i : Instr} {h : Hdr} {d a : NameRef} {lv : BarLevel} {q : BitVec 32} {x : Src}

/-- The wait behind an arrival for a phase that is open: it keeps what the instruction issued with (R295). -/
theorem State.waitPhase_of_open (hs : s.stage.map (·.1) ≠ some tagBar) (hq : phaseDone (t.barP t.cur.tile lv) q = false) :
    s.waitPhase i h lv q t = .error (barrierWait s i q.toNat t) := by
  rw [State.waitPhase, hq, if_neg Bool.false_ne_true]
  simp only [if_neg hs, Option.none_or]
  rfl

/-- An arrival of a thread that has not arrived for the open phase is recorded (R277). -/
theorem arriveM_of_first {sync : Bool} (hs : s.stage.map (·.1) ≠ some tagBar) (hp : Passes s i h [] [d]) (hb : s.barOk lv = true)
    (hd : s.oneDst d = true) (hq : q = s.barP s.cur.tile lv) (ha : s.me.arrived lv q = false) (hw : s.writeKeep i d q.toNat s = .ok t) :
    arriveM s i h d lv sync = if sync then s.waitPhase i h lv q (t.arrive lv q) else .ok ((t.arrive lv q).done h) := by
  have hc : (s.barOk lv && s.oneDst d) = true := by rw [hb, hd]; rfl
  subst hq
  unfold arriveM
  split
  · next r hr => exact absurd (by rw [hr]; rfl) hs
  · simp only [State.issue_of_checks hp hc, bind, Except.bind, ha, if_neg Bool.false_ne_true, hw]
    rfl
theorem arriveM_of_second {sync : Bool} (hs : s.stage.map (·.1) ≠ some tagBar) (hp : Passes s i h [] [d]) (hb : s.barOk lv = true)
    (hd : s.oneDst d = true) (hq : q = s.barP s.cur.tile lv) (ha : s.me.arrived lv q = true) :
    arriveM s i h d lv sync = holdM s i tagBarFirst (some (reasonVal 3 q.toNat)) := by
  have hc : (s.barOk lv && s.oneDst d) = true := by rw [hb, hd]; rfl
  subst hq
  unfold arriveM
  split
  · next r hr => exact absurd (by rw [hr]; rfl) hs
  · simp only [State.issue_of_checks hp hc, bind, Except.bind, ha, if_true]

/-- `bar.stat` of a thread that has not arrived names its record and arrives (R278). -/
theorem barStatM_of_first (hs : s.stage.map (·.1) ≠ some tagBar) (hp : Passes s (.barStat h a lv) h [a] []) (hb : s.barOk lv = true)
    (hx : s.read (.barStat h a lv) h a s = .ok (x, s1)) (hal : x.val % 8 = 0) (hl : 0 ≤ x.val) (hu : x.val ≤ 0x7_FE00)
    (ha : s1.me.arrived lv (s1.barP s1.cur.tile lv) = false) :
    barStatM s h a lv = s.waitPhase (.barStat h a lv) h lv (s1.barP s1.cur.tile lv)
      ((s1.askSums lv x.val.toNat).arrive lv (s1.barP s1.cur.tile lv)) := by
  have haddr : ¬ (x.val % 8 ≠ 0 ∨ x.val < 0 ∨ x.val > 0x7_FE00) := by omega
  unfold barStatM
  dsimp only
  split
  · next r hr => exact absurd (by rw [hr]; rfl) hs
  · simp only [State.issue_of_checks hp hb, bind, Except.bind, hx, if_neg haddr, ha, if_neg Bool.false_ne_true]
end

end Sys2Proof.Machine

namespace Sys2Proof.Proofs
open Sys2Proof.Machine Sys2Proof.Claims

theorem barriers : Barriers := by
  intro s h d a lv q hb hq hs
  refine ⟨fun t hp hd ha hw => ?arrive, fun t hp hd ha hw ho hc => ?sync, fun hp hd ha => ?second, fun x s1 hp hx hdone => ?wait,
    fun x s1 hp hsmp hx => ?done, fun x s1 hp hx hal hl hu ha z hz ho => ?stat, phaseDone_next q, phaseDone_open q⟩
  case arrive => exact congrArg finish (arriveM_of_first hs hp hb hd hq ha hw)
  case sync =>
    refine congrArg finish ((arriveM_of_first hs hp hb hd hq ha hw).trans ?_ : arriveM s _ h d lv true = .error _)
    rw [if_pos rfl, State.waitPhase_of_open hs (by rw [hc]; exact ho)]
  case second => exact congrArg finish (arriveM_of_second hs hp hb hd hq ha)
  case wait =>
    refine congrArg finish (?_ : barWaitM s h a lv = .ok _)
    simp only [barWaitM, State.issue_of_checks hp hb, bind, Except.bind, hx, hdone, if_true]; rfl
  case done =>
    refine congrArg finish (?_ : barDoneM s h a = .ok _)
    simp only [barDoneM, State.issue_of_checks hp (show (!s.sampling s.cur) = true by rw [hsmp]; rfl), bind, Except.bind, hx]; rfl
  case stat =>
    subst hz
    exact congrArg finish ((barStatM_of_first hs hp hb hx hal hl hu ha).trans (State.waitPhase_of_open hs ho) : barStatM s h a lv = .error _)

theorem barrierCompletes : BarrierCompletes := by
  intro s tile c
  refine ⟨fun ha hc hs => ?crew, fun g x ha hc hg hx hs => ?gang, fun ha hc => ⟨.notEnabled "BARRIER_COMPLETE: the last arrival is of this cycle", ?early⟩⟩
  case crew =>
    change execBarrierComplete tile .crew s = _
    simp only [execBarrierComplete, ha, if_neg (Nat.not_le.2 hc), hs, List.foldl_nil]
  case gang =>
    change execBarrierComplete tile .gang s = _
    simp only [execBarrierComplete, ha, if_neg (Nat.not_le.2 hc), hg, Option.bind_some, hx, Option.map_some, hs, List.foldl_nil]
  case early =>
    change execBarrierComplete tile .crew s = _
    simp only [execBarrierComplete, ha, if_pos hc]

/-- Settles O26: each barrier instruction by whether its thread has arrived for the open phase, and a phase by the cycle of its last arrival. -/
theorem barrierInstructions : Obligations.BarrierInstructions := ⟨barriers, barrierCompletes⟩

end Sys2Proof.Proofs
end

section
/-! Sample groups and the ends of repacks (15 R291 to R299, 16 R300 to R304, 04 R77 to R79): the statements GroupInstructions and
GroupAndRepackSteps. -/
namespace Sys2Proof.Machine
open Sys2Proof.Claims

section
variable {s s1 s2 t : State} {i : Instr} {h : Hdr} {d a : NameRef} {x : Src} {gid : Nat} {o : Group}

/-! ### What every group instruction begins with (R319, R320) -/

/-- A solo thread's group instruction whose operand is read, and is a group number where it must be one. -/
theorem grpStart_of_read {dsts : List NameRef} {pre : Option (Cause × Word64)} {gr : Bool} (hv : s.me.vg = .solo) (hp : Passes s i h [a] dsts)
    (hpre : pre = none) (hx : s.read i h a s = .ok (x, s1)) (hg : gr = true → ¬ (x.val < 0 ∨ x.val > 63)) :
    grpStart s i h a dsts pre gr = .ok (x, s1) := by
  have hrange : ¬ (gr = true ∧ (x.val < 0 ∨ x.val > 63)) := fun hn => hg hn.1 hn.2
  subst hpre
  simp only [grpStart, State.issue_of_passes hp, bind, Except.bind, hx, hv, ne_eq, not_true_eq_false, if_false, if_neg hrange]
  rfl
theorem grpStart_of_beyond {dsts : List NameRef} (hv : s.me.vg = .solo) (hp : Passes s i h [a] dsts) (hx : s.read i h a s = .ok (x, s1))
    (hg : x.val < 0 ∨ x.val > 63) : grpStart s i h a dsts none true = groupTrap s 2 x.val := by
  simp only [grpStart, State.issue_of_passes hp, bind, Except.bind, hx, hv, ne_eq, not_true_eq_false, if_false, true_and, if_pos hg]
/-- A number of a group is in the range of group numbers. -/
theorem groupNumber_range (hx : x.val = (gid : Int)) (hg : gid < 64) : ¬ (x.val < 0 ∨ x.val > 63) ∧ x.val.toNat = gid := by
  omega

/-! ### The objects (R291, R298, R302) -/

/-- The operand of `grp.open` in its fields. -/
theorem openM_of_free {k q tmo : Nat} (hv : s.me.vg = .solo) (hp : Passes s (.grpOpen h a) h [a] [])
    (hx : s.read (.grpOpen h a) h a s = .ok (x, s1)) (hval : x.val = ((gid + k * 2 ^ 8 + q * 2 ^ 16 + tmo * 2 ^ 24 : Nat) : Int)) (hg : gid < 64)
    (hq : 1 ≤ q) (hqk : q ≤ k) (hk : k ≤ 64) (ht : tmo < 2 ^ 16) (hfree : s1.groupSt s1.myKernel.gang gid = .free) :
    openM s h a = .ok ((s1.putGroup s1.myKernel.gang ⟨gid, .opened, s1.cur, k, q, tmo,
      ((s1.gang? s1.myKernel.gang).map (·.geps)).getD 0, [], [], none, 0, false, false, 0⟩).done h) := by
  have hw : wrapNat 64 x.val = gid + k * 2 ^ 8 + q * 2 ^ 16 + tmo * 2 ^ 24 := by rw [wrapNat, hval]; omega
  have hgid : (gid + k * 2 ^ 8 + q * 2 ^ 16 + tmo * 2 ^ 24) % 64 = gid := by omega
  have hkf : fieldOf (gid + k * 2 ^ 8 + q * 2 ^ 16 + tmo * 2 ^ 24) 8 7 = k := by rw [fieldOf]; omega
  have hqf : fieldOf (gid + k * 2 ^ 8 + q * 2 ^ 16 + tmo * 2 ^ 24) 16 7 = q := by rw [fieldOf]; omega
  have htf : fieldOf (gid + k * 2 ^ 8 + q * 2 ^ 16 + tmo * 2 ^ 24) 24 16 = tmo := by rw [fieldOf]; omega
  have hz1 : fieldOf (gid + k * 2 ^ 8 + q * 2 ^ 16 + tmo * 2 ^ 24) 6 2 = 0 := by rw [fieldOf]; omega
  have hz2 : fieldOf (gid + k * 2 ^ 8 + q * 2 ^ 16 + tmo * 2 ^ 24) 15 1 = 0 := by rw [fieldOf]; omega
  have hz3 : fieldOf (gid + k * 2 ^ 8 + q * 2 ^ 16 + tmo * 2 ^ 24) 23 1 = 0 := by rw [fieldOf]; omega
  have hstart : grpStart s (.grpOpen h a) h a [] none false = .ok (x, s1) :=
    grpStart_of_read hv hp rfl hx (fun hn => absurd hn Bool.false_ne_true)
  have hok : ¬ (x.val < 0 ∨ x.val ≥ 2 ^ 40 ∨ (0 : Nat) ≠ 0 ∨ (0 : Nat) ≠ 0 ∨ (0 : Nat) ≠ 0 ∨ k < 1 ∨ k > 64 ∨ q < 1 ∨ q > k ∨ GState.free ≠ .free) := by
    rw [hval]; simp only [ne_eq, not_true_eq_false, false_or, or_false]; omega
  simp only [openM, hstart, bind, Except.bind, hw, hgid, hkf, hqf, htf, hz1, hz2, hz3, hfree,
    if_neg hok]
  rfl

/-- `grp.close` of a DONE group that its opener finds without members. -/
theorem closeM_of_empty (hv : s.me.vg = .solo) (hx : x.val = (gid : Int)) (hg : gid < 64) (ho : s1.group? s1.myKernel.gang gid = some o)
    (hop : o.opener = s1.cur) (hp : Passes s (.grpClose h a) h [a] []) (hr : s.read (.grpClose h a) h a s = .ok (x, s1)) (hst : o.st = .done)
    (hc : o.combined < s1.cycle) (hm : s1.members s1.myKernel.gang gid = []) :
    closeM s h a = .ok ((s1.freeGroup s1.myKernel.gang gid).done h) := by
  obtain ⟨hrange, hgid⟩ := groupNumber_range hx hg
  have hnow : o.stNow s1.cycle = .done := by rw [Group.stNow, if_neg (by omega), hst]
  have hmine : ¬ (o.opener ≠ s1.cur ∨ o.stNow s1.cycle ≠ .done) := by rw [hop, hnow]; simp
  simp only [closeM, grpStart_of_read hv hp rfl hr (fun _ => hrange), bind, Except.bind, hgid, ho, if_neg hmine, hm, List.isEmpty_nil, if_true]
  rfl
/-- `grp.cancel` of an OPEN group by its opener. -/
theorem cancelM_of_opened (hv : s.me.vg = .solo) (hx : x.val = (gid : Int)) (hg : gid < 64) (ho : s1.group? s1.myKernel.gang gid = some o)
    (hop : o.opener = s1.cur) (hp : Passes s (.grpCancel h a) h [a] []) (hr : s.read (.grpCancel h a) h a s = .ok (x, s1)) (hst : o.st = .opened) :
    cancelM s h a = .ok ((s1.freeGroup s1.myKernel.gang gid).done h) := by
  obtain ⟨hrange, hgid⟩ := groupNumber_range hx hg
  have hnow : o.stNow s1.cycle = .opened := by rw [Group.stNow, hst, if_neg (fun hn => GState.noConfusion hn.1)]
  have hmine : ¬ (o.opener ≠ s1.cur ∨ o.stNow s1.cycle = .done) := by rw [hop, hnow]; simp
  simp only [cancelM, grpStart_of_read hv hp rfl hr (fun _ => hrange), bind, Except.bind, hgid, ho, if_neg hmine, hst, if_true]
  rfl
theorem statM_of_read (hv : s.me.vg = .solo) (hx : x.val = (gid : Int)) (hg : gid < 64) (hd : s.oneDst d = true)
    (hp : Passes s (.grpStat h d a) h [a] [d]) (hr : s.read (.grpStat h d a) h a s = .ok (x, s1))
    (hw : s.writeOne (.grpStat h d a) d (s1.gstat s1.myKernel.gang gid) s1 = .ok t) : statM s h d a = .ok (t.done h) := by
  obtain ⟨hrange, hgid⟩ := groupNumber_range hx hg
  simp only [statM, grpStart_of_read hv hp (illUnless_true _ hd) hr (fun _ => hrange), bind, Except.bind, hgid, hw]
  rfl

/-! ### Forks and members (R293 to R297) -/

/-- `grp.fork` of a group of one (R294, R301): no sibling is taken, and the repack unit writes the opener's rows. -/
theorem forkM_of_one {ds : List Nat} (hv : s.me.vg = .solo) (hd : s.oneDst d = true) (hp : Passes s (.grpFork h d a) h [a] [d])
    (hr : s.read (.grpFork h d a) h a s = .ok (x, s1)) (hx : x.val = (gid : Int)) (hg : gid < 64)
    (ho : s1.group? s1.myKernel.gang gid = some o) (hop : o.opener = s1.cur) (hst : o.st = .opened) (hk : o.k = 1) (hrs : s1.me.rsCnt = 0)
    (hgm : s1.me.gmV = false) (hu : s1.myCore.unitBusy s1.cur.h s.mySeq = false) (hbad : s1.me.bad = [])
    (hholds : isCat d = true → (s1.ent d).mode = .trap → (s1.ent d).holds 0 = true)
    (hds : s.draws (if isCat d && (s1.ent d).kind.isFloat && rmodeOf .attr (s1.ent d) == .rst then 1 else 0) s1 = .ok (ds, s2))
    (hw : s.writeIndex (.grpFork h d a) d (indexVal d (s1.ent d) (ds.getD 0 0) 0) s2 = .ok t) :
    let l := s1.myKernel.rows + s1.myKernel.reserve
    let m := { t.me with gmV := true, gmRes := false, gmGid := BitVec.ofNat 6 gid, gmIdx := 0, posted := none }
    let y := s.doneLat h (.grpFork h d a) (8 + 2 * l) ((t.setMe m).putGroup s1.myKernel.gang { o with st := .forked })
    forkM s h d a = .ok (y.setMyCore (y.myCore.freeze s1.myKernel (.fork s.mySeq) true s1.cur.h s1.me.pc (s1.cycle + 8 + 2 * l))) := by
  obtain ⟨hrange, hgid⟩ := groupNumber_range hx hg
  have hmine : ¬ (o.opener ≠ s1.cur ∨ o.st ≠ .opened ∨ s1.me.rsCnt ≠ 0 ∨ s1.me.gmV = true) := by rw [hop, hst, hrs, hgm]; simp
  have hfits : (isCat d && (s1.ent d).mode == .trap && !(s1.ent d).holds 0) = false := by
    cases hc : isCat d && (s1.ent d).mode == .trap
    · rfl
    · obtain ⟨h1, h2⟩ := Bool.and_eq_true_iff.1 hc
      rw [hholds h1 (eq_of_beq h2)]; rfl
  simp only [forkM, grpStart_of_read hv hp (illUnless_true _ hd) hr (fun _ => hrange), bind, Except.bind, hgid, ho, if_neg hmine, hk, Nat.sub_self, hfits,
    if_neg Bool.false_ne_true, Nat.not_lt_zero, if_false, List.take_zero, List.any_nil, hu, Bool.or_false, hbad, List.isEmpty_nil, Bool.not_true, hds, hw]
  rfl

/-- A posted member of a DONE group receives its result and leaves (R297, R304). -/
theorem grpWaitM_of_done {ff : Bool} (hv : s.me.vg = .solo) (hx : x.val = (gid : Int)) (hg : gid < 64) (hm : s.me.gmV = true)
    (hgm : s.me.gmGid.toNat = gid) (hpost : s.me.posted.isSome = true) (hdone : s1.groupSt s1.myKernel.gang gid = .done)
    (hp : Passes s i h [a] [d]) (hk : s.waitKind d ff = true) (hr : s.read i h a s = .ok (x, s1))
    (hw : (if ff then s.writeInt i d s.me.ff.toNat s1 else s.writeReal i d .attr (FF.f32.value s.me.adv.toNat).x s1) = .ok t) :
    grpWaitM s i h d a ff = .ok ((t.setMe { t.me.leaveGroup with posted := none }).done h) := by
  obtain ⟨hrange, hgid⟩ := groupNumber_range hx hg
  have hkind : (!s.me.gmV || s.waitKind d ff) = true := by rw [hk, Bool.or_true]
  have hmember : ¬ (s.me.gmGid.toNat ≠ gid ∨ s.me.posted.isNone = true) := by
    rw [hgm, ← Option.not_isSome, hpost]; simp
  simp only [grpWaitM, grpStart_of_read hv hp (illUnless_true _ hkind) hr (fun _ => hrange), bind, Except.bind, hgid]
  rw [hm, if_neg (by decide), if_neg hmember, if_neg (Classical.not_not.2 hdone), hw]
  rfl

/-- A floating kind is neither a granule nor raw. -/
theorem Kind.not_gran_of_isFloat {k : Kind} (hk : k.isFloat = true) : k.isGran = false ∧ k ≠ .raw := by
  revert hk
  cases k <;> decide

/-- What issue checks of a reward: a name that is neither a granule nor raw passes (R319). -/
theorem reward_checks {n : NameRef} {e : NameEnt} (hk : isCat n = true → e.kind.isGran = false ∧ e.kind ≠ .raw) :
    (match (generalizing := false) n with | .cat _ => !(e.kind.isGran || e.kind == .raw) | .fixed _ => true : Bool) = true := by
  cases n
  · obtain ⟨hgran, hraw⟩ := hk rfl
    simp [hgran, hraw]
  · rfl
/-- A first reward, below the quorum, is posted (R295). -/
theorem rewardM_of_first {p : BitVec 32} {r : FVal} (hv : s.me.vg = .solo) (hp : Passes s (.grpReward h a) h [a] [])
    (hr : s.read (.grpReward h a) h a s = .ok (x, s1)) (hk : isCat a = true → (s.ent a).kind.isGran = false ∧ (s.ent a).kind ≠ .raw)
    (ho : s1.group? s1.myKernel.gang s1.me.gmGid.toNat = some o) (hm : s1.me.gmV = true) (hpost : s1.me.posted = none)
    (hround : FF.f32.round .rne 0 x.real.x = r) (hfin : r.isFin = true) (hb : FF.f32.beyond r = false) (hpv : p = BitVec.ofNat 32 (FF.f32.code r))
    (hq : o.posts.length + 1 < o.q) :
    rewardM s h a = .ok (((s1.setMe { s1.me with posted := some p }).combineIfAll s1.myKernel.gang
      { o with posts := o.posts ++ [(s1.me.gmIdx.toNat, p)] }).done h) := by
  have hmember : ¬ (s1.me.gmV = false ∨ s1.me.posted.isSome = true) := by rw [hm, hpost]; simp
  have hval : (!r.isFin || FF.f32.beyond r) = false := by rw [hfin, hb]; rfl
  have hbelow : ¬ ((o.posts ++ [(s1.me.gmIdx.toNat, p)]).length = o.q ∧ o.tmo ≠ 0) := by
    rw [List.length_append, List.length_singleton]; omega
  subst hpv
  have hstart {c : Bool} (hc : c = true) : grpStart s (.grpReward h a) h a [] (illUnless (.grpReward h a) c) false = .ok (x, s1) :=
    grpStart_of_read hv hp (illUnless_true _ hc) hr (fun hn => absurd hn Bool.false_ne_true)
  simp only [rewardM, bind, Except.bind]
  rw [hstart]
  · simp only [hround, ho, if_neg hmember, hval, if_neg Bool.false_ne_true, if_neg hbelow]
    rfl
  · exact reward_checks (n := a) hk

/-! ### The steps of a group and of a repack (R79, R295) -/

theorem execGroupTimeout_of_due {g c : Nat} (ho : s.group? g gid = some o) (hst : o.st = .forked) (hd : o.due = some c) (hc : c ≤ s.cycle)
    (hf : s.frozenGang g = false) : execGroupTimeout g gid s = .next (s.combine g o true none) := by
  simp only [execGroupTimeout, ho, hst, hd, if_pos (⟨hc, hf⟩ : _ ∧ _)]
theorem execForkRemoteCopy_of_turn {u : ThreadRef} {f : ForkCopy} (hf : (s.thread u).forkIn = some f)
    (hu : (s.core u.coreRef).unitBusy u.h f.seq = false) (ha : f.arrive ≤ s.cycle) :
    execForkRemoteCopy u s = .next (s.setCore u.coreRef ((s.core u.coreRef).freeze (s.kernel u) (.fork f.seq) true u.h 0
      (s.cycle + 8 + 2 * ((s.kernel u).rows + (s.kernel u).reserve)))) := by
  have hfree : (s.core u.coreRef).repack = none := by
    have hb := hu
    rw [Core.unitBusy, Bool.or_eq_false_iff, Bool.or_eq_false_iff] at hb
    simpa using hb.1.1
  simp only [execForkRemoteCopy, hf, hfree, if_pos (⟨ha, hu⟩ : _ ∧ _)]
end

/-! ### Threads of a core changed one after another (R77, R78) -/

/-- A thread that is among those changed is changed once, where none of them is named twice or changing it again does nothing. -/
theorem foldl_set_get {l : List (Fin 8)} {f : Fin 8 → Thread → Thread} {h : Fin 8} (v : Vector Thread 8) (hf : l.Nodup ∨ ∀ x, f h (f h x) = f h x) :
    (l.foldl (fun (v : Vector Thread 8) (h : Fin 8) => v.set h (f h v[h])) v)[h] = if h ∈ l then f h v[h] else v[h] := by
  induction l generalizing v with
  | nil => rfl
  | cons j l ih =>
    rw [List.foldl_cons, ih _ (hf.imp_left fun hn => (List.nodup_cons.1 hn).2)]
    by_cases hj : h = j
    · subst hj
      rw [if_pos List.mem_cons_self]
      have hset : (v.set h (f h v[h]))[h] = f h v[h] := by simp
      split
      · next hm =>
        obtain hn | hidem := hf
        · exact absurd hm (List.nodup_cons.1 hn).1
        · rw [hset, hidem]
      · exact hset
    · have hne : j.val ≠ h.val := fun he => hj (Fin.ext he.symm)
      have hset : (v.set j (f j v[j]))[h] = v[h] := by simp [hne]
      rw [hset]
      simp only [List.mem_cons, hj, false_or]
theorem Core.modThreads_get {c : Core} {l : List (Fin 8)} {f : Fin 8 → Thread → Thread} {h : Fin 8} (hf : l.Nodup ∨ ∀ x, f h (f h x) = f h x) :
    (c.modThreads l f).threads[h] = if h ∈ l then f h c.threads[h] else c.threads[h] :=
  foldl_set_get c.threads hf

theorem Kernel.hthreads_nodup (k : Kernel) : k.hthreads.Nodup := (List.nodup_finRange 8).filter _

/-- A copy of a resized name has the value that R77 gives it, and the thread keeps its state. -/
theorem Thread.resized_name {x : Thread} {cat : List NameEnt} {n : Nat} {f : Pat → Pat} (hn : n < x.names.length) :
    (x.resized cat n f).name n = f (x.name n) :=
  Thread.name_setName_same _ _ hn
theorem Thread.resized_st (x : Thread) (cat : List NameEnt) (n : Nat) (f : Pat → Pat) : (x.resized cat n f).st = x.st := rfl
theorem Core.resize_threads {c : Core} {k : Kernel} {n w : Nat} {m : ResizeMode} {h : Fin 8} :
    (c.resize k n w m).threads[h] = if h ∈ k.hthreads then
      c.threads[h].resized k.cat n fun p => patOf w (resizeVal (k.cat.getD n ⟨1, .uint, .wrap, .rne, .none⟩).kind
        (k.cat.getD n ⟨1, .uint, .wrap, .rne, .none⟩).width w m (valueOf (k.cat.getD n ⟨1, .uint, .wrap, .rne, .none⟩) p.toNat))
    else c.threads[h] :=
  Core.modThreads_get (c := c) (f := fun _ x => x.resized k.cat n fun p => patOf w (resizeVal (k.cat.getD n ⟨1, .uint, .wrap, .rne, .none⟩).kind
    (k.cat.getD n ⟨1, .uint, .wrap, .rne, .none⟩).width w m (valueOf (k.cat.getD n ⟨1, .uint, .wrap, .rne, .none⟩) p.toNat)))
    (.inl k.hthreads_nodup)

/-- A thread as it was before the freeze (R78). -/
def thawed (fr : List (Fin 8 × TState)) (h : Fin 8) (x : Thread) : Thread :=
  if x.st = .frozen then { x with st := ((fr.find? (·.1 == h)).map (·.2)).getD .ready } else x
theorem thawed_names (fr : List (Fin 8 × TState)) (h : Fin 8) (x : Thread) : (thawed fr h x).names = x.names := by
  unfold thawed; split <;> rfl
theorem thawed_idem (fr : List (Fin 8 × TState)) (h : Fin 8) (x : Thread) : thawed fr h (thawed fr h x) = thawed fr h x := by
  unfold thawed
  split
  · split <;> rfl
  · rfl
theorem thawed_st {fr : List (Fin 8 × TState)} {h : Fin 8} {st : TState} {x : Thread} (hf : fr.find? (fun x => x.1 == h) = some (h, st))
    (hx : x.st = .frozen) : (thawed fr h x).st = st := by
  rw [thawed, if_pos hx, hf]; rfl
/-- The threads of a core whose repack has ended. -/
theorem Core.thaw_threads {c : Core} {fr : List (Fin 8 × TState)} {h : Fin 8} :
    (c.modThreads (fr.map (·.1)) (thawed fr)).threads[h] = if h ∈ fr.map (·.1) then thawed fr h c.threads[h] else c.threads[h] :=
  Core.modThreads_get (.inr (thawed_idem fr h))

/-- REPACK_UNFREEZE of a resize that found no bad copy, with no write held (R77, R78). -/
theorem execRepackUnfreeze_of_resize {s : State} {r : CoreRef} {p : Repack} {n w : Nat} {m : ResizeMode} {k : Kernel}
    (hp : (s.core r).repack = some p) (ho : p.op = .resize n w m) (hb : p.begun = true)
    (hbad : ∀ h ∈ k.hthreads, ((s.core r).threads[h]).bad = []) (hh : p.held = []) (hd : p.done ≤ s.cycle)
    (hk : ((s.core r).kernels.find? (fun x => x.sb == p.sb)).getD (((s.core r).kernelOf p.h).getD Kernel.none) = k) :
    execRepackUnfreeze r s = .next (s.setCore r { ((s.core r).resize k n w m).modThreads (p.frozen.map (·.1)) (thawed p.frozen) with repack := none }) := by
  subst hk
  have hdone : ¬ (p.begun = false ∨ s.cycle < p.done) := by rw [hb]; simp; omega
  have herr : (((((s.core r).kernels.find? (fun x => x.sb == p.sb)).getD (((s.core r).kernelOf p.h).getD Kernel.none)).hthreads).any
      fun h => !((s.core r).threads[h]).bad.isEmpty) = false :=
    List.any_eq_false.2 fun h hm => by rw [hbad h hm]; decide
  simp only [execRepackUnfreeze, hp, if_neg hdone, ho, herr, Bool.not_false, Bool.true_and, if_neg Bool.false_ne_true, hh,
    State.landHeld]
  rfl

end Sys2Proof.Machine

namespace Sys2Proof.Proofs
open Sys2Proof.Machine Sys2Proof.Claims

theorem groupObjects : GroupObjects := by
  intro s h d a x s1 hv
  refine ⟨fun gid k q tmo hp hx hval hg hq hqk hk ht hfree => congrArg finish (openM_of_free hv hp hx hval hg hq hqk hk ht hfree),
    fun gid o hx hg ho hop => ⟨fun hp hr hst hc hm => congrArg finish (closeM_of_empty hv hx hg ho hop hp hr hst hc hm),
      fun hp hr hst => congrArg finish (cancelM_of_opened hv hx hg ho hop hp hr hst)⟩,
    fun gid t hx hg hd hp hr hw => congrArg finish (statM_of_read hv hx hg hd hp hr hw), fun hg hp hr => ?beyond⟩
  case beyond =>
    refine congrArg finish (?_ : closeM s h a = .error _)
    rw [closeM]
    simp only [grpStart_of_beyond hv hp hr (by omega), bind, Except.bind, groupTrap, trapM]

theorem groupForks : GroupForks := by
  intro s h d a x s1 t gid o hv hd hp hr hx hg ho hop hst hk hrs hgm hu hbad hholds ds s2 l hds hw hl
  subst hl
  exact ⟨_, congrArg finish (forkM_of_one hv hd hp hr hx hg ho hop hst hk hrs hgm hu hbad hholds hds hw), rfl⟩

theorem groupMembers : GroupMembers := by
  intro s h d a x s1 hv
  refine ⟨fun gid t hx hg hm hgm hpost hdone => ⟨fun hp hk hr hw => congrArg finish (?adv : grpWaitM s _ h d a false = .ok _),
      fun hp hk hr hw => congrArg finish (?ff : grpWaitM s _ h d a true = .ok _)⟩,
    fun o p hp hr hk ho hm hpost hfin hb hpv hq => congrArg finish (rewardM_of_first hv hp hr (fun _ => Kind.not_gran_of_isFloat hk) ho hm hpost rfl hfin hb hpv hq)⟩
  case adv => exact grpWaitM_of_done hv hx hg hm hgm hpost hdone hp hk hr hw
  case ff => exact grpWaitM_of_done hv hx hg hm hgm hpost hdone hp hk hr hw

/-- Settles O27: each group instruction's course, from what every one of them begins with. -/
theorem groupInstructions : Obligations.GroupInstructions := ⟨groupObjects, groupForks, groupMembers⟩

theorem groupSteps : GroupSteps := fun _ _ _ _ _ =>
  ⟨fun _ ho hst hd hc hf => execGroupTimeout_of_due ho hst hd hc hf, fun _ hf hu ha => execForkRemoteCopy_of_turn hf hu ha⟩

theorem repackEnds : RepackEnds := by
  intro s r p n w m k e hp ho hb hbad hh hd hk he
  subst he
  have hrun := execRepackUnfreeze_of_resize hp ho hb hbad hh hd (by rw [hk]; rfl)
  let c := ((s.core r).resize k n w m).modThreads (p.frozen.map (·.1)) (thawed p.frozen)
  have hcore : (s.setCore r { c with repack := none }).core r = { c with repack := none } := State.core_setCore_same ..
  refine ⟨_, hrun, by rw [hcore], rfl, fun h hm hn => ?name, fun h st hf hst => ?state⟩
  case name =>
    have hnames : (c.threads[h]).names = (((s.core r).resize k n w m).threads[h]).names := by
      rw [Core.thaw_threads]
      split
      · exact thawed_names ..
      · rfl
    rw [hcore]
    change (c.threads[h]).name n = _
    rw [Thread.name, hnames, ← Thread.name, Core.resize_threads, if_pos hm, Thread.resized_name hn]
  case state =>
    have hin : h ∈ p.frozen.map (·.1) := List.mem_map.2 ⟨(h, st), List.mem_of_find?_eq_some hf, rfl⟩
    have hfrozen : (((s.core r).resize k n w m).threads[h]).st = .frozen := by
      rw [Core.resize_threads]
      split
      · rw [Thread.resized_st, hst]
      · exact hst
    rw [hcore]
    change (c.threads[h]).st = _
    rw [Core.thaw_threads, if_pos hin, thawed_st hf hfrozen]

/-- Settles O28: a timeout and a fork's copy by their tests, and the threads of a core whose repack has ended, one by one. -/
theorem groupAndRepackSteps : Obligations.GroupAndRepackSteps := ⟨groupSteps, repackEnds⟩

end Sys2Proof.Proofs
end

section
/-! Lanes, reductions, lane moves and check accumulators (10 R178 to R186, R208, R209): their courses past issue, and the statements
IntegerLaneInstructions, FloatLanes, Reductions, LaneMoves and Checks from them. -/
namespace Sys2Proof.Machine
open Sys2Proof.Claims

/-! ### Writing lanes (R179) -/

/-- No lane traps where each has a value by R69. -/
theorem laneTrap_none {rs : List (Option Int)} (h : ∀ r ∈ rs, r.isSome = true) (j : Nat) (xs : List Int) : laneTrap j rs xs = none := by
  induction rs generalizing j xs with
  | nil => rfl
  | cons r rs ih =>
    obtain ⟨v, rfl⟩ := Option.isSome_iff_exists.1 (h r List.mem_cons_self)
    exact ih (fun r hr => h r (List.mem_cons_of_mem _ hr)) ..
/-- The first lane without a value is the one that traps. -/
theorem laneTrap_first {f : Int → Option Int} {xs : List Int} {j : Nat} {x : Int} (hx : xs[j]? = some x) (hf : f x = none)
    (hlow : ∀ k y, k < j → xs[k]? = some y → f y ≠ none) (n : Nat) : laneTrap n (xs.map f) xs = some (reasonVal ((n + j : Nat)) x) := by
  induction xs generalizing j n with
  | nil => cases hx
  | cons y xs ih =>
    cases j with
    | zero =>
      cases hx
      simp [laneTrap, hf]
    | succ j =>
      obtain ⟨v, hv⟩ := Option.ne_none_iff_exists'.1 (hlow 0 y (Nat.succ_pos _) rfl)
      have ih := ih (j := j) hx (fun k z hk hz => hlow (k + 1) z (Nat.succ_lt_succ hk) hz) (n + 1)
      rw [List.map_cons, hv, laneTrap, List.tail_cons, ih, Nat.add_right_comm, Nat.add_assoc]
/-- R69 has no value exactly where a lane traps. -/
theorem r69_eq_none {e : NameEnt} {w : Nat} {x : Int} : r69 e.kind w e.mode x = none ↔ laneTraps e w x := by
  unfold r69 laneTraps
  cases inRange e.kind w x <;> cases e.mode <;> simp

theorem State.writeLanes_of_fits {s0 s : State} {i : Instr} {n : BitVec 9} {w : Nat} {xs : List Int}
    (h : ∀ x ∈ xs, r69 (s.ent (.cat n)).kind w (s.ent (.cat n)).mode x ≠ none) :
    s0.writeLanes i (.cat n) w xs s = .ok (s.putName n (BitVec.ofNat 528 (packLanes w (xs.map fun x =>
      wrapNat w ((r69 (s.ent (.cat n)).kind w (s.ent (.cat n)).mode x).getD 0)) % 2 ^ (s.ent (.cat n)).width))) := by
  have ht := laneTrap_none (rs := xs.map (r69 (s.ent (.cat n)).kind w (s.ent (.cat n)).mode))
    (List.forall_mem_map.2 fun x hx => Option.isSome_iff_ne_none.2 (h x hx)) 0 xs
  simp only [State.writeLanes, ht, List.map_map]; rfl

/-! ### The courses past issue -/

section
variable {s s1 s2 t : State} {i : Instr} {h : Hdr} {d a b : NameRef} {fs : List NameRef} {x y : Src} {xs : List Src}

theorem lanesFit_of {n L : Nat} (hL : L ≠ 0) (hn : n = L ∨ n = 1) : lanesFit n L = true := by simpa [lanesFit, hL] using hn
/-- The lanes of the sources fit those of the destination (R179). -/
theorem allFit {c : NameRef → Nat} {L : Nat} (hL : L ≠ 0) (hn : ∀ n ∈ fs, c n = L ∨ c n = 1) :
    (L != 0 && fs.all fun n => lanesFit (c n) L) = true := by
  have := List.all_eq_true.2 fun n hm => lanesFit_of hL (hn n hm)
  simp [hL, this]

theorem vecM_of_read {lw : LaneW} {f : (Nat → Int) → Int} (hp : Passes s i h fs [d]) (hL : ilaneCount (s.ent d) (laneBits lw) ≠ 0)
    (hn : ∀ n ∈ fs, ilaneCount (s.ent n) (laneBits lw) = ilaneCount (s.ent d) (laneBits lw) ∨ ilaneCount (s.ent n) (laneBits lw) = 1)
    (hx : s.readAll i h fs s = .ok (xs, s1))
    (hw : s.writeLanes i d (laneBits lw) ((List.range (ilaneCount (s.ent d) (laneBits lw))).map fun j =>
      f fun k => pick 0 ((xs.map fun x => x.lanes (laneBits lw)).getD k []) j) s1 = .ok t) :
    vecM s i h d fs lw f = .ok (t.done h) := by
  simp only [vecM, State.issue_of_checks hp (allFit hL hn), bind, Except.bind, hx, hw]; rfl

theorem vecfM_timed {lf : LaneF} {rnd : Rnd} {lat : Nat} {f : RMode → (Nat → FVal) → XVal} (hp : Passes s i h fs [d])
    (hL : flaneCount (s.ent d) (laneFF lf) ≠ 0)
    (hn : ∀ n ∈ fs, flaneCount (s.ent n) (laneFF lf) = flaneCount (s.ent d) (laneFF lf) ∨ flaneCount (s.ent n) (laneFF lf) = 1)
    (hx : s.readAll i h fs s = .ok (xs, s1)) (he : exec i s = finish (vecfM s i h d fs lf rnd lat f)) :
    Timed s i h lat (s.writeFlanes i d (laneFF lf) rnd .each ((List.range (flaneCount (s.ent d) (laneFF lf))).map fun j =>
        f (rmodeOf rnd (s.ent d)) fun k => pick .nan ((xs.map fun x => x.flanes (laneFF lf)).getD k []) j) s1) := by
  refine ⟨fun hw t hm => ?_, fun hw => ?_⟩
  · rw [he, vecfM, State.issue_of_checks hp (allFit hL hn)]
    simp only [bind, Except.bind, hx, State.runFor, hw, if_true, hm]; rfl
  · rw [he, vecfM, State.issue_of_checks hp (allFit hL hn)]
    simp only [bind, Except.bind, hx, State.runFor, hw, if_neg Bool.false_ne_true]; rfl

theorem vredIntM_of_read {lw : LaneW} {rnd : Rnd} {f : List Int → Int} (hp : Passes s i h [a] [d]) (ha : ilaneCount (s.ent a) (laneBits lw) ≠ 0)
    (hd : s.oneDst d = true) (hx : s.read i h a s = .ok (x, s1)) (hw : s.writeRnd i d rnd (f (x.lanes (laneBits lw))) s1 = .ok t) :
    vredIntM s i h d a lw rnd f = .ok (t.done h) := by
  have hc : (ilaneCount (s.ent a) (laneBits lw) != 0 && s.oneDst d) = true := by simp [ha, hd]
  simp only [vredIntM, State.issue_of_checks hp hc, bind, Except.bind, hx, hw]; rfl
theorem vredFltM_of_read {lf : LaneF} {rnd : Rnd} {f : RMode → List FVal → FVal} (hp : Passes s i h [a] [d])
    (ha : flaneCount (s.ent a) (laneFF lf) ≠ 0) (hdl : flaneCount (s.ent d) (laneFF lf) ≠ 0) (hd : s.oneDst d = true)
    (hx : s.read i h a s = .ok (x, s1))
    (hw : s.writeFlanes i d (laneFF lf) rnd .usual [(f (rmodeOf rnd (s.ent d)) (x.flanes (laneFF lf))).x] s1 = .ok t) :
    vredFltM s i h d a lf rnd f = .ok (t.done h) := by
  have hc : (flaneCount (s.ent a) (laneFF lf) != 0 && flaneCount (s.ent d) (laneFF lf) != 0 && s.oneDst d) = true := by simp [ha, hdl, hd]
  simp only [vredFltM, State.issue_of_checks hp hc, bind, Except.bind, hx, hw]; rfl
theorem argmaxFM_of_read {lf : LaneF} {rnd : Rnd} (hp : Passes s i h [a] [d]) (ha : flaneCount (s.ent a) (laneFF lf) ≠ 0)
    (hd : s.oneDst d = true) (hx : s.read i h a s = .ok (x, s1)) (hw : s.writeRnd i d rnd (fArgmax (x.flanes (laneFF lf))) s1 = .ok t) :
    argmaxFM s i h d a lf rnd = .ok (t.done h) := by
  have hc : (flaneCount (s.ent a) (laneFF lf) != 0 && s.oneDst d) = true := by simp [ha, hd]
  simp only [argmaxFM, State.issue_of_checks hp hc, bind, Except.bind, hx, hw]; rfl

theorem scanCounts {n m : Nat} (ha : n ≠ 0) (hd : m = n) : (n != 0 && m == n) = true := by simp [ha, hd]
theorem scanM_timed_of_ints {lw : LaneW} {lf : LaneF} {rnd : Rnd} (hp : Passes s (.vredScan h d a lw lf false rnd) h [a] [d])
    (ha : ilaneCount (s.ent a) (laneBits lw) ≠ 0) (hd : ilaneCount (s.ent d) (laneBits lw) = ilaneCount (s.ent a) (laneBits lw))
    (hx : s.read (.vredScan h d a lw lf false rnd) h a s = .ok (x, s1)) :
    Timed s (.vredScan h d a lw lf false rnd) h 12 (s.writeLanes (.vredScan h d a lw lf false rnd) d (laneBits lw)
        ((List.range (ilaneCount (s.ent a) (laneBits lw))).map fun j => ((x.lanes (laneBits lw)).take (j + 1)).sum) s1) := by
  refine ⟨fun hw t hm => congrArg finish (?_ : scanM s _ h d a lw lf false rnd = .ok _),
    fun hw => congrArg finish (?_ : scanM s _ h d a lw lf false rnd = .error _)⟩
  · simp only [scanM, if_neg Bool.false_ne_true, State.issue_of_checks hp (scanCounts ha hd), bind, Except.bind, hx, State.runFor, hw, if_true, hm]; rfl
  · simp only [scanM, if_neg Bool.false_ne_true, State.issue_of_checks hp (scanCounts ha hd), bind, Except.bind, hx, State.runFor, hw]
theorem scanM_timed_of_floats {lw : LaneW} {lf : LaneF} {rnd : Rnd} (hp : Passes s (.vredScan h d a lw lf true rnd) h [a] [d])
    (ha : flaneCount (s.ent a) (laneFF lf) ≠ 0) (hd : flaneCount (s.ent d) (laneFF lf) = flaneCount (s.ent a) (laneFF lf))
    (hx : s.read (.vredScan h d a lw lf true rnd) h a s = .ok (x, s1)) :
    Timed s (.vredScan h d a lw lf true rnd) h 12 (s.writeFlanes (.vredScan h d a lw lf true rnd) d (laneFF lf) rnd .usual
        ((List.range (flaneCount (s.ent a) (laneFF lf))).map fun j =>
          (FVal.sum (rmodeOf rnd (s.ent d)) ((x.flanes (laneFF lf)).take (j + 1))).x) s1) := by
  refine ⟨fun hw t hm => congrArg finish (?_ : scanM s _ h d a lw lf true rnd = .ok _),
    fun hw => congrArg finish (?_ : scanM s _ h d a lw lf true rnd = .error _)⟩
  · simp only [scanM, if_true, State.issue_of_checks hp (scanCounts ha hd), bind, Except.bind, hx, State.runFor, hw, hm]; rfl
  · simp only [scanM, if_true, State.issue_of_checks hp (scanCounts ha hd), bind, Except.bind, hx, State.runFor, hw, if_neg Bool.false_ne_true]

/-! ### Lane moves (R185, R186) -/

theorem vmovM_of_read {n m : BitVec 9} (hp : Passes s (.vmovMov h (.cat n) (.cat m)) h [.cat m] [.cat n])
    (hx : s.read (.vmovMov h (.cat n) (.cat m)) h (.cat m) s = .ok (x, s)) :
    vmovM s h (.cat n) (.cat m) = .ok ((s.putName n (BitVec.ofNat 528 (x.pat % 2 ^ (s.ent (.cat n)).width))).done h) := by
  have hc : (isCat (.cat n) && isCat (.cat m)) = true := rfl
  rw [vmovM, State.issue_of_checks hp hc]
  simp only [bind, Except.bind, hx]; rfl
theorem indexM_of_read {la lam : Nat} {ok nb : Bool} {ix : Src → Nat → Int} (hp : Passes s i h [a, b] [d]) (hok : ok = true)
    (hd : ilaneCount (s.ent d) lam ≠ 0) (ha : ilaneCount (s.ent a) la ≠ 0)
    (hb : nb = true → ilaneCount (s.ent b) lam = ilaneCount (s.ent d) lam ∨ ilaneCount (s.ent b) lam = 1)
    (hx : s.read i h a s = .ok (x, s1)) (hy : s.read i h b s1 = .ok (y, s2))
    (hw : s.writeLanes i d lam ((List.range (ilaneCount (s.ent d) lam)).map fun j => laneOr0 (x.lanes la) (ix y j)) s2 = .ok t) :
    indexM s i h d a b la lam ok nb ix = .ok (t.done h) := by
  have hf : (!nb || lanesFit (ilaneCount (s.ent b) lam) (ilaneCount (s.ent d) lam)) = true := by
    cases nb
    · rfl
    · exact lanesFit_of hd (hb rfl)
  have hc : (ok && ilaneCount (s.ent d) lam != 0 && ilaneCount (s.ent a) la != 0 &&
      (!nb || lanesFit (ilaneCount (s.ent b) lam) (ilaneCount (s.ent d) lam))) = true := by simp [hok, hd, ha, hf]
  simp only [indexM, State.issue_of_checks hp hc, bind, Except.bind, hx, hy, hw]; rfl
/-- The lanes of `b` that `vmov.pack` takes: none of `zero` (R185). -/
def packed (b : NameRef) (y : Src) (lam : Nat) : List Int := if b == .fixed .zero then [] else y.lanes lam
theorem packM_of_read {lw : LaneW} (hp : Passes s (.vmovPack h d a b lw) h [a, b] [d]) (hl : lw ≠ .l8)
    (hd : ilaneCount (s.ent d) (laneBits lw / 2) ≠ 0) (ha : ilaneCount (s.ent a) (laneBits lw) ≠ 0)
    (hb : b = .fixed .zero ∨ ilaneCount (s.ent b) (laneBits lw) ≠ 0)
    (hn : ilaneCount (s.ent a) (laneBits lw) + (if b == .fixed .zero then 0 else ilaneCount (s.ent b) (laneBits lw)) ≤
      ilaneCount (s.ent d) (laneBits lw / 2))
    (hx : s.read (.vmovPack h d a b lw) h a s = .ok (x, s1)) (hy : s.read (.vmovPack h d a b lw) h b s1 = .ok (y, s2))
    (hw : s.writeLanes (.vmovPack h d a b lw) d (laneBits lw / 2) ((List.range (ilaneCount (s.ent d) (laneBits lw / 2))).map fun j =>
      (x.lanes (laneBits lw) ++ packed b y (laneBits lw)).getD j 0) s2 = .ok t) : packM s h d a b lw = .ok (t.done h) := by
  have hz : (b == .fixed .zero || (if b == .fixed .zero then 0 else ilaneCount (s.ent b) (laneBits lw)) != 0) = true := by
    by_cases hzero : b = .fixed .zero
    · simp [hzero]
    · simp [hzero, hb.resolve_left hzero]
  have hc : (lw != .l8 && ilaneCount (s.ent d) (laneBits lw / 2) != 0 && ilaneCount (s.ent a) (laneBits lw) != 0 &&
      (b == .fixed .zero || (if b == .fixed .zero then 0 else ilaneCount (s.ent b) (laneBits lw)) != 0) &&
      decide (ilaneCount (s.ent a) (laneBits lw) + (if b == .fixed .zero then 0 else ilaneCount (s.ent b) (laneBits lw)) ≤
        ilaneCount (s.ent d) (laneBits lw / 2))) = true := by
    rw [hz, decide_eq_true hn]; simp [hl, hd, ha]
  unfold packed at hw
  rw [packM]
  simp only [State.issue_of_checks hp hc, bind, Except.bind, hx, hy, hw]; rfl
theorem sendM_of_room {m : BitVec 9} {dir : Dir} (hd : portDir d = some dir) (hp : Passes s (.vmovSend h d (.cat m)) h [.cat m] [d])
    (hx : s.read (.vmovSend h d (.cat m)) h (.cat m) s = .ok (x, s)) (hn : s.neighbourIn dir = true)
    (hl : (s.outbound dir).length + (x.ent.width + 63) / 64 ≤ 16) :
    sendM s h d (.cat m) = .ok ((s.pushOut dir ((List.range ((x.ent.width + 63) / 64)).map fun j => n64 (x.pat / 2 ^ (64 * j)))).done h) := by
  have hc : ((portDir d).isSome && isCat (.cat m)) = true := by rw [hd]; rfl
  simp only [sendM, State.issue_of_checks hp hc, bind, Except.bind, hx]
  simp only [hd, Option.getD_some, msgWords]
  rw [State.send_of_room hn (by rw [List.length_map, List.length_range]; exact hl)]; rfl
theorem recvM_of_words {dir : Dir} (ha : portDir a = some dir) (hp : Passes s (.vmovRecv h d a) h [] [a, d]) (hd : isCat d = true)
    (hk : ((s.ent d).width + 63) / 64 ≤ (s.inbound dir).length) (hn : s.myCore.portAhead s.cur.h s.mySeq a = false)
    (hw : s.putPat (.vmovRecv h d a) d (ofWords ((s.inbound dir).take (((s.ent d).width + 63) / 64)))
      (s.setInbound dir ((s.inbound dir).drop (((s.ent d).width + 63) / 64))) = .ok t) : recvM s h d a = .ok (t.done h) := by
  have hc : ((portDir a).isSome && isCat d) = true := by rw [ha, hd]; rfl
  have hq : (decide ((s.inbound dir).length < msgWords (s.ent d).width) || s.myCore.portAhead s.cur.h s.mySeq a) = false := by
    rw [hn, msgWords, decide_eq_false (Nat.not_lt.2 hk)]; rfl
  simp only [recvM, State.issue_of_checks hp hc, bind, Except.bind]
  simp only [ha, Option.getD_some, hq, if_neg Bool.false_ne_true, pure, Except.pure]
  simp only [msgWords, hw]

/-! ### Check accumulators (R208, R209) -/

theorem chkAccM_of_read {lw : LaneW} {ng : Bool} (hp : Passes s (.chkAcc h d a lw ng) h [a, d] []) (hd : s.chkDst d = true)
    (hx : s.read (.chkAcc h d a lw ng) h a s = .ok (x, s1)) (hy : s.read (.chkAcc h d a lw ng) h d s1 = .ok (y, s2))
    (hw : s.putPat (.chkAcc h d a lw ng) d (wrapNat y.ent.width
      (if ng then y.val - foldSum x (laneBits lw) else y.val + foldSum x (laneBits lw))) s2 = .ok t) : chkAccM s h d a lw ng = .ok (t.done h) := by
  simp only [chkAccM, State.issue_of_checks hp hd, bind, Except.bind, hx, hy, hw]; rfl
theorem chkTestM_of_read (hp : Passes s (.chkTest h a b) h [a, b] []) (hx : s.read (.chkTest h a b) h a s = .ok (x, s1))
    (hy : s.read (.chkTest h a b) h b s1 = .ok (y, s2)) : chkTestM s h a b = if x.val ≠ y.val then
      trapM (s.count s.cur.coreRef 0x26) .check (n64 (nameNumber a * 2 ^ 16 + nameNumber b)) else .ok (s2.done h) := by
  simp only [chkTestM, State.issue_of_passes hp, bind, Except.bind, hx, hy]; rfl
theorem chkClrM_of_write (hp : Passes s (.chkClr h d) h [] [d]) (hd : s.chkDst d = true) (hw : s.putPat (.chkClr h d) d 0 s = .ok t) :
    chkClrM s h d = .ok (t.done h) := by
  simp only [chkClrM, State.issue_of_checks hp hd, bind, Except.bind, hw]; rfl
end

/-- A read of a name by an instruction without a latch of its operands: as the name stands (R67). -/
theorem State.nameSrc_of_no_latch {s0 : State} (hw : ∀ w, s0.me.wait = some w → w.src = none) (s : State) (k : BitVec 9) :
    s0.nameSrc s k = ⟨s.ent (.cat k), (s.me.name k.toNat).toNat⟩ := by
  have hb : s0.me.wait.bind (·.src) = none := by
    cases hv : s0.me.wait with
    | none => rfl
    | some w => exact hw w hv
  rw [State.nameSrc, hb]
/-- An entry that names read by depends on the kernels of the core alone. -/
theorem State.ent_setMyCore {s : State} {c : Core} (hc : c.kernels = s.myCore.kernels) (n : NameRef) : (s.setMyCore c).ent n = s.ent n := by
  have hk : (s.setMyCore c).myKernel = s.myKernel := by
    rw [State.myKernel, State.kernel, show (s.setMyCore c).core (s.setMyCore c).cur.coreRef = c from State.core_setCore_same .., Core.kernelOf, hc]; rfl
  rw [State.ent, hk]; rfl
theorem State.ent_setInbound (s : State) (dir : Dir) (l : List Word64) (n : NameRef) : (s.setInbound dir l).ent n = s.ent n :=
  State.ent_setMyCore (by exact rfl) n

/-! ### Each instruction runs its common course -/

theorem exec_intLane {i : Instr} {h : Hdr} {d : NameRef} {fs : List NameRef} {w : LaneW} {f : (Nat → Int) → Int}
    (hi : intLane i = some (h, d, fs, w, f)) (s : State) : exec i s = finish (vecM s i h d fs w f) := by
  have same {g : (Nat → Int) → Int} (e : Instr) (hg : ∀ v, g v = f v) : finish (vecM s e h d fs w g) = finish (vecM s e h d fs w f) := by
    rw [show g = f from funext hg]
  unfold intLane at hi
  split at hi <;> cases hi
  case h_5 => exact same _ fun v => Int.min_def ..
  case h_6 => exact same _ fun v => Int.max_def ..
  case h_12 => exact same _ fun v => by simp only []; split <;> omega
  case h_13 => exact same _ fun v => by simp only [ne_eq, ite_not]
  all_goals rfl

theorem exec_fltLane {i : Instr} {h : Hdr} {d : NameRef} {fs : List NameRef} {g : LaneF} {r : Rnd} {lat : Nat}
    {f : RMode → (Nat → FVal) → XVal} (hi : fltLane i = some (h, d, fs, g, r, lat, f)) (s : State) :
    exec i s = finish (vecfM s i h d fs g r lat f) := by
  have same {k : RMode → (Nat → FVal) → XVal} (e : Instr) (hk : ∀ m v, k m v = f m v) :
      finish (vecfM s e h d fs g r lat k) = finish (vecfM s e h d fs g r lat f) := by
    rw [show k = f from funext fun m => funext (hk m)]
  unfold fltLane at hi
  split at hi <;> cases hi
  case h_5 => exact same _ fun m v => by simp only [FVal.minOf, Bool.or_eq_true]
  case h_6 => exact same _ fun m v => by simp only [FVal.maxOf, Bool.or_eq_true]
  all_goals rfl

theorem exec_intRed {i : Instr} {h : Hdr} {d a : NameRef} {w : LaneW} {r : Rnd} {f : List Int → Int}
    (hi : intRed i = some (h, d, a, w, r, f)) (s : State) : exec i s = finish (vredIntM s i h d a w r f) := by
  unfold intRed at hi
  split at hi
  case h_6 => cases hi
  all_goals
    split at hi
    · cases hi
    · next hfl =>
      cases hi
      rw [Bool.not_eq_true] at hfl
      subst hfl
      rfl
theorem exec_fltRed {i : Instr} {h : Hdr} {d a : NameRef} {g : LaneF} {r : Rnd} {f : RMode → List FVal → FVal}
    (hi : fltRed i = some (h, d, a, g, r, f)) (s : State) : exec i s = finish (vredFltM s i h d a g r f) := by
  unfold fltRed at hi
  split at hi
  case h_5 => cases hi
  all_goals
    split at hi
    · next hfl =>
      cases hi
      subst hfl
      rfl
    · cases hi

theorem exec_laneMove {i : Instr} {h : Hdr} {d a b : NameRef} {la w : Nat} {lanes : Bool} {ix : Src → Nat → Int}
    (hi : laneMove i = some (h, d, a, b, la, w, lanes, ix)) (s : State) : exec i s = finish (indexM s i h d a b la w true lanes ix) := by
  unfold laneMove at hi
  split at hi
  case h_1 => cases hi; rfl
  case h_2 => cases hi; rfl
  case h_3 lw =>
    split at hi
    · cases hi
    · next hl =>
      cases hi
      have hb : (lw != .l8) = true := by simpa using hl
      change finish (indexM s _ h d a b _ _ (lw != .l8) false _) = _
      rw [hb]
  case h_4 => cases hi

end Sys2Proof.Machine

namespace Sys2Proof.Proofs
open Sys2Proof.Machine Sys2Proof.Claims

theorem laneValues : LaneValues := by
  refine ⟨fun x w => rfl, fun s0 s i n w xs h => State.writeLanes_of_fits fun x hx => mt r69_eq_none.1 (h x hx), fun s0 s i n w j xs x hx ht hlow => ?_⟩
  have hl := laneTrap_first (f := r69 (s.ent (.cat n)).kind w (s.ent (.cat n)).mode) hx (r69_eq_none.2 ht)
    (fun k y hk hy => mt r69_eq_none.1 (hlow k y hk hy)) 0
  rw [Nat.zero_add] at hl
  simp only [State.writeLanes, hl]; rfl

theorem integerLanes : IntegerLanes := fun s i h d fs w f hi hp hL hn xs s1 t hx hw => by
  rw [exec_intLane hi, vecM_of_read hp hL hn hx hw]; rfl

/-- Settles O29: the lanes of a list written one by one, and the one course of every integer lane instruction. -/
theorem integerLaneInstructions : Obligations.IntegerLaneInstructions := ⟨laneValues, integerLanes⟩

/-- Settles O30: the one course of every floating lane instruction. -/
theorem floatLanes : Obligations.FloatLanes := fun s _ _ _ _ _ _ _ _ hi hp hL hn _ _ hx =>
  vecfM_timed hp hL hn hx (exec_fltLane hi s)

/-- Settles O31: each reduction's course, and that of a scan. -/
theorem reductions : Obligations.Reductions := by
  refine ⟨fun s i h d a w r f hi hp ha hd x s1 t hx hw => ?ints, fun s i h d a g r f hi hp ha hdl hd x s1 t hx hw => ?floats,
    fun s h d a w g r hp ha hd x s1 t hx hw => congrArg finish (argmaxFM_of_read hp ha hd hx hw),
    fun s h d a w g r hp ha hd x s1 hx => scanM_timed_of_ints hp ha hd hx, fun s h d a w g r hp ha hd x s1 hx => scanM_timed_of_floats hp ha hd hx⟩
  case ints => rw [exec_intRed hi, vredIntM_of_read hp ha hd hx hw]; rfl
  case floats => rw [exec_fltRed hi, vredFltM_of_read hp ha hdl hd hx hw]; rfl

/-- Settles O32: each lane move's course. -/
theorem laneMoves : Obligations.LaneMoves := by
  refine ⟨fun s h n m hp hw => ?mov, fun s i h d a b la w lanes ix hi hp hd ha hb x s1 y s2 t hx hy hw => ?index,
    fun s h d a b w hl hp hd ha hb hz hn x s1 y s2 t hx hy hw => congrArg finish (?pack : packM s h d a b w = .ok _),
    fun s h f dir m hf hp hn hl hw => ?send, fun s h n f dir hf hp hk hq => ?recv⟩
  case mov =>
    have hx : s.read (.vmovMov h (.cat n) (.cat m)) h (.cat m) s = .ok (⟨s.ent (.cat m), (s.me.name m.toNat).toNat⟩, s) := by
      rw [State.read_cat, State.nameSrc_of_no_latch hw]
    exact congrArg finish (vmovM_of_read hp hx)
  case index => rw [exec_laneMove hi, indexM_of_read hp rfl hd ha hb hx hy hw]; rfl
  case pack =>
    have hb' : (b == .fixed .zero) = false := by simpa using hz
    exact packM_of_read hp hl hd ha (.inr hb) (by rw [hb', if_neg Bool.false_ne_true]; exact hn) hx hy
      (by rw [packed, hb', if_neg Bool.false_ne_true]; exact hw)
  case send =>
    have hx : s.read (.vmovSend h (.fixed f) (.cat m)) h (.cat m) s = .ok (⟨s.ent (.cat m), (s.me.name m.toNat).toNat⟩, s) := by
      rw [State.read_cat, State.nameSrc_of_no_latch hw]
    exact congrArg finish (sendM_of_room hf hp hx hn hl)
  case recv =>
    refine ⟨_, congrArg finish (recvM_of_words hf hp rfl hk hq rfl), ?_⟩
    rw [State.ent_setInbound]

/-- Settles O33: the three courses of the check accumulators. -/
theorem checks : Obligations.Checks := by
  refine fun s h => ⟨fun n a w ng x s1 hp hd hx y s2 hy => congrArg finish (chkAccM_of_read hp hd hx hy rfl),
    fun a b x s1 y s2 hp hx hy => ⟨fun he => ?same, fun hne => ?differ⟩, fun n hp hd => ?clr⟩
  case same =>
    refine congrArg finish (?_ : chkTestM s h a b = .ok _)
    rw [chkTestM_of_read hp hx hy, if_neg (Classical.not_not.2 he)]
  case differ =>
    refine congrArg finish (?_ : chkTestM s h a b = .error _)
    have hm : (s.count s.cur.coreRef 0x26).me = s.me := State.thread_countN ..
    rw [chkTestM_of_read hp hx hy, if_pos hne, trapM, hm]; rfl
  case clr =>
    have hz : s.putPat (.chkClr h (.cat n)) (.cat n) 0 s = .ok (s.putName n 0) := by
      rw [State.putPat, Nat.zero_mod]; rfl
    exact congrArg finish (chkClrM_of_write hp hd hz)

end Sys2Proof.Proofs
end

section
/-! Conversions (10 R190): LaneConversions speaks of every state, one whose thread record lists fewer names than its kernel's catalogue
among them; there a name beyond the record cannot hold what is written to it. -/
namespace Sys2Proof.Proofs
open Sys2Proof.Machine Sys2Proof.Claims
set_option maxRecDepth 8000
set_option exponentiation.threshold 600

/-- A kernel of two names, FP32 and `sint` 32. -/
def pairKernel : Kernel :=
  { Kernel.none with n := 8, cat := [⟨32, .fp32, .wrap, .rne, .none⟩, ⟨32, .sint, .wrap, .rne, .none⟩], rows := 2 }
/-- A core of it; the record of thread 0 lists the first name only, which holds 1.5. -/
def shortCore : Core :=
  { Core.fresh with kernels := [pairKernel], threads := Core.fresh.threads.set 0 { Thread.fresh with st := .ready, names := [0x3FC0_0000] } }
def shortState : State := { State.reset with cur := ⟨0, 2, 0⟩, tiles := [(0, { Tile.fresh with cores := Tile.fresh.cores.set 2 shortCore })] }
/-- The conversion of its first name to its second. -/
def toSecond : Instr := .cvtFtoi ⟨.ext, .none, 0⟩ (.cat 1) (.cat 0) .f32 .l32 .rtz
/-- What the second name reads as after it. -/
def secondAfter : Option Nat := match exec toSecond shortState with
  | .next t => some (t.me.name 1).toNat
  | _ => none

theorem secondAfter_eq : secondAfter = some 0 := by decide

/-- Refutes O34: 1.5 converts to 1, which the second name of `shortState` does not read as afterwards, for its record has no place for it. -/
theorem not_conversions : ¬ Obligations.Conversions := by
  intro h
  obtain ⟨⟨-, hftoi, -⟩, -⟩ := h
  have hp : Passes shortState toSecond ⟨.ext, .none, 0⟩ [.cat 0] [.cat 1] := ⟨by decide, by decide⟩
  obtain ⟨hval, -, -, -⟩ := hftoi shortState _ 1 (.cat 0) .f32 .l32 .rtz hp (by decide) (by decide) _ _ (.fin false 0xC00000 (-23)) [] _
    rfl (by decide) rfl rfl
  obtain ⟨t, hexec, -, hname⟩ := hval 1 (by decide) (by decide) (by decide)
  have hzero := secondAfter_eq
  rw [secondAfter, toSecond, hexec] at hzero
  have hone : (t.me.name 1).toNat = 1 := congrArg BitVec.toNat hname
  exact absurd (Option.some.inj hzero) (by rw [hone]; decide)

end Sys2Proof.Proofs
end

section
/-! The random stream and the sampler (16 R307 to R313, 17 R325 to R330): their courses past issue, what a draw picks, and the statement
RandomAndSampler from them. -/
namespace Sys2Proof.Machine
open Sys2Proof.Claims

/-! ### A state whose tile list names a tile is not changed by setting what is there -/

theorem putA_putA {α : Type} (l : List (Nat × α)) (k : Nat) (v w : α) : putA (putA l k v) k w = putA l k w := by
  induction l with
  | nil => simp [putA]
  | cons e l ih =>
    obtain ⟨j, x⟩ := e
    by_cases hlt : k < j
    · simp [putA, hlt]
    · by_cases he : k = j
      · simp [putA, he]
      · simp [putA, hlt, he, ih]

/-- The list of tiles has been set at a tile's own place. -/
def State.Lists (s : State) (k : Nat) : Prop := ∃ l x, s.tiles = putA l k x

theorem State.lists_setTile (s : State) (k : Nat) (x : Tile) : (s.setTile k x).Lists k := ⟨s.tiles, x, rfl⟩
theorem State.setTile_self {s : State} {k : Nat} (h : s.Lists k) : s.setTile k (s.tile k) = s := by
  obtain ⟨l, x, hl⟩ := h
  have hx : s.tile k = x := by rw [State.tile, hl, getA_putA_same]; rfl
  rw [State.setTile, hx, hl, putA_putA, ← hl]
theorem State.setThread_self {s : State} {t : ThreadRef} (h : s.Lists t.tile) : s.setThread t (s.thread t) = s := by
  have hcores : (s.tile t.tile).cores.set t.core (s.tile t.tile).cores[t.core] = (s.tile t.tile).cores := Vector.set_getElem_self ..
  have hcore : s.setCore t.coreRef (s.core t.coreRef) = s := by
    rw [State.setCore, State.core]
    change s.setTile t.tile { s.tile t.tile with cores := (s.tile t.tile).cores.set t.core (s.tile t.tile).cores[t.core] } = s
    rw [hcores]
    exact State.setTile_self h
  have hthreads : (s.core t.coreRef).threads.set t.h (s.core t.coreRef).threads[t.h] = (s.core t.coreRef).threads := Vector.set_getElem_self ..
  rw [State.setThread, State.thread, hthreads]
  exact hcore

theorem State.lists_of_tiles {s z : State} {k : Nat} (ht : z.tiles = s.tiles) (h : s.Lists k) : z.Lists k := by
  rwa [State.Lists, ht]
theorem State.lists_countN {s : State} {r : CoreRef} (h : s.Lists r.tile) (e : Fin 64) (n : Nat) : (s.countN r e n).Lists r.tile := by
  unfold State.countN
  split
  · exact h
  · exact State.lists_setTile ..
theorem State.lists_foldl {ε : Type} {f : State → ε → State} {k : Nat} (hf : ∀ z e, State.Lists z k → (f z e).Lists k) (l : List ε) {s : State}
    (h : s.Lists k) : (l.foldl f s).Lists k := by
  induction l generalizing s with
  | nil => exact h
  | cons e l ih => exact ih (hf s e h)
theorem State.lists_found {s : State} {t : ThreadRef} (h : s.Lists t.tile) (kind ctx k n : Nat) : (s.found t kind ctx k n).Lists t.tile := by
  unfold State.found
  split
  · exact h
  · refine State.lists_foldl (fun z e hz => State.lists_of_tiles (z.faultRecord_tiles ..) hz) _ ?_
    refine State.lists_countN (r := t.coreRef) (State.lists_countN (r := t.coreRef) ?_ ..) ..
    refine State.lists_foldl (fun z e hz => State.lists_of_tiles ?_ hz) _ h
    unfold State.bufError
    split <;> rfl
theorem State.lists_enterTrap (s : State) (t : ThreadRef) (c : BitVec 8) (epc : Nat) (v : Word64) : (s.enterTrap t c epc v).Lists t.tile :=
  State.lists_found (State.lists_countN (r := t.coreRef) (State.lists_setTile ..) ..) ..

/-- A trap leaves no record of a wait for what the instruction keeps. -/
theorem State.keepVal_takeTrap {s : State} {c : Cause} (hc : c ≠ .poison) (epc : Nat) (tval v : Word64) :
    (s.takeTrap s.cur c epc tval).keepVal v = s.takeTrap s.cur c epc tval := by
  rw [State.takeTrap_of_not_contained (fun h => absurd h hc)]
  obtain ⟨f, hf⟩ := s.thread_enterTrap s.cur c.code epc tval
  have hcur : (s.enterTrap s.cur c.code epc tval).cur = s.cur := by
    obtain ⟨-, -, hc, -⟩ := s.giveBack_cases s.cur
    rw [State.enterTrap, State.redirect, (State.found_keeps ..).1, State.countCode, State.countN_cur]
    exact hc
  have hself := State.setThread_self (t := s.cur) (s.lists_enterTrap s.cur c.code epc tval)
  rw [State.keepVal, State.setMe, State.me, hcur, hf]
  rw [hf] at hself
  exact hself

/-! ### The random stream (R308, R326, R327) -/

section
variable {s s1 s2 s3 t : State} {i : Instr} {h : Hdr} {d a b : NameRef} {x y : Src}

theorem seedM_of_read (hp : Passes s (.smpSeed h a b) h [a, b] []) (hx : s.read (.smpSeed h a b) h a s = .ok (x, s1))
    (hy : s.read (.smpSeed h a b) h b s1 = .ok (y, s2)) : seedM s h a b = if y.val < 0 ∨ y.val ≥ 2 ^ 40 then trapM s .rng (reasonVal 3 y.val)
      else .ok ((s2.setMe { s2.me with rkey := w64 x.val, rpos := BitVec.ofInt 40 y.val, ridx := 0 }).done h) := by
  simp only [seedM, State.issue_of_passes hp, bind, Except.bind, hx, hy]
  split <;> rfl
theorem randM_of_pattern {ds : List Nat} (hp : Passes s (.smpRand h d (.fixed .zero)) h [.fixed .zero] [d]) (hd : s.intDst d = true)
    (hr : s.draws 1 s = .ok (ds, s1)) (hw : s.putPat (.smpRand h d (.fixed .zero)) d (ds.headD 0) s1 = .ok t) :
    randM s h d (.fixed .zero) = .ok (t.done h) := by
  simp only [randM, State.issue_of_checks hp hd, bind, Except.bind, State.read_zero, hr, if_true, hw]; rfl
theorem randM_of_bound {ds : List Nat} (hp : Passes s (.smpRand h d a) h [a] [d]) (hd : s.intDst d = true) (ha : a ≠ .fixed .zero)
    (hx : s.read (.smpRand h d a) h a s = .ok (x, s1)) (hr : s.draws 1 s1 = .ok (ds, s2)) (hlo : 1 ≤ x.val) (hhi : x.val < 2 ^ 64)
    (hw : s.writeInt (.smpRand h d a) d ((ds.headD 0 * x.val.toNat / 2 ^ 64 : Nat) : Int) s2 = .ok t) : randM s h d a = .ok (t.done h) := by
  have hin : ¬ (x.val < 1 ∨ x.val ≥ 2 ^ 64) := by omega
  simp only [randM, State.issue_of_checks hp hd, bind, Except.bind, hx, hr, if_neg ha, if_neg hin, hw]; rfl
theorem posM_of_write (hp : Passes s (.smpPos h d) h [] [d]) (hd : s.oneDst d = true) (hn : s.me.rpos.toNat < 2 ^ 40 - 1)
    (hw : s.writeOne (.smpPos h d) d ((s.me.rpos.toNat + 1 : Nat) : Int) s = .ok t) :
    posM s h d = .ok ((t.setMe { t.me with rpos := BitVec.ofNat 40 (s.me.rpos.toNat + 1), ridx := 0 }).done h) := by
  simp only [posM, State.issue_of_checks hp hd, bind, Except.bind, if_neg (Nat.ne_of_lt hn), hw]; rfl
theorem posM_of_last (hp : Passes s (.smpPos h d) h [] [d]) (hd : s.oneDst d = true) (hn : s.me.rpos.toNat = 2 ^ 40 - 1) :
    posM s h d = trapM s .rng (reasonVal 2 (2 ^ 40 - 1)) := by
  simp only [posM, State.issue_of_checks hp hd, bind, Except.bind, hn]; rfl

/-! ### The sampler (R328, R329) -/

theorem stopM_of_slot {blk : Nat} (hp : Passes s (.smpStop h a b) h [a, b] []) (hw : 32 ≤ (s.ent b).width)
    (hx : s.read (.smpStop h a b) h a s = .ok (x, s1)) (hy : s.read (.smpStop h a b) h b s1 = .ok (y, s2)) (hb : s2.myBlock = some blk)
    (hlo : 0 ≤ x.val) (hhi : x.val ≤ 15) (ha : s2.myCore.slotAhead s2.cur.h s.mySeq (slotCode true x.val) = false)
    (hf : s2.boardAny s2.cur.tile (slotAt blk x.val.toNat) 128 = false)
    (hq : s2.poisoned (localKey s2.cur.tile (slotAt blk x.val.toNat)) 128 = false) :
    stopM s h a b = .ok ((s2.putStops s2.cur.tile (slotAt blk x.val.toNat)
      (((List.range (min (y.ent.width / 32) 16)).map fun j => laneAt y.pat 32 j).takeWhile (· != 0xFFFF_FFFF))).done h) := by
  have hin : ¬ (x.val < 0 ∨ x.val > 15) := by omega
  simp only [stopM, State.issue_of_checks hp (decide_eq_true hw), bind, Except.bind, hx, stopAt, hy, hb, if_neg hin, ha, hf, Bool.or_self,
    if_neg Bool.false_ne_true, hq]
  rfl

/-- The bytes of a weight: two of BF16, four of FP32 (R328). -/
def weightBytes (bf : Nat) : Nat := if bf = 1 then 2 else 4
theorem weightBytes_cases (bf : Nat) : weightBytes bf = 2 ∨ weightBytes bf = 4 := by
  unfold weightBytes
  split
  · exact .inl rfl
  · exact .inr rfl

/-- A descriptor that `smp.draw` takes: its fields, its vector, the numbers of its tokens, and what it waits for (R328). -/
structure DrawDesc (s s2 : State) (x y : Src) (l n bf slot cm : Nat) : Prop where
  desc : x.val = ((l + 2 ^ 35 * n + 2 ^ 53 * bf + 2 ^ 54 * slot + 2 ^ 63 * cm : Nat) : Int)
  one : 1 ≤ n
  count : n < 2 ^ 18
  form : bf < 2
  slotLt : slot < 16
  commit : cm < 2
  aligned : l % 8 = 0
  fits : l + weightBytes bf * n ≤ 2 ^ 19
  base : 0 ≤ y.val
  top : y.val + n ≤ 2 ^ 32
  block : cm = 1 → s2.myBlock.isSome = true
  ahead : s2.myCore.slotAhead s2.cur.h s.mySeq (slotCode (decide (cm = 1)) slot) = false
  board : s2.boardW s2.cur.tile l (weightBytes bf * n) = false
  slotFree : cm = 1 → s2.boardAny s2.cur.tile (slotAt (s2.myBlock.getD 0) slot) 128 = false

/-- A descriptor word in its fields. -/
theorem DrawDesc.fields {l n bf slot cm : Nat} (hn : n < 2 ^ 18) (hb : bf < 2) (hs : slot < 16) (hc : cm < 2) (hl : l < 2 ^ 19) :
    let q := l + 2 ^ 35 * n + 2 ^ 53 * bf + 2 ^ 54 * slot + 2 ^ 63 * cm
    fieldOf q 0 19 = l ∧ fieldOf q 19 16 = 0 ∧ fieldOf q 35 18 = n ∧ fieldOf q 53 1 = bf ∧ fieldOf q 54 4 = slot ∧ fieldOf q 58 5 = 0 ∧
      fieldOf q 63 1 = cm ∧ q < 2 ^ 64 := by
  simp only [fieldOf]
  refine ⟨?_, ?_, ?_, ?_, ?_, ?_, ?_, ?_⟩ <;> omega

/-- The end of a draw over weights in common units, `nb` of them bad, whose `n` bytes are at key `k`: `smp.draw` from its draw on (R328). -/
def drawEnd (s : State) (i : Instr) (h : Hdr) (d : NameRef) (base : Int) (us : List Nat) (nb k n cm sl : Nat) (z : State) :
    M State := do
  let s0 := s.countN s.cur.coreRef 0x29 nb
  let (ds, s5) ← s0.draws 1 ((z.countN z.cur.coreRef 0x29 nb).found z.cur 0 z.myKernel.ctx k n)
  let r := ds.headD 0 / 2 ^ 32
  if us.sum = 0 then
    let s6 ← afterRun (s.writeDrawn s0 i d (4 * 2 ^ 32 + 0xFFFF_FFFF) s5)
    pure (s6.done h)
  else
    let tau := (base + pickIndex us r).toNat
    if cm = 1 then
      if s5.poisoned (localKey z.cur.tile sl) 128 then
        poisonM s0 0 s5.myKernel.ctx (localKey z.cur.tile sl) 128 (n64 (s5.poisonAt (localKey z.cur.tile sl) 128 - localKey z.cur.tile 0))
      else
        let (code, s6) := s5.commitToken z.cur.tile sl tau s5.me.rpos.toNat
        let s7 ← afterRun (s.writeDrawn s0 i d (code * 2 ^ 32 + tau : Nat) s6)
        pure (s7.done h)
    else
      let s6 ← afterRun (s.writeDrawn s0 i d (tau : Int) s5)
      pure (s6.done h)

/-- The weights of a draw, each of its form's width. -/
theorem weightsAt_eq (s : State) (k n bf : Nat) : weightsAt s k n (if bf = 1 then 2 else 4) = (List.range n).map fun j =>
    (if bf = 1 then FF.b16 else FF.f32).value (s.natAt (k + (if bf = 1 then 2 else 4) * j) (if bf = 1 then 2 else 4)) := by
  unfold weightsAt
  by_cases hb : bf = 1
  · simp [hb]
  · simp [hb]

/-- A draw that passes its checks runs for its cycles and then draws (R103, R328). -/
theorem drawAt_of_desc {l n bf slot cm : Nat} (hy : s.read i h b s1 = .ok (y, s2)) (hd : DrawDesc s s2 x y l n bf slot cm)
    (hq : s.ranOut = true → s2.poisoned (localKey s2.cur.tile l) (weightBytes bf * n) = false) : drawAt s i h d b x s1 =
      if s.ranOut = true then
        drawEnd s i h d y.val (weightUnits (weightsAt s2 (localKey s2.cur.tile l) n (weightBytes bf)))
          ((weightsAt s2 (localKey s2.cur.tile l) n (weightBytes bf)).filter badWeight).length (localKey s2.cur.tile l) (weightBytes bf * n)
          cm (slotAt (s2.myBlock.getD 0) slot) s2
      else .error (s.running i (drawCycles (weightBytes bf * n))) := by
  have hn := hd.one
  have hwb := weightBytes_cases bf
  have hpos : weightBytes bf ≤ weightBytes bf * n := Nat.le_mul_of_pos_right _ hn
  have hfits := hd.fits
  obtain ⟨hl, hz1, hc, hb, hs, hz2, hm, hq64⟩ := DrawDesc.fields (l := l) hd.count hd.form hd.slotLt hd.commit (by omega)
  have hnat : x.val.toNat = l + 2 ^ 35 * n + 2 ^ 53 * bf + 2 ^ 54 * slot + 2 ^ 63 * cm := by rw [hd.desc]; rfl
  have hdesc : ¬ (x.val < 0 ∨ x.val ≥ 2 ^ 64 ∨ fieldOf x.val.toNat 58 5 ≠ 0 ∨ fieldOf x.val.toNat 19 16 ≠ 0 ∨ fieldOf x.val.toNat 35 18 = 0) := by
    rw [hnat, hz1, hz2, hc, hd.desc]; omega
  have hal : ¬ l % 8 ≠ 0 := Classical.not_not.2 hd.aligned
  have hend : ¬ l + weightBytes bf * n - 1 > 0x7_FFFF := by omega
  have hbase := hd.base
  have htop := hd.top
  have htok : ¬ (y.val < 0 ∨ y.val + n - 1 > 2 ^ 32 - 1) := by omega
  have hblk : ¬ (cm = 1 ∧ s2.myBlock.isNone = true) := by
    rintro ⟨h1, h2⟩
    rw [← Option.not_isSome, hd.block h1] at h2
    exact absurd h2 (by decide)
  have hhold : (s2.myCore.slotAhead s2.cur.h s.mySeq (slotCode (decide (cm = 1)) slot) || s2.boardW s2.cur.tile l (weightBytes bf * n) ||
      (decide (cm = 1) && s2.boardAny s2.cur.tile (slotAt (s2.myBlock.getD 0) slot) 128)) = false := by
    rw [hd.ahead, hd.board]
    by_cases h1 : cm = 1
    · rw [hd.slotFree h1, Bool.and_false]; rfl
    · rw [decide_eq_false h1]; rfl
  unfold weightBytes at hend hhold hq ⊢
  simp only [drawAt, hy, bind, Except.bind, if_neg hdesc]
  simp only [hnat, hl, hc, hb, hs, hm, if_neg hal, if_neg hend, if_neg htok, if_neg hblk, hhold, if_neg Bool.false_ne_true, pure, Except.pure]
  by_cases hr : s.ranOut = true
  · have hw (lat : Nat) : s.writesNow lat = true := by simp [State.writesNow, hr]
    rw [if_pos hr, drawEnd, weightsAt_eq]
    simp only [State.runFor, hw, if_true, hq hr, if_neg Bool.false_ne_true]
    rfl
  · have hlat : ¬ drawCycles ((if bf = 1 then 2 else 4) * n) ≤ 8 := by
      unfold weightBytes at hpos hwb
      unfold drawCycles
      omega
    have hw : s.writesNow (drawCycles ((if bf = 1 then 2 else 4) * n)) = false := by
      rw [State.writesNow, decide_eq_false hlat, Bool.eq_false_iff.2 hr]; rfl
    rw [if_neg hr]
    simp only [State.runFor, hw, if_neg Bool.false_ne_true]
/-- What the wait of a draw keeps: the slot that it commits to. -/
theorem DrawDesc.kept {l n bf slot cm : Nat} (hd : DrawDesc s s2 x y l n bf slot cm) :
    slotCode (decide (x.val.toNat.testBit 63 = true ∧ x.val < 2 ^ 64)) (fieldOf x.val.toNat 54 4) = slotCode (decide (cm = 1)) slot := by
  have hfits := hd.fits
  have hpos : weightBytes bf ≤ weightBytes bf * n := Nat.le_mul_of_pos_right _ hd.one
  have hwb := weightBytes_cases bf
  obtain ⟨-, -, -, -, hs, -, hm, hq64⟩ := DrawDesc.fields (l := l) hd.count hd.form hd.slotLt hd.commit (by omega)
  have hnat : x.val.toNat = l + 2 ^ 35 * n + 2 ^ 53 * bf + 2 ^ 54 * slot + 2 ^ 63 * cm := by rw [hd.desc]; rfl
  have hbit : (x.val.toNat.testBit 63 = true ∧ x.val < 2 ^ 64) ↔ cm = 1 := by
    rw [hnat, Nat.testBit_eq_decide_div_mod_eq, decide_eq_true_eq, hd.desc]
    rw [fieldOf] at hm
    constructor
    · rintro ⟨h1, -⟩
      omega
    · intro h1
      constructor <;> omega
  rw [hnat, hs, ← hnat]
  congr 1
  exact decide_eq_decide.2 hbit

theorem drawM_of_read (hp : Passes s (.smpDraw h d a b) h [a, b] [d]) (hk : (s.ent d).kind = .uint ∨ (s.ent d).kind = .raw)
    (hw : 35 ≤ (s.ent d).width) (hx : s.read (.smpDraw h d a b) h a s = .ok (x, s1)) : drawM s h d a b =
      keeping (slotCode (decide (x.val.toNat.testBit 63 = true ∧ x.val < 2 ^ 64)) (fieldOf x.val.toNat 54 4))
        (drawAt s (.smpDraw h d a b) h d b x s1) := by
  have hc : (((s.ent d).kind == .uint || (s.ent d).kind == .raw) && decide (35 ≤ (s.ent d).width)) = true := by
    rw [decide_eq_true hw]
    rcases hk with hk | hk <;> rw [hk] <;> rfl
  simp only [drawM, State.issue_of_checks hp hc, bind, Except.bind, hx]

/-- A descriptor of a count of 0 (R328). -/
theorem drawAt_of_none {l : Nat} (hy : s.read i h b s1 = .ok (y, s2)) (hx : x.val = (l : Int)) (hl : l < 2 ^ 35) :
    drawAt s i h d b x s1 = trapM s .rng (reasonVal 3 x.val) := by
  have hnone : fieldOf x.val.toNat 35 18 = 0 := by
    rw [hx, fieldOf, Int.toNat_natCast, Nat.div_eq_of_lt hl, Nat.zero_mod]
  simp only [drawAt, hy, bind, Except.bind, hnone, or_true, if_true]
  rfl
end

/-! ### What a draw picks (R328) -/

/-- One weight of the search: the weights up to it, its place, and the place picked before it. -/
def pickStep (r : Nat) (acc : Nat × Nat × Option Nat) (u : Nat) : Nat × Nat × Option Nat :=
  (acc.1 + u, acc.2.1 + 1, match acc.2.2 with | some j => some j | none => if 2 ^ 32 * (acc.1 + u) > r then some acc.2.1 else none)
theorem pickIndex_eq (us : List Nat) (r : Nat) : pickIndex us r = (us.foldl (pickStep (r * us.sum)) (0, 0, none)).2.2.getD 0 := by
  unfold pickIndex
  rfl
theorem pickStep_picked (r : Nat) (us : List Nat) (p c j : Nat) : (us.foldl (pickStep r) (p, c, some j)).2.2 = some j := by
  induction us generalizing p c with
  | nil => rfl
  | cons u us ih => exact ih ..
/-- The search stops at the first place with more than the bound up to it. -/
theorem pickStep_first {r : Nat} {us : List Nat} {p j : Nat} (c : Nat) (hj : j < us.length) (hhit : r < 2 ^ 32 * (p + (us.take (j + 1)).sum))
    (hlow : ∀ k, k < j → 2 ^ 32 * (p + (us.take (k + 1)).sum) ≤ r) : (us.foldl (pickStep r) (p, c, none)).2.2 = some (c + j) := by
  induction us generalizing p c j with
  | nil => exact absurd hj (Nat.not_lt_zero _)
  | cons u us ih =>
    rw [List.foldl_cons]
    cases j with
    | zero =>
      have hnow : 2 ^ 32 * (p + u) > r := by simpa using hhit
      rw [pickStep, if_pos hnow, pickStep_picked]; rfl
    | succ j =>
      have hnow : ¬ 2 ^ 32 * (p + u) > r := by simpa using hlow 0 (Nat.succ_pos j)
      rw [pickStep, if_neg hnow, ih (c + 1) (Nat.lt_of_succ_lt_succ hj), Nat.add_right_comm, Nat.add_assoc]
      · simpa [List.take_succ_cons, Nat.add_assoc] using hhit
      · intro k hk
        simpa [List.take_succ_cons, Nat.add_assoc] using hlow (k + 1) (Nat.succ_lt_succ hk)
theorem pickIndex_of_picks {us : List Nat} {r j : Nat} (h : Picks us r j) : pickIndex us r = j := by
  obtain ⟨hj, hhit, hlow⟩ := h
  rw [pickIndex_eq, pickStep_first 0 hj (by rwa [Nat.zero_add]) (fun k hk => by rw [Nat.zero_add]; exact hlow k hk), Nat.zero_add]; rfl
/-- Something is picked of weights that are not all 0 only. -/
theorem sum_ne_zero_of_picks {us : List Nat} {r j : Nat} (h : Picks us r j) : us.sum ≠ 0 := by
  obtain ⟨-, hhit, -⟩ := h
  intro hz
  have hsum := congrArg List.sum (List.take_append_drop (j + 1) us)
  rw [List.sum_append_nat, hz] at hsum
  rw [hz] at hhit
  omega

section
variable {s z s3 t : State} {i : Instr} {h : Hdr} {d : NameRef} {base : Int} {us ds : List Nat} {nb k n sl : Nat}

/-- Weights that are all 0 give code 4 with the token all ones (R328). -/
theorem drawEnd_of_zero {cm : Nat} (hr : (s.countN s.cur.coreRef 0x29 nb).draws 1 ((z.countN z.cur.coreRef 0x29 nb).found z.cur 0 z.myKernel.ctx k n) =
      .ok (ds, s3)) (hz : us.sum = 0) (hw : s.writeDrawn (s.countN s.cur.coreRef 0x29 nb) i d 0x4_FFFF_FFFF s3 = .ok t) :
    drawEnd s i h d base us nb k n cm sl z = .ok (t.done h) := by
  have hw : s.writeDrawn (s.countN s.cur.coreRef 0x29 nb) i d (4 * 2 ^ 32 + 0xFFFF_FFFF) s3 = .ok t := hw
  simp only [drawEnd, bind, Except.bind, hr, if_pos hz, hw]; rfl
/-- A draw that commits nothing writes its token (R328). -/
theorem drawEnd_of_picks {j : Nat} (hr : (s.countN s.cur.coreRef 0x29 nb).draws 1 ((z.countN z.cur.coreRef 0x29 nb).found z.cur 0 z.myKernel.ctx k n) =
      .ok (ds, s3)) (hj : Picks us (ds.headD 0 / 2 ^ 32) j) (hb : 0 ≤ base)
    (hw : s.writeDrawn (s.countN s.cur.coreRef 0x29 nb) i d (base + j) s3 = .ok t) :
    drawEnd s i h d base us nb k n 0 sl z = .ok (t.done h) := by
  have htok : (((base + pickIndex us (ds.headD 0 / 2 ^ 32)).toNat : Nat) : Int) = base + j := by rw [pickIndex_of_picks hj]; omega
  simp only [drawEnd, bind, Except.bind, hr, if_neg (sum_ne_zero_of_picks hj), htok, hw, if_neg Nat.zero_ne_one]; rfl
end

end Sys2Proof.Machine

namespace Sys2Proof.Proofs
open Sys2Proof.Machine Sys2Proof.Claims

theorem randomStream : RandomStream := by
  refine fun s h => ⟨fun a b x s1 y s2 hp hx hy => ⟨fun hin => ?seed, fun hout => ?beyond⟩,
    fun n ds s1 hp hd hr => congrArg finish (randM_of_pattern hp hd hr rfl),
    fun d a x s1 ds s2 t hp hd ha hx hr hlo hhi hw => congrArg finish (randM_of_bound hp hd ha hx hr hlo hhi hw),
    fun d t hp hd => ⟨fun hn hw => congrArg finish (posM_of_write hp hd hn hw), fun hn => congrArg finish (posM_of_last hp hd hn)⟩⟩
  case seed =>
    refine congrArg finish (?_ : seedM s h a b = .ok _)
    rw [seedM_of_read hp hx hy, if_neg (by omega)]; rfl
  case beyond =>
    refine congrArg finish (?_ : seedM s h a b = .error _)
    rw [seedM_of_read hp hx hy, if_pos (by omega)]; rfl

theorem sampler : Sampler := by
  refine ⟨fun s h a b hp hw x s1 y s2 blk hx hy hb hlo hhi ha hf hq => congrArg finish (stopM_of_slot hp hw hx hy hb hlo hhi ha hf hq),
    fun s h d a b hp hk hwid x s1 y s2 hx hy => ⟨fun l n bf el k us nb ds s3 hd h1 hn hbf hel hal hfit hlo htop hboard => ?draw,
      fun l hl hlt => ?none⟩⟩
  case draw =>
    have hel : el = weightBytes bf := hel
    subst hel
    have hdesc : DrawDesc s s2 x y l n bf 0 0 := {
      desc := by rw [hd]; rfl
      one := h1
      count := hn
      form := hbf
      slotLt := by decide
      commit := by decide
      aligned := hal
      fits := hfit
      base := hlo
      top := htop
      block := fun h => absurd h Nat.zero_ne_one
      ahead := rfl
      board := hboard
      slotFree := fun h => absurd h Nat.zero_ne_one }
    have hkept := hdesc.kept
    refine ⟨fun hr => ?runs, fun hr hkey hq hus hnb hdraw => ⟨fun t hz hw => ?zero, fun j t hj hw => ?picks⟩⟩
    case runs =>
      refine congrArg finish (?_ : drawM s h d a b = .error _)
      rw [drawM_of_read hp hk hwid hx, hkept, drawAt_of_desc hy hdesc (fun h => absurd h (by rw [hr]; decide)), hr, if_neg Bool.false_ne_true, Nat.mul_comm n]
      rfl
    case zero =>
      subst hkey hus hnb
      refine congrArg finish (?_ : drawM s h d a b = .ok _)
      rw [drawM_of_read hp hk hwid hx, drawAt_of_desc hy hdesc (fun _ => hq), if_pos hr, drawEnd_of_zero hdraw hz hw]; rfl
    case picks =>
      subst hkey hus hnb
      refine congrArg finish (?_ : drawM s h d a b = .ok _)
      rw [drawM_of_read hp hk hwid hx, drawAt_of_desc hy hdesc (fun _ => hq), if_pos hr, drawEnd_of_picks hdraw hj hlo hw]; rfl
  case none =>
    refine congrArg finish (?_ : drawM s h d a b = .error _)
    rw [drawM_of_read hp hk hwid hx, drawAt_of_none hy hl hlt, trapM, keeping, State.keepVal_takeTrap (by decide)]

/-- Settles O35: the stream's courses, and a draw from its descriptor to the first place of its weights that it reaches. -/
theorem randomAndSampler : Obligations.RandomAndSampler := ⟨randomStream, sampler⟩

end Sys2Proof.Proofs
end

section
/-! Vector groups (10 R204 to R206): the courses of `join` and `leave`, a group that forms, and the statement VectorGroups from them. -/
namespace Sys2Proof.Machine
open Sys2Proof.Claims

/-! ### A list of threads changed alike -/

/-- Threads of a list changed by one function that a second application does not change. -/
theorem State.thread_foldl_setThread {f : Thread → Thread} (hf : ∀ x, f (f x) = f x) (l : List ThreadRef) (s : State) (u : ThreadRef) :
    (l.foldl (fun (z : State) t => z.setThread t (f (z.thread t))) s).thread u = if u ∈ l then f (s.thread u) else s.thread u := by
  induction l generalizing s with
  | nil => rfl
  | cons t l ih =>
    rw [List.foldl_cons, ih]
    by_cases hu : u = t
    · subst hu
      rw [State.thread_setThread_same, hf]
      simp
    · rw [State.thread_setThread_other _ _ hu]
      simp [hu]
theorem State.mem_foldl_setThread {f : State → ThreadRef → Thread} (l : List ThreadRef) (s : State) :
    (l.foldl (fun (z : State) t => z.setThread t (f z t)) s).mem = s.mem := by
  induction l generalizing s with
  | nil => rfl
  | cons t l ih => exact ih _

theorem Thread.wait_leaveWait (x : Thread) : x.leaveWait.wait = none := by
  unfold Thread.leaveWait
  split
  · rfl
  · assumption
theorem Thread.leaveWait_of_none {x : Thread} (h : x.wait = none) : x.leaveWait = x := by simp only [Thread.leaveWait, h]
/-- A thread that waited in a `join` goes on behind it. -/
theorem Thread.pc_leaveWait {x : Thread} {w : WaitRec} {h : Hdr} {a : NameRef} (hw : x.wait = some w) (hi : w.instr = .vmovJoin h a) :
    x.leaveWait.pc = w.pc + 4 * h.form.words := by simp only [Thread.leaveWait, hw, hi]
theorem Thread.st_leaveWait {x : Thread} {w : WaitRec} (hw : x.wait = some w) : x.leaveWait.st = .ready := by simp only [Thread.leaveWait, hw]

/-- A follower as the group that forms has it (R204). -/
def Thread.joined (t : ThreadRef) (dir : Dir) (x : Thread) : Thread := { x.leaveWait.attach with vgLeader := some t, vgDir := dir, vgSize := 0 }
theorem Thread.joined_joined (t : ThreadRef) (dir : Dir) (x : Thread) : (x.joined t dir).joined t dir = x.joined t dir := by
  have hw : (x.joined t dir).wait = none := x.wait_leaveWait
  rw [Thread.joined, Thread.leaveWait_of_none hw]; rfl

/-- A follower that waits in its own `join` for a group in the leader's direction. -/
def State.claims (s : State) (south : Bool) (f : ThreadRef) : Prop :=
  (s.thread f).st = .waiting ∧ (s.thread f).vg = .solo ∧
    ∃ u d, (s.thread f).wait = some u ∧ u.why = .retry 20 d ∧ d.testBit 6 = true ∧ d.testBit 7 = south

section
variable {s s1 t : State} {h : Hdr} {a : NameRef} {x : Src}

/-! ### `join` and `leave` (R204, R206) -/

theorem joinM_of_follower (hv : s.me.vg = .solo) (hg : s.stage = none) (hp : Passes s (.vmovJoin h a) h [a] [])
    (hx : s.read (.vmovJoin h a) h a s = .ok (x, s1)) (hd : joinDescOk x.val = true) (hc : s1.cur.core = 2) (hb : x.val.toNat.testBit 6 = true) :
    joinM s h a = .error (s.hold (.vmovJoin h a) (.retry 20 x.val.toNat) (some (reasonVal 4 s.me.pc))) := by
  have hl : ¬ ((!x.val.toNat.testBit 6) = true ∧
      (s1.claimed s1.cur (x.val.toNat.testBit 7) (x.val.toNat % 32)).isNone = true) := by rw [hb]; exact fun h => absurd h.1 (by decide)
  simp only [joinM, hv, hg, bind, Except.bind, State.issue_of_passes hp, hx, hd, Bool.not_true, if_neg Bool.false_ne_true, hc,
    ne_eq, not_true_eq_false, if_false, hl]
  rfl
theorem joinM_of_attached (hv : s.me.vg = .attached) (hp : Passes s (.vmovJoin h a) h [] []) : joinM s h a = .ok (s.done h) := by
  simp only [joinM, hv, bind, Except.bind, State.issue_of_passes hp]; rfl
theorem leaveM_of_solo (hv : s.me.vg = .solo) (hp : Passes s (.vmovLeave h) h [] []) : leaveM s h = .ok (s.done h) := by
  simp only [leaveM, bind, Except.bind, State.issue_of_passes hp, hv]; rfl
theorem leaveM_of_attached (hv : s.me.vg = .attached) (hp : Passes s (.vmovLeave h) h [] []) :
    leaveM s h = .ok ((s.goTo (s.me.pc + 4 * h.form.words)).setMe (s.goTo (s.me.pc + 4 * h.form.words)).me.toSolo) := by
  simp only [leaveM, bind, Except.bind, State.issue_of_passes hp, hv]; rfl
end

section
variable {s : State} {t : ThreadRef} {w : WaitRec} {v : Nat} {fs : List ThreadRef}

/-- The state that a group leaves which forms (R204). -/
def State.formed (s : State) (t : ThreadRef) (v : Nat) (fs : List ThreadRef) : State :=
  let dir : Dir := if v.testBit 7 then .s else .e
  let s1 := fs.foldl (fun (z : State) f => z.setThread f ((z.thread f).joined t dir)) s
  s1.setThread t { (s1.thread t).leaveWait with vg := .leader, vgLeader := none, vgDir := dir, vgSize := v % 32, vgRun := none }

/-- A group forms where every follower that its leader claims waits for it (R204). -/
theorem execVgForm_of_claims (hw : (s.thread t).wait = some w) (hy : w.why = .retry 20 v) (hst : (s.thread t).st = .waiting)
    (hv : (s.thread t).vg = .solo) (hb : v.testBit 6 = false) (hc : s.claimed t (v.testBit 7) (v % 32) = some fs)
    (hf : ∀ f ∈ fs, s.claims (v.testBit 7) f) : execVgForm t s = .next (s.formed t v fs) := by
  have hall : (fs.all fun f =>
      let y := s.thread f
      y.st == .waiting && y.vg == .solo && match y.wait with
        | some u => (match u.why with | .retry 20 d => d.testBit 6 && d.testBit 7 == v.testBit 7 | _ => false)
        | none => false) = true := by
    refine List.all_eq_true.2 fun f hm => ?_
    obtain ⟨hst, hvg, u, d, hu, hd, h6, h7⟩ := hf f hm
    simp [hst, hvg, hu, hd, h6, h7]
  have hlead : ¬ ((s.thread t).st ≠ .waiting ∨ (s.thread t).vg ≠ .solo ∨ v.testBit 6 = true) := by simp [hst, hv, hb]
  simp only [execVgForm, hw, hy, if_neg hlead, hc]
  refine (if_neg fun h => ?_).trans rfl
  rw [Bool.not_eq_true'] at h
  exact absurd (h.symm.trans hall) Bool.false_ne_true

/-- No leader is its own follower: its descriptor says that it leads. -/
theorem not_mem_of_claims (hw : (s.thread t).wait = some w) (hy : w.why = .retry 20 v) (hb : v.testBit 6 = false)
    (hf : ∀ f ∈ fs, s.claims (v.testBit 7) f) : t ∉ fs := by
  intro hm
  obtain ⟨-, -, u, d, hu, hd, h6, -⟩ := hf t hm
  rw [hw] at hu
  cases hu
  rw [hy] at hd
  cases hd
  exact absurd (hb.symm.trans h6) (by decide)

theorem State.mem_formed (s : State) (t : ThreadRef) (v : Nat) (fs : List ThreadRef) : (s.formed t v fs).mem = s.mem :=
  State.mem_foldl_setThread fs s
theorem State.thread_formed_leader (h : t ∉ fs) : (s.formed t v fs).thread t =
    { (s.thread t).leaveWait with vg := .leader, vgLeader := none, vgDir := if v.testBit 7 then .s else .e, vgSize := v % 32, vgRun := none } := by
  rw [State.formed, State.thread_setThread_same, State.thread_foldl_setThread (f := Thread.joined t _) (Thread.joined_joined t _), if_neg h]
theorem State.thread_formed_follower {f : ThreadRef} (h : t ∉ fs) (hf : f ∈ fs) :
    (s.formed t v fs).thread f = (s.thread f).joined t (if v.testBit 7 then .s else .e) := by
  have hne : f ≠ t := by
    rintro rfl
    exact h hf
  rw [State.formed, State.thread_setThread_other _ _ hne,
    State.thread_foldl_setThread (f := Thread.joined t _) (Thread.joined_joined t _), if_pos hf]
end

theorem execVgForward_of_due {s : State} {t : ThreadRef} {f : Forward} {l : List Forward} (hi : (s.thread t).vgIn = f :: l) (hd : f.due ≤ s.cycle)
    (hb : (s.thread t).vgBuf.length < 8) :
    execVgForward t s = .next (s.setThread t { s.thread t with vgIn := l, vgBuf := (s.thread t).vgBuf ++ [f] }) := by
  simp only [execVgForward, hi, if_neg (Nat.not_lt.2 hd), if_neg (Nat.not_le.2 hb)]

end Sys2Proof.Machine

namespace Sys2Proof.Proofs
open Sys2Proof.Machine Sys2Proof.Claims

/-- Settles O36: the courses of `join` and `leave`, and the threads of a group that has formed, one by one. -/
theorem vectorGroups : Obligations.VectorGroups := by
  refine ⟨fun s h a x s1 hv hg hp hx hd hc hb => congrArg finish (joinM_of_follower hv hg hp hx hd hc hb),
    fun s h a hv hp => congrArg finish (joinM_of_attached hv hp),
    fun s h hp => ⟨fun hv => congrArg finish (leaveM_of_solo hv hp), fun hv z hz => ?leave⟩,
    fun s t w v fs hw hy hst hv hb hc hf => ?form, fun s t f l hi hd hb => execVgForward_of_due hi hd hb⟩
  case leave =>
    subst hz
    exact congrArg finish (leaveM_of_attached hv hp)
  case form =>
    have ht := not_mem_of_claims hw hy hb hf
    have hlead := State.thread_formed_leader (s := s) (v := v) ht
    refine ⟨_, execVgForm_of_claims hw hy hst hv hb hc hf, by rw [hlead], by rw [hlead], ?_, State.mem_formed .., fun h a hi => ?_, fun f hm => ?_⟩
    · rw [hlead]
      exact Thread.st_leaveWait hw
    · rw [hlead]
      exact Thread.pc_leaveWait hw hi
    · obtain ⟨-, -, u, d, hu, -⟩ := hf f hm
      rw [State.thread_formed_follower ht hm]
      refine ⟨rfl, rfl, Thread.st_leaveWait hu, fun u' h a hu' hi => ?_⟩
      exact Thread.pc_leaveWait hu' hi

end Sys2Proof.Proofs
end

section
/-! Words of the encoding tables (05 R84 to R94) and the machine right after reset (22 R387): the statements DecodedWords and ResetState. -/
namespace Sys2Proof.Proofs
open Sys2Proof.Machine Sys2Proof.Claims

/-- Settles O54: the decoder evaluated at each word. -/
theorem decodedWords : Obligations.DecodedWords := ⟨rfl, rfl, rfl, rfl, rfl⟩

/-- After reset every tile is as a fresh one, whose threads are EMPTY. -/
theorem thread_reset (t : ThreadRef) : (State.reset.thread t).st = .empty := by
  have hthread : ∀ h : Fin 8, (Core.fresh.threads[h]).st = .empty := by decide
  have hcore : ∀ k : Fin 3, Tile.fresh.cores[k] = Core.fresh := fun k => Vector.getElem_replicate ..
  have hc : State.reset.core t.coreRef = Core.fresh := hcore t.core
  rw [State.thread, hc]
  exact hthread t.h

/-- Settles O57: the fields of the reset state, memory with nothing listed, and every thread that of a fresh core. -/
theorem resetState : Obligations.ResetState :=
  ⟨State.memOk_reset, fun _ => rfl, rfl, rfl, rfl, rfl, thread_reset, rfl, rfl, rfl, rfl, rfl, rfl, rfl, by decide, rfl⟩

end Sys2Proof.Proofs
end

section
/-! The host's commands and rings (22 R373 to R386): what a completion leaves, the courses of the commands, and the statements CommandCompletion,
HostCommands, ContextCommands and RingSteps from them. -/
namespace Sys2Proof.Machine
open Sys2Proof.Claims

/-! ### Queue pairs and completions (R378, R379) -/

theorem State.queues_modQueue_same (s : State) (q : Nat) (f : QueuePair → QueuePair) : (s.modQueue q f).queues[qIx q] = f s.queues[qIx q] :=
  Vector.getElem_set_self ..
theorem State.queues_modQueue_other (s : State) (q : Nat) (f : QueuePair → QueuePair) {k : Fin 16} (h : k ≠ qIx q) :
    (s.modQueue q f).queues[k] = s.queues[k] := Vector.getElem_set_ne (qIx q).isLt k.isLt fun e => h (Fin.ext e.symm)
theorem qIx_qIx (q : Nat) : qIx (qIx q).val = qIx q := Fin.ext (Nat.mod_mod _ _)
theorem qIx_fin (q : Fin 16) : qIx q.val = q := Fin.ext (Nat.mod_eq_of_lt q.isLt)

/-- A pair as a completion leaves it: free, its completion tail moved, its phase flipped where the ring wraps (R379). -/
def QueuePair.completed (p : QueuePair) : QueuePair :=
  { p with busy := false, reserved := p.reserved - 1, ctail := if p.qsize.toNat ≤ p.ctail + 1 then 0 else p.ctail + 1,
           ph := if p.qsize.toNat ≤ p.ctail + 1 then !p.ph else p.ph }
theorem State.complete_queues (s : State) (c : Command) (st res : Nat) : (s.complete c st res).queues =
    ((s.freeQueue c.q).modQueue c.q fun p =>
      { p with ctail := if decide ((s.freeQueue c.q).queues[qIx c.q].ctail + 1 ≥ (s.freeQueue c.q).queues[qIx c.q].qsize.toNat) then 0 else p.ctail + 1,
               ph := if decide ((s.freeQueue c.q).queues[qIx c.q].ctail + 1 ≥ (s.freeQueue c.q).queues[qIx c.q].qsize.toNat) then !p.ph else p.ph,
               reserved := p.reserved - 1 }).queues := rfl
theorem State.complete_pair (s : State) (c : Command) (st res : Nat) : (s.complete c st res).queues[qIx c.q] = s.queues[qIx c.q].completed := by
  rw [State.complete_queues, State.queues_modQueue_same, State.freeQueue, State.queues_modQueue_same]
  simp only [decide_eq_true_eq, ge_iff_le]; rfl
theorem State.complete_other (s : State) (c : Command) (st res : Nat) {q : Fin 16} (h : q ≠ qIx c.q) :
    (s.complete c st res).queues[q] = s.queues[q] := by
  rw [State.complete_queues, State.queues_modQueue_other _ _ _ h, State.freeQueue, State.queues_modQueue_other _ _ _ h]
theorem State.mem_postDone (z : State) (q : Nat) (tag : BitVec 32) (st : Nat) (res : Word64) : (z.postDone q tag st res).mem =
    (z.hostWrite (z.queues[qIx q].qcbase.toNat + 16 * z.queues[qIx q].ctail)
      (bytesOfNat 8 (tag.toNat * 2 ^ 32 + st % 256 * 2 ^ 8 + if z.queues[qIx q].ph then 1 else 0) ++ bytesOfNat 8 res.toNat)).mem := by
  unfold State.postDone State.postEntry
  rfl
theorem State.msix_postDone (z : State) (q : Nat) (tag : BitVec 32) (st : Nat) (res : Word64) :
    (z.postDone q tag st res).msix = z.msix ++ [z.queues[qIx q].qvec.toNat] := by
  unfold State.postDone State.postEntry
  rfl
theorem State.queues_freeQueue (s : State) (q : Nat) : (s.freeQueue q).queues[qIx q] = { s.queues[qIx q] with busy := false } :=
  State.queues_modQueue_same ..
theorem State.complete_mem (s : State) (c : Command) (st res : Nat) : (s.complete c st res).mem =
    (s.hostWrite ((s.queues[qIx c.q]).qcbase.toNat + 16 * (s.queues[qIx c.q]).ctail)
      (bytesOfNat 8 ((hostTag c).toNat * 2 ^ 32 + st % 256 * 2 ^ 8 + if (s.queues[qIx c.q]).ph then 1 else 0) ++ bytesOfNat 8 (res % 2 ^ 64))).mem := by
  rw [State.complete, State.mem_postDone, State.queues_freeQueue, n64, BitVec.toNat_ofNat]; rfl
theorem State.complete_msix (s : State) (c : Command) (st res : Nat) :
    (s.complete c st res).msix = s.msix ++ [(s.queues[qIx c.q]).qvec.toNat] := by
  rw [State.complete, State.msix_postDone, State.queues_freeQueue]; rfl

theorem State.tiles_postDone (z : State) (q : Nat) (tag : BitVec 32) (st : Nat) (res : Word64) : (z.postDone q tag st res).tiles = z.tiles := by
  unfold State.postDone State.postEntry
  rfl
theorem State.complete_tiles (s : State) (c : Command) (st res : Nat) : (s.complete c st res).tiles = s.tiles := by
  rw [State.complete, State.tiles_postDone]; rfl

/-! ### Commands whose zero fields are not zero (R380) -/

section
variable {s : State} {c : Command}

theorem contextOf_of_bad (h : badWord0 c = true) : s.contextOf c = .error stBADCMD := by
  have hbad : ctxBad c = true := by simp [ctxBad, h]
  rw [State.contextOf, if_pos (.inl hbad)]
theorem exec_hostCmd_of_bad {i : Instr} (hi : hostCmd i = some c) (h : badWord0 c = true) : exec i s = .next (s.complete c stBADCMD 0) := by
  unfold hostCmd at hi
  split at hi <;> cases hi
  case h_1 => exact if_pos (.inl h)
  case h_2 => exact if_pos (.inl h)
  case h_3 => exact if_pos h
  case h_4 =>
    change execPreempt c s = _
    rw [execPreempt]
    split
    · rw [if_pos h]
    · rw [if_pos h]
  case h_5 =>
    change execResume c s = _
    rw [execResume]
    split
    · rw [if_pos h]
    · rw [if_pos h]
  case h_6 => exact dif_neg fun hk => absurd (hk.1.symm.trans h) Bool.false_ne_true
  case h_7 => exact if_pos h
  case h_8 => exact if_pos (.inl h)
  case h_9 => exact if_pos h
  case h_10 => exact if_pos h
  case h_11 => exact if_pos h
  case h_12 => exact if_pos h
  case h_13 => exact if_pos (.inl h)
  case h_14 => exact if_pos (.inl h)
  case h_15 => exact if_pos (.inl h)
  case h_16 =>
    change execCtxnew c s = _
    rw [execCtxnew, contextOf_of_bad h]
  case h_17 => exact if_pos h
  case h_18 => exact if_pos h
  case h_19 => exact if_pos (.inl h)
end

/-! ### Commands that complete as they are taken (R380) -/

theorem fieldOf_zero (x n : Nat) : fieldOf x 0 n = x % 2 ^ n := by rw [fieldOf, Nat.pow_zero, Nat.div_one]
theorem hostOk_of_le {a n : Nat} (h : a + n ≤ 2 ^ 49) : hostOk a n = true := decide_eq_true h

section
variable {s : State} {c : Command}

theorem execIdent_of_buffer (hb : badWord0 c = false) (ha : hostArg c 1 + 4096 ≤ 2 ^ 49) : execIdent c s =
    .next ((s.hostWrite (hostArg c 1) s.identBuffer).complete c (if s.cfg.valid then 0 else stSIGFAIL) 0) :=
  if_neg (by rw [hb, hostOk_of_le ha]; decide)
theorem execAttest_of_buffers (hb : badWord0 c = false) (ha : hostArg c 1 + 48 ≤ 2 ^ 49) (h2 : hostArg c 2 + 296 ≤ 2 ^ 49) : execAttest c s =
    .next (State.complete { s.hostWrite (hostArg c 2) (s.quote (s.hostRead (hostArg c 1) 48)) with quotes := s.quotes + 1 } c 0 0) :=
  if_neg (by rw [hb, hostOk_of_le ha, hostOk_of_le h2]; decide)

/-- The state with an image loaded (R60, R386). -/
def State.loaded (s t : State) (im : Image) (b : List Byte) : State :=
  { t with images := s.images ++ [{ im with handle := s.newHandle }], handles := s.handles + 1,
           measure := s.measure.set 3 (sha384 (bytesOfNat 48 s.measure[3].toNat ++ bytesOfNat 48 (sha384 b).toNat)),
           contexts := s.contexts.map fun (c : Context) => c.mapPages im.pages }
theorem execLoad_of_image {im : Image} {t : State} (hb : badWord0 c = false) (ha : hostArg c 1 + hostArg c 2 ≤ 2 ^ 49)
    (hl : s.loadOf (s.hostRead (hostArg c 1) (hostArg c 2)) = .ok (im, t)) : execLoad c s =
      .next ((s.loaded t im (s.hostRead (hostArg c 1) (hostArg c 2))).complete c 0 s.newHandle.toNat) := by
  rw [execLoad, if_neg (by rw [hb, hostOk_of_le ha]; decide)]
  simp only [hl]; rfl
theorem execLoad_of_failure {st : Nat} (hb : badWord0 c = false) (ha : hostArg c 1 + hostArg c 2 ≤ 2 ^ 49)
    (hl : s.loadOf (s.hostRead (hostArg c 1) (hostArg c 2)) = .error st) : execLoad c s = .next (s.complete c st 0) := by
  rw [execLoad, if_neg (by rw [hb, hostOk_of_le ha]; decide)]
  simp only [hl]
theorem execUnload_of_image {im : Image} (hb : badWord0 c = false) (hi : s.image? (BitVec.ofNat 32 (hostArg c 1 / 2 ^ 32)) = some im)
    (hl : ∀ l ∈ s.launches, l.img = BitVec.ofNat 32 (hostArg c 1 / 2 ^ 32) → l.done.isSome = true) : execUnload c s =
      .next (State.complete { s with images := s.images.filter fun i => i.handle != BitVec.ofNat 32 (hostArg c 1 / 2 ^ 32) } c 0 0) := by
  have hfree : (s.launches.any fun l => l.img == BitVec.ofNat 32 (hostArg c 1 / 2 ^ 32) && l.done.isNone) = false := by
    refine List.any_eq_false.2 fun l hm h => ?_
    obtain ⟨himg, hnone⟩ := Bool.and_eq_true_iff.1 h
    have := hl l hm (beq_iff_eq.1 himg)
    rw [← Option.not_isSome, this] at hnone
    exact Bool.false_ne_true hnone
  simp only [execUnload, hb, if_neg Bool.false_ne_true, hi, Option.isNone_some, hfree]
theorem execUnload_of_none (hb : badWord0 c = false) (hi : s.image? (BitVec.ofNat 32 (hostArg c 1 / 2 ^ 32)) = none) :
    execUnload c s = .next (s.complete c stNOHANDLE 0) := by
  simp only [execUnload, hb, if_neg Bool.false_ne_true, hi, Option.isNone_none, if_true]

/-! FRSET (R151, R152) -/

/-- The state with a format range written on both dies. -/
def State.frset (s : State) (k : Fin 32) (w : FmtRange) : State :=
  let old := s.fr[(0 : Fin 2)][k]
  { s.dropSpans [old.elemSpan, old.scaleSpan, w.elemSpan, w.scaleSpan] with fr := s.fr.map fun v => v.set k (frWrite v k w) }
theorem execFrset_of_index {k : Fin 32} {w : FmtRange} (hb : badWord0 c = false) (hk : hostArg c 1 = k.val)
    (hw : w = ⟨hostArg c 2 / 2 ^ 12 % 2 ^ 40, hostArg c 3 / 2 ^ 12 % 2 ^ 40, hostArg c 4 / 2 ^ 3 % 2 ^ 49, hostArg c 5 / 2 ^ 4 % 2 ^ 4, false,
      (hostArg c 5).testBit 0⟩) : execFrset c s = .next ((s.frset k w).complete c 0 ((s.frset k w).fr[(0 : Fin 2)][k]).ctl) := by
  subst hw
  have hlt : hostArg c 1 < 32 := hk ▸ k.isLt
  obtain rfl : k = ⟨hostArg c 1, hlt⟩ := Fin.ext hk.symm
  exact dif_pos ⟨hb, hlt⟩
theorem State.fr_frset_other (s : State) {k j : Fin 32} (w : FmtRange) (d : Fin 2) (h : j ≠ k) : (s.frset k w).fr[d][j] = s.fr[d][j] := by
  change (s.fr.map fun v => v.set k (frWrite v k w))[d.val][j.val] = _
  rw [Vector.getElem_map, Vector.getElem_set_ne k.isLt j.isLt fun e => h (Fin.ext e.symm)]; rfl
theorem State.fr_frset_same (s : State) (k : Fin 32) (w : FmtRange) (d : Fin 2) : (s.frset k w).fr[d][k] = frWrite s.fr[d] k w := by
  change (s.fr.map fun v => v.set k (frWrite v k w))[d.val][k.val] = _
  rw [Vector.getElem_map, Vector.getElem_set_self]; rfl
/-- An entry as it is written: in force only where it may be beside the others (R152). -/
theorem frWrite_eq {v : Vector FmtRange 32} {k : Fin 32} {w : FmtRange} (hw : w.ovl = false) : frWrite v k w =
    if w.en = false then { w with ovl := v[k].ovl }
    else if frMay w (((List.finRange 32).filter (· != k)).map fun j => v[j]) = true then w else { w with en := false, ovl := true } := by
  have hsame : { w with ovl := false } = w := by rw [← hw]
  rw [frWrite, hsame]
  cases w.en <;> rfl
theorem State.reflections_frset {s : State} {k : Fin 32} {w : FmtRange} {x : Reflection} (h : x ∈ (s.frset k w).reflections) :
    ∀ p ∈ [(s.fr[(0 : Fin 2)][k]).elemSpan, (s.fr[(0 : Fin 2)][k]).scaleSpan, w.elemSpan, w.scaleSpan],
      meets p.1 p.2 (64 * (x.pa / 64)) 64 = false := by
  intro p hp
  obtain ⟨-, hx⟩ := List.mem_filter.1 (show x ∈ s.reflections.filter _ from h)
  rw [Bool.not_eq_true'] at hx
  exact Bool.eq_false_iff.2 (List.any_eq_false.1 hx p hp)

theorem execKeyload_of_key (hb : badWord0 c = false) (hk : hostArg c 1 % 2 ^ 11 ≠ 0) (ha : hostArg c 2 + 64 ≤ 2 ^ 49) : execKeyload c s =
    .next (State.complete { s with keys := putA s.keys (hostArg c 1 % 2 ^ 11) (BitVec.ofNat 512 (natOfBytes (s.hostRead (hostArg c 2) 64))) } c 0 0) := by
  rw [execKeyload, fieldOf_zero, if_neg]
  rw [hb, hostOk_of_le ha]
  rintro (h | h | h)
  · exact Bool.false_ne_true h
  · exact hk h
  · exact Bool.false_ne_true h.symm

/-! VAULTSET, REPLAY (R350, R358) -/

/-- The state with the vault's registers written (R350). -/
def State.vaulted (s : State) (b n : Nat) : State :=
  { s with vltbase := BitVec.ofNat 21 b, vltsize := BitVec.ofNat 20 n, buffers := s.buffers.map fun (x : Buffer) => { x with point := 0 } }
theorem execVaultset_of_range (hb : badWord0 c = false) (hr : s.red = false) (h1 : hostArg c 1 < 2 ^ 21) (h2 : hostArg c 2 ≤ 524288)
    (h3 : hostArg c 1 + hostArg c 2 ≤ 2 ^ 21) (h4 : hostArg c 2 ≤ 1024 * s.cfg.vmax) (h5 : s.mapsVault (hostArg c 1) (hostArg c 2) = false)
    (h6 : s.mapsVault s.vltbase.toNat s.vltsize.toNat = false) :
    execVaultset c s = .next ((s.vaulted (hostArg c 1) (hostArg c 2)).complete c 0 0) := by
  have hin : ¬ (2 ^ 21 ≤ hostArg c 1 ∨ 2 ^ 20 ≤ hostArg c 2 ∨ hostArg c 1 + hostArg c 2 > 2 ^ 21 ∨ hostArg c 2 > 524288 ∨
      hostArg c 2 > 1024 * s.cfg.vmax ∨ s.mapsVault (hostArg c 1) (hostArg c 2) = true ∨ s.mapsVault s.vltbase.toNat s.vltsize.toNat = true) := by
    rw [h5, h6]
    simp only [Bool.false_eq_true, or_false]
    omega
  exact (if_neg (by rw [hb]; decide)).trans ((if_neg (by rw [hr]; decide)).trans (if_neg hin))
theorem State.mem_movePoint {s s1 : State} {k : Fin 16} {off : Nat} (h : s.movePoint k off = some s1) : s1.mem = s.mem := by
  obtain ⟨p, -, rfl⟩ := Option.map_eq_some_iff.1 h
  rfl
/-- The state with the recovery points as a replay leaves them, its report written (R358). -/
def State.replay (s : State) (a : Nat) : State :=
  State.hostWrite { s with buffers := Vector.ofFn fun k : Fin 16 => s.replayed k } a (replayReport ((List.finRange 16).map s.replayBuffer))
theorem State.mem_hostWrite (s : State) (a : Nat) (bs : List Byte) : (s.hostWrite a bs).mem = memPutList s.mem (hostBase + a) bs := rfl
theorem State.mem_replay (s : State) (a : Nat) :
    (s.replay a).mem = memPutList s.mem (hostBase + a) (replayReport ((List.finRange 16).map s.replayBuffer)) := by
  rw [State.replay, State.mem_hostWrite]
theorem execReplay_of_checks (hb : badWord0 c = false) (hr : s.red = false) (hm : s.mapsVault s.vltbase.toNat s.vltsize.toNat = false)
    (ha : hostArg c 1 + 384 ≤ 2 ^ 49) : execReplay c s =
      match (if (hostArg c 2).testBit 63 then s.movePoint ⟨hostArg c 2 % 16, Nat.mod_lt _ (by decide)⟩ (hostArg c 3) else some s) with
      | none => .next (s.complete c stBADCMD 0)
      | some s1 => .next ((s1.replay (hostArg c 1)).complete c 0 0) := by
  have hin : ¬ (s.mapsVault s.vltbase.toNat s.vltsize.toNat = true ∨ hostOk (hostArg c 1) 384 = false) := by rw [hm, hostOk_of_le ha]; decide
  simp only [execReplay, hb, hr, if_neg Bool.false_ne_true, if_neg hin] <;> rfl
theorem exec_of_reduced (hb : badWord0 c = false) (hr : s.red = true) :
    execVaultset c s = .next (s.complete c stREDUCED 0) ∧ execReplay c s = .next (s.complete c stREDUCED 0) ∧
      execRoute c s = .next (s.complete c stREDUCED 0) ∧ execExportCmd c s = .next (s.complete c stREDUCED 0) := by
  refine ⟨?_, ?_, ?_, ?_⟩
  · simp only [execVaultset, hb, hr, if_neg Bool.false_ne_true, if_true]
  · simp only [execReplay, hb, hr, if_neg Bool.false_ne_true, if_true]
  · simp only [execRoute, hb, hr, if_neg Bool.false_ne_true, if_true]
  · simp only [execExportCmd, hb, hr, if_neg Bool.false_ne_true, if_true]

/-! ROUTE, EXPORT, FWLOAD, FWACT (R384, R385) -/

/-- The state with the module's identifier and routes written (R384). -/
def State.routed (s : State) (m a : Nat) : State :=
  { s with modId := BitVec.ofNat 9 m, routes := Vector.ofFn fun k : Fin 128 => BitVec.ofNat 18 (s.hostWord (a + 8 * k.val)) }
theorem execRoute_of_buffer (hb : badWord0 c = false) (hr : s.red = false) (ha : hostArg c 2 + 1024 ≤ 2 ^ 49) :
    execRoute c s = .next ((s.routed (hostArg c 1 % 2 ^ 7) (hostArg c 2)).complete c 0 0) := by
  rw [← fieldOf_zero]
  exact (if_neg (by rw [hb]; decide)).trans ((if_neg (by rw [hr]; decide)).trans (if_neg (by rw [hostOk_of_le ha]; decide)))
/-- The entry that EXPORT makes of its words. -/
def exportOf (c : Command) : Export :=
  ⟨(hostArg c 2).testBit 63, fieldOf (hostArg c 2) 0 14, fieldOf (hostArg c 3) 0 14, fieldOf (hostArg c 4) 53 11, (hostArg c 4).testBit 52,
    fieldOf (hostArg c 4) 30 22⟩
theorem execExportCmd_of_index {k : Fin 64} (hb : badWord0 c = false) (hr : s.red = false) (hk : hostArg c 1 = k.val)
    (hz : ¬ ((exportOf c).size = 0 ∧ (exportOf c).v = true)) :
    execExportCmd c s = .next (State.complete { s with expt := s.expt.set k (exportOf c) } c 0 0) := by
  have hlt : hostArg c 1 < 64 := hk ▸ k.isLt
  obtain rfl : k = ⟨hostArg c 1, hlt⟩ := Fin.ext hk.symm
  exact (if_neg (by rw [hb]; decide)).trans ((if_neg (by rw [hr]; decide)).trans ((dif_pos hlt).trans (if_neg hz)))
theorem execFwload_of_image (hb : badWord0 c = false) (ha : hostArg c 1 + hostArg c 2 ≤ 2 ^ 49) : execFwload c s =
    if Config.signatureValid (s.hostRead (hostArg c 1) (hostArg c 2)) = true ∧
        s.fwArb.toNat ≤ (Config.firmwareVersion (s.hostRead (hostArg c 1) (hostArg c 2))).toNat then
      .next (State.complete { s with fwSlots := (s.setSlot (!s.fwAct)
        ⟨Config.firmwareVersion (s.hostRead (hostArg c 1) (hostArg c 2)), s.hostRead (hostArg c 1) (hostArg c 2)⟩) } c 0 0)
    else .next (s.complete c stSIGFAIL 0) := if_neg (by rw [hb, hostOk_of_le ha]; decide)
theorem State.fwTrial_undoVault (s : State) : s.undoVault.fwTrial = s.fwTrial := by
  unfold State.undoVault
  induction s.vwrites with
  | nil => rfl
  | cons v l ih => exact ih
theorem State.fwTrial_resetInto (s : State) (b : Bool) : (s.resetInto b).fwTrial = s.fwTrial :=
  State.fwTrial_undoVault { s with cfg := s.tableOf (s.slotOf b).image }
theorem execFwact_of_image (hb : badWord0 c = false) (hi : (s.slotOf (!s.fwAct)).image ≠ []) :
    execFwact c s = .next (State.resetInto { s with fwTrial := 1 } (!s.fwAct)) := by
  have hne : ¬ (s.slotOf (!s.fwAct)).image.isEmpty = true := fun h => hi (List.isEmpty_iff.1 h)
  exact if_neg (by rw [hb]; simp [hne])

/-! PWRSET (R388, R376) -/

theorem execPwrset_of_bounds (hb : badWord0 c = false) (hlo : 1000 ≤ hostArg c 1 % 2 ^ 16) (hhi : hostArg c 1 % 2 ^ 16 ≤ s.cfg.pmax) :
    execPwrset c s = .next ((State.putAth { s with pwrlim := BitVec.ofNat 16 (hostArg c 1 % 2 ^ 16) } (hostArg c 2)).complete c 0
      (hostArg c 1 % 2 ^ 16)) := by
  simp only [execPwrset, hb, if_neg Bool.false_ne_true, fieldOf_zero, if_pos (And.intro hlo hhi), BitVec.toNat_ofNat, Nat.mod_mod]
theorem execPwrset_of_beyond (hb : badWord0 c = false) (h : hostArg c 1 % 2 ^ 16 < 1000 ∨ s.cfg.pmax < hostArg c 1 % 2 ^ 16) :
    execPwrset c s = .next ((s.putAth (hostArg c 2)).complete c 0 s.pwrlim.toNat) := by
  have hout : ¬ (1000 ≤ hostArg c 1 % 2 ^ 16 ∧ hostArg c 1 % 2 ^ 16 ≤ s.cfg.pmax) := by omega
  simp only [execPwrset, hb, if_neg Bool.false_ne_true, fieldOf_zero, if_neg hout]
theorem testBit_63 (w : Nat) : w.testBit 63 = true ↔ w / 2 ^ 63 % 2 = 1 := by rw [Nat.testBit_eq_decide_div_mod_eq, decide_eq_true_eq]
theorem State.putAth_of_value {w a : Nat} (hw : w = 2 ^ 63 + a) (hlo : 256 ≤ a) (hhi : a ≤ 8192) (s : State) :
    s.putAth w = { s with ath := BitVec.ofNat 14 a } := by
  have hc : w.testBit 63 = true ∧ 256 ≤ w % 2 ^ 14 ∧ w % 2 ^ 14 ≤ 8192 := by rw [testBit_63]; omega
  have hv : BitVec.ofNat 14 w = BitVec.ofNat 14 a := BitVec.eq_of_toNat_eq (by rw [BitVec.toNat_ofNat, BitVec.toNat_ofNat]; omega)
  rw [State.putAth, if_pos hc, hv]
theorem State.putAth_of_refused {w : Nat} (h : w < 2 ^ 63 ∨ w % 2 ^ 14 < 256 ∨ 8192 < w % 2 ^ 14) (s : State) : s.putAth w = s := by
  refine if_neg ?_
  rw [testBit_63]
  omega

/-! FAULTS (R368) -/

/-- Taking fault records leaves the alerts of the stacks. -/
theorem State.alerts_takeFaults (s : State) (l : List Nat) (n : Nat) :
    (s.takeFaults l n).2.alerts = s.alerts ∧ (s.takeFaults l n).2.boff = s.boff := by
  have hclear (z : State) (js : List Nat) (a b : Nat → Nat) :
      (js.foldl (fun (z : State) j => (z.setFull (a j) false).setFull (b j) false) z).alerts = z.alerts ∧
      (js.foldl (fun (z : State) j => (z.setFull (a j) false).setFull (b j) false) z).boff = z.boff := by
    induction js generalizing z with
    | nil => exact ⟨rfl, rfl⟩
    | cons j js ih => exact ih _
  induction l generalizing s n with
  | nil => exact ⟨rfl, rfl⟩
  | cons id l ih =>
    rw [State.takeFaults]
    obtain ⟨h1, h2⟩ := ih _ _
    exact ⟨h1.trans (hclear ..).1, h2.trans (hclear ..).2⟩
theorem toNat_append_32 (x y : BitVec 32) : (x ++ y).toNat = x.toNat * 2 ^ 32 + y.toNat := by
  rw [BitVec.toNat_append, ← Nat.shiftLeft_add_eq_or_of_lt y.isLt, Nat.shiftLeft_eq]
theorem execFaults_of_records {bs : List Byte} {z z1 z2 : State} (hb : badWord0 c = false)
    (ht : s.takeFaults ((List.range 20).map (fun k => k) ++ (List.range 20).map fun k => 32 + k) (hostArg c 2) = (bs, z))
    (ha : hostArg c 1 + bs.length ≤ 2 ^ 49) (hs : (z.hostWrite (hostArg c 1) bs).sealReport c = .ok z1) (hr : z1.alertReport c = .ok z2) :
    execFaults c s = .next (z2.complete c 0 (bs.length / 16)) := by
  have hin : ¬ (badWord0 c = true ∨ hostOk (hostArg c 1) bs.length = false) := by rw [hb, hostOk_of_le ha]; decide
  simp only [execFaults, ht, if_neg hin, hs, Except.bind, hr]
theorem State.sealReport_of_none (h : (hostArg c 3).testBit 63 = false) (s : State) : s.sealReport c = .ok s := by
  simp only [State.sealReport, h, Bool.not_false, if_true]
theorem State.sealReport_of_context {x : Context} (h : (hostArg c 3).testBit 63 = true) (hx : s.context? (fieldOf (hostArg c 3) 0 16) = some x)
    (ha : hostArg c 4 + 24576 ≤ 2 ^ 49) : s.sealReport c = .ok (s.hostWrite (hostArg c 4) x.sealTable) := by
  simp only [State.sealReport, h, Bool.not_true, if_neg Bool.false_ne_true, hx, hostOk_of_le ha, if_true]
theorem State.alertReport_of_none (h : (hostArg c 3).testBit 62 = false) (s : State) : s.alertReport c = .ok s := by
  simp only [State.alertReport, h, Bool.not_false, if_true]
theorem State.alertReport_of_buffer {al bo : Vector (BitVec 32) 8} (h : (hostArg c 3).testBit 62 = true) (ha : hostArg c 5 + 64 ≤ 2 ^ 49)
    (hal : s.alerts = al) (hbo : s.boff = bo) : s.alertReport c =
      .ok (s.hostWrite (hostArg c 5) ((List.finRange 8).flatMap fun k => bytesOfNat 8 ((al[k]).toNat * 2 ^ 32 + (bo[k]).toNat))) := by
  subst hal hbo
  simp only [State.alertReport, h, Bool.not_true, if_neg Bool.false_ne_true, hostOk_of_le ha, if_true, State.hbmalt, toNat_append_32]
end

end Sys2Proof.Machine

namespace Sys2Proof.Proofs
open Sys2Proof.Machine Sys2Proof.Claims

/-- Settles O43: the pair, memory and vectors as a completion leaves them, and the first test of every command. -/
theorem commandCompletion : Obligations.CommandCompletion :=
  ⟨fun s c st res _ => ⟨s.complete_mem c st res, s.complete_pair c st res, fun _ hq => s.complete_other c st res hq, s.complete_msix c st res, s.complete_tiles c st res⟩,
    fun _ _ _ hi h => exec_hostCmd_of_bad hi h⟩

/-- Settles O44: the course of each command past its first test. -/
theorem hostCommands : Obligations.HostCommands := by
  refine fun s c hb => ⟨fun ha => execIdent_of_buffer hb ha, fun ha h2 => execAttest_of_buffers hb ha h2, fun im t ha hl => ?load,
    fun st ha hl => execLoad_of_failure hb ha hl, fun im hi hl => execUnload_of_image hb hi hl, fun hi => execUnload_of_none hb hi,
    fun k w hk hw => ?frset, fun hk ha => execKeyload_of_key hb hk ha, fun hr => exec_of_reduced hb hr, fun hr h1 h2 h3 h4 h5 h6 => ?vaultset,
    fun hr hm ha => ?replay, fun hr ha => ?route, fun k hr hk hv => ?unexport, fun k e hr hk hv hz he => ?export_, fun ha => ?fwload, fun hi => ?fwact,
    fun hlo hhi => execPwrset_of_bounds hb hlo hhi, fun h => execPwrset_of_beyond hb h, fun a => ?ath, fun bs z ht ha => ?faults⟩
  case load =>
    refine ⟨s.loaded t im (s.hostRead (hostArg c 1) (hostArg c 2)), execLoad_of_image hb ha hl, rfl, rfl, rfl, rfl, rfl, ?_⟩
    exact Vector.getElem_set_self ..
  case frset =>
    refine ⟨s.frset k w, _, execFrset_of_index hb hk hw, rfl, rfl, fun d j hj => s.fr_frset_other w d hj, fun d => ?_, fun x hx => State.reflections_frset hx⟩
    rw [State.fr_frset_same, frWrite_eq (by rw [hw])]
  case vaultset =>
    refine ⟨s.vaulted (hostArg c 1) (hostArg c 2), execVaultset_of_range hb hr h1 h2 h3 h4 h5 h6, ?_, ?_, fun k => ?_, rfl⟩
    · exact (BitVec.toNat_ofNat ..).trans (Nat.mod_eq_of_lt h1)
    · exact (BitVec.toNat_ofNat ..).trans (Nat.mod_eq_of_lt (by omega))
    · change ((s.buffers.map fun (x : Buffer) => { x with point := 0 })[k.val]).point = 0
      rw [Vector.getElem_map]
  case replay =>
    refine ⟨fun s1 h1 => ?taken, fun hbit hnone => ?refused⟩
    case taken =>
      have hmove : (if (hostArg c 2).testBit 63 then s.movePoint ⟨hostArg c 2 % 16, Nat.mod_lt _ (by decide)⟩ (hostArg c 3) else some s) = some s1 := by
        obtain ⟨hbit, rfl⟩ | ⟨hbit, hs⟩ := h1
        · rw [hbit]; rfl
        · rw [hbit]; exact hs
      have hmem : s1.mem = s.mem := by
        obtain ⟨-, rfl⟩ | ⟨-, hs⟩ := h1
        · rfl
        · exact State.mem_movePoint hs
      refine ⟨s1.replay (hostArg c 1), (execReplay_of_checks hb hr hm ha).trans (by rw [hmove]), fun k => ?_, ?_⟩
      · exact Vector.getElem_ofFn ..
      · rw [State.mem_replay, State.mem_hostWrite, hmem]
    case refused =>
      refine (execReplay_of_checks hb hr hm ha).trans ?_
      rw [hbit, if_pos rfl, hnone]
  case route =>
    refine ⟨s.routed (hostArg c 1 % 2 ^ 7) (hostArg c 2), execRoute_of_buffer hb hr ha, rfl, fun m => ?_, rfl⟩
    exact Vector.getElem_ofFn ..
  case unexport =>
    refine ⟨_, execExportCmd_of_index hb hr hk (fun h => absurd (hv.symm.trans h.2) Bool.false_ne_true), ?_, rfl, fun j hj => ?_⟩
    · exact (congrArg Export.v (Vector.getElem_set_self ..)).trans hv
    · exact Vector.getElem_set_ne k.isLt j.isLt fun h => hj (Fin.ext h.symm)
  case export_ =>
    have he : exportOf c = e := by
      rw [he, exportOf, hv, fieldOf_zero, fieldOf_zero]; rfl
    refine ⟨_, execExportCmd_of_index hb hr hk (fun h => hz ?_), ?_, rfl, fun j hj => ?_⟩
    · rw [← fieldOf_zero]
      exact h.1
    · exact (Vector.getElem_set_self ..).trans he
    · exact Vector.getElem_set_ne k.isLt j.isLt fun h => hj (Fin.ext h.symm)
  case fwload =>
    refine ⟨fun hs hv => (execFwload_of_image hb ha).trans (if_pos ⟨hs, hv⟩), fun hs => (execFwload_of_image hb ha).trans (if_neg fun h => ?_)⟩
    exact absurd (hs.symm.trans h.1) Bool.false_ne_true
  case fwact => exact ⟨_, execFwact_of_image hb hi, State.fwTrial_resetInto .., rfl, rfl⟩
  case ath =>
    exact ⟨fun hw hlo hhi => s.putAth_of_value hw hlo hhi, fun hw h => s.putAth_of_refused (by omega), fun hw => s.putAth_of_refused (.inl hw)⟩
  case faults =>
    obtain ⟨halerts, hboff⟩ := s.alerts_takeFaults ((List.range 20).map (fun k => k) ++ (List.range 20).map fun k => 32 + k) (hostArg c 2)
    rw [ht] at halerts hboff
    refine ⟨fun h63 h62 => execFaults_of_records hb ht ha (State.sealReport_of_none h63 _) (State.alertReport_of_none h62 _),
      fun h63 h62 h4 x hx => execFaults_of_records hb ht ha (State.sealReport_of_context h63 hx h4) (State.alertReport_of_none h62 _),
      fun h63 h62 h5 => ?_⟩
    exact execFaults_of_records hb ht ha (State.sealReport_of_none h63 _) (State.alertReport_of_buffer h62 h5 halerts hboff)

end Sys2Proof.Proofs
end

section
/-! Commands over contexts and launches, rings and registers (12 R223, R236, R240, 21 R370, 22 R377 to R385): the statements ContextCommands
and RingSteps. -/
namespace Sys2Proof.Machine
open Sys2Proof.Claims

/-! ### Contexts (R381) -/

theorem State.contexts_homePut (s : State) (key pa : Nat) (bs : List Byte) : (s.homePut key pa bs).contexts = s.contexts := by
  unfold State.homePut
  split <;> rfl
theorem State.tiles_homePut (s : State) (key pa : Nat) (bs : List Byte) : (s.homePut key pa bs).tiles = s.tiles := by
  unfold State.homePut
  split <;> rfl
theorem State.contexts_activate (s : State) (k : Nat) : (s.activate k).contexts = s.contexts := rfl
theorem State.contexts_reflect (s : State) (die pa n : Nat) : (s.reflect die pa n).contexts = s.contexts := rfl
theorem State.tiles_reflect (s : State) (die pa n : Nat) : (s.reflect die pa n).tiles = s.tiles := rfl
theorem State.contexts_durableWrite (s : State) (die key pa : Nat) (bs : List Byte) : (s.durableWrite die key pa bs).contexts = s.contexts := by
  rw [State.durableWrite, State.contexts_activate, State.contexts_reflect, State.contexts_homePut]
theorem State.tiles_durableWrite (s : State) (die key pa : Nat) (bs : List Byte) : (s.durableWrite die key pa bs).tiles = s.tiles := by
  rw [State.durableWrite, State.activate_tiles, State.tiles_reflect, State.tiles_homePut]

section
variable {s : State} {c : Command}

/-- The frames of a new context's pools set to zero. -/
def State.zeroFrames (s : State) (fs : List Nat) : State :=
  fs.foldl (fun (z : State) f => z.zeroRange (f * 2 ^ 16) ((f + 1) * 2 ^ 16)) s
/-- The seal words of a new context, at `pa` under a key, set to zero. -/
def State.zeroSeals (s : State) (key pa : Nat) : State :=
  (List.range 128).foldl (fun (z : State) j => z.durableWrite 2 key (pa + 64 * j) (List.replicate 64 0)) s
/-- The state with a context added, its shadow frames and seal words zero (R381). -/
def State.withContext (s : State) (x : Context) (e : TEntry) : State :=
  let s2 := (s.zeroFrames (x.pool0 ++ x.pool1 ++ x.poolc)).zeroSeals e.key (e.pa (x.sealb.toNat * 2 ^ 13))
  { s2 with contexts := s2.contexts ++ [x] }
theorem State.contexts_zeroFrames (s : State) (fs : List Nat) : (s.zeroFrames fs).contexts = s.contexts := foldl_keeps State.contexts (f := fun (z : State) f => z.zeroRange (f * 2 ^ 16) ((f + 1) * 2 ^ 16)) (fun _ _ => rfl) fs s
theorem State.tiles_zeroFrames (s : State) (fs : List Nat) : (s.zeroFrames fs).tiles = s.tiles := foldl_keeps State.tiles (f := fun (z : State) f => z.zeroRange (f * 2 ^ 16) ((f + 1) * 2 ^ 16)) (fun _ _ => rfl) fs s
theorem State.contexts_zeroSeals (s : State) (key pa : Nat) : (s.zeroSeals key pa).contexts = s.contexts :=
  foldl_keeps State.contexts (fun z _ => z.contexts_durableWrite ..) _ s
theorem State.tiles_zeroSeals (s : State) (key pa : Nat) : (s.zeroSeals key pa).tiles = s.tiles :=
  foldl_keeps State.tiles (fun z _ => z.tiles_durableWrite ..) _ s
theorem State.contexts_withContext (s : State) (x : Context) (e : TEntry) : (s.withContext x e).contexts = s.contexts ++ [x] := by
  unfold State.withContext
  dsimp only
  rw [State.contexts_zeroSeals, State.contexts_zeroFrames]
theorem State.tiles_withContext (s : State) (x : Context) (e : TEntry) : (s.withContext x e).tiles = s.tiles := by
  unfold State.withContext
  dsimp only
  rw [State.tiles_zeroSeals, State.tiles_zeroFrames]
theorem execCtxnew_of_context {x : Context} {e : TEntry} (h : s.contextOf c = .ok (x, e)) :
    execCtxnew c s = .next ((s.withContext x e).complete c 0 0) := by
  simp only [execCtxnew, h]; rfl
theorem execCtxnew_of_failure {st : Nat} (h : s.contextOf c = .error st) : execCtxnew c s = .next (s.complete c st 0) := by
  simp only [execCtxnew, h]

/-- The state without a context (R174, R381). -/
def State.withoutContext (s : State) (id : Nat) : State :=
  { s with contexts := s.contexts.filter fun c => c.id != id, reflections := s.reflections.filter fun r => r.ctx != id,
           saved := (s.saved.filter fun (v : Saved) => v.ctx != id).map fun (v : Saved) => { v with tiles := v.tiles.map fun (t : Tile) => t.withoutCtx id },
           tiles := s.tiles.map fun (p : Nat × Tile) => (p.1, p.2.withoutCtx id) }
theorem State.context?_withoutContext (s : State) (id : Nat) : (s.withoutContext id).context? id = none := by
  refine List.find?_eq_none.2 fun x hx h => ?_
  obtain ⟨-, hne⟩ := List.mem_filter.1 (show x ∈ s.contexts.filter _ from hx)
  rw [bne, h] at hne
  exact Bool.false_ne_true hne
theorem execCtxend_of_context (hb : badWord0 c = false) (hi : (s.context? (hostArg c 1 % 2 ^ 16)).isSome = true)
    (hl : ∀ l ∈ s.launches, l.ctx = hostArg c 1 % 2 ^ 16 → l.done.isSome = true) :
    execCtxend c s = .next ((s.withoutContext (hostArg c 1 % 2 ^ 16)).complete c 0 0) := by
  have hsome : (s.context? (hostArg c 1 % 2 ^ 16)).isNone = false := by rw [← Option.not_isSome, hi]; rfl
  have hfree : (s.launches.any fun l => l.ctx == hostArg c 1 % 2 ^ 16 && l.done.isNone) = false := by
    refine List.any_eq_false.2 fun l hm h => ?_
    obtain ⟨hctx, hnone⟩ := Bool.and_eq_true_iff.1 h
    rw [← Option.not_isSome, hl l hm (beq_iff_eq.1 hctx)] at hnone
    exact Bool.false_ne_true hnone
  simp only [execCtxend, fieldOf_zero, hb, hsome, hfree, if_neg Bool.false_ne_true]; rfl
theorem execCtxend_of_none (hb : badWord0 c = false) (hi : s.context? (hostArg c 1 % 2 ^ 16) = none) :
    execCtxend c s = .next (s.complete c stNOHANDLE 0) := by
  simp only [execCtxend, fieldOf_zero, hb, hi, Option.isNone_none, if_neg Bool.false_ne_true, if_true]

/-! ### INVAL (R370) -/

/-- The invalidation that INVAL begins. -/
def invalOf (s : State) (c : Command) : Inval :=
  ⟨hostArg c 1 % 2 ^ 16, hostArg c 2, hostArg c 3, some ((qIx c.q).val, hostTag c), s.tiles.map (·.1)⟩
theorem execInval_of_context (hb : badWord0 c = false) (hi : (s.context? (hostArg c 1 % 2 ^ 16)).isSome = true) :
    execInval c s = .next (s.beginInval (invalOf s c)) := by
  have hsome : (s.context? (hostArg c 1 % 2 ^ 16)).isNone = false := by rw [← Option.not_isSome, hi]; rfl
  simp only [execInval, fieldOf_zero, hb, hsome, if_neg Bool.false_ne_true]; rfl
theorem execInval_of_none (hb : badWord0 c = false) (hi : s.context? (hostArg c 1 % 2 ^ 16) = none) :
    execInval c s = .next (s.complete c stNOHANDLE 0) := by
  simp only [execInval, fieldOf_zero, hb, hi, Option.isNone_none, if_neg Bool.false_ne_true, if_true]
/-- An invalidation under way: the ranges of the context's tables and the reflections gone, the tiles' acknowledgements owed. -/
def State.invalidating (s : State) (v : Inval) : State :=
  let s1 := (s.modContext v.ctx fun c => { c with maps := c.maps.filter fun e => !v.hits e }).dropReflections (fun _ => true) v.ctx v.base v.len
  { s1 with invals := s1.invals ++ [(s1.nextInval, v)], nextInval := s1.nextInval + 1 }
theorem State.beginInval_of_tiles {v : Inval} (h : v.left ≠ []) (s : State) : s.beginInval v = s.invalidating v :=
  if_neg fun he => h (List.isEmpty_iff.1 he)
theorem State.modQueue_qIx (z : State) (q : Nat) (f : QueuePair → QueuePair) : z.modQueue (qIx q).val f = z.modQueue q f := by
  simp only [State.modQueue, qIx_qIx]
theorem State.postDone_qIx (z : State) (q : Nat) (tag : BitVec 32) (st : Nat) (res : Word64) : z.postDone (qIx q).val tag st res = z.postDone q tag st res := by
  simp only [State.postDone, State.postEntry, State.modQueue_qIx, qIx_qIx]
theorem State.freeQueue_qIx (z : State) (q : Nat) : z.freeQueue (qIx q).val = z.freeQueue q := z.modQueue_qIx ..
/-- With no tile to acknowledge, the command completes. -/
theorem State.beginInval_of_none (h : s.tiles = []) : s.beginInval (invalOf s c) =
    State.complete { s.invalidating (invalOf s c) with invals := delA (s.invalidating (invalOf s c)).invals s.nextInval } c 0 0 := by
  have he : (invalOf s c).left = [] := by rw [invalOf, h]; rfl
  refine (if_pos (by rw [he]; rfl)).trans ?_
  change State.postDone (State.freeQueue _ (qIx c.q).val) (qIx c.q).val (hostTag c) 0 0 = _
  rw [State.freeQueue_qIx, State.postDone_qIx]; rfl

/-! ### Launches (R223, R236, R240) -/

/-- The launch of an identifier, changed. -/
theorem State.launch?_modLaunch {s : State} {lid : Word64} {f : Launch → Launch} (hf : ∀ l, (f l).lid = l.lid) :
    (s.modLaunch lid f).launch? lid = (s.launch? lid).map f := by
  unfold State.launch? State.modLaunch
  dsimp only
  induction s.launches with
  | nil => rfl
  | cons l ls ih =>
    by_cases h : l.lid = lid
    · simp [h, hf]
    · simpa [h] using ih
theorem State.lid_of_launch? {s : State} {lid : Word64} {l : Launch} (h : s.launch? lid = some l) : l.lid = lid := by
  simpa using List.find?_some h

theorem State.setLimits_keeps {τ : Type} (get : State → τ) (hg : ∀ z t x, get (State.setThread z t x) = get z) (s : State) (gs : List Gang) :
    get (s.setLimits gs) = get s := by
  refine foldl_keeps get (fun z g => ?_) gs s
  split
  · exact foldl_keeps get (fun y t => hg y t _) _ z
  · rfl
/-- A launch whose gangs are asked for a save (R236). -/
def State.askedSave (s : State) (lid : Word64) (q : Nat × BitVec 32) (forced : Bool) : State :=
  { s.modLaunch lid fun x => { x with preCmd := x.preCmd ++ [q] } with
    gangs := s.gangs.map fun g => if g.lid = lid then { g with preempt := some (askSave forced s.cycle g.preempt) } else g }
theorem execPreempt_of_gangs {l : Launch} (hb : badWord0 c = false) (hl : s.launch? (BitVec.ofNat 64 (hostArg c 1)) = some l)
    (hg : ∃ g ∈ s.gangs, g.lid = BitVec.ofNat 64 (hostArg c 1)) : ∃ z gs, execPreempt c s = .next z ∧
      (z = s.askedSave (BitVec.ofNat 64 (hostArg c 1)) ((qIx c.q).val, hostTag c) ((hostArg c 2).testBit 0) ∨
        z = (s.askedSave (BitVec.ofNat 64 (hostArg c 1)) ((qIx c.q).val, hostTag c) ((hostArg c 2).testBit 0)).setLimits gs) := by
  have hany : ¬ (s.gangs.any fun g => g.lid == n64 (hostArg c 1)) = false := by
    obtain ⟨g, hm, he⟩ := hg
    rw [Bool.not_eq_false]
    exact List.any_eq_true.2 ⟨g, hm, beq_iff_eq.2 he⟩
  have hl : s.launch? (n64 (hostArg c 1)) = some l := hl
  simp only [execPreempt, hl, hb, if_neg Bool.false_ne_true, if_neg hany]
  split
  · exact ⟨_, _, rfl, .inr rfl⟩
  · exact ⟨_, [], rfl, .inl rfl⟩
theorem execPreempt_of_none (hb : badWord0 c = false) (hl : s.launch? (BitVec.ofNat 64 (hostArg c 1)) = none) :
    execPreempt c s = .next (s.complete c stNOHANDLE 0) := by
  have hl : s.launch? (n64 (hostArg c 1)) = none := hl
  simp only [execPreempt, hl, hb, if_neg Bool.false_ne_true]
theorem execResume_of_saved {v : Saved} (hb : badWord0 c = false) (hv : (s.saved.find? fun v => v.base == hostArg c 1 && !v.back) = some v) :
    execResume c s = .next { s.modLaunch v.gang.lid fun x => { x with resCmd := some ((qIx c.q).val, hostTag c) } with
      saved := s.saved.map fun w => if w.gang.lid = v.gang.lid then { w with back := true } else w } := by
  simp only [execResume, hv, hb, if_neg Bool.false_ne_true]; rfl
theorem execLaunch_of_launch {l : Launch} {im : Image} {t : List SBind} (h : s.launchOf c = .ok (l, im, t)) : execLaunch c s =
    .next { s.modContext l.ctx fun x => { x with sbind := t } with
      launches := s.launches ++ [l], lids := s.lids + 1, usedLids := l.lid :: s.usedLids,
      journal := s.journal.map fun j => if j.q = (qIx c.q).val ∧ j.tag = hostTag c then { j with lid := l.lid } else j } := by
  simp only [execLaunch, h]; rfl
theorem execLaunch_of_failure {st : Nat} (h : s.launchOf c = .error st) : execLaunch c s = .next (s.complete c st 0) := by
  simp only [execLaunch, h]
end

/-! ### Rings and registers (R377 to R379, R383, R385) -/

section
variable {s : State}

/-- The command in the entry that a pair takes next. -/
def State.ringEntry (s : State) (q : Fin 16) : Command :=
  ⟨q.val, (List.range 8).map fun j => n64 (s.hostWord ((s.queues[q]).qsbase.toNat + 64 * (s.queues[q]).shead + 8 * j))⟩
/-- The state with it taken: its pair busy, its entry in the journal. -/
def State.entryTaken (s : State) (q : Fin 16) : State :=
  let s1 := s.modQueue q.val fun p => { p with shead := (p.shead + 1) % p.qsize.toNat, reserved := p.reserved + 1, busy := true }
  { s1 with qrr := qIx (q.val + 1),
            journal := s1.journal ++ [(⟨q.val, hostTag (s.ringEntry q), fieldOf (hostArg (s.ringEntry q) 0) 56 8, 0⟩ : Taken)] }
theorem execQueueCommandTake_of_turn {q : Fin 16} (hn : s.nextPair = some q) (hd : s.cpDown[(0 : Fin 2)] = false) :
    execQueueCommandTake q.val s = match commandOf (fieldOf (hostArg (s.ringEntry q) 0) 56 8) (s.ringEntry q) with
      | some i => .next { s.entryTaken q with agenda := i :: (s.entryTaken q).agenda }
      | none => .next ((s.entryTaken q).complete (s.ringEntry q) stBADCMD 0) := by
  have hturn : ¬ (q.val ≠ q.val ∨ s.cpDown[(0 : Fin 2)] = true) := by rw [hd]; simp
  simp only [execQueueCommandTake, hn, if_neg hturn] <;> rfl

/-- A write in the registers of a pair (R378). -/
theorem execHostRegisterWrite_of_pair {off : Nat} {q : Fin 16} {o : Nat} (ho : off = 0x2000 + 0x40 * q.val + o) (hlt : o < 0x40) (v : Word64) :
    execHostRegisterWrite off v s = .next (s.modQueue q.val fun p => p.write o v) := by
  have hq := q.isLt
  have hpair : (off - 0x2000) / 0x40 = q.val := by omega
  have hreg : (off - 0x2000) % 0x40 = o := by omega
  rw [execHostRegisterWrite, if_neg (by omega), if_pos (by omega), hpair, hreg]
theorem execHostRegisterWrite_of_other {off : Nat} (hlt : off < 2 ^ 20) (h : (off < 0x2000 ∧ off ≠ 0x100) ∨ 0x2400 ≤ off) (v : Word64) :
    execHostRegisterWrite off v s = .next s := by
  rw [execHostRegisterWrite, if_neg (by omega), if_neg (by omega), if_neg (by omega)]
theorem State.putCommit_of_trial (s : State) {v : Word64} (hv : v = 1) (ht : s.fwTrial = 1) : s.putCommit v =
    { s with fwCommit := v, fwAct := !s.fwAct, fwTrial := 0, fwArb := (s.slotOf (!s.fwAct)).version,
             measure := s.measure.set 1 (sha384 (s.slotOf (!s.fwAct)).image) } := if_pos ⟨hv, ht⟩
theorem State.putCommit_of_other (s : State) {v : Word64} (h : ¬ (v = 1 ∧ s.fwTrial = 1)) : s.putCommit v = { s with fwCommit := v } := if_neg h
end

end Sys2Proof.Machine

namespace Sys2Proof.Proofs
open Sys2Proof.Machine Sys2Proof.Claims

/-- Settles O45: the course of each command over a context or a launch. -/
theorem contextCommands : Obligations.ContextCommands := by
  refine fun s c => ⟨fun hb => ⟨fun x e h => ⟨s.withContext x e, execCtxnew_of_context h, s.contexts_withContext x e, s.tiles_withContext x e⟩,
      fun st h => execCtxnew_of_failure h,
      fun hi hl => ⟨s.withoutContext (hostArg c 1 % 2 ^ 16), execCtxend_of_context hb hi hl, s.context?_withoutContext _, rfl⟩,
      fun hi ht => ⟨s.invalidating (invalOf s c), invalOf s c, ?inval, rfl, rfl, rfl, rfl, rfl, rfl⟩,
      fun hi ht => ⟨_, (execInval_of_context hb hi).trans (congrArg _ (State.beginInval_of_none ht))⟩,
      fun hi => ⟨execCtxend_of_none hb hi, execInval_of_none hb hi⟩, fun l hl hg => ?preempt, fun hl => execPreempt_of_none hb hl,
      fun v hv => ⟨_, execResume_of_saved hb hv, rfl, rfl⟩⟩,
    fun l im t h => ⟨_, execLaunch_of_launch h, ?launch, rfl, rfl, rfl⟩, fun st h => execLaunch_of_failure h⟩
  case inval =>
    refine (execInval_of_context hb hi).trans (congrArg _ (State.beginInval_of_tiles ?_ s))
    exact fun h => ht (List.map_eq_nil_iff.1 h)
  case preempt =>
    obtain ⟨z, gs, hrun, hz⟩ := execPreempt_of_gangs hb hl hg
    have hkeep {τ : Type} (get : State → τ) (hget : ∀ z t x, get (State.setThread z t x) = get z) :
        get z = get (s.askedSave (BitVec.ofNat 64 (hostArg c 1)) ((qIx c.q).val, hostTag c) ((hostArg c 2).testBit 0)) := by
      obtain rfl | rfl := hz
      · rfl
      · exact State.setLimits_keeps get hget _ gs
    refine ⟨z, hrun, hkeep State.mem fun _ _ _ => rfl, ?_, (hkeep State.gangs fun _ _ _ => rfl).trans (List.map_congr_left fun g _ => ?_)⟩
    · rw [hkeep (fun y => y.launch? l.lid) fun _ _ _ => rfl, State.lid_of_launch? hl]
      refine (congrArg (Option.map Launch.preCmd) (State.launch?_modLaunch (f := fun x => { x with preCmd := x.preCmd ++ [((qIx c.q).val, hostTag c)] }) fun _ => rfl)).trans ?_
      rw [hl]; rfl
    · split
      · cases g.preempt <;> rfl
      · rfl
  case launch => exact List.map_append

/-- Settles O46: a pair whose turn it is, and the registers of a pair by their offsets. -/
theorem ringSteps : Obligations.RingSteps := by
  refine ⟨fun s q v hq => ⟨if_pos hq, if_pos hq⟩, fun s q c hn hd hc => ?take, fun s off v hlt =>
      ⟨fun q ho => execHostRegisterWrite_of_pair ho (by decide) v, fun q ho => execHostRegisterWrite_of_pair ho (by decide) v,
        fun h => execHostRegisterWrite_of_other hlt h v, rfl⟩,
    fun s v => ⟨fun hv ht => ?commit, fun ht => congrArg Host.Outcome.next (s.putCommit_of_other fun h => ht h.2)⟩⟩
  case take =>
    have hc : c = s.ringEntry q := hc
    subst hc
    refine ⟨fun i hi => ⟨{ s.entryTaken q with agenda := i :: (s.entryTaken q).agenda },
      (execQueueCommandTake_of_turn hn hd).trans (by rw [hi]), rfl, ?_, rfl⟩,
      fun hi => ⟨_, (execQueueCommandTake_of_turn hn hd).trans (by rw [hi])⟩⟩
    have hpair := s.queues_modQueue_same q.val fun p => { p with shead := (p.shead + 1) % p.qsize.toNat, reserved := p.reserved + 1, busy := true }
    simp only [qIx_fin] at hpair
    exact hpair
  case commit =>
    have hput := s.putCommit_of_trial hv ht
    exact ⟨s.putCommit v, rfl, by rw [hput], by rw [hput], by rw [hput], by rw [hput]⟩

end Sys2Proof.Proofs
end

section
/-! The module as a whole (22 R352, R385 to R389) and what a step runs (05 R84, 12 R217): the statements ModuleSteps and StepRunsInstruction. -/
namespace Sys2Proof.Machine
open Sys2Proof.Claims

/-! ### Resets (R352, R387, R389) -/

/-- A byte whose address a filter keeps reads as before. -/
theorem memByte_filter {m : List Host.Cell} {out : Nat → Bool} {a : Nat} (h : out a = true) : memByte (m.filter fun c => out c.1) a = memByte m a := by
  induction m with
  | nil => rfl
  | cons c m ih =>
    obtain ⟨j, b⟩ := c
    by_cases ho : out j = true
    · simp only [List.filter_cons, ho, if_true, memByte, ih]
    · have hne : a ≠ j := fun e => ho (e ▸ h)
      simp only [List.filter_cons, if_neg ho, memByte, if_neg hne, ih]

/-- A field that undoing one write keeps, losing the vault's open writes keeps. -/
theorem State.undoVault_keeps {τ : Type} (get : State → τ) (h : ∀ z v, get (State.undoWrite z v) = get z) (s : State) : get s.undoVault = get s := by
  unfold State.undoVault
  induction s.vwrites with
  | nil => rfl
  | cons v l ih => exact (h _ v).trans ih
section
variable (s : State) (q : Nat) (tag : BitVec 32) (st : Nat) (res : Word64)
theorem State.postEntry_tiles : (s.postEntry q tag st res).tiles = s.tiles := by unfold State.postEntry; rfl
theorem State.postEntry_gangs : (s.postEntry q tag st res).gangs = s.gangs := by unfold State.postEntry; rfl
theorem State.postEntry_trst : (s.postEntry q tag st res).trst = s.trst := by unfold State.postEntry; rfl
theorem State.postEntry_vltbase : (s.postEntry q tag st res).vltbase = s.vltbase := by unfold State.postEntry; rfl
theorem State.postEntry_vltsize : (s.postEntry q tag st res).vltsize = s.vltsize := by unfold State.postEntry; rfl
end
/-- Reporting the lost commands leaves what is no ring, journal or host memory as it was. -/
theorem State.postLost_frame (s : State) : s.postLost.tiles = s.tiles ∧ s.postLost.gangs = s.gangs ∧ s.postLost.trst = s.trst ∧
    s.postLost.vltbase = s.vltbase ∧ s.postLost.vltsize = s.vltsize := by
  unfold State.postLost
  exact ⟨foldl_keeps State.tiles (fun z (t : Taken) => z.postEntry_tiles t.q t.tag stTHERMAL 0) _ s,
    foldl_keeps State.gangs (fun z (t : Taken) => z.postEntry_gangs t.q t.tag stTHERMAL 0) _ s,
    foldl_keeps State.trst (fun z (t : Taken) => z.postEntry_trst t.q t.tag stTHERMAL 0) _ s,
    foldl_keeps State.vltbase (fun z (t : Taken) => z.postEntry_vltbase t.q t.tag stTHERMAL 0) _ s,
    foldl_keeps State.vltsize (fun z (t : Taken) => z.postEntry_vltsize t.q t.tag stTHERMAL 0) _ s⟩
theorem State.resetDies_trst (s : State) : s.resetDies.trst = s.trst := State.undoVault_keeps State.trst (fun _ _ => rfl) s
theorem State.resetDies_vltbase (s : State) : s.resetDies.vltbase = s.vltbase := State.undoVault_keeps State.vltbase (fun _ _ => rfl) s
theorem State.resetDies_vltsize (s : State) : s.resetDies.vltsize = s.vltsize := State.undoVault_keeps State.vltsize (fun _ _ => rfl) s
theorem State.resetDies_fwTrial (s : State) : s.resetDies.fwTrial = s.fwTrial := State.undoVault_keeps State.fwTrial (fun _ _ => rfl) s
theorem State.resetDies_fwAct (s : State) : s.resetDies.fwAct = s.fwAct := State.undoVault_keeps State.fwAct (fun _ _ => rfl) s

/-! ### The clock step (R388) -/

section
variable {s : State} {p : BitVec 16} {t : BitVec 8}

/-- The state with power and temperature taken, a thermal reset to follow where it is too hot. -/
def State.measured (s : State) (p : BitVec 16) (t : BitVec 8) : State :=
  { s with pwr := p, temp := t, agenda := if t.toNat ≥ 110 then .thermalReset :: s.agenda else s.agenda }
theorem execClockStepAdjust_of_over (hr : s.red = false) (h : s.pwrlim.toNat < p.toNat ∨ 95 ≤ t.toNat) :
    execClockStepAdjust p t s = .next { s.measured p t with step := if s.step.toNat < 8 then s.step + 1 else s.step, thr := true } := by
  exact (if_neg (by rw [hr]; exact Bool.false_ne_true)).trans (if_pos h)
theorem execClockStepAdjust_of_under (hr : s.red = false) (hp : 100 * p.toNat < 95 * s.pwrlim.toNat) (ht : t.toNat ≤ 90) :
    execClockStepAdjust p t s = .next { s.measured p t with step := if s.step.toNat ≤ s.cfg.minStep then s.step else s.step - 1,
                                                            thr := s.thr && decide (s.step.toNat ≥ s.cfg.minStep + 2) } := by
  have hover : ¬ (s.pwrlim.toNat < p.toNat ∨ 95 ≤ t.toNat) := by omega
  exact (if_neg (by rw [hr]; exact Bool.false_ne_true)).trans ((if_neg hover).trans (if_pos ⟨hp, ht⟩))
end

/-! ### Training (R385) -/

/-- The state with links and configuration table taken up, before the module is judged ready. -/
def State.linksTrained (s : State) (t : Trained) : State :=
  { s with buffers := s.buffers.mapFinIdx fun k b _ => b.trained (t.links.getLsbD k)
           cfg := s.checkedTable, stackBad := s.stackBad || t.hbm != 0xFF }
theorem execTrainingDone_of_ready {s : State} {t : Trained} (h : s.rdy = false) : execTrainingDone t s =
    .next (if (s.linksTrained t).cfg.valid = true ∧ (s.linksTrained t).stackBad = false then { s.linksTrained t with red := false, rdy := true }
      else s.linksTrained t) := if_neg (by rw [h]; exact Bool.false_ne_true)
theorem State.up_linksTrained (s : State) (t : Trained) (k : Fin 16) : ((s.linksTrained t).buffers[k]).up = t.links.getLsbD k.val := by
  have h : (s.linksTrained t).buffers[k] = (s.buffers[k]).trained (t.links.getLsbD k.val) := Vector.getElem_mapFinIdx ..
  rw [h]; rfl

/-! ### Code words (R84, R122) -/

theorem natOfBytes_append (a b : List Byte) : natOfBytes (a ++ b) = natOfBytes a + 256 ^ a.length * natOfBytes b := by
  induction a with
  | nil => simp [natOfBytes]
  | cons x a ih => rw [List.cons_append, natOfBytes, natOfBytes, ih, List.length_cons, Nat.pow_succ, Nat.mul_add, Nat.add_assoc,
      Nat.mul_comm (256 ^ _) 256, Nat.mul_assoc]
theorem memBytes_add (m : List Host.Cell) (k i j : Nat) : memBytes m k (i + j) = memBytes m k i ++ memBytes m (k + i) j := by
  induction i generalizing k with
  | zero => rw [Nat.zero_add]; rfl
  | succ i ih => rw [Nat.succ_add, memBytes, ih (k + 1), memBytes, List.cons_append, show k + 1 + i = k + (i + 1) by omega]
/-- The lower half of a word of memory is the four bytes at its address, the upper half the four behind them. -/
theorem State.natAt_eight (s : State) (k : Nat) : s.natAt k 8 = s.natAt k 4 + 2 ^ 32 * s.natAt (k + 4) 4 := by
  unfold State.natAt State.bytesAt
  rw [show 8 = 4 + 4 from rfl, memBytes_add, natOfBytes_append, memBytes_length] <;> rfl
theorem State.natAt_four_lt (s : State) (k : Nat) : s.natAt k 4 < 2 ^ 32 := by
  have h := natOfBytes_lt (memBytes s.mem k 4)
  rwa [memBytes_length] at h
theorem getA_of_absent {α : Type} {l : List (Nat × α)} {k : Nat} (h : ∀ p ∈ l, p.1 ≠ k) : getA l k = none := by
  induction l with
  | nil => rfl
  | cons p l ih =>
    have hne : k ≠ p.1 := fun e => h p (List.mem_cons_self ..) e.symm
    rw [getA, if_neg hne, ih fun q hq => h q (List.mem_cons_of_mem _ hq)]
theorem wordsOf_four {k : Nat} (h : k % 4 = 0) : wordsOf k 4 = [k / 8] := by
  have hone : (k + 4 - 1) / 8 - k / 8 + 1 = 1 := by omega
  rw [wordsOf, if_neg (by decide), hone]; rfl
/-- The half of a word of memory that an aligned address names. -/
theorem State.natAt_half (s : State) {k : Nat} (h : k % 4 = 0) :
    BitVec.ofNat 32 (s.natAt (8 * (k / 8)) 8 / 2 ^ (8 * (k % 8))) = BitVec.ofNat 32 (s.natAt k 4) := by
  have hlo := s.natAt_four_lt (8 * (k / 8))
  have hsplit := s.natAt_eight (8 * (k / 8))
  obtain h0 | h4 : k % 8 = 0 ∨ k % 8 = 4 := by omega
  · have hk : 8 * (k / 8) = k := by omega
    rw [hk] at hsplit hlo ⊢
    refine BitVec.eq_of_toNat_eq ?_
    rw [h0, BitVec.toNat_ofNat, BitVec.toNat_ofNat]; omega
  · have hk : 8 * (k / 8) + 4 = k := by omega
    rw [hk] at hsplit
    rw [h4, hsplit, Nat.add_mul_div_left _ _ (by decide : 0 < 2 ^ 32), Nat.div_eq_of_lt hlo, Nat.zero_add]
theorem State.codeWord_of_settled {s : State} {tile a : Nat} (hf : ∀ p ∈ s.fresh, p.1 ≠ localKey tile a / 8) (ha : a % 4 = 0) :
    s.codeWord tile a = ⟨a, BitVec.ofNat 32 (s.natAt (localKey tile a) 4), s.poisoned (localKey tile a) 4⟩ := by
  have hk4 : localKey tile a % 4 = 0 := by unfold localKey; omega
  have hk8 : a % 8 = localKey tile a % 8 := by unfold localKey; omega
  have hpoison : s.poisoned (localKey tile a) 4 = s.poison.contains (localKey tile a / 8) := by
    rw [State.poisoned, wordsOf_four hk4, List.any_cons, List.any_nil, Bool.or_false]
  have hword : s.wordBefore tile a = (s.natAt (8 * (localKey tile a / 8)) 8, s.poison.contains (localKey tile a / 8)) := by
    unfold State.wordBefore
    simp only [getA_of_absent hf]
  rw [State.codeWord, hword, hpoison, hk8]
  dsimp only
  rw [s.natAt_half hk4]

/-! ### The slot of a thread (R217) -/

section
variable {s : State} {t : ThreadRef} {w0 : Word32} {ws : List Word32}

/-- A thread with nothing in its fetch buffer fetches what stands in memory. -/
theorem State.fetchWord_of_empty (h : (s.thread t).fbuf = []) (a : Nat) : s.fetchWord t a = s.codeWord t.tile a := by
  rw [State.fetchWord, h]; rfl
theorem State.fetchHeld_of_empty (h : (s.thread t).fbuf = []) (a : Nat) : s.fetchHeld t a = s.boardW t.tile a 4 := by
  rw [State.fetchHeld, h]; rfl
/-- The words fetched at the addresses of an instruction that stands there. -/
theorem map_codeWord_of_codeAt {tile pc : Nat} (h : CodeAt s tile pc ws) :
    ((List.range ws.length).map fun k => pc + 4 * k).map (s.codeWord tile) = ws.mapIdx fun k w => ⟨pc + 4 * k, w, false⟩ := by
  refine List.ext_getElem (by simp) fun k h1 h2 => ?_
  have hk : k < ws.length := by simpa using h2
  simp [(h.2 k ws[k] (List.getElem?_eq_getElem hk)).1]
theorem any_boardW_of_codeAt {tile pc : Nat} (h : CodeAt s tile pc ws) :
    (((List.range ws.length).map fun k => pc + 4 * k).any fun a => s.boardW tile a 4) = false := by
  refine List.any_eq_false.2 fun a ha => ?_
  obtain ⟨k, hk, rfl⟩ := List.mem_map.1 ha
  have hk : k < ws.length := List.mem_range.1 hk
  rw [(h.2 k ws[k] (List.getElem?_eq_getElem hk)).2]; exact Bool.false_ne_true
theorem find?_poison_mapIdx (pc : Nat) (ws : List Word32) :
    (ws.mapIdx fun k w => (⟨pc + 4 * k, w, false⟩ : FetchWord)).find? (·.poison) = none := by
  refine List.find?_eq_none.2 fun x hx => ?_
  obtain ⟨k, hk, rfl⟩ := List.mem_mapIdx.1 hx
  exact Bool.false_ne_true
theorem map_word_mapIdx (pc : Nat) (ws : List Word32) : (ws.mapIdx fun k w => (⟨pc + 4 * k, w, false⟩ : FetchWord)).map (·.word) = ws :=
  List.ext_getElem (by simp) fun k h1 h2 => by simp

/-- The instruction that stands at the thread's address is fetched (R84, R122). -/
theorem State.fetch_of_codeAt {i : Instr} (hb : (s.thread t).fbuf = []) (hn : (w0 :: ws).length = (formOf (w0.setWidth 2)).words)
    (hc : CodeAt s t.tile (s.thread t).pc (w0 :: ws)) (hd : decodeWords (w0 :: ws) = .ok i) :
    s.fetch t = .instr i (w0 :: ws).length := by
  have hheld : s.fetchHeld t = fun a => s.boardW t.tile a 4 := funext (State.fetchHeld_of_empty hb)
  have hword : s.fetchWord t = s.codeWord t.tile := funext (State.fetchWord_of_empty hb)
  obtain ⟨hfirst, hfree⟩ := hc.2 0 w0 rfl
  have hend := hc.1
  rw [Nat.mul_zero, Nat.add_zero] at hfirst hfree
  unfold State.fetch
  dsimp only
  rw [hheld, hword]
  dsimp only
  rw [hfirst, ← hn, if_neg (by rw [hfree]; exact Bool.false_ne_true), if_neg (by omega), any_boardW_of_codeAt hc,
    if_neg Bool.false_ne_true, map_codeWord_of_codeAt hc, find?_poison_mapIdx, map_word_mapIdx, hd]
/-- A READY thread that nothing keeps from its slot runs what it fetches. -/
theorem State.slot_of_ready {f : Fetched} (hr : (s.thread t).st = .ready) (hrep : (s.core t.coreRef).repacking t.h = false)
    (hi : (s.core t.coreRef).issued ≠ s.cycle + 1) (hp : (s.thread t).pend = none) (hv : (s.thread t).vg = .solo) (hs : s.stopping t = false)
    (hc : s.atCheckpoint t = false) (hpc : (s.thread t).pc ≠ 0x8_0000) (hf : s.fetch t = f) (hh : f ≠ .held) : s.slot t = some (.fetched f) := by
  have hfree : ¬ ((s.thread t).st ≠ .ready ∨ (s.core t.coreRef).repacking t.h = true ∨ (s.core t.coreRef).issued = s.cycle + 1 ∨ s.stopping t = true) := by
    rw [hr, hrep, hs]; simp [hi]
  unfold State.slot
  dsimp only
  rw [if_neg hfree, hp, hv, if_neg hpc, hc, hf]
  cases f with
  | held => exact absurd rfl hh
  | _ => rfl
end

/-! ### The state an instruction runs on (R217) -/

theorem State.thread_useSlot (s : State) (t u : ThreadRef) : (s.useSlot t).thread u = s.thread u := by
  unfold State.useSlot
  refine s.thread_setCore _ _ ?_ u
  rfl
theorem thread_issuing (s : State) (t : ThreadRef) (c k : Nat) (u : ThreadRef) : (issuing s t c k).thread u = s.thread u :=
  State.thread_useSlot { s with phase := .issue c (k + 1) } t u
theorem State.countN_cycle (s : State) (r : CoreRef) (e : Fin 64) (n : Nat) : (s.countN r e n).cycle = s.cycle := by
  unfold State.countN; split <;> rfl
theorem State.countN_seq (s : State) (r : CoreRef) (e : Fin 64) (n : Nat) : (s.countN r e n).seq = s.seq := by
  unfold State.countN; split <;> rfl
/-- The attempt's state once the fetch buffer is filled and the issue counted, over code with no error waiting. -/
theorem State.refill_of_clean {s : State} (h : s.latent = []) (t : ThreadRef) (n : Nat) :
    (s.refill t n).mem = s.mem ∧ (s.refill t n).empties = s.empties ∧ (s.refill t n).cur = s.cur ∧
    (∃ f, (s.refill t n).thread t = { s.thread t with fbuf := f }) ∧ (∀ u, u ≠ t → (s.refill t n).thread u = s.thread u) ∧
    (s.refill t n).gangs = s.gangs ∧ (s.refill t n).cycle = s.cycle ∧ (s.refill t n).seq = s.seq := by
  unfold State.refill
  dsimp only
  rw [State.found_of_clean (by rw [State.countCode, State.countN_latent]; exact h), State.countCode]
  rw [State.activate_mem, State.countN_mem, State.activate_empties, State.countN_empties, State.activate_cur, State.countN_cur, State.activate_gangs,
    State.countN_gangs, State.activate_cycle, State.countN_cycle, State.activate_seq, State.countN_seq, State.thread_activate, State.thread_countN,
    State.thread_setThread_same]
  refine ⟨rfl, rfl, rfl, ⟨_, rfl⟩, fun u hu => ?_, rfl, rfl, rfl⟩
  rw [State.thread_activate, State.thread_countN, State.thread_setThread_other _ _ hu]
/-- The current thread of a solo run is not a leader. -/
theorem State.vg_refill (s : State) (t : ThreadRef) (n : Nat) : ((s.refill t n).thread t).vg = (s.thread t).vg := by
  unfold State.refill
  dsimp only
  rw [(State.found_keeps ..).2, State.countCode, State.thread_countN, State.thread_setThread_same]
theorem State.cur_refill (s : State) (t : ThreadRef) (n : Nat) : (s.refill t n).cur = s.cur := by
  unfold State.refill
  dsimp only
  rw [State.found_cur, State.countCode, State.countN_cur]; rfl
theorem goAhead_of_turn {s : State} {cls key c k : Nat} {a : Turn} (ha : s.agenda = []) (hph : s.phase = .issue cls key)
    (h : s.nextTurn cls key = some (c, k, a)) : s.goAhead = doTurn { s with phase := .issue c (k + 1) } a := by
  unfold State.goAhead
  rw [ha, hph]
  dsimp only
  rw [h]
theorem doTurn_instr (s : State) (t : ThreadRef) (i : Instr) (n : Nat) :
    doTurn s (.slot t (.fetched (.instr i n))) = run i n { s.useSlot t with cur := t } := rfl
theorem run_of_solo {i : Instr} {n : Nat} {s : State} (h : (s.thread s.cur).vg = .solo) :
    run i n s = exec i { (s.refill s.cur n).count s.cur.coreRef 0 with seq := (s.refill s.cur n).seq + 1 } := by
  have hvg : ((s.refill s.cur n).count s.cur.coreRef 0).me.vg ≠ .leader := by
    rw [State.me, State.count, State.countN_cur, State.cur_refill, State.thread_countN, State.vg_refill, h]
    decide
  unfold run
  dsimp only
  rw [if_neg hvg]; rfl

end Sys2Proof.Machine

namespace Sys2Proof.Proofs
open Sys2Proof.Machine Sys2Proof.Claims

/-- Settles O51: each step of the module, a reset's fields through the writes and reports that keep them. -/
theorem moduleSteps : Obligations.ModuleSteps := by
  refine ⟨fun s t hr => ?training, fun s hv => ⟨fun h => ?_, fun h => if_pos ⟨hv, h⟩⟩, fun s p t hr =>
      ⟨fun h => ⟨_, execClockStepAdjust_of_over hr h, rfl, rfl, rfl, rfl, rfl⟩, fun h => ?hot,
        fun hp ht => ⟨_, execClockStepAdjust_of_under hr hp ht, rfl, fun h => ?_, rfl⟩⟩,
    fun s => ?thermal, fun s => ⟨_, rfl, rfl, rfl, rfl, rfl, fun a h1 h2 => ?_⟩, fun s h => ?watchdog, fun s d => dif_pos d.isLt⟩
  case training =>
    refine ⟨_, execTrainingDone_of_ready hr, fun k => ?_, ?_, fun hv hb hh => ?_, fun h => ?_⟩
    · rw [← s.up_linksTrained t k]; split <;> rfl
    · split <;> rfl
    · rw [if_pos ⟨hv, by simp [State.linksTrained, hb, hh]⟩]; exact ⟨rfl, rfl⟩
    · have hnot : ¬ ((s.linksTrained t).cfg.valid = true ∧ (s.linksTrained t).stackBad = false) := by
        rintro ⟨hv, hb⟩
        obtain ⟨hstack, hhbm⟩ := Bool.or_eq_false_iff.1 (show (s.stackBad || t.hbm != 0xFF) = false from hb)
        obtain h | h | h := h
        · exact absurd (h.symm.trans hv) Bool.false_ne_true
        · exact absurd (h.symm.trans hstack) (by decide)
        · exact h (by simpa using hhbm)
      rw [if_neg hnot]; exact ⟨hr, rfl⟩
  · rw [State.checkedTable, if_neg fun hc => absurd hc.2 (Nat.not_le.2 h)]
  case hot =>
    refine ⟨_, execClockStepAdjust_of_over hr (.inr (by omega)), ?_⟩
    exact if_pos h
  · exact Bool.and_eq_false_iff.2 (.inr (decide_eq_false (by omega)))
  case thermal =>
    obtain ⟨htiles, hgangs, htrst, hbase, hsize⟩ := State.postLost_frame { s.resetDies with trst := if s.resetDies.trst = 0xFF then s.resetDies.trst else s.resetDies.trst + 1 }
    exact ⟨_, rfl, htiles, hgangs, htrst.trans (by dsimp only; rw [s.resetDies_trst]), hbase.trans s.resetDies_vltbase, hsize.trans s.resetDies_vltsize⟩
  · exact memByte_filter (out := fun k => decide (hostBase ≤ k) && decide (k < 2 ^ 52)) (by rw [decide_eq_true h1, decide_eq_true h2]; rfl)
  case watchdog =>
    exact ⟨_, if_pos h, State.resetDies_fwTrial _, State.resetDies_fwAct _, rfl⟩

/-- Settles O53: from the code word to the state the instruction's meaning runs on. -/
theorem stepRunsInstruction : Obligations.StepRunsInstruction := by
  refine ⟨fun s tile a hf ha => State.codeWord_of_settled hf ha, fun s t w0 ws i hr hrep hi hp hv hb hs hc hn hcode hd => ?slot,
    fun s cls key c k t i n ha hph hturn hv => ?step, fun s t c k n hl z hz => ?frame⟩
  case slot =>
    have hpc : (s.thread t).pc ≠ 0x8_0000 := by
      have hend := hcode.1
      rw [List.length_cons] at hend
      omega
    exact State.slot_of_ready hr hrep hi hp hv hs hc hpc (State.fetch_of_codeAt hb hn hcode hd) (by simp)
  case step =>
    have hrun : step s = run i n (issuing s t c k) := by
      exact (goAhead_of_turn ha hph hturn).trans (doTurn_instr ..)
    have hcur : (issuing s t c k).cur = t := rfl
    have hsolo := run_of_solo (i := i) (n := n) (s := issuing s t c k) (by rw [hcur, thread_issuing]; exact hv)
    rw [hcur] at hsolo
    exact hrun.trans hsolo
  case frame =>
    subst hz
    obtain ⟨hmem, hemp, hcur, ⟨f, hsame⟩, hother, hgangs, hcycle, hseq⟩ := State.refill_of_clean (s := issuing s t c k) hl t n
    have hthread (u : ThreadRef) : (((issuing s t c k).refill t n).count t.coreRef 0).thread u = ((issuing s t c k).refill t n).thread u :=
      State.thread_countN ..
    refine ⟨(State.countN_mem ..).trans hmem, (State.countN_empties ..).trans hemp, (State.countN_cur ..).trans hcur, ⟨f, ?_⟩, fun u hu => ?_,
      (State.countN_gangs ..).trans hgangs, (State.countN_cycle ..).trans hcycle, (State.countN_seq ..).trans hseq⟩
    · rw [State.me, State.count, State.countN_cur, hcur]
      exact (hthread t).trans (hsame.trans (by rw [thread_issuing]))
    · rw [hthread, hother u hu, thread_issuing]

end Sys2Proof.Proofs
end

section
/-! Operands that can be read and results that can be written (04 R65 to R69, 08 R139 to R145, 10 R179, 16 R308): under the conditions that the
statements of completion name, reads and writes answer with the states that they name. -/
namespace Sys2Proof.Machine
open Sys2Proof.Claims

/-! ### What reading a source leaves as it was -/

/-- The state `z` is `s` with words taken from ports: the threads' kernels, the current thread but for the record of its wait, and the
core's threshold are the same. -/
structure Pops (s z : State) : Prop where
  cur : z.cur = s.cur
  kernel : ∀ t, z.kernel t = s.kernel t
  me : ∃ v, z.me = { s.me with wait := v } ∧ v.bind (·.src) = s.me.wait.bind (·.src)
  thresh : z.myCore.cqthresh = s.myCore.cqthresh
  modId : z.modId = s.modId

theorem Pops.refl (s : State) : Pops s s := ⟨rfl, fun _ => rfl, ⟨s.me.wait, rfl, rfl⟩, rfl, rfl⟩
theorem Pops.trans {s y z : State} (h1 : Pops s y) (h2 : Pops y z) : Pops s z := by
  obtain ⟨v, hv, hs⟩ := h1.me
  obtain ⟨w, hw, ht⟩ := h2.me
  refine ⟨h2.cur.trans h1.cur, fun t => (h2.kernel t).trans (h1.kernel t), ⟨w, ?_, ?_⟩, h2.thresh.trans h1.thresh, h2.modId.trans h1.modId⟩
  · rw [hw, hv]
  · rw [ht, hv, hs]

section
variable {s s0 z : State} {i : Instr} {h : Hdr} {n d : NameRef} {l : List NameRef}

theorem State.kernel_setMyCore {c : Core} (hc : c.kernels = s.myCore.kernels) (t : ThreadRef) : (s.setMyCore c).kernel t = s.kernel t := by
  unfold State.kernel State.setMyCore
  by_cases ht : t.coreRef = s.cur.coreRef
  · rw [ht, State.core_setCore_same, Core.kernelOf, hc]; rfl
  · rw [State.core_setCore_other _ _ ht]
theorem Pops.setMyCore {c : Core} (hk : c.kernels = s.myCore.kernels) (ht : c.threads = s.myCore.threads) (hq : c.cqthresh = s.myCore.cqthresh) :
    Pops s (s.setMyCore c) := by
  refine ⟨rfl, State.kernel_setMyCore hk, ⟨s.me.wait, ?_, rfl⟩, by rw [s.myCore_setMyCore, hq], rfl⟩
  exact State.thread_setCore s _ c ht s.cur
theorem State.myCore_setMe (s : State) (x : Thread) : (s.setMe x).myCore = { s.myCore with threads := s.myCore.threads.set s.cur.h x } :=
  State.core_setCore_same ..
theorem State.kernel_setMe (s : State) (x : Thread) (t : ThreadRef) : (s.setMe x).kernel t = s.kernel t := State.kernel_setMyCore (by exact rfl) t
theorem Pops.setWait {v : Option WaitRec} (hv : v.bind (·.src) = s.me.wait.bind (·.src)) : Pops s (s.setMe { s.me with wait := v }) :=
  ⟨rfl, s.kernel_setMe _, ⟨v, by rw [State.me_setMe], hv⟩, by rw [s.myCore_setMe], rfl⟩
/-- A word that an instruction had taken comes out of the record of its wait, which keeps what the instruction issued with. -/
theorem Pops.taken {w : Word64} (ht : State.taken n s = some (w, z)) : Pops s z := by
  unfold State.taken at ht
  split at ht
  · next v hv =>
    split at ht
    · split at ht
      · cases ht
        exact Pops.setWait (by rw [hv]; rfl)
      · cases ht
    · cases ht
  · cases ht
theorem popped_plain (hn : n ≠ .fixed .portEng ∧ portDir n = none) (s : State) : popped s n = s := if_pos hn
theorem popped_taken {w : Word64} (hn : ¬ (n ≠ .fixed .portEng ∧ portDir n = none)) (ht : State.taken n s = some (w, z)) : popped s n = z := by
  simp only [popped, if_neg hn, ht]
theorem popped_eng (ht : State.taken (.fixed .portEng) s = none) :
    popped s (.fixed .portEng) = s.setMyCore { s.myCore with portEng := s.myCore.portEng.tail } := by
  simp only [popped, ht]; rfl
theorem popped_mesh {dir : Dir} (hd : portDir n = some dir) (ht : State.taken n s = none) :
    popped s n = s.setInbound dir (s.inbound dir).tail := by
  have hn : ¬ (n ≠ .fixed .portEng ∧ portDir n = none) := fun hn => by rw [hd] at hn; cases hn.2
  simp only [popped, ht, hd]
  cases n with
  | cat k => cases hd
  | fixed f => cases f <;> first | rfl | cases hd
theorem popped_pops (s : State) (n : NameRef) : Pops s (popped s n) := by
  by_cases hn : n ≠ .fixed .portEng ∧ portDir n = none
  · rw [popped_plain hn]; exact .refl s
  · cases ht : State.taken n s with
    | some t => rw [popped_taken hn ht]; exact .taken ht
    | none =>
      cases hd : portDir n with
      | some dir => rw [popped_mesh hd ht]; exact .setMyCore rfl rfl rfl
      | none =>
        have he : n = .fixed .portEng := Classical.byContradiction fun hne => hn ⟨hne, hd⟩
        subst he
        rw [popped_eng ht]; exact .setMyCore rfl rfl rfl
theorem readSt_pops (l : List NameRef) (s : State) : Pops s (readSt s l) := by
  induction l generalizing s with
  | nil => exact .refl s
  | cons n l ih => exact (popped_pops s n).trans (ih (popped s n))

theorem Pops.myKernel (hp : Pops s z) : z.myKernel = s.myKernel := by rw [State.myKernel, hp.cur, hp.kernel]; rfl
theorem Pops.ent (hp : Pops s z) (n : NameRef) : z.ent n = s.ent n := by rw [State.ent, hp.myKernel]; rfl
/-- The window of an address is the same, and so is the thread's own frame of addresses. -/
theorem Pops.window (hp : Pops s z) (a : Int) : z.window z.me a = s.window s.me a := by
  obtain ⟨v, hv, -⟩ := hp.me
  have hglob (g : Nat) : z.globWin g = s.globWin g := by simp only [State.globWin, hp.modId]
  simp only [State.window, hv, hglob]
  rfl

/-! ### Reads (R65, R99) -/

/-- A mesh port whose oldest word the instruction may take. -/
theorem State.readPort_of_readable {dir : Dir} (hd : portDir n = some dir) (hr : Readable s0 s (n :: l)) :
    State.read.readPort s0 i n s dir =
      .ok (⟨s.ent n, (((State.taken n s).map (·.1)).getD ((s.inbound dir).headD 0)).toNat⟩, popped s n) := by
  have hn : ¬ (n ≠ .fixed .portEng ∧ portDir n = none) := fun hn => by rw [hd] at hn; cases hn.2
  unfold State.read.readPort
  cases ht : State.taken n s with
  | some t => rw [popped_taken hn ht]; rfl
  | none =>
    obtain h1 | ⟨-, hin, hahead⟩ := hr.1
    · rw [ht] at h1; cases h1
    · rw [popped_mesh hd ht]
      dsimp only
      rw [hahead (.inr (by rw [hd]; rfl)), if_neg Bool.false_ne_true]
      cases hq : s.inbound dir with
      | nil => exact absurd hq (hin dir hd)
      | cons w ws => rfl
/-- A source that can be read is read: an instruction that has waited reads its names as they stood when it issued (R65, R67, R78, R99). -/
theorem State.read_of_readable (hs : s0.me.wait.bind (·.src) = s.me.wait.bind (·.src)) (hr : Readable s0 s (n :: l)) :
    s0.read i h n s = .ok (srcOf s h n, popped s n) := by
  cases n with
  | cat k =>
    have hname : s0.nameSrc s k = s.nameSrc s k := by unfold State.nameSrc; rw [hs]
    rw [State.read_cat, hname]; rfl
  | fixed f =>
    cases f with
    | zero => rfl
    | tid => rfl
    | lit => rfl
    | portN => exact State.readPort_of_readable rfl hr
    | portE => exact State.readPort_of_readable rfl hr
    | portS => exact State.readPort_of_readable rfl hr
    | portW => exact State.readPort_of_readable rfl hr
    | portEng =>
      unfold State.read
      cases ht : State.taken (.fixed .portEng) s with
      | some t => rw [popped_taken (fun hn => hn.1 rfl) ht]; simp only [srcOf, ht]; rfl
      | none =>
        obtain h1 | ⟨hin, -, hahead⟩ := hr.1
        · rw [ht] at h1; cases h1
        · rw [popped_eng ht]
          dsimp only
          rw [hahead (.inl rfl), if_neg Bool.false_ne_true]
          simp only [srcOf, ht]
          cases hq : s.myCore.portEng with
          | nil => exact absurd hq (hin rfl)
          | cons w ws => rfl
theorem Pops.src (hp : Pops s z) : s.me.wait.bind (·.src) = z.me.wait.bind (·.src) := by
  obtain ⟨v, hv, hs⟩ := hp.me
  rw [hv]; exact hs.symm
theorem State.read_first (hr : Readable s s (n :: l)) : s.read i h n s = .ok (srcOf s h n, popped s n) := State.read_of_readable rfl hr
theorem State.read_second {m : NameRef} (hr : Readable s s (n :: m :: l)) :
    s.read i h m (popped s n) = .ok (srcOf (popped s n) h m, popped (popped s n) m) :=
  State.read_of_readable (popped_pops s n).src hr.2
theorem State.read_third {m q : NameRef} (hr : Readable s s (n :: m :: q :: l)) :
    s.read i h q (popped (popped s n) m) = .ok (srcOf (popped (popped s n) m) h q, popped (popped (popped s n) m) q) :=
  State.read_of_readable ((popped_pops s n).trans (popped_pops _ m)).src hr.2.2

/-! ### Integers and patterns (R68, R69) -/

variable {x : Int} {r : Rnd}

theorem State.writeInt_of_fits (hf : IntFits s d x) : s0.writeInt i d x s = .ok (intPut s d x) := by
  obtain ⟨⟨heng, hmesh⟩, hcat⟩ := hf
  cases d with
  | cat n =>
    obtain ⟨v, hv⟩ := Option.isSome_iff_exists.1 (hcat rfl)
    rw [State.writeInt_cat hv, intPut, hv]; rfl
  | fixed f =>
    cases f with
    | zero => rfl
    | tid => rfl
    | lit => rfl
    | portEng => exact absurd rfl heng
    | portN => exact State.send_of_room (hmesh _ rfl).1 (Nat.succ_le_of_lt (hmesh _ rfl).2)
    | portE => exact State.send_of_room (hmesh _ rfl).1 (Nat.succ_le_of_lt (hmesh _ rfl).2)
    | portS => exact State.send_of_room (hmesh _ rfl).1 (Nat.succ_le_of_lt (hmesh _ rfl).2)
    | portW => exact State.send_of_room (hmesh _ rfl).1 (Nat.succ_le_of_lt (hmesh _ rfl).2)
theorem State.putPat_of_room {p : Nat} (hr : Room s d) : s0.putPat i d p s = .ok (patPut s d p) := by
  cases d with
  | cat n => rfl
  | fixed f => exact State.writeInt_of_fits ⟨hr, fun hc => absurd hc Bool.false_ne_true⟩

/-! ### Integer lanes (R179) -/

theorem laneTrap_of_isSome {rs : List (Option Int)} (h : ∀ r ∈ rs, r.isSome = true) (k : Nat) (xs : List Int) : laneTrap k rs xs = none := by
  induction rs generalizing k xs with
  | nil => rfl
  | cons r rs ih =>
    obtain ⟨v, hv⟩ := Option.isSome_iff_exists.1 (h r List.mem_cons_self)
    rw [hv]
    exact ih (fun q hq => h q (List.mem_cons_of_mem _ hq)) _ _
theorem State.writeLanes_ok {w : Nat} {xs : List Int} (hf : LanesFit s d w xs) : s0.writeLanes i d w xs s = .ok (lanePut s d w xs) := by
  have htrap : laneTrap 0 (xs.map (r69 (s.ent d).kind w (s.ent d).mode)) xs = none := by
    refine laneTrap_of_isSome (fun r hr => ?_) _ _
    obtain ⟨x, hx, rfl⟩ := List.mem_map.1 hr
    exact hf.2 x hx
  have hput : s0.putPat i d (packLanes w ((xs.map (r69 (s.ent d).kind w (s.ent d).mode)).map fun r => wrapNat w (r.getD 0))) s = .ok (lanePut s d w xs) := by
    rw [State.putPat_of_room hf.1, List.map_map]; rfl
  unfold State.writeLanes
  dsimp only
  rw [htrap, hput]
  split <;> rfl

/-! ### Draws (R308) -/

theorem State.draws_of_left {k : Nat} (hl : DrawsLeft s k) : s0.draws k s = .ok (drawList s k, drawn s k) := by
  by_cases hk : k = 0
  · subst hk; rfl
  · have hlt : ¬ (s.me.ridx.toNat + k ≥ 2 ^ 24) := Nat.not_le.2 (hl.resolve_left hk)
    simp only [State.draws, drawn, if_neg hk, if_neg hlt]; rfl
theorem State.drawsFor_of_left {md : RMode} {mask : List Bool} (hl : DrawsLeft s (drawCount md mask)) :
    s0.drawsFor md mask s = .ok (spread mask (drawList s (drawCount md mask)), drawn s (drawCount md mask)) := by
  have hdraws : s0.draws (if md = .rst then (mask.filter id).length else 0) s = .ok (drawList s (drawCount md mask), drawn s (drawCount md mask)) :=
    State.draws_of_left hl
  rw [State.drawsFor, hdraws]

/-- Taking draws changes the thread's place in its stream alone. -/
theorem drawn_eq (s : State) (k : Nat) : drawn s k = s ∨ ∃ x, drawn s k = s.setMe x := by
  unfold drawn
  split
  · exact .inl rfl
  · exact .inr ⟨_, rfl⟩
theorem cur_drawn (s : State) (k : Nat) : (drawn s k).cur = s.cur := by
  obtain hx | ⟨x, hx⟩ := drawn_eq s k
  · rw [hx]
  · rw [hx]; rfl
theorem ent_setMe (s : State) (x : Thread) (n : NameRef) : (s.setMe x).ent n = s.ent n := State.ent_setMyCore (by exact rfl) n
theorem ent_drawn (s : State) (k : Nat) (n : NameRef) : (drawn s k).ent n = s.ent n := by
  obtain hx | ⟨x, hx⟩ := drawn_eq s k
  · rw [hx]
  · rw [hx, ent_setMe]
theorem neighbourIn_setMe (s : State) (x : Thread) (dir : Dir) : (s.setMe x).neighbourIn dir = s.neighbourIn dir := by
  have hgang (k : Nat) : ((s.setMe x).tile k).gang = (s.tile k).gang := s.gang_setCore ..
  have hmine : (s.setMe x).myTile.gang = s.myTile.gang := hgang s.cur.tile
  have hcur : (s.setMe x).cur = s.cur := rfl
  have hsvc : (s.setMe x).svc = s.svc := rfl
  simp only [State.neighbourIn, hcur, hgang, hmine, hsvc]
theorem outbound_setMe (s : State) (x : Thread) (dir : Dir) : (s.setMe x).outbound dir = s.outbound dir := by
  rw [State.outbound, s.myCore_setMe]; rfl
theorem room_setMe (hr : Room s d) (x : Thread) : Room (s.setMe x) d := by
  refine ⟨hr.1, fun dir hd => ?_⟩
  rw [neighbourIn_setMe, outbound_setMe]
  exact hr.2 dir hd
theorem room_drawn (hr : Room s d) (k : Nat) : Room (drawn s k) d := by
  obtain hx | ⟨x, hx⟩ := drawn_eq s k
  · rw [hx]; exact hr
  · rw [hx]; exact room_setMe hr x

/-! ### Single floating values (R69, R139) -/

theorem drawCount_one (md : RMode) : drawCount md [true] = if md = .rst then 1 else 0 := rfl
theorem State.writeRealTv_of_fits {v : XVal} {tv : Word64 → Word64} (hf : RealFits s d r v) :
    s0.writeRealTv i d r v tv s = .ok (realPut s d r v) := by
  obtain ⟨hcat, hleft, hcode⟩ := hf
  cases d with
  | fixed f => exact absurd hcat Bool.false_ne_true
  | cat n =>
    have hdraws := State.draws_of_left (s0 := s0) hleft
    rw [drawCount_one] at hdraws
    cases hc : realCode s (.cat n) r v with
    | inr w => rw [hc] at hcode; cases hcode
    | inl c =>
      have hwrite : fpWrite (s.ent (.cat n)).kind.ff (s.ent (.cat n)).mode (rmodeOf r (s.ent (.cat n)))
          ((drawList s (if rmodeOf r (s.ent (.cat n)) = .rst then 1 else 0)).headD 0 % 2 ^ 24) v = .inl c := hc
      have hput : realPut s (.cat n) r v = (drawn s (if rmodeOf r (s.ent (.cat n)) = .rst then 1 else 0)).putName n (BitVec.ofNat 528 c) := by
        simp only [realPut, hc, drawCount_one]
      rw [hput]
      simp only [State.writeRealTv, hdraws, hwrite]
theorem State.writeReal_of_fits {v : XVal} (hf : RealFits s d r v) : s0.writeReal i d r v s = .ok (realPut s d r v) := State.writeRealTv_of_fits hf
theorem State.writeRnd_of_fits (hf : OneFits s d r x) : s0.writeRnd i d r x s = .ok (onePut s d r x) := by
  obtain ⟨-, hf⟩ := hf
  unfold State.writeRnd onePut
  split
  · next hk => rw [if_pos hk] at hf; exact State.writeReal_of_fits hf
  · next hk => rw [if_neg hk] at hf; exact State.writeInt_of_fits hf
theorem State.writeOne_of_fits (hf : OneFits s d .attr x) : s0.writeOne i d x s = .ok (onePut s d .attr x) := State.writeRnd_of_fits hf
theorem State.writeKeep_of_fits (hf : OneFits s d .attr x) : s0.writeKeep i d x s = .ok (onePut s d .attr x) := by
  obtain ⟨-, hf⟩ := hf
  unfold State.writeKeep onePut
  split
  · next hk => rw [if_pos hk] at hf; exact State.writeRealTv_of_fits hf
  · next hk => rw [if_neg hk] at hf; exact State.writeInt_of_fits hf

/-! ### Floating lanes and granules (R140, R145, R179) -/

variable {f : FF} {xs : List XVal} {lr : LaneRule}

theorem flaneTrap_of_isLeft {cs : List (Nat ⊕ Word64)} (h : ∀ c ∈ cs, c.isLeft = true) (k : Nat) : flaneTrap k cs = none := by
  induction cs generalizing k with
  | nil => rfl
  | cons c cs ih =>
    cases c with
    | inl v => exact ih (fun q hq => h q (List.mem_cons_of_mem _ hq)) _
    | inr w => exact absurd (h _ List.mem_cons_self) Bool.false_ne_true
theorem cur_patPut (s : State) (d : NameRef) (p : Nat) : (patPut s d p).cur = s.cur := by
  cases d with
  | cat n => rfl
  | fixed f => cases f <;> rfl
theorem State.quantDone_of_kept {q : QCount} (hq : q.trips s0.myCore.cqthresh = false) :
    s0.quantDone q s = .ok (s.countQ s.cur.coreRef q s0.myCore.cqthresh) := by
  rw [State.quantDone, hq, if_neg Bool.false_ne_true]
theorem State.writeFlanes_of_fits (hq : s0.myCore.cqthresh = s.myCore.cqthresh) (hf : FltFits s d f r lr xs) :
    s0.writeFlanes i d f r lr xs s = .ok (fltPut s d f r lr xs) := by
  unfold State.writeFlanes fltPut
  dsimp only
  split
  · rfl
  · next hd =>
    obtain ⟨hroom, hleft, hrest⟩ := hf.resolve_left hd
    rw [State.drawsFor_of_left hleft]
    dsimp only
    have hput (p : Nat) : s0.putPat i d p (drawn s (drawCount (rmodeOf r (s.ent d)) (lr.mask (s.ent d) xs))) = .ok (patPut _ d p) :=
      State.putPat_of_room (room_drawn hroom _)
    split
    · next hg =>
      rw [if_pos hg] at hrest
      rw [hput]
      have hkept : s0.quantDone (fltGran s d r lr xs).2 (patPut (drawn s (drawCount (rmodeOf r (s.ent d)) (lr.mask (s.ent d) xs))) d (fltGran s d r lr xs).1) = _ :=
        State.quantDone_of_kept (by rw [hq]; exact hrest)
      rw [cur_patPut, cur_drawn, hq] at hkept
      exact hkept
    · next hg =>
      rw [if_neg hg] at hrest
      have htrap := flaneTrap_of_isLeft hrest 0
      unfold fltCodes fltDraws fltFormat at htrap
      rw [htrap]
      exact hput _
end

end Sys2Proof.Machine
end

section
/-! Full/empty operations, seals, fences, tasks, barriers and groups complete (13 R248 to R257, 14 R269 to R278, 15 R291 to R304): their courses under
conditions on the state and the operands alone, and the statement SynchronisationCompletes. -/
namespace Sys2Proof.Machine
open Sys2Proof.Claims

section
variable {s s0 s1 s2 z : State} {i : Instr} {h : Hdr} {d a : NameRef} {x y : Src} {sc : Scope} {f : FeFn} {g k : Nat} {e : TEntry}

/-! ### What the conditions give -/

theorem State.portCheck_of_replyTo (hr : ReplyTo s d) : s0.portCheck d s = .ok () := by
  unfold State.portCheck
  split
  · next dir hd => rw [hr dir hd, if_pos rfl]
  · rfl
theorem State.fenceOf_of_fenced (hf : Fenced s sc) : s0.fenceOf i sc s = .ok () := by
  obtain rfl | rfl | ⟨hport, hclear⟩ := hf
  · rfl
  · rfl
  · unfold State.fenceOf
    rw [hport, hclear]
    split <;> rfl
theorem State.translate_of_mapped {kind : Nat} {w : Bool} {ea : Int} (hm : Mapped s g w e) : s0.translate i kind w ea g s = .ok e := by
  obtain ⟨hport, htlb, hw, hroute, hpeer, hbank⟩ := hm
  have hwrite : (w && !e.w) = false := by
    cases w
    · rfl
    · rw [hw rfl]; rfl
  simp only [State.translate, hport, htlb, hwrite, hroute, hpeer, hbank, if_neg Bool.false_ne_true]
theorem State.stage_of_no_wait (hw : s.me.wait = none) : s.stage = none := by rw [State.stage, hw]

/-- Counting and recording the errors under a read leaves the kernels as they were. -/
theorem State.kernel_of_tiles (ht : z.tiles = s.tiles) (u : ThreadRef) : z.kernel u = s.kernel u := by
  simp only [State.kernel, State.core, State.tile, ht]
theorem State.kernel_countN (s : State) (r : CoreRef) (e : Fin 64) (n : Nat) (u : ThreadRef) : (s.countN r e n).kernel u = s.kernel u := by
  unfold State.countN
  split
  · rfl
  · unfold State.kernel
    by_cases hu : u.coreRef = r
    · rw [hu, State.core_setCore_same]; rfl
    · rw [State.core_setCore_other _ _ hu]
theorem State.tiles_bufError (s : State) (e : Nat × Bool) : (s.bufError e).tiles = s.tiles := by
  unfold State.bufError; split <;> rfl
theorem State.tiles_faultRecord (s : State) (tile kind cause va ctx core h : Nat) : (s.faultRecord tile kind cause va ctx core h).tiles = s.tiles := by
  unfold State.faultRecord; dsimp only; split <;> rfl
theorem State.kernel_found (s : State) (t : ThreadRef) (kind ctx k n : Nat) (u : ThreadRef) : (s.found t kind ctx k n).kernel u = s.kernel u := by
  unfold State.found
  split
  · rfl
  · rw [foldl_keeps (State.kernel · u) fun z e => State.kernel_of_tiles (z.tiles_faultRecord ..) u]
    refine (State.kernel_of_tiles (State.activate_tiles ..) u).trans ?_
    rw [State.kernel_countN, State.kernel_countN, foldl_keeps (State.kernel · u) fun z e => State.kernel_of_tiles (z.tiles_bufError e) u]
    rfl
theorem State.myKernel_found (s : State) (t : ThreadRef) (kind ctx k n : Nat) : (s.found t kind ctx k n).myKernel = s.myKernel := by
  rw [State.myKernel, State.found_cur, State.kernel_found]; rfl

/-! ### Full/empty operations (R213, R258, R269) -/

/-- A word that is ready lets its operation go on (R269). -/
theorem State.feStep_of_ready {put bit : State} {ea : Int} {w : Nat} (hr : WordReady s k f) :
    s0.feStep i h f d ea k w put bit s = .ok (feLeaves i h d k w s0 s put bit f) := by
  obtain ⟨hbit, hahead, hclean⟩ := hr
  have hgoes : (f.waits && (s.feAhead k || !f.goes (s.full k))) = false := by
    rw [hahead]
    cases f
    case ldf => rw [hbit true rfl]; rfl
    case ldk => rw [hbit true rfl]; rfl
    case stf => rw [hbit false rfl]; rfl
    all_goals rfl
  have hpoison : (f.reads && s.poisoned k 8) = false := by
    cases f
    case stf => rfl
    case sto => rfl
    all_goals rw [(hclean.resolve_left (by decide)).resolve_left (by decide)]; rfl
  rw [State.feStep, hgoes, hahead, hpoison, if_neg Bool.false_ne_true, if_neg Bool.false_ne_true, if_neg Bool.false_ne_true]
  cases f
  case stf => rfl
  case sto => rfl
  all_goals
    simp only [FeFn.reads, if_true, State.found_cur, State.myKernel_found]
    rfl

/-- A translation that stands is the one under which an operation waits at its home (R258, R370). -/
theorem State.homeEntry_of_mapped {w : Bool} {e' : TEntry} (hm : Mapped s g w e) (hh : s.homeEntry f g = some e') :
    e' = e ∧ s.blocked s.myKernel.ctx g = false := by
  obtain ⟨-, htlb, -⟩ := hm
  have hplaced : s.placed s.cur.tile s.myKernel.ctx g = some e := by rw [State.placed, htlb]; rfl
  rw [State.homeEntry, hplaced] at hh
  refine ⟨(Option.some.inj (Option.filter_eq_some_iff.1 hh).1).symm, ?_⟩
  unfold State.tlb? at htlb
  refine Bool.eq_false_iff.2 fun hb => ?_
  rw [if_pos (by simpa using hb)] at htlb
  cases htlb
theorem State.homeEntry_of_no_wait (hw : s.me.wait = none) : s.homeEntry f g = none := by
  rw [State.homeEntry, Option.filter_eq_none_iff]
  intro e _ ht
  rw [State.arrivedAt, State.stage_of_no_wait hw] at ht
  exact Bool.false_ne_true (Bool.and_eq_true_iff.1 ht).1

/-- No older store of the core touches the line of an access, which is then ordered at its home (R258). -/
theorem State.atHome_of_clear {pa : Nat} (hf : Fenced s sc)
    (hb : ∀ b ∈ s.myCore.sbuf, b.seq < s.mySeq → b.covers s.myKernel.ctx (64 * (g / 64)) 64 = false ∧ s.scalesIn s.cur.tile b (64 * (pa / 64)) 64 = false)
    (hs : ∀ b ∈ s.myTile.side, b.core = s.cur.core → b.seq < s.mySeq → b.covers s.myKernel.ctx (64 * (g / 64)) 64 = false) :
    s0.atHome i sc g pa s = .ok s := by
  have hbuf : (s.myCore.sbuf.any fun e => decide (e.seq < s.mySeq) &&
      (e.covers s.myKernel.ctx (64 * (g / 64)) 64 || s.scalesIn s.cur.tile e (64 * (pa / 64)) 64)) = false := by
    refine List.any_eq_false.2 fun b hm ht => ?_
    obtain ⟨hlt, hcov⟩ := Bool.and_eq_true_iff.1 ht
    obtain ⟨h1, h2⟩ := hb b hm (of_decide_eq_true hlt)
    rw [h1, h2] at hcov
    exact Bool.false_ne_true hcov
  have hside : (s.myTile.side.any fun e => e.core == s.cur.core && decide (e.seq < s.mySeq) && e.covers s.myKernel.ctx (64 * (g / 64)) 64) = false := by
    refine List.any_eq_false.2 fun b hm ht => ?_
    obtain ⟨hmine, hcov⟩ := Bool.and_eq_true_iff.1 ht
    obtain ⟨hcore, hlt⟩ := Bool.and_eq_true_iff.1 hmine
    rw [hs b hm (beq_iff_eq.1 hcore) (of_decide_eq_true hlt)] at hcov
    exact Bool.false_ne_true hcov
  simp only [State.atHome, hbuf, hside, Bool.or_false, if_neg Bool.false_ne_true, State.fenceOf_of_fenced hf]
  rfl

/-- What a full/empty operation does at a global address once its operands are read and its address is effective. -/
def State.feHome (s : State) (i : Instr) (h : Hdr) (f : FeFn) (d : NameRef) (sc : Scope) (ea : Int) (g v : Nat) (s2 : State) : M State := do
  let (e, s4) ← (match s.homeEntry f g with
    | some e => if s.blocked s.myKernel.ctx g then .error (s.hold i (.retry tagFull (e.pa g)) (some (w64 ea))) else pure (e, s2)
    | none => do
      let e ← s.translate i 2 f.isWrite ea g s2
      let s4 ← s.atHome i sc g (e.pa g) s2
      pure (e, s4))
  let s5 ← s.feStep i h f d ea (e.pa g) (natOfBytes (s4.homeBytes e.key (e.pa g) 8))
    (s4.homeWrite (tileDie s4.cur.tile) (some (s4.writer g 8)) e.key (e.pa g) (bytesOfNat 8 v)) (s4.vaultMark (some (s4.writer g 8)) (e.pa g)) s4
  pure (s5.viaHome (e.pa g) g)
theorem State.feHome_of_ready {ea : Int} {v : Nat} (hhome : s.homeEntry f g = none ∨ s2 = s) (hm : Mapped s2 g (f != .ldf && f != .tst) e)
    (hh : s.atHome i sc g (e.pa g) s2 = .ok s2) (hr : WordReady s2 (e.pa g) f) :
    s.feHome i h f d sc ea g v s2 = .ok ((feLeaves i h d (e.pa g) (natOfBytes (s2.homeBytes e.key (e.pa g) 8)) s s2
      (s2.homeWrite (tileDie s2.cur.tile) (some (s2.writer g 8)) e.key (e.pa g) (bytesOfNat 8 v)) (s2.vaultMark (some (s2.writer g 8)) (e.pa g)) f).viaHome
        (e.pa g) g) := by
  have hwrite : (f != .ldf && f != .tst) = f.isWrite := by cases f <;> rfl
  rw [hwrite] at hm
  unfold State.feHome
  cases hplace : s.homeEntry f g with
  | none => simp only [bind, Except.bind, pure, Except.pure, State.translate_of_mapped hm, hh, State.feStep_of_ready hr]
  | some e' =>
    obtain hnone | rfl := hhome
    · rw [hnone] at hplace; cases hplace
    · obtain ⟨rfl, hb⟩ := State.homeEntry_of_mapped hm hplace
      simp only [bind, Except.bind, pure, Except.pure, hb, if_neg Bool.false_ne_true, State.feStep_of_ready hr]
theorem feM_of_global {o : BitVec 32} (hp : Passes s i h (feSrcs f a d) (feDsts f d)) (hx : s.read i h a s = .ok (x, s1))
    (hd : f = .stf ∨ f = .sto ∨ f = .clr ∨ s.oneDst d = true ∧ s.portCheck d s1 = .ok ())
    (hy : (if f = .stf ∨ f = .sto then s.read i h d s1 else .ok (x, s1)) = .ok (y, s2))
    (hg : s.window s.me (x.val + o.toInt) = .glob g) (hg2 : s2.window s2.me (x.val + o.toInt) = .glob g) (hal : (x.val + o.toInt) % 8 = 0) :
    ∃ v, (f = .stf ∨ f = .sto → v = y.bitsOf 64) ∧ feM s i h f d a o sc = s.feHome i h f d sc (x.val + o.toInt) g v s2 := by
  have heff : s.effective (x.val + o.toInt) 8 = .ok (x.val + o.toInt) := State.effective_of_aligned (by rw [hg]; exact Win.noConfusion) hal
  unfold feSrcs feDsts at hp
  by_cases hs : f = .stf ∨ f = .sto
  · have hsb : (f == .stf || f == .sto) = true := by simpa using hs
    have hnone : f = .stf ∨ f = .sto ∨ f = .clr := hs.elim .inl fun h => .inr (.inl h)
    rw [if_pos hs, if_pos hnone] at hp
    rw [if_pos hs] at hy
    refine ⟨y.bitsOf 64, fun _ => rfl, ?_⟩
    simp only [feM, hsb, Bool.true_or, Bool.not_true, Bool.false_and, if_true, if_neg Bool.false_ne_true, State.issue_of_checks hp rfl, bind, Except.bind,
      pure, Except.pure, hx, hy, heff, hg2]
    rfl
  · have hsb : (f == .stf || f == .sto) = false := by simpa using hs
    rw [if_neg hs] at hp hy
    cases hy
    refine ⟨0, fun hs' => absurd hs' hs, ?_⟩
    by_cases hclr : f = .clr
    · have hcb : (f == .clr) = true := by simpa using hclr
      have hcn : (f != .clr) = false := by simpa using hclr
      rw [if_pos (.inr (.inr hclr))] at hp
      simp only [feM, hsb, hcb, hcn, Bool.or_true, Bool.true_or, Bool.and_false, if_true, if_neg Bool.false_ne_true,
        State.issue_of_checks hp rfl, bind, Except.bind, pure, Except.pure, hx, heff, hg2]
      rfl
    · have hcb : (f == .clr) = false := by simpa using hclr
      have hcn : (f != .clr) = true := by simpa using hclr
      have hwrites : ¬ (f = .stf ∨ f = .sto ∨ f = .clr) := fun hx => (or_assoc.2 hx).elim hs hclr
      obtain ⟨hd, hport⟩ : s.oneDst d = true ∧ s.portCheck d s1 = .ok () := by
        obtain h1 | h1 | h1 | h1 := hd
        · exact absurd (.inl h1) hs
        · exact absurd (.inr h1) hs
        · exact absurd h1 hclr
        · exact h1
      rw [if_neg hwrites] at hp
      simp only [feM, hsb, hcb, hcn, Bool.false_or, Bool.not_false, Bool.true_and, if_neg Bool.false_ne_true,
        State.issue_of_checks hp hd, bind, Except.bind, pure, Except.pure, hx, hport, heff, hg2]
      rfl
/-- The word that is put matters only to the functions that store it. -/
theorem feLeaves_put {w : Nat} {put put' bit : State} (hput : f = .stf ∨ f = .sto → put = put') :
    feLeaves i h d k w s0 s put bit f = feLeaves i h d k w s0 s put' bit f := by
  cases f
  case stf => rw [hput (.inl rfl)]
  case sto => rw [hput (.inr rfl)]
  all_goals rfl

/-- A full/empty operation whose conditions are met leaves what they name (R213, R258, R269). -/
theorem feM_of_runs {o : BitVec 32} {v : Src} (hp : Passes s i h (feSrcs f a d) (feDsts f d)) (hx : s.read i h a s = .ok (x, s1))
    (hy : (if f = .stf ∨ f = .sto then s.read i h d s1 else .ok (x, s1)) = .ok (y, s2)) (hv : f = .stf ∨ f = .sto → y = v)
    (hpops : Pops s s2) (hfree : s.me.wait = none ∨ s2 = s) (hrun : FeRuns s i h d o sc f x v s2 z) : feM s i h f d a o sc = .ok z := by
  obtain ⟨hd, hfence, hrun⟩ := hrun
  have hd : f = .stf ∨ f = .sto ∨ f = .clr ∨ s.oneDst d = true ∧ s.portCheck d s1 = .ok () := by
    by_cases hs : f = .stf ∨ f = .sto
    · exact hs.elim .inl fun h => .inr (.inl h)
    · rw [if_neg hs] at hy
      cases hy
      exact hd.imp_right (Or.imp_right (Or.imp_right fun hd => ⟨hd.1, State.portCheck_of_replyTo hd.2⟩))
  obtain ⟨l, k, hl, rfl, hb, hr, rfl⟩ | ⟨g, e, pa, hg, hal, hm, rfl, hbuf, hside, hr, rfl⟩ := hrun
  · have hboard : (if f.isWrite then s2.boardAny s2.cur.tile l 8 else s2.boardW s2.cur.tile l 8) = false := by
      rw [hb, State.boardW_of_boardAny hb, ite_self]
    obtain ⟨b, hbits, hcourse⟩ := feM_of_local hp hd hx hy hl (State.fenceOf_of_fenced hfence) hboard
    rw [hcourse, State.feStep_of_ready hr]
    exact congrArg Except.ok (feLeaves_put fun hs => by rw [hbits hs, hv hs])
  · have hhome : s.homeEntry f g = none ∨ s2 = s := hfree.imp_left State.homeEntry_of_no_wait
    obtain ⟨b, hbits, hcourse⟩ := feM_of_global (sc := sc) hp hx hd hy (by rw [← hpops.window]; exact hg) hg hal
    rw [hcourse, State.feHome_of_ready hhome hm (State.atHome_of_clear hfence hbuf hside) hr]
    exact congrArg (fun y => Except.ok (State.viaHome y (e.pa g) g)) (feLeaves_put fun hs => by rw [hbits hs, hv hs])

/-- The current thread is `c`, and waits for nothing but a reply. -/
def Released (c : ThreadRef) (z : State) : Prop := z.cur = c ∧ ∀ w, z.me.wait = some w → w.why = .reply

variable {c : ThreadRef}
theorem released_done (hc : z.cur = c) : Released c (z.done h) := by
  refine ⟨hc, fun w hw => ?_⟩
  rw [State.me_done] at hw
  cases hw
theorem State.me_await (s0 : State) (h : Hdr) (i : Instr) (d : NameRef) (v : ReplyVal) (z : State) : (s0.await h i d v z).me =
    z.me.behind (Hdr.len h) { s0.newWait i .reply with pc := z.me.pc, since := z.cycle, took := s0.tookOf i } := by
  refine (State.thread_setCore (z.setMe _) _ _ ?_ _).trans (State.me_setMe ..)
  rfl
theorem released_await {v : ReplyVal} (hc : z.cur = c) : Released c (s0.await h i d v z) := by
  refine ⟨hc, fun w hw => ?_⟩
  rw [State.me_await] at hw
  cases hw; rfl
theorem released_undoing {l : List Undo} (hr : Released c z) : Released c (z.undoing l) := by
  refine ⟨hr.1, fun w hw => ?_⟩
  rw [State.undoing, State.me_setMe] at hw
  obtain ⟨v, hv, rfl⟩ := Option.map_eq_some_iff.1 hw
  exact hr.2 v hv
theorem released_viaHome {pa : Nat} (hr : Released c z) : Released c (z.viaHome pa g) := by
  refine ⟨hr.1, fun w hw => hr.2 w ?_⟩
  have hme : (z.viaHome pa g).me = z.me := State.thread_setCore z _ _ (by rfl) _
  rwa [hme] at hw
theorem State.cur_homeWrite (s : State) (die : Nat) (who : Option Writer) (key pa : Nat) (bs : List Byte) : (s.homeWrite die who key pa bs).cur = s.cur := by
  have hput : (s.homePut key pa bs).cur = s.cur := by unfold State.homePut; split <;> rfl
  exact hput
theorem released_feLeaves {w : Nat} {put bit : State} (hc : s.cur = c) (hput : put.cur = c) (hbit : bit.cur = c) :
    Released c (feLeaves i h d k w s0 s put bit f) := by
  cases f
  case ldf => exact released_await (by rw [State.found_cur]; exact hc)
  case ldk => exact released_undoing (released_await (by rw [State.setFull, State.found_cur]; exact hbit))
  case stf => exact released_done (by rw [State.setFull]; exact hput)
  case sto => exact released_done (by rw [State.setFull]; exact hput)
  case clr => exact released_done (by rw [State.setFull, State.found_cur]; exact hbit)
  case tst => exact released_await (by rw [State.found_cur]; exact hc)
theorem released_of_runs {o : BitVec 32} {v : Src} (hrun : FeRuns s i h d o sc f x v s z) : Released s.cur z := by
  obtain ⟨-, -, ⟨l, k, -, -, -, -, rfl⟩ | ⟨g, e, pa, -, -, -, -, -, -, -, rfl⟩⟩ := hrun
  · exact released_feLeaves rfl rfl rfl
  · exact released_viaHome (released_feLeaves rfl (State.cur_homeWrite ..) rfl)


/-- A kind of integers is neither floating nor a granule. -/
theorem Kind.of_isInt {k : Kind} (hk : k.isInt = true) : k.isFloat = false ∧ k.isGran = false := by
  revert hk
  cases k <;> decide

/-! ### Operands that are no ports -/

/-- A source that is no port is read with the state as it was. -/
theorem State.read_plain {n : NameRef} (hn : n ≠ .fixed .portEng ∧ portDir n = none) : s.read i h n s = .ok (srcOf s h n, s) := by
  have hr : Readable s s [n] := by
    refine ⟨.inr ⟨fun he => absurd he hn.1, fun dir hd => ?_, fun he => ?_⟩, trivial⟩
    · rw [hn.2] at hd; cases hd
    · obtain he | he := he
      · exact absurd he hn.1
      · rw [hn.2] at he; cases he
  rw [State.read_first hr, popped_plain hn]

/-! ### Seals (R256, R257) -/

/-- An acquire whose seal word is mapped (R256, R272). -/
theorem acqM_of_mapped (hp : Passes s i h [a] [d]) (hd : s.oneDst d = true) (hx : s.read i h a s = .ok (x, s1)) (hr : ReplyTo s1 d)
    (hk : x.val = (k : Int)) (hlt : k < 1024) (hg : s1.globWin (s1.sealAddr k) = .glob g) (hc : s1.poisoned (e.pa g) 8 = false)
    (hm : Mapped s1 g false e) (hz : z = s1.found s1.cur 0 s1.myKernel.ctx (e.pa g) 8) :
    acqM s i h d a sc = .ok ((s.await h i d (.int (natOfBytes (s1.homeBytes e.key (e.pa g) 8)))
      (if sc = .dev ∨ sc = .sys ∨ sc = .recov then
        (z.sealRanges z.myKernel.ctx k).foldl (fun t b => t.dropReflections (· == tileDie z.cur.tile) z.myKernel.ctx b.start b.len) z
        else z)).readsAt g 8) := by
  have hrange : ¬ (x.val < 0 ∨ x.val > 1023) := by omega
  have hkn : x.val.toNat = k := by omega
  subst hz
  simp only [acqM, State.issue_of_checks hp hd, bind, Except.bind, pure, Except.pure, hx, if_neg hrange, State.portCheck_of_replyTo hr, hkn, hg,
    State.translate_of_mapped hm, hc, if_neg Bool.false_ne_true, State.myKernel_found]
end

end Sys2Proof.Machine

namespace Sys2Proof.Proofs
open Sys2Proof.Machine Sys2Proof.Claims

theorem fullEmptyCompletes : FullEmptyCompletes := by
  refine fun s i h d a o sc f hi => ⟨fun z hs hrun => ?issues, fun w k z hw hwhy hinstr _ _ hf hp hplain hrun => ?waited⟩
  case issues =>
    obtain ⟨hw, hp, hr⟩ := hs
    rw [exec_fullEmpty hi]
    refine congrArg finish (?_ : _ = .ok z)
    by_cases hst : f = .stf ∨ f = .sto
    · have hsrc : feSrcs f a d = [a, d] := if_pos hst
      rw [hsrc] at hrun hr
      exact feM_of_runs hp (State.read_first hr) (by rw [if_pos hst]; exact State.read_second hr) (fun _ => rfl) (readSt_pops [a, d] s) (.inl hw) hrun
    · have hsrc : feSrcs f a d = [a] := if_neg hst
      rw [hsrc] at hrun hr
      exact feM_of_runs hp (State.read_first hr) (if_neg hst) (fun hs => absurd hs hst) (readSt_pops [a] s) (.inl hw) hrun
  case waited =>
    have hcourse : feM s i h f d a o sc = .ok z := by
      by_cases hst : f = .stf ∨ f = .sto
      · have hsrc : feSrcs f a d = [a, d] := if_pos hst
        rw [hsrc] at hplain
        exact feM_of_runs hp (State.read_plain (hplain a (by simp))) (by rw [if_pos hst]; exact State.read_plain (hplain d (by simp))) (fun _ => rfl)
          (.refl s) (.inr rfl) hrun
      · have hsrc : feSrcs f a d = [a] := if_neg hst
        rw [hsrc] at hplain
        exact feM_of_runs hp (State.read_plain (hplain a (by simp))) (if_neg hst) (fun hs => absurd hs hst) (.refl s) (.inr rfl) hrun
    have hexec : exec i s = .next z := (exec_fullEmpty hi s).trans (congrArg finish hcourse)
    obtain ⟨hcur, hreply⟩ := released_of_runs hrun
    subst hinstr
    exact execFeWaitSatisfied_of_next hw hwhy hi hf hexec (fun v hv => by rw [hreply v hv]; rfl) hcur

theorem sealsComplete : SealsComplete := by
  refine fun s h d a sc => ⟨fun s2 x y c b h2 hx hy hport hc hw hbound hb => ⟨fun hs hn ho hl => ?add, fun hs hin => ?remove⟩,
    fun s1 k g e h1 hd hrep hk hlt hg hc => ⟨fun z hs hm hz => ?acquire, fun y v z hs hm hf hy hv hz hdur => ?release⟩, fun hs hf => ?fence⟩
  all_goals obtain ⟨hwait, hp, hr⟩ := hs
  case add =>
    subst h2 hx hy hb
    have hm := bindM_of_read (add := true) hp (State.read_first hr) (State.read_second hr) hport hc hw hbound
    refine congrArg finish (hm.trans ?_ : bindM s _ h d a true = .ok _)
    simp only [if_true, addBind_of_new hn ho hl]; rfl
  case remove =>
    subst h2 hx hy hb
    have hm := bindM_of_read (add := false) hp (State.read_first hr) (State.read_second hr) hport hc hw hbound
    refine congrArg finish (hm.trans ?_ : bindM s _ h d a false = .ok _)
    simp only [if_neg Bool.false_ne_true, hin, if_true]; rfl
  case acquire =>
    subst h1
    exact congrArg finish (acqM_of_mapped hp hd (State.read_first hr) hrep hk hlt hg hc hm hz)
  case release =>
    subst h1
    obtain ⟨-, -, hrel⟩ := seals s h d a sc _ _ k g e hd hk hlt (State.portCheck_of_replyTo hrep) hg hc
    exact hrel y v z hp (State.stage_of_no_wait hwait) (State.read_first hr) (State.translate_of_mapped hm) hf hy hv hz hdur
  case fence =>
    refine congrArg finish (?_ : fenceM s _ h sc = .ok _)
    simp only [fenceM, State.issue_of_passes hp, bind, Except.bind, State.fenceOf_of_fenced hf]; rfl

theorem tasksComplete : TasksComplete := by
  refine fun s h a b d => ⟨fun s2 x y hs h2 hx hy ht ho hb hl => ?spawn, fun hd => ⟨fun q k hs ho hb hq => ?pop, fun hs ho => ?popOther, fun hs => ?steal, fun hs => ?park,
    fun hs hfit => ?done⟩, fun hs => ?tour⟩
  all_goals obtain ⟨-, hp, hr⟩ := hs
  case spawn =>
    subst h2 hx hy
    refine congrArg finish ((spawnM_of_read hp (State.read_first hr) (State.read_second hr) ht ho).trans ?_ : spawnM s h a b = .ok _)
    have hb : (popped (popped s a) b).myCore.dqBusy (popped (popped s a) b).cycle = false := hb
    have hl : (popped (popped s a) b).myCore.dq.length < 32 := hl
    rw [hb, if_neg Bool.false_ne_true, if_pos hl]; rfl
  case pop => exact ((dequeOfTasks s h a b d).2 hp hd).2.1 q k ho hb hq
  case popOther =>
    refine congrArg finish (?_ : popM s h d = .ok _)
    simp only [popM, State.issue_of_checks hp hd, bind, Except.bind, if_pos ho]; rfl
  case steal =>
    split
    · next hv => exact (taskWaits s h d hd).2.1 hp ((State.victims_stealOrder_eq_nil ..).1 hv)
    · next hv =>
      obtain ⟨z, hrun, hst, hpc, -, hsteal⟩ := (taskWaits s h d hd).1 hp fun hn => hv ((State.victims_stealOrder_eq_nil ..).2 hn)
      exact ⟨z, hrun, hst, hpc, hsteal⟩
  case park =>
    obtain ⟨z, hrun, hst, hpc, -, hmem⟩ := (taskWaits s h d hd).2.2.1 hp
    exact ⟨z, hrun, hst, hpc, hmem⟩
  case done => exact (taskWaits s h d hd).2.2.2.2 _ hp (State.writeInt_of_fits hfit)
  case tour =>
    refine congrArg finish (?_ : tourM s h = .ok _)
    simp only [tourM, State.issue_of_passes hp, bind, Except.bind]
    cases s.tour? s.myKernel.gang s.myKernel.pos <;> rfl

theorem barriersComplete : BarriersComplete := by
  refine fun s h d a lv hb => ⟨fun q hs hq ha hfit => ?arrive, fun i q hi hst hdone => ?behind, fun s1 hs h1 hdone => ?wait, fun s1 hs h1 => ?flags⟩
  case arrive =>
    obtain ⟨hw, hp, -⟩ := hs
    refine congrArg finish (arriveM_of_first ?_ hp hb hfit.1 hq ha (State.writeKeep_of_fits hfit))
    rw [State.stage_of_no_wait hw]; exact nofun
  case behind =>
    have hphase (j : Instr) : s.waitPhase j h lv (BitVec.ofNat 32 q) s = .ok (s.done h) := by rw [State.waitPhase, hdone, if_pos rfl]
    obtain rfl | rfl := hi
    · refine congrArg finish (?_ : arriveM s _ h d lv true = .ok _)
      simp only [arriveM, hst, hphase]
    · refine congrArg finish (?_ : barStatM s h a lv = .ok _)
      simp only [barStatM, hst, hphase]
  case wait =>
    subst h1
    obtain ⟨-, hp, hr⟩ := hs
    refine congrArg finish (?_ : barWaitM s h a lv = .ok _)
    have hdone : phaseDone ((popped s a).barP (popped s a).cur.tile lv) (BitVec.ofInt 32 (srcOf s h a).val) = true := hdone
    simp only [barWaitM, State.issue_of_checks hp hb, bind, Except.bind, State.read_first hr, hdone, if_true]; rfl
  case flags =>
    subst h1
    obtain ⟨-, hp, hr⟩ := hs
    have hsmp : (!s.sampling s.cur) = true := (Bool.and_eq_true_iff.1 hb).2
    refine congrArg finish (?_ : barDoneM s h a = .ok _)
    simp only [barDoneM, State.issue_of_checks hp hsmp, bind, Except.bind, State.read_first hr]; rfl

theorem groupsComplete : GroupsComplete := by
  refine fun s h d a s1 x hv h1 hx => ⟨fun gid k q tmo hs hval hg hq hqk hk ht hfree => ?opens, fun gid hval hg => ⟨fun o ho hop => ⟨fun hs hst hk hrs hgm hbad hu hint hfit => ?forks,
    fun hs hst hc hm => ?closes, fun hs hst => ?cancels⟩, fun hs hfit => ?asks, fun hm hgm hpost hdone => ⟨fun v t hs hvv ht => ?waits, fun t hs hk hfit ht => ?waitsFf⟩⟩,
    fun o v hs hk ho hm hpost hround hfin hb hq => ?rewards⟩
  all_goals
    subst h1 hx
    obtain ⟨-, hp, hr⟩ := hs
  case opens => exact congrArg finish (openM_of_free hv hp (State.read_first hr) hval hg hq hqk hk ht hfree)
  case forks =>
    have hfloat : ((readSt s [a]).ent d).kind.isFloat = false := (Kind.of_isInt hint).1
    have hd : s.oneDst d = true := by rw [State.oneDst, ← (readSt_pops [a] s).ent, (Kind.of_isInt hint).2]; rfl
    have hindex : indexVal d ((readSt s [a]).ent d) (([] : List Nat).getD 0 0) 0 = .int 0 := by rw [indexVal, hfloat, Bool.and_false]; rfl
    refine congrArg finish (forkM_of_one (s2 := readSt s [a]) (ds := []) hv hd hp (State.read_first hr) hval hg ho hop hst hk hrs hgm hu hbad (fun hcat hmode => ?_) ?_ ?_)
    · have hsome := hfit.2 hcat
      have hmode : ((readSt s [a]).ent d).mode = .trap := hmode
      rw [hmode] at hsome
      change NameEnt.holds ((readSt s [a]).ent d) 0 = true
      rw [NameEnt.holds, hfloat, if_neg Bool.false_ne_true]
      refine Bool.of_not_eq_false fun hout => ?_
      have hnone : r69 ((readSt s [a]).ent d).kind ((readSt s [a]).ent d).width .trap 0 = none := r69_trap hout
      rw [hnone] at hsome
      cases hsome
    · change s.draws (if isCat d && ((readSt s [a]).ent d).kind.isFloat && _ then 1 else 0) (readSt s [a]) = _
      rw [hfloat, Bool.and_false]; rfl
    · change s.writeIndex _ d (indexVal d ((readSt s [a]).ent d) _ 0) (readSt s [a]) = _
      rw [hindex]
      exact State.writeInt_of_fits hfit
  case closes => exact congrArg finish (closeM_of_empty hv hval hg ho hop hp (State.read_first hr) hst hc hm)
  case cancels => exact congrArg finish (cancelM_of_opened hv hval hg ho hop hp (State.read_first hr) hst)
  case asks =>
    have hd : s.oneDst d = true := by rw [State.oneDst, ← (readSt_pops [a] s).ent]; exact hfit.1
    exact congrArg finish (statM_of_read hv hval hg hd hp (State.read_first hr) (State.writeOne_of_fits hfit))
  case waits =>
    refine congrArg finish (?_ : grpWaitM s _ h d a false = .ok _)
    obtain ⟨rfl, rfl⟩ | ⟨hk, hfit, rfl⟩ := ht
    · exact grpWaitM_of_done hv hval hg hm hgm hpost hdone hp rfl (State.read_first hr) rfl
    · refine grpWaitM_of_done hv hval hg hm hgm hpost hdone hp ?_ (State.read_first hr) ?_
      · rw [State.waitKind, if_neg Bool.false_ne_true, hk, Bool.or_true]
      · subst hvv
        exact State.writeReal_of_fits hfit
  case waitsFf =>
    subst ht
    refine congrArg finish (grpWaitM_of_done hv hval hg hm hgm hpost hdone hp ?_ (State.read_first hr) (State.writeInt_of_fits hfit) : grpWaitM s _ h d a true = .ok _)
    rw [State.waitKind, if_pos rfl, hk, Bool.or_true]
  case rewards => exact congrArg finish (rewardM_of_first hv hp (State.read_first hr) hk ho hm hpost hround.symm hfin hb rfl hq)

/-- Settles O58: each instruction's course, its operands read and its results written under the conditions of the statement. -/
theorem synchronisationCompletes : Obligations.SynchronisationCompletes :=
  ⟨fullEmptyCompletes, sealsComplete, tasksComplete, barriersComplete, groupsComplete⟩

end Sys2Proof.Proofs
end

section
/-! Steps of the machine complete (04 R70, R77, 12 R229 to R235, 13 R252 to R261, 14 R277, 15 R295): the statement MachineStepsComplete. -/
namespace Sys2Proof.Machine
open Sys2Proof.Claims

section
variable {s z : State} {k : CoreRef} {t : ThreadRef}

/-! ### Replies and stores (R70, R252) -/

/-- A reply for a kernel that the core's repack holds waits with the repack. -/
theorem execAsyncWrite_of_held {p : Reply} {rest : List Reply} {q : Repack} {o : Kernel} (hp : (s.core k).replies = p :: rest)
    (hq : (s.core k).repack = some q) (ho : (s.core k).kernelOf p.h = some o) (he : o.sb = q.sb) :
    execAsyncWrite k s = .next (s.setCore k { s.core k with replies := rest, repack := some { q with held := q.held ++ [p] } }) := by
  have hsb : (q.sb == o.sb) = true := by rw [he]; exact beq_self_eq_true _
  simp only [execAsyncWrite, hq, hp, List.find?_cons, ho, hsb, List.erase_cons_head]

/-- What landing a reply leaves, as ASYNC_WRITE takes the reply off its core. -/
theorem State.deliver_name {p : Reply} {n : BitVec 9} {x : Int} {o : Bool} (ht : t = ⟨k.tile, k.core, p.h⟩) (hd : p.dest = .cat n)
    (hv : p.val = if o then .old x else .int x) :
    s.deliver k p = some (({ ({ s with cur := t } : State).landAs t n x o with cur := s.cur } : State).wakeReply t p.wake) := by
  subst ht
  cases o <;> simp only [State.deliver, hd, hv, if_neg Bool.false_ne_true, if_true] <;> rfl
theorem State.deliver_pattern {p : Reply} {n : BitVec 9} {q : Pat} (ht : t = ⟨k.tile, k.core, p.h⟩) (hd : p.dest = .cat n) (hv : p.val = .pat q) :
    s.deliver k p = some (({ ({ s with cur := t } : State).putName n (BitVec.ofNat 528 (q.toNat % 2 ^ (entOf (s.kernel t) p.dest).width)) with
      cur := s.cur } : State).wakeReply t p.wake) := by
  subst ht
  simp only [State.deliver, hd, hv]
theorem State.deliver_discarded {p : Reply} (ht : t = ⟨k.tile, k.core, p.h⟩) (hd : discards p.dest = true) :
    s.deliver k p = some (s.wakeReply t p.wake) := by
  subst ht
  cases hdest : p.dest with
  | cat n => rw [hdest] at hd; cases hd
  | fixed f => cases f <;> first | (rw [hdest] at hd; cases hd; done) | (simp only [State.deliver, hdest]; rfl)

/-- The store buffer of a core, the side log of its tile, and memory. -/
def State.storesAt (s : State) (k : CoreRef) : List StoreEntry × List SideEntry × List Host.Cell :=
  ((s.core k).sbuf, (s.tile k.tile).side, s.mem)
theorem State.storesAt_countN (s : State) (k : CoreRef) (e : Fin 64) (n : Nat) : (s.countN k e n).storesAt k = s.storesAt k := by
  unfold State.countN
  split
  · rfl
  · have hside : ((s.setCore k { s.core k with cevt := (s.core k).cevt.set e (satInc (s.core k).cevt[e] n) }).tile k.tile).side = (s.tile k.tile).side := by
      rw [State.setCore, State.tile_setTile_same]
    rw [State.storesAt, State.core_setCore_same, hside]; rfl
theorem State.storesAt_setTile {x : Tile} (hs : x.side = (s.tile k.tile).side) (hc : x.cores = (s.tile k.tile).cores) :
    (s.setTile k.tile x).storesAt k = s.storesAt k := by
  have hcore : (s.setTile k.tile x).core k = s.core k := by rw [State.core, State.tile_setTile_same, hc]; rfl
  rw [State.storesAt, hcore, State.tile_setTile_same, hs]; rfl
/-- A store's miss goes to its tile's list of misses, and touches no store. -/
theorem State.storesAt_storeMiss (s : State) (k : CoreRef) (kind ctx a : Nat) : (s.storeMiss kind k.tile k.core ctx a).storesAt k = s.storesAt k := by
  unfold State.storeMiss State.sendMiss
  dsimp only
  split
  · exact State.storesAt_setTile rfl rfl
  · exact (State.storesAt_countN _ k 1 1).trans (State.storesAt_setTile rfl rfl)

/-- The oldest entry of a store buffer, in the side log. -/
def State.moved (s : State) (k : CoreRef) (e : StoreEntry) (rest : List StoreEntry) : State :=
  let s1 := s.setCore k { s.core k with sbuf := rest }
  ((s1.setTile k.tile { s1.tile k.tile with
    side := (s1.tile k.tile).side ++ [⟨e.seq, k.core, e.h, e.ctx, e.addr, e.home, .store e.bytes e.form, e.lid, e.since⟩] }).count k 3)
theorem State.side_setCore (s : State) (k : CoreRef) (c : Core) : ((s.setCore k c).tile k.tile).side = (s.tile k.tile).side := by
  rw [State.setCore, State.tile_setTile_same]
theorem State.storesAt_moved (s : State) (k : CoreRef) (e : StoreEntry) (rest : List StoreEntry) : (s.moved k e rest).storesAt k =
    (rest, (s.tile k.tile).side ++ [⟨e.seq, k.core, e.h, e.ctx, e.addr, e.home, .store e.bytes e.form, e.lid, e.since⟩], s.mem) := by
  unfold State.moved
  refine (State.storesAt_countN ..).trans ?_
  rw [State.storesAt, State.tile_setTile_same]
  dsimp only
  rw [State.side_setCore, State.core, State.tile_setTile_same]
  have hcore : (s.setCore k { s.core k with sbuf := rest }).core k = { s.core k with sbuf := rest } := State.core_setCore_same ..
  exact congrArg (fun c : Core => (c.sbuf, _, s.mem)) hcore
/-- An entry whose page has no translation moves to the side log, with a miss sent (R252, R363). -/
theorem execStoreEntryPerform_of_miss {e : StoreEntry} {rest : List StoreEntry} (hb : (s.core k).sbuf = e :: rest)
    (hs : s.sideHas k.tile e.ctx e.addr = false) (ht : s.tlb? k.tile e.ctx e.addr = none) (hf : s.blocked e.ctx e.addr = false)
    (hl : (s.tile k.tile).side.length < 64) :
    execStoreEntryPerform k 0 s = .next ((s.moved k e rest).storeMiss 1 k.tile k.core e.ctx e.addr) := by
  have hnext : (s.core k).sbuf[0]? = some e := by rw [hb]; rfl
  have hmay : s.sbufMay k.tile ((s.core k).sbuf.take 0) e = true := rfl
  have herase : (s.core k).sbuf.eraseIdx 0 = rest := by rw [hb]; rfl
  have hroom : (s.blocked e.ctx e.addr || decide (((s.setCore k { s.core k with sbuf := rest }).tile k.tile).side.length ≥ 64)) = false := by
    rw [hf, State.side_setCore, Bool.false_or, decide_eq_false_iff_not]; omega
  simp only [execStoreEntryPerform, hnext, hmay, herase, ht, hs, hroom, Bool.not_true, Option.isNone_none, Option.isSome_none, Bool.true_or, Bool.false_or,
    if_neg Bool.false_ne_true, if_true]
  rfl

/-- A vault write that no older one of its bytes and no fence holds back becomes durable (R261). -/
theorem execVaultWriteDurable_of_free {b j : Nat} {v : VaultWrite} (hv : (s.vwrites.filter fun x => x.buf == b)[j]? = some v)
    (ho : ∀ o ∈ (s.vwrites.filter fun x => x.buf == b).take j, o.addr + o.old.length ≤ v.addr ∨ v.addr + v.old.length ≤ o.addr)
    (hf : s.fencedOff v = false) : execVaultWriteDurable b j s = .next { s with vwrites := s.vwrites.erase v } := by
  have hapart : (((s.vwrites.filter fun x => x.buf == b).take j).any fun o =>
      decide (o.addr < v.addr + v.old.length) && decide (v.addr < o.addr + o.old.length)) = false := by
    refine List.any_eq_false.2 fun o hm h => ?_
    obtain ⟨h1, h2⟩ := Bool.and_eq_true_iff.1 h
    have := ho o hm
    have := of_decide_eq_true h1
    have := of_decide_eq_true h2
    omega
  simp only [execVaultWriteDurable, hv, hapart, hf, if_neg Bool.false_ne_true]

/-! ### Steals (R230) -/

/-- A request of a kernel that the deque does not serve is answered with none. -/
theorem execStealRequest_of_none {m : StealMsg} (hm : (s.core k).stealMsgs = [m]) (hr : m.reply = false) (ha : m.arrive ≤ s.cycle)
    (hb : (s.core k).dqUsed ≤ s.cycle) (hv : s.mayServe k m.thief = false) (hne : m.thief.coreRef ≠ k) :
    ∃ z, execStealRequest k s = .next z ∧ (z.core k).dq = (s.core k).dq ∧
      (z.core m.thief.coreRef).stealMsgs = (s.core m.thief.coreRef).stealMsgs ++ [⟨m.thief, m.dir, s.cycle + 4, none, true⟩] := by
  have hready : (s.core k).stealMsgs.filter (fun m => !m.reply && decide (m.arrive ≤ s.cycle)) = [m] := by
    rw [hm]; simp [hr, ha]
  have hc := Core.dqBusy_of_le hb
  let s1 := s.setCore k { s.core k with stealMsgs := (s.core k).stealMsgs.erase m, dqUsed := s.cycle + 1 }
  have hcore : s1.core k = { s.core k with stealMsgs := (s.core k).stealMsgs.erase m, dqUsed := s.cycle + 1 } := State.core_setCore_same ..
  have hthief : s1.core m.thief.coreRef = s.core m.thief.coreRef := State.core_setCore_other _ _ hne
  refine ⟨s1.setCore m.thief.coreRef { s1.core m.thief.coreRef with
    stealMsgs := (s1.core m.thief.coreRef).stealMsgs ++ [⟨m.thief, m.dir, s.cycle + 4, none, true⟩] }, ?_, ?_, ?_⟩
  · simp only [execStealRequest, hready, List.foldl_nil, hc, hv, if_neg Bool.false_ne_true]
    rfl
  · rw [State.core_setCore_other _ _ (Ne.symm hne), hcore]
  · rw [State.core_setCore_same, hthief]

/-! ### The finish message of a tour (R235) -/

theorem State.gang?_modTour {g pos : Nat} {f : Tour → Tour} : (s.modTour g pos f).gang? g =
    (s.gang? g).map fun x => { x with tours := x.tours.map fun t => if t.pos = pos then f t else t } := by
  unfold State.gang? State.modTour State.modGang
  dsimp only
  induction s.gangs with
  | nil => rfl
  | cons x l ih =>
    by_cases hx : 64 * x.die + x.slot = g
    · simp [hx]
    · simpa [hx] using ih
/-- The tours at a core of a gang's tile. -/
theorem State.toursAt_eq {g : Nat} {x : Gang} (hg : (s.tile k.tile).gang = some g) (hx : s.gang? g = some x) :
    s.toursAt k = x.tours.filterMap fun t => ((s.core k).kernelAt t.pos g).map fun k => (g, x, t, k) := by
  simp only [State.toursAt, hg, Option.bind_some, hx, Option.map_some]
theorem State.gang_of_toursAt {g : Nat} {x : Gang} {u : Tour} {kn : Kernel} (ht : s.toursAt k = [(g, x, u, kn)]) :
    (s.tile k.tile).gang = some g ∧ s.gang? g = some x := by
  cases hg : (s.tile k.tile).gang with
  | none => simp only [State.toursAt, hg, Option.bind_none] at ht; cases ht
  | some g' =>
    cases hx : s.gang? g' with
    | none => simp only [State.toursAt, hg, Option.bind_some, hx, Option.map_none] at ht; cases ht
    | some x' =>
      have hin : (g, x, u, kn) ∈ s.toursAt k := by rw [ht]; exact List.mem_cons_self
      rw [State.toursAt_eq hg hx] at hin
      obtain ⟨u', -, hu⟩ := List.mem_filterMap.1 hin
      obtain ⟨k', -, hk⟩ := Option.map_eq_some_iff.1 hu
      cases hk
      exact ⟨rfl, hx⟩
/-- What the finish fields of the tours at a core read as after one of the gang's tours has changed. -/
theorem State.finish_modTour {g : Nat} {x : Gang} {u : Tour} {kn : Kernel} {f : Tour → Tour} (hf : ∀ v, (f v).pos = v.pos)
    (ht : s.toursAt k = [(g, x, u, kn)]) : ((s.modTour g u.pos f).toursAt k).map (fun p => p.2.2.1.finish) = [(f u).finish] := by
  obtain ⟨hg, hx⟩ := State.gang_of_toursAt ht
  have hx' := s.gang?_modTour (g := g) (pos := u.pos) (f := f)
  rw [hx] at hx'
  have hpos (v : Tour) : (if v.pos = u.pos then f v else v).pos = v.pos := by split <;> simp [hf]
  have hcore : (s.modTour g u.pos f).core k = s.core k := rfl
  have hall : ((s.modTour g u.pos f).toursAt k).map (fun p => p.2.2.1.finish) =
      (s.toursAt k).map fun p => (if p.2.2.1.pos = u.pos then f p.2.2.1 else p.2.2.1).finish := by
    rw [State.toursAt_eq (s := s.modTour g u.pos f) hg hx', State.toursAt_eq hg hx, hcore]
    simp only [List.filterMap_map, List.map_filterMap, Function.comp_def, hpos, Option.map_map]
  rw [hall, ht]
  simp
/-- Waking a kernel's parked threads changes threads alone. -/
theorem State.toursAt_wakeParked (s : State) (r : CoreRef) (h : Fin 8) (k : CoreRef) : (State.wakeParked r s h).toursAt k = s.toursAt k := by
  have hset (x : Thread) : (s.setThread ⟨r.tile, r.core, h⟩ x).toursAt k = s.toursAt k := by
    have hgang : ((s.setThread ⟨r.tile, r.core, h⟩ x).tile k.tile).gang = (s.tile k.tile).gang := s.gang_setCore ..
    have hfind (g : Nat) : (s.setThread ⟨r.tile, r.core, h⟩ x).gang? g = s.gang? g := rfl
    have hkern : ((s.setThread ⟨r.tile, r.core, h⟩ x).core k).kernels = (s.core k).kernels := by
      unfold State.setThread
      by_cases hk : k = ThreadRef.coreRef ⟨r.tile, r.core, h⟩
      · rw [hk, State.core_setCore_same]
      · rw [State.core_setCore_other _ _ hk]
    simp only [State.toursAt, hgang, hfind, Core.kernelAt, hkern]
  unfold State.wakeParked
  dsimp only
  split
  · split
    · split
      · exact hset _
      · rfl
    · rfl
  · rfl
end

end Sys2Proof.Machine

namespace Sys2Proof.Proofs
open Sys2Proof.Machine Sys2Proof.Claims

theorem memoryStepsComplete : MemoryStepsComplete := by
  refine fun s k => ⟨fun p rest t y hp hr ht hy z hz => ?lands, fun p rest q o hp hq ho he => execAsyncWrite_of_held hp hq ho he,
    fun e rest hb hs => ⟨fun te ht hw hr hpeer hbank hf => execStoreEntryPerform_of_oldest hb ht hs hw hr hpeer hbank hf, fun ht hf hl => ?misses⟩,
    fun die l h => if_pos h, fun b j v l hl hv ho hf => ?durable⟩
  case lands =>
    subst hz
    refine execAsyncWrite_of_oldest hp hr ?_
    obtain ⟨n, x, o, hd, hv, rfl⟩ | ⟨n, q, hd, hv, rfl⟩ | ⟨hd, rfl⟩ := hy
    · exact State.deliver_name ht hd hv
    · exact State.deliver_pattern ht hd hv
    · exact State.deliver_discarded ht hd
  case misses =>
    have hstores := (State.storesAt_storeMiss (s.moved k e rest) k 1 e.ctx e.addr).trans (s.storesAt_moved k e rest)
    obtain ⟨hsbuf, hrest⟩ := Prod.mk.inj hstores
    obtain ⟨hside, hmem⟩ := Prod.mk.inj hrest
    exact ⟨_, execStoreEntryPerform_of_miss hb hs ht hf hl, hsbuf, hmem, hside⟩
  case durable =>
    subst hl
    exact execVaultWriteDurable_of_free hv ho hf

theorem stealsComplete : StealsComplete := by
  refine fun s k t => ⟨fun m hm hr ha hb hne => ⟨fun r q hv hs hq => ?record, fun hv => execStealRequest_of_none hm hr ha hb hv hne⟩,
    fun m w l d pc n z hm hr hth ha hk hw hy he hz => ⟨fun r hrec => ?taken, fun hrec hl hi => ?ends⟩,
    fun w r q d pc n hw hst hsteal hk he hh ho hb hq => (stealSteps s k t).2.2.2 w r q d pc n hw hst hsteal hk he hh ho hb hq⟩
  case record =>
    obtain ⟨z, hrun, hdq, -, hmsgs⟩ := execStealRequest_of_record hm hr ha hb hv hs hq hne
    exact ⟨z, hrun, hdq, hmsgs⟩
  case taken =>
    subst hz
    exact (stealSteps s k t).2.1 m r w l d pc n hm hr hth ha hk hrec hw hy he
  case ends =>
    subst hl
    have hi' : ¬ ∃ h e, w.instr = .taskPark h e := by
      obtain ⟨h, e, hi⟩ := hi
      rintro ⟨h', e', hi'⟩
      rw [hi] at hi'; cases hi'
    exact ((stealSteps s k t).2.2.1 m w [] d pc n z hm hr hth ha hk hrec hw hy he (fun hp => absurd hp hi') hz).2.1 rfl hi

theorem toursComplete : ToursComplete := by
  refine fun s k g x t kn z ht hz => ⟨fun harm hfin htok hfm hring hpas => ?starts, fun n m c htok hc hpas => ⟨fun hn hring => ?passes, fun hn hring => ?returns⟩,
    fun n c hfm hc hring hpack hpas => ?finishes⟩
  case starts =>
    subst hz
    exact execTourRoundStart_of_passive ht harm hfin htok hfm hring hpas
  case passes =>
    subst hz
    exact (execTourToken_of_token ht htok hc (by rw [Nat.mod_eq_of_lt hn]; exact hring) hpas).trans (if_neg (Nat.ne_of_lt hn))
  case returns =>
    subst hn
    refine (execTourToken_of_token ht htok hc (by rw [Nat.mod_self]; exact hring) hpas).trans ((if_pos rfl).trans ?_)
    by_cases hlast : m = false ∧ (s.core k).tourFlag = false
    · rw [if_pos ⟨by rw [hlast.1]; rfl, hlast.2, hpas⟩]
      simp only [if_pos hlast]
    · rw [if_neg fun h => hlast ⟨by simpa using h.1, h.2.1⟩]
      simp only [if_neg hlast]
  case finishes =>
    refine ⟨_, execTourFinish_of_message ht hfm hc hring hpack hpas, foldl_keeps State.mem (fun _ _ => State.wakeParked_mem) kn.hthreads s, ?_⟩
    have hwoken : (kn.hthreads.foldl (State.wakeParked k) s).toursAt k = [(g, x, t, kn)] :=
      (foldl_keeps (State.toursAt · k) (fun z h => State.toursAt_wakeParked z k h k) kn.hthreads s).trans ht
    exact State.finish_modTour (fun _ => rfl) hwoken

theorem barrierAndRepackStepsComplete : BarrierAndRepackStepsComplete := by
  refine fun s => ⟨fun tile c ha hc => ⟨_, ?crew, rfl⟩, fun tile c g x ha hc hg hx => ⟨_, ?gang, rfl⟩, fun g gid o c ho hst hd hc hf => execGroupTimeout_of_due ho hst hd hc hf,
    fun t f l hf hu ha hl => ?copy, fun r p n w m hp ho hb hd hh hbad => ?unfreeze⟩
  case crew =>
    change execBarrierComplete tile .crew s = _
    simp only [execBarrierComplete, ha, if_neg (Nat.not_le.2 hc)]
  case gang =>
    change execBarrierComplete tile .gang s = _
    simp only [execBarrierComplete, ha, if_neg (Nat.not_le.2 hc), hg, Option.bind_some, hx, Option.map_some]
  case copy =>
    subst hl
    exact execForkRemoteCopy_of_turn hf hu ha
  case unfreeze =>
    refine ⟨_, execRepackUnfreeze_of_resize hp ho hb (fun h _ => hbad h) hh hd rfl, ?_⟩
    rw [State.core_setCore_same]

/-- Settles O60: each step of the machine by its tests, under conditions on the state alone. -/
theorem machineStepsComplete : Obligations.MachineStepsComplete :=
  ⟨memoryStepsComplete, stealsComplete, toursComplete, barrierAndRepackStepsComplete⟩

end Sys2Proof.Proofs
end

section
/-! Completion of the lane instructions (O59): what their sources read as, and each course with the write that the state has room for. -/
namespace Sys2Proof.Machine
open Sys2Proof.Claims

section
variable {s s1 : State} {i : Instr} {h : Hdr} {d a b : NameRef} {srcs dsts : List NameRef} {lat : Nat}

/-- Sources that can be read are read, in their order (R99). -/
theorem State.readAll_of_readable {s0 : State} {l : List NameRef} (hs : s0.me.wait.bind (·.src) = s.me.wait.bind (·.src)) (hr : Readable s0 s l) :
    s0.readAll i h l s = .ok (srcsOf s h l, readSt s l) := by
  induction l generalizing s with
  | nil => rfl
  | cons n l ih =>
    simp only [State.readAll, State.read_of_readable hs hr, bind, Except.bind, ih (hs.trans (popped_pops s n).src) hr.2]; rfl
theorem State.readAll_first (hr : Readable s s srcs) : s.readAll i h srcs s = .ok (srcsOf s h srcs, readSt s srcs) := State.readAll_of_readable rfl hr
theorem readSt_thresh (s : State) (l : List NameRef) : s.myCore.cqthresh = (readSt s l).myCore.cqthresh := (readSt_pops l s).thresh.symm

/-- A field that no latch keeps reads as its entry says now. -/
theorem srcOf_ent (hw : s.me.wait.bind (·.src) = none) (n : NameRef) : (srcOf s h n).ent = s.ent n := by
  cases n with
  | cat k => rw [srcOf, State.nameSrc, hw]
  | fixed f => rfl
theorem no_latch (hw : s.me.wait = none) : s.me.wait.bind (·.src) = none := by rw [hw]; rfl
theorem srcOf_second_ent (hw : s.me.wait = none) (m n : NameRef) : (srcOf (popped s m) h n).ent = s.ent n := by
  rw [srcOf_ent ((popped_pops s m).src.symm.trans (no_latch hw)), (popped_pops s m).ent]
theorem Src.lanes_length {x : Src} {w : Nat} (hx : ilaneCount x.ent w ≠ 0) : (x.lanes w).length = ilaneCount x.ent w := by
  unfold ilaneCount at hx ⊢
  split at hx
  · next hk => rw [if_pos hk, Src.lanes, List.length_map, List.length_range]
  · exact absurd rfl hx
theorem not_ran_of_starts (hs : Starts s i h srcs dsts) : s.ranOut = false := by rw [State.ranOut, hs.1]
theorem runs_on_of_starts (hs : Starts s i h srcs dsts) (hl : 8 < lat) : s.writesNow lat = false := by
  rw [State.writesNow, not_ran_of_starts hs, decide_eq_false (Nat.not_le.2 hl)]; rfl
theorem oneDst_of_fits {r : Rnd} {x : Int} (hf : OneFits (readSt s srcs) d r x) : s.oneDst d = true := by
  have h1 := hf.1
  rw [State.oneDst, (readSt_pops srcs s).ent] at h1
  exact h1
theorem room_cat {n : BitVec 9} : Room s (.cat n) := ⟨nofun, nofun⟩
theorem cat_of_isCat (hd : isCat d = true) : ∃ n, d = .cat n := by
  cases d with
  | cat n => exact ⟨n, rfl⟩
  | fixed f => cases hd
end

end Sys2Proof.Machine

namespace Sys2Proof.Proofs
open Sys2Proof.Machine Sys2Proof.Claims

theorem integerLanesComplete : IntegerLanesComplete := by
  refine ⟨?lanes, ?red, ?scan⟩
  case lanes =>
    intro s i h d fs w f s1 xs hi ⟨hw, hp, hr⟩ hL hn hs1 hxs hf
    subst hs1 hxs
    exact integerLanes s i h d fs w f hi hp hL hn _ _ _ (State.readAll_first hr) (State.writeLanes_ok hf)
  case red =>
    intro s i h d a w r f s1 x hi ⟨hw, hp, hr⟩ ha hs1 hx hf
    subst hs1 hx
    rw [exec_intRed hi, vredIntM_of_read hp ha (oneDst_of_fits (srcs := [a]) hf) (State.read_first hr) (State.writeRnd_of_fits hf)]; rfl
  case scan =>
    intro s h d a w g r s1 xs ha hd
    refine ⟨fun hs => (scanM_timed_of_ints hs.2.1 ha hd (State.read_first hs.2.2)).2 (runs_on_of_starts hs (by decide)), fun ⟨hp, hr, hn⟩ hs1 hxs hf => ?_⟩
    subst hs1 hxs
    exact (scanM_timed_of_ints hp ha hd (State.read_first hr)).1 hn _ (State.writeLanes_ok hf)

theorem floatLanesComplete : FloatLanesComplete := by
  refine ⟨?lanes, ?red, ?rest⟩
  case lanes =>
    intro s i h d fs g r lat f s1 xs hi hL hn
    have timed (hp : Passes s i h fs [d]) (hr : Readable s s fs) := vecfM_timed hp hL hn (State.readAll_first hr) (exec_fltLane hi s)
    refine ⟨fun hs hl => (timed hs.2.1 hs.2.2).2 (runs_on_of_starts hs hl), fun ⟨hp, hr, hw⟩ hs1 hxs hf => ?_⟩
    subst hs1 hxs
    exact (timed hp hr).1 hw _ (State.writeFlanes_of_fits (readSt_thresh s fs) hf)
  case red =>
    intro s i h d a g r f s1 xs hi ⟨hw, hp, hr⟩ ha hd hone hs1 hxs hf
    subst hs1 hxs
    rw [exec_fltRed hi, vredFltM_of_read hp ha hd hone (State.read_first hr) (State.writeFlanes_of_fits (readSt_thresh s [a]) hf)]; rfl
  case rest =>
    intro s h d a w g r s1 ha hs1
    subst hs1
    refine ⟨fun x ⟨hw, hp, hr⟩ hx hf => ?argmax, fun hs hd => (scanM_timed_of_floats hs.2.1 ha hd (State.read_first hs.2.2)).2 (runs_on_of_starts hs (by decide)),
      fun xs ⟨hp, hr, hn⟩ hd hxs hf => ?scan⟩
    case argmax =>
      subst hx
      exact congrArg finish (argmaxFM_of_read hp ha (oneDst_of_fits (srcs := [a]) hf) (State.read_first hr) (State.writeRnd_of_fits hf))
    case scan =>
      subst hxs
      exact (scanM_timed_of_floats hp ha hd (State.read_first hr)).1 hn _ (State.writeFlanes_of_fits (readSt_thresh s [a]) hf)

theorem movesComplete : MovesComplete := by
  intro s h d a b
  refine ⟨fun i la w lanes ix s2 xs hi ⟨hw, hp, hr⟩ hd ha hb hs2 hxs hf => ?index,
    fun w s2 ys xs hl ⟨hw, hp, hr⟩ hd ha hb hys hn hs2 hxs hf => ?pack, fun ⟨hw, hp, hr⟩ hd ha => ?mov,
    fun dir k ⟨hw, hp, hr⟩ ha hd hn hk hl => ?send, fun dir k ⟨hw, hp, hr⟩ hd ha hk hl hq => ?recv,
    fun w ng s2 y ⟨hw, hp, hr⟩ hd hs2 hy hroom => ?acc, fun ⟨hw, hp, hr⟩ he => ?test, fun ⟨hw, hp, hr⟩ hd hroom => ?clr⟩
  case index =>
    subst hs2 hxs
    rw [exec_laneMove hi, indexM_of_read hp rfl hd ha hb (State.read_first hr) (State.read_second hr) (State.writeLanes_ok hf)]; rfl
  case pack =>
    subst hs2 hys hxs
    have hlen : (if b = .fixed .zero then [] else (srcOf (popped s a) h b).lanes (laneBits w)).length =
        if b == .fixed .zero then 0 else ilaneCount (s.ent b) (laneBits w) := by
      by_cases hz : b = .fixed .zero
      · simp [hz]
      · have hcount := hb.resolve_left hz
        have he : (srcOf (popped s a) h b).ent = s.ent b := srcOf_second_ent hw a b
        simp only [if_neg hz, beq_iff_eq]
        rw [← he] at hcount ⊢
        exact Src.lanes_length hcount
    rw [hlen] at hn
    refine congrArg finish (packM_of_read hp hl hd ha hb hn (State.read_first hr) (State.read_second hr) ?_)
    simp only [packed, beq_iff_eq]
    exact State.writeLanes_ok hf
  case mov =>
    obtain ⟨n, rfl⟩ := cat_of_isCat hd
    obtain ⟨m, rfl⟩ := cat_of_isCat ha
    exact congrArg finish (vmovM_of_read hp (State.read_first hr))
  case send =>
    obtain ⟨m, rfl⟩ := cat_of_isCat ha
    have he : (srcOf s h (.cat m)).ent = s.ent (.cat m) := srcOf_ent (no_latch hw) _
    subst hk
    rw [← he] at hl ⊢
    exact congrArg finish (sendM_of_room hd hp (State.read_first hr) hn hl)
  case recv =>
    obtain ⟨n, rfl⟩ := cat_of_isCat hd
    subst hk
    exact congrArg finish (recvM_of_words ha hp rfl hl hq (State.putPat_of_room room_cat))
  case acc =>
    subst hs2 hy
    exact congrArg finish (chkAccM_of_read hp hd (State.read_first hr) (State.read_second hr) (State.putPat_of_room hroom))
  case test =>
    refine congrArg finish (?_ : chkTestM s h a b = .ok _)
    rw [chkTestM_of_read hp (State.read_first hr) (State.read_second hr), if_neg (Classical.not_not.2 he)]; rfl
  case clr => exact congrArg finish (chkClrM_of_write hp hd (State.putPat_of_room hroom))

end Sys2Proof.Proofs
end

section
/-! Completion of the conversions (O59): their courses past issue, with the draws the stream has left and the counts they keep. -/
namespace Sys2Proof.Machine
open Sys2Proof.Claims

section
variable {s t z : State} {i : Instr} {h : Hdr} {d a b c : NameRef} {r : Rnd} {f g : LaneF} {w : LaneW}

theorem thresh_drawn (s : State) (k : Nat) : (drawn s k).myCore.cqthresh = s.myCore.cqthresh := by
  obtain hx | ⟨x, hx⟩ := drawn_eq s k
  · rw [hx]
  · rw [hx, s.myCore_setMe]

/-- The counts of a conversion that crosses no threshold are kept, whatever of its state the draws and reads have changed (R145). -/
theorem State.quantDone_of_drawn {q : QCount} {l : List NameRef} {k : Nat} (hq : q.trips s.myCore.cqthresh = false) :
    s.quantDone q (drawn (readSt s l) k) = .ok ((drawn (readSt s l) k).countQ s.cur.coreRef q s.myCore.cqthresh) := by
  rw [State.quantDone_of_kept hq, cur_drawn, (readSt_pops l s).cur]

/-- What a quantisation does with its result (R188): the counts are kept, the pattern is written, and the instruction completes. -/
def State.quantEnd (s : State) (i : Instr) (h : Hdr) (d : NameRef) (q : Nat × QCount) (s5 : State) : M State :=
  (s.quantDone q.2 s5).bind fun s6 => (s.putPat i d q.1 s6).bind fun s7 => .ok (s7.done h)
theorem quantEnd_of {i : Instr} {h : Hdr} {d : NameRef} {q : Nat × QCount} {s s5 s6 t : State} (hdone : s.quantDone q.2 s5 = .ok s6)
    (hput : s.putPat i d q.1 s6 = .ok t) : s.quantEnd i h d q s5 = .ok (t.done h) := by
  rw [State.quantEnd, hdone]
  exact congrArg (fun m : M State => m.bind fun s7 => .ok (s7.done h)) hput

/-- `cvt.quant` past its checks (R188). -/
theorem quantM_of_read {sup : Bool} {x y v : Src} {vs : List FVal} {cv : Nat} {md : RMode} {q : Nat × QCount} {ds : List Nat} {s1 s2 s3 s4 s5 : State}
    (hp : Passes s (.cvtQuant h d a b c f sup r) h [a, b, c] [d]) (hd : isCat d = true) (ha : flaneCount (s.ent a) (laneFF f) ≠ 0)
    (hb : b = .fixed .zero ∨ flaneCount (s.ent b) (laneFF f) ≠ 0)
    (hn : quantFits (s.ent d) (flaneCount (s.ent a) (laneFF f) + if b = .fixed .zero then 0 else flaneCount (s.ent b) (laneFF f)) = true)
    (hx : s.read (.cvtQuant h d a b c f sup r) h a s = .ok (x, s1)) (hy : s.read (.cvtQuant h d a b c f sup r) h b s1 = .ok (y, s2))
    (hv : s.read (.cvtQuant h d a b c f sup r) h c s2 = .ok (v, s3)) (hvs : vs = x.flanes (laneFF f) ++ (if b = .fixed .zero then [] else y.flanes (laneFF f)))
    (hcv : cv = wrapNat 528 v.val) (hmd : md = rmodeOf r (s.ent d)) (hds : s.drawsFor md (quantMask (s.ent d) c cv sup vs) s3 = .ok (ds, s4))
    (hq : q = quantRes (s.ent d) c cv sup md ds vs) (hdone : s.quantDone q.2 s4 = .ok s5)
    (hput : s.putPat (.cvtQuant h d a b c f sup r) d q.1 s5 = .ok t) : quantM s h d a b c f sup r = .ok (t.done h) := by
  subst hvs hcv hmd hq
  have hc : (isCat d && flaneCount (s.ent a) (laneFF f) != 0 && (b == .fixed .zero || (if b == .fixed .zero then 0 else flaneCount (s.ent b) (laneFF f)) != 0) &&
      quantFits (s.ent d) (flaneCount (s.ent a) (laneFF f) + if b == .fixed .zero then 0 else flaneCount (s.ent b) (laneFF f))) = true := by
    by_cases hz : b = .fixed .zero
    · simp only [hz, if_true, beq_self_eq_true, Bool.true_or] at hn ⊢
      rw [hd, hn]; simp [ha]
    · have hb' := hb.resolve_left hz
      simp only [beq_iff_eq, if_neg hz] at hn ⊢
      rw [hd, hn]; simp [ha, hb']
  have hz : (if (b == .fixed .zero) = true then [] else y.flanes (laneFF f)) = if b = .fixed .zero then [] else y.flanes (laneFF f) := by
    simp only [beq_iff_eq]
  simp only [quantM, State.issue_of_checks hp hc, bind, Except.bind, hx, hy, hv, hz]
  exact (congrArg (fun m : M (List Nat × State) => m.bind fun p => s.quantEnd (.cvtQuant h d a b c f sup r) h d (quantRes (s.ent d) c (wrapNat 528 v.val) sup
    (rmodeOf r (s.ent d)) p.1 (x.flanes (laneFF f) ++ if b = .fixed .zero then [] else y.flanes (laneFF f))) p.2) hds).trans (quantEnd_of hdone hput)

/-- The values that a source of `cvt.dequant` holds (R189). -/
def dequantVals (k : Kind) (el : Elem) (c : NameRef) (cv p : Nat) : List FVal :=
  match k with
  | .g8 => g8Vals el p
  | .g4 => g4Vals (bandOf c cv) p
  | k => chanVals (k == Kind.sint) p
/-- `cvt.dequant` past its checks (R189). -/
theorem dequantM_of_read {p : BitVec 2} {x v : Src} {s1 s2 : State} (hp : Passes s (.cvtDequant h d a c f p r) h [a, c] [d])
    (hd : flaneCount (s.ent d) (laneFF f) ≠ 0) (hn : (p.toNat + 1) * flaneCount (s.ent d) (laneFF f) ≤ dequantCount a (s.ent a))
    (hx : s.read (.cvtDequant h d a c f p r) h a s = .ok (x, s1)) (hv : s.read (.cvtDequant h d a c f p r) h c s1 = .ok (v, s2))
    (hw : s.writeFlanes (.cvtDequant h d a c f p r) d (laneFF f) r .usual ((List.range (flaneCount (s.ent d) (laneFF f))).map fun j =>
      ((dequantVals x.ent.kind x.ent.elem c (wrapNat 528 v.val) x.pat).getD (p.toNat * flaneCount (s.ent d) (laneFF f) + j) .nan).x) s2 = .ok t) :
    dequantM s h d a c f p r = .ok (t.done h) := by
  have hc : (flaneCount (s.ent d) (laneFF f) != 0 && decide ((p.toNat + 1) * flaneCount (s.ent d) (laneFF f) ≤ dequantCount a (s.ent a))) = true := by
    rw [decide_eq_true hn]; simp [hd]
  simp only [dequantM, State.issue_of_checks hp hc, bind, Except.bind, hx, hv]
  exact congrArg (fun m : M State => m.bind fun y => pure (y.done h)) hw

/-- The lanes of `cvt.ftoi` (R190). -/
def ftoiLanes (e : NameEnt) (lam : Nat) (md : RMode) (ds : List Nat) (vs : List FVal) : List ((Int ⊕ Word64) × Bool) :=
  (List.range (ilaneCount e lam)).map fun j => ftoiLane e.kind lam e.mode md (ds.getD j 0 % 2 ^ 24) (pick .nan vs j)
theorem firstTrap_of_isLeft {rs : List ((Int ⊕ Word64) × Bool)} (hr : ∀ y ∈ rs, y.1.isLeft = true) (k : Nat) : firstTrap k rs = none := by
  induction rs generalizing k with
  | nil => rfl
  | cons y rs ih =>
    obtain ⟨v | v, n⟩ := y
    · exact ih (fun q hq => hr q (List.mem_cons_of_mem _ hq)) _
    · exact absurd (hr _ List.mem_cons_self) Bool.false_ne_true
/-- The end of `cvt.ftoi` (R190): the lowest lane that traps, or the lanes written and the NaNs among them counted. -/
def ftoiEnd (s : State) (i : Instr) (h : Hdr) (d : NameRef) (lam : Nat) (rs : List ((Int ⊕ Word64) × Bool)) (s3 : State) : M State :=
  match firstTrap 0 rs with
  | some v => trapM s .width v
  | none => do
    let s4 ← s.putPat i d (packLanes lam (rs.map fun r => match r.1 with | .inl y => wrapNat lam y | .inr _ => 0)) s3
    pure ((s4.countQ s4.cur.coreRef { QCount.zero with nan := (rs.filter (·.2)).length } 0xFFFF_FFFF).done h)
theorem ftoiEnd_of_lanes {lam : Nat} {rs : List ((Int ⊕ Word64) × Bool)} {s3 : State} (hl : ∀ y ∈ rs, y.1.isLeft = true)
    (hput : s.putPat i d (packLanes lam (rs.map fun y => match y.1 with | .inl v => wrapNat lam v | .inr _ => 0)) s3 = .ok z) :
    ftoiEnd s i h d lam rs s3 = .ok ((z.countQ z.cur.coreRef { QCount.zero with nan := (rs.filter (·.2)).length } 0xFFFF_FFFF).done h) := by
  rw [ftoiEnd, firstTrap_of_isLeft hl 0]
  exact congrArg (fun m : M State => m.bind fun y =>
    pure ((y.countQ y.cur.coreRef { QCount.zero with nan := (rs.filter (·.2)).length } 0xFFFF_FFFF).done h)) hput
theorem ftoiM_of_discards {x : Src} (hp : Passes s (.cvtFtoi h d a g w r) h [a] [d])
    (hf : lanesFit (flaneCount (s.ent a) (laneFF g)) (ilaneCount (s.ent d) (laneBits w)) = true)
    (hx : s.read (.cvtFtoi h d a g w r) h a s = .ok (x, t)) (hd : discards d = true) : ftoiM s h d a g w r = .ok (t.done h) := by
  simp only [ftoiM, State.issue_of_checks hp hf, bind, Except.bind, hx]
  cases d with
  | cat n => cases hd
  | fixed e =>
    cases e with
    | zero | tid | lit => rfl
    | _ => cases hd
theorem ftoiM_of_lanes {x : Src} {ds : List Nat} {rs : List ((Int ⊕ Word64) × Bool)} {s1 s2 : State} (hp : Passes s (.cvtFtoi h d a g w r) h [a] [d])
    (hf : lanesFit (flaneCount (s.ent a) (laneFF g)) (ilaneCount (s.ent d) (laneBits w)) = true)
    (hx : s.read (.cvtFtoi h d a g w r) h a s = .ok (x, s1)) (hd : discards d = false)
    (hds : s.draws (if rmodeOf r (s.ent d) = .rst then ilaneCount (s.ent d) (laneBits w) else 0) s1 = .ok (ds, s2))
    (hrs : rs = ftoiLanes (s.ent d) (laneBits w) (rmodeOf r (s.ent d)) ds (x.flanes (laneFF g))) (hl : ∀ y ∈ rs, y.1.isLeft = true)
    (hput : s.putPat (.cvtFtoi h d a g w r) d (packLanes (laneBits w) (rs.map fun y => match y.1 with | .inl v => wrapNat (laneBits w) v | .inr _ => 0)) s2
      = .ok z) : ftoiM s h d a g w r = .ok ((z.countQ z.cur.coreRef { QCount.zero with nan := (rs.filter (·.2)).length } 0xFFFF_FFFF).done h) := by
  subst hrs
  have hend := ftoiEnd_of_lanes (s := s) (h := h) hl hput
  simp only [ftoiM, State.issue_of_checks hp hf, bind, Except.bind, hx, hds]
  cases d with
  | cat n => exact hend
  | fixed e =>
    cases e with
    | zero | tid | lit => cases hd
    | _ => exact hend

theorem lanesFit_covers {n L j : Nat} (hf : lanesFit n L = true) (hj : j < L) : n = 1 ∨ j < n := by
  simp only [lanesFit, Bool.and_eq_true, Bool.or_eq_true, beq_iff_eq] at hf
  omega
/-- A lane of a list with each lane changed, where the list has it or has one lane for all. -/
theorem pick_map {α β : Type} (f : α → β) (u : β) (v : α) {l : List α} {j : Nat} (hj : l.length = 1 ∨ j < l.length) :
    pick u (l.map f) j = f (pick v l j) := by
  unfold pick
  rw [List.length_map]
  split
  · next h1 =>
    obtain ⟨x, rfl⟩ := List.length_eq_one_iff.1 h1
    rfl
  · next h1 => simp [List.getD_eq_getElem?_getD, List.getElem?_eq_getElem (hj.resolve_left h1)]
/-- `cvt.itof` and `cvt.fconv` past their checks (R190). -/
theorem exec_laneConv {na : Nat} {vs : Src → List FVal} {x : Src} {s1 : State} (hi : laneConv s i = some (h, d, a, na, vs, f, r)) (hp : Passes s i h [a] [d])
    (hf : lanesFit na (flaneCount (s.ent d) (laneFF f)) = true) (hx : s.read i h a s = .ok (x, s1)) (hn : (vs x).length = na)
    (hw : s.writeFlanes i d (laneFF f) r .plain ((List.range (flaneCount (s.ent d) (laneFF f))).map fun j => (pick .nan (vs x) j).x) s1 = .ok t) :
    exec i s = .next (t.done h) := by
  unfold laneConv at hi
  split at hi
  · next lw _ _ =>
    cases hi
    rw [List.length_map] at hn
    have hints : ((List.range (flaneCount (s.ent d) (laneFF f))).map fun j => (FVal.int (pick 0 (x.lanes (laneBits lw)) j)).x) =
        (List.range (flaneCount (s.ent d) (laneFF f))).map fun j => (pick .nan ((x.lanes (laneBits lw)).map FVal.int) j).x := by
      refine List.map_congr_left fun j hj => ?_
      rw [pick_map FVal.int .nan 0 (by rw [hn]; exact lanesFit_covers hf (List.mem_range.1 hj))]
    refine congrArg finish (?_ : itofM s h d a lw f r = .ok _)
    simp only [itofM, State.issue_of_checks hp hf, bind, Except.bind, hx, hints, hw]; rfl
  · cases hi
    refine congrArg finish (?_ : fconvM s h d a _ f r = .ok _)
    simp only [fconvM, State.issue_of_checks hp hf, bind, Except.bind, hx, hw]; rfl
  · cases hi

/-- `cvt.round` past its checks (R190). -/
theorem roundM_of_read {x : Src} {ds : List Nat} {s1 s2 : State} (hp : Passes s (.cvtRound h d a f r) h [a] [d])
    (hf : lanesFit (flaneCount (s.ent a) (laneFF f)) (flaneCount (s.ent d) (laneFF f)) = true) (hx : s.read (.cvtRound h d a f r) h a s = .ok (x, s1))
    (hds : s.draws (if rmodeOf r (s.ent d) = .rst ∧ discards d = false then flaneCount (s.ent d) (laneFF f) else 0) s1 = .ok (ds, s2))
    (hw : s.writeFlanes (.cvtRound h d a f r) d (laneFF f) (if rmodeOf r (s.ent d) = .rst then .rne else r) .plain
      ((List.range (flaneCount (s.ent d) (laneFF f))).map fun j =>
        ((pick .nan (x.flanes (laneFF f)) j).integral (rmodeOf r (s.ent d)) (ds.getD j 0 % 2 ^ 24)).x) s2 = .ok t) :
    roundM s h d a f r = .ok (t.done h) := by
  simp only [roundM, State.issue_of_checks hp hf, bind, Except.bind, hx, hds, hw]
  rfl

/-- `cvt.scale` past its checks (R191). -/
theorem scaleM_of_read {x y : Src} {bv : Nat} {md : RMode} {q : Nat × QCount} {ds : List Nat} {s1 s2 s3 s4 : State}
    (hp : Passes s (.cvtScale h d a b r) h [a, b] [d]) (hd : isCat d = true) (ha : isCat a = true) (hg : (s.ent d).kind.isGran = true)
    (hk : (s.ent d).kind = (s.ent a).kind) (he : (s.ent d).elem = (s.ent a).elem) (hx : s.read (.cvtScale h d a b r) h a s = .ok (x, s1))
    (hy : s.read (.cvtScale h d a b r) h b s1 = .ok (y, s2)) (hbv : bv = wrapNat 528 y.val) (hmd : md = rmodeOf r (s.ent d))
    (hds : s.drawsFor md (scaleMask (s.ent d) bv x.pat) s2 = .ok (ds, s3)) (hq : q = scaleRes (s.ent d) bv x.pat md ds)
    (hdone : s.quantDone q.2 s3 = .ok s4) (hput : s.putPat (.cvtScale h d a b r) d q.1 s4 = .ok t) : scaleM s h d a b r = .ok (t.done h) := by
  subst hbv hmd hq
  have hc : (isCat d && isCat a && (s.ent d).kind.isGran && (s.ent d).kind == (s.ent a).kind && (s.ent d).elem == (s.ent a).elem) = true := by
    rw [hd, ha, hg, hk, he]; simp
  unfold scaleMask at hds
  unfold scaleRes at hdone hput
  simp only [scaleM, State.issue_of_checks hp hc, bind, Except.bind, hx, hy]
  simp only [hds]
  simp only [hdone, hput]
  rfl
end

end Sys2Proof.Machine

namespace Sys2Proof.Proofs
open Sys2Proof.Machine Sys2Proof.Claims

theorem conversionsComplete : ConversionsComplete := by
  intro s h d a r md hmd
  subst hmd
  refine ⟨?quant, ?dequant, ?ftoi, ?conv, ?round, ?scale⟩
  case quant =>
    intro b c f sup s3 vs cv n ds q ⟨hw, hp, hr⟩ hd ha hb hvs hn hs3 hcv hcount hl hds hq ht
    subst hs3 hcount hds
    obtain ⟨m, rfl⟩ := cat_of_isCat hd
    exact congrArg finish (quantM_of_read hp hd ha hb hn (State.read_first hr) (State.read_second hr) (State.read_third hr) hvs hcv rfl
      (State.drawsFor_of_left hl) hq (State.quantDone_of_drawn (l := [a, b, c]) ht) (State.putPat_of_room room_cat))
  case dequant =>
    intro c f p us xs s2 ⟨hw, hp, hr⟩ hd hn hus hxs hs2 hf
    subst hs2 hxs
    refine congrArg finish (dequantM_of_read hp hd hn (State.read_first hr) (State.read_second hr) ?_)
    have hvals : dequantVals (srcOf s h a).ent.kind (srcOf s h a).ent.elem c (wrapNat 528 (srcOf (popped s a) h c).val) (srcOf s h a).pat = us := by
      rw [srcOf_ent (no_latch hw), hus]; rfl
    rw [hvals]
    exact State.writeFlanes_of_fits (readSt_thresh s [a, c]) hf
  case ftoi =>
    intro g w s1 n rs ⟨hw, hp, hr⟩ hd hf hs1 hn hrs
    subst hs1
    have hfit := lanesFit_of hd hf
    refine ⟨fun hz => congrArg finish (ftoiM_of_discards hp hfit (State.read_first hr) hz), fun hz hroom hl hleft z hput => ?_⟩
    subst hput hn
    exact congrArg finish (ftoiM_of_lanes hp hfit (State.read_first hr) hz (State.draws_of_left hl) hrs hleft (State.putPat_of_room (room_drawn hroom _)))
  case conv =>
    intro i na vs f s1 xs hi ⟨hw, hp, hr⟩ hd hf hs1 hxs hn hfits
    subst hs1 hxs
    exact exec_laneConv hi hp (lanesFit_of hd hf) (State.read_first hr) hn (State.writeFlanes_of_fits (readSt_thresh s [a]) hfits)
  case round =>
    intro f s1 n xs r' ⟨hw, hp, hr⟩ hd hf hs1 hn hl hr' hxs hfits
    subst hs1 hn hr' hxs
    exact congrArg finish (roundM_of_read hp (lanesFit_of hd hf) (State.read_first hr) (State.draws_of_left hl)
      (State.writeFlanes_of_fits ((readSt_thresh s [a]).trans (thresh_drawn _ _).symm) hfits))
  case scale =>
    intro b s2 bv n q ⟨hw, hp, hr⟩ hd ha hg hk he hs2 hbv hcount hl hq ht
    subst hs2 hcount
    obtain ⟨m, rfl⟩ := cat_of_isCat hd
    exact congrArg finish (scaleM_of_read hp hd ha hg hk he (State.read_first hr) (State.read_second hr) hbv rfl (State.drawsFor_of_left hl) hq
      (State.quantDone_of_drawn (l := [a, b]) ht) (State.putPat_of_room room_cat))

end Sys2Proof.Proofs
end

section
/-! Completion of the stream's instructions and the sampler's (O59): what a draw can pick, and that counting, finding errors and committing leave a
destination its room. -/
namespace Sys2Proof.Machine
open Sys2Proof.Claims

/-! ### What is picked (R328) -/

theorem drawOf_lt (K p j : Nat) : drawOf K p j < 2 ^ 64 := by
  unfold drawOf
  exact Nat.xor_lt_two_pow (Nat.mod_lt _ (by decide)) (Nat.lt_of_le_of_lt (Nat.div_le_self ..) (Nat.mod_lt _ (by decide)))
theorem exists_least {p : Nat → Prop} {n : Nat} (hn : p n) : ∃ m, m ≤ n ∧ p m ∧ ∀ k, k < m → ¬ p k := by
  induction n using Nat.strongRecOn with
  | ind n ih =>
    rcases Classical.em (∃ k, k < n ∧ p k) with ⟨k, hk, hp⟩ | hnone
    · obtain ⟨m, hm, hleast⟩ := ih k hk hp
      exact ⟨m, Nat.le_trans hm (Nat.le_of_lt hk), hleast⟩
    · exact ⟨n, Nat.le_refl n, hn, fun k hk hp => hnone ⟨k, hk, hp⟩⟩
/-- Weights that are not all 0 have a first place that a draw reaches. -/
theorem exists_picks {us : List Nat} {r : Nat} (hr : r < 2 ^ 32) (hz : us.sum ≠ 0) : ∃ j, Picks us r j := by
  have hne : us ≠ [] := by rintro rfl; exact hz rfl
  have hlen : us.length - 1 < us.length := Nat.sub_lt (List.length_pos_iff.2 hne) Nat.one_pos
  have hlast : r * us.sum < 2 ^ 32 * (us.take (us.length - 1 + 1)).sum := by
    rw [Nat.sub_add_cancel (List.length_pos_iff.2 hne), List.take_length]
    exact Nat.mul_lt_mul_of_pos_right hr (Nat.pos_of_ne_zero hz)
  obtain ⟨j, hj, hhit, hlow⟩ := exists_least (p := fun j => r * us.sum < 2 ^ 32 * (us.take (j + 1)).sum) hlast
  exact ⟨j, Nat.lt_of_le_of_lt hj hlen, hhit, fun k hk => Nat.le_of_not_lt (hlow k hk)⟩

/-! ### A destination's room -/

section
variable {s z s1 s2 s3 t : State} {i : Instr} {h : Hdr} {d a b : NameRef} {base : Int} {us ds : List Nat} {nb k n sl : Nat} {x y : Src}

/-- `z` and `s` have the same ports and gangs about the current thread, the same kernel, and the same configuration. -/
structure SameRoom (s z : State) : Prop where
  cur : z.cur = s.cur
  cfg : z.cfg = s.cfg
  gang : ∀ k, (z.tile k).gang = (s.tile k).gang
  ports : z.myCore.portOut = s.myCore.portOut
  kernel : z.myKernel = s.myKernel
  me : z.me = s.me

theorem SameRoom.trans (h1 : SameRoom s z) (h2 : SameRoom z t) : SameRoom s t :=
  ⟨h2.cur.trans h1.cur, h2.cfg.trans h1.cfg, fun k => (h2.gang k).trans (h1.gang k), h2.ports.trans h1.ports, h2.kernel.trans h1.kernel,
    h2.me.trans h1.me⟩
theorem SameRoom.of_tiles (hc : z.cur = s.cur) (hg : z.cfg = s.cfg) (ht : z.tiles = s.tiles) : SameRoom s z where
  cur := hc
  cfg := hg
  gang k := by rw [State.tile, ht]; rfl
  ports := by simp only [State.myCore, State.core, State.tile, ht, hc]
  kernel := by rw [State.myKernel, hc, State.kernel_of_tiles ht]; rfl
  me := by rw [State.me, hc, State.thread_of_tiles ht]; rfl
theorem SameRoom.of_frame (hf : State.TrapFrame s.core s z) (hc : z.cur = s.cur) (hg : z.cfg = s.cfg) (hk : z.myKernel = s.myKernel)
    (hm : z.me = s.me) : SameRoom s z where
  cur := hc
  cfg := hg
  gang k := by
    obtain ⟨cs, hk⟩ := hf.tile k
    rw [hk]
  ports := by
    obtain ⟨ts, e, hk⟩ := hf.core s.cur.coreRef
    rw [State.myCore, hc, hk]; rfl
  kernel := hk
  me := hm
theorem SameRoom.ent (hs : SameRoom s z) (n : NameRef) : z.ent n = s.ent n := by rw [State.ent, hs.kernel]; rfl
theorem SameRoom.room (hs : SameRoom s z) (hr : Room s d) : Room z d := by
  refine ⟨hr.1, fun dir hd => ?_⟩
  have hsvc : z.svc = s.svc := by rw [State.svc, hs.cfg]; rfl
  have hmine : z.myTile.gang = s.myTile.gang := by rw [State.myTile, hs.cur, hs.gang]; rfl
  have hn : z.neighbourIn dir = s.neighbourIn dir := by simp only [State.neighbourIn, hs.cur, hs.gang, hmine, hsvc]
  have ho : z.outbound dir = s.outbound dir := by rw [State.outbound, hs.ports]; rfl
  rw [hn, ho]
  exact hr.2 dir hd
theorem SameRoom.left {m : Nat} (hs : SameRoom s z) (hl : DrawsLeft s m) : DrawsLeft z m := by
  unfold DrawsLeft at hl ⊢
  rw [hs.me]
  exact hl

theorem State.cfg_countN (s : State) (r : CoreRef) (e : Fin 64) (m : Nat) : (s.countN r e m).cfg = s.cfg := by
  unfold State.countN; split <;> rfl
theorem State.cfg_bufError (s : State) (e : Nat × Bool) : (s.bufError e).cfg = s.cfg := by
  unfold State.bufError; split <;> rfl
theorem State.cfg_faultRecord (s : State) (tile kind cause va ctx core h : Nat) : (s.faultRecord tile kind cause va ctx core h).cfg = s.cfg := by
  unfold State.faultRecord; dsimp only; split <;> rfl
theorem State.cfg_found (s : State) (u : ThreadRef) (kind ctx k n : Nat) : (s.found u kind ctx k n).cfg = s.cfg := by
  unfold State.found
  split
  · rfl
  · rw [foldl_keeps State.cfg fun z e => State.cfg_faultRecord z ..]
    refine (State.cfg_countN ..).trans ((State.cfg_countN ..).trans ?_)
    rw [foldl_keeps State.cfg fun z e => State.cfg_bufError z e]
theorem SameRoom.counted (s : State) (e : Fin 64) (m : Nat) : SameRoom s (s.countN s.cur.coreRef e m) := by
  have hcur : (s.countN s.cur.coreRef e m).cur = s.cur := by unfold State.countN; split <;> rfl
  refine .of_frame (.countN ..) hcur (State.cfg_countN ..) ?_ ?_
  · rw [State.myKernel, hcur, State.kernel_countN]; rfl
  · rw [State.me, hcur, State.thread_countN]; rfl
theorem SameRoom.found (s : State) (u : ThreadRef) (kind ctx k n : Nat) : SameRoom s (s.found u kind ctx k n) :=
  .of_frame (.found ..) (State.found_cur ..) (State.cfg_found ..) (State.myKernel_found ..) (State.me_found ..)
theorem SameRoom.word (s : State) (tile a v : Nat) : SameRoom s (s.putWord tile a v) := .of_tiles rfl rfl rfl
theorem SameRoom.committed (s : State) (tile a tau pos : Nat) : SameRoom s (s.commitToken tile a tau pos).2 := by
  unfold State.commitToken
  dsimp only
  split
  · exact .of_tiles rfl rfl rfl
  · exact (((SameRoom.word ..).trans (.word ..)).trans (.word ..)).trans (.word ..)
theorem commitToken_code (s : State) (tile a tau pos : Nat) : (s.commitToken tile a tau pos).1 < 4 := by
  unfold State.commitToken
  dsimp only
  split
  · exact (by decide : 3 < 4)
  · dsimp only
    split
    · decide
    · split <;> split <;> decide

/-! ### The end of a draw -/

theorem intFits_of_small (hk : (s.ent d).kind = .uint ∨ (s.ent d).kind = .raw) (hw : 35 ≤ (s.ent d).width) (hr : Room s d) {v : Int} (hlo : 0 ≤ v)
    (hhi : v < 2 ^ 35) : IntFits s d v := by
  refine ⟨hr, fun _ => ?_⟩
  have hpow : (2 : Int) ^ 35 ≤ 2 ^ (s.ent d).width := by exact_mod_cast Nat.pow_le_pow_right (n := 2) (by decide) hw
  have hsint : (s.ent d).kind ≠ .sint := by rcases hk with hk | hk <;> rw [hk] <;> decide
  have hin : inRange (s.ent d).kind (s.ent d).width v = true := by
    simp only [inRange, kindLo, kindHi, if_neg hsint, Bool.and_eq_true, decide_eq_true_eq]
    exact ⟨hlo, by omega⟩
  rw [r69_inRange hin]; rfl
theorem State.writeDrawn_of_fits {s0 : State} {v : Int} (hf : IntFits z d v) : s.writeDrawn s0 i d v z = .ok (intPut z d v) := by
  rw [State.writeDrawn, State.writeInt_of_fits hf]

/-- The state that a draw of `nb` bad weights takes its number in (R328, R371). -/
def State.weighed (z : State) (nb k n : Nat) : State := (z.countN z.cur.coreRef 0x29 nb).found z.cur 0 z.myKernel.ctx k n
theorem SameRoom.weighed (z : State) (nb k n : Nat) : SameRoom z (z.weighed nb k n) := (SameRoom.counted z 0x29 nb).trans (.found ..)
theorem drawList_one (z : State) : drawList z 1 = [drawOf z.me.rkey.toNat z.me.rpos.toNat (z.me.ridx.toNat + 0)] := rfl
theorem draw_lt (z : State) : (drawList z 1).headD 0 / 2 ^ 32 < 2 ^ 32 := by
  have h := drawOf_lt z.me.rkey.toNat z.me.rpos.toNat (z.me.ridx.toNat + 0)
  rw [drawList_one, List.headD_cons]
  omega
/-- A draw that commits nothing has a token to write: the one it picks, or all ones with code 4 (R328). -/
theorem drawEnd_token (hroom : Room z d) (hl : DrawsLeft z 1) (hk : (z.ent d).kind = .uint ∨ (z.ent d).kind = .raw) (hw : 35 ≤ (z.ent d).width)
    (hlo : 0 ≤ base) (htop : base + us.length ≤ 2 ^ 32) :
    ∃ tok : Int, (us.sum = 0 ∧ tok = 0x4_FFFF_FFFF ∨ ∃ j : Nat, Picks us ((drawList (z.weighed nb k n) 1).headD 0 / 2 ^ 32) j ∧ tok = base + j) ∧
      drawEnd s i h d base us nb k n 0 sl z = .ok ((intPut (drawn (z.weighed nb k n) 1) d tok).done h) := by
  have hs := SameRoom.weighed z nb k n
  have hr : (s.countN s.cur.coreRef 0x29 nb).draws 1 (z.weighed nb k n) = .ok _ := State.draws_of_left (hs.left hl)
  have hfits {v : Int} (h0 : 0 ≤ v) (h1 : v < 2 ^ 35) : IntFits (drawn (z.weighed nb k n) 1) d v :=
    intFits_of_small (by rw [ent_drawn, hs.ent]; exact hk) (by rw [ent_drawn, hs.ent]; exact hw) (room_drawn (hs.room hroom) 1) h0 h1
  by_cases hz : us.sum = 0
  · exact ⟨_, .inl ⟨hz, rfl⟩, drawEnd_of_zero hr hz (State.writeDrawn_of_fits (hfits (by decide) (by decide)))⟩
  · obtain ⟨j, hj⟩ := exists_picks (draw_lt (z.weighed nb k n)) hz
    have hjl := hj.1
    exact ⟨_, .inr ⟨j, hj, rfl⟩, drawEnd_of_picks hr hj hlo (State.writeDrawn_of_fits (hfits (by omega) (by omega)))⟩

theorem weightUnits_length (l : List FVal) : (weightUnits l).length = l.length := by
  unfold weightUnits
  rw [List.length_map, List.length_map]
theorem weightsAt_length (s : State) (k n el : Nat) : (weightsAt s k n el).length = n := by
  rw [weightsAt, List.length_map, List.length_range]

theorem drawM_running {l slot cm bf : Nat} (hp : Passes s (.smpDraw h d a b) h [a, b] [d]) (hk : (s.ent d).kind = .uint ∨ (s.ent d).kind = .raw)
    (hw : 35 ≤ (s.ent d).width) (hx : s.read (.smpDraw h d a b) h a s = .ok (x, s1)) (hy : s.read (.smpDraw h d a b) h b s1 = .ok (y, s2))
    (hd : DrawDesc s s2 x y l n bf slot cm) (hr : s.ranOut = false) : drawM s h d a b =
      .error ((s.running (.smpDraw h d a b) (8 + (n * weightBytes bf + 63) / 64)).keepVal (slotCode (decide (cm = 1)) slot)) := by
  rw [drawM_of_read hp hk hw hx, hd.kept, drawAt_of_desc hy hd (fun h => absurd h (by rw [hr]; decide)), hr, if_neg Bool.false_ne_true, Nat.mul_comm n]
  rfl
theorem drawM_ran {l slot cm bf : Nat} (hp : Passes s (.smpDraw h d a b) h [a, b] [d]) (hk : (s.ent d).kind = .uint ∨ (s.ent d).kind = .raw)
    (hw : 35 ≤ (s.ent d).width) (hx : s.read (.smpDraw h d a b) h a s = .ok (x, s1)) (hy : s.read (.smpDraw h d a b) h b s1 = .ok (y, s2))
    (hd : DrawDesc s s2 x y l n bf slot cm) (hr : s.ranOut = true) (hq : s2.poisoned (localKey s2.cur.tile l) (weightBytes bf * n) = false)
    (he : drawEnd s (.smpDraw h d a b) h d y.val (weightUnits (weightsAt s2 (localKey s2.cur.tile l) n (weightBytes bf)))
      ((weightsAt s2 (localKey s2.cur.tile l) n (weightBytes bf)).filter badWeight).length (localKey s2.cur.tile l) (weightBytes bf * n)
      cm (slotAt (s2.myBlock.getD 0) slot) s2 = .ok t) : drawM s h d a b = .ok t := by
  rw [drawM_of_read hp hk hw hx, drawAt_of_desc hy hd (fun _ => hq), if_pos hr, he]; rfl

/-- A draw that commits writes its token's code and number, after the request slot has taken it (R310, R313, R328). -/
theorem drawEnd_of_commit {code : Nat} {j : Nat} (hr : (s.countN s.cur.coreRef 0x29 nb).draws 1 ((z.countN z.cur.coreRef 0x29 nb).found z.cur 0 z.myKernel.ctx k n) =
      .ok (ds, s3)) (hj : Picks us (ds.headD 0 / 2 ^ 32) j) (hq : s3.poisoned (localKey z.cur.tile sl) 128 = false)
    (hc : s3.commitToken z.cur.tile sl (base + j).toNat s3.me.rpos.toNat = (code, s2))
    (hw : s.writeDrawn (s.countN s.cur.coreRef 0x29 nb) i d ((code * 2 ^ 32 + (base + j).toNat : Nat) : Int) s2 = .ok t) :
    drawEnd s i h d base us nb k n 1 sl z = .ok (t.done h) := by
  have hpick := pickIndex_of_picks hj
  simp only [drawEnd, bind, Except.bind, hr, if_neg (sum_ne_zero_of_picks hj), hpick, if_true, hq, if_neg Bool.false_ne_true, hc, hw]; rfl
/-- A draw that commits has a token to write: one of the range with the code of its commit, or all ones with code 4 (R310, R328). -/
theorem drawEnd_commits (hroom : Room z d) (hl : DrawsLeft z 1) (hk : (z.ent d).kind = .uint ∨ (z.ent d).kind = .raw) (hw : 35 ≤ (z.ent d).width)
    (hlo : 0 ≤ base) (htop : base + us.length ≤ 2 ^ 32) (hclean : z.latent = []) (hq : z.poisoned (localKey z.cur.tile sl) 128 = false) :
    ∃ (y : State) (tok : Int), (∃ j : Nat, j < us.length ∧ tok % 2 ^ 32 = base + j ∨ tok = 0x4_FFFF_FFFF) ∧ tok / 2 ^ 32 < 5 ∧
      drawEnd s i h d base us nb k n 1 sl z = .ok ((intPut y d tok).done h) := by
  have hs := SameRoom.weighed z nb k n
  have hr : (s.countN s.cur.coreRef 0x29 nb).draws 1 (z.weighed nb k n) = .ok _ := State.draws_of_left (hs.left hl)
  have hfits {y : State} (hy : SameRoom (drawn (z.weighed nb k n) 1) y) {v : Int} (h0 : 0 ≤ v) (h1 : v < 2 ^ 35) : IntFits y d v :=
    intFits_of_small (by rw [hy.ent, ent_drawn, hs.ent]; exact hk) (by rw [hy.ent, ent_drawn, hs.ent]; exact hw)
      (hy.room (room_drawn (hs.room hroom) 1)) h0 h1
  by_cases hz : us.sum = 0
  · exact ⟨_, _, ⟨0, .inr rfl⟩, by decide, drawEnd_of_zero hr hz (State.writeDrawn_of_fits (hfits (.of_tiles rfl rfl rfl) (by decide) (by decide)))⟩
  · obtain ⟨j, hj⟩ := exists_picks (draw_lt (z.weighed nb k n)) hz
    have hjl := hj.1
    have hpoison : (drawn (z.weighed nb k n) 1).poisoned (localKey z.cur.tile sl) 128 = false := by
      have he : (drawn (z.weighed nb k n) 1).poison = z.poison := by
        have hlat : (z.countN z.cur.coreRef 0x29 nb).latent = [] := (State.countN_latent ..).trans hclean
        obtain hx | ⟨x, hx⟩ := drawn_eq (z.weighed nb k n) 1 <;> rw [hx, State.weighed, State.found_of_clean hlat]
        · exact State.countN_poison ..
        · exact State.countN_poison ..
      rw [State.poisoned, he]
      exact hq
    obtain ⟨code, y, hcommit⟩ : ∃ code y, (drawn (z.weighed nb k n) 1).commitToken z.cur.tile sl (base + j).toNat
        (drawn (z.weighed nb k n) 1).me.rpos.toNat = (code, y) := ⟨_, _, rfl⟩
    have hcode : code < 4 := by
      have h4 := commitToken_code (drawn (z.weighed nb k n) 1) z.cur.tile sl (base + j).toNat (drawn (z.weighed nb k n) 1).me.rpos.toNat
      rw [hcommit] at h4
      exact h4
    have hy : SameRoom (drawn (z.weighed nb k n) 1) y := by
      have hc := SameRoom.committed (drawn (z.weighed nb k n) 1) z.cur.tile sl (base + j).toNat (drawn (z.weighed nb k n) 1).me.rpos.toNat
      rw [hcommit] at hc
      exact hc
    refine ⟨y, _, ⟨j, .inl ⟨hjl, ?_⟩⟩, ?_, drawEnd_of_commit hr hj hpoison hcommit (State.writeDrawn_of_fits (hfits hy ?_ ?_))⟩ <;> omega
end

/-! ### Leaders of vector groups (R205, R206) -/

section
variable {s : State} {i : Instr} {h : Hdr} {a : NameRef} {tag : Nat} {early : Bool} {fin : List ThreadRef → State → State}

/-- A leader without an instruction under way goes on once its detached members wait where it does, and its attached ones have run what it forwarded. -/
theorem leadWait_of_ready (hrun : s.me.vgRun = none) (hat : ∀ f ∈ s.vgMembers s.cur .detached, (s.thread f).waitsAt tag s.me.pc = true)
    (hdone : ∀ f ∈ s.vgMembers s.cur .attached, (s.thread f).vgDone = true) :
    leadWait s i h tag early fin = .ok (fin (s.vgMembers s.cur .detached) s) := by
  have hall : ((s.vgMembers s.cur .detached).all (fun f => (s.thread f).waitsAt tag s.me.pc) &&
      (s.vgMembers s.cur .attached).all (fun f => (s.thread f).vgDone)) = true := by
    rw [List.all_eq_true.2 hat, List.all_eq_true.2 hdone]; rfl
  simp only [leadWait, hrun, hall, if_true]
  rfl
theorem joinM_of_leader {t : State} (hv : s.me.vg = .leader) (hp : Passes s (.vmovJoin h a) h [] [])
    (hl : leadWait s (.vmovJoin h a) h tagRejoin true (fun det z =>
      (det.foldl (fun (y : State) f => y.setThread f (y.thread f).leaveWait.attach) z).done h) = .ok t) : joinM s h a = .ok t := by
  simp only [joinM, hv, bind, Except.bind, State.issue_of_passes hp]
  exact hl
/-- A leader that leaves takes its detached members out, forwards its `leave` to the attached ones, and is solo. -/
def leaderLeaves (h : Hdr) (det : List ThreadRef) (z : State) : State :=
  let z1 := det.foldl (fun (y : State) f => y.setThread f (y.thread f).leaveWait.toSolo) z
  let z2 := (z1.forward z1.cur (.vmovLeave h) none z.me.pc (z.me.pc + 4 * h.form.words)).done h
  z2.setMe z2.me.toSolo
theorem leaveM_of_leader {t : State} (hv : s.me.vg = .leader) (hp : Passes s (.vmovLeave h) h [] [])
    (hl : leadWait s (.vmovLeave h) h tagLeave false (leaderLeaves h) = .ok t) : leaveM s h = .ok t := by
  simp only [leaveM, bind, Except.bind, State.issue_of_passes hp, hv]
  exact hl
theorem State.thread_foldl_not_mem {f : State → ThreadRef → Thread} {u : ThreadRef} (l : List ThreadRef) (s : State) (hu : u ∉ l) :
    (l.foldl (fun (z : State) r => z.setThread r (f z r)) s).thread u = s.thread u := by
  induction l generalizing s with
  | nil => rfl
  | cons r l ih =>
    rw [List.foldl_cons, ih _ fun hm => hu (List.mem_cons_of_mem _ hm), State.thread_setThread_other]
    rintro rfl
    exact hu List.mem_cons_self
/-- A leader is none of its detached members. -/
theorem State.me_foldl_detached {g : Thread → Thread} (hv : s.me.vg = .leader) :
    ((s.vgMembers s.cur .detached).foldl (fun (y : State) f => y.setThread f (g (y.thread f))) s).me = s.me := by
  have hcur : ((s.vgMembers s.cur .detached).foldl (fun (y : State) f => y.setThread f (g (y.thread f))) s).cur = s.cur :=
    foldl_keeps State.cur (f := fun (y : State) f => y.setThread f (g (y.thread f))) (fun _ _ => rfl) _ _
  rw [State.me, hcur]
  refine State.thread_foldl_not_mem (f := fun z r => g (z.thread r)) _ s fun hm => ?_
  have hvg := (Bool.and_eq_true_iff.1 (List.mem_filter.1 hm).2).1
  rw [show (s.thread s.cur).vg = .leader from hv] at hvg
  exact absurd hvg (by decide)
end

end Sys2Proof.Machine

namespace Sys2Proof.Proofs
open Sys2Proof.Machine Sys2Proof.Claims

theorem samplingCompletes : SamplingCompletes := by
  intro s h d a b
  refine ⟨fun s2 x y ⟨hw, hp, hr⟩ hs2 hx hy hlo hhi => ?seed, fun s1 D ⟨hw, hp, hr⟩ hd hs1 hl hD => ⟨fun ha hroom => ?pattern, fun x ha hx hlo hhi hf => ?bound⟩,
    fun z ⟨hw, hp, hr⟩ hn hf hz => ?pos, fun s2 y p blk k ⟨hw, hp, hr⟩ hwid hs2 hy hb hk h15 hpa ha hf hq => ?stop,
    fun s2 l n el bf slot cm T k c hp hr hk hwid hs2 hd h1 hn hbf hslot hcm hel hal hfit hT hlo htop hkey hboard hc hahead => ?draw⟩
  case seed =>
    subst hs2 hx hy
    refine congrArg finish (?_ : seedM s h a b = .ok _)
    rw [seedM_of_read hp (State.read_first hr) (State.read_second hr), if_neg (by omega)]; rfl
  case pattern =>
    subst ha hs1 hD
    exact congrArg finish (randM_of_pattern hp hd (State.draws_of_left hl) (State.putPat_of_room (room_drawn hroom 1)))
  case bound =>
    subst hs1 hD
    have hfits : IntFits (drawn (readSt s [a]) 1) d (((drawList (readSt s [a]) 1).headD 0 * x / 2 ^ 64 : Nat) : Int) := by
      refine ⟨room_drawn hf.1 1, ?_⟩
      rw [ent_drawn]
      exact hf.2
    have hnat : (srcOf s h a).val.toNat = x := by rw [hx]; rfl
    refine congrArg finish (randM_of_bound hp hd ha (State.read_first hr) (State.draws_of_left hl) (by rw [hx]; exact_mod_cast hlo)
      (by rw [hx]; exact_mod_cast hhi) ?_)
    rw [hnat]
    exact State.writeInt_of_fits hfits
  case pos =>
    subst hz
    exact congrArg finish (posM_of_write hp hf.1 hn (State.writeOne_of_fits hf))
  case stop =>
    subst hs2 hy hpa
    have hnat : (srcOf s h a).val.toNat = k := by rw [hk]; rfl
    refine (congrArg finish (stopM_of_slot (blk := blk) hp hwid (State.read_first hr) (State.read_second hr) hb (by omega) (by omega) ?_ ?_ ?_)).trans ?_
    · rw [hk]; exact ha
    · rw [hnat]; exact hf
    · rw [hnat]; exact hq
    · rw [hnat]; rfl
  case draw =>
    have hel : el = weightBytes bf := hel
    subst hs2 hel hkey hT
    have hcode : slotCode (decide (cm = 1)) slot = c := by
      rw [hc]
      by_cases h1 : cm = 1
      · rw [decide_eq_true h1, if_pos h1]
      · rw [decide_eq_false h1, if_neg h1]; rfl
    have desc (hblk : cm = 1 → (readSt s [a, b]).myBlock.isSome = true)
        (hfree : cm = 1 → (readSt s [a, b]).boardAny (readSt s [a, b]).cur.tile (slotAt ((readSt s [a, b]).myBlock.getD 0) slot) 128 = false) :
        DrawDesc s (readSt s [a, b]) (srcOf s h a) (srcOf (popped s a) h b) l n bf slot cm := {
      desc := hd
      one := h1
      count := hn
      form := hbf
      slotLt := hslot
      commit := hcm
      aligned := hal
      fits := hfit
      base := hlo
      top := htop
      block := hblk
      ahead := by rw [hcode]; exact hahead
      board := hboard
      slotFree := hfree }
    have hy : s.read (.smpDraw h d a b) h b (popped s a) = .ok (srcOf (popped s a) h b, readSt s [a, b]) := State.read_second hr
    have hent : (readSt s [a, b]).ent d = s.ent d := (readSt_pops [a, b] s).ent d
    refine ⟨fun hran h0 => ?runs, fun hran hq hl hroom => ⟨fun nb z us h0 hus hnb hz => ?token, fun blk p h1' hlat hblk hpa hfree hslotq => ?commit⟩⟩
    case runs =>
      have hdesc := desc (fun h => absurd (h.symm.trans h0) Nat.one_ne_zero) (fun h => absurd (h.symm.trans h0) Nat.one_ne_zero)
      exact congrArg finish (hcode ▸ drawM_running hp hk hwid (State.read_first hr) hy hdesc hran)
    case token =>
      have hdesc := desc (fun h => absurd (h.symm.trans h0) Nat.one_ne_zero) (fun h => absurd (h.symm.trans h0) Nat.one_ne_zero)
      subst h0 hz
      obtain ⟨tok, hpick, hend⟩ := drawEnd_token (s := s) (i := .smpDraw h d a b) (h := h) (us := us) (nb := nb)
        (k := localKey (readSt s [a, b]).cur.tile l) (n := weightBytes bf * n) (sl := slotAt ((readSt s [a, b]).myBlock.getD 0) slot) hroom hl
        (by rw [hent]; exact hk) (by rw [hent]; exact hwid) hlo (by rw [hus, weightUnits_length, weightsAt_length]; exact htop)
      exact ⟨tok, hpick, congrArg finish (drawM_ran hp hk hwid (State.read_first hr) hy hdesc hran hq (by rw [← hus, ← hnb]; exact hend))⟩
    case commit =>
      subst h1' hpa
      have hdesc := desc (fun _ => by rw [hblk]; rfl) (fun _ => by rw [hblk]; exact hfree)
      obtain ⟨z, tok, hpick, hcode, hend⟩ := drawEnd_commits (s := s) (i := .smpDraw h d a b) (h := h)
        (us := weightUnits (weightsAt (readSt s [a, b]) (localKey (readSt s [a, b]).cur.tile l) n (weightBytes bf))) (nb := (List.filter badWeight (weightsAt (readSt s [a, b]) (localKey (readSt s [a, b]).cur.tile l) n (weightBytes bf))).length)
        (k := localKey (readSt s [a, b]).cur.tile l) (n := weightBytes bf * n) (sl := slotAt blk slot) hroom hl
        (by rw [hent]; exact hk) (by rw [hent]; exact hwid) hlo (by rw [weightUnits_length, weightsAt_length]; exact htop) hlat hslotq
      rw [weightUnits_length, weightsAt_length] at hpick
      exact ⟨z, tok, hpick, hcode, congrArg finish (drawM_ran hp hk hwid (State.read_first hr) hy hdesc hran hq (by rw [hblk]; exact hend))⟩

theorem vectorGroupsComplete : VectorGroupsComplete := by
  intro s h a
  refine ⟨fun ⟨hw, hp, hr⟩ hv => congrArg finish (joinM_of_attached hv hp),
    fun fs ⟨hw, hp, hr⟩ hv hrun hfs hat hdone => ?join, fun ⟨hw, hp, hr⟩ hv => congrArg finish (leaveM_of_solo hv hp), fun z ⟨hw, hp, hr⟩ hv hz => ?leave,
    fun fs z ⟨hw, hp, hr⟩ hv hrun hfs hat hdone hz y hy => ?disband, fun t w v fs hw hy hst hv hb hc hf => ?form,
    fun t f l hi hd hb => execVgForward_of_due hi hd hb⟩
  case join =>
    subst hfs
    exact congrArg finish (joinM_of_leader hv hp (leadWait_of_ready hrun hat hdone))
  case leave =>
    subst hz
    exact congrArg finish (leaveM_of_attached hv hp)
  case disband =>
    subst hfs hz hy
    have hpc := State.me_foldl_detached (g := fun x => x.leaveWait.toSolo) hv
    rw [hpc]
    exact congrArg finish (leaveM_of_leader hv hp (leadWait_of_ready hrun hat hdone))
  case form =>
    have ht := not_mem_of_claims hw hy hb hf
    refine ⟨_, execVgForm_of_claims hw hy hst hv hb hc hf, by rw [State.thread_formed_leader ht], by rw [State.thread_formed_leader ht], ?_, fun f hm => ?_⟩
    · rw [State.thread_formed_leader ht]
      exact Thread.st_leaveWait hw
    · obtain ⟨-, -, u, d, hu, -⟩ := hf f hm
      rw [State.thread_formed_follower ht hm]
      exact ⟨rfl, rfl, Thread.st_leaveWait hu⟩

/-- Settles O59: each instruction's course, given the reads and the write that the state allows. -/
theorem laneInstructionsComplete : Obligations.LaneInstructionsComplete :=
  ⟨integerLanesComplete, floatLanesComplete, movesComplete, conversionsComplete, samplingCompletes, vectorGroupsComplete⟩

end Sys2Proof.Proofs
end

section
/-! What instructions on registers leave alone (06 R99): RegisterFrame speaks of every destination, `port.eng` among them; the word that completes a
command of the quantising kind there takes the command's draws from the thread's stream (R137). -/
namespace Sys2Proof.Proofs
open Sys2Proof.Machine Sys2Proof.Claims
set_option maxRecDepth 8000

/-- All but the last word of a command that quantises three elements under `rst`: header, addresses, and its one dimension. -/
def quantWords : List Word64 := [BitVec.ofNat 64 (2 * 2 ^ 56 + 1 * 2 ^ 52 + 5 * 2 ^ 23), 0, 0, 0, BitVec.ofNat 64 (3 * 2 ^ 44)]
/-- A core whose thread 0 has written them to `port.eng`. -/
def writingCore : Core :=
  { Core.fresh with cbuf := [⟨0, 6, quantWords, 0, 0, 0, 0, 0⟩], threads := Core.fresh.threads.set 0 { Thread.fresh with st := .ready } }
def writingState : State := { State.reset with cur := ⟨0, 2, 0⟩, tiles := [(0, { Tile.fresh with cores := Tile.fresh.cores.set 2 writingCore })] }
/-- The instruction that writes the last word. -/
def lastWord : Instr := .aluiSet ⟨.ext, .none, 0⟩ (.fixed .portEng) 0
/-- The index of the thread's stream after it. -/
def indexAfter : Option Nat := match exec lastWord writingState with
  | .next t => some t.me.ridx.toNat
  | _ => none

theorem indexAfter_eq : indexAfter = some 3 := by decide

/-- Refutes O52: an integer instruction that writes the last word of such a command moves the stream's index by three. -/
theorem not_registerFrame : ¬ Obligations.RegisterFrame := by
  intro h
  have hindex := indexAfter_eq
  unfold indexAfter at hindex
  split at hindex
  · next t hexec =>
    obtain ⟨-, -, -, -, -, -, -, -, -, -, -, hstream, -⟩ := h writingState t lastWord (.fixed .portEng) rfl rfl hexec
    have hzero : t.me.ridx.toNat = 0 := congrArg BitVec.toNat (hstream rfl).1
    exact absurd (Option.some.inj hindex) (by rw [hzero]; decide)
  · cases hindex

end Sys2Proof.Proofs
end

section
/-! Array instructions as they issue (O37): the operands they read, and the command that joins the queue. -/
namespace Sys2Proof.Machine
open Sys2Proof.Claims

section
variable {s s1 s2 z : State} {i : Instr} {h : Hdr} {a b : NameRef} {fs ds : List NameRef} {xs : List Src} {fn : Nat} {es : List SbEntry} {p q : Int}

/-! ### Lists of sources read (R99) -/

theorem State.readAll_nil (hx : s.readAll i h [] s1 = .ok (xs, s2)) : xs = [] ∧ s2 = s1 := by
  cases hx
  exact ⟨rfl, rfl⟩
theorem State.readAll_cons {n : NameRef} {l : List NameRef} (hx : s.readAll i h (n :: l) s1 = .ok (xs, s2)) :
    ∃ x t ys, s.read i h n s1 = .ok (x, t) ∧ s.readAll i h l t = .ok (ys, s2) ∧ xs = x :: ys := by
  rw [State.readAll] at hx
  cases hr : s.read i h n s1 with
  | error e => rw [hr] at hx; cases hx
  | ok p =>
    rw [hr] at hx
    cases hl : s.readAll i h l p.2 with
    | error e => simp only [bind, Except.bind, hl] at hx; cases hx
    | ok q =>
      simp only [bind, Except.bind, hl] at hx
      cases hx
      exact ⟨p.1, p.2, q.1, rfl, hl, rfl⟩
theorem State.readAll_one (hx : s.readAll i h [a] s1 = .ok (xs, s2)) : ∃ x, s.read i h a s1 = .ok (x, s2) ∧ xs = [x] := by
  obtain ⟨x, t, ys, hr, hl, rfl⟩ := State.readAll_cons hx
  obtain ⟨rfl, rfl⟩ := State.readAll_nil hl
  exact ⟨x, hr, rfl⟩
theorem State.readAll_two (hx : s.readAll i h [a, b] s1 = .ok (xs, s2)) :
    ∃ x t y, s.read i h a s1 = .ok (x, t) ∧ s.read i h b t = .ok (y, s2) ∧ xs = [x, y] := by
  obtain ⟨x, t, ys, hr, hl, rfl⟩ := State.readAll_cons hx
  obtain ⟨y, hy, rfl⟩ := State.readAll_one hl
  exact ⟨x, t, y, hr, hy, rfl⟩

/-! ### The issue and the queue (R156, R202) -/

/-- An instruction that names no more names than there are, with another breach, raises that one whatever its wait field is (R96). -/
theorem State.issue_of_refusal {c : Cause} {v : Word64} (hn : nameBreach s.myKernel h i fs ds = none) :
    s.issue i h fs ds (some (c, v)) = trapM s c v := by rw [State.issue, hn]
/-- The state with a command joined to the array's queue and its thread out of the rotation. -/
def mxJoined (s : State) (i : Instr) (fn : Nat) (a b : Int) (es : List SbEntry) (z : State) : State :=
  let t := z.setMyTile { z.myTile with board := z.myTile.board ++ es, mx := { z.myTile.mx with queue := z.myTile.mx.queue ++
    [⟨fn, a, b, z.cur.core, z.cur.h, none, z.myCore.crect, false, none, 0, none, none, none, false, none, 0, 0, false, []⟩] } }
  let y := t.setMe { t.me with st := .waiting, wait := some { s.newWait i .reply with took := s.tookOf i } }
  if (fn = 0 ∨ fn = 2) ∧ z.myTile.mx.queue = [] then y.mxBegin y.cur.tile else y
theorem mxArrive_of_room (he : es = mxEntries z.myTile.mx.cfg fn p q z.myCore.crect (.mx z.cur.core z.cur.h) z.cycle)
    (hl : z.myTile.board.length + es.length ≤ 16) : mxArrive s i fn p q z = .ok (mxJoined s i fn p q es z) := by
  subst he
  simp only [mxArrive, if_neg (Nat.not_lt.2 hl), List.isEmpty_iff, mxJoined]

/-- On another core than the arithmetic one an array instruction raises ACCESS. -/
theorem exec_mxCmd_of_role (hi : mxCmd i = some (h, fs, fn)) (hn : nameBreach s.myKernel h i fs [] = none) (hc : s.cur.core ≠ 2) :
    exec i s = .next (s.takeTrap s.cur .access s.me.pc (instrVal i)) := by
  have hrole : s.mxRole i = some (.access, instrVal i) := if_neg hc
  have hissue : s.issue i h fs [] (s.mxRole i) = trapM s .access (instrVal i) := by rw [hrole]; exact State.issue_of_refusal hn
  have one {k : Nat} {n : NameRef} (hf : fs = [n]) : mxOneM s i h k n = trapM s .access (instrVal i) := by
    rw [mxOneM, ← hf, hissue]; rfl
  have two {k : Nat} {n m : NameRef} (hf : fs = [n, m]) : mxTwoM s i h k n m = trapM s .access (instrVal i) := by
    rw [mxTwoM, ← hf, hissue]; rfl
  unfold mxCmd at hi
  split at hi <;> cases hi
  case h_1 => exact congrArg finish (one rfl)
  case h_2 => exact congrArg finish (one rfl)
  case h_3 => exact congrArg finish (show mxSwapM s _ h = trapM s .access _ by rw [mxSwapM, hissue]; rfl)
  case h_4 => exact congrArg finish (two rfl)
  case h_5 => exact congrArg finish (two rfl)
  case h_6 => exact congrArg finish (one rfl)
/-- On the arithmetic core it reads its operands and arrives at the array with them. -/
theorem exec_mxCmd_of_read (hi : mxCmd i = some (h, fs, fn)) (hp : Passes s i h fs []) (hc : s.cur.core = 2) (hx : s.readAll i h fs s = .ok (xs, s1)) :
    exec i s = finish (mxArrive s i fn (mxVal fn xs 0) (mxVal fn xs 1) s1) := by
  have hrole : s.mxRole i = none := if_pos hc
  have hissue : s.issue i h fs [] (s.mxRole i) = .ok s := by rw [hrole]; exact State.issue_of_passes hp
  have one {k : Nat} {n : NameRef} (hf : fs = [n]) : mxOneM s i h k n = mxArrive s i k (mxVal k xs 0) 0 s1 ∧ mxVal k xs 1 = 0 := by
    rw [hf] at hx
    obtain ⟨x, hr, rfl⟩ := State.readAll_one hx
    rw [mxOneM, ← hf, hissue]
    simp only [bind, Except.bind, hr]
    exact ⟨rfl, rfl⟩
  have two {k : Nat} {n m : NameRef} (hk : k ≠ 0) (hf : fs = [n, m]) : mxTwoM s i h k n m = mxArrive s i k (mxVal k xs 0) (mxVal k xs 1) s1 := by
    rw [hf] at hx
    obtain ⟨x, t, y, hr, hy, rfl⟩ := State.readAll_two hx
    rw [mxTwoM, ← hf, hissue]
    simp only [bind, Except.bind, hr, hy, mxVal, hk, false_and, if_false]
    rfl
  unfold mxCmd at hi
  split at hi <;> cases hi
  case h_1 => exact congrArg finish ((one rfl).1.trans (by rw [(one (k := 0) rfl).2]))
  case h_2 => exact congrArg finish ((one rfl).1.trans (by rw [(one (k := 1) rfl).2]))
  case h_3 =>
    obtain ⟨rfl, rfl⟩ := State.readAll_nil hx
    exact congrArg finish (show mxSwapM s1 _ h = _ by rw [mxSwapM, hissue]; rfl)
  case h_4 => exact congrArg finish (two (by decide) rfl)
  case h_5 => exact congrArg finish (two (by decide) rfl)
  case h_6 => exact congrArg finish ((one rfl).1.trans (by rw [(one (k := 5) rfl).2]))
end

end Sys2Proof.Machine

namespace Sys2Proof.Proofs
open Sys2Proof.Machine Sys2Proof.Claims

/-- Settles O37: the array's role, and the one course of its instructions on the arithmetic core. -/
theorem arrayInstructions : Obligations.ArrayInstructions := by
  refine fun s i h fs fn hi hn => ⟨fun hc => exec_mxCmd_of_role hi hn hc, fun hc hw xs s1 es z hx he hl hz => ?_⟩
  subst hz
  rw [exec_mxCmd_of_read hi ⟨hn, hw⟩ hc hx, mxArrive_of_room he hl]
  rfl

end Sys2Proof.Proofs
end

section
/-! Engine instructions (14 R281 to R283): the clause of EngineInstructions for `eng.status` speaks of every state, one whose thread has waited for room
in the command buffer among them; there the summary that it writes is that of the cycle in which it issued (R283). -/
namespace Sys2Proof.Proofs
open Sys2Proof.Machine Sys2Proof.Claims
set_option maxRecDepth 8000

/-- An `eng.status` to `port.eng`. -/
def statusToPort : Instr := .engStatus ⟨.ext, .none, 0⟩ (.fixed .portEng)
/-- Its wait for room: two commands stood submitted when it issued. -/
def summaryKept : WaitRec := ⟨statusToPort, 0, 0, 0, 0, none, .retry tagEng 1, none, [], none, false, some 2, []⟩
/-- A core whose thread 0 has waited so; the two commands have ended, and their room is free. -/
def emptiedCore : Core := { Core.fresh with threads := Core.fresh.threads.set 0 { Thread.fresh with st := .ready, wait := some summaryKept } }
def emptiedState : State := { State.reset with cur := ⟨0, 2, 0⟩, tiles := [(0, { Tile.fresh with cores := Tile.fresh.cores.set 2 emptiedCore })] }
/-- The words in the command buffer. -/
def commandWords (s : State) : List (List Word64) := s.myCore.cbuf.map (·.words)
/-- Those after the instruction. -/
def wordsAfter : Option (List (List Word64)) := match exec statusToPort emptiedState with
  | .next t => some (commandWords t)
  | _ => none
/-- Those that a write of the summary of now leaves. -/
def wordsOfNow : Option (List (List Word64)) := match State.writeOne emptiedState statusToPort (.fixed .portEng) 0 emptiedState with
  | .ok t => some (commandWords (t.done ⟨.ext, .none, 0⟩))
  | .error _ => none

theorem wordsAfter_eq : wordsAfter = some [[2]] := by decide
theorem wordsOfNow_eq : wordsOfNow = some [[0]] := by decide

/-- Refutes O39: the instruction writes the two commands of the cycle in which it issued, not the none of now. -/
theorem not_engineInstructions : ¬ Obligations.EngineInstructions := by
  intro h
  obtain ⟨-, -, -, hstatus⟩ := h emptiedState ⟨.ext, .none, 0⟩ (.fixed .portEng) (.fixed .zero) (.fixed .zero)
  have hp : Passes emptiedState statusToPort ⟨.ext, .none, 0⟩ [] [.fixed .portEng] := ⟨by decide, by decide⟩
  have hnow := wordsOfNow_eq
  unfold wordsOfNow at hnow
  split at hnow
  · next t hwrite =>
    have hexec := hstatus hp (by decide) t hwrite
    have hafter := wordsAfter_eq
    rw [wordsAfter, statusToPort, hexec] at hafter
    exact absurd (hnow.symm.trans hafter) (by decide)
  · cases hnow

end Sys2Proof.Proofs
end

section
/-! The capacity instructions (O41) and those of the vault (O42): each course, past its checks and reads, with the accesses it has made in order. -/
namespace Sys2Proof.Machine
open Sys2Proof.Claims

section
variable {s s1 s2 s3 s4 s5 s6 s7 : State} {i : Instr} {h : Hdr} {d a : NameRef} {x : Src} {b : PoolBlock} {es : List Nat} {sat : Nat}

/-- What every capacity instruction but `cap.stat` passes first: its issue, its operand, its port, and where its block lies. -/
structure CapStart (s s1 s2 : State) (i : Instr) (h : Hdr) (d a : NameRef) (x : Src) : Prop where
  passes : Passes s i h [a] [d]
  one : s.oneDst d = true
  operand : s.read i h a s = .ok (x, s1)
  port : s.portCheck d s1 = .ok ()
  aligned : x.val % 8 = 0
  low : 0 ≤ x.val
  high : x.val + 31 ≤ 0x7_FFFF
  unit : s.takeUnit i s1 = .ok s2

theorem CapStart.inside (hc : CapStart s s1 s2 i h d a x) : ¬ (x.val < 0 ∨ x.val + 31 > 0x7_FFFF) := by
  have h0 := hc.low
  have h1 := hc.high
  omega
theorem capCheck_none (s0 : State) : s0.capCheck none = .ok () := rfl

theorem poolM_of_bags {bags vs : List (List Nat)} {q : Nat} (hc : CapStart s s1 s2 i h d a x) (hb : (s.withUnit s2).capBlock i x.val s2 = .ok ((b, none), s3))
    (hl : b.listed = true) (hbags : (s.withUnit s2).capBags i b.list b.nb s3 = .ok (bags, q, none, s4))
    (hout : (s.withUnit s2).capOut i x.val.toNat q b true s4 = .ok ()) (htab : (s.withUnit s2).capTables i b s4 = .ok ())
    (hv : (s.withUnit s2).capPooled i b bags s4 = .ok (vs, sat, s5)) :
    let t := ((State.capPutOut b s5 b.out vs).countN s5.cur.coreRef 0x2A (b.beyond bags.flatten)).countN s5.cur.coreRef 0x2B sat
    poolM s i h d a = .ok ((b.readsTable (s.await h i d (.int (capStatus (b.beyond bags.flatten) b.nb)) t.leaveUnit)).undoing
      [s5.changed (localKey s5.cur.tile b.out) b.outLen t]) := by
  have hal : ¬ x.val % 8 ≠ 0 := Classical.not_not.2 hc.aligned
  simp only [poolM, State.issue_of_checks hc.passes hc.one, bind, Except.bind, hc.operand, hc.port, if_neg hal, if_neg hc.inside, hc.unit, hb, hl, if_true,
    hbags, Option.or_none, capCheck_none, hout, htab, hv, pure, Except.pure]

theorem getM_of_list {vs : List (List Nat)} (hc : CapStart s s1 s2 i h d a x) (hb : (s.withUnit s2).capBlock i x.val s2 = .ok ((b, none), s3))
    (hl : (s.withUnit s2).capList i x.val.toNat b none s3 = .ok (es, s4))
    (hout : (s.withUnit s2).capOut i x.val.toNat (b.list + 8 * b.nb) b true s4 = .ok ()) (htab : (s.withUnit s2).capTables i b s4 = .ok ())
    (hv : (s.withUnit s2).capGathered i b es s4 = .ok (vs, s5)) :
    let t := (State.capPutOut b s5 b.out vs).countN s5.cur.coreRef 0x2A (b.beyond es)
    getM s i h d a = .ok ((b.readsTable (s.await h i d (.int (capStatus (b.beyond es) b.nb)) t.leaveUnit)).undoing
      [s5.changed (localKey s5.cur.tile b.out) b.outLen t]) := by
  have hal : ¬ x.val % 8 ≠ 0 := Classical.not_not.2 hc.aligned
  simp only [getM, State.issue_of_checks hc.passes hc.one, bind, Except.bind, hc.operand, hc.port, if_neg hal, if_neg hc.inside, hc.unit, hb, hl,
    hout, htab, hv, pure, Except.pure]

theorem putM_of_updates {ws : List Nat} {rows : List (FVal × List FVal)} (hc : CapStart s s1 s2 i h d a x)
    (hb : (s.withUnit s2).capBlock i x.val s2 = .ok ((b, none), s3)) (hl : (s.withUnit s2).capList i x.val.toNat b none s3 = .ok (es, s4))
    (hout : (s.withUnit s2).capOut i x.val.toNat (b.list + 8 * b.nb) b false s4 = .ok ()) (htab : (s.withUnit s2).capTables i b s4 = .ok ())
    (hw : (s.withUnit s2).capLocals i b.out (b.outWords * b.nb) s4 = .ok (ws, s5)) (hp : (s.withUnit s2).capPages i b s5 es = .ok ())
    (hr : (s.withUnit s2).capRows i b es s5 = .ok (rows, s6))
    (hu : (s.withUnit s2).capUpdates i b ((List.range b.nb).map fun e => (es.getD e 0, b.vecOf ws e)) s6 = .ok (sat, s7)) :
    let t := (s7.countN s7.cur.coreRef 0x2A (b.beyond es)).countN s7.cur.coreRef 0x2B sat
    putM s i h d a = .ok ((b.readsTable (s.await h i d (.int (capStatus (b.beyond es) b.nb)) t.leaveUnit)).undoing
      (((s.withUnit s2).capSpans i b es s6).map fun p => s6.changed p.1 p.2 s7)) := by
  have hal : ¬ x.val % 8 ≠ 0 := Classical.not_not.2 hc.aligned
  simp only [putM, State.issue_of_checks hc.passes hc.one, bind, Except.bind, hc.operand, hc.port, if_neg hal, if_neg hc.inside, hc.unit, hb, hl,
    hout, htab, hw, hp, hr, hu, pure, Except.pure]

theorem capStatM_of_buffer {k : Fin 16} (hp : Passes s i h [a] [d]) (hd : s.oneDst d = true) (hx : s.read i h a s = .ok (x, s1))
    (hport : s.portCheck d s1 = .ok ()) (hk : x.val = (k.val : Int)) : capStatM s i h d a = .ok (s.await h i d (.int (s1.bufStatus k)) s1) := by
  have hin : ¬ (x.val < 0 ∨ x.val > 15) := by omega
  have hbuf : (⟨x.val.toNat % 16, Nat.mod_lt _ (by decide)⟩ : Fin 16) = k := Fin.ext (by rw [hk, Int.toNat_natCast]; exact Nat.mod_eq_of_lt k.isLt)
  simp only [capStatM, State.issue_of_checks hp hd, bind, Except.bind, hx, hport, if_neg hin, hbuf, pure, Except.pure]
end

/-! ### Vault records (R338, R339, R354 to R356) -/

section
variable {s s1 s2 s3 : State} {i : Instr} {h : Hdr} {d a b : NameRef} {x y : Src} {p : VaultAt} {n hd v : Nat} {ws : List Nat}

theorem fieldOf_low (x n : Nat) : fieldOf x 0 n = x % 2 ^ n := by rw [fieldOf, Nat.pow_zero, Nat.div_one]

theorem pointM_of_free (hp : Passes s i h [a] [d]) (hd : s.oneDst d = true) (hx : s.read i h a s = .ok (x, s1)) (hport : s.portCheck d s1 = .ok ())
    (hv : s.vaultAt i 0 false x.val s1 = .ok p) (hb : s1.bufBusy p.buf = false) :
    pointM s i h d a = .ok (s.await h i d (.int ((s1.buffers[p.buf]).point.toNat)) s1) := by
  simp only [pointM, State.issue_of_checks hp hd, bind, Except.bind, hx, hport, hv, hb, if_neg Bool.false_ne_true, pure, Except.pure]
theorem recScanM_of_record {r q : Nat} (hp : Passes s i h [a] [d]) (hd : s.oneDst d = true) (hx : s.read i h a s = .ok (x, s1))
    (hport : s.portCheck d s1 = .ok ()) (hal : x.val % 8 = 0) (hv : s.vaultAt i 0 false x.val s1 = .ok p) (hr : s1.scanRec p.e.key p.pa = (r, q, n)) :
    recScanM s i h d a = .ok ((s.await h i d (.int ((q * 2 ^ 40 + r * 2 ^ 32 + n : Nat) : Int)) (s1.scanFound p.e.key p.pa)).readsAt p.g (8 * (n + 3))) := by
  have hal' : ¬ x.val % 8 ≠ 0 := Classical.not_not.2 hal
  simp only [recScanM, State.issue_of_checks hp hd, bind, Except.bind, hx, hport, if_neg hal', hv, hr, pure, Except.pure]

/-- The state with the header of a record written and its buffer serving the thread (R355). -/
def State.begun (s : State) (p : VaultAt) (v : Nat) : State :=
  (s.recWrite p 0 v).setBuffer p.buf { (s.recWrite p 0 v).buffers[p.buf] with serving := some (s.recWrite p 0 v).cur }
theorem beginM_of_record (hs : s.stage = none) (hp : Passes s i h [a, b] [d]) (hd : s.oneDst d = true) (hx : s.read i h a s = .ok (x, s1))
    (hy : s.read i h b s1 = .ok (y, s2)) (hport : s.portCheck d s2 = .ok ()) (hal : x.val % 8 = 0) (hv : s.vaultAt i 2 true x.val s2 = .ok p)
    (hn : y.val = (n : Int)) (h1 : 1 ≤ n) (h2 : n ≤ 65535) (hb : s2.bufBusy p.buf = false) (ho : p.off = pointEnd (s2.buffers[p.buf]).point)
    (hfit : p.pa % 2 ^ 16 + 8 * (n + 3) ≤ 2 ^ 16) (hval : v = (pointSeq (s2.buffers[p.buf]).point + 1) % 2 ^ 24 * 2 ^ 40 + n) :
    beginM s i h d a b = .error (((s2.begun p v).hold i (.retry 12 v) none).undoing [s2.recChanged p 0 1 (s2.begun p v)]) := by
  have hal' : ¬ x.val % 8 ≠ 0 := Classical.not_not.2 hal
  have hin : ¬ (y.val < 1 ∨ y.val > 65535) := by omega
  have hnat : y.val.toNat = n := by rw [hn]; rfl
  have hbad : (p.off != pointEnd (s2.buffers[p.buf]).point || decide (p.pa % 2 ^ 16 + 8 * (n + 3) > 2 ^ 16)) = false := by
    rw [decide_eq_false (Nat.not_lt.2 hfit), ← ho]; simp
  subst hval
  simp only [beginM, hs, State.issue_of_checks hp hd, bind, Except.bind, hx, hy, hport, if_neg hal', hv, if_neg hin, hb, if_neg Bool.false_ne_true, hnat,
    hbad]
  rfl

/-- The state with the trailer of a record written and its buffer serving the thread (R339). -/
def State.trailed (s : State) (p : VaultAt) (hd : Nat) (ws : List Nat) : State :=
  let z := (s.recWrite p (hd % 2 ^ 16 + 1) hd).recWrite p (hd % 2 ^ 16 + 2) (checkOf 0 (hd :: ws.take (hd % 2 ^ 16)))
  z.setBuffer p.buf { z.buffers[p.buf] with serving := some z.cur }
theorem commitM_of_record (hs : s.stage = none) (hp : Passes s i h [a] [d]) (hone : s.oneDst d = true) (hx : s.read i h a s = .ok (x, s1))
    (hport : s.portCheck d s1 = .ok ()) (hal : x.val % 8 = 0) (hv : s.vaultAt i 2 true x.val s1 = .ok p) (hf : s.fenceOf i .recov s1 = .ok ())
    (hb : s1.bufBusy p.buf = false) (hr : s.recWords x.val.toNat p 0 1 s1 = .ok ([hd], s2)) (hgood : badHeader p.pa hd = false)
    (hseq : hd / 2 ^ 40 = (pointSeq (s2.buffers[p.buf]).point + 1) % 2 ^ 24) (ho : p.off = pointEnd (s2.buffers[p.buf]).point)
    (hw : s.recWords x.val.toNat p 1 (hd % 2 ^ 16 + 2) s2 = .ok (ws, s3)) :
    commitM s i h d a = .error (((s3.trailed p hd ws).hold i
      (.retry 12 (hd / 2 ^ 40 * 2 ^ 40 + (pointEnd (s2.buffers[p.buf]).point + 8 * (hd % 2 ^ 16 + 3)))) none).undoing
        [s3.recChanged p (hd % 2 ^ 16 + 1) 2 (s3.trailed p hd ws)]) := by
  have hal' : ¬ x.val % 8 ≠ 0 := Classical.not_not.2 hal
  have hbad : ¬ (badHeader p.pa hd = true ∨ hd / 2 ^ 40 ≠ (pointSeq (s2.buffers[p.buf]).point + 1) % 2 ^ 24 ∨
      p.off ≠ pointEnd (s2.buffers[p.buf]).point) := by
    rintro (h1 | h1 | h1)
    · rw [hgood] at h1; cases h1
    · exact h1 hseq
    · exact h1 ho
  simp only [commitM, hs, State.issue_of_checks hp hone, bind, Except.bind, hx, hport, if_neg hal', hv, hf, hb, if_neg Bool.false_ne_true, hr,
    List.headD_cons, if_neg hbad, fieldOf_low, hw]
  rfl

theorem commitM_of_durable (hs : s.stage = some (12, v)) (hu : s.undurable = false) : commitM s i h d a =
    .ok ((s.await h i d (.int v) (s.setBuffer s.myBuffer { s.buffers[s.myBuffer] with point := n64 v, serving := none })).undoing
      [.point s.myBuffer (s.buffers[s.myBuffer]).point]) := by
  simp only [commitM, hs, hu, if_neg Bool.false_ne_true]
theorem beginM_of_durable (hs : s.stage = some (12, v)) (hu : s.undurable = false) :
    beginM s i h d a b = .ok (s.await h i d (.int v) (s.setBuffer s.myBuffer { s.buffers[s.myBuffer] with serving := none })) := by
  simp only [beginM, hs, hu, if_neg Bool.false_ne_true]
theorem State.setBuffer_same (s : State) (k : Fin 16) (u : Buffer) : (s.setBuffer k u).buffers[k] = u := Vector.getElem_set_self _
end

end Sys2Proof.Machine

namespace Sys2Proof.Proofs
open Sys2Proof.Machine Sys2Proof.Claims

/-- Settles O41: the course of each capacity instruction. -/
theorem capacityTables : Obligations.CapacityTables := by
  intro s s1 s2 s3 s4 s5 h d a x b z hz hd hport hal hlo hhi
  subst hz
  have start {i : Instr} (hp : Passes s i h [a] [d]) (hx : s.read i h a s = .ok (x, s1)) (hu : s.takeUnit i s1 = .ok s2) : CapStart s s1 s2 i h d a x :=
    ⟨hp, hd, hx, hport, hal, hlo, hhi, hu⟩
  refine ⟨fun bags q vs sat hp hx hu hb hl hbags hout htab hv t ht => ?pool, fun es vs hp hx hu hb hl hout htab hv t ht => ?get,
    fun es ws rows s6 s7 sat hp hx hu hb hl hout htab hw hpages hr hup => ?put, fun k hp hx hk => congrArg finish (capStatM_of_buffer hp hd hx hport hk)⟩
  case pool =>
    subst ht
    exact congrArg finish (poolM_of_bags (start hp hx hu) hb hl hbags hout htab hv)
  case get =>
    subst ht
    exact congrArg finish (getM_of_list (start hp hx hu) hb hl hout htab hv)
  case put => exact congrArg finish (putM_of_updates (start hp hx hu) hb hl hout htab hw hpages hr hup)

/-- Settles O42: the course of each vault instruction, before and after its writes are durable. -/
theorem vaultRecords : Obligations.VaultRecords := by
  refine ⟨fun s s1 h d a x p hd hport => ⟨fun hp hx hv hb => congrArg finish (pointM_of_free hp hd hx hport hv hb),
      fun r q n hp hx hal hv hr => congrArg finish (recScanM_of_record hp hd hx hport hal hv hr)⟩,
    fun s s1 s2 h d a b x y p n hs hp hd hx hy hport hal hv hn h1 h2 hb ho hfit => ?begins,
    fun s s1 s2 s3 h d a x p hd ws hs hp hone hx hport hal hv hf hb hr hgood hseq ho hw => ?commits,
    fun s h d a b v hs hu => ⟨congrArg finish (commitM_of_durable hs hu), congrArg finish (beginM_of_durable hs hu)⟩⟩
  case begins =>
    exact ⟨s2.begun p _, _, rfl, congrArg finish (beginM_of_record hs hp hd hx hy hport hal hv hn h1 h2 hb ho hfit rfl),
      by rw [State.begun, State.setBuffer_same]; rfl, rfl⟩
  case commits => exact ⟨s3.trailed p hd ws, congrArg finish (commitM_of_record hs hp hone hx hport hal hv hf hb hr hgood hseq ho hw), rfl⟩

end Sys2Proof.Proofs
end

section
/-! Saves (O48): a request's time limit, the two kinds of save, and its withdrawal. -/
namespace Sys2Proof.Machine
open Sys2Proof.Claims

/-! ### Threads moved from one state to another -/

section
variable {s : State} {a b : TState}

/-- One thread moved. -/
def State.moveState (a b : TState) (z : State) (t : ThreadRef) : State := if (z.thread t).st = a then z.setThread t { z.thread t with st := b } else z
theorem State.setStates_eq (s : State) (ts : List ThreadRef) (a b : TState) : s.setStates ts a b = ts.foldl (State.moveState a b) s := rfl
theorem State.thread_moveState_other {t u : ThreadRef} (h : u ≠ t) (z : State) : (State.moveState a b z t).thread u = z.thread u := by
  unfold State.moveState
  split
  · rw [State.thread_setThread_other _ _ h]
  · rfl
theorem State.thread_moveState_same (z : State) (t : ThreadRef) :
    (State.moveState a b z t).thread t = if (z.thread t).st = a then { z.thread t with st := b } else z.thread t := by
  unfold State.moveState
  split
  · rw [State.thread_setThread_same]
  · rfl
theorem State.thread_setStates_other {ts : List ThreadRef} {u : ThreadRef} (h : u ∉ ts) (s : State) : (s.setStates ts a b).thread u = s.thread u := by
  rw [State.setStates_eq]
  induction ts generalizing s with
  | nil => rfl
  | cons t ts ih =>
    rw [List.foldl_cons, ih (fun hm => h (List.mem_cons_of_mem _ hm)), State.thread_moveState_other]
    rintro rfl
    exact h List.mem_cons_self
/-- A thread of the list that stands in the first state comes to stand in the second. -/
theorem State.st_setStates {ts : List ThreadRef} {u : ThreadRef} (hab : b ≠ a) (hm : u ∈ ts) (hu : (s.thread u).st = a) :
    ((s.setStates ts a b).thread u).st = b := by
  have moved (l : List ThreadRef) (z : State) (hz : (z.thread u).st = b) : ((l.foldl (State.moveState a b) z).thread u).st = b := by
    induction l generalizing z with
    | nil => exact hz
    | cons t l ih =>
      refine ih _ ?_
      by_cases htu : u = t
      · subst htu
        rw [State.thread_moveState_same, if_neg (by rw [hz]; exact hab), hz]
      · rw [State.thread_moveState_other htu, hz]
  rw [State.setStates_eq]
  induction ts generalizing s with
  | nil => cases hm
  | cons t ts ih =>
    rw [List.foldl_cons]
    by_cases htu : u = t
    · subst htu
      exact moved ts _ (by rw [State.thread_moveState_same, if_pos hu])
    · exact ih ((List.mem_cons.1 hm).resolve_left htu) (by rw [State.thread_moveState_other htu, hu])
theorem State.mem_setStates (s : State) (ts : List ThreadRef) (a b : TState) : (s.setStates ts a b).mem = s.mem := by
  rw [State.setStates_eq]
  refine foldl_keeps State.mem (fun z t => ?_) ts s
  unfold State.moveState
  split <;> rfl
end

/-! ### Requests (R218, R236 to R238) -/

section
variable {s : State} {gang : Nat} {g : Gang} {p : PreReq}

theorem execPreemptTimeout_of_late {t : ThreadRef} (hg : s.gang? gang = some g) (hp : g.preempt = some p) (hl : g.st = .live) (hf : p.forced = false)
    (ht : t ∈ s.gangThreads gang) (h1 : (s.thread t).st ≠ .stopped) (h2 : (s.thread t).st ≠ .halted) (hlim : p.since + (s.thread t).premax.toNat ≤ s.cycle) :
    execPreemptTimeout gang s = .next (s.forceSave (s.mates gang)) := by
  have hlate : ((s.gangThreads gang).any fun t =>
      let x := s.thread t
      x.st != .stopped && x.st != .halted && decide (p.since + x.premax.toNat ≤ s.cycle)) = true :=
    List.any_eq_true.2 ⟨t, ht, by simp [h1, h2, hlim]⟩
  simp only [execPreemptTimeout, hg, hp]
  exact if_pos ⟨hf, hl, .inl hlate⟩
theorem execCoopSave_of_ready (hg : s.gang? gang = some g) (hp : g.preempt = some p) (hr : ∀ m ∈ s.mates gang, s.coopReady m = true)
    (hsome : ∃ m ∈ s.mates gang, ∃ t ∈ s.gangThreads m.id, (s.thread t).st ≠ .halted) : execCoopSave gang s =
      .next ((s.mates gang).foldl (fun (z : State) m => z.saveGang m true s.cycle ((s.gangThreads m.id).map fun t => (t, (s.thread t).st))) s) := by
  obtain ⟨m, hm, t, ht, hst⟩ := hsome
  have hnot : ((s.mates gang).all fun m => (s.gangThreads m.id).all fun t => (s.thread t).st == .halted) = false :=
    List.all_eq_false.2 ⟨m, hm, by rw [List.all_eq_false.2 ⟨t, ht, by simpa using hst⟩]; exact Bool.false_ne_true⟩
  have hall : (!((s.mates gang).all s.coopReady) || (s.mates gang).all fun m => (s.gangThreads m.id).all fun t => (s.thread t).st == .halted) = false := by
    rw [List.all_eq_true.2 hr, hnot]; rfl
  simp only [execCoopSave, hg, hp, hall, if_neg Bool.false_ne_true]

/-- A forced save of a live gang whose areas are mapped has no refusal before its two parts. -/
theorem not_refused_of_asked (hl : g.st = .live) (hf : p.forced = true) (ha : ∀ m ∈ s.mates gang, s.areaOk m = true) :
    ¬ (p.forced = false ∨ g.st ≠ .live ∨ (s.mates gang).all s.areaOk = false) := by
  rw [List.all_eq_true.2 ha, hf, hl]; simp
theorem execForcedSave_of_unfrozen (hg : s.gang? gang = some g) (hp : g.preempt = some p) (hl : g.st = .live) (hf : p.forced = true)
    (ha : ∀ m ∈ s.mates gang, s.areaOk m = true) (hc : ∀ m ∈ s.mates gang, s.canFreeze m = true) (hz : p.frozen = []) (ht : s.gangThreads gang ≠ []) :
    execForcedSave gang s = .next ((s.mates gang).foldl State.freeze s) := by
  have hfreeze : (s.mates gang).all s.canFreeze = true ∧ ¬ (s.gangThreads gang).isEmpty = true :=
    ⟨List.all_eq_true.2 hc, by simpa [List.isEmpty_iff] using ht⟩
  simp only [execForcedSave, hg, hp, if_neg (not_refused_of_asked hl hf ha), hz, List.isEmpty_nil, if_true]
  exact if_pos hfreeze
theorem execForcedSave_of_frozen (hg : s.gang? gang = some g) (hp : g.preempt = some p) (hl : g.st = .live) (hf : p.forced = true)
    (ha : ∀ m ∈ s.mates gang, s.areaOk m = true) (hd : ∀ m ∈ s.mates gang, s.issuedDone m = true) (ho : ∀ m ∈ s.mates gang, s.storesOut m = true)
    (hz : p.frozen ≠ []) : execForcedSave gang s = .next (s.saveFrozen (s.mates gang) p.froze) := by
  have hempty : ¬ p.frozen.isEmpty = true := by simpa [List.isEmpty_iff] using hz
  have hout : ¬ ((s.mates gang).all s.issuedDone = false ∨ (s.mates gang).all s.storesOut = false) := by
    rw [List.all_eq_true.2 hd, List.all_eq_true.2 ho]; simp
  simp only [execForcedSave, hg, hp, if_neg (not_refused_of_asked hl hf ha), if_neg hempty, if_neg hout]
theorem execRequestWithdrawn_of_unforced (hg : s.gang? gang = some g) (hp : g.preempt = some p) (hf : p.forced = false) : execRequestWithdrawn gang s =
    .next ((s.modGang gang fun x => { x with preempt := none }).setStates (s.gangThreads gang) .stopped .ready) := by
  simp only [execRequestWithdrawn, hg, hp, hf, if_neg Bool.false_ne_true]
end

end Sys2Proof.Machine

namespace Sys2Proof.Proofs
open Sys2Proof.Machine Sys2Proof.Claims

/-- Settles O48: each save by its tests, and the threads of a request that is withdrawn one by one. -/
theorem saveSteps : Obligations.SaveSteps := by
  refine fun s gang g p hg hp hl => ⟨fun hf t ht h1 h2 hlim => execPreemptTimeout_of_late hg hp hl hf ht h1 h2 hlim,
    fun hr hsome => execCoopSave_of_ready hg hp hr hsome,
    fun hf hm hz ht => execForcedSave_of_unfrozen hg hp hl hf (fun m h => (hm m h).1) (fun m h => (hm m h).2) hz ht,
    fun hf hm hz => execForcedSave_of_frozen hg hp hl hf (fun m h => (hm m h).1) (fun m h => (hm m h).2.1) (fun m h => (hm m h).2.2) hz,
    fun hf => ⟨_, execRequestWithdrawn_of_unforced hg hp hf, ?_, fun t ht hst => ?_, fun t ht => ?_⟩⟩
  · rw [State.mem_setStates]; rfl
  · exact State.st_setStates (by decide) ht hst
  · rw [State.thread_setStates_other ht]; rfl

end Sys2Proof.Proofs
end

section
/-! A launch's course (O47): what binding, loading, sending status words and settling leave alone, and each step by its tests. -/
namespace Sys2Proof.Machine
open Sys2Proof.Claims

/-! ### What completions and loads leave of the launches, and of the tiles -/

section
variable {s : State}

theorem State.launches_postDone (z : State) (q : Nat) (tag : BitVec 32) (st : Nat) (res : Word64) : (z.postDone q tag st res).launches = z.launches := by
  unfold State.postDone State.postEntry
  rfl
theorem State.freed_launches (z : State) (q : Nat) : (z.freeQueue q).launches = z.launches := rfl
theorem State.freed_tiles (z : State) (q : Nat) : (z.freeQueue q).tiles = z.tiles := rfl

/-- The end of a request that no gang of its launch has to meet any more completes its commands: tiles stay, and of a launch its requests go. -/
theorem State.settlePre_keeps (s : State) (lid : Word64) : (s.settlePre lid).tiles = s.tiles ∧
    ∀ x ∈ (s.settlePre lid).launches, ∃ y ∈ s.launches, x.lid = y.lid ∧ x.contained = y.contained := by
  unfold State.settlePre
  split
  · next l hl =>
    split
    · exact ⟨rfl, fun x hx => ⟨x, hx, rfl, rfl⟩⟩
    · dsimp only
      constructor
      · refine foldl_keeps State.tiles (fun z p => ?_) _ _
        split
        · rw [State.tiles_postDone]; rfl
        · rw [State.tiles_postDone]; rfl
      · rw [foldl_keeps State.launches (fun z p => ?_)]
        · intro x hx
          obtain ⟨y, hy, rfl⟩ := List.mem_map.1 hx
          exact ⟨y, hy, by split <;> exact ⟨rfl, rfl⟩⟩
        · split
          · rw [State.launches_postDone]; rfl
          · rw [State.launches_postDone]; rfl
  · exact ⟨rfl, fun x hx => ⟨x, hx, rfl, rfl⟩⟩

theorem State.launches_loadKernel (s : State) (g : Gang) (tile pos : Nat) (rows : List Nat) : (s.loadKernel g tile pos rows).launches = s.launches := by
  unfold State.loadKernel
  split
  · split <;> rfl
  · rfl
theorem State.launches_claimRows (s : State) (r : CoreRef) (g : Gang) (pos : Nat) : (s.claimRows r g pos).launches = s.launches := by
  unfold State.claimRows
  split
  · rfl
  · dsimp only
    split
    · rw [State.launches_loadKernel]
      split <;> rfl
    · split <;> rfl
theorem State.launches_loadCore (s : State) (r : CoreRef) : (s.loadCore r).launches = s.launches := by
  unfold State.loadCore
  refine (rfl : (State.settleNames _ r).launches = _).trans ?_
  exact foldl_keeps State.launches (fun z g => foldl_keeps State.launches (fun y j => State.launches_claimRows y r g j) _ _) _ _
theorem State.launches_loadTile (s : State) (tile : Nat) : (s.loadTile tile).launches = s.launches := by
  unfold State.loadTile
  split
  · rfl
  · split
    · rfl
    · dsimp only
      split
      · rfl
      · split
        · split <;> rfl
        · rfl
theorem State.launches_loadGang (z : State) (l : List Nat) :
    (l.foldl (fun (y : State) k => (([0, 1, 2] : List (Fin 3)).foldl (fun (x : State) c => x.loadCore ⟨k, c⟩) y).loadTile k) z).launches = z.launches := by
  refine foldl_keeps State.launches (fun y k => ?_) l z
  rw [State.launches_loadTile]
  exact foldl_keeps State.launches (fun x c => State.launches_loadCore x ⟨k, c⟩) _ _
end

/-! ### Binding and starting a gang (R223 to R226) -/

section
variable {s : State} {lid : BitVec 64} {p : Place} {l : Launch} {g : Gang} {slots : List Nat}

/-- The state with a gang's record in the slot table: its threads' memories taken from the context, and the launch one gang further. -/
def State.recorded (s : State) (lid : BitVec 64) (l : Launch) (g : Gang) (slots : List Nat) : State :=
  let s1 := (s.modContext l.ctx fun c => { c with pused := c.pused ++ slots }).modLaunch lid fun x =>
    { x with nextGang := x.nextGang + 1, red := s.bindsReduced l, held := x.held && decide (l.nextGang + 1 ≠ l.gangs) }
  let s2 := if l.nextGang + 1 = l.gangs ∧ l.held = true then s1.freeQueue l.q else s1
  { s2 with gangs := s2.gangs ++ [g] }
theorem execBindRecordWrite_of_next (hl : s.launch? lid = some l) (hs : ∀ v ∈ s.saved, v.gang.lid ≠ lid) (hn : s.nextRecord l p = some (g, slots)) :
    execBindRecordWrite lid p s = .next ((s.recorded lid l g slots).loadGang g) := by
  have hnone : (s.saved.find? fun v => v.gang.lid == lid && v.back && !(s.gangs.any fun g => g.lid == lid && g.num == v.gang.num)) = none := by
    refine List.find?_eq_none.2 fun v hv => ?_
    rw [beq_eq_false_iff_ne.2 (hs v hv)]
    exact Bool.false_ne_true
  simp only [execBindRecordWrite, hl, hnone, hn]
  rfl
theorem State.recorded_frame (s : State) (lid : BitVec 64) (l : Launch) (g : Gang) (slots : List Nat) :
    (s.recorded lid l g slots).gangs = s.gangs ++ [g] ∧ (s.recorded lid l g slots).mem = s.mem ∧ (s.recorded lid l g slots).tiles = s.tiles := by
  unfold State.recorded
  dsimp only
  split <;> exact ⟨rfl, rfl, rfl⟩

theorem execGangStart_of_loaded {die slot : Nat} (hg : s.gang? (64 * die + slot) = some g) (hl : g.loaded s.cycle = true) (hr : g.resume = none) :
    execGangStart die slot s = .next ((s.modGang (64 * die + slot) fun x => { x with st := .live, start := s.cycle }).setStates
      (s.gangThreads (64 * die + slot)) .loading .ready) := by
  simp only [execGangStart, hg, hl, Bool.not_true, if_neg Bool.false_ne_true, hr, Option.bind_none]

/-! ### Releases (R221, R231) -/

variable {k : CoreRef} {x : Kernel}

theorem execLeaseRowRelease_of_more (hx : (s.core k).kernels.find? (fun x => s.releasesNow k x) = some x) (hm : x.freed + 1 < x.phys.length) :
    execLeaseRowRelease k s =
      .next ((s.setCore k ((s.core k).modKernel x.sb fun y => { y with freed := y.freed + 1, relCyc := s.cycle + 1 })).loadCore k) := by
  simp only [execLeaseRowRelease, hx, if_pos hm]
theorem execLeaseRowRelease_of_last (hx : (s.core k).kernels.find? (fun x => s.releasesNow k x) = some x) (hm : x.phys.length ≤ x.freed + 1)
    {l : List Nat} (hl : l = x.hthreads.filterMap fun h => ((s.core k).threads[h]).privSlot) : execLeaseRowRelease k s =
      .next ((((s.setCore k ((s.core k).without x)).freeSlots x.ctx l).modGang x.gang fun g => { g with back := g.back ++ l }).loadCore k) := by
  subst hl
  simp only [execLeaseRowRelease, hx, if_neg (Nat.not_lt.2 hm)]

/-- The tile as its image's release leaves it. -/
def Tile.released (t : Tile) (smp : Bool) : Tile :=
  { t with gang := none, image := none, cores := if smp then t.cores.set 2 { t.cores[2] with smp := false } else t.cores }
/-- The state with a tile's image free; its gang goes with the last of them. -/
def State.imageFreed (s : State) (tile id : Nat) (y : Gang) : State :=
  let s1 := s.setTile tile ((s.tile tile).released y.smp)
  if (s1.gangTiles y).any fun k => (s1.tile k).image == some id then s1 else ({ s1 with gangs := s1.gangs.filter fun x => x.id != id }).settlePre y.lid
theorem State.tile_imageFreed (s : State) (tile id : Nat) (y : Gang) : (s.imageFreed tile id y).tile tile = (s.tile tile).released y.smp := by
  have hset : (s.setTile tile ((s.tile tile).released y.smp)).tile tile = (s.tile tile).released y.smp := State.tile_setTile_same ..
  unfold State.imageFreed
  dsimp only
  split
  · exact hset
  · refine Eq.trans ?_ hset
    rw [State.tile, (State.settlePre_keeps _ y.lid).1]
    rfl
theorem execImageRelease_of_idle {tile id : Nat} {y : Gang} (hi : (s.tile tile).image = some id) (hg : s.gang? id = some y)
    (hst : y.st = .live ∨ y.st = .draining) (hk : ∀ c : Fin 3, ∀ k ∈ ((s.tile tile).cores[c]).kernels, k.gang ≠ id) :
    execImageRelease tile s = .next ((s.imageFreed tile id y).loadTile tile) := by
  have hidle : ((List.finRange 3).any fun c => (s.tile tile).cores[c].kernels.any fun k => k.gang == id) = false :=
    List.any_eq_false.2 fun c _ => by
      rw [Bool.not_eq_true, List.any_eq_false]
      exact fun k hm => by simpa using hk c k hm
  have hfree : (((List.finRange 3).any fun c => (s.tile tile).cores[c].kernels.any fun k => k.gang == id) ||
      !(decide (y.st = .live) || decide (y.st = .draining))) = false := by
    rw [hidle]
    rcases hst with hst | hst <;> rw [hst] <;> rfl
  simp only [execImageRelease, hi, hg, hfree, if_neg Bool.false_ne_true]
  rfl

/-! ### Completion and containment (R232, R372) -/

theorem execLaunchComplete_of_words (hl : s.launch? lid = some l) (hd : l.done = none) (hc : l.contained = false)
    (hskip : ¬ (l.nextGang = 0 ∧ s.depsTrapped l = true)) (hup : s.cpDown[(0 : Fin 2)] = false) (hw : l.words.length = l.gangs * l.kerns.length) :
    execLaunchComplete lid s = .next ((s.modLaunch lid fun x => { x with done := some (n64 l.combined.1, 0), rgang := l.combined.2 }).postDone l.q l.tag 0
      (n64 l.combined.1)) := by
  have hopen : ¬ (l.done.isSome = true ∨ l.contained = true ∨ s.cpDown[(0 : Fin 2)] = true) := by rw [hd, hc, hup]; simp
  have hrun : ¬ (l.nextGang = 0 ∧ s.depsDone l = true ∧ s.depsTrapped l = true) := fun h => hskip ⟨h.1, h.2.2⟩
  simp only [execLaunchComplete, hl, if_neg hopen, if_neg hrun, if_pos hw]

/-! ### Status words towards the root (R232) -/

/-- The step of one kernel of `sendWords`: its word, where it is complete, is noted as sent and on its way. -/
def sendStep (g : Gang) (tile : Nat) (z : State) (j : Nat) : State :=
  match z.wordOf g tile j with
  | none => z
  | some w =>
    let p := z.gangPos g tile
    let z1 := z.setTile tile { z.tile tile with sent := (z.tile tile).sent ++ [j] }
    let z2 := { z1 with flying := z1.flying ++ [⟨g.lid, g.num, p, j, w, z.cycle + if p = (0, 0) then 0 else 4⟩] }
    if p = (0, 0) ∧ ((z.tile tile).sent ++ [j]).length = g.kerns.length then z2.modGang g.id fun x => { x with st := .draining } else z2
/-- What such steps keep: the tile but for its list of words sent, which grows, as the words on their way do. -/
structure Sends (tile : Nat) (s z : State) : Prop where
  cfg : z.cfg = s.cfg
  cycle : z.cycle = s.cycle
  mem : z.mem = s.mem
  tile : ∃ l, z.tile tile = { s.tile tile with sent := (s.tile tile).sent ++ l }
  flying : ∃ l, z.flying = s.flying ++ l
theorem Sends.refl (tile : Nat) (s : State) : Sends tile s s := ⟨rfl, rfl, rfl, ⟨[], by rw [List.append_nil]⟩, ⟨[], by rw [List.append_nil]⟩⟩
theorem Sends.trans {tile : Nat} {z t : State} (h1 : Sends tile s z) (h2 : Sends tile z t) : Sends tile s t := by
  obtain ⟨l, hl⟩ := h1.tile
  obtain ⟨m, hm⟩ := h2.tile
  obtain ⟨a, ha⟩ := h1.flying
  obtain ⟨b, hb⟩ := h2.flying
  exact ⟨h2.cfg.trans h1.cfg, h2.cycle.trans h1.cycle, h2.mem.trans h1.mem, ⟨l ++ m, by rw [hm, hl, List.append_assoc]⟩,
    ⟨a ++ b, by rw [hb, ha, List.append_assoc]⟩⟩
theorem Sends.step {tile : Nat} (g : Gang) (z : State) (j : Nat) : Sends tile z (sendStep g tile z j) := by
  unfold sendStep
  split
  · exact .refl tile z
  · dsimp only
    split
    · exact ⟨rfl, rfl, rfl, ⟨[j], State.tile_setTile_same ..⟩, ⟨_, rfl⟩⟩
    · exact ⟨rfl, rfl, rfl, ⟨[j], State.tile_setTile_same ..⟩, ⟨_, rfl⟩⟩
theorem Sends.steps {tile : Nat} (g : Gang) (l : List Nat) (z : State) : Sends tile z (l.foldl (sendStep g tile) z) := by
  induction l generalizing z with
  | nil => exact .refl tile z
  | cons j l ih => exact (Sends.step g z j).trans (ih _)
theorem Sends.gangPos {tile : Nat} {z : State} (h : Sends tile s z) (g : Gang) (k : Nat) : z.gangPos g k = s.gangPos g k := by
  simp only [State.gangPos, State.ccol, State.svc, h.cfg]
  rfl

/-- The words sent after a step for another kernel hold this one where they did before. -/
theorem sent_sendStep {tile kern j : Nat} (hj : j ≠ kern) (g : Gang) (z : State) :
    ((sendStep g tile z j).tile tile).sent.contains kern = (z.tile tile).sent.contains kern := by
  have hadd : (((z.setTile tile { z.tile tile with sent := (z.tile tile).sent ++ [j] }).tile tile).sent).contains kern =
      (z.tile tile).sent.contains kern := by
    rw [State.tile_setTile_same]
    simp [hj.symm]
  unfold sendStep
  split
  · rfl
  · dsimp only
    split <;> exact hadd
theorem wordOf_sendStep {tile kern j : Nat} (hj : j ≠ kern) (g : Gang) (z : State) : (sendStep g tile z j).wordOf g tile kern = z.wordOf g tile kern := by
  have hs := Sends.step (tile := tile) g z j
  obtain ⟨l, hl⟩ := hs.tile
  have hsent := sent_sendStep (tile := tile) hj g z
  unfold State.wordOf
  rw [hs.gangPos]
  simp only [hl] at hsent ⊢
  simp only [hsent]
theorem sendStep_of_word {tile kern : Nat} {w : Word64} (hw : s.wordOf g tile kern = some w) (hp : s.gangPos g tile ≠ (0, 0)) :
    kern ∈ ((sendStep g tile s kern).tile tile).sent ∧ ⟨g.lid, g.num, s.gangPos g tile, kern, w, s.cycle + 4⟩ ∈ (sendStep g tile s kern).flying := by
  have hnot : ¬ (s.gangPos g tile = (0, 0) ∧ ((s.tile tile).sent ++ [kern]).length = g.kerns.length) := fun h => hp h.1
  simp only [sendStep, hw, if_neg hnot, if_neg hp]
  refine ⟨?_, List.mem_append_right _ List.mem_cons_self⟩
  have hset : (s.setTile tile { s.tile tile with sent := (s.tile tile).sent ++ [kern] }).tile tile = { s.tile tile with sent := (s.tile tile).sent ++ [kern] } :=
    State.tile_setTile_same ..
  refine (congrArg (fun t : Tile => kern ∈ t.sent) hset).mpr ?_
  exact List.mem_append_right _ List.mem_cons_self
/-- A word that is complete is sent, whatever the steps for the other kernels do. -/
theorem sendSteps_of_word {tile kern : Nat} {w : Word64} {l : List Nat} (hk : kern ∈ l) (hw : s.wordOf g tile kern = some w)
    (hp : s.gangPos g tile ≠ (0, 0)) : kern ∈ ((l.foldl (sendStep g tile) s).tile tile).sent ∧
      ⟨g.lid, g.num, s.gangPos g tile, kern, w, s.cycle + 4⟩ ∈ (l.foldl (sendStep g tile) s).flying := by
  induction l generalizing s with
  | nil => cases hk
  | cons j l ih =>
    rw [List.foldl_cons]
    by_cases hj : j = kern
    · subst hj
      obtain ⟨hsent, hfly⟩ := sendStep_of_word hw hp
      obtain ⟨a, ha⟩ := (Sends.steps (tile := tile) g l (sendStep g tile s j)).tile
      obtain ⟨b, hb⟩ := (Sends.steps (tile := tile) g l (sendStep g tile s j)).flying
      rw [ha, hb]
      exact ⟨List.mem_append_left _ hsent, List.mem_append_left _ hfly⟩
    · have hs := Sends.step (tile := tile) g s j
      have := ih ((List.mem_cons.1 hk).resolve_left (Ne.symm hj)) ((wordOf_sendStep hj g s).trans hw) (by rw [hs.gangPos]; exact hp)
      rw [hs.gangPos, hs.cycle] at this
      exact this
theorem State.sendWords_eq {tile : Nat} (ht : (s.tile tile).gang = some g.id) (hg : s.gang? g.id = some g) (hst : g.st = .live) :
    s.sendWords tile = (List.range g.kerns.length).foldl (sendStep g tile) s := by
  have hlive : ¬ g.st ≠ .live := Classical.not_not.2 hst
  simp only [State.sendWords, ht, Option.bind_some, hg, if_neg hlive]
  rfl

/-- The gang at whose tile a message arrives. -/
def State.homeOfWord (s : State) (tile : Nat) (m : StatusMsg) : Option Gang :=
  s.gangs.find? fun g => g.lid == m.lid && g.num == m.num && (g.st == .live || g.st == .draining) && s.gangTile g m.pos.1 m.pos.2 == tile
variable {tile : Nat} {m : StatusMsg} {ms : List StatusMsg}
theorem find_word (hf : s.flying = m :: ms) (hd : m.due ≤ s.cycle) (hg : s.homeOfWord tile m = some g) :
    (s.flying.find? fun x => x.kern == m.kern && decide (x.due ≤ s.cycle) && (s.homeOfWord tile x).isSome) = some m ∧ s.flying.erase m = ms := by
  rw [hf]
  refine ⟨List.find?_cons_of_pos ?_, List.erase_cons_head ..⟩
  rw [hg, decide_eq_true hd]
  simp
theorem execStatusWordArrive_of_root {die : Fin 2} (hf : s.flying = m :: ms) (hd : m.due ≤ s.cycle) (hg : s.homeOfWord tile m = some g)
    (hp : m.pos = (0, 0)) (hdie : g.die = die.val) :
    (s.cpDown[die] = false → execStatusWordArrive tile m.kern s =
      .next (({ s with flying := ms } : State).modLaunch m.lid fun x => { x with words := x.words ++ [(m.num, m.kern, m.word)] })) ∧
    (s.cpDown[die] = true → (s.cpq[die]).length < 64 → execStatusWordArrive tile m.kern s =
      .next { s with flying := ms, cpq := s.cpq.set die (s.cpq[die] ++ [.word m.lid m.num m.kern m.word]) }) := by
  obtain ⟨hfind, herase⟩ := find_word hf hd hg
  have hdie' : (⟨g.die % 2, Nat.mod_lt _ (by decide)⟩ : Fin 2) = die := Fin.ext (by rw [hdie]; exact Nat.mod_eq_of_lt die.isLt)
  subst hdie'
  unfold State.homeOfWord at hfind hg
  constructor
  · intro hup
    simp only [execStatusWordArrive, hfind, herase, if_pos hp, hg, if_pos hup]
    rfl
  · intro hdown hroom
    have hnot : ¬ s.cpDown[(⟨g.die % 2, Nat.mod_lt _ (by decide)⟩ : Fin 2)] = false := by rw [hdown]; decide
    simp only [execStatusWordArrive, hfind, herase, if_pos hp, hg, if_neg hnot, if_pos hroom]
theorem execStatusWordArrive_of_node (hf : s.flying = m :: ms) (hd : m.due ≤ s.cycle) (hg : s.homeOfWord tile m = some g) (hp : m.pos ≠ (0, 0)) {q : Nat}
    (hq : q = if m.pos.1 > 0 then s.gangTile g (m.pos.1 - 1) m.pos.2 else s.gangTile g 0 (m.pos.2 - 1)) : execStatusWordArrive tile m.kern s =
      .next ((({ s with flying := ms } : State).setTile q { s.tile q with child := (s.tile q).child ++ [(m.kern, m.word)] }).sendWords q) := by
  obtain ⟨hfind, herase⟩ := find_word hf hd hg
  unfold State.homeOfWord at hfind hg
  subst hq
  simp only [execStatusWordArrive, hfind, herase, if_neg hp, hg]
  rfl

/-! ### Containment (R372) -/

/-- No launch that is to be contained has an identifier. -/
def State.NoneAsked (lid : BitVec 64) (s : State) : Prop := ∀ x ∈ s.launches, x.contained = true → x.lid ≠ lid
theorem State.NoneAsked.settled {z : State} (h : z.NoneAsked lid) (n : Word64) : (z.settlePre n).NoneAsked lid := by
  intro x hx hc
  obtain ⟨y, hy, hlid, hcont⟩ := (State.settlePre_keeps z n).2 x hx
  rw [hlid]
  exact h y hy (hcont.symm.trans hc)
theorem State.NoneAsked.of_launches {z t : State} (h : z.NoneAsked lid) (ht : t.launches = z.launches) : t.NoneAsked lid := by
  unfold State.NoneAsked
  rw [ht]
  exact h
theorem noneAsked_renamed (z : State) (n : Word64) {ls : List Launch} (hl : z.launches = ls.map fun x => if x.lid = lid then
    { x with lid := n, old := lid :: x.old, attempts := x.attempts + 1, nextGang := 0, words := [], contained := false } else x) : z.NoneAsked lid := by
  intro x hx hc
  rw [hl] at hx
  obtain ⟨y, -, rfl⟩ := List.mem_map.1 hx
  split at hc
  · cases hc
  · next hy => rwa [if_neg hy]
theorem execContainNode_of_asked (hl : s.launch? lid = some l) (hc : l.contained = true) : ∃ z : State, execContainNode lid s = .next z ∧ z.NoneAsked lid := by
  have hask : ¬ l.contained = false := by rw [hc]; decide
  simp only [execContainNode, hl, if_neg hask]
  refine ⟨_, rfl, State.NoneAsked.settled (State.NoneAsked.of_launches ?_ (foldl_keeps State.launches (fun z g => State.launches_loadGang z _) _ _)) _⟩
  exact noneAsked_renamed _ _ rfl
end

end Sys2Proof.Machine

namespace Sys2Proof.Proofs
open Sys2Proof.Machine Sys2Proof.Claims

/-- Settles O47: each step of a launch's course by its tests; the status words by the steps that send them, kernel by kernel. -/
theorem launchSteps : Obligations.LaunchSteps := by
  refine ⟨fun s lid p l g slots hl hs hn => ?bind, fun s die slot g hg hl hr => ?start, fun s k x hx hm => execLeaseRowRelease_of_more hx hm,
    fun s k x hx hm l hl => execLeaseRowRelease_of_last hx hm hl, fun s tile id x hi hg hst hk => ?image,
    fun s tile kern g w ht hg hst hk hw hp => ?send, fun s tile m l g hf hd hg => ⟨fun die hp hdie => execStatusWordArrive_of_root hf hd hg hp hdie, ?west, ?north⟩,
    fun s lid l hl hd hc hskip hup hw => ?complete, fun s lid l hl hc => execContainNode_of_asked hl hc⟩
  case bind => exact ⟨_, execBindRecordWrite_of_next hl hs hn, s.recorded_frame lid l g slots⟩
  case start =>
    refine ⟨_, execGangStart_of_loaded hg hl hr, ?_, fun t ht hst => ?_, fun t ht => ?_⟩
    · rw [State.mem_setStates]; rfl
    · exact State.st_setStates (by decide) ht hst
    · rw [State.thread_setStates_other ht]; rfl
  case image =>
    exact ⟨_, execImageRelease_of_idle hi hg hst hk, by rw [State.tile_imageFreed]; rfl, by rw [State.tile_imageFreed]; rfl⟩
  case send =>
    rw [State.sendWords_eq ht hg hst]
    obtain ⟨hsent, hfly⟩ := sendSteps_of_word (List.mem_range.2 hk) hw hp
    exact ⟨hsent, (Sends.steps g _ s).mem, hfly⟩
  case west =>
    intro q hx hq
    exact execStatusWordArrive_of_node hf hd hg (fun hp => by rw [hp] at hx; exact absurd hx (by decide)) (by rw [hq, if_pos hx])
  case north =>
    intro q hx hy hq
    exact execStatusWordArrive_of_node hf hd hg (fun hp => by rw [hp] at hy; exact absurd hy (by decide)) (by rw [hq, if_neg (by omega)])
  case complete =>
    refine ⟨_, execLaunchComplete_of_words hl hd hc hskip hup hw, rfl, { l with done := some (n64 l.combined.1, 0), rgang := l.combined.2 }, ?_, rfl, rfl⟩
    exact (State.launch?_modLaunch (f := fun x => { x with done := some (n64 l.combined.1, 0), rgang := l.combined.2 }) fun _ => rfl).trans
      (by rw [hl]; rfl)

end Sys2Proof.Proofs
end

section
/-! Misses, invalidation and memory errors (O49): the miss ring's word, the head of each list a step takes, and what reporting an error leaves latent. -/
namespace Sys2Proof.Machine
open Sys2Proof.Claims

section
variable {s : State}

/-! ### The bits of words -/

theorem full_putLocalWord_same (s : State) (tile a v : Nat) : (s.putLocalWord tile a v).full (localKey tile a) = true := by
  refine congrArg (fun b => !b) (?_ : (dropKey s.empties (localKey tile a / 8)).contains (localKey tile a / 8) = false)
  simp [dropKey]
/-- Writing one word leaves a full word full. -/
theorem full_putLocalWord_of_full {tile a k : Nat} (v : Nat) (h : s.full k = true) : (s.putLocalWord tile a v).full k = true := by
  have hk : ¬ k / 8 ∈ s.empties := by simpa [State.full] using h
  refine congrArg (fun b => !b) (?_ : (dropKey s.empties (localKey tile a / 8)).contains (k / 8) = false)
  simp [dropKey, hk]

theorem State.full_withMissPos (s : State) (p : List (Nat × Nat)) (k : Nat) : ({ s with missPos := p } : State).full k = s.full k := rfl

theorem mem_addKey_self (l : List Nat) (k : Nat) : k ∈ addKey l k := by
  induction l with
  | nil => exact List.mem_cons_self
  | cons j l ih =>
    unfold addKey
    split
    · exact List.mem_cons_self
    · split
      · next h => exact h ▸ List.mem_cons_self
      · exact List.mem_cons_of_mem _ ih
theorem mem_addKey_of_mem {l : List Nat} {x : Nat} (k : Nat) (h : x ∈ l) : x ∈ addKey l k := by
  induction l with
  | nil => cases h
  | cons j l ih =>
    unfold addKey
    split
    · exact List.mem_cons_of_mem _ h
    · split
      · exact h
      · rcases List.mem_cons.1 h with rfl | h
        · exact List.mem_cons_self
        · exact List.mem_cons_of_mem _ (ih h)
theorem mem_foldl_addKey (ws l : List Nat) {x : Nat} (h : x ∈ ws ∨ x ∈ l) : x ∈ ws.foldl addKey l := by
  induction ws generalizing l with
  | nil => exact h.resolve_left (by simp)
  | cons w ws ih =>
    refine ih _ ?_
    rcases h with h | h
    · rcases List.mem_cons.1 h with rfl | h
      · exact .inr (mem_addKey_self l x)
      · exact .inl h
    · exact .inr (mem_addKey_of_mem w h)

/-! ### Misses and their answers (R362, R363, R394) -/

theorem exec_missRecord {tile idx : Nat} {m : Miss} (hm : (s.tile tile).misses[idx]? = some m) (hw : m.written = false)
    (hn : (getA s.missPos (s.clusterId tile)).getD 0 < 1024) : ∃ z, exec (.missRecord tile idx) s = .next z ∧
      (getA z.missPos (s.clusterId tile)).getD 0 = (getA s.missPos (s.clusterId tile)).getD 0 + 1 ∧
      z.full (localKey (s.svcOf (s.clusterId tile)) (0x6_0000 + 16 * (getA s.missPos (s.clusterId tile)).getD 0)) = true := by
  have hf : ¬ (1024 ≤ (getA s.missPos (s.clusterId tile)).getD 0 ∧
      s.full (localKey (s.svcOf (s.clusterId tile)) (0x6_0000 + 16 * ((getA s.missPos (s.clusterId tile)).getD 0 % 1024))) = true) := fun h => by omega
  change ∃ z, execMissRecord tile idx s = .next z ∧ _
  simp only [execMissRecord, hm, hw, if_neg Bool.false_ne_true, if_neg hf]
  refine ⟨_, rfl, ?_, ?_⟩
  · rw [getA_putA_same]
    rfl
  · rw [Nat.mod_eq_of_lt hn]
    exact (State.full_withMissPos _ _ _).trans (full_putLocalWord_of_full _ (full_putLocalWord_same _ _ _ _))

theorem exec_fillDeliver_full {cl : Nat} (h : s.full (localKey (s.svcOf cl) 0x6_4010) = true) : exec (.fillDeliver cl) s = .next (s.deliverFill cl) :=
  if_pos h
theorem exec_fillDeliver_walk {cl a ctx va res : Nat} {e : Option TEntry} {l : List (Nat × Nat × Nat)}
    (h : s.full (localKey (s.svcOf cl) 0x6_4010) = false) (hr : s.missRing cl = (a, ctx, va) :: l) (hw : s.walkFor cl (a, ctx, va) = some (res, e)) :
    exec (.fillDeliver cl) s = .next ((s.answer cl a res e).deliverFill cl) := by
  refine (?_ : execFillDeliver cl s = _)
  have hx : (s.missRing cl).findSome? (fun r => (s.walkFor cl r).map fun w => (r.1, w)) = some (a, res, e) := by
    rw [hr, List.findSome?_cons, hw]
    rfl
  simp only [execFillDeliver, h, if_neg Bool.false_ne_true, hx]
theorem exec_hostPageAnswer_failure {cl a ctx va : Nat} {l : List (Nat × Nat × Nat)}
    (h : s.full (localKey (s.svcOf cl) 0x6_4010) = false) (hr : s.missRing cl = (a, ctx, va) :: l) (hw : s.walk ctx va = none)
    (hc : (s.context? ctx).isSome = true) : exec (.hostPageAnswer cl .failure) s = .next ((s.answer cl a 1 none).deliverFill cl) := by
  refine (?_ : execHostPageAnswer cl .failure s = _)
  have hx : (s.missRing cl).find? (fun r => (s.walk r.2.1 r.2.2).isNone) = some (a, ctx, va) := by
    rw [hr]
    exact List.find?_cons_of_pos (by simp [hw])
  have hn : (s.context? ctx).isNone = false := by simpa using hc
  simp only [execHostPageAnswer, h, if_neg Bool.false_ne_true, hx, hn]

/-! ### Invalidation (R370) -/

/-- While a tile has to acknowledge, the invalidation stands behind those before it. -/
theorem State.beginInval_of_left {v : Inval} (h : v.left ≠ []) :
    (s.beginInval v).invals = s.invals ++ [(s.nextInval, v)] ∧ (s.beginInval v).mem = s.mem := by
  have hl : v.left.isEmpty = false := by simpa using h
  unfold State.beginInval
  simp only [hl, if_neg Bool.false_ne_true]
  exact ⟨rfl, rfl⟩
theorem exec_hostPageAnswer_invalidate {cl ctx base len : Nat} (hc : (s.context? ctx).isSome = true) :
    exec (.hostPageAnswer cl (.invalidate ctx base len)) s = .next (s.beginInval ⟨ctx, base, len, none, s.tiles.map (·.1)⟩) := by
  have hn : (s.context? ctx).isNone = false := by simpa using hc
  refine (?_ : execHostPageAnswer cl (.invalidate ctx base len) s = _)
  simp only [execHostPageAnswer, hn, if_neg Bool.false_ne_true]

theorem State.tiles_invalDone (s : State) (id : Nat) (v : Inval) : (s.invalDone id v).tiles = s.tiles := by
  unfold State.invalDone
  dsimp only
  split
  · exact State.tiles_postDone _ _ _ _ _
  · rfl
theorem Tile.tlb_without {t : Tile} {v : Inval} {e : TEntry} (h : e ∈ (t.without v).tlb) : v.hits e = false := by
  simpa using (List.mem_filter.1 h).2
theorem exec_tileInvalAck {tile id : Nat} {v : Inval} {l : List (Nat × Inval)} (hi : s.invals = (id, v) :: l) (ht : tile ∈ v.left)
    (hr : (s.tile tile).returning v.ctx v.base v.len = false) :
    ∃ z, exec (.tileInvalAck tile) s = .next z ∧ ∀ e ∈ (z.tile tile).tlb, v.hits e = false := by
  have hx : s.invals.find? (fun p => p.2.left.contains tile) = some (id, v) := by
    rw [hi]
    exact List.find?_cons_of_pos (by simpa using ht)
  have hz : ∀ y : State, y.tiles = (s.setTile tile ((s.tile tile).without v)).tiles → ∀ e ∈ (y.tile tile).tlb, v.hits e = false := by
    intro y hy e he
    have ht : y.tile tile = (s.tile tile).without v :=
      (congrArg (fun ts => (getA ts tile).getD Tile.fresh) hy).trans (State.tile_setTile_same s tile _)
    exact Tile.tlb_without (ht ▸ he)
  change ∃ z, execTileInvalAck tile s = .next z ∧ _
  simp only [execTileInvalAck, hx, hr, if_neg Bool.false_ne_true]
  refine ⟨_, rfl, hz _ ?_⟩
  split
  · exact State.tiles_invalDone _ _ _
  · rfl

/-! ### The side log's replay (R366) -/

section
variable {tile : Nat} {e : SideEntry} {te : TEntry} {l : List SideEntry}

/-- The first entry of the side log can be replayed where no miss is open, unless it is the tail of a store across granules. -/
theorem replay_of_first (hs : (s.tile tile).side = e :: l) (hm : (s.tile tile).misses = []) (hb : s.blocked e.ctx e.addr = false)
    (hl : s.tlb? tile e.ctx e.addr = some te) (hw : te.w = true) (hd : s.routeDown (te.pa e.addr) = false)
    (hp : s.peerRefused (te.pa e.addr) true = false) (hk : s.bankOff (te.pa e.addr) = false) (ht : ∀ bs, e.work ≠ .store bs .tail) :
    exec (.sidelogReplay tile) s = .next (match e.work with
      | .store bs f => (match f.breach te e.addr with
        | some _ => (s.setTile tile { s.tile tile with side := l }).count ⟨tile, e.core⟩ 4
        | none => s.setTile tile { s.tile tile with side := l }).landStore (e.thr tile) e.seq e.ctx te e.addr bs f
      | .red f n sx v x => (s.setTile tile { s.tile tile with side := l }).performRed ⟨tile, e.core⟩ e te f n sx v x) := by
  have hg : (s.tile tile).side.find? (fun o => o.ctx == e.ctx && granuleOf o.addr == granuleOf e.addr) = some e := by
    rw [hs]
    exact List.find?_cons_of_pos (by simp)
  have hr : (s.tile tile).side.erase e = l := by
    rw [hs]
    exact List.erase_cons_head _ _
  have hf : ∀ p : SideEntry → Bool, p e = true → (s.tile tile).side.find? p = some e := fun p hp => hs ▸ List.find?_cons_of_pos hp
  refine (?_ : execSidelogReplay tile s = _)
  unfold execSidelogReplay
  dsimp only
  rw [hf _ (?_)]
  · simp only [hl, hw, hd, hp, hk, hr, Bool.not_true, if_neg Bool.false_ne_true]
    cases e.work <;> rfl
  · simp only [hb, hm, hg, List.any_nil, Bool.not_false, beq_self_eq_true, Bool.and_true]
end

/-! ### Errors (R157, R371) -/

theorem State.latent_bufError (s : State) (e : Nat × Bool) : (s.bufError e).latent = s.latent := by
  unfold State.bufError
  split <;> rfl
theorem State.latent_putLocalWord (s : State) (tile a v : Nat) : (s.putLocalWord tile a v).latent ⊆ s.latent :=
  fun _ h => (List.mem_filter.1 h).1
theorem State.latent_faultRecord (s : State) (tile : Nat) (kind cause va ctx : Nat) (core h : Nat) :
    (s.faultRecord tile kind cause va ctx core h).latent ⊆ s.latent := by
  unfold State.faultRecord
  dsimp only
  split
  · exact State.latent_putLocalWord _ _ _ _
  · dsimp only
    exact List.Subset.trans (State.latent_putLocalWord _ _ _ _) (State.latent_putLocalWord _ _ _ _)

theorem latent_foldl_subset {ε : Type} {f : State → ε → State} (hf : ∀ z e, (f z e).latent ⊆ z.latent) (l : List ε) (z : State) :
    (l.foldl f z).latent ⊆ z.latent := by
  induction l generalizing z with
  | nil => exact List.Subset.refl _
  | cons x l ih => exact List.Subset.trans (ih _) (hf z x)

/-- Scrubbing takes every error of its range, and reporting them adds none. -/
theorem State.latent_scrubbed {k n : Nat} {e : Nat × Bool} (h : e ∈ (s.scrubbed k n).latent) : e.1 ∉ errorWords k n := by
  have hx := latent_foldl_subset (fun z (x : Nat × Bool) => State.latent_faultRecord z (scrubTile x.1) 0 4 (errorAddr x.1) 0 0 0) _ _ h
  rw [foldl_keeps State.latent (fun z x => State.latent_bufError z x)] at hx
  simpa using (List.mem_filter.1 hx).2

theorem foldl_ne_nil {α ε : Type} {f : List α → ε → List α} (hf : ∀ acc x, acc ≠ [] → f acc x ≠ []) (l : List ε) {acc : List α} (h : acc ≠ []) :
    l.foldl f acc ≠ [] := by
  induction l generalizing acc with
  | nil => exact h
  | cons x l ih => exact ih (hf acc x h)
/-- Where an error lies under a range, the range has one to find. -/
theorem State.errorsAt_ne_nil {k n : Nat} (h : ∃ e ∈ s.latent, e.1 ∈ errorWords k n) : s.errorsAt k n ≠ [] := by
  obtain ⟨e, he, hk⟩ := h
  have hm : e ∈ s.latent.filter fun e => (errorWords k n).contains e.1 := List.mem_filter.2 ⟨he, by simpa using hk⟩
  unfold State.errorsAt
  generalize s.latent.filter (fun e => (errorWords k n).contains e.1) = es at hm
  cases es with
  | nil => cases hm
  | cons x xs =>
    rw [List.foldl_cons]
    refine foldl_ne_nil (fun acc y hy => ?_) xs (by simp)
    split
    · exact hy
    · simp
theorem exec_patrolScrub {word : Nat} (h : ∃ e ∈ s.latent, e.1 ∈ errorWords (8 * word) 8) :
    exec (.patrolScrub word) s = .next (s.scrubbed (8 * word) 8) :=
  if_neg (by simpa using State.errorsAt_ne_nil h)

theorem exec_softError_copy {word bits n : Nat} {t : ThreadRef} (h : s.copyAt word = some (t, n)) :
    exec (.softError word bits) s = .next (if bits ≤ 1 then s else s.setThread t { s.thread t with bad := addKey (s.thread t).bad n }) := by
  refine (?_ : execSoftError word bits s = _)
  simp only [execSoftError, h]
/-- An error of several symbols in a stored word waits to be found, and poisons what its code covers. -/
theorem exec_softError_word {word bits : Nat} (hb : 2 ≤ bits) (hw : storedWord word = true) (h : s.copyAt word = none) :
    exec (.softError word bits) s = .next { s with
      latent := s.latent ++ [(word, true)], poison := (errorWords (8 * word) 8).foldl addKey s.poison } := by
  have hz : ¬ (bits = 0 ∨ storedWord word = false) := by
    simp only [hw, Bool.true_eq_false, or_false]
    omega
  have h1 : ¬ bits = 1 := by omega
  refine (?_ : execSoftError word bits s = _)
  simp only [execSoftError, h, if_neg hz, if_neg h1, hb, decide_true]

end
end Sys2Proof.Machine
namespace Sys2Proof.Proofs
open Sys2Proof.Machine Sys2Proof.Claims

/-- Settles O49: each step by the head of the list it works through; a miss's record keeps its first word full, an invalidated tile's entries are filtered,
and what scrubbing reports adds no error. -/
theorem translationSteps : Obligations.TranslationSteps := by
  refine ⟨fun s tile idx m => exec_missRecord, fun s cl => exec_fillDeliver_full, fun s cl a ctx va res e l => exec_fillDeliver_walk,
    fun s cl a ctx va l => exec_hostPageAnswer_failure, fun s cl ctx base len hc ht => ?_, fun s tile e te l hs hm hb hl hw hd hp hk => ?_,
    fun s tile id v l => exec_tileInvalAck, fun s word h => ⟨_, exec_patrolScrub h, fun e => State.latent_scrubbed⟩,
    fun s word bits t n => exec_softError_copy,
    fun s word bits hb hw hc => ⟨_, exec_softError_word hb hw hc, rfl, rfl, fun w h => mem_foldl_addKey _ _ (.inl h)⟩⟩
  · obtain ⟨hi, hm⟩ := State.beginInval_of_left (s := s) (v := ⟨ctx, base, len, none, s.tiles.map (·.1)⟩) (by simpa using ht)
    exact ⟨_, _, exec_hostPageAnswer_invalidate hc, hi, rfl, rfl, rfl, rfl, hm⟩
  · constructor
    · intro bs f h hf hn
      rw [replay_of_first hs hm hb hl hw hd hp hk (fun bs' h' => hf (SideWork.store.inj (h.symm.trans h')).2), h]
      simp only [hn]
    · intro f n sx v x h
      rw [replay_of_first hs hm hb hl hw hd hp hk (fun bs' h' => nomatch h.symm.trans h'), h]

end Sys2Proof.Proofs
end

section
/-! Memory devices and other modules (O50): the rows' counts, the weight store's regions, a read for no core, a store that is discarded, and a port's bit. -/
namespace Sys2Proof.Machine
open Sys2Proof.Claims

section
variable {s : State}

/-! ### Rows and their counts (R376) -/

/-- Clearing the counts about a row clears its own. -/
theorem actCount_clearRows {st b r lo hi : Nat} (hl : lo ≤ r) (hh : r ≤ hi) {z : State} (hz : z.acts = clearRows s.acts st b lo hi) : z.actCount st b r = 0 := by
  have hx : z.acts.find? (fun x => x.1 == st && x.2.1 == b && x.2.2.1 == r) = none := by
    rw [hz, List.find?_eq_none]
    intro x hx hm
    obtain ⟨-, hk⟩ := List.mem_filter.1 hx
    simp only [Bool.and_eq_true, beq_iff_eq] at hm
    obtain ⟨⟨h1, h2⟩, h3⟩ := hm
    simp [h1, h2, h3, hl, hh] at hk
  rw [State.actCount, hx]
  rfl
theorem exec_hbmAlert {st : Fin 8} {b r : Nat} (hc : s.ath.toNat ≤ s.actCount st.val b r) (hb : ∀ x ∈ s.backoff, ¬ (x.1 = st.val ∧ x.2.1 = b))
    (ho : s.bankOwes st.val b = false) (hw : ∀ t ∈ s.threadRefs, ∀ w, (s.thread t).wait = some w → w.why ≠ .retry tagBank (8 * b + st.val)) :
    ∃ z : State, exec (.hbmAlert st.val b r) s = .next z ∧ z.backoff = s.backoff ++ [(st.val, b, s.cycle + 192)] ∧ z.actCount st.val b r = 0 ∧ z.mem = s.mem := by
  have hback : s.backoff.any (fun x => x.1 == st.val && x.2.1 == b) = false := List.any_eq_false.2 fun x hx h => hb x hx (by simpa using h)
  have hwait : s.threadRefs.any (fun t => match (s.thread t).wait with | some w => w.why == .retry tagBank (8 * b + st.val) | none => false) = false := by
    refine List.any_eq_false.2 fun t ht h => ?_
    split at h
    · next w hx => exact hw t ht w hx (by simpa using h)
    · cases h
  have hfree : ¬ (s.backoff.any (fun x => x.1 == st.val && x.2.1 == b) = true ∨ s.bankOwes st.val b = true ∨
      s.threadRefs.any (fun t => match (s.thread t).wait with | some w => w.why == .retry tagBank (8 * b + st.val) | none => false) = true) := by
    rw [hback, ho, hwait]
    simp
  exact ⟨_, (dif_pos st.isLt).trans ((if_neg (Nat.not_lt.2 hc)).trans (if_neg hfree)), rfl, actCount_clearRows (Nat.sub_le ..) (Nat.le_add_right ..) rfl, rfl⟩
theorem exec_hbmBackoffEnd {st : Fin 8} {b e : Nat} (hb : (st.val, b, e) ∈ s.backoff) (he : e ≤ s.cycle) :
    ∃ z : State, exec (.hbmBackoffEnd st.val b) s = .next z ∧ (∀ x ∈ z.backoff, ¬ (x.1 = st.val ∧ x.2.1 = b)) ∧ z.mem = s.mem := by
  have hany : s.backoff.any (fun x => x.1 == st.val && x.2.1 == b && decide (x.2.2 ≤ s.cycle)) = true :=
    List.any_eq_true.2 ⟨_, hb, by simpa using he⟩
  refine ⟨_, (dif_pos st.isLt).trans (if_neg (by simp [hany])), fun x hx ⟨hst, hbank⟩ => ?_, rfl⟩
  have hk := (List.mem_filter.1 hx).2
  simp [hst, hbank] at hk
theorem exec_hbmRefresh (st : Fin 8) (b r : Nat) :
    ∃ z : State, exec (.hbmRefresh st.val b r) s = .next z ∧ z.actCount st.val b r = 0 ∧ z.mem = s.mem :=
  ⟨_, if_pos st.isLt, actCount_clearRows (Nat.le_refl _) (Nat.le_refl _) rfl, rfl⟩

/-! ### The weight store (R161, R162) -/

section
variable {die region : Nat} (hd : die < 2) (hr : region < 64)
include hd hr

theorem region_lawful : ¬ (die ≥ 2 ∨ region ≥ 64) := by omega
theorem exec_weightStoreWrite_start (hn : (die, region) ∉ s.wsWriting) (hl : s.wsListed die region = false) :
    exec (.weightStoreWrite die region .start) s = .next { s with wsWriting := s.wsWriting ++ [(die, region)] } :=
  (if_neg (region_lawful hd hr)).trans (if_neg (by simp [hn, hl]))
theorem exec_weightStoreWrite_data {off : Nat} {bs : List Byte} (hn : (die, region) ∈ s.wsWriting) (ho : off + bs.length ≤ 2 ^ 24) :
    exec (.weightStoreWrite die region (.data off bs)) s = .next (s.putBytes (wsKey die (2 ^ 24 * region + off)) bs) :=
  (if_neg (region_lawful hd hr)).trans (if_neg (by simpa [hn] using ho))
theorem exec_weightStoreWrite_finish (hn : (die, region) ∈ s.wsWriting) :
    exec (.weightStoreWrite die region .finish) s = .next { s with wsWriting := s.wsWriting.filter (· != (die, region)) } :=
  (if_neg (region_lawful hd hr)).trans (if_neg (by simp [hn]))
end

/-! ### The host and other modules (R353, R377, R384) -/

theorem exec_hostMemAccess {acc : HostAccess} (hr : s.hostReaches acc.pa acc.bytes.length = true) (hb : s.bankBusy acc.pa acc.bytes.length = false) :
    exec (.hostMemAccess acc) s = .next (if acc.write then s.hostStore acc.pa acc.bytes else s.readAside acc.pa acc.bytes.length) :=
  (if_neg (by simp [hr])).trans (if_neg (by simp [hb]))

theorem State.errorsAt_of_clean (h : s.latent = []) (k n : Nat) : s.errorsAt k n = [] := by
  rw [State.errorsAt, h]
  rfl
/-- A controller finds nothing in a memory without errors. -/
theorem State.scrubbed_of_clean (h : s.latent = []) (k n : Nat) : s.scrubbed k n = s := by
  unfold State.scrubbed
  rw [State.errorsAt_of_clean h, h]
  exact congrArg (fun l => ({ s with latent := l } : State)) h.symm
theorem State.mem_readAside_of_clean (h : s.latent = []) (pa n : Nat) : (s.readAside pa n).mem = s.mem := by
  refine (?_ : ((hostReaches.linePieces' pa n).foldl (fun (z : State) p => (z.scrubbed p.1 p.2).activate p.1) s).mem = s.mem)
  generalize hostReaches.linePieces' pa n = l
  induction l generalizing s with
  | nil => rfl
  | cons p l ih =>
    rw [List.foldl_cons, State.scrubbed_of_clean h]
    exact ih h

section
variable {req : PeerReq} {key pa : Nat}

/-- No request waits that no window of the table of windows lets through. -/
theorem State.peerWaits_of_none (h : s.exported (peerSpan req).1 (peerSpan req).2.1 (peerSpan req).2.2 = none) : ¬ s.peerWaits req = true := by
  simp [State.peerWaits, h]
theorem State.peerWaits_of_free (h : s.exported (peerSpan req).1 (peerSpan req).2.1 (peerSpan req).2.2 = some (key, pa))
    (hb : s.bankBusy pa (peerSpan req).2.1 = false) : ¬ s.peerWaits req = true := by
  simp [State.peerWaits, h, hb]
end

section
variable {off n key pa : Nat} {bs : List Byte}

theorem exec_peerRead_none (h : s.exported off n false = none) : exec (.peerRequest (.read off n)) s = .next s := by
  refine (if_neg (State.peerWaits_of_none (req := .read off n) h)).trans ?_
  simp only [h]
theorem exec_peerRead (h : s.exported off n false = some (key, pa)) (hb : s.bankBusy pa n = false) :
    exec (.peerRequest (.read off n)) s = .next (s.readAside pa n) := by
  refine (if_neg (State.peerWaits_of_free (req := .read off n) h hb)).trans ?_
  simp only [h]
theorem exec_peerWrite_none (h : s.exported off bs.length true = none) : exec (.peerRequest (.write off bs)) s = .next s := by
  refine (if_neg (State.peerWaits_of_none (req := .write off bs) h)).trans ?_
  simp only [h]
theorem exec_peerWrite (h : s.exported off bs.length true = some (key, pa)) (hb : s.bankBusy pa bs.length = false) :
    exec (.peerRequest (.write off bs)) s = .next (s.peerStore key pa bs) := by
  refine (if_neg (State.peerWaits_of_free (req := .write off bs) h hb)).trans ?_
  simp only [h]
theorem exec_peerSwap {sx : Bool} {v : Nat} (h : s.exported off n true = some (key, pa)) (hn : n = 4 ∨ n = 8) (ha : pa % n = 0)
    (hp : s.poisoned pa n = false) (hb : s.bankBusy pa n = false) :
    exec (.peerRequest (.amo off .swap n sx v)) s = .next ((s.readAside pa n).peerStore key pa (bytesOfNat n (v % 2 ^ (8 * n)))) := by
  have hs : ¬ (peerSized .swap n = false ∨ pa % n ≠ 0 ∨ s.poisoned pa n = true) := by
    have hz : peerSized .swap n = true := by rcases hn with rfl | rfl <;> rfl
    simp [hz, ha, hp]
  refine (if_neg (State.peerWaits_of_free (req := .amo off .swap n sx v) h hb)).trans ?_
  simp only [h]
  exact if_neg hs
theorem exec_peerStf {v : BitVec 64} (h : s.exported off 8 true = some (key, pa)) (ha : pa % 8 = 0) (hf : s.full pa = false)
    (hb : s.bankBusy pa 8 = false) :
    exec (.peerRequest (.fe off (.stf v))) s = .next ((s.peerStore key pa (bytesOfNat 8 v.toNat)).setFull pa true) := by
  have hg : ¬ (peerFn (.stf v)).goes (s.full pa) = false := by
    rw [hf]
    exact Bool.noConfusion
  have hx : s.exported off 8 (peerFn (.stf v)).isWrite = some (key, pa) := h
  refine (if_neg (State.peerWaits_of_free (req := .fe off (.stf v)) h hb)).trans ?_
  simp only [hx]
  exact (if_neg (by simpa using ha)).trans ((if_neg hg).trans (if_neg (fun h => Bool.noConfusion h.1)))
end

/-! ### Requests that another module leaves unanswered (R384) -/

section
variable {t : ThreadRef}

theorem exec_peerTimeout_reply {w : WaitRec} {r : Reply} {pa : Nat} (hw : (s.thread t).wait = some w) (hy : w.why = .reply) (hst : (s.thread t).st = .waiting)
    (hr : (s.core t.coreRef).replies = [r]) (hh : r.h = t.h) (hp : r.peer = some pa) (hc : w.since + 2 ^ 24 ≤ s.cycle) :
    exec (.peerTimeout t) s = .next (((s.setCore t.coreRef { s.core t.coreRef with replies := [] }).setThread t
      { s.thread t with st := .ready, wait := none }).takeTrap t .pfault w.pc (reasonVal 2 pa)) := by
  have hf : [r].find? (fun p => p.h == t.h && p.peer.isSome) = some r := List.find?_cons_of_pos (by simp [hh, hp])
  have hl : ¬ ((s.thread t).st ≠ .waiting ∨ w.why ≠ .reply ∨ s.cycle < w.since + 2 ^ 24) := by
    simp only [hst, hy, ne_eq, not_true_eq_false, false_or]
    omega
  have ht : (s.setCore t.coreRef { s.core t.coreRef with replies := [] }).thread t = s.thread t := State.thread_setCore _ _ _ (by rfl) _
  refine (?_ : execPeerTimeout t s = _)
  simp only [execPeerTimeout, hw, hr, hf, if_neg hl, List.erase_cons_head, hp, Option.getD_some]
  rw [ht]

/-- Reports and traps of discarded entries touch no store buffer. -/
theorem State.sbuf_setCore (s : State) (k : CoreRef) {c : Core} {q : CoreRef} (h : c.sbuf = (s.core k).sbuf) : ((s.setCore k c).core q).sbuf = (s.core q).sbuf := by
  by_cases hq : q = k
  · rw [hq, State.core_setCore_same, h]
  · rw [State.core_setCore_other _ _ hq]
theorem State.sbuf_countN (s : State) (k : CoreRef) (e : Fin 64) (n : Nat) (q : CoreRef) : ((s.countN k e n).core q).sbuf = (s.core q).sbuf := by
  unfold State.countN
  split
  · rfl
  · exact State.sbuf_setCore s k (q := q) (by rfl)
theorem State.sbuf_asyncTrap (s : State) (t : ThreadRef) (c : Cause) (v : Word64) (q : CoreRef) : ((s.asyncTrap t c v).core q).sbuf = (s.core q).sbuf := by
  unfold State.asyncTrap
  split
  · exact State.sbuf_countN _ _ _ _ _
  · exact State.sbuf_setCore s _ (q := q) (by rfl)
theorem State.sbuf_discardEntry (s : State) (tile : Nat) (core : Fin 3) (h : Fin 8) (ctx kind a cause : Nat) (trap : Option (Cause × Word64)) (q : CoreRef) :
    ((s.discardEntry tile core h ctx kind a cause trap).core q).sbuf = (s.core q).sbuf := by
  have hc : (s.faultRecord tile kind cause a ctx core.val h.val).core q = s.core q :=
    congrArg (fun ts => ((getA ts q.tile).getD Tile.fresh).cores[q.core]) (State.tiles_faultRecord s tile kind cause a ctx core.val h.val)
  unfold State.discardEntry
  dsimp only
  split
  · rw [State.sbuf_asyncTrap, hc]
  · rw [hc]
/-- Discarding side-log entries that no later piece settles leaves the store buffers alone. -/
theorem State.sbuf_dropSide (s : State) (tile ctx g cause : Nat) (trap : Nat → Cause × Word64) (hs : ∀ e ∈ (s.tile tile).side, ∀ bs x y w, e.work ≠ .store bs (.late x y w))
    (q : CoreRef) : ((s.dropSide tile ctx g cause trap).core q).sbuf = (s.core q).sbuf := by
  have hdrop : ∀ (es : List SideEntry) (seen : List ThreadRef) (z : State), (∀ e ∈ es, ∀ bs x y w, e.work ≠ .store bs (.late x y w)) →
      ((z.dropEntries tile ctx cause trap seen es).core q).sbuf = (z.core q).sbuf := by
    intro es
    induction es with
    | nil => exact fun _ _ _ => rfl
    | cons e es ih =>
      intro seen z hl
      unfold State.dropEntries
      rw [ih _ _ fun x hx => hl x (List.mem_cons_of_mem _ hx), State.sbuf_discardEntry, State.count, State.sbuf_countN]
      split
      · next bs x y w h => exact absurd h (hl e List.mem_cons_self bs x y w)
      · rfl
  unfold State.dropSide
  rw [hdrop _ _ _ fun e he => hs e (List.mem_filter.1 he).1]
  by_cases hq : q.tile = tile
  · subst hq
    rw [State.core, State.tile_setTile_same]
    rfl
  · rw [State.core, State.tile_setTile_other _ _ hq]
    rfl

/-- A search that one element of a list alone answers gives that answer. -/
theorem findSome?_of_unique {α β : Type} {l : List α} {f : α → Option β} {a : α} {b : β} (ha : a ∈ l) (hb : f a = some b)
    (hn : ∀ x, x ≠ a → f x = none) : l.findSome? f = some b := by
  induction l with
  | nil => cases ha
  | cons x l ih =>
    rw [List.findSome?_cons]
    rcases Classical.em (x = a) with rfl | hx
    · rw [hb]
    · rw [hn x hx]
      exact ih ((List.mem_cons.1 ha).resolve_left (Ne.symm hx))

/-- The oldest entry of a store buffer that another module leaves unanswered leaves it. -/
theorem exec_peerTimeout_store {e : StoreEntry} {l : List StoreEntry} (hw : (s.thread t).wait = none) (hb : (s.core t.coreRef).sbuf = e :: l) (hh : e.h = t.h)
    (hf : e.form = .plain) (hs : (s.tile t.tile).side = []) (ho : s.overdue t.tile e.ctx e.addr e.since = true) :
    ∃ z, exec (.peerTimeout t) s = .next z ∧ (z.core t.coreRef).sbuf = l := by
  have hfind : (s.core t.coreRef).sbuf.find? (fun e => e.h == t.h && s.overdue t.tile e.ctx e.addr e.since) = some e := by
    rw [hb]
    exact List.find?_cons_of_pos (by simp [hh, ho])
  have herase : (s.core t.coreRef).sbuf.erase e = l := by
    rw [hb]
    exact List.erase_cons_head _ _
  have hdrop : s.dropOverdue t = some ((s.moved t.coreRef e l).dropSide t.tile e.ctx (granuleOf e.addr) 1 fun a => (.pfault, reasonVal 2 a)) := by
    simp only [State.dropOverdue, hfind, herase]
    rfl
  have hstores := State.storesAt_moved s t.coreRef e l
  have hside : ((s.moved t.coreRef e l).tile t.tile).side =
      [⟨e.seq, t.core, e.h, e.ctx, e.addr, e.home, .store e.bytes e.form, e.lid, e.since⟩] :=
    (congrArg (fun p => p.2.1) hstores).trans (by rw [show (s.tile t.coreRef.tile).side = [] from hs]; rfl)
  have hexec : execPeerTimeout t s = .next ((s.moved t.coreRef e l).dropSide t.tile e.ctx (granuleOf e.addr) 1 fun a => (.pfault, reasonVal 2 a)) := by
    simp only [execPeerTimeout, hw, hdrop]
    rfl
  refine ⟨_, hexec, (State.sbuf_dropSide _ _ _ _ _ _ ?_ _).trans (congrArg Prod.fst hstores)⟩
  rw [hside, hf]
  intro x hx bs a b c h
  rw [List.mem_singleton.1 hx] at h
  cases h

theorem exec_peerTimeout_command {e : Fin 2} {q : Fin 4} {c : EngCmd} (hw : (s.thread t).wait = none) (hb : (s.core t.coreRef).sbuf = [])
    (hs : (s.tile t.tile).side = []) (hc : s.engHead t.tile e q = some c)
    (hn : ∀ (f : Fin 2) (p : Fin 4), (f, p) ≠ (e, q) → s.engHead t.tile f p = none) (hk : c.core = t.core) (hh : c.h = t.h) (hm : c.moves = true)
    (hd : c.moved + 2 ^ 24 ≤ s.cycle) (ha : ∃ a ∈ s.engAims t.tile e c, s.silent a = true) :
    exec (.peerTimeout t) s = .next (s.setEngHead t.tile e q { c with stage := .fin 6 (c.elem * cmdOffE c.words) }) := by
  have hdrop : s.dropOverdue t = none := by
    simp only [State.dropOverdue, hb, hs]
    rfl
  have hany : (s.engAims t.tile e c).any s.silent = true := List.any_eq_true.2 ha
  have hend : s.endOverdue t = some (s.setEngHead t.tile e q { c with stage := .fin 6 (c.elem * cmdOffE c.words) }) := by
    have hq : ∀ p : Fin 4, p ≠ q → s.engHead t.tile e p = none := fun p hp => hn e p fun h => hp (Prod.mk.inj h).2
    have hf : ∀ f : Fin 2, f ≠ e → ∀ p : Fin 4, s.engHead t.tile f p = none := fun f hf p => hn f p fun h => hf (Prod.mk.inj h).1
    refine findSome?_of_unique (List.mem_finRange e) (findSome?_of_unique (List.mem_finRange q) ?_ fun p hp => by simp only [hq p hp]) fun f hne => ?_
    · simp only [hc]
      exact if_pos ⟨hk, hh, hm, hd, hany⟩
    · exact List.findSome?_eq_none_iff.2 fun p _ => by simp only [hf f hne p]
  refine (?_ : execPeerTimeout t s = _)
  simp only [execPeerTimeout, hw, hdrop, hend]
  rfl
end

/-! ### Ports (R384) -/

theorem getLsbD_portBit (p j : Nat) (hj : j < 18) : (BitVec.ofNat 18 (2 ^ p)).getLsbD j = decide (p = j) := by
  rw [BitVec.getLsbD_ofNat, Nat.testBit_two_pow]
  simp [hj]
/-- A port that goes down clears its own bit. -/
theorem exec_portDown (p : Fin 18) : ∃ z : State, exec (.portDown p.val) s = .next z ∧ z.portsUp.getLsbD p.val = false ∧
    ∀ j, j ≠ p.val → z.portsUp.getLsbD j = s.portsUp.getLsbD j := by
  refine ⟨_, if_pos p.isLt, ?_, fun j hj => ?_⟩
  · rw [BitVec.getLsbD_and, BitVec.getLsbD_not, getLsbD_portBit p.val p.val p.isLt]
    simp
  · rcases Nat.lt_or_ge j 18 with h | h
    · rw [BitVec.getLsbD_and, BitVec.getLsbD_not, getLsbD_portBit p.val j h, decide_eq_false (Ne.symm hj), decide_eq_true h]
      simp
    · rw [BitVec.getLsbD_of_ge _ _ h, BitVec.getLsbD_of_ge _ _ h]
/-- A port that comes up sets its own bit. -/
theorem exec_portUp (p : Fin 18) : ∃ z : State, exec (.portUp p.val) s = .next z ∧ z.portsUp.getLsbD p.val = true ∧
    ∀ j, j ≠ p.val → z.portsUp.getLsbD j = s.portsUp.getLsbD j := by
  refine ⟨_, if_pos p.isLt, ?_, fun j hj => ?_⟩
  · rw [BitVec.getLsbD_or, getLsbD_portBit p.val p.val p.isLt]
    simp
  · rcases Nat.lt_or_ge j 18 with h | h
    · rw [BitVec.getLsbD_or, getLsbD_portBit p.val j h, decide_eq_false (Ne.symm hj), Bool.or_false]
    · rw [BitVec.getLsbD_of_ge _ _ h, BitVec.getLsbD_of_ge _ _ h]

end
end Sys2Proof.Machine
namespace Sys2Proof.Proofs
open Sys2Proof.Machine Sys2Proof.Claims

/-- Settles O50: each step by its tests; a row's own count is among those cleared, an entry left unanswered goes by the side log, and a port changes one bit. -/
theorem memoryDevices : Obligations.MemoryDevices := by
  refine ⟨fun s st b r => exec_hbmAlert, fun s st b e => exec_hbmBackoffEnd, fun s st b r => exec_hbmRefresh st b r,
    fun s die bank hd hb h => if_pos ⟨hd, hb, .inl h⟩, fun s die region hd hr => ?_, fun s acc => exec_hostMemAccess,
    fun s off n => ⟨exec_peerRead_none, fun key pa => exec_peerRead⟩, fun s pa n h => State.mem_readAside_of_clean h pa n,
    fun s off n key pa sx v => exec_peerSwap, fun s off key pa v => exec_peerStf,
    fun s off bs => ⟨exec_peerWrite_none, fun key pa => exec_peerWrite⟩, fun s t w r pa => exec_peerTimeout_reply, fun s t hw => ?_,
    fun s p => ⟨exec_portDown p, exec_portUp p⟩⟩
  · exact ⟨exec_weightStoreWrite_start hd hr, fun off bs => exec_weightStoreWrite_data hd hr,
      fun h => ⟨_, exec_weightStoreWrite_finish hd hr h, by simp⟩⟩
  · exact ⟨fun e l => exec_peerTimeout_store hw, fun e q c => exec_peerTimeout_command hw⟩

end Sys2Proof.Proofs
end

section
/-! The end of a stream (10 R198): ArrayCompletion speaks of every configuration word in force, one of no format (R194 takes 1 to 4) among them. Under
such a word the model reads rows of 40 bytes, beyond the activation block whose size the statement keeps apart from the accumulators. -/
namespace Sys2Proof.Proofs
open Sys2Proof.Machine Sys2Proof.Claims
set_option maxRecDepth 8000

/-- A stream of the block at 0 into the accumulators at 40. -/
def apartStream : MxCmd := ⟨3, 0, 40, 2, 0, none, 0, true, some 0, 0, none, none, none, false, none, 0, 0, false, []⟩
/-- Two activation rows, one column, two array rows, format 0. -/
def noFormat : Word64 := 0x0000_0201_0200_0000
/-- The thread that waits for the stream. -/
def streamCore : Core := { Core.fresh with threads := Core.fresh.threads.set 0 { Thread.fresh with st := .waiting } }
/-- A tile whose array ends the stream; the first element of the activations is a NaN. -/
def streamTile : Tile := { Tile.fresh with cores := Tile.fresh.cores.set 2 streamCore, mx := { MxArray.fresh with cfg := noFormat, queue := [apartStream] } }
def streamState : State := { State.reset with tiles := [(0, streamTile)], mem := [(2 ^ 52, 0xC0), (2 ^ 52 + 1, 0x7F)] }
/-- The accumulator of row 1 after the stream. -/
def accAfter : Option Nat := match exec (.mxCommandComplete 0) streamState with
  | .next t => some (t.natAt (localKey 0 48) 4)
  | _ => none

theorem accAfter_eq : accAfter = some 0x7FC0_0000 := by decide
theorem streamed_eq : streamed streamState 0 apartStream 1 0 = 0 := by decide
theorem streamState_ends : Ends streamState 0 apartStream := ⟨by decide, ⟨0, by decide, by decide⟩, by decide, by decide, by decide, by decide⟩

/-- Refutes O38: the NaN that row 0 leaves in its accumulator lies among the 40 bytes read as row 1 and makes that accumulator a NaN too, where the
statement's row 1 is that of the state before. -/
theorem not_arraySteps : ¬ Obligations.ArraySteps := by
  rintro ⟨h, -⟩
  obtain ⟨-, -, hstream, -, -⟩ := h streamState 0 apartStream streamState_ends
  obtain ⟨t, hexec, -, hmem⟩ := hstream rfl (by decide) (by decide)
  obtain ⟨-, hacc⟩ := hmem (show Memory.wf streamState.mem = true by decide) (by decide) (by decide)
  have hrow := hacc 1 0 (by decide) (by decide)
  have hafter := accAfter_eq
  rw [accAfter, hexec] at hafter
  rw [streamed_eq] at hrow
  exact absurd ((Option.some.inj hafter).symm.trans hrow) (by decide)

end Sys2Proof.Proofs
end

section
/-! Bursts of the engines (09 R167, 22 R384): EngineMoves says of a burst that the head command is then what its elements' moves leave; the model also
notes in it the cycle of the move, from which another module's silence is counted. -/
namespace Sys2Proof.Proofs
open Sys2Proof.Machine Sys2Proof.Claims
set_option maxRecDepth 8000

/-- A copy of one byte from local address 0 to 64, accepted in cycle 0. -/
def byteCopy : EngCmd := ⟨[0x0110_0000_0000_0000, 0, 64, 0, 0x0000_1000_0000_0000], 0, 0, 0, 0, 0, .run, 0, 0, 0, 0, 0, 0, 0, 0, 0, 0, 0, 0, none⟩
/-- The copy engine with that command at the head of queue 0. -/
def copyEngine : Engine := { Engine.fresh with queues := Engine.fresh.queues.set 0 [byteCopy] }
/-- Cycle 1. -/
def copyState : State := { State.reset with cycle := 1, tiles := [(0, { Tile.fresh with eng := Tile.fresh.eng.set 0 copyEngine })] }
/-- What the moves of the burst give. -/
def byteMoves : State × EngCmd × Option Move := copyState.moveElems ⟨0, 0, byteCopy⟩ (burstLen byteCopy.words)
/-- The cycle that the head command keeps after the burst. -/
def movedAfter : Option Nat := match exec (.engineBurst 0 0 0) copyState with
  | .next t => (t.engHead 0 0 0).map (·.moved)
  | _ => none

theorem movedAfter_eq : movedAfter = some 1 := by decide
theorem byteMoves_moved : byteMoves.2.1.moved = 0 := by decide
theorem byteMoves_through : byteMoves.2.2 = none := by decide

/-- Refutes O40: the burst of cycle 1 leaves a command that last moved in cycle 1, the moves alone one of cycle 0. -/
theorem not_engineSteps : ¬ Obligations.EngineSteps := by
  rintro ⟨-, -, hburst, -⟩
  have hmoves : copyState.moveElems ⟨0, 0, byteCopy⟩ (burstLen byteCopy.words) = (byteMoves.1, byteMoves.2.1, none) :=
    byteMoves_through ▸ (rfl : byteMoves = (byteMoves.1, byteMoves.2.1, byteMoves.2.2))
  obtain ⟨t, hexec, -, hhead, -⟩ := hburst copyState 0 0 0 byteCopy _ _ (by decide) (by decide) (by decide) (by decide) (by decide)
    (fun _ => by decide) (by decide) (by decide) hmoves
  have hafter : (t.engHead 0 0 0).map (·.moved) = some 1 := by
    have h := movedAfter_eq
    unfold movedAfter at h
    split at h
    · next u hu =>
      cases hexec.symm.trans hu
      exact h
    · cases h
  rw [hhead] at hafter
  exact absurd ((Option.some.inj hafter).symm.trans byteMoves_moved) (by decide)

end Sys2Proof.Proofs
end
